-- ==== Sys2Proof/Word.lean ====
section
/-! DEFINITION. The word types of the machine, the issuers, and the packet that crosses the fabric. -/

namespace Sys2Proof

abbrev Byte := BitVec 8
abbrev W16 := BitVec 16
abbrev W32 := BitVec 32
abbrev W64 := BitVec 64

/-- A vector register number v0 to v127 (R10). -/
abbrev VReg := BitVec 7
/-- A Prefect scalar register number s0 to s63 (R10). -/
abbrev SReg := BitVec 6
/-- A slice scalar register number g0 to g15 (R10). -/
abbrev GReg := BitVec 4
/-- A predicate number p0 to p7 (R10). -/
abbrev PReg := BitVec 3
/-- An index register number x0 to x3 (R10). -/
abbrev XReg := BitVec 2

/-- Who issues an instruction: the cohort of team `tid` whose lowest slice is `lead` (R187), or the Prefect of team
`tid` (R191). `tid` is the model's own number of a placed team. -/
inductive Issuer where
  | gang (tid lead : Nat)
  | prefect (tid : Nat)
  deriving DecidableEq, Repr

/-- A fabric packet, request or response, as one plain record (R152, R156, R161 to R169). A field that a kind of
packet does not carry is 0. -/
structure Packet where
  /-- Device that sent the packet. -/
  src : Nat := 0
  /-- Device the packet is for. -/
  dst : Nat := 0
  /-- Die of the issuing device whose tag pool holds the tag. -/
  die : Nat := 0
  /-- Request tag, 12 bits, and its generation, 4 bits (R156). -/
  tag : Nat := 0
  gen : Nat := 0
  /-- Pod domain of the issuing tenant (R154). -/
  domain : Nat := 0
  /-- Device physical address at the target. -/
  pa : Nat := 0
  /-- Access length in bytes. -/
  n : Nat := 0
  /-- Bytes carried. -/
  data : List Byte := []
  /-- Operation of an RDN: R393's code, or 32 and 33 for an event operation that writes or adds (R352), 34 and 35 where it
is a Prefect's, which locks stop (R94). Of a read, write or copy, 1 where it is no thread's or Prefect's, so that no lock stops
it. Of a response, the code of its request. -/
  op : Nat := 0
  /-- Lane identity of an LLQ or SCQ: cluster, core, slice and lane (R159). -/
  lane : Nat := 0
  /-- Sequence number of a multicast copy or of a collective (R164, R427). -/
  seq : Nat := 0
  /-- Group (R162) and member rank. -/
  group : Nat := 0
  rank : Nat := 0
  /-- Block number of a reduction, or element index of a sparse packet. -/
  index : Nat := 0
  /-- Status of a response: 0 DONE, 1 EXPORT, 2 EXPIRED, 3 UNREACHABLE (R166), or the SC result. -/
  status : Nat := 0
  /-- Vendor operation code (Table 5.9), or 16 read, 17 write, 18 response, 19 acknowledgement of the recovery lane. -/
  code : Nat := 0
  /-- Of an ordered store: rank, tag and generation of each member that is to be served (R165). -/
  tags : List (Nat × Nat × Nat) := []
  /-- Of a copy that a root makes for an ordered store, and of its status: the issuing device plus 1. -/
  origin : Nat := 0
  /-- Of a packet on the recovery lane: the device that sent it there plus 1 (R172). -/
  via : Nat := 0
  /-- Of a request of this device: the level of the leaf that named the target (R28); it does not travel. -/
  level : Nat := 0
  /-- Output of this device's switch: a fabric port (R148). -/
  port : Nat := 0
  /-- Input at which it entered this device's switch: a fabric port, or 33 for the device's own mesh (R151). -/
  input : Nat := 33
  /-- Time in ns at which it came to the head of its queue, once it has, and whether it is blocked (R171). -/
  headAt : Option Nat := none
  blocked : Bool := false
  deriving DecidableEq, Repr

/-- The operands of an event row: what the outside world or another agent supplies with it (the table gives an event no
encoding). Each meaning's docstring says which fields it reads. -/
structure EvArg where
  a : Nat := 0
  b : Nat := 0
  c : Nat := 0
  v : W64 := 0
  ok : Bool := false
  data : List Byte := []
  who : Issuer := .prefect 0
  p : Packet := {}
  deriving DecidableEq, Repr

end Sys2Proof
end

