-- ==== Sys2Proof/Syntax.lean ====
section
/-! DEFINITION. The instruction set: one constructor per row of spec/opcode_table.json. A row with an encoding carries
its fields in the order the table lists them, each as wide as its field; an event row has no field, and its operands are
the plain data of State.arg. Rows with fields stand first: Lean's runtime bounds the index of such a constructor. -/

namespace Sys2Proof

/-- One step of the machine: an encoded instruction (R300 to R314) or an event of the table. -/
inductive Instr where
  /-- IADD (R367). -/
  | iadd (h : BitVec 2) (w : BitVec 3) (d : BitVec 7) (a : BitVec 7) (b : BitVec 7)
  /-- ISUB (R367). -/
  | isub (h : BitVec 2) (w : BitVec 3) (d : BitVec 7) (a : BitVec 7) (b : BitVec 7)
  /-- IMUL (R367). -/
  | imul (h : BitVec 2) (w : BitVec 3) (d : BitVec 7) (a : BitVec 7) (b : BitVec 7)
  /-- IMULH (R367). -/
  | imulh (h : BitVec 2) (w : BitVec 3) (d : BitVec 7) (a : BitVec 7) (b : BitVec 7)
  /-- IMAD (R367). -/
  | imad (h : BitVec 2) (w : BitVec 3) (d : BitVec 7) (a : BitVec 7) (b : BitVec 7)
  /-- IMIN (R367). -/
  | imin (h : BitVec 2) (w : BitVec 3) (d : BitVec 7) (a : BitVec 7) (b : BitVec 7)
  /-- IMAX (R367). -/
  | imax (h : BitVec 2) (w : BitVec 3) (d : BitVec 7) (a : BitVec 7) (b : BitVec 7)
  /-- IABSD (R367). -/
  | iabsd (h : BitVec 2) (w : BitVec 3) (d : BitVec 7) (a : BitVec 7) (b : BitVec 7)
  /-- AND (R368). -/
  | vand (h : BitVec 2) (w : BitVec 3) (d : BitVec 7) (a : BitVec 7) (b : BitVec 7)
  /-- OR (R368). -/
  | vor (h : BitVec 2) (w : BitVec 3) (d : BitVec 7) (a : BitVec 7) (b : BitVec 7)
  /-- XOR (R368). -/
  | vxor (h : BitVec 2) (w : BitVec 3) (d : BitVec 7) (a : BitVec 7) (b : BitVec 7)
  /-- ANDN (R368). -/
  | andn (h : BitVec 2) (w : BitVec 3) (d : BitVec 7) (a : BitVec 7) (b : BitVec 7)
  /-- SHL (R368). -/
  | shl (h : BitVec 2) (w : BitVec 3) (d : BitVec 7) (a : BitVec 7) (b : BitVec 7)
  /-- SHR (R368). -/
  | shr (h : BitVec 2) (w : BitVec 3) (d : BitVec 7) (a : BitVec 7) (b : BitVec 7)
  /-- SRA (R368). -/
  | sra (h : BitVec 2) (w : BitVec 3) (d : BitVec 7) (a : BitVec 7) (b : BitVec 7)
  /-- FADD (R369). -/
  | fadd (h : BitVec 2) (w : BitVec 3) (d : BitVec 7) (a : BitVec 7) (b : BitVec 7)
  /-- FSUB (R369). -/
  | fsub (h : BitVec 2) (w : BitVec 3) (d : BitVec 7) (a : BitVec 7) (b : BitVec 7)
  /-- FMUL (R369). -/
  | fmul (h : BitVec 2) (w : BitVec 3) (d : BitVec 7) (a : BitVec 7) (b : BitVec 7)
  /-- FMA (R369). -/
  | fma (h : BitVec 2) (w : BitVec 3) (d : BitVec 7) (a : BitVec 7) (b : BitVec 7)
  /-- FMS (R369). -/
  | fms (h : BitVec 2) (w : BitVec 3) (d : BitVec 7) (a : BitVec 7) (b : BitVec 7)
  /-- FNMA (R369). -/
  | fnma (h : BitVec 2) (w : BitVec 3) (d : BitVec 7) (a : BitVec 7) (b : BitVec 7)
  /-- FMIN (R369). -/
  | fmin (h : BitVec 2) (w : BitVec 3) (d : BitVec 7) (a : BitVec 7) (b : BitVec 7)
  /-- FMAX (R369). -/
  | fmax (h : BitVec 2) (w : BitVec 3) (d : BitVec 7) (a : BitVec 7) (b : BitVec 7)
  /-- SEL (R370). -/
  | sel (h : BitVec 2) (w : BitVec 3) (d : BitVec 7) (a : BitVec 7) (b : BitVec 7)
  /-- SHFL (R373). -/
  | shfl (h : BitVec 2) (w : BitVec 3) (d : BitVec 7) (a : BitVec 7) (b : BitVec 7)
  /-- SHFLX (R373). -/
  | shflx (h : BitVec 2) (w : BitVec 3) (d : BitVec 7) (a : BitVec 7) (b : BitVec 7)
  /-- BPRM (R373). -/
  | bprm (h : BitVec 2) (w : BitVec 3) (d : BitVec 7) (a : BitVec 7) (b : BitVec 7)
  /-- DOT2 (R371). -/
  | dot2 (h : BitVec 2) (w : BitVec 3) (d : BitVec 7) (a : BitVec 7) (b : BitVec 7)
  /-- DOT4 (R371). -/
  | dot4 (h : BitVec 2) (w : BitVec 3) (d : BitVec 7) (a : BitVec 7) (b : BitVec 7)
  /-- PACK (R372). -/
  | pack (h : BitVec 2) (w : BitVec 3) (d : BitVec 7) (a : BitVec 7) (b : BitVec 7)
  /-- FSCALE (R369). -/
  | fscale (h : BitVec 2) (w : BitVec 3) (d : BitVec 7) (a : BitVec 7) (b : BitVec 7)
  /-- MOV (R374). -/
  | mov (h : BitVec 2) (w : BitVec 3) (d : BitVec 7) (a : BitVec 7)
  /-- NOT (R374). -/
  | vnot (h : BitVec 2) (w : BitVec 3) (d : BitVec 7) (a : BitVec 7)
  /-- INEG (R374). -/
  | ineg (h : BitVec 2) (w : BitVec 3) (d : BitVec 7) (a : BitVec 7)
  /-- IABS (R374). -/
  | iabs (h : BitVec 2) (w : BitVec 3) (d : BitVec 7) (a : BitVec 7)
  /-- POPC (R374). -/
  | popc (h : BitVec 2) (w : BitVec 3) (d : BitVec 7) (a : BitVec 7)
  /-- CLZ (R374). -/
  | clz (h : BitVec 2) (w : BitVec 3) (d : BitVec 7) (a : BitVec 7)
  /-- CTZ (R374). -/
  | ctz (h : BitVec 2) (w : BitVec 3) (d : BitVec 7) (a : BitVec 7)
  /-- BREV (R374). -/
  | brev (h : BitVec 2) (w : BitVec 3) (d : BitVec 7) (a : BitVec 7)
  /-- SEXT8 (R374). -/
  | sext8 (h : BitVec 2) (w : BitVec 3) (d : BitVec 7) (a : BitVec 7)
  /-- SEXT16 (R374). -/
  | sext16 (h : BitVec 2) (w : BitVec 3) (d : BitVec 7) (a : BitVec 7)
  /-- ZEXT8 (R374). -/
  | zext8 (h : BitVec 2) (w : BitVec 3) (d : BitVec 7) (a : BitVec 7)
  /-- ZEXT16 (R374). -/
  | zext16 (h : BitVec 2) (w : BitVec 3) (d : BitVec 7) (a : BitVec 7)
  /-- BSWAP (R374). -/
  | bswap (h : BitVec 2) (w : BitVec 3) (d : BitVec 7) (a : BitVec 7)
  /-- MOVG (R374). -/
  | movg (w : BitVec 3) (d : BitVec 7) (g : BitVec 4)
  /-- MOVGH (R374). -/
  | movgh (w : BitVec 3) (d : BitVec 7) (g : BitVec 4)
  /-- FNEG (R375). -/
  | fneg (h : BitVec 2) (w : BitVec 3) (d : BitVec 7) (a : BitVec 7)
  /-- FABS (R375). -/
  | fabs (h : BitVec 2) (w : BitVec 3) (d : BitVec 7) (a : BitVec 7)
  /-- FRCP (R375). -/
  | frcp (h : BitVec 2) (w : BitVec 3) (d : BitVec 7) (a : BitVec 7)
  /-- FRSQ (R375). -/
  | frsq (h : BitVec 2) (w : BitVec 3) (d : BitVec 7) (a : BitVec 7)
  /-- FSQRT (R375). -/
  | fsqrt (h : BitVec 2) (w : BitVec 3) (d : BitVec 7) (a : BitVec 7)
  /-- FEXP2 (R375). -/
  | fexp2 (h : BitVec 2) (w : BitVec 3) (d : BitVec 7) (a : BitVec 7)
  /-- FLOG2 (R375). -/
  | flog2 (h : BitVec 2) (w : BitVec 3) (d : BitVec 7) (a : BitVec 7)
  /-- FSIN (R375). -/
  | fsin (h : BitVec 2) (w : BitVec 3) (d : BitVec 7) (a : BitVec 7)
  /-- FCOS (R375). -/
  | fcos (h : BitVec 2) (w : BitVec 3) (d : BitVec 7) (a : BitVec 7)
  /-- FFLOOR (R375). -/
  | ffloor (h : BitVec 2) (w : BitVec 3) (d : BitVec 7) (a : BitVec 7)
  /-- FCEIL (R375). -/
  | fceil (h : BitVec 2) (w : BitVec 3) (d : BitVec 7) (a : BitVec 7)
  /-- FTRUNC (R375). -/
  | ftrunc (h : BitVec 2) (w : BitVec 3) (d : BitVec 7) (a : BitVec 7)
  /-- FRINT (R375). -/
  | frint (h : BitVec 2) (w : BitVec 3) (d : BitVec 7) (a : BitVec 7)
  /-- FCLASS (R375). -/
  | fclass (h : BitVec 2) (w : BitVec 3) (d : BitVec 7) (a : BitVec 7)
  /-- FFRAC (R375). -/
  | ffrac (h : BitVec 2) (w : BitVec 3) (d : BitVec 7) (a : BitVec 7)
  /-- CVT (R376). -/
  | cvt (h : BitVec 2) (w : BitVec 3) (d : BitVec 7) (a : BitVec 7) (n : BitVec 2) (f : BitVec 4)
  /-- BALLOT (R377). -/
  | ballot (h : BitVec 2) (w : BitVec 3) (d : BitVec 7) (a : BitVec 7)
  /-- VANY (R377). -/
  | vany (h : BitVec 2) (w : BitVec 3) (d : BitVec 7) (a : BitVec 7)
  /-- VALL (R377). -/
  | vall (h : BitVec 2) (w : BitVec 3) (d : BitVec 7) (a : BitVec 7)
  /-- BCAST (R377). -/
  | bcast (h : BitVec 2) (w : BitVec 3) (d : BitVec 7) (a : BitVec 7)
  /-- LANEID (R377). -/
  | laneid (h : BitVec 2) (w : BitVec 3) (d : BitVec 7)
  /-- SLICEID (R377). -/
  | sliceid (h : BitVec 2) (w : BitVec 3) (d : BitVec 7)
  /-- REDADD (R378). -/
  | redadd (h : BitVec 2) (w : BitVec 3) (d : BitVec 7) (a : BitVec 7)
  /-- REDMIN (R378). -/
  | redmin (h : BitVec 2) (w : BitVec 3) (d : BitVec 7) (a : BitVec 7)
  /-- REDMAX (R378). -/
  | redmax (h : BitVec 2) (w : BitVec 3) (d : BitVec 7) (a : BitVec 7)
  /-- PRFXADD (R378). -/
  | prfxadd (h : BitVec 2) (w : BitVec 3) (d : BitVec 7) (a : BitVec 7)
  /-- PRFXEX (R378). -/
  | prfxex (h : BitVec 2) (w : BitVec 3) (d : BitVec 7) (a : BitVec 7)
  /-- UNIQ (R377). -/
  | uniq (h : BitVec 2) (w : BitVec 3) (d : BitVec 7) (a : BitVec 7)
  /-- XSET (R379). -/
  | xset (h : BitVec 2) (w : BitVec 3) (a : BitVec 7) (x : BitVec 2)
  /-- XADD (R379). -/
  | xadd (h : BitVec 2) (w : BitVec 3) (c : BitVec 7) (x : BitVec 2)
  /-- XGET (R379). -/
  | xget (h : BitVec 2) (w : BitVec 3) (d : BitVec 7) (x : BitVec 2)
  /-- VLDX (R380). -/
  | vldx (h : BitVec 2) (w : BitVec 3) (d : BitVec 7) (c : BitVec 7) (x : BitVec 2)
  /-- VSTX (R380). -/
  | vstx (h : BitVec 2) (w : BitVec 3) (d : BitVec 7) (c : BitVec 7) (x : BitVec 2)
  /-- P2V (R379). -/
  | p2v (h : BitVec 2) (w : BitVec 3) (d : BitVec 7) (k : BitVec 3)
  /-- V2P (R379). -/
  | v2p (h : BitVec 2) (w : BitVec 3) (a : BitVec 7) (k : BitVec 3)
  /-- PNOT (R379). -/
  | pnot (h : BitVec 2) (w : BitVec 3) (p : BitVec 3) (q : BitVec 3)
  /-- PAND (R379). -/
  | pand (h : BitVec 2) (w : BitVec 3) (p : BitVec 3) (r : BitVec 3) (q : BitVec 3)
  /-- POR (R379). -/
  | por (h : BitVec 2) (w : BitVec 3) (p : BitVec 3) (r : BitVec 3) (q : BitVec 3)
  /-- PXOR (R379). -/
  | pxor (h : BitVec 2) (w : BitVec 3) (p : BitVec 3) (r : BitVec 3) (q : BitVec 3)
  /-- ICMP (R381). -/
  | icmp (h : BitVec 2) (w : BitVec 3) (c : BitVec 4) (p : BitVec 3) (a : BitVec 7) (b : BitVec 7)
  /-- FCMP (R381). -/
  | fcmp (h : BitVec 2) (w : BitVec 3) (c : BitVec 4) (p : BitVec 3) (a : BitVec 7) (b : BitVec 7)
  /-- IADDI (R382). -/
  | iaddi (w : BitVec 3) (d : BitVec 7) (a : BitVec 7) (i : BitVec 6)
  /-- ANDI (R382). -/
  | andi (w : BitVec 3) (d : BitVec 7) (a : BitVec 7) (i : BitVec 6)
  /-- ORI (R382). -/
  | ori (w : BitVec 3) (d : BitVec 7) (a : BitVec 7) (i : BitVec 6)
  /-- XORI (R382). -/
  | xori (w : BitVec 3) (d : BitVec 7) (a : BitVec 7) (i : BitVec 6)
  /-- SHLI (R382). -/
  | shli (w : BitVec 3) (d : BitVec 7) (a : BitVec 7) (i : BitVec 6)
  /-- SHRI (R382). -/
  | shri (w : BitVec 3) (d : BitVec 7) (a : BitVec 7) (i : BitVec 6)
  /-- SRAI (R382). -/
  | srai (w : BitVec 3) (d : BitVec 7) (a : BitVec 7) (i : BitVec 6)
  /-- MOVK (R383). -/
  | movk (w : BitVec 3) (d : BitVec 7) (i : BitVec 16)
  /-- MOVKH (R383). -/
  | movkh (w : BitVec 3) (d : BitVec 7) (i : BitVec 16)
  /-- LD (R390). -/
  | ld (w : BitVec 3) (d : BitVec 7) (a : BitVec 7) (s : BitVec 2) (i : BitVec 7)
  /-- ST (R390). -/
  | st (w : BitVec 3) (d : BitVec 7) (a : BitVec 7) (s : BitVec 2) (i : BitVec 7)
  /-- LDS (R390). -/
  | lds (w : BitVec 3) (d : BitVec 7) (a : BitVec 7) (s : BitVec 2) (i : BitVec 7)
  /-- STS (R390). -/
  | sts (w : BitVec 3) (d : BitVec 7) (a : BitVec 7) (s : BitVec 2) (i : BitVec 7)
  /-- ATOM (R392). -/
  | atom (o : BitVec 4) (w : BitVec 1) (d : BitVec 7) (a : BitVec 7) (b : BitVec 7)
  /-- RED (R393). -/
  | red (m : BitVec 3) (w : BitVec 1) (a : BitVec 7) (b : BitVec 7)
  /-- RED_FADD (R393). -/
  | redFadd (a : BitVec 7) (b : BitVec 7)
  /-- RED_BFADD2 (R393). -/
  | redBfadd2 (a : BitVec 7) (b : BitVec 7)
  /-- LL_4 (R395). -/
  | ll4 (d : BitVec 7) (a : BitVec 7)
  /-- LL_8 (R395). -/
  | ll8 (d : BitVec 7) (a : BitVec 7)
  /-- SC_4 (R395). -/
  | sc4 (d : BitVec 7) (a : BitVec 7) (b : BitVec 7)
  /-- SC_8 (R395). -/
  | sc8 (d : BitVec 7) (a : BitVec 7) (b : BitVec 7)
  /-- LDT (R396). -/
  | ldt (d : BitVec 7) (a : BitVec 7)
  /-- UNPK (R397). -/
  | unpk (d : BitVec 7) (a : BitVec 7)
  /-- STTR (R398). -/
  | sttr (d : BitVec 7) (a : BitVec 7) (b : BitVec 7)
  /-- PREF (R399). -/
  | pref (a : BitVec 7) (l : BitVec 1)
  /-- FPUSH (R400). -/
  | fpush (a : BitVec 7) (b : BitVec 7)
  /-- FPOP (R400). -/
  | fpop (d : BitVec 7) (a : BitVec 7)
  /-- STM (R401). -/
  | stm (s : BitVec 2) (a : BitVec 7) (b : BitVec 7)
  /-- BRA (R324). -/
  | bra (c : BitVec 4) (g : BitVec 4) (d : BitVec 18)
  /-- CALL (R324). -/
  | call (g : BitVec 4) (d : BitVec 18)
  /-- GADD (R326). -/
  | gadd (d : BitVec 4) (a : BitVec 4) (b : BitVec 4)
  /-- GSUB (R326). -/
  | gsub (d : BitVec 4) (a : BitVec 4) (b : BitVec 4)
  /-- GMUL (R326). -/
  | gmul (d : BitVec 4) (a : BitVec 4) (b : BitVec 4)
  /-- GAND (R326). -/
  | gand (d : BitVec 4) (a : BitVec 4) (b : BitVec 4)
  /-- GOR (R326). -/
  | gor (d : BitVec 4) (a : BitVec 4) (b : BitVec 4)
  /-- GXOR (R326). -/
  | gxor (d : BitVec 4) (a : BitVec 4) (b : BitVec 4)
  /-- GSHL (R326). -/
  | gshl (d : BitVec 4) (a : BitVec 4) (b : BitVec 4)
  /-- GSHR (R326). -/
  | gshr (d : BitVec 4) (a : BitVec 4) (b : BitVec 4)
  /-- GSRA (R326). -/
  | gsra (d : BitVec 4) (a : BitVec 4) (b : BitVec 4)
  /-- GMIN (R326). -/
  | gmin (d : BitVec 4) (a : BitVec 4) (b : BitVec 4)
  /-- GMAX (R326). -/
  | gmax (d : BitVec 4) (a : BitVec 4) (b : BitVec 4)
  /-- GSLT (R326). -/
  | gslt (d : BitVec 4) (a : BitVec 4) (b : BitVec 4)
  /-- GSLTU (R326). -/
  | gsltu (d : BitVec 4) (a : BitVec 4) (b : BitVec 4)
  /-- GMOV (R326). -/
  | gmov (d : BitVec 4) (a : BitVec 4)
  /-- GADDI (R326). -/
  | gaddi (d : BitVec 4) (a : BitVec 4) (i : BitVec 13)
  /-- GANDI (R326). -/
  | gandi (d : BitVec 4) (a : BitVec 4) (i : BitVec 13)
  /-- GORI (R326). -/
  | gori (d : BitVec 4) (a : BitVec 4) (i : BitVec 13)
  /-- GXORI (R326). -/
  | gxori (d : BitVec 4) (a : BitVec 4) (i : BitVec 13)
  /-- GSHLI (R326). -/
  | gshli (d : BitVec 4) (a : BitVec 4) (i : BitVec 13)
  /-- GSHRI (R326). -/
  | gshri (d : BitVec 4) (a : BitVec 4) (i : BitVec 13)
  /-- GSRAI (R326). -/
  | gsrai (d : BitVec 4) (a : BitVec 4) (i : BitVec 13)
  /-- GLI (R326). -/
  | gli (d : BitVec 4) (i : BitVec 13)
  /-- VGET (R327). -/
  | vget (d : BitVec 4) (l : BitVec 2) (v : BitVec 7)
  /-- VGETH (R327). -/
  | vgeth (d : BitVec 4) (l : BitVec 2) (v : BitVec 7)
  /-- MODE (R329). -/
  | modeSet (i : BitVec 20)
  /-- MSET (R330). -/
  | mset (i : BitVec 4)
  /-- MSAVE (R330). -/
  | msave (g : BitVec 4)
  /-- MREST (R330). -/
  | mrest (g : BitVec 4) (w : BitVec 2)
  /-- MAND (R331). -/
  | mand (g : BitVec 4) (n : BitVec 1) (p : BitVec 3)
  /-- MOR (R331). -/
  | mor (g : BitVec 4) (n : BitVec 1) (p : BitVec 3)
  /-- MALL (R330). -/
  | mall (g : BitVec 4)
  /-- REGANG (R333). -/
  | regang (l : BitVec 20)
  /-- BAR (R334). -/
  | bar (n : BitVec 4) (c : BitVec 9)
  /-- SAFEPT (R339). -/
  | safept (n : BitVec 8)
  /-- DQPOP (R336). -/
  | dqpop (g : BitVec 4)
  /-- TRAP (R341). -/
  | trap (c : BitVec 16)
  /-- BRK (R341). -/
  | brk (c : BitVec 16)
  /-- WAIT (R337). -/
  | wait (n : BitVec 16)
  /-- FENCE (R404). -/
  | fence (p : BitVec 4) (s : BitVec 4) (c : BitVec 3)
  /-- WTIME (R338). -/
  | wtime (g : BitVec 4)
  /-- SYSR (R342). -/
  | sysr (g : BitVec 4) (n : BitVec 12)
  /-- SYSW (R342). -/
  | sysw (g : BitVec 4) (n : BitVec 12)
  /-- RET (R325). -/
  | ret (g : BitVec 4)
  /-- JR (R325). -/
  | jr (g : BitVec 4) (d : BitVec 16)
  /-- CHAIN (R413). -/
  | chain (a : BitVec 4) (e : BitVec 5)
  /-- TAGWAIT_ANY (R414). -/
  | tagwaitAny (d : BitVec 4) (a : BitVec 4)
  /-- TAGWAIT_ALL (R414). -/
  | tagwaitAll (d : BitVec 4) (a : BitVec 4)
  /-- TAGFF (R414). -/
  | tagff (d : BitVec 4) (a : BitVec 4)
  /-- TAGCLR (R414). -/
  | tagclr (a : BitVec 4)
  /-- BCWAIT (R415). -/
  | bcwait (d : BitVec 4) (a : BitVec 4) (k : BitVec 6)
  /-- BCADD (R415). -/
  | bcadd (a : BitVec 4) (k : BitVec 6)
  /-- SADD (R344). -/
  | sadd (d : BitVec 6) (a : BitVec 6) (b : BitVec 6)
  /-- SSUB (R344). -/
  | ssub (d : BitVec 6) (a : BitVec 6) (b : BitVec 6)
  /-- SMUL (R344). -/
  | smul (d : BitVec 6) (a : BitVec 6) (b : BitVec 6)
  /-- SMULH (R344). -/
  | smulh (d : BitVec 6) (a : BitVec 6) (b : BitVec 6)
  /-- SDIV (R345). -/
  | sdiv (d : BitVec 6) (a : BitVec 6) (b : BitVec 6)
  /-- SREM (R345). -/
  | srem (d : BitVec 6) (a : BitVec 6) (b : BitVec 6)
  /-- SAND (R344). -/
  | sand (d : BitVec 6) (a : BitVec 6) (b : BitVec 6)
  /-- SOR (R344). -/
  | sor (d : BitVec 6) (a : BitVec 6) (b : BitVec 6)
  /-- SXOR (R344). -/
  | sxor (d : BitVec 6) (a : BitVec 6) (b : BitVec 6)
  /-- SSHL (R344). -/
  | sshl (d : BitVec 6) (a : BitVec 6) (b : BitVec 6)
  /-- SSHR (R344). -/
  | sshr (d : BitVec 6) (a : BitVec 6) (b : BitVec 6)
  /-- SSRA (R344). -/
  | ssra (d : BitVec 6) (a : BitVec 6) (b : BitVec 6)
  /-- SMIN (R344). -/
  | smin (d : BitVec 6) (a : BitVec 6) (b : BitVec 6)
  /-- SMAX (R344). -/
  | smax (d : BitVec 6) (a : BitVec 6) (b : BitVec 6)
  /-- SSLT (R344). -/
  | sslt (d : BitVec 6) (a : BitVec 6) (b : BitVec 6)
  /-- SSLTU (R344). -/
  | ssltu (d : BitVec 6) (a : BitVec 6) (b : BitVec 6)
  /-- SMOV (R344). -/
  | smov (d : BitVec 6) (a : BitVec 6)
  /-- SADDI (R346). -/
  | saddi (d : BitVec 6) (a : BitVec 6) (i : BitVec 10)
  /-- SANDI (R346). -/
  | sandi (d : BitVec 6) (a : BitVec 6) (i : BitVec 10)
  /-- SORI (R346). -/
  | sori (d : BitVec 6) (a : BitVec 6) (i : BitVec 10)
  /-- SXORI (R346). -/
  | sxori (d : BitVec 6) (a : BitVec 6) (i : BitVec 10)
  /-- SSHLI (R346). -/
  | sshli (d : BitVec 6) (a : BitVec 6) (i : BitVec 10)
  /-- SSHRI (R346). -/
  | sshri (d : BitVec 6) (a : BitVec 6) (i : BitVec 10)
  /-- SSRAI (R346). -/
  | ssrai (d : BitVec 6) (a : BitVec 6) (i : BitVec 10)
  /-- SLUI (R346). -/
  | slui (d : BitVec 6) (i : BitVec 10)
  /-- SLD (R347). -/
  | sld (d : BitVec 6) (a : BitVec 6) (i : BitVec 10)
  /-- SST (R347). -/
  | sst (d : BitVec 6) (a : BitVec 6) (i : BitVec 10)
  /-- SLDS (R347). -/
  | slds (d : BitVec 6) (a : BitVec 6) (i : BitVec 10)
  /-- SSTS (R347). -/
  | ssts (d : BitVec 6) (a : BitVec 6) (i : BitVec 10)
  /-- SLD_4 (R347). -/
  | sld4 (d : BitVec 6) (a : BitVec 6) (i : BitVec 10)
  /-- SST_4 (R347). -/
  | sst4 (d : BitVec 6) (a : BitVec 6) (i : BitVec 10)
  /-- SLDS_4 (R347). -/
  | slds4 (d : BitVec 6) (a : BitVec 6) (i : BitVec 10)
  /-- SSTS_4 (R347). -/
  | ssts4 (d : BitVec 6) (a : BitVec 6) (i : BitVec 10)
  /-- SB_EQ (R348). -/
  | sbEq (a : BitVec 6) (b : BitVec 6) (d : BitVec 11)
  /-- SB_NE (R348). -/
  | sbNe (a : BitVec 6) (b : BitVec 6) (d : BitVec 11)
  /-- SB_LT (R348). -/
  | sbLt (a : BitVec 6) (b : BitVec 6) (d : BitVec 11)
  /-- SB_GE (R348). -/
  | sbGe (a : BitVec 6) (b : BitVec 6) (d : BitVec 11)
  /-- SB_LTU (R348). -/
  | sbLtu (a : BitVec 6) (b : BitVec 6) (d : BitVec 11)
  /-- SB_GEU (R348). -/
  | sbGeu (a : BitVec 6) (b : BitVec 6) (d : BitVec 11)
  /-- SJ (R348). -/
  | sj (d : BitVec 11)
  /-- SCALL (R348). -/
  | scall (a : BitVec 6) (d : BitVec 11)
  /-- SRET (R348). -/
  | sret (a : BitVec 6)
  /-- SJR (R348). -/
  | sjr (a : BitVec 6) (d : BitVec 11)
  /-- DQPUSH (R350). -/
  | dqpush (a : BitVec 6)
  /-- TAPE_PUSH (R351). -/
  | tapePush (a : BitVec 6)
  /-- QSIGNAL (R352). -/
  | qsignal (c : BitVec 3) (o : BitVec 1) (a : BitVec 6) (b : BitVec 6)
  /-- STIME (R353). -/
  | stime (d : BitVec 6)
  /-- SWTIME (R353). -/
  | swtime (a : BitVec 6)
  /-- SBAR (R354). -/
  | sbar (n : BitVec 4) (h : BitVec 6) (l : BitVec 6)
  /-- SSYSR (R356). -/
  | ssysr (d : BitVec 6) (h : BitVec 6) (l : BitVec 6)
  /-- SSYSW (R356). -/
  | ssysw (d : BitVec 6) (h : BitVec 6) (l : BitVec 6)
  /-- SRAMCFG (R357). -/
  | sramcfg (m : BitVec 4) (a : BitVec 6)
  /-- SFENCE (R404). -/
  | sfence (c : BitVec 3) (p : BitVec 4) (s : BitVec 4)
  /-- MCFG (R445). -/
  | mcfg (a : BitVec 6)
  /-- MCB (R446). -/
  | mcb (a : BitVec 6) (b : BitVec 6)
  /-- MLDB (R447). -/
  | mldb (k : BitVec 1) (a : BitVec 6)
  /-- MMA (R448). -/
  | mma (n : BitVec 5) (a : BitVec 6) (b : BitVec 6)
  /-- MEPI (R450). -/
  | mepi (n : BitVec 5) (a : BitVec 6) (b : BitVec 6)
  /-- MZERO (R451). -/
  | mzero (n : BitVec 5)
  /-- MREL (R451). -/
  | mrel (n : BitVec 5)
  /-- SLPIN (R455). -/
  | slpin (n : BitVec 5) (a : BitVec 6) (b : BitVec 6)
  /-- SLUNPIN (R456). -/
  | slunpin (n : BitVec 5)
  /-- SLDELTA (R458). -/
  | sldelta (n : BitVec 5) (a : BitVec 6)
  /-- SLREAD (R458). -/
  | slread (n : BitVec 5) (a : BitVec 6) (b : BitVec 6)
  /-- SLCHUNK (R459). -/
  | slchunk (n : BitVec 5) (a : BitVec 6) (b : BitVec 6)
  /-- SLSPILL (R463). -/
  | slspill (n : BitVec 5)
  /-- SLFILL (R462). -/
  | slfill (n : BitVec 5)
  /-- SLINFO (R465). -/
  | slinfo (d : BitVec 6) (a : BitVec 6)
  /-- SCHAIN (R416). -/
  | schain (e : BitVec 6) (a : BitVec 6)
  /-- STAGWAIT_ANY (R416). -/
  | stagwaitAny (d : BitVec 6) (a : BitVec 6) (c : BitVec 1)
  /-- STAGWAIT_ALL (R416). -/
  | stagwaitAll (d : BitVec 6) (a : BitVec 6) (c : BitVec 1)
  /-- STAGFF (R416). -/
  | stagff (d : BitVec 6) (a : BitVec 6) (c : BitVec 1)
  /-- SBCWAIT (R416). -/
  | sbcwait (d : BitVec 6) (a : BitVec 6) (k : BitVec 6)
  /-- SBCARM (R417). -/
  | sbcarm (k : BitVec 6) (a : BitVec 6) (b : BitVec 6)
  /-- PAGE_WALK (R25). -/
  | pageWalk
  /-- ZERO_REQUEST (R38). -/
  | zeroRequest
  /-- ZEROING_COMPLETE (R38). -/
  | zeroingComplete
  /-- ASID_REBIND (R31). -/
  | asidRebind
  /-- ASID_REBIND_DONE (R31). -/
  | asidRebindDone
  /-- PT_SYNC (R34). -/
  | ptSync
  /-- PT_SYNC_RETIRE (R34). -/
  | ptSyncRetire
  /-- ADAPTER_FLIP_REPLY (R40). -/
  | adapterFlipReply
  /-- HOST_FLIP (R40). -/
  | hostFlip
  /-- FLIP_HOLD_EXPIRY (R41). -/
  | flipHoldExpiry
  /-- RDC_SIZE_APPLY (R74). -/
  | rdcSizeApply
  /-- L2_REQUEST (R72). -/
  | l2Request
  /-- BUMP (R101). -/
  | bump
  /-- CKOUT_GRANT (R85). -/
  | ckoutGrant
  /-- CKOUT_TIMEOUT (R85). -/
  | ckoutTimeout
  /-- ENGINE_LOCK_GRANT (R93). -/
  | engineLockGrant
  /-- LOCK_REPLAY (R94). -/
  | lockReplay
  /-- RESERVATION_EXPIRY (R133). -/
  | reservationExpiry
  /-- ENGINE_OPERATION_COMPLETE (R126). -/
  | engineOperationComplete
  /-- RELOAD (R147). -/
  | reload
  /-- UALINK_READ_REQUEST (R152). -/
  | ualinkReadRequest
  /-- UALINK_WRITE_REQUEST (R152). -/
  | ualinkWriteRequest
  /-- POD_RESPONSE (R157). -/
  | podResponse
  /-- FABRIC_TIMEOUT (R156). -/
  | fabricTimeout
  /-- MCW (R164). -/
  | mcw
  /-- MCO (R165). -/
  | mco
  /-- RDN (R159). -/
  | rdn
  /-- LLQ (R159). -/
  | llq
  /-- SCQ (R159). -/
  | scq
  /-- CTB (R168). -/
  | ctb
  /-- CRS (R169). -/
  | crs
  /-- SPK (R169). -/
  | spk
  /-- PASS (R172). -/
  | passToken
  /-- RCV (R172). -/
  | rcv
  /-- RECOVERY_ACK (R172). -/
  | recoveryAck
  /-- BADOP (R161). -/
  | badop
  /-- PACKET_BLOCKED (R171). -/
  | packetBlocked
  /-- PASS_REISSUE (R173). -/
  | passReissue
  /-- LINK_REPLAY (R160). -/
  | linkReplay
  /-- LANE_SPARE_RETRAIN (R160). -/
  | laneSpareRetrain
  /-- PORT_DOWN (R160). -/
  | portDown
  /-- UET_PACKET (R176). -/
  | uetPacket
  /-- PTP_SYNC (R178). -/
  | ptpSync
  /-- PTP_DELAY_RESP (R178). -/
  | ptpDelayResp
  /-- PTP_SYNC_LOSS (R178). -/
  | ptpSyncLoss
  /-- TIME_TARGET_REACHED (R338). -/
  | timeTargetReached
  /-- LOAD_RETURN (R390). -/
  | loadReturn
  /-- GAMBIT_ENTRY (R197). -/
  | gambitEntry
  /-- GAMBIT_INSTRUCTION_LIMIT (R201). -/
  | gambitInstructionLimit
  /-- REGANG_TIMEOUT (R189). -/
  | regangTimeout
  /-- QUEUE_DB (R211). -/
  | queueDb
  /-- QUEUE_ENABLE (R212). -/
  | queueEnable
  /-- QUEUE_DISABLE (R212). -/
  | queueDisable
  /-- QUEUE_RESET (R212). -/
  | queueReset
  /-- QUEUE_RESUME (R212). -/
  | queueResume
  /-- QUEUE_LAUNCH (R218). -/
  | queueLaunch
  /-- QUEUE_WAIT (R220). -/
  | queueWait
  /-- QUEUE_WAIT_POLL (R220). -/
  | queueWaitPoll
  /-- QUEUE_WAIT_TIMEOUT (R220). -/
  | queueWaitTimeout
  /-- QUEUE_SIGNAL (R221). -/
  | queueSignal
  /-- QUEUE_COPY (R222). -/
  | queueCopy
  /-- QUEUE_REWIND (R225). -/
  | queueRewind
  /-- QUEUE_NOP (R222). -/
  | queueNop
  /-- TIMED_START (R223). -/
  | timedStart
  /-- FORM_PLACEMENT (R226). -/
  | formPlacement
  /-- LAUNCH_RESERVING (R228). -/
  | launchReserving
  /-- GRID_COMPLETE (R219). -/
  | gridComplete
  /-- FORCED_ENTRY (R231). -/
  | forcedEntry
  /-- QUANTUM_EXPIRY (R235). -/
  | quantumExpiry
  /-- PRIORITY_PREEMPTION (R236). -/
  | priorityPreemption
  /-- HARD_PREEMPTION (R255). -/
  | hardPreemption
  /-- CONTEXT_SAVE (R256). -/
  | contextSave
  /-- TEAM_RESTORE (R256). -/
  | teamRestore
  /-- MATRIX_GRANT (R237). -/
  | matrixGrant
  /-- SLATE_REFILL (R461). -/
  | slateRefill
  /-- REPLAY (R248). -/
  | replayResume
  /-- SKIP (R248). -/
  | skipResume
  /-- ABORT (R248). -/
  | abortResume
  /-- REPLAYF (R248). -/
  | replayfResume
  /-- OPERAND_LOG_REPLAY (R249). -/
  | operandLogReplay
  /-- WATCHDOG (R263). -/
  | watchdog
  /-- TENANT_RESET (R264). -/
  | tenantReset
  /-- ECC_UNCORR (R253). -/
  | eccUncorr
  /-- SYSTEM_REGISTER_WRITE (R9). -/
  | systemRegisterWrite
  /-- HOST_MEMORY_ACCESS (R497). -/
  | hostMemoryAccess
  /-- MGT_ERR (R512). -/
  | mgtErr
  /-- RESET (R511). -/
  | resetDevice
  /-- ERRCLR (R511). -/
  | errclr
  /-- FAR_EXTENT_ADD (R500). -/
  | farExtentAdd
  /-- FAR_EXTENT_RELEASE (R500). -/
  | farExtentRelease
  /-- ATTEST (R514). -/
  | attest
  /-- IDENTITY (R514). -/
  | identityRequest
  /-- STAGE_BEGIN (R514). -/
  | stageBegin
  /-- STAGE_DATA (R514). -/
  | stageData
  /-- STAGE_COMMIT (R514). -/
  | stageCommit
  /-- STAGE_ABORT (R514). -/
  | stageAbort
  /-- MAILBOX_BADOP (R514). -/
  | mailboxBadop
  /-- MAILBOX_REQUEST_END (R513). -/
  | mailboxRequestEnd
  /-- POWER_ON (R501). -/
  | powerOn
  /-- POWER_CAP_STEP_DOWN (R505). -/
  | powerCapStepDown
  /-- SUPPLY_SAG (R506). -/
  | supplySag
  /-- CLOCK_STEP_UP (R506). -/
  | clockStepUp
  /-- D2D_FAILURE (R508). -/
  | d2dFailure
  /-- PREBRIYR_FAULT (R508). -/
  | prebriyrFault
  /-- HBM_STACK_FAILURE (R508). -/
  | hbmStackFailure
  /-- SOFTCORR (R508). -/
  | softcorr
  /-- SCRUB (R508). -/
  | scrub
  /-- BRODILE_LINK_RETRAIN (R497). -/
  | brodileLinkRetrain
  /-- COPY (R422). -/
  | copyEntry
  /-- COPYT (R424). -/
  | copyt
  /-- GATHER (R425). -/
  | gather
  /-- SCATTER (R425). -/
  | scatter
  /-- MCAST (R428). -/
  | mcast
  /-- ALLRED (R428). -/
  | allred
  /-- REDSCAT (R428). -/
  | redscat
  /-- ALLGATH (R428). -/
  | allgath
  /-- SPARSEK (R429). -/
  | sparsek
  /-- CKOUT (R426). -/
  | ckout
  /-- CKIN (R426). -/
  | ckin
  /-- SIGNAL (R430). -/
  | signalEntry
  /-- WAITBC (R430). -/
  | waitbc
  /-- LOOP (R420). -/
  | loopEntry
  /-- IFBC (R430). -/
  | ifbc
  /-- END (R419). -/
  | endEntry
  /-- ILL (R300). -/
  | ill
  /-- EXIT (R340). -/
  | exitSlice
  /-- NOP (R337). -/
  | nop
  /-- YIELD (R337). -/
  | yield
  /-- SEXIT (R355). -/
  | sexit
  /-- MDRAIN (R451). -/
  | mdrain
  /-- RAIL_RECOVERY (R506). -/
  | railRecovery
  /-- LINK_RETRAIN_END (R160). -/
  | linkRetrainEnd
  /-- FAR_ACCESS_REPLY (R44). -/
  | farAccessReply
  /-- INVALID_HOST_ACCESS (R498). -/
  | invalidHostAccess
  deriving DecidableEq, Repr

end Sys2Proof
end

