-- ==== Sys2Proof/Decode.lean ====
section
/-! DEFINITION. The decoder, total on any bytes, and the encoder written from the same rows (R292, R300 to R314). A word
that no row assigns is rejected by name; a reserved operand value inside a row is the meaning's ILLEGAL check (R316). -/

namespace Sys2Proof

/-- Why bytes are not an instruction. -/
inductive DecodeError where
  /-- Fewer than four bytes. -/
  | short
  /-- A word that the opcode map does not assign (R14, R300, R316). -/
  | unassigned (w : W32)
  deriving DecidableEq, Repr

/-- Bits [lo + n - 1 : lo] of a word, n wide, and their number. -/
def field (n lo : Nat) (w : W32) : BitVec n := w.extractLsb' lo n
def num (n lo : Nat) (w : W32) : Nat := (field n lo w).toNat

/-- The 32 bits of four little-endian bytes, the first at the lowest address (R8). -/
def wordOfBytes (b0 b1 b2 b3 : Byte) : W32 := b3 ++ b2 ++ b1 ++ b0

/-- The bytes of a word, lowest address first (R8). -/
def bytesOfWord (w : W32) : List Byte :=
  [w.extractLsb' 0 8, w.extractLsb' 8 8, w.extractLsb' 16 8, w.extractLsb' 24 8]

/-- Rows of major 0x01. -/
def decodeMajor01 (w : W32) : Option Instr :=
  some (.iadd (field 2 24 w) (field 3 21 w) (field 7 14 w) (field 7 7 w) (field 7 0 w))

/-- Rows of major 0x02. -/
def decodeMajor02 (w : W32) : Option Instr :=
  some (.isub (field 2 24 w) (field 3 21 w) (field 7 14 w) (field 7 7 w) (field 7 0 w))

/-- Rows of major 0x03. -/
def decodeMajor03 (w : W32) : Option Instr :=
  some (.imul (field 2 24 w) (field 3 21 w) (field 7 14 w) (field 7 7 w) (field 7 0 w))

/-- Rows of major 0x04. -/
def decodeMajor04 (w : W32) : Option Instr :=
  some (.imulh (field 2 24 w) (field 3 21 w) (field 7 14 w) (field 7 7 w) (field 7 0 w))

/-- Rows of major 0x05. -/
def decodeMajor05 (w : W32) : Option Instr :=
  some (.imad (field 2 24 w) (field 3 21 w) (field 7 14 w) (field 7 7 w) (field 7 0 w))

/-- Rows of major 0x06. -/
def decodeMajor06 (w : W32) : Option Instr :=
  some (.imin (field 2 24 w) (field 3 21 w) (field 7 14 w) (field 7 7 w) (field 7 0 w))

/-- Rows of major 0x07. -/
def decodeMajor07 (w : W32) : Option Instr :=
  some (.imax (field 2 24 w) (field 3 21 w) (field 7 14 w) (field 7 7 w) (field 7 0 w))

/-- Rows of major 0x08. -/
def decodeMajor08 (w : W32) : Option Instr :=
  some (.iabsd (field 2 24 w) (field 3 21 w) (field 7 14 w) (field 7 7 w) (field 7 0 w))

/-- Rows of major 0x09. -/
def decodeMajor09 (w : W32) : Option Instr :=
  some (.vand (field 2 24 w) (field 3 21 w) (field 7 14 w) (field 7 7 w) (field 7 0 w))

/-- Rows of major 0x0A. -/
def decodeMajor0A (w : W32) : Option Instr :=
  some (.vor (field 2 24 w) (field 3 21 w) (field 7 14 w) (field 7 7 w) (field 7 0 w))

/-- Rows of major 0x0B. -/
def decodeMajor0B (w : W32) : Option Instr :=
  some (.vxor (field 2 24 w) (field 3 21 w) (field 7 14 w) (field 7 7 w) (field 7 0 w))

/-- Rows of major 0x0C. -/
def decodeMajor0C (w : W32) : Option Instr :=
  some (.andn (field 2 24 w) (field 3 21 w) (field 7 14 w) (field 7 7 w) (field 7 0 w))

/-- Rows of major 0x0D. -/
def decodeMajor0D (w : W32) : Option Instr :=
  some (.shl (field 2 24 w) (field 3 21 w) (field 7 14 w) (field 7 7 w) (field 7 0 w))

/-- Rows of major 0x0E. -/
def decodeMajor0E (w : W32) : Option Instr :=
  some (.shr (field 2 24 w) (field 3 21 w) (field 7 14 w) (field 7 7 w) (field 7 0 w))

/-- Rows of major 0x0F. -/
def decodeMajor0F (w : W32) : Option Instr :=
  some (.sra (field 2 24 w) (field 3 21 w) (field 7 14 w) (field 7 7 w) (field 7 0 w))

/-- Rows of major 0x10. -/
def decodeMajor10 (w : W32) : Option Instr :=
  some (.fadd (field 2 24 w) (field 3 21 w) (field 7 14 w) (field 7 7 w) (field 7 0 w))

/-- Rows of major 0x11. -/
def decodeMajor11 (w : W32) : Option Instr :=
  some (.fsub (field 2 24 w) (field 3 21 w) (field 7 14 w) (field 7 7 w) (field 7 0 w))

/-- Rows of major 0x12. -/
def decodeMajor12 (w : W32) : Option Instr :=
  some (.fmul (field 2 24 w) (field 3 21 w) (field 7 14 w) (field 7 7 w) (field 7 0 w))

/-- Rows of major 0x13. -/
def decodeMajor13 (w : W32) : Option Instr :=
  some (.fma (field 2 24 w) (field 3 21 w) (field 7 14 w) (field 7 7 w) (field 7 0 w))

/-- Rows of major 0x14. -/
def decodeMajor14 (w : W32) : Option Instr :=
  some (.fms (field 2 24 w) (field 3 21 w) (field 7 14 w) (field 7 7 w) (field 7 0 w))

/-- Rows of major 0x15. -/
def decodeMajor15 (w : W32) : Option Instr :=
  some (.fnma (field 2 24 w) (field 3 21 w) (field 7 14 w) (field 7 7 w) (field 7 0 w))

/-- Rows of major 0x16. -/
def decodeMajor16 (w : W32) : Option Instr :=
  some (.fmin (field 2 24 w) (field 3 21 w) (field 7 14 w) (field 7 7 w) (field 7 0 w))

/-- Rows of major 0x17. -/
def decodeMajor17 (w : W32) : Option Instr :=
  some (.fmax (field 2 24 w) (field 3 21 w) (field 7 14 w) (field 7 7 w) (field 7 0 w))

/-- Rows of major 0x18. -/
def decodeMajor18 (w : W32) : Option Instr :=
  some (.sel (field 2 24 w) (field 3 21 w) (field 7 14 w) (field 7 7 w) (field 7 0 w))

/-- Rows of major 0x19. -/
def decodeMajor19 (w : W32) : Option Instr :=
  some (.shfl (field 2 24 w) (field 3 21 w) (field 7 14 w) (field 7 7 w) (field 7 0 w))

/-- Rows of major 0x1A. -/
def decodeMajor1A (w : W32) : Option Instr :=
  some (.shflx (field 2 24 w) (field 3 21 w) (field 7 14 w) (field 7 7 w) (field 7 0 w))

/-- Rows of major 0x1B. -/
def decodeMajor1B (w : W32) : Option Instr :=
  some (.bprm (field 2 24 w) (field 3 21 w) (field 7 14 w) (field 7 7 w) (field 7 0 w))

/-- Rows of major 0x1C. -/
def decodeMajor1C (w : W32) : Option Instr :=
  some (.dot2 (field 2 24 w) (field 3 21 w) (field 7 14 w) (field 7 7 w) (field 7 0 w))

/-- Rows of major 0x1D. -/
def decodeMajor1D (w : W32) : Option Instr :=
  some (.dot4 (field 2 24 w) (field 3 21 w) (field 7 14 w) (field 7 7 w) (field 7 0 w))

/-- Rows of major 0x1E. -/
def decodeMajor1E (w : W32) : Option Instr :=
  some (.pack (field 2 24 w) (field 3 21 w) (field 7 14 w) (field 7 7 w) (field 7 0 w))

/-- Rows of major 0x1F. -/
def decodeMajor1F (w : W32) : Option Instr :=
  some (.fscale (field 2 24 w) (field 3 21 w) (field 7 14 w) (field 7 7 w) (field 7 0 w))

/-- Rows of major 0x20 (Table 10.7). -/
def decodeMajor20 (w : W32) : Option Instr :=
  match num 7 0 w with
  | 0 => some (.mov (field 2 24 w) (field 3 21 w) (field 7 14 w) (field 7 7 w))
  | 1 => some (.vnot (field 2 24 w) (field 3 21 w) (field 7 14 w) (field 7 7 w))
  | 2 => some (.ineg (field 2 24 w) (field 3 21 w) (field 7 14 w) (field 7 7 w))
  | 3 => some (.iabs (field 2 24 w) (field 3 21 w) (field 7 14 w) (field 7 7 w))
  | 4 => some (.popc (field 2 24 w) (field 3 21 w) (field 7 14 w) (field 7 7 w))
  | 5 => some (.clz (field 2 24 w) (field 3 21 w) (field 7 14 w) (field 7 7 w))
  | 6 => some (.ctz (field 2 24 w) (field 3 21 w) (field 7 14 w) (field 7 7 w))
  | 7 => some (.brev (field 2 24 w) (field 3 21 w) (field 7 14 w) (field 7 7 w))
  | 8 => some (.sext8 (field 2 24 w) (field 3 21 w) (field 7 14 w) (field 7 7 w))
  | 9 => some (.sext16 (field 2 24 w) (field 3 21 w) (field 7 14 w) (field 7 7 w))
  | 10 => some (.zext8 (field 2 24 w) (field 3 21 w) (field 7 14 w) (field 7 7 w))
  | 11 => some (.zext16 (field 2 24 w) (field 3 21 w) (field 7 14 w) (field 7 7 w))
  | 12 => some (.bswap (field 2 24 w) (field 3 21 w) (field 7 14 w) (field 7 7 w))
  | 13 => if num 2 24 w = 0 ∧ num 3 11 w = 0 then some (.movg (field 3 21 w) (field 7 14 w) (field 4 7 w)) else none
  | 14 => if num 2 24 w = 0 ∧ num 3 11 w = 0 then some (.movgh (field 3 21 w) (field 7 14 w) (field 4 7 w)) else none
  | _ => none

/-- Rows of major 0x21 (Table 10.7). -/
def decodeMajor21 (w : W32) : Option Instr :=
  match num 7 0 w with
  | 0 => some (.fneg (field 2 24 w) (field 3 21 w) (field 7 14 w) (field 7 7 w))
  | 1 => some (.fabs (field 2 24 w) (field 3 21 w) (field 7 14 w) (field 7 7 w))
  | 2 => some (.frcp (field 2 24 w) (field 3 21 w) (field 7 14 w) (field 7 7 w))
  | 3 => some (.frsq (field 2 24 w) (field 3 21 w) (field 7 14 w) (field 7 7 w))
  | 4 => some (.fsqrt (field 2 24 w) (field 3 21 w) (field 7 14 w) (field 7 7 w))
  | 5 => some (.fexp2 (field 2 24 w) (field 3 21 w) (field 7 14 w) (field 7 7 w))
  | 6 => some (.flog2 (field 2 24 w) (field 3 21 w) (field 7 14 w) (field 7 7 w))
  | 7 => some (.fsin (field 2 24 w) (field 3 21 w) (field 7 14 w) (field 7 7 w))
  | 8 => some (.fcos (field 2 24 w) (field 3 21 w) (field 7 14 w) (field 7 7 w))
  | 9 => some (.ffloor (field 2 24 w) (field 3 21 w) (field 7 14 w) (field 7 7 w))
  | 10 => some (.fceil (field 2 24 w) (field 3 21 w) (field 7 14 w) (field 7 7 w))
  | 11 => some (.ftrunc (field 2 24 w) (field 3 21 w) (field 7 14 w) (field 7 7 w))
  | 12 => some (.frint (field 2 24 w) (field 3 21 w) (field 7 14 w) (field 7 7 w))
  | 13 => some (.fclass (field 2 24 w) (field 3 21 w) (field 7 14 w) (field 7 7 w))
  | 14 => some (.ffrac (field 2 24 w) (field 3 21 w) (field 7 14 w) (field 7 7 w))
  | _ => none

/-- Rows of major 0x22 (Table 10.7). -/
def decodeMajor22 (w : W32) : Option Instr :=
  if num 1 6 w = 0 then some (.cvt (field 2 24 w) (field 3 21 w) (field 7 14 w) (field 7 7 w) (field 2 4 w) (field 4 0 w)) else none

/-- Rows of major 0x23 (Table 10.7). -/
def decodeMajor23 (w : W32) : Option Instr :=
  match num 7 0 w with
  | 0 => some (.ballot (field 2 24 w) (field 3 21 w) (field 7 14 w) (field 7 7 w))
  | 1 => some (.vany (field 2 24 w) (field 3 21 w) (field 7 14 w) (field 7 7 w))
  | 2 => some (.vall (field 2 24 w) (field 3 21 w) (field 7 14 w) (field 7 7 w))
  | 3 => some (.bcast (field 2 24 w) (field 3 21 w) (field 7 14 w) (field 7 7 w))
  | 4 => if num 7 7 w = 0 then some (.laneid (field 2 24 w) (field 3 21 w) (field 7 14 w)) else none
  | 5 => if num 7 7 w = 0 then some (.sliceid (field 2 24 w) (field 3 21 w) (field 7 14 w)) else none
  | 6 => some (.redadd (field 2 24 w) (field 3 21 w) (field 7 14 w) (field 7 7 w))
  | 7 => some (.redmin (field 2 24 w) (field 3 21 w) (field 7 14 w) (field 7 7 w))
  | 8 => some (.redmax (field 2 24 w) (field 3 21 w) (field 7 14 w) (field 7 7 w))
  | 9 => some (.prfxadd (field 2 24 w) (field 3 21 w) (field 7 14 w) (field 7 7 w))
  | 10 => some (.prfxex (field 2 24 w) (field 3 21 w) (field 7 14 w) (field 7 7 w))
  | 11 => some (.uniq (field 2 24 w) (field 3 21 w) (field 7 14 w) (field 7 7 w))
  | _ => none

/-- Rows of major 0x24 (Table 10.7). -/
def decodeMajor24 (w : W32) : Option Instr :=
  match num 4 0 w with
  | 0 => if num 7 14 w = 0 ∧ num 1 6 w = 0 then some (.xset (field 2 24 w) (field 3 21 w) (field 7 7 w) (field 2 4 w)) else none
  | 1 => if num 7 14 w = 0 ∧ num 1 6 w = 0 then some (.xadd (field 2 24 w) (field 3 21 w) (field 7 7 w) (field 2 4 w)) else none
  | 2 => if num 8 6 w = 0 then some (.xget (field 2 24 w) (field 3 21 w) (field 7 14 w) (field 2 4 w)) else none
  | 3 => if num 1 6 w = 0 then some (.vldx (field 2 24 w) (field 3 21 w) (field 7 14 w) (field 7 7 w) (field 2 4 w)) else none
  | 4 => if num 1 6 w = 0 then some (.vstx (field 2 24 w) (field 3 21 w) (field 7 14 w) (field 7 7 w) (field 2 4 w)) else none
  | 5 => if num 7 7 w = 0 then some (.p2v (field 2 24 w) (field 3 21 w) (field 7 14 w) (field 3 4 w)) else none
  | 6 => if num 7 14 w = 0 then some (.v2p (field 2 24 w) (field 3 21 w) (field 7 7 w) (field 3 4 w)) else none
  | 7 => if num 4 17 w = 0 ∧ num 4 10 w = 0 ∧ num 3 4 w = 0 then some (.pnot (field 2 24 w) (field 3 21 w) (field 3 14 w) (field 3 7 w)) else none
  | 8 => if num 4 17 w = 0 ∧ num 1 13 w = 0 ∧ num 3 4 w = 0 then some (.pand (field 2 24 w) (field 3 21 w) (field 3 14 w) (field 3 10 w) (field 3 7 w)) else none
  | 9 => if num 4 17 w = 0 ∧ num 1 13 w = 0 ∧ num 3 4 w = 0 then some (.por (field 2 24 w) (field 3 21 w) (field 3 14 w) (field 3 10 w) (field 3 7 w)) else none
  | 10 => if num 4 17 w = 0 ∧ num 1 13 w = 0 ∧ num 3 4 w = 0 then some (.pxor (field 2 24 w) (field 3 21 w) (field 3 14 w) (field 3 10 w) (field 3 7 w)) else none
  | _ => none

/-- Rows of major 0x25. -/
def decodeMajor25 (w : W32) : Option Instr :=
  some (.icmp (field 2 24 w) (field 3 21 w) (field 4 17 w) (field 3 14 w) (field 7 7 w) (field 7 0 w))

/-- Rows of major 0x26. -/
def decodeMajor26 (w : W32) : Option Instr :=
  some (.fcmp (field 2 24 w) (field 3 21 w) (field 4 17 w) (field 3 14 w) (field 7 7 w) (field 7 0 w))

/-- Rows of major 0x27. -/
def decodeMajor27 (w : W32) : Option Instr :=
  match num 3 6 w with
  | 0 => some (.iaddi (field 3 23 w) (field 7 16 w) (field 7 9 w) (field 6 0 w))
  | 1 => some (.andi (field 3 23 w) (field 7 16 w) (field 7 9 w) (field 6 0 w))
  | 2 => some (.ori (field 3 23 w) (field 7 16 w) (field 7 9 w) (field 6 0 w))
  | 3 => some (.xori (field 3 23 w) (field 7 16 w) (field 7 9 w) (field 6 0 w))
  | 4 => some (.shli (field 3 23 w) (field 7 16 w) (field 7 9 w) (field 6 0 w))
  | 5 => some (.shri (field 3 23 w) (field 7 16 w) (field 7 9 w) (field 6 0 w))
  | 6 => some (.srai (field 3 23 w) (field 7 16 w) (field 7 9 w) (field 6 0 w))
  | _ => none

/-- Rows of major 0x28. -/
def decodeMajor28 (w : W32) : Option Instr :=
  some (.movk (field 3 23 w) (field 7 16 w) (field 16 0 w))

/-- Rows of major 0x29. -/
def decodeMajor29 (w : W32) : Option Instr :=
  some (.movkh (field 3 23 w) (field 7 16 w) (field 16 0 w))

/-- Rows of major 0x2A. -/
def decodeMajor2A (w : W32) : Option Instr :=
  some (.ld (field 3 23 w) (field 7 16 w) (field 7 9 w) (field 2 7 w) (field 7 0 w))

/-- Rows of major 0x2B. -/
def decodeMajor2B (w : W32) : Option Instr :=
  some (.st (field 3 23 w) (field 7 16 w) (field 7 9 w) (field 2 7 w) (field 7 0 w))

/-- Rows of major 0x2C. -/
def decodeMajor2C (w : W32) : Option Instr :=
  some (.lds (field 3 23 w) (field 7 16 w) (field 7 9 w) (field 2 7 w) (field 7 0 w))

/-- Rows of major 0x2D. -/
def decodeMajor2D (w : W32) : Option Instr :=
  some (.sts (field 3 23 w) (field 7 16 w) (field 7 9 w) (field 2 7 w) (field 7 0 w))

/-- Rows of major 0x2E. -/
def decodeMajor2E (w : W32) : Option Instr :=
  some (.atom (field 4 22 w) (field 1 21 w) (field 7 14 w) (field 7 7 w) (field 7 0 w))

/-- Rows of major 0x2F (Table 10.9). -/
def decodeMajor2F (w : W32) : Option Instr :=
  match num 5 21 w with
  | 0 | 1 | 2 | 3 | 4 | 5 | 6 | 7 => if num 6 15 w = 0 then some (.red (field 3 21 w) (field 1 14 w) (field 7 7 w) (field 7 0 w)) else none
  | 8 => if num 7 14 w = 0 then some (.redFadd (field 7 7 w) (field 7 0 w)) else none
  | 9 => if num 7 14 w = 0 then some (.redBfadd2 (field 7 7 w) (field 7 0 w)) else none
  | 10 => if num 7 0 w = 0 then some (.ll4 (field 7 14 w) (field 7 7 w)) else none
  | 11 => if num 7 0 w = 0 then some (.ll8 (field 7 14 w) (field 7 7 w)) else none
  | 12 => some (.sc4 (field 7 14 w) (field 7 7 w) (field 7 0 w))
  | 13 => some (.sc8 (field 7 14 w) (field 7 7 w) (field 7 0 w))
  | 14 => if num 7 0 w = 0 then some (.ldt (field 7 14 w) (field 7 7 w)) else none
  | 15 => if num 7 0 w = 0 then some (.unpk (field 7 14 w) (field 7 7 w)) else none
  | 16 => some (.sttr (field 7 14 w) (field 7 7 w) (field 7 0 w))
  | 17 => if num 7 14 w = 0 ∧ num 6 1 w = 0 then some (.pref (field 7 7 w) (field 1 0 w)) else none
  | 18 => if num 7 14 w = 0 then some (.fpush (field 7 7 w) (field 7 0 w)) else none
  | 19 => if num 7 0 w = 0 then some (.fpop (field 7 14 w) (field 7 7 w)) else none
  | 20 => if num 5 16 w = 0 then some (.stm (field 2 14 w) (field 7 7 w) (field 7 0 w)) else none
  | _ => none

/-- Rows of major 0x30 (Table 10.10). -/
def decodeMajor30 (w : W32) : Option Instr :=
  match num 4 22 w with
  | 15 => some (.call (field 4 18 w) (field 18 0 w))
  | _ => some (.bra (field 4 22 w) (field 4 18 w) (field 18 0 w))

/-- Rows of major 0x31. -/
def decodeMajor31 (w : W32) : Option Instr :=
  match num 5 21 w with
  | 0 => if num 9 4 w = 0 then some (.gadd (field 4 17 w) (field 4 13 w) (field 4 0 w)) else none
  | 1 => if num 9 4 w = 0 then some (.gsub (field 4 17 w) (field 4 13 w) (field 4 0 w)) else none
  | 2 => if num 9 4 w = 0 then some (.gmul (field 4 17 w) (field 4 13 w) (field 4 0 w)) else none
  | 3 => if num 9 4 w = 0 then some (.gand (field 4 17 w) (field 4 13 w) (field 4 0 w)) else none
  | 4 => if num 9 4 w = 0 then some (.gor (field 4 17 w) (field 4 13 w) (field 4 0 w)) else none
  | 5 => if num 9 4 w = 0 then some (.gxor (field 4 17 w) (field 4 13 w) (field 4 0 w)) else none
  | 6 => if num 9 4 w = 0 then some (.gshl (field 4 17 w) (field 4 13 w) (field 4 0 w)) else none
  | 7 => if num 9 4 w = 0 then some (.gshr (field 4 17 w) (field 4 13 w) (field 4 0 w)) else none
  | 8 => if num 9 4 w = 0 then some (.gsra (field 4 17 w) (field 4 13 w) (field 4 0 w)) else none
  | 9 => if num 9 4 w = 0 then some (.gmin (field 4 17 w) (field 4 13 w) (field 4 0 w)) else none
  | 10 => if num 9 4 w = 0 then some (.gmax (field 4 17 w) (field 4 13 w) (field 4 0 w)) else none
  | 11 => if num 9 4 w = 0 then some (.gslt (field 4 17 w) (field 4 13 w) (field 4 0 w)) else none
  | 12 => if num 9 4 w = 0 then some (.gsltu (field 4 17 w) (field 4 13 w) (field 4 0 w)) else none
  | 13 => if num 13 0 w = 0 then some (.gmov (field 4 17 w) (field 4 13 w)) else none
  | 16 => some (.gaddi (field 4 17 w) (field 4 13 w) (field 13 0 w))
  | 17 => some (.gandi (field 4 17 w) (field 4 13 w) (field 13 0 w))
  | 18 => some (.gori (field 4 17 w) (field 4 13 w) (field 13 0 w))
  | 19 => some (.gxori (field 4 17 w) (field 4 13 w) (field 13 0 w))
  | 20 => some (.gshli (field 4 17 w) (field 4 13 w) (field 13 0 w))
  | 21 => some (.gshri (field 4 17 w) (field 4 13 w) (field 13 0 w))
  | 22 => some (.gsrai (field 4 17 w) (field 4 13 w) (field 13 0 w))
  | 23 => if num 4 13 w = 0 then some (.gli (field 4 17 w) (field 13 0 w)) else none
  | 24 => if num 8 9 w = 0 then some (.vget (field 4 17 w) (field 2 7 w) (field 7 0 w)) else none
  | 25 => if num 8 9 w = 0 then some (.vgeth (field 4 17 w) (field 2 7 w) (field 7 0 w)) else none
  | _ => none

/-- Rows of major 0x32. -/
def decodeMajor32 (w : W32) : Option Instr :=
  match num 6 20 w with
  | 0 => some (.modeSet (field 20 0 w))
  | 1 => if num 16 4 w = 0 then some (.mset (field 4 0 w)) else none
  | 2 => if num 16 0 w = 0 then some (.msave (field 4 16 w)) else none
  | 3 => if num 14 0 w = 0 then some (.mrest (field 4 16 w) (field 2 14 w)) else none
  | 4 => if num 12 0 w = 0 then some (.mand (field 4 16 w) (field 1 15 w) (field 3 12 w)) else none
  | 5 => if num 12 0 w = 0 then some (.mor (field 4 16 w) (field 1 15 w) (field 3 12 w)) else none
  | 6 => if num 16 0 w = 0 then some (.mall (field 4 16 w)) else none
  | 7 => some (.regang (field 20 0 w))
  | 8 => if num 7 9 w = 0 then some (.bar (field 4 16 w) (field 9 0 w)) else none
  | 9 => if num 20 0 w = 0 then some (.exitSlice) else none
  | 10 => if num 12 8 w = 0 then some (.safept (field 8 0 w)) else none
  | 11 => if num 16 0 w = 0 then some (.dqpop (field 4 16 w)) else none
  | 12 => if num 4 16 w = 0 then some (.trap (field 16 0 w)) else none
  | 13 => if num 4 16 w = 0 then some (.brk (field 16 0 w)) else none
  | 14 => if num 4 16 w = 0 then some (.wait (field 16 0 w)) else none
  | 15 => if num 20 0 w = 0 then some (.nop) else none
  | 16 => if num 20 0 w = 0 then some (.yield) else none
  | 17 => if num 8 12 w = 0 ∧ num 1 3 w = 0 then some (.fence (field 4 8 w) (field 4 4 w) (field 3 0 w)) else none
  | 18 => if num 16 0 w = 0 then some (.wtime (field 4 16 w)) else none
  | 19 => if num 4 12 w = 0 then some (.sysr (field 4 16 w) (field 12 0 w)) else none
  | 20 => if num 4 12 w = 0 then some (.sysw (field 4 16 w) (field 12 0 w)) else none
  | 21 => if num 16 0 w = 0 then some (.ret (field 4 16 w)) else none
  | 22 => some (.jr (field 4 16 w) (field 16 0 w))
  | _ => none

/-- Rows of major 0x33. -/
def decodeMajor33 (w : W32) : Option Instr :=
  match num 5 21 w with
  | 0 => if num 4 17 w = 0 ∧ num 8 5 w = 0 then some (.chain (field 4 13 w) (field 5 0 w)) else none
  | 1 => if num 13 0 w = 0 then some (.tagwaitAny (field 4 17 w) (field 4 13 w)) else none
  | 2 => if num 13 0 w = 0 then some (.tagwaitAll (field 4 17 w) (field 4 13 w)) else none
  | 3 => if num 13 0 w = 0 then some (.tagff (field 4 17 w) (field 4 13 w)) else none
  | 4 => if num 4 17 w = 0 ∧ num 13 0 w = 0 then some (.tagclr (field 4 13 w)) else none
  | 5 => if num 7 6 w = 0 then some (.bcwait (field 4 17 w) (field 4 13 w) (field 6 0 w)) else none
  | 6 => if num 4 17 w = 0 ∧ num 7 6 w = 0 then some (.bcadd (field 4 13 w) (field 6 0 w)) else none
  | _ => none

/-- Rows of major 0x34 (Table 10.11). -/
def decodeMajor34 (w : W32) : Option Instr :=
  match num 6 20 w with
  | 0 => if num 2 0 w = 0 then some (.sadd (field 6 14 w) (field 6 8 w) (field 6 2 w)) else none
  | 1 => if num 2 0 w = 0 then some (.ssub (field 6 14 w) (field 6 8 w) (field 6 2 w)) else none
  | 2 => if num 2 0 w = 0 then some (.smul (field 6 14 w) (field 6 8 w) (field 6 2 w)) else none
  | 3 => if num 2 0 w = 0 then some (.smulh (field 6 14 w) (field 6 8 w) (field 6 2 w)) else none
  | 4 => if num 2 0 w = 0 then some (.sdiv (field 6 14 w) (field 6 8 w) (field 6 2 w)) else none
  | 5 => if num 2 0 w = 0 then some (.srem (field 6 14 w) (field 6 8 w) (field 6 2 w)) else none
  | 6 => if num 2 0 w = 0 then some (.sand (field 6 14 w) (field 6 8 w) (field 6 2 w)) else none
  | 7 => if num 2 0 w = 0 then some (.sor (field 6 14 w) (field 6 8 w) (field 6 2 w)) else none
  | 8 => if num 2 0 w = 0 then some (.sxor (field 6 14 w) (field 6 8 w) (field 6 2 w)) else none
  | 9 => if num 2 0 w = 0 then some (.sshl (field 6 14 w) (field 6 8 w) (field 6 2 w)) else none
  | 10 => if num 2 0 w = 0 then some (.sshr (field 6 14 w) (field 6 8 w) (field 6 2 w)) else none
  | 11 => if num 2 0 w = 0 then some (.ssra (field 6 14 w) (field 6 8 w) (field 6 2 w)) else none
  | 12 => if num 2 0 w = 0 then some (.smin (field 6 14 w) (field 6 8 w) (field 6 2 w)) else none
  | 13 => if num 2 0 w = 0 then some (.smax (field 6 14 w) (field 6 8 w) (field 6 2 w)) else none
  | 14 => if num 2 0 w = 0 then some (.sslt (field 6 14 w) (field 6 8 w) (field 6 2 w)) else none
  | 15 => if num 2 0 w = 0 then some (.ssltu (field 6 14 w) (field 6 8 w) (field 6 2 w)) else none
  | 16 => if num 8 0 w = 0 then some (.smov (field 6 14 w) (field 6 8 w)) else none
  | _ => none

/-- Rows of major 0x35 (Table 10.11). -/
def decodeMajor35 (w : W32) : Option Instr :=
  match num 4 22 w with
  | 0 => some (.saddi (field 6 16 w) (field 6 10 w) (field 10 0 w))
  | 1 => some (.sandi (field 6 16 w) (field 6 10 w) (field 10 0 w))
  | 2 => some (.sori (field 6 16 w) (field 6 10 w) (field 10 0 w))
  | 3 => some (.sxori (field 6 16 w) (field 6 10 w) (field 10 0 w))
  | 4 => some (.sshli (field 6 16 w) (field 6 10 w) (field 10 0 w))
  | 5 => some (.sshri (field 6 16 w) (field 6 10 w) (field 10 0 w))
  | 6 => some (.ssrai (field 6 16 w) (field 6 10 w) (field 10 0 w))
  | 7 => if num 6 10 w = 0 then some (.slui (field 6 16 w) (field 10 0 w)) else none
  | _ => none

/-- Rows of major 0x36 (Table 10.11). -/
def decodeMajor36 (w : W32) : Option Instr :=
  match num 4 22 w with
  | 0 => some (.sld (field 6 16 w) (field 6 10 w) (field 10 0 w))
  | 1 => some (.sst (field 6 16 w) (field 6 10 w) (field 10 0 w))
  | 2 => some (.slds (field 6 16 w) (field 6 10 w) (field 10 0 w))
  | 3 => some (.ssts (field 6 16 w) (field 6 10 w) (field 10 0 w))
  | 4 => some (.sld4 (field 6 16 w) (field 6 10 w) (field 10 0 w))
  | 5 => some (.sst4 (field 6 16 w) (field 6 10 w) (field 10 0 w))
  | 6 => some (.slds4 (field 6 16 w) (field 6 10 w) (field 10 0 w))
  | 7 => some (.ssts4 (field 6 16 w) (field 6 10 w) (field 10 0 w))
  | _ => none

/-- Rows of major 0x37. -/
def decodeMajor37 (w : W32) : Option Instr :=
  match num 3 23 w with
  | 0 => some (.sbEq (field 6 17 w) (field 6 11 w) (field 11 0 w))
  | 1 => some (.sbNe (field 6 17 w) (field 6 11 w) (field 11 0 w))
  | 2 => some (.sbLt (field 6 17 w) (field 6 11 w) (field 11 0 w))
  | 3 => some (.sbGe (field 6 17 w) (field 6 11 w) (field 11 0 w))
  | 4 => some (.sbLtu (field 6 17 w) (field 6 11 w) (field 11 0 w))
  | 5 => some (.sbGeu (field 6 17 w) (field 6 11 w) (field 11 0 w))
  | 7 =>
    match num 6 11 w with
    | 0 => if num 6 17 w = 0 then some (.sj (field 11 0 w)) else none
    | 1 => some (.scall (field 6 17 w) (field 11 0 w))
    | 2 => if num 11 0 w = 0 then some (.sret (field 6 17 w)) else none
    | 3 => some (.sjr (field 6 17 w) (field 11 0 w))
    | _ => none
  | _ => none

/-- Rows of major 0x38 (Table 10.11). -/
def decodeMajor38 (w : W32) : Option Instr :=
  match num 6 20 w with
  | 0 => if num 6 14 w = 0 ∧ num 8 0 w = 0 then some (.dqpush (field 6 8 w)) else none
  | 1 => if num 6 14 w = 0 ∧ num 8 0 w = 0 then some (.tapePush (field 6 8 w)) else none
  | 2 => if num 2 18 w = 0 ∧ num 2 0 w = 0 then some (.qsignal (field 3 15 w) (field 1 14 w) (field 6 8 w) (field 6 2 w)) else none
  | 3 => if num 14 0 w = 0 then some (.stime (field 6 14 w)) else none
  | 4 => if num 6 14 w = 0 ∧ num 8 0 w = 0 then some (.swtime (field 6 8 w)) else none
  | 5 => if num 2 18 w = 0 ∧ num 2 0 w = 0 then some (.sbar (field 4 14 w) (field 6 8 w) (field 6 2 w)) else none
  | 6 => if num 20 0 w = 0 then some (.sexit) else none
  | 7 => if num 2 0 w = 0 then some (.ssysr (field 6 14 w) (field 6 8 w) (field 6 2 w)) else none
  | 8 => if num 2 0 w = 0 then some (.ssysw (field 6 14 w) (field 6 8 w) (field 6 2 w)) else none
  | 9 => if num 2 18 w = 0 ∧ num 8 0 w = 0 then some (.sramcfg (field 4 14 w) (field 6 8 w)) else none
  | 10 => if num 3 17 w = 0 ∧ num 2 12 w = 0 ∧ num 2 6 w = 0 ∧ num 2 0 w = 0 then some (.sfence (field 3 14 w) (field 4 8 w) (field 4 2 w)) else none
  | _ => none

/-- Rows of major 0x39. -/
def decodeMajor39 (w : W32) : Option Instr :=
  match num 6 20 w with
  | 0 => if num 6 14 w = 0 ∧ num 8 0 w = 0 then some (.mcfg (field 6 8 w)) else none
  | 1 => if num 6 14 w = 0 ∧ num 2 0 w = 0 then some (.mcb (field 6 8 w) (field 6 2 w)) else none
  | 2 => if num 5 15 w = 0 ∧ num 8 0 w = 0 then some (.mldb (field 1 14 w) (field 6 8 w)) else none
  | 3 => if num 1 19 w = 0 ∧ num 2 0 w = 0 then some (.mma (field 5 14 w) (field 6 8 w) (field 6 2 w)) else none
  | 4 => if num 1 19 w = 0 ∧ num 2 0 w = 0 then some (.mepi (field 5 14 w) (field 6 8 w) (field 6 2 w)) else none
  | 5 => if num 20 0 w = 0 then some (.mdrain) else none
  | 6 => if num 1 19 w = 0 ∧ num 14 0 w = 0 then some (.mzero (field 5 14 w)) else none
  | 7 => if num 1 19 w = 0 ∧ num 14 0 w = 0 then some (.mrel (field 5 14 w)) else none
  | _ => none

/-- Rows of major 0x3A. -/
def decodeMajor3A (w : W32) : Option Instr :=
  match num 6 20 w with
  | 0 => if num 1 19 w = 0 ∧ num 2 0 w = 0 then some (.slpin (field 5 14 w) (field 6 8 w) (field 6 2 w)) else none
  | 1 => if num 1 19 w = 0 ∧ num 14 0 w = 0 then some (.slunpin (field 5 14 w)) else none
  | 2 => if num 1 19 w = 0 ∧ num 8 0 w = 0 then some (.sldelta (field 5 14 w) (field 6 8 w)) else none
  | 3 => if num 1 19 w = 0 ∧ num 2 0 w = 0 then some (.slread (field 5 14 w) (field 6 8 w) (field 6 2 w)) else none
  | 4 => if num 1 19 w = 0 ∧ num 2 0 w = 0 then some (.slchunk (field 5 14 w) (field 6 8 w) (field 6 2 w)) else none
  | 5 => if num 1 19 w = 0 ∧ num 14 0 w = 0 then some (.slspill (field 5 14 w)) else none
  | 6 => if num 1 19 w = 0 ∧ num 14 0 w = 0 then some (.slfill (field 5 14 w)) else none
  | 7 => if num 8 0 w = 0 then some (.slinfo (field 6 14 w) (field 6 8 w)) else none
  | _ => none

/-- Rows of major 0x3B. -/
def decodeMajor3B (w : W32) : Option Instr :=
  match num 6 20 w with
  | 0 => if num 8 0 w = 0 then some (.schain (field 6 14 w) (field 6 8 w)) else none
  | 1 => if num 5 3 w = 0 ∧ num 2 0 w = 0 then some (.stagwaitAny (field 6 14 w) (field 6 8 w) (field 1 2 w)) else none
  | 2 => if num 5 3 w = 0 ∧ num 2 0 w = 0 then some (.stagwaitAll (field 6 14 w) (field 6 8 w) (field 1 2 w)) else none
  | 3 => if num 5 3 w = 0 ∧ num 2 0 w = 0 then some (.stagff (field 6 14 w) (field 6 8 w) (field 1 2 w)) else none
  | 4 => if num 2 0 w = 0 then some (.sbcwait (field 6 14 w) (field 6 8 w) (field 6 2 w)) else none
  | 5 => if num 2 0 w = 0 then some (.sbcarm (field 6 14 w) (field 6 8 w) (field 6 2 w)) else none
  | _ => none

/-- Rows of major 0x3F. -/
def decodeMajor3F (w : W32) : Option Instr :=
  if num 26 0 w = 67108863 then some (.ill) else none

/-- The instruction a word names, by its major opcode (Table 10.6). -/
def decodeWord (w : W32) : Option Instr :=
  match num 6 26 w with
  | 0x01 => decodeMajor01 w
  | 0x02 => decodeMajor02 w
  | 0x03 => decodeMajor03 w
  | 0x04 => decodeMajor04 w
  | 0x05 => decodeMajor05 w
  | 0x06 => decodeMajor06 w
  | 0x07 => decodeMajor07 w
  | 0x08 => decodeMajor08 w
  | 0x09 => decodeMajor09 w
  | 0x0A => decodeMajor0A w
  | 0x0B => decodeMajor0B w
  | 0x0C => decodeMajor0C w
  | 0x0D => decodeMajor0D w
  | 0x0E => decodeMajor0E w
  | 0x0F => decodeMajor0F w
  | 0x10 => decodeMajor10 w
  | 0x11 => decodeMajor11 w
  | 0x12 => decodeMajor12 w
  | 0x13 => decodeMajor13 w
  | 0x14 => decodeMajor14 w
  | 0x15 => decodeMajor15 w
  | 0x16 => decodeMajor16 w
  | 0x17 => decodeMajor17 w
  | 0x18 => decodeMajor18 w
  | 0x19 => decodeMajor19 w
  | 0x1A => decodeMajor1A w
  | 0x1B => decodeMajor1B w
  | 0x1C => decodeMajor1C w
  | 0x1D => decodeMajor1D w
  | 0x1E => decodeMajor1E w
  | 0x1F => decodeMajor1F w
  | 0x20 => decodeMajor20 w
  | 0x21 => decodeMajor21 w
  | 0x22 => decodeMajor22 w
  | 0x23 => decodeMajor23 w
  | 0x24 => decodeMajor24 w
  | 0x25 => decodeMajor25 w
  | 0x26 => decodeMajor26 w
  | 0x27 => decodeMajor27 w
  | 0x28 => decodeMajor28 w
  | 0x29 => decodeMajor29 w
  | 0x2A => decodeMajor2A w
  | 0x2B => decodeMajor2B w
  | 0x2C => decodeMajor2C w
  | 0x2D => decodeMajor2D w
  | 0x2E => decodeMajor2E w
  | 0x2F => decodeMajor2F w
  | 0x30 => decodeMajor30 w
  | 0x31 => decodeMajor31 w
  | 0x32 => decodeMajor32 w
  | 0x33 => decodeMajor33 w
  | 0x34 => decodeMajor34 w
  | 0x35 => decodeMajor35 w
  | 0x36 => decodeMajor36 w
  | 0x37 => decodeMajor37 w
  | 0x38 => decodeMajor38 w
  | 0x39 => decodeMajor39 w
  | 0x3A => decodeMajor3A w
  | 0x3B => decodeMajor3B w
  | 0x3F => decodeMajor3F w
  | _ => none

/-- The decoder on bytes: the instruction and the bytes after it. -/
def decode : List Byte → Except DecodeError (Instr × List Byte)
  | b0 :: b1 :: b2 :: b3 :: rest =>
    match decodeWord (wordOfBytes b0 b1 b2 b3) with
    | some i => .ok (i, rest)
    | none => .error (.unassigned (wordOfBytes b0 b1 b2 b3))
  | _ => .error .short

/-- A word's number: its opcode bits plus each field, given with the place of its bit 0. -/
def word (m : Nat) : List (Nat × Nat) → Nat
  | [] => m
  | (x, lo) :: r => word (m + x * 2 ^ lo) r

/-- The number of an encoded instruction's word; none for an event row, which has no encoding. -/
def encodeNum (i : Instr) : Option Nat :=
  match i with
  | .iadd h w d a b => some (word 0x04000000 [(h.toNat, 24), (w.toNat, 21), (d.toNat, 14), (a.toNat, 7), (b.toNat, 0)])
  | .isub h w d a b => some (word 0x08000000 [(h.toNat, 24), (w.toNat, 21), (d.toNat, 14), (a.toNat, 7), (b.toNat, 0)])
  | .imul h w d a b => some (word 0x0C000000 [(h.toNat, 24), (w.toNat, 21), (d.toNat, 14), (a.toNat, 7), (b.toNat, 0)])
  | .imulh h w d a b => some (word 0x10000000 [(h.toNat, 24), (w.toNat, 21), (d.toNat, 14), (a.toNat, 7), (b.toNat, 0)])
  | .imad h w d a b => some (word 0x14000000 [(h.toNat, 24), (w.toNat, 21), (d.toNat, 14), (a.toNat, 7), (b.toNat, 0)])
  | .imin h w d a b => some (word 0x18000000 [(h.toNat, 24), (w.toNat, 21), (d.toNat, 14), (a.toNat, 7), (b.toNat, 0)])
  | .imax h w d a b => some (word 0x1C000000 [(h.toNat, 24), (w.toNat, 21), (d.toNat, 14), (a.toNat, 7), (b.toNat, 0)])
  | .iabsd h w d a b => some (word 0x20000000 [(h.toNat, 24), (w.toNat, 21), (d.toNat, 14), (a.toNat, 7), (b.toNat, 0)])
  | .vand h w d a b => some (word 0x24000000 [(h.toNat, 24), (w.toNat, 21), (d.toNat, 14), (a.toNat, 7), (b.toNat, 0)])
  | .vor h w d a b => some (word 0x28000000 [(h.toNat, 24), (w.toNat, 21), (d.toNat, 14), (a.toNat, 7), (b.toNat, 0)])
  | .vxor h w d a b => some (word 0x2C000000 [(h.toNat, 24), (w.toNat, 21), (d.toNat, 14), (a.toNat, 7), (b.toNat, 0)])
  | .andn h w d a b => some (word 0x30000000 [(h.toNat, 24), (w.toNat, 21), (d.toNat, 14), (a.toNat, 7), (b.toNat, 0)])
  | .shl h w d a b => some (word 0x34000000 [(h.toNat, 24), (w.toNat, 21), (d.toNat, 14), (a.toNat, 7), (b.toNat, 0)])
  | .shr h w d a b => some (word 0x38000000 [(h.toNat, 24), (w.toNat, 21), (d.toNat, 14), (a.toNat, 7), (b.toNat, 0)])
  | .sra h w d a b => some (word 0x3C000000 [(h.toNat, 24), (w.toNat, 21), (d.toNat, 14), (a.toNat, 7), (b.toNat, 0)])
  | .fadd h w d a b => some (word 0x40000000 [(h.toNat, 24), (w.toNat, 21), (d.toNat, 14), (a.toNat, 7), (b.toNat, 0)])
  | .fsub h w d a b => some (word 0x44000000 [(h.toNat, 24), (w.toNat, 21), (d.toNat, 14), (a.toNat, 7), (b.toNat, 0)])
  | .fmul h w d a b => some (word 0x48000000 [(h.toNat, 24), (w.toNat, 21), (d.toNat, 14), (a.toNat, 7), (b.toNat, 0)])
  | .fma h w d a b => some (word 0x4C000000 [(h.toNat, 24), (w.toNat, 21), (d.toNat, 14), (a.toNat, 7), (b.toNat, 0)])
  | .fms h w d a b => some (word 0x50000000 [(h.toNat, 24), (w.toNat, 21), (d.toNat, 14), (a.toNat, 7), (b.toNat, 0)])
  | .fnma h w d a b => some (word 0x54000000 [(h.toNat, 24), (w.toNat, 21), (d.toNat, 14), (a.toNat, 7), (b.toNat, 0)])
  | .fmin h w d a b => some (word 0x58000000 [(h.toNat, 24), (w.toNat, 21), (d.toNat, 14), (a.toNat, 7), (b.toNat, 0)])
  | .fmax h w d a b => some (word 0x5C000000 [(h.toNat, 24), (w.toNat, 21), (d.toNat, 14), (a.toNat, 7), (b.toNat, 0)])
  | .sel h w d a b => some (word 0x60000000 [(h.toNat, 24), (w.toNat, 21), (d.toNat, 14), (a.toNat, 7), (b.toNat, 0)])
  | .shfl h w d a b => some (word 0x64000000 [(h.toNat, 24), (w.toNat, 21), (d.toNat, 14), (a.toNat, 7), (b.toNat, 0)])
  | .shflx h w d a b => some (word 0x68000000 [(h.toNat, 24), (w.toNat, 21), (d.toNat, 14), (a.toNat, 7), (b.toNat, 0)])
  | .bprm h w d a b => some (word 0x6C000000 [(h.toNat, 24), (w.toNat, 21), (d.toNat, 14), (a.toNat, 7), (b.toNat, 0)])
  | .dot2 h w d a b => some (word 0x70000000 [(h.toNat, 24), (w.toNat, 21), (d.toNat, 14), (a.toNat, 7), (b.toNat, 0)])
  | .dot4 h w d a b => some (word 0x74000000 [(h.toNat, 24), (w.toNat, 21), (d.toNat, 14), (a.toNat, 7), (b.toNat, 0)])
  | .pack h w d a b => some (word 0x78000000 [(h.toNat, 24), (w.toNat, 21), (d.toNat, 14), (a.toNat, 7), (b.toNat, 0)])
  | .fscale h w d a b => some (word 0x7C000000 [(h.toNat, 24), (w.toNat, 21), (d.toNat, 14), (a.toNat, 7), (b.toNat, 0)])
  | .mov h w d a => some (word 0x80000000 [(h.toNat, 24), (w.toNat, 21), (d.toNat, 14), (a.toNat, 7)])
  | .vnot h w d a => some (word 0x80000001 [(h.toNat, 24), (w.toNat, 21), (d.toNat, 14), (a.toNat, 7)])
  | .ineg h w d a => some (word 0x80000002 [(h.toNat, 24), (w.toNat, 21), (d.toNat, 14), (a.toNat, 7)])
  | .iabs h w d a => some (word 0x80000003 [(h.toNat, 24), (w.toNat, 21), (d.toNat, 14), (a.toNat, 7)])
  | .popc h w d a => some (word 0x80000004 [(h.toNat, 24), (w.toNat, 21), (d.toNat, 14), (a.toNat, 7)])
  | .clz h w d a => some (word 0x80000005 [(h.toNat, 24), (w.toNat, 21), (d.toNat, 14), (a.toNat, 7)])
  | .ctz h w d a => some (word 0x80000006 [(h.toNat, 24), (w.toNat, 21), (d.toNat, 14), (a.toNat, 7)])
  | .brev h w d a => some (word 0x80000007 [(h.toNat, 24), (w.toNat, 21), (d.toNat, 14), (a.toNat, 7)])
  | .sext8 h w d a => some (word 0x80000008 [(h.toNat, 24), (w.toNat, 21), (d.toNat, 14), (a.toNat, 7)])
  | .sext16 h w d a => some (word 0x80000009 [(h.toNat, 24), (w.toNat, 21), (d.toNat, 14), (a.toNat, 7)])
  | .zext8 h w d a => some (word 0x8000000A [(h.toNat, 24), (w.toNat, 21), (d.toNat, 14), (a.toNat, 7)])
  | .zext16 h w d a => some (word 0x8000000B [(h.toNat, 24), (w.toNat, 21), (d.toNat, 14), (a.toNat, 7)])
  | .bswap h w d a => some (word 0x8000000C [(h.toNat, 24), (w.toNat, 21), (d.toNat, 14), (a.toNat, 7)])
  | .movg w d g => some (word 0x8000000D [(w.toNat, 21), (d.toNat, 14), (g.toNat, 7)])
  | .movgh w d g => some (word 0x8000000E [(w.toNat, 21), (d.toNat, 14), (g.toNat, 7)])
  | .fneg h w d a => some (word 0x84000000 [(h.toNat, 24), (w.toNat, 21), (d.toNat, 14), (a.toNat, 7)])
  | .fabs h w d a => some (word 0x84000001 [(h.toNat, 24), (w.toNat, 21), (d.toNat, 14), (a.toNat, 7)])
  | .frcp h w d a => some (word 0x84000002 [(h.toNat, 24), (w.toNat, 21), (d.toNat, 14), (a.toNat, 7)])
  | .frsq h w d a => some (word 0x84000003 [(h.toNat, 24), (w.toNat, 21), (d.toNat, 14), (a.toNat, 7)])
  | .fsqrt h w d a => some (word 0x84000004 [(h.toNat, 24), (w.toNat, 21), (d.toNat, 14), (a.toNat, 7)])
  | .fexp2 h w d a => some (word 0x84000005 [(h.toNat, 24), (w.toNat, 21), (d.toNat, 14), (a.toNat, 7)])
  | .flog2 h w d a => some (word 0x84000006 [(h.toNat, 24), (w.toNat, 21), (d.toNat, 14), (a.toNat, 7)])
  | .fsin h w d a => some (word 0x84000007 [(h.toNat, 24), (w.toNat, 21), (d.toNat, 14), (a.toNat, 7)])
  | .fcos h w d a => some (word 0x84000008 [(h.toNat, 24), (w.toNat, 21), (d.toNat, 14), (a.toNat, 7)])
  | .ffloor h w d a => some (word 0x84000009 [(h.toNat, 24), (w.toNat, 21), (d.toNat, 14), (a.toNat, 7)])
  | .fceil h w d a => some (word 0x8400000A [(h.toNat, 24), (w.toNat, 21), (d.toNat, 14), (a.toNat, 7)])
  | .ftrunc h w d a => some (word 0x8400000B [(h.toNat, 24), (w.toNat, 21), (d.toNat, 14), (a.toNat, 7)])
  | .frint h w d a => some (word 0x8400000C [(h.toNat, 24), (w.toNat, 21), (d.toNat, 14), (a.toNat, 7)])
  | .fclass h w d a => some (word 0x8400000D [(h.toNat, 24), (w.toNat, 21), (d.toNat, 14), (a.toNat, 7)])
  | .ffrac h w d a => some (word 0x8400000E [(h.toNat, 24), (w.toNat, 21), (d.toNat, 14), (a.toNat, 7)])
  | .cvt h w d a n f => some (word 0x88000000 [(h.toNat, 24), (w.toNat, 21), (d.toNat, 14), (a.toNat, 7), (n.toNat, 4), (f.toNat, 0)])
  | .ballot h w d a => some (word 0x8C000000 [(h.toNat, 24), (w.toNat, 21), (d.toNat, 14), (a.toNat, 7)])
  | .vany h w d a => some (word 0x8C000001 [(h.toNat, 24), (w.toNat, 21), (d.toNat, 14), (a.toNat, 7)])
  | .vall h w d a => some (word 0x8C000002 [(h.toNat, 24), (w.toNat, 21), (d.toNat, 14), (a.toNat, 7)])
  | .bcast h w d a => some (word 0x8C000003 [(h.toNat, 24), (w.toNat, 21), (d.toNat, 14), (a.toNat, 7)])
  | .laneid h w d => some (word 0x8C000004 [(h.toNat, 24), (w.toNat, 21), (d.toNat, 14)])
  | .sliceid h w d => some (word 0x8C000005 [(h.toNat, 24), (w.toNat, 21), (d.toNat, 14)])
  | .redadd h w d a => some (word 0x8C000006 [(h.toNat, 24), (w.toNat, 21), (d.toNat, 14), (a.toNat, 7)])
  | .redmin h w d a => some (word 0x8C000007 [(h.toNat, 24), (w.toNat, 21), (d.toNat, 14), (a.toNat, 7)])
  | .redmax h w d a => some (word 0x8C000008 [(h.toNat, 24), (w.toNat, 21), (d.toNat, 14), (a.toNat, 7)])
  | .prfxadd h w d a => some (word 0x8C000009 [(h.toNat, 24), (w.toNat, 21), (d.toNat, 14), (a.toNat, 7)])
  | .prfxex h w d a => some (word 0x8C00000A [(h.toNat, 24), (w.toNat, 21), (d.toNat, 14), (a.toNat, 7)])
  | .uniq h w d a => some (word 0x8C00000B [(h.toNat, 24), (w.toNat, 21), (d.toNat, 14), (a.toNat, 7)])
  | .xset h w a x => some (word 0x90000000 [(h.toNat, 24), (w.toNat, 21), (a.toNat, 7), (x.toNat, 4)])
  | .xadd h w c x => some (word 0x90000001 [(h.toNat, 24), (w.toNat, 21), (c.toNat, 7), (x.toNat, 4)])
  | .xget h w d x => some (word 0x90000002 [(h.toNat, 24), (w.toNat, 21), (d.toNat, 14), (x.toNat, 4)])
  | .vldx h w d c x => some (word 0x90000003 [(h.toNat, 24), (w.toNat, 21), (d.toNat, 14), (c.toNat, 7), (x.toNat, 4)])
  | .vstx h w d c x => some (word 0x90000004 [(h.toNat, 24), (w.toNat, 21), (d.toNat, 14), (c.toNat, 7), (x.toNat, 4)])
  | .p2v h w d k => some (word 0x90000005 [(h.toNat, 24), (w.toNat, 21), (d.toNat, 14), (k.toNat, 4)])
  | .v2p h w a k => some (word 0x90000006 [(h.toNat, 24), (w.toNat, 21), (a.toNat, 7), (k.toNat, 4)])
  | .pnot h w p q => some (word 0x90000007 [(h.toNat, 24), (w.toNat, 21), (p.toNat, 14), (q.toNat, 7)])
  | .pand h w p r q => some (word 0x90000008 [(h.toNat, 24), (w.toNat, 21), (p.toNat, 14), (r.toNat, 10), (q.toNat, 7)])
  | .por h w p r q => some (word 0x90000009 [(h.toNat, 24), (w.toNat, 21), (p.toNat, 14), (r.toNat, 10), (q.toNat, 7)])
  | .pxor h w p r q => some (word 0x9000000A [(h.toNat, 24), (w.toNat, 21), (p.toNat, 14), (r.toNat, 10), (q.toNat, 7)])
  | .icmp h w c p a b => some (word 0x94000000 [(h.toNat, 24), (w.toNat, 21), (c.toNat, 17), (p.toNat, 14), (a.toNat, 7), (b.toNat, 0)])
  | .fcmp h w c p a b => some (word 0x98000000 [(h.toNat, 24), (w.toNat, 21), (c.toNat, 17), (p.toNat, 14), (a.toNat, 7), (b.toNat, 0)])
  | .iaddi w d a i => some (word 0x9C000000 [(w.toNat, 23), (d.toNat, 16), (a.toNat, 9), (i.toNat, 0)])
  | .andi w d a i => some (word 0x9C000040 [(w.toNat, 23), (d.toNat, 16), (a.toNat, 9), (i.toNat, 0)])
  | .ori w d a i => some (word 0x9C000080 [(w.toNat, 23), (d.toNat, 16), (a.toNat, 9), (i.toNat, 0)])
  | .xori w d a i => some (word 0x9C0000C0 [(w.toNat, 23), (d.toNat, 16), (a.toNat, 9), (i.toNat, 0)])
  | .shli w d a i => some (word 0x9C000100 [(w.toNat, 23), (d.toNat, 16), (a.toNat, 9), (i.toNat, 0)])
  | .shri w d a i => some (word 0x9C000140 [(w.toNat, 23), (d.toNat, 16), (a.toNat, 9), (i.toNat, 0)])
  | .srai w d a i => some (word 0x9C000180 [(w.toNat, 23), (d.toNat, 16), (a.toNat, 9), (i.toNat, 0)])
  | .movk w d i => some (word 0xA0000000 [(w.toNat, 23), (d.toNat, 16), (i.toNat, 0)])
  | .movkh w d i => some (word 0xA4000000 [(w.toNat, 23), (d.toNat, 16), (i.toNat, 0)])
  | .ld w d a s i => some (word 0xA8000000 [(w.toNat, 23), (d.toNat, 16), (a.toNat, 9), (s.toNat, 7), (i.toNat, 0)])
  | .st w d a s i => some (word 0xAC000000 [(w.toNat, 23), (d.toNat, 16), (a.toNat, 9), (s.toNat, 7), (i.toNat, 0)])
  | .lds w d a s i => some (word 0xB0000000 [(w.toNat, 23), (d.toNat, 16), (a.toNat, 9), (s.toNat, 7), (i.toNat, 0)])
  | .sts w d a s i => some (word 0xB4000000 [(w.toNat, 23), (d.toNat, 16), (a.toNat, 9), (s.toNat, 7), (i.toNat, 0)])
  | .atom o w d a b => some (word 0xB8000000 [(o.toNat, 22), (w.toNat, 21), (d.toNat, 14), (a.toNat, 7), (b.toNat, 0)])
  | .red m w a b => some (word 0xBC000000 [(m.toNat, 21), (w.toNat, 14), (a.toNat, 7), (b.toNat, 0)])
  | .redFadd a b => some (word 0xBD000000 [(a.toNat, 7), (b.toNat, 0)])
  | .redBfadd2 a b => some (word 0xBD200000 [(a.toNat, 7), (b.toNat, 0)])
  | .ll4 d a => some (word 0xBD400000 [(d.toNat, 14), (a.toNat, 7)])
  | .ll8 d a => some (word 0xBD600000 [(d.toNat, 14), (a.toNat, 7)])
  | .sc4 d a b => some (word 0xBD800000 [(d.toNat, 14), (a.toNat, 7), (b.toNat, 0)])
  | .sc8 d a b => some (word 0xBDA00000 [(d.toNat, 14), (a.toNat, 7), (b.toNat, 0)])
  | .ldt d a => some (word 0xBDC00000 [(d.toNat, 14), (a.toNat, 7)])
  | .unpk d a => some (word 0xBDE00000 [(d.toNat, 14), (a.toNat, 7)])
  | .sttr d a b => some (word 0xBE000000 [(d.toNat, 14), (a.toNat, 7), (b.toNat, 0)])
  | .pref a l => some (word 0xBE200000 [(a.toNat, 7), (l.toNat, 0)])
  | .fpush a b => some (word 0xBE400000 [(a.toNat, 7), (b.toNat, 0)])
  | .fpop d a => some (word 0xBE600000 [(d.toNat, 14), (a.toNat, 7)])
  | .stm s a b => some (word 0xBE800000 [(s.toNat, 14), (a.toNat, 7), (b.toNat, 0)])
  | .bra c g d => some (word 0xC0000000 [(c.toNat, 22), (g.toNat, 18), (d.toNat, 0)])
  | .call g d => some (word 0xC3C00000 [(g.toNat, 18), (d.toNat, 0)])
  | .gadd d a b => some (word 0xC4000000 [(d.toNat, 17), (a.toNat, 13), (b.toNat, 0)])
  | .gsub d a b => some (word 0xC4200000 [(d.toNat, 17), (a.toNat, 13), (b.toNat, 0)])
  | .gmul d a b => some (word 0xC4400000 [(d.toNat, 17), (a.toNat, 13), (b.toNat, 0)])
  | .gand d a b => some (word 0xC4600000 [(d.toNat, 17), (a.toNat, 13), (b.toNat, 0)])
  | .gor d a b => some (word 0xC4800000 [(d.toNat, 17), (a.toNat, 13), (b.toNat, 0)])
  | .gxor d a b => some (word 0xC4A00000 [(d.toNat, 17), (a.toNat, 13), (b.toNat, 0)])
  | .gshl d a b => some (word 0xC4C00000 [(d.toNat, 17), (a.toNat, 13), (b.toNat, 0)])
  | .gshr d a b => some (word 0xC4E00000 [(d.toNat, 17), (a.toNat, 13), (b.toNat, 0)])
  | .gsra d a b => some (word 0xC5000000 [(d.toNat, 17), (a.toNat, 13), (b.toNat, 0)])
  | .gmin d a b => some (word 0xC5200000 [(d.toNat, 17), (a.toNat, 13), (b.toNat, 0)])
  | .gmax d a b => some (word 0xC5400000 [(d.toNat, 17), (a.toNat, 13), (b.toNat, 0)])
  | .gslt d a b => some (word 0xC5600000 [(d.toNat, 17), (a.toNat, 13), (b.toNat, 0)])
  | .gsltu d a b => some (word 0xC5800000 [(d.toNat, 17), (a.toNat, 13), (b.toNat, 0)])
  | .gmov d a => some (word 0xC5A00000 [(d.toNat, 17), (a.toNat, 13)])
  | .gaddi d a i => some (word 0xC6000000 [(d.toNat, 17), (a.toNat, 13), (i.toNat, 0)])
  | .gandi d a i => some (word 0xC6200000 [(d.toNat, 17), (a.toNat, 13), (i.toNat, 0)])
  | .gori d a i => some (word 0xC6400000 [(d.toNat, 17), (a.toNat, 13), (i.toNat, 0)])
  | .gxori d a i => some (word 0xC6600000 [(d.toNat, 17), (a.toNat, 13), (i.toNat, 0)])
  | .gshli d a i => some (word 0xC6800000 [(d.toNat, 17), (a.toNat, 13), (i.toNat, 0)])
  | .gshri d a i => some (word 0xC6A00000 [(d.toNat, 17), (a.toNat, 13), (i.toNat, 0)])
  | .gsrai d a i => some (word 0xC6C00000 [(d.toNat, 17), (a.toNat, 13), (i.toNat, 0)])
  | .gli d i => some (word 0xC6E00000 [(d.toNat, 17), (i.toNat, 0)])
  | .vget d l v => some (word 0xC7000000 [(d.toNat, 17), (l.toNat, 7), (v.toNat, 0)])
  | .vgeth d l v => some (word 0xC7200000 [(d.toNat, 17), (l.toNat, 7), (v.toNat, 0)])
  | .modeSet i => some (word 0xC8000000 [(i.toNat, 0)])
  | .mset i => some (word 0xC8100000 [(i.toNat, 0)])
  | .msave g => some (word 0xC8200000 [(g.toNat, 16)])
  | .mrest g w => some (word 0xC8300000 [(g.toNat, 16), (w.toNat, 14)])
  | .mand g n p => some (word 0xC8400000 [(g.toNat, 16), (n.toNat, 15), (p.toNat, 12)])
  | .mor g n p => some (word 0xC8500000 [(g.toNat, 16), (n.toNat, 15), (p.toNat, 12)])
  | .mall g => some (word 0xC8600000 [(g.toNat, 16)])
  | .regang l => some (word 0xC8700000 [(l.toNat, 0)])
  | .bar n c => some (word 0xC8800000 [(n.toNat, 16), (c.toNat, 0)])
  | .safept n => some (word 0xC8A00000 [(n.toNat, 0)])
  | .dqpop g => some (word 0xC8B00000 [(g.toNat, 16)])
  | .trap c => some (word 0xC8C00000 [(c.toNat, 0)])
  | .brk c => some (word 0xC8D00000 [(c.toNat, 0)])
  | .wait n => some (word 0xC8E00000 [(n.toNat, 0)])
  | .fence p s c => some (word 0xC9100000 [(p.toNat, 8), (s.toNat, 4), (c.toNat, 0)])
  | .wtime g => some (word 0xC9200000 [(g.toNat, 16)])
  | .sysr g n => some (word 0xC9300000 [(g.toNat, 16), (n.toNat, 0)])
  | .sysw g n => some (word 0xC9400000 [(g.toNat, 16), (n.toNat, 0)])
  | .ret g => some (word 0xC9500000 [(g.toNat, 16)])
  | .jr g d => some (word 0xC9600000 [(g.toNat, 16), (d.toNat, 0)])
  | .chain a e => some (word 0xCC000000 [(a.toNat, 13), (e.toNat, 0)])
  | .tagwaitAny d a => some (word 0xCC200000 [(d.toNat, 17), (a.toNat, 13)])
  | .tagwaitAll d a => some (word 0xCC400000 [(d.toNat, 17), (a.toNat, 13)])
  | .tagff d a => some (word 0xCC600000 [(d.toNat, 17), (a.toNat, 13)])
  | .tagclr a => some (word 0xCC800000 [(a.toNat, 13)])
  | .bcwait d a k => some (word 0xCCA00000 [(d.toNat, 17), (a.toNat, 13), (k.toNat, 0)])
  | .bcadd a k => some (word 0xCCC00000 [(a.toNat, 13), (k.toNat, 0)])
  | .sadd d a b => some (word 0xD0000000 [(d.toNat, 14), (a.toNat, 8), (b.toNat, 2)])
  | .ssub d a b => some (word 0xD0100000 [(d.toNat, 14), (a.toNat, 8), (b.toNat, 2)])
  | .smul d a b => some (word 0xD0200000 [(d.toNat, 14), (a.toNat, 8), (b.toNat, 2)])
  | .smulh d a b => some (word 0xD0300000 [(d.toNat, 14), (a.toNat, 8), (b.toNat, 2)])
  | .sdiv d a b => some (word 0xD0400000 [(d.toNat, 14), (a.toNat, 8), (b.toNat, 2)])
  | .srem d a b => some (word 0xD0500000 [(d.toNat, 14), (a.toNat, 8), (b.toNat, 2)])
  | .sand d a b => some (word 0xD0600000 [(d.toNat, 14), (a.toNat, 8), (b.toNat, 2)])
  | .sor d a b => some (word 0xD0700000 [(d.toNat, 14), (a.toNat, 8), (b.toNat, 2)])
  | .sxor d a b => some (word 0xD0800000 [(d.toNat, 14), (a.toNat, 8), (b.toNat, 2)])
  | .sshl d a b => some (word 0xD0900000 [(d.toNat, 14), (a.toNat, 8), (b.toNat, 2)])
  | .sshr d a b => some (word 0xD0A00000 [(d.toNat, 14), (a.toNat, 8), (b.toNat, 2)])
  | .ssra d a b => some (word 0xD0B00000 [(d.toNat, 14), (a.toNat, 8), (b.toNat, 2)])
  | .smin d a b => some (word 0xD0C00000 [(d.toNat, 14), (a.toNat, 8), (b.toNat, 2)])
  | .smax d a b => some (word 0xD0D00000 [(d.toNat, 14), (a.toNat, 8), (b.toNat, 2)])
  | .sslt d a b => some (word 0xD0E00000 [(d.toNat, 14), (a.toNat, 8), (b.toNat, 2)])
  | .ssltu d a b => some (word 0xD0F00000 [(d.toNat, 14), (a.toNat, 8), (b.toNat, 2)])
  | .smov d a => some (word 0xD1000000 [(d.toNat, 14), (a.toNat, 8)])
  | .saddi d a i => some (word 0xD4000000 [(d.toNat, 16), (a.toNat, 10), (i.toNat, 0)])
  | .sandi d a i => some (word 0xD4400000 [(d.toNat, 16), (a.toNat, 10), (i.toNat, 0)])
  | .sori d a i => some (word 0xD4800000 [(d.toNat, 16), (a.toNat, 10), (i.toNat, 0)])
  | .sxori d a i => some (word 0xD4C00000 [(d.toNat, 16), (a.toNat, 10), (i.toNat, 0)])
  | .sshli d a i => some (word 0xD5000000 [(d.toNat, 16), (a.toNat, 10), (i.toNat, 0)])
  | .sshri d a i => some (word 0xD5400000 [(d.toNat, 16), (a.toNat, 10), (i.toNat, 0)])
  | .ssrai d a i => some (word 0xD5800000 [(d.toNat, 16), (a.toNat, 10), (i.toNat, 0)])
  | .slui d i => some (word 0xD5C00000 [(d.toNat, 16), (i.toNat, 0)])
  | .sld d a i => some (word 0xD8000000 [(d.toNat, 16), (a.toNat, 10), (i.toNat, 0)])
  | .sst d a i => some (word 0xD8400000 [(d.toNat, 16), (a.toNat, 10), (i.toNat, 0)])
  | .slds d a i => some (word 0xD8800000 [(d.toNat, 16), (a.toNat, 10), (i.toNat, 0)])
  | .ssts d a i => some (word 0xD8C00000 [(d.toNat, 16), (a.toNat, 10), (i.toNat, 0)])
  | .sld4 d a i => some (word 0xD9000000 [(d.toNat, 16), (a.toNat, 10), (i.toNat, 0)])
  | .sst4 d a i => some (word 0xD9400000 [(d.toNat, 16), (a.toNat, 10), (i.toNat, 0)])
  | .slds4 d a i => some (word 0xD9800000 [(d.toNat, 16), (a.toNat, 10), (i.toNat, 0)])
  | .ssts4 d a i => some (word 0xD9C00000 [(d.toNat, 16), (a.toNat, 10), (i.toNat, 0)])
  | .sbEq a b d => some (word 0xDC000000 [(a.toNat, 17), (b.toNat, 11), (d.toNat, 0)])
  | .sbNe a b d => some (word 0xDC800000 [(a.toNat, 17), (b.toNat, 11), (d.toNat, 0)])
  | .sbLt a b d => some (word 0xDD000000 [(a.toNat, 17), (b.toNat, 11), (d.toNat, 0)])
  | .sbGe a b d => some (word 0xDD800000 [(a.toNat, 17), (b.toNat, 11), (d.toNat, 0)])
  | .sbLtu a b d => some (word 0xDE000000 [(a.toNat, 17), (b.toNat, 11), (d.toNat, 0)])
  | .sbGeu a b d => some (word 0xDE800000 [(a.toNat, 17), (b.toNat, 11), (d.toNat, 0)])
  | .sj d => some (word 0xDF800000 [(d.toNat, 0)])
  | .scall a d => some (word 0xDF800800 [(a.toNat, 17), (d.toNat, 0)])
  | .sret a => some (word 0xDF801000 [(a.toNat, 17)])
  | .sjr a d => some (word 0xDF801800 [(a.toNat, 17), (d.toNat, 0)])
  | .dqpush a => some (word 0xE0000000 [(a.toNat, 8)])
  | .tapePush a => some (word 0xE0100000 [(a.toNat, 8)])
  | .qsignal c o a b => some (word 0xE0200000 [(c.toNat, 15), (o.toNat, 14), (a.toNat, 8), (b.toNat, 2)])
  | .stime d => some (word 0xE0300000 [(d.toNat, 14)])
  | .swtime a => some (word 0xE0400000 [(a.toNat, 8)])
  | .sbar n h l => some (word 0xE0500000 [(n.toNat, 14), (h.toNat, 8), (l.toNat, 2)])
  | .ssysr d h l => some (word 0xE0700000 [(d.toNat, 14), (h.toNat, 8), (l.toNat, 2)])
  | .ssysw d h l => some (word 0xE0800000 [(d.toNat, 14), (h.toNat, 8), (l.toNat, 2)])
  | .sramcfg m a => some (word 0xE0900000 [(m.toNat, 14), (a.toNat, 8)])
  | .sfence c p s => some (word 0xE0A00000 [(c.toNat, 14), (p.toNat, 8), (s.toNat, 2)])
  | .mcfg a => some (word 0xE4000000 [(a.toNat, 8)])
  | .mcb a b => some (word 0xE4100000 [(a.toNat, 8), (b.toNat, 2)])
  | .mldb k a => some (word 0xE4200000 [(k.toNat, 14), (a.toNat, 8)])
  | .mma n a b => some (word 0xE4300000 [(n.toNat, 14), (a.toNat, 8), (b.toNat, 2)])
  | .mepi n a b => some (word 0xE4400000 [(n.toNat, 14), (a.toNat, 8), (b.toNat, 2)])
  | .mzero n => some (word 0xE4600000 [(n.toNat, 14)])
  | .mrel n => some (word 0xE4700000 [(n.toNat, 14)])
  | .slpin n a b => some (word 0xE8000000 [(n.toNat, 14), (a.toNat, 8), (b.toNat, 2)])
  | .slunpin n => some (word 0xE8100000 [(n.toNat, 14)])
  | .sldelta n a => some (word 0xE8200000 [(n.toNat, 14), (a.toNat, 8)])
  | .slread n a b => some (word 0xE8300000 [(n.toNat, 14), (a.toNat, 8), (b.toNat, 2)])
  | .slchunk n a b => some (word 0xE8400000 [(n.toNat, 14), (a.toNat, 8), (b.toNat, 2)])
  | .slspill n => some (word 0xE8500000 [(n.toNat, 14)])
  | .slfill n => some (word 0xE8600000 [(n.toNat, 14)])
  | .slinfo d a => some (word 0xE8700000 [(d.toNat, 14), (a.toNat, 8)])
  | .schain e a => some (word 0xEC000000 [(e.toNat, 14), (a.toNat, 8)])
  | .stagwaitAny d a c => some (word 0xEC100000 [(d.toNat, 14), (a.toNat, 8), (c.toNat, 2)])
  | .stagwaitAll d a c => some (word 0xEC200000 [(d.toNat, 14), (a.toNat, 8), (c.toNat, 2)])
  | .stagff d a c => some (word 0xEC300000 [(d.toNat, 14), (a.toNat, 8), (c.toNat, 2)])
  | .sbcwait d a k => some (word 0xEC400000 [(d.toNat, 14), (a.toNat, 8), (k.toNat, 2)])
  | .sbcarm k a b => some (word 0xEC500000 [(k.toNat, 14), (a.toNat, 8), (b.toNat, 2)])
  | .pageWalk => none
  | .zeroRequest => none
  | .zeroingComplete => none
  | .asidRebind => none
  | .asidRebindDone => none
  | .ptSync => none
  | .ptSyncRetire => none
  | .adapterFlipReply => none
  | .hostFlip => none
  | .flipHoldExpiry => none
  | .rdcSizeApply => none
  | .l2Request => none
  | .bump => none
  | .ckoutGrant => none
  | .ckoutTimeout => none
  | .engineLockGrant => none
  | .lockReplay => none
  | .reservationExpiry => none
  | .engineOperationComplete => none
  | .reload => none
  | .ualinkReadRequest => none
  | .ualinkWriteRequest => none
  | .podResponse => none
  | .fabricTimeout => none
  | .mcw => none
  | .mco => none
  | .rdn => none
  | .llq => none
  | .scq => none
  | .ctb => none
  | .crs => none
  | .spk => none
  | .passToken => none
  | .rcv => none
  | .recoveryAck => none
  | .badop => none
  | .packetBlocked => none
  | .passReissue => none
  | .linkReplay => none
  | .laneSpareRetrain => none
  | .portDown => none
  | .uetPacket => none
  | .ptpSync => none
  | .ptpDelayResp => none
  | .ptpSyncLoss => none
  | .timeTargetReached => none
  | .loadReturn => none
  | .gambitEntry => none
  | .gambitInstructionLimit => none
  | .regangTimeout => none
  | .queueDb => none
  | .queueEnable => none
  | .queueDisable => none
  | .queueReset => none
  | .queueResume => none
  | .queueLaunch => none
  | .queueWait => none
  | .queueWaitPoll => none
  | .queueWaitTimeout => none
  | .queueSignal => none
  | .queueCopy => none
  | .queueRewind => none
  | .queueNop => none
  | .timedStart => none
  | .formPlacement => none
  | .launchReserving => none
  | .gridComplete => none
  | .forcedEntry => none
  | .quantumExpiry => none
  | .priorityPreemption => none
  | .hardPreemption => none
  | .contextSave => none
  | .teamRestore => none
  | .matrixGrant => none
  | .slateRefill => none
  | .replayResume => none
  | .skipResume => none
  | .abortResume => none
  | .replayfResume => none
  | .operandLogReplay => none
  | .watchdog => none
  | .tenantReset => none
  | .eccUncorr => none
  | .systemRegisterWrite => none
  | .hostMemoryAccess => none
  | .mgtErr => none
  | .resetDevice => none
  | .errclr => none
  | .farExtentAdd => none
  | .farExtentRelease => none
  | .attest => none
  | .identityRequest => none
  | .stageBegin => none
  | .stageData => none
  | .stageCommit => none
  | .stageAbort => none
  | .mailboxBadop => none
  | .mailboxRequestEnd => none
  | .powerOn => none
  | .powerCapStepDown => none
  | .supplySag => none
  | .clockStepUp => none
  | .d2dFailure => none
  | .prebriyrFault => none
  | .hbmStackFailure => none
  | .softcorr => none
  | .scrub => none
  | .brodileLinkRetrain => none
  | .copyEntry => none
  | .copyt => none
  | .gather => none
  | .scatter => none
  | .mcast => none
  | .allred => none
  | .redscat => none
  | .allgath => none
  | .sparsek => none
  | .ckout => none
  | .ckin => none
  | .signalEntry => none
  | .waitbc => none
  | .loopEntry => none
  | .ifbc => none
  | .endEntry => none
  | .ill => some (word 0xFFFFFFFF [])
  | .exitSlice => some (word 0xC8900000 [])
  | .nop => some (word 0xC8F00000 [])
  | .yield => some (word 0xC9000000 [])
  | .sexit => some (word 0xE0600000 [])
  | .mdrain => some (word 0xE4500000 [])
  | .railRecovery => none
  | .linkRetrainEnd => none
  | .farAccessReply => none
  | .invalidHostAccess => none

/-- The word of an encoded instruction. -/
def encodeWord (i : Instr) : Option W32 := (encodeNum i).map (BitVec.ofNat 32)

/-- The bytes of an encoded instruction; none for an event row. -/
def encode (i : Instr) : Option (List Byte) := (encodeWord i).map bytesOfWord

/-- The host's check: the instruction read from nbits bits w, bit 0 lowest (R8). An instruction is one 32-bit word, so a
row of another width is none. -/
def decodeTableWord (nbits w : Nat) : Option Instr :=
  if nbits = 32 then
    match decode (bytesOfWord (BitVec.ofNat 32 w)) with
    | .ok (i, _) => some i
    | .error _ => none
  else none

/-- True of the event rows, which have no encoding. -/
def isEvent (i : Instr) : Bool := (encodeNum i).isNone

end Sys2Proof
end

