-- ==== Sys2Proof/Config.lean ====
section
/-! DEFINITION. What the spec leaves open: free values, each an opaque constant with no value a proof could see. -/

namespace Sys2Proof.Config

/-- The value of a location the spec calls undefined (R12): the n-th such value of the run. -/
opaque freeWord : Nat → W32
/-- The n-th undefined byte of the run (R12, R422, R433). -/
opaque freeByte : Nat → Byte
/-- The n-th instruction word that a grid fetches from code written while it ran (R139). -/
opaque freeCode : Nat → W32
/-- The victim way that the cluster cache chooses in a full set: not architectural (R61). -/
opaque ccVictim : Nat → Nat
/-- Translation of a group whose C = 1 assertion is false: which of the 32 entries answers (R20). -/
opaque cHintPick : Nat → Nat
/-- The port a non-minimal request draws from NMASK: the die's pseudo-random generator (R149). -/
opaque nonMinPort : Nat → Nat
/-- Beats that a port's neighbour has room for while a turn's cycles pass (R151: the neighbour's buffers are its own). -/
opaque linkRoom : Nat → Nat
/-- A special function's result in the rounding interval the model's bounds do not decide (R278): never reached by a
binary32 argument that the bounds separate. -/
opaque hardRound : Nat → W32 → W32
/-- SHAKE256 with a 64-byte output, as R502 and R504 use it. -/
opaque shake256 : List Byte → List Byte
/-- Ed448 verification of a signature (RFC 8032): public key, message, signature (R502). -/
opaque ed448Verify : List Byte → List Byte → List Byte → Bool
/-- Ed448 signature with the device's identity key, never readable outside Prebriyr (R503, R504). -/
opaque ed448Sign : List Byte → List Byte
/-- The device's identity public key, its certificate and its serial number (R503, R504, R514). -/
opaque identityKey : List Byte
opaque certificate : List Byte
opaque serial : List Byte
/-- Fuses: a key slot is revoked; the key of a slot; its fused digest; the fused minimum rollback index (R502). -/
opaque keyRevoked : Nat → Bool
opaque slotKey : Nat → List Byte
opaque slotDigest : Nat → List Byte
opaque minRollback : Nat
/-- The running firmware: version, rollback index and body digest (R504); the map of spares (R509). -/
opaque fwVersion : W32
opaque fwRollback : W32
opaque fwDigest : List Byte
opaque spareMap : List Byte
/-- The outcome of start-up step n of Table 19.2 at the k-th start-up: true when the step succeeds (R501). -/
opaque startStep : Nat → Nat → Bool
/-- Order q of the pod's plane and this device's number that Prebriyr writes at start-up (R143). -/
opaque podPosition : Nat → Nat × Nat
/-- Prebriyr configures the device as grandmaster of the pod's time at the k-th start-up (R178). -/
opaque grandmaster : Nat → Bool
/-- The ports that the k-th start-up's training brings up (R501). -/
opaque portsUp : Nat → W32
/-- After the k-th start-up (R509): the lowest number of spare cores left, core n is disabled for want of a spare, and the
spares that start-up took into use, as unit, index and kind of spare (Table 19.7). -/
opaque sparesLeft : Nat → Nat
opaque coreOff : Nat → Nat → Bool
opaque sparesTaken : Nat → List (Nat × Nat × Nat)

end Sys2Proof.Config
end

