-- ==== Sys2Proof/Machine/State.lean ====
section
/-! DEFINITION. The machine's state as plain data: one AQV-9512 package (R2), its two dies, 128 clusters and 512 cores,
the memory behind them, its queues, its fabric ports as one device of a pod, and the registers the host sees.
Tables are sparse lists in one canonical form (Machine/Table.lean). Numbers used as keys: a cluster is 64·die + cluster
(0 to 127), a core is 4·cluster + core (0 to 511), an L2 slice is its global number 96·die + slice (R64). -/

namespace Sys2Proof.Machine

/-- A sparse table: pairs of key and value, keys strictly rising, no entry equal to the table's default. -/
abbrev Tbl (α : Type) := List (Nat × α)

/-- The states of a slice (Table 6.9), and the Prefect's use of the same names. -/
inductive SliceSt where
  | issuable | scoreboard | ahead | regang | barrier | parked | safepoint | swapped | exited
  deriving DecidableEq, Repr

/-- A register of a slice, for readiness and INV: vector, predicate, index or scalar. -/
inductive RegId where
  | v (n : Nat) | p (k : Nat) | x (k : Nat) | g (k : Nat)
  deriving DecidableEq, Repr

/-- A fixed-latency result of a lane not yet ready by count: the value before the write, and the count at which the
result is ready (R294, R295). -/
structure PendRes where
  reg : RegId
  lane : Nat
  old : W32
  ready : Nat
  deriving DecidableEq, Repr

/-- A slice: four lanes under one program counter (R6, R183). `v` is keyed 4·register + lane, `x` likewise, `p` holds
p_k of lane l at bit 4·k + l (Table 8.9). -/
structure Slice where
  pc : W64 := 0
  /-- MODE (Table 10.2). -/
  mode : W64 := 0
  /-- The lane mask LM (R183). -/
  lm : BitVec 4 := 15#4
  g : Tbl W64 := []
  v : Tbl W32 := []
  p : W32 := 0
  x : Tbl W32 := []
  /-- Uniform tags, bit N for vN (R193). -/
  uni : BitVec 128 := BitVec.allOnes 128
  /-- The cohort the slice is in, named by its lowest slice (R187). -/
  cohort : Nat := 0
  st : SliceSt := .issuable
  /-- Issue count of the previous instruction (R293), from 1 at launch: only differences matter. -/
  count : Nat := 1
  /-- Cycle and count of the slice's first instruction, once it has issued (R293). -/
  first : Option (Nat × Nat) := none
  pend : List PendRes := []
  /-- Registers that are INV in Gambit, with the lane (R198). -/
  inv : List (RegId × Nat) := []
  /-- The decision-queue position, counted from the start of the queue (R192). -/
  dqPos : Nat := 0
  /-- The waiting fault that stops the slice at a class P fault (R239). -/
  stop : Option Nat := none
  /-- What a BARRIER wait waits for, as the waiting instruction defines (Table 8.9). -/
  waitOp : Nat := 0
  /-- In SCOREBOARD: the registers that the next instruction names. -/
  waitRegs : List RegId := []
  /-- The last SAFEPT's live count n while stopped at it (R204). -/
  live : Nat := 128
  deriving DecidableEq, Repr

/-- A REGANG episode of a home gang (R189). -/
structure Episode where
  pc : W64
  opened : Nat
  limit : Nat
  waiting : List Nat
  passed : List Nat
  deriving DecidableEq, Repr

/-- A Gambit episode: the checkpoint slot's content (R197, R201). The model keeps the slices whole; `used` counts the
bytes that the spec's layout would hold. -/
structure GambitEp where
  lead : Nat
  snap : List (Nat × Slice)
  blockOp : Nat
  used : Nat
  saved : List (Nat × Nat)
  issued : Nat
  deriving DecidableEq, Repr

/-- The Prefect of a team (R191). -/
structure Prefect where
  pc : W64 := 0
  s : Tbl W64 := []
  st : SliceSt := .issuable
  /-- Accumulation mode EXACT (R445); WINDOWED when the Prefect starts. -/
  exact : Bool := false
  stop : Option Nat := none
  waitOp : Nat := 0
  deriving DecidableEq, Repr

/-- A placed team (R6, R181). -/
structure Team where
  tid : Nat
  gid : Nat
  fid : Nat
  rank : Nat
  core : Nat
  /-- Team slot m of the core, 0 to 7 (R226, R229). -/
  slot : Nat
  /-- Slices S and registers per thread N of the launch (R180). -/
  nslices : Nat
  nregs : Nat
  /-- SYS.TEAM_ID of the team (Table 6.1). -/
  teamId : W64
  /-- The slices, keyed by slice number. -/
  slices : List (Nat × Slice)
  pf : Prefect := {}
  /-- The decision queue: unfreed entries, oldest first, and the count of entries freed (R192). -/
  dq : List W64 := []
  dqHead : Nat := 0
  episodes : Tbl Episode := []
  gambit : List GambitEp := []
  /-- Race-detector number of the team, if one was free (R104). -/
  det : Option Nat := none
  /-- The identity of its slices for reservations: the core and the slice numbers within it, as its first placement gave
  them (R159). -/
  ident : Nat × List Nat := (0, [])
  deriving DecidableEq, Repr

/-- A translation buffer entry (R25). `size` is 0 for 64 KiB, 1 for 512 MiB, 2 for a 2 MiB group (R20). -/
structure TlbEntry where
  asid : Nat
  gen : Nat
  size : Nat
  /-- VA[54:16] of the page or group, low bits of the group removed. -/
  page : Nat
  /-- The leaf as the walker read it, with the A and D it observed (R22). -/
  leaf : W64
  /-- SYS.PT_GEN of the tenant when the walk began (R35). -/
  ptGen : Nat
  deriving DecidableEq, Repr

/-- A reservation entry of a matrix engine (R237, R440). -/
structure Resv where
  id : Nat
  tid : Nat
  fid : Nat
  gid : Nat
  tenant : Nat
  asid : Nat
  core : Nat
  teamId : W64
  instr : Instr
  word : W32
  pc : W64
  sa : W64
  sb : W64
  exact : Bool
  prio : Nat
  age : Nat
  skip : Nat
  units : Nat
  /-- Translations made at post, until a SYS.PT_SYNC removes them (R452). -/
  pas : List TlbEntry := []
  /-- The descriptor or token records as they were read at post (R441). -/
  desc : List Byte := []
  /-- Its unit waits for data of another device or of the far tier. -/
  busy : Bool := false
  /-- Stopped by a retranslation or refill fault of this number (R452, R464). -/
  stop : Option Nat := none
  deriving DecidableEq, Repr

/-- An episode of a numbered barrier (R334). An arrival is a team and a slice number, or 64 for the Prefect. -/
structure BarEp where
  count : Nat
  arrived : List (Nat × Nat)
  deriving DecidableEq, Repr

/-- A stop request of a form: swap (R235) or pre-emption (R236). -/
structure StopReq where
  preempt : Bool
  since : Nat
  hard : Bool := false
  /-- Whether the stop phase is over and the drain has begun (R255). -/
  drain : Bool := false
  /-- The launch that asked for a pre-emption (R236). -/
  by_ : Nat := 0
  deriving DecidableEq, Repr

/-- A form, resident or swapped out (R6, R226). -/
structure Form where
  fid : Nat
  gid : Nat
  /-- Form number within the grid. -/
  idx : Nat
  cluster : Nat
  /-- The cores of ranks 0, 1, … and the bases of their windows in 4 KiB units (R54). -/
  cores : List Nat
  bases : List Nat
  /-- Window length of a team in bytes (R54). -/
  winLen : Nat
  /-- The form holds its cluster exclusively (R50). -/
  excl : Bool
  /-- Accumulator slots reserved at placement and not yet bound (R438). -/
  reserved : List Nat := []
  /-- The name map: the slot of each name bound to an ordinary slot, and the slate ID of each name that is a slate's
(R438, R453). -/
  names : Tbl Nat := []
  slateNames : Tbl Nat := []
  bars : Tbl BarEp := []
  /-- Time in ns when the form was placed or restored, and the order of placement. -/
  placedAt : Nat := 0
  stopReq : Option StopReq := none
  /-- The form is swapped out; its images lie in these 64 KiB units of the pool, by rank, a unit by its address. -/
  out : Bool := false
  images : List (Nat × List Nat) := []
  /-- Number of reserved slots released at the save (R257). -/
  owedSlots : Nat := 0
  /-- The teams as the device keeps them beside the image while the form is out. -/
  savedTeams : List Team := []
  /-- Its reservation entries, as the device keeps them beside their saved images (R466). -/
  savedResvs : List Resv := []
  deriving DecidableEq, Repr

/-- A launched grid (R215 to R219). -/
structure Grid where
  gid : Nat
  queue : Nat
  /-- The launch entry's count in its queue, or none for a launch popped from the tape (R225). -/
  entry : Option Nat
  tenant : Nat
  asid : Nat
  prio : Nat
  /-- The 128 bytes of the launch record (Table 7.6). -/
  record : List Byte
  /-- SYS.CHECK.EN and SYS.RACE_CTL.EN as the grid started with them (R297, R102). -/
  check : Bool
  race : Bool
  /-- Time in ns of acceptance (R263) and the order of acceptance (R228). -/
  accepted : Nat
  acceptSeq : Nat
  /-- Placement pointer, next form, and the time since which that form waits (R226, R228). -/
  ptr : Nat := 0
  nextForm : Nat := 0
  waitSince : Nat := 0
  reserving : Bool := false
  /-- Swapped-out forms, first in, first out (R235). -/
  returns : List Nat := []
  /-- Clusters whose room a quantum swap of this grid freed and nothing has taken since (R235). -/
  swapRoom : List Nat := []
  /-- Teams completed. -/
  doneTeams : Nat := 0
  /-- Houses on which a team has been placed (R100). -/
  houses : List Nat := []
  aborted : Bool := false
  /-- Completion (R219): the number below which write-backs are waited for (0 before them), and whether the completion
  event has been sent to another device. -/
  mark : Nat := 0
  evSent : Bool := false
  /-- Memory as it stood when the launch was accepted: the code a grid fetches (R139). -/
  snap : List Host.Cell := []
  deriving DecidableEq, Repr

/-- A hardware work queue (Tables 7.2 and 7.4). -/
structure Queue where
  ring : Nat := 0
  size : Nat := 0
  prio : Nat := 0
  tenant : Nat := 0
  ptok : Bool := false
  asid : Nat := 0
  head : BitVec 32 := 0
  tail : BitVec 32 := 0
  state : Nat := 0
  cause : Nat := 0
  /-- Entries started and not complete, by entry count (R218). -/
  started : List (BitVec 32) := []
  /-- A disable command waits for started entries (R212). -/
  disabling : Bool := false
  /-- Time in ns at which a WAIT entry started, and at its last read (R220). -/
  waitFrom : Option Nat := none
  lastPoll : Nat := 0
  /-- Physical address of the WAIT's event word, if local, and whether an event operation on its sector asks for a read
  (R220). -/
  waitPa : Option Nat := none
  recheck : Bool := false
  /-- A request of the head entry is under way at another device. -/
  asked : Bool := false
  /-- STOPPED by its head entry, which a resume passes over (R212). -/
  atHead : Bool := true
  /-- The overflow mark of a push onto a full tape (R224). -/
  ovf : Bool := false
  /-- The WAIT in progress, as its entry was read (R220). -/
  waitRec : List Byte := []
  /-- The REWIND in progress by its entry's count, its COUNT, the records it has launched, the grid it waits for, and a
  record popped and not yet launched (R225). -/
  rewinding : Option (BitVec 32) := none
  rewCount : Nat := 0
  rewound : Nat := 0
  rewindGrid : Option Nat := none
  popped : Option (List Byte) := none
  deriving DecidableEq, Repr

/-- A cluster-cache line (R61): the way it is in, as a bank of the cluster, the line number PA[38:7], the tenant, valid
sectors, dirty bytes and data. -/
structure CcLine where
  way : Nat
  line : Nat
  tenant : Nat
  valid : BitVec 4
  dirty : BitVec 128
  data : BitVec 1024
  deriving DecidableEq, Repr

/-- An L2 line (R64, R65): the way it is in, the line's number (a far line's number is its far address over 128), a far
flag, the generation and the data of a non-home line. A home line's data is memory's. -/
structure L2Line where
  way : Nat
  line : Nat
  far : Bool
  gen : Nat
  valid : BitVec 4
  dirty : BitVec 4
  data : BitVec 1024
  deriving DecidableEq, Repr

/-- A remote-data cache slot's tag (R75, R99); its data lies in the carve-out. -/
structure RdcSlot where
  tag : Nat
  gen : Nat
  deriving DecidableEq, Repr

/-- Who waits for a request's answer. -/
inductive Ref where
  | none
  /-- Lane of an outstanding memory operation. -/
  | lane (op gl : Nat)
  /-- An engine operation's unit. -/
  | eng (op : Nat)
  /-- A transfer of a matrix engine. -/
  | mx (cl io : Nat)
  /-- The event word of a queue's WAIT (R220). -/
  | queue (q entry : Nat)
  /-- Another device, by its request. -/
  | pod (p : Packet)
  /-- The instruction fetch of a grid at an address (R24, R42). -/
  | fetch (gid : Nat) (pc : W64)
  /-- The table entry that a rebind loads (R31). -/
  | asid (a : Nat)
  deriving DecidableEq, Repr

/-- What a request asks of its home slice. -/
inductive L2Kind where
  | read (n : Nat)
  /-- Bytes to store, by physical address. -/
  | write (cells : List Host.Cell)
  /-- A cluster-cache write-back: waits while it overlaps an engine lock (R95). -/
  | writeBack (cells : List Host.Cell)
  /-- ATOM and RED: operation code (R306), width in bytes, operand bytes (compare then new for cas). -/
  | atom (op n : Nat) (b : List Byte) (ret : Bool)
  | ll (key n : Nat)
  | sc (key : Nat) (data : List Byte)
  | pref
  deriving DecidableEq, Repr

/-- A request waiting at an L2 slice (R71, R72). -/
structure L2Req where
  id : Nat
  sl : Nat
  /-- Physical address, or far address when `far`. -/
  pa : Nat
  far : Bool
  kind : L2Kind
  tenant : Nat
  /-- No tenant: management or SYS traffic (R72 step 1). -/
  mgmt : Bool
  /-- Cycle of arrival and source node number (R72, R77). -/
  at_ : Nat
  node : Nat
  /-- Die of the issuer and its cluster, and the cache class of R63. -/
  die : Nat
  cluster : Nat
  cls : Nat
  /-- The access is checked against engine locks (R94). -/
  checked : Bool
  ref : Ref
  /-- SYS.RDC_GEN of the issuing die when the fill was requested (R99). -/
  gen : Nat
  /-- Issuing team and slice (64 the Prefect), for fences. -/
  owner : Nat × Nat
  deriving DecidableEq, Repr

/-- Where a lane of a memory operation stands. -/
inductive LaneSt where
  /-- Not translated yet, or to be translated again. -/
  | todo
  /-- Waiting for a frame's zeroing (R38), by the leaf's physical address. -/
  | zero (leaf : Nat)
  /-- Requests sent and not yet answered. -/
  | sent (k : Nat)
  | done
  /-- Faulted: code, cause, level and faulting address (R240). -/
  | fault (code cause level : Nat) (va : W64)
  deriving DecidableEq, Repr

/-- One gang lane of a memory operation: addresses, captured sources, returned data (R243, R385). -/
structure MLane where
  gl : Nat
  va : W64
  va2 : W64 := 0
  src : List Byte := []
  st : LaneSt := .todo
  data : List Byte := []
  /-- Source values as the instruction read them: a, b, then d (Table 8.4). -/
  regs : List Byte := []
  /-- Status of each member of a multicast: Table of R166, 4 while unanswered. -/
  mstat : List Nat := []
  /-- Level of the leaf that translated it (R28). -/
  level : Nat := 0
  deriving DecidableEq, Repr

/-- A memory instruction in flight, with its captured operands (R243, R245). `pf` marks a Prefect's. -/
structure MemOp where
  id : Nat
  core : Nat
  tid : Nat
  gid : Nat
  tenant : Nat
  asid : Nat
  pf : Bool
  /-- Home gang and its cohort's slices. -/
  gang : Nat
  slices : List Nat
  word : W32
  instr : Instr
  pc : W64
  mode : W64
  lanes : List MLane
  /-- Vector registers written at return (or the s register of a Prefect load). -/
  dests : List Nat
  issued : Nat
  /-- Active lane mask at issue (Table 8.4). -/
  act : Nat := 0
  /-- The replay of the log entry of this number (R249). -/
  replayOf : Option Nat := none
  deriving DecidableEq, Repr

/-- An entry of the operand log, or a fault that waits for one in the request table (R243, R245). -/
structure OpEntry where
  /-- Index 0 to 15 in the log; none while in the request table. -/
  slot : Option Nat
  op : MemOp
  code : Nat
  cause : Nat
  level : Nat
  va : W64
  /-- 0 WAITING, 1 RESUME_SET, 2 REPLAYING (Table 8.4). -/
  st : Nat
  action : Nat
  id : Nat
  seq : Nat
  ptGen : Nat
  notReplay : Bool
  /-- Replays by itself: 1 after a flip, 2 once no lock blocks it (R246); 0 waits for a resume. -/
  auto : Nat
  deriving DecidableEq, Repr

/-- A gang's place in a port's sets (R230, R231): team, lead, age counter, and the cycle since which it is in the active
set or, while pending, ready. -/
structure GangAge where
  tid : Nat
  lead : Nat
  age : Nat
  since : Nat
  /-- Cycle since which it is stalled (R231). -/
  stalled : Nat := 0
  /-- Cycle at which it last issued, plus 1 (R230). -/
  issued : Nat := 0
  /-- Cycle before which its next instruction does not issue, as an attempt to issue it found (R293, R298). -/
  notBefore : Nat := 0
  deriving DecidableEq, Repr

/-- Gangs of one team that are fused for issue (R190): the team and the leads of the parts' cohorts, in ascending order. -/
structure Fusion where
  tid : Nat
  parts : List Nat
  deriving DecidableEq, Repr

/-- A source that the operand latch holds for a gang: the register and the instructions it still serves (R299). -/
structure LatchEnt where
  tid : Nat
  lead : Nat
  reg : Nat
  left : Nat
  deriving DecidableEq, Repr

/-- An issue port: active set, pending set and the operand latch's entries (R230, R299). -/
structure Port where
  active : List GangAge := []
  pending : List GangAge := []
  latch : List LatchEnt := []
  /-- Register reads of issued instructions: bank and cycle (R298). -/
  taken : List (Nat × Nat) := []
  /-- Cycle, plus 1, at which the port last issued, last changed its sets, and at which the gang that a forced entry would
  have chosen left by YIELD (R230, R231, R238). -/
  issued : Nat := 0
  changed : Nat := 0
  yielded : Nat := 0
  deriving DecidableEq, Repr

/-- A core (R4). -/
structure Core where
  tlb : List TlbEntry := []
  /-- TAGS (R409), the owner tenant of each owned bit and the team a bit is attributed to (R259). -/
  tags : W64 := 0
  tagOwner : List (Nat × Nat) := []
  tagTeam : List (Nat × Nat) := []
  log : List OpEntry := []
  /-- SYS.GAMBIT_CNT (Table 6.8). -/
  gcnt : W64 := 0
  port0 : Port := {}
  port1 : Port := {}
  /-- Age counters of the Prefects, by team, and the cycle, plus 1, and team of the last Prefect issue (R233). -/
  pfAge : List (Nat × Nat) := []
  pfIssued : Nat × Nat := (0, 0)
  /-- The fused gangs (R190). -/
  fused : List Fusion := []
  deriving DecidableEq, Repr

/-- An arm of a barrier (R410, R417): target, tag, the arming Prefect's core and team. -/
structure BcArm where
  target : W32
  tag : Nat
  core : Nat
  tid : Nat
  deriving DecidableEq, Repr

/-- A byte-counting barrier (R410): COUNT, the arm, and the owner tenant. -/
structure BcBar where
  count : W32 := 0
  arm : Option BcArm := none
  owner : Option Nat := none
  deriving DecidableEq, Repr

/-- A segment FIFO's state (Table 2.2). -/
structure Fifo where
  count : Nat := 0
  head : Nat := 0
  tail : Nat := 0
  deriving DecidableEq, Repr

/-- A B bank of the matrix engine: rows, format, CB4 table and identity (R437, R447). -/
structure BBank where
  data : Tbl Nat := []
  fmt : Nat := 0
  table : List W16 := []
  ident : List Nat := []
  deriving DecidableEq, Repr

/-- An ownership table entry (Table 15.6). -/
structure OwnEntry where
  /-- 0 FREE, 1 BOUND, 2 PINNED. -/
  state : Nat := 0
  tenant : Nat := 0
  fid : Option Nat := none
  gid : Nat := 0
  id : Nat := 0
  lru : Nat := 0
  deriving DecidableEq, Repr

/-- A slate of a tenant: its directory entry (R453, R454). -/
structure Slate where
  tenant : Nat
  id : Nat
  dv : Nat
  dk : Nat
  /-- Physical addresses of the spill image's first byte and of its second page's first byte, and the bytes in the
  first page (R455). -/
  spill0 : Nat
  spill1 : Nat
  first : Nat
  gen : W64
  progress : Nat
  /-- 1 resident, 2 spilled, 3 corrupt (Table 15.11); 0 while the SLPIN that creates it is posted. -/
  state : Nat
  cluster : Nat
  slot : Nat
  owner : Option Nat
  /-- Cycle of its last granted unit, kept while it is spilled (Table 15.6). -/
  lru : Nat := 0
  deriving DecidableEq, Repr

/-- A piece of a matrix command's memory transfer: its address, the physical or far address, the device (none for the far
tier), its length and the bytes to write. -/
structure MxPart where
  va : W64
  n : Nat
  data : List Byte
  deriving DecidableEq, Repr

/-- The part of a unit's memory transfer that another device or the far tier performs (R442): `rd` the read of an MCB, with
the form offset it is for, else the writes of an MEPI with the barrier and byte count to add once they are performed. -/
structure MxIo where
  id : Nat
  tid : Nat
  fid : Nat
  gid : Nat
  tenant : Nat
  asid : Nat
  teamId : W64
  pc : W64
  rd : Option Nat
  parts : List MxPart
  got : List Byte := []
  asked : Bool := false
  bar : Option (Nat × Nat) := none
  stop : Option Nat := none
  deriving DecidableEq, Repr

/-- A matrix engine (Table 15.1). Slots are keyed 0 to 31, their words 128·row + column. -/
structure Matrix where
  slots : Tbl (Tbl W32) := []
  own : Tbl OwnEntry := []
  bank0 : BBank := {}
  bank1 : BBank := {}
  resv : List Resv := []
  io : List MxIo := []
  /-- Prefects, by team, that wait in a command for a slate of this ID to be refilled (R462). -/
  wants : List (Nat × Nat) := []
  deriving DecidableEq, Repr

/-- A walk in flight at a cluster's page walker (R25): for a prefetch, or for lanes that walk again. -/
structure Walk where
  asid : Nat
  tenant : Nat
  va : W64
  /-- 0 a prefetch toward the cluster cache, 3 one no nearer than the L2, 4 one in Gambit (`op` is then the cache class),
  1 the lanes of operation `op` that wait, 2 the tile address engine's for engine operation `op`. -/
  kind : Nat
  op : Nat
  core : Nat
  deriving DecidableEq, Repr

/-- A SRAMCFG in progress (R51): the Prefect's team, the segments it changes, and the request number below which its
write-backs are waited for, 0 before they are made. -/
structure CfgReq where
  tid : Nat
  mask : Nat
  mark : Nat := 0
  deriving DecidableEq, Repr

/-- A cluster (R4, R46). -/
structure Cluster where
  /-- Bank modes of segments 0 to 3 (Table 2.1); none of a segment means SYS.SRAM_DEFAULT. -/
  modes : List W64 := []
  /-- SRAM words, keyed 2048·bank + row. -/
  sram : Tbl W32 := []
  fifos : Tbl Fifo := []
  /-- The gangs that wait at each FIFO, by team and lead, in the order in which they reached it (R59). -/
  fifoQ : Tbl (List (Nat × Nat)) := []
  /-- The SRAMCFG instructions that the cluster has received and not completed, in that order (R52). -/
  cfgQ : List CfgReq := []
  cc : List CcLine := []
  bc : Tbl BcBar := []
  tlb : List TlbEntry := []
  /-- The tile address engine's walk-ahead buffer (R26). -/
  ahead : List TlbEntry := []
  walks : List Walk := []
  mx : Matrix := {}
  deriving DecidableEq, Repr

/-- A LOOP entry that a walk has visited (R420): its form offset, pass number, BACK, INCS and INCD. -/
structure LoopSt where
  at_ : Nat
  pass : Nat
  back : Nat
  incs : W64
  incd : W64
  deriving DecidableEq, Repr

/-- A chain accepted by an engine (R408, R419). -/
structure Chain where
  id : Nat
  fid : Nat
  gid : Nat
  tid : Nat
  core : Nat
  tenant : Nat
  asid : Nat
  headOff : Nat
  pos : Nat
  /-- SYS.TEAM_ID and race-detector number of the issuing team. -/
  teamId : W64 := 0
  det : Option Nat := none
  loops : List LoopSt := []
  /-- Operations started and not complete. -/
  open_ : List Nat := []
  ended : Bool := false
  /-- Stopped by the fault of this number (R433); `bad` a malformed entry, `failed` a failed read (R431). -/
  stop : Option Nat := none
  bad : Bool := false
  failed : Bool := false
  deriving DecidableEq, Repr

/-- An engine: copy engines 0 to 127 by cluster, gather engines 128 to 255, collective engines 256 + 16·die + i. -/
structure Engine where
  chains : List Chain := []
  deriving DecidableEq, Repr

/-- An engine operation in flight (R126, R433): phase 0 until its record is read and its ranges are registered, 1 in
transfer, 2 transferred, 3 stopped by a fault. -/
structure EngOp where
  id : Nat
  eng : Nat
  chain : Nat
  fid : Nat
  gid : Nat
  tid : Nat
  core : Nat
  tenant : Nat
  asid : Nat
  teamId : W64 := 0
  det : Option Nat := none
  /-- The entry's 32 bytes with the loop offsets applied, and its form offset. -/
  entry : List Byte
  off : Nat
  phase : Nat := 0
  /-- Units finished (R433). -/
  unit : Nat := 0
  /-- Time in ns at which the operation began to wait (R85). -/
  since : Nat := 0
  /-- The range that waits to be registered: base, length, mode, and the cycle in which it came to its slices (R85). -/
  waits : Option (Nat × Nat × Nat × Nat) := none
  stop : Option Nat := none
  /-- Tensor record of a COPYT, once read (R424); the queue entry of a queue's copy (R222). -/
  tensor : List Byte := []
  /-- The present unit: source bytes at hand, bytes written, and whether a request of it is under way. -/
  held : List Byte := []
  wrote : Nat := 0
  asked : Bool := false
  /-- Local memory ranges to lock: base, length, direction DST (R93), none before they are known. -/
  ranges : Option (List (Nat × Nat × Bool)) := none
  /-- Ranges that it transfers without a lock (R93, R141), in the same form. -/
  unlocked : List (Nat × Nat × Bool) := []
  /-- Tiles whose addresses have been walked ahead, and the faults held against their pages (R26): page, code, cause and
  level. -/
  walked : Nat := 0
  heldFaults : List (Nat × Nat × Nat × Nat) := []
  /-- Status of each member for the present unit of a collective: 0 DONE to 3, 4 unanswered, 5 unsent (R166). -/
  mstat : List Nat := []
  /-- Sequence number of a collective in its group (R427), once started, and deliveries to the own rank performed. -/
  seq : Option Nat := none
  delivered : Nat := 0
  /-- Queue whose COPY entry this is, and its entry count (R222). -/
  queue : Option (Nat × BitVec 32) := none
  deriving DecidableEq, Repr

/-- A check-out table entry (R82): mode 0 SR, 1 MW, 2 EX, 3 LK; `dst` the direction of a lock. -/
structure CkEntry where
  base : Nat
  limit : Nat
  mode : Nat
  dst : Bool
  tenant : Nat
  fid : Nat
  gid : Nat
  /-- Operation that holds it (the CKOUT's operation for a check-out). -/
  op : Nat
  /-- Twin address for MW. -/
  twin : Nat
  /-- The whole check-out's range as CKOUT named it: virtual base and length (R90). -/
  vbase : W64
  len : Nat
  deriving DecidableEq, Repr

/-- A reservation of an LL (R133): slice, key, sector number PA/32, cycle set. -/
structure Reserv where
  sl : Nat
  key : Nat
  sector : Nat
  at_ : Nat
  deriving DecidableEq, Repr

/-- What a request tag is held for (R156). -/
inductive TagUse where
  /-- Lane of an operation, with the member rank for a multicast. -/
  | lane (op gl : Nat) (member : Option Nat)
  /-- QSIGNAL's event operation: tenant, team, SYS.TEAM_ID, PC, word, address (R352). -/
  | event (tenant tid : Nat) (teamId pc : W64) (word : W32) (va : W64)
  /-- An engine operation, with the member rank and the address that a fault would carry. -/
  | engine (op member : Nat) (va : W64)
  /-- A queue's event read, or the event operation of the entry of this count (R220 to R222). -/
  | queue (q entry : Nat)
  /-- A grid's completion event (R219). -/
  | grid (gid : Nat)
  /-- A transfer of a matrix engine. -/
  | matrix (cl io : Nat)
  /-- The instruction fetch of a grid at an address (R24). -/
  | fetch (gid : Nat) (pc : W64)
  /-- The zeroing of a frame of another device (R38). -/
  | zero (base : Nat)
  deriving DecidableEq, Repr

/-- A request tag (R156): generation, the request's own number, use, target and the time limit of the request. -/
structure ReqTag where
  gen : Nat := 0
  id : Nat := 0
  use : Option TagUse := none
  dev : Nat := 0
  /-- Time in ns at which the request left this device's switch, once it has. -/
  sentAt : Option Nat := none
  timeout : Nat := 0
  /-- Grid of the request, for an abort (R262). -/
  gid : Nat := 0
  pkt : Packet := {}
  deriving DecidableEq, Repr

/-- A zero request for a frame (R38): the addresses of the leaf entries whose walks joined it, the device named by DEV,
frame base and length, the tenant, begun or not, and whether another device has reported its end. -/
structure ZeroReq where
  leaves : List Nat
  dev : Nat
  base : Nat
  len : Nat
  tenant : Nat
  begun : Bool
  reported : Bool := false
  /-- Requests of other devices that joined it. -/
  asks : List Packet := []
  deriving DecidableEq, Repr

/-- A request at the flip agent (R40, R41): an address in the page, the side that wants it, whether the adapter has been
asked, and the synchronisation that the flip waits for once its leaf has changed. -/
structure FlipReq where
  asid : Nat
  tenant : Nat
  va : W64
  toHost : Bool
  asked : Bool
  sync : Option Nat := none
  deriving DecidableEq, Repr

/-- A table synchronisation in progress (R34): the issuer that waits, or none for the host. -/
structure PtSync where
  id : Nat
  tenant : Nat
  asid : Nat
  page : Nat
  nlog : Nat
  /-- The accesses translated before the write that step 4 waits for: memory operations, and requests of the engines, the
  queues and QSIGNAL to the host adapter and to the pod, by their numbers. -/
  reqs : List Nat
  fars : List Nat := []
  tags : List Nat := []
  deriving DecidableEq, Repr

/-- The loaded binding of an ASID (R515). -/
structure Binding where
  root : Nat := 0
  valid : Bool := false
  tenant : Nat := 0
  gen : Nat := 0
  deriving DecidableEq, Repr

/-- A fault-ring record waiting for room in the ring (R241): its 64-byte records (main and extensions). -/
structure RingRec where
  /-- The model's number of the fault that the record reports, 0 for none. -/
  fault : Nat
  recs : List (List Byte)
  deriving DecidableEq, Repr

/-- What a fault record stands for, so that a resume finds it (R247). -/
inductive FaultAt where
  | gang (tid : Nat) (slices : List Nat)
  | prefect (tid : Nat)
  /-- A team that the race detector stopped by the fault of this number (R106). -/
  | race (tid id : Nat)
  | chain (eng chain : Nat)
  | op (op : Nat)
  | matrix (cl resv : Nat)
  /-- A command already removed (R449, R464): SKIP acknowledges, ABORT aborts the grid. -/
  | removed (gid : Nat)
  deriving DecidableEq, Repr

/-- A waiting fault other than a log entry: SEQ, code, where it is, whether its access was performed (race TRAP). -/
structure WaitFault where
  /-- The model's number of the fault, and its SEQ; 0 while its record waits (R241). -/
  id : Nat
  seq : Nat
  code : Nat
  cause : Nat
  gid : Nat
  where_ : FaultAt
  deriving DecidableEq, Repr

/-- A race-detector number's counters (R104): interval number and release marks for form, house, pkg, pod. -/
structure DetNum where
  c : Nat := 0
  rForm : Nat := 0
  rHouse : Nat := 0
  rPkg : Nat := 0
  rPod : Nat := 0
  deriving DecidableEq, Repr

/-- A tenant's device-held state. -/
structure Tenant where
  /-- Next SEQ of the fault ring (R242) and the on-chip buffer of records (R241). -/
  seq : Nat := 1
  buf : List RingRec := []
  /-- Records that cannot enter the buffer yet; they have no SEQ (R241). -/
  late : List RingRec := []
  faults : List WaitFault := []
  /-- STATUS of the last SYS.FAULT_RESUME write (R247). -/
  resumeStatus : Nat := 0
  /-- Race-detector numbers in use and their counters (R104). -/
  detUsed : List Nat := []
  det : Tbl DetNum := []
  /-- Where each detector number runs: form, house, grid. -/
  detAt : List (Nat × Nat × Nat × Nat) := []
  /-- Swap-pool reservations (R228, R236): owner (a grid, or a pre-empted form of class RESIDENT), first unit, units. -/
  pool : List (Nat × Nat × Nat) := []
  /-- Performance counters: check-outs that ends of grids released (R97), and frames zeroed (R38). -/
  ckReleases : Nat := 0
  zeroings : Nat := 0
  deriving DecidableEq, Repr

/-- A run of units of a die's twin pool, and the first line of memory that it holds a copy of (R88). -/
structure TwinAlloc where
  die : Nat
  unit : Nat
  count : Nat
  op : Nat
  line : Nat
  deriving DecidableEq, Repr

/-- A far access in flight at the host adapter (R44, R45). -/
structure FarReq where
  id : Nat
  addr : Nat
  tenant : Nat
  n : Nat
  wr : Option (List Byte)
  ref : Ref
  /-- Cache class of the request (R66). -/
  cls : Nat
  die : Nat
  owner : Nat × Nat
  /-- Virtual address and leaf level of an engine's access, for its fault. -/
  va : W64 := 0
  level : Nat := 0
  /-- SYS.RDC_GEN of the issuing die when the access was requested (R99). -/
  gen : Nat := 0
  deriving DecidableEq, Repr

/-- An instruction word that a grid fetches from another device or from the far tier: asked, then the word or the fault's
code, cause and level (R24, R42, R139). -/
structure CodeWord where
  gid : Nat
  pc : W64
  word : Option W32 := none
  flt : Option (Nat × Nat × Nat) := none
  deriving DecidableEq, Repr

/-- A far extent (R500). `leaving` marks a release that waits for accesses in flight. -/
structure Extent where
  base : Nat
  len : Nat
  tenant : Nat
  leaving : Bool
  deriving DecidableEq, Repr

/-- A management error entry (Table 19.7) and the time it was recorded. -/
structure MgtEntry where
  word : W64
  time : Nat
  deriving DecidableEq, Repr

/-- The mailbox (Table 19.9) and the staged firmware image (R514). -/
structure Mailbox where
  state : Nat := 0
  busy : Bool := false
  err : Nat := 0
  cmd : W64 := 0
  req : List Byte := []
  resp : List Byte := []
  /-- An open STAGE_BEGIN: announced length and bytes so far. -/
  staged : Option (Nat × List Byte) := none
  /-- The image accepted for the next start-up. -/
  next : Option (List Byte) := none
  deriving DecidableEq, Repr

/-- Clock, device time, power and management state (R177, R505 to R512). -/
structure Clock where
  /-- Arithmetic-clock cycles since reset. -/
  cycle : Nat := 0
  /-- SYS.TIME, and the part of 1/64 ns below it in units of 1/(21·2^32). -/
  time : W64 := 0
  sub : Nat := 0
  /-- Time since reset in units of 1/21 ns, whatever SYS.TIME is set to (R71). -/
  elapsed : Nat := 0
  /-- MGT.CLOCK.STEP, and the step the power cap holds (R505, R506). -/
  step : Nat := 0
  capStep : Nat := 0
  /-- A rail is low, or the time in ns when it recovered (R506). -/
  sag : Bool := false
  recovered : Option Nat := none
  sags : W32 := 0
  caps : W16 := 0
  draw : W16 := 0
  cap : W16 := 0
  /-- SYS.TIME_STAT, Sync intervals in a row within 16 ns (R178). -/
  offset : W32 := 0
  lock : Bool := false
  good : Nat := 0
  /-- Mean path delay in 1/64 ns, as the last delay response measured it (R178). -/
  pathDelay : W32 := 0
  /-- Rate correction of SYS.TIME while it is locked, in units of 2^-32, and the device's role as grandmaster (R178). -/
  rate : Int := 0
  grandmaster : Bool := false
  deriving DecidableEq, Repr

/-- The management side (R501 to R514). -/
structure Mgmt where
  /-- MGT.STATUS.STATE, SPARESLEFT and DEGRADED (Table 19.4). -/
  state : Nat := 0
  spares : Nat := 0
  degraded : Bool := false
  /-- Cores that are disabled for want of a spare (R509), and start-ups so far. -/
  offCores : List Nat := []
  boots : Nat := 0
  /-- The firmware image that runs, if it was staged through the mailbox (R502). -/
  fw : Option (List Byte) := none
  ring : List MgtEntry := []
  dropped : Nat := 0
  errTime : W64 := 0
  /-- A PCIe uncorrectable internal error was signalled (R508). -/
  signalled : Bool := false
  mbox : Mailbox := {}
  extents : Tbl Extent := []
  deriving DecidableEq, Repr

/-- A contribution or partial result at a reduction unit (R168): group, sequence, block, node and its data. -/
structure RedNode where
  group : Nat
  seq : Nat
  block : Nat
  node : Nat
  width : Nat
  data : List W32
  deriving DecidableEq, Repr

/-- An output port of the switch: the cycle after FCTL last sent there, the channel whose turn it is and the beats it has
used of its share, and the beats sent of the packet at the head of each channel (R151). -/
structure LinkSt where
  ctlAt : Nat := 0
  cur : Nat := 0
  used : Nat := 0
  beats : Tbl Nat := []
  deriving DecidableEq, Repr

/-- The device as a member of the pod (R143 to R176). -/
structure Fabric where
  /-- Router table in force, keyed by target (R147). -/
  routes : Tbl W64 := []
  /-- Request tags, keyed 4096·die + tag (R156). -/
  tags : Tbl ReqTag := []
  /-- Packets in the switches' queues, oldest first; those that have left on a link; the ports' schedules (R151). -/
  outbox : List Packet := []
  sent : List Packet := []
  links : Tbl LinkSt := []
  /-- Next sequence number of copies to each member, and next expected from each source (R164). -/
  seqTo : Tbl Nat := []
  seqFrom : Tbl Nat := []
  held : List Packet := []
  /-- Packets at this device that cannot be taken yet: contributions without room in a unit (R167). -/
  stalled : List Packet := []
  /-- Copies that this device makes as a root for ordered stores (R165): sent and not answered, and waiting. -/
  relays : List Packet := []
  relayQ : List Packet := []
  /-- Collectives started per group (R427); deliveries and contributions held; sparse packets buffered. -/
  colSeq : Tbl Nat := []
  nodes : List RedNode := []
  pendingDel : List Packet := []
  sparse : List Packet := []
  /-- The packet for whose recovery the pass is held; the newest epoch; time it was last seen (R172, R173). -/
  passHeld : Option Packet := none
  epoch : Nat := 0
  passSeen : Nat := 0
  /-- Ports that carry a stall hint (R170), failed replays and retrainings of a port, ports retraining (R160). -/
  hints : List Nat := []
  fails : Tbl Nat := []
  retrains : Tbl Nat := []
  retraining : List Nat := []
  /-- Ultra Ethernet packets for the collective engines, and dropped ones counted (R176). -/
  uet : List (List Byte) := []
  uetDropped : Nat := 0
  /-- Requests routed non-minimally since the last unit of 4096 (R175). -/
  nonmin : Nat := 0
  deriving DecidableEq, Repr

/-- One turn of the schedule: cycles that pass before it, then an issuer's instruction or an event; or, in the same cycle,
the instruction of a further part of a fused gang (R190). -/
inductive Turn where
  | issue (dt : Nat) (who : Issuer)
  | event (dt : Nat) (ev : Instr) (arg : EvArg)
  | part (who : Issuer)
  deriving DecidableEq, Repr

/-- The whole machine. -/
structure State where
  /-- Which agent moves next, oldest turn first; empty leaves the choice to the step's own order. The model's own
  field: the spec's schedulers and the outside world decide it. -/
  agenda : List Turn := []
  /-- The place of the last turn among the events of its cycle (R238): its rank and its unit. The model's own field. -/
  order : Nat × Nat := (0, 0)
  /-- The issuer whose instruction is executed. -/
  cur : Issuer := .prefect 0
  /-- The operands of the event being performed. -/
  arg : EvArg := {}
  /-- The word of the instruction being executed. -/
  word : W32 := 0
  /-- Free values drawn so far (Config). The model's own field. -/
  fresh : Nat := 0
  /-- The next number of a team, form, grid, request, operation, chain or entry. The model's own field. -/
  nextId : Nat := 1
  clock : Clock := {}
  /-- HBM of both dies by PA, the twin pools, the tables and the remote-data carve-outs. -/
  mem : List Host.Cell := []
  /-- Poisoned sectors, PA/32 (R253). -/
  poison : List Nat := []
  /-- L2 sets, keyed 512·(global slice) + set, most recently used first (R64 to R66). -/
  l2 : Tbl (List L2Line) := []
  l2q : List L2Req := []
  /-- Token buckets, keyed 64·slice + tenant: level in 1/21000 token, and the time in 1/21 ns at which it was last filled
  (R71). Key 64·192 + tenant holds that of every slice not listed. -/
  buckets : Tbl (Nat × Nat) := []
  /-- Cycle at which a slice last accepted a request without tenant, plus 1 (R72). -/
  lastMgmt : Tbl Nat := []
  resvs : List Reserv := []
  ck : List CkEntry := []
  twins : List TwinAlloc := []
  rdc : Tbl RdcSlot := []
  /-- SYS.RDC_GEN of the dies (R99). -/
  rdcGen0 : W16 := 0
  rdcGen1 : W16 := 0
  /-- SIZE of SYS.RDC_SIZE in force, and the written size that waits (R74). -/
  rdcSize0 : Nat := 16
  rdcSize1 : Nat := 16
  rdcNext0 : Option Nat := none
  rdcNext1 : Option Nat := none
  /-- Per-package and per-device system registers by number, and per-die copies at number + 4096·(die + 1); a value
  equal to the register's reset value is not listed (Table 10.12). -/
  sys : Tbl W64 := []
  /-- Per-tenant system registers, keyed 4096·tenant + number. -/
  tsys : Tbl W64 := []
  tenants : Tbl Tenant := []
  binds : Tbl Binding := []
  /-- A rebind in progress (R31): the ASID and, once the table entry is read, the binding that its end puts in force
  (R515). -/
  rebind : Option (Nat × Option Binding) := none
  queues : Tbl Queue := []
  grids : List Grid := []
  forms : List Form := []
  teams : List Team := []
  clusters : Tbl Cluster := []
  cores : Tbl Core := []
  memops : List MemOp := []
  /-- Operand-log entries saved with teams that are swapped out (R256). -/
  outLog : List OpEntry := []
  engines : Tbl Engine := []
  ops : List EngOp := []
  slates : List Slate := []
  zeros : List ZeroReq := []
  flips : List FlipReq := []
  /-- Pages whose host entries the agent has told the adapter to validate, by ASID and VA[54:16], oldest first (R40). -/
  validated : List (Nat × Nat) := []
  /-- Time in ns of each page's last flip, keyed by ASID and VA[54:16] (R41). -/
  flipped : List ((Nat × Nat) × Nat) := []
  syncs : List PtSync := []
  /-- Pending synchronisations that have retired, by id, until their writer sees it. -/
  synced : List Nat := []
  fars : List FarReq := []
  /-- Instruction words fetched from other devices and the far tier (R24, R42). -/
  code : List CodeWord := []
  /-- The pod device at which a lane's reservation is held, by the lane's identity (R133, R159). -/
  podRes : Tbl Nat := []
  fab : Fabric := {}
  mgt : Mgmt := {}
  deriving DecidableEq, Repr

/-- The ways a run stops. Safe: a real machine may go on, so no false claim of a next state can follow. -/
inductive Fault where
  /-- The turn names a team, slice or Prefect that is not resident, or an encoded instruction as an event: a state no
  launch or placement makes. Raised by the shared operations that find the issuer, and by step. Safe. -/
  | noIssuer
  deriving DecidableEq, Repr

/-- The ways an instruction has no meaning in the model. -/
inductive Refusal where
  /-- The instruction has no meaning yet. Raised by exec's arm of that instruction. Safe. -/
  | notModelled (mnemonic : String)
  deriving DecidableEq, Repr

/-- The machine right after reset: every register at its reset value (the tables' defaults), every array clear
(R501 step 5), no team resident, every queue DISABLED (Table 7.4), MGT.STATUS.STATE STARTING (R511). -/
def State.reset : State := {}

end Sys2Proof.Machine
end

