-- ==== Sys2Proof/Machine/Table.lean ====
section
/-! DEFINITION. Sparse tables and memory in their one canonical form: keys strictly rising, no entry equal to what an
unlisted key reads as. -/

namespace Sys2Proof.Machine

/-- The value at key `k`, or the default `d` where the table lists none. -/
def tget {α : Type} (d : α) (k : Nat) : Tbl α → α
  | [] => d
  | (j, v) :: r => if j = k then v else tget d k r

/-- The value at key `k`, if the table lists one. -/
def tfind {α : Type} (k : Nat) : Tbl α → Option α
  | [] => none
  | (j, v) :: r => if j = k then some v else tfind k r

/-- The table with `v` at key `k`, listed whatever it is. -/
def tput {α : Type} (k : Nat) (v : α) : Tbl α → Tbl α
  | [] => [(k, v)]
  | (j, u) :: r =>
    if j < k then (j, u) :: tput k v r
    else if j = k then (k, v) :: r
    else (k, v) :: (j, u) :: r

/-- The table without key `k`. -/
def tdel {α : Type} (k : Nat) (t : Tbl α) : Tbl α := t.filter (fun e => e.1 != k)

/-- The table with `v` at key `k`, kept canonical for the default `d`. -/
def tset {α : Type} [DecidableEq α] (d : α) (k : Nat) (v : α) (t : Tbl α) : Tbl α := if v = d then tdel k t else tput k v t

/-- What an address that memory does not list reads as: every array is cleared to zero at start-up (R501 step 5). -/
def memDefault : Byte := 0#8

/-- The byte of memory at a physical address. -/
def mget (m : List Host.Cell) (a : Nat) : Byte := tget memDefault a m

/-- Memory with byte `b` at address `a`. -/
def mset (m : List Host.Cell) (a : Nat) (b : Byte) : List Host.Cell := tset memDefault a b m

/-- Memory with the bytes `bs` from address `a` on. -/
def msetAll (m : List Host.Cell) (a : Nat) : List Byte → List Host.Cell
  | [] => m
  | b :: r => msetAll (mset m a b) (a + 1) r

/-- The `n` bytes of memory from address `a` on. -/
def mgetAll (m : List Host.Cell) (a : Nat) : Nat → List Byte
  | 0 => []
  | n + 1 => mget m a :: mgetAll m (a + 1) n

/-- Memory with each cell of a list stored in turn. -/
def mstore (m : List Host.Cell) : List Host.Cell → List Host.Cell
  | [] => m
  | c :: r => mstore (mset m c.1 c.2) r

/-- A table is canonical for the default `d`: keys strictly rising and no default listed. -/
def tcanon {α : Type} [DecidableEq α] (d : α) : Tbl α → Bool
  | [] => true
  | [(_, v)] => decide (v ≠ d)
  | (j, v) :: (k, u) :: r => decide (v ≠ d) && decide (j < k) && tcanon d ((k, u) :: r)

/-- Memory is in its canonical form. -/
def Memory.wf (m : List Host.Cell) : Bool := tcanon memDefault m

end Sys2Proof.Machine
end

