-- ==== Sys2Proof/Machine/Bits.lean ====
section
/-! DEFINITION. Bit fields, byte order, sign and width conversions, the CRC-32C of the context image (R259). -/

namespace Sys2Proof.Machine

/-- The `n` little-endian bytes of a number (R8). -/
def bytesLE : Nat → Nat → List Byte
  | 0, _ => []
  | n + 1, x => BitVec.ofNat 8 x :: bytesLE n (x / 256)

/-- The number of little-endian bytes (R8). -/
def natLE : List Byte → Nat
  | [] => 0
  | b :: r => b.toNat + 256 * natLE r

/-- Bits [hi : lo] of a 64-bit register. -/
def bits (hi lo : Nat) (x : W64) : Nat := (x.toNat >>> lo) % 2 ^ (hi - lo + 1)

/-- Bit `n` of a 64-bit register. -/
def bit (n : Nat) (x : W64) : Bool := x.getLsbD n

/-- A register with bits [hi : lo] replaced by a number. -/
def withBits (hi lo v : Nat) (x : W64) : W64 :=
  let m : W64 := BitVec.ofNat 64 ((2 ^ (hi - lo + 1) - 1) <<< lo)
  (x &&& ~~~m) ||| (BitVec.ofNat 64 (v <<< lo) &&& m)

/-- The two's complement value of the low `w` bits of a number. -/
def sval (w x : Nat) : Int := let y := x % 2 ^ w; if 2 * y < 2 ^ w then (y : Int) else (y : Int) - 2 ^ w

/-- The value of the low `w` bits under a signedness. -/
def ival (sgn : Bool) (w x : Nat) : Int := if sgn then sval w x else ((x % 2 ^ w : Nat) : Int)

/-- An integer modulo 2^w (R270). -/
def wrapN (w : Nat) (v : Int) : Nat := (v % (2 ^ w : Int)).toNat

/-- Least and greatest value of a w-bit range. -/
def loOf (sgn : Bool) (w : Nat) : Int := if sgn then -(2 ^ (w - 1) : Int) else 0
def hiOf (sgn : Bool) (w : Nat) : Int := if sgn then (2 ^ (w - 1) : Int) - 1 else (2 ^ w : Int) - 1

/-- The value of a range nearest an exact value (R270), and whether it differs. -/
def clampI (sgn : Bool) (w : Nat) (v : Int) : Int × Bool :=
  if v < loOf sgn w then (loOf sgn w, true) else if hiOf sgn w < v then (hiOf sgn w, true) else (v, false)

/-- Element `e` of `w` bits of a register (R267). -/
def elem (w e x : Nat) : Nat := (x >>> (w * e)) % 2 ^ w

/-- A register from its elements of `w` bits, element 0 first (R267). -/
def ofElems (w : Nat) : List Nat → Nat
  | [] => 0
  | x :: r => x % 2 ^ w + 2 ^ w * ofElems w r

/-- The number of 1 bits below bit `n`. -/
def popN : Nat → Nat → Nat
  | 0, _ => 0
  | n + 1, x => x % 2 + popN n (x / 2)

/-- Trailing zero bits of an `n`-bit number, `n` for 0. -/
def ctzN : Nat → Nat → Nat
  | 0, _ => 0
  | n + 1, x => if x % 2 = 1 then 0 else 1 + ctzN n (x / 2)

/-- The low `n` bits in reverse order. -/
def revN : Nat → Nat → Nat
  | 0, _ => 0
  | n + 1, x => (x % 2) * 2 ^ n + revN n (x / 2)

/-- A number rounded up to a multiple of `k`. -/
def roundUp (k x : Nat) : Nat := (x + k - 1) / k * k

/-- A list padded with zero bytes to a multiple of `k`. -/
def padTo (k : Nat) (l : List Byte) : List Byte := l ++ List.replicate (roundUp k l.length - l.length) 0#8

/-- The first k bytes of a list, zeros beyond its end. -/
def fitTo (k : Nat) (l : List Byte) : List Byte := (l ++ List.replicate k 0#8).take k

/-- Bytes `a` to `a + n - 1` of a list, as a number. -/
def natAt (l : List Byte) (a n : Nat) : Nat := natLE ((l.drop a).take n)

/-- A list of bytes with those at `a` replaced. -/
def spliceAt (l : List Byte) (a : Nat) (b : List Byte) : List Byte := l.take a ++ b ++ l.drop (a + b.length)

/-- One bit of the reflected CRC-32C. -/
def crcBits : Nat → Nat → Nat
  | 0, c => c
  | n + 1, c => crcBits n (if c % 2 = 1 then (c / 2) ^^^ 0x82F63B78 else c / 2)

/-- CRC-32C (Castagnoli) of a byte string, as R259 names it. -/
def crc32c (l : List Byte) : Nat :=
  (l.foldl (fun c b => crcBits 8 (c ^^^ b.toNat)) 0xFFFFFFFF) ^^^ 0xFFFFFFFF

/-- The members of a list with no earlier equal. -/
def distinct {α : Type} [DecidableEq α] : List α → List α
  | [] => []
  | x :: r => x :: (distinct r).filter (fun y => decide (y ≠ x))

/-- A list in which element `n` is replaced. -/
def setAt {α : Type} (n : Nat) (x : α) (l : List α) : List α := l.set n x

/-- The least of a list of numbers, 0 for none. -/
def minOf : List Nat → Nat
  | [] => 0
  | [x] => x
  | x :: r => Nat.min x (minOf r)

/-- A list sorted by a key; equal keys keep their order. -/
def insertOn {α : Type} (key : α → Nat) (x : α) : List α → List α
  | [] => [x]
  | y :: r => if key x ≤ key y then x :: y :: r else y :: insertOn key x r
def sortOn {α : Type} (key : α → Nat) : List α → List α
  | [] => []
  | x :: r => insertOn key x (sortOn key r)

end Sys2Proof.Machine
end

