-- ==== Sys2Proof/Machine/Float.lean ====
section
/-! DEFINITION. Floating-point formats, exact values, rounding and its flags (R266 to R281), and the engine-type sums
of R272, R283 and R288. A finite value is an exact dyadic number. -/

namespace Sys2Proof.Machine

/-- The flags of SYS.FPFLAGS (Table 9.7). -/
abbrev Fl := BitVec 10
def flNV : Fl := 1#10
def flDZ : Fl := 2#10
def flOF : Fl := 4#10
def flUF : Fl := 8#10
def flNX : Fl := 16#10
def flSAT : Fl := 32#10
def flMNV : Fl := 256#10
def flMOF : Fl := 512#10

/-- A flag when a condition holds. -/
def flIf (c : Bool) (x : Fl) : Fl := if c then x else 0

/-- A binary floating-point format (Table 9.2): exponent and fraction widths; E4M3 has no infinity. -/
structure Fmt where
  ew : Nat
  fw : Nat
  hasInf : Bool
  deriving DecidableEq, Repr

def fp32 : Fmt := ⟨8, 23, true⟩
def fp16 : Fmt := ⟨5, 10, true⟩
def bf16 : Fmt := ⟨8, 7, true⟩
def e4m3 : Fmt := ⟨4, 3, false⟩
def e5m2 : Fmt := ⟨5, 2, true⟩

/-- The bits of a format. -/
def Fmt.width (f : Fmt) : Nat := 1 + f.ew + f.fw
/-- The exponent of the subnormal spacing (Table 9.2). -/
def Fmt.emin (f : Fmt) : Int := 2 - (2 ^ (f.ew - 1) : Int) - f.fw
/-- The bits of +infinity, and of the greatest finite value. -/
def Fmt.infBits (f : Fmt) : Nat := (2 ^ f.ew - 1) * 2 ^ f.fw
def Fmt.maxBits (f : Fmt) : Nat := if f.hasInf then f.infBits - 1 else 2 ^ (f.ew + f.fw) - 2
/-- The canonical NaN (R269). -/
def Fmt.nanBits (f : Fmt) : Nat := if f.hasInf then f.infBits + 2 ^ (f.fw - 1) else 2 ^ (f.ew + f.fw) - 1

/-- An exact value: `fin neg m e` is ±m·2^e, with a signed zero. -/
inductive Num where
  | nan
  | inf (neg : Bool)
  | fin (neg : Bool) (m : Nat) (e : Int)
  deriving DecidableEq, Repr

/-- MODE's fields for float results: RND, SAT and FTZ (Table 10.2). -/
structure FMode where
  rnd : Nat
  sat : Bool
  ftz : Bool
  deriving DecidableEq, Repr

/-- The mode of the matrix engine, the slate datapath and the reduction units (R272, R273, R275). -/
def engineMode : FMode := ⟨0, false, false⟩

/-- The sign bit of an encoding. -/
def signOf (f : Fmt) (x : Nat) : Bool := (x / 2 ^ (f.ew + f.fw)) % 2 = 1

/-- The exact value of an encoding (R268). -/
def unpack (f : Fmt) (x : Nat) : Num :=
  let s := signOf f x
  let mag := x % 2 ^ (f.ew + f.fw)
  let e := mag / 2 ^ f.fw
  let m := mag % 2 ^ f.fw
  if f.hasInf ∧ f.infBits < mag then .nan
  else if f.hasInf ∧ mag = f.infBits then .inf s
  else if ¬ f.hasInf ∧ f.maxBits < mag then .nan
  else if e = 0 then .fin s m f.emin
  else .fin s (m + 2 ^ f.fw) (f.emin + (e : Int) - 1)

/-- An encoding is subnormal. -/
def isSub (f : Fmt) (x : Nat) : Bool :=
  let mag := x % 2 ^ (f.ew + f.fw)
  decide (0 < mag ∧ mag < 2 ^ f.fw)

/-- The exact value of an operand, subnormals read as zero under FTZ (R275). -/
def readF (f : Fmt) (md : FMode) (x : Nat) : Num :=
  if md.ftz && isSub f x then .fin (signOf f x) 0 f.emin else unpack f x

/-- Bits in a number. -/
def bitLen (n : Nat) : Nat := if n = 0 then 0 else n.log2 + 1

/-- m·2^e as a whole number of 2^t under a rounding mode (Table 9.3), and whether it differs. -/
def roundQ (rnd : Nat) (neg : Bool) (m : Nat) (e t : Int) : Nat × Bool :=
  if t ≤ e then (m <<< (e - t).toNat, false)
  else
    let k := (t - e).toNat
    let q := m >>> k
    let r := m - (q <<< k)
    let half := 2 ^ (k - 1)
    let up : Bool := match rnd with
      | 0 => decide (half < r ∨ (r = half ∧ q % 2 = 1))
      | 1 => false
      | 2 => neg
      | 3 => !neg
      | _ => decide (half ≤ r)
    if r = 0 then (q, false) else ((if up then q + 1 else q), true)

/-- A magnitude with a sign. -/
def withSign (f : Fmt) (neg : Bool) (mag : Nat) : Nat := if neg then mag + 2 ^ (f.ew + f.fw) else mag

/-- The overflow result of Table 9.4. -/
def overflowBits (f : Fmt) (md : FMode) (neg : Bool) : Nat × Fl :=
  let toInf : Bool := match md.rnd with
    | 0 => true
    | 1 => false
    | 2 => neg
    | 3 => !neg
    | _ => true
  if md.sat then (withSign f neg f.maxBits, flOF ||| flNX ||| flSAT)
  else if !toInf then (withSign f neg f.maxBits, flOF ||| flNX)
  else if f.hasInf then (withSign f neg f.infBits, flOF ||| flNX)
  else (f.nanBits, flOF ||| flNX)

/-- A finite exact value rounded once to a format (R272, R273, R275). A result is flushed when the rounded result is
subnormal; UF is judged after rounding with unbounded exponent, as IEEE 754-2019 defines it (DEDUCED, log 12). -/
def roundFin (f : Fmt) (md : FMode) (neg : Bool) (m : Nat) (e : Int) : Nat × Fl :=
  if m = 0 then (withSign f neg 0, 0)
  else
    let t := max f.emin ((bitLen m : Int) + e - (f.fw + 1))
    let (q, inex) := roundQ md.rnd neg m e t
    let mag := (t - f.emin).toNat * 2 ^ f.fw + q
    let tu := (bitLen m : Int) + e - (f.fw + 1)
    let tiny := decide (tu < f.emin) &&
      decide ((roundQ md.rnd neg m e tu).1 < 2 ^ (f.emin + f.fw - tu).toNat)
    if f.maxBits < mag then overflowBits f md neg
    else if mag < 2 ^ f.fw then
      if md.ftz && decide (0 < mag) then (withSign f neg 0, flUF ||| flNX)
      else (withSign f neg mag, flIf inex flNX ||| flIf (inex && tiny) flUF)
    else (withSign f neg mag, flIf inex flNX ||| flIf (inex && tiny) flUF)

/-- An exact value, NaN or infinity as a result of a format. -/
def packF (f : Fmt) (md : FMode) : Num → Nat × Fl
  | .nan => (f.nanBits, 0)
  | .inf s => (if f.hasInf then withSign f s f.infBits else f.nanBits, 0)
  | .fin s m e => roundFin f md s m e

/-- A value with the opposite sign. -/
def negNum : Num → Num
  | .nan => .nan
  | .inf s => .inf (!s)
  | .fin s m e => .fin (!s) m e

/-- The exact product, and whether it is 0 · infinity (R276). -/
def mulNum : Num → Num → Num × Bool
  | .nan, _ => (.nan, false)
  | _, .nan => (.nan, false)
  | .inf s, .inf t => (.inf (s != t), false)
  | .inf s, .fin t m _ => if m = 0 then (.nan, true) else (.inf (s != t), false)
  | .fin t m _, .inf s => if m = 0 then (.nan, true) else (.inf (s != t), false)
  | .fin s m e, .fin t n d => (.fin (s != t) (m * n) (e + d), false)

/-- The exact sum; `zneg` is the sign of a sum of unlike terms that is exactly zero (R272). The Bool is ∞ − ∞. -/
def addNum (zneg : Bool) : Num → Num → Num × Bool
  | .nan, _ => (.nan, false)
  | _, .nan => (.nan, false)
  | .inf s, .inf t => if s = t then (.inf s, false) else (.nan, true)
  | .inf s, .fin _ _ _ => (.inf s, false)
  | .fin _ _ _, .inf s => (.inf s, false)
  | .fin s m e, .fin t n d =>
    let k := min e d
    let a : Int := ((m <<< (e - k).toNat : Nat) : Int)
    let b : Int := ((n <<< (d - k).toNat : Nat) : Int)
    let x := (if s then -a else a) + (if t then -b else b)
    if x = 0 then (.fin (if s = t then s else zneg) 0 k, false)
    else (.fin (decide (x < 0)) x.natAbs k, false)

/-- a·b + c of operands rounded once (R276): the value and its flags. `na` and `nc` negate the product and c. -/
def fmaF (f : Fmt) (md : FMode) (na nc : Bool) (a b c : Nat) : Nat × Fl :=
  let (p, i1) := mulNum (readF f md a) (readF f md b)
  let p := if na then negNum p else p
  let c' := readF f md c
  let c' := if nc then negNum c' else c'
  let (r, i2) := addNum (decide (md.rnd = 2)) p c'
  let (x, fl) := packF f md r
  (x, fl ||| flIf (i1 || i2) flNV)

/-- a + b, or a − b with `nb` (R276). -/
def addF (f : Fmt) (md : FMode) (nb : Bool) (a b : Nat) : Nat × Fl :=
  let b' := readF f md b
  let b' := if nb then negNum b' else b'
  let (r, i) := addNum (decide (md.rnd = 2)) (readF f md a) b'
  let (x, fl) := packF f md r
  (x, fl ||| flIf i flNV)

/-- a·b (R276). -/
def mulF (f : Fmt) (md : FMode) (a b : Nat) : Nat × Fl :=
  let (r, i) := mulNum (readF f md a) (readF f md b)
  let (x, fl) := packF f md r
  (x, fl ||| flIf i flNV)

/-- A value is less than another; −0 is less than +0 when `zeros` says so (R277). -/
def ltNum (zeros : Bool) : Num → Num → Bool
  | .nan, _ => false
  | _, .nan => false
  | .inf s, .inf t => s && !t
  | .inf s, .fin _ _ _ => s
  | .fin _ _ _, .inf s => !s
  | .fin s m e, .fin t n d =>
    let k := min e d
    let a : Int := ((m <<< (e - k).toNat : Nat) : Int)
    let b : Int := ((n <<< (d - k).toNat : Nat) : Int)
    let x := if s then -a else a
    let y := if t then -b else b
    decide (x < y) || (zeros && decide (m = 0) && decide (n = 0) && s && !t)

/-- Values compare equal; NaN equals nothing and −0 equals +0. -/
def eqNum (a b : Num) : Bool := a != .nan && b != .nan && !ltNum false a b && !ltNum false b a

/-- FMIN and FMAX (R277). -/
def minmaxNum (mx : Bool) (a b : Num) : Num :=
  if a = .nan then b else if b = .nan then a
  else if mx then (if ltNum true a b then b else a) else (if ltNum true b a then b else a)

def minmaxF (f : Fmt) (md : FMode) (mx : Bool) (a b : Nat) : Nat × Fl :=
  ((packF f ⟨0, false, false⟩ (minmaxNum mx (readF f md a) (readF f md b))).1, 0)

/-- floor of the square root, bit by bit. -/
def isqrtGo : Nat → Nat → Nat → Nat
  | 0, _, r => r
  | i + 1, n, r => let c := r + 2 ^ i; if c * c ≤ n then isqrtGo i n c else isqrtGo i n r
def isqrt (n : Nat) : Nat := isqrtGo (n.log2 / 2 + 1) n 0

/-- A value known to lie strictly between q·2^e and (q + 1)·2^e, or exactly at q·2^e. -/
def jam (exact : Bool) (q : Nat) (e : Int) : Nat × Int := if exact then (q, e) else (2 * q + 1, e - 1)

/-- FSQRT (R276). -/
def sqrtF (f : Fmt) (md : FMode) (x : Nat) : Nat × Fl :=
  match readF f md x with
  | .nan => (f.nanBits, 0)
  | .inf s => if s then (f.nanBits, flNV) else (withSign f false f.infBits, 0)
  | .fin s m e =>
    if m = 0 then (withSign f s 0, 0)
    else if s then (f.nanBits, flNV)
    else
      let (m, e) := if e % 2 = 0 then (m, e) else (2 * m, e - 1)
      let n := m <<< 80
      let q := isqrt n
      let (m', e') := jam (decide (q * q = n)) q (e / 2 - 40)
      roundFin f md false m' e'

/-- FRCP (Table 9.5). -/
def rcpF (f : Fmt) (md : FMode) (x : Nat) : Nat × Fl :=
  match readF f md x with
  | .nan => (f.nanBits, 0)
  | .inf s => (withSign f s 0, 0)
  | .fin s m e =>
    if m = 0 then (withSign f s f.infBits, flDZ)
    else
      let n : Nat := 1 <<< 100
      let q := n / m
      let (m', e') := jam (decide (q * m = n)) q (-100 - e)
      roundFin f md s m' e'

/-- FRSQ (Table 9.5). -/
def rsqF (f : Fmt) (md : FMode) (x : Nat) : Nat × Fl :=
  match readF f md x with
  | .nan => (f.nanBits, 0)
  | .inf s => if s then (f.nanBits, flNV) else (0, 0)
  | .fin s m e =>
    if m = 0 then (withSign f s f.infBits, flDZ)
    else if s then (f.nanBits, flNV)
    else
      let (m, e) := if e % 2 = 0 then (m, e) else (2 * m, e - 1)
      let n : Nat := 1 <<< 200
      let q := isqrt (n / m)
      let (m', e') := jam (decide (q * q * m = n)) q (-100 - e / 2)
      roundFin f md false m' e'

/-- A value rounded to an integer under a rounding mode, and whether it differs. -/
def toIntRnd (rnd : Nat) (s : Bool) (m : Nat) (e : Int) : Int × Bool :=
  let (q, inex) := roundQ rnd s m (max e (-200)) 0
  let (q, inex) := if e < -200 ∧ m ≠ 0 then
      ((match rnd with | 2 => if s then 1 else 0 | 3 => if s then 0 else 1 | _ => 0), true) else (q, inex)
  ((if s then -(q : Int) else q), inex)

/-- FFLOOR, FCEIL, FTRUNC (no flag) and FRINT (NX) by the rounding mode they use (Table 9.5). -/
def rintF (f : Fmt) (md : FMode) (rnd : Nat) (nx : Bool) (x : Nat) : Nat × Fl :=
  match readF f md x with
  | .nan => (f.nanBits, 0)
  | .inf s => (withSign f s f.infBits, 0)
  | .fin s m e =>
    let (v, inex) := toIntRnd rnd s m e
    ((roundFin f ⟨1, false, false⟩ s v.natAbs 0).1, flIf (nx && inex) flNX)

/-- FFRAC: x − floor(x), rounded once (Table 9.5). -/
def fracF (f : Fmt) (md : FMode) (x : Nat) : Nat × Fl :=
  match readF f md x with
  | .nan => (f.nanBits, 0)
  | .inf _ => (f.nanBits, flNV)
  | .fin s m e =>
    let (v, _) := toIntRnd 2 s m e
    let (r, _) := addNum (decide (md.rnd = 2)) (.fin s m e) (.fin (if v = 0 then !s else decide (0 < v)) v.natAbs 0)
    packF f md r

/-- FSCALE: A·2^k rounded once (R369). -/
def scaleF (f : Fmt) (md : FMode) (x : Nat) (k : Int) : Nat × Fl :=
  match readF f md x with
  | .nan => (f.nanBits, 0)
  | .inf s => (withSign f s f.infBits, 0)
  | .fin s m e => roundFin f md s m (e + max (-1000) (min 1000 k))

/-- The mask of Table 12.4. -/
def classF (f : Fmt) (x : Nat) : Nat :=
  match unpack f x with
  | .nan => 2 ^ 8
  | .inf s => if s then 2 ^ 0 else 2 ^ 7
  | .fin s m _ =>
    if m = 0 then (if s then 2 ^ 3 else 2 ^ 4)
    else if isSub f x then (if s then 2 ^ 2 else 2 ^ 5)
    else (if s then 2 ^ 1 else 2 ^ 6)

/-- FCMP's outcome by code (Table 10.8). -/
def fcmpCode (c : Nat) (a b : Num) : Bool :=
  let un := a = .nan || b = .nan
  let eq := eqNum a b
  let lt := ltNum false a b
  let gt := ltNum false b a
  match c with
  | 0 => eq
  | 1 => !eq
  | 2 => lt
  | 3 => lt || eq
  | 4 => gt
  | 5 => gt || eq
  | 6 => un
  | 7 => !un
  | 8 => un || eq
  | 9 => un || lt
  | 10 => un || lt || eq
  | 11 => un || gt
  | 12 => un || gt || eq
  | _ => lt || gt

/-- The float format of a code (Table 9.1). -/
def fmtOf : Nat → Option Fmt
  | 0 => some fp32
  | 1 => some fp16
  | 2 => some bf16
  | 3 => some e4m3
  | 4 => some e5m2
  | _ => none

/-- Width and signedness of an integer format code (Table 9.1). -/
def intOf : Nat → Option (Nat × Bool)
  | 6 => some (8, true)
  | 7 => some (8, false)
  | 8 => some (16, true)
  | 9 => some (32, true)
  | 10 => some (32, false)
  | 11 => some (64, true)
  | _ => none

/-- Bits of an element of a format code; 4 for CB4 (Table 9.1). -/
def codeWidth : Nat → Nat
  | 0 => 32
  | 1 => 16
  | 2 => 16
  | 5 => 4
  | 8 => 16
  | 9 => 32
  | 10 => 32
  | 11 => 64
  | _ => 8

/-- An integer as a value of a format, wrapped or clamped (Table 9.6). -/
def intToInt (sat : Bool) (w : Nat) (sgn : Bool) (v : Int) : Nat × Fl :=
  if sat then let (u, c) := clampI sgn w v; (wrapN w u, flIf c flSAT) else (wrapN w v, 0)

/-- CVT of one element from format `src` to format `dst` (Table 9.6). -/
def cvtElem (md : FMode) (src dst x : Nat) : Nat × Fl :=
  match fmtOf src, fmtOf dst with
  | some f, some g =>
    match readF f md x with
    | .nan => (g.nanBits, 0)
    | .inf s =>
      if src = dst then (withSign g s g.infBits, 0)
      else if md.sat && !(dst = 0 || (src = 4 && (dst = 1 || dst = 2))) then (withSign g s g.maxBits, flSAT)
      else (packF g md (.inf s))
    | .fin s m e => roundFin g md s m e
  | some f, none =>
    match intOf dst with
    | none => (0, 0)
    | some (w, sgn) =>
      match readF f md x with
      | .nan => (0, flNV)
      | .inf s => (wrapN w (if s then loOf sgn w else hiOf sgn w), flNV ||| flSAT)
      | .fin s m e =>
        let (v, inex) := toIntRnd md.rnd s m e
        let (u, c) := clampI sgn w v
        (wrapN w u, if c then flNV ||| flSAT else flIf inex flNX)
  | none, some g =>
    match intOf src with
    | none => (0, 0)
    | some (w, sgn) => let v := ival sgn w x; roundFin g md (decide (v < 0)) v.natAbs 0
  | none, none =>
    match intOf src, intOf dst with
    | some (w, sgn), some (w', sgn') => intToInt md.sat w' sgn' (ival sgn w x)
    | _, _ => (0, 0)

/-- DOT2: the exact sum of two BF16 products and an FP32 d, rounded once (R371). -/
def dot2F (md : FMode) (a b d : Nat) : Nat × Fl :=
  let rn := decide (md.rnd = 2)
  let (p0, i0) := mulNum (readF bf16 md (elem 16 0 a)) (readF bf16 md (elem 16 0 b))
  let (p1, i1) := mulNum (readF bf16 md (elem 16 1 a)) (readF bf16 md (elem 16 1 b))
  let (q, i2) := addNum rn p0 p1
  let c := readF fp32 md d
  -- an exact zero of the two products keeps a like sign only; the last addition decides the rest
  let (r, i3) := addNum rn q c
  let (x, fl) := packF fp32 md r
  (x, fl ||| flIf (i0 || i1 || i2 || i3) flNV)

/-- An engine-type sum: rounded RNE, an exact zero is +0 (R272, R288). -/
def addEng (f : Fmt) (a b : Num) : Nat :=
  match (addNum false a b).1 with
  | .fin s m e => if m = 0 then 0 else (roundFin f engineMode s m e).1
  | r => (packF f engineMode r).1

/-- The exact sum of values with the NaN and infinity rules of Sum (R283); zero is +0. -/
def sumExact (l : List Num) : Num :=
  match l.foldl (fun acc x => (addNum false acc x).1) (.fin false 0 0) with
  | .fin s m e => if m = 0 then .fin false 0 0 else .fin s m e
  | r => r

/-- floor(log2 |p|) of a non-zero finite value. -/
def expOf : Num → Option Int
  | .fin _ m e => if m = 0 then none else some ((bitLen m : Int) - 1 + e)
  | _ => none

/-- A value truncated toward zero to a multiple of 2^u (R283). -/
def truncTo (u : Int) : Num → Num
  | .fin s m e => if u ≤ e then .fin s m e else .fin s (m >>> (u - e).toNat) u
  | r => r

/-- The greatest of a list of exponents. -/
def maxExp : List Num → Option Int
  | [] => none
  | x :: r => match expOf x, maxExp r with
    | some a, some b => some (max a b)
    | some a, none => some a
    | none, o => o

/-- Sum(P, mode) of R283. -/
def sumP (exact : Bool) (l : List Num) : Num :=
  match sumExact l with
  | .nan => .nan
  | .inf s => .inf s
  | .fin s m e =>
    match maxExp l with
    | none => .fin false 0 0
    | some x =>
      if exact then unpack fp32 (roundFin fp32 engineMode s m e).1
      else match sumExact (l.map (truncTo (x - 27))) with
        | .fin s m e => unpack fp32 (roundFin fp32 engineMode s m e).1
        | r => r

/-- RoundRNE to FP32 as a value, an exact zero +0 where `z` says a sum (R272). -/
def rne32 (sum : Bool) : Num → Num
  | .fin s m e => if m = 0 then .fin (if sum then false else s) 0 0 else unpack fp32 (roundFin fp32 engineMode s m e).1
  | r => r

/-- The FP32 bits of an already rounded value. -/
def bits32 (x : Num) : Nat := (packF fp32 engineMode x).1

end Sys2Proof.Machine
end

