-- ==== Sys2Proof/Machine/Elementary.lean ====
section
/-! DEFINITION. FEXP2, FLOG2, FSIN and FCOS (Table 9.5) by integer interval arithmetic: the exact value is enclosed far
below the spacing of the result, and the two ends round alike. Where they should not, the result is free (Config). -/

namespace Sys2Proof.Machine

/-- floor(π·2^512). -/
def piBits : Nat :=
  0x3243f6a8885a308d313198a2e03707344a4093822299f31d0082efa98ec4e6c89452821e638d01377be5466cf34e90c6cc0ac29b7c97c50dd3f84d5b5b5470917
/-- floor(ln 2·2^320). -/
def ln2Bits : Nat :=
  0xb17217f7d1cf79abc9e3b39803f2f6af40f343267298b62d8a0d175b8baafa2be7b876206debac98
/-- Fraction bits of the enclosures. -/
def fracP : Nat := 320
/-- Half the width of an enclosure, in units of 2^-320: far above the truncations of fewer than 200 operations. -/
def slack : Int := 2 ^ 40

/-- Σ y^k / k!, with `t` the term of index k. -/
def expSum (y : Int) : Nat → Nat → Int → Int
  | 0, _, _ => 0
  | n + 1, k, t => t + expSum y n (k + 1) (t * y / 2 ^ fracP / ((k : Int) + 1))
/-- Σ (-1)^i r^(k + 2i) / (k + 2i)!, with `t` the term of exponent k. -/
def trigSum (r : Int) : Nat → Nat → Int → Int
  | 0, _, _ => 0
  | n + 1, k, t =>
    t - trigSum r n (k + 2) (t * r / 2 ^ fracP * r / 2 ^ fracP / (((k : Int) + 1) * ((k : Int) + 2)))
/-- Σ w^(2i+1) / (2i+1), with `t` the power of w of exponent k. -/
def atanhSum (w2 : Int) : Nat → Nat → Int → Int
  | 0, _, _ => 0
  | n + 1, k, t => t / (k : Int) + atanhSum w2 n (k + 2) (t * w2 / 2 ^ fracP)

/-- A value between v − slack and v + slack in units of 2^e, rounded once; `hard` stands where the ends differ. -/
def roundIv (f : Fmt) (md : FMode) (hard : Nat) (v : Int) (e : Int) : Nat × Fl :=
  let neg := decide (v < 0)
  let a := v.natAbs
  let lo := roundFin f md neg (2 * (a - slack.toNat) + 1) (e - 1)
  let hi := roundFin f md neg (2 * (a + slack.toNat) - 1) (e - 1)
  if lo = hi then lo else (hard, lo.2 ||| hi.2)

/-- FEXP2 (Table 9.5). -/
def exp2F (f : Fmt) (md : FMode) (hard x : Nat) : Nat × Fl :=
  match readF f md x with
  | .nan => (f.nanBits, 0)
  | .inf s => if s then (0, 0) else (f.infBits, 0)
  | .fin s m e =>
    if m = 0 then roundFin f md false 1 0
    else if 12 ≤ (bitLen m : Int) + e then roundFin f md false 3 (if s then -2000 else 2000)
    else
      let v : Int := ((m <<< (e + fracP).toNat : Nat) : Int)
      let v := if s then -v else v
      let n := v / 2 ^ fracP
      let fr := v - n * 2 ^ fracP
      if fr = 0 then roundFin f md false 1 n
      else
        let y := fr * ln2Bits / 2 ^ fracP
        roundIv f md hard (expSum y 90 0 (2 ^ fracP)) (n - fracP)

/-- FLOG2 (Table 9.5). -/
def log2F (f : Fmt) (md : FMode) (hard x : Nat) : Nat × Fl :=
  match readF f md x with
  | .nan => (f.nanBits, 0)
  | .inf s => if s then (f.nanBits, flNV) else (f.infBits, 0)
  | .fin s m e =>
    if m = 0 then (withSign f true f.infBits, flDZ)
    else if s then (f.nanBits, flNV)
    else
      let b := bitLen m
      let big := decide (3 * 2 ^ (b - 1) < 2 * m)
      let d : Nat := if big then 2 ^ b else 2 ^ (b - 1)
      let k : Int := e + b - (if big then 0 else 1)
      if m = d then roundFin f md (decide (k < 0)) k.natAbs 0
      else
        let w : Int := ((m : Int) - d) * 2 ^ fracP / ((m : Int) + d)
        let ln := 2 * atanhSum (w * w / 2 ^ fracP) 90 1 w
        roundIv f md hard (k * 2 ^ fracP + ln * 2 ^ fracP / ln2Bits) (-fracP)

/-- FSIN (`cs` false) and FCOS (`cs` true), with the argument reduced exactly (Table 9.5). -/
def trigF (f : Fmt) (md : FMode) (cs : Bool) (hard x : Nat) : Nat × Fl :=
  match readF f md x with
  | .nan => (f.nanBits, 0)
  | .inf _ => (f.nanBits, flNV)
  | .fin s m e =>
    if m = 0 then (if cs then roundFin f md false 1 0 else (withSign f s 0, 0))
    else if (bitLen m : Int) + e ≤ -40 then
      if cs then roundFin f md false (2 ^ 81 - 1) (-81)
      else roundFin f md s (m * 2 ^ 81 - 1) (e - 81)
    else
      let v : Int := ((m <<< (e + 513).toNat : Nat) : Int)
      let v := if s then -v else v
      let n := (2 * v + piBits) / (2 * piBits)
      let r := (v - n * piBits) / 2 ^ (513 - fracP)
      let q := ((n + (if cs then 1 else 0)) % 4).toNat
      let sn := trigSum r 60 1 r
      let co := trigSum r 60 0 (2 ^ fracP)
      roundIv f md hard (match q with | 0 => sn | 1 => co | 2 => -sn | _ => -co) (-fracP)

end Sys2Proof.Machine
end

