-- ==== Sys2Proof/Machine/Flags.lean ====
section
/-! DEFINITION. The element classes of ETYPE (Tables 9.1 and 12.1) and every element computation with the flags it
raises (R361 to R378). -/

namespace Sys2Proof.Machine

/-- An integer class: element width, elements per register, signedness (Table 12.1). -/
structure ICls where
  w : Nat
  n : Nat
  sgn : Bool
  deriving DecidableEq, Repr

/-- The integer class of an ETYPE (Table 12.1); none raises ILLEGAL. -/
def iclass : Nat → Option ICls
  | 0 => some ⟨32, 1, true⟩
  | 1 => some ⟨16, 2, true⟩
  | 2 => some ⟨16, 2, true⟩
  | 8 => some ⟨16, 2, true⟩
  | 9 => some ⟨32, 1, true⟩
  | 10 => some ⟨32, 1, false⟩
  | 11 => some ⟨64, 1, true⟩
  | _ => none

/-- The float class of an ETYPE (R362): format and elements per register; none raises ILLEGAL. -/
def fclass : Nat → Option (Fmt × Nat)
  | 0 => some (fp32, 1)
  | 1 => some (fp16, 2)
  | 2 => some (bf16, 2)
  | _ => none

/-- The integer class of a reduction (R378). -/
def redIClass : Nat → Option ICls
  | 8 => some ⟨16, 2, true⟩
  | 9 => some ⟨32, 1, true⟩
  | 10 => some ⟨32, 1, false⟩
  | 11 => some ⟨64, 1, true⟩
  | _ => none

/-- The float fields of MODE. -/
def fmodeOf (m : W64) : FMode :=
  ⟨(m.toNat >>> 12) % 8, m.getLsbD 16, m.getLsbD 17⟩

/-- Elements of n results put together, their flags joined. -/
def elemsOut (w : Nat) (l : List (Nat × Fl)) : Nat × Fl :=
  (ofElems w (l.map Prod.fst), (l.map Prod.snd).foldl (· ||| ·) 0)

/-- A function on the matching elements of three registers. -/
def mapElems (w n : Nat) (f : Nat → Nat → Nat → Nat × Fl) (a b d : Nat) : Nat × Fl :=
  elemsOut w ((List.range n).map (fun e => f (elem w e a) (elem w e b) (elem w e d)))

/-- The exact value of an integer instruction wrapped, or clamped under SAT with its flag (R364). -/
def satWrap (c : ICls) (sat : Bool) (v : Int) : Nat × Fl := intToInt sat c.w c.sgn v

/-- Integer operations on one element with the exact result `f` (Table 12.2). -/
def intEl (c : ICls) (sat : Bool) (f : Int → Int → Int → Int) (a b d : Nat) : Nat × Fl :=
  satWrap c sat (f (ival c.sgn c.w a) (ival c.sgn c.w b) (ival c.sgn c.w d))

/-- Shifts of one element of w bits by the whole amount s (R368). -/
def shlEl (w a s : Nat) : Nat := if w ≤ s then 0 else (a <<< s) % 2 ^ w
def shrEl (w a s : Nat) : Nat := if w ≤ s then 0 else (a % 2 ^ w) >>> s
def sraEl (w a s : Nat) : Nat := wrapN w (sval w a / (2 ^ (min s w) : Int))

/-- SHL, SHR and SRA on a register (R368): the amount is bits [7:0] of the matching element of b, or of the low word of
the pair. -/
def shiftReg (c : ICls) (f : Nat → Nat → Nat → Nat) (a b _d : Nat) : Nat × Fl :=
  mapElems c.w c.n (fun x y _ => (f c.w x (y % 256), 0)) a b 0

/-- The bits of `hard` as an element of a format: stands for an undecided special function. -/
def hardEl (f : Fmt) (n : Nat) (x : Nat) : Nat := (Config.hardRound n (BitVec.ofNat 32 x)).toNat % 2 ^ f.width

/-- DOT4 (R371). -/
def dot4 (sgn sat : Bool) (a b d : Nat) : Nat × Fl :=
  let v := (List.range 4).foldl (fun acc k => acc + ival sgn 8 (elem 8 k a) * ival sgn 8 (elem 8 k b)) (ival sgn 32 d)
  intToInt sat 32 sgn v

/-- PACK's width by ETYPE (R372). -/
def packWidth : Nat → Option Nat
  | 1 => some 16
  | 2 => some 16
  | 8 => some 16
  | 3 => some 8
  | 4 => some 8
  | 6 => some 8
  | 7 => some 8
  | _ => none

/-- PACK of two words (R372). -/
def packBits (w a b : Nat) : Nat :=
  if w = 16 then a % 2 ^ 16 + 2 ^ 16 * (b % 2 ^ 16)
  else ofElems 8 [elem 8 0 a, elem 8 0 b, elem 8 1 a, elem 8 1 b]

/-- ICMP by code (Table 10.8) on w-bit words. -/
def icmpCode (c w a b : Nat) : Bool :=
  let x := sval w a
  let y := sval w b
  let ua := a % 2 ^ w
  let ub := b % 2 ^ w
  match c with
  | 0 => ua == ub
  | 1 => ua != ub
  | 2 => decide (x < y)
  | 3 => decide (x ≤ y)
  | 4 => decide (y < x)
  | 5 => decide (y ≤ x)
  | 6 => decide (ua < ub)
  | 7 => decide (ua ≤ ub)
  | 8 => decide (ub < ua)
  | _ => decide (ub ≤ ua)

/-- One round of the tree of R168: neighbours combined in pairs. -/
def pairUp {α : Type} (f : α → α → α × Fl) : List α → List α × Fl
  | x :: y :: r => let (z, f1) := f x y; let (l, f2) := pairUp f r; (z :: l, f1 ||| f2)
  | l => (l, 0)

/-- The tree of R168 over a list, with the flags its combines raise. -/
def treeFold {α : Type} (f : α → α → α × Fl) : Nat → List α → List α × Fl
  | 0, l => (l, 0)
  | n + 1, l =>
    if l.length ≤ 1 then (l, 0)
    else let (l1, f1) := pairUp f l; let (l2, f2) := treeFold f n l1; (l2, f1 ||| f2)

/-- The running combinations of a list. -/
def scanl1 {α : Type} (f : α → α → α × Fl) (acc : α) : List α → List α × Fl
  | [] => ([acc], 0)
  | x :: r => let (y, f1) := f acc x; let (l, f2) := scanl1 f y r; (acc :: l, f1 ||| f2)

end Sys2Proof.Machine
end

