-- ==== Sys2Proof/Machine/SysRegs.lean ====
section
/-! DEFINITION. System registers by number (Table 10.12): reset values, the package's, the dies' and the tenants' copies,
and what a kernel may do with each. -/

namespace Sys2Proof.Machine

def srTime : Nat := 0x000
def srTimeStat : Nat := 0x001
def srDevnum : Nat := 0x002
def srTeamId : Nat := 0x010
def srSpadWin : Nat := 0x011
def srKarg : Nat := 0x012
def srGrid : Nat := 0x013
def srFpflags : Nat := 0x020
def srCheck : Nat := 0x021
def srGambitCtl : Nat := 0x022
def srGambitCnt : Nat := 0x023
def srPtSync : Nat := 0x024
def srPtGen : Nat := 0x025
def srPtCtl : Nat := 0x026
def srRdcCtl : Nat := 0x027
def srRdcGen : Nat := 0x028
def srRdcSize : Nat := 0x029
def srCkoutCtl : Nat := 0x02A
def srRaceCtl : Nat := 0x02B
def srRaceLog : Nat := 0x02C
def srPodDomain : Nat := 0x02D
def srFaultRing : Nat := 0x02E
def srFaultResume : Nat := 0x02F
def srPreemptCtl : Nat := 0x030
def srTape : Nat := 0x031
def srSwapPool : Nat := 0x032
def srPlaceD0 : Nat := 0x033
def srPlaceD1 : Nat := 0x034
def srTwinPool : Nat := 0x035
def srQueueDb : Nat := 0x036
def srQueueCmd : Nat := 0x037
def srQueueBase : Nat := 0x038
def srSchedCtl : Nat := 0x039
def srTenantReset : Nat := 0x03A
def srAsidBase : Nat := 0x03B
def srAsidRebind : Nat := 0x03C
def srSramDefault : Nat := 0x03D
def srFabCtl : Nat := 0x03E
def srFabCnt : Nat := 0x03F
def srFabPorts : Nat := 0x040
def srRouteBase : Nat := 0x041
def srMcastBase : Nat := 0x042
def srSlateCtl : Nat := 0x043
def srSramMode : Nat := 0x044
def srSramFifo : Nat := 0x048
def srTenantL : Nat := 0x100
def srRangeA : Nat := 0x140
def srRangeB : Nat := 0x160
def srExportA : Nat := 0x180
def srExportB : Nat := 0x1C0

/-- A system register's reset value, as its own table states it. -/
def sysReset (n : Nat) : W64 :=
  if n = srDevnum then BitVec.ofNat 64 (31 * 2 ^ 16 + 1023)
  else if n = srGambitCtl then BitVec.ofNat 64 (2 ^ 16 + 400)
  else if n = srPtCtl then BitVec.ofNat 64 (20 * 2 ^ 16 + 3)
  else if n = srRdcCtl then 1#64
  else if n = srCkoutCtl then 1000#64
  else if n = srPreemptCtl then BitVec.ofNat 64 (50 * 2 ^ 16)
  else if n = srPlaceD0 then BitVec.allOnes 64
  else if n = srPlaceD1 then BitVec.allOnes 64
  else if n = srSchedCtl then
    BitVec.ofNat 64 (10 * 2 ^ 52 + 100 * 2 ^ 40 + 100 * 2 ^ 28 + 1024 * 2 ^ 16 + 200)
  else if n = srSramDefault then 0x55555555#64
  else if n = srFabCtl then BitVec.ofNat 64 (1000 * 2 ^ 48 + 20 * 2 ^ 32 + 512 * 2 ^ 20 + 256 * 2 ^ 8 + 1)
  else if n = srSlateCtl then 8#64
  else if srTenantL ≤ n ∧ n < srTenantL + 64 then BitVec.ofNat 64 (0xFFFFFF * 2 ^ 40)
  else 0#64

/-- A register of the package or of a die, by the key of State.sys. -/
def sysGet (s : State) (n : Nat) : W64 := tget (sysReset (n % 4096)) n s.sys
def sysSet (s : State) (n : Nat) (v : W64) : State := { s with sys := tset (sysReset (n % 4096)) n v s.sys }

/-- A tenant's register. -/
def tsysGet (s : State) (t n : Nat) : W64 := tget (sysReset n) (4096 * t + n) s.tsys
def tsysSet (s : State) (t n : Nat) (v : W64) : State :=
  { s with tsys := tset (sysReset n) (4096 * t + n) v s.tsys }

/-- Registers of which each tenant has its own copy. -/
def isPerTenant (n : Nat) : Bool :=
  [srFpflags, srCheck, srGambitCtl, srPtSync, srPtGen, srPtCtl, srRdcCtl, srCkoutCtl, srRaceCtl, srRaceLog,
    srPodDomain, srFaultRing, srFaultResume, srPreemptCtl, srTape, srSwapPool, srPlaceD0, srPlaceD1,
    srSlateCtl].contains n

/-- Numbers that Table 10.12 assigns. -/
def sysAssigned (n : Nat) : Bool :=
  decide (n ≤ 0x002) || decide (0x010 ≤ n ∧ n ≤ 0x013) || decide (0x020 ≤ n ∧ n ≤ 0x04B) ||
  decide (0x100 ≤ n ∧ n ≤ 0x1FF)

/-- Registers a kernel may not touch (code D of Table 10.12). -/
def sysDriverOnly (n : Nat) : Bool :=
  n == srFaultRing || decide (0x035 ≤ n ∧ n ≤ 0x035) || decide (0x037 ≤ n ∧ n ≤ 0x043) || decide (0x100 ≤ n)

/-- Device time in ns (Table 5.13). -/
def nsOf (s : State) : Nat := s.clock.time.toNat / 64

/-- SYS.FAB_CNT's field [hi : lo] counted up once, saturating (R175). -/
def fabCount (s : State) (lo : Nat) : State :=
  let v := sysGet s srFabCnt
  let c := bits (lo + 11) lo v
  sysSet s srFabCnt (withBits (lo + 11) lo (min (c + 1) 0xFFF) v)

/-- Flags raised for a tenant (R280). -/
def raiseFl (s : State) (ten : Nat) (fl : BitVec 10) : State :=
  if fl = 0 then s else tsysSet s ten srFpflags (tsysGet s ten srFpflags ||| fl.setWidth 64)

end Sys2Proof.Machine
end

