-- ==== Sys2Proof/Machine/Ops.lean ====
section
/-! DEFINITION. The named operations over the machine: finding and updating its parts, register access, the fault ring,
taking a fault (R239 to R245) and resuming from one (R247 to R249), the end of a Gambit episode (R201), cohorts. -/

namespace Sys2Proof.Machine

/-! ## Parts of the machine -/

def findTeam (s : State) (tid : Nat) : Option Team := s.teams.find? (fun t => t.tid == tid)
def findForm (s : State) (fid : Nat) : Option Form := s.forms.find? (fun f => f.fid == fid)
def findGrid (s : State) (gid : Nat) : Option Grid := s.grids.find? (fun g => g.gid == gid)
def updTeam (s : State) (tid : Nat) (f : Team → Team) : State :=
  { s with teams := s.teams.map (fun t => if t.tid = tid then f t else t) }
def updForm (s : State) (fid : Nat) (f : Form → Form) : State :=
  { s with forms := s.forms.map (fun t => if t.fid = fid then f t else t) }
def updGrid (s : State) (gid : Nat) (f : Grid → Grid) : State :=
  { s with grids := s.grids.map (fun t => if t.gid = gid then f t else t) }
def coreOf (s : State) (c : Nat) : Core := tget {} c s.cores
def updCore (s : State) (c : Nat) (f : Core → Core) : State := { s with cores := tset {} c (f (coreOf s c)) s.cores }
def clusterOf (s : State) (c : Nat) : Cluster := tget {} c s.clusters
def updCluster (s : State) (c : Nat) (f : Cluster → Cluster) : State :=
  { s with clusters := tset {} c (f (clusterOf s c)) s.clusters }
def tenantOf (s : State) (t : Nat) : Tenant := tget {} t s.tenants
def updTenant (s : State) (t : Nat) (f : Tenant → Tenant) : State :=
  { s with tenants := tset {} t (f (tenantOf s t)) s.tenants }
def queueOf (s : State) (q : Nat) : Queue := tget {} q s.queues
def updQueue (s : State) (q : Nat) (f : Queue → Queue) : State :=
  { s with queues := tset {} q (f (queueOf s q)) s.queues }
def engineOf (s : State) (e : Nat) : Engine := tget {} e s.engines
def updEngine (s : State) (e : Nat) (f : Engine → Engine) : State :=
  { s with engines := tset {} e (f (engineOf s e)) s.engines }

/-- A fresh number for a team, form, request or entry: the model's own. -/
def newId (s : State) : Nat × State := (s.nextId, { s with nextId := s.nextId + 1 })

/-- The next free word of the run (R12, Config.freeWord). -/
def drawWord (s : State) : W32 × State := (Config.freeWord s.fresh, { s with fresh := s.fresh + 1 })

/-- The cluster, die and house of a core. -/
def clusterOfCore (c : Nat) : Nat := c / 4
def dieOfCore (c : Nat) : Nat := c / 256

/-! ## Slices and their registers -/

def Team.slice (t : Team) (n : Nat) : Option Slice := (t.slices.find? (fun p => p.1 == n)).map Prod.snd
def Team.mapSlices (t : Team) (ns : List Nat) (f : Nat → Slice → Slice) : Team :=
  { t with slices := t.slices.map (fun p => if ns.contains p.1 then (p.1, f p.1 p.2) else p) }
def updSlices (s : State) (tid : Nat) (ns : List Nat) (f : Nat → Slice → Slice) : State :=
  updTeam s tid (fun t => t.mapSlices ns f)

/-- Vector register r of lane l (R183). -/
def rdV (sl : Slice) (r l : Nat) : W32 := tget 0#32 (4 * r + l) sl.v

/-- A vector register's four lanes are equal (R193). -/
def lanesEqual (sl : Slice) (r : Nat) : Bool :=
  rdV sl r 0 == rdV sl r 1 && rdV sl r 0 == rdV sl r 2 && rdV sl r 0 == rdV sl r 3

/-- A slice with its uniform tag of register r derived again (R193). -/
def retag (sl : Slice) (r : Nat) : Slice :=
  let m : BitVec 128 := BitVec.ofNat 128 (2 ^ r)
  { sl with uni := if lanesEqual sl r then sl.uni ||| m else sl.uni &&& ~~~m }

/-- A slice with lane l of vector register r written, the tag derived after the write (R193). -/
def wrV (sl : Slice) (r l : Nat) (x : W32) : Slice := retag { sl with v := tset 0#32 (4 * r + l) x sl.v } r

/-- Predicate p_k of lane l; p0 reads 1 (Table 10.1). -/
def rdP (sl : Slice) (k l : Nat) : Bool := k == 0 || sl.p.getLsbD (4 * k + l)

/-- A slice with p_k of lane l written; a write to p0 has no effect (Table 10.1). -/
def wrP (sl : Slice) (k l : Nat) (b : Bool) : Slice :=
  if k = 0 then sl
  else
    let m : W32 := BitVec.ofNat 32 (2 ^ (4 * k + l))
    { sl with p := if b then sl.p ||| m else sl.p &&& ~~~m }

/-- Index register x_k of lane l; bit 16 is reserved (Table 6.2). -/
def rdX (sl : Slice) (k l : Nat) : W32 := tget 0#32 (4 * k + l) sl.x
def wrX (sl : Slice) (k l : Nat) (x : W32) : Slice :=
  { sl with x := tset 0#32 (4 * k + l) (x &&& 0xFFFEFFFF#32) sl.x }

/-- A slice scalar register. -/
def rdG (sl : Slice) (k : Nat) : W64 := tget 0#64 k sl.g
def wrG (sl : Slice) (k : Nat) (x : W64) : Slice := { sl with g := tset 0#64 k x sl.g }

/-- A Prefect's scalar register; s0 is an ordinary one (R343). -/
def rdS (p : Prefect) (k : Nat) : W64 := tget 0#64 k p.s
def wrS (p : Prefect) (k : Nat) (x : W64) : Prefect := { p with s := tset 0#64 k x p.s }

/-- Fields of MODE (Table 10.2). -/
def modeGuard (m : W64) : Nat := bits 2 0 m
def modeSelp (m : W64) : Nat := bits 6 4 m
def modeEtype (m : W64) : Nat := bits 11 8 m
def modeRnd (m : W64) : Nat := bits 14 12 m
def modeSat (m : W64) : Bool := bit 16 m
def modeFtz (m : W64) : Bool := bit 17 m
def modeCc (m : W64) : Nat := bits 19 18 m

/-- A register's value before a write that is not ready at a count, lane by lane (R295). -/
def pendOld (sl : Slice) (r : RegId) (l cnt : Nat) : Option W32 :=
  (sl.pend.find? (fun e => e.reg == r && e.lane == l && decide (cnt < e.ready))).map PendRes.old

/-- A register is short at a count: a result not ready by then (R295). -/
def isShort (sl : Slice) (r : RegId) (cnt : Nat) : Bool :=
  sl.pend.any (fun e => e.reg == r && decide (cnt < e.ready))

/-- Lane l of vector register r as a read at a count finds it (R295). -/
def readV (sl : Slice) (r l cnt : Nat) : W32 := (pendOld sl (.v r) l cnt).getD (rdV sl r l)
def readP (sl : Slice) (k l cnt : Nat) : Bool :=
  if k = 0 then true else match pendOld sl (.p k) l cnt with
    | some o => o != 0#32
    | none => rdP sl k l
def readX (sl : Slice) (k l cnt : Nat) : W32 := (pendOld sl (.x k) l cnt).getD (rdX sl k l)

/-- A slice with a pending entry for a fixed-latency write of lane l (R294): the value before the write. It takes the place
of an earlier entry of that register and lane, whose result is then what a short read gets: DESIGN CHOICE, log entry 118. -/
def addPend (sl : Slice) (r : RegId) (l : Nat) (old : W32) (ready : Nat) : Slice :=
  { sl with pend := sl.pend.filter (fun e => !(e.reg == r && e.lane == l)) ++ [⟨r, l, old, ready⟩] }

/-- A register is INV in a lane (R198); p0 never is. -/
def isInv (sl : Slice) (r : RegId) (l : Nat) : Bool := r != .p 0 && sl.inv.contains (r, l)
def setInv (sl : Slice) (r : RegId) (l : Nat) (b : Bool) : Slice :=
  let rest := sl.inv.filter (fun e => e != (r, l))
  { sl with inv := if b then rest ++ [(r, l)] else rest }

/-! ## Issuers -/

/-- The issuing cohort: its team, grid and slices in ascending number (R187). -/
structure Gang where
  team : Team
  grid : Grid
  lead : Nat
  sl : List (Nat × Slice)

def Gang.nums (g : Gang) : List Nat := g.sl.map Prod.fst
/-- The cohort's common program counter and MODE (R187). -/
def Gang.pc (g : Gang) : W64 := match g.sl with | [] => 0 | p :: _ => p.2.pc
def Gang.mode (g : Gang) : W64 := match g.sl with | [] => 0 | p :: _ => p.2.mode
def Gang.home (g : Gang) : Nat := g.lead / 8
def Gang.ahead (g : Gang) : Bool := g.sl.any (fun p => p.2.st == .ahead)
/-- Bit i of the mask names slice 8k + i (Table 8.3). -/
def sliceMask (ns : List Nat) : Nat := (ns.map (fun n => 2 ^ (n % 8))).foldl (· ||| ·) 0
/-- Gang lane of thread l of slice n (R186). -/
def gangLane (n l : Nat) : Nat := 4 * (n % 8) + l

/-- The cohort of a team whose lowest slice is `lead`: live slices of one home gang in ascending number (R187). -/
def cohortOf (t : Team) (lead : Nat) : List (Nat × Slice) :=
  (List.range 8).filterMap (fun k =>
    let n := lead / 8 * 8 + k
    match tfind n t.slices with
    | some sl => if sl.cohort == lead && sl.st != .exited then some (n, sl) else none
    | none => none)

/-- The issuing gang. -/
def theGang (s : State) (tid lead : Nat) : Option Gang :=
  match findTeam s tid with
  | none => none
  | some t =>
    match findGrid s t.gid with
    | none => none
    | some g => match cohortOf t lead with
      | [] => none
      | l => some ⟨t, g, lead, l⟩

/-- The issuing Prefect: its team and grid. -/
structure Pref where
  team : Team
  grid : Grid

def thePref (s : State) (tid : Nat) : Option Pref :=
  match findTeam s tid with
  | none => none
  | some t => match findGrid s t.gid with
    | none => none
    | some g => some ⟨t, g⟩

/-- A slice may issue: no class P fault stops it, and its state is one that an issue leaves (R209). -/
def slIssues (sl : Slice) : Bool :=
  sl.stop == none &&
  (match sl.st with
   | .issuable => true | .scoreboard => true | .ahead => true | .barrier => true | .parked => true
   | .regang => false | .safepoint => false | .swapped => false | .exited => false)
def Gang.issues (g : Gang) : Bool := g.sl.all (fun p => slIssues p.2)
def prefIssues (p : Prefect) : Bool :=
  p.stop == none &&
  (match p.st with
   | .issuable => true | .scoreboard => true | .barrier => true | .ahead => false | .parked => false
   | .regang => false | .safepoint => false | .swapped => false | .exited => false)

/-- The slices of a cohort in another state, nothing else changed: a wait (Table 6.9). -/
def stall (s : State) (g : Gang) (st : SliceSt) : State :=
  updSlices s g.team.tid g.nums (fun _ sl => { sl with st := st })

/-- Cohorts formed again after an instruction: one per old cohort and distinct
program counter, MODE and state (R187). -/
def regroup (t : Team) (ns : List Nat) : Team :=
  let mem := t.slices.filter (fun p => ns.contains p.1)
  let key := fun (sl : Slice) => (sl.cohort, sl.pc, sl.mode, sl.st)
  t.mapSlices ns (fun _ sl => { sl with cohort := minOf ((mem.filter (fun p => key p.2 == key sl)).map Prod.fst) })

/-! ## The fault ring -/

/-- The fields of a fault-ring record (Table 8.3). -/
structure FRec where
  code : Nat
  cause : Nat := 0
  level : Nat := 0
  issuer : Nat
  pc : W64 := 0
  va : W64 := 0
  mask : Nat := 0
  asid : Nat := 0
  exts : List (List Byte) := []
  resumable : Bool := false
  logged : Bool := false
  teamId : W64 := 0
  queue : Nat := 0
  slices : Nat := 0
  home : Nat := 0
  word : W32 := 0

/-- The 64 bytes of a record with its SEQ (Table 8.3). -/
def FRec.bytes (r : FRec) (seq ptGen time : Nat) : List Byte :=
  [BitVec.ofNat 8 r.code, BitVec.ofNat 8 r.cause, BitVec.ofNat 8 r.level, BitVec.ofNat 8 r.issuer] ++
  bytesLE 4 seq ++ bytesLE 8 r.pc.toNat ++ bytesLE 8 r.va.toNat ++ bytesLE 4 r.mask ++ bytesLE 2 r.asid ++
  bytesLE 1 r.exts.length ++ bytesLE 1 ((if r.resumable then 1 else 0) + (if r.logged then 2 else 0)) ++
  bytesLE 8 r.teamId.toNat ++ bytesLE 2 r.queue ++ bytesLE 2 (r.slices + r.home * 256) ++ bytesLE 4 ptGen ++
  bytesLE 8 time ++ bytesLE 4 r.word.toNat ++ bytesLE 3 0 ++ bytesLE 1 1

/-- A record takes its SEQ: the fault it reports is known by it from then on (R241, R242). -/
def takeSeq (s : State) (ten : Nat) (r : RingRec) : RingRec × State :=
  let t := tenantOf s ten
  let q := t.seq
  let r' := { r with recs := match r.recs with | [] => [] | m :: e => spliceAt m 4 (bytesLE 4 q) :: e }
  let nxt := if q + 1 = 2 ^ 32 then 1 else q + 1
  let s := updTenant s ten (fun t =>
    { t with seq := nxt, faults := t.faults.map (fun f => if f.id = r.fault then { f with seq := q } else f) })
  let known := fun (e : OpEntry) => if e.id = r.fault then { e with seq := q } else e
  let s := { s with cores := s.cores.map (fun p => (p.1, { p.2 with log := p.2.log.map known })), outLog := s.outLog.map known }
  (r', s)

/-- Base, capacity in records, write index and read index of an enabled fault ring (Table 8.2). -/
def ringOf (s : State) (ten : Nat) : Option (Nat × Nat × Nat × Nat) :=
  let v := tsysGet s ten srFaultRing
  if bit 0 v then
    let b := bits 38 16 v * 2 ^ 16
    some (b, (2 ^ (16 + bits 15 12 v) - 64) / 64, natLE (mgetAll s.mem b 8), natLE (mgetAll s.mem (b + 8) 8))
  else none

/-- The ring has room for n more records. -/
def ringRoom (s : State) (ten n : Nat) : Bool :=
  match ringOf s ten with
  | none => false
  | some (_, cap, w, r) => decide ((w + 2 ^ 64 - r) % 2 ^ 64 + n ≤ cap)

/-- Records written at the ring's write index, which then advances (R242). -/
def ringWrite (s : State) (ten : Nat) : List (List Byte) → State
  | [] => s
  | m :: rest =>
    match ringOf s ten with
    | none => s
    | some (b, cap, w, _) =>
      let mem := msetAll s.mem (b + 64 + 64 * (w % cap)) m
      ringWrite { s with mem := msetAll mem b (bytesLE 8 ((w + 1) % 2 ^ 64)) } ten rest

/-- Records move from the on-chip buffer to the ring while it has room, and waiting records into the buffer while that
has room (R241). -/
def pumpRing : Nat → State → Nat → State
  | 0, s, _ => s
  | n + 1, s, ten =>
    let t := tenantOf s ten
    match t.buf with
    | r :: rest =>
      if ringRoom s ten r.recs.length then
        pumpRing n (ringWrite (updTenant s ten (fun t => { t with buf := rest })) ten r.recs) ten
      else
        match t.late with
        | [] => s
        | l :: more =>
          if (t.buf.map (fun r => r.recs.length)).foldl (· + ·) 0 + l.recs.length ≤ 64 then
            let (l, s) := takeSeq (updTenant s ten (fun t => { t with late := more })) ten l
            pumpRing n (updTenant s ten (fun t => { t with buf := t.buf ++ [l] })) ten
          else s
    | [] =>
      match t.late with
      | [] => s
      | l :: more =>
        let (l, s) := takeSeq (updTenant s ten (fun t => { t with late := more })) ten l
        pumpRing n (updTenant s ten (fun t => { t with buf := [l] })) ten

/-- A fault-ring record is emitted for a tenant; `fault` is the model's number of the fault it reports, 0 for a record
that nothing waits on (R241, R242). -/
def emit (s : State) (ten : Nat) (r : FRec) (fault : Nat) : State :=
  let m := r.bytes 0 (tsysGet s ten srPtGen).toNat (nsOf s)
  let s := updTenant s ten (fun t => { t with late := t.late ++ [⟨fault, m :: r.exts⟩] })
  pumpRing 200 s ten

/-! ## Taking a fault -/

/-- Codes of Table 8.1. -/
def fcPageAbsent : Nat := 0x01
def fcPagePerm : Nat := 0x02
def fcPageElsewhere : Nat := 0x03
def fcRangeLock : Nat := 0x04
def fcCkout : Nat := 0x05
def fcBounds : Nat := 0x06
def fcIllegal : Nat := 0x07
def fcWaitShort : Nat := 0x08
def fcMisalign : Nat := 0x09
def fcRemoteAtom : Nat := 0x0A
def fcFabricTimeout : Nat := 0x0B
def fcPoison : Nat := 0x0C
def fcSlateOwner : Nat := 0x0D
def fcSlateCorrupt : Nat := 0x0E
def fcEccUncorr : Nat := 0x0F
def fcWatchdog : Nat := 0x10
def fcTrap : Nat := 0x11
def fcBrk : Nat := 0x12
def fcQstop : Nat := 0x13
def fcReset : Nat := 0x14

/-- A fault waits for its resume under a tenant. -/
def addWait (s : State) (ten : Nat) (w : WaitFault) : State :=
  updTenant s ten (fun t => { t with faults := t.faults ++ [w] })

/-- TAKING A CLASS P FAULT on a gang: the cohort stops where it stands, and a resumable record of Table 8.3 is emitted
(R239, R241). `va`, `mask` as the raising rule gives them. -/
def raiseGang (s : State) (g : Gang) (code cause level : Nat) (va : W64) (mask : Nat) : State :=
  let (id, s) := newId s
  let s := updSlices s g.team.tid g.nums (fun _ sl => { sl with stop := some id, st := .issuable })
  let s := addWait s g.grid.tenant ⟨id, 0, code, cause, g.grid.gid, .gang g.team.tid g.nums⟩
  emit s g.grid.tenant
    { code, cause, level, issuer := 0, pc := g.pc, va, mask, asid := g.grid.asid, resumable := true,
      teamId := g.team.teamId, queue := g.grid.queue, slices := sliceMask g.nums, home := g.home, word := s.word } id

/-- TAKING A CLASS P FAULT on a Prefect (R239, R250, R343). -/
def raisePref (s : State) (p : Pref) (code cause level : Nat) (va : W64) : State :=
  let (id, s) := newId s
  let s := updTeam s p.team.tid (fun t => { t with pf := { t.pf with stop := some id, st := .issuable } })
  let s := addWait s p.grid.tenant ⟨id, 0, code, cause, p.grid.gid, .prefect p.team.tid⟩
  emit s p.grid.tenant
    { code, cause, level, issuer := 1, pc := p.team.pf.pc, va, asid := p.grid.asid, resumable := true,
      teamId := p.team.teamId, queue := p.grid.queue, word := s.word } id

/-! ## The operand log (R243 to R245) -/

/-- Entries of a team in a core's log. -/
def logCount (c : Core) (tid : Nat) : Nat := (c.log.filter (fun e => e.slot != none && e.op.tid == tid)).length

/-- The least log index not in use. -/
def freeSlot (c : Core) : Option Nat := (List.range 16).find? (fun i => !(c.log.any (fun e => e.slot == some i)))

/-- A team may take another entry (R245). -/
def mayLog (s : State) (core tid : Nat) : Bool :=
  let c := coreOf s core
  let free := 16 - (c.log.filter (fun e => e.slot != none)).length
  let others := (s.teams.filter (fun t => t.core == core && t.tid != tid)).filter (fun t => logCount c t.tid < 2)
  decide (0 < free) && (decide (logCount c tid < 2) || decide (2 * others.length < free))

/-- Mask of the gang lanes of an operation. -/
def laneMask (ls : List MLane) : Nat := (ls.map (fun l => 2 ^ l.gl)).foldl (· ||| ·) 0

/-- The extension records of a multicast fault: two bits a member, 256 members a record (R242). -/
def mstatExts (l : List Nat) : List (List Byte) :=
  (List.range ((l.length + 255) / 256)).map (fun e =>
    bytesLE 64 (((List.range 256).map (fun j => (l.getD (256 * e + j) 0) * 4 ^ j)).foldl (· + ·) 0))

/-- The record of a log entry (Table 8.3); a multicast lane's members follow in extension records. -/
def logRec (s : State) (e : OpEntry) : FRec :=
  let t := findTeam s e.op.tid
  let q := match findGrid s e.op.gid with | some g => g.queue | none => 0
  { code := e.code, cause := e.cause, level := e.level, issuer := 0, pc := e.op.pc, va := e.va,
    mask := laneMask e.op.lanes, asid := e.op.asid, resumable := true, logged := true,
    teamId := (match t with | some t => t.teamId | none => 0), queue := q, slices := sliceMask e.op.slices,
    home := e.op.gang, word := e.op.word,
    exts := (match e.op.lanes with | [l] => mstatExts l.mstat | _ => []) }

/-- The first entry that waits in the request table and may now enter the log does so, and its record is sent (R245);
an entry that replays by itself writes none (R246). -/
def admitLog : Nat → State → Nat → State
  | 0, s, _ => s
  | n + 1, s, core =>
    match (coreOf s core).log.find? (fun e => e.slot == none && mayLog s core e.op.tid) with
    | none => s
    | some e =>
      match freeSlot (coreOf s core) with
      | none => s
      | some i =>
        let s := updCore s core (fun c =>
          { c with log := c.log.map (fun x => if x.id = e.id then { x with slot := some i } else x) })
        let s := if e.auto = 0 then emit s e.op.tenant (logRec s e) e.id else s
        admitLog n s core

/-- TAKING A CLASS L FAULT: the faulted lanes of an operation enter the operand log, and the gang issues past it (R239,
R243). The operation holds only those lanes. -/
def raiseLane (s : State) (op : MemOp) (code cause level : Nat) (va : W64) (notReplay : Bool) (auto : Nat) : State :=
  let (id, s) := newId s
  let e : OpEntry :=
    { slot := none, op := op, code, cause, level, va, st := 0, action := 0, id, seq := 0,
      ptGen := (tsysGet s op.tenant srPtGen).toNat, notReplay, auto }
  let s := updCore s op.core (fun c => { c with log := c.log ++ [e] })
  admitLog 32 s op.core

/-- Slices that are PARKED on an entry that completes become ISSUABLE, every earlier result ready, and their gangs issue
from the next cycle on (R209, R249, R296). A gang that another entry holds parks again when it is tried. -/
def unpark (s : State) (core tid : Nat) (ns : List Nat) : State :=
  match findTeam s tid with
  | none => s
  | some t =>
    let free := t.slices.filter (fun p => p.2.st == .parked && ns.any (fun n => n / 8 == p.1 / 8))
    if free.isEmpty then s
    else
      let s := updSlices s tid (free.map Prod.fst) (fun _ sl => { sl with st := .issuable, pend := [] })
      let due := fun (a : GangAge) => if a.tid = tid ∧ free.any (fun p => p.2.cohort == a.lead) then
        { a with notBefore := max a.notBefore (s.clock.cycle + 1) } else a
      let port := fun (p : Port) => { p with active := p.active.map due, pending := p.pending.map due }
      updCore s core (fun c => { c with port0 := port c.port0, port1 := port c.port1 })

/-- A log entry leaves; waiting ones may take its place (R245), and gangs parked on it go on. -/
def dropEntry (s : State) (core id : Nat) : State :=
  let out := (coreOf s core).log.filter (fun e => e.id == id)
  let s := admitLog 32 (updCore s core (fun c => { c with log := c.log.filter (fun e => e.id != id) })) core
  out.foldl (fun s e => unpark s core e.op.tid e.op.slices) s

/-- The entries that hold a register of a slice (R244). -/
def heldBy (s : State) (t : Team) (n : Nat) (r : RegId) : Bool :=
  (coreOf s t.core).log.any (fun e =>
    e.op.tid == t.tid && e.op.slices.contains n &&
    (match r with | .v k => e.op.dests.contains k | .p _ => false | .x _ => false | .g _ => false))

/-- Unreplayed entries of a home gang (R244). -/
def gangEntries (s : State) (t : Team) (ns : List Nat) : List OpEntry :=
  (coreOf s t.core).log.filter (fun e => e.op.tid == t.tid && e.op.slices.any (fun n => ns.contains n))

/-- A register of a slice waits on the scoreboard for an outstanding memory operation (R294). -/
def outstanding (s : State) (t : Team) (n : Nat) (r : RegId) : Bool :=
  s.memops.any (fun o =>
    o.tid == t.tid && !o.pf && o.replayOf == none && o.slices.contains n &&
    (match r with | .v k => o.dests.contains k | .p _ => false | .x _ => false | .g _ => false))

/-! ## Resuming from a class P fault (R248) -/

/-- The slices and the Prefect of a team that the fault of this number stopped go on. -/
def Team.endStop (t : Team) (id : Nat) : Team :=
  { t with
    slices := t.slices.map (fun p => if p.2.stop = some id then (p.1, { p.2 with stop := none, pend := [] }) else p)
    pf := if t.pf.stop = some id then { t.pf with stop := none } else t.pf }

/-- A gang, Prefect or team stopped by a fault goes on: at its own instruction, or past it when `skip`. Every earlier
result is ready then (R296). A team that the race detector stopped goes on past the access, which was performed, whatever
the action (R106, R248). -/
def resumeAt (s : State) (w : FaultAt) (skip : Bool) : State :=
  match w with
  | .gang tid ns =>
    updSlices s tid ns (fun _ sl =>
      { sl with stop := none, pend := [], pc := if skip then sl.pc + 4 else sl.pc,
                count := if skip then sl.count + 1 else sl.count })
  | .prefect tid =>
    updTeam s tid (fun t => { t with pf :=
      { t.pf with stop := none, pc := if skip then t.pf.pc + 4 else t.pf.pc } })
  | .race tid id => updTeam s tid (fun t => t.endStop id)
  | .chain _ _ => s
  | .op _ => s
  | .matrix _ _ => s
  | .removed _ => s

/-! ## Gambit (R195 to R201) -/

/-- The episode a slice of a team belongs to. -/
def episodeOf (t : Team) (n : Nat) : Option GambitEp :=
  t.gambit.find? (fun e => e.snap.any (fun p => p.1 == n))

/-- SYS.GAMBIT_CNT when an episode ends (Table 6.8). -/
def cntEnd (v : W64) (cause len : Nat) : W64 := withBits 11 0 (min len 2048) (withBits 15 12 cause v)

/-- A 16-bit field of SYS.GAMBIT_CNT counted up, saturating (R203). -/
def cntUp (v : W64) (lo : Nat) : W64 := withBits (lo + 15) lo (min (bits (lo + 15) lo v + 1) 0xFFFF) v

/-- The end of an episode (R201): every saved slice is restored, INV bits clear, and the slot is free. Every result is
ready after the restore (R296). -/
def endGambit (s : State) (tid n cause : Nat) : State :=
  match findTeam s tid with
  | none => s
  | some t =>
    match episodeOf t n with
    | none => s
    | some e =>
      let s := updTeam s tid (fun t =>
        { t with
          slices := t.slices.map (fun p => match e.snap.find? (fun q => q.1 == p.1) with
            | some q => (p.1, { q.2 with st := if cause = 0 then .issuable else .scoreboard, inv := [], pend := [], dqPos := p.2.dqPos })
            | none => p)
          gambit := t.gambit.filter (fun x => x.lead != e.lead) })
      updCore s t.core (fun c => { c with gcnt := cntEnd c.gcnt cause e.issued })

/-- The save of a vector register of a slice before the episode first writes it; none where the slot would overflow
(R197). -/
def gambitSave (t : Team) (n r : Nat) : Option Team :=
  match episodeOf t n with
  | none => some t
  | some e =>
    if e.saved.contains (n, r) then some t
    else
      let uni := match t.slice n with | some sl => sl.uni.getLsbD r | none => false
      let used := e.used + (if uni then 4 else 16)
      if 16384 < used then none
      else some { t with gambit := t.gambit.map (fun x =>
        if x.lead = e.lead then { x with used := used, saved := x.saved ++ [(n, r)] } else x) }

/-- The saves of several registers. -/
def gambitSaves (t : Team) : List (Nat × Nat) → Option Team
  | [] => some t
  | (n, r) :: rest => match gambitSave t n r with
    | none => none
    | some t => gambitSaves t rest

/-- One more gang instruction of the episode (R201). -/
def gambitIssue (t : Team) (n : Nat) : Team :=
  match episodeOf t n with
  | none => t
  | some e => { t with gambit := t.gambit.map (fun x => if x.lead = e.lead then { x with issued := x.issued + 1 } else x) }

/-- The episode of a slice has issued its 2048th instruction (R201). -/
def gambitFull (t : Team) (n : Nat) : Bool :=
  match episodeOf t n with
  | none => false
  | some e => decide (2048 ≤ e.issued)

/-! ## Finishing an instruction -/

/-- A slice past one instruction with wait field w (R293): its count and program counter advance; results ready by the
new count are no longer pending. -/
def advance (w : Nat) (sl : Slice) : Slice :=
  let c := sl.count + max w 1
  { sl with pc := sl.pc + 4, count := c, st := if sl.st = .ahead then .ahead else .issuable,
            pend := sl.pend.filter (fun e => decide (c < e.ready)) }

/-- A slice that leaves a wait past its instruction: every result is ready (R296). -/
def leave (sl : Slice) : Slice := { sl with pc := sl.pc + 4, count := sl.count + 1, st := .issuable, pend := [] }

/-- Slices that come out of PARKED or BARRIER find every earlier result ready (R296). -/
def wake (s : State) (g : Gang) : State :=
  if g.sl.any (fun p => (p.2.st == .parked || p.2.st == .barrier) && !p.2.pend.isEmpty) then
    updSlices s g.team.tid g.nums (fun _ sl => { sl with pend := [] })
  else s

/-- The issue port of a home gang (R229). -/
def portNum (t : Team) (home : Nat) : Nat := (home + t.slot) % 2
def Core.port (c : Core) (n : Nat) : Port := if n = 0 then c.port0 else c.port1
def Core.withPort (c : Core) (n : Nat) (p : Port) : Core := if n = 0 then { c with port0 := p } else { c with port1 := p }

/-- The operand latch after an instruction of a gang: its entries serve one instruction less, and a held source enters,
in place of the oldest of three (R299). -/
def latchStep (s : State) (g : Gang) (held : Option Nat) : State :=
  updCore s g.team.core (fun c =>
    let n := portNum g.team g.home
    let p := c.port n
    let l := p.latch.map (fun e => if e.tid = g.team.tid ∧ e.lead = g.lead then { e with left := e.left - 1 } else e)
    let l := l.filter (fun e => decide (0 < e.left))
    let l := match held with
      | none => l
      | some r => (if l.length < 3 then l else l.drop 1) ++ [⟨g.team.tid, g.lead, r, 2⟩]
    c.withPort n { p with latch := l })

/-- The cohort leaves an instruction: each slice changed by `f`, then past the instruction, cohorts formed again. -/
def finish (s : State) (g : Gang) (w : Nat) (held : Option Nat) (f : Nat → Slice → Slice) : State :=
  let s := updTeam s g.team.tid (fun t =>
    let t := t.mapSlices g.nums (fun n sl => advance w (f n sl))
    let t := if g.ahead then gambitIssue t g.lead else t
    regroup t g.nums)
  latchStep s g held

end Sys2Proof.Machine
end

