-- ==== Sys2Proof/Machine/Operands.lean ====
section
/-! DEFINITION. The operand forms of gang and Prefect instructions and the shared driver of vector instructions: the
checks of R316 in their order, reads by issue count (R295), the active lanes (R183), INV (R198), the writes. -/

namespace Sys2Proof.Machine

abbrev Out := Host.Outcome State Fault Refusal

/-- A save's stop holds an issuer (R205, R255): in the drain everything, in the soft phase a Prefect at an instruction
boundary. -/
def saveHolds (s : State) (fid : Nat) (pf : Option Prefect) : Bool :=
  match findForm s fid with
  | none => false
  | some f => match f.stopReq with
    | none => false
    | some r => (match pf with
      | none => r.drain
      | some p => p.st == .issuable || (r.drain && p.st != .scoreboard))

/-- An instruction of a gang. A Prefect that fetched it raises ILLEGAL (R290). A cohort that cannot issue stays. An
episode that has issued 2048 instructions ends first (R201). -/
def withGang (s : State) (k : State → Gang → State) : Out :=
  match s.cur with
  | .prefect tid =>
    match thePref s tid with
    | none => .fault .noIssuer
    | some p => .next (if prefIssues p.team.pf && !saveHolds s p.team.fid (some p.team.pf) then raisePref s p fcIllegal 0 0 0 else s)
  | .gang tid lead =>
    match theGang s tid lead with
    | none => .fault .noIssuer
    | some g =>
      .next (if !g.issues || saveHolds s g.team.fid none then s
        else if g.ahead && gambitFull g.team lead then endGambit s tid lead 2
        else
          let s := wake s g
          match theGang s tid lead with
          | none => s
          | some g => k s g)

/-- An instruction of a Prefect. A slice that fetched it raises ILLEGAL (R290); in Gambit that ends the episode
(R316). -/
def withPref (s : State) (k : Pref → State) : Out :=
  match s.cur with
  | .prefect tid =>
    match thePref s tid with
    | none => .fault .noIssuer
    | some p => .next (if prefIssues p.team.pf && !saveHolds s p.team.fid (some p.team.pf) then k p else s)
  | .gang tid lead =>
    match theGang s tid lead with
    | none => .fault .noIssuer
    | some g =>
      .next (if !g.issues || saveHolds s g.team.fid none then s
        else if g.ahead then endGambit s tid lead 5
        else raiseGang s g fcIllegal 0 0 0 0)

/-- ILLEGAL at the gang's instruction, class P, without effect (R316). -/
def illegalGang (s : State) (g : Gang) : State := raiseGang s g fcIllegal 0 0 0 0
def illegalPref (s : State) (p : Pref) : State := raisePref s p fcIllegal 0 0 0

/-- The cohort waits before an instruction, or takes WAIT_SHORT: none when it may go on. `rd` lists the registers read
with the count after issue at which each is read, `wr` those written (R244, R294, R295). In Gambit nothing waits. -/
def prelude (s : State) (g : Gang) (w : Nat) (rd : List (RegId × Nat)) (wr : List RegId) : Option State :=
  let regs := rd.map Prod.fst ++ wr
  if g.ahead then none
  else if g.sl.any (fun p => regs.any (heldBy s g.team p.1)) then some (stall s g .parked)
  else if g.sl.any (fun p => regs.any (outstanding s g.team p.1)) then
    some (updSlices s g.team.tid g.nums (fun _ sl => { sl with st := .scoreboard, waitOp := 0, waitRegs := regs }))
  else if g.grid.check && g.sl.any (fun p => rd.any (fun e => isShort p.2 e.1 (p.2.count + max w 1 + e.2))) then
    some (raiseGang s g fcWaitShort 0 0 0 0)
  else none

/-- A lane is active: its LM bit is 1 and the guard predicate reads 1 in it (R183). In Gambit an INV guard makes it
inactive (Table 6.5), and so does one not yet ready. -/
def laneActive (g : Gang) (w : Nat) (sl : Slice) (l : Nat) : Bool :=
  let k := modeGuard sl.mode
  let c := sl.count + max w 1
  sl.lm.getLsbD l &&
  (if g.ahead then !isInv sl (.p k) l && !isShort sl (.p k) c && rdP sl k l else readP sl k l c)

/-- The active lanes of a cohort in ascending gang lane: slice number, slice and lane. -/
def activeLanes (g : Gang) (w : Nat) : List (Nat × Slice × Nat) :=
  g.sl.flatMap (fun p => ((List.range 4).filter (laneActive g w p.2)).map (fun l => (p.1, p.2, l)))

/-- What an instruction reads in one active lane. -/
structure LaneIn where
  gl : Nat
  sl : Nat
  ln : Nat
  a : Nat
  b : Nat
  d : Nat
  pr : List Bool
  x : W32
  g : W64
  n : Nat

/-- The destination of a vector instruction. -/
inductive Dst where
  | v (r : Nat) | p (k : Nat) | x (k : Nat) | none
  deriving DecidableEq, Repr

/-- A vector instruction: its fields, its sources and what it computes. A source that is not read is none. -/
structure VSpec where
  hold : Nat
  wait : Nat
  /-- The fields are an assigned encoding, beyond the hold (R316 step 2). -/
  enc : Bool
  /-- MODE is legal (R316 step 3). -/
  legal : W64 → Bool
  a : Option Nat
  b : Option Nat
  /-- d as a source. -/
  ds : Option Nat
  dst : Dst
  /-- a, b and d name pairs under this MODE (R363). -/
  pairA : W64 → Bool
  pairB : W64 → Bool
  pairD : W64 → Bool
  /-- Predicates read besides the guard, an index register, a g register. -/
  preds : W64 → List Nat
  xr : Option Nat
  gr : Option Nat
  /-- The instruction reads other lanes of the cohort (R198). -/
  cross : Bool
  /-- Latency of Table 10.4; none for a scoreboarded result. -/
  lat : Option Nat
  /-- The results of the active lanes in order, and the flags they raise. -/
  run : W64 → List LaneIn → List Nat × Fl

/-- The registers of an operand: one, or an even-odd pair. -/
def regsOf (pair : Bool) (r : Nat) : List Nat := if pair then [r, r + 1] else [r]

/-- A vector register operand is legal: below N, and even where it names a pair (R316). -/
def regOk (n : Nat) (pair : Bool) (r : Nat) : Bool := decide (r + (if pair then 1 else 0) < n) && (!pair || r % 2 == 0)

def optOk (n : Nat) (pair : Bool) : Option Nat → Bool
  | none => true
  | some r => regOk n pair r

/-- The encoding is assigned and its hold names a source that is read (R316 step 2, R365). -/
def VSpec.encOk (sp : VSpec) : Bool :=
  sp.enc &&
  (match sp.hold with
   | 0 => true
   | 1 => sp.a.isSome
   | 2 => sp.b.isSome
   | _ => sp.ds.isSome)

/-- The operand checks of R316 step 3. -/
def VSpec.ok (sp : VSpec) (n : Nat) (m : W64) : Bool :=
  sp.legal m &&
  optOk n (sp.pairA m) sp.a && optOk n (sp.pairB m) sp.b && optOk n (sp.pairD m) sp.ds &&
  (match sp.dst with | .v r => regOk n (sp.pairD m) r | .p _ => true | .x _ => true | .none => true)

def optRegs (pair : Bool) (off : Nat) : Option Nat → List (RegId × Nat)
  | none => []
  | some r => (regsOf pair r).map (fun k => (.v k, off))

/-- The registers an instruction reads and the counts after issue at which it reads them (R295). -/
def VSpec.reads (sp : VSpec) (m : W64) : List (RegId × Nat) :=
  optRegs (sp.pairA m) 0 sp.a ++ optRegs (sp.pairB m) 1 sp.b ++ optRegs (sp.pairD m) 2 sp.ds ++
  ((modeGuard m :: sp.preds m).map (fun k => (RegId.p k, 0))) ++
  (match sp.xr with | some k => [(RegId.x k, 0)] | none => []) ++
  (match sp.gr with | some k => [(RegId.g k, 0)] | none => [])

/-- The registers an instruction writes. -/
def VSpec.writes (sp : VSpec) (m : W64) : List RegId :=
  match sp.dst with
  | .v r => (regsOf (sp.pairD m) r).map RegId.v
  | .p k => if k = 0 then [] else [.p k]
  | .x k => [.x k]
  | .none => []

/-- A vector operand's value in a lane, the pair's high word above its low one (R267). -/
def readOpt (sl : Slice) (l c : Nat) (pair : Bool) : Option Nat → Nat
  | none => 0
  | some r => (readV sl r l c).toNat + (if pair then 2 ^ 32 * (readV sl (r + 1) l c).toNat else 0)

/-- What the instruction reads in one lane. -/
def VSpec.laneIn (sp : VSpec) (g : Gang) (q : Nat × Slice × Nat) : LaneIn :=
  let sl := q.2.1
  let l := q.2.2
  let c := sl.count + max sp.wait 1
  let m := g.mode
  { gl := gangLane q.1 l, sl := q.1, ln := l,
    a := readOpt sl l c (sp.pairA m) sp.a,
    b := readOpt sl l (c + 1) (sp.pairB m) sp.b,
    d := readOpt sl l (c + 2) (sp.pairD m) sp.ds,
    pr := (sp.preds m).map (fun k => readP sl k l c),
    x := (match sp.xr with | some k => readX sl k l c | none => 0),
    g := (match sp.gr with | some k => rdG sl k | none => 0),
    n := g.team.nregs }

/-- A lane has an INV source, or one not ready by count (Table 6.5). -/
def VSpec.invIn (sp : VSpec) (g : Gang) (q : Nat × Slice × Nat) : Bool :=
  let sl := q.2.1
  (sp.reads g.mode).any (fun e =>
    (match e.1 with | .g _ => isInv sl e.1 0 | .v _ => isInv sl e.1 q.2.2 | .p _ => isInv sl e.1 q.2.2
                    | .x _ => isInv sl e.1 q.2.2) ||
    isShort sl e.1 (sl.count + max sp.wait 1 + e.2))

/-- The value of a register of a lane as a word. -/
def regWord (sl : Slice) (r : RegId) (l : Nat) : W32 :=
  match r with
  | .v k => rdV sl k l
  | .p k => if rdP sl k l then 1 else 0
  | .x k => rdX sl k l
  | .g k => (rdG sl k).setWidth 32

/-- One register of a lane written, with its pending entry when the latency is fixed (R294). -/
def writeReg (lat : Option Nat) (c : Nat) (sl : Slice) (r : RegId) (l : Nat) (x : W32) : Slice :=
  let old := regWord sl r l
  let sl := match r with
    | .v k => wrV sl k l x
    | .p k => wrP sl k l (x != 0#32)
    | .x k => wrX sl k l x
    | .g k => wrG sl k (x.setWidth 64)
  match lat with
  | some n => addPend sl r l old (c + n)
  | none => { sl with pend := sl.pend.filter (fun e => !(e.reg == r && e.lane == l)) }

/-- A lane's result written to the destination registers. -/
def writeDst (lat : Option Nat) (c : Nat) (regs : List RegId) (sl : Slice) (l : Nat) (x : Nat) : Slice :=
  match regs with
  | [] => sl
  | [r] => writeReg lat c sl r l (BitVec.ofNat 32 x)
  | r :: q :: _ => writeReg lat c (writeReg lat c sl r l (BitVec.ofNat 32 x)) q l (BitVec.ofNat 32 (x / 2 ^ 32))

/-- The results of a slice's lanes written in turn. -/
def writeLanes (lat : Option Nat) (c : Nat) (regs : List RegId) (n : Nat) (sl : Slice) (l : List (LaneIn × Nat)) : Slice :=
  l.foldl (fun sl e => if e.1.sl = n then writeDst lat c regs sl e.1.ln e.2 else sl) sl

/-- Destinations of a lane marked INV or valid (R198). -/
def markInv (regs : List RegId) (b : Bool) (sl : Slice) (l : Nat) : Slice :=
  regs.foldl (fun sl r => if r = .p 0 then sl else setInv sl r l b) sl

/-- The vector registers that an instruction writes in a slice, for the save of R197. -/
def savesOf (regs : List RegId) (n : Nat) : List (Nat × Nat) :=
  regs.filterMap (fun r => match r with | .v k => some (n, k) | .p _ => none | .x _ => none | .g _ => none)

/-- The register that the hold field places in the operand latch (R299). -/
def VSpec.held (sp : VSpec) : Option Nat :=
  match sp.hold with
  | 0 => none
  | 1 => sp.a
  | 2 => sp.b
  | _ => sp.ds

/-- A vector instruction in Gambit: lanes with an INV source make INV destinations, illegal operands make every
destination INV, and the old values are saved first (R197, R198). -/
def vecAhead (sp : VSpec) (s : State) (g : Gang) (legal : Bool) : State :=
  let m := g.mode
  let act := activeLanes g sp.wait
  let regs := (sp.writes m).filter (fun r => match r with | .v k => decide (k < g.team.nregs) | .p _ => true | .x _ => true | .g _ => true)
  let saves := (distinct (act.map Prod.fst)).flatMap (savesOf regs)
  match gambitSaves g.team saves with
  | none => endGambit s g.team.tid g.lead 3
  | some t =>
    let s := updTeam s g.team.tid (fun _ => t)
    let ins := act.map (sp.laneIn g)
    let inv := act.map (sp.invIn g)
    let allInv := !legal || (sp.cross && inv.any id)
    let out := ins.zip (sp.run m ins).1
    let flags := ins.zip inv
    finish s g sp.wait sp.held (fun n sl =>
      let c := sl.count + max sp.wait 1
      let ok := out.filter (fun e => !allInv && !(flags.any (fun f => f.2 && f.1.gl == e.1.gl)))
      let sl := writeLanes sp.lat c regs n sl ok
      ins.foldl (fun sl e => if e.sl = n then markInv regs (allInv || flags.any (fun f => f.2 && f.1.gl == e.gl)) sl e.ln
        else sl) sl)

/-- A vector instruction of a gang that may issue: the checks of R316 in order, then its effect on every active lane. -/
def vecRun (sp : VSpec) (s : State) (g : Gang) : State :=
  let m := g.mode
  let legal := sp.encOk && sp.ok g.team.nregs m
  if g.ahead then (if sp.encOk then vecAhead sp s g legal else endGambit s g.team.tid g.lead 5)
  else if !legal then illegalGang s g
  else match prelude s g sp.wait (sp.reads m) (sp.writes m) with
    | some s' => s'
    | none =>
      let ins := (activeLanes g sp.wait).map (sp.laneIn g)
      let (out, fl) := sp.run m ins
      let res := ins.zip out
      let s := raiseFl s g.grid.tenant fl
      finish s g sp.wait sp.held (fun n sl => writeLanes sp.lat (sl.count + max sp.wait 1) (sp.writes m) n sl res)

/-- A vector instruction. -/
def vec (sp : VSpec) (s : State) : Out := withGang s (vecRun sp)

/-- The results of a function of one lane, with the flags of the active lanes joined (R281). -/
def perLane (f : W64 → LaneIn → Nat × Fl) (m : W64) (l : List LaneIn) : List Nat × Fl :=
  let r := l.map (f m)
  (r.map Prod.fst, (r.map Prod.snd).foldl (· ||| ·) 0)

/-- A vector instruction with no operand: the fields the builders below change. -/
def vbase (h w : Nat) : VSpec :=
  { hold := h, wait := w, enc := true, legal := fun _ => true, a := none, b := none, ds := none, dst := .none,
    pairA := fun _ => false, pairB := fun _ => false, pairD := fun _ => false, preds := fun _ => [],
    xr := none, gr := none, cross := false, lat := some 4, run := fun _ l => (l.map (fun _ => 0), 0) }

/-- ETYPE INT64 makes every vector operand of an integer-class instruction a pair (R363). -/
def isI64 (m : W64) : Bool := modeEtype m == 11

/-- An integer-class instruction d := f(a, b, d) (R361). `useD` says that d is a source. -/
def intSpec (h w : Nat) (d a : Nat) (b : Option Nat) (useD : Bool) (lat : Nat)
    (f : ICls → Bool → Nat → Nat → Nat → Nat × Fl) : VSpec :=
  { vbase h w with
    legal := fun m => (iclass (modeEtype m)).isSome
    a := some a, b := b, ds := if useD then some d else none, dst := .v d
    pairA := isI64, pairB := isI64, pairD := isI64, lat := some lat
    run := perLane (fun m i => match iclass (modeEtype m) with
      | some c => f c (modeSat m) i.a i.b i.d
      | none => (0, 0)) }

/-- An integer-class instruction element by element. -/
def intElSpec (h w : Nat) (d a : Nat) (b : Option Nat) (useD : Bool) (lat : Nat)
    (f : ICls → Bool → Nat → Nat → Nat → Nat × Fl) : VSpec :=
  intSpec h w d a b useD lat (fun c sat x y z => mapElems c.w c.n (f c sat) x y z)

/-- An instruction on the whole 32-bit word that reads no MODE field. -/
def wordSpec (h w : Nat) (d a : Nat) (b : Option Nat) (lat : Nat) (f : Nat → Nat → Nat) : VSpec :=
  { vbase h w with a := some a, b := b, dst := .v d, lat := some lat, run := perLane (fun _ i => (f i.a i.b, 0)) }

/-- A float-class instruction element by element (R362). -/
def floatSpec (h w : Nat) (d a : Nat) (b : Option Nat) (useD : Bool) (lat : Option Nat)
    (f : Fmt → FMode → Nat → Nat → Nat → Nat × Fl) : VSpec :=
  { vbase h w with
    legal := fun m => (fclass (modeEtype m)).isSome
    a := some a, b := b, ds := if useD then some d else none, dst := .v d, lat := lat
    run := perLane (fun m i => match fclass (modeEtype m) with
      | some (ft, n) => mapElems ft.width n (f ft (fmodeOf m)) i.a i.b i.d
      | none => (0, 0)) }

/-- A cross-lane instruction d := f(the active lanes, lane) (R377). -/
def crossSpec (h w : Nat) (d : Nat) (a b : Option Nat) (lat : Nat) (f : List LaneIn → LaneIn → Nat) : VSpec :=
  { vbase h w with a := a, b := b, dst := .v d, cross := true, lat := some lat
                   run := fun _ l => (l.map (f l), 0) }

end Sys2Proof.Machine
end

