-- ==== Sys2Proof/Machine/Control.lean ====
section
/-! DEFINITION. Slice control (R322 to R341): branches, the slice scalar ALU, MODE and the lane mask, REGANG, barriers,
the decision queue, waits, safe points, EXIT, TRAP and BRK. -/

namespace Sys2Proof.Machine

/-- A control instruction that every slice of the cohort executes for itself (R322). `enc` is its encoding check, `ok`
the check of operands and values; illegal operands in Gambit make the destination INV (Table 6.5). `f` gives a slice its
effect; the program counter then advances by 4. -/
def ctl (s : State) (enc : Bool) (ok : Gang → Bool) (rd : List (RegId × Nat)) (wr : List RegId)
    (f : Gang → Nat → Slice → Slice) : Out :=
  withGang s (fun s g =>
    if g.ahead then
      if !enc then endGambit s g.team.tid g.lead 5
      else if !ok g then
        finish s g 1 none (fun _ sl => wr.foldl (fun sl r => setInv sl r 0 true) sl)
      else finish s g 1 none (f g)
    else if !(enc && ok g) then illegalGang s g
    else match prelude s g 1 rd wr with
      | some s' => s'
      | none => finish s g 1 none (f g))

/-- A slice whose program counter becomes `pc` once the instruction is left. -/
def goto (pc : W64) (sl : Slice) : Slice := { sl with pc := pc - 4 }

/-- A g register is INV in Gambit (R198). -/
def gInv (sl : Slice) (k : Nat) : Bool := isInv sl (.g k) 0

/-- A branch condition of Table 10.10. -/
def braTaken (c : Nat) (x : W64) (lm : BitVec 4) : Bool :=
  let v := x.toInt
  match c with
  | 0 => true
  | 1 => v == 0
  | 2 => v != 0
  | 3 => decide (v < 0)
  | 4 => decide (0 ≤ v)
  | 5 => decide (0 < v)
  | 6 => decide (v ≤ 0)
  | 7 => lm == 0
  | 8 => lm != 0
  | 9 => lm == 15#4
  | _ => false

/-- 4·SignExtend of a displacement in words. -/
def dispOf {n : Nat} (d : BitVec n) : W64 := (d.signExtend 64) <<< 2

/-- BRA (R324): an INV condition falls through. -/
def execBra (c : BitVec 4) (g : GReg) (d : BitVec 18) (s : State) : Out :=
  let reads := decide (1 ≤ c.toNat ∧ c.toNat ≤ 6)
  ctl s (decide (c.toNat ≤ 9) && (reads || g == 0)) (fun _ => true) [] [] (fun _ _ sl =>
    let t := if reads && gInv sl g.toNat then false else braTaken c.toNat (rdG sl g.toNat) sl.lm
    if t then goto (sl.pc + dispOf d) sl else sl)
/-- CALL (R324). -/
def execCall (g : GReg) (d : BitVec 18) (s : State) : Out :=
  ctl s true (fun _ => true) [] [] (fun _ _ sl =>
    goto (sl.pc + dispOf d) (setInv (wrG sl g.toNat (sl.pc + 4)) (.g g.toNat) 0 false))
/-- RET (R325). -/
def execRet (g : GReg) (s : State) : Out :=
  ctl s true (fun _ => true) [] [] (fun _ _ sl => if gInv sl g.toNat then sl else goto (rdG sl g.toNat) sl)
/-- JR (R325). -/
def execJr (g : GReg) (d : BitVec 16) (s : State) : Out :=
  ctl s true (fun _ => true) [] [] (fun _ _ sl =>
    if gInv sl g.toNat then sl else goto (rdG sl g.toNat + dispOf d) sl)

/-- A register form of the slice scalar ALU (R326): INV if a source is INV. -/
def gsReg (d a b : GReg) (f : W64 → W64 → W64) (s : State) : Out :=
  ctl s true (fun _ => true) [] [.g d.toNat] (fun _ _ sl =>
    let inv := gInv sl a.toNat || gInv sl b.toNat
    let sl := wrG sl d.toNat (f (rdG sl a.toNat) (rdG sl b.toNat))
    setInv sl (.g d.toNat) 0 inv)
/-- An immediate form of the slice scalar ALU (R326); `ok` is the shift amount's check. -/
def gsImm (d a : GReg) (ok : Bool) (f : W64 → W64) (s : State) : Out :=
  ctl s ok (fun _ => true) [] [.g d.toNat] (fun _ _ sl =>
    let inv := gInv sl a.toNat
    let sl := wrG sl d.toNat (f (rdG sl a.toNat))
    setInv sl (.g d.toNat) 0 inv)
/-- A signed less-than and the boolean as a word. -/
def sltW (a b : W64) : Bool := decide (a.toInt < b.toInt)
def boolW (b : Bool) : W64 := if b then 1 else 0

/-- GADD (Table 11.2). -/
def execGadd (d a b : GReg) (s : State) : Out := gsReg d a b (fun x y => x + y) s
/-- GSUB (Table 11.2). -/
def execGsub (d a b : GReg) (s : State) : Out := gsReg d a b (fun x y => x - y) s
/-- GMUL (Table 11.2). -/
def execGmul (d a b : GReg) (s : State) : Out := gsReg d a b (fun x y => x * y) s
/-- GAND (Table 11.2). -/
def execGand (d a b : GReg) (s : State) : Out := gsReg d a b (fun x y => x &&& y) s
/-- GOR (Table 11.2). -/
def execGor (d a b : GReg) (s : State) : Out := gsReg d a b (fun x y => x ||| y) s
/-- GXOR (Table 11.2). -/
def execGxor (d a b : GReg) (s : State) : Out := gsReg d a b (fun x y => x ^^^ y) s
/-- GSHL by B[5:0] (Table 11.2). -/
def execGshl (d a b : GReg) (s : State) : Out := gsReg d a b (fun x y => x <<< (y.toNat % 64)) s
/-- GSHR by B[5:0] (Table 11.2). -/
def execGshr (d a b : GReg) (s : State) : Out := gsReg d a b (fun x y => x >>> (y.toNat % 64)) s
/-- GSRA by B[5:0] (Table 11.2). -/
def execGsra (d a b : GReg) (s : State) : Out := gsReg d a b (fun x y => x.sshiftRight (y.toNat % 64)) s
/-- GMIN, signed (Table 11.2). -/
def execGmin (d a b : GReg) (s : State) : Out := gsReg d a b (fun x y => if sltW y x then y else x) s
/-- GMAX, signed (Table 11.2). -/
def execGmax (d a b : GReg) (s : State) : Out := gsReg d a b (fun x y => if sltW x y then y else x) s
/-- GSLT (Table 11.2). -/
def execGslt (d a b : GReg) (s : State) : Out := gsReg d a b (fun x y => boolW (sltW x y)) s
/-- GSLTU (Table 11.2). -/
def execGsltu (d a b : GReg) (s : State) : Out := gsReg d a b (fun x y => boolW (decide (x.toNat < y.toNat))) s
/-- GMOV (Table 11.2). -/
def execGmov (d a : GReg) (s : State) : Out := gsImm d a true (fun x => x) s
/-- GADDI (Table 11.2). -/
def execGaddi (d a : GReg) (i : BitVec 13) (s : State) : Out := gsImm d a true (fun x => x + i.signExtend 64) s
/-- GANDI (Table 11.2). -/
def execGandi (d a : GReg) (i : BitVec 13) (s : State) : Out := gsImm d a true (fun x => x &&& i.signExtend 64) s
/-- GORI (Table 11.2). -/
def execGori (d a : GReg) (i : BitVec 13) (s : State) : Out := gsImm d a true (fun x => x ||| i.signExtend 64) s
/-- GXORI (Table 11.2). -/
def execGxori (d a : GReg) (i : BitVec 13) (s : State) : Out := gsImm d a true (fun x => x ^^^ i.signExtend 64) s
/-- GSHLI: an amount outside 0 to 63 is ILLEGAL (R326). -/
def execGshli (d a : GReg) (i : BitVec 13) (s : State) : Out :=
  gsImm d a (decide (i.toNat < 64)) (fun x => x <<< i.toNat) s
/-- GSHRI (R326). -/
def execGshri (d a : GReg) (i : BitVec 13) (s : State) : Out :=
  gsImm d a (decide (i.toNat < 64)) (fun x => x >>> i.toNat) s
/-- GSRAI (R326). -/
def execGsrai (d a : GReg) (i : BitVec 13) (s : State) : Out :=
  gsImm d a (decide (i.toNat < 64)) (fun x => x.sshiftRight i.toNat) s
/-- GLI (Table 11.2). -/
def execGli (d : GReg) (i : BitVec 13) (s : State) : Out :=
  ctl s true (fun _ => true) [] [.g d.toNat] (fun _ _ sl => setInv (wrG sl d.toNat (i.signExtend 64)) (.g d.toNat) 0 false)

/-- One lane of a vector register read into a g register (R327), by count as a source (R295). -/
def vgetWith (d : GReg) (l : BitVec 2) (v : VReg) (f : W64 → W32 → W64) (s : State) : Out :=
  ctl s true (fun g => decide (v.toNat < g.team.nregs)) [(.v v.toNat, 0)] [.g d.toNat] (fun g _ sl =>
    let c := sl.count + 1
    let inv := isInv sl (.v v.toNat) l.toNat || (g.ahead && isShort sl (.v v.toNat) c)
    let sl := wrG sl d.toNat (f (rdG sl d.toNat) (readV sl v.toNat l.toNat c))
    setInv sl (.g d.toNat) 0 inv)
/-- VGET (R327). -/
def execVget (d : GReg) (l : BitVec 2) (v : VReg) (s : State) : Out :=
  vgetWith d l v (fun _ x => x.setWidth 64) s
/-- VGETH (R327): an INV g stays INV, since its low half is kept. -/
def execVgeth (d : GReg) (l : BitVec 2) (v : VReg) (s : State) : Out :=
  ctl s true (fun g => decide (v.toNat < g.team.nregs)) [(.v v.toNat, 0)] [.g d.toNat] (fun g _ sl =>
    let c := sl.count + 1
    let inv := isInv sl (.v v.toNat) l.toNat || (g.ahead && isShort sl (.v v.toNat) c) || gInv sl d.toNat
    let lo : W32 := (rdG sl d.toNat).setWidth 32
    let sl := wrG sl d.toNat (readV sl v.toNat l.toNat c ++ lo)
    setInv sl (.g d.toNat) 0 inv)

/-- A 20-bit MODE value is legal: no reserved bit, no reserved ETYPE or RND (R291, R329). -/
def modeOk (i : BitVec 20) : Bool :=
  !i.getLsbD 15 && !i.getLsbD 7 && !i.getLsbD 3 && decide ((i.toNat / 256) % 16 < 12) && decide ((i.toNat / 4096) % 8 < 5)
/-- MODE (R329). -/
def execModeSet (i : BitVec 20) (s : State) : Out :=
  ctl s true (fun _ => modeOk i) [] [] (fun _ _ sl => { sl with mode := i.setWidth 64 })
/-- The layout that the mask-saving instructions use (R330). -/
def saveMask (sl : Slice) : W64 := BitVec.ofNat 64 (sl.mode.toNat % 2 ^ 20 * 16 + sl.lm.toNat)
/-- MSET (R330). -/
def execMset (i : BitVec 4) (s : State) : Out :=
  ctl s true (fun _ => true) [] [] (fun _ _ sl => { sl with lm := i })
/-- MSAVE (R330); in Gambit a g that is INV stays so (R332). -/
def execMsave (g : GReg) (s : State) : Out :=
  ctl s true (fun _ => true) [] [.g g.toNat] (fun _ _ sl => wrG sl g.toNat (saveMask sl))
/-- MALL (R330); in Gambit a g that is INV stays so (R332). -/
def execMall (g : GReg) (s : State) : Out :=
  ctl s true (fun _ => true) [] [.g g.toNat] (fun _ _ sl => { wrG sl g.toNat (saveMask sl) with lm := 15#4 })
/-- MREST (R330): the check of R329 on every slice's value comes first; w = 00 is ILLEGAL. -/
def execMrest (g : GReg) (w : BitVec 2) (s : State) : Out :=
  let modeOf := fun (sl : Slice) => BitVec.ofNat 20 ((rdG sl g.toNat).toNat / 16)
  ctl s (w != 0) (fun gg => !w.getLsbD 1 || gg.sl.all (fun p => gInv p.2 g.toNat || modeOk (modeOf p.2))) [] []
    (fun _ _ sl =>
      if gInv sl g.toNat then { sl with lm := 0 }
      else
        let x := rdG sl g.toNat
        { sl with lm := if w.getLsbD 0 then x.setWidth 4 else sl.lm
                  mode := if w.getLsbD 1 then (modeOf sl).setWidth 64 else sl.mode })
/-- The mask P of R331; in Gambit a lane whose predicate is INV or not ready contributes 0 (R332). -/
def predMask (g : Gang) (sl : Slice) (n : Bool) (p : Nat) : BitVec 4 :=
  let c := sl.count + 1
  BitVec.ofNat 4 (((List.range 4).map (fun l =>
    let v := readP sl p l c != n
    let v := if g.ahead then (rdP sl p l != n) && !isInv sl (.p p) l && !isShort sl (.p p) c else v
    if v then 2 ^ l else 0)).foldl (· + ·) 0)
/-- MAND (R331). -/
def execMand (g : GReg) (n : BitVec 1) (p : PReg) (s : State) : Out :=
  ctl s true (fun _ => true) [(.p p.toNat, 0)] [] (fun gg _ sl =>
    { sl with lm := if gInv sl g.toNat then 0 else (rdG sl g.toNat).setWidth 4 &&& predMask gg sl (n == 1) p.toNat })
/-- MOR (R331). -/
def execMor (g : GReg) (n : BitVec 1) (p : PReg) (s : State) : Out :=
  ctl s true (fun _ => true) [(.p p.toNat, 0)] [] (fun gg _ sl =>
    { sl with lm := if gInv sl g.toNat then 0
        else sl.lm ||| ((rdG sl g.toNat).setWidth 4 &&& predMask gg sl (n == 1) p.toNat) })

/-- An instruction that ends Gambit (Table 6.6). Outside Gambit it parks while the gang holds unreplayed operand-log
entries (R244), but for those that `but` leaves out; an illegal one raises ILLEGAL. -/
def endingBut (s : State) (but : OpEntry → Bool) (ok : Gang → Bool) (k : State → Gang → State) : Out :=
  withGang s (fun s g =>
    if g.ahead then endGambit s g.team.tid g.lead 1
    else if !ok g then illegalGang s g
    else if !((gangEntries s g.team g.nums).filter (fun e => !but e)).isEmpty then stall s g .parked
    else k s g)
/-- The same for one that no entry is without hold on. -/
def ending (s : State) (ok : Gang → Bool) (k : State → Gang → State) : Out :=
  withGang s (fun s g =>
    if g.ahead then endGambit s g.team.tid g.lead 1
    else if !ok g then illegalGang s g
    else if !(gangEntries s g.team g.nums).isEmpty then stall s g .parked
    else k s g)

/-! ## REGANG -/

/-- Live slices of home gang k (R189). -/
def liveOf (t : Team) (k : Nat) : List Nat :=
  (t.slices.filter (fun p => p.1 / 8 == k && p.2.st != .exited)).map Prod.fst

/-- The waiting slices of an episode leave as one cohort, per MODE (R189). -/
def regangLeave (t : Team) (ns : List Nat) : Team :=
  let c := minOf ns
  regroup (t.mapSlices ns (fun _ sl => { leave sl with cohort := c })) ns

/-- The episode of home gang k closes when every live slice not yet passed is waiting in it; it is deleted once every
live slice has passed (R189). -/
def regangClose (t : Team) (k : Nat) : Team :=
  match tfind k t.episodes with
  | none => t
  | some e =>
    let live := liveOf t k
    let missing := live.filter (fun n => !e.passed.contains n && !e.waiting.contains n)
    if missing.isEmpty then
      let t := { t with episodes := tdel k t.episodes }
      if e.waiting.isEmpty then t else regangLeave t e.waiting
    else t

/-- The timer of home gang k's episode reaches the limit: the waiting slices leave as one cohort; those still missing are
not passed (R189). -/
def regangExpire (t : Team) (k : Nat) (e : Episode) : Team :=
  let e' := { e with waiting := [], passed := e.passed ++ e.waiting }
  regangClose (regangLeave { t with episodes := tput k e' t.episodes } e.waiting) k

/-- A timer of home gang k that ran out before this cycle expires first; an arrival in the cycle of the expiry wins
(R189). -/
def regangLapse (now : Nat) (t : Team) (k : Nat) : Team :=
  match tfind k t.episodes with
  | none => t
  | some e => if !e.waiting.isEmpty && decide (e.opened + e.limit < now) then regangExpire t k e else t

/-- Slice n arrives at REGANG (R189). -/
def regangArrive (now limit : Nat) (t : Team) (n : Nat) : Team :=
  let k := n / 8
  match t.slice n with
  | none => t
  | some sl =>
    let wait := fun (t : Team) (e : Episode) =>
      let t := { t with episodes := tput k e t.episodes }
      t.mapSlices [n] (fun _ sl => { sl with st := .regang })
    match tfind k t.episodes with
    | none => wait t { pc := sl.pc, opened := now, limit := limit, waiting := [n], passed := [] }
    | some e =>
      if e.pc ≠ sl.pc then t.mapSlices [n] (fun _ sl => advance 1 sl)
      else if e.passed.contains n then
        wait t { pc := sl.pc, opened := now, limit := limit, waiting := e.waiting ++ [n], passed := [] }
      else if e.waiting.isEmpty then wait t { e with opened := now, waiting := [n] }
      else wait t { e with waiting := e.waiting ++ [n] }

/-- REGANG (R189, R333). -/
def execRegang (l : BitVec 20) (s : State) : Out :=
  ending s (fun _ => l != 0) (fun s g =>
    updTeam s g.team.tid (fun t =>
      let t := g.nums.foldl (regangArrive s.clock.cycle l.toNat) (regangLapse s.clock.cycle t g.home)
      let t := regroup t g.nums
      regangClose t g.home))

/-! ## Numbered barriers (R334) -/

/-- The teams of a form. -/
def formTeams (s : State) (fid : Nat) : List Team := s.teams.filter (fun t => t.fid == fid)
/-- Live participants of a form: slices and Prefects (R334). -/
def liveParts (s : State) (fid : Nat) : Nat :=
  ((formTeams s fid).map (fun t =>
    (t.slices.filter (fun p => p.2.st != .exited)).length + (if t.pf.st = .exited then 0 else 1))).foldl (· + ·) 0

/-- Participants leave a barrier in the same cycle (R334). -/
def barLeave (s : State) (l : List (Nat × Nat)) : State :=
  { s with teams := s.teams.map (fun t =>
      let ns := (l.filter (fun p => p.1 == t.tid && p.2 < 64)).map Prod.snd
      let t := if l.contains (t.tid, 64) then { t with pf := { t.pf with st := .issuable, pc := t.pf.pc + 4 } } else t
      if ns.isEmpty then t else regroup (t.mapSlices ns (fun _ sl => leave sl)) (t.slices.map Prod.fst)) }

/-- Barrier n's episode closes when the arrivals reach the number needed (R334). -/
def barCheck (s : State) (fid n : Nat) : State :=
  match findForm s fid with
  | none => s
  | some f =>
    match tfind n f.bars with
    | none => s
    | some e =>
      let need := if e.count = 0 then liveParts s fid else e.count
      if need ≤ e.arrived.length then
        barLeave (updForm s fid (fun f => { f with bars := tdel n f.bars })) e.arrived
      else s

/-- One participant arrives; slice 64 stands for the Prefect. -/
def barArrive (fid n count : Nat) (s : State) (p : Nat × Nat) : State :=
  let s := updForm s fid (fun f =>
    let e := (tfind n f.bars).getD ⟨count, []⟩
    { f with bars := tput n { e with arrived := e.arrived ++ [p] } f.bars })
  let s := if p.2 = 64 then updTeam s p.1 (fun t => { t with pf := { t.pf with st := .barrier } })
    else updSlices s p.1 [p.2] (fun _ sl => { sl with st := .barrier })
  barCheck s fid n

/-- A participant waits in an open episode of barrier n. -/
def barWaits (s : State) (fid n : Nat) (p : Nat × Nat) : Bool :=
  match findForm s fid with
  | none => false
  | some f => match tfind n f.bars with
    | none => false
    | some e => e.arrived.contains p

/-- An arrival with this count field is legal now: the open episode, if any, has the same (R334). -/
def barCountOk (s : State) (fid n count : Nat) : Bool :=
  match findForm s fid with
  | none => true
  | some f => match tfind n f.bars with
    | none => true
    | some e => e.count == count

/-- BAR (R334): slices already waiting in the episode stay in it. -/
def execBar (n : BitVec 4) (c : BitVec 9) (s : State) : Out :=
  ending s (fun _ => decide (c.toNat ≤ 260)) (fun s g =>
    let here := g.nums.filter (fun m => !barWaits s g.team.fid n.toNat (g.team.tid, m))
    if here.isEmpty then s
    else if !barCountOk s g.team.fid n.toNat c.toNat then illegalGang s g
    else
      let s := here.foldl (fun s m => barArrive g.team.fid n.toNat c.toNat s (g.team.tid, m)) s
      updTeam s g.team.tid (fun t => regroup t (t.slices.map Prod.fst)))

/-- The open count-0 episodes of a form judged afresh after an exit (R334). -/
def barsAfterExit (s : State) (fid : Nat) : State :=
  (List.range 16).foldl (fun s n => match findForm s fid with
    | none => s
    | some f => match tfind n f.bars with
      | none => s
      | some e => if e.count = 0 then barCheck s fid n else s) s

/-! ## The decision queue (R192) -/

/-- Entries that every live slice has popped are freed (R192). -/
def dqFree (t : Team) : Team :=
  let pos := (t.slices.filter (fun p => p.2.st != .exited)).map (fun p => p.2.dqPos)
  match pos with
  | [] => { t with dqHead := t.dqHead + t.dq.length, dq := [] }
  | _ => let h := minOf pos; { t with dqHead := max t.dqHead h, dq := t.dq.drop (h - t.dqHead) }

/-- DQPOP (R192, R336): slices with an entry pop it, the others wait; after SEXIT a pop at the tail is ILLEGAL. In Gambit
the entry is read without advancing (Table 6.5). -/
def execDqpop (r : GReg) (s : State) : Out :=
  withGang s (fun s g =>
    let t := g.team
    let entry := fun (sl : Slice) => t.dq[sl.dqPos - t.dqHead]?
    let pop := fun (sl : Slice) => match entry sl with | some x => wrG sl r.toNat x | none => sl
    if g.ahead then
      finish s g 1 none (fun _ sl => setInv (pop sl) (.g r.toNat) 0 (entry sl).isNone)
    else if !(gangEntries s t g.nums).isEmpty then stall s g .parked
    else
      let has := g.sl.filter (fun p => (entry p.2).isSome)
      let not := g.sl.filter (fun p => (entry p.2).isNone)
      let gone := t.pf.st == .exited
      let s := updTeam s t.tid (fun t =>
        let t := t.mapSlices (has.map Prod.fst) (fun _ sl =>
          let w := sl.st == .barrier
          let sl := pop sl
          let sl := if w then leave sl else advance 1 sl
          { sl with dqPos := sl.dqPos + 1 })
        let t := if gone then t else t.mapSlices (not.map Prod.fst) (fun _ sl => { sl with st := .barrier })
        dqFree (regroup t g.nums))
      if gone && !not.isEmpty then illegalGang s { g with sl := not, lead := minOf (not.map Prod.fst) } else s)

/-! ## Waiting, safe points, leaving -/

/-- WAIT n: the count advances by n, and every later instruction finds earlier results ready (R337). -/
def execWait (n : BitVec 16) (s : State) : Out :=
  ctl s true (fun _ => true) [] [] (fun _ _ sl => { sl with count := sl.count + n.toNat - 1, pend := [] })
/-- NOP (R337). -/
def execNop (s : State) : Out := ctl s true (fun _ => true) [] [] (fun _ _ sl => sl)

/-- An entry of a port's sets is a gang's. -/
def GangAge.isGang (e : GangAge) (tid lead : Nat) : Bool := e.tid == tid && e.lead == lead

/-- The order of ties: lower team slot, then lower lowest slice (R230, R231). -/
def tieOf (s : State) (e : GangAge) : Nat := (match findTeam s e.tid with | some t => t.slot | none => 8) * 128 + e.lead

/-- The gang of a list that has been in its set longest (R231). -/
def longestIn (s : State) (l : List GangAge) : Option GangAge := (sortOn GangAge.since (sortOn (tieOf s) l)).head?

/-- A gang moved to its port's pending set, its wait there counted from now (R231). -/
def toPending (s : State) (t : Team) (lead : Nat) : State :=
  updCore s t.core (fun c =>
    let n := portNum t (lead / 8)
    let p := c.port n
    let mine := fun (x : GangAge) => x.isGang t.tid lead
    let e := ((p.active ++ p.pending).find? mine).getD { tid := t.tid, lead, age := 0, since := 0 }
    c.withPort n { p with active := p.active.filter (fun x => !mine x)
                          pending := p.pending.filter (fun x => !mine x) ++ [{ e with since := s.clock.cycle }] })

/-- A gang that yields is the one that a forced entry of its port would choose to leave now: no other gang moves in this
cycle (R238). -/
def yieldMark (s : State) (t : Team) (lead : Nat) : State :=
  let n := portNum t (lead / 8)
  let p := (coreOf s t.core).port n
  let chosen := decide (8 ≤ p.active.length) &&
    (match longestIn s p.active with | some e => e.isGang t.tid lead | none => false)
  if chosen then updCore s t.core (fun c => c.withPort n { c.port n with yielded := s.clock.cycle + 1 }) else s

/-- YIELD (R231, R238, R337). -/
def execYield (s : State) : Out :=
  ending s (fun _ => true) (fun s g =>
    finish (toPending (yieldMark s g.team g.lead) g.team g.lead) g 1 none (fun _ sl => sl))

/-- WTIME (R338): the slice waits in BARRIER until SYS.TIME is at or beyond g. -/
def execWtime (r : GReg) (s : State) : Out :=
  ending s (fun _ => true) (fun s g =>
    let done := fun (sl : Slice) => decide ((rdG sl r.toNat).toNat ≤ s.clock.time.toNat)
    updTeam s g.team.tid (fun t => regroup (t.mapSlices g.nums (fun _ sl =>
      if done sl then (if sl.st = .barrier then leave sl else advance 1 sl) else { sl with st := .barrier })) g.nums))

/-- SAFEPT (R204, R205, R339): a request pending stops the gang past the safe point with n registers live. -/
def execSafept (n : BitVec 8) (s : State) : Out :=
  ending s (fun g => decide (n.toNat ≤ g.team.nregs)) (fun s g =>
    let asked := match findForm s g.team.fid with | some f => f.stopReq.isSome | none => false
    if asked then
      updTeam s g.team.tid (fun t => regroup (t.mapSlices g.nums (fun _ sl =>
        { advance 1 sl with st := .safepoint, live := n.toNat })) g.nums)
    else finish s g 1 none (fun _ sl => sl))

/-- TRAP (R341). -/
def execTrap (_c : BitVec 16) (s : State) : Out :=
  ending s (fun _ => true) (fun s g => raiseGang s g fcTrap 0 0 0 0)
/-- BRK (R341). -/
def execBrk (_c : BitVec 16) (s : State) : Out :=
  ending s (fun _ => true) (fun s g => raiseGang s g fcBrk 0 0 0 0)

/-- ILL: the word 0xFFFF_FFFF stays illegal (R300). A gang or a Prefect that fetches it takes ILLEGAL; in Gambit the
episode ends (R316). -/
def execIll (s : State) : Out :=
  match s.cur with
  | .prefect _ => withPref s (fun p => illegalPref s p)
  | .gang _ _ => withGang s (fun s g => if g.ahead then endGambit s g.team.tid g.lead 5 else illegalGang s g)

end Sys2Proof.Machine
end

