-- ==== Sys2Proof/Machine/Tokens.lean ====
section
/-! DEFINITION. Where a physical address lies: its L2 slice and set (R65) and its HBM stack, channel and offset (R67). The
token buckets of the tenants at the slices (R70, R71). -/

namespace Sys2Proof.Machine

/-! ## L2 placement (R65) -/

/-- Slice 0 to 95 and set 0 to 511 of an address's own bits [37:0]. -/
def l2Slice (a : Nat) : Nat :=
  let x := a % 2 ^ 38
  let f := (x / 2 ^ 7) % 32 ^^^ (x / 2 ^ 12) % 32 ^^^ (x / 2 ^ 17) % 32 ^^^ (x / 2 ^ 22) % 32 ^^^
    (x / 2 ^ 27) % 32 ^^^ (x / 2 ^ 32) % 32 ^^^ (x / 2 ^ 37) % 2
  32 * ((x / 2 ^ 12) % 3) + f
def l2Set (a : Nat) : Nat := (a / 2 ^ 12) % 512
/-- The home die and global home slice of a physical address. -/
def homeDie (pa : Nat) : Nat := (pa / 2 ^ 38) % 2
def homeSlice (pa : Nat) : Nat := 96 * homeDie pa + l2Slice pa

/-! ## HBM mapping (R67) -/

/-- The global stack 0 to 7, the pseudo-channel 0 to 63 and the byte within its 1 GiB of a physical address. -/
def hbmStack (pa : Nat) : Nat := 4 * homeDie pa + ((pa / 2 ^ 12) % 4 ^^^ (pa / 2 ^ 22) % 4)
def hbmChannel (pa : Nat) : Nat := (pa / 2 ^ 14) % 64 ^^^ (pa / 2 ^ 24) % 64
def hbmOffset (pa : Nat) : Nat := (pa / 2 ^ 20) % 2 ^ 18 * 4096 + pa % 4096

/-! ## Token buckets (R70, R71) -/

/-- Tokens in units of 1/21000 of a token; a cycle is 12, 16 or 24 units of 1/21 ns by the clock step (R71, R506). -/
def cycleUnits (step : Nat) : Nat := if step = 0 then 12 else if step = 1 then 16 else 24

/-- TOKENS, BURST and HARD of a tenant as they act (Table 2.7). -/
def tokensOf (s : State) (t : Nat) : Nat := min (bits 15 0 (sysGet s (srTenantL + t))) 1750
def burstOf (s : State) (t : Nat) : Nat :=
  let b := bits 31 16 (sysGet s (srTenantL + t))
  if b = 0 then tokensOf s t else b
def hardOf (s : State) (t : Nat) : Bool := tokensOf s t != 0 && bit 32 (sysGet s (srTenantL + t))

/-- A slice's bucket of a tenant as it was last filled, and now: filled to this moment at the tenant's rate whatever the
clock step, capped (R71). -/
def bucketAt (s : State) (sl t : Nat) : Nat × Nat :=
  (tfind (64 * sl + t) s.buckets).getD (tget (0, 0) (64 * 192 + t) s.buckets)
def bucketNow (s : State) (sl t : Nat) : Nat :=
  let b := bucketAt s sl t
  min (b.1 + tokensOf s t * (s.clock.elapsed - b.2)) (burstOf s t * 21000)

/-- A slice may accept a request of a tenant: a token, or service beyond the tokens (R72). -/
def mayAsk (s : State) (sl t : Nat) : Bool := decide (21000 ≤ bucketNow s sl t) || !hardOf s t
/-- A request of a tenant counted at a slice: one token, if the bucket holds one (R71, R72). -/
def spend (s : State) (sl t : Nat) : State :=
  let b := bucketNow s sl t
  { s with buckets := tput (64 * sl + t) (if 21000 ≤ b then b - 21000 else b, s.clock.elapsed) s.buckets }
/-- Requests of a tenant at the home slices of addresses, one after the other; none where one would have to wait. -/
def askFor (t : Nat) : List Nat → State → Option State
  | [], s => some s
  | a :: r, s => if mayAsk s (homeSlice a) t then askFor t r (spend s (homeSlice a) t) else none
/-- The lines that a range of bytes touches, each by its first address. -/
def linesOf (pa n : Nat) : List Nat :=
  if n = 0 then [] else (List.range ((pa + n - 1) / 128 - pa / 128 + 1)).map (fun i => (pa / 128 + i) * 128)

/-- A tenant's buckets brought to this moment before its allotment changes (R73). -/
def settleTokens (s : State) (t : Nat) : State :=
  let now := s.clock.elapsed
  let l := s.buckets.map (fun p => if p.1 % 64 = t then (p.1, (bucketNow s (p.1 / 64) t, now)) else p)
  { s with buckets := tput (64 * 192 + t) (bucketNow s 192 t, now) l }

end Sys2Proof.Machine
end

