-- ==== Sys2Proof/Machine/Xlate.lean ====
section
/-! DEFINITION. Virtual addresses: canonical form, page table entries, walks, accessed and dirty bits, translation
buffers, far extents, frame zeroing and table synchronisation (R15 to R45, R515). -/

namespace Sys2Proof.Machine

/-- A virtual address is canonical: bits [63:55] equal bit 54 (R15). -/
def canonical (va : W64) : Bool := va == (va.setWidth 55).signExtend 64

/-- Fields of a page table entry (Table 1.1). -/
def pteDev (e : W64) : Nat := bits 61 52 e
def pteAddr (e : W64) : Nat := bits 51 16 e
def pteD (e : W64) : Bool := bit 12 e
def pteA (e : W64) : Bool := bit 11 e
def pteCc (e : W64) : Nat := bits 10 9 e
def pteC (e : W64) : Bool := bit 8 e
def pteFar (e : W64) : Bool := bit 7 e
def pteZp (e : W64) : Bool := bit 6 e
def pteElse (e : W64) : Bool := bit 5 e
def pteX (e : W64) : Bool := bit 4 e
def pteW (e : W64) : Bool := bit 3 e
def pteRd (e : W64) : Bool := bit 2 e
def pteL (e : W64) : Bool := bit 1 e
def pteV (e : W64) : Bool := bit 0 e

/-- What an access needs of its leaf (Table 1.2): a fetch; a read; a write; RD and W for LL, for an ATOM, and for a RED or
SC. -/
inductive Acc where
  | fetch | read | write | reserve | atomic | update
  deriving DecidableEq, Repr

/-- This device's number (R143). -/
def ownDev (s : State) : Nat := bits 9 0 (sysGet s srDevnum)

/-- A device number of a leaf names the issuing device (R24). -/
def isOwnDev (s : State) (d : Nat) : Bool := d == 1023 || d == ownDev s

/-- Size in GiB of a die's carve-out now in force (R74), and its generation (R99). -/
def rdcSize (s : State) (die : Nat) : Nat := if die = 0 then s.rdcSize0 else s.rdcSize1
def rdcGen (s : State) (die : Nat) : Nat := (if die = 0 then s.rdcGen0 else s.rdcGen1).toNat

/-- First address of a die's carve-out; the carve-out ends with the die's range (R23). -/
def carveBase (s : State) (die : Nat) : Nat := (die + 1) * 2 ^ 38 - rdcSize s die * 2 ^ 30

/-- Two byte ranges [a, a + n) and [b, b + m) overlap. -/
def overlaps (a n b m : Nat) : Bool := decide (0 < n) && decide (0 < m) && decide (a < b + m) && decide (b < a + n)

/-- Base and length of a die's twin pool (Table 3.3). -/
def twinPool (s : State) (die : Nat) : Nat × Nat :=
  let v := sysGet s (srTwinPool + 4096 * (die + 1))
  (bits 38 20 v * 2 ^ 20, bits 7 0 v * 2 ^ 20)

/-- A physical range touches a carve-out (R23). -/
def carved (s : State) (pa n : Nat) : Bool :=
  (List.range 2).any (fun d => overlaps pa n (carveBase s d) (rdcSize s d * 2 ^ 30))
/-- A physical range touches a carve-out or a twin pool: nothing mapped or exported reaches it (R18, R23, R88). -/
def reservedFrame (s : State) (pa n : Nat) : Bool :=
  carved s pa n || (List.range 2).any (fun d => overlaps pa n (twinPool s d).1 (twinPool s d).2)

/-- Bytes of a leaf's page by the level it stands at (R16). -/
def pageBytes (level : Nat) : Nat := if level = 2 then 2 ^ 29 else 2 ^ 16

/-- An entry with V = 1 is malformed (R18, R38). -/
def malformed (s : State) (level : Nat) (e : W64) : Bool :=
  decide (bits 63 62 e ≠ 0) || decide (bits 15 13 e ≠ 0) ||
  (pteL e && level == 1) || (!pteL e && level == 3) ||
  (!pteL e && (decide (bits 12 2 e ≠ 0) || decide (pteDev e ≠ 0) || decide (bits 51 39 e ≠ 0))) ||
  (pteL e &&
    ((!pteFar e && (decide (bits 51 39 e ≠ 0) || decide (993 ≤ pteDev e ∧ pteDev e ≤ 1022))) ||
     (pteFar e && decide (pteDev e ≠ 1023)) ||
     (level == 2 && (decide (bits 28 16 e ≠ 0) || pteC e)) ||
     pteCc e == 2 || (pteW e && !pteRd e) || (pteFar e && pteZp e) ||
     (!pteFar e && isOwnDev s (pteDev e) && reservedFrame s (pteAddr e * 2 ^ 16) (pageBytes level))))

/-- A leaf permits an access (Table 1.2). -/
def permits (e : W64) : Acc → Bool
  | .fetch => pteX e
  | .read => pteRd e
  | .write => pteW e
  | .reserve => pteRd e && pteW e
  | .atomic => pteRd e && pteW e
  | .update => pteRd e && pteW e

/-- What a walk of the tables finds. -/
inductive WalkRes where
  /-- A fault: code, cause, level (R28). -/
  | fault (code cause level : Nat)
  /-- A leaf: the entry's physical address, the entry, its level. -/
  | leaf (at_ : Nat) (e : W64) (level : Nat)
  deriving DecidableEq, Repr

/-- The eight bytes of memory at an address as a word. -/
def mem64 (s : State) (a : Nat) : W64 := BitVec.ofNat 64 (natLE (mgetAll s.mem a 8))

/-- Memory with a word stored at an address, as software, walkers and the device's own agents store it at the home slice:
reservations over the sector are cleared (Table 4.4). -/
def clearRes (s : State) (a n : Nat) : State :=
  { s with resvs := s.resvs.filter (fun r => !overlaps a n (32 * r.sector) 32) }
def homeStore (s : State) (a : Nat) (b : List Byte) : State :=
  clearRes { s with mem := msetAll s.mem a b } a b.length

/-- The walk from a table of a level (R16). A pointer to a table inside a carve-out, which no walk reaches (R23), counts as
malformed: DESIGN CHOICE, log entry 103. -/
def walkGo (s : State) (va : W64) : Nat → Nat → Nat → WalkRes
  | 0, level, _ => .fault fcPageAbsent 2 level
  | n + 1, level, table =>
    let idx := bits (54 - 13 * (level - 1)) (42 - 13 * (level - 1)) va
    let a := table + 8 * idx
    let e := mem64 s a
    if !pteV e then
      if pteElse e then .fault fcPageElsewhere 7 level else .fault fcPageAbsent 0 level
    else if malformed s level e then .fault fcPageAbsent 2 level
    else if pteL e then .leaf a e level
    else if carved s (pteAddr e * 2 ^ 16) (2 ^ 16) then .fault fcPageAbsent 2 level
    else walkGo s va n (level + 1) (pteAddr e * 2 ^ 16)

/-- The table entries that a walk reads, by their addresses (R71). -/
def walkPath (s : State) (va : W64) : Nat → Nat → Nat → List Nat
  | 0, _, _ => []
  | n + 1, level, table =>
    let a := table + 8 * bits (54 - 13 * (level - 1)) (42 - 13 * (level - 1)) va
    let e := mem64 s a
    a :: (if pteV e && !malformed s level e && !pteL e && !carved s (pteAddr e * 2 ^ 16) (2 ^ 16) then
      walkPath s va n (level + 1) (pteAddr e * 2 ^ 16) else [])

/-- The loaded binding of an ASID (R515). -/
def bindOf (s : State) (asid : Nat) : Binding := tget {} asid s.binds

/-- The walk of an address under an ASID's loaded binding, canonical form checked first (R27, R515). -/
def walk (s : State) (asid tenant : Nat) (va : W64) : WalkRes :=
  let b := bindOf s asid
  if !canonical va then .fault fcPageAbsent 1 0
  else if !b.valid || b.tenant != tenant then .fault fcPageAbsent 0 0
  else if carved s (b.root * 2 ^ 16) (2 ^ 16) then .fault fcPageAbsent 2 1
  else walkGo s va 3 1 (b.root * 2 ^ 16)
/-- The table reads of that walk. -/
def walkReads (s : State) (asid tenant : Nat) (va : W64) : List Nat :=
  let b := bindOf s asid
  if !canonical va || !b.valid || b.tenant != tenant || carved s (b.root * 2 ^ 16) (2 ^ 16) then []
  else walkPath s va 3 1 (b.root * 2 ^ 16)

/-- The leaf that the contiguous hint lets a translation use: its own where the assertion of R20 holds, and where it does
not the frame and attributes that any one of the group's entries implies for the address. An entry that no buffer could
hold (R25), or that asserts no group, implies none: the own one answers. -/
def hintLeaf (s : State) (at_ : Nat) (e : W64) : W64 × State :=
  let base := at_ / 256 * 256
  let idx := (at_ - base) / 8
  let es := (List.range 32).map (fun i => mem64 s (base + 8 * i))
  let attr := fun (x : W64) => (bits 63 52 x, bits 15 0 x)
  let first := match es with | [] => 0 | x :: _ => pteAddr x
  let good := es.all (fun x => pteC x && pteV x && attr x == attr e) &&
    ((List.range 32).zip es).all (fun p => pteAddr p.2 == first + p.1) && first % 32 == 0
  if good then (e, s)
  else
    let k := Config.cHintPick s.fresh % 32
    let s := { s with fresh := s.fresh + 1 }
    match es[k]? with
    | none => (e, s)
    | some x =>
      let f := withBits 51 16 (pteAddr x / 32 * 32 + idx) x
      if pteV x && pteL x && pteC x && pteA x && !pteZp x && !malformed s 3 x && !malformed s 3 f then (f, s) else (e, s)

/-- A far extent of the tenant holds the far address (R44). -/
def farBacked (s : State) (tenant far n : Nat) : Bool :=
  s.mgt.extents.any (fun p => p.2.tenant == tenant && !p.2.leaving &&
    decide (p.2.base ≤ far) && decide (far + n ≤ p.2.base + p.2.len))

/-- The outcome of translating one address (R27). -/
inductive Tr where
  /-- The leaf and its level. -/
  | ok (e : W64) (level : Nat)
  | fault (code cause level : Nat)
  /-- The frame of the leaf at this address is to be zeroed first; its zero request is posted (R38). -/
  | zero (at_ : Nat)
  /-- A slice does not accept the walk's requests yet (R72). -/
  | wait
  deriving DecidableEq, Repr

/-- The device of a leaf's frame, 1023 for this one (R24), and the zero request under way for a frame, if one is (R38). -/
def frameDev (s : State) (e : W64) : Nat := if isOwnDev s (pteDev e) then 1023 else pteDev e
def zeroing (s : State) (e : W64) (level : Nat) : Option ZeroReq :=
  s.zeros.find? (fun z => z.dev == frameDev s e && overlaps (pteAddr e * 2 ^ 16) (pageBytes level) z.base z.len)

/-- The physical or far address that a leaf gives a virtual address (R16, R42). -/
def leafPa (e : W64) (level : Nat) (va : W64) : Nat :=
  let n := pageBytes level
  pteAddr e * 2 ^ 16 / n * n + va.toNat % n

/-- The checks of R27 after the walk: permission, extent, zeroing, which an access waits for whether or not ZP still stands
(R38). -/
def leafCheck (s : State) (tenant : Nat) (acc : Acc) (va : W64) (at_ : Nat) (e : W64) (level : Nat) : Tr :=
  if !permits e acc then .fault fcPagePerm 4 level
  else if pteFar e && !farBacked s tenant (leafPa e level va) 1 then .fault fcPageAbsent 3 level
  else if pteZp e then .zero at_
  else match (if pteFar e then none else zeroing s e level) with
    | some z => .zero (z.leaves.headD at_)
    | none => .ok e level

/-- A or D, or both, set in a leaf with an atomic update at its home slice (R22), which counts as a request (R71). -/
def setAD (s : State) (tenant at_ : Nat) (e : W64) (d : Bool) : W64 × State :=
  let e' := e ||| (if d then 0x1800#64 else 0x800#64)
  if e' = e then (e, s) else (e', homeStore (spend s (homeSlice at_) tenant) at_ (bytesLE 8 e'.toNat))

/-- An access through a leaf writes it, so that D is set first (R22): LL and an atomic that far and pod memory refuse
(R45, R132) do not. -/
def Acc.writes (s : State) (e : W64) : Acc → Bool
  | .fetch => false
  | .read => false
  | .write => true
  | .reserve => false
  | .atomic => !pteFar e && isOwnDev s (pteDev e)
  | .update => !pteFar e

/-- A zero request for a leaf's frame is posted, or joins the one under way for it (R38). -/
def zeroAsk (s : State) (tenant at_ : Nat) (e : W64) (level : Nat) : State :=
  match zeroing s e level with
  | some z =>
    if z.leaves.contains at_ then s
    else { s with zeros := s.zeros.map (fun x => if x = z then { x with leaves := x.leaves ++ [at_] } else x) }
  | none => { s with zeros := s.zeros ++
      [{ leaves := [at_], dev := frameDev s e, base := pteAddr e * 2 ^ 16, len := pageBytes level, tenant, begun := false }] }

/-- An ordinary walk: the table reads, A set in the leaf that it reaches, the checks, the zero request of a leaf that owes
one, and D for a write (R22, R25, R38, R71). -/
def walkNow (s : State) (asid tenant : Nat) (va : W64) (acc : Acc) : Tr × State :=
  match askFor tenant (walkReads s asid tenant va) s with
  | none => (.wait, s)
  | some s =>
    match walk s asid tenant va with
    | .fault c x l => (.fault c x l, s)
    | .leaf a e level =>
      let (own, s) := setAD s tenant a e false
      let (e, s) := if pteC own && level == 3 then hintLeaf s a own else (own, s)
      match leafCheck s tenant acc va a e level with
      | .ok e level =>
        if acc.writes s e then (.ok (e ||| 0x1000#64) level, (setAD s tenant a own true).2) else (.ok e level, s)
      | .zero z => (.zero z, if pteZp e then zeroAsk s tenant a e level else s)
      | r => (r, s)

/-- A Gambit walk, or a prefetch's: it changes nothing and stops where a walk would fault, at A = 0 and at ZP = 1
(R29, R399). -/
def walkQuiet (s : State) (asid tenant : Nat) (va : W64) (acc : Acc) : Option (W64 × Nat) :=
  match walk s asid tenant va with
  | .fault _ _ _ => none
  | .leaf a e level =>
    match leafCheck s tenant acc va a e level with
    | .ok e level => if pteA e then some (e, level) else none
    | .fault _ _ _ => none
    | .zero _ => none
    | .wait => none

/-! ## Translation buffers (R25) -/

/-- The buffer entry that a walk's leaf makes. -/
def tlbEntry (s : State) (asid tenant : Nat) (va : W64) (e : W64) (level : Nat) : TlbEntry :=
  { asid, gen := (bindOf s asid).gen, size := if level = 2 then 1 else 0, page := bits 54 16 va, leaf := e,
    ptGen := (tsysGet s tenant srPtGen).toNat }

/-- A buffer entry translates an address under the issuer's binding (R25). -/
def tlbHits (s : State) (asid : Nat) (va : W64) (t : TlbEntry) : Bool :=
  t.asid == asid && t.gen == (bindOf s asid).gen &&
  (if t.size = 1 then t.page / 2 ^ 13 == bits 54 29 va else t.page == bits 54 16 va)

/-- A buffer of n entries with one more, the oldest leaving. -/
def tlbPut (n : Nat) (t : TlbEntry) (l : List TlbEntry) : List TlbEntry :=
  let l := l.filter (fun x => x != t)
  (if l.length < n then l else l.drop (l.length + 1 - n)) ++ [t]

/-- The core's buffer, then the cluster's (R25). -/
def tlbFind (s : State) (core asid : Nat) (va : W64) : Option TlbEntry :=
  match (coreOf s core).tlb.find? (tlbHits s asid va) with
  | some t => some t
  | none => (clusterOf s (clusterOfCore core)).tlb.find? (tlbHits s asid va)

/-- Both buffers filled by a walk (R25). -/
def tlbFill (s : State) (core asid tenant : Nat) (va : W64) (e : W64) (level : Nat) : State :=
  let t := tlbEntry s asid tenant va e level
  let s := updCore s core (fun c => { c with tlb := tlbPut 256 t c.tlb })
  updCluster s (clusterOfCore core) (fun c => { c with tlb := tlbPut 2048 t c.tlb })

/-- A translation that a buffer holds, checked for the access; a write through an entry with D = 0 walks again to set D
(R22). None is a miss. No entry owes zeroing (R25). -/
def tlbTry (s : State) (core asid tenant : Nat) (va : W64) (acc : Acc) : Option Tr :=
  match tlbFind s core asid va with
  | none => none
  | some t =>
    let level := if t.size = 1 then 2 else 3
    if acc.writes s t.leaf && permits t.leaf acc && !pteD t.leaf then none
    else some (leafCheck s tenant acc va 0 t.leaf level)

/-- Translation by the buffers or, on a miss, by a walk made at once: instruction fetches and Prefect accesses (R25). -/
def xlateNow (s : State) (core asid tenant : Nat) (va : W64) (acc : Acc) (fresh : Bool) : Tr × State :=
  if !canonical va then (.fault fcPageAbsent 1 0, s)
  else
    match (if fresh then none else tlbTry s core asid tenant va acc) with
    | some r => (r, s)
    | none =>
      match walkNow s asid tenant va acc with
      | (.ok e level, s) => (.ok e level, tlbFill s core asid tenant va e level)
      | (r, s) => (r, s)

/-- The cache class of an access by its leaf and MODE (R21). -/
def classOf (e : W64) (modeClass : Nat) : Nat :=
  if pteCc e = 3 then 3 else if pteCc e = 1 ∧ modeClass ≠ 3 then 1 else modeClass

/-! ## Synchronisation -/

/-- A page of an ASID is named by a SYS.PT_SYNC write (R33). `asids` says which ASIDs. -/
def pageNamed (page nlog p : Nat) : Bool := nlog == 31 || decide ((p + 2 ^ 39 - page) % 2 ^ 39 < 2 ^ nlog)

/-- A buffer entry holds a translation of a named page. -/
def tlbNamed (page nlog : Nat) (t : TlbEntry) : Bool :=
  if t.size = 1 then nlog == 31 || pageNamed page nlog (t.page / 2 ^ 13 * 2 ^ 13) ||
      decide ((page + 2 ^ 39 - t.page / 2 ^ 13 * 2 ^ 13) % 2 ^ 39 < 2 ^ 13)
  else pageNamed page nlog t.page

/-- Address, value and level of the leaf entry that maps a page, valid or not. -/
def leafSlot (s : State) (asid : Nat) (va : W64) : Option (Nat × W64 × Nat) :=
  let b := bindOf s asid
  if !b.valid then none
  else
    let a1 := b.root * 2 ^ 16 + 8 * bits 54 42 va
    let e1 := mem64 s a1
    if !pteV e1 || pteL e1 then none
    else
      let a2 := pteAddr e1 * 2 ^ 16 + 8 * bits 41 29 va
      let e2 := mem64 s a2
      if pteL e2 || !pteV e2 then some (a2, e2, 2)
      else
        let a3 := pteAddr e2 * 2 ^ 16 + 8 * bits 28 16 va
        some (a3, mem64 s a3, 3)
/-- The page of an address as its leaf maps it, by the number of its first 64 KiB: what flips as one (R41). -/
def pageOf (s : State) (asid : Nat) (va : W64) : Nat :=
  match leafSlot s asid va with
  | some (_, _, 2) => bits 54 16 va / 2 ^ 13 * 2 ^ 13
  | _ => bits 54 16 va

/-- Entries that a test selects removed from every buffer of the package, and from the matrix engines'
reservations (R34, R452). -/
def tlbPurge (s : State) (f : TlbEntry → Bool) : State :=
  let keep := fun t => !f t
  { s with
    cores := (s.cores.map (fun p => (p.1, { p.2 with tlb := p.2.tlb.filter keep }))).filter (fun p => p.2 != {})
    clusters := (s.clusters.map (fun p =>
      (p.1, { p.2 with
        tlb := p.2.tlb.filter keep
        ahead := p.2.ahead.filter keep
        mx := { p.2.mx with resv := p.2.mx.resv.map (fun r => { r with pas := r.pas.filter keep }) } }))).filter (fun p => p.2 != {}) }

/-- ASIDs that SYS.PT_SYNC names: one, or all of the tenant (R33). -/
def asidNamed (s : State) (tenant asid x : Nat) : Bool :=
  if asid = 0xFFFF then (bindOf s x).valid && (bindOf s x).tenant == tenant else x == asid

/-- Steps 2 and 3 of R34: the table generation advances and the named translations leave every buffer; walks in flight
start again from the root when they are made. A wrap removes all of the tenant's entries. -/
def syncTables (s : State) (tenant asid page nlog : Nat) : State :=
  let g := (tsysGet s tenant srPtGen).toNat
  let g' := (g + 1) % 2 ^ 32
  let s := tsysSet s tenant srPtGen (BitVec.ofNat 64 g')
  tlbPurge s (fun t => if g' = 0 then asidNamed s tenant 0xFFFF t.asid || asidNamed s tenant asid t.asid
    else asidNamed s tenant asid t.asid && tlbNamed page nlog t)

end Sys2Proof.Machine
end

