-- ==== Sys2Proof/Machine/Cache.lean ====
section
/-! DEFINITION. The cluster cache, the L2 slices, the remote-data cache, token buckets, reservations, poison, and what a
home slice does with a request (R46 to R76, R92 to R101, R132 to R134, R253). -/

namespace Sys2Proof.Machine

/-! ## Cluster SRAM banks -/

/-- Bank modes of a segment of a cluster (Table 2.1): SYS.SRAM_DEFAULT's reset value until placement, idling or SRAMCFG
changes them (R48). -/
def segModes (s : State) (cl g : Nat) : W64 := ((clusterOf s cl).modes[g]?).getD (sysReset srSramDefault)
/-- Mode of bank j of a segment (R47): 0 CACHE, 1 SPAD, 2 FIFO, 3 OFF. -/
def bankMode (m : W64) (j : Nat) : Nat := bits (2 * j + 1) (2 * j) m
/-- Banks of a segment in a mode, in ascending number. -/
def banksIn (m : W64) (mode : Nat) : List Nat := (List.range 32).filter (fun j => bankMode m j == mode)
/-- A segment's configuration is valid (R49). -/
def segValid (m : W64) : Bool := [0, 1, 2, 4, 8, 16, 32].contains (banksIn m 1).length
/-- The banks of a cluster's cache, each one way, in ascending number (R61). -/
def ccBanks (s : State) (cl : Nat) : List Nat :=
  (List.range 4).flatMap (fun g => (banksIn (segModes s cl g) 0).map (fun j => 32 * g + j))
/-- Ways of a cluster's cache (R61). -/
def ccWays (s : State) (cl : Nat) : Nat :=
  ((List.range 4).map (fun g => (banksIn (segModes s cl g) 0).length)).foldl (· + ·) 0

/-- Key of an SRAM word: 2048·bank + row. -/
def sramKey (bank row : Nat) : Nat := 2048 * bank + row

/-- Bank, row and byte of offset q of segment g's scratchpad space; none beyond it (R53). -/
def spadAt (m : W64) (g q : Nat) : Option (Nat × Nat) :=
  let bs := banksIn m 1
  if bs.length = 0 then none
  else if 8192 * bs.length ≤ q then none
  else
    let w := q / 4
    match bs[w % bs.length]? with
    | none => none
    | some b => some (sramKey (32 * g + b) (w / bs.length), q % 4)

/-- One byte of a segment's scratchpad; beyond the space it reads 0. -/
def spadGet (c : Cluster) (m : W64) (g q : Nat) : Byte :=
  match spadAt m g q with
  | none => 0
  | some (k, i) => (tget 0#32 k c.sram).extractLsb' (8 * i) 8
def spadSet (c : Cluster) (m : W64) (g q : Nat) (b : Byte) : Cluster :=
  match spadAt m g q with
  | none => c
  | some (k, i) =>
    let w := tget 0#32 k c.sram
    let w' : W32 := (w &&& ~~~(0xFF#32 <<< (8 * i))) ||| ((b.setWidth 32) <<< (8 * i))
    { c with sram := tset 0#32 k w' c.sram }

/-- The core, segment and segment offset of a form offset; none outside the form's scratchpad (R54, R55). -/
def winAt (f : Form) (o : Nat) : Option (Nat × Nat) :=
  if f.winLen = 0 then none
  else
    let j := o / f.winLen
    match f.cores[j]?, f.bases[j]? with
    | some c, some b => some (c, b * 4096 + o % f.winLen)
    | _, _ => none

/-- A form offset range of n bytes lies in the form's scratchpad (R55). -/
def winOk (f : Form) (o : Int) (n : Nat) : Bool :=
  decide (0 ≤ o) && decide (o.toNat + n ≤ f.cores.length * f.winLen)

/-- The n bytes at a form offset. -/
def spadRead (s : State) (f : Form) (o n : Nat) : List Byte :=
  (List.range n).map (fun i => match winAt f (o + i) with
    | none => 0
    | some (c, q) => spadGet (clusterOf s (clusterOfCore c)) (segModes s (clusterOfCore c) (c % 4)) (c % 4) q)
/-- Bytes written at a form offset, in ascending order. -/
def spadWrite (s : State) (f : Form) (o : Nat) : List Byte → State
  | [] => s
  | b :: r =>
    let s' := match winAt f o with
      | none => s
      | some (c, q) => updCluster s (clusterOfCore c)
          (fun cl => spadSet cl (segModes s (clusterOfCore c) (c % 4)) (c % 4) q b)
    spadWrite s' f (o + 1) r

/-! ## L2 sets (R65) -/

/-- Key of a set in State.l2. -/
def setKey (sl a : Nat) : Nat := 512 * sl + l2Set a

/-- The lines of the set that an address maps to at a slice, most recently used first. -/
def l2SetOf (s : State) (sl a : Nat) : List L2Line := tget [] (setKey sl a) s.l2

/-- Source node numbers of the mesh (R77). -/
def clusterNode (c : Nat) : Nat := 16 * ((c % 64) / 8 + 1) + 2 * (c % 8) + 1

/-- The reserved ways of the range register that retains an access's line, if one does (R69). -/
def retained (s : State) (tenant pa : Nat) : Option Nat :=
  let hit := (List.range 32).find? (fun i =>
    let a := sysGet s (srRangeA + i)
    let b := sysGet s (srRangeB + i)
    bit 0 a && bits 15 10 a == tenant && decide (bits 38 16 a ≤ pa / 2 ^ 16) && decide (pa / 2 ^ 16 ≤ bits 38 16 b))
  match hit with
  | none => none
  | some i =>
    let h := (pa / 2 ^ 7) % 16 ^^^ (pa / 2 ^ 11) % 16 ^^^ (pa / 2 ^ 15) % 16 ^^^ (pa / 2 ^ 19) % 16 ^^^
      (pa / 2 ^ 23) % 16 ^^^ (pa / 2 ^ 27) % 16 ^^^ (pa / 2 ^ 31) % 16 ^^^ (pa / 2 ^ 35) % 8
    if h < bits 9 5 (sysGet s (srRangeA + i)) then some (bits 63 40 (sysGet s (srRangeB + i))) else none

/-- Every way that an enabled range register reserves (R69). -/
def reservedWays (s : State) : Nat :=
  ((List.range 32).map (fun i =>
    if bit 0 (sysGet s (srRangeA + i)) then bits 63 40 (sysGet s (srRangeB + i)) else 0)).foldl (· ||| ·) 0

/-- The candidate ways of an allocation (Table 2.4). -/
def candidates (s : State) (tenant pa cls : Nat) (far : Bool) : List Nat :=
  let mask :=
    if cls = 3 then 0
    else match (if far then none else retained s tenant pa) with
      | some w => w
      | none => bits 63 40 (sysGet s (srTenantL + tenant)) &&& (0xFFFFFF ^^^ (reservedWays s &&& 0xFFFFFF))
  (List.range 24).filter (fun i => (mask / 2 ^ i) % 2 == 1)

/-- A lookup in a set: the line, if one matches line number, far flag and, for a non-home line, the generation (R65). -/
def l2Find (s : State) (sl a : Nat) (far home : Bool) (gen : Nat) : Option L2Line :=
  (l2SetOf s sl a).find? (fun x => x.line == a / 128 && x.far == far && (home || x.gen == gen))

/-- An access acts as STREAM in a set's order: its class is, and no range register makes it RETAINED (R66, R69). -/
def streams (s : State) (tenant a cls : Nat) (far : Bool) : Bool := cls == 1 && (far || (retained s tenant a).isNone)

/-- A line after a hit, as `x` has it: most recently used in its set, except for STREAM (R66). -/
def l2Hit (s : State) (sl a : Nat) (x : L2Line) (tenant cls : Nat) : State :=
  let ls := l2SetOf s sl a
  let out := if streams s tenant a cls x.far then ls.map (fun y => if y.way = x.way then x else y)
    else x :: ls.filter (fun y => y.way != x.way)
  { s with l2 := tset [] (setKey sl a) out s.l2 }

/-- A line allocated, or the access served without allocating (R66). An older copy of it leaves, so that no later access
finds a value older than the one now served (R120). -/
def l2Fill (s : State) (sl a : Nat) (x : L2Line) (tenant cls : Nat) : State :=
  let ls := (l2SetOf s sl a).filter (fun (y : L2Line) => !(y.line == x.line && y.far == x.far))
  let s := { s with l2 := tset [] (setKey sl a) ls s.l2 }
  let cand := candidates s tenant a cls x.far
  let free := cand.find? (fun w => !(ls.any (fun (y : L2Line) => y.way == w)))
  let way := match free with
    | some w => some w
    | none => (ls.reverse.find? (fun (y : L2Line) => cand.contains y.way)).map L2Line.way
  match way with
  | none => s
  | some w =>
    let rest := ls.filter (fun (y : L2Line) => y.way != w)
    let x := { x with way := w }
    let out := if streams s tenant a cls x.far then rest ++ [x] else x :: rest
    { s with l2 := tset [] (setKey sl a) out s.l2 }

/-- The sectors of the line at `line` that a range of bytes touches. -/
def sectorsOf (line pa n : Nat) : BitVec 4 :=
  BitVec.ofNat 4 (((List.range 4).filter (fun i => overlaps pa n (line + 32 * i) 32)).map (fun i => 2 ^ i)).sum

/-- The home slice's own line for one line of its die: tags, order and dirty sectors; the data is memory's (R64). A fill
makes all four sectors valid, as if the whole line were fetched: DESIGN CHOICE, log entry 104. -/
def l2HomeLine (s : State) (line : Nat) (sec : BitVec 4) (tenant cls : Nat) (write : Bool) : State :=
  let sl := homeSlice line
  match l2Find s sl line false true 0 with
  | some x => l2Hit s sl line { x with dirty := if write then x.dirty ||| sec else x.dirty } tenant cls
  | none =>
    if cls = 3 then s
    else l2Fill s sl line ⟨0, line / 128, false, 0, 15#4, if write then sec else 0, 0⟩ tenant cls

/-- The home slices' lines after an access to a range of bytes. -/
def l2Home (s : State) (pa n tenant cls : Nat) (write : Bool) : State :=
  (linesOf pa n).foldl (fun s a => l2HomeLine s a (sectorsOf a pa n) tenant cls write) s

/-! ## Lines of 128 bytes as plain data -/

/-- The bytes of a line. -/
def lineBytes (d : BitVec 1024) : List Byte := (List.range 128).map (fun i => d.extractLsb' (8 * i) 8)
def lineOf (b : List Byte) : BitVec 1024 := BitVec.ofNat 1024 (natLE b)
/-- A line with bytes written at an offset. -/
def lineSet (d : BitVec 1024) (o : Nat) (b : List Byte) : BitVec 1024 := lineOf (spliceAt (lineBytes d) o b)
/-- Bits o to o + n − 1 of a byte mask. -/
def byteMask (o n : Nat) : BitVec 128 := BitVec.ofNat 128 ((2 ^ n - 1) * 2 ^ o)

/-! ## The remote-data cache (R74 to R76, R99) -/

/-- Key, first address and tag of a remote line's slot on a die, from PA[37:7]; none when the cache is disabled (R75). -/
def rdcSlot (s : State) (die pa : Nat) : Option (Nat × Nat × Nat) :=
  let n := rdcSize s die * 2 ^ 30 / 128
  let line := pa % 2 ^ 38 / 128
  if n = 0 then none
  else
    let i := line % n
    some (2 ^ 40 * die + i, carveBase s die + 128 * i, line / n)
/-- The address of the line that a listed slot holds: one of the other die. -/
def rdcLine (s : State) (p : Nat × RdcSlot) : Nat :=
  let die := p.1 / 2 ^ 40
  2 ^ 38 * (1 - die) + (p.2.tag * (rdcSize s die * 2 ^ 30 / 128) + p.1 % 2 ^ 40) * 128

/-- The remote-data cache of a die holds a line under the current generation. -/
def rdcHit (s : State) (die pa : Nat) : Option Nat :=
  match rdcSlot s die pa with
  | none => none
  | some (k, base, tag) =>
    match tfind k s.rdc with
    | none => none
    | some x => if x.tag = tag ∧ x.gen = rdcGen s die then some base else none

/-- A remote line's fill: the issuing die's slice and its remote-data cache, under the generation of the request
(R76, R99). -/
def remoteFill (s : State) (die pa tenant cls gen : Nat) : State :=
  let line := mgetAll s.mem (pa / 128 * 128) 128
  let s := l2Fill s (96 * die + l2Slice pa) pa ⟨0, pa / 128, false, gen, 15#4, 0, lineOf line⟩ tenant cls
  match rdcSlot s die pa with
  | none => s
  | some (k, base, tag) => { s with mem := msetAll s.mem base line, rdc := tput k ⟨tag, gen⟩ s.rdc }

/-- Bytes at an address, cut at the lines' ends. -/
def byLines (pa : Nat) (b : List Byte) : List (Nat × List Byte) :=
  (linesOf pa b.length).map (fun a =>
    let lo := max a pa
    (lo, (b.drop (lo - pa)).take (a + 128 - lo)))

/-- Copies of one line on a die updated by a store, without allocating. -/
def remoteLine (s : State) (die pa : Nat) (b : List Byte) : State :=
  let sl := 96 * die + l2Slice pa
  let s := { s with l2 := tset [] (setKey sl pa) ((l2SetOf s sl pa).map (fun x =>
    if x.line = pa / 128 ∧ x.far = false then { x with data := lineSet x.data (pa % 128) b } else x)) s.l2 }
  match rdcHit s die pa with
  | none => s
  | some base => { s with mem := msetAll s.mem (base + pa % 128) b }
/-- Copies on a die of every line that a store writes updated, without allocating (R76). -/
def remoteUpdate (s : State) (die pa : Nat) (b : List Byte) : State :=
  (byLines pa b).foldl (fun s p => remoteLine s die p.1 p.2) s
/-- The lines of the far tier that a house's slices hold updated by a store: they are write-through (R45, R64). -/
def farUpdate (s : State) (die addr : Nat) (b : List Byte) : State :=
  (byLines addr b).foldl (fun s p =>
    let k := setKey (96 * die + l2Slice p.1) p.1
    { s with l2 := tset [] k ((l2SetOf s (96 * die + l2Slice p.1) p.1).map (fun x =>
      if x.line = p.1 / 128 ∧ x.far then { x with data := lineSet x.data (p.1 % 128) p.2 } else x)) s.l2 }) s

/-- Copies of a line on the other die dropped (R132). -/
def remoteDrop (s : State) (pa : Nat) : State :=
  let die := 1 - homeDie pa
  let sl := 96 * die + l2Slice pa
  let s := { s with l2 := tset [] (setKey sl pa) ((l2SetOf s sl pa).filter (fun x =>
    !(x.line == pa / 128 && !x.far))) s.l2 }
  match rdcSlot s die pa with
  | none => s
  | some (k, _, tag) => match tfind k s.rdc with
    | none => s
    | some x => if x.tag = tag then { s with rdc := tdel k s.rdc } else s

/-- A line of a slice is home there: its die is the slice's, and it is no far line. -/
def isHomeLine (sl : Nat) (x : L2Line) : Bool := !x.far && homeDie (x.line * 128) == sl / 96

/-- A bump of a die's generation (R99, R100); a wrap first invalidates every slot and every remote and far line. -/
def bumpDie (s : State) (die : Nat) : State :=
  let g := (rdcGen s die + 1) % 2 ^ 16
  let s := if g = 0 then
      { s with rdc := s.rdc.filter (fun p => p.1 / 2 ^ 40 != die)
               l2 := (s.l2.map (fun p => (p.1, p.2.filter (fun x =>
                 p.1 / 512 / 96 != die || isHomeLine (p.1 / 512) x)))).filter (fun p => !p.2.isEmpty) }
    else s
  if die = 0 then { s with rdcGen0 := BitVec.ofNat 16 g } else { s with rdcGen1 := BitVec.ofNat 16 g }

/-! ## Requests (R71, R72) -/

/-- A request joins the queue at a slice's input. -/
def postReq (s : State) (r : L2Req) : State :=
  { s with l2q := s.l2q ++ [{ r with id := s.nextId, at_ := s.clock.cycle }], nextId := s.nextId + 1 }

/-- A request with the common fields filled in. -/
def mkReq (sl pa tenant cluster cls : Nat) (kind : L2Kind) (ref : Ref) (gen : Nat) (owner : Nat × Nat) : L2Req :=
  { id := 0, sl, pa, far := false, kind, tenant, mgmt := false, at_ := 0, node := clusterNode cluster,
    die := cluster / 64, cluster, cls, checked := true, ref, gen, owner }

/-- Order of age: cycle of arrival, then tenant, then source node (R72). -/
def older (a b : L2Req) : Bool :=
  decide (a.at_ < b.at_) || (a.at_ == b.at_ && (decide (a.tenant < b.tenant) ||
    (a.tenant == b.tenant && decide (a.node < b.node))))
/-- The oldest of a list; the first of equals. -/
def oldest : List L2Req → Option L2Req
  | [] => none
  | x :: r => match oldest r with
    | none => some x
    | some y => if older y x then some y else some x

/-- A cluster-cache write-back that overlaps an engine lock waits at the slice (R95). -/
def lockedCells (s : State) (cells : List Host.Cell) : Bool :=
  cells.any (fun c => s.ck.any (fun e => e.mode == 3 && decide (e.base ≤ c.1) && decide (c.1 ≤ e.limit)))
def reqWaits (s : State) (r : L2Req) : Bool :=
  match r.kind with
  | .writeBack cells => lockedCells s cells
  | .read _ => false | .write _ => false | .atom _ _ _ _ => false | .ll _ _ => false | .sc _ _ => false | .pref => false

/-- The request that a slice accepts next, and whether a token is deducted (R72). -/
def nextReq (s : State) (sl : Nat) : Option (L2Req × Bool) :=
  let q := s.l2q.filter (fun r => r.sl == sl && !reqWaits s r)
  let free := decide (tget 0 sl s.lastMgmt = 0) || decide (tget 0 sl s.lastMgmt + 15 ≤ s.clock.cycle)
  match (if free then oldest (q.filter (fun r => r.mgmt)) else none) with
  | some r => some (r, false)
  | none =>
    match oldest (q.filter (fun r => !r.mgmt && decide (21000 ≤ bucketNow s sl r.tenant))) with
    | some r => some (r, true)
    | none =>
      match oldest (q.filter (fun r => !r.mgmt && !hardOf s r.tenant)) with
      | some r => some (r, false)
      | none => none

/-- A request leaves the queue and its cost is taken: the token of step 2, none under step 3, where the bucket holds less
than one (R71, R72). -/
def acceptReq (s : State) (r : L2Req) : State :=
  let s := { s with l2q := s.l2q.filter (fun x => x.id != r.id) }
  if r.mgmt then { s with lastMgmt := tset 0 r.sl (s.clock.cycle + 1) s.lastMgmt } else spend s r.sl r.tenant

/-! ## What a home slice performs -/

/-- A sector of a range is poisoned (R253). -/
def poisoned (s : State) (pa n : Nat) : Bool := s.poison.any (fun p => overlaps pa n (32 * p) 32)
/-- A store that writes all 32 bytes of a sector clears its mark (R253). -/
def unpoison (s : State) (pa n : Nat) : State :=
  { s with poison := s.poison.filter (fun p => !(decide (pa ≤ 32 * p) && decide (32 * p + 32 ≤ pa + n))) }

/-- An engine lock of a kind overlaps a range of bytes. -/
def lockOver (s : State) (pa n : Nat) (kind : CkEntry → Bool) : Bool :=
  s.ck.any (fun e => e.mode == 3 && kind e && overlaps pa n e.base (e.limit + 1 - e.base))

/-- A byte races with an engine operation that transfers its page without a lock: one that the operation writes, or one
that it reads and the access writes (R93, R141). -/
def racing (s : State) (write : Bool) (a : Nat) : Bool :=
  s.ops.any (fun o => o.phase == 1 && o.unlocked.any (fun u => (u.2.2 || write) && decide (u.1 ≤ a) && decide (a < u.1 + u.2.1)))
/-- Bytes of a thread's access with those that race so undefined (R12, R141): a race is known while the operation is in
transfer, log entry 105. -/
def raceFree (s : State) (write : Bool) (pa : Nat) (b : List Byte) : List Byte × State :=
  if (List.range b.length).any (fun i => racing s write (pa + i)) then
    ((List.range b.length).map (fun i => if racing s write (pa + i) then Config.freeByte (s.fresh + i) else b.getD i 0),
     { s with fresh := s.fresh + b.length })
  else (b, s)

/-- A thread's access is stopped by an engine lock: DST for any access, SRC for one that writes (R94). -/
def lockBlocks (s : State) (pa n : Nat) (write : Bool) : Bool := lockOver s pa n (fun e => e.dst || write)

/-- Bytes stored at the home slice: memory, reservations, poison, and the tags (R64, R253, Table 4.4). -/
def performStore (s : State) (pa : Nat) (b : List Byte) (tenant cls : Nat) : State :=
  let s := homeStore s pa b
  let s := unpoison s pa b.length
  l2Home s pa b.length tenant cls true

/-- BF16 element addition of ATOM and RED (Table 13.3). -/
def bfadd (x y : Nat) : Nat := addEng bf16 (unpack bf16 x) (unpack bf16 y)

/-- The new value of an atomic of n bytes from the old X and the operand (Table 13.3). For cas the operand is the compare
value, then the new one: none where it does not write. -/
def atomNew (op n x b : Nat) : Option Nat :=
  let w := 8 * n
  let b0 := b % 2 ^ w
  match op with
  | 0 => some ((x + b0) % 2 ^ w)
  | 1 => some (if sval w b0 < sval w x then b0 else x)
  | 2 => some (if sval w x < sval w b0 then b0 else x)
  | 3 => some (min x b0)
  | 4 => some (max x b0)
  | 5 => some (x &&& b0)
  | 6 => some (x ||| b0)
  | 7 => some (x ^^^ b0)
  | 8 => some b0
  | 9 => if x = b0 then some (b / 2 ^ w % 2 ^ w) else none
  | 10 => some (addEng fp32 (unpack fp32 x) (unpack fp32 b0))
  | _ => some (ofElems 16 [bfadd (elem 16 0 x) (elem 16 0 b0), bfadd (elem 16 1 x) (elem 16 1 b0)])

/-- A lane's reservation is set at its home slice: its earlier one goes, and a full slice displaces the oldest (R133). -/
def setRes (s : State) (sl key pa : Nat) : State :=
  let l := s.resvs.filter (fun r => r.key != key)
  let here := l.filter (fun r => r.sl == sl)
  let l := if here.length < 256 then l else match here with | [] => l | x :: _ => l.erase x
  { s with resvs := l ++ [⟨sl, key, pa / 32, s.clock.cycle⟩] }

/-- A lane's reservation is valid for a location: it covers the sector and is younger than 4096 cycles (R134). -/
def resOk (s : State) (key pa : Nat) : Bool :=
  s.resvs.any (fun r => r.key == key && r.sector == pa / 32 && decide (s.clock.cycle - r.at_ < 4096))

/-- The answer to a request. -/
inductive Reply where
  /-- Bytes returned, or an acknowledgement with none. -/
  | data (b : List Byte)
  | fault (code cause : Nat)
  /-- The request goes on to another slice or to the host adapter. -/
  | moved
  deriving DecidableEq, Repr

/-- What the home slice of a local address does with a request: locks, poison, then the access (R94, R132, R253,
R386), each under its cache class (R63). A read answers with the whole 32-byte sector; an uncached one for the other die
drops that die's copies (R120). A PREF whose sector overlaps a lock is dropped (R95). -/
def performHome (s : State) (r : L2Req) : Reply × State :=
  match r.kind with
  | .read n =>
    if r.checked && lockBlocks s r.pa n false then (.fault fcRangeLock 0, s)
    else if poisoned s r.pa n then (.fault fcPoison 0, l2Home s r.pa n r.tenant r.cls false)
    else
      let s := l2Home s r.pa n r.tenant r.cls false
      let (d, s) := raceFree s false (r.pa / 32 * 32) (mgetAll s.mem (r.pa / 32 * 32) 32)
      let s := if r.die = homeDie r.pa then s
        else if r.cls = 3 then remoteDrop s r.pa
        else remoteFill s r.die r.pa r.tenant r.cls r.gen
      (.data d, s)
  | .write cells =>
    match cells with
    | [] => (.data [], s)
    | (a, _) :: _ =>
      let b := cells.map Prod.snd
      if r.checked && lockBlocks s a b.length true then (.fault fcRangeLock 0, s)
      else
        let (b, s) := raceFree s true a b
        let s := performStore s a b r.tenant r.cls
        (.data [], if r.die ≠ homeDie a then remoteUpdate s r.die a b else s)
  | .writeBack cells =>
    (.data [], cells.foldl (fun s c =>
      let (b, s) := raceFree s true c.1 [c.2]
      let s := performStore s c.1 b r.tenant r.cls
      if r.die ≠ homeDie c.1 then remoteUpdate s r.die c.1 b else s) s)
  | .atom op n b ret =>
    if r.checked && lockBlocks s r.pa n true then (.fault fcRangeLock 0, s)
    else if poisoned s r.pa n then (.fault fcPoison 0, s)
    else
      let s := remoteDrop s r.pa
      let (x, s) := raceFree s true r.pa (mgetAll s.mem r.pa n)
      let s := match atomNew op n (natLE x) (natLE b) with
        | some v => performStore s r.pa (bytesLE n v) r.tenant r.cls
        | none => l2Home s r.pa n r.tenant r.cls false
      (.data (if ret then x else []), s)
  | .ll key n =>
    if r.checked && lockBlocks s r.pa n false then (.fault fcRangeLock 0, s)
    else if poisoned s r.pa n then (.fault fcPoison 0, s)
    else
      let s := remoteDrop s r.pa
      let s := l2Home s r.pa n r.tenant r.cls false
      let (x, s) := raceFree s false r.pa (mgetAll s.mem r.pa n)
      (.data x, setRes s (homeSlice r.pa) key r.pa)
  | .sc key b =>
    if r.checked && lockBlocks s r.pa b.length true then (.fault fcRangeLock 0, s)
    else if poisoned s r.pa b.length && decide (b.length < 32) then (.fault fcPoison 0, s)
    else
      let s := remoteDrop s r.pa
      if resOk s key r.pa then
        let (b, s) := raceFree s true r.pa b
        (.data [0#8], performStore s r.pa b r.tenant r.cls)
      else (.data [1#8], { s with resvs := s.resvs.filter (fun x => x.key != key) })
  | .pref =>
    if lockOver s (r.pa / 32 * 32) 32 (fun _ => true) then (.data [], s)
    else
      let s := l2Home s r.pa 1 r.tenant r.cls false
      (.data (mgetAll s.mem (r.pa / 32 * 32) 32),
        if r.die ≠ homeDie r.pa ∧ r.cls ≠ 3 then remoteFill s r.die r.pa r.tenant r.cls r.gen else s)

/-- Bytes that a read or prefetch asks for. -/
def readLen : L2Kind → Option Nat
  | .read n => some n
  | .pref => some 32
  | .write _ => none | .writeBack _ => none | .atom _ _ _ _ => none | .ll _ _ => none | .sc _ _ => none

/-- A request to the host adapter for far memory (R44, R45). -/
def farAsk (s : State) (r : L2Req) : State :=
  let f : FarReq := match r.kind with
    | .write cells => { id := s.nextId, addr := r.pa, tenant := r.tenant, n := cells.length, wr := some (cells.map Prod.snd), ref := r.ref, cls := r.cls, die := r.die, owner := r.owner, gen := r.gen }
    | k => { id := s.nextId, addr := if r.cls = 3 then r.pa else r.pa / 128 * 128, tenant := r.tenant, n := if r.cls = 3 then (readLen k).getD 0 else 128, wr := none, ref := r.ref, cls := r.cls, die := r.die, owner := r.owner, gen := r.gen }
  { s with fars := s.fars ++ [f], nextId := s.nextId + 1 }

/-- A slice performs the request it has accepted: at home; as a copy of another die's line or a far line; or passes it on
(R45, R76). -/
def perform (s : State) (r : L2Req) : Reply × State :=
  if r.far then
    match readLen r.kind with
    | none =>
      let b := match r.kind with | .write cells => cells.map Prod.snd | _ => []
      (.moved, farAsk (farUpdate s r.die r.pa b) r)
    | some _ =>
      match (if r.cls = 3 then none else l2Find s r.sl r.pa true false (rdcGen s r.die)) with
      | some x => (.data ((lineBytes x.data).drop (r.pa % 128 / 32 * 32) |>.take 32), l2Hit s r.sl r.pa x r.tenant r.cls)
      | none => (.moved, farAsk s r)
  else if r.sl = homeSlice r.pa then performHome s r
  else
    match readLen r.kind with
    | none => (.moved, postReq s { r with sl := homeSlice r.pa })
    | some _ =>
      match l2Find s r.sl r.pa false false (rdcGen s r.die) with
      | some x => (.data ((lineBytes x.data).drop (r.pa % 128 / 32 * 32) |>.take 32), l2Hit s r.sl r.pa x r.tenant r.cls)
      | none =>
        match rdcHit s r.die r.pa with
        | some base => (.data (mgetAll s.mem (base + r.pa % 128 / 32 * 32) 32), s)
        | none => (.moved, postReq s { r with sl := homeSlice r.pa })

/-! ## The cluster cache (R61, R62) -/

def ccFind (s : State) (cl ten pa : Nat) : Option CcLine :=
  (clusterOf s cl).cc.find? (fun x => x.line == pa / 128 && x.tenant == ten)
def ccPut (s : State) (cl : Nat) (x : CcLine) : State :=
  updCluster s cl (fun c =>
    { c with cc := c.cc.filter (fun y => !(y.line == x.line && y.tenant == x.tenant)) ++ [x] })
def ccDrop (s : State) (cl ten line : Nat) : State :=
  updCluster s cl (fun c => { c with cc := c.cc.filter (fun y => !(y.line == line && y.tenant == ten)) })

/-- The dirty bytes of a line, by physical address. -/
def ccDirty (x : CcLine) : List Host.Cell :=
  ((List.range 128).filter (fun i => x.dirty.getLsbD i)).map (fun i => (x.line * 128 + i, x.data.extractLsb' (8 * i) 8))

/-- A line's dirty bytes written back: a request at its home slice (R62, R95). -/
def ccWriteBack (s : State) (cl : Nat) (x : CcLine) : State :=
  if x.dirty = 0 then s
  else postReq s { mkReq (homeSlice (x.line * 128)) (x.line * 128) x.tenant cl 0 (.writeBack (ccDirty x)) .none 0 (0, 0)
    with checked := false }

/-- A line written back and dropped (R62, R63, R132). -/
def ccFlush (s : State) (cl ten pa : Nat) : State :=
  match ccFind s cl ten pa with
  | none => s
  | some x => ccDrop (ccWriteBack s cl x) cl ten x.line

/-- A line present in the cache; an absent one is allocated in the lowest way whose set has no line (DESIGN CHOICE, log
entry 122), else in place of a victim that the spec leaves open (R61). -/
def ccEnsure (s : State) (cl ten pa : Nat) : CcLine × State :=
  match ccFind s cl ten pa with
  | some x => (x, s)
  | none =>
    let set := (clusterOf s cl).cc.filter (fun y => y.line % 64 == (pa / 128) % 64)
    let new : CcLine := ⟨0, pa / 128, ten, 0, 0, 0⟩
    match (ccBanks s cl).find? (fun b => !(set.any (fun y => y.way == b))) with
    | some b => ({ new with way := b }, ccPut s cl { new with way := b })
    | none =>
      let v := set[Config.ccVictim s.fresh % set.length]?
      let s := { s with fresh := s.fresh + 1 }
      match v with
      | none => (new, ccPut s cl new)
      | some x =>
        let new := { new with way := x.way }
        (new, ccPut (ccDrop (ccWriteBack s cl x) cl x.tenant x.line) cl new)

/-- Bytes stored into the cache: dirty, allocated without a fetch (R62). -/
def ccStore (s : State) (cl ten pa : Nat) (b : List Byte) : State :=
  let (x, s) := ccEnsure s cl ten pa
  ccPut s cl { x with data := lineSet x.data (pa % 128) b, dirty := x.dirty ||| byteMask (pa % 128) b.length }

/-- The bytes of a load that the cache can give: its sector is valid, or every byte is dirty (R62). -/
def ccLoad (s : State) (cl ten pa n : Nat) : Option (List Byte) :=
  match ccFind s cl ten pa with
  | none => none
  | some x =>
    let o := pa % 128
    if x.valid.getLsbD (o / 32) || (x.dirty &&& byteMask o n) == byteMask o n then
      some ((lineBytes x.data).drop o |>.take n)
    else none

/-- A fetched sector enters a line; dirty bytes stay over fetched ones (R62). -/
def ccMerge (x : CcLine) (pa : Nat) (b : List Byte) : CcLine :=
  let o := pa / 32 * 32 % 128
  let merged := (List.range b.length).map (fun i =>
    if x.dirty.getLsbD (o + i) then x.data.extractLsb' (8 * (o + i)) 8 else b.getD i 0)
  { x with data := lineSet x.data o merged, valid := x.valid ||| BitVec.ofNat 4 (2 ^ (o / 32)) }

/-- A sector as its line will stand once the cluster's own write-backs that wait at the slices are performed: what a fetch
that they overtake would miss (R113, R119). -/
def overBacks (s : State) (cl ten pa : Nat) (b : List Byte) : List Byte :=
  let o := pa / 32 * 32
  s.l2q.foldl (fun b r =>
    match r.kind with
    | .writeBack cells =>
      if r.cluster = cl ∧ r.tenant = ten ∧ r.ref = .none then
        cells.foldl (fun b c => if o ≤ c.1 ∧ c.1 < o + b.length then b.set (c.1 - o) c.2 else b) b
      else b
    | .read _ => b | .write _ => b | .atom _ _ _ _ => b | .ll _ _ => b | .sc _ _ => b | .pref => b) b

/-- A tenant's dirty bytes of a cluster's cache written back, and its lines dropped when asked (R62). -/
def ccClean (s : State) (cl ten : Nat) (drop : Bool) : State :=
  let mine := (clusterOf s cl).cc.filter (fun x => x.tenant == ten)
  mine.foldl (fun s x =>
    let s := ccWriteBack s cl x
    if drop then ccDrop s cl ten x.line else ccPut s cl { x with dirty := 0 }) s

end Sys2Proof.Machine
end

