-- ==== Sys2Proof/Machine/Pod.lean ====
section
/-! DEFINITION. The pod seen from one device: topology and routes (R143 to R149), the switches' queues (R150, R151, R170,
R171), request tags (R156), the target's admission check (R154), group tables and ordered stores (R162 to R165). -/

namespace Sys2Proof.Machine

/-- Order q of the plane and the number of positions (R143, R144). -/
def podQ (s : State) : Nat := bits 20 16 (sysGet s srDevnum)
def podSize (s : State) : Nat := podQ s * podQ s + podQ s + 1

/-- The point of a device number (R144). -/
def podPoint (q n : Nat) : Nat × Nat × Nat :=
  if n = 0 then (0, 0, 1) else if n ≤ q then (0, 1, n - 1) else (1, (n - q - 1) / q, (n - q - 1) % q)
/-- Two devices' points are orthogonal: neighbours, or one absolute point (R144). -/
def orthogonal (q a b : Nat) : Bool :=
  let x := podPoint q a
  let y := podPoint q b
  (x.1 * y.1 + x.2.1 * y.2.1 + x.2.2 * y.2.2) % q == 0
/-- The points orthogonal to a device's own, in ascending device number (R145). -/
def podRanks (q d : Nat) : List Nat := (List.range (q * q + q + 1)).filter (orthogonal q d)
/-- The device that a port leads to; none for an unconnected port (R145). -/
def portTo (s : State) (k : Nat) : Option Nat :=
  let q := podQ s
  let d := ownDev s
  if 1023 ≤ d ∨ q = 0 then none
  else
    let r := if q = 31 then some k
      else if k % 16 < (q + 1) * (16 / (q + 1)) then some (k % 16 % (q + 1)) else none
    match r with
    | none => none
    | some r => match (podRanks q d)[r]? with
      | none => none
      | some n => if n = d then none else some n

/-- Port k is up (Table 5.8); an unconnected one is down (R145). -/
def portUp (s : State) (k : Nat) : Bool := bit k (sysGet s srFabPorts) && (portTo s k).isSome
/-- The router entry in force for a target (R147). -/
def routeOf (s : State) (t : Nat) : W64 := tget 0 t s.fab.routes
def routeV (e : W64) : Bool := bit 7 e
def routeMin (e : W64) : Nat := bits 4 0 e
def routeMask (e : W64) : Nat := bits 63 32 e
/-- The ports that are up and reach the first hop of the minimal route, in ascending number (R148). -/
def minPorts (s : State) (t : Nat) : List Nat :=
  let e := routeOf s t
  if !routeV e then []
  else match portTo s (routeMin e) with
    | none => []
    | some n => (List.range 32).filter (fun k => portUp s k && portTo s k == some n)
/-- The minimal port for a line (R148). -/
def minPort (s : State) (t pa : Nat) : Option Nat :=
  let l := minPorts s t
  if l.isEmpty then none else l[(pa / 128) % 8 % l.length]?
/-- The port drawn from the set bits of NMASK, up or not (R149); none where NMASK is 0. -/
def drawPort (s : State) (t : Nat) : Option Nat :=
  let e := routeOf s t
  let l := if routeV e then (List.range 32).filter (fun k => (routeMask e / 2 ^ k) % 2 == 1) else []
  l[Config.nonMinPort s.fresh % l.length]?
/-- The ports of NMASK that are up (R160). -/
def maskPorts (s : State) (t : Nat) : List Nat :=
  let e := routeOf s t
  if routeV e then (List.range 32).filter (fun k => portUp s k && (routeMask e / 2 ^ k) % 2 == 1) else []

/-! ## The switches (R150, R151, R170, R171)

Ports 0 to 15 are of die 0's switch, ports 16 to 31 of die 1's. What the rules give a switch is kept by port: queues, channels,
hints and links; its four reduction units are `redUnit`'s. -/

/-- Channel of a packet (Table 5.3): 0 FREQ, an export rejection among it, 1 FRSP, 2 FCOL, 3 FCTL, 4 FRCV. -/
def channelOf (p : Packet) : Nat :=
  if p.via ≠ 0 then 4
  else if p.code = 8 ∨ p.code = 19 then 3
  else if p.code = 18 then (if p.status = 1 ∧ [2, 3, 4, 16, 17].contains p.op then 0 else 1)
  else if [0, 1, 5, 6, 7].contains p.code then 2 else 0

/-- Beats of a packet: 64 bytes each, with one of header. -/
def pktBeats (p : Packet) : Nat := 1 + (p.data.length + 63) / 64
/-- Beats that a port's FREQ queue holds. -/
def portBeats (s : State) (k : Nat) : Nat :=
  ((s.fab.outbox.filter (fun p => p.port == k && channelOf p == 0)).map pktBeats).sum
/-- The stall hints of the ports after a change of their queues (R170). -/
def setHints (s : State) : State :=
  let q := bits 31 20 (sysGet s srFabCtl)
  let on := fun k => decide (q < portBeats s k) || (s.fab.hints.contains k && decide (q / 2 ≤ portBeats s k))
  if s.fab.outbox.isEmpty && s.fab.hints.isEmpty then s
  else { s with fab := { s.fab with hints := (List.range 32).filter on } }

/-- The packet at the head of a channel's queue at a port. -/
def headOf (l : List Packet) (k c : Nat) : Option Packet := l.find? (fun p => p.port == k && channelOf p == c)
/-- The packets that have come to the head of their queues since the last change are marked with the time (R171). -/
def markHeads (now : Nat) : List Packet → List (Nat × Nat) → List Packet
  | [], _ => []
  | p :: r, seen =>
    let q := (p.port, channelOf p)
    (if p.headAt.isNone && !seen.contains q then { p with headAt := some now } else p) :: markHeads now r (q :: seen)
/-- The switches' queues changed. -/
def setQueues (s : State) (l : List Packet) : State :=
  setHints { s with fab := { s.fab with outbox := markHeads (nsOf s) l [] } }
/-- A packet joins the queue of its port. -/
def outPkt (s : State) (p : Packet) : State := setQueues s (s.fab.outbox ++ [p])
/-- A packet joins the queue of its minimal port, where there is one (R148). -/
def sendMin (s : State) (p : Packet) : State :=
  match minPort s p.dst p.pa with
  | none => s
  | some k => outPkt s { p with port := k }

/-- The tags that a packet in flight holds at this device: a request's own, those of every member of an ordered store, and
that of a copy that this device makes as the root of its own store (R156, R165). -/
def pktKeys (s : State) (p : Packet) : List Nat :=
  if p.src ≠ ownDev s ∨ p.code = 18 ∨ p.code = 19 ∨ p.code = 8 then []
  else if p.code = 1 then p.tags.map (fun t => 4096 * p.die + t.2.1)
  else if p.origin = 0 ∨ p.origin = ownDev s + 1 then [4096 * p.die + p.tag]
  else []
/-- A packet leaves the switch on a link: its request's timer starts (R156). -/
def departs (s : State) (p : Packet) : State :=
  let s := setQueues { s with fab := { s.fab with sent := s.fab.sent ++ [p] } } (s.fab.outbox.erase p)
  (pktKeys s p).foldl (fun s key =>
    let t : ReqTag := tget {} key s.fab.tags
    if t.use.isNone then s
    else { s with fab := { s.fab with tags := tset {} key { t with sentAt := some (nsOf s) } s.fab.tags } }) s

/-- Shares of FREQ, FRSP and FCOL in a round (R151). -/
def linkShare (c : Nat) : Nat := if c = 2 then 2 else 4
/-- The weighted round robin's choice among the channels that have a beat: the channel and the beats of its share already
used (R151). -/
def roundPick (ready : Nat → Bool) : Nat → Nat → Nat → Option (Nat × Nat)
  | 0, _, _ => none
  | k + 1, c, used =>
    if ready c && decide (used < linkShare c) then some (c, used) else roundPick ready k ((c + 1) % 3) 0
/-- The channel that an output sends its next beat of: FRCV first, FCTL at most every 16th cycle, then the round robin
(R151). -/
def linkPick (s : State) (k : Nat) : Option (Nat × LinkSt) :=
  let x : LinkSt := tget {} k s.fab.links
  let ready := fun c => (headOf s.fab.outbox k c).isSome
  if ready 4 then some (4, x)
  else if ready 3 && (x.ctlAt == 0 || decide (x.ctlAt + 15 ≤ s.clock.cycle)) then some (3, { x with ctlAt := s.clock.cycle + 1 })
  else match roundPick ready 4 x.cur x.used with
    | none => none
    | some (c, u) => some (c, { x with cur := c, used := u + 1 })
/-- An output sends up to n beats; a packet leaves with its last one. -/
def linkRun (k : Nat) : Nat → State → State
  | 0, s => s
  | n + 1, s =>
    match linkPick s k with
    | none => s
    | some (c, x) =>
      match headOf s.fab.outbox k c with
      | none => s
      | some p =>
        let b := tget 0 c x.beats + 1
        let last := decide (pktBeats p ≤ b)
        let s := { s with fab := { s.fab with links := tset {} k { x with beats := tset 0 c (if last then 0 else b) x.beats } s.fab.links } }
        linkRun k n (if last then departs s p else s)
/-- The outputs send for some cycles, a beat each a cycle, as far as the neighbours have room for them, which the spec leaves
to them; a port that retrains holds its traffic (R150, R151, R160). -/
def fabricRun (s : State) (dt : Nat) : State :=
  if dt = 0 || s.fab.outbox.isEmpty then s
  else ((List.range 32).filter (fun k => s.fab.outbox.any (fun p => p.port == k) && portUp s k && !s.fab.retraining.contains k)).foldl
    (fun s k => linkRun k (min dt (Config.linkRoom s.fresh)) { s with fresh := s.fresh + 1 }) s

/-! ## Requests and their tags -/

/-- Requests that a non-minimal route carried, counted in units of 4096 (R175). -/
def countNonmin (s : State) : State :=
  let n := s.fab.nonmin + 1
  if n = 4096 then fabCount { s with fab := { s.fab with nonmin := 0 } } 12
  else { s with fab := { s.fab with nonmin := n } }

/-- A request that may take a non-minimal route: a plain read or write, RED, LL or SC (R149). -/
def plainCode (c : Nat) : Bool := [2, 3, 4, 16, 17].contains c
/-- The port of an earlier unacknowledged request of this device to a line (R149). -/
def lineRoute (s : State) (t pa : Nat) : Option Nat :=
  (s.fab.tags.find? (fun x => x.2.use.isSome && x.2.dev == t && x.2.pkt.pa / 128 == pa / 128 &&
    plainCode x.2.pkt.code && portUp s x.2.pkt.port)).map (fun x => x.2.pkt.port)
/-- The port of a request to a line, and whether it is drawn: that of an earlier unacknowledged request to the line; a drawn
one where every condition of R149 holds; else the minimal one. A packet that is no such request goes minimally. -/
def choosePort (s : State) (t pa : Nat) (plain : Bool) : Option (Nat × Bool) :=
  match (if plain then lineRoute s t pa else none) with
  | some k => some (k, false)
  | none =>
    match minPort s t pa with
    | none => none
    | some k =>
      let c := sysGet s srFabCtl
      let adapt := bits 19 8 c
      if plain && bit 0 c && decide (adapt ≤ portBeats s k) then
        match drawPort s t with
        | some j => if portUp s j && decide (portBeats s j < adapt / 2) then some (j, true) else some (k, true)
        | none => some (k, false)
      else some (k, false)

/-- The lowest free tag of a die's pool (R156): which free one a request takes is the model's choice, DESIGN CHOICE, log
entry 112. -/
def freeTag (s : State) (die : Nat) : Option Nat :=
  (List.range 4096).find? (fun t => (tget {} (4096 * die + t) s.fab.tags).use.isNone)

/-- What became of a request to the pod. -/
inductive SendRes where
  | sent (s : State)
  /-- No free tag: the request waits at the issuer (R156). -/
  | wait
  | unreachable
  deriving DecidableEq, Repr

/-- A tag taken for a request: its limit is that of this moment (R174). -/
def putTag (s : State) (key : Nat) (use : TagUse) (dev gid : Nat) (p : Packet) : State :=
  let old : ReqTag := tget {} key s.fab.tags
  let tag : ReqTag :=
    { gen := old.gen, id := s.nextId, use := some use, dev, timeout := max 1 (bits 63 48 (sysGet s srFabCtl)) * 1000, gid, pkt := p }
  { s with fab := { s.fab with tags := tset {} key tag s.fab.tags }, nextId := s.nextId + 1 }

/-- A request is tagged and sent (R152, R156). -/
def podSend (s : State) (die dev : Nat) (p : Packet) (use : TagUse) (gid : Nat) : SendRes :=
  match choosePort s dev p.pa (plainCode p.code) with
  | none => .unreachable
  | some (port, drawn) =>
    match freeTag s die with
    | none => .wait
    | some t =>
      let key := 4096 * die + t
      let gen := (tget ({} : ReqTag) key s.fab.tags).gen
      let p := { p with src := ownDev s, dst := dev, die, tag := t, gen, port }
      let s := putTag s key use dev gid p
      let s := if drawn then { s with fresh := s.fresh + 1 } else s
      .sent (outPkt (if (minPorts s dev).contains port then s else countNonmin s) p)

/-- Copies of this device that a member has not performed yet (R164). -/
def podWindow (s : State) (dev : Nat) : Nat :=
  ((s.fab.tags.filter (fun t => t.2.use.isSome && t.2.dev == dev && t.2.pkt.code ≤ 1)).map (fun t => t.2.pkt.seq)).eraseDups.length +
  (s.fab.relays.filter (fun p => p.dst == dev)).length

/-- A tag taken for each member of an ordered store: ranks with tags and generations, none where the pool runs out. -/
def takeTags (die dev gid : Nat) (p : Packet) : List (Nat × TagUse) → State → Option (List (Nat × Nat × Nat) × State)
  | [], s => some ([], s)
  | (rank, use) :: r, s =>
    match freeTag s die with
    | none => none
    | some t =>
      let key := 4096 * die + t
      let gen := (tget ({} : ReqTag) key s.fab.tags).gen
      match takeTags die dev gid p r (putTag s key use dev gid { p with rank, tag := t, gen }) with
      | none => none
      | some (l, s) => some ((rank, t, gen) :: l, s)

/-- An ordered multicast store sent to its root, one packet for all the members it is to reach (R156, R165); `line` is the
address of the root's own copy, which chooses the port (R148). -/
def mcoSend (s : State) (die root line : Nat) (p : Packet) (uses : List (Nat × TagUse)) (gid : Nat) : SendRes :=
  match minPort s root line with
  | none => .unreachable
  | some port =>
    if 64 ≤ podWindow s root then .wait
    else
      let n := tget 0 root s.fab.seqTo
      let p := { p with src := ownDev s, dst := root, die, port, seq := n, code := 1 }
      match takeTags die root gid p uses s with
      | none => .wait
      | some (l, s) =>
        .sent (outPkt { s with fab := { s.fab with seqTo := tset 0 root (n + 1) s.fab.seqTo } } { p with tags := l })

/-- A tag becomes free; its generation advances when its request was given up (R156). -/
def freeTagAt (s : State) (key : Nat) (late : Bool) : State :=
  let old : ReqTag := tget {} key s.fab.tags
  let new : ReqTag := { gen := if late then (old.gen + 1) % 16 else old.gen }
  { s with fab := { s.fab with tags := tset {} key new s.fab.tags } }

/-! ## Copies that a root makes (R165) -/

/-- Copies for a member sent in their order while fewer than 64 are not performed (R164). -/
def relayPump : Nat → State → Nat → State
  | 0, s, _ => s
  | k + 1, s, dev =>
    match s.fab.relayQ.find? (fun p => p.dst == dev) with
    | none => s
    | some p =>
      if 64 ≤ podWindow s dev then s
      else
        let n := tget 0 dev s.fab.seqTo
        let q := { p with seq := n, port := (minPort s dev p.pa).getD p.port }
        relayPump k (outPkt { s with fab := { s.fab with
          relayQ := s.fab.relayQ.erase p, relays := s.fab.relays ++ [q], seqTo := tset 0 dev (n + 1) s.fab.seqTo } } q) dev

/-- The pod domain of a tenant (Table 5.4). -/
def domainOf (s : State) (ten : Nat) : Nat := bits 15 0 (tsysGet s ten srPodDomain)

/-! ## The target's side -/

/-- What an admitted request needs of its export range (R154). -/
inductive Need where
  | rd | w | all
  deriving DecidableEq, Repr

/-- The tenant under which this device performs a request to a frame, or none where it rejects it (R154). -/
def admission (s : State) (domain pa : Nat) (need : Need) : Option Nat :=
  let hit := (List.range 64).find? (fun i =>
    let a := sysGet s (srExportA + i)
    let b := sysGet s (srExportB + i)
    bit 0 a && domain != 0 && bits 63 48 b == domain && decide (bits 38 16 a ≤ pa / 2 ^ 16) &&
      decide (pa / 2 ^ 16 ≤ bits 38 16 b))
  match hit with
  | none => none
  | some i =>
    let a := sysGet s (srExportA + i)
    let ok := match need with
      | .rd => bit 1 a
      | .w => bit 2 a
      | .all => bit 1 a && bit 2 a && bit 3 a
    if ok && !reservedFrame s pa 1 then some (bits 15 10 a) else none

/-- The response to a packet, by the minimal route of the line that it answers for (R148). -/
def respond (s : State) (p : Packet) (status : Nat) (data : List Byte) : State :=
  sendMin s { src := ownDev s, dst := p.src, die := p.die, tag := p.tag, gen := p.gen, status, data, rank := p.rank,
              origin := p.origin, group := p.group, seq := p.seq, code := 18, op := p.code, pa := p.pa, n := data.length }

/-! ## Groups (R162, R163) -/

/-- A group as a multicast or collective names it: ordered, root, window length, members. -/
structure Group where
  ordered : Bool
  root : Nat
  len : Nat
  members : List (Nat × Nat)
  deriving DecidableEq, Repr

/-- The group table entry and member list, where every check of R163 but that of the offset holds. -/
def groupOf (s : State) (ten g : Nat) : Option Group :=
  let base := bits 38 16 (sysGet s srMcastBase) * 2 ^ 16 + 32 * g
  let e := mgetAll s.mem base 32
  let flags := natAt e 0 2
  let count := natAt e 4 2
  let mlist := natAt e 16 8
  if g ≥ 1024 ∨ flags % 2 = 0 ∨ flags / 4 % 64 ≠ ten ∨ flags / 256 ≠ 0 ∨ natAt e 6 2 ≠ 0 ∨ natAt e 24 8 ≠ 0 ∨
      count = 0 ∨ 993 < count ∨ mlist % 16 ≠ 0 then none
  else
    let rec' := fun i => mgetAll s.mem (mlist + 16 * i) 16
    let ms := (List.range count).map (fun i => (natAt (rec' i) 0 2, natAt (rec' i) 8 8))
    let zero := (List.range count).all (fun i => natAt (rec' i) 2 6 == 0)
    let root := natAt e 2 2
    if !zero || ms.any (fun m => decide (podSize s ≤ m.1)) || !(ms.any (fun m => m.1 == root)) then none
    else some ⟨flags / 2 % 2 == 1, root, natAt e 8 8, ms⟩

/-- An ordered store performed at its root (R165): the root's own copy now, by `own`, which gives its status; the others
queued in the root's sequence; `answer` takes the status of a member that is settled. The copies carry the issuing device as
their origin. -/
def rootServe (g : Group) (p : Packet) (own : State → Nat → Nat × State) (answer : State → Nat × Nat × Nat → Nat → State)
    (s : State) : State :=
  p.tags.foldl (fun s t =>
    let m := g.members.getD t.1 (0, 0)
    let pa := m.2 + p.pa
    if m.1 = ownDev s then
      let (st, s) := own s pa
      answer s t st
    else if (minPort s m.1 pa).isNone then answer s t 3
    else
      let q : Packet := { p with code := 0, src := ownDev s, dst := m.1, tag := t.2.1, gen := t.2.2, rank := t.1, pa,
                                 origin := p.src + 1, tags := [], via := 0, input := 33, headAt := none, blocked := false }
      relayPump 64 { s with fab := { s.fab with relayQ := s.fab.relayQ ++ [q] } } m.1) s

/-- The lane's code and cause from its members' statuses: those of the lowest rank not DONE (R166). -/
def mstatFault (l : List Nat) : Option (Nat × Nat) :=
  match l.find? (fun x => x != 0) with
  | none => none
  | some 1 => some (fcPagePerm, 5)
  | some 2 => some (fcFabricTimeout, 0)
  | some _ => some (fcFabricTimeout, 1)

end Sys2Proof.Machine
end

