-- ==== Sys2Proof/Machine/MemCore.lean ====
section
/-! DEFINITION. A memory operation in flight, lane by lane: translation, the checks of R386, the race detector, requests
to the caches, the L2, the pod and the far tier, their answers, and completion (R385 to R402, R243 to R252). -/

namespace Sys2Proof.Machine

/-- What a memory instruction does in each lane. -/
inductive MKind where
  /-- n bytes, sign-extended or not when fewer than four. -/
  | load (n : Nat) (sgn : Bool)
  | store (n : Nat)
  | lds (n : Nat) (sgn : Bool)
  | sts (n : Nat)
  /-- Rows of four elements of w bits (R396). -/
  | ldt (w : Nat)
  | unpk
  | atom (op n : Nat) (ret : Bool)
  | ll (n : Nat)
  | sc (n : Nat)
  | sttr
  | stm (n : Nat)
  deriving DecidableEq, Repr

/-- Bytes and sign of size 11 under an ETYPE (Table 13.2); none is ILLEGAL. -/
def elAccess (etype : Nat) : Option (Nat × Bool) :=
  match etype with
  | 0 => some (4, false)
  | 1 => some (2, false)
  | 2 => some (2, false)
  | 3 => some (1, false)
  | 4 => some (1, false)
  | 6 => some (1, true)
  | 7 => some (1, false)
  | 8 => some (2, true)
  | 9 => some (4, false)
  | 10 => some (4, false)
  | 11 => some (8, false)
  | _ => none
/-- Bytes and sign of a size code (Table 13.2). -/
def sizeAccess (size etype : Nat) : Option (Nat × Bool) :=
  match size with
  | 0 => some (4, false)
  | 1 => some (8, false)
  | 2 => some (16, false)
  | _ => elAccess etype
/-- Element width of LDT (R396). -/
def ldtWidth (etype : Nat) : Option Nat :=
  match etype with
  | 0 => some 32 | 1 => some 16 | 2 => some 16 | 3 => some 8 | 4 => some 8 | 6 => some 8 | 7 => some 8 | 8 => some 16
  | 9 => some 32 | 10 => some 32 | _ => none

/-- What an instruction of majors 0x2A to 0x2F, or a Prefect access (R347), does under a MODE; none where MODE makes it ILLEGAL, or it is no lane
access. -/
def kindOf (i : Instr) (m : W64) : Option MKind :=
  let e := modeEtype m
  match i with
  | .ld _ _ _ s _ => (sizeAccess s.toNat e).map (fun p => .load p.1 p.2)
  | .st _ _ _ s _ => (sizeAccess s.toNat e).map (fun p => .store p.1)
  | .lds _ _ _ s _ => (sizeAccess s.toNat e).map (fun p => .lds p.1 p.2)
  | .sts _ _ _ s _ => (sizeAccess s.toNat e).map (fun p => .sts p.1)
  | .ldt _ _ => (ldtWidth e).map .ldt
  | .unpk _ _ => some .unpk
  | .atom o w _ _ _ => some (.atom o.toNat (if w = 1 then 8 else 4) true)
  | .red o w _ _ => some (.atom o.toNat (if w = 1 then 8 else 4) false)
  | .redFadd _ _ => some (.atom 10 4 false)
  | .redBfadd2 _ _ => some (.atom 11 4 false)
  | .ll4 _ _ => some (.ll 4)
  | .ll8 _ _ => some (.ll 8)
  | .sc4 _ _ _ => some (.sc 4)
  | .sc8 _ _ _ => some (.sc 8)
  | .sttr _ _ _ => some .sttr
  | .stm s _ _ => some (.stm (if s = 0 then 4 else if s = 1 then 8 else 16))
  | .sld _ _ _ => some (.load 8 false)
  | .sld4 _ _ _ => some (.load 4 false)
  | .sst _ _ _ => some (.store 8)
  | .sst4 _ _ _ => some (.store 4)
  | _ => none

/-- Bytes of a lane's access. -/
def MKind.bytes : MKind → Nat
  | .load n _ => n | .store n => n | .lds n _ => n | .sts n => n | .ldt w => w / 2 | .unpk => 4
  | .atom _ n _ => n | .ll n => n | .sc n => n | .sttr => 4 | .stm n => n
/-- What a lane's access needs of its leaf (Table 1.2). -/
def MKind.acc : MKind → Acc
  | .load _ _ => .read | .lds _ _ => .read | .ldt _ => .read | .unpk => .read
  | .store _ => .write | .sts _ => .write | .sttr => .write | .stm _ => .write
  | .atom _ _ ret => if ret then .atomic else .update
  | .ll _ => .reserve | .sc _ => .update
/-- Classes r and w of Table 4.1. -/
def MKind.isR : MKind → Bool
  | .load _ _ => true | .lds _ _ => true | .ldt _ => true | .unpk => true | .ll _ => true | .atom _ _ r => r
  | .store _ => false | .sts _ => false | .sttr => false | .stm _ => false | .sc _ => false
def MKind.isW : MKind → Bool
  | .store _ => true | .sts _ => true | .sttr => true | .stm _ => true | .sc _ => true | .atom _ _ _ => true
  | .load _ _ => false | .lds _ _ => false | .ldt _ => false | .unpk => false | .ll _ => false

/-- The kind of an operation in flight: its instruction under its MODE at issue. -/
def MemOp.kind (o : MemOp) : MKind := (kindOf o.instr o.mode).getD (.load 4 false)

/-! ## Parts of an operation -/

def findOp (s : State) (id : Nat) : Option MemOp := s.memops.find? (fun o => o.id == id)
def updOp (s : State) (id : Nat) (f : MemOp → MemOp) : State :=
  { s with memops := s.memops.map (fun o => if o.id = id then f o else o) }
def MemOp.lane (o : MemOp) (gl : Nat) : Option MLane := o.lanes.find? (fun l => l.gl == gl)
def updLane (s : State) (id gl : Nat) (f : MLane → MLane) : State :=
  updOp s id (fun o => { o with lanes := o.lanes.map (fun l => if l.gl = gl then f l else l) })
def setLaneSt (s : State) (id gl : Nat) (st : LaneSt) : State := updLane s id gl (fun l => { l with st := st })

/-- A lane needs nothing more. -/
def LaneSt.final : LaneSt → Bool
  | .done => true
  | .fault _ _ _ _ => true
  | .todo => false | .zero _ => false | .sent _ => false
def MemOp.final (o : MemOp) : Bool := o.lanes.all (fun l => l.st.final)

/-- Slice number within the team and lane of a gang lane of an operation. -/
def MemOp.sliceOf (o : MemOp) (gl : Nat) : Nat := 8 * o.gang + gl / 4
/-- Die and cluster of an operation's core. -/
def MemOp.cluster (o : MemOp) : Nat := clusterOfCore o.core

/-! ## Flips and zeroing -/

/-- A page may flip now: HOLD microseconds have passed since its last flip (R41). -/
def holdOver (s : State) (asid ten : Nat) (va : W64) : Bool :=
  match s.flipped.find? (fun p => p.1 == (asid, pageOf s asid va)) with
  | none => true
  | some p => decide (p.2 + bits 31 16 (tsysGet s ten srPtCtl) * 1000 ≤ nsOf s)
/-- A flip request for the page of an address joins those at the agent; the adapter is asked at once unless another flip
of the page or the hold comes first (R40, R41). -/
def flipAsk (s : State) (asid ten : Nat) (va : W64) (toHost : Bool) : State :=
  let page := fun (f : FlipReq) => f.asid == asid && pageOf s asid f.va == pageOf s asid va
  if s.flips.any (fun f => page f && f.toHost == toHost) then s
  else
    let now := !toHost && holdOver s asid ten va && !s.flips.any page
    { s with flips := s.flips ++ [{ asid, tenant := ten, va, toHost, asked := now }] }
/-- SYS.PT_CTL.AUTOFLIP and SYS.CKOUT_CTL.LOCKTRAP of a tenant. -/
def autoFlip (s : State) (ten : Nat) : Bool := bit 0 (tsysGet s ten srPtCtl)
def lockTrap (s : State) (ten : Nat) : Bool := bit 16 (tsysGet s ten srCkoutCtl)

/-! ## The race detector (R102 to R106) -/

/-- SYS.RACE_CTL.SKIPPED counted up once, saturating. -/
def raceSkip (s : State) (ten : Nat) : State :=
  let v := tsysGet s ten srRaceCtl
  tsysSet s ten srRaceCtl (withBits 51 20 (min (bits 51 20 v + 1) 0xFFFFFFFF) v)
/-- A detector number's counters, and its mark for a scope (R104). -/
def detOf (s : State) (ten n : Nat) : DetNum := tget {} n (tenantOf s ten).det
def DetNum.mark (d : DetNum) (k : Nat) : Nat := if k = 2 then d.rForm else if k = 3 then d.rHouse else if k = 4 then d.rPkg else d.rPod
/-- A release of a detector number at a scope (R104). -/
def DetNum.release (d : DetNum) (scope : Nat) : DetNum :=
  let c := (d.c + 1) % 8192
  { c, rForm := if 2 ≤ scope then c else d.rForm, rHouse := if 3 ≤ scope then c else d.rHouse,
    rPkg := if 4 ≤ scope then c else d.rPkg, rPod := if 5 ≤ scope then c else d.rPod }
def detRelease (s : State) (ten n scope : Nat) : State :=
  updTenant s ten (fun t => { t with det := tset {} n ((tget {} n t.det).release scope) t.det })

/-- The common scope of two detector numbers (R105): 2 form, 3 house, 4 pkg, 5 pod. -/
def detScope (s : State) (ten a b : Nat) : Nat :=
  let at_ := fun n => (tenantOf s ten).detAt.find? (fun x => x.1 == n)
  match at_ a, at_ b with
  | some x, some y =>
    if x.2.1 = y.2.1 then 2 else if x.2.2.2 ≠ y.2.2.2 then 5 else if x.2.2.1 = y.2.2.1 then 3 else 4
  | _, _ => 5

/-- The physical address at which a tenant's virtual address lies for the device's own write, if it is mapped, writable
and local; the write counts as a request (R71). Pages of other devices and of the far tier have no home slice here, so a
shadow word or a log there is not written: DESIGN CHOICE, log entry 106. -/
def ownWrite (s : State) (asid ten : Nat) (va : W64) : Option Nat × State :=
  match walkNow s asid ten va .write with
  | (.ok e level, s) =>
    if isOwnDev s (pteDev e) && !pteFar e then
      (some (leafPa e level va), spend s (homeSlice (leafPa e level va)) ten)
    else (none, s)
  | (_, s) => (none, s)

/-- Virtual address of the shadow word of a sector (R102). -/
def shadowVa (s : State) (ten : Nat) (va : W64) : W64 :=
  BitVec.ofNat 64 (bits 63 52 (tsysGet s ten srRaceCtl) * 2 ^ 52 + 4 * bits 54 5 va)

/-- The accesses of Table 3.10. -/
def raceKind : MKind → Nat
  | .load _ _ => 0 | .lds _ _ => 0 | .ldt _ => 0 | .unpk => 0 | .store _ => 1 | .sts _ => 1 | .sttr => 1
  | .atom _ _ r => if r then 2 else 3 | .ll _ => 4 | .sc _ => 5 | .stm _ => 6

/-- A record of 32 bytes appended to the race log, or a drop counted (R106): a full log, and, where the spec is silent, a
log whose page the device cannot write, DESIGN CHOICE, log entry 106. -/
def raceLog (s : State) (asid ten : Nat) (rec' : List Byte) : State :=
  let v := tsysGet s ten srRaceLog
  let base : W64 := BitVec.ofNat 64 (bits 63 16 v * 2 ^ 16)
  let cap := (2 ^ (16 + bits 15 12 v) - 64) / 32
  let drop := fun (s : State) => tsysSet s ten srRaceLog (withBits 11 0 (min (bits 11 0 v + 1) 0xFFF) v)
  match ownWrite s asid ten base with
  | (none, s) => drop s
  | (some h, s) =>
    let w := natLE (mgetAll s.mem h 8)
    let r := natLE (mgetAll s.mem (h + 8) 8)
    if cap ≤ (w + 2 ^ 64 - r) % 2 ^ 64 then drop s
    else match ownWrite s asid ten (base + BitVec.ofNat 64 (64 + 32 * (w % cap))) with
      | (none, s) => drop s
      | (some a, s) => homeStore (homeStore s a rec') h (bytesLE 8 ((w + 1) % 2 ^ 64))

/-- The check of one sector (R105): the record of a conflict under ACT = 1. -/
def raceSector (s : State) (o : MemOp) (t : Nat) (va : W64) (atomic writes : Bool) (now : W64) :
    Option (List Byte) × State :=
  match ownWrite s o.asid o.tenant (shadowVa s o.tenant va) with
  | (none, s) => (none, raceSkip s o.tenant)
  | (some pa, s) =>
    let w := natLE (mgetAll s.mem pa 4)
    let team := w / 2 ^ 16
    let sc := w / 2 ^ 13 % 8
    let iv := w % 2 ^ 13
    let k := detScope s o.tenant t (team - 1)
    let d := ((detOf s o.tenant (team - 1)).mark k + 8192 - iv) % 8192
    let conflict := w != 0 && team != t + 1 && !(atomic && decide (k ≤ sc)) && !(decide (0 < d) && decide (d < 4096))
    let c := (detOf s o.tenant t).c
    let s := if writes then
        homeStore s pa (bytesLE 4 ((t + 1) * 2 ^ 16 + (if atomic then 5 else 0) * 2 ^ 13 + c)) else s
    let rec' := bytesLE 8 now.toNat ++ bytesLE 8 o.pc.toNat ++ bytesLE 2 (t + 1) ++ bytesLE 2 team ++ bytesLE 2 iv ++
      bytesLE 2 (raceKind o.kind + 8 * sc + 64 * k + 512) ++ bytesLE 8 (nsOf s)
    if !conflict then (none, s)
    else if bit 1 (tsysGet s o.tenant srRaceCtl) then (some rec', s)
    else (none, raceLog s o.asid o.tenant rec')

/-- The team parks, its gangs and its Prefect issuing nothing further: a fault-ring record TRAP, cause RACE (R106). The
access is performed. The fields of a log record follow in an extension record, since Table 8.3 has no place for them:
DESIGN CHOICE, log entry 107. -/
def raceTrap (s : State) (o : MemOp) (gl : Nat) (va : W64) (rec' : List Byte) : State :=
  let (id, s) := newId s
  let ns := o.slices
  let s := updTeam s o.tid (fun t =>
    { t with
      slices := t.slices.map (fun p =>
        if p.2.st = .exited ∨ p.2.stop.isSome then p else (p.1, { p.2 with stop := some id }))
      pf := if t.pf.stop.isSome then t.pf else { t.pf with stop := some id } })
  let s := addWait s o.tenant ⟨id, 0, fcTrap, 1, o.gid, .race o.tid id⟩
  let q := match findGrid s o.gid with | some g => g.queue | none => 0
  let tm := match findTeam s o.tid with | some t => t.teamId | none => 0
  emit s o.tenant
    { code := fcTrap, cause := 1, issuer := 0, pc := o.pc, va, mask := 2 ^ gl, asid := o.asid, resumable := true,
      teamId := tm, queue := q, slices := sliceMask ns, home := o.gang, word := o.word, exts := [fitTo 64 rec'] } id

/-- The detector number under which an operation's lanes are checked, if they are (R104, R105). -/
def raceOn (s : State) (o : MemOp) : Option Nat :=
  let on := match findGrid s o.gid with | some g => g.race | none => false
  let checked := match o.kind with | .unpk => false | .lds _ _ => false | .sts _ => false | _ => true
  if o.pf || !on || !checked then none else (findTeam s o.tid).bind Team.det

/-- The sectors that n bytes at an address touch, each by an address in it. -/
def sectorsAt (va : W64) (n : Nat) : List W64 := if va.toNat % 32 + n ≤ 32 then [va] else [va, va + BitVec.ofNat 64 n - 1]

/-- A lane's check before it is performed (R105). `miss` marks a cas or an SC that will not write: an atomic read
(R392). -/
def raceLane (s : State) (o : MemOp) (gl : Nat) (va : W64) (n : Nat) (miss : Bool) : State :=
  match raceOn s o with
  | none => s
  | some t =>
    let atomic := match o.kind with | .atom _ _ _ => true | .ll _ => true | .sc _ => true | _ => false
    let (hit, s) := (sectorsAt va n).foldl (fun (p : Option (List Byte) × State) a =>
      let (c, s) := raceSector p.2 o t a atomic (o.kind.isW && !miss) va
      (p.1 <|> c, s)) (none, s)
    match hit with
    | some r => raceTrap s o gl va r
    | none => s

/-- What a lane waits for before its check can be made: the zeroing of a shadow page (R38, R102), or the walk to it. -/
def shadowHold (s : State) (o : MemOp) (va : W64) (n : Nat) : Option LaneSt × State :=
  match raceOn s o with
  | none => (none, s)
  | some _ => (sectorsAt va n).foldl (fun (p : Option LaneSt × State) a =>
      match p.1 with
      | some _ => p
      | none => match walkNow p.2 o.asid o.tenant (shadowVa p.2 o.tenant a) .write with
        | (.zero z, s) => (some (.zero z), s)
        | (.wait, s) => (some .todo, s)
        | (_, s) => (none, s)) (none, s)

/-! ## Sending a lane -/

/-- What became of a lane's access. -/
inductive LaneOut where
  | done (s : State) (data : List Byte)
  | sent (s : State)
  | fault (s : State) (code cause level : Nat)
  /-- Not yet: a tag, or an earlier access of the lane, is waited for. -/
  | wait (s : State)

/-- Two operations' lanes are those of one thread, or of one Prefect. -/
def sameThread (o p : MemOp) (gl gl' : Nat) : Bool :=
  p.tid == o.tid && p.pf == o.pf && (o.pf || (p.gang == o.gang && gl == gl'))

/-- Where an address of an operation's lane lies now: far or not, device, line. -/
def lineAt (s : State) (o : MemOp) (va : W64) : Option (Bool × Nat × Nat) :=
  match walk s o.asid o.tenant va with
  | .leaf _ e level => some (pteFar e, frameDev s e, leafPa e level va / 128)
  | .fault _ _ _ => none

/-- An earlier access of the same thread, or one of a lower lane of the same instruction, is to a line and has not been sent
yet: the lane waits for it, so that one issuer's accesses to a location are performed in program order (R119) and the
lanes of one store or atomic in ascending order (R109); STTR sends its lanes as one whole, in that order. -/
def laneUnsent (s : State) (o : MemOp) (gl : Nat) (here : Bool × Nat × Nat) : Bool :=
  s.memops.any (fun p => p.lanes.any (fun l =>
    ((decide (p.id < o.id) && sameThread o p gl l.gl) ||
      (p.id == o.id && decide (l.gl < gl) && o.kind != .sttr && (o.kind.isW || o.kind.isR && o.kind.acc != .read))) &&
    (match l.st with | .todo => true | .zero _ => true | .sent _ => false | .done => false | .fault _ _ _ _ => false) &&
    (match p.kind with
     | .lds _ _ => false
     | .sts _ => false
     | .stm _ => false
     | .sttr => lineAt s p l.va == some here || lineAt s p l.va2 == some here
     | _ => lineAt s p l.va == some here)))

/-- A request whose answer a lane waits for is one of the same thread's earlier instructions. -/
def refEarlier (s : State) (o : MemOp) (gl : Nat) : Ref → Bool
  | .lane op l => op != o.id && (match findOp s op with | some p => sameThread o p gl l | none => false)
  | .eng _ => false
  | .mx _ _ => false
  | .queue _ _ => false
  | .pod _ => false
  | .fetch _ _ => false
  | .asid _ => false
  | .none => false

/-- An earlier access of the thread to the line is not yet performed (R119). -/
def laneOwn (s : State) (o : MemOp) (gl pa : Nat) (far : Bool) : Bool :=
  laneUnsent s o gl (far, 1023, pa / 128) ||
  s.l2q.any (fun r => r.far == far && r.pa / 128 == pa / 128 && refEarlier s o gl r.ref) ||
  s.fars.any (fun f => far && f.addr / 128 == pa / 128 &&
    (refEarlier s o gl f.ref || (match f.ref with | .lane op l => op == o.id && decide (l < gl) | _ => false)))

/-- That, or a write-back of the cluster's own cache to the line, is not yet performed: the lane waits (R119). -/
def lanePending (s : State) (o : MemOp) (gl pa : Nat) (far : Bool) : Bool :=
  laneOwn s o gl pa far ||
  s.l2q.any (fun r => r.far == far && r.pa / 128 == pa / 128 && r.ref == .none && r.cluster == o.cluster &&
    (match r.kind with | .writeBack _ => true | _ => false))

/-- The identity of a lane for reservations: cluster, core, slice number within the core, and lane, as the team's first
placement gave them (R133, R159). -/
def laneKey (s : State) (o : MemOp) (gl : Nat) : Nat :=
  match findTeam s o.tid with
  | none => 0
  | some t => (t.ident.1 * 128 + t.ident.2.getD (o.sliceOf gl) 0) * 4 + gl % 4

/-- The class under which an access acts: UNCACHED where the tenant does not use the remote-data cache (R101). -/
def effClass (s : State) (o : MemOp) (e : W64) (pa : Nat) : Nat :=
  let c := classOf e (if o.pf then 0 else modeCc o.mode)
  let remote := pteFar e || homeDie pa != o.cluster / 64
  if remote && !bit 0 (tsysGet s o.tenant srRdcCtl) then 3 else c

/-- Requests that a core has outstanding: 2048 at most (R4). -/
def coreSent (s : State) (core : Nat) : Nat :=
  (s.memops.map (fun o => if o.core = core then
    (o.lanes.map (fun l => match l.st with | .sent k => k | .todo => 0 | .zero _ => 0 | .done => 0 | .fault _ _ _ _ => 0)).sum
    else 0)).sum

/-- The request of a lane. -/
def laneReq (s : State) (o : MemOp) (gl sl pa cls : Nat) (far : Bool) (k : L2Kind) : State :=
  let r := mkReq sl pa o.tenant o.cluster cls k (.lane o.id gl) (rdcGen s (o.cluster / 64))
    (o.tid, if o.pf then 64 else o.sliceOf gl)
  postReq s { r with far := far }
/-- The request sent, if the core has room for one more. -/
def askLane (s : State) (o : MemOp) (gl sl pa cls : Nat) (far : Bool) (k : L2Kind) : LaneOut :=
  if 2048 ≤ coreSent s o.core then .wait s else .sent (laneReq s o gl sl pa cls far k)

/-- A lane's bytes with the physical addresses they go to. -/
def cellsAt (pa : Nat) (b : List Byte) : List Host.Cell := (List.range b.length).map (fun i => (pa + i, b.getD i 0))

/-- A load of n bytes at a physical address (R62, R63, R76). -/
def localLoad (s : State) (o : MemOp) (gl pa n cls : Nat) (far : Bool) : LaneOut :=
  let cl := o.cluster
  if far then
    if lanePending s o gl pa true then .wait s
    else askLane s o gl (96 * (cl / 64) + l2Slice pa) pa cls true (.read n)
  else if laneOwn s o gl pa false then .wait s
  else
    match (if cls ≤ 1 then ccLoad s cl o.tenant pa n else none) with
    | some d => let (d, s) := raceFree s false pa d; .done s d
    | none =>
      let s := if 2 ≤ cls then ccFlush s cl o.tenant pa else s
      if lanePending s o gl pa false then .wait s
      else askLane s o gl (if cls = 3 then homeSlice pa else 96 * (cl / 64) + l2Slice pa) pa cls false (.read n)

/-- A store of this class to the line allocates in the cluster cache, so that no home slice checks it (R62, R63, R95). -/
def ccTakes (s : State) (cl ten pa cls : Nat) : Bool :=
  (cls == 0 && decide (0 < ccWays s cl)) || (cls == 1 && (ccFind s cl ten pa).isSome)

/-- A store of bytes at a physical address (R62, R63, R76). -/
def localStore (s : State) (o : MemOp) (gl pa cls : Nat) (far : Bool) (b : List Byte) : LaneOut :=
  let cl := o.cluster
  if far then
    if lanePending s o gl pa true then .wait s
    else askLane s o gl (96 * (cl / 64) + l2Slice pa) pa cls true (.write (cellsAt pa b))
  else if laneOwn s o gl pa false then .wait s
  else if ccTakes s cl o.tenant pa cls then
    let (b, s) := raceFree s true pa b
    .done (ccStore s cl o.tenant pa b) []
  else
    let s := if 2 ≤ cls then ccFlush s cl o.tenant pa else s
    if lanePending s o gl pa false then .wait s
    else askLane s o gl (homeSlice pa) pa cls false (.write (cellsAt pa b))

/-- An atomic, LL or SC at its home slice: the cluster's copy is written back and dropped first (R132). -/
def localAtomic (s : State) (o : MemOp) (gl pa cls : Nat) (k : L2Kind) : LaneOut :=
  let s := ccFlush s o.cluster o.tenant pa
  if lanePending s o gl pa false then .wait s else askLane s o gl (homeSlice pa) pa cls false k

/-- An earlier access of the same lane to the line at another device, for the same group member, is not sent or not
answered (R119). -/
def podBusy (s : State) (o : MemOp) (gl dev pa : Nat) (member : Option Nat) : Bool :=
  laneUnsent s o gl (false, dev, pa / 128) ||
  s.fab.tags.any (fun t => t.2.dev == dev && t.2.pkt.pa / 128 == pa / 128 &&
    (match t.2.use with
     | some (.lane op l m) => op != o.id && m == member && (match findOp s op with
        | some q => sameThread o q gl l
        | none => false)
     | _ => false))

/-- The request of a lane to a pod device (R152, R159). A lane of a tenant with no domain faults at level 0
(R154). -/
def podLane (s : State) (o : MemOp) (gl dev pa level : Nat) (p : Packet) (member : Option Nat) (plain : Bool) : LaneOut :=
  let dom := domainOf s o.tenant
  if dom = 0 then .fault s fcPagePerm 5 0
  else
    if plain && podBusy s o gl dev pa member then .wait s
    else if 2048 ≤ coreSent s o.core then .wait s
    else match podSend s (o.cluster / 64) dev { p with pa, domain := dom, level } (.lane o.id gl member) o.gid with
      | .unreachable => .fault s fcFabricTimeout 1 0
      | .wait => .wait s
      | .sent s => .sent s

/-- The reservation of a lane goes, wherever it is held: a lane holds one at most, and its SC clears it (R133). -/
def dropRes (s : State) (key : Nat) : State :=
  { s with resvs := s.resvs.filter (fun r => r.key != key), podRes := tdel key s.podRes }
/-- What remains of a request once it is sent. -/
def LaneOut.andSent (f : State → State) : LaneOut → LaneOut
  | .sent s => .sent (f s)
  | .done s d => .done s d
  | .fault s c x l => .fault s c x l
  | .wait s => .wait s

/-- LL at another device (R159): the lane's reservation is there from now on. -/
def podLl (s : State) (o : MemOp) (gl dev pa level n : Nat) : LaneOut :=
  let key := laneKey s o gl
  (podLane s o gl dev pa level { code := 3, n, lane := key } none true).andSent
    (fun s => { dropRes s key with podRes := tput key dev s.podRes })
/-- SC at another device (R159): sent where the lane's reservation is held there; it fails at once where it is not. Its
reservation counts as cleared from then on, whatever the answer (Table 5.7). -/
def podSc (s : State) (o : MemOp) (gl dev pa level : Nat) (b : List Byte) : LaneOut :=
  let key := laneKey s o gl
  if tfind key s.podRes = some dev then
    (podLane s o gl dev pa level { code := 4, n := b.length, lane := key, data := b } none true).andSent (fun s => dropRes s key)
  else .done (dropRes s key) [1#8]

/-- A translated load lane (R390, R396, R397). -/
def sendLoad (s : State) (o : MemOp) (l : MLane) (n : Nat) (e : W64) (level : Nat) : LaneOut :=
  let pa := leafPa e level l.va
  if pteFar e then localLoad s o l.gl pa n (effClass s o e pa) true
  else if isOwnDev s (pteDev e) then localLoad s o l.gl pa n (effClass s o e pa) false
  else podLane s o l.gl (pteDev e) pa level { code := 16, n } none true
/-- A translated store of bytes at one of a lane's addresses. -/
def sendStore (s : State) (o : MemOp) (gl : Nat) (va : W64) (b : List Byte) (e : W64) (level : Nat) : LaneOut :=
  let pa := leafPa e level va
  if pteFar e then localStore s o gl pa (effClass s o e pa) true b
  else if isOwnDev s (pteDev e) then localStore s o gl pa (effClass s o e pa) false b
  else podLane s o gl (pteDev e) pa level { code := 17, n := b.length, data := b } none true
/-- A translated atomic, LL or SC lane: far and pod refusals first (R45, R132, R159). `pod` is what it does at another
device's address. -/
def sendAtomic (s : State) (o : MemOp) (l : MLane) (e : W64) (level : Nat) (k : L2Kind) (pod : Nat → Nat → LaneOut) :
    LaneOut :=
  let pa := leafPa e level l.va
  if pteFar e then .fault s fcPagePerm 6 level
  else if isOwnDev s (pteDev e) then localAtomic s o l.gl pa (effClass s o e pa) k
  else pod (pteDev e) pa

/-- A lane's access after translation (R386 steps 3 and 4). -/
def sendLane (s : State) (o : MemOp) (l : MLane) (e : W64) (level : Nat) : LaneOut :=
  match o.kind with
  | .load n _ => sendLoad s o l n e level
  | .ldt w => sendLoad s o l (w / 2) e level
  | .unpk => sendLoad s o l 4 e level
  | .store n => sendStore s o l.gl l.va (l.src.take n) e level
  | .atom op n ret =>
    sendAtomic s o l e level (.atom op n l.src ret) (fun dev pa =>
      if ret then .fault s fcRemoteAtom 0 0 else podLane s o l.gl dev pa level { code := 2, n, op, data := l.src } none true)
  | .ll n =>
    (sendAtomic s o l e level (.ll (laneKey s o l.gl) n) (fun dev pa => podLl s o l.gl dev pa level n)).andSent (fun s =>
      if isOwnDev s (pteDev e) then { s with podRes := tdel (laneKey s o l.gl) s.podRes } else s)
  | .sc n =>
    (sendAtomic s o l e level (.sc (laneKey s o l.gl) (l.src.take n))
      (fun dev pa => podSc s o l.gl dev pa level (l.src.take n))).andSent (fun s =>
      { s with podRes := tdel (laneKey s o l.gl) s.podRes })
  | .lds _ _ => .done s []
  | .sts _ => .done s []
  | .sttr => .done s []
  | .stm _ => .done s []

/-- A lane after its access: its state and data. -/
def applyOut (id gl : Nat) (va : W64) : LaneOut → State
  | .done s d => updLane s id gl (fun l => { l with st := .done, data := d })
  | .sent s => setLaneSt s id gl (.sent 1)
  | .fault s c x lev => setLaneSt s id gl (.fault c x lev va)
  | .wait s => s

/-- An atomic lane that will not write as things stand: a compare-and-swap whose compare value memory does not hold, an SC
whose lane has no reservation for the location (R105, R133, R392). -/
def casMiss (s : State) (o : MemOp) (l : MLane) (dev pa : Nat) : Bool :=
  match o.kind with
  | .atom op n _ => op == 9 && natLE (mgetAll s.mem pa n) != natAt l.src 0 n
  | .sc _ =>
    if isOwnDev s dev then !resOk s (laneKey s o l.gl) pa else tfind (laneKey s o l.gl) s.podRes != some dev
  | _ => false

/-- A lane's translation applied (R27, R386). -/
def applyTr (s : State) (id gl : Nat) (tr : Tr) : State :=
  match findOp s id with
  | none => s
  | some o => match o.lane gl with
    | none => s
    | some l =>
      match tr with
      | .fault c x lev => setLaneSt s id gl (.fault c x lev l.va)
      | .zero a => setLaneSt s id gl (.zero a)
      | .wait => s
      | .ok e lev =>
        let s := updLane s id gl (fun l => { l with level := lev })
        match shadowHold s o l.va o.kind.bytes with
        | (some st, s) => setLaneSt s id gl st
        | (none, s) =>
          let miss := casMiss s o l (pteDev e) (leafPa e lev l.va)
          applyOut id gl l.va (match sendLane s o l e lev with
            | .done s d => .done (raceLane s o gl l.va o.kind.bytes miss) d
            | .sent s => .sent (raceLane s o gl l.va o.kind.bytes miss)
            | x => x)

/-- A walk may join the cluster's page walker: it holds 16, and one like it serves both (R25). -/
def walkRoom (s : State) (w : Walk) : Bool :=
  let cl := clusterOf s (clusterOfCore w.core)
  decide (cl.walks.length < 16) && !cl.walks.any (fun x => x.kind == w.kind && x.op == w.op && x.asid == w.asid &&
    bits 63 16 x.va == bits 63 16 w.va && x.core == w.core)
/-- A walk queued at the cluster's page walker, if it may. -/
def queueWalk (s : State) (w : Walk) : State :=
  if walkRoom s w then updCluster s (clusterOfCore w.core) (fun c => { c with walks := c.walks ++ [w] }) else s

/-! ## STTR (R251, R398) -/

/-- Both translations of a lane of STTR. -/
def sttrXlate (s : State) (o : MemOp) (l : MLane) : Tr × Tr × State :=
  let (a, s) := xlateNow s o.core o.asid o.tenant l.va .write o.replayOf.isSome
  match a with
  | .ok _ _ =>
    let (b, s) := xlateNow s o.core o.asid o.tenant l.va2 .write o.replayOf.isSome
    (a, b, s)
  | _ => (a, a, s)

/-- The first failure of one translated address of STTR: domain, route, far backing, engine locks where a home slice is to
perform the store (R95). -/
def sttrCheck (s : State) (o : MemOp) (va : W64) : Tr → Option (Nat × Nat × Nat × W64)
  | .fault c x lev => some (c, x, lev, va)
  | .zero _ => none
  | .wait => none
  | .ok e level =>
    let pa := leafPa e level va
    if pteFar e then none
    else if isOwnDev s (pteDev e) then
      (if !ccTakes s o.cluster o.tenant pa (effClass s o e pa) && lockBlocks s pa 4 true then some (fcRangeLock, 0, 0, va)
       else none)
    else if domainOf s o.tenant = 0 then some (fcPagePerm, 5, 0, va)
    else if minPorts s (pteDev e) = [] then some (fcFabricTimeout, 1, 0, va)
    else none

/-- The transposed bytes of lane l of a slice: byte l of each active lane k's word, with k (R398). -/
def sttrBytes (o : MemOp) (l : MLane) : List (Nat × Byte) :=
  (List.range 4).filterMap (fun k => (o.lane (l.gl / 4 * 4 + k)).map (fun m => (k, m.src.getD (l.gl % 4) 0)))

/-- What the stores of STTR to an address wait for: the thread's earlier accesses to the line, here or at another device
(R119). -/
def sttrBusy (s : State) (o : MemOp) (gl : Nat) (va : W64) (e : W64) (level : Nat) : Bool :=
  let pa := leafPa e level va
  if pteFar e || isOwnDev s (pteDev e) then lanePending s o gl pa (pteFar e) else podBusy s o gl (pteDev e) pa none

/-- The stores of one lane: requests sent and not answered are counted. A store that would wait now, for a line which
another lane of the same STTR has written in the cluster cache under another class, follows that write-back to the home
slice, which serves one requester's accesses to a line in their order. -/
def sttrStores (s : State) (o : MemOp) (gl : Nat) (k : Nat) : List (W64 × List Byte × W64 × Nat) → Nat × State
  | [] => (k, s)
  | (va, b, e, level) :: r =>
    match sendStore s o gl va b e level with
    | .done s _ => sttrStores s o gl k r
    | .sent s => sttrStores s o gl (k + 1) r
    | .fault s _ _ _ => sttrStores s o gl k r
    | .wait s =>
      let pa := leafPa e level va
      sttrStores (laneReq s o gl (homeSlice pa) pa (effClass s o e pa) (pteFar e) (.write (cellsAt pa b))) o gl (k + 1) r

/-- The lanes of STTR written, once every address of every lane has passed. -/
def sttrWrite (s : State) (id : Nat) : List (MLane × Tr × Tr) → State
  | [] => s
  | (l, a, b) :: r =>
    match findOp s id, a, b with
    | some o, .ok e lev, .ok e2 lev2 =>
      let t := sttrBytes o l
      let second := if t.length = 4 then [(l.va2, t.map Prod.snd, e2, lev2)]
        else t.map (fun q => (l.va2 + BitVec.ofNat 64 q.1, [q.2], e2, lev2))
      let s := raceLane (raceLane s o l.gl l.va 4 false) o l.gl l.va2 4 false
      let (k, s) := sttrStores s o l.gl 0 ((l.va, l.src.take 4, e, lev) :: second)
      sttrWrite (setLaneSt s id l.gl (if k = 0 then .done else .sent k)) id r
    | _, _, _ => sttrWrite s id r

/-- STTR as one whole: translated and checked in every lane before any byte is written (R251). -/
def sttrStep (s : State) (o : MemOp) : State :=
  let (trs, s) := o.lanes.foldl (fun (p : List (MLane × Tr × Tr) × State) l =>
    let (a, b, s) := sttrXlate p.2 o l
    (p.1 ++ [(l, a, b)], s)) ([], s)
  let (trs, s) := trs.foldl (fun (p : List (MLane × Tr × Tr) × State) t =>
    let hold := fun (s : State) (va : W64) (r : Tr) => match r with
      | .ok _ _ => (match shadowHold s o va 4 with
        | (some (.zero z), s) => (Tr.zero z, s)
        | (some _, s) => (Tr.wait, s)
        | (none, s) => (r, s))
      | _ => (r, s)
    let (a, s) := hold p.2 t.1.va t.2.1
    let (b, s) := hold s t.1.va2 t.2.2
    (p.1 ++ [(t.1, a, b)], s)) ([], s)
  let zeros := trs.filterMap (fun t => match t.2.1, t.2.2 with
    | .zero a, _ => some (t.1.gl, a)
    | _, .zero a => some (t.1.gl, a)
    | _, _ => none)
  let waits := trs.any (fun t => t.2.1 == .wait || t.2.2 == .wait)
  let bad := trs.findSome? (fun t => match sttrCheck s o t.1.va t.2.1 with
    | some f => some f
    | none => sttrCheck s o t.1.va2 t.2.2)
  let flush := fun (s : State) (va : W64) (t : Tr) => match t with
    | .ok e lev =>
      let pa := leafPa e lev va
      if isOwnDev s (pteDev e) && !pteFar e && decide (2 ≤ effClass s o e pa) then ccFlush s o.cluster o.tenant pa else s
    | _ => s
  let s := if bad.isSome || !zeros.isEmpty then s
    else trs.foldl (fun s t => flush (flush s t.1.va t.2.1) t.1.va2 t.2.2) s
  let remote := trs.any (fun t => match t.2.1, t.2.2 with
    | .ok e _, .ok e2 _ => !isOwnDev s (pteDev e) || !isOwnDev s (pteDev e2)
    | _, _ => false)
  let used := (s.fab.tags.filter (fun t => t.2.use.isSome && t.1 / 4096 == o.cluster / 64)).length
  let busy := waits || decide (2048 < coreSent s o.core + 5 * o.lanes.length) ||
    (remote && decide (4096 < used + 5 * o.lanes.length)) || trs.any (fun t => match t.2.1, t.2.2 with
    | .ok e lev, .ok e2 lev2 => sttrBusy s o t.1.gl t.1.va e lev || sttrBusy s o t.1.gl t.1.va2 e2 lev2
    | _, _ => false)
  match bad with
  | some (c, x, lev, va) => o.lanes.foldl (fun s l => setLaneSt s o.id l.gl (.fault c x lev va)) s
  | none =>
    if !zeros.isEmpty then zeros.foldl (fun s z => setLaneSt s o.id z.1 (.zero z.2)) s
    else if busy then s
    else sttrWrite s o.id trs

/-! ## STM (R163 to R166, R401) -/

/-- The issuing device's own copy of a multicast lane: a store at its home slice, performed as the copies are made, so that
two multicast stores reach it in their order (R135, R163). 5 where it waits: for a tag, which it takes and gives back
(R156), for the lane's earlier accesses to the bytes (R119), for an engine lock (R94) or for the slice (R72). -/
def ownCopy (s : State) (o : MemOp) (l : MLane) (pa : Nat) : Nat × State :=
  let pa := pa % 2 ^ 39
  if (freeTag s (o.cluster / 64)).isNone || lanePending s o l.gl pa false || lockBlocks s pa l.src.length true then (5, s)
  else match askFor o.tenant (linesOf pa l.src.length) (ccFlush s o.cluster o.tenant pa) with
    | none => (5, s)
    | some s =>
      let (b, s) := raceFree s true pa l.src
      let s := performStore s pa b o.tenant 2
      (0, if o.cluster / 64 ≠ homeDie pa then remoteUpdate s (o.cluster / 64) pa b else s)

/-- One member's copy of a multicast lane, made by the issuing device: its new status, 4 while unanswered, 5 while not sent. -/
def stmMember (s : State) (o : MemOp) (l : MLane) (off : Nat) (i : Nat) (m : Nat × Nat) : Nat × State :=
  let dev := m.1
  let pa := m.2 + off
  if dev = ownDev s then ownCopy s o l pa
  else if 64 ≤ podWindow s dev || s.fab.relayQ.any (fun p => p.dst == dev) then (5, s)
  else
    let n := tget 0 dev s.fab.seqTo
    let p : Packet := { code := 0, n := l.src.length, data := l.src, group := bits 9 0 l.va, rank := i,
                        seq := n, pa, domain := domainOf s o.tenant }
    match podSend s (o.cluster / 64) dev p (.lane o.id l.gl (some i)) o.gid with
    | .unreachable => (3, s)
    | .wait => (5, s)
    | .sent s => (4, { s with fab := { s.fab with seqTo := tset 0 dev (n + 1) s.fab.seqTo } })

/-- Members' statuses of a multicast lane: one set, and the unsent ones set. -/
def laneStat (s : State) (o : MemOp) (l : MLane) (i c : Nat) : State :=
  updLane s o.id l.gl (fun l => { l with mstat := l.mstat.set i c })
def laneStats (s : State) (o : MemOp) (l : MLane) (c : Nat) : State :=
  updLane s o.id l.gl (fun l => { l with mstat := l.mstat.map (fun x => if x = 5 then c else x) })

/-- The copies of a multicast lane to the members not yet served are sent: through the root where the group is ordered, in
the root's own sequence where this device is the root (R165), else one copy each. -/
def stmSend (s : State) (o : MemOp) (l : MLane) (g : Group) (off : Nat) (was : List Nat) : State :=
  let p : Packet := { src := ownDev s, die := o.cluster / 64, n := l.src.length, data := l.src, group := bits 9 0 l.va, pa := off, domain := domainOf s o.tenant }
  let due := (List.range was.length).filter (fun i => was.getD i 0 == 5)
  let uses := due.map (fun i => (i, TagUse.lane o.id l.gl (some i)))
  if g.ordered && g.root != ownDev s then
    if due.isEmpty then s
    else
      let line := ((g.members.find? (fun m => m.1 == g.root)).map Prod.snd).getD 0 + off
      match mcoSend s (o.cluster / 64) g.root line p uses o.gid with
      | .unreachable => laneStats s o l 3
      | .wait => s
      | .sent s => laneStats s o l 4
  else if g.ordered then
    let held := due.any (fun i => let m := g.members.getD i (0, 0)
      m.1 == ownDev s && (ownCopy s o l (m.2 + off)).1 == 5)
    if held then s
    else match takeTags (o.cluster / 64) (ownDev s) o.gid p uses s with
      | none => s
      | some (tags, s) =>
        rootServe g { p with tags } (fun s pa => ownCopy s o l pa)
          (fun s t st => freeTagAt (laneStat s o l t.1 st) (4096 * (o.cluster / 64) + t.2.1) false) (laneStats s o l 4)
  else
    due.foldl (fun s i =>
      let (c, s) := stmMember s o l off i (g.members.getD i (0, 0))
      laneStat s o l i c) s

/-- A lane's state from its members' statuses. -/
def mstatSt (l : List Nat) (va : W64) : LaneSt :=
  if l.any (fun x => x == 5) then .todo
  else if l.any (fun x => x == 4) then .sent 1
  else match mstatFault l with
    | none => .done
    | some (c, x) => .fault c x 0 va

/-- The address that a multicast fault record carries: group and member count (Table 8.3). -/
def mcastVa (g count : Nat) : W64 := BitVec.ofNat 64 (g + count * 2 ^ 10)

/-- An earlier multicast store of a lane's thread has copies still to send: program order is kept at every member (R135). -/
def stmHeld (s : State) (o : MemOp) (l : MLane) : Bool :=
  s.memops.any (fun q => q.id < o.id && (match q.kind with | .stm _ => true | _ => false) &&
    q.lanes.any (fun m => sameThread o q l.gl m.gl && m.st == .todo))

/-- A multicast lane sent to every member whose copy is not done (R163, R164, R252). -/
def stmLane (s : State) (o : MemOp) (l : MLane) : State :=
  let gn := bits 9 0 l.va
  let off := bits 63 10 l.va
  match groupOf s o.tenant gn with
  | none => setLaneSt s o.id l.gl (.fault fcPagePerm 4 0 (mcastVa gn 0))
  | some g =>
    let perm := setLaneSt s o.id l.gl (.fault fcPagePerm 4 0 (mcastVa gn g.members.length))
    let locked := g.members.any (fun m => m.1 == ownDev s && lockBlocks s (m.2 + off) l.src.length true)
    if g.len < off + l.src.length then perm
    else if domainOf s o.tenant = 0 && g.members.any (fun m => m.1 != ownDev s) then
      setLaneSt s o.id l.gl (.fault fcPagePerm 5 0 (mcastVa gn g.members.length))
    else if locked && l.mstat.isEmpty then
      setLaneSt s o.id l.gl (.fault fcRangeLock 0 0 (mcastVa gn g.members.length))
    else
      let first := l.mstat.isEmpty
      let was := if first then g.members.map (fun _ => 5) else l.mstat
      if stmHeld s o l then s
      else
        let s := if first then raceLane s o l.gl (BitVec.ofNat 64 (gn * 2 ^ 40 + off)) l.src.length false else s
        let s := stmSend (updLane s o.id l.gl (fun l => { l with mstat := was })) o l g off was
        updLane s o.id l.gl (fun l => { l with st := mstatSt l.mstat (mcastVa gn l.mstat.length) })

/-! ## Advancing -/

/-- A SRAMCFG of the cluster changes the segment that a form offset lies in: a new access is held (R51 step 1). Its mask
counts from the moment the cluster receives it until it retires. -/
def cfgWaits (s : State) (cl : Nat) : List CfgReq :=
  (clusterOf s cl).cfgQ.filter (fun c => match findTeam s c.tid with | some t => t.pf.st == .scoreboard | none => false)
def segHeld (s : State) (cl g : Nat) : Bool :=
  match cfgWaits s cl with
  | [] => false
  | l => l.any (fun c => (c.mask / 2 ^ g) % 2 == 1)
def offHeld (s : State) (f : Form) (o : Nat) : Bool :=
  match winAt f o with
  | none => false
  | some (c, _) => segHeld s (clusterOfCore c) (c % 4)

/-- An LDS or STS lane: the window check, then the access (R55, R57, R390). -/
def spadLane (s : State) (o : MemOp) (l : MLane) : State :=
  let off := l.va.toInt
  match (match findTeam s o.tid with | some t => findForm s t.fid | none => none) with
  | none => setLaneSt s o.id l.gl .done
  | some f =>
    if !winOk f off o.kind.bytes then setLaneSt s o.id l.gl (.fault fcPagePerm 4 0 l.va)
    else if offHeld s f off.toNat then s
    else match o.kind with
      | .sts n => setLaneSt (spadWrite s f off.toNat (l.src.take n)) o.id l.gl .done
      | k => updLane s o.id l.gl (fun l => { l with st := .done, data := spadRead s f off.toNat k.bytes })

/-- One lane of an operation taken as far as it goes. -/
def stepLane (id : Nat) (s : State) (gl : Nat) : State :=
  match findOp s id with
  | none => s
  | some o => match o.lane gl with
    | none => s
    | some l =>
      if l.st ≠ .todo then s
      else match o.kind with
        | .lds _ _ => spadLane s o l
        | .sts _ => spadLane s o l
        | .stm _ => stmLane s o l
        | .sttr => s
        | k =>
          if !canonical l.va then setLaneSt s id gl (.fault fcPageAbsent 1 0 l.va)
          else match (if o.replayOf.isSome then none else tlbTry s o.core o.asid o.tenant l.va k.acc) with
            | some tr => applyTr s id gl tr
            | none => queueWalk s ⟨o.asid, o.tenant, l.va, 1, id, o.core⟩

/-- An operation's lanes taken as far as they go, in ascending gang lane (R109). -/
def advanceOp (s : State) (id : Nat) : State :=
  match findOp s id with
  | none => s
  | some o =>
    if o.kind = .sttr then (if o.lanes.all (fun l => l.st == .todo) then sttrStep s o else s)
    else (o.lanes.map MLane.gl).foldl (stepLane id) s

/-! ## Completion -/

/-- The words that a lane's data gives its destinations (Table 13.2, R391, R395, R397). -/
def laneWords (k : MKind) (d : List Byte) : List W32 :=
  let w := fun i => BitVec.ofNat 32 (natAt d (4 * i) 4)
  match k with
  | .load n sgn =>
    if n < 4 then [BitVec.ofNat 32 (wrapN 32 (ival sgn (8 * n) (natLE d)))] else (List.range (n / 4)).map w
  | .lds n sgn =>
    if n < 4 then [BitVec.ofNat 32 (wrapN 32 (ival sgn (8 * n) (natLE d)))] else (List.range (n / 4)).map w
  | .unpk =>
    let x := natLE d
    [BitVec.ofNat 32 (ofElems 8 ((List.range 4).map (fun i => elem 4 i x))),
     BitVec.ofNat 32 (ofElems 8 ((List.range 4).map (fun i => elem 4 (4 + i) x)))]
  | .atom _ n _ => (List.range (n / 4)).map w
  | .ll n => (List.range (n / 4)).map w
  | .sc _ => [BitVec.ofNat 32 (natAt d 0 1)]
  | .ldt w => (List.range (w / 8)).map (fun i => BitVec.ofNat 32 (natAt d (4 * i) 4))
  | .store _ => [] | .sts _ => [] | .sttr => [] | .stm _ => []

/-- Destination bytes of an LDT lane: its four elements of the transposed block (R396). -/
def ldtData (o : MemOp) (w : Nat) (gl : Nat) : List Byte :=
  let h := gl / 16 * 16
  let c := (gl - h) / 4
  let q := (gl - h) % 4
  let el := fun k => match o.lane (h + 4 * q + k) with
    | some l => elem w c (natLE l.data)
    | none => 0
  bytesLE (w / 2) (ofElems w ((List.range 4).map el))

/-- A lane's destination registers written with words; a checkpoint that holds the slice takes them as well (R201). -/
def writeLaneRegs (s : State) (tid n lane : Nat) (regs : List Nat) (ws : List W32) : State :=
  let put := fun (sl : Slice) => (regs.zip ws).foldl (fun sl p => wrV sl p.1 lane p.2) sl
  updTeam s tid (fun t =>
    match episodeOf t n with
    | none => t.mapSlices [n] (fun _ sl => put sl)
    | some e => { t with gambit := t.gambit.map (fun x =>
        if x.lead = e.lead then { x with snap := x.snap.map (fun p => if p.1 = n then (p.1, put p.2) else p) } else x) })

/-- The data of every done lane written to its destinations. -/
def writeDone (s : State) (o : MemOp) : State :=
  o.lanes.foldl (fun s l =>
    if l.st = .done ∧ !o.dests.isEmpty then
      let d := match o.kind with | .ldt w => ldtData o w l.gl | _ => l.data
      writeLaneRegs s o.tid (o.sliceOf l.gl) (l.gl % 4) o.dests (laneWords o.kind d)
    else s) s

/-- The fault of a lane. -/
def MLane.flt (l : MLane) : Option (Nat × Nat × Nat × W64) :=
  match l.st with
  | .fault c x lev va => some (c, x, lev, va)
  | .todo => none | .zero _ => none | .sent _ => none | .done => none

/-- LDT's coupling: where a row of a group faults, every lane of the group takes the lowest faulting lane's fault
(R396). -/
def coupleLdt (o : MemOp) : MemOp :=
  { o with lanes := o.lanes.map (fun l =>
      match ((o.lanes.filter (fun m => m.gl / 16 == l.gl / 16)).findSome? MLane.flt) with
      | none => l
      | some (c, x, lev, va) => { l with st := .fault c x lev va }) }
def couple (o : MemOp) : MemOp := match o.kind with | .ldt _ => coupleLdt o | _ => o

/-- An entry's lanes, to be performed again. Multicast members that are done stay so; the others are sent again
(R252). -/
def redoLanes (ls : List MLane) : List MLane :=
  ls.map (fun l => { l with st := .todo, data := [], mstat := l.mstat.map (fun x => if x = 0 then 0 else x) })

/-- How an entry of a code replays by itself: after its flip, once no lock blocks it, or not at all (R246). -/
def autoOf (s : State) (ten code : Nat) : Nat :=
  if code = fcPageElsewhere ∧ autoFlip s ten then 1 else if code = fcRangeLock ∧ !lockTrap s ten then 2 else 0

/-- The flip that a PAGE_ELSEWHERE entry asks for. -/
def askFlip (s : State) (o : MemOp) (code : Nat) (lanes : List MLane) : State :=
  if code = fcPageElsewhere ∧ autoFlip s o.tenant then
    lanes.foldl (fun s l => match l.flt with
      | some (_, _, _, va) => flipAsk s o.asid o.tenant va false
      | none => s) s
  else s

/-- The faulted lanes of an operation divided by code, cause and level, in ascending order of lowest lane; a multicast
lane that faulted at members stands alone (R243, R252). -/
def groupFaults : Nat → List MLane → List (List MLane)
  | 0, _ => []
  | n + 1, ls =>
    match ls with
    | [] => []
    | l :: r =>
      let same := fun (m : MLane) => m.mstat.isEmpty && l.mstat.isEmpty &&
        (match m.flt, l.flt with
         | some (c, x, v, _), some (c', x', v', _) => c == c' && x == x' && v == v'
         | _, _ => false)
      (l :: r.filter same) :: groupFaults n (r.filter (fun m => !same m))

/-- Faulted lanes enter the operand log (R243). A RED lane after FABRIC_TIMEOUT is not replayable (R156, Table 5.7). -/
def logFaults (s : State) (o : MemOp) : State :=
  let bad := sortOn MLane.gl (o.lanes.filter (fun l => l.flt.isSome))
  (groupFaults 64 bad).foldl (fun s ls =>
    match ls with
    | [] => s
    | l :: _ => match l.flt with
      | none => s
      | some (c, x, lev, va) =>
        let red := match o.kind with | .atom _ _ r => !r | _ => false
        let e := { o with lanes := ls.map (fun l => { l with st := .todo }) }
        raiseLane (askFlip s o c ls) e c x lev va (red && c == fcFabricTimeout) (autoOf s o.tenant c)) s

/-- A Gambit episode that waits for the operation ends: its blocking load has returned (R201). -/
def endBlocking (s : State) (o : MemOp) : State :=
  match findTeam s o.tid with
  | none => s
  | some t => match t.gambit.find? (fun e => e.blockOp == o.id) with
    | none => s
    | some e => endGambit s o.tid e.lead 0

/-- A replay ends: lanes done leave the entry, lanes that faulted again are recorded anew (R249). -/
def finishReplay (s : State) (o : MemOp) (id : Nat) : State :=
  let bad := sortOn MLane.gl (o.lanes.filter (fun l => l.flt.isSome))
  match bad with
  | [] => dropEntry s o.core id
  | l :: _ => match l.flt with
    | none => s
    | some (c, x, lev, va) =>
      let auto := autoOf s o.tenant c
      let red := match o.kind with | .atom _ _ r => !r | _ => false
      let s := askFlip s o c bad
      let new := fun (e : OpEntry) =>
        { e with op := { e.op with lanes := bad.map (fun l => { l with st := .todo }) }, code := c, cause := x, level := lev,
                 va, st := 0, action := 0, ptGen := (tsysGet s o.tenant srPtGen).toNat, auto,
                 notReplay := red && c == fcFabricTimeout }
      let s := updCore s o.core (fun k => { k with log := k.log.map (fun e => if e.id = id then new e else e) })
      match (coreOf s o.core).log.find? (fun e => e.id == id) with
      | none => s
      | some e => if auto = 0 then emit s o.tenant (logRec s e) id else s

/-- An operation that needs nothing more completes: destinations written, faults logged (R243, R249). -/
def completeOp (s : State) (id : Nat) : State :=
  match findOp s id with
  | none => s
  | some o =>
    if !o.final then s
    else
      let o := couple o
      let s := { s with memops := s.memops.filter (fun p => p.id != id) }
      let s := writeDone s o
      let s := match o.replayOf with
        | some e => finishReplay s o e
        | none => endBlocking (logFaults s o) o
      { s with clusters := s.clusters.map (fun p => (p.1, { p.2 with walks := p.2.walks.filter (fun w => !(w.kind == 1 && w.op == id)) })) }

/-- A Prefect's operation completes: its register, or its class P fault (R343, R347). -/
def completePref (s : State) (o : MemOp) : State :=
  let s := { s with memops := s.memops.filter (fun p => p.id != o.id) }
  match thePref s o.tid, o.lanes with
  | some p, l :: _ =>
    match l.flt with
    | some (c, x, lev, va) => raisePref { s with word := o.word } p c x lev va
    | none => updTeam s o.tid (fun t =>
        let q := o.dests.foldl (fun q r => wrS q r (BitVec.ofNat 64 (natLE (l.data.take o.kind.bytes)))) t.pf
        { t with pf := { q with pc := q.pc + 4, st := .issuable } })
  | _, _ => s

/-- Every operation of a core with lanes to go taken further. -/
def advanceAll (s : State) : State :=
  (s.memops.filter (fun o => o.lanes.any (fun l => l.st == .todo))).foldl (fun s o => advanceOp s o.id) s

/-- A team is swapped out: what arrives for it is held (R158). -/
def teamOut (s : State) (tid : Nat) : Bool := s.forms.any (fun f => f.out && f.savedTeams.any (fun t => t.tid == tid))

/-- An operation that writes no register completes as soon as it is final, unless its team is out; others wait for
LOAD_RETURN. -/
def settleOp (s : State) (id : Nat) : State :=
  match findOp s id with
  | none => s
  | some o =>
    if !o.final || teamOut s o.tid then s
    else if o.pf then completePref s o
    else if o.dests.isEmpty then completeOp s id
    else s

/-- Bytes of a lane from a reply: its own, or its part of the sector. -/
def replyBytes (l : MLane) (n : Nat) (d : List Byte) : List Byte :=
  if d.length ≤ n then d else (d.drop (l.va.toNat % 32)).take n

/-- The answer to a request of a lane. `cc` says how the sector enters the cluster cache: its physical address and
class. -/
def answerLane (s : State) (id gl : Nat) (r : Reply) (cc : Option (Nat × Nat)) : State :=
  match findOp s id with
  | none => s
  | some o => match o.lane gl with
    | none => s
    | some l =>
      if l.flt.isSome then s
      else match r with
      | .moved => s
      | .fault c x =>
        let s := setLaneSt s id gl (.fault c x (if (c = fcPagePerm ∧ x = 5) ∨ (c = fcPageAbsent ∧ x = 3) then l.level else 0) l.va)
        settleOp (advanceAll s) id
      | .data d =>
        let s := match o.kind, l.st with
          | .stm _, _ =>
            updLane s id gl (fun l =>
              let i := ((List.range l.mstat.length).find? (fun i => l.mstat.getD i 0 == 4)).getD 0
              let own := match groupOf s o.tenant (bits 9 0 l.va) with
                | some g => ((List.range g.members.length).find? (fun j =>
                    l.mstat.getD j 0 == 4 && (g.members.getD j (0, 0)).1 == ownDev s)).getD i
                | none => i
              let st := l.mstat.set own 0
              { l with mstat := st, st := mstatSt st (mcastVa (bits 9 0 l.va) st.length) })
          | _, .sent (k + 2) => setLaneSt s id gl (.sent (k + 1))
          | k, _ =>
            let full := d.length == 32 && cc.isSome
            let (d, s) := match cc with
              | some (pa, cls) =>
                let d := if full then overBacks s o.cluster o.tenant pa d else d
                if full && (cls == 0 || (cls == 1 && (ccFind s o.cluster o.tenant pa).isSome)) &&
                    decide (0 < ccWays s o.cluster) then
                  let (x, s) := ccEnsure s o.cluster o.tenant pa
                  let x := ccMerge x pa d
                  ((lineBytes x.data).drop (pa % 128 / 32 * 32) |>.take 32, ccPut s o.cluster x)
                else (d, s)
              | none => (d, s)
            updLane s id gl (fun l => { l with st := .done, data := replyBytes l k.bytes d })
        settleOp (advanceAll s) id

end Sys2Proof.Machine
end

