-- ==== Sys2Proof/Machine/PrefAlu.lean ====
section
/-! DEFINITION. The Prefect's scalar ALU, branches and system instructions that touch no memory (R343 to R355). -/

namespace Sys2Proof.Machine

/-- A Prefect changed, and its program counter advanced past the instruction. -/
def prefDone (s : State) (p : Pref) (f : Prefect → Prefect) : State :=
  updTeam s p.team.tid (fun t => let q := f t.pf; { t with pf := { q with pc := q.pc + 4, st := .issuable } })

/-- A Prefect instruction that computes one register; `ok` is its encoding check. -/
def prefAlu (d : SReg) (ok : Bool) (f : Prefect → W64) (s : State) : Out :=
  withPref s (fun p => if ok then prefDone s p (fun q => wrS q d.toNat (f q)) else illegalPref s p)
/-- Register form with A = s(sa) and B = s(sb) (R344). -/
def prefReg (d a b : SReg) (f : W64 → W64 → W64) (s : State) : Out :=
  prefAlu d true (fun q => f (rdS q a.toNat) (rdS q b.toNat)) s
/-- Immediate form (R346). -/
def prefImm (d a : SReg) (ok : Bool) (f : W64 → W64) (s : State) : Out :=
  prefAlu d ok (fun q => f (rdS q a.toNat)) s

/-- The signed quotient truncated toward zero; B = 0 gives −1 (R345). -/
def sdivW (a b : W64) : W64 := if b = 0 then BitVec.allOnes 64 else BitVec.ofInt 64 (a.toInt.tdiv b.toInt)
/-- The remainder with the sign of A; B = 0 gives A (R345). -/
def sremW (a b : W64) : W64 := if b = 0 then a else BitVec.ofInt 64 (a.toInt.tmod b.toInt)

/-- SADD (Table 11.4). -/
def execSadd (d a b : SReg) (s : State) : Out := prefReg d a b (fun x y => x + y) s
/-- SSUB (Table 11.4). -/
def execSsub (d a b : SReg) (s : State) : Out := prefReg d a b (fun x y => x - y) s
/-- SMUL (Table 11.4). -/
def execSmul (d a b : SReg) (s : State) : Out := prefReg d a b (fun x y => x * y) s
/-- SMULH: bits [127:64] of the signed product (Table 11.4). -/
def execSmulh (d a b : SReg) (s : State) : Out :=
  prefReg d a b (fun x y => BitVec.ofInt 64 (x.toInt * y.toInt / (2 ^ 64 : Int))) s
/-- SDIV (R345). -/
def execSdiv (d a b : SReg) (s : State) : Out := prefReg d a b sdivW s
/-- SREM (R345). -/
def execSrem (d a b : SReg) (s : State) : Out := prefReg d a b sremW s
/-- SAND (Table 11.4). -/
def execSand (d a b : SReg) (s : State) : Out := prefReg d a b (fun x y => x &&& y) s
/-- SOR (Table 11.4). -/
def execSor (d a b : SReg) (s : State) : Out := prefReg d a b (fun x y => x ||| y) s
/-- SXOR (Table 11.4). -/
def execSxor (d a b : SReg) (s : State) : Out := prefReg d a b (fun x y => x ^^^ y) s
/-- SSHL by B[5:0] (Table 11.4). -/
def execSshl (d a b : SReg) (s : State) : Out := prefReg d a b (fun x y => x <<< (y.toNat % 64)) s
/-- SSHR by B[5:0] (Table 11.4). -/
def execSshr (d a b : SReg) (s : State) : Out := prefReg d a b (fun x y => x >>> (y.toNat % 64)) s
/-- SSRA by B[5:0] (Table 11.4). -/
def execSsra (d a b : SReg) (s : State) : Out := prefReg d a b (fun x y => x.sshiftRight (y.toNat % 64)) s
/-- SMIN, signed (Table 11.4). -/
def execSmin (d a b : SReg) (s : State) : Out := prefReg d a b (fun x y => if sltW y x then y else x) s
/-- SMAX, signed (Table 11.4). -/
def execSmax (d a b : SReg) (s : State) : Out := prefReg d a b (fun x y => if sltW x y then y else x) s
/-- SSLT (Table 11.4). -/
def execSslt (d a b : SReg) (s : State) : Out := prefReg d a b (fun x y => boolW (sltW x y)) s
/-- SSLTU (Table 11.4). -/
def execSsltu (d a b : SReg) (s : State) : Out := prefReg d a b (fun x y => boolW (decide (x.toNat < y.toNat))) s
/-- SMOV (Table 11.4). -/
def execSmov (d a : SReg) (s : State) : Out := prefImm d a true (fun x => x) s
/-- SADDI (R346). -/
def execSaddi (d a : SReg) (i : BitVec 10) (s : State) : Out := prefImm d a true (fun x => x + i.signExtend 64) s
/-- SANDI (R346). -/
def execSandi (d a : SReg) (i : BitVec 10) (s : State) : Out := prefImm d a true (fun x => x &&& i.signExtend 64) s
/-- SORI (R346). -/
def execSori (d a : SReg) (i : BitVec 10) (s : State) : Out := prefImm d a true (fun x => x ||| i.signExtend 64) s
/-- SXORI (R346). -/
def execSxori (d a : SReg) (i : BitVec 10) (s : State) : Out := prefImm d a true (fun x => x ^^^ i.signExtend 64) s
/-- SSHLI: an amount above 63 is ILLEGAL (R346). -/
def execSshli (d a : SReg) (i : BitVec 10) (s : State) : Out :=
  prefImm d a (decide (i.toNat < 64)) (fun x => x <<< i.toNat) s
/-- SSHRI (R346). -/
def execSshri (d a : SReg) (i : BitVec 10) (s : State) : Out :=
  prefImm d a (decide (i.toNat < 64)) (fun x => x >>> i.toNat) s
/-- SSRAI (R346). -/
def execSsrai (d a : SReg) (i : BitVec 10) (s : State) : Out :=
  prefImm d a (decide (i.toNat < 64)) (fun x => x.sshiftRight i.toNat) s
/-- SLUI: sd·1024 + imm10 (R346). -/
def execSlui (d : SReg) (i : BitVec 10) (s : State) : Out :=
  prefAlu d true (fun q => rdS q d.toNat * 1024 + i.setWidth 64) s

/-- A Prefect branch: its new program counter, and what else it changes. -/
def prefJump (f : Prefect → Prefect × W64) (s : State) : Out :=
  withPref s (fun p => updTeam s p.team.tid (fun t =>
    let (q, pc) := f t.pf; { t with pf := { q with pc := pc, st := .issuable } }))
/-- A conditional Prefect branch (R348). -/
def prefBranch (a b : SReg) (d : BitVec 11) (c : W64 → W64 → Bool) (s : State) : Out :=
  prefJump (fun q => (q, if c (rdS q a.toNat) (rdS q b.toNat) then q.pc + dispOf d else q.pc + 4)) s
/-- SB.EQ (R348). -/
def execSbEq (a b : SReg) (d : BitVec 11) (s : State) : Out := prefBranch a b d (fun x y => x == y) s
/-- SB.NE (R348). -/
def execSbNe (a b : SReg) (d : BitVec 11) (s : State) : Out := prefBranch a b d (fun x y => x != y) s
/-- SB.LT (R348). -/
def execSbLt (a b : SReg) (d : BitVec 11) (s : State) : Out := prefBranch a b d sltW s
/-- SB.GE (R348). -/
def execSbGe (a b : SReg) (d : BitVec 11) (s : State) : Out := prefBranch a b d (fun x y => !sltW x y) s
/-- SB.LTU (R348). -/
def execSbLtu (a b : SReg) (d : BitVec 11) (s : State) : Out :=
  prefBranch a b d (fun x y => decide (x.toNat < y.toNat)) s
/-- SB.GEU (R348). -/
def execSbGeu (a b : SReg) (d : BitVec 11) (s : State) : Out :=
  prefBranch a b d (fun x y => decide (y.toNat ≤ x.toNat)) s
/-- SJ (R348). -/
def execSj (d : BitVec 11) (s : State) : Out := prefJump (fun q => (q, q.pc + dispOf d)) s
/-- SCALL (R348). -/
def execScall (a : SReg) (d : BitVec 11) (s : State) : Out :=
  prefJump (fun q => (wrS q a.toNat (q.pc + 4), q.pc + dispOf d)) s
/-- SRET (R348). -/
def execSret (a : SReg) (s : State) : Out := prefJump (fun q => (q, rdS q a.toNat)) s
/-- SJR (R348). -/
def execSjr (a : SReg) (d : BitVec 11) (s : State) : Out := prefJump (fun q => (q, rdS q a.toNat + dispOf d)) s

/-- The Prefect waits before its instruction: BARRIER of Table 6.9, nothing else changed. -/
def prefStall (s : State) (p : Pref) (st : SliceSt) : State :=
  updTeam s p.team.tid (fun t => { t with pf := { t.pf with st := st } })

/-- DQPUSH (R192, R350): it waits while 64 entries are unfreed. With no live slice an entry is freed at once. -/
def execDqpush (a : SReg) (s : State) : Out :=
  withPref s (fun p =>
    if 64 ≤ p.team.dq.length then prefStall s p .barrier
    else
      let s := updTeam s p.team.tid (fun t => dqFree { t with dq := t.dq ++ [rdS t.pf a.toNat] })
      prefDone s p (fun q => q))
/-- STIME (R353). -/
def execStime (d : SReg) (s : State) : Out := prefAlu d true (fun _ => s.clock.time) s
/-- SWTIME (R353). -/
def execSwtime (a : SReg) (s : State) : Out :=
  withPref s (fun p =>
    if (rdS p.team.pf a.toNat).toNat ≤ s.clock.time.toNat then prefDone s p (fun q => q) else prefStall s p .barrier)
/-- SBAR (R334, R354): count = 64·h + l. -/
def execSbar (n : BitVec 4) (h l : BitVec 6) (s : State) : Out :=
  withPref s (fun p =>
    let c := 64 * h.toNat + l.toNat
    if 260 < c then illegalPref s p
    else if barWaits s p.team.fid n.toNat (p.team.tid, 64) then s
    else if !barCountOk s p.team.fid n.toNat c then illegalPref s p
    else barArrive p.team.fid n.toNat c s (p.team.tid, 64))
end Sys2Proof.Machine
end

