-- ==== Sys2Proof/Machine/Mem.lean ====
section
/-! DEFINITION. The memory instructions of gangs and Prefects (chapter 13, R347, R351, R352, R357) and the fences
(R112 to R115, R403, R404). -/

namespace Sys2Proof.Machine

/-! ## Gang memory instructions -/

/-- How an instruction acts in Gambit (Table 6.6). -/
inductive GAct where
  | ends | dropped | loads
  deriving DecidableEq, Repr

/-- A memory instruction of a gang: operands in the order of their reads (R295, R389), destinations, its checks. -/
structure MSpec where
  instr : Instr
  wait : Nat := 1
  enc : Bool := true
  legal : W64 → Bool := fun _ => true
  a : Nat
  aPair : Bool := true
  disp : W64 → Int := fun _ => 0
  b : W64 → List Nat := fun _ => []
  /-- b is the pair of a second address (R398). -/
  bAddr : Bool := false
  ds : W64 → List Nat := fun _ => []
  dests : W64 → List Nat := fun _ => []
  act : GAct

/-- n registers from r, which must be a multiple of n. -/
def groupRegs (r n : Nat) : List Nat := (List.range n).map (fun i => r + i)
/-- Registers of an access of n bytes. -/
def regCount (n : Nat) : Nat := if n ≤ 4 then 1 else n / 4

def MSpec.addrRegs (sp : MSpec) : List Nat := if sp.aPair then [sp.a, sp.a + 1] else [sp.a]
/-- Every operand register lies below N and the address pair is even (R385). -/
def MSpec.ok (sp : MSpec) (n : Nat) (m : W64) : Bool :=
  sp.legal m && (!sp.aPair || sp.a % 2 == 0) &&
  (sp.addrRegs ++ sp.b m ++ sp.ds m ++ sp.dests m).all (fun r => decide (r < n))
def MSpec.reads (sp : MSpec) (m : W64) : List (RegId × Nat) :=
  sp.addrRegs.map (fun r => (.v r, 0)) ++ (sp.b m).map (fun r => (.v r, 1)) ++ (sp.ds m).map (fun r => (.v r, 2)) ++
  [(.p (modeGuard m), 0)]

/-- An address pair's value in a lane. -/
def pairVal (sl : Slice) (r l c : Nat) : W64 := readV sl (r + 1) l c ++ readV sl r l c
/-- The bytes of registers in a lane. -/
def regBytes (sl : Slice) (rs : List Nat) (l c : Nat) : List Byte :=
  rs.flatMap (fun r => bytesLE 4 (readV sl r l c).toNat)

/-- A lane's addresses and captured data (R243, R385). -/
def MSpec.lane (sp : MSpec) (g : Gang) (q : Nat × Slice × Nat) : MLane :=
  let sl := q.2.1
  let l := q.2.2
  let m := g.mode
  let c := sl.count + max sp.wait 1
  let base : W64 := if sp.aPair then pairVal sl sp.a l c else (readV sl sp.a l c).setWidth 64
  { gl := gangLane q.1 l, va := base + BitVec.ofInt 64 (sp.disp m),
    va2 := if sp.bAddr then pairVal sl ((sp.b m).getD 0 0) l (c + 1) else 0,
    regs := regBytes sl sp.addrRegs l c ++ regBytes sl (sp.b m) l (c + 1) ++ regBytes sl (sp.ds m) l (c + 2),
    src := (if sp.bAddr then [] else regBytes sl (sp.b m) l (c + 1)) ++ regBytes sl (sp.ds m) l (c + 2) }

/-- Where a lane's access goes: virtual or form offset, first byte, length. -/
def rangesOf (k : MKind) (l : MLane) : List (Bool × Nat × Nat) :=
  match k with
  | .lds n _ => [(false, l.va.toNat, n)]
  | .sts n => [(false, l.va.toNat, n)]
  | .sttr => [(true, l.va.toNat, 4), (true, l.va2.toNat, 4)]
  | .stm n => [(true, bits 9 0 l.va * 2 ^ 40 + bits 63 10 l.va, n)]
  | k => [(true, l.va.toNat, k.bytes)]

/-- Some lane accesses a byte that an unreplayed entry of the same thread accesses (R244). -/
def meetsEntry (s : State) (t : Team) (ns : List Nat) (home : Nat) (k : MKind) (ls : List MLane) : Bool :=
  (gangEntries s t ns).any (fun e => e.op.gang == home && e.op.lanes.any (fun x => ls.any (fun l => l.gl == x.gl &&
    (rangesOf k l).any (fun r => (rangesOf e.op.kind x).any (fun q => r.1 == q.1 && overlaps r.2.1 r.2.2 q.2.1 q.2.2)))))

/-- Alignment that an access needs, and whether a lane misses it (R386, R390, R398, R401). -/
def misaligned (k : MKind) (l : MLane) : Option W64 :=
  let n := k.bytes
  match k with
  | .sttr => if l.va.toNat % 4 ≠ 0 then some l.va else if l.va2.toNat % 4 ≠ 0 then some l.va2 else none
  | .stm n => if bits 63 10 l.va % n ≠ 0 then some (mcastVa (bits 9 0 l.va) 0) else none
  | _ => if l.va.toNat % n ≠ 0 then some l.va else none

/-- Lanes marked MISALIGN before translation; STTR's lanes together (R251, R386). -/
def markAlign (k : MKind) (ls : List MLane) : List MLane :=
  match k with
  | .sttr => match ls.findSome? (misaligned k) with
    | none => ls
    | some va => ls.map (fun l => { l with st := .fault fcMisalign 0 0 va })
  | k => ls.map (fun l => match misaligned k l with
    | none => l
    | some va => { l with st := .fault fcMisalign 0 0 va })

/-! ## Loads in Gambit -/

/-- What the cluster cache or the issuing die's L2 holds of an address (Table 6.6). -/
def gambitHeld (s : State) (cl ten pa n : Nat) (far : Bool) : Option (List Byte) :=
  let die := cl / 64
  let l2 := if !far && homeDie pa == die then
      (l2Find s (homeSlice pa) pa false true 0).bind (fun _ => if poisoned s pa n then none else some (mgetAll s.mem pa n))
    else (l2Find s (96 * die + l2Slice pa) pa far false (rdcGen s die)).map (fun x => ((lineBytes x.data).drop (pa % 128)).take n)
  if far then l2 else match ccLoad s cl ten pa n with
    | some d => some d
    | none => l2

/-- A prefetch of a sector (R29, R45, R399): nothing for pod memory, nothing where the class is UNCACHED. `near` lets it
go on into the cluster cache. None where no request is sent. -/
def prefReq (s : State) (core ten : Nat) (va : W64) (e : W64) (level : Nat) (cls : Nat) (near : Bool) : Option State :=
  let cl := clusterOfCore core
  let pa := leafPa e level va
  let remote := pteFar e || homeDie pa != cl / 64
  let c := classOf e cls
  let c := if remote && !bit 0 (tsysGet s ten srRdcCtl) then 3 else c
  if !isOwnDev s (pteDev e) || c = 3 then none
  else
    let r := mkReq (96 * (cl / 64) + l2Slice pa) pa ten cl c .pref .none (rdcGen s (cl / 64))
      (0, if near && c = 0 && !pteFar e then 1 else 0)
    some (postReq s { r with far := pteFar e })
def prefSend (s : State) (core ten : Nat) (va : W64) (e : W64) (level : Nat) (cls : Nat) (near : Bool) : State :=
  (prefReq s core ten va e level cls near).getD s

/-- SYS.GAMBIT_CNT of a core, a field counted up (Table 6.8). -/
def gcntUp (s : State) (core lo : Nat) : State := updCore s core (fun c => { c with gcnt := cntUp c.gcnt lo })
/-- A prefetch of a gang in Gambit, counted in PREFS when it is sent. -/
def gambitPref (s : State) (core ten : Nat) (va e : W64) (level cls : Nat) : State :=
  match prefReq s core ten va e level cls false with
  | some s => gcntUp s core 32
  | none => s

/-- One lane of a Gambit load: its bytes where they are at hand, and the prefetch or the Gambit walk it starts. One that
overlaps a DST lock is dropped (R98). -/
def gambitLane (s : State) (g : Gang) (va : W64) (n : Nat) : Option (List Byte) × State :=
  let core := g.team.core
  let ten := g.grid.tenant
  if va.toNat % n ≠ 0 ∨ !canonical va then (none, s)
  else match tlbTry s core g.grid.asid ten va .read with
    | none =>
      let w : Walk := ⟨g.grid.asid, ten, va, 4, modeCc g.mode, core⟩
      (none, if walkRoom s w then gcntUp (queueWalk s w) core 16 else s)
    | some (.ok e level) =>
      let pa := leafPa e level va
      if !isOwnDev s (pteDev e) || (!pteFar e && lockOver s pa n CkEntry.dst) then (none, s)
      else
        match gambitHeld s (clusterOfCore core) ten pa n (pteFar e) with
        | some d => (some d, s)
        | none => (none, gambitPref s core ten va e level (modeCc g.mode))
    | some (.fault _ _ _) => (none, s)
    | some (.zero _) => (none, s)
    | some .wait => (none, s)

/-- A load's lanes in Gambit: INV where the address is INV, the access would fault, or the line is not at hand. -/
def gambitLoad (sp : MSpec) (k : MKind) (s : State) (g : Gang) (legal : Bool) : State :=
  let m := g.mode
  let act := activeLanes g sp.wait
  let regs := (sp.dests m).filter (fun r => decide (r < g.team.nregs))
  let invA := fun (q : Nat × Slice × Nat) => sp.addrRegs.any (fun r =>
    isInv q.2.1 (.v r) q.2.2 || isShort q.2.1 (.v r) (q.2.1.count + max sp.wait 1))
  match gambitSaves g.team ((distinct (act.map Prod.fst)).flatMap (fun n => regs.map (fun r => (n, r)))) with
  | none => endGambit s g.team.tid g.lead 3
  | some t =>
    let s := updTeam s g.team.tid (fun _ => t)
    let r := act.foldl (fun (p : List (MLane × Option (List Byte)) × State) q =>
      let l := sp.lane g q
      if !legal || invA q then (p.1 ++ [(l, none)], p.2)
      else match k with
        | .lds n _ =>
          match findForm p.2 g.team.fid with
          | some f => if winOk f l.va.toInt n && l.va.toNat % n == 0 then
                (p.1 ++ [(l, some (spadRead p.2 f l.va.toInt.toNat n))], p.2) else (p.1 ++ [(l, none)], p.2)
          | none => (p.1 ++ [(l, none)], p.2)
        | k => let (d, s) := gambitLane p.2 g l.va k.bytes; (p.1 ++ [(l, d)], s)) ([], s)
    let s := r.2
    let miss := fun (x : MLane) => r.1.any (fun y => y.1.gl / 16 == x.gl / 16 && y.2.isNone)
    let got : List (MLane × Option (List Byte)) := match k with
      | .ldt _ => r.1.map (fun x => if miss x.1 then (x.1, none) else x)
      | _ => r.1
    let op : MemOp := { id := 0, core := 0, tid := 0, gid := 0, tenant := 0, asid := 0, pf := false, gang := g.home, slices := [], word := 0,
                        instr := sp.instr, pc := 0, mode := m, dests := regs, issued := 0,
                        lanes := got.map (fun x => { x.1 with data := x.2.getD [] }) }
    finish s g sp.wait none (fun n sl => got.foldl (fun sl x =>
      if op.sliceOf x.1.gl = n then
        let ln := x.1.gl % 4
        match x.2 with
        | none => markInv (regs.map .v) true sl ln
        | some d =>
          let d := match k with | .ldt w => ldtData op w x.1.gl | _ => d
          markInv (regs.map .v) false ((regs.zip (laneWords k d)).foldl (fun sl p => wrV sl p.1 ln p.2) sl) ln
      else sl) sl)

/-! ## Issue -/

/-- A new operation of a gang. -/
def mkOp (s : State) (g : Gang) (sp : MSpec) (ls : List MLane) : MemOp :=
  { id := s.nextId, core := g.team.core, tid := g.team.tid, gid := g.grid.gid, tenant := g.grid.tenant, asid := g.grid.asid,
    pf := false, gang := g.home, slices := g.nums, word := s.word, instr := sp.instr, pc := g.pc, mode := g.mode, lanes := ls,
    dests := sp.dests g.mode, issued := s.clock.cycle, act := laneMask ls }

/-- An operation starts: its lanes go as far as they can, and it completes if nothing is left to wait for. -/
def startOp (s : State) (o : MemOp) : State :=
  let s := { s with memops := s.memops ++ [o], nextId := s.nextId + 1 }
  settleOp (advanceOp s o.id) o.id

/-- A memory instruction of a gang that may issue: operand checks (R316), the holds of R244, then its lanes. -/
def memRun (sp : MSpec) (s : State) (g : Gang) : State :=
  let m := g.mode
  let ok := sp.ok g.team.nregs m && (kindOf sp.instr m).isSome
  let k := (kindOf sp.instr m).getD (.load 4 false)
  if g.ahead then
    if !sp.enc then endGambit s g.team.tid g.lead 5
    else match sp.act with
      | .ends => endGambit s g.team.tid g.lead 1
      | .dropped => finish s g sp.wait none (fun _ sl => sl)
      | .loads => gambitLoad sp k s g ok
  else if !(sp.enc && ok) then illegalGang s g
  else if 4 ≤ (gangEntries s g.team g.nums).length then stall s g .parked
  else match prelude s g sp.wait (sp.reads m) ((sp.dests m).map .v) with
    | some s' => s'
    | none =>
      let ls := (activeLanes g sp.wait).map (sp.lane g)
      if meetsEntry s g.team g.nums g.home k ls then stall s g .parked
      else
        let o := mkOp s g sp (markAlign k ls)
        finish (startOp s o) g sp.wait none (fun _ sl => sl)

/-- A memory instruction of a gang. -/
def memInstr (sp : MSpec) (s : State) : Out := withGang s (memRun sp)

/-- Bytes of a VM access, 0 where MODE makes it illegal. -/
def vmBytes (size : BitVec 2) (m : W64) : Nat := ((sizeAccess size.toNat (modeEtype m)).map Prod.fst).getD 4
/-- d names as many registers as the access needs, aligned to their number (Table 13.2). -/
def vmAligned (d : Nat) (size : BitVec 2) (m : W64) : Bool := d % regCount (vmBytes size m) == 0
/-- The common part of LD, ST, LDS and STS (R389). -/
def vmSpec (i : Instr) (w : BitVec 3) (d a : VReg) (size : BitVec 2) (disp : BitVec 7) (pair load : Bool) (act : GAct) :
    MSpec :=
  let rs := fun m => groupRegs d.toNat (regCount (vmBytes size m))
  { instr := i, wait := w.toNat, a := a.toNat, aPair := pair, legal := vmAligned d.toNat size,
    disp := fun m => disp.toInt * (vmBytes size m : Int),
    ds := fun m => if load then [] else rs m, dests := fun m => if load then rs m else [], act := act }

/-- LD (R390). -/
def execLd (w : BitVec 3) (d a : VReg) (z : BitVec 2) (i : BitVec 7) (s : State) : Out :=
  memInstr (vmSpec (.ld w d a z i) w d a z i true true .loads) s
/-- ST (R390). -/
def execSt (w : BitVec 3) (d a : VReg) (z : BitVec 2) (i : BitVec 7) (s : State) : Out :=
  memInstr (vmSpec (.st w d a z i) w d a z i true false .dropped) s
/-- LDS (R390). -/
def execLds (w : BitVec 3) (d a : VReg) (z : BitVec 2) (i : BitVec 7) (s : State) : Out :=
  memInstr (vmSpec (.lds w d a z i) w d a z i false true .loads) s
/-- STS (R390). -/
def execSts (w : BitVec 3) (d a : VReg) (z : BitVec 2) (i : BitVec 7) (s : State) : Out :=
  memInstr (vmSpec (.sts w d a z i) w d a z i false false .dropped) s

/-- ATOM (R391, R392): op 12 to 15 are unassigned; wide fadd and bfadd2 are ILLEGAL. -/
def execAtom (o : BitVec 4) (w : BitVec 1) (d a b : VReg) (s : State) : Out :=
  let wide := w = 1
  let n := if wide then 2 else 1
  let nb := if o = 9 then 2 * n else n
  memInstr { instr := .atom o w d a b, enc := decide (o.toNat ≤ 11) && !(wide && decide (10 ≤ o.toNat)), a := a.toNat,
             legal := fun _ => d.toNat % n == 0 && b.toNat % nb == 0, b := fun _ => groupRegs b.toNat nb,
             dests := fun _ => groupRegs d.toNat n, act := .ends } s
/-- RED of operations 0 to 7 (R393). -/
def execRed (o : BitVec 3) (w : BitVec 1) (a b : VReg) (s : State) : Out :=
  let n := if w = 1 then 2 else 1
  memInstr { instr := .red o w a b, a := a.toNat, legal := fun _ => b.toNat % n == 0, b := fun _ => groupRegs b.toNat n,
             act := .ends } s
/-- RED fadd (R393). -/
def execRedFadd (a b : VReg) (s : State) : Out :=
  memInstr { instr := .redFadd a b, a := a.toNat, b := fun _ => [b.toNat], act := .ends } s
/-- RED bfadd2 (R393). -/
def execRedBfadd2 (a b : VReg) (s : State) : Out :=
  memInstr { instr := .redBfadd2 a b, a := a.toNat, b := fun _ => [b.toNat], act := .ends } s
/-- LL of 4 bytes (R394, R395). -/
def execLl4 (d a : VReg) (s : State) : Out :=
  memInstr { instr := .ll4 d a, a := a.toNat, dests := fun _ => [d.toNat], act := .ends } s
/-- LL of 8 bytes (R394, R395). -/
def execLl8 (d a : VReg) (s : State) : Out :=
  memInstr { instr := .ll8 d a, a := a.toNat, legal := fun _ => d.toNat % 2 == 0, dests := fun _ => groupRegs d.toNat 2,
             act := .ends } s
/-- SC of 4 bytes (R394, R395). -/
def execSc4 (d a b : VReg) (s : State) : Out :=
  memInstr { instr := .sc4 d a b, a := a.toNat, b := fun _ => [b.toNat], dests := fun _ => [d.toNat], act := .ends } s
/-- SC of 8 bytes (R394, R395). -/
def execSc8 (d a b : VReg) (s : State) : Out :=
  memInstr { instr := .sc8 d a b, a := a.toNat, legal := fun _ => b.toNat % 2 == 0, b := fun _ => groupRegs b.toNat 2,
             dests := fun _ => [d.toNat], act := .ends } s
/-- LDT (R396). -/
def execLdt (d a : VReg) (s : State) : Out :=
  let n := fun m => (ldtWidth (modeEtype m)).getD 32 / 8
  memInstr { instr := .ldt d a, a := a.toNat, legal := fun m => d.toNat % n m == 0,
             dests := fun m => groupRegs d.toNat (n m), act := .loads } s
/-- UNPK (R397). -/
def execUnpk (d a : VReg) (s : State) : Out :=
  memInstr { instr := .unpk d a, a := a.toNat, legal := fun _ => d.toNat % 2 == 0, dests := fun _ => groupRegs d.toNat 2,
             act := .loads } s
/-- STTR (R398). -/
def execSttr (d a b : VReg) (s : State) : Out :=
  memInstr { instr := .sttr d a b, a := a.toNat, legal := fun _ => b.toNat % 2 == 0, b := fun _ => groupRegs b.toNat 2,
             bAddr := true, ds := fun _ => [d.toNat], act := .dropped } s
/-- STM (R401): size 11 is unassigned. -/
def execStm (z : BitVec 2) (a b : VReg) (s : State) : Out :=
  let n := if z = 0 then 1 else if z = 1 then 2 else 4
  memInstr { instr := .stm z a b, enc := z != 3, a := a.toNat, legal := fun _ => b.toNat % n == 0,
             b := fun _ => groupRegs b.toNat n, act := .dropped } s

/-- PREF (R399): never an access and never a fault; the same in Gambit, where an INV lane makes none. -/
def execPref (a : VReg) (l : BitVec 1) (s : State) : Out :=
  withGang s (fun s g =>
    let ok := decide (a.toNat + 1 < g.team.nregs) && a.toNat % 2 == 0
    let sp : MSpec := { instr := .pref a l, a := a.toNat, act := .loads }
    let core := g.team.core
    let run := fun (s : State) =>
      let s := (activeLanes g 1).foldl (fun s q =>
        let va := (sp.lane g q).va
        let inv := g.ahead && sp.addrRegs.any (fun r => isInv q.2.1 (.v r) q.2.2 || isShort q.2.1 (.v r) (q.2.1.count + 1))
        if inv || !canonical va then s
        else match tlbTry s core g.grid.asid g.grid.tenant va .read with
          | none => queueWalk s ⟨g.grid.asid, g.grid.tenant, va, if l = 1 then 3 else 0, modeCc g.mode, core⟩
          | some (.ok e level) => prefSend s core g.grid.tenant va e level (modeCc g.mode) (l = 0)
          | some (.fault _ _ _) => s
          | some (.zero _) => s
          | some .wait => s) s
      finish s g 1 none (fun _ sl => sl)
    if g.ahead then (if ok then run s else finish s g 1 none (fun _ sl => sl))
    else if !ok then illegalGang s g
    else match prelude s g 1 (sp.reads g.mode) [] with
      | some s' => s'
      | none => run s)

/-! ## Segment FIFOs (R59, R400) -/

/-- The FIFO banks of a segment of a cluster. -/
def fifoBanks (s : State) (cl g : Nat) : List Nat := banksIn (segModes s cl g) 2
/-- SRAM key of a ring word of FIFO g. -/
def fifoKey (bs : List Nat) (g e : Nat) : Nat :=
  sramKey (32 * g + bs.getD (e % bs.length) 0) (e / bs.length % 2048)

/-- Words appended to a FIFO. -/
def fifoPush (c : Cluster) (bs : List Nat) (g : Nat) : List W32 → Cluster
  | [] => c
  | x :: r =>
    let f : Fifo := tget {} g c.fifos
    let f' : Fifo := { count := f.count + 1, head := f.head, tail := (f.tail + 1) % (2048 * bs.length) }
    fifoPush { c with sram := tset 0#32 (fifoKey bs g f.tail) x c.sram, fifos := tset {} g f' c.fifos } bs g r

/-- n words removed from a FIFO. -/
def fifoPop (c : Cluster) (bs : List Nat) (g : Nat) : Nat → List W32 × Cluster
  | 0 => ([], c)
  | n + 1 =>
    let f : Fifo := tget {} g c.fifos
    let x := tget 0#32 (fifoKey bs g f.head) c.sram
    let f' : Fifo := { count := f.count - 1, head := (f.head + 1) % (2048 * bs.length), tail := f.tail }
    let (l, c) := fifoPop { c with fifos := tset {} g f' c.fifos } bs g n
    (x :: l, c)

/-- The gangs that wait at a FIFO, in the order in which they reached it (R59). -/
def fifoWaits (s : State) (cl n : Nat) : List (Nat × Nat) :=
  (tget [] n (clusterOf s cl).fifoQ).filter (fun w => match findTeam s w.1 with
    | none => false
    | some t => t.slices.any (fun p => p.1 == w.2 && p.2.st == .barrier))
def setFifoQ (s : State) (cl n : Nat) (l : List (Nat × Nat)) : State :=
  updCluster s cl (fun c => { c with fifoQ := tset [] n l c.fifoQ })
/-- A gang waits at a FIFO, in its place. -/
def fifoWait (s : State) (g : Gang) (n : Nat) : State :=
  let cl := clusterOfCore g.team.core
  let l := fifoWaits s cl n
  let me := (g.team.tid, g.lead)
  stall (setFifoQ s cl n (if l.contains me then l else l ++ [me])) g .barrier
/-- It is a gang's turn at a FIFO: no gang that reached it earlier waits, and no mode change holds it (R51, R59). -/
def fifoTurn (s : State) (g : Gang) (n : Nat) : Bool :=
  let cl := clusterOfCore g.team.core
  !segHeld s cl n && (match fifoWaits s cl n with
    | [] => true
    | w :: _ => w == (g.team.tid, g.lead))
/-- A gang has been served at a FIFO. -/
def fifoLeave (s : State) (g : Gang) (n : Nat) : State :=
  let cl := clusterOfCore g.team.core
  setFifoQ s cl n ((fifoWaits s cl n).filter (fun w => w != (g.team.tid, g.lead)))

/-- The common part of FPUSH and FPOP: the number of the FIFO, or none where the use is ILLEGAL (R50, R400). With no
active lane there is no run. One that waits goes on waiting when a mode change leaves its FIFO no bank (R59). -/
def fifoOf (s : State) (g : Gang) (a : Nat) : Option (Option Nat) :=
  let nums := (activeLanes g 1).map (fun q => (readV q.2.1 a q.2.2 (q.2.1.count + 1)).toNat)
  let excl := match findForm s g.team.fid with | some f => f.excl | none => false
  if !excl then none
  else match nums with
    | [] => some none
    | n :: r => if r.all (fun x => x == n) && decide (n < 4) &&
          (!(fifoBanks s (clusterOfCore g.team.core) n).isEmpty ||
            (fifoWaits s (clusterOfCore g.team.core) n).contains (g.team.tid, g.lead)) then some (some n) else none

/-- FPUSH (R400). -/
def execFpush (a b : VReg) (s : State) : Out :=
  withGang s (fun s g =>
    if g.ahead then endGambit s g.team.tid g.lead 1
    else if !(decide (a.toNat < g.team.nregs) && decide (b.toNat < g.team.nregs)) then illegalGang s g
    else if 4 ≤ (gangEntries s g.team g.nums).length then stall s g .parked
    else if !(gangEntries s g.team g.nums).isEmpty then stall s g .parked
    else match prelude s g 1 [(.v a.toNat, 0), (.v b.toNat, 1), (.p (modeGuard g.mode), 0)] [] with
      | some s' => s'
      | none =>
        match fifoOf s g a.toNat with
        | none => illegalGang s g
        | some none => finish s g 1 none (fun _ sl => sl)
        | some (some n) =>
          let cl := clusterOfCore g.team.core
          let bs := fifoBanks s cl n
          let ws := (activeLanes g 1).map (fun q => readV q.2.1 b.toNat q.2.2 (q.2.1.count + 2))
          let f : Fifo := tget {} n (clusterOf s cl).fifos
          if !fifoTurn s g n || decide (2048 * bs.length < f.count + ws.length) then fifoWait s g n
          else finish (updCluster (fifoLeave s g n) cl (fun c => fifoPush c bs n ws)) g 1 none (fun _ sl => sl))

/-- FPOP (R400). -/
def execFpop (d a : VReg) (s : State) : Out :=
  withGang s (fun s g =>
    if g.ahead then endGambit s g.team.tid g.lead 1
    else if !(decide (a.toNat < g.team.nregs) && decide (d.toNat < g.team.nregs)) then illegalGang s g
    else if !(gangEntries s g.team g.nums).isEmpty then stall s g .parked
    else match prelude s g 1 [(.v a.toNat, 0), (.p (modeGuard g.mode), 0)] [.v d.toNat] with
      | some s' => s'
      | none =>
        match fifoOf s g a.toNat with
        | none => illegalGang s g
        | some none => finish s g 1 none (fun _ sl => sl)
        | some (some n) =>
          let cl := clusterOfCore g.team.core
          let bs := fifoBanks s cl n
          let act := activeLanes g 1
          let f : Fifo := tget {} n (clusterOf s cl).fifos
          if !fifoTurn s g n || decide (f.count < act.length) then fifoWait s g n
          else
            let s := fifoLeave s g n
            let (ws, c) := fifoPop (clusterOf s cl) bs n act.length
            finish (updCluster s cl (fun _ => c)) g 1 none (fun m sl => (act.zip ws).foldl (fun sl x =>
              if x.1.1 = m then wrV sl d.toNat x.1.2.2 x.2 else sl) sl))

/-! ## Fences (R112 to R115, R403) -/

/-- A fence's operands: sets r, w, e, m in bits 0 to 3, and the scope (R403). -/
structure FenceArg where
  p : Nat
  sc : Nat
  ss : Nat

def FenceArg.ok (f : FenceArg) : Bool := f.p != 0 && f.ss != 0 && decide (1 ≤ f.sc) && decide (f.sc ≤ 5)
def FenceArg.has (x n : Nat) : Bool := (x / 2 ^ n) % 2 == 1

/-- Who executes a fence. -/
structure FenceBy where
  tid : Nat
  pf : Bool
  slices : List Nat
  tenant : Nat
  cluster : Nat
  /-- Progress: 0 before the write-back, else the request number below which write-backs are waited for. -/
  mark : Nat

/-- A command's chain has entries that its engine has not started: it has not registered all its range locks (R125). -/
def chainUnread (c : Chain) : Bool := !c.ended

/-- Predecessors that are not yet performed (R114, R125, R130). -/
def fenceWaits (s : State) (b : FenceBy) (p : Nat) : Bool :=
  s.memops.any (fun o => o.tid == b.tid && o.pf == b.pf && (b.pf || o.slices.any (fun n => b.slices.contains n)) &&
    ((FenceArg.has p 0 && o.kind.isR) || (FenceArg.has p 1 && o.kind.isW))) ||
  (FenceArg.has p 1 && b.pf && s.fab.tags.any (fun t => match t.2.use with
    | some (.event _ tid _ _ _ _) => tid == b.tid
    | _ => false)) ||
  (FenceArg.has p 2 && (s.ops.any (fun o => o.phase == 0 && (engineOf s o.eng).chains.any (fun c => c.id == o.chain && c.tid == b.tid)) ||
    s.engines.any (fun e => e.2.chains.any (fun c => c.tid == b.tid && chainUnread c)))) ||
  (FenceArg.has p 3 && b.pf && ((clusterOf s b.cluster).mx.resv.any (fun r => r.tid == b.tid) ||
    (clusterOf s b.cluster).mx.io.any (fun r => r.tid == b.tid)))

/-- Write-backs of the tenant's dirty bytes in the cluster that are not yet performed. -/
def backsPending (s : State) (cl ten mark : Nat) : Bool :=
  s.l2q.any (fun r => r.cluster == cl && r.tenant == ten && decide (r.id < mark) &&
    (match r.kind with | .writeBack _ => true | _ => false))

/-- A fence's next step: complete, or waiting with its progress (R114, Table 4.2, R100). -/
def fenceStep (s : State) (b : FenceBy) (f : FenceArg) : Bool × Nat × State :=
  if fenceWaits s b f.p then (false, b.mark, s)
  else
    let wide := decide (3 ≤ f.sc)
    let back := wide && (FenceArg.has f.p 1 || FenceArg.has f.ss 0)
    let s := if back && b.mark == 0 then ccClean s b.cluster b.tenant false else s
    let mark := if b.mark = 0 then s.nextId else b.mark
    if back && backsPending s b.cluster b.tenant mark then (false, mark, s)
    else
      let s := if wide && FenceArg.has f.ss 0 then ccClean s b.cluster b.tenant true else s
      let s := if decide (4 ≤ f.sc) && FenceArg.has f.ss 0 && bit 0 (tsysGet s b.tenant srRdcCtl) then
          bumpDie s (b.cluster / 64) else s
      (true, 0, s)

/-- An entry of a multicast lane every one of whose members has acknowledged its copy or reported a fault: no fence waits
for it (R137). -/
def memberFault (e : OpEntry) : Bool :=
  (match e.op.kind with | .stm _ => true | _ => false) && e.op.lanes.all (fun l => !l.mstat.isEmpty)

/-- FENCE (R403, R404): parks while predecessor lanes are held in the log, waits without ending its slices' other
state, and releases for the race detector (R104). -/
def execFence (p q : BitVec 4) (c : BitVec 3) (s : State) : Out :=
  let f : FenceArg := ⟨p.toNat, c.toNat, q.toNat⟩
  endingBut s memberFault (fun _ => f.ok) (fun s g =>
    let cl := clusterOfCore g.team.core
    let mark := match g.sl with | [] => 0 | x :: _ => if x.2.st = .scoreboard then x.2.waitOp else 0
    let (ok, m, s) := fenceStep s ⟨g.team.tid, false, g.nums, g.grid.tenant, cl, mark⟩ f
    if !ok then updSlices s g.team.tid g.nums (fun _ sl => { sl with st := .scoreboard, waitOp := m })
    else
      let s := match g.team.det with
        | some n => if FenceArg.has f.p 1 then detRelease s g.grid.tenant n f.sc else s
        | none => s
      finish s g 1 none (fun _ sl => { sl with waitOp := 0 }))

/-- SFENCE (R403). -/
def execSfence (c : BitVec 3) (p q : BitVec 4) (s : State) : Out :=
  let f : FenceArg := ⟨p.toNat, c.toNat, q.toNat⟩
  withPref s (fun x =>
    if !f.ok then illegalPref s x
    else
      let mark := if x.team.pf.st = .scoreboard then x.team.pf.waitOp else 0
      let (ok, m, s) := fenceStep s ⟨x.team.tid, true, [], x.grid.tenant, clusterOfCore x.team.core, mark⟩ f
      if ok then prefDone s x (fun q => { q with waitOp := 0 })
      else updTeam s x.team.tid (fun t => { t with pf := { t.pf with st := .scoreboard, waitOp := m } }))

/-! ## Prefect memory instructions -/

/-- An access of the Prefect to global memory (R347): checked and translated before anything else of the Prefect issues
(R250); it then waits for its answer. -/
def prefAccess (i : Instr) (a : SReg) (disp : W64) (d : SReg) (store : Bool) (s : State) : Out :=
  withPref s (fun p =>
    if s.memops.any (fun o => o.pf && o.tid == p.team.tid) then s
    else
      let va := rdS p.team.pf a.toNat + disp
      let k := (kindOf i 0).getD (.load 8 false)
      if va.toNat % k.bytes ≠ 0 then raisePref s p fcMisalign 0 0 va
      else
        let (tr, s) := xlateNow s p.team.core p.grid.asid p.grid.tenant va k.acc false
        match tr with
        | .zero _ => prefStall s p .scoreboard
        | .wait => prefStall s p .scoreboard
        | .fault c x lev =>
          if c = fcPageElsewhere ∧ autoFlip s p.grid.tenant then
            prefStall (flipAsk s p.grid.asid p.grid.tenant va false) p .scoreboard
          else raisePref s p c x lev va
        | .ok e lev =>
          let o : MemOp :=
            { id := s.nextId, core := p.team.core, tid := p.team.tid, gid := p.grid.gid, tenant := p.grid.tenant,
              asid := p.grid.asid, pf := true, gang := 0, slices := [], word := s.word, instr := i, pc := p.team.pf.pc, mode := 0,
              lanes := [{ gl := 0, va, src := if store then bytesLE k.bytes (rdS p.team.pf d.toNat).toNat else [] }],
              dests := if store then [] else [d.toNat], issued := s.clock.cycle }
          let s := { s with memops := s.memops ++ [o], nextId := s.nextId + 1 }
          settleOp (applyTr (prefStall s p .scoreboard) o.id 0 (.ok e lev)) o.id)

/-- A displacement of the Prefect's loads and stores in bytes (R347). -/
def sdisp (i : BitVec 10) (n : Nat) : W64 := i.signExtend 64 * BitVec.ofNat 64 n

/-- SLD (R347). -/
def execSld (d a : SReg) (i : BitVec 10) (s : State) : Out := prefAccess (.sld d a i) a (sdisp i 8) d false s
/-- SST (R347). -/
def execSst (d a : SReg) (i : BitVec 10) (s : State) : Out := prefAccess (.sst d a i) a (sdisp i 8) d true s
/-- SLD.4 (R347). -/
def execSld4 (d a : SReg) (i : BitVec 10) (s : State) : Out := prefAccess (.sld4 d a i) a (sdisp i 4) d false s
/-- SST.4 (R347). -/
def execSst4 (d a : SReg) (i : BitVec 10) (s : State) : Out := prefAccess (.sst4 d a i) a (sdisp i 4) d true s

/-- An access of the Prefect to the form's scratchpad (R54, R55, R347). -/
def prefSpad (a : SReg) (disp : W64) (d : SReg) (n : Nat) (store : Bool) (s : State) : Out :=
  withPref s (fun p =>
    let off := rdS p.team.pf a.toNat + disp
    if off.toNat % n ≠ 0 then raisePref s p fcMisalign 0 0 off
    else match findForm s p.team.fid with
      | none => illegalPref s p
      | some f =>
        if !winOk f off.toInt n then raisePref s p fcPagePerm 4 0 off
        else if offHeld s f off.toNat then prefStall s p .scoreboard
        else if store then prefDone (spadWrite s f off.toNat (bytesLE n (rdS p.team.pf d.toNat).toNat)) p (fun q => q)
        else prefDone s p (fun q => wrS q d.toNat (BitVec.ofNat 64 (natLE (spadRead s f off.toNat n)))))

/-- SLDS (R347). -/
def execSlds (d a : SReg) (i : BitVec 10) (s : State) : Out := prefSpad a (sdisp i 8) d 8 false s
/-- SSTS (R347). -/
def execSsts (d a : SReg) (i : BitVec 10) (s : State) : Out := prefSpad a (sdisp i 8) d 8 true s
/-- SLDS.4 (R347). -/
def execSlds4 (d a : SReg) (i : BitVec 10) (s : State) : Out := prefSpad a (sdisp i 4) d 4 false s
/-- SSTS.4 (R347). -/
def execSsts4 (d a : SReg) (i : BitVec 10) (s : State) : Out := prefSpad a (sdisp i 4) d 4 true s

/-- An event operation on a local word at its home slice (R220, R221, R352): a write, or an addition. A WAIT entry on its
sector reads again (R220). -/
def eventOp (s : State) (pa ten : Nat) (add : Bool) (v : W64) : State :=
  let x := mem64 s pa
  let s := if add then remoteDrop s pa else s
  let s := { s with queues := s.queues.map (fun p => match p.2.waitPa with
    | some w => if w / 32 = pa / 32 then (p.1, { p.2 with recheck := true }) else p
    | none => p) }
  performStore (spend s (homeSlice pa) ten) pa (bytesLE 8 (if add then x + v else v).toNat) ten 3

/-- QSIGNAL (R352): checks, a release fence, then the event operation; it retires when that is sent. -/
def execQsignal (c : BitVec 3) (o : BitVec 1) (a b : SReg) (s : State) : Out :=
  withPref s (fun p =>
    let va := rdS p.team.pf a.toNat
    if c ≠ 4 ∧ c ≠ 5 then illegalPref s p
    else if va.toNat % 8 ≠ 0 then raisePref s p fcMisalign 0 0 va
    else
      let ten := p.grid.tenant
      let (tr, s) := xlateNow s p.team.core p.grid.asid ten va .atomic false
      match tr with
      | .zero _ => prefStall s p .scoreboard
      | .wait => prefStall s p .scoreboard
      | .fault f x lev =>
        if f = fcPageElsewhere ∧ autoFlip s ten then prefStall (flipAsk s p.grid.asid ten va false) p .scoreboard
        else raisePref s p f x lev va
      | .ok e lev =>
        let pa := leafPa e lev va
        let pod := !isOwnDev s (pteDev e)
        if pteFar e then raisePref s p fcPagePerm 6 lev va
        else if pod && domainOf s ten == 0 then raisePref s p fcPagePerm 5 0 va
        else
          let mark := if p.team.pf.st = .scoreboard then p.team.pf.waitOp else 0
          let (ok, m, s) := fenceStep s ⟨p.team.tid, true, [], ten, clusterOfCore p.team.core, mark⟩ ⟨3, c.toNat, 2⟩
          let hold := fun (s : State) (m : Nat) => updTeam s p.team.tid (fun t => { t with pf := { t.pf with st := .scoreboard, waitOp := m } })
          if !ok then hold s m
          else if !pod then
            if lockBlocks s pa 8 true then raisePref s p fcRangeLock 0 0 va
            else prefDone (eventOp s pa ten (o == 1) (rdS p.team.pf b.toNat)) p (fun q => { q with waitOp := 0 })
          else
            let pk : Packet := { code := 2, pa, n := 8, op := 34 + o.toNat, domain := domainOf s ten, level := lev,
                                 data := bytesLE 8 (rdS p.team.pf b.toNat).toNat }
            match podSend s (p.team.core / 256) (pteDev e) pk (.event ten p.team.tid p.team.teamId p.team.pf.pc s.word va) p.grid.gid with
            | .unreachable => raisePref s p fcFabricTimeout 1 0 va
            | .wait => hold s m
            | .sent s => prefDone s p (fun q => { q with waitOp := 0 }))

/-! ## SRAMCFG (R51, R52, R357) -/

/-- A segment's modes become `m`: the lines of each bank that leaves CACHE are written back and dropped, a changed FIFO set
empties the FIFO, entering SPAD leaves undefined words (R51 steps 3 to 5). -/
def setSegment (s : State) (cl g : Nat) (m : W64) : State :=
  let old := segModes s cl g
  let c := clusterOf s cl
  let leaves := fun (x : CcLine) => x.way / 32 == g && bankMode m (x.way % 32) != 0
  let s := c.cc.foldl (fun s x => if leaves x then ccWriteBack s cl x else s) s
  let s := updCluster s cl (fun c => { c with cc := c.cc.filter (fun x => !leaves x) })
  let s := updCluster s cl (fun c =>
    { c with
      fifos := if banksIn old 2 = banksIn m 2 then c.fifos else tset {} g {} c.fifos
      modes := setAt g m ((List.range 4).map (fun i => (c.modes[i]?).getD (sysReset srSramDefault))) })
  let fresh := ((banksIn m 1).filter (fun j => bankMode old j != 1)).flatMap (fun j => (List.range 2048).map (fun r => sramKey (32 * g + j) r))
  { updCluster s cl (fun c => { c with sram :=
      (fresh.zip (List.range fresh.length)).foldl (fun t p => tset 0#32 p.1 (Config.freeWord (s.fresh + p.2)) t) c.sram })
    with fresh := s.fresh + fresh.length }

/-- Every team window of the form lies in its segment's scratchpad under new modes (R52). -/
def windowsFit (f : Form) (cl mask : Nat) (m : W64) : Bool :=
  (f.cores.zip f.bases).all (fun p =>
    !(clusterOfCore p.1 == cl && (mask / 2 ^ (p.1 % 4)) % 2 == 1) ||
    decide (p.2 * 4096 + f.winLen ≤ 8192 * (banksIn m 1).length))

/-- Accesses already issued to a form's segments: engine operations in transfer, posted matrix and slate commands and their
transfers (R51 step 2). -/
def sramBusy (s : State) (f : Form) (cl : Nat) : Bool :=
  s.ops.any (fun o => o.fid == f.fid && o.phase == 1) ||
  (clusterOf s cl).mx.resv.any (fun r => r.fid == f.fid && r.stop.isNone) ||
  (clusterOf s cl).mx.io.any (fun x => x.fid == f.fid && x.stop.isNone)

/-- A SRAMCFG waits in the cluster, with its mark. -/
def cfgHold (s : State) (p : Pref) (cl mask mark : Nat) : State :=
  let l := cfgWaits s cl
  let l := if l.any (fun c => c.tid == p.team.tid) then l.map (fun c => if c.tid = p.team.tid then { c with mark } else c)
    else l ++ [⟨p.team.tid, mask, mark⟩]
  prefStall (updCluster s cl (fun c => { c with cfgQ := l })) p .scoreboard

/-- A Prefect's SRAMCFG waits in the cluster no more. -/
def cfgLeave (s : State) (cl tid : Nat) : State :=
  if (clusterOf s cl).cfgQ.any (fun c => c.tid == tid) then
    updCluster s cl (fun c => { c with cfgQ := c.cfgQ.filter (fun c => c.tid != tid) })
  else s

/-- SRAMCFG (R357): from its issue on, new accesses to the segments it changes are held; it waits for the SRAMCFG
instructions that the cluster received before it and for the accesses already issued (R51, R52), changes the modes, and
retires once the lines that left are written back. -/
def execSramcfg (m : BitVec 4) (a : SReg) (s : State) : Out :=
  withPref s (fun p =>
    let cl := clusterOfCore p.team.core
    let v := rdS p.team.pf a.toNat
    match findForm s p.team.fid with
    | none => illegalPref s p
    | some f =>
      let mine := (cfgWaits s cl).find? (fun c => c.tid == p.team.tid)
      let first := match cfgWaits s cl with | [] => true | c :: _ => c.tid == p.team.tid
      let mark := match mine with | some c => c.mark | none => 0
      let done := fun (s : State) => advanceAll (prefDone (cfgLeave s cl p.team.tid) p (fun q => q))
      let backs := fun (s : State) (k : Nat) => s.l2q.any (fun r => r.cluster == cl && decide (r.id < k) &&
        (match r.kind with | .writeBack _ => true | _ => false))
      if mark ≠ 0 then (if backs s mark then prefStall s p .scoreboard else done s)
      else if m = 0 ∨ !f.excl ∨ !segValid v ∨ !windowsFit f cl m.toNat v then
        illegalPref (cfgLeave s cl p.team.tid) p
      else if !first || sramBusy s f cl then cfgHold s p cl m.toNat 0
      else
        let s := (List.range 4).foldl (fun s g => if m.getLsbD g then setSegment s cl g v else s) s
        if backs s s.nextId then cfgHold s p cl m.toNat s.nextId else done s)

end Sys2Proof.Machine
end

