-- ==== Sys2Proof/Machine/MemEvents.lean ====
section
/-! DEFINITION. Events of the memory system: walks, zeroing, rebinds, table synchronisation, flips, L2 requests, far
replies, generation bumps, reservations, returning loads, replays by the device itself (R25 to R45, R64 to R101,
R132 to R134). -/

namespace Sys2Proof.Machine

/-! ## Walks -/

/-- The lanes of an operation that wait for the page of a walk take its result (R25, R28). -/
def walkLanes (s : State) (w : Walk) (o : MemOp) : State :=
  let ls := o.lanes.filter (fun l => l.st == .todo && bits 63 16 l.va == bits 63 16 w.va)
  ls.foldl (fun s l =>
    let (tr, s) := walkNow s o.asid o.tenant l.va o.kind.acc
    let s := match tr with
      | .ok e level => tlbFill s o.core o.asid o.tenant l.va e level
      | .fault _ _ _ => s
      | .zero _ => s
      | .wait => s
    applyTr s o.id l.gl tr) s

/-- A walk performed: for lanes that miss, or quietly for a prefetch, counted in PREFS when a gang in Gambit sent it (R25,
R29, R203, R399). One whose reads a slice does not accept yet waits at the walker (R72). -/
def doWalk (s : State) (w : Walk) : State :=
  if w.kind = 1 then
    match findOp s w.op with
    | none => s
    | some o => settleOp (advanceAll (walkLanes s w o)) w.op
  else
    match askFor w.tenant (walkReads s w.asid w.tenant w.va) s with
    | none => queueWalk s w
    | some s =>
      match walkQuiet s w.asid w.tenant w.va .read with
      | none => s
      | some (e, level) =>
        let s := tlbFill s w.core w.asid w.tenant w.va e level
        if w.kind = 4 then gambitPref s w.core w.tenant w.va e level w.op
        else prefSend s w.core w.tenant w.va e level w.op (w.kind = 0)

/-- PAGE_WALK (R25): cluster arg.a performs its oldest walk; lanes that wait for a place at the walker then ask again. -/
def execPageWalk (s : State) : Out :=
  .next (match (clusterOf s s.arg.a).walks with
    | [] => advanceAll s
    | w :: r => advanceAll (doWalk (updCluster s s.arg.a (fun c => { c with walks := r })) w))

/-! ## Zeroing (R38) -/

/-- Every byte of a range set to zero through the home slices: marks and reservations there go. -/
def zeroRange (s : State) (base len : Nat) : State :=
  let s := clearRes s base len
  let inR := fun (a : Nat) => decide (base ≤ a) && decide (a < base + len)
  { s with
    mem := s.mem.filter (fun c => !inR c.1)
    poison := s.poison.filter (fun p => !inR (32 * p))
    rdc := s.rdc.filter (fun p => !inR (rdcLine s p))
    l2 := (s.l2.map (fun p => (p.1, p.2.filter (fun x => x.far || isHomeLine (p.1 / 512) x || !inR (x.line * 128))))).filter
      (fun p => !p.2.isEmpty) }

/-- The lines of a frame that a slice of its die is home to, by the 4 KiB pages that R65 gives it. -/
def frameLines (base len sl : Nat) : Nat :=
  let upTo := fun (x : Nat) => (x % 2 ^ 38 / 4096 + 2 - sl / 32) / 3
  upTo (base + len - 1 + 4096) - upTo base
/-- The zeroing writes of a frame counted at their slices: a token for each as far as the bucket holds them (R71). They are
performed as one, whatever the tokens leave to wait: log entry 108. -/
def zeroSpend (s : State) (ten base len : Nat) : State :=
  (List.range 96).foldl (fun s i =>
    let sl := 96 * homeDie base + i
    let b := bucketNow s sl ten
    { s with buckets := tput (64 * sl + ten) (b - min (b / 21000) (frameLines base len i) * 21000, s.clock.elapsed) s.buckets }) s

/-- The request of another device to zero a frame here joins one under way for it, or is posted, under the tenant of its
export range; a frame that the export check refuses is reported so (R38, R154). -/
def zeroIn (s : State) (p : Packet) : State :=
  match admission s p.domain p.pa .w with
  | none => respond s p 1 []
  | some ten =>
    match s.zeros.find? (fun z => z.dev == 1023 && overlaps p.pa p.n z.base z.len) with
    | some z => { s with zeros := s.zeros.map (fun x => if x = z then { x with asks := x.asks ++ [p] } else x) }
    | none => { s with zeros := s.zeros ++
        [{ leaves := [], dev := 1023, base := p.pa, len := p.n, tenant := ten, begun := false, asks := [p] }] }

/-- ZERO_REQUEST (R38): with arg.ok the request arg.p of another device arrives; otherwise the oldest request not begun
begins: the frame is zeroed, or its device is asked to zero it. -/
def execZeroRequest (s : State) : Out :=
  .next (if s.arg.ok then zeroIn s s.arg.p
    else match s.zeros.find? (fun z => !z.begun) with
      | none => s
      | some z =>
        let begin' := fun (s : State) => { s with zeros := s.zeros.map (fun x => if x = z then { x with begun := true } else x) }
        if z.dev = 1023 then zeroRange (zeroSpend (begin' s) z.tenant z.base z.len) z.base z.len
        else match podSend s (homeDie (z.leaves.headD 0)) z.dev
            { code := 20, pa := z.base, n := z.len, domain := domainOf s z.tenant } (.zero z.base) 0 with
          | .sent s => begin' s
          | .wait => s
          | .unreachable => s)

/-- The report of another device on a frame that it was asked to zero; where none comes, it is asked again (R38, R156). -/
def zeroReport (s : State) (dev base : Nat) (status : Nat) : State :=
  { s with zeros := s.zeros.map (fun z =>
      if z.dev = dev ∧ z.base = base then (if status ≤ 1 then { z with reported := true } else { z with begun := false }) else z) }

/-- Lanes that wait for zeroing go on with a fresh walk, which finds whether their frame is still owed one. -/
def wakeZero (s : State) : State :=
  { s with memops := s.memops.map (fun o => { o with lanes := o.lanes.map (fun l =>
      match l.st with | .zero _ => { l with st := .todo } | _ => l) }) }

/-- ZEROING_COMPLETE (R38): ZP is cleared atomically in every leaf whose walk joined the zeroing, the devices that joined it
are told, and every waiting lane walks again. -/
def execZeroingComplete (s : State) : Out :=
  .next (match s.zeros.find? (fun z => z.begun && (z.dev == 1023 || z.reported)) with
    | none => s
    | some z =>
      let s := { s with zeros := s.zeros.filter (fun x => x != z) }
      let s := z.leaves.foldl (fun s a =>
        let e := mem64 s a
        if pteZp e then homeStore s a (bytesLE 8 (e &&& ~~~0x40#64).toNat) else s) s
      let s := z.asks.foldl (fun s p => respond s p 0 []) s
      let s := updTenant s z.tenant (fun t => { t with zeroings := t.zeroings + 1 })
      advanceAll (wakeZero s))

/-! ## ASIDs -/

/-- An ASID is in use (R31 step 1). -/
def asidUsed (s : State) (a : Nat) : Bool :=
  s.grids.any (fun g => g.asid == a) || s.memops.any (fun o => o.asid == a) || s.ops.any (fun o => o.asid == a) ||
  s.cores.any (fun c => c.2.log.any (fun e => e.op.asid == a)) ||
  s.clusters.any (fun c => c.2.walks.any (fun w => w.asid == a)) ||
  s.engines.any (fun e => e.2.chains.any (fun c => c.asid == a))

/-- A write of SYS.ASID_REBIND (R31): the table entry is read by a request that carries no tenant (R72). A write while
another rebind is in progress changes nothing and shows STATUS busy until that one is done: DESIGN CHOICE, log entry
109. -/
def asidRebind (s : State) (v : W64) : State :=
  let a := bits 15 0 v
  let put := fun (s : State) (st : Nat) => sysSet s srAsidRebind (BitVec.ofNat 64 (a + st * 2 ^ 16))
  if a = 0xFFFF then put s 3
  else if s.rebind.isSome || asidUsed s a then put s 2
  else
    let base := bits 38 16 (sysGet s srAsidBase) * 2 ^ 16 + 8 * a
    let r := { mkReq (homeSlice base) base 0 (64 * homeDie base) 3 (.read 8) (.asid a) 0 (0, 0) with mgmt := true, checked := false }
    put { postReq s r with rebind := some (a, none) } 1

/-- The table entry at hand (R31 steps 2 and 3): GEN advances and is written back, and the binding waits to be put in
force. -/
def asidLoad (s : State) (a pa : Nat) : State :=
  let e := mem64 s pa
  let gen := ((bindOf s a).gen + 1) % 16
  { homeStore s pa (bytesLE 8 (withBits 3 0 gen e).toNat) with
    rebind := some (a, some ⟨bits 38 16 e, bit 15 e, bits 9 4 e, gen⟩) }

/-- ASID_REBIND (R31): a write of arg.v to SYS.ASID_REBIND. -/
def execAsidRebind (s : State) : Out := .next (asidRebind s s.arg.v)

/-- ASID_REBIND_DONE (R31, R32, R515): the binding that was loaded comes into force; a wrap of GEN first removes the ASID's
entries everywhere. -/
def execAsidRebindDone (s : State) : Out :=
  .next (match s.rebind with
    | some (a, some b) =>
      let s := if b.gen = 0 then tlbPurge s (fun t => t.asid == a) else s
      sysSet { s with rebind := none, binds := tset {} a b s.binds } srAsidRebind (BitVec.ofNat 64 a)
    | some (_, none) => s
    | none => s)

/-! ## Table synchronisation (R33, R34) -/

/-- Operations with accesses under a named translation that are sent and not performed (R34 step 4). -/
def syncReqs (s : State) (ten asid page nlog : Nat) : List Nat :=
  (s.memops.filter (fun o => o.tenant == ten && asidNamed s ten asid o.asid && o.lanes.any (fun l =>
    (match l.st with | .sent _ => true | _ => false) &&
    (pageNamed page nlog (bits 54 16 l.va) || (o.kind == .sttr && pageNamed page nlog (bits 54 16 l.va2)))))).map MemOp.id

/-- Memory operands that matrix commands translated at post are translated again where a page of theirs is named
(R452): the reservation forgets them. -/
def syncMatrix (s : State) (ten : Nat) : State :=
  { s with clusters := s.clusters.map (fun p => (p.1, { p.2 with mx :=
      { p.2.mx with resv := p.2.mx.resv.map (fun r => if r.tenant = ten then { r with pas := [] } else r) } })) }

/-- Requests of the tenant's engine operations, matrix transfers, queues and QSIGNALs that are under way at the host adapter
and in the pod, by their numbers (R34 step 4). -/
def syncFars (s : State) (ten : Nat) : List Nat :=
  (s.fars.filter (fun f => f.tenant == ten && (match f.ref with | .lane _ _ => false | _ => true))).map FarReq.id
def syncTags (s : State) (ten : Nat) : List Nat :=
  (s.fab.tags.filter (fun t => match t.2.use with
    | some (.event x _ _ _ _ _) => x == ten
    | some (.engine op _ _) => s.ops.any (fun o => o.id == op && o.tenant == ten)
    | some (.queue q _) => (queueOf s q).tenant == ten
    | some (.matrix cl io) => (clusterOf s cl).mx.io.any (fun x => x.id == io && x.tenant == ten)
    | some (.grid gid) => s.grids.any (fun g => g.gid == gid && g.tenant == ten)
    | some (.fetch gid _) => s.grids.any (fun g => g.gid == gid && g.tenant == ten)
    | some (.zero _) => false
    | some (.lane _ _ _) => false
    | none => false)).map (fun t => t.2.id)
/-- The event words of the tenant's WAIT entries are translated again at their next read. -/
def syncQueues (s : State) (ten : Nat) : State :=
  { s with queues := s.queues.map (fun p =>
      if p.2.tenant = ten ∧ p.2.waitPa.isSome then (p.1, { p.2 with waitPa := none, recheck := true }) else p) }

/-- A synchronisation begins: its number, 0 for an ASID of another tenant, whose write has no effect (R33). An ASID bound to
no tenant counts as another tenant's: DESIGN CHOICE, log entry 110. -/
def ptSyncStart (s : State) (ten : Nat) (v : W64) : Nat × State :=
  let asid := bits 15 0 v
  let page := bits 63 25 v
  let nlog := bits 24 20 v
  if asid ≠ 0xFFFF ∧ !((bindOf s asid).valid && (bindOf s asid).tenant == ten) then (0, s)
  else
    let p : PtSync := { id := s.nextId, tenant := ten, asid, page, nlog, reqs := syncReqs s ten asid page nlog,
                        fars := syncFars s ten, tags := syncTags s ten }
    let s := syncQueues (syncMatrix (syncTables s ten asid page nlog) ten) ten
    (s.nextId, { s with nextId := s.nextId + 1, syncs := s.syncs ++ [p] })

/-- PT_SYNC (R33, R34): the host's write of arg.v to SYS.PT_SYNC of tenant arg.a. -/
def execPtSync (s : State) : Out := .next (ptSyncStart s s.arg.a s.arg.v).2

/-- A synchronisation's four steps are complete. -/
def syncOver (s : State) (p : PtSync) : Bool :=
  !(s.memops.any (fun o => p.reqs.contains o.id && o.lanes.any (fun l => match l.st with | .sent _ => true | _ => false))) &&
  !s.fars.any (fun f => p.fars.contains f.id) && !s.fab.tags.any (fun t => t.2.use.isSome && p.tags.contains t.2.id)

/-! ## Replays begun by the device (R246, R249) -/

/-- A replay of a log entry begins: a fresh operation for its lanes (R249). -/
def startReplay (s : State) (e : OpEntry) : State :=
  let s := updCore s e.op.core (fun c => { c with log := c.log.map (fun x => if x.id = e.id then { x with st := 2 } else x) })
  let ls := e.op.lanes.map (fun l => { l with st := .todo, data := [], mstat := l.mstat.map (fun x => if x = 0 then 0 else 5) })
  let o := { e.op with id := s.nextId, lanes := ls, replayOf := some e.id, issued := s.clock.cycle }
  let s := { s with memops := s.memops ++ [o], nextId := s.nextId + 1 }
  let s := advanceOp s o.id
  match findOp s o.id with
  | none => s
  | some o => if o.final then completeOp s o.id else s

/-- Entries of the machine that meet a test, oldest first. -/
def entriesWhere (s : State) (f : OpEntry → Bool) : List OpEntry := s.cores.flatMap (fun c => c.2.log.filter f)

/-- SKIP of a log entry (R248, R395): its loads, ATOM and LL lanes write 0, its SC lanes write 1; nothing is stored. -/
def skipEntry (s : State) (e : OpEntry) : State :=
  let sc := match e.op.kind with | .sc _ => true | _ => false
  let ls := e.op.lanes.map (fun l => { l with st := .done, data := if sc then bytesLE 4 1 else [] })
  advanceAll (dropEntry (writeDone s { e.op with lanes := ls }) e.op.core e.id)

/-- An entry in RESUME_SET acts: SKIP, or its replay (R248, R249). -/
def resumeEntry (s : State) (e : OpEntry) : State := if e.action = 1 then skipEntry s e else startReplay s e

/-- OPERAND_LOG_REPLAY (R249): the first entry in RESUME_SET acts. -/
def execOperandLogReplay (s : State) : Out :=
  .next (match entriesWhere s (fun e => e.st == 1) with
    | [] => s
    | e :: _ => resumeEntry s e)

/-- A lock blocks a lane of an entry: where its address can be translated. -/
def entryBlocked (s : State) (e : OpEntry) : Bool :=
  e.op.lanes.any (fun l => [l.va, l.va2].any (fun va =>
    (va == l.va || e.op.kind == .sttr) &&
    (match walkQuiet s e.op.asid e.op.tenant va e.op.kind.acc with
     | some (f, lev) => !pteFar f && isOwnDev s (pteDev f) && lockBlocks s (leafPa f lev va) e.op.kind.bytes e.op.kind.isW
     | none => false)))

/-- LOCK_REPLAY (R94, R246): the first entry that no lock blocks any more replays by itself. -/
def execLockReplay (s : State) : Out :=
  .next (match entriesWhere s (fun e => e.auto == 2 && e.st == 0 && !entryBlocked s e) with
    | [] => s
    | e :: _ => startReplay s e)

/-! ## Ownership flips (R39 to R41) -/

/-- The leaf set to one side's, its page synchronised, the flip's time kept; the request stays at the agent until that
synchronisation has retired (R40, R41). A far page is never the host's (R42). -/
def flipNow (s : State) (f : FlipReq) : State :=
  let none' := { s with flips := s.flips.filter (fun x => x != f) }
  match leafSlot s f.asid f.va with
  | none => none'
  | some (a, e, level) =>
    let go := if f.toHost then pteV e && !pteFar e else !pteV e && pteElse e
    if !go then none'
    else
      let e' := if f.toHost then withBits 5 5 1 (withBits 0 0 0 e) else withBits 5 5 0 (withBits 0 0 1 e)
      let page := pageOf s f.asid f.va
      let nlog := if level = 2 then 13 else 0
      let s := homeStore s a (bytesLE 8 e'.toNat)
      let (id, s) := ptSyncStart s f.tenant (BitVec.ofNat 64 (page * 2 ^ 25 + nlog * 2 ^ 20 + f.asid))
      let key := (f.asid, page)
      { s with flips := s.flips.map (fun x => if x = f then { x with asked := true, sync := some id } else x)
               flipped := s.flipped.filter (fun p => p.1 != key) ++ [(key, nsOf s)] }

/-- Entries that wait for a page's flip replay (R40 step 5). -/
def flipReplays : Nat → State → FlipReq → State
  | 0, s, _ => s
  | n + 1, s, f =>
    let on := fun (va : W64) => pageOf s f.asid va == pageOf s f.asid f.va
    match entriesWhere s (fun e => e.auto == 1 && e.st == 0 && e.op.asid == f.asid && e.op.tenant == f.tenant &&
        e.op.lanes.any (fun l => on l.va || on l.va2)) with
    | [] => s
    | e :: _ => flipReplays n (startReplay s e) f

/-- ADAPTER_FLIP_REPLY (R40): the oldest flip toward the device that the adapter was asked for goes through. -/
def execAdapterFlipReply (s : State) : Out :=
  .next (match s.flips.find? (fun f => f.asked && f.sync.isNone && !f.toHost) with
    | none => s
    | some f => flipNow s f)

/-- HOST_FLIP (R40 to R42): a host fault on the page of address arg.v under ASID arg.a, with HOSTFLIP = 1; it waits for the
hold and for an earlier flip of the page. -/
def execHostFlip (s : State) : Out :=
  let ten := (bindOf s s.arg.a).tenant
  .next (if !bit 1 (tsysGet s ten srPtCtl) then s
    else
      let f : FlipReq := { asid := s.arg.a, tenant := ten, va := s.arg.v, toHost := true, asked := false }
      if s.flips.any (fun x => x.asid == f.asid && pageOf s f.asid x.va == pageOf s f.asid f.va) ||
          !holdOver s f.asid ten f.va then flipAsk s f.asid ten f.va true
      else flipNow { s with flips := s.flips ++ [f] } f)

/-- FLIP_HOLD_EXPIRY (R41): the oldest waiting request whose page may flip, and which no earlier one of the page
precedes, proceeds. -/
def execFlipHoldExpiry (s : State) : Out :=
  let first := fun (f : FlipReq) =>
    (s.flips.find? (fun x => x.asid == f.asid && pageOf s f.asid x.va == pageOf s f.asid f.va)) == some f
  .next (match s.flips.find? (fun f => !f.asked && first f && holdOver s f.asid f.tenant f.va) with
    | none => s
    | some f => if f.toHost then flipNow s f
      else { s with flips := s.flips.map (fun x => if x = f then { x with asked := true } else x) })

/-- A flip's synchronisation has retired: the faulting lanes replay, or the adapter is told to validate the host entry (R40).
The request leaves the agent. -/
def flipOver (s : State) (f : FlipReq) : State :=
  let s := { s with flips := s.flips.filter (fun x => x != f) }
  if f.toHost then { s with validated := s.validated ++ [(f.asid, pageOf s f.asid f.va)] } else flipReplays 64 s f

/-- PT_SYNC_RETIRE (R34, R40): the oldest complete synchronisation retires; its writer, or its flip, goes on. -/
def execPtSyncRetire (s : State) : Out :=
  .next (match s.syncs.find? (syncOver s) with
    | none => s
    | some p =>
      let s := { s with syncs := s.syncs.filter (fun q => q.id != p.id) }
      match s.flips.find? (fun f => f.sync == some p.id) with
      | some f => flipOver s f
      | none => { s with synced := s.synced ++ [p.id] })

/-! ## Caches -/

/-- RDC_SIZE_APPLY (R74): a written size takes effect on die arg.a once it has no resident team and no engine operation;
every line is then invalid. -/
def execRdcSizeApply (s : State) : Out :=
  let d := s.arg.a % 2
  let busy := s.teams.any (fun t => dieOfCore t.core == d) || s.ops.any (fun o => dieOfCore o.core == d)
  .next (match (if d = 0 then s.rdcNext0 else s.rdcNext1) with
    | none => s
    | some n =>
      if busy then s
      else
        let s := { s with rdc := s.rdc.filter (fun p => p.1 / 2 ^ 40 != d) }
        if d = 0 then { s with rdcSize0 := n, rdcNext0 := none } else { s with rdcSize1 := n, rdcNext1 := none })

/-- An instruction word that a grid's fetch asked for arrives, or its fault: code, cause and level (R24, R42). -/
def codeDone (s : State) (gid : Nat) (pc : W64) (r : (Nat × Nat × Nat) ⊕ List Byte) : State :=
  { s with code := s.code.map (fun c =>
      if c.gid = gid ∧ c.pc = pc then
        (match r with
         | .inl f => { c with flt := some f }
         | .inr d => { c with word := some (BitVec.ofNat 32 (natLE (if d.length ≤ 4 then d else (d.drop (pc.toNat % 32)).take 4))) })
      else c) }

/-- The answer to a request reaches who waits for it. -/
def answerReq (s : State) (r : L2Req) (p : Reply) : State :=
  match r.ref with
  | .lane op gl =>
    let cc := match r.kind with
      | .read _ => if !r.far && r.cls ≤ 1 then some (r.pa, r.cls) else none
      | _ => none
    answerLane s op gl p cc
  | .eng _ => s
  | .mx _ _ => s
  | .queue _ _ => s
  | .fetch gid pc => (match p with
    | .data d => codeDone s gid pc (.inr d)
    | .fault c x => codeDone s gid pc (.inl (c, x, 0))
    | .moved => s)
  | .asid a => asidLoad s a r.pa
  | .pod q =>
    (match p with
     | .moved => s
     | .fault c _ => respond s q (if c = fcPoison then 5 else 4) []
     | .data d => respond s q 0 (if q.code = 16 ∨ q.code = 3 then mgetAll s.mem q.pa q.n else if q.code = 4 then d else []))
  | .none =>
    match r.kind, p with
    | .pref, .data d =>
      if r.owner.2 = 1 ∧ 0 < ccWays s r.cluster then
        let d := overBacks s r.cluster r.tenant r.pa d
        let (x, s) := ccEnsure s r.cluster r.tenant r.pa
        advanceAll (ccPut s r.cluster (ccMerge x r.pa d))
      else advanceAll s
    | _, _ => advanceAll s

/-- L2_REQUEST (R72): slice arg.a accepts its next request and serves it. -/
def execL2Request (s : State) : Out :=
  .next (match nextReq s s.arg.a with
    | none => s
    | some (r, _) =>
      let (p, s) := perform (acceptReq s r) r
      match p with
      | .moved => s
      | p => answerReq s r p)

/-- BUMP (R101): both dies' generations advance. -/
def execBump (s : State) : Out := .next (bumpDie (bumpDie s 0) 1)

/-- RESERVATION_EXPIRY (R133): reservations of 4096 cycles and more are cleared. -/
def execReservationExpiry (s : State) : Out :=
  .next { s with resvs := s.resvs.filter (fun r => decide (s.clock.cycle - r.at_ < 4096)) }

/-- LOAD_RETURN (R390): operation arg.a, or with 0 the oldest whose data is all there, writes its destinations. -/
def execLoadReturn (s : State) : Out :=
  .next (match s.memops.find? (fun o => o.final && !teamOut s o.tid && (s.arg.a == 0 || o.id == s.arg.a)) with
    | none => s
    | some o => advanceAll (if o.pf then completePref s o else completeOp s o.id))

end Sys2Proof.Machine
end

