-- ==== Sys2Proof/Machine/Leave.lean ====
section
/-! DEFINITION. What leaving changes: tags and byte-counting barriers that become free (R409, R410), a cluster that its
last form leaves (R49), a team that completes (R191), EXIT and SEXIT. -/

namespace Sys2Proof.Machine

/-- A form has a team on its cluster. -/
def formResident (s : State) (fid : Nat) : Bool := s.teams.any (fun t => t.fid == fid)
/-- No form is resident on a cluster. -/
def clusterIdle (s : State) (cl : Nat) : Bool := !(s.teams.any (fun t => clusterOfCore t.core == cl))
/-- The tenant of a grid. -/
def tenantOfGrid (s : State) (gid : Nat) : Option Nat := (findGrid s gid).map Grid.tenant

/-- An engine operation carries a tag, and a barrier of its cluster (Table 14.3). Collectives count no barrier of their
header (R428). -/
def entryFlag (e : List Byte) (n : Nat) : Bool := (natAt e 1 1 / 2 ^ n) % 2 == 1
def EngOp.carriesTag (o : EngOp) : Bool := entryFlag o.entry 1
def EngOp.carriesBar (o : EngOp) (k : Nat) : Bool :=
  entryFlag o.entry 2 && natAt o.entry 3 1 == k && !(decide (5 ≤ natAt o.entry 0 1 ∧ natAt o.entry 0 1 ≤ 9))

/-- A tenant's tag bits of a core are cleared and freed once its last team has left and none of its operations carries a
tag of the core (R409). -/
def freeTags (s : State) (core ten : Nat) : State :=
  if s.teams.any (fun t => t.core == core && tenantOfGrid s t.gid == some ten) ||
      s.ops.any (fun o => o.core == core && o.tenant == ten && o.carriesTag) then s
  else updCore s core (fun c =>
    let mine := (c.tagOwner.filter (fun p => p.2 == ten)).map Prod.fst
    { c with
      tags := mine.foldl (fun t b => t &&& ~~~(BitVec.ofNat 64 (2 ^ b))) c.tags
      tagOwner := c.tagOwner.filter (fun p => p.2 != ten)
      tagTeam := c.tagTeam.filter (fun p => !mine.contains p.1) })

/-- A tenant's barriers of a cluster are released once its last form has left, saved forms included, and no operation
counts into them (R410). -/
def freeBars (s : State) (cl ten : Nat) : State :=
  if s.teams.any (fun t => clusterOfCore t.core == cl && tenantOfGrid s t.gid == some ten) ||
      s.forms.any (fun f => f.cluster == cl && f.out && tenantOfGrid s f.gid == some ten) then s
  else updCluster s cl (fun c => { c with bc := c.bc.filter (fun p =>
    !(p.2.owner == some ten) ||
    s.ops.any (fun o => clusterOfCore o.core == cl && o.tenant == ten && o.carriesBar p.1)) })

/-- A cluster that its last form leaves (R49): its cache lines are written back, its segments take SYS.SRAM_DEFAULT and
its FIFOs are emptied. -/
def clusterReset (s : State) (cl : Nat) : State :=
  if !clusterIdle s cl then s
  else
    let s := (clusterOf s cl).cc.foldl (fun s x => ccPut (ccWriteBack s cl x) cl { x with dirty := 0 }) s
    let d := sysGet s srSramDefault
    let s := (List.range 4).foldl (fun s g => if segModes s cl g = d then s else setSegment s cl g d) s
    updCluster s cl (fun c => { c with fifos := [], fifoQ := [], cfgQ := [], modes := if d = sysReset srSramDefault then [] else c.modes })

/-- A team's hardware is free: its place in the ports, latches and Prefect path. -/
def leaveCore (s : State) (t : Team) : State :=
  let drop := fun (p : Port) => { p with
    active := p.active.filter (fun e => e.tid != t.tid)
    pending := p.pending.filter (fun e => e.tid != t.tid)
    latch := p.latch.filter (fun e => e.tid != t.tid) }
  updCore s t.core (fun c => { c with
    port0 := drop c.port0, port1 := drop c.port1, pfAge := c.pfAge.filter (fun p => p.1 != t.tid),
    fused := c.fused.filter (fun f => f.tid != t.tid) })

/-- Room on a cluster has been taken, or has freed for another reason than a quantum swap: no swap's room is left there
(R235). -/
def roomTaken (s : State) (cl : Nat) : State :=
  { s with grids := s.grids.map (fun g => { g with swapRoom := g.swapRoom.filter (fun c => c != cl) }) }

/-- A form has left its cluster: unless it is saved, a stop asked of it lapses with the pool room taken for it (R235,
R236). -/
def formLeft (s : State) (fid cl ten : Nat) : State :=
  let s := roomTaken s cl
  match findForm s fid with
  | none => s
  | some f =>
    if f.out then s
    else updTenant (updForm s fid (fun f => { f with stopReq := none })) ten
      (fun t => { t with pool := t.pool.filter (fun p => p.1 != fid) })

/-- A team leaves its core: its hardware, then the tags, barriers and cluster that it was the last to use. -/
def removeTeam (s : State) (t : Team) : State :=
  let ten := (tenantOfGrid s t.gid).getD 0
  let s := leaveCore { s with teams := s.teams.filter (fun x => x.tid != t.tid) } t
  let s := freeTags s t.core ten
  let s := freeBars s (clusterOfCore t.core) ten
  let s := if formResident s t.fid then s else formLeft s t.fid (clusterOfCore t.core) ten
  clusterReset s (clusterOfCore t.core)

/-- A team is complete: every slice has executed EXIT and the Prefect SEXIT (R191). -/
def Team.complete (t : Team) : Bool := t.pf.st == .exited && t.slices.all (fun p => p.2.st == .exited)

/-- A team that has completed leaves its core and counts toward its grid (R191, R219). -/
def teamDone (s : State) (tid : Nat) : State :=
  match findTeam s tid with
  | none => s
  | some t =>
    if t.complete then updGrid (removeTeam s t) t.gid (fun g => { g with doneTeams := g.doneTeams + 1 })
    else s

/-- EXIT (R340): the slices end; they stop counting for the decision queue, REGANG and count-0 barriers. -/
def execExitSlice (s : State) : Out :=
  ending s (fun _ => true) (fun s g =>
    let s := updTeam s g.team.tid (fun t =>
      let t := regroup (t.mapSlices g.nums (fun _ sl => { sl with st := .exited, pend := [] })) g.nums
      regangClose (dqFree t) g.home)
    teamDone (barsAfterExit s g.team.fid) g.team.tid)

/-- SEXIT (R355): the Prefect ends; it stops counting for count-0 barriers. -/
def execSexit (s : State) : Out :=
  withPref s (fun p =>
    let s := updTeam s p.team.tid (fun t => { t with pf := { t.pf with st := .exited } })
    teamDone (barsAfterExit s p.team.fid) p.team.tid)

end Sys2Proof.Machine
end

