-- ==== Sys2Proof/Machine/Grid.lean ====
section
/-! DEFINITION. Grids: the queue operations they share (R210 to R214), abort (R262), completion (R219), the watchdog
(R263), and event operations at any address. -/

namespace Sys2Proof.Machine

/-! ## Queue descriptors and stops -/

/-- Address of a queue's descriptor (R210). -/
def descAt (s : State) (q : Nat) : Nat := bits 38 16 (sysGet s srQueueBase) * 2 ^ 16 + 32 * q
/-- Entries that a queue's ring holds (Table 7.2). -/
def Queue.cap (k : Queue) : Nat := 512 * 2 ^ k.size
/-- Address of the entry of a count. -/
def Queue.entryAt (k : Queue) (n : BitVec 32) : Nat := k.ring + 128 * (n.toNat % k.cap)

/-- A queue changed, and HEAD, TAIL, STATE and CAUSE written back to its descriptor (R210). -/
def queuePut (s : State) (q : Nat) (f : Queue → Queue) : State :=
  let s := updQueue s q f
  let k := queueOf s q
  homeStore s (descAt s q + 12)
    (bytesLE 4 k.head.toNat ++ bytesLE 4 k.tail.toNat ++ bytesLE 1 k.state ++ bytesLE 1 k.cause)

/-- A queue stops at the entry of a count with a cause of Table 7.5 and writes a QSTOP record (R214). -/
def stopQueueAt (s : State) (q : Nat) (n : BitVec 32) (cause : Nat) : State :=
  let s := queuePut s q (fun k => { k with
    state := 6, cause, waitFrom := none, waitPa := none, recheck := false, asked := false,
    rewinding := if k.rewinding = some n then none else k.rewinding, atHead := n == k.head, started := k.started.filter (fun x => x != n) })
  let k := queueOf s q
  emit s k.tenant { code := fcQstop, cause, issuer := 3, pc := BitVec.ofNat 64 (k.entryAt n), asid := k.asid, queue := q } 0
/-- A queue stops at its head entry. -/
def stopQueue (s : State) (q cause : Nat) : State := stopQueueAt s q (queueOf s q).head cause

/-- The state of a queue between entries: READY with entries due, else IDLE (Table 7.4). -/
def Queue.rest (k : Queue) : Queue := { k with state := if k.head = k.tail then 1 else 2 }

/-- A WAIT at the head has started (R220). -/
def Queue.headOpen (k : Queue) : Bool := k.waitFrom.isSome

/-- A disable command takes effect once no started entry is left (R212). -/
def queueSettle (s : State) (q : Nat) : State :=
  let k := queueOf s q
  if k.disabling && k.started.isEmpty && !k.headOpen && k.state != 6 then
    queuePut s q (fun k => { k with state := 0, disabling := false })
  else s

/-- An entry that had started is complete (R218); the last one ends the queue's WAIT_PRIOR (Table 7.4). -/
def entryDone (s : State) (q : Nat) (n : BitVec 32) : State :=
  let s := updQueue s q (fun k => { k with started := k.started.filter (fun x => x != n) })
  let k := queueOf s q
  queueSettle (if k.state = 3 ∧ k.started.isEmpty then queuePut s q (fun k => { k with state := 2 }) else s) q

/-! ## Event operations (R219, R221, R222) -/

/-- What became of an event operation. -/
inductive EvRes where
  | done (s : State)
  | sent (s : State)
  /-- A frame's zeroing, a flip or a tag is waited for. -/
  | wait (s : State)
  /-- The address faulted in translation, or the target has no route. -/
  | fault (s : State)

/-- An event operation at a virtual address of an ASID: at this device's home slice, or at another device. -/
def eventAt (s : State) (asid ten : Nat) (va : W64) (add : Bool) (v : W64) (use : TagUse) (gid : Nat) : EvRes :=
  match walkNow s asid ten va .update with
  | (.zero _, s) => .wait s
  | (.wait, s) => .wait s
  | (.fault c _ _, s) =>
    if c = fcPageElsewhere ∧ autoFlip s ten then .wait (flipAsk s asid ten va false) else .fault s
  | (.ok e lev, s) =>
    let pa := leafPa e lev va
    if pteFar e then .fault s
    else if isOwnDev s (pteDev e) then .done (eventOp s pa ten add v)
    else if domainOf s ten = 0 then .fault s
    else
      let pk : Packet := { code := 2, pa, n := 8, op := 32 + (if add then 1 else 0), domain := domainOf s ten,
                           data := bytesLE 8 v.toNat }
      match podSend s 0 (pteDev e) pk use gid with
      | .sent s => .sent s
      | .wait => .wait s
      | .unreachable => .fault s

/-! ## The end of a grid -/

/-- Every matrix engine changed, every core changed; a part back at its reset value leaves the table. -/
def mapMx (s : State) (f : Matrix → Matrix) : State :=
  { s with clusters := (s.clusters.map (fun p => (p.1, { p.2 with mx := f p.2.mx }))).filter (fun p => p.2 != {}) }
def mapCores (s : State) (f : Core → Core) : State :=
  { s with cores := (s.cores.map (fun p => (p.1, f p.2))).filter (fun p => p.2 != {}) }
/-- Entries of an ownership table changed; a FREE entry leaves it. -/
def Matrix.mapOwn (m : Matrix) (f : OwnEntry → OwnEntry) : Matrix :=
  { m with own := (m.own.map (fun p => (p.1, f p.2))).filter (fun p => p.2 != {}) }

/-- Fields of a launch record (Table 7.6). -/
def Grid.teams (g : Grid) : Nat := natAt g.record 4 4
def Grid.formSize (g : Grid) : Nat := natAt g.record 8 1
def Grid.slices (g : Grid) : Nat := natAt g.record 9 1
def Grid.regs (g : Grid) : Nat := natAt g.record 10 1
def Grid.slates (g : Grid) : Nat := natAt g.record 11 1
def Grid.sram (g : Grid) : Nat := natAt g.record 12 4
def Grid.flag (g : Grid) (n : Nat) : Bool := (natAt g.record 1 1 / 2 ^ n) % 2 == 1
def Grid.event (g : Grid) : Nat := natAt g.record 48 8
/-- Forms of the grid (R216). -/
def Grid.forms (g : Grid) : Nat := if g.formSize = 0 then 0 else (g.teams + g.formSize - 1) / g.formSize
/-- Teams of form i: the last one may be partial (R216). -/
def Grid.formTeams (g : Grid) (i : Nat) : Nat := min g.formSize (g.teams - g.formSize * i)
/-- Team window length L (R54). -/
def Grid.window (g : Grid) : Nat :=
  if g.formSize = 0 then 0 else roundUp 4096 ((g.sram + g.formSize - 1) / g.formSize)

/-- Clusters on which a grid's forms have been placed. -/
def gridClusters (s : State) (gid : Nat) : List Nat :=
  distinct ((s.forms.filter (fun f => f.gid == gid)).map Form.cluster)

/-- Entries of the check-out tables that a test selects leave, with their twins (R90, R97). -/
def dropCk (s : State) (f : CkEntry → Bool) : State :=
  let gone := (s.ck.filter f).map CkEntry.op
  { s with ck := s.ck.filter (fun e => !f e),
           twins := s.twins.filter (fun t => !gone.contains t.op) }

/-- What a grid holds beyond its teams is given back: its forms with their names and reservations, bound slots that are
not pinned, ownership of slates, check-outs, counted by its tenant (R97), swap space (R228), race-detector numbers (R104),
waiting faults, fetched code. -/
def releaseGrid (s : State) (g : Grid) : State :=
  let fids := (s.forms.filter (fun f => f.gid == g.gid)).map Form.fid
  let held := distinct ((s.ck.filter (fun e => e.gid == g.gid && e.mode != 3)).map CkEntry.op)
  let s := dropCk s (fun e => e.gid == g.gid)
  let s := { s with
    code := s.code.filter (fun c => c.gid != g.gid)
    forms := s.forms.filter (fun f => f.gid != g.gid)
    outLog := s.outLog.filter (fun e => e.op.gid != g.gid)
    slates := (s.slates.filter (fun x => x.state != 0 || !(match x.owner with | some f => fids.contains f | none => true))).map (fun x => match x.owner with
      | some f => if fids.contains f then { x with owner := none } else x
      | none => x) }
  let s := mapMx s (fun m => m.mapOwn (fun o =>
    if o.gid = g.gid ∧ o.state = 1 then {}
    else match o.fid with
      | some f => if fids.contains f then { o with fid := none } else o
      | none => o))
  updTenant s g.tenant (fun t =>
    let mine := (t.detAt.filter (fun d => d.2.2.2 == g.gid)).map Prod.fst
    { t with
      pool := t.pool.filter (fun p => p.1 != g.gid && !fids.contains p.1)
      faults := t.faults.filter (fun f => f.gid != g.gid)
      ckReleases := t.ckReleases + held.length
      detUsed := t.detUsed.filter (fun n => !mine.contains n) })

/-- Every house that a grid's teams have used has its generation bumped (R100 item 2). -/
def bumpHouses (s : State) (g : Grid) : State := g.houses.foldl bumpDie s

/-- Locks and twins of cancelled operations go; bytes already written stay (R93, R262). -/
def cancelOps (s : State) (f : EngOp → Bool) : State :=
  let gone := (s.ops.filter f).map EngOp.id
  let s := dropCk s (fun e => gone.contains e.op)
  { s with ops := s.ops.filter (fun o => !f o) }

/-- Chains that a test selects leave their engines. -/
def cancelChains (s : State) (f : Chain → Bool) : State :=
  let l := s.engines.map (fun p => (p.1, { p.2 with chains := p.2.chains.filter (fun c => !f c) }))
  { s with engines := l.filter (fun p => p.2 != {}) }

/-- ABORT of a grid (R262): its launch entry never completes. The tenant's cluster-cache lines are written back and
invalidated in each cluster it used, as at any end of a grid (R62). -/
def abortGrid (s : State) (gid : Nat) : State :=
  match findGrid s gid with
  | none => s
  | some g =>
    let teams := s.teams.filter (fun t => t.gid == gid)
    let cls := gridClusters s gid
    let s := cancelOps (cancelChains s (fun c => c.gid == gid)) (fun o => o.gid == gid)
    let s := { s with memops := s.memops.filter (fun o => o.gid != gid) }
    let s := mapCores s (fun c => { c with log := c.log.filter (fun e => e.op.gid != gid) })
    let s := mapMx s (fun m => { m with resv := m.resv.filter (fun r => r.gid != gid), io := m.io.filter (fun r => r.gid != gid) })
    let s := (s.fab.tags.filter (fun t => t.2.use.isSome && t.2.gid == gid)).foldl (fun s t => freeTagAt s t.1 true) s
    let s := teams.foldl removeTeam s
    let s := cls.foldl (fun s c => ccClean s c g.tenant true) s
    let s := releaseGrid s g
    let s := cls.foldl (fun s c => freeBars s c g.tenant) s
    bumpHouses { s with grids := s.grids.filter (fun x => x.gid != gid) } g

/-- A grid's work outside its teams is over (R219 items 1 to 3). -/
def gridQuiet (s : State) (g : Grid) : Bool :=
  let gid := g.gid
  g.doneTeams == g.teams &&
  !(s.memops.any (fun o => o.gid == gid)) &&
  !(s.cores.any (fun c => c.2.log.any (fun e => e.op.gid == gid))) &&
  !(s.ops.any (fun o => o.gid == gid)) &&
  !(s.engines.any (fun e => e.2.chains.any (fun c => c.gid == gid))) &&
  !(s.clusters.any (fun c => c.2.mx.resv.any (fun r => r.gid == gid) || c.2.mx.io.any (fun r => r.gid == gid))) &&
  !(s.fab.tags.any (fun t => t.2.use.isSome && t.2.gid == gid))

/-- A grid has completed: its launch entry, or its REWIND's launch, is complete (R219, R225). -/
def gridOver (s : State) (g : Grid) : State :=
  let s := { s with grids := s.grids.filter (fun x => x.gid != g.gid) }
  match g.entry with
  | some n => entryDone s g.queue (BitVec.ofNat 32 n)
  | none => updQueue s g.queue (fun k => { k with rewindGrid := none, rewound := k.rewound + 1 })

/-- A grid is over and its completion event's address has faulted: its queue stops at its launch entry, or at the REWIND that
launched it (R219, R225). -/
def gridStop (s : State) (g : Grid) : State :=
  match (match g.entry with | some n => some (BitVec.ofNat 32 n) | none => (queueOf s g.queue).rewinding) with
  | some n => stopQueueAt (gridOver s g) g.queue n 0x0B
  | none => stopQueue (gridOver s g) g.queue 0x0B

/-- GRID_COMPLETE (R219): grid arg.a, or with 0 the first whose work is over. Write-backs are waited for, then the bumps,
slots and check-outs, then the completion event, as a release of every write. -/
def execGridComplete (s : State) : Out :=
  .next (match s.grids.find? (fun g => (s.arg.a == 0 || g.gid == s.arg.a) && gridQuiet s g && !g.evSent) with
    | none => s
    | some g =>
      let cls := gridClusters s g.gid
      let s := if g.mark = 0 then cls.foldl (fun s c => ccClean s c g.tenant true) s else s
      let mark := if g.mark = 0 then s.nextId else g.mark
      if cls.any (fun c => backsPending s c g.tenant mark) then updGrid s g.gid (fun x => { x with mark })
      else
        let s := releaseGrid (bumpHouses s g) g
        let s := cls.foldl (fun s c => freeBars s c g.tenant) s
        let s := updGrid s g.gid (fun x => { x with mark, houses := [] })
        if g.event = 0 then gridOver s g
        else
          match eventAt s g.asid g.tenant (BitVec.ofNat 64 g.event) (natAt g.record 64 1 == 1)
              (BitVec.ofNat 64 (natAt g.record 56 8)) (.grid g.gid) 0 with
          | .done s => gridOver s g
          | .sent s => updGrid s g.gid (fun x => { x with evSent := true })
          | .wait s => s
          | .fault s => gridStop s g)

/-- WATCHDOG (R263): grid arg.a, or with 0 the first that has run its tenant's WDOG milliseconds. -/
def execWatchdog (s : State) : Out :=
  let late := fun (g : Grid) =>
    let w := bits 63 48 (tsysGet s g.tenant srPreemptCtl)
    w != 0 && decide (g.accepted + w * 1000000 ≤ nsOf s)
  .next (match s.grids.find? (fun g => (s.arg.a == 0 || g.gid == s.arg.a) && late g) with
    | none => s
    | some g =>
      abortGrid (emit s g.tenant { code := fcWatchdog, issuer := 4, asid := g.asid, queue := g.queue } 0) g.gid)

end Sys2Proof.Machine
end

