-- ==== Sys2Proof/Machine/EngXfer.lean ====
section
/-! DEFINITION. Engine operations: entries (Tables 14.3, 14.4), tags and byte-counting barriers (R409 to R411), faults of
an operation (R433), accesses to memory and form SRAM (R421), tensor records (R423), the units of COPY, COPYT, GATHER,
SCATTER, CKOUT and CKIN (R422 to R426), range locks (R93). -/

namespace Sys2Proof.Machine

/-! ## Fields of an entry -/

def enType (e : List Byte) : Nat := natAt e 0 1
def enScope (e : List Byte) : Nat := natAt e 4 1 % 8
def enSrcSp (e : List Byte) : Bool := (natAt e 4 1 / 8) % 2 == 1
def enDstSp (e : List Byte) : Bool := (natAt e 4 1 / 16) % 2 == 1
def enB5 (e : List Byte) : Nat := natAt e 5 1
def enB67 (e : List Byte) : Nat := natAt e 6 2
def enW1 (e : List Byte) : Nat := natAt e 8 8
def enW2 (e : List Byte) : Nat := natAt e 16 8
def enW3 (e : List Byte) : Nat := natAt e 24 8
/-- Element bytes of GATHER and SCATTER. -/
def enEl (e : List Byte) : Nat := 2 ^ (enB5 e % 16)
/-- A collective entry other than MCAST, and any collective. -/
def enGroup (t : Nat) : Bool := decide (6 ≤ t ∧ t ≤ 9)
def enColl (t : Nat) : Bool := decide (5 ≤ t ∧ t ≤ 9)

def EngOp.ty (o : EngOp) : Nat := enType o.entry
def EngOp.cluster (o : EngOp) : Nat := clusterOfCore o.core
def findEop (s : State) (id : Nat) : Option EngOp := s.ops.find? (fun o => o.id == id)
def updEop (s : State) (id : Nat) (f : EngOp → EngOp) : State :=
  { s with ops := s.ops.map (fun o => if o.id = id then f o else o) }

/-- The kind of an engine by its key: 0 copy, 1 gather, 2 collective (R407). -/
def engKind (k : Nat) : Nat := if k < 128 then 0 else if k < 256 then 1 else 2
/-- The die of an engine. -/
def engDie (k : Nat) : Nat := if k < 256 then k % 128 / 64 else (k - 256) / 16

/-! ## Tags and barriers -/

/-- Byte address of an offset of an image that lies in some 64 KiB units. -/
def poolAt (us : List Nat) (o : Nat) : Nat := us.getD (o / 2 ^ 16) 0 + o % 2 ^ 16
/-- An image's first n bytes, and bytes of one unit's part written. -/
def poolRead (s : State) : List Nat → Nat → List Byte
  | [], _ => []
  | u :: r, n => mgetAll s.mem u (min n (2 ^ 16)) ++ poolRead s r (n - 2 ^ 16)
def poolWrite (s : State) : List Nat → List Byte → State
  | [], _ => s
  | u :: r, b => if b.isEmpty then s else poolWrite (homeStore s u (b.take (2 ^ 16))) r (b.drop (2 ^ 16))

/-- An image with its length and CRC-32C stored in it, the CRC's own field taken as 0 (R259). -/
def sealBytes (b : List Byte) : List Byte :=
  let b := spliceAt (spliceAt b 56 (bytesLE 4 b.length)) 60 (bytesLE 4 0)
  spliceAt b 60 (bytesLE 4 (crc32c b))

/-- The units of the saved image of a team that is out. -/
def imageOfTeam (s : State) (tid : Nat) : Option (List Nat) :=
  match s.forms.find? (fun f => f.out && f.savedTeams.any (fun t => t.tid == tid)) with
  | none => none
  | some f => match f.savedTeams.find? (fun t => t.tid == tid) with
    | none => none
    | some t => (f.images.find? (fun p => p.1 == t.rank)).map Prod.snd

/-- A saved image changed in place and sealed again. -/
def imageEdit (s : State) (us : List Nat) (f : List Byte → List Byte) : State :=
  let n := natLE (mgetAll s.mem (poolAt us 56) 4)
  poolWrite s us (sealBytes (f (poolRead s us n)))

/-- A tag bit of a core is set by an operation of a team: in TAGS, or in the team's saved image (R259, R411, R432). -/
def tagSet (s : State) (core bit tid : Nat) : State :=
  match imageOfTeam s tid with
  | some us =>
    let put := fun (b : List Byte) (x : Nat) => spliceAt b x (bytesLE 8 (BitVec.ofNat 64 (natAt b x 8) ||| BitVec.ofNat 64 (2 ^ bit)).toNat)
    imageEdit s us (fun b => put (put b 1280) 1288)
  | none => updCore s core (fun c => { c with
      tags := c.tags ||| BitVec.ofNat 64 (2 ^ bit)
      tagTeam := c.tagTeam.filter (fun p => p.1 != bit) ++ [(bit, tid)] })

/-- The owner of a tag bit, and whether a tenant may name it (R409). -/
def tagOwner (s : State) (core bit : Nat) : Option Nat :=
  ((coreOf s core).tagOwner.find? (fun p => p.1 == bit)).map Prod.snd
def tagOk (s : State) (core ten bit : Nat) : Bool := match tagOwner s core bit with | none => true | some t => t == ten
/-- A tenant takes a free bit (R409). -/
def tagClaim (s : State) (core ten bit : Nat) : State :=
  match tagOwner s core bit with
  | some _ => s
  | none => updCore s core (fun c => { c with tagOwner := c.tagOwner ++ [(bit, ten)] })

def barOf (s : State) (cl k : Nat) : BcBar := tget {} k (clusterOf s cl).bc
def updBar (s : State) (cl k : Nat) (f : BcBar → BcBar) : State :=
  updCluster s cl (fun c => { c with bc := tset {} k (f (tget {} k c.bc)) c.bc })
/-- A tenant may name a barrier, and takes a free one (R410). -/
def barOk (s : State) (cl k ten : Nat) : Bool := match (barOf s cl k).owner with | none => true | some t => t == ten
def barClaim (s : State) (cl k ten : Nat) : State :=
  if (barOf s cl k).owner.isNone then updBar s cl k (fun b => { b with owner := some ten }) else s
/-- A count has reached a target (R410). -/
def reached (c t : W32) : Bool := decide ((c - t).toNat < 2 ^ 31)

/-- An arm whose target the count has reached sets its tag and becomes empty (R411). -/
def barFire (s : State) (cl k : Nat) : State :=
  match (barOf s cl k).arm with
  | none => s
  | some a =>
    if reached (barOf s cl k).count a.target then
      tagSet (updBar s cl k (fun b => { b with arm := none })) a.core a.tag a.tid
    else s

/-- An addition to COUNT for a tenant; none into a barrier of another tenant (R410, R411). -/
def barAdd (s : State) (cl k n ten : Nat) : Option State :=
  if !barOk s cl k ten then none
  else
    let s := barClaim s cl k ten
    some (barFire (updBar s cl k (fun b => { b with count := b.count + BitVec.ofNat 32 n })) cl k)

/-! ## Faults of operations and chains (R431, R433) -/

/-- The fault-ring record of an engine: issuer 2, the PC the entry's form offset. -/
def engRecord (s : State) (ten asid gid : Nat) (teamId : W64) (off code cause level : Nat) (va : W64)
    (ms : List Nat) (id : Nat) : State :=
  let q := match findGrid s gid with | some g => g.queue | none => 0
  emit s ten { code, cause, level, issuer := 2, pc := BitVec.ofNat 64 off, va, asid, resumable := true, teamId, queue := q,
               exts := mstatExts ms } id

/-- A chain starts no further entry until the fault is resumed (R433). -/
def stopChain (s : State) (eng chain id : Nat) : State :=
  updEngine s eng (fun e => { e with chains := e.chains.map (fun c =>
    if c.id = chain then { c with stop := some id } else c) })

/-- An operation's fault: it stops at its first unfinished unit (R433); a queue's copy stops its queue with XLATE
(R222). -/
def engFault (s : State) (o : EngOp) (code cause level : Nat) (va : W64) (ms : List Nat) : State :=
  match o.queue with
  | some (q, n) =>
    let s := dropCk { s with ops := s.ops.filter (fun x => x.id != o.id) } (fun e => e.op == o.id)
    stopQueueAt s q n 0x0B
  | none =>
    let (id, s) := newId s
    let s := updEop s o.id (fun x => { x with phase := 3, stop := some id, held := [], asked := false, walked := 0, heldFaults := [] })
    let s := stopChain s o.eng o.chain id
    let s := addWait s o.tenant ⟨id, 0, code, cause, o.gid, .op o.id⟩
    engRecord s o.tenant o.asid o.gid o.teamId o.off code cause level va ms id

/-! ## Tensor records (R423, R424) -/

/-- Size, stride in bytes and tile length of dimension d. -/
def tnSize (r : List Byte) (d : Nat) : Nat := natAt r (12 + 4 * d) 4
def tnStride (r : List Byte) (d : Nat) : Nat := if d = 0 then 0 else 16 * natAt r (28 + 4 * d) 4
def tnTile (r : List Byte) (d : Nat) : Nat := natAt r (48 + 2 * d) 2
def tnDim (r : List Byte) : Nat := natAt r 9 1
def tnFmt (r : List Byte) : Nat := natAt r 8 1
/-- Bits of an element. -/
def tnBits (r : List Byte) : Nat := codeWidth (tnFmt r)
/-- Bytes of n elements of dimension 0. -/
def tnBytes (r : List Byte) (n : Nat) : Nat := n * tnBits r / 8
/-- Tiles along a dimension, and in all. -/
def tnTiles (r : List Byte) (d : Nat) : Nat := if tnTile r d = 0 then 0 else (tnSize r d + tnTile r d - 1) / tnTile r d
def tnCount (r : List Byte) : Nat := ((List.range 5).map (tnTiles r)).foldl (· * ·) 1

/-- The record keeps the limits of Table 14.5. -/
def tnOk (r : List Byte) : Bool :=
  let n := tnDim r
  decide (tnFmt r < 12) && decide (1 ≤ n ∧ n ≤ 5) && natAt r 10 2 == 0 && natAt r 58 6 == 0 &&
  (List.range 5).all (fun d => decide (1 ≤ tnTile r d) && (decide (d < n) || (tnSize r d == 1 && tnTile r d == 1)) &&
    (decide (d = 0 ∨ d < n) || tnStride r d == 0)) &&
  natAt r 0 8 % (max 1 (tnBits r / 8)) == 0 &&
  (tnFmt r != 5 || (natAt r 0 8 % 2 == 0 && tnSize r 0 % 2 == 0 && tnTile r 0 % 2 == 0))

/-- Coordinates of tile t, dimension 0 fastest. -/
def tnCoord (r : List Byte) : Nat → Nat → Nat → List Nat
  | 0, _, _ => []
  | k + 1, d, t => (if tnTiles r d = 0 then 0 else t % tnTiles r d) :: tnCoord r k (d + 1) (if tnTiles r d = 0 then 0 else t / tnTiles r d)
/-- Place of row i inside a tile, in dimensions 1 to 4. -/
def tnRow (r : List Byte) : Nat → Nat → Nat → List Nat
  | 0, _, _ => []
  | k + 1, d, i => (i % tnTile r d) :: tnRow r k (d + 1) (i / tnTile r d)
/-- Rows of a tile. -/
def tnRows (r : List Byte) : Nat := ((List.range 4).map (fun d => tnTile r (d + 1))).foldl (· * ·) 1
/-- Address of row i of tile t, and how many of its elements lie inside SIZE (R423, R424). -/
def tnRowAt (r : List Byte) (t i : Nat) : W64 × Nat :=
  let c := tnCoord r 5 0 t
  let x := tnRow r 4 1 i
  let e := fun d => c.getD d 0 * tnTile r d + (if d = 0 then 0 else x.getD (d - 1) 0)
  let inside := (List.range 4).all (fun d => decide (e (d + 1) < tnSize r (d + 1)))
  let n := if inside then min (tnTile r 0) (tnSize r 0 - e 0) else 0
  let off := tnBytes r (e 0) + ((List.range 4).map (fun d => e (d + 1) * tnStride r (d + 1))).foldl (· + ·) 0
  (BitVec.ofNat 64 (natAt r 0 8 + off), n)

/-! ## Translation and requests -/

/-- A fault that the engine has found walking ahead and holds against a page (R26). -/
def EngOp.heldAt (o : EngOp) (va : W64) : Option (Nat × Nat × Nat × Nat) :=
  o.heldFaults.find? (fun x => x.1 == va.toNat / 2 ^ 16)

/-- Translation by the tile address engine's walk-ahead buffer, or a walk (R26, R421). -/
def engXlate (s : State) (o : EngOp) (va : W64) (acc : Acc) : Tr × State :=
  let cl := o.cluster
  let hit := (clusterOf s cl).ahead.find? (tlbHits s o.asid va)
  let use := match hit with
    | some t => if acc.writes s t.leaf ∧ !pteD t.leaf then none else some t
    | none => none
  if !canonical va then (.fault fcPageAbsent 1 0, s)
  else match o.heldAt va with
  | some (_, c, x, lev) => (.fault c x lev, s)
  | none => match use with
    | some t => (leafCheck s o.tenant acc va 0 t.leaf (if t.size = 1 then 2 else 3), s)
    | none =>
      match walkNow s o.asid o.tenant va acc with
      | (.ok e level, s) =>
        (.ok e level, updCluster s cl (fun c => { c with ahead := tlbPut 1024 (tlbEntry s o.asid o.tenant va e level) c.ahead }))
      | r => r

/-- What became of an access of an operation. -/
inductive EAcc where
  /-- Performed, with the bytes read. -/
  | ok (s : State) (b : List Byte)
  /-- A request is under way, or something is waited for. -/
  | wait (s : State)
  | fault (s : State) (code cause level : Nat) (va : W64)

/-- An address that cannot be translated now: the fault, or the wait for zeroing, a flip or a slice (R38, R40, R72). -/
def engMiss (s : State) (o : EngOp) (va : W64) : Tr → EAcc
  | .zero _ => .wait s
  | .wait => .wait s
  | .fault c x lev =>
    if c = fcPageElsewhere ∧ autoFlip s o.tenant then .wait (flipAsk s o.asid o.tenant va false) else .fault s c x lev va
  | .ok _ _ => .wait s

/-- A request to another device for an operation's unit (R152, R156). -/
def engPod (s : State) (o : EngOp) (dev member level : Nat) (p : Packet) (va : W64) : EAcc :=
  if domainOf s o.tenant = 0 then .fault s fcPagePerm 5 0 va
  else match podSend s (engDie o.eng) dev { p with domain := domainOf s o.tenant, level } (.engine o.id member va) o.gid with
    | .sent s => .wait (updEop s o.id (fun x => { x with asked := true }))
    | .wait => .wait s
    | .unreachable => .fault s fcFabricTimeout 1 0 va

/-- A far access of an operation's unit (R44, R45): a write goes through the house's own copies. -/
def engFar (s : State) (o : EngOp) (pa n : Nat) (wr : Option (List Byte)) (va : W64) (level : Nat) : EAcc :=
  let die := engDie o.eng
  let s := match wr with | some b => farUpdate s die pa b | none => s
  let f : FarReq := { id := s.nextId, addr := pa, tenant := o.tenant, n, wr, ref := .eng o.id, cls := 3,
                      die, owner := (0, 0), va, level, gen := rdcGen s die }
  .wait (updEop { s with fars := s.fars ++ [f], nextId := s.nextId + 1 } o.id (fun x => { x with asked := true }))

/-- Bytes of the present page from an address, and of the present line: a request is of one line at most (R71). -/
def pageLeft (va : W64) (n : Nat) : Nat := min n (2 ^ 16 - va.toNat % 2 ^ 16)
def lineLeft (va : W64) (n : Nat) : Nat := min n (128 - va.toNat % 128)

/-- A form is out, or its save has come to the drain: its chains are not walked, and its operations on form SRAM stop at a
unit boundary (R255, R434). -/
def Form.away (f : Form) : Bool := f.out || (match f.stopReq with | some r => r.drain | none => false)
/-- An operation reads or writes its form's SRAM. -/
def EngOp.inSpad (o : EngOp) : Bool := enSrcSp o.entry || enDstSp o.entry || [3, 4, 10, 11].contains o.ty
/-- An operation has begun a unit and not finished it. -/
def EngOp.midUnit (o : EngOp) : Bool := o.asked || !o.held.isEmpty || decide (0 < o.wrote) || !o.mstat.isEmpty

/-- The form of an operation where it is resident. -/
def engForm (s : State) (o : EngOp) : Option Form :=
  match findForm s o.fid with
  | none => none
  | some f => if f.out then none else some f

/-- Bytes of form SRAM (R421, R434). -/
def formBytes (s : State) (o : EngOp) (off : W64) (n : Nat) : EAcc :=
  match engForm s o with
  | none => .wait s
  | some f => if winOk f off.toInt n then .ok s (spadRead s f off.toNat n) else .fault s fcPagePerm 4 0 off
/-- Element i's index, from the index array in form SRAM (R425). -/
def indexAt (s : State) (o : EngOp) (i : Nat) : EAcc :=
  formBytes s o (BitVec.ofNat 64 (enW2 o.entry) + BitVec.ofNat 64 (4 * i)) 4

/-! ## Range locks and check-out pieces (R82 to R88, R93) -/

/-- Slices that are home to a line of a local range. -/
def rangeSlices (base n : Nat) : List Nat :=
  distinct ((List.range ((base % 128 + n + 127) / 128)).map (fun i => homeSlice (base / 128 * 128 + 128 * i)))

/-- Pieces of one range in ascending order, those of physically consecutive frames of one die merged (R82). -/
def mergePieces (l : List (Nat × Nat)) : List (Nat × Nat) :=
  (sortOn (fun x => x.1) (distinct l)).foldr (fun x acc =>
    match acc with
    | (b, n) :: r => if x.1 + x.2 = b ∧ b % 2 ^ 38 ≠ 0 then (x.1, x.2 + n) :: r else x :: acc
    | [] => [x]) []
/-- The local frames of a virtual range as the tables map it now: address and length of each (R82, R93). The pages are
translated for the transfer itself only as it reaches them (R26). -/
def framesOf : Nat → State → EngOp → W64 → Nat → List (Nat × Nat)
  | 0, _, _, _, _ => []
  | k + 1, s, o, va, n =>
    if n = 0 then []
    else
      let m := pageLeft va n
      (match walk s o.asid o.tenant va with
       | .leaf _ e lev => if pteFar e || !isOwnDev s (pteDev e) then [] else [(leafPa e lev va, m)]
       | .fault _ _ _ => []) ++ framesOf k s o (va + BitVec.ofNat 64 m) (n - m)

/-- Pages of a range. -/
def pagesOf (va : W64) (n : Nat) : Nat := (va.toNat % 2 ^ 16 + n + 2 ^ 16 - 1) / 2 ^ 16

/-- Overlapping registrations are compatible (Table 3.1): two SR, or two MW. -/
def ckCompat (a b : Nat) : Bool := (a == 0 && b == 0) || (a == 1 && b == 1)
/-- A range may be registered in a mode beside every other holder's entries. An operation's own entries do not stop it. -/
def ckFree (s : State) (id mode base n : Nat) : Bool :=
  s.ck.all (fun e => e.op == id || ckCompat e.mode mode || !overlaps base n e.base (e.limit + 1 - e.base))
/-- Entries that a slice's table holds, and those of one operation. -/
def ckAt (s : State) (sl : Nat) : Nat := (s.ck.filter (fun e => (rangeSlices e.base (e.limit + 1 - e.base)).contains sl)).length
/-- Every slice of a range has room in its table of 256 entries (R82). -/
def ckRoom (s : State) (base n : Nat) : Bool := (rangeSlices base n).all (fun sl => decide (ckAt s sl < 256))

/-- The memory ranges that an operation locks: address, length, direction (R93). -/
def lockRanges (s : State) (o : EngOp) : List (W64 × Nat × Bool) :=
  let e := o.entry
  let src := if enSrcSp e then [] else [(BitVec.ofNat 64 (enW1 e), enW3 e % 2 ^ 33, false)]
  match o.ty with
  | 1 => (if enSrcSp e then [] else [(BitVec.ofNat 64 (enW1 e), enW3 e, false)]) ++
      (if enDstSp e then [] else [(BitVec.ofNat 64 (enW2 e), enW3 e, true)])
  | 2 =>
    let r := o.tensor
    let rows := (List.range (tnRows r)).map (fun i => ((tnRowAt r (enW3 e) i).1, tnBytes r (tnRowAt r (enW3 e) i).2, enB5 e % 2 == 1))
    let buf := if (if enB5 e % 2 = 0 then enDstSp e else enSrcSp e) then []
      else [(BitVec.ofNat 64 (enW2 e), tnRows r * tnBytes r (tnTile r 0), enB5 e % 2 == 0)]
    rows.filter (fun x => x.2.1 != 0) ++ buf
  | 3 =>
    let idx := (List.range (enB67 e)).map (fun i => match indexAt s o i with | .ok _ b => natLE b | _ => 0)
    (if enSrcSp e then [] else (distinct idx).map (fun x => (BitVec.ofNat 64 (enW1 e) + BitVec.ofNat 64 (x * enEl e), enEl e, false))) ++
      (if enDstSp e then [] else [(BitVec.ofNat 64 (enW3 e), enB67 e * enEl e, true)])
  | 4 =>
    let idx := (List.range (enB67 e)).map (fun i => match indexAt s o i with | .ok _ b => natLE b | _ => 0)
    (if enSrcSp e then [] else [(BitVec.ofNat 64 (enW1 e), enB67 e * enEl e, false)]) ++
      (if enDstSp e then [] else (distinct idx).map (fun x => (BitVec.ofNat 64 (enW3 e) + BitVec.ofNat 64 (x * enEl e), enEl e, true)))
  | 10 => []
  | 11 => []
  | _ => src.map (fun x => (x.1, enW3 e % 2 ^ 32, x.2.2))

/-- Ranges kept so far, entries at each slice, ranges left without a lock. -/
structure LockPick where
  keep : List (Nat × Nat × Bool)
  at_ : List (Nat × Nat)
  spare : List (Nat × Nat × Bool)

/-- Entries of an operation at a slice so far. -/
def LockPick.count (p : LockPick) (sl : Nat) : Nat := ((p.at_.find? (fun c => c.1 == sl)).map Prod.snd).getD 0
/-- A range takes its place at its slices, or goes without a lock: an operation has at most 64 entries at a slice (R93). -/
def lockKeep (p : LockPick) (x : Nat × Nat × Bool) : LockPick :=
  let sl := rangeSlices x.1 x.2.1
  if sl.all (fun k => decide (p.count k < 64)) then
    { p with keep := p.keep ++ [x],
             at_ := sl.foldl (fun c k => (k, p.count k + 1) :: c.filter (fun y => y.1 != k)) p.at_ }
  else { p with spare := p.spare ++ [x] }

/-- Frames that ranges touch, by number. -/
def framesIn (l : List (Nat × Nat × Bool)) : List Nat :=
  distinct (l.flatMap (fun x => (List.range ((x.1 + x.2.1 - 1) / 2 ^ 16 - x.1 / 2 ^ 16 + 1)).map (fun i => x.1 / 2 ^ 16 + i)))
/-- Ranges added to those of an operation: the ones with a lock, and the ones without, each of whose pages is counted once
(R93, R96, R141). -/
def addRanges (s : State) (o : EngOp) (l : List (Nat × Nat × Bool)) : State :=
  let old := o.ranges.getD []
  let k := l.foldl lockKeep { old.foldl lockKeep ⟨[], [], []⟩ with spare := [] }
  let n := ((framesIn k.spare).filter (fun p => !(framesIn o.unlocked).contains p)).length
  let v := tsysGet s o.tenant srCkoutCtl
  let s := if n = 0 then s else tsysSet s o.tenant srCkoutCtl (withBits 63 32 (min (bits 63 32 v + n) 0xFFFFFFFF) v)
  updEop s o.id (fun x => { x with ranges := some k.keep, unlocked := x.unlocked ++ k.spare })
/-- The physical ranges of an operation at its issue, in ascending order (R93). `own` are ranges of the device's own window. -/
def findRanges (s : State) (o : EngOp) (own : List (Nat × Nat)) : State :=
  let l := (lockRanges s o).flatMap (fun r =>
    (mergePieces (framesOf (pagesOf r.1 r.2.1 + 1) s o r.1 r.2.1)).map (fun x => (x.1, x.2, r.2.2)))
  addRanges s o (sortOn (fun x => x.1) (l ++ own.map (fun x => (x.1, x.2, true))))

/-- Number of an engine among those that a chain can name (R407). -/
def engNumber (k : Nat) : Nat := if k < 128 then 0 else if k < 256 then 1 else 2 + (k - 256) % 16
/-- Order of lists by their first difference. -/
def lexLt : List Nat → List Nat → Bool
  | a :: r, b :: q => decide (a < b) || (a == b && lexLt r q)
  | [], _ => false
  | _ :: _, [] => false
/-- Place of an operation's piece in the slices' queues: cycle of arrival, cluster, engine (R85). -/
def EngOp.place (o : EngOp) (cyc : Nat) : List Nat := [cyc, o.cluster, engNumber o.eng, o.id]
/-- A piece that came earlier to a slice waits there for bytes that this one would take from it (R85). -/
def ckAhead (s : State) (o : EngOp) (mode b n cyc : Nat) : Bool :=
  s.ops.any (fun p => p.id != o.id && (match p.waits with
    | some (b', n', m', c') => overlaps b n b' n' && !ckCompat m' mode && lexLt (p.place c') (o.place cyc)
    | none => false))
/-- A piece asks for its registration: granted once it is compatible at all its slices and no earlier one waits for it there,
else it keeps its place in their queues (R85). -/
def askPiece (s : State) (o : EngOp) (mode b n : Nat) : Bool × State :=
  let cyc := match o.waits with
    | some (b', n', m', c) => if b' = b ∧ n' = n ∧ m' = mode then c else s.clock.cycle
    | none => s.clock.cycle
  if ckFree s o.id mode b n && ckRoom s b n && !ckAhead s o mode b n cyc then (true, updEop s o.id (fun x => { x with waits := none }))
  else (false, updEop s o.id (fun x => { x with waits := some (b, n, mode, cyc) }))

/-- An operation holds the lock of a range already; its DST locks serve its own reads too. -/
def lockHeld (s : State) (id b n : Nat) (d : Bool) : Bool :=
  s.ck.any (fun e => e.op == id && e.mode == 3 && decide (e.base ≤ b) && decide (b + n ≤ e.limit + 1) && (e.dst || !d))
/-- Locks registered in ascending order as far as they are granted; true once all are (R85, R93). -/
def takeLocks (s : State) (id : Nat) : List (Nat × Nat × Bool) → Bool × State
  | [] => (true, s)
  | (b, n, d) :: r =>
    match findEop s id with
    | none => (false, s)
    | some o =>
      if lockHeld s id b n d then takeLocks s id r
      else match askPiece s o 3 b n with
        | (false, s) => (false, s)
        | (true, s) => takeLocks { s with ck := s.ck ++ [⟨b, b + n - 1, 3, d, o.tenant, o.fid, o.gid, o.id, 0, 0, 0⟩] } id r

/-- The lock of a line that the transfer reaches is there, or the page goes without one. A page that was not mapped at issue,
or is mapped elsewhere by now, is registered when the transfer reaches it (R93). -/
def engLock (s : State) (o : EngOp) (pa n : Nat) (va : W64) (d : Bool) : Bool × State :=
  match findEop s o.id with
  | none => (true, s)
  | some o =>
    let loose := o.unlocked.any (fun u => decide (u.1 ≤ pa) && decide (pa + n ≤ u.1 + u.2.1))
    if o.phase ≠ 1 || o.ty == 10 || o.ty == 11 || loose || lockHeld s o.id pa n d then (true, s)
    else match (lockRanges s o).find? (fun r => (r.2.2 || !d) && decide (r.1.toNat ≤ va.toNat) && decide (va.toNat < r.1.toNat + r.2.1)) with
      | none => (true, s)
      | some r =>
        let m := pageLeft va (r.1.toNat + r.2.1 - va.toNat)
        let have' := (o.ranges.getD []).any (fun x => decide (x.1 ≤ pa) && decide (pa + n ≤ x.1 + x.2.1) && (x.2.2 || !d))
        let s := if have' then s else addRanges s o [(pa, m, r.2.2)]
        takeLocks s o.id (((findEop s o.id).bind EngOp.ranges).getD [])

/-! ## Accesses -/

/-- A read of at most one line (R421, R253), at its home slice, for which it is one request (R71); form SRAM of a form that
is out waits (R434). Of a line of the other die the issuing die's copies are refilled, or dropped where less than the line is
fetched (R120). Far data may come from the house's own slice (R45). -/
def engRead (s : State) (o : EngOp) (sp : Bool) (va : W64) (n : Nat) : EAcc :=
  if sp then formBytes s o va n
  else match engXlate s o va .read with
    | (.ok e lev, s) =>
      let pa := leafPa e lev va
      let die := engDie o.eng
      let cls := classOf e 0
      if pteFar e then
        match (if cls = 3 then none else l2Find s (96 * die + l2Slice pa) pa true false (rdcGen s die)) with
        | some x => .ok s ((lineBytes x.data).drop (pa % 128) |>.take n)
        | none => engFar s o pa n none va lev
      else if !isOwnDev s (pteDev e) then engPod s o (pteDev e) 0 lev { code := 16, pa, n, op := 1 } va
      else match engLock s o pa n va false with
      | (false, s) => .wait s
      | (true, s) =>
        match askFor o.tenant (linesOf pa n) s with
        | none => .wait s
        | some s =>
          if poisoned s pa n then .fault s fcPoison 0 0 va
          else
            let s := l2Home s pa n o.tenant cls false
            let s := if homeDie pa = die then s
              else if n = 128 ∧ cls ≠ 3 then remoteFill s die pa o.tenant cls (rdcGen s die) else remoteDrop s pa
            .ok s (mgetAll s.mem pa n)
    | (r, s) => engMiss s o va r

/-- Shadow words of the sectors of an engine write, under the issuing team's number (R105); none where a shadow page owes
zeroing or a slice does not accept its walk (R38, R72). -/
def engShadow : Nat → State → EngOp → W64 → Nat → Option State
  | 0, s, _, _, _ => some s
  | k + 1, s, o, va, n =>
    let on := match findGrid s o.gid with | some g => g.race | none => false
    match o.det with
    | none => some s
    | some t =>
      if !on || n = 0 then some s
      else
        let m := min n (32 - va.toNat % 32)
        match walkNow s o.asid o.tenant (shadowVa s o.tenant va) .write with
        | (.zero _, _) => none
        | (.wait, _) => none
        | (.fault _ _ _, s) => engShadow k (raceSkip s o.tenant) o (va + BitVec.ofNat 64 m) (n - m)
        | (.ok _ _, s) =>
          let s := match ownWrite s o.asid o.tenant (shadowVa s o.tenant va) with
            | (none, s) => raceSkip s o.tenant
            | (some pa, s) => homeStore s pa (bytesLE 4 ((t + 1) * 2 ^ 16 + (detOf s o.tenant t).c))
          engShadow k s o (va + BitVec.ofNat 64 m) (n - m)

/-- Bytes stored at a local address for an engine. -/
def engPut (s : State) (o : EngOp) (e : W64) (pa : Nat) (b : List Byte) : State :=
  let s := performStore s pa b o.tenant (classOf e 0)
  if homeDie pa ≠ engDie o.eng then remoteUpdate s (engDie o.eng) pa b else s

/-- A write of at most one line: its shadow words first (R105), then one request at the home slice, the host adapter or the
other device. -/
def engWrite (s : State) (o : EngOp) (sp : Bool) (va : W64) (b : List Byte) : EAcc :=
  if sp then
    match engForm s o with
    | none => .wait s
    | some f => if winOk f va.toInt b.length then .ok (spadWrite s f va.toNat b) [] else .fault s fcPagePerm 4 0 va
  else match engXlate s o va .write with
    | (.ok e lev, s) =>
      let pa := leafPa e lev va
      (match engShadow 8 s o va b.length with
      | none => .wait s
      | some s =>
        if pteFar e then engFar s o pa b.length (some b) va lev
        else if !isOwnDev s (pteDev e) then engPod s o (pteDev e) 0 lev { code := 17, pa, n := b.length, data := b, op := 1 } va
        else match engLock s o pa b.length va true with
          | (false, s) => .wait s
          | (true, s) =>
            match askFor o.tenant (linesOf pa b.length) s with
            | none => .wait s
            | some s => .ok (engPut s o e pa b) [])
    | (r, s) => engMiss s o va r

/-- Every page of a destination can be written: checked before the first byte of a unit is (R433). -/
def engWritable : Nat → State → EngOp → Bool → W64 → Nat → EAcc
  | 0, s, _, _, _, _ => .ok s []
  | k + 1, s, o, sp, va, n =>
    if n = 0 then .ok s []
    else if sp then
      match engForm s o with
      | none => .wait s
      | some f => if winOk f va.toInt n then .ok s [] else .fault s fcPagePerm 4 0 va
    else match engXlate s o va .write with
      | (.ok _ _, s) => engWritable k s o sp (va + BitVec.ofNat 64 (pageLeft va n)) (n - pageLeft va n)
      | (r, s) => engMiss s o va r

/-- Bytes that the spec leaves undefined, at a destination that can be written (R422, R433). -/
def engScramble : Nat → State → EngOp → Bool → W64 → Nat → State
  | 0, s, _, _, _, _ => s
  | k + 1, s, o, sp, va, n =>
    if n = 0 then s
    else
      let m := if sp then n else pageLeft va n
      let b := (List.range m).map (fun i => Config.freeByte (s.fresh + i))
      let s := { s with fresh := s.fresh + m }
      let s := match engWritable 4 s o sp va m with
        | .ok s _ => (match (if sp then none else some (engXlate s o va .write)) with
          | none => (match engWrite s o sp va b with | .ok s _ => s | .wait s => s | .fault s _ _ _ _ => s)
          | some (.ok e lev, s) =>
            if isOwnDev s (pteDev e) && !pteFar e then engPut s o e (leafPa e lev va) b else s
          | some (_, s) => s)
        | .wait s => s
        | .fault s _ _ _ _ => s
      engScramble k s o sp (va + BitVec.ofNat 64 m) (n - m)

/-! ## Walking ahead (R26) -/

/-- The pages of a row walked ahead; the faults found, by page. -/
def walkRow : Nat → State → EngOp → W64 → Nat → Acc → List (Nat × Nat × Nat × Nat) → List (Nat × Nat × Nat × Nat) × State
  | 0, s, _, _, _, _, l => (l, s)
  | k + 1, s, o, va, n, acc, l =>
    if n = 0 then (l, s)
    else
      let m := pageLeft va n
      let (tr, s) := engXlate s o va acc
      let l := match tr with
        | .fault c x lev => l ++ [(va.toNat / 2 ^ 16, c, x, lev)]
        | .ok _ _ => l
        | .zero _ => l
        | .wait => l
      walkRow k s o (va + BitVec.ofNat 64 m) (n - m) acc l
/-- The rows of tile t of a record walked ahead. A tile that is to be written is walked for W alone: D is set when the
transfer reaches it (R22). -/
def walkTile (s : State) (o : EngOp) (t : Nat) : List (Nat × Nat × Nat × Nat) × State :=
  (List.range (tnRows o.tensor)).foldl (fun (p : List (Nat × Nat × Nat × Nat) × State) i =>
    let (va, n) := tnRowAt o.tensor t i
    walkRow (pagesOf va (tnBytes o.tensor n) + 1) p.2 o va (tnBytes o.tensor n) (if enB5 o.entry % 2 = 0 then .read else .reserve) p.1)
    ([], s)
/-- A COPYT's engine walks its record's tile order ahead of the transfer, to at most 64 tiles beyond the tile in transfer. A
fault of that tile is held until the transfer reaches its page; one of a later tile goes with the command, which ends
before any transfer reaches it. -/
def walkAhead (id : Nat) : Nat → State → State
  | 0, s => s
  | k + 1, s =>
    match findEop s id with
    | none => s
    | some o =>
      if o.ty ≠ 2 ∨ 64 < o.walked ∨ tnCount o.tensor ≤ enW3 o.entry + o.walked then s
      else
        let (l, s) := walkTile s o (enW3 o.entry + o.walked)
        walkAhead id k (updEop s id (fun x => { x with walked := x.walked + 1, heldFaults := if o.walked = 0 then l else x.heldFaults }))

/-! ## Units (R422 to R426, R433) -/

/-- What a unit does: what it reads, in order, how the bytes combine, and where the result goes. -/
structure EUnit where
  rds : List (Bool × W64 × Nat)
  f : List Byte → List Byte
  wsp : Bool
  wat : W64

/-- Pieces of a range that 128-byte boundaries of an address cut, and piece i's place and length. -/
def pieces (a n : Nat) : Nat := (a % 128 + n + 127) / 128
def pieceAt (a n i : Nat) : Nat × Nat :=
  let lo := if i = 0 then 0 else 128 * i - a % 128
  (lo, min (128 * (i + 1) - a % 128) n - lo)

/-- Elements added by SCATTER (R289, R425). -/
def scatAdd (fmt : Nat) (old new : List Byte) : List Byte :=
  let w := if fmt = 2 then 2 else 4
  (List.range (old.length / w)).flatMap (fun i =>
    let x := natAt old (w * i) w
    let y := natAt new (w * i) w
    bytesLE w (if fmt = 9 then (x + y) % 2 ^ 32
      else if fmt = 2 then addEng bf16 (unpack bf16 x) (unpack bf16 y) else addEng fp32 (unpack fp32 x) (unpack fp32 y)))

/-- Bytes that an operation writes, as its completion counts them (R422 to R426). -/
def EngOp.total (o : EngOp) : Nat :=
  let e := o.entry
  match o.ty with
  | 1 => enW3 e
  | 2 =>
    let r := o.tensor
    if enB5 e % 2 = 0 then tnRows r * tnBytes r (tnTile r 0)
    else ((List.range (tnRows r)).map (fun i => tnBytes r (tnRowAt r (enW3 e) i).2)).foldl (· + ·) 0
  | 3 => enB67 e * enEl e
  | 4 => enB67 e * enEl e
  | 10 => enW3 e
  | 11 => enW3 e
  | _ => enW3 e % 2 ^ 32

/-- Units of an operation (R433). -/
def EngOp.units (o : EngOp) : Nat :=
  let e := o.entry
  match o.ty with
  | 1 => pieces (enW2 e) (enW3 e)
  | 2 => tnRows o.tensor
  | 3 => enB67 e
  | 4 => enB67 e
  | 10 => pieces (enW1 e) (enW3 e)
  | 11 => pieces (enW1 e) (enW3 e)
  | _ => (enW3 e % 2 ^ 32 + 4095) / 4096

/-- The check-out entries that a CKIN ends: those of the form's oldest check-out of exactly its range (R90). A check-out whose
copy is still under way is not yet one that a CKIN matches: DESIGN CHOICE, log entry 111. -/
def ckMatch (s : State) (o : EngOp) : List CkEntry :=
  let mine := s.ck.filter (fun e => e.mode != 3 && e.fid == o.fid && e.vbase == BitVec.ofNat 64 (enW1 o.entry) &&
    e.len == enW3 o.entry && !(s.ops.any (fun p => p.id == e.op)))
  match mine with
  | [] => []
  | x :: _ => mine.filter (fun e => e.op == x.op)

/-- The twin's bytes of a range, from the runs of units that hold them (R88). -/
def twinBytes (s : State) (op pa n : Nat) : List Byte :=
  (List.range n).map (fun i =>
    let line := (pa + i) / 128
    match s.twins.find? (fun t => t.op == op && decide (t.line ≤ line) && decide (line < t.line + t.count)) with
    | none => 0
    | some t => mgetAll s.mem ((twinPool s t.die).1 + 128 * (t.unit + line - t.line) + (pa + i) % 128) 1 |>.headD 0)
/-- Runs of bytes to write, joined: an offset and its bytes. -/
def runsOf : List (Nat × Byte) → List (Nat × List Byte)
  | [] => []
  | (i, b) :: r =>
    match runsOf r with
    | (j, l) :: q => if j = i + 1 then (i, b :: l) :: q else (i, [b]) :: (j, l) :: q
    | [] => [(i, [b])]
/-- What a CKIN's unit writes: an EX copy whole, a MW copy where it differs from its twin; a byte that is unchanged is not
written (R90, R91). -/
def ckWrites (s : State) (es : List CkEntry) (pa : Nat) (copy : List Byte) : List (Nat × List Byte) :=
  match es.find? (fun e => decide (e.base ≤ pa) && decide (pa ≤ e.limit)) with
  | none => []
  | some e =>
    if e.mode = 0 then []
    else if e.mode = 2 then [(0, copy)]
    else
      let twin := twinBytes s e.op pa copy.length
      runsOf (((List.range copy.length).zip copy).filter (fun p => twin[p.1]? != some p.2))

/-- Unit i of a COPY, COPYT, GATHER, SCATTER or CKOUT; none when it moves nothing. -/
def unitOf (o : EngOp) (i x : Nat) : Option EUnit :=
  let e := o.entry
  let a1 : W64 := BitVec.ofNat 64 (enW1 e)
  let a2 : W64 := BitVec.ofNat 64 (enW2 e)
  let a3 : W64 := BitVec.ofNat 64 (enW3 e)
  let at_ := fun (a : W64) (n : Nat) => a + BitVec.ofNat 64 n
  let z := enEl e
  match o.ty with
  | 1 =>
    let (lo, n) := pieceAt (enW2 e) (enW3 e) i
    some ⟨[(enSrcSp e, at_ a1 lo, n)], fun b => b, enDstSp e, at_ a2 lo⟩
  | 2 =>
    let r := o.tensor
    let (row, n) := tnRowAt r (enW3 e) i
    let w := tnBytes r (tnTile r 0)
    if enB5 e % 2 = 0 then
      some ⟨if n = 0 then [] else [(false, row, tnBytes r n)], fun b => b ++ List.replicate (w - b.length) 0#8,
        enDstSp e, at_ a2 (w * i)⟩
    else if n = 0 then none
    else some ⟨[(enSrcSp e, at_ a2 (w * i), tnBytes r n)], fun b => b, false, row⟩
  | 3 => some ⟨[(enSrcSp e, at_ a1 (x * z), z)], fun b => b, enDstSp e, at_ a3 (i * z)⟩
  | 4 =>
    let d := (enSrcSp e, at_ a1 (i * z), z)
    let t := at_ a3 (x * z)
    if entryFlag e 4 then some ⟨[d, (enDstSp e, t, z)], fun b => scatAdd (enB5 e / 16) (b.drop z) (b.take z), enDstSp e, t⟩
    else some ⟨[d], fun b => b, enDstSp e, t⟩
  | 10 =>
    let (lo, n) := pieceAt (enW1 e) (enW3 e) i
    some ⟨[(false, at_ a1 lo, n)], fun b => b, true, at_ a2 lo⟩
  | _ => none

/-- The read that comes next after k bytes, at most to the end of its line. -/
def nextRead : List (Bool × W64 × Nat) → Nat → Option (Bool × W64 × Nat)
  | [], _ => none
  | (sp, a, n) :: r, k =>
    if k < n then
      let a' := a + BitVec.ofNat 64 k
      some (sp, a', if sp then n - k else lineLeft a' (n - k))
    else nextRead r (k - n)

/-- How far a unit has come. -/
inductive UStep where
  | done (s : State)
  | wait (s : State)
  | fault (s : State) (code cause level : Nat) (va : W64)

/-- The source bytes of a unit gathered. -/
def gatherUnit (rds : List (Bool × W64 × Nat)) (id : Nat) : Nat → State → UStep
  | 0, s => .done s
  | k + 1, s =>
    match findEop s id with
    | none => .wait s
    | some o =>
      match nextRead rds o.held.length with
      | none => .done s
      | some (sp, a, n) =>
        if o.asked then .wait s
        else match engRead s o sp a n with
          | .ok s b => gatherUnit rds id k (updEop s id (fun x => { x with held := x.held ++ b }))
          | .wait s => .wait s
          | .fault s c x l va => .fault s c x l va

/-- The result bytes of a unit written. -/
def writeUnit (sp : Bool) (at_ : W64) (d : List Byte) (id : Nat) : Nat → State → UStep
  | 0, s => .done s
  | k + 1, s =>
    match findEop s id with
    | none => .wait s
    | some o =>
      let r := d.drop o.wrote
      if r.isEmpty then .done s
      else if o.asked then .wait s
      else
        let a := at_ + BitVec.ofNat 64 o.wrote
        let n := if sp then r.length else lineLeft a r.length
        match engWrite s o sp a (r.take n) with
        | .ok s _ => writeUnit sp at_ d id k (updEop s id (fun x => { x with wrote := x.wrote + n }))
        | .wait s => .wait s
        | .fault s c x l va => .fault s c x l va

/-- One unit from where it stands: gather, check the destination, write. -/
def runUnit (s : State) (id : Nat) (u : EUnit) : UStep :=
  let len := (u.rds.map (fun r => r.2.2)).foldl (· + ·) 0
  match gatherUnit u.rds id (len + 1) s with
  | .done s =>
    match findEop s id with
    | none => .wait s
    | some o =>
      let d := u.f o.held
      let chk := if o.wrote = 0 && !o.asked then engWritable (d.length + 1) s o u.wsp u.wat d.length else .ok s []
      (match chk with
       | .ok s _ => writeUnit u.wsp u.wat d id (d.length + 1) s
       | .wait s => .wait s
       | .fault s c x l va => .fault s c x l va)
  | r => r

/-- Shadow words of the sectors that some runs of bytes write (R105). -/
def engShadows (o : EngOp) (va : W64) : List (Nat × List Byte) → State → Option State
  | [], s => some s
  | (i, b) :: r, s => match engShadow 8 s o (va + BitVec.ofNat 64 i) b.length with
    | none => none
    | some s => engShadows o va r s

/-- A CKIN's unit: the bytes of the copy in form SRAM that its mode writes, as one write at the line's home slice, which is
one request (R71, R90, R91). -/
def ckinUnit (s : State) (o : EngOp) (es : List CkEntry) (i : Nat) : UStep :=
  let (lo, n) := pieceAt (enW1 o.entry) (enW3 o.entry) i
  let va := BitVec.ofNat 64 (enW1 o.entry) + BitVec.ofNat 64 lo
  if es.all (fun e => e.mode == 0) then .done s
  else match formBytes s o (BitVec.ofNat 64 (enW2 o.entry) + BitVec.ofNat 64 lo) n with
    | .ok s copy =>
      (match engXlate s o va .write with
       | (.ok e lev, s) =>
         let pa := leafPa e lev va
         if pteFar e || !isOwnDev s (pteDev e) then .fault s fcCkout 5 lev va
         else
           let ws := ckWrites s es pa copy
           if ws.isEmpty then .done s
           else (match engShadows o va ws s with
             | none => .wait s
             | some s => match askFor o.tenant [pa] s with
               | none => .wait s
               | some s => .done (ws.foldl (fun s w => engPut s o e (pa + w.1) w.2) s))
       | (r, s) => (match engMiss s o va r with
         | .ok s _ => .wait s
         | .wait s => .wait s
         | .fault s c x l va => .fault s c x l va))
    | .wait s => .wait s
    | .fault s c x l va => .fault s c x l va

end Sys2Proof.Machine
end

