-- ==== Sys2Proof/Machine/Engines.lean ====
section
/-! DEFINITION. Engines at work: collective blocks (R164 to R169, R427 to R429), check-outs (R82 to R91), the life of an
operation (R126, R432, R433), the walk of a chain (R407, R408, R418 to R420, R430, R431) and the chain-entry rows. -/

namespace Sys2Proof.Machine

/-! ## Collectives -/

def EngOp.group (o : EngOp) : Nat := enW2 o.entry % 2 ^ 10
def EngOp.goff (o : EngOp) : Nat := enW2 o.entry / 2 ^ 10
def EngOp.glen (o : EngOp) : Nat := enW3 o.entry % 2 ^ 32
def EngOp.redOp (o : EngOp) : Nat := enW3 o.entry / 2 ^ 32 % 2 ^ 8
/-- Receiver cluster and die, and barrier; with BCV above them, as a multicast copy carries them (Table 14.4). -/
def EngOp.recv (o : EngOp) : Nat := enW3 o.entry / 2 ^ 40 % 2 ^ 14 + (if entryFlag o.entry 2 then 2 ^ 14 else 0)
def EngOp.fmt (o : EngOp) : Nat := enW3 o.entry / 2 ^ 56
/-- Bytes of an element of a reduction: FP32 or BF16. -/
def EngOp.elBytes (o : EngOp) : Nat := if o.fmt = 2 then 2 else 4
/-- The place and length of 4 KiB block i of the contribution (R428). -/
def EngOp.block (o : EngOp) (i : Nat) : Nat × Nat := (4096 * i, min 4096 (o.glen - 4096 * i))

/-- The group of an entry and the own rank, where the checks of R427 hold. -/
def collGroup (s : State) (o : EngOp) : Option (Group × Nat) :=
  match groupOf s o.tenant o.group with
  | none => none
  | some g =>
    let n := g.members.length
    let need := o.goff + (if o.ty = 8 then n * o.glen else o.glen)
    match (List.range n).find? (fun i => (g.members.getD i (0, 0)).1 == ownDev s) with
    | none => none
    | some r => if g.len < need then none else some (g, r)

/-- A delivery counted into a receiver barrier: false where it belongs to another tenant (R410, R428). -/
def recvCount (s : State) (recv n ten : Nat) : Bool × State :=
  if recv / 2 ^ 14 % 2 = 0 then (true, s)
  else match barAdd s (recv % 64 + 64 * (recv / 64 % 2)) (recv / 2 ^ 8 % 64) n ten with
    | some s => (true, s)
    | none => (false, s)

/-- A store of the device's own fabric side at its home slices, where each line is a request of the tenant (R71). -/
def devStore (s : State) (ten pa : Nat) (b : List Byte) : State :=
  performStore ((linesOf pa b.length).foldl (fun s a => spend s (homeSlice a) ten) s) pa b ten 0

/-- The own operation of a collective (R427). -/
def collOp (s : State) (group seq : Nat) : Option EngOp :=
  s.ops.find? (fun o => enGroup o.ty && o.group == group && o.seq == some seq)

/-- The k elements of largest magnitude of a block, NaN first, lower index first among equals, then in ascending index
(R429). -/
def magKey (fmt x : Nat) : Nat :=
  let f := if fmt = 2 then bf16 else fp32
  let m := x % 2 ^ (f.ew + f.fw)
  if f.infBits < m then f.infBits + 1 else m
def topK (fmt k : Nat) (l : List (Nat × Nat)) : List (Nat × Nat) :=
  let byMag := sortOn (fun p => 2 ^ 32 - magKey fmt p.2) l
  sortOn (fun p => p.1) (byMag.take k)
/-- The packets that a rank sends for a source, as element indexes and values. -/
def sparsePairs (o : EngOp) (first : Nat) (d : List Byte) : List (Nat × Nat) :=
  let w := o.elBytes
  let els := (List.range (d.length / w)).map (fun i => (first + i, natAt d (w * i) w))
  (List.range ((els.length + 255) / 256)).flatMap (fun b => topK o.fmt (o.redOp + 1) ((els.drop (256 * b)).take 256))
/-- Packets of one source in all. -/
def sparseCount (o : EngOp) : Nat :=
  let n := o.glen / o.elBytes
  let k := o.redOp + 1
  n / 256 * min k 256 + min k (n % 256)

/-- Deliveries that the own rank is to receive. -/
def EngOp.expect (o : EngOp) (n r : Nat) : Nat :=
  match o.ty with
  | 6 => o.units
  | 7 => ((List.range o.units).filter (fun b => b % n == r)).length
  | 8 => n * o.units
  | 9 => n * sparseCount o
  | _ => 0

/-- Physical address of the own window's byte at a collective's offset. -/
def ownWindow (s : State) (o : EngOp) (pos : Nat) : Option Nat :=
  match collGroup s o with
  | none => none
  | some (g, r) => some (((g.members.getD r (0, 0)).2 + o.goff + pos) % 2 ^ 39)

/-- Sparse packets of the source whose turn it is, once all are here, added in ascending index (R169, R289, R429). -/
def sparseAdd : Nat → State → Nat → Nat → State
  | 0, s, _, _ => s
  | k + 1, s, group, seq =>
    match collOp s group seq with
    | none => s
    | some o =>
      let cnt := sparseCount o
      let turn := if cnt = 0 then 0 else o.delivered / cnt
      let here := s.fab.sparse.filter (fun p => p.group == group && p.seq == seq && p.rank == turn)
      if cnt = 0 ∨ here.length < cnt then s
      else
        let w := o.elBytes
        let add := fun (s : State) (p : Packet) =>
          match ownWindow s o (w * p.index) with
          | none => s
          | some a => devStore s o.tenant a (scatAdd o.fmt (mgetAll s.mem a w) p.data)
        let s := (sortOn (fun p => p.index) here).foldl add s
        let s := { s with fab := { s.fab with sparse := s.fab.sparse.filter (fun p => !(p.group == group && p.seq == seq && p.rank == turn)) } }
        let s := (recvCount s o.recv (w * cnt) o.tenant).2
        sparseAdd k (updEop s o.id (fun x => { x with delivered := x.delivered + cnt })) group seq

/-- A delivery placed and counted by the own entry of its collective: its status (R166, R428). `far`: it came from
another device, and its range must let it in (R154). -/
def placeDelivery (s : State) (o : EngOp) (p : Packet) (far : Bool) : Nat × State :=
  if p.code = 7 && far && (match ownWindow s o (o.elBytes * p.index) with
      | some a => (admission s p.domain a .w).isNone
      | none => true) then (1, s)
  else if p.code = 7 then
    (0, sparseAdd 1024 { s with fab := { s.fab with sparse := s.fab.sparse ++ [p] } } p.group p.seq)
  else
    let pos := if o.ty = 8 then p.rank * o.glen + 4096 * p.index else 4096 * p.index
    match ownWindow s o pos with
    | none => (1, s)
    | some a =>
      match (if far then admission s p.domain a .w else some o.tenant) with
      | none => (1, s)
      | some ten =>
        let s := devStore s ten a p.data
        let (ok, s) := recvCount s o.recv p.data.length ten
        (if ok then 0 else 1, updEop s o.id (fun x => { x with delivered := x.delivered + 1 }))

/-- Deliveries that waited for an entry's start are performed (R428). -/
def drainDeliveries : Nat → State → State
  | 0, s => s
  | k + 1, s =>
    match s.fab.pendingDel.find? (fun p => (collOp s p.group p.seq).isSome) with
    | none => s
    | some p =>
      let s := { s with fab := { s.fab with pendingDel := s.fab.pendingDel.erase p } }
      match collOp s p.group p.seq with
      | none => s
      | some o =>
        let (st, s) := placeDelivery s o p true
        drainDeliveries k (respond s p st [])

/-- A combination of two contributions (R168). -/
def combineW (op : Nat) (a b : W32) : W32 :=
  let r := match op with
    | 0 => (addF fp32 engineMode false a.toNat b.toNat).1
    | 1 => (minmaxF fp32 engineMode false a.toNat b.toNat).1
    | _ => (minmaxF fp32 engineMode true a.toNat b.toNat).1
  BitVec.ofNat 32 r
/-- Elements of a block widened to FP32, and a result as delivered bytes (R168, R169). -/
def widenBlock (o : EngOp) (d : List Byte) : List W32 :=
  let w := o.elBytes
  (List.range (d.length / w)).map (fun i => BitVec.ofNat 32 (natAt d (w * i) w * (if w = 2 then 2 ^ 16 else 1)))
def deliverBytes (o : EngOp) (l : List W32) : List Byte :=
  l.flatMap (fun x => if o.fmt = 2 then bytesLE 2 (packF bf16 engineMode (unpack fp32 x.toNat)).1
    else bytesLE 4 (packF fp32 engineMode (unpack fp32 x.toNat)).1)

/-- What the own node of a block does next in the tree (R168). -/
inductive RedNext where
  | wait (s : State)
  /-- It goes to the device of a rank, at a width. -/
  | send (s : State) (to_ width : Nat) (d : List W32)
  | result (s : State) (d : List W32)

/-- The own node combined with what has arrived, as far as it goes (R168). -/
def redWalk (op n r group seq block : Nat) : Nat → State → RedNext
  | 0, s => .wait s
  | k + 1, s =>
    let at_ := fun (nd w : Nat) => s.fab.nodes.find? (fun x =>
      x.group == group && x.seq == seq && x.block == block && x.node == nd && (nd == r || x.width == w))
    match at_ r 0 with
    | none => .wait s
    | some me =>
      let w := me.width
      let put := fun (m : RedNode) (gone : List RedNode) =>
        { s with fab := { s.fab with nodes := (s.fab.nodes.filter (fun x => x != me && !gone.contains x)) ++ [m] } }
      if n ≤ w then .result s me.data
      else if r % (2 * w) ≠ 0 then .send s (r - w) w me.data
      else if n ≤ r + w then redWalk op n r group seq block k (put { me with width := 2 * w } [])
      else match at_ (r + w) w with
        | none => .wait s
        | some c => redWalk op n r group seq block k
            (put { me with width := 2 * w, data := (me.data.zip c.data).map (fun p => combineW op p.1 p.2) } [c])

/-- The reduction unit that holds a block, of the eight of both switches: the spec does not say which, DESIGN CHOICE, log entry
119. The bytes that it holds: contributions and deliveries whose entry has not started (R167, R428). -/
def redUnit (block : Nat) : Nat := block % 8
def unitBytes (s : State) (u : Nat) : Nat :=
  ((s.fab.nodes.filter (fun n => redUnit n.block == u)).map (fun n => 4 * n.data.length)).sum +
  ((s.fab.pendingDel.filter (fun p => redUnit p.index == u)).map (fun p => p.data.length)).sum
/-- A unit has room for some bytes in its combining buffer of 256 KiB (R167). -/
def unitRoom (s : State) (block n : Nat) : Bool := decide (unitBytes s (redUnit block) + n ≤ 2 ^ 18)

/-- A collective packet to a member (R156, R428): the member's status now. `pos` is its place in the member's window, whose
line chooses the port (R148); a contribution, which names no line, takes that of its block: DESIGN CHOICE, log entry 120. -/
def collSend (s : State) (o : EngOp) (m : Nat × Nat) (rank pos : Nat) (p : Packet) : Nat × State :=
  match podSend s (engDie o.eng) m.1 { p with pa := m.2 + o.goff + pos, domain := domainOf s o.tenant } (.engine o.id rank 0) o.gid with
  | .unreachable => (3, s)
  | .wait => (5, s)
  | .sent s => (4, s)

/-- A delivery to every member of a list whose status is unsent, at a place of its window. -/
def sendMembers (id : Nat) (g : Group) (pos : Nat) (p : Packet) (ranks : List Nat) (s : State) : State :=
  ranks.foldl (fun s i =>
    match findEop s id with
    | none => s
    | some o =>
      if o.mstat.getD i 0 ≠ 5 then s
      else
        let m := g.members.getD i (0, 0)
        let (st, s) := if m.1 = ownDev s then placeDelivery s o p false else collSend s o m i pos p
        updEop s id (fun x => { x with mstat := x.mstat.set i st })) s

/-- The issuing device's own copy of a multicast block, and its count (R163, R428): its status. -/
def mcastOwn (s : State) (o : EngOp) (pa : Nat) (d : List Byte) : Nat × State :=
  let (ok, s) := recvCount (devStore s o.tenant (pa % 2 ^ 39) d) o.recv d.length o.tenant
  (if ok then 0 else 1, s)
/-- A multicast copy of a block to one member (R164, R428): its status. -/
def mcastMember (s : State) (o : EngOp) (m : Nat × Nat) (pos i : Nat) (d : List Byte) : Nat × State :=
  if m.1 = ownDev s then
    if (freeTag s (engDie o.eng)).isNone then (5, s) else mcastOwn s o (m.2 + o.goff + pos) d
  else if 64 ≤ podWindow s m.1 || s.fab.relayQ.any (fun p => p.dst == m.1) then (5, s)
  else
    let n := tget 0 m.1 s.fab.seqTo
    let (st, s) := collSend s o m i pos { code := 0, n := d.length, data := d, op := 1, group := o.group, rank := i, seq := n, lane := o.recv }
    (st, if st = 4 then { s with fab := { s.fab with seqTo := tset 0 m.1 (n + 1) s.fab.seqTo } } else s)

/-- A multicast block sent to every member whose copy is not done, through the root where the group is ordered, in the own
sequence where this device is the root (R165). -/
def mcastMembers (id : Nat) (g : Group) (pos : Nat) (d : List Byte) (s : State) : State :=
  match findEop s id with
  | none => s
  | some o =>
    let due := (List.range g.members.length).filter (fun i => o.mstat.getD i 0 == 5)
    let p : Packet := { src := ownDev s, die := engDie o.eng, n := d.length, data := d, group := o.group, pa := o.goff + pos, op := 1, lane := o.recv, domain := domainOf s o.tenant }
    let set := fun (s : State) (c : Nat) => updEop s id (fun x => { x with mstat := x.mstat.map (fun y => if y = 5 then c else y) })
    let uses := due.map (fun i => (i, TagUse.engine o.id i 0))
    if g.ordered && g.root != ownDev s then
      let line := ((g.members.find? (fun m => m.1 == g.root)).map Prod.snd).getD 0 + o.goff + pos
      if due.isEmpty then s
      else match mcoSend s (engDie o.eng) g.root line p uses o.gid with
        | .unreachable => set s 3
        | .wait => s
        | .sent s => set s 4
    else if g.ordered then
      match takeTags (engDie o.eng) (ownDev s) o.gid p uses s with
      | none => s
      | some (tags, s) =>
        rootServe g { p with tags } (fun s pa => mcastOwn s o pa d)
          (fun s t st => freeTagAt (updEop s id (fun x => { x with mstat := x.mstat.set t.1 st })) (4096 * engDie o.eng + t.2.1) false)
          (set s 4)
    else due.foldl (fun s i =>
      let (st, s) := mcastMember s o (g.members.getD i (0, 0)) pos i d
      updEop s id (fun x => { x with mstat := x.mstat.set i st })) s

/-- The end of a block that its members' statuses decide. -/
def membersDone (s : State) (id : Nat) (fin : State → State) : UStep :=
  match findEop s id with
  | none => .wait s
  | some o =>
    if o.mstat.any (fun x => x == 4 || x == 5) then .wait s
    else match mstatFault o.mstat with
      | none => .done (fin s)
      | some (c, x) => .fault s c x 0 (mcastVa o.group o.mstat.length)

/-- Statuses set up for a block's targets. -/
def openMembers (s : State) (id n : Nat) (tgt : Nat → Bool) : State :=
  updEop s id (fun x =>
    if x.mstat.isEmpty then { x with mstat := (List.range n).map (fun i => if tgt i then 5 else 0) } else x)

/-- Block i of a collective (R428, R429). -/
def collUnit (s : State) (o : EngOp) (i : Nat) : UStep :=
  match collGroup s o with
  | none => .fault s fcPagePerm 4 0 0
  | some (g, r) =>
    let n := g.members.length
    let (pos, len) := o.block i
    if domainOf s o.tenant = 0 && g.members.any (fun m => m.1 != ownDev s) then .fault s fcPagePerm 5 0 0
    else match gatherUnit [(enSrcSp o.entry, BitVec.ofNat 64 (enW1 o.entry) + BitVec.ofNat 64 pos, len)] o.id (len + 1) s with
      | .done s =>
        let d := match findEop s o.id with | some x => x.held | none => []
        let seq := o.seq.getD 0
        let all := List.range n
        (match o.ty with
         | 5 =>
           let s := mcastMembers o.id g pos d (openMembers s o.id n (fun _ => true))
           membersDone s o.id (fun s => s)
         | 8 =>
           let p : Packet := { code := 6, n := len, data := d, group := o.group, seq, rank := r, index := i }
           membersDone (sendMembers o.id g (r * o.glen + pos) p all (openMembers s o.id n (fun _ => true))) o.id (fun s => s)
         | 9 =>
           let prs := sparsePairs o (pos / o.elBytes) d
           let go := fun (s : State) (q : Nat × Nat) =>
             match findEop s o.id with
             | none => s
             | some x =>
               let cur := prs[x.wrote]?
               if cur = some q then
                 let p : Packet := { code := 7, n := o.elBytes, data := bytesLE o.elBytes q.2, group := o.group, seq, rank := r, index := q.1 }
                 let s := sendMembers o.id g (o.elBytes * q.1) p all (openMembers s o.id n (fun _ => true))
                 (match findEop s o.id with
                  | none => s
                  | some x => if x.mstat.all (fun y => y == 0) then updEop s o.id (fun x => { x with wrote := x.wrote + 1, mstat := [] }) else s)
               else s
           let s := prs.foldl go s
           (match findEop s o.id with
            | none => .wait s
            | some x => if x.wrote = prs.length then .done s else membersDone s o.id (fun s => s))
         | _ =>
           let nd : RedNode := ⟨o.group, seq, i, r, 1, widenBlock o d⟩
           let full := o.wrote ≠ 1 && !unitRoom s i (4 * nd.data.length)
           let s := if o.wrote = 1 || full then s
             else updEop { s with fab := { s.fab with nodes := s.fab.nodes ++ [nd] } } o.id (fun x => { x with wrote := 1 })
           if full then .wait s
           else
           let drop := fun (s : State) => { s with fab := { s.fab with nodes := s.fab.nodes.filter (fun x =>
             !(x.group == o.group && x.seq == seq && x.block == i && x.node == r)) } }
           (match redWalk o.redOp n r o.group seq i 12 s with
            | .wait s => .wait s
            | .send s to_ w l =>
              let p : Packet := { code := 5, n := w, data := l.flatMap (fun x => bytesLE 4 x.toNat), group := o.group, seq, rank := r, index := i }
              let s := openMembers s o.id n (fun j => j == to_)
              let s := (match findEop s o.id with
                | some x => if x.mstat.getD to_ 0 = 5 then
                    (let (st, s) := collSend s x (g.members.getD to_ (0, 0)) to_ pos p
                     updEop s o.id (fun x => { x with mstat := x.mstat.set to_ st })) else s
                | none => s)
              membersDone s o.id drop
            | .result s l =>
              let tgt := fun j => o.ty == 6 || j == i % n
              let b := deliverBytes o l
              let p : Packet := { code := 6, n := b.length, data := b, group := o.group, seq, rank := r, index := i }
              membersDone (sendMembers o.id g pos p all (openMembers s o.id n tgt)) o.id drop))
      | x => x

/-! ## Check-outs -/

/-- The pages of a check-out translated, and its physical pieces in ascending order found (R82); a page of another device or
of the far tier is refused (R83). -/
def ckoutPieces (o : EngOp) : Nat → State → W64 → Nat → List (Nat × Nat) → UStep
  | 0, s, _, _, _ => .wait s
  | k + 1, s, va, n, l =>
    if n = 0 then .done (updEop s o.id (fun x => { x with
      ranges := some ((mergePieces l).map (fun y => (y.1, y.2, false))), since := nsOf s }))
    else match engXlate s o va .read with
      | (.ok e lev, s) =>
        if pteFar e || !isOwnDev s (pteDev e) then .fault s fcCkout 5 0 va
        else
          let m := pageLeft va n
          ckoutPieces o k s (va + BitVec.ofNat 64 m) (n - m) (l ++ [(leafPa e lev va, m)])
      | (r, s) => match engMiss s o va r with
        | .ok s _ => .wait s
        | .wait s => .wait s
        | .fault s c x l va => .fault s c x l va

/-- The free runs of units of a die's twin pool, lowest first: unit and count (R88). -/
def twinFree (s : State) (die : Nat) : List (Nat × Nat) :=
  let size := (twinPool s die).2 / 128
  let used := sortOn (fun t => t.unit) (s.twins.filter (fun t => t.die == die))
  let (last, gaps) := used.foldl (fun (p : Nat × List (Nat × Nat)) t =>
    (t.unit + t.count, if p.1 < t.unit then p.2 ++ [(p.1, t.unit - p.1)] else p.2)) (0, [])
  if last < size then gaps ++ [(last, size - last)] else gaps
/-- Runs that supply some units for the lines from `line` on: unit, count, first line; none where the pool cannot (R88). -/
def twinTake : List (Nat × Nat) → Nat → Nat → Option (List (Nat × Nat × Nat))
  | [], n, _ => if n = 0 then some [] else none
  | (u, c) :: r, n, line =>
    if n = 0 then some []
    else (twinTake r (n - min c n) (line + min c n)).map (fun l => (u, min c n, line) :: l)

/-- The part of a range [b, b + n) in a run's lines, copied to the run's units. -/
def twinCopy (s : State) (pool b n : Nat) (t : Nat × Nat × Nat) : State :=
  let lo := max b (128 * t.2.2)
  let hi := min (b + n) (128 * (t.2.2 + t.2.1))
  { s with mem := msetAll s.mem (pool + 128 * t.1 + (lo - 128 * t.2.2)) (mgetAll s.mem lo (hi - lo)) }

/-- A piece granted: registered, and for MW its twin taken and written (R82, R87, R88); none where the pool cannot supply the
units. -/
def ckRegister (s : State) (o : EngOp) (b n : Nat) : Option State :=
  let mode := enB5 o.entry
  let e : CkEntry := ⟨b, b + n - 1, mode, false, o.tenant, o.fid, o.gid, o.id, 0, BitVec.ofNat 64 (enW1 o.entry), enW3 o.entry⟩
  if mode ≠ 1 then some { s with ck := s.ck ++ [e] }
  else
    let die := homeDie b
    match twinTake (twinFree s die) ((b % 128 + n + 127) / 128) (b / 128) with
    | none => none
    | some l =>
      let pool := (twinPool s die).1
      let s := l.foldl (fun s t => twinCopy s pool b n t) s
      some { s with ck := s.ck ++ [{ e with twin := pool + 128 * ((l.head?).map Prod.fst).getD 0 }],
                    twins := s.twins ++ l.map (fun t => ⟨die, t.1, t.2.1, o.id, t.2.2⟩) }

/-- A check-out that faults, for any cause, releases every piece first; it registers again from the start (R86, R433). -/
def ckFail (s : State) (o : EngOp) (code cause level : Nat) (va : W64) : State :=
  let f := fun (x : EngOp) => { x with ranges := none, waits := none, unit := 0, held := [], wrote := 0, asked := false }
  engFault (updEop (dropCk s (fun e => e.op == o.id)) o.id f) (f o) code cause level va []

/-- Pieces registered in ascending order, as far as they are granted (R85, R86). -/
def ckTake (id : Nat) : List (Nat × Nat × Bool) → State → UStep
  | [], s => .done s
  | (b, n, _) :: r, s =>
    match findEop s id with
    | none => .wait s
    | some o =>
      if s.ck.any (fun e => e.op == id && e.base == b && e.limit + 1 == b + n) then ckTake id r s
      else if !ckRoom s b n then .fault s fcCkout 2 0 0
      else match askPiece s o (enB5 o.entry) b n with
        | (false, s) => if entryFlag o.entry 3 then .wait s else .fault s fcCkout 0 0 0
        | (true, s) => match ckRegister s o b n with
          | none => .fault s fcCkout 3 0 0
          | some s => ckTake id r s

/-! ## The life of an operation -/

/-- What an operation does before it transfers: a tensor record is read and checked (R424), a check-in is matched (R90),
ranges or pieces are registered (R85, R93). -/
def prepareOp (s : State) (id : Nat) : UStep :=
  match findEop s id with
  | none => .wait s
  | some o =>
    let e := o.entry
    if o.ty = 2 ∧ o.tensor.isEmpty then
      if enW1 e % 64 ≠ 0 then .fault s fcIllegal 2 0 0
      else match gatherUnit [(false, BitVec.ofNat 64 (enW1 e), 64)] id 65 s with
        | .done s =>
          let r := match findEop s id with | some x => x.held | none => []
          if tnOk r && decide (enW3 e < tnCount r) then .done (updEop s id (fun x => { x with tensor := r, held := [] }))
          else .fault s fcIllegal 2 0 0
        | x => x
    else if o.ty = 11 ∧ (ckMatch s o).isEmpty then .fault s fcCkout 4 0 (BitVec.ofNat 64 (enW1 e))
    else .done s

/-- Ranges found and registered: phase 1 once all are (R85, R93). -/
def lockOp (s : State) (id : Nat) : UStep :=
  match findEop s id with
  | none => .wait s
  | some o =>
    if o.phase ≠ 0 then .done s
    else if o.ty = 10 then
      let va : W64 := BitVec.ofNat 64 (enW1 o.entry)
      match (if o.ranges.isSome then .done s else ckoutPieces o (pagesOf va (enW3 o.entry) + 2) s va (enW3 o.entry) []) with
      | .done s =>
        (match ckTake id (((findEop s id).bind EngOp.ranges).getD []) s with
         | .done s => .done (updEop s id (fun x => { x with phase := 1 }))
         | x => x)
      | x => x
    else
      let own := match (if enGroup o.ty || o.ty = 5 then collGroup s o else none) with
        | some (g, r) => [((((g.members.getD r (0, 0)).2 + o.goff) % 2 ^ 39), if o.ty = 8 then g.members.length * o.glen else o.glen)]
        | none => []
      let s := match o.ranges with | some _ => s | none => findRanges s o own
      match takeLocks s id (((findEop s id).bind EngOp.ranges).getD []) with
      | (true, s) => .done (updEop s id (fun x => { x with phase := 1 }))
      | (false, s) => .wait s

/-- One unit of any operation. -/
def oneUnit (s : State) (o : EngOp) : UStep :=
  if enColl o.ty then collUnit s o o.unit
  else if o.ty = 11 then ckinUnit s o (ckMatch s o) o.unit
  else if o.ty = 3 ∨ o.ty = 4 then
    match indexAt s o o.unit with
    | .ok s b => (match unitOf o o.unit (natLE b) with | some u => runUnit s o.id u | none => .done s)
    | .wait s => .wait s
    | .fault s c x l va => .fault s c x l va
  else match unitOf o o.unit 0 with
    | some u => runUnit s o.id u
    | none => .done s

/-- An operation that has not begun a transfer waits where a SRAMCFG of its cluster does: its accesses to form SRAM are new
(R51 step 1). -/
def EngOp.newAtCfg (s : State) (o : EngOp) : Bool :=
  o.phase == 0 && o.inSpad && !o.midUnit && !(cfgWaits s o.cluster).isEmpty

/-- Units in order until one waits, faults, or none is left (R433); before a unit of a COPYT its engine walks ahead (R26). -/
def unitLoop (id : Nat) : Nat → State → UStep
  | 0, s => .wait s
  | k + 1, s =>
    match findEop s id with
    | none => .wait s
    | some o =>
      if o.units ≤ o.unit then .done s
      else if o.inSpad && !o.midUnit && (match findForm s o.fid with | some f => f.away | none => false) then .wait s
      else
        let s := walkAhead id 65 s
        match oneUnit s ((findEop s id).getD o) with
        | .done s => unitLoop id k (updEop s id (fun x => { x with unit := x.unit + 1, held := [], wrote := 0, mstat := [] }))
        | r => r

/-- The bytes of a COPY's destination that its source overlaps are undefined (R422). -/
def scrambleOverlap (s : State) (o : EngOp) : State :=
  let e := o.entry
  let a := enW1 e
  let b := enW2 e
  let n := enW3 e
  if o.ty = 1 ∧ enSrcSp e = enDstSp e ∧ a < b + n ∧ b < a + n then
    engScramble (n / 2 ^ 16 + 2) s o (enDstSp e) (BitVec.ofNat 64 (max a b)) (min a b + n - max a b)
  else s

/-- An operation taken as far as it goes: record, registrations, units; then it waits for its completion. -/
def runOp (s : State) (id : Nat) : State :=
  match findEop s id with
  | none => s
  | some o =>
    if 2 ≤ o.phase || o.newAtCfg s then s
    else
      let fail := fun (s : State) (c x l : Nat) (va : W64) =>
        match findEop s id with
        | none => s
        | some o =>
          if o.ty == 10 then ckFail s o c x l (if c = fcCkout then BitVec.ofNat 64 (enW1 o.entry) else va)
          else engFault s o c x l va o.mstat
      match prepareOp s id with
      | .wait s => s
      | .fault s c x l va => fail s c x l va
      | .done s =>
        match lockOp s id with
        | .wait s => s
        | .fault s c x l va => fail s c x l va
        | .done s =>
          let fuel := match findEop s id with | some o => o.units + 1 | none => 0
          match unitLoop id fuel s with
          | .wait s => s
          | .fault s c x l va => fail s c x l va
          | .done s =>
            match findEop s id with
            | none => s
            | some o =>
              let got := match collGroup s o with
                | some (g, r) => decide (o.expect g.members.length r ≤ o.delivered)
                | none => true
              if enGroup o.ty && !got then s
              else updEop (scrambleOverlap s o) id (fun x => { x with phase := 2 })

/-- A chain that has ended and has no open operation is retired (R419). -/
def retireChain (s : State) (eng chain : Nat) : State :=
  let e := engineOf s eng
  let keep := e.chains.filter (fun c => !(c.id == chain && c.ended && c.open_.isEmpty && c.stop.isNone))
  updEngine s eng (fun e => { e with chains := keep })

/-- The signal of a completed entry: tag and count in one step, a release for the race detector (R104, R432). -/
def signalEntryDone (s : State) (ten core tid : Nat) (det : Option Nat) (e : List Byte) (n : Nat) : State :=
  let s := if entryFlag e 1 then tagSet s core (natAt e 2 1 % 64) tid else s
  let s := if entryFlag e 2 && !enColl (enType e) then (barAdd s (clusterOfCore core) (natAt e 3 1 % 64) n ten).getD s else s
  let signals := entryFlag e 1 || (entryFlag e 2 && !enColl (enType e))
  match det with
  | some d => if enScope e = 0 || !signals then s else detRelease s ten d (enScope e)
  | none => s

/-- An operation leaves: locks released, for a CKIN the check-out it ends; then its signal (R90, R126, R432). -/
def finishOp (s : State) (o : EngOp) (signal : Bool) : State :=
  let s := if o.ty = 11 && signal then
      let gone := (ckMatch s o).map CkEntry.op
      dropCk s (fun e => gone.contains e.op)
    else s
  let s := { s with ops := s.ops.filter (fun x => x.id != o.id) }
  let s := dropCk s (fun e => e.op == o.id && e.mode == 3)
  let s := if signal then signalEntryDone s o.tenant o.core o.tid o.det o.entry o.total else s
  let s := updEngine s o.eng (fun e => { e with chains := e.chains.map (fun c =>
    if c.id = o.chain then { c with open_ := c.open_.filter (fun x => x != o.id) } else c) })
  freeBars (freeTags (retireChain s o.eng o.chain) o.core o.tenant) o.cluster o.tenant

/-- ENGINE_OPERATION_COMPLETE (R126, R432): operation arg.a, or with 0 the first whose transfer is over. A queue's copy
performs its event operation (R222). -/
def execEngineOperationComplete (s : State) : Out :=
  .next (match s.ops.find? (fun o => o.phase == 2 && (s.arg.a == 0 || o.id == s.arg.a)) with
    | none => s
    | some o =>
      match o.queue with
      | none => finishOp s o true
      | some (q, n) =>
        let b := o.tensor
        let out := fun (s : State) => dropCk { s with ops := s.ops.filter (fun x => x.id != o.id) } (fun e => e.op == o.id)
        if natAt b 32 8 = 0 then entryDone (out s) q n
        else match eventAt s o.asid o.tenant (BitVec.ofNat 64 (natAt b 32 8)) (natAt b 2 1 == 1) (BitVec.ofNat 64 (natAt b 40 8)) (.queue q n.toNat) 0 with
          | .done s => entryDone (out s) q n
          | .sent s => out s
          | .wait s => s
          | .fault s => stopQueueAt (out s) q n 0x0B)

/-- ENGINE_LOCK_GRANT (R93): operation arg.a, or with 0 the first one not yet over, tries its registrations again and goes
on with its transfer. -/
def execEngineLockGrant (s : State) : Out :=
  .next (match s.ops.find? (fun o => decide (o.phase ≤ 1) && (s.arg.a == 0 || o.id == s.arg.a) && !(o.ty == 10 && o.phase == 0)) with
    | none => s
    | some o => runOp s o.id)

/-- CKOUT_GRANT (R85): the same for a waiting check-out. -/
def execCkoutGrant (s : State) : Out :=
  .next (match s.ops.find? (fun o => o.phase == 0 && o.ty == 10 && (s.arg.a == 0 || o.id == s.arg.a)) with
    | none => s
    | some o => runOp s o.id)

/-- CKOUT_TIMEOUT (R85, R86): a check-out that has waited WAITMAX microseconds. -/
def execCkoutTimeout (s : State) : Out :=
  .next (match s.ops.find? (fun o => o.phase == 0 && o.ty == 10 && o.ranges.isSome && (s.arg.a == 0 || o.id == s.arg.a) &&
      (let m := bits 15 0 (tsysGet s o.tenant srCkoutCtl); m != 0 && decide (o.since + m * 1000 ≤ nsOf s))) with
    | none => s
    | some o => ckFail s o fcCkout 1 0 (BitVec.ofNat 64 (enW1 o.entry)))

/-! ## The walk of a chain -/

/-- An operation or chain head fails: ILLEGAL, cause 2 (R431). -/
def chainFault (s : State) (eng : Nat) (c : Chain) (failed : Bool) : State :=
  let (id, s) := newId s
  let s := updEngine s eng (fun e => { e with chains := e.chains.map (fun x =>
    if x.id = c.id then { x with stop := some id, bad := !failed, failed } else x) })
  let s := addWait s c.tenant ⟨id, 0, fcIllegal, 2, c.gid, .chain eng c.id⟩
  engRecord s c.tenant c.asid c.gid c.teamId c.pos fcIllegal 2 0 0 [] id

/-- Entry types that an engine performs (R407). -/
def performs (kind t : Nat) : Bool :=
  (t == 0 || t == 12 || t == 13 || t == 14 || t == 15) ||
  (if kind = 0 then [1, 2, 5, 10, 11].contains t else if kind = 1 then [3, 4].contains t else [1, 5, 6, 7, 8, 9].contains t)

/-- The limits of a body (Table 14.4, R420 to R430). -/
def bodyOk (e : List Byte) : Bool :=
  let z := enB5 e == 0 && enB67 e == 0
  let n := enW3 e % 2 ^ 32
  let addOk := [0, 2, 9].contains (enB5 e / 16) &&
    (!entryFlag e 4 || decide ((if enB5 e / 16 = 2 then 2 else 4) ≤ enEl e))
  let coll := z && natAt e 3 1 == 0 && !enDstSp e && (enW3 e / 2 ^ 47) % 2 == 0
  let red := coll && (enW3 e / 2 ^ 54) % 4 == 0 && [0, 2].contains (enW3 e / 2 ^ 56) &&
    n % (if enW3 e / 2 ^ 56 = 2 then 2 else 4) == 0
  match enType e with
  | 0 => z && enW1 e == 0 && enW2 e == 0 && enW3 e == 0
  | 1 => z && decide (1 ≤ enW3 e ∧ enW3 e ≤ 2 ^ 32)
  | 2 => decide (enB5 e < 2) && enB67 e == 0 && (if enB5 e = 0 then !enSrcSp e else !enDstSp e)
  | 3 => decide (enB5 e ≤ 12) && enB67 e != 0
  | 4 => decide (enB5 e % 16 ≤ 12) && addOk && enB67 e != 0
  | 5 => coll && (enW3 e / 2 ^ 32) % 256 == 0 && enW3 e / 2 ^ 54 == 0
  | 6 => red && decide (enW3 e / 2 ^ 32 % 256 ≤ 2)
  | 7 => red && decide (enW3 e / 2 ^ 32 % 256 ≤ 2)
  | 8 => coll && (enW3 e / 2 ^ 32) % 256 == 0 && enW3 e / 2 ^ 54 == 0
  | 9 => red
  | 10 => decide (enB5 e ≤ 2) && enB67 e == 0 && decide (1 ≤ enW3 e ∧ enW3 e ≤ 2 ^ 32)
  | 11 => z && decide (1 ≤ enW3 e ∧ enW3 e ≤ 2 ^ 32)
  | 12 => z && enW1 e / 2 ^ 32 == 0 && enW2 e == 0 && enW3 e == 0
  | 13 => z && enW1 e / 2 ^ 32 == 0 && enW2 e == 0 && enW3 e == 0 && !entryFlag e 1 && !entryFlag e 2
  | 14 => z && decide (1 ≤ enW1 e / 2 ^ 32 ∧ enW1 e / 2 ^ 32 ≤ 255)
  | 15 => z && enW2 e == 0 && enW3 e == 0 && !entryFlag e 1 && !entryFlag e 2
  | _ => false

/-- An entry is well formed on an engine (R431). -/
def entryOk (s : State) (eng : Nat) (c : Chain) (e : List Byte) : Bool :=
  let t := enType e
  let ctl := t == 0 || decide (12 ≤ t)
  performs (engKind eng) t && natAt e 1 1 / 32 == 0 && natAt e 2 1 / 64 == 0 && natAt e 3 1 / 64 == 0 && natAt e 4 1 / 32 == 0 &&
  (if ctl then enScope e == 0 else decide (1 ≤ enScope e ∧ enScope e ≤ 5)) &&
  (!entryFlag e 3 || t == 10) && (!entryFlag e 4 || t == 4) && bodyOk e &&
  (!entryFlag e 1 || tagOk s c.core c.tenant (natAt e 2 1)) &&
  (!((entryFlag e 2 && !enColl t) || t == 13 || t == 15) || barOk s (clusterOfCore c.core) (natAt e 3 1) c.tenant)

/-- The next entry of a chain, where it can be read (R419). -/
def nextEntry (s : State) (c : Chain) : Option (List Byte) :=
  match findForm s c.fid with
  | none => none
  | some f => if winOk f (c.pos : Int) 32 then some (spadRead s f c.pos 32) else none

/-- A chain may be walked: not ended or stopped, its form resident, its next entry in no segment whose new accesses a SRAMCFG
holds (R51, R433, R434). -/
def walkable (s : State) (c : Chain) : Bool :=
  !c.ended && c.stop.isNone && (match findForm s c.fid with | some f => !f.away && !offHeld s f c.pos | none => true)

/-- One chain of an engine changed. -/
def updChain (s : State) (eng chain : Nat) (f : Chain → Chain) : State :=
  updEngine s eng (fun e => { e with chains := e.chains.map (fun c => if c.id = chain then f c else c) })

/-- A chain-entry row: chain arg.b of engine arg.a, or with 0 the engine's first chain whose next entry has this row's
type, reads its next entry. A failed read or a malformed entry faults; an ORDERED entry waits for the chain's open
operations (R419, R431). -/
def chainRow (ty : Nat) (k : State → Nat → Chain → List Byte → State) (s : State) : Out :=
  let eng := s.arg.a
  let pick := fun (c : Chain) => (s.arg.b == 0 || c.id == s.arg.b) && walkable s c &&
    (match nextEntry s c with
     | none => true
     | some e => !entryOk s eng c e || (enType e == ty && !(entryFlag e 0 && !c.open_.isEmpty)))
  .next (match (engineOf s eng).chains.find? pick with
    | none => s
    | some c =>
      match nextEntry s c with
      | none => chainFault s eng c true
      | some e => if entryOk s eng c e then k s eng c e else chainFault s eng c false)

/-- Tag and barrier that an entry names become its tenant's (R409, R410). -/
def claimEntry (s : State) (c : Chain) (e : List Byte) : State :=
  let s := if entryFlag e 1 then tagClaim s c.core c.tenant (natAt e 2 1) else s
  if (entryFlag e 2 && !enColl (enType e)) || enType e == 13 || enType e == 15 then
    barClaim s (clusterOfCore c.core) (natAt e 3 1) c.tenant else s

/-- The address offsets of the active loops around an entry (R420). -/
def loopOffsets (c : Chain) : W64 × W64 :=
  (c.loops.filter (fun l => l.pass != 0 && decide (l.at_ ≤ c.pos + 32 * l.back) && decide (c.pos < l.at_))).foldl
    (fun p l => (p.1 + l.incs * BitVec.ofNat 64 l.pass, p.2 + l.incd * BitVec.ofNat 64 l.pass)) (0, 0)

/-- An entry with the loop offsets applied; a collective's in its offset field only. -/
def offsetEntry (c : Chain) (e : List Byte) : List Byte :=
  let (i, d) := loopOffsets c
  let w1 := (BitVec.ofNat 64 (enW1 e) + i).toNat
  let w2 := if enColl (enType e) then enW2 e % 2 ^ 10 + ((enW2 e / 2 ^ 10 + d.toNat) % 2 ^ 54) * 2 ^ 10
    else (BitVec.ofNat 64 (enW2 e) + d).toNat
  spliceAt (spliceAt e 8 (bytesLE 8 w1)) 16 (bytesLE 8 w2)

/-- A transfer entry starts, where the engine has fewer than 32 operations (R408, R419, R427). -/
def startEntry (s : State) (eng : Nat) (c : Chain) (e : List Byte) : State :=
  if 32 ≤ (s.ops.filter (fun o => o.eng == eng)).length then s
  else
    let s := claimEntry s c e
    let (id, s) := newId s
    let e' := offsetEntry c e
    let g := enW2 e' % 2 ^ 10
    let n := tget 0 g s.fab.colSeq
    let seq := if enGroup (enType e) then some n else none
    let s := if enGroup (enType e) then { s with fab := { s.fab with colSeq := tset 0 g (n + 1) s.fab.colSeq } } else s
    let o : EngOp :=
      { id, eng, chain := c.id, fid := c.fid, gid := c.gid, tid := c.tid, core := c.core, tenant := c.tenant, asid := c.asid,
        teamId := c.teamId, det := c.det, entry := e', off := c.pos, seq, since := nsOf s }
    let s := updChain { s with ops := s.ops ++ [o] } eng c.id (fun c => { c with pos := c.pos + 32, open_ := c.open_ ++ [id] })
    runOp (if seq.isSome then drainDeliveries 4096 s else s) id

/-- COPY chain entry (R422). -/
def execCopyEntry (s : State) : Out := chainRow 1 startEntry s
/-- COPYT (R424). -/
def execCopyt (s : State) : Out := chainRow 2 startEntry s
/-- GATHER (R425). -/
def execGather (s : State) : Out := chainRow 3 startEntry s
/-- SCATTER (R425). -/
def execScatter (s : State) : Out := chainRow 4 startEntry s
/-- MCAST (R428). -/
def execMcast (s : State) : Out := chainRow 5 startEntry s
/-- ALLRED (R428). -/
def execAllred (s : State) : Out := chainRow 6 startEntry s
/-- REDSCAT (R428). -/
def execRedscat (s : State) : Out := chainRow 7 startEntry s
/-- ALLGATH (R428). -/
def execAllgath (s : State) : Out := chainRow 8 startEntry s
/-- SPARSEK (R429). -/
def execSparsek (s : State) : Out := chainRow 9 startEntry s
/-- CKOUT (R87, R426). -/
def execCkout (s : State) : Out := chainRow 10 startEntry s
/-- CKIN (R90, R426). -/
def execCkin (s : State) : Out := chainRow 11 startEntry s

/-- SIGNAL chain entry (R430): it completes at once. -/
def execSignalEntry (s : State) : Out :=
  chainRow 12 (fun s eng c e =>
    let s := updChain (claimEntry s c e) eng c.id (fun c => { c with pos := c.pos + 32 })
    signalEntryDone s c.tenant c.core c.tid c.det e (enW1 e)) s

/-- WAITBC (R419, R430): the walk holds until the barrier's COUNT has reached the target. -/
def execWaitbc (s : State) : Out :=
  chainRow 13 (fun s eng c e =>
    let s := claimEntry s c e
    if reached (barOf s (clusterOfCore c.core) (natAt e 3 1)).count (BitVec.ofNat 32 (enW1 e)) then
      updChain s eng c.id (fun c => { c with pos := c.pos + 32 })
    else s) s

/-- IFBC (R419, R430). -/
def execIfbc (s : State) : Out :=
  chainRow 15 (fun s eng c e =>
    let s := claimEntry s c e
    let r := reached (barOf s (clusterOfCore c.core) (natAt e 3 1)).count (BitVec.ofNat 32 (enW1 e % 2 ^ 32))
    updChain s eng c.id (fun c => { c with pos := c.pos + 32 * (if r then 1 else 1 + enW1 e / 2 ^ 32) })) s

/-- The bodies of the loops that a walk has visited nest, at most four deep, and lie behind the head (R420). -/
def loopsOk (c : Chain) (l : List LoopSt) : Bool :=
  let span := fun (x : LoopSt) => (x.at_ - 32 * x.back, x.at_ + 32)
  let inside := fun (a b : Nat × Nat) => decide (b.1 ≤ a.1) && decide (a.2 ≤ b.2)
  l.all (fun x => decide (c.headOff + 32 * x.back ≤ x.at_) &&
    l.all (fun y => decide ((span x).2 ≤ (span y).1 ∨ (span y).2 ≤ (span x).1) || inside (span x) (span y) || inside (span y) (span x)) &&
    decide ((l.filter (fun y => inside (span x) (span y))).length ≤ 4))

/-- LOOP (R420). -/
def execLoopEntry (s : State) : Out :=
  chainRow 14 (fun s eng c e =>
    let old := c.loops.find? (fun l => l.at_ == c.pos)
    let pass := match old with | some l => l.pass | none => 0
    let back := enW1 e / 2 ^ 32
    let more := decide (pass + 1 < enW1 e % 2 ^ 32)
    let me : LoopSt := ⟨c.pos, if more then pass + 1 else 0, back, BitVec.ofNat 64 (enW2 e), BitVec.ofNat 64 (enW3 e)⟩
    let l := c.loops.filter (fun l => l.at_ != c.pos) ++ [me]
    if !loopsOk c l then chainFault s eng c false
    else updChain s eng c.id (fun c => { c with loops := l, pos := if more then c.pos - 32 * back else c.pos + 32 })) s

/-- END (R419): the walk stops; the chain retires once its operations are complete. -/
def execEndEntry (s : State) : Out :=
  chainRow 0 (fun s eng c _ => retireChain (updChain s eng c.id (fun c => { c with ended := true })) eng c.id) s

end Sys2Proof.Machine
end

