-- ==== Sys2Proof/Machine/EngInstr.lean ====
section
/-! DEFINITION. The instructions that hand work to engines and wait for it (R409 to R417): chains, tags and byte-counting
barriers, of slices and of Prefects; and the reply to a far access (R44, R45). -/

namespace Sys2Proof.Machine

/-- The engine that a number selects for a core (R407). -/
def engKeyOf (core e : Nat) : Nat :=
  if e = 0 then clusterOfCore core else if e = 1 then 128 + clusterOfCore core else 256 + 16 * dieOfCore core + (e - 2)

/-- Cohort slices of a list pass the instruction, each changed by `f`; the others wait in BARRIER (Table 6.9). -/
def splitGo (s : State) (g : Gang) (go : List Nat) (f : Nat → Slice → Slice) : State :=
  let s := updTeam s g.team.tid (fun t =>
    let t := t.mapSlices g.nums (fun n sl => if go.contains n then advance 1 (f n sl) else { sl with st := .barrier })
    regroup t g.nums)
  if go.isEmpty then s else latchStep s g none

/-! ## Tags and barriers by name -/

/-- Bits of a mask. -/
def maskBits (m : W64) : List Nat := (List.range 64).filter (fun i => m.getLsbD i)
/-- No bit of a mask belongs to another tenant (R409). -/
def maskOk (s : State) (core ten : Nat) (m : W64) : Bool := (maskBits m).all (tagOk s core ten)
/-- TAGS as a tenant sees it: only the bits that it owns (R414). -/
def ownTags (s : State) (core ten : Nat) : W64 :=
  let c := coreOf s core
  c.tags &&& ((c.tagOwner.filter (fun p => p.2 == ten)).foldl (fun m p => m ||| BitVec.ofNat 64 (2 ^ p.1)) 0)

/-- TAGCLR (R409, R414): free bits become the tenant's; the bits are cleared and attributed to the team; one that no
operation carries is free again. -/
def tagsClear (s : State) (core ten tid : Nat) (m : W64) : State :=
  let s := (maskBits m).foldl (fun s b => tagClaim s core ten b) s
  let busy := fun (b : Nat) => s.ops.any (fun o => o.core == core && o.tenant == ten && o.carriesTag && natAt o.entry 2 1 % 64 == b)
  let keep := (maskBits m).filter busy
  updCore s core (fun c => { c with
    tags := c.tags &&& ~~~m
    tagOwner := c.tagOwner.filter (fun p => !m.getLsbD p.1 || keep.contains p.1)
    tagTeam := c.tagTeam.filter (fun p => !m.getLsbD p.1) ++ keep.map (fun b => (b, tid)) })

/-- The number of the lowest set bit, 64 for none (R414). -/
def lowestBit (x : W64) : Nat := ctzN 64 x.toNat

/-! ## Chains -/

/-- Why a head offset faults: code, cause and level (R413). -/
def headFault (s : State) (fid : Nat) (o : W64) : Option (Nat × Nat) :=
  if o.toNat % 32 ≠ 0 then some (fcMisalign, 0)
  else match findForm s fid with
    | none => some (fcPagePerm, 4)
    | some f => if winOk f (o.toNat : Int) 32 then none else some (fcPagePerm, 4)

/-- An engine accepts a chain (R408, R413). -/
def acceptChain (s : State) (t : Team) (g : Grid) (eng : Nat) (o : W64) : State :=
  let (id, s) := newId s
  let c : Chain :=
    { id, fid := t.fid, gid := g.gid, tid := t.tid, core := t.core, tenant := g.tenant, asid := g.asid,
      headOff := o.toNat, pos := o.toNat, teamId := t.teamId, det := t.det }
  updEngine s eng (fun e => { e with chains := e.chains ++ [c] })
/-- An engine has room for a chain (R408). -/
def engRoom (s : State) (eng : Nat) : Bool := decide ((engineOf s eng).chains.length < 16)

/-- Each slice in turn hands over its chain while the engine has room: the slices that did. -/
def handChains (t : Team) (g : Grid) (eng a : Nat) : List (Nat × Slice) → State → List Nat × State
  | [], s => ([], s)
  | p :: r, s =>
    if engRoom s eng then
      let (l, s) := handChains t g eng a r (acceptChain s t g eng (rdG p.2 a))
      (p.1 :: l, s)
    else ([], s)

/-- CHAIN (R412, R413). -/
def execChain (a : GReg) (e : BitVec 5) (s : State) : Out :=
  ending s (fun _ => decide (e.toNat < 18)) (fun s g =>
    match g.sl.findSome? (fun p => (headFault s g.team.fid (rdG p.2 a.toNat)).map (fun f => (f, rdG p.2 a.toNat))) with
    | some (f, va) => raiseGang s g f.1 f.2 0 va 0
    | none =>
      let (go, s) := handChains g.team g.grid (engKeyOf g.team.core e.toNat) a.toNat g.sl s
      splitGo s g go (fun _ sl => sl))

/-- SCHAIN (R416). -/
def execSchain (e : BitVec 6) (a : SReg) (s : State) : Out :=
  withPref s (fun p =>
    let o := rdS p.team.pf a.toNat
    let k := engKeyOf p.team.core e.toNat
    if 18 ≤ e.toNat then illegalPref s p
    else match headFault s p.team.fid o with
      | some f => raisePref s p f.1 f.2 0 o
      | none =>
        if engRoom s k then prefDone (acceptChain s p.team p.grid k o) p (fun q => q)
        else prefStall s p .barrier)

/-! ## Tag waits -/

/-- A tag instruction of slices: `need` says when a slice goes on with the tags and its mask, `res` what it writes; a mask
that names another tenant's bit, or that `ok` refuses, is ILLEGAL. -/
def tagSlices (d a : Nat) (ok : W64 → Bool) (need : W64 → W64 → Bool) (res : W64 → W64 → W64) (s : State) : Out :=
  ending s (fun _ => true) (fun s g =>
    if !(g.sl.all (fun p => ok (rdG p.2 a) && maskOk s g.team.core g.grid.tenant (rdG p.2 a))) then illegalGang s g
    else
      let t := ownTags s g.team.core g.grid.tenant
      splitGo s g ((g.sl.filter (fun p => need t (rdG p.2 a))).map Prod.fst) (fun _ sl => wrG sl d (res t (rdG sl a))))

/-- TAGWAIT.ANY (R414). -/
def execTagwaitAny (d a : GReg) (s : State) : Out :=
  tagSlices d.toNat a.toNat (fun m => m != 0) (fun t m => t &&& m != 0) (fun t m => t &&& m) s
/-- TAGWAIT.ALL (R414): an empty mask retires at once. -/
def execTagwaitAll (d a : GReg) (s : State) : Out :=
  tagSlices d.toNat a.toNat (fun _ => true) (fun t m => t &&& m == m) (fun t m => t &&& m) s
/-- TAGFF (R414): it never waits. -/
def execTagff (d a : GReg) (s : State) : Out :=
  tagSlices d.toNat a.toNat (fun _ => true) (fun _ _ => true) (fun t m => BitVec.ofNat 64 (lowestBit (t &&& m))) s
/-- TAGCLR (R414). -/
def execTagclr (a : GReg) (s : State) : Out :=
  ending s (fun _ => true) (fun s g =>
    if !(g.sl.all (fun p => maskOk s g.team.core g.grid.tenant (rdG p.2 a.toNat))) then illegalGang s g
    else
      let s := g.sl.foldl (fun s p => tagsClear s g.team.core g.grid.tenant g.team.tid (rdG p.2 a.toNat)) s
      splitGo s g g.nums (fun _ sl => sl))

/-- A Prefect's tag instruction; with C = 1 the bits that `hit` reports are then cleared (R416). -/
def tagPref (d a : Nat) (c : Bool) (ok : W64 → Bool) (need : W64 → W64 → Bool) (res : W64 → W64 → W64)
    (hit : W64 → W64 → W64) (s : State) : Out :=
  withPref s (fun p =>
    let m := rdS p.team.pf a
    let t := ownTags s p.team.core p.grid.tenant
    if !(ok m && maskOk s p.team.core p.grid.tenant m) then illegalPref s p
    else if !need t m then prefStall s p .barrier
    else
      let s := if c then tagsClear s p.team.core p.grid.tenant p.team.tid (hit t m) else s
      prefDone s p (fun q => wrS q d (res t m)))

/-- STAGWAIT.ANY (R416). -/
def execStagwaitAny (d a : SReg) (c : BitVec 1) (s : State) : Out :=
  tagPref d.toNat a.toNat (c == 1) (fun m => m != 0) (fun t m => t &&& m != 0) (fun t m => t &&& m) (fun t m => t &&& m) s
/-- STAGWAIT.ALL (R416). -/
def execStagwaitAll (d a : SReg) (c : BitVec 1) (s : State) : Out :=
  tagPref d.toNat a.toNat (c == 1) (fun _ => true) (fun t m => t &&& m == m) (fun t m => t &&& m) (fun t m => t &&& m) s
/-- STAGFF (R416): with C = 1 it clears the one bit found. -/
def execStagff (d a : SReg) (c : BitVec 1) (s : State) : Out :=
  tagPref d.toNat a.toNat (c == 1) (fun _ => true) (fun _ _ => true) (fun t m => BitVec.ofNat 64 (lowestBit (t &&& m)))
    (fun t m => if t &&& m = 0 then 0 else BitVec.ofNat 64 (2 ^ lowestBit (t &&& m))) s

/-! ## Byte-counting barriers -/

/-- BCWAIT (R415): slices whose target is reached go on with the COUNT read. -/
def execBcwait (d a : GReg) (k : BitVec 6) (s : State) : Out :=
  ending s (fun _ => true) (fun s g =>
    let cl := clusterOfCore g.team.core
    if !barOk s cl k.toNat g.grid.tenant then illegalGang s g
    else
      let s := barClaim s cl k.toNat g.grid.tenant
      let n := (barOf s cl k.toNat).count
      splitGo s g ((g.sl.filter (fun p => reached n ((rdG p.2 a.toNat).setWidth 32))).map Prod.fst)
        (fun _ sl => wrG sl d.toNat (n.setWidth 64)))
/-- BCADD (R415): each slice adds its value. -/
def execBcadd (a : GReg) (k : BitVec 6) (s : State) : Out :=
  ending s (fun _ => true) (fun s g =>
    let cl := clusterOfCore g.team.core
    if !barOk s cl k.toNat g.grid.tenant then illegalGang s g
    else
      let s := g.sl.foldl (fun s p =>
        (barAdd s cl k.toNat ((rdG p.2 a.toNat).toNat % 2 ^ 32) g.grid.tenant).getD s) s
      splitGo s g g.nums (fun _ sl => sl))
/-- SBCWAIT (R416). -/
def execSbcwait (d a : SReg) (k : BitVec 6) (s : State) : Out :=
  withPref s (fun p =>
    let cl := clusterOfCore p.team.core
    if !barOk s cl k.toNat p.grid.tenant then illegalPref s p
    else
      let s := barClaim s cl k.toNat p.grid.tenant
      let n := (barOf s cl k.toNat).count
      if reached n ((rdS p.team.pf a.toNat).setWidth 32) then prefDone s p (fun q => wrS q d.toNat (n.setWidth 64))
      else prefStall s p .barrier)
/-- SBCARM (R417). -/
def execSbcarm (k : BitVec 6) (a b : SReg) (s : State) : Out :=
  withPref s (fun p =>
    let cl := clusterOfCore p.team.core
    let ten := p.grid.tenant
    let v := rdS p.team.pf b.toNat
    let off := v.getLsbD 6
    let tag := v.toNat % 64
    if v >>> 7 ≠ 0 ∨ !barOk s cl k.toNat ten then illegalPref s p
    else if !off && !tagOk s p.team.core ten tag then illegalPref s p
    else
      let s := barClaim s cl k.toNat ten
      let s := if off then updBar s cl k.toNat (fun x => { x with arm := none })
        else
          let s := tagClaim s p.team.core ten tag
          let arm : BcArm := ⟨(rdS p.team.pf a.toNat).setWidth 32, tag, p.team.core, p.team.tid⟩
          barFire (updBar s cl k.toNat (fun x => { x with arm := some arm })) cl k.toNat
      prefDone s p (fun q => q))

/-! ## Replies to far accesses -/

/-- The answer to a far access of an operation: data for its unit, or a write that is done; outside every extent the
operation faults (R44, R45). -/
def engFarReply (s : State) (f : FarReq) (op : Nat) (backed : Bool) (d : List Byte) : State :=
  match findEop s op with
  | none => s
  | some o =>
    if 2 ≤ o.phase then s
    else if !backed then
      engFault (updEop s op (fun x => { x with asked := false })) { o with asked := false } fcPageAbsent 3 f.level f.va []
    else
      let s := updEop s op (fun x => { x with
        asked := false, held := if f.wr.isSome then x.held else x.held ++ d
        wrote := if f.wr.isSome then x.wrote + f.n else x.wrote })
      runOp s op

end Sys2Proof.Machine
end

