-- ==== Sys2Proof/Machine/MxArith.lean ====
section
/-! DEFINITION. The arithmetic of matrix passes and slates (R282 to R287): one output element of a pass, the update and the
read of a slate. -/

namespace Sys2Proof.Machine

/-- MNV and MOF of one step: NaN from operands that are all not NaN, an infinity from finite ones (R286). -/
def stepFl (ins : List Num) (out : Num) : Fl :=
  match out with
  | .nan => flIf (ins.all (fun x => x != .nan)) flMNV
  | .inf _ => flIf (ins.all (fun x => match x with | .fin _ _ _ => true | .nan => false | .inf _ => false)) flMOF
  | .fin _ _ _ => 0

/-- A list cut into groups of n (R283). -/
def groupsOf {α : Type} (n : Nat) : Nat → List α → List (List α)
  | 0, _ => []
  | k + 1, l => if l.isEmpty then [] else l.take n :: groupsOf n k (l.drop n)

/-- The groups of a pass: 32 in ascending k, or all in the exact mode (R283). -/
def passGroups {α : Type} (exact : Bool) (l : List α) : List (List α) :=
  groupsOf (if exact then max 1 l.length else 32) (l.length + 1) l

/-- Scale of R283: both scales checked for NaN first. -/
def scaleG (sc : Option (Num × Num)) (g : Num) : Num × Fl :=
  match sc with
  | none => (g, 0)
  | some (a, b) =>
    if a = .nan ∨ b = .nan then (.nan, 0)
    else
      let s := rne32 false (mulNum a b).1
      let r := rne32 false (mulNum g s).1
      (r, stepFl [a, b] s ||| stepFl [g, s] r)

/-- One group added to an element: its sum, its scale, and one rounded addition (R283). `ins` are the operands of its
products. -/
def addGroup (exact : Bool) (sc : Option (Num × Num)) (acc : Num) (ins ps : List Num) : Num × Fl :=
  let g := sumP exact ps
  let (h, f) := scaleG sc g
  let r := rne32 true (addNum false acc h).1
  (r, stepFl ins g ||| f ||| stepFl [acc, h] r)

/-- An element after a pass over the pairs of a row of A and a column of B (R283). -/
def passElem (exact : Bool) (sc : Option (Num × Num)) (acc : Num) (l : List (Num × Num)) : Num × Fl :=
  (passGroups exact l).foldl (fun p g =>
    let (r, f) := addGroup exact sc p.1 (g.map Prod.fst ++ g.map Prod.snd) (g.map (fun x => (mulNum x.1 x.2).1))
    (r, p.2 ||| f)) (acc, 0)

/-- The products of a CB4 group: each code's exact bin times its table entry; codes without a member are skipped (R284). -/
def binProducts (table : List Num) (g : List (Num × Nat)) : List Num :=
  (List.range 16).flatMap (fun c =>
    let m := g.filter (fun x => x.2 == c)
    if m.isEmpty then [] else [(mulNum (sumExact (m.map Prod.fst)) (table.getD c .nan)).1])

/-- An element after a CB4 pass (R284). -/
def codeElem (exact : Bool) (sc : Option (Num × Num)) (table : List Num) (acc : Num) (l : List (Num × Nat)) : Num × Fl :=
  (passGroups exact l).foldl (fun p g =>
    let ins := g.map Prod.fst ++ g.map (fun x => table.getD x.2 .nan)
    let (r, f) := addGroup exact sc p.1 ins (binProducts table g)
    (r, p.2 ||| f)) (acc, 0)

/-- An element after an INT8 pass: the exact sum added modulo 2^32 (R285). -/
def intElem (acc : W32) (l : List (Nat × Nat)) : W32 :=
  acc + BitVec.ofInt 32 ((l.map (fun x => sval 8 x.1 * sval 8 x.2)).foldl (· + ·) 0)

/-- Read(S, q): o[i] as a pass from +0 without scales (R287, R458). -/
def slateRead (exact : Bool) (rows : List (List Num)) (q : List Num) : List Num × Fl :=
  let l := rows.map (fun r => passElem exact none (.fin false 0 0) (r.zip q))
  (l.map Prod.fst, (l.map Prod.snd).foldl (· ||| ·) 0)

/-- One row of the update: w, c and the new elements, each rounded once (R287). -/
def slateRow (alpha beta v u : Num) (row k : List Num) : List Num × Fl :=
  let t := rne32 false (mulNum alpha u).1
  let w := rne32 true (addNum false v (negNum t)).1
  let c := rne32 false (mulNum beta w).1
  let fl := stepFl [alpha, u] t ||| stepFl [v, t] w ||| stepFl [beta, w] c
  let l := (row.zip k).map (fun x =>
    let r := rne32 true (addNum false (mulNum alpha x.1).1 (mulNum c x.2).1).1
    (r, stepFl [alpha, x.1, c, x.2] r))
  (l.map Prod.fst, fl ||| (l.map Prod.snd).foldl (· ||| ·) 0)

/-- Update(S, k, v, alpha, beta): every u is formed before any element changes (R287). -/
def slateUpdate (exact : Bool) (rows : List (List Num)) (k v : List Num) (alpha beta : Num) : List (List Num) × Fl :=
  let (u, f) := slateRead exact rows k
  let l := (rows.zip (v.zip u)).map (fun x => slateRow alpha beta x.2.1 x.2.2 x.1 k)
  (l.map Prod.fst, f ||| (l.map Prod.snd).foldl (· ||| ·) 0)

end Sys2Proof.Machine
end

