-- ==== Sys2Proof/Machine/MxSlots.lean ====
section
/-! DEFINITION. The matrix engine's slots, names and slates (R437, R438, R453 to R464): binding, spill, refill, eviction,
the reservation table and the transfers that other devices perform. -/

namespace Sys2Proof.Machine

def mxOf (s : State) (cl : Nat) : Matrix := (clusterOf s cl).mx
def updMx (s : State) (cl : Nat) (f : Matrix → Matrix) : State := updCluster s cl (fun c => { c with mx := f c.mx })

/-! ## Slots -/

/-- The words of a slot, and one of them. -/
def slotOf (s : State) (cl k : Nat) : Tbl W32 := tget [] k (mxOf s cl).slots
def slotWord (w : Tbl W32) (i j : Nat) : W32 := tget 0#32 (128 * i + j) w
/-- A slot from its words. -/
def mkSlot (f : Nat → Nat → W32) : Tbl W32 :=
  ((List.range 128).flatMap (fun i => (List.range 128).map (fun j => (128 * i + j, f i j)))).filter (fun p => p.2 != 0#32)
def setSlot (s : State) (cl k : Nat) (w : Tbl W32) : State := updMx s cl (fun m => { m with slots := tset [] k w m.slots })

/-- The ownership entry of a slot (Table 15.6). -/
def ownOf (s : State) (cl k : Nat) : OwnEntry := tget {} k (mxOf s cl).own
def setOwn (s : State) (cl k : Nat) (o : OwnEntry) : State := updMx s cl (fun m => { m with own := tset {} k o m.own })

/-- Slots that a resident form of the cluster has reserved and not yet bound. -/
def reservedSlots (s : State) (cl : Nat) : List Nat :=
  (s.forms.filter (fun f => f.cluster == cl && !f.out)).flatMap Form.reserved
/-- The free list of an engine, lowest number first (R438). -/
def freeSlots (s : State) (cl : Nat) : List Nat :=
  let r := reservedSlots s cl
  (List.range 32).filter (fun k => (ownOf s cl k).state == 0 && !r.contains k)

/-! ## Slates -/

def findSlate (s : State) (ten id : Nat) : Option Slate := s.slates.find? (fun x => x.tenant == ten && x.id == id)
def updSlate (s : State) (ten id : Nat) (f : Slate → Slate) : State :=
  { s with slates := s.slates.map (fun x => if x.tenant = ten ∧ x.id = id then f x else x) }
/-- A slate is resident on an engine. -/
def slateHere (s : State) (cl ten id : Nat) : Bool :=
  match findSlate s ten id with | some x => x.state == 1 && x.cluster == cl | none => false
/-- Resident slates of a tenant on an engine, as slots. -/
def residentSlots (s : State) (cl ten : Nat) : List Nat :=
  (List.range 32).filter (fun k => (ownOf s cl k).state == 2 && (ownOf s cl k).tenant == ten)
/-- SYS.SLATE_CTL.QUOTA (Table 15.5). -/
def quotaOf (s : State) (ten : Nat) : Nat := min 32 (bits 5 0 (tsysGet s ten srSlateCtl))

/-- CRC-32C over a spill image with bytes 60 to 63 taken as 0. -/
def imageCrc (b : List Byte) : Nat := crc32c (spliceAt b 60 (bytesLE 4 0))
/-- The spill image of a slate (R460). -/
def spillImage (x : Slate) (w : Tbl W32) : List Byte :=
  let h := bytesLE 4 0x5A7E0001 ++ bytesLE 2 1 ++ bytesLE 1 0 ++ bytesLE 1 x.progress ++ bytesLE 4 x.id ++ bytesLE 2 x.dv ++
    bytesLE 2 x.dk ++ bytesLE 8 x.gen.toNat ++ bytesLE 36 0 ++ bytesLE 4 0
  let b := h ++ (List.range x.dv).flatMap (fun i => (List.range x.dk).flatMap (fun j => bytesLE 4 (slotWord w i j).toNat))
  spliceAt b 60 (bytesLE 4 (imageCrc b))
/-- Bytes of a slate's image. -/
def Slate.bytes (x : Slate) : Nat := 64 + 4 * x.dv * x.dk

/-- A store of the engine to local memory: a house access (R129), each line a request (R71). -/
def mxPut (s : State) (cl pa : Nat) (b : List Byte) (ten : Nat) : State :=
  let s := performStore ((linesOf pa b.length).foldl (fun s a => spend s (homeSlice a) ten) s) pa b ten 3
  if homeDie pa ≠ cl / 64 then remoteUpdate s (cl / 64) pa b else s

/-- A spill: the image is written to the recorded frames, then the slot is freed (R461). -/
def spillSlate (s : State) (cl slot : Nat) : State :=
  let o := ownOf s cl slot
  match findSlate s o.tenant o.id with
  | none => setOwn s cl slot {}
  | some x =>
    let b := spillImage x (slotOf s cl slot)
    let s := mxPut s cl x.spill0 (b.take x.first) x.tenant
    let s := if b.length ≤ x.first then s else mxPut s cl x.spill1 (b.drop x.first) x.tenant
    setOwn (updSlate s x.tenant x.id (fun y => { y with state := 2, lru := o.lru })) cl slot {}

/-- The least recently granted of some slots, ties to the lower one (R464). -/
def oldestSlot (s : State) (cl : Nat) (l : List Nat) : Option Nat := (sortOn (fun k => (ownOf s cl k).lru) l).head?

/-- A capacity eviction: the least recently granted slate of any tenant on the engine (R464). -/
def evictAny (s : State) (cl : Nat) : Option State :=
  (oldestSlot s cl ((List.range 32).filter (fun k => (ownOf s cl k).state == 2))).map (spillSlate s cl)

/-- A slot under R438: the form's reserved ones, then the free list, then an eviction; every word of it +0. -/
def takeSlot (s : State) (cl fid : Nat) : Option (Nat × State) :=
  let clear := fun (s : State) (k : Nat) => (k, setSlot s cl k [])
  match findForm s fid with
  | none => none
  | some f =>
    match sortOn (fun x => x) f.reserved with
    | k :: r => some (clear (updForm s fid (fun f => { f with reserved := r })) k)
    | [] =>
      match freeSlots s cl with
      | k :: _ => some (clear s k)
      | [] => match evictAny s cl with
        | none => none
        | some s => match freeSlots s cl with
          | k :: _ => some (clear s k)
          | [] => none

/-- A slot can be had for a form. -/
def canTake (s : State) (cl fid : Nat) : Bool :=
  (match findForm s fid with | some f => !f.reserved.isEmpty | none => false) || !(freeSlots s cl).isEmpty ||
  (List.range 32).any (fun k => (ownOf s cl k).state == 2)

/-- The slot bound to a name, and the slate that a name denotes. -/
def nameSlot (s : State) (fid n : Nat) : Option Nat := (findForm s fid).bind (fun f => tfind n f.names)
def nameSlate (s : State) (fid n : Nat) : Option Nat := (findForm s fid).bind (fun f => tfind n f.slateNames)

/-- A name bound to an ordinary slot, at once if it is not (R438). -/
def bindName (s : State) (cl fid gid ten n : Nat) : Option (Nat × State) :=
  match nameSlot s fid n with
  | some k => some (k, s)
  | none => match takeSlot s cl fid with
    | none => none
    | some (k, s) =>
      let s := setOwn s cl k { state := 1, tenant := ten, fid := some fid, gid }
      some (k, updForm s fid (fun f => { f with names := tput n k f.names }))

/-- A name and its slot given back (R451). -/
def unbindName (s : State) (cl fid n : Nat) : State :=
  match nameSlot s fid n with
  | none => s
  | some k => setOwn (updForm s fid (fun f => { f with names := tdel n f.names })) cl k {}

/-- The name that a matrix or slate command names (Table 15.2). -/
def mxName : Instr → Option Nat
  | .mma n _ _ => some n.toNat
  | .mepi n _ _ => some n.toNat
  | .mzero n => some n.toNat
  | .mrel n => some n.toNat
  | .slpin n _ _ => some n.toNat
  | .slunpin n => some n.toNat
  | .sldelta n _ => some n.toNat
  | .slread n _ _ => some n.toNat
  | .slchunk n _ _ => some n.toNat
  | .slspill n => some n.toNat
  | _ => none

/-- A slate has an entry posted on its engine. -/
def slatePosted (s : State) (cl slot : Nat) : Bool :=
  let o := ownOf s cl slot
  (mxOf s cl).resv.any (fun r => o.fid == some r.fid && (match mxName r.instr with
    | some n => nameSlate s r.fid n == some o.id
    | none => false))

/-- Room under QUOTA for one more resident slate of a tenant: its least recently granted one is spilled. With `idle`, only
one that has no entry posted (R455); none when there is no such slate. A QUOTA of 0 makes room for the one that a unit
needs. -/
def quotaRoom (s : State) (cl ten : Nat) (idle : Bool) : Option State :=
  let l := residentSlots s cl ten
  if l.length < max 1 (quotaOf s ten) then some s
  else (oldestSlot s cl (l.filter (fun k => !(idle && slatePosted s cl k)))).map (spillSlate s cl)

/-- Resident slates of every tenant brought within QUOTA, between units (R464). -/
def quotaTrim : Nat → State → Nat → State
  | 0, s, _ => s
  | n + 1, s, cl =>
    let bad := (List.range 32).filter (fun k => (ownOf s cl k).state == 2 &&
      decide (quotaOf s (ownOf s cl k).tenant < (residentSlots s cl (ownOf s cl k).tenant).length))
    match bad with
    | [] => s
    | k :: _ => match oldestSlot s cl (residentSlots s cl (ownOf s cl k).tenant) with
      | none => s
      | some v => quotaTrim n (spillSlate s cl v) cl

/-- An image passes the check of a refill (R461). -/
def imageOk (s : State) (x : Slate) (b : List Byte) : Bool :=
  natAt b 0 4 == 0x5A7E0001 && natAt b 4 2 == 1 && natAt b 8 4 == x.id && natAt b 12 2 == x.dv && natAt b 14 2 == x.dk &&
  natAt b 16 8 == x.gen.toNat && natAt b 60 4 == imageCrc b &&
  !poisoned s x.spill0 (min x.first x.bytes) && !(decide (x.first < x.bytes) && poisoned s x.spill1 (x.bytes - x.first))

/-- A refill (R461, R462): a slate that is resident on another engine is spilled there first; it becomes resident, or
corrupt when its image fails the check. None while no slot can be had. -/
def refillSlate (s : State) (cl fid ten id : Nat) (idle : Bool) : Option State :=
  match findSlate s ten id with
  | none => none
  | some x =>
    if x.state = 0 ∨ x.state = 3 ∨ (x.state = 1 ∧ x.cluster = cl) then none
    else match quotaRoom (if x.state = 1 then spillSlate s x.cluster x.slot else s) cl ten idle with
      | none => none
      | some s => match takeSlot s cl fid with
        | none => none
        | some (k, s) =>
          let b := mgetAll s.mem x.spill0 (min x.first x.bytes) ++ mgetAll s.mem x.spill1 (x.bytes - x.first)
          let lru := (findSlate s ten id).elim 0 Slate.lru
          if !imageOk s x b then some (updSlate s ten id (fun y => { y with state := 3 }))
          else
            let w := fun (i j : Nat) =>
              if i < x.dv ∧ j < x.dk then BitVec.ofNat 32 (natAt b (64 + 4 * (i * x.dk + j)) 4) else 0#32
            let gid := (x.owner.bind (fun f => (findForm s f).map Form.gid)).getD 0
            let s := setOwn (setSlot s cl k (mkSlot w)) cl k { state := 2, tenant := ten, fid := x.owner, gid, id, lru }
            some (updSlate s ten id (fun y => { y with state := 1, cluster := cl, slot := k, progress := natAt b 7 1 }))

/-! ## Matrix accesses to memory -/

/-- Translation of one page of a command's operand: made at post, or again (R452). -/
def mxPage (s : State) (r : Resv) (va : W64) (acc : Acc) : Tr × State :=
  match r.pas.find? (tlbHits s r.asid va) with
  | some t => (.ok t.leaf (if t.size = 1 then 2 else 3), s)
  | none => if canonical va then walkNow s r.asid r.tenant va acc else (.fault fcPageAbsent 1 0, s)

/-- What a translated range came to. -/
inductive MxRange where
  /-- The pieces page by page, with the leaf of each. -/
  | ok (s : State) (l : List (W64 × Nat × W64 × Nat))
  | wait (s : State)
  | fault (s : State) (code cause level : Nat) (va : W64)

/-- The pages of a range translated for an access. -/
def mxRange (r : Resv) (acc : Acc) : Nat → State → W64 → Nat → List (W64 × Nat × W64 × Nat) → MxRange
  | 0, s, _, _, l => .ok s l
  | k + 1, s, va, n, l =>
    if n = 0 then .ok s l
    else match mxPage s r va acc with
      | (.ok e lev, s) =>
        let m := pageLeft va n
        if !pteFar e && !isOwnDev s (pteDev e) && domainOf s r.tenant == 0 then .fault s fcPagePerm 5 0 va
        else mxRange r acc k s (va + BitVec.ofNat 64 m) (n - m) (l ++ [(va, m, e, lev)])
      | (.zero _, s) => .wait s
      | (.wait, s) => .wait s
      | (.fault c x lev, s) =>
        if c = fcPageElsewhere ∧ autoFlip s r.tenant then .wait (flipAsk s r.asid r.tenant va false)
        else .fault s c x lev va

/-- Pages that a range touches, with one to spare. -/
def rangeFuel (va : W64) (n : Nat) : Nat := pagesOf va n + 1

/-- The record of a matrix engine: issuer 2 with the command's program counter (R449, R452, R464). -/
def mxRecord (s : State) (gid ten asid : Nat) (teamId pc : W64) (code cause level : Nat) (va : W64) (id : Nat) : State :=
  engRecord s ten asid gid teamId pc.toNat code cause level va [] id

/-- One transfer of a cluster's matrix engine changed. -/
def updIo (s : State) (cl id : Nat) (f : MxIo → MxIo) : State :=
  updMx s cl (fun m => { m with io := m.io.map (fun y => if y.id = id then f y else y) })

/-- A piece of a transfer, translated as it is made, so that no old translation outlasts a synchronisation (R34, R452):
performed at its home slice, or sent to the far tier, through the house's own copies (R45), or to the device that performs
it. -/
def mxIoAsk (s : State) (cl : Nat) (x : MxIo) (p : MxPart) : EAcc :=
  let sent := fun (s : State) => EAcc.wait (updIo s cl x.id (fun y => { y with asked := true }))
  match (if canonical p.va then walkNow s x.asid x.tenant p.va (if x.rd.isSome then .read else .write)
         else (.fault fcPageAbsent 1 0, s)) with
  | (.fault c a lev, s) =>
    if c = fcPageElsewhere ∧ autoFlip s x.tenant then .wait (flipAsk s x.asid x.tenant p.va false) else .fault s c a lev p.va
  | (.zero _, s) => .wait s
  | (.wait, s) => .wait s
  | (.ok e lev, s) =>
    let pa := leafPa e lev p.va
    if pteFar e then
      let s := if x.rd.isSome then s else farUpdate s (cl / 64) pa p.data
      let f : FarReq := { id := s.nextId, addr := pa, tenant := x.tenant, n := p.n,
                          wr := if x.rd.isSome then none else some p.data, ref := .mx cl x.id, cls := 3,
                          die := cl / 64, owner := (0, 0), va := p.va, level := lev, gen := rdcGen s (cl / 64) }
      sent { s with fars := s.fars ++ [f], nextId := s.nextId + 1 }
    else if isOwnDev s (pteDev e) then
      if x.rd.isNone then .ok (mxPut s cl pa p.data x.tenant) []
      else if poisoned s pa p.n then .fault s fcPoison 0 0 p.va
      else .ok s (mgetAll s.mem pa p.n)
    else if domainOf s x.tenant = 0 then .fault s fcPagePerm 5 0 p.va
    else
      let pk : Packet := if x.rd.isSome then { code := 16, pa, n := p.n, op := 1 } else { code := 17, pa, n := p.n, data := p.data, op := 1 }
      match podSend s (cl / 64) (pteDev e) { pk with domain := domainOf s x.tenant, level := lev } (.matrix cl x.id) x.gid with
      | .sent s => sent s
      | .wait => .wait s
      | .unreachable => .fault s fcFabricTimeout 1 0 p.va

/-- A transfer stops with a record (R452). -/
def mxIoStop (s : State) (cl : Nat) (x : MxIo) (c a lev : Nat) (va : W64) : State :=
  let (w, s) := newId s
  let s := addWait (updIo s cl x.id (fun y => { y with asked := false, stop := some w })) x.tenant ⟨w, 0, c, a, x.gid, .matrix cl x.id⟩
  mxRecord s x.gid x.tenant x.asid x.teamId x.pc c a lev va w

/-- A transfer's pieces in order, until one waits; at the end its bytes enter form SRAM or its count is added (R442). -/
def mxIoRun (cl id : Nat) : Nat → State → State
  | 0, s => s
  | k + 1, s =>
    match (mxOf s cl).io.find? (fun x => x.id == id) with
    | none => s
    | some x =>
      if x.asked || x.stop.isSome then s
      else match x.parts with
        | [] =>
          let s := updMx s cl (fun m => { m with io := m.io.filter (fun y => y.id != id) })
          (match x.rd with
           | some off =>
             let s := match findForm s x.fid with | some f => spadWrite s f off x.got | none => s
             updMx s cl (fun m => { m with resv := m.resv.filter (fun r => r.id != id) })
           | none => match x.bar with
             | some (k, n) => (barAdd s cl k n x.tenant).getD s
             | none => s)
        | p :: _ =>
          match mxIoAsk s cl x p with
          | .ok s d => mxIoRun cl id k (updIo s cl id (fun y => { y with parts := y.parts.drop 1, got := y.got ++ d }))
          | .wait s => s
          | .fault s c a lev va => mxIoStop s cl x c a lev va
/-- A transfer goes on. -/
def mxIoStep (s : State) (cl id : Nat) : State :=
  mxIoRun cl id (match (mxOf s cl).io.find? (fun x => x.id == id) with | some x => x.parts.length + 1 | none => 0) s

/-- A transfer's piece answered: performed, or a fault that stops the transfer (R452). -/
def mxIoReply (s : State) (cl id : Nat) (err : Option (Nat × Nat × Nat)) (d : List Byte) : State :=
  match (mxOf s cl).io.find? (fun x => x.id == id) with
  | none => s
  | some x =>
    match err with
    | none => mxIoStep (updIo s cl id (fun y => { y with asked := false, parts := y.parts.drop 1, got := y.got ++ d })) cl id
    | some (c, a, lev) => mxIoStop s cl x c a lev ((x.parts.head?.map MxPart.va).getD 0)

end Sys2Proof.Machine
end

