-- ==== Sys2Proof/Machine/Matrix.lean ====
section
/-! DEFINITION. The matrix and slate commands (R439 to R452, R455 to R465): checks at post, the reservation table, the
arbiter's grant (R237, R443) and the units it performs; the refill of slates, and the reply to far accesses. -/

namespace Sys2Proof.Machine

/-! ## Operand words -/

/-- Pass descriptor fields (Table 15.3). -/
def pdB (d : List Byte) : Nat := natAt d 0 4
def pdBs (d : List Byte) : Nat := natAt d 4 4
def pdAs (d : List Byte) : Nat := natAt d 8 4
def pdCb (d : List Byte) : Nat := natAt d 12 4
def pdAstr (d : List Byte) : Nat := natAt d 16 2
def pdBstr (d : List Byte) : Nat := natAt d 18 2
def pdAf (d : List Byte) : Nat := natAt d 20 1 % 16
def pdBf (d : List Byte) : Nat := natAt d 20 1 / 16
def pdK (d : List Byte) : Nat := natAt d 21 1 + 1
def pdM (d : List Byte) : Nat := natAt d 22 1 % 128 + 1
def pdFlag (d : List Byte) (n : Nat) : Bool := (natAt d 23 1 / 2 ^ n) % 2 == 1
/-- Bytes of a row of A, and of a row of B. -/
def pdArow (d : List Byte) : Nat := pdK d * codeWidth (pdAf d) / 8
def pdBrow (d : List Byte) : Nat := 16 * codeWidth (pdBf d)

/-- The identity of a B load (R447). -/
def pdIdent (fid : Nat) (d : List Byte) : List Nat :=
  [fid, pdB d, pdBstr d, pdBf d, pdK d] ++ (if pdBf d = 5 then [pdCb d] else [])

/-- Why a check at post fails: code, cause, address (R440). -/
abbrev PostErr := Option (Nat × Nat × W64)
/-- The first error of a list of checks. -/
def firstErr : List PostErr → PostErr
  | [] => none
  | none :: r => firstErr r
  | some e :: _ => some e
def errIf (c : Bool) (code cause : Nat) (va : Nat) : PostErr := if c then some (code, cause, BitVec.ofNat 64 va) else none
/-- A form range that must lie inside the scratchpad (R440). -/
def errRange (f : Form) (o n : Nat) : PostErr := errIf (!winOk f (o : Int) n) fcPagePerm 4 o
def errAlign (o k : Nat) : PostErr := errIf (o % k != 0) fcMisalign 0 o
def errIll (c : Bool) : PostErr := errIf c fcIllegal 0 0

/-- The checks of a pass descriptor at post; `a` is the A offset of an MMA (R444, R447, R448). -/
def pdCheck (s : State) (f : Form) (off : Nat) (a : Option Nat) : PostErr :=
  match firstErr [errAlign off 32, errRange f off 32] with
  | some e => some e
  | none =>
    let d := spadRead s f off 32
    let af := pdAf d
    let bf := pdBf d
    let ok := fun (x : Nat) => [2, 3, 4, 6].contains x
    firstErr [
      errIll (natAt d 22 1 / 128 != 0 || natAt d 23 1 / 16 != 0 || natAt d 24 8 != 0 || !ok af || !(ok bf || bf == 5)),
      errIll ((pdFlag d 2 || pdFlag d 3) && (af == 6 || bf == 6)),
      errIll (pdAstr d % 16 != 0 || decide (pdAstr d < pdArow d) || pdBstr d % 16 != 0 || decide (pdBstr d < pdBrow d)),
      errAlign (pdB d) 64,
      if pdFlag d 3 then errAlign (pdBs d) 4 else none,
      if pdFlag d 2 then errAlign (pdAs d) 4 else none,
      if bf = 5 then errAlign (pdCb d) 32 else none,
      (match a with | some x => errAlign x 16 | none => none),
      errRange f (pdB d) (pdBstr d * (pdK d - 1) + pdBrow d),
      if pdFlag d 3 then errRange f (pdBs d) 512 else none,
      if pdFlag d 2 then errRange f (pdAs d) (4 * pdM d) else none,
      if bf = 5 then errRange f (pdCb d) 32 else none,
      (match a with | some x => errRange f x (pdAstr d * (pdM d - 1) + pdArow d) | none => none)]

/-- Epilogue word fields (Table 15.4). -/
def epStride (w : W64) : Nat := bits 39 24 w
def epRows (w : W64) : Nat := bits 22 16 w + 1
def epBc (w : W64) : Nat := bits 14 9 w
def epFmt (w : W64) : Nat := bits 3 0 w
def epWidth (w : W64) : Nat := codeWidth (epFmt w)
/-- Bytes that an epilogue writes, and the span of its destination. -/
def epBytes (w : W64) : Nat := epRows w * 16 * epWidth w
def epSpan (w : W64) : Nat := epStride w * (epRows w - 1) + 16 * epWidth w

/-- Output and chunk word fields (Table 15.9). -/
def owRstride (w : W64) : Nat := bits 56 49 w
def owTokens (w : W64) : Nat := bits 48 43 w + 1
def owBc (w : W64) : Nat := bits 42 37 w
def owBcv (w : W64) : Bool := bit 36 w
def owFmt (w : W64) : Nat := bits 35 32 w
def owOut (w : W64) : Nat := bits 31 0 w
/-- Bytes of an output vector. -/
def owBytes (w : W64) (dv : Nat) : Nat := dv * codeWidth (owFmt w) / 8

/-- Token records (Table 15.8): format, length, element vectors. -/
def tkWidth (b : List Byte) : Nat := if natAt b 0 1 = 0 then 4 else 2
def tkLen (b : List Byte) (dv dk : Nat) : Nat := 16 + 2 * roundUp 16 (dk * tkWidth b) + roundUp 16 (dv * tkWidth b)
def tkNum (b : List Byte) (at_ : Nat) : Num :=
  if tkWidth b = 4 then unpack fp32 (natAt b at_ 4) else unpack bf16 (natAt b at_ 2)
def tkVec (b : List Byte) (at_ n : Nat) : List Num := (List.range n).map (fun i => tkNum b (at_ + tkWidth b * i))
def tkK (b : List Byte) (dk : Nat) : List Num := tkVec b 16 dk
def tkV (b : List Byte) (dv dk : Nat) : List Num := tkVec b (16 + roundUp 16 (dk * tkWidth b)) dv
def tkQ (b : List Byte) (dv dk : Nat) : List Num :=
  tkVec b (16 + roundUp 16 (dk * tkWidth b) + roundUp 16 (dv * tkWidth b)) dk

/-- The checks of a token record at post (R457). -/
def tkCheck (s : State) (f : Form) (off dv dk : Nat) : PostErr :=
  match firstErr [errAlign off 16, errRange f off 16] with
  | some e => some e
  | none =>
    let h := spadRead s f off 16
    firstErr [
      errIll (!(natAt h 0 1 == 0 || natAt h 0 1 == 2) || natAt h 1 1 / 2 != 0 || natAt h 2 2 != 0 || natAt h 12 4 != 0),
      errRange f off (tkLen h dv dk)]

/-- The offsets of the records of a slate command (R458, R459). -/
def tkOffsets (i : Instr) (sa sb : W64) : List Nat :=
  match i with
  | .slchunk _ _ _ => (List.range (owTokens sb)).map (fun t => sa.toNat + 64 * owRstride sb * t)
  | _ => [sa.toNat]
/-- The bytes of the records, as they stand. -/
def tkBytes (s : State) (f : Form) (offs : List Nat) (dv dk : Nat) : List Byte :=
  offs.flatMap (fun o => spadRead s f o (tkLen (spadRead s f o 16) dv dk))

/-- The checks of SLDELTA, SLREAD and SLCHUNK at post (R440, R457 to R459). -/
def tokenCheck (s : State) (f : Form) (cl ten : Nat) (i : Instr) (sa sb : W64) (dv dk : Nat) : PostErr :=
  let recs := (tkOffsets i sa sb).map (fun o => tkCheck s f o dv dk)
  let out := fun (chunk : Bool) =>
    let n := if chunk then owTokens sb else 1
    firstErr ([
      errIll (sb >>> 57 != 0 || !(owFmt sb == 0 || owFmt sb == 2)),
      errIll (!chunk && (owRstride sb != 0 || owTokens sb != 1)),
      errIll (owBcv sb && !barOk s cl (owBc sb) ten)] ++ recs ++ [
      errIll (chunk && (tkOffsets i sa sb).any (fun o => decide (64 * owRstride sb < tkLen (spadRead s f o 16) dv dk))),
      errIll (chunk && owRstride sb == 0),
      errAlign (owOut sb) 16,
      errRange f (owOut sb) (roundUp 16 (owBytes sb dv) * (n - 1) + owBytes sb dv)])
  match i with
  | .slread _ _ _ => out false
  | .slchunk _ _ _ => out true
  | _ => firstErr recs

/-! ## Posting (R440) -/

/-- What a command's checks came to. -/
inductive MxChk where
  /-- It may be posted: translations, descriptor bytes, units, and what posting does first. -/
  | ok (s : State) (pas : List TlbEntry) (desc : List Byte) (units : Nat) (act : State → State)
  /-- It waits in the instruction. -/
  | wait (s : State)
  /-- It retires and posts nothing. -/
  | retire (s : State)
  | fault (s : State) (code cause level : Nat) (va : W64)

/-- The Prefect's command. -/
structure MxCmd where
  p : Pref
  f : Form
  cl : Nat
  ten : Nat
  sa : W64
  sb : W64
  /-- Posted again after a restore: a slate that is not resident is no reason to wait (R466). -/
  again : Bool := false

/-- A command of majors 0x39 and 0x3A: its checks, then one reservation entry, for which it waits while the table is full
(R237, R440), and while a SRAMCFG of the cluster waits, since its accesses to form SRAM are new (R51 step 1). -/
def mxPost (i : Instr) (a b : SReg) (chk : State → MxCmd → MxChk) (s : State) : Out :=
  withPref s (fun p =>
    match findForm s p.team.fid with
    | none => illegalPref s p
    | some f =>
      let cl := clusterOfCore p.team.core
      let c : MxCmd := ⟨p, f, cl, p.grid.tenant, rdS p.team.pf a.toNat, rdS p.team.pf b.toNat, false⟩
      let s := updMx s cl (fun m => { m with wants := m.wants.filter (fun w => w.1 != p.team.tid) })
      match chk s c with
      | .fault s code cause level va => raisePref s p code cause level va
      | .retire s => prefDone s p (fun q => q)
      | .wait s => prefStall s p .barrier
      | .ok s pas desc units act =>
        if 8 ≤ (mxOf s cl).resv.length || !(cfgWaits s cl).isEmpty then prefStall s p .barrier
        else
          let (id, s) := newId (act s)
          let r : Resv :=
            { id, tid := p.team.tid, fid := f.fid, gid := p.grid.gid, tenant := c.ten, asid := p.grid.asid,
              core := p.team.core, teamId := p.team.teamId, instr := i, word := s.word, pc := p.team.pf.pc, sa := c.sa, sb := c.sb,
              exact := p.team.pf.exact, prio := p.grid.prio, age := s.clock.cycle, skip := 0, units, pas, desc }
          prefDone (updMx s cl (fun m => { m with resv := m.resv ++ [r] })) p (fun q => q))

/-- The errors of a check as the outcome of a post. -/
def orErr (s : State) (e : PostErr) (k : MxChk) : MxChk :=
  match e with
  | some (c, x, va) => .fault s c x 0 va
  | none => k

/-- A memory operand translated at post: its buffer entries (R440). `own` refuses a page that is not local (R455). -/
def mxXlate (s : State) (c : MxCmd) (va : W64) (n : Nat) (accs : List Acc) (own : Bool)
    (k : State → List TlbEntry → List (W64 × Nat × W64 × Nat) → MxChk) : MxChk :=
  let r : Resv :=
    { id := 0, tid := 0, fid := 0, gid := 0, tenant := c.ten, asid := c.p.grid.asid, core := 0, teamId := 0, instr := .mdrain, word := 0,
      pc := 0, sa := 0, sb := 0, exact := false, prio := 0, age := 0, skip := 0, units := 0 }
  let go := fun (s : State) (acc : Acc) => mxRange r acc (rangeFuel va n) s va n []
  let fin := fun (s : State) (l : List (W64 × Nat × W64 × Nat)) =>
    match (if own then l.find? (fun x => pteFar x.2.2.1 || !isOwnDev s (pteDev x.2.2.1)) else none) with
    | some x => MxChk.fault s fcPagePerm 4 x.2.2.2 x.1
    | none => k s (l.map (fun x => tlbEntry s c.p.grid.asid c.ten x.1 x.2.2.1 x.2.2.2)) l
  match accs with
  | [] => k s [] []
  | a :: rest =>
    match go s a with
    | .wait s => .wait s
    | .fault s x y z va => .fault s x y z va
    | .ok s l =>
      match rest with
      | [] => fin s l
      | b :: _ => match go s b with
        | .wait s => .wait s
        | .fault s x y z va => .fault s x y z va
        | .ok s l => fin s l

/-- A command that names a slate which is not resident on the engine waits for its refill (R462); a corrupt one faults. -/
def withSlate (s : State) (c : MxCmd) (id : Nat) (k : Slate → MxChk) : MxChk :=
  match findSlate s c.ten id with
  | none => .fault s fcIllegal 0 0 0
  | some x =>
    if c.again then k x
    else if x.state = 3 then .fault s fcSlateCorrupt 0 0 0
    else if x.state = 2 ∨ (x.state = 1 ∧ x.cluster ≠ c.cl) then
      .wait (updMx s c.cl (fun m => { m with wants := m.wants ++ [(c.p.team.tid, id)] }))
    else k x

/-- A command on a name, which may be a slate's: `k` is told which (R438, R448, R462). -/
def onName (s : State) (c : MxCmd) (n : Nat) (k : Bool → MxChk) : MxChk :=
  match tfind n c.f.slateNames with
  | none => k false
  | some id => withSlate s c id (fun _ => k true)
/-- A command on a name that must be a slate's (R456, R458, R463). -/
def onSlate (s : State) (c : MxCmd) (n : Nat) (k : Slate → MxChk) : MxChk :=
  match tfind n c.f.slateNames with
  | none => .fault s fcIllegal 0 0 0
  | some id => withSlate s c id k

/-- Posting binds an ordinary name where a slot can be had (R438). -/
def bindAct (c : MxCmd) (n : Nat) (s : State) : State :=
  match nameSlate s c.f.fid n with
  | some _ => s
  | none => match bindName s c.cl c.f.fid c.p.grid.gid c.ten n with
    | some (_, s) => s
    | none => s

/-- MCFG (R445). -/
def execMcfg (a : SReg) (s : State) : Out :=
  withPref s (fun p =>
    let v := (rdS p.team.pf a.toNat).toNat
    if 1 < v then illegalPref s p else prefDone s p (fun q => { q with exact := v == 1 }))

/-- The checks of MCB at post (R446). -/
def mcbCheck (s : State) (c : MxCmd) : MxChk :=
  orErr s (firstErr [errAlign c.sa.toNat 32, errAlign c.sb.toNat 32, errRange c.f c.sb.toNat 32])
    (mxXlate s c c.sa 32 [.read] false (fun s pas _ => .ok s pas [] 1 (fun s => s)))
/-- MCB (R446). -/
def execMcb (a b : SReg) (s : State) : Out := mxPost (.mcb a b) a b mcbCheck s

/-- The checks of MLDB at post (R447). -/
def mldbCheck (s : State) (c : MxCmd) : MxChk :=
  orErr s (pdCheck s c.f c.sa.toNat none) (.ok s [] (spadRead s c.f c.sa.toNat 32) 1 (fun s => s))
/-- MLDB (R447). -/
def execMldb (k : BitVec 1) (a : SReg) (s : State) : Out := mxPost (.mldb k a) a 0 mldbCheck s

/-- The checks of MMA at post (R448). -/
def mmaCheck (n : Nat) (s : State) (c : MxCmd) : MxChk :=
  orErr s (pdCheck s c.f c.sa.toNat (some c.sb.toNat))
    (onName s c n (fun _ => .ok s [] (spadRead s c.f c.sa.toNat 32) 1 (bindAct c n)))
/-- MMA (R448). -/
def execMma (n : BitVec 5) (a b : SReg) (s : State) : Out := mxPost (.mma n a b) a b (mmaCheck n.toNat) s

/-- The checks of MEPI at post (R450). -/
def mepiCheck (n : Nat) (s : State) (c : MxCmd) : MxChk :=
  let w := c.sb
  orErr s (firstErr [
      errIll (w >>> 40 != 0 || bit 23 w || bit 15 w || !([0, 1, 2, 3, 4, 9].contains (epFmt w))),
      errIll (epStride w % 16 != 0 || decide (epStride w < 16 * epWidth w)),
      errIll (bit 8 w && !barOk s c.cl (epBc w) c.ten),
      errAlign c.sa.toNat 16])
    (onName s c n (fun pinned =>
      let act := fun (s : State) =>
        let s := bindAct c n s
        if bit 8 w then barClaim s c.cl (epBc w) c.ten else s
      if pinned && bit 7 w then .fault s fcIllegal 0 0 0
      else if bit 4 w then orErr s (errRange c.f c.sa.toNat (epSpan w)) (.ok s [] [] 1 act)
      else mxXlate s c c.sa (epSpan w) [.write] false (fun s pas _ => .ok s pas [] 1 act)))
/-- MEPI (R450). -/
def execMepi (n : BitVec 5) (a b : SReg) (s : State) : Out := mxPost (.mepi n a b) a b (mepiCheck n.toNat) s

/-- The checks of MZERO at post (R451). -/
def mzeroCheck (n : Nat) (s : State) (c : MxCmd) : MxChk := onName s c n (fun _ => .ok s [] [] 1 (bindAct c n))
/-- MZERO (R451). -/
def execMzero (n : BitVec 5) (s : State) : Out := mxPost (.mzero n) 0 0 (mzeroCheck n.toNat) s

/-- The checks of MREL at post (R451). -/
def mrelCheck (n : Nat) (s : State) (c : MxCmd) : MxChk :=
  if (tfind n c.f.slateNames).isSome then .fault s fcIllegal 0 0 0
  else if (tfind n c.f.names).isNone then .retire s
  else .ok s [] [] 1 (fun s => s)
/-- MREL (R451). -/
def execMrel (n : BitVec 5) (s : State) : Out := mxPost (.mrel n) 0 0 (mrelCheck n.toNat) s

/-- MDRAIN (R451): it holds until every earlier command of the Prefect has completed with its writes performed. -/
def execMdrain (s : State) : Out :=
  withPref s (fun p =>
    let m := mxOf s (clusterOfCore p.team.core)
    if m.resv.any (fun r => r.tid == p.team.tid) || m.io.any (fun r => r.tid == p.team.tid) then prefStall s p .barrier
    else prefDone s p (fun q => q))

/-- The cases of SLPIN (Table 15.7), judged at post. -/
def slpinCheck (s : State) (c : MxCmd) (n : Nat) : MxChk :=
  let id := bits 31 0 c.sa
  let dv := bits 38 32 c.sa + 1
  let dk := bits 45 39 c.sa + 1
  let isSlate := (tfind n c.f.slateNames).isSome
  let bound := (tfind n c.f.names).isSome
  let known := findSlate s c.ten id
  let bad := id == 0 || c.sa >>> 46 != 0 || isSlate ||
    (match known with | some _ => bound | none => c.sb == 0)
  let img := 64 + 4 * dv * dk
  let spill := fun (s : State) (l : List (W64 × Nat × W64 × Nat)) =>
    let at_ := fun (k : Nat) => (l[k]?).elim 0 (fun x => leafPa x.2.2.1 x.2.2.2 x.1)
    (s, at_ 0, at_ 1, min img (pageLeft c.sb img))
  orErr s (firstErr [errIll bad, errAlign c.sb.toNat 64])
    (if quotaOf s c.ten = 0 then .fault s fcSlateOwner 1 0 0
     else match known with
      | none =>
        if 1024 ≤ (s.slates.filter (fun x => x.tenant == c.ten)).length then .fault s fcSlateOwner 2 0 0
        else mxXlate s c c.sb img [.read, .write] true (fun s _ l =>
          let (s, p0, p1, first) := spill s l
          .ok s [] [] 1 (fun s =>
            updForm { s with slates := s.slates ++ [{ tenant := c.ten, id, dv, dk, spill0 := p0, spill1 := p1, first, gen := 0,
                                                       progress := 0, state := 0, cluster := c.cl, slot := 0, owner := some c.f.fid }] }
              c.f.fid (fun f => { f with slateNames := tput n id f.slateNames })))
      | some x =>
        if x.owner.isSome then .fault s fcSlateOwner 0 0 0
        else if x.dv ≠ dv ∨ x.dk ≠ dk then .fault s fcSlateOwner 3 0 0
        else
          let go := fun (s : State) (spill : Option (Nat × Nat × Nat)) =>
            withSlate s c id (fun y =>
              .ok s [] [] 1 (fun s =>
                let s := updSlate s c.ten id (fun z => match spill with
                  | some (p0, p1, m) => { z with owner := some c.f.fid, spill0 := p0, spill1 := p1, first := m }
                  | none => { z with owner := some c.f.fid })
                let s := setOwn s c.cl y.slot { ownOf s c.cl y.slot with fid := some c.f.fid, gid := c.p.grid.gid }
                updForm s c.f.fid (fun f => { f with slateNames := tput n id f.slateNames })))
          if c.sb = 0 then go s none
          else mxXlate s c c.sb img [.read, .write] true (fun s _ l =>
            let (s, p0, p1, first) := spill s l
            go s (some (p0, p1, first))))

/-- SLPIN (R455). -/
def execSlpin (n : BitVec 5) (a b : SReg) (s : State) : Out := mxPost (.slpin n a b) a b (fun s c => slpinCheck s c n.toNat) s

/-- The checks of SLUNPIN and SLSPILL at post (R456, R463). -/
def slateCheck (n : Nat) (s : State) (c : MxCmd) : MxChk := onSlate s c n (fun _ => .ok s [] [] 1 (fun s => s))
/-- SLUNPIN (R456). -/
def execSlunpin (n : BitVec 5) (s : State) : Out := mxPost (.slunpin n) 0 0 (slateCheck n.toNat) s
/-- SLSPILL (R463). -/
def execSlspill (n : BitVec 5) (s : State) : Out := mxPost (.slspill n) 0 0 (slateCheck n.toNat) s
/-- SLFILL (R462): it waits until the slate is resident and posts nothing. -/
def execSlfill (n : BitVec 5) (s : State) : Out :=
  mxPost (.slfill n) 0 0 (fun s c => onSlate s c n.toNat (fun x => if x.state = 1 then .retire s else .wait s)) s

/-- The checks of SLDELTA, SLREAD and SLCHUNK at post (R458, R459). -/
def tokenPostCheck (i : Instr) (n : Nat) (bc : Bool) (s : State) (c : MxCmd) : MxChk :=
  onSlate s c n (fun x =>
    orErr s (tokenCheck s c.f c.cl c.ten i c.sa c.sb x.dv x.dk)
      (.ok s [] (tkBytes s c.f (tkOffsets i c.sa c.sb) x.dv x.dk)
        (match i with | .slchunk _ _ _ => owTokens c.sb | _ => 1)
        (fun s => if bc && owBcv c.sb then barClaim s c.cl (owBc c.sb) c.ten else s)))
/-- SLDELTA (R458). -/
def execSldelta (n : BitVec 5) (a : SReg) (s : State) : Out :=
  mxPost (.sldelta n a) a 0 (tokenPostCheck (.sldelta n a) n.toNat false) s
/-- SLREAD (R458). -/
def execSlread (n : BitVec 5) (a b : SReg) (s : State) : Out :=
  mxPost (.slread n a b) a b (tokenPostCheck (.slread n a b) n.toNat true) s
/-- SLCHUNK (R459). -/
def execSlchunk (n : BitVec 5) (a b : SReg) (s : State) : Out :=
  mxPost (.slchunk n a b) a b (tokenPostCheck (.slchunk n a b) n.toNat true) s

/-- The checks at post of a command that a restore posts again (R466). An SLPIN has named its slate and taken it at its
first post, and is not judged anew. -/
def cmdCheck (i : Instr) (s : State) (c : MxCmd) : MxChk :=
  match i with
  | .mcb _ _ => mcbCheck s c
  | .mldb _ _ => mldbCheck s c
  | .mma n _ _ => mmaCheck n.toNat s c
  | .mepi n _ _ => mepiCheck n.toNat s c
  | .mzero n => mzeroCheck n.toNat s c
  | .slpin _ _ _ => .ok s [] [] 1 (fun s => s)
  | .slunpin n => slateCheck n.toNat s c
  | .slspill n => slateCheck n.toNat s c
  | .sldelta n a => tokenPostCheck (.sldelta n a) n.toNat false s c
  | .slread n a b => tokenPostCheck (.slread n a b) n.toNat true s c
  | .slchunk n a b => tokenPostCheck (.slchunk n a b) n.toNat true s c
  | _ => .ok s [] [] 1 (fun s => s)

/-- SLINFO (R465). -/
def execSlinfo (d a : SReg) (s : State) : Out :=
  withPref s (fun p =>
    let cl := clusterOfCore p.team.core
    let ten := p.grid.tenant
    let base := (residentSlots s cl ten).length * 2 ^ 22 + quotaOf s ten * 2 ^ 16
    let v := match findSlate s ten (bits 31 0 (rdS p.team.pf a.toNat)) with
      | none => base
      | some x =>
        if x.state = 0 then base
        else x.gen.toNat % 2 ^ 32 * 2 ^ 32 + base + x.progress * 2 ^ 8 +
          (if x.state = 1 ∧ x.cluster = cl then 16 else 0) + (if x.owner = some p.team.fid then 8 else 0) +
          (if x.owner.isSome then 4 else 0) + x.state
    prefDone s p (fun q => wrS q d.toNat (BitVec.ofNat 64 v)))

/-! ## Units -/

/-- What a unit came to. -/
inductive UnitRes where
  | done (s : State)
  /-- The entry keeps its unit: it is stopped, or waits. -/
  | hold (s : State)
  /-- The engine removed the entry. -/
  | gone (s : State)

/-- An entry changed, an entry removed. -/
def updResv (s : State) (cl id : Nat) (f : Resv → Resv) : State :=
  updMx s cl (fun m => { m with resv := m.resv.map (fun r => if r.id = id then f r else r) })
def dropResv (s : State) (cl id : Nat) : State := updMx s cl (fun m => { m with resv := m.resv.filter (fun r => r.id != id) })

/-- A command removed with a record of its own; SKIP acknowledges (R449, R464). -/
def removeCmd (s : State) (cl : Nat) (r : Resv) (code cause : Nat) : State :=
  let (w, s) := newId (dropResv s cl r.id)
  let s := addWait s r.tenant ⟨w, 0, code, cause, r.gid, .removed r.gid⟩
  mxRecord s r.gid r.tenant r.asid r.teamId r.pc code cause 0 0 w

/-- An entry stopped by a retranslation fault (R452). -/
def stopCmd (s : State) (cl : Nat) (r : Resv) (code cause level : Nat) (va : W64) : State :=
  let (w, s) := newId s
  let s := updResv s cl r.id (fun x => { x with stop := some w })
  let s := addWait s r.tenant ⟨w, 0, code, cause, r.gid, .matrix cl r.id⟩
  mxRecord s r.gid r.tenant r.asid r.teamId r.pc code cause level va w

/-- Free words in a slot: a command whose descriptor or records changed after post (R12, R441). -/
def scrambleSlot (s : State) (cl k : Nat) : State :=
  setSlot { s with fresh := s.fresh + 16384 } cl k (mkSlot (fun i j => Config.freeWord (s.fresh + (128 * i + j))))
/-- Free bytes at a form offset. -/
def scrambleForm (s : State) (f : Form) (off n : Nat) : State :=
  spadWrite { s with fresh := s.fresh + n } f off ((List.range n).map (fun i => Config.freeByte (s.fresh + i)))

/-- A bank, and a bank replaced. -/
def bankOf (s : State) (cl k : Nat) : BBank := if k = 0 then (mxOf s cl).bank0 else (mxOf s cl).bank1
def setBank (s : State) (cl k : Nat) (b : BBank) : State :=
  updMx s cl (fun m => if k = 0 then { m with bank0 := b } else { m with bank1 := b })

/-- A load of a bank: K rows of B, the CB4 table, the format and the identity as one step (R447). -/
def loadBank (s : State) (cl k : Nat) (f : Form) (d : List Byte) : State :=
  let rows := (List.range (pdK d)).flatMap (fun r =>
    let b := spadRead s f (pdB d + pdBstr d * r) (pdBrow d)
    (List.range 128).map (fun j => (128 * r + j,
      if pdBf d = 5 then natAt b (j / 2) 1 / 16 ^ (j % 2) % 16 else natAt b (j * (codeWidth (pdBf d) / 8)) (codeWidth (pdBf d) / 8))))
  let tb := if pdBf d = 5 then (List.range 16).map (fun i => BitVec.ofNat 16 (natAt (spadRead s f (pdCb d) 32) (2 * i) 2)) else []
  setBank s cl k { data := rows.filter (fun p => p.2 != 0), fmt := pdBf d, table := tb, ident := pdIdent f.fid d }

/-- The value of a code of a pass format. -/
def codeNum (c x : Nat) : Num := match fmtOf c with | some f => unpack f x | none => .nan

/-- A pass into a slot: rows 0 to M - 1 (R283 to R285, R448). -/
def passSlot (s : State) (f : Form) (bk : BBank) (d : List Byte) (aoff : Nat) (exact : Bool) (w : Tbl W32) : Tbl W32 × Fl :=
  let aw := codeWidth (pdAf d) / 8
  let arow := fun (i : Nat) =>
    let b := spadRead s f (aoff + pdAstr d * i) (pdArow d)
    (List.range (pdK d)).map (fun k => natAt b (aw * k) aw)
  let bcol := fun (j : Nat) => (List.range (pdK d)).map (fun k => tget 0 (128 * k + j) bk.data)
  let one : Num := .fin false 1 0
  let sc := fun (i j : Nat) =>
    if pdFlag d 2 || pdFlag d 3 then
      some (if pdFlag d 2 then unpack fp32 (natLE (spadRead s f (pdAs d + 4 * i) 4)) else one,
            if pdFlag d 3 then unpack fp32 (natLE (spadRead s f (pdBs d + 4 * j) 4)) else one)
    else none
  let tb := bk.table.map (fun x => unpack bf16 x.toNat)
  let el := fun (i j : Nat) =>
    let old := if pdFlag d 1 then 0#32 else slotWord w i j
    if bk.fmt = 6 then (intElem old ((arow i).zip (bcol j)), (0 : Fl))
    else
      let a := (arow i).map (codeNum (pdAf d))
      let (r, fl) :=
        if bk.fmt = 5 then codeElem exact (sc i j) tb (unpack fp32 old.toNat) (a.zip (bcol j))
        else passElem exact (sc i j) (unpack fp32 old.toNat) (a.zip ((bcol j).map (codeNum bk.fmt)))
      (BitVec.ofNat 32 (bits32 r), fl)
  let fl := (List.range (pdM d)).foldl (fun x i => (List.range 128).foldl (fun y j => y ||| (el i j).2) x) 0
  (mkSlot (fun i j => if i < pdM d then (el i j).1 else slotWord w i j), fl)

/-- A slate's generation counted up (R448, R450, R451). -/
def genUp (s : State) (ten : Nat) (sid : Option Nat) : State :=
  match sid with
  | some id => updSlate s ten id (fun x => { x with gen := x.gen + 1 })
  | none => s

/-- The slot of an entry's name: a slate's, or an ordinary one, bound now if it is not (R438). -/
def entrySlot (s : State) (cl : Nat) (r : Resv) (n : Nat) : Option (Nat × Option Nat × State) :=
  match nameSlate s r.fid n with
  | some id => match findSlate s r.tenant id with
    | some x => if x.state = 1 ∧ x.cluster = cl then some (x.slot, some id, s) else none
    | none => none
  | none => (bindName s cl r.fid r.gid r.tenant n).map (fun p => (p.1, none, p.2))

/-- The rows of an epilogue, converted (R279, R450), and its flags. -/
def epiRows (w : Tbl W32) (e : W64) : List (List Byte) × Fl :=
  let md : FMode := ⟨0, bit 5 e, false⟩
  let conv := fun (x : W32) => if epFmt e = 9 then (x.toNat, (0 : Fl)) else cvtElem md 0 (epFmt e) x.toNat
  let l := (List.range (epRows e)).map (fun i => (List.range 128).map (fun j => conv (slotWord w i j)))
  (l.map (fun r => r.flatMap (fun x => bytesLE (epWidth e / 8) x.1)), l.foldl (fun f r => r.foldl (fun f x => f ||| x.2) f) 0)

/-- A row's bytes split at the lines of memory. -/
def splitLines : Nat → W64 → List Byte → List MxPart
  | 0, _, _ => []
  | k + 1, va, b => if b.isEmpty then [] else
    let n := lineLeft va b.length
    ⟨va, n, b.take n⟩ :: splitLines k (va + BitVec.ofNat 64 n) (b.drop n)

/-- The leaf of a page among translated pieces. -/
def leafFor (l : List (W64 × Nat × W64 × Nat)) (va : W64) : Option (W64 × Nat) :=
  (l.find? (fun x => x.1.toNat / 2 ^ 16 == va.toNat / 2 ^ 16)).map (fun x => (x.2.2.1, x.2.2.2))

/-- An epilogue's rows written as a transfer: local bytes at once, the others as they are answered (R442). -/
def epiWrite (s : State) (cl : Nat) (r : Resv) (rows : List (List Byte)) : State :=
  let parts := (List.range rows.length).flatMap (fun i =>
    splitLines 6 (r.sa + BitVec.ofNat 64 (epStride r.sb * i)) (rows.getD i []))
  let bar := if bit 8 r.sb then some (epBc r.sb, epBytes r.sb) else none
  let (id, s) := newId s
  let io : MxIo := { id, tid := r.tid, fid := r.fid, gid := r.gid, tenant := r.tenant, asid := r.asid, teamId := r.teamId,
                     pc := r.pc, rd := none, parts, bar }
  mxIoStep (updMx s cl (fun m => { m with io := m.io ++ [io] })) cl id

/-- The unit of an MEPI (R450, R452). -/
def mepiUnit (s : State) (cl : Nat) (r : Resv) (f : Form) (n : Nat) : UnitRes :=
  let e := r.sb
  let go := fun (s : State) =>
    match entrySlot s cl r n with
    | none => UnitRes.hold s
    | some (k, sid, s) =>
      let w := slotOf s cl k
      let (rows, fl) := epiRows w e
      let s := raiseFl s r.tenant fl
      let s := if bit 4 e then
          let s := (List.range rows.length).foldl (fun s i => spadWrite s f (r.sa.toNat + epStride e * i) (rows.getD i [])) s
          if bit 8 e then (barAdd s cl (epBc e) (epBytes e) r.tenant).getD s else s
        else epiWrite s cl r rows
      let s := if bit 6 e then
          genUp (setSlot s cl k (mkSlot (fun i j => if i < epRows e then 0#32 else slotWord w i j))) r.tenant sid
        else s
      UnitRes.done (if bit 7 e then unbindName s cl r.fid n else s)
  if bit 4 e then go s
  else match mxRange r .write (rangeFuel r.sa (epSpan e)) s r.sa (epSpan e) [] with
    | .ok s _ => go s
    | .wait s => .hold s
    | .fault s c x lev va => .hold (stopCmd s cl r c x lev va)

/-- The unit of an MCB: the table copied (R446). -/
def mcbUnit (s : State) (cl : Nat) (r : Resv) (f : Form) : UnitRes :=
  match mxRange r .read (rangeFuel r.sa 32) s r.sa 32 [] with
  | .wait s => .hold s
  | .fault s c x lev va => .hold (stopCmd s cl r c x lev va)
  | .ok s l =>
    match leafFor l r.sa with
    | none => .hold s
    | some (e, lev) =>
      let pa := leafPa e lev r.sa
      if !pteFar e && isOwnDev s (pteDev e) then
        if poisoned s pa 32 then .hold (stopCmd s cl r fcPoison 0 0 r.sa)
        else .done (spadWrite s f r.sb.toNat (mgetAll s.mem pa 32))
      else
        let io : MxIo := { id := r.id, tid := r.tid, fid := r.fid, gid := r.gid, tenant := r.tenant, asid := r.asid,
                           teamId := r.teamId, pc := r.pc, rd := some r.sb.toNat,
                           parts := [⟨r.sa, 32, []⟩] }
        let s := updResv s cl r.id (fun x => { x with busy := true })
        .hold (mxIoStep (updMx s cl (fun m => { m with io := m.io ++ [io] })) cl r.id)

/-- The unit of an MMA (R448, R449). -/
def mmaUnit (s : State) (cl : Nat) (r : Resv) (f : Form) (n : Nat) : UnitRes :=
  let d := spadRead s f r.sa.toNat 32
  match entrySlot s cl r n with
  | none => .hold s
  | some (k, sid, s) =>
    if d ≠ r.desc then .done (genUp (scrambleSlot s cl k) r.tenant sid)
    else if (pdAf d == 6) != (pdBf d == 6) then .gone (removeCmd s cl r fcIllegal 3)
    else
      let b := if pdFlag d 0 then 1 else 0
      let s := if (bankOf s cl b).ident = pdIdent f.fid d then s else loadBank s cl b f d
      let (w, fl) := passSlot s f (bankOf s cl b) d r.sb.toNat r.exact (slotOf s cl k)
      .done (genUp (setSlot (raiseFl s r.tenant fl) cl k w) r.tenant sid)

/-- The slate's rows, and rows put back. -/
def slateRows (w : Tbl W32) (dv dk : Nat) : List (List Num) :=
  (List.range dv).map (fun i => (List.range dk).map (fun j => unpack fp32 (slotWord w i j).toNat))
def putRows (w : Tbl W32) (dv dk : Nat) (l : List (List Num)) : Tbl W32 :=
  mkSlot (fun i j => if i < dv ∧ j < dk then BitVec.ofNat 32 (bits32 ((l.getD i []).getD j .nan)) else slotWord w i j)

/-- Output bytes of a read, as FP32 or rounded to BF16 (R458). -/
def outBytes (fmt : Nat) (o : List Num) : List Byte :=
  o.flatMap (fun x => if fmt = 0 then bytesLE 4 (bits32 x) else bytesLE 2 (packF bf16 engineMode x).1)

/-- One token of a slate command: `upd` and `rd` say whether it updates and reads, `first` whether it reads first (R458,
R459). -/
def tokenUnit (s : State) (cl : Nat) (r : Resv) (f : Form) (x : Slate) (off out : Nat) (upd rd : Bool) : State :=
  let b := spadRead s f off (tkLen (spadRead s f off 16) x.dv x.dk)
  let first := natAt b 1 1 % 2 == 1 || !upd
  let w := slotOf s cl x.slot
  let rows := slateRows w x.dv x.dk
  let (rows', f1) := if upd then
      slateUpdate r.exact rows (tkK b x.dk) (tkV b x.dv x.dk) (unpack fp32 (natAt b 4 4)) (unpack fp32 (natAt b 8 4))
    else (rows, 0)
  let (o, f2) := if rd then slateRead r.exact (if first then rows else rows') (tkQ b x.dv x.dk) else ([], 0)
  let s := raiseFl s r.tenant (f1 ||| f2)
  let s := if upd then genUp (setSlot s cl x.slot (putRows w x.dv x.dk rows')) r.tenant (some x.id) else s
  if rd then
    let s := spadWrite s f out (outBytes (owFmt r.sb) o)
    if owBcv r.sb then (barAdd s cl (owBc r.sb) (owBytes r.sb x.dv) r.tenant).getD s else s
  else s

/-- A slate command's unit; records that changed after post leave free values (R441). -/
def slateUnit (s : State) (cl : Nat) (r : Resv) (f : Form) (n : Nat) (upd rd : Bool) : UnitRes :=
  match (nameSlate s r.fid n).bind (findSlate s r.tenant) with
  | none => .done s
  | some x =>
    if !(x.state == 1 && x.cluster == cl) then .hold s
    else
      let chunk := match r.instr with | .slchunk _ _ _ => true | _ => false
      let t := if chunk then owTokens r.sb - r.units else 0
      let out := owOut r.sb + t * roundUp 16 (owBytes r.sb x.dv)
      let off := r.sa.toNat + (if chunk then 64 * owRstride r.sb * t else 0)
      let same := tkBytes s f (tkOffsets r.instr r.sa r.sb) x.dv x.dk == r.desc
      let s := if same then tokenUnit s cl r f x off out upd rd
        else
          let s := if upd then genUp (scrambleSlot s cl x.slot) r.tenant (some x.id) else s
          if rd then
            let s := scrambleForm s f out (owBytes r.sb x.dv)
            if owBcv r.sb then (barAdd s cl (owBc r.sb) (owBytes r.sb x.dv) r.tenant).getD s else s
          else s
      .done (if chunk then updSlate s r.tenant x.id (fun y => { y with progress := if r.units ≤ 1 then 0 else t + 1 }) else s)

/-- The unit of an SLPIN: a create takes its slot and pins it; an attach is done at post (R455). -/
def slpinUnit (s : State) (cl : Nat) (r : Resv) (n : Nat) : UnitRes :=
  match (nameSlate s r.fid n).bind (findSlate s r.tenant) with
  | none => .done s
  | some x =>
    if x.state ≠ 0 then .done s
    else match quotaRoom s cl r.tenant true with
      | none => .hold s
      | some s => match bindName s cl r.fid r.gid r.tenant n with
        | none => .hold s
        | some (k, s) =>
          let s := updForm s r.fid (fun f => { f with names := tdel n f.names })
          let s := setOwn s cl k { state := 2, tenant := r.tenant, fid := some r.fid, gid := r.gid, id := x.id }
          .done (updSlate s r.tenant x.id (fun y => { y with state := 1, cluster := cl, slot := k }))

/-- The unit of an SLUNPIN: an ordinary slot again, bound to the name (R456). -/
def slunpinUnit (s : State) (cl : Nat) (r : Resv) (n : Nat) : UnitRes :=
  match (nameSlate s r.fid n).bind (findSlate s r.tenant) with
  | none => .done s
  | some x =>
    if !(x.state == 1 && x.cluster == cl) then .hold s
    else
      let s := { s with slates := s.slates.filter (fun y => !(y.tenant == x.tenant && y.id == x.id)) }
      let s := setOwn s cl x.slot { state := 1, tenant := r.tenant, fid := some r.fid, gid := r.gid }
      .done (updForm s r.fid (fun f => { f with names := tput n x.slot f.names, slateNames := tdel n f.slateNames }))

/-- One unit of an entry (R442). -/
def runEntry (s : State) (cl : Nat) (r : Resv) (f : Form) : UnitRes :=
  match r.instr with
  | .mcb _ _ => mcbUnit s cl r f
  | .mldb k _ =>
    let d := spadRead s f r.sa.toNat 32
    if d = r.desc then .done (loadBank s cl k.toNat f d)
    else
      let d' := (List.range 32).map (fun i => Config.freeByte (s.fresh + i))
      .done (setBank { s with fresh := s.fresh + 32 } cl k.toNat { data := [(0, natLE d')], fmt := natAt d' 0 1, ident := [] })
  | .mma n _ _ => mmaUnit s cl r f n.toNat
  | .mepi n _ _ => mepiUnit s cl r f n.toNat
  | .mzero n => match entrySlot s cl r n.toNat with
    | none => .hold s
    | some (k, sid, s) => .done (genUp (setSlot s cl k []) r.tenant sid)
  | .mrel n => .done (unbindName s cl r.fid n.toNat)
  | .slpin n _ _ => slpinUnit s cl r n.toNat
  | .slunpin n => slunpinUnit s cl r n.toNat
  | .sldelta n _ => slateUnit s cl r f n.toNat true false
  | .slread n _ _ => slateUnit s cl r f n.toNat false true
  | .slchunk n _ _ => slateUnit s cl r f n.toNat true true
  | .slspill n =>
    match (nameSlate s r.fid n.toNat).bind (findSlate s r.tenant) with
    | none => .done s
    | some x => .done (if x.state = 1 ∧ x.cluster = cl then spillSlate s cl x.slot else s)
  | _ => .done s

/-! ## The arbiter (R237, R443) -/

/-- Two entries name the same slot or slate of a form. -/
def sameSlot (a b : Resv) : Bool := a.fid == b.fid && (mxName a.instr).isSome && mxName a.instr == mxName b.instr

/-- The slots that an entry needs are bound or bindable, its slate resident (R438, R443, R455, R464). -/
def slotReady (s : State) (cl : Nat) (r : Resv) : Bool :=
  match mxName r.instr with
  | none => true
  | some n =>
    match r.instr, (nameSlate s r.fid n).bind (findSlate s r.tenant) with
    | .mrel _, _ => true
    | .slspill _, _ => true
    | .slpin _ _ _, some x => if x.state = 0 then (quotaRoom s cl r.tenant true).isSome && ((nameSlot s r.fid n).isSome || canTake s cl r.fid) else true
    | _, some x => x.state == 1 && x.cluster == cl
    | _, none => (nameSlot s r.fid n).isSome || canTake s cl r.fid

/-- An entry is eligible for a grant (R443): `earlier` are the entries posted before it. -/
def eligible (s : State) (cl : Nat) (earlier : List Resv) (r : Resv) : Bool :=
  r.stop.isNone && !r.busy && !(earlier.any (fun q => q.tid == r.tid || sameSlot q r)) && slotReady s cl r &&
  (findForm s r.fid).isSome

/-- The eligible entries of a table, in posting order. -/
def eligibles (s : State) (cl : Nat) : List Resv → List Resv → List Resv
  | _, [] => []
  | e, r :: rest => (if eligible s cl e r then [r] else []) ++ eligibles s cl (e ++ [r]) rest

/-- The oldest of some entries; entries posted in one cycle by ascending core (R237). -/
def oldestResv (l : List Resv) : Option Resv := (sortOn (fun r => 512 * r.age + r.core) l).head?

/-- The entry that the arbiter chooses (R237). -/
def choose (l : List Resv) : Option Resv :=
  let starving := l.filter (fun r => decide (8 ≤ r.skip))
  if starving.isEmpty then
    let top := (l.map Resv.prio).foldl max 0
    oldestResv (l.filter (fun r => r.prio == top))
  else oldestResv starving

/-- A slot's LRU mark after a grant (Table 15.6). -/
def touchSlot (s : State) (cl : Nat) (r : Resv) : State :=
  match (mxName r.instr).bind (fun n => (nameSlate s r.fid n).bind (findSlate s r.tenant)) with
  | some x => if x.state = 1 ∧ x.cluster = cl then setOwn s cl x.slot { ownOf s cl x.slot with lru := s.clock.cycle } else s
  | none => s

/-- One grant of a cluster's engine, if an entry is eligible. -/
def grantOne (s : State) (cl : Nat) : Option State :=
  let m := mxOf s cl
  if m.resv.any Resv.busy then none
  else
    let l := eligibles s cl [] m.resv
    match choose l with
    | none => none
    | some r =>
      match findForm s r.fid with
      | none => none
      | some f =>
        let others := (l.filter (fun x => x.id != r.id)).map Resv.id
        let skip := fun (s : State) => others.foldl (fun s i => updResv s cl i (fun x => { x with skip := x.skip + 1 })) s
        match runEntry s cl r f with
        | .hold s => some s
        | .gone s => some (skip s)
        | .done s =>
          let s := touchSlot (skip s) cl r
          some (if r.units ≤ 1 then dropResv s cl r.id
            else updResv s cl r.id (fun x => { x with units := x.units - 1, age := s.clock.cycle, skip := 0 }))

/-- Clusters with a matrix engine in use. -/
def mxClusters (s : State) : List Nat := (s.clusters.filter (fun c => c.2.mx != {})).map Prod.fst

/-- MATRIX_GRANT (R237, R443): the engine of cluster arg.a - 1, or with 0 the first that can, performs one unit; resident
slates are first brought within QUOTA (R464), and transfers that wait are sent. -/
def execMatrixGrant (s : State) : Out :=
  let cls := if s.arg.a = 0 then mxClusters s else [s.arg.a - 1]
  let s := cls.foldl (fun s c => quotaTrim 32 ((mxOf s c).io.foldl (fun s x => mxIoStep s c x.id) s) c) s
  .next ((cls.findSome? (grantOne s)).getD s)

/-- A slate that an entry of the table, or a waiting Prefect, needs on the engine: form, tenant, ID, and whether it is for
an SLPIN. -/
def wantedSlate (s : State) (cl : Nat) : Option (Nat × Nat × Nat × Bool × Option Resv) :=
  let m := mxOf s cl
  let w := m.wants.findSome? (fun w => (findTeam s w.1).bind (fun t => (tenantOfGrid s t.gid).bind (fun ten =>
    if slateHere s cl ten w.2 then none else some (t.fid, ten, w.2, ((findSlate s ten w.2).bind Slate.owner).isNone, none))))
  match w with
  | some x => some x
  | none => m.resv.findSome? (fun r => (mxName r.instr).bind (fun n =>
      match r.instr with
      | .slspill _ => none
      | _ => (nameSlate s r.fid n).bind (fun id => (findSlate s r.tenant id).bind (fun x =>
          if x.state = 0 ∨ (x.state = 1 ∧ x.cluster = cl) then none else some (r.fid, r.tenant, id, false, some r)))))

/-- The slate wanted on a cluster's engine is refilled; an entry whose slate turns out corrupt is removed (R462, R464). -/
def refillOne (s : State) (cl : Nat) : Option State :=
  match wantedSlate s cl with
  | none => none
  | some (fid, ten, id, pin, r) =>
    let s' := match findSlate s ten id with
      | some x => if x.state = 3 then some s else refillSlate s cl fid ten id pin
      | none => none
    match s' with
    | none => none
    | some s =>
      let s := if ((findSlate s ten id).map Slate.state) = some 3 then
          match r with
          | some r => removeCmd s cl r fcSlateCorrupt 0
          | none => s
        else s
      some (updMx s cl (fun m => { m with wants := m.wants.filter (fun w => w.2 != id) }))

/-- SLATE_REFILL (R461, R462, R464): the spill path of cluster arg.a - 1, or with 0 of the first that can. -/
def execSlateRefill (s : State) : Out :=
  let cls := if s.arg.a = 0 then mxClusters s else [s.arg.a - 1]
  .next ((cls.findSome? (refillOne s)).getD s)

end Sys2Proof.Machine
end

