-- ==== Sys2Proof/Machine/Queues.lean ====
section
/-! DEFINITION. Hardware work queues (R210 to R225): descriptors and commands, the entries, the acceptance of a launch with
its swap space (R218, R228), timed starts, the tape; the reply to a far access (R44, R45). -/

namespace Sys2Proof.Machine

/-! ## Swap space (R228) -/

/-- 64 KiB units that the largest image of a team takes (R228): slices, registers per thread, window, rank 0, and the FIFO
banks per segment of a launch that carries BANKCFG. -/
def imageUnits (sl n l : Nat) (rank0 : Bool) (fifo : Option Nat) : Nat :=
  let a := if rank0 then 32 * 65600 + (match fifo with | some k => 64 + 4 * 8192 * k | none => 0) else 0
  (1600 + 256 * sl + roundUp 64 (16 * n * sl) + 16 * 1344 + roundUp 64 l + a + 65535) / 65536

/-- FIFO banks per segment of a launch's BANKCFG. -/
def Grid.fifoBanks (g : Grid) : Option Nat :=
  if g.flag 2 then some (banksIn (BitVec.ofNat 64 (natAt g.record 72 8)) 2).length else none
/-- Units of a team's image, by rank. -/
def Grid.teamUnits (g : Grid) (rank : Nat) : Nat := imageUnits g.slices g.regs g.window (rank == 0) g.fifoBanks
/-- Units of the first n teams of a form. -/
def Grid.formUnits (g : Grid) (n : Nat) : Nat := ((List.range n).map g.teamUnits).foldl (· + ·) 0
/-- Units of a whole grid. -/
def Grid.allUnits (g : Grid) : Nat :=
  if g.formSize = 0 then 0
  else g.teams / g.formSize * g.formUnits g.formSize + g.formUnits (g.teams % g.formSize)

/-- Free runs of a pool of n units beside its reservations, which stand in rising order. -/
def freeRuns (n : Nat) : Nat → List (Nat × Nat × Nat) → List (Nat × Nat)
  | at_, [] => if at_ < n then [(at_, n - at_)] else []
  | at_, (_, u, c) :: r => (if at_ < min u n then [(at_, min u n - at_)] else []) ++ freeRuns n (max at_ (u + c)) r
/-- The first k units of some runs. -/
def takeRuns : Nat → List (Nat × Nat) → List (Nat × Nat)
  | _, [] => []
  | k, (u, c) :: r => if k = 0 then [] else (u, min k c) :: takeRuns (k - min k c) r
/-- Units of a tenant's pool that no one has reserved. -/
def poolFree (s : State) (ten : Nat) : List (Nat × Nat) :=
  freeRuns (bits 15 0 (tsysGet s ten srSwapPool)) 0 (sortOn (fun p => p.2.1) (tenantOf s ten).pool)
/-- The pool has room for k more units (R228). -/
def poolRoom (s : State) (ten k : Nat) : Bool := decide (k ≤ ((poolFree s ten).map Prod.snd).foldl (· + ·) 0)
/-- Units reserved for an owner. -/
def poolTake (s : State) (ten owner k : Nat) : State :=
  let l := takeRuns k (poolFree s ten)
  updTenant s ten (fun t => { t with pool := t.pool ++ l.map (fun r => (owner, r.1, r.2)) })
/-- The byte addresses of an owner's units, in the order of the pool. -/
def poolUnits (s : State) (ten owner : Nat) : List Nat :=
  let base := bits 38 16 (tsysGet s ten srSwapPool) * 2 ^ 16
  (sortOn (fun p => p.2.1) ((tenantOf s ten).pool.filter (fun p => p.1 == owner))).flatMap
    (fun p => (List.range p.2.2).map (fun i => base + (p.2.1 + i) * 2 ^ 16))
/-- The units for the image of rank r of a form: from the grid's reservation for every team (R228), or from the form's own
(R236). -/
def imageHome (s : State) (g : Grid) (f : Form) (r : Nat) : List Nat :=
  let off := g.formUnits r
  let n := g.teamUnits r
  if g.flag 3 then ((poolUnits s g.tenant g.gid).drop (f.idx * g.formUnits g.formSize + off)).take n
  else ((poolUnits s g.tenant f.fid).drop off).take n

/-! ## Descriptors, doorbells and commands (R210 to R212) -/

/-- A queue as its descriptor in memory describes it, and whether the descriptor passes R210. A PRIO above 7 and RING bits
that must be 0 fail too, though R210's list of failures does not name them: DESIGN CHOICE, log entry 114. -/
def descRead (s : State) (q : Nat) (k : Queue) : Queue × Bool :=
  let b := mgetAll s.mem (descAt s q) 32
  let ring := natAt b 0 8
  let ten := natAt b 10 1
  let fl := natAt b 11 1
  let asid := natAt b 22 2
  let bd := bindOf s asid
  let ok := decide (ring / 2 ^ 39 = 0) && ring % 2 ^ 16 == 0 && decide (natAt b 8 1 ≤ 7) && decide (natAt b 9 1 ≤ 7) &&
    fl / 4 == 0 && fl % 2 == 1 && natAt b 24 8 == 0 && bd.valid && bd.tenant == ten
  ({ k with ring := ring % 2 ^ 39 / 2 ^ 16 * 2 ^ 16, size := natAt b 8 1 % 8, prio := natAt b 9 1 % 8, tenant := ten % 64,
            ptok := fl / 2 % 2 == 1, asid }, ok)

/-- More entries are due than the ring holds (R211). -/
def Queue.tooFar (k : Queue) : Bool := decide (k.cap < (k.tail - k.head).toNat)

/-- A doorbell write (R211). A DISABLED queue keeps the TAIL for its enable, a STOPPED one for its resume, which test it. -/
def doorbell (s : State) (q : Nat) (tail : BitVec 32) : State :=
  let k := queueOf s q
  if tail = k.tail then s
  else
    let s := queuePut s q (fun k => { k with tail })
    if k.state = 0 ∨ k.state = 6 then s
    else if ({ k with tail } : Queue).tooFar then stopQueue s q 0x0F
    else if k.state ≤ 2 then queuePut s q Queue.rest
    else s

/-- QUEUE_DB (R211): a write of arg.v to SYS.QUEUE_DB by the host. -/
def execQueueDb (s : State) : Out := .next (doorbell s (bits 12 0 s.arg.v) (s.arg.v.extractLsb' 32 32))

/-- The enable command (R210, R212). HEAD and TAIL are those that the descriptor holds. -/
def enableQueue (s : State) (q : Nat) : State :=
  if (queueOf s q).state ≠ 0 then s
  else
    let b := mgetAll s.mem (descAt s q) 32
    let (k, ok) := descRead s q (queueOf s q)
    let k := { k with head := BitVec.ofNat 32 (natAt b 12 4), tail := BitVec.ofNat 32 (natAt b 16 4), cause := 0,
                      disabling := false, started := [] }
    if ok && !k.tooFar then queuePut s q (fun _ => k.rest)
    else stopQueue (updQueue s q (fun _ => { k with state := 1 })) q 0x0F

/-- The disable command (R212). Of a STOPPED queue it is remembered, and the queue becomes DISABLED at its resume: DESIGN
CHOICE, log entry 115. -/
def disableQueue (s : State) (q : Nat) : State :=
  if (queueOf s q).state = 0 then s else queueSettle (updQueue s q (fun k => { k with disabling := true })) q

/-- What a queue's entries have under way at engines, other devices and the far tier is dropped. -/
def dropQueueWork (s : State) (q : Nat) : State :=
  let s := cancelOps s (fun o => match o.queue with | some (p, _) => p == q | none => false)
  let s := { s with fars := s.fars.filter (fun f => match f.ref with | .queue p _ => p != q | _ => true) }
  let mine := s.fab.tags.filter (fun t => match t.2.use with | some (.queue p _) => p == q | _ => false)
  mine.foldl (fun s t => freeTagAt s t.1 true) s

/-- A queue with nothing in progress. -/
def Queue.idle (k : Queue) : Queue :=
  { k with started := [], waitFrom := none, waitPa := none, recheck := false, asked := false, waitRec := [],
           rewinding := none, rewindGrid := none, popped := none, rewound := 0, disabling := false }

/-- The grids of a queue are aborted and its other entries cancelled. -/
def clearQueue (s : State) (q : Nat) : State :=
  let s := ((s.grids.filter (fun g => g.queue == q)).map Grid.gid).foldl abortGrid s
  updQueue (dropQueueWork s q) q Queue.idle

/-- Slates that forms own, and every slot of theirs, freed without spill (R264 step 4). -/
def freeFormSlates (s : State) (fids : List Nat) : State :=
  let mine := fun (x : Option Nat) => match x with | some f => fids.contains f | none => false
  let gone := (s.slates.filter (fun x => mine x.owner)).map (fun x => (x.tenant, x.id))
  mapMx { s with slates := s.slates.filter (fun x => !mine x.owner) }
    (fun m => m.mapOwn (fun o => if mine o.fid || (o.state == 2 && gone.contains (o.tenant, o.id)) then {} else o))

/-- Lanes of a team hold a reservation of this key (R159). -/
def Team.ownsKey (t : Team) (k : Nat) : Bool := k / 512 == t.ident.1 && t.ident.2.contains (k / 4 % 128)
/-- Reservations of the lanes of some teams released, here and as other devices hold them (R264 step 5). -/
def dropTeamRes (s : State) (ts : List Team) : State :=
  { s with resvs := s.resvs.filter (fun r => !(decide (r.key < 2 ^ 64) && ts.any (fun t => t.ownsKey r.key)))
           podRes := s.podRes.filter (fun p => !ts.any (fun t => t.ownsKey p.1)) }
/-- The teams of some grids, resident or swapped out. -/
def teamsOf (s : State) (gids : List Nat) : List Team :=
  s.teams.filter (fun t => gids.contains t.gid) ++ (s.forms.filter (fun f => gids.contains f.gid)).flatMap Form.savedTeams

/-- The tape's records of a queue leave it; the gaps close (R224). -/
def tapeForget (s : State) (ten q : Nat) : State :=
  let v := tsysGet s ten srTape
  let base := bits 38 16 v * 2 ^ 16
  let n := bits 12 0 v
  let all := (List.range n).map (fun i => mgetAll s.mem (base + 128 * i) 128)
  let keep := all.filter (fun r => natAt r 80 2 != q)
  if keep.length = n then s
  else tsysSet (homeStore s base keep.flatten) ten srTape (withBits 12 0 keep.length v)

/-- The reset command (R212): the tenant-reset procedure (R264) applied to the grids launched from the queue, which leaves
the rest of the tenant alone: DEDUCED, log entry 123. A DISABLED queue stays so (Table 7.4). -/
def resetQueue (s : State) (q : Nat) : State :=
  if (queueOf s q).state = 0 then s
  else
    let ten := (queueOf s q).tenant
    let gids := (s.grids.filter (fun g => g.queue == q)).map Grid.gid
    let fids := (s.forms.filter (fun f => gids.contains f.gid)).map Form.fid
    let ts := teamsOf s gids
    let s := dropTeamRes (freeFormSlates (tapeForget (clearQueue s q) ten q) fids) ts
    emit (queuePut s q (fun k => { k with head := k.tail, state := 1, cause := 0 })) ten { code := fcReset, issuer := 4, queue := q } 0

/-- The resume command (R212): after a RING stop the descriptor is read again; otherwise the queue goes on at the entry
after the one that stopped it. A TAIL too far beyond HEAD, rung while the queue was STOPPED, stops it with RING (R211). -/
def resumeQueue (s : State) (q : Nat) : State :=
  let k := queueOf s q
  if k.state ≠ 6 then s
  else if k.cause = 0x0F then
    let (k, ok) := descRead s q k
    if ok && !k.tooFar then queueSettle (queuePut s q (fun _ => { k with cause := 0 }.rest)) q else s
  else
    let k := { k with cause := 0, head := if k.atHead then k.head + 1 else k.head }
    if k.tooFar then stopQueue (updQueue s q (fun _ => { k with state := 2 })) q 0x0F
    else queueSettle (queuePut s q (fun _ => k.rest)) q

/-- A write to SYS.QUEUE_CMD (R212). -/
def queueCommand (s : State) (v : W64) : State :=
  let q := bits 12 0 v
  match bits 15 13 v with
  | 1 => enableQueue s q
  | 2 => disableQueue s q
  | 3 => resetQueue s q
  | 4 => resumeQueue s q
  | _ => s

/-- QUEUE_ENABLE (R212) of queue arg.a. -/
def execQueueEnable (s : State) : Out := .next (enableQueue s s.arg.a)
/-- QUEUE_DISABLE (R212) of queue arg.a. -/
def execQueueDisable (s : State) : Out := .next (disableQueue s s.arg.a)
/-- QUEUE_RESET (R212) of queue arg.a. -/
def execQueueReset (s : State) : Out := .next (resetQueue s s.arg.a)
/-- QUEUE_RESUME (R212) of queue arg.a. -/
def execQueueResume (s : State) : Out := .next (resumeQueue s s.arg.a)

/-! ## The head entry (R214, R218) -/

/-- A state of the queue while its head waits. -/
def queueState (s : State) (q st : Nat) : State := if (queueOf s q).state = st then s else queuePut s q (fun k => { k with state := st })

/-- Bytes of an entry that must be 0: FLAGS[7:1] of an entry other than a launch, and the ranges named. -/
def blankIn (b : List Byte) (l : List (Nat × Nat)) : Bool :=
  natAt b 1 1 / 2 == 0 && l.all (fun r => natAt b r.1 (r.2 - r.1) == 0)
/-- The first condition that holds gives the stop cause. -/
def stopCause : List (Bool × Nat) → Option Nat
  | [] => none
  | (c, k) :: r => if c then some k else stopCause r

/-- The head starts: the next entry becomes the head (R218). -/
def startHead (s : State) (q : Nat) (done : Bool) : State :=
  queuePut s q (fun k => { k with
    head := k.head + 1, started := if done then k.started else k.started ++ [k.head],
    waitFrom := none, waitPa := none, recheck := false, asked := false, waitRec := [] }.rest)

/-- The head entry of queue arg.a, where its type is `ty` and its AFTER condition holds, is handed to `k` with its bytes;
an entry of unknown type stops the queue (R214, R218). -/
def headRow (ty : Nat) (k : State → Nat → List Byte → State) (s : State) : Out :=
  let q := s.arg.a
  let x := queueOf s q
  .next (if x.state = 0 ∨ x.state = 6 ∨ x.disabling ∨ x.head = x.tail ∨ x.headOpen then s
    else
      let b := mgetAll s.mem (x.entryAt x.head) 128
      let t := natAt b 0 1
      if (natAt b 1 1 % 2 = 1 ∨ t = 3 ∨ t = 5) ∧ !x.started.isEmpty then queueState s q 3
      else if t = 0 ∨ 6 < t then stopQueue s q 0x01
      else if t = ty then k s q b else s)

/-! ## Launches (R215, R218, R223) -/

/-- The stop cause of a launch, checked in code order (R218, R219). -/
def launchCause (s : State) (k : Queue) (g : Grid) : Option Nat :=
  let r := g.record
  let asid := natAt r 2 2
  let bd := bindOf s asid
  let cfg := BitVec.ofNat 64 (natAt r 72 8)
  let space := fun (m : W64) => 8192 * (banksIn m 1).length
  let some1 := g.teams != 0
  let fits := fun cl => bit (cl % 64) (tsysGet s k.tenant (if cl < 64 then srPlaceD0 else srPlaceD1)) &&
    decide (min g.formSize g.teams ≤ ((List.range 4).filter (fun c => !(s.mgt.offCores.contains (4 * cl + c)))).length)
  let scope := natAt r 65 1
  stopCause [
    (natAt r 1 1 / 32 != 0 || natAt r 68 4 != 0 || natAt r 80 48 != 0 || decide (1 < natAt r 64 1) ||
      (!g.flag 2 && natAt r 72 8 != 0), 0x02),
    (decide (2 ^ 24 ≤ g.teams) || g.formSize == 0 || decide (4 < g.formSize) || g.slices == 0 || decide (64 < g.slices) ||
      decide (g.regs < 8) || decide (128 < g.regs) || g.regs % 8 != 0, 0x03),
    (!(bd.valid && bd.tenant == k.tenant), 0x04),
    (if g.flag 2 then !segValid cfg || decide (space cfg < g.window) else decide (262144 < g.window), 0x05),
    (some1 && (!(List.range 128).any fits || decide (32 < g.slates) ||
      (!g.flag 2 && decide (space (sysGet s srSramDefault) < g.window))), 0x06),
    (some1 && decide (quotaOf s k.tenant < g.slates), 0x07),
    (g.flag 1 && !k.ptok, 0x08),
    (g.event != 0 && scope != 4 && scope != 5, 0x09),
    (some1 && g.flag 3 && !poolRoom s k.tenant g.allUnits, 0x0A),
    (g.event % 8 != 0, 0x0E)]

/-- A launch record is taken up: the stop cause, or the machine with its grid, which fetches memory as it stands now
(R139, R218). -/
def acceptLaunch (s : State) (q : Nat) (rec' : List Byte) (entry : Option Nat) : Nat ⊕ (Nat × State) :=
  let k := queueOf s q
  let (gid, s) := newId s
  let g : Grid :=
    { gid, queue := q, entry, tenant := k.tenant, asid := natAt rec' 2 2, prio := k.prio, record := rec',
      check := bit 0 (tsysGet s k.tenant srCheck), race := bit 0 (tsysGet s k.tenant srRaceCtl),
      accepted := nsOf s, acceptSeq := s.clock.cycle * 8192 + q, waitSince := nsOf s, snap := s.mem }
  match launchCause s k g with
  | some c => .inl c
  | none =>
    let s := if g.flag 3 && g.teams != 0 then poolTake s k.tenant gid g.allUnits else s
    .inr (gid, { s with grids := s.grids ++ [g] })

/-- A timed launch's start has not come (R223). -/
def notYet (s : State) (rec' : List Byte) : Bool :=
  natAt rec' 1 1 / 16 % 2 == 1 && decide (nsOf s < natAt rec' 40 8)

/-- A LAUNCH entry at the head. -/
def launchHead (s : State) (q : Nat) (b : List Byte) : State :=
  if notYet s b then queueState s q 5
  else match acceptLaunch s q b (some (queueOf s q).head.toNat) with
    | .inl c => stopQueue s q c
    | .inr (_, s) => startHead s q false

/-- QUEUE_LAUNCH (R218): the launch at the head of queue arg.a. -/
def execQueueLaunch (s : State) : Out := headRow 1 launchHead s

/-! ## WAIT (R220) -/

/-- A WAIT's condition on the event word. -/
def waitMet (b : List Byte) (e : W64) : Bool :=
  let v := BitVec.ofNat 64 (natAt b 16 8)
  let m := BitVec.ofNat 64 (natAt b 24 8)
  match natAt b 2 1 with
  | 0 => e &&& m == v
  | 1 => e &&& m != v
  | _ => decide (v.toNat ≤ e.toNat)

/-- The event word that a WAIT's read returned. -/
def queueReadDone (s : State) (q n : Nat) (e : W64) : State :=
  let k := queueOf s q
  if k.headOpen && k.head.toNat == n && k.state != 6 then
    if waitMet k.waitRec e then queueSettle (startHead s q true) q
    else updQueue s q (fun k => { k with asked := false })
  else s
/-- A WAIT's read failed at the address. -/
def queueReadFail (s : State) (q n : Nat) : State :=
  let k := queueOf s q
  if k.headOpen && k.head.toNat == n && k.state != 6 then stopQueue s q 0x0B else s

/-- A read of a WAIT's event word: at its home slice, at the target device, or in the far tier. -/
def waitRead (s : State) (q : Nat) : State :=
  let k := queueOf s q
  let va := BitVec.ofNat 64 (natAt k.waitRec 8 8)
  let s := updQueue s q (fun k => { k with recheck := false, lastPoll := nsOf s })
  let again := fun (s : State) => updQueue s q (fun k => { k with recheck := true })
  if k.asked then s
  else match walkNow s k.asid k.tenant va .read with
    | (.zero _, s) => again s
    | (.wait, s) => again s
    | (.fault c _ _, s) =>
      if c = fcPageElsewhere ∧ autoFlip s k.tenant then again (flipAsk s k.asid k.tenant va false) else stopQueue s q 0x0B
    | (.ok e lev, s) =>
      let pa := leafPa e lev va
      let asked := fun (s : State) => updQueue s q (fun k => { k with asked := true })
      if pteFar e then
        let f : FarReq := { id := s.nextId, addr := pa, tenant := k.tenant, n := 8, wr := none, ref := .queue q k.head.toNat,
                            cls := 3, die := 0, owner := (0, 0), va, level := lev }
        asked { s with fars := s.fars ++ [f], nextId := s.nextId + 1 }
      else if isOwnDev s (pteDev e) then
        queueReadDone (updQueue (spend s (homeSlice pa) k.tenant) q (fun k => { k with waitPa := some pa })) q k.head.toNat (mem64 s pa)
      else if domainOf s k.tenant = 0 then stopQueue s q 0x0B
      else match podSend s 0 (pteDev e) { code := 16, pa, n := 8, op := 1, domain := domainOf s k.tenant } (.queue q k.head.toNat) 0 with
        | .sent s => asked s
        | .wait => again s
        | .unreachable => stopQueue s q 0x0B

/-- A WAIT entry starts (R220). -/
def waitHead (s : State) (q : Nat) (b : List Byte) : State :=
  match stopCause [
    (!blankIn b [(4, 8), (40, 128)] || decide (2 < natAt b 2 1), 0x02),
    (natAt b 3 1 != 4 && natAt b 3 1 != 5, 0x09),
    (natAt b 8 8 % 8 != 0, 0x0E)] with
  | some c => stopQueue s q c
  | none => waitRead (updQueue (queueState s q 4) q (fun k => { k with waitFrom := some (nsOf s), waitRec := b })) q

/-- A WAIT in progress at the head of a queue. -/
def Queue.waiting (k : Queue) : Bool := k.waitFrom.isSome && k.state == 4

/-- QUEUE_WAIT (R220): the WAIT at the head of queue arg.a starts with its first read, or, once an event operation has
reached its sector, reads again. -/
def execQueueWait (s : State) : Out :=
  let k := queueOf s s.arg.a
  if k.waiting && k.recheck then .next (waitRead s s.arg.a) else headRow 2 waitHead s

/-- QUEUE_WAIT_POLL (R220): a waiting WAIT of queue arg.a reads again after POLL microseconds. -/
def execQueueWaitPoll (s : State) : Out :=
  let k := queueOf s s.arg.a
  .next (if k.waiting && decide (k.lastPoll + bits 63 52 (sysGet s srSchedCtl) * 1000 ≤ nsOf s) then waitRead s s.arg.a else s)

/-- QUEUE_WAIT_TIMEOUT (R220): the timeout of the WAIT of queue arg.a has passed. -/
def execQueueWaitTimeout (s : State) : Out :=
  let k := queueOf s s.arg.a
  let t := natAt k.waitRec 32 8
  .next (match k.waitFrom with
    | some f => if k.waiting && t != 0 && decide (f + t * 1000 ≤ nsOf s) then stopQueue s s.arg.a 0x0C else s
    | none => s)

/-! ## SIGNAL, COPY and NOP (R221, R222) -/

/-- A SIGNAL entry at the head (R221): every earlier entry is complete, so its operation is a release of their writes. -/
def signalHead (s : State) (q : Nat) (b : List Byte) : State :=
  let k := queueOf s q
  match stopCause [
    (!blankIn b [(4, 8), (24, 128)] || decide (1 < natAt b 2 1), 0x02),
    (natAt b 3 1 != 4 && natAt b 3 1 != 5, 0x09),
    (natAt b 8 8 % 8 != 0, 0x0E)] with
  | some c => stopQueue s q c
  | none =>
    match eventAt s k.asid k.tenant (BitVec.ofNat 64 (natAt b 8 8)) (natAt b 2 1 == 1) (BitVec.ofNat 64 (natAt b 16 8))
        (.queue q k.head.toNat) 0 with
    | .done s => startHead s q true
    | .sent s => startHead s q false
    | .wait s => s
    | .fault s => stopQueue s q 0x0B

/-- QUEUE_SIGNAL (R221). -/
def execQueueSignal (s : State) : Out := headRow 3 signalHead s

/-- A COPY entry at the head (R222): a COPY operation of a collective engine of the destination's die. The spec does not say
which of its sixteen engines, and names no die for a destination that lies elsewhere or does not translate: the lowest one
with room, and die 0, DESIGN CHOICE, log entry 116. A length that a chain's COPY could not have stops nothing and is run as
it is: DESIGN CHOICE, log entry 117. -/
def copyHead (s : State) (q : Nat) (b : List Byte) : State :=
  let k := queueOf s q
  let dst := BitVec.ofNat 64 (natAt b 16 8)
  match stopCause [
    (!blankIn b [(4, 8), (48, 128)] || decide (1 < natAt b 2 1), 0x02),
    (natAt b 3 1 != 4 && natAt b 3 1 != 5, 0x09),
    (natAt b 32 8 % 8 != 0, 0x0E)] with
  | some c => stopQueue s q c
  | none =>
    let die := match walkQuiet s k.asid k.tenant dst .write with
      | some (e, lev) => if pteFar e || !isOwnDev s (pteDev e) then 0 else homeDie (leafPa e lev dst)
      | none => 0
    match (List.range 16).find? (fun i => decide ((s.ops.filter (fun o => o.eng == 256 + 16 * die + i)).length < 32)) with
    | none => s
    | some i =>
      let (id, s) := newId s
      let e := [1#8, 0#8, 0#8, 0#8, b.getD 3 0#8, 0#8, 0#8, 0#8] ++ (b.drop 8).take 8 ++ (b.drop 16).take 8 ++ (b.drop 24).take 8
      let o : EngOp :=
        { id, eng := 256 + 16 * die + i, chain := 0, fid := 0, gid := 0, tid := 0, core := 256 * die, tenant := k.tenant,
          asid := k.asid, entry := e, off := 0, since := nsOf s, tensor := b, queue := some (q, k.head) }
      runOp (startHead { s with ops := s.ops ++ [o] } q false) id

/-- QUEUE_COPY (R222). -/
def execQueueCopy (s : State) : Out := headRow 4 copyHead s

/-- QUEUE_NOP (R222). -/
def execQueueNop (s : State) : Out :=
  headRow 6 (fun s q b => if blankIn b [(2, 128)] then startHead s q true else stopQueue s q 0x02) s

/-! ## The tape (R224, R225) -/

/-- Records held, and the address of a slot. -/
def tapeCount (s : State) (ten : Nat) : Nat := bits 12 0 (tsysGet s ten srTape)
def tapeAt (s : State) (ten i : Nat) : Nat := bits 38 16 (tsysGet s ten srTape) * 2 ^ 16 + 128 * i
def setTape (s : State) (ten : Nat) (f : W64 → W64) : State := tsysSet s ten srTape (f (tsysGet s ten srTape))

/-- A record appended for a queue, or the overflow marked (R224). -/
def tapePushRec (s : State) (ten q : Nat) (r : List Byte) : State :=
  let n := tapeCount s ten
  if 4096 ≤ n then updQueue (setTape s ten (withBits 13 13 1)) q (fun k => { k with ovf := true })
  else
    let own := if natAt r 80 3 = 0 then 0 else 1
    let r := spliceAt r 80 (bytesLE 2 q ++ bytesLE 1 own)
    setTape (homeStore s (tapeAt s ten n) r) ten (withBits 12 0 (n + 1))

/-- TAPE.PUSH (R351): held while a SRAMCFG changes a segment that it reads (R51). -/
def execTapePush (a : SReg) (s : State) : Out :=
  withPref s (fun p =>
    let off := rdS p.team.pf a.toNat
    if off.toNat % 8 ≠ 0 then raisePref s p fcMisalign 0 0 off
    else match findForm s p.team.fid with
      | none => illegalPref s p
      | some f =>
        if !winOk f off.toInt 128 then raisePref s p fcPagePerm 4 0 off
        else if offHeld s f off.toNat || offHeld s f (off.toNat + 127) then prefStall s p .scoreboard
        else prefDone (tapePushRec s p.grid.tenant p.grid.queue (spadRead s f off.toNat 128)) p (fun q => q))

/-- The latest pushed record of a queue leaves the tape; the gap closes (R225). -/
def tapePop (s : State) (ten q : Nat) : Option (List Byte × State) :=
  let n := tapeCount s ten
  match (List.range n).reverse.find? (fun i => natLE (mgetAll s.mem (tapeAt s ten i + 80) 2) == q) with
  | none => none
  | some i =>
    let r := mgetAll s.mem (tapeAt s ten i) 128
    let rest := mgetAll s.mem (tapeAt s ten (i + 1)) (128 * (n - i - 1))
    some (spliceAt r 80 [0#8, 0#8], setTape (homeStore s (tapeAt s ten i) rest) ten (withBits 12 0 (n - 1)))

/-- A popped record is launched as if it stood in the queue with AFTER = 1; a failed check stops the queue at the REWIND, a
record that is no launch with BADTYPE (R214, R225). -/
def launchPopped (s : State) (q : Nat) (n : BitVec 32) (r : List Byte) : State :=
  if natAt r 0 1 ≠ 1 then stopQueueAt (updQueue s q (fun k => { k with popped := none })) q n 0x01
  else if notYet s r then updQueue s q (fun k => { k with popped := some r })
  else
    let s := updQueue s q (fun k => { k with popped := none })
    match acceptLaunch s q r none with
    | .inl c => stopQueueAt s q n c
    | .inr (gid, s) => updQueue s q (fun k => { k with rewindGrid := some gid })

/-- A REWIND in progress goes on: a popped record waits for its start, or the next record is popped, or it completes. -/
def rewindStep (s : State) (q : Nat) : State :=
  let k := queueOf s q
  match k.rewinding with
  | none => s
  | some n =>
    if k.rewindGrid.isSome || k.state == 6 then s
    else match k.popped with
      | some r => launchPopped s q n r
      | none =>
        let fin := fun (s : State) => entryDone (updQueue s q (fun k => { k with rewinding := none })) q n
        if k.rewCount ≠ 0 ∧ k.rewCount ≤ k.rewound then fin s
        else match tapePop s k.tenant q with
          | none => fin s
          | some (r, s) => launchPopped s q n r

/-- A REWIND entry starts (R225). -/
def rewindHead (s : State) (q : Nat) (b : List Byte) : State :=
  let k := queueOf s q
  if !blankIn b [(2, 4), (8, 128)] then stopQueue s q 0x02
  else if k.ovf then stopQueue (updQueue s q (fun k => { k with ovf := false })) q 0x0D
  else
    let s := updQueue (startHead s q false) q (fun x => { x with
      rewinding := some k.head, rewCount := natAt b 4 4, rewound := 0, rewindGrid := none, popped := none })
    rewindStep s q

/-- QUEUE_REWIND (R225): the REWIND of queue arg.a goes on, or the one at its head starts. -/
def execQueueRewind (s : State) : Out :=
  if (queueOf s s.arg.a).rewinding.isSome then .next (rewindStep s s.arg.a) else headRow 5 rewindHead s

/-- TIMED_START (R223): the launch for which queue arg.a waits is accepted once SYS.TIME has reached its START; a record
that a REWIND has popped likewise. -/
def execTimedStart (s : State) : Out :=
  let k := queueOf s s.arg.a
  if k.popped.isSome then .next (rewindStep s s.arg.a)
  else if k.state = 5 then headRow 1 launchHead s
  else .next s

/-! ## Replies to far accesses -/

/-- FAR_ACCESS_REPLY (R44, R45): the adapter answers far access arg.a, or with 0 the oldest, with arg.data; an access
outside every extent of its tenant comes back unbacked. A read of a line fills the house's L2. -/
def execFarAccessReply (s : State) : Out :=
  .next (match s.fars.find? (fun f => s.arg.a == 0 || f.id == s.arg.a) with
    | none => s
    | some f =>
      let s := { s with fars := s.fars.filter (fun x => x.id != f.id) }
      let backed := farBacked s f.tenant f.addr f.n
      let d := fitTo f.n s.arg.data
      let s := if backed && f.wr.isNone && f.n == 128 && f.addr % 128 == 0 then
          l2Fill s (96 * f.die + l2Slice f.addr) f.addr ⟨0, f.addr / 128, true, f.gen, 15#4, 0, lineOf d⟩ f.tenant f.cls
        else s
      match f.ref with
      | .none => advanceAll s
      | .pod _ => s
      | .eng op => engFarReply s f op backed d
      | .mx cl io => mxIoReply s cl io (if backed then none else some (fcPageAbsent, 3, f.level)) (if f.wr.isSome then [] else d)
      | .queue q n => if backed then queueReadDone s q n (BitVec.ofNat 64 (natLE d)) else queueReadFail s q n
      | .fetch gid pc => codeDone s gid pc (if backed then .inr (if f.n = 128 then (d.drop (pc.toNat % 128 / 32 * 32)).take 32 else d)
          else .inl (fcPageAbsent, 3, f.level))
      | .asid _ => s
      | .lane op gl =>
        if !backed then
          match findOp s op with
          | none => s
          | some o => match o.lane gl with
            | none => s
            | some l =>
              settleOp (advanceAll (setLaneSt s op gl (.fault fcPageAbsent 3 l.level l.va))) op
        else
          let lane := (findOp s op).bind (fun o => o.lane gl)
          let part := match lane with
            | some l => if f.n = 128 then (d.drop (l.va.toNat % 128 / 32 * 32)).take 32 else d
            | none => d
          answerLane s op gl (.data (if f.wr.isSome then [] else part)) none)

end Sys2Proof.Machine
end

