-- ==== Sys2Proof/Machine/Place.lean ====
section
/-! DEFINITION. The work distributor (R226 to R228): the resource check of Table 7.9, the order of launches, the placement
of a form and the start of its teams (R54, R183, R191). -/

namespace Sys2Proof.Machine

/-! ## The resource check (Table 7.9) -/

/-- A form has room of its own on its cluster: it is resident. -/
def Form.resident (s : State) (f : Form) : Bool := !f.out && formResident s f.fid

/-- The teams of a core, and the windows of its segment's scratchpad in use, as base and length in bytes: a form's windows
are held until it leaves. `skip` is a form taken as gone. -/
def coreTeams (s : State) (core : Nat) (skip : Option Nat) : List Team :=
  s.teams.filter (fun t => t.core == core && !(skip == some t.fid))
def coreWindows (s : State) (core : Nat) (skip : Option Nat) : List (Nat × Nat) :=
  (s.forms.filter (fun f => f.resident s && !(skip == some f.fid))).flatMap (fun f =>
    ((f.cores.zip f.bases).filter (fun p => p.1 == core)).map (fun p => (p.2 * 4096, f.winLen)))

/-- The modes of a segment when a form is taken as gone: an idle cluster has SYS.SRAM_DEFAULT (R49). -/
def modesWithout (s : State) (cl seg : Nat) (skip : Option Nat) : W64 :=
  if skip.isNone || s.teams.any (fun t => clusterOfCore t.core == cl && !(skip == some t.fid)) then segModes s cl seg else sysGet s srSramDefault

/-- The lowest 4 KiB-aligned base at which l free bytes begin in a space (R54). -/
def windowBase (used : List (Nat × Nat)) (space l : Nat) : Option Nat :=
  if l = 0 then some 0
  else (sortOn (fun x => x) (0 :: used.map (fun u => u.1 + u.2))).find? (fun b =>
    decide (b + l ≤ space) && used.all (fun u => !overlaps b l u.1 u.2))

/-- The core check for a team of a launch: the base of its window when it passes. -/
def coreCheck (s : State) (g : Grid) (core : Nat) (skip : Option Nat) : Option Nat :=
  let ts := coreTeams s core skip
  let m := if g.flag 2 then BitVec.ofNat 64 (natAt g.record 72 8) else modesWithout s (clusterOfCore core) (core % 4) skip
  let slices := (ts.map Team.nslices).foldl (· + ·) 0
  let regs := (ts.map (fun t => 4 * t.nslices * t.nregs)).foldl (· + ·) 0
  if !(s.mgt.offCores.contains core) ∧ ts.length < 8 ∧ slices + g.slices ≤ 128 ∧ regs + 4 * g.slices * g.regs ≤ 65536 then
    windowBase (coreWindows s core skip) (8192 * (banksIn m 1).length) g.window
  else none

/-- A tenant's placement mask permits a cluster (R227). -/
def permitted (s : State) (ten cl : Nat) : Bool :=
  bit (cl % 64) (tsysGet s ten (if cl / 64 = 0 then srPlaceD0 else srPlaceD1))

/-- Free accumulator slots of an engine with a form taken as gone: its own unpinned slots and its reservation are free. -/
def slotsWithout (s : State) (cl : Nat) (skip : Option Nat) : Nat :=
  (freeSlots s cl).length + (match skip with
    | none => 0
    | some fid =>
      ((List.range 32).filter (fun k => (ownOf s cl k).state == 1 && (ownOf s cl k).fid == some fid)).length +
      (match findForm s fid with | some f => f.reserved.length | none => 0))

/-- The cluster check for a form of n teams, on one core when `only` names it: the cores of its ranks with their windows'
bases. -/
def clusterCheck (s : State) (g : Grid) (cl n : Nat) (only skip : Option Nat) : Option (List (Nat × Nat)) :=
  let others := s.forms.filter (fun f => f.cluster == cl && f.resident s && !(skip == some f.fid))
  if !permitted s g.tenant cl || others.any Form.excl || (g.flag 2 && !others.isEmpty) ||
      decide (slotsWithout s cl skip < g.slates) then none
  else
    let cores := match only with | some c => [c] | none => [0, 1, 2, 3]
    let picks := cores.filterMap (fun c => (coreCheck s g (4 * cl + c) skip).map (fun b => (4 * cl + c, b)))
    if picks.length < n then none else some (picks.take n)

/-! ## The order of launches (R228, R235, R236) -/

/-- A launch has a form that waits for its first placement. -/
def Grid.waiting (g : Grid) : Bool := decide (g.nextForm < g.forms) && !g.aborted
/-- Launches with forms waiting, highest-ranked first. -/
def ranked (s : State) : List Grid :=
  sortOn (fun g => 7 - g.prio) (sortOn Grid.acceptSeq (s.grids.filter Grid.waiting))

/-- The swapped-out forms of a cluster with their grids. -/
def outForms (s : State) (cl : Nat) : List (Form × Grid) :=
  (s.forms.filter (fun f => f.out && f.cluster == cl)).filterMap (fun f => (findGrid s f.gid).map (fun g => (f, g)))
/-- A form went out by a pre-emption. -/
def Form.preempted (f : Form) : Bool := match f.stopReq with | some r => r.preempt | none => false

/-- A launch may place its next form on a cluster: no higher-ranked launch reserves it (R228), no pre-empted form of the
same or a higher priority is to return there (R236), and room that returning forms of its grid await there is its own
only where a quantum swap freed it (R235). -/
def mayPlace (s : State) (above : List Grid) (g : Grid) (cl : Nat) : Bool :=
  !(above.any (fun h => h.reserving && permitted s h.tenant cl)) &&
  !((outForms s cl).any (fun p => (p.1.preempted && decide (g.prio ≤ p.2.prio)) ||
    (p.2.gid == g.gid && !g.swapRoom.contains cl)))

/-- Positions of the placement sequence that a launch uses, and the cluster and core a position names (R226). -/
def Grid.positions (g : Grid) : Nat := if g.formSize = 1 then 512 else 128
def Grid.position (g : Grid) (i : Nat) : Nat × Option Nat :=
  (64 * (i % 2) + i / 2 % 64, if g.formSize = 1 then some (i / 128) else none)

/-- The first position from the pointer on, wrapping once, at which a launch's next form passes. -/
def findPlace (s : State) (above : List Grid) (g : Grid) : Option (Nat × List (Nat × Nat)) :=
  (List.range g.positions).findSome? (fun k =>
    let i := (g.ptr + k) % g.positions
    let (cl, only) := g.position i
    if mayPlace s above g cl then (clusterCheck s g cl (g.formTeams g.nextForm) only none).map (fun p => (i, p)) else none)

/-- The highest-ranked launch whose next form passes somewhere, with the place. -/
def nextPlace (s : State) : List Grid → List Grid → Option (Grid × Nat × List (Nat × Nat))
  | _, [] => none
  | above, g :: r => match findPlace s above g with
    | some (i, p) => some (g, i, p)
    | none => nextPlace s (above ++ [g]) r

/-! ## Placing a form -/

/-- A team's detector number: the lowest free one of its tenant, released at `pod` as it is issued; with none the team runs
unchecked (R104). -/
def takeDet (s : State) (ten fid die gid : Nat) : Option Nat × State :=
  match (List.range 65535).find? (fun n => !(tenantOf s ten).detUsed.contains n) with
  | none => (none, raceSkip s ten)
  | some n =>
    let s := updTenant s ten (fun t => { t with
      detUsed := t.detUsed ++ [n], detAt := t.detAt.filter (fun d => d.1 != n) ++ [(n, fid, die, gid)] })
    (some n, detRelease s ten n 5)

/-- SYS.TEAM_ID of a team (Table 6.1). -/
def teamIdOf (team form rank core : Nat) : W64 :=
  BitVec.ofNat 64 (team * 2 ^ 40 + form * 2 ^ 16 + rank * 2 ^ 14 + core / 256 * 2 ^ 13 + core / 4 % 64 * 2 ^ 7 + core % 4 * 2 ^ 5)

/-- The lowest free team slot of a core (R226). -/
def lowSlot (s : State) (core : Nat) : Nat :=
  ((List.range 8).find? (fun m => !(s.teams.any (fun t => t.core == core && t.slot == m)))).getD 0

/-- A gang joins its port's pending set, a Prefect the scalar path (R230, R233). -/
def enqueueTeam (s : State) (t : Team) : State :=
  let s := updCore s t.core (fun c => { c with pfAge := c.pfAge ++ [(t.tid, 0)] })
  (distinct (t.slices.map (fun p => p.2.cohort))).foldl (fun s l => toPending s t l) s

/-- The identity of a team's lanes for reservations: the core, and the lowest slice numbers of it that no other team has, nor,
while there are enough, one that is swapped out (R159): DESIGN CHOICE, log entry 122. -/
def teamIdent (s : State) (core n : Nat) : Nat × List Nat :=
  let here := s.teams.filter (fun t => t.ident.1 == core)
  let out := (s.forms.flatMap Form.savedTeams).filter (fun t => t.ident.1 == core)
  let free := fun (l : List Team) => (List.range 128).filter (fun k => !l.any (fun t => t.ident.2.contains k))
  (core, (if n ≤ (free (here ++ out)).length then free (here ++ out) else free here).take n)

/-- A team starts on its core (R183, R191). -/
def startTeam (s : State) (g : Grid) (fid idx rank core : Nat) : State :=
  let (tid, s) := newId s
  let (det, s) := takeDet s g.tenant fid (dieOfCore core) g.gid
  let pc := BitVec.ofNat 64 (natAt g.record 16 8)
  let t : Team :=
    { tid, gid := g.gid, fid, rank, core, slot := lowSlot s core, nslices := g.slices, nregs := g.regs,
      teamId := teamIdOf (g.formSize * idx + rank) idx rank core,
      slices := (List.range g.slices).map (fun n => (n, { pc, cohort := n / 8 * 8, live := g.regs })),
      pf := { pc := BitVec.ofNat 64 (natAt g.record 24 8) }, det, ident := teamIdent s core g.slices }
  enqueueTeam { s with teams := s.teams ++ [t] } t

/-- The modes of a cluster set to a launch's configuration (R50). -/
def applyConfig (s : State) (cl : Nat) (l : List W64) : State :=
  (List.range 4).foldl (fun s g => if segModes s cl g = l.getD g 0 then s else setSegment s cl g (l.getD g 0)) s

/-- A launch's next form is placed on cores with windows (R54, R226). -/
def placeForm (s : State) (g : Grid) (pos : Nat) (picks : List (Nat × Nat)) : State :=
  let cl := match picks with | [] => 0 | p :: _ => clusterOfCore p.1
  let die := cl / 64
  let (fid, s) := newId s
  let s := if g.flag 2 then applyConfig s cl (List.replicate 4 (BitVec.ofNat 64 (natAt g.record 72 8))) else s
  let f : Form :=
    { fid, gid := g.gid, idx := g.nextForm, cluster := cl, cores := picks.map Prod.fst, bases := picks.map (fun p => p.2 / 4096),
      winLen := g.window, excl := g.flag 2, reserved := (freeSlots s cl).take g.slates, placedAt := nsOf s }
  let s := roomTaken { s with forms := s.forms ++ [f] } cl
  let s := if g.houses.contains die then s else bumpDie s die
  let s := updGrid s g.gid (fun x => { x with
    houses := if x.houses.contains die then x.houses else x.houses ++ [die]
    ptr := (pos + 1) % g.positions, nextForm := x.nextForm + 1, waitSince := nsOf s, reserving := false })
  ((List.range picks.length).zip (picks.map Prod.fst)).foldl (fun s p => startTeam s g fid g.nextForm p.1 p.2) s

/-- FORM_PLACEMENT (R226, R228): one placement step. -/
def execFormPlacement (s : State) : Out :=
  .next (match nextPlace s [] (ranked s) with
    | none => s
    | some (g, i, p) => placeForm s g i p)

/-- LAUNCH_RESERVING (R228): the first launch whose next form has waited RESV microseconds becomes reserving. -/
def execLaunchReserving (s : State) : Out :=
  .next (match (ranked s).find? (fun g => !g.reserving && decide (g.waitSince + bits 39 28 (sysGet s srSchedCtl) * 1000 ≤ nsOf s)) with
    | none => s
    | some g => updGrid s g.gid (fun x => { x with reserving := true }))

end Sys2Proof.Machine
end

