-- ==== Sys2Proof/Machine/Fetch.lean ====
section
/-! DEFINITION. Instruction fetch (R25, R139, R316): the word at an issuer's program counter, the checks that come before
its encoding, and the faults they take. -/

namespace Sys2Proof.Machine

/-- What a fetch came to: the word, a machine in which the issuer does not execute (it waits, a fault is taken, it may not
issue), or no such issuer. -/
inductive Fetch where
  | word (w : W32) (s : State)
  | held (s : State)
  | gone

/-- The word of a grid's code at a physical address: as it stood at the grid's acceptance where it has not changed since,
a free value where it has (R139). -/
def codeWord (s : State) (g : Grid) (pa : Nat) : W32 × State :=
  let now := mgetAll s.mem pa 4
  if now = mgetAll g.snap pa 4 then (BitVec.ofNat 32 (natLE now), s)
  else (Config.freeCode s.fresh, { s with fresh := s.fresh + 1 })

/-- What reading a translated fetch address came to. -/
inductive CodeRes where
  | word (w : W32) (s : State)
  | wait (s : State)
  | fault (s : State) (code cause level : Nat)

/-- A word of another device or of the far tier is asked for: a read under the grid's tenant, from the core's die, in the
page's class (R24, R42, R45, R152). -/
def askCode (s : State) (g : Grid) (core : Nat) (e : W64) (level : Nat) (pc : W64) : CodeRes :=
  let pa := leafPa e level pc
  let die := dieOfCore core
  let note := fun (s : State) => { s with code := s.code ++ [{ gid := g.gid, pc }] }
  if pteFar e then
    let r := mkReq (96 * die + l2Slice pa) pa g.tenant (clusterOfCore core) (classOf e 0) (.read 4) (.fetch g.gid pc) (rdcGen s die) (0, 0)
    .wait (note (postReq s { r with far := true, checked := false }))
  else if domainOf s g.tenant = 0 then .fault s fcPagePerm 5 0
  else match podSend s die (pteDev e) { code := 16, pa, n := 4, op := 1, domain := domainOf s g.tenant, level } (.fetch g.gid pc) g.gid with
    | .sent s => .wait (note s)
    | .wait => .wait s
    | .unreachable => .fault s fcFabricTimeout 1 0

/-- A translated fetch address read: at this device from memory, poisoned code faulting; of another device or the far tier
the word that came, once it has come, which the grid keeps (R139), or the fault that came. -/
def fetchAt (s : State) (g : Grid) (core : Nat) (e : W64) (level : Nat) (pc : W64) : CodeRes :=
  let pa := leafPa e level pc
  if pteFar e || !isOwnDev s (pteDev e) then
    match s.code.find? (fun c => c.gid == g.gid && c.pc == pc) with
    | none => askCode s g core e level pc
    | some c =>
      match c.flt, c.word with
      | some (f, x, l), _ => .fault { s with code := s.code.erase c } f x l
      | none, some w => .word w s
      | none, none => .wait s
  else if poisoned s pa 4 then .fault s fcPoison 0 0
  else
    let (w, s) := codeWord s g pa
    .word w s

/-- The fetch of a gang (R25, R239). In Gambit a miss or a fault ends the episode (Table 6.6). -/
def fetchGang (s : State) (g : Gang) : Fetch :=
  let pc := g.pc
  if !g.issues || saveHolds s g.team.fid none then .held s
  else if g.ahead then
    let ended := Fetch.held (endGambit s g.team.tid g.lead 5)
    if pc.toNat % 4 ≠ 0 ∨ !canonical pc then ended
    else match tlbTry s g.team.core g.grid.asid g.grid.tenant pc .fetch with
      | some (.ok e level) =>
        if pteFar e || !isOwnDev s (pteDev e) then
          (match s.code.find? (fun c => c.gid == g.grid.gid && c.pc == pc) with
           | some { word := some w, .. } => .word w s
           | _ => ended)
        else (match fetchAt s g.grid g.team.core e level pc with
          | .word w s => .word w s
          | .wait _ => ended
          | .fault _ _ _ _ => ended)
      | _ => ended
  else if pc.toNat % 4 ≠ 0 then .held (raiseGang { s with word := 0 } g fcMisalign 0 0 pc 0)
  else match xlateNow s g.team.core g.grid.asid g.grid.tenant pc .fetch false with
    | (.zero _, s) => .held (stall s g .scoreboard)
    | (.wait, s) => .held (stall s g .scoreboard)
    | (.fault c x lev, s) =>
      if c = fcPageElsewhere ∧ autoFlip s g.grid.tenant then
        .held (stall (flipAsk s g.grid.asid g.grid.tenant pc false) g .scoreboard)
      else .held (raiseGang { s with word := 0 } g c x lev pc 0)
    | (.ok e level, s) => match fetchAt s g.grid g.team.core e level pc with
      | .word w s => .word w s
      | .wait s => .held (stall s g .scoreboard)
      | .fault s c x lev => .held (raiseGang { s with word := 0 } g c x lev pc 0)

/-- A Prefect that waits in its instruction and changes nothing else. -/
def prefHold (s : State) (p : Pref) : State := updTeam s p.team.tid (fun t => { t with pf := { t.pf with st := .scoreboard } })

/-- The fetch of a Prefect. -/
def fetchPref (s : State) (p : Pref) : Fetch :=
  let pc := p.team.pf.pc
  if !prefIssues p.team.pf || saveHolds s p.team.fid (some p.team.pf) then .held s
  else if pc.toNat % 4 ≠ 0 then .held (raisePref { s with word := 0 } p fcMisalign 0 0 pc)
  else match xlateNow s p.team.core p.grid.asid p.grid.tenant pc .fetch false with
    | (.zero _, s) => .held (prefHold s p)
    | (.wait, s) => .held (prefHold s p)
    | (.fault c x lev, s) =>
      if c = fcPageElsewhere ∧ autoFlip s p.grid.tenant then
        .held (prefHold (flipAsk s p.grid.asid p.grid.tenant pc false) p)
      else .held (raisePref { s with word := 0 } p c x lev pc)
    | (.ok e level, s) => match fetchAt s p.grid p.team.core e level pc with
      | .word w s => .word w s
      | .wait s => .held (prefHold s p)
      | .fault s c x lev => .held (raisePref { s with word := 0 } p c x lev pc)

/-- The fetch of the issuer whose turn it is. -/
def fetch (s : State) : Fetch :=
  match s.cur with
  | .gang tid lead => (match theGang s tid lead with | none => .gone | some g => fetchGang s g)
  | .prefect tid => (match thePref s tid with | none => .gone | some p => fetchPref s p)

/-- ILLEGAL for a word that no row of the opcode table matches (R316 step 2); in Gambit the episode ends. -/
def illegalWord (s : State) : State :=
  match s.cur with
  | .gang tid lead => (match theGang s tid lead with
    | none => s
    | some g => if g.ahead then endGambit s tid lead 5 else illegalGang s g)
  | .prefect tid => (match thePref s tid with | none => s | some p => illegalPref s p)

end Sys2Proof.Machine
end

