-- ==== Sys2Proof/Machine/Sched.lean ====
section
/-! DEFINITION. The core schedulers (R229 to R234): ports, ages, the set change, Gambit entry (R196, R197); waits that time
ends (R189, R338); the requests that stop a form (R205, R235, R236, R255). -/

namespace Sys2Proof.Machine

/-! ## Readiness (R230) -/

/-- An outstanding operation waits for a register of a gang's next instruction. -/
def blocks (o : MemOp) (tid : Nat) (sl : List (Nat × Slice)) : Bool :=
  o.tid == tid && !o.pf && o.replayOf.isNone &&
  sl.any (fun p => o.slices.contains p.1 && p.2.waitRegs.any (fun r => match r with
    | .v k => o.dests.contains k | .p _ => false | .x _ => false | .g _ => false))

/-- The entry of a cohort in its port's sets. -/
def entryOf (s : State) (t : Team) (lead : Nat) : Option GangAge :=
  let p := (coreOf s t.core).port (portNum t (lead / 8))
  (p.active ++ p.pending).find? (fun e => e.isGang t.tid lead)

/-- A cohort's next instruction can issue (R230): no fault, wait or stop holds it, no register of it is outstanding, and no
attempt found that its count comes later. Bank conflicts are time, which the model leaves to the schedule. -/
def gangReady (s : State) (t : Team) (lead : Nat) : Bool :=
  let sl := cohortOf t lead
  !sl.isEmpty && !saveHolds s t.fid none && sl.all (fun p => p.2.stop.isNone) &&
  (match entryOf s t lead with | some e => decide (e.notBefore ≤ s.clock.cycle) | none => true) &&
  sl.all (fun p => match p.2.st with
    | .issuable => true | .ahead => true
    | .scoreboard => p.2.waitOp == 0 && !s.memops.any (fun o => blocks o t.tid sl)
    | .regang => false | .barrier => false | .parked => false | .safepoint => false | .swapped => false | .exited => false)

/-- A cohort is held in the pending set (R230). -/
def gangHeld (t : Team) (lead : Nat) : Bool :=
  (cohortOf t lead).any (fun p => match p.2.st with
    | .regang => true | .barrier => true | .parked => true | .safepoint => true | .swapped => true
    | .issuable => false | .scoreboard => false | .ahead => false | .exited => false)

/-- The gangs of a core's port: team and lead. -/
def portGangs (s : State) (core n : Nat) : List (Nat × Nat) :=
  (s.teams.filter (fun t => t.core == core)).flatMap (fun t =>
    ((distinct ((t.slices.filter (fun p => p.2.st != .exited)).map (fun p => p.2.cohort))).filter
      (fun l => portNum t (l / 8) == n)).map (fun l => (t.tid, l)))

/-! ## Predicted latency (R196) -/

/-- A request waits for a lane of an operation. -/
def Ref.isLaneOf (r : Ref) (id : Nat) : Bool :=
  match r with
  | .lane op _ => op == id
  | .none => false | .eng _ => false | .mx _ _ => false | .queue _ _ => false | .pod _ => false | .fetch _ _ => false | .asid _ => false

/-- The predicted latency of a load by the point that will serve it (Table 6.4): 0 until that point is known, and where the
issuing die's L2 or its remote-data cache holds the line. -/
def predicted (s : State) (o : MemOp) : Nat :=
  let pod := s.fab.tags.any (fun t => match t.2.use with | some (.lane id _ _) => id == o.id | _ => false)
  let far := s.fars.any (fun f => f.ref.isLaneOf o.id)
  let point := fun (r : L2Req) =>
    if r.far then (if (l2Find s r.sl r.pa true false (rdcGen s r.die)).isSome then 0 else 4000)
    else if homeDie r.pa ≠ o.cluster / 64 then
      (if r.sl ≠ homeSlice r.pa ∧ ((l2Find s r.sl r.pa false false (rdcGen s r.die)).isSome ∨ (rdcHit s r.die r.pa).isSome) then 0
       else 520)
    else if (l2Find s r.sl r.pa false true 0).isSome then 0 else 460
  let here := ((s.l2q.filter (fun r => r.ref.isLaneOf o.id)).map point).foldl max 0
  max here (if far then 4000 else if pod then 2000 else 0)

/-- A memory operation is a load (R197). -/
def MemOp.isLoad (o : MemOp) : Bool :=
  match o.kind with
  | .load _ _ => true | .lds _ _ => true | .ldt _ => true | .unpk => true
  | .store _ => false | .sts _ => false | .atom _ _ _ => false | .ll _ => false | .sc _ => false | .sttr => false | .stm _ => false

/-- The operation of greatest predicted latency that a cohort in SCOREBOARD waits for. -/
def blockingOp (s : State) (t : Team) (lead : Nat) : Option MemOp :=
  let sl := cohortOf t lead
  if sl.isEmpty || !(sl.all (fun p => p.2.st == .scoreboard && p.2.waitOp == 0)) then none
  else (sortOn (fun o => 4000 - predicted s o) (s.memops.filter (fun o => blocks o t.tid sl))).head?
/-- The blocking load of a cohort (R197). -/
def blockingLoad (s : State) (t : Team) (lead : Nat) : Option MemOp :=
  let sl := cohortOf t lead
  if sl.isEmpty || !(sl.all (fun p => p.2.st == .scoreboard && p.2.waitOp == 0)) then none
  else (sortOn (fun o => 4000 - predicted s o) (s.memops.filter (fun o => o.isLoad && blocks o t.tid sl))).head?

/-- An active gang is stalled: it waits for a memory operation predicted at SWAPLAT cycles or more, or it is in AHEAD
(R231). -/
def gangStalled (s : State) (e : GangAge) : Bool :=
  match findTeam s e.tid with
  | none => false
  | some t =>
    (cohortOf t e.lead).any (fun p => p.2.st == .ahead) ||
    (match blockingOp s t e.lead with
     | some o => decide (bits 11 0 (sysGet s srSchedCtl) ≤ predicted s o)
     | none => false)

/-- The minimal first-hop port of a gang's oldest outstanding pod request carries a stall hint (R170); the answer is that
request's number. -/
def gangHint (s : State) (e : GangAge) : Option Nat :=
  let sl := match findTeam s e.tid with | some t => (cohortOf t e.lead).map Prod.fst | none => []
  let mine := s.fab.tags.filter (fun t => match t.2.use with
    | some (.lane id _ _) => s.memops.any (fun o => o.id == id && o.tid == e.tid && !o.pf && o.slices.any (fun n => sl.contains n))
    | _ => false)
  match sortOn (fun t => t.2.id) mine with
  | [] => none
  | t :: _ =>
    (minPort s t.2.dev t.2.pkt.pa).bind (fun k => if s.fab.hints.contains k then some t.2.id else none)

/-! ## Fusion (R190) -/

/-- Cohorts of a team may issue as one gang: one program counter and MODE, eight slices or fewer in different places, none
in Gambit, parked or waiting otherwise. -/
def partsFit (t : Team) (parts : List Nat) : Bool :=
  let sl := parts.flatMap (cohortOf t)
  let at8 := sl.map (fun p => p.1 % 8)
  parts.all (fun l => !(cohortOf t l).isEmpty) && decide (sl.length ≤ 8) && decide ((distinct at8).length = sl.length) &&
  sl.all (fun p => (p.2.st == .issuable || p.2.st == .scoreboard) && p.2.stop.isNone) &&
  decide ((distinct (sl.map (fun p => p.2.pc))).length ≤ 1) && decide ((distinct (sl.map (fun p => p.2.mode))).length ≤ 1)

/-- The gangs in the active sets of a core's two ports. -/
def activeOf (c : Core) : List GangAge := c.port0.active ++ c.port1.active

/-- A fusion lasts: its parts still fit, and all stand in active sets. -/
def fusionHolds (s : State) (c : Core) (f : Fusion) : Bool :=
  match findTeam s f.tid with
  | none => false
  | some t => partsFit t f.parts && f.parts.all (fun l => (activeOf c).any (fun e => e.isGang f.tid l))

/-- A ready gang joins the first group of its team with which it fits, else it stands alone. -/
def fuseWith (s : State) (fs : List Fusion) (e : GangAge) : List Fusion :=
  match findTeam s e.tid with
  | none => fs
  | some t =>
    match fs.find? (fun f => f.tid == e.tid && f.parts.all (gangReady s t) && partsFit t (f.parts ++ [e.lead])) with
    | none => fs ++ [⟨e.tid, [e.lead]⟩]
    | some f => fs.map (fun x => if x = f then { x with parts := sortOn id (x.parts ++ [e.lead]) } else x)

/-- The fused gangs of a core brought up to date: fusions that no longer hold separate, and ready active gangs fuse, taken
in the order of ties (R190). -/
def fuseSync (s : State) (core : Nat) : State :=
  let c := coreOf s core
  let keep := c.fused.filter (fusionHolds s c)
  let alone := (activeOf c).filter (fun e =>
    !(keep.any (fun f => f.tid == e.tid && f.parts.contains e.lead)) &&
    (match findTeam s e.tid with | some t => gangReady s t e.lead | none => false))
  let fs := (sortOn (tieOf s) alone).foldl (fuseWith s) keep
  updCore s core (fun c => { c with fused := fs.filter (fun f => decide (2 ≤ f.parts.length)) })

/-- The fused gang that a cohort is a part of. -/
def fusionOf (s : State) (core tid lead : Nat) : Option Fusion :=
  (coreOf s core).fused.find? (fun f => f.tid == tid && f.parts.contains lead)

/-- A gang separates from the gangs it is fused with (R190). -/
def separate (s : State) (core tid lead : Nat) : State :=
  updCore s core (fun c => { c with fused := c.fused.filter (fun f => !(f.tid == tid && f.parts.contains lead)) })

/-- A set entry is ready to issue (R190, R230): its cohort is, and every part of a fused gang that it leads; a part that
another leads issues nothing by itself. -/
def entryReady (s : State) (e : GangAge) : Bool :=
  match findTeam s e.tid with
  | none => false
  | some t => gangReady s t e.lead &&
    (match fusionOf s t.core e.tid e.lead with
     | none => true
     | some f => f.parts.head? == some e.lead && f.parts.all (gangReady s t))

/-! ## Ports and ages (R230, R233) -/

/-- A port's sets brought up to date: cohorts that are gone leave, new ones are pending, and so are gangs that wait
(R188, R230). A pending gang is not ready while a hint holds it (R231). -/
def portSync (s : State) (core n : Nat) : State :=
  let gs := portGangs s core n
  let now := s.clock.cycle
  let held := fun (e : GangAge) => match findTeam s e.tid with | some t => gangHeld t e.lead | none => true
  let ready := fun (e : GangAge) => (match findTeam s e.tid with | some t => gangReady s t e.lead | none => false) && (gangHint s e).isNone
  updCore s core (fun c =>
    let p := c.port n
    let live := fun (e : GangAge) => gs.contains (e.tid, e.lead)
    let act := p.active.filter live
    let pend := p.pending.filter live
    let new := (gs.filter (fun g => !((act ++ pend).any (fun e => (e.tid, e.lead) == g)))).map (fun g =>
      ({ tid := g.1, lead := g.2, age := 0, since := now } : GangAge))
    let pend := pend ++ new ++ (act.filter held).map (fun e => { e with since := now })
    c.withPort n { p with active := (act.filter (fun e => !held e)).map (fun e => if gangStalled s e then e else { e with stalled := now })
                          pending := pend.map (fun e => if ready e then e else { e with since := now })
                          taken := p.taken.filter (fun x => decide (now ≤ x.2)) })

/-- Time passes at a port: the age of each gang grows by the cycles in which it was ready and not issued (R230). -/
def portAge (s : State) (core n dt : Nat) : State :=
  let now := s.clock.cycle
  let grow := fun (e : GangAge) =>
    let k := min dt (now - e.notBefore) - (if 0 < dt ∧ e.issued + dt = now + 1 then 1 else 0)
    if entryReady s e then { e with age := min (e.age + k) 0xFFFF } else e
  updCore s core (fun c =>
    let p := c.port n
    c.withPort n { p with active := p.active.map grow, pending := p.pending.map grow })

/-- A Prefect can issue. -/
def prefReady (s : State) (tid : Nat) : Bool :=
  match findTeam s tid with
  | some t => prefIssues t.pf && t.pf.st == .issuable && !saveHolds s t.fid (some t.pf)
  | none => false

/-- Cycles pass for the schedulers of every core that has teams (R190, R230, R233). -/
def schedTick (s : State) (dt : Nat) : State :=
  (distinct (s.teams.map Team.core)).foldl (fun s core =>
    let s := fuseSync (portSync (portSync s core 0) core 1) core
    let s := portAge (portAge s core 0 dt) core 1 dt
    updCore s core (fun c => { c with pfAge := c.pfAge.map (fun p =>
      if prefReady s p.1 then
        (p.1, min (p.2 + (dt - (if 0 < dt ∧ c.pfIssued = (s.clock.cycle + 1 - dt, p.1) then 1 else 0))) 0xFFFF)
      else p) })) s

/-- An issuer has issued in this cycle: its age counter is 0, its port or scalar path is used, and a slice's first
instruction starts its counts (R230, R233, R293). -/
def schedIssued (s : State) (who : Issuer) : State :=
  let now := s.clock.cycle
  match who with
  | .gang tid lead => (match findTeam s tid with
    | none => s
    | some t =>
      let n := portNum t (lead / 8)
      let zero := fun (e : GangAge) => if e.isGang tid lead then { e with age := 0, issued := now + 1 } else e
      let s := updCore s t.core (fun c =>
        let p := c.port n
        c.withPort n { p with active := p.active.map zero, pending := p.pending.map zero, issued := now + 1 })
      updTeam s tid (fun t => { t with slices := t.slices.map (fun p =>
        if p.2.cohort / 8 = lead / 8 ∧ p.2.first.isNone ∧ 1 < p.2.count then (p.1, { p.2 with first := some (now, p.2.count) }) else p) }))
  | .prefect tid => (match findTeam s tid with
    | none => s
    | some t => updCore s t.core (fun c =>
        { c with pfAge := c.pfAge.map (fun p => if p.1 = tid then (tid, 0) else p), pfIssued := (now + 1, tid) }))

/-- The gang that a port issues: the ready active one of largest age (R230). -/
def portPick (s : State) (core n : Nat) : Option GangAge :=
  let l := ((coreOf s core).port n).active.filter (entryReady s)
  (sortOn (fun e => 0xFFFF - e.age) (sortOn (tieOf s) l)).head?
/-- The Prefect that a core issues (R233). -/
def prefPick (s : State) (core : Nat) : Option Nat :=
  let l := (coreOf s core).pfAge.filter (fun p => prefReady s p.1)
  let slot := fun (p : Nat × Nat) => match findTeam s p.1 with | some t => t.slot | none => 8
  ((sortOn (fun p => 0xFFFF - p.2) (sortOn slot l)).head?).map Prod.fst

/-! ## The set change (R231) -/

/-- An episode of a gang ends by the scheduler's choice (R201, R231). -/
def endAhead (s : State) (e : GangAge) : State :=
  match findTeam s e.tid with
  | none => s
  | some t => if (cohortOf t e.lead).any (fun p => p.2.st == .ahead) then endGambit s e.tid e.lead 6 else s

/-- A gang enters a port's active set, a gang leaves it, or both; a gang that leaves separates (R190). -/
def setMove (s : State) (core n : Nat) (i o : Option GangAge) : State :=
  let now := s.clock.cycle
  let gone := fun (x : Option GangAge) (e : GangAge) => match x with | some y => y.isGang e.tid e.lead | none => false
  let s := match o with | some x => separate s core x.tid x.lead | none => s
  updCore s core (fun c =>
    let p := c.port n
    c.withPort n { p with
      active := p.active.filter (fun e => !gone o e) ++ (match i with | some x => [{ x with since := now, stalled := now }] | none => [])
      pending := p.pending.filter (fun e => !gone i e) ++ (match o with | some x => [{ x with since := now }] | none => []) })

/-- A port's set change: the first of forced entry, fill, swap and hint that applies (R231). None is made where the gang
that a forced entry would choose has yielded in this cycle (R238). -/
def setChoice (s : State) (core n : Nat) : State :=
  let now := s.clock.cycle
  let p := (coreOf s core).port n
  let ready := fun (e : GangAge) => match findTeam s e.tid with
    | some t => gangReady s t e.lead && (gangHint s e).isNone | none => false
  let waiting := longestIn s (p.pending.filter ready)
  let forced := match waiting with
    | some e => decide (e.since + bits 27 16 (sysGet s srSchedCtl) ≤ now)
    | none => false
  if forced then
    if p.yielded = now + 1 then s
    else match (if p.active.length < 8 then none else longestIn s p.active) with
    | none => setMove s core n waiting none
    | some o => setMove (endAhead s o) core n waiting (some o)
  else if p.active.length < 8 && waiting.isSome then setMove s core n waiting none
  else match (if waiting.isSome then (sortOn GangAge.stalled (sortOn (tieOf s) (p.active.filter (gangStalled s)))).head? else none) with
    | some o => setMove (endAhead s o) core n waiting (some o)
    | none => match (sortOn (fun e => (gangHint s e).getD 0) (sortOn (tieOf s) (p.active.filter (fun e => (gangHint s e).isSome)))).head? with
      | some o => setMove s core n none (some o)
      | none => s

/-- The set change of a port in this cycle: at most one is made (R231). -/
def setChange (s : State) (core n : Nat) : State :=
  let s := portSync s core n
  let now := s.clock.cycle
  if ((coreOf s core).port n).changed = now + 1 then s
  else
    let t := setChoice s core n
    if t = s then s else updCore t core (fun c => c.withPort n { c.port n with changed := now + 1 })

/-- FORCED_ENTRY (R231): the set change of port arg.b of core arg.a, of which forced entry is the first case. -/
def execForcedEntry (s : State) : Out := .next (setChange s s.arg.a (s.arg.b % 2))

/-! ## Gambit (R197, R201) -/

/-- The registers that operations outstanding for a cohort will write, slice by slice, with their lanes: those of loads, or
of every operation with destinations. -/
def loadDests (s : State) (t : Team) (ns : List Nat) (loads : Bool) : List (Nat × Nat × List Nat) :=
  (s.memops.filter (fun o => o.tid == t.tid && !o.pf && o.replayOf.isNone && !o.dests.isEmpty && (!loads || o.isLoad))).flatMap (fun o =>
    (o.slices.filter (fun n => ns.contains n)).flatMap (fun n => o.dests.map (fun r =>
      (n, r, (o.lanes.filter (fun l => o.sliceOf l.gl == n)).map (fun l => l.gl % 4)))))

/-- The entry test of a cohort: its blocking load and the bytes that the saves take at entry (R197). -/
def gambitTest (s : State) (t : Team) (g : Grid) (lead : Nat) : Option (MemOp × Nat) :=
  let sl := cohortOf t lead
  let ns := sl.map Prod.fst
  let ctl := tsysGet s g.tenant srGambitCtl
  let n := portNum t (lead / 8)
  let p := (coreOf s t.core).port n
  let slots := ((s.teams.filter (fun x => x.core == t.core)).map (fun x => x.gambit.length)).foldl (· + ·) 0
  let asked := match findForm s t.fid with | some f => f.stopReq.isSome | none => false
  let pendingReady := p.pending.any (fun e => match findTeam s e.tid with | some t => gangReady s t e.lead | none => false)
  match blockingLoad s t lead with
  | none => none
  | some o =>
    let regs := distinct ((loadDests s t ns true).map (fun d => (d.1, d.2.1)))
    let saves := (regs.map (fun d => match t.slice d.1 with
      | some x => if x.uni.getLsbD d.2 then 4 else 16 | none => 16)).foldl (· + ·) (224 * sl.length)
    if bit 16 ctl && decide (bits 15 0 ctl < predicted s o) && !pendingReady && decide (slots < 4) && !asked &&
        p.active.any (fun e => e.tid == t.tid && e.lead == lead) &&
        sl.all (fun p => p.2.stop.isNone) && (gangEntries s t ns).isEmpty && decide (saves ≤ 16384) then some (o, saves)
    else none

/-- A cohort enters Gambit (R197): a fused gang separates, its slices are kept, and the destinations of its outstanding
loads are INV; so is the destination of an outstanding ATOM, LL or SC, whose result nothing in the episode may see
(DEDUCED, log entry 102). -/
def enterGambit (s : State) (t : Team) (lead : Nat) (o : MemOp) (used : Nat) : State :=
  let sl := cohortOf t lead
  let ns := sl.map Prod.fst
  let ds := loadDests s t ns false
  let s := separate s t.core t.tid lead
  let e : GambitEp := { lead, snap := sl, blockOp := o.id, used, saved := distinct ((loadDests s t ns true).map (fun d => (d.1, d.2.1))), issued := 0 }
  let mark := fun (n : Nat) (x : Slice) =>
    (ds.filter (fun d => d.1 == n)).foldl (fun x d => d.2.2.foldl (fun x l => setInv x (.v d.2.1) l true) x) x
  let s := updTeam s t.tid (fun t => { t.mapSlices ns (fun n x => mark n { x with st := .ahead }) with gambit := t.gambit ++ [e] })
  updCore s t.core (fun c => { c with gcnt := cntUp c.gcnt 48 })

/-- GAMBIT_ENTRY (R197, R232): the gang arg.who enters Gambit where the entry test holds after the cycle's set change of its
port. -/
def execGambitEntry (s : State) : Out :=
  .next (match s.arg.who with
    | .prefect _ => s
    | .gang tid lead =>
      let s := match findTeam s tid with | none => s | some t => setChange s t.core (portNum t (lead / 8))
      match theGang s tid lead with
      | none => s
      | some g => match gambitTest s g.team g.grid lead with
        | none => s
        | some (o, used) => enterGambit s g.team lead o used)

/-- GAMBIT_INSTRUCTION_LIMIT (R201): the episode of gang arg.who has issued its 2048th instruction. -/
def execGambitInstructionLimit (s : State) : Out :=
  .next (match s.arg.who with
    | .prefect _ => s
    | .gang tid lead => match findTeam s tid with
      | none => s
      | some t => if gambitFull t lead then endGambit s tid lead 2 else s)

/-! ## Waits that time ends -/

/-- The home gang of a team whose REGANG episode has reached its limit (R189). -/
def regangLate (s : State) (t : Team) : Option (Nat × Episode) :=
  t.episodes.find? (fun p => !p.2.waiting.isEmpty && decide (p.2.opened + p.2.limit ≤ s.clock.cycle))

/-- REGANG_TIMEOUT (R189): the waiting slices of the first such episode leave as one cohort; those still missing are not
passed. -/
def execRegangTimeout (s : State) : Out :=
  .next (match s.teams.findSome? (fun t => (regangLate s t).map (fun e => (t, e))) with
    | none => s
    | some (t, k, e) =>
      updTeam s t.tid (fun t => regangExpire t k e))

/-- TIME_TARGET_REACHED (R338, R353): the issuer arg.who waits in a WTIME or SWTIME, which compares again. -/
def execTimeTargetReached (s : State) : Out :=
  match fetch { s with cur := s.arg.who } with
  | .gone => .next s
  | .held _ => .next s
  | .word w t => match decodeWord w with
    | some (.wtime g) => execWtime g t
    | some (.swtime a) => execSwtime a t
    | _ => .next s

/-! ## Requests that stop a form (R205, R235, R236, R255) -/

/-- A stop is requested of a form: a gang in Gambit ends its episode. A second request joins the first (R205, R238). -/
def requestStop (s : State) (fid : Nat) (preempt : Bool) (launch : Nat) : State :=
  let s := (s.teams.filter (fun t => t.fid == fid)).foldl (fun s t =>
    t.gambit.foldl (fun s e => endGambit s t.tid e.lead 4) s) s
  updForm s fid (fun f => { f with stopReq := some (match f.stopReq with
    | none => { preempt, since := nsOf s, by_ := launch }
    | some r => { r with preempt := r.preempt || preempt, by_ := if preempt then launch else r.by_ }) })

/-- The quantum of a grid in ns (Table 7.6). -/
def Grid.quantum (g : Grid) : Nat := (if natAt g.record 66 2 = 0 then 20 else natAt g.record 66 2) * 100000

/-- QUANTUM_EXPIRY (R235): form arg.a, or with 0 the first resident form of a class ALL grid whose residence has reached the
quantum while forms of the grid wait. -/
def execQuantumExpiry (s : State) : Out :=
  .next (match s.forms.find? (fun f => (s.arg.a == 0 || f.fid == s.arg.a) && f.resident s && f.stopReq.isNone &&
      (match findGrid s f.gid with
       | some g => g.flag 3 && (g.waiting || !g.returns.isEmpty) && decide (f.placedAt + g.quantum ≤ nsOf s)
       | none => false)) with
    | none => s
    | some f => requestStop s f.fid false 0)

/-- Units that the images of a form take in the pool (R228). -/
def formPool (g : Grid) (f : Form) : Nat := g.formUnits f.cores.length

/-- The forms that a waiting launch may pre-empt (R236): of a lower priority, with room in the pool for their images, and
such that the launch's next form passes on their cluster without them. -/
def victims (s : State) (g : Grid) : List (Form × Grid) :=
  (s.forms.filterMap (fun f => (findGrid s f.gid).map (fun h => (f, h)))).filter (fun p =>
    p.1.resident s && decide (p.2.prio < g.prio) && (match p.1.stopReq with | some r => !r.preempt | none => true) &&
    (p.2.flag 3 || poolRoom s p.2.tenant (formPool p.2 p.1)) &&
    ((if g.formSize = 1 then [some 0, some 1, some 2, some 3] else [none]).any (fun only =>
      (clusterCheck s g p.1.cluster (g.formTeams g.nextForm) only (some p.1.fid)).isSome)))

/-- The victim of a launch: the lowest priority, then the most recently placed. -/
def victimOf (s : State) (g : Grid) : Option (Form × Grid) :=
  let top := (s.forms.map Form.placedAt).foldl max 0
  (sortOn (fun p => p.2.prio) (sortOn (fun p => top - p.1.placedAt) (victims s g))).head?

/-- PRIORITY_PREEMPTION (R236): the highest-ranked launch whose next form has waited PWAIT microseconds, has none of its
pre-emptions in progress, and finds a victim. -/
def execPriorityPreemption (s : State) : Out :=
  let pw := bits 51 40 (sysGet s srSchedCtl)
  let due := fun (g : Grid) => pw != 0 && decide (g.waitSince + pw * 1000 ≤ nsOf s) &&
    (findPlace s ((ranked s).takeWhile (fun h => h.gid != g.gid)) g).isNone &&
    !(s.forms.any (fun f => !f.out && (match f.stopReq with | some r => r.preempt && r.by_ == g.gid | none => false)))
  .next (match (ranked s).findSome? (fun g => if due g then (victimOf s g).map (fun v => (g, v)) else none) with
    | none => s
    | some (g, f, h) =>
      let s := if h.flag 3 then s else poolTake s h.tenant f.fid (formPool h f)
      requestStop s f.fid true g.gid)

/-- A slice has stopped for a save (R205). -/
def sliceStopped (sl : Slice) : Bool :=
  match sl.st with
  | .safepoint => true | .regang => true | .barrier => true | .parked => true | .exited => true | .swapped => true
  | .issuable => false | .scoreboard => false | .ahead => false
/-- A Prefect's store is in flight, which no save waits for: its acknowledgement is held for the team (R158). -/
def prefStoring (s : State) (t : Team) : Bool := s.memops.any (fun o => o.tid == t.tid && o.pf && o.dests.isEmpty)
/-- A Prefect stands at an instruction boundary, or waits in an instruction that executes again, or only for the
acknowledgement of a store. -/
def prefStopped (s : State) (t : Team) : Bool :=
  match t.pf.st with
  | .issuable => true | .barrier => true | .exited => true
  | .scoreboard => prefStoring s t
  | .ahead => false | .parked => false | .regang => false | .safepoint => false | .swapped => false
/-- The soft phase of a form is over (R255). -/
def softStopped (s : State) (fid : Nat) : Bool :=
  (formTeams s fid).all (fun t => prefStopped s t && t.slices.all (fun p => sliceStopped p.2))

/-- The hard phase for a team (R255): a gang in Gambit restores first, every slice that has not stopped stops with n = N, and
the team's reservations are cleared. A Prefect that waits in an instruction executes it again, but not a SRAMCFG, which first
retires (R52). -/
def hardStop (s : State) (t : Team) : State :=
  let s := t.gambit.foldl (fun s e => endGambit s t.tid e.lead 4) s
  let s := dropTeamRes s [t]
  let mem := s.memops.any (fun o => o.tid == t.tid && o.pf) || (cfgWaits s (clusterOfCore t.core)).any (fun c => c.tid == t.tid)
  updTeam s t.tid (fun t =>
    let t := if t.pf.st = .scoreboard ∧ !mem then { t with pf := { t.pf with st := .issuable, waitOp := 0 } } else t
    t.mapSlices (t.slices.map Prod.fst) (fun _ sl =>
    if sliceStopped sl then sl
    else if sl.stop.isSome then { sl with live := t.nregs }
    else { sl with st := .safepoint, live := t.nregs, waitOp := 0, pend := [] }))

/-- HARD_PREEMPTION (R255): form arg.a, or with 0 the first form whose request is BUDGET microseconds old and that has a slice
or Prefect that has not stopped. -/
def execHardPreemption (s : State) : Out :=
  .next (match s.forms.find? (fun f => (s.arg.a == 0 || f.fid == s.arg.a) && f.resident s &&
      (match f.stopReq, findGrid s f.gid with
       | some r, some g => !r.drain && !softStopped s f.fid &&
           decide (r.since + bits 31 16 (tsysGet s g.tenant srPreemptCtl) * 1000 ≤ nsOf s)
       | _, _ => false)) with
    | none => s
    | some f =>
      let s := (formTeams s f.fid).foldl hardStop s
      updForm s f.fid (fun f => { f with stopReq := f.stopReq.map (fun r => { r with hard := true, drain := true }) }))

end Sys2Proof.Machine
end

