-- ==== Sys2Proof/Machine/Context.lean ====
section
/-! DEFINITION. Saving and restoring a form (R235, R236, R254 to R260, R400, R466): the team image of Table 8.8,
CONTEXT_SAVE and TEAM_RESTORE. -/

namespace Sys2Proof.Machine

/-! ## The team image -/

/-- A slice state's number in the order of Table 6.9, and back. -/
def SliceSt.code : SliceSt → Nat
  | .issuable => 0 | .scoreboard => 1 | .ahead => 2 | .regang => 3 | .barrier => 4 | .parked => 5 | .safepoint => 6
  | .swapped => 7 | .exited => 8
def SliceSt.ofCode (n : Nat) : SliceSt :=
  [.issuable, .scoreboard, .ahead, .regang, .barrier, .parked, .safepoint, .swapped, .exited].getD n .issuable

/-- n undefined bytes. -/
def freeBytes (s : State) (n : Nat) : List Byte × State :=
  ((List.range n).map (fun i => Config.freeByte (s.fresh + i)), { s with fresh := s.fresh + n })

/-- SYS.SPAD_WIN of a form (Table 8.10). -/
def spadWin (f : Form) : W64 :=
  BitVec.ofNat 64 (f.winLen / 4096 * 2 ^ 56 + f.bases.getD 3 0 * 2 ^ 24 + f.bases.getD 2 0 * 2 ^ 16 + f.bases.getD 1 0 * 2 ^ 8 +
    f.bases.getD 0 0)

/-- A number that is 2^n where b holds. -/
def flagAt (b : Bool) (n : Nat) : Nat := if b then 2 ^ n else 0

/-- A log entry (Table 8.4). What the table gives no value, such as the addresses of lanes that did not fault, is
undefined. -/
def entryBytes (s : State) (e : OpEntry) : List Byte × State :=
  let o := e.op
  let (b, s) := freeBytes s 1344
  let stm := match o.kind with | .stm _ => true | _ => false
  let d := (match o.dests with | [] => 0 | r :: _ => r % 128) + flagAt (o.dests.length == 2) 7
  let head := bytesLE 4 o.word.toNat ++ bytesLE 1 e.code ++ bytesLE 1 e.cause ++ bytesLE 1 e.level ++ bytesLE 1 e.st ++
    bytesLE 8 o.pc.toNat ++ bytesLE 8 o.mode.toNat ++ bytesLE 4 e.seq ++ bytesLE 4 e.ptGen ++ bytesLE 2 o.asid ++
    bytesLE 1 e.action ++ bytesLE 1 (sliceMask o.slices) ++ bytesLE 1 o.gang ++
    bytesLE 1 (flagAt (o.kind == .sttr) 0 + flagAt e.notReplay 1 + flagAt stm 2) ++ bytesLE 2 d ++
    bytesLE 4 (laneMask o.lanes) ++ bytesLE 4 o.act ++ bytesLE 16 0
  let b := o.lanes.foldl (fun b l =>
    let b := if stm then spliceAt b (320 + 8 * l.gl) (bytesLE 8 l.va.toNat) else spliceAt b (64 + 8 * l.gl) (bytesLE 8 l.va.toNat)
    let b := if o.kind == .sttr then spliceAt b (320 + 8 * l.gl) (bytesLE 8 l.va2.toNat) else b
    spliceAt b (576 + 24 * l.gl) (bytesLE 24 (natLE l.regs))) b
  (spliceAt b 0 head, s)

/-- A saved reservation image (Table 15.12). -/
def resvBytes (r : Resv) : List Byte :=
  let done := match r.instr with | .slchunk _ _ _ => owTokens r.sb - r.units | _ => 0
  bytesLE 4 r.word.toNat ++ bytesLE 1 done ++ bytesLE 1 (if r.exact then 1 else 0) ++ bytesLE 2 0 ++ bytesLE 8 r.sa.toNat ++
    bytesLE 8 r.sb.toNat ++ bytesLE 8 r.pc.toNat

/-- Registers of a slice that its image holds: those live at its safe point, else all (R204, R205). -/
def savedRegs (t : Team) (sl : Slice) : Nat := if sl.st = .safepoint then sl.live else t.nregs

/-- The registers of a slice in the vector section. -/
def sliceVec (t : Team) (sl : Slice) : List Byte :=
  (List.range (savedRegs t sl)).flatMap (fun r =>
    if sl.uni.getLsbD r then bytesLE 4 (rdV sl r 0).toNat else (List.range 4).flatMap (fun l => bytesLE 4 (rdV sl r l).toNat))

/-- A slice record (Table 8.9); `w` is the wait operand of a BARRIER state, which no rule gives a value. -/
def sliceRecord (now : Nat) (t : Team) (n off : Nat) (sl : Slice) (w : W32) : List Byte :=
  let e := tfind (n / 8) t.episodes
  let waits := match e with | some e => e.waiting.contains n | none => false
  let passed := match e with | some e => e.passed.contains n | none => false
  let rest := match e with | some e => if waits then e.opened + e.limit - now else 0 | none => 0
  bytesLE 8 sl.pc.toNat ++ bytesLE 8 sl.mode.toNat ++
    bytesLE 4 (sl.lm.toNat + 16 * sl.st.code + 2 ^ 8 * savedRegs t sl + flagAt (waits || passed) 16 + flagAt passed 17) ++
    bytesLE 4 (if sl.st = .barrier then w.toNat else 0) ++ (List.range 16).flatMap (fun k => bytesLE 8 (rdG sl k).toNat) ++
    bytesLE 4 sl.p.toNat ++ bytesLE 4 rest ++
    (List.range 4).flatMap (fun k => (List.range 4).flatMap (fun l => bytesLE 4 (rdX sl k l).toNat)) ++
    bytesLE 16 sl.uni.toNat ++ bytesLE 4 off ++ bytesLE 12 0

/-- The Prefect's section; its state word is given no layout. -/
def prefBytes (p : Prefect) (f : Form) (w : W64) : List Byte :=
  bytesLE 8 p.pc.toNat ++ bytesLE 8 w.toNat ++ (List.range 64).flatMap (fun k => bytesLE 8 (rdS p k).toNat) ++
    bytesLE 8 (spadWin f).toNat ++ bytesLE 40 0

/-- The decision queue's section, the entry of count c at index c modulo 64. -/
def dqBytes (t : Team) : List Byte :=
  let at_ := fun (i : Nat) => ((List.range t.dq.length).find? (fun k => (t.dqHead + k) % 64 == i)).elim 0#64 (fun k => t.dq.getD k 0)
  (List.range 64).flatMap (fun i => bytesLE 8 (at_ i).toNat) ++ bytesLE 8 t.dqHead ++ bytesLE 8 (t.dqHead + t.dq.length) ++
    (List.range 64).flatMap (fun n => bytesLE 1 (match t.slice n with
      | some sl => if sl.st = .exited then 255 else sl.dqPos - t.dqHead
      | none => 0)) ++ bytesLE 48 0

/-- The TAGS section: the bits of its core attributed to a team, and their mask (R259). -/
def tagBytes (c : Core) (tid : Nat) : List Byte :=
  let m := (c.tagTeam.filter (fun p => p.2 == tid)).foldl (fun m p => m ||| BitVec.ofNat 64 (2 ^ p.1)) (0 : W64)
  bytesLE 8 (c.tags &&& m).toNat ++ bytesLE 8 m.toNat ++ bytesLE 48 0

/-- The sections of some vectors of bytes one after the other, with the offset of each. -/
def offsets : Nat → List (List Byte) → List Nat
  | _, [] => []
  | o, b :: r => o :: offsets (o + b.length) r

/-- A team's image, yet without its length and CRC (Table 8.8). `accs` are the accumulators by name, `fifo` the FIFO
section. -/
def imageBytes (s : State) (f : Form) (t : Team) (logs : List OpEntry) (rs : List Resv) (accs : List (Nat × Tbl W32))
    (fifo : List Byte) (hard : Bool) : List Byte × State :=
  let g := findGrid s t.gid
  let (w1, s) := drawWord s
  let (w2, s) := drawWord s
  let (w3, s) := drawWord s
  let sl := sortOn Prod.fst t.slices
  let vecs := sl.map (fun p => sliceVec t p.2)
  let vec := padTo 64 vecs.flatten
  let recs := ((sl.zip (offsets 0 vecs)).map (fun q => sliceRecord s.clock.cycle t q.1.1 q.2 q.1.2 w3)).flatten
  let (log, s) := logs.foldl (fun (q : List Byte × State) e => let (b, s) := entryBytes q.2 e; (q.1 ++ b, s)) ([], s)
  let acc := accs.flatMap (fun a => bytesLE 1 a.1 ++ bytesLE 63 0 ++
    (List.range 128).flatMap (fun i => (List.range 128).flatMap (fun j => bytesLE 4 (slotWord a.2 i j).toNat)))
  let sram := spadRead s f (t.rank * f.winLen) f.winLen
  let vo := 1600 + 256 * t.nslices
  let lo := vo + vec.length
  let ao := lo + log.length
  let so := ao + acc.length
  let parked := t.slices.any (fun p => p.2.st == .parked)
  let head := bytesLE 4 0xC07EA701 ++ bytesLE 2 1 ++ bytesLE 1 (flagAt hard 0 + flagAt parked 1 + flagAt (!fifo.isEmpty) 2) ++
    bytesLE 1 t.rank ++ bytesLE 8 t.teamId.toNat ++ bytesLE 4 t.nslices ++ bytesLE 1 t.nregs ++ bytesLE 1 logs.length ++
    bytesLE 1 accs.length ++ bytesLE 1 rs.length ++ bytesLE 4 f.winLen ++
    bytesLE 4 (tsysGet s ((g.map Grid.tenant).getD 0) srPtGen).toNat ++ bytesLE 4 vo ++ bytesLE 4 lo ++ bytesLE 4 ao ++
    bytesLE 4 so ++ bytesLE 8 (nsOf s) ++ bytesLE 8 0
  let b := head ++ prefBytes t.pf f (w1 ++ w2) ++ dqBytes t ++ tagBytes (coreOf s t.core) t.tid ++
    (let r := (rs.take 8).flatMap resvBytes; r ++ bytesLE (256 - r.length) 0) ++ recs ++ vec ++ log ++ acc ++ padTo 64 sram ++ fifo
  (b, s)

/-- The FIFO section of an exclusively held cluster (R400). -/
def fifoBytes (s : State) (cl : Nat) : List Byte :=
  let words := fun (g : Nat) =>
    let n := (tget ({} : Fifo) g (clusterOf s cl).fifos).count
    (fifoPop (clusterOf s cl) (fifoBanks s cl g) g n).1
  (List.range 4).flatMap (fun g => bytesLE 8 (segModes s cl g).toNat) ++
    (List.range 4).flatMap (fun g => bytesLE 4 (words g).length) ++ bytesLE 16 0 ++
    (List.range 4).flatMap (fun g => padTo 64 ((words g).flatMap (fun w => bytesLE 4 w.toNat)))

/-! ## CONTEXT_SAVE -/

/-- A team of the form that has completed, as its image shows it: it keeps its window, and rank 0 the accumulators. -/
def ghostTeam (g : Grid) (f : Form) (rank : Nat) : Team :=
  { tid := 0, gid := g.gid, fid := f.fid, rank, core := f.cores.getD rank 0, slot := 0, nslices := g.slices, nregs := g.regs,
    teamId := teamIdOf (g.formSize * f.idx + rank) f.idx rank (f.cores.getD rank 0),
    slices := (List.range g.slices).map (fun n => (n, { st := .exited, live := 0 })), pf := { st := .exited } }

/-- What a save waits for has ended for a team (R52, R255): its Prefect's SRAMCFG, loads, replays, its granted matrix unit.
Writes, RED and SC in flight are not awaited (R158). -/
def teamDrained (s : State) (t : Team) : Bool :=
  !((cfgWaits s (clusterOfCore t.core)).any (fun c => c.tid == t.tid)) &&
  !(s.memops.any (fun o => o.tid == t.tid && (o.replayOf.isSome ||
    (!o.dests.isEmpty && (match o.kind with | .sc _ => false | _ => true))))) &&
  !((coreOf s t.core).log.any (fun e => e.op.tid == t.tid && e.st == 2)) &&
  (let m := mxOf s (clusterOfCore t.core)
   !(m.resv.any (fun r => r.tid == t.tid && r.busy)) && !(m.io.any (fun x => x.tid == t.tid && x.stop.isNone)))

/-- The form has drained; its engine operations that touch its scratchpad rest between units. -/
def formDrained (s : State) (f : Form) : Bool :=
  (formTeams s f.fid).all (teamDrained s) && !(s.ops.any (fun o => o.fid == f.fid && o.inSpad && o.midUnit))

/-- A form is saved (R235, R256, R257): its slices are SWAPPED (R209), its images are written, its names' slots and its reservation freed, its entries
taken from the log and the reservation table, and its teams leave. -/
def saveForm (s : State) (g : Grid) (f : Form) : State :=
  let cl := f.cluster
  let teams := formTeams s f.fid
  let tids := teams.map Team.tid
  let rq := (mxOf s cl).resv.filter (fun r => r.fid == f.fid)
  let fifo := if f.excl then fifoBytes s cl else []
  let hard := match f.stopReq with | some r => r.hard | none => false
  let pre := match f.stopReq with | some r => r.preempt | none => false
  let accs := f.names.map (fun p => (p.1, slotOf s cl p.2))
  let ranks := List.range f.cores.length
  let s := ranks.foldl (fun s r =>
    let t := (teams.find? (fun t => t.rank == r)).getD (ghostTeam g f r)
    let logs := (coreOf s t.core).log.filter (fun e => e.op.tid == t.tid && e.slot.isSome)
    let (b, s) := imageBytes s f t logs (rq.filter (fun x => x.core == t.core)) (if r = 0 then accs else []) (if r = 0 then fifo else []) hard
    poolWrite s (imageHome s g f r) (sealBytes b)) s
  let cores := distinct (teams.map Team.core)
  let out := cores.flatMap (fun c => (coreOf s c).log.filter (fun e => tids.contains e.op.tid))
  let keep := fun (t : Team) => { t.mapSlices (t.slices.map Prod.fst) (fun _ sl =>
      if sl.st = .exited then sl else { sl with st := .swapped }) with
    gambit := [], episodes := t.episodes.map (fun p =>
      (p.1, { p.2 with limit := p.2.opened + p.2.limit - s.clock.cycle, opened := 0 })) }
  let s := updForm { s with outLog := s.outLog ++ out } f.fid (fun x => { x with
    out := true, images := ranks.map (fun r => (r, imageHome s g f r)), owedSlots := f.reserved.length, reserved := [],
    savedTeams := teams.map keep, savedResvs := rq })
  let s := f.names.foldl (fun s p => setOwn s cl p.2 {}) s
  let s := updMx s cl (fun m => { m with resv := m.resv.filter (fun r => r.fid != f.fid) })
  let s := teams.foldl (fun s t => updCore s t.core (fun c => { c with
    log := c.log.filter (fun e => e.op.tid != t.tid), tagTeam := c.tagTeam.filter (fun p => p.2 != t.tid) })) s
  let s := cores.foldl (fun s c => admitLog 32 s c) (teams.foldl removeTeam s)
  updGrid s g.gid (fun x => { x with
    returns := x.returns ++ [f.fid], swapRoom := if pre then x.swapRoom else x.swapRoom ++ [cl] })

/-- CONTEXT_SAVE (R205, R255, R256): form arg.a, or with 0 the first that can go on: once every slice and Prefect has stopped
the drain begins, and once it has ended the form is saved. -/
def execContextSave (s : State) : Out :=
  let due := fun (f : Form) => f.resident s && (match f.stopReq with
    | some r => if r.drain then formDrained s f else softStopped s f.fid
    | none => false)
  .next (match s.forms.find? (fun f => (s.arg.a == 0 || f.fid == s.arg.a) && due f) with
    | none => s
    | some f =>
      if (match f.stopReq with | some r => r.drain | none => false) then
        match findGrid s f.gid with
        | some g => saveForm s g f
        | none => s
      else updForm s f.fid (fun f => { f with stopReq := f.stopReq.map (fun r => { r with drain := true }) }))

/-! ## Whether a form can return -/

/-- A core can take a team again: team slot, slices and registers (Table 7.9). -/
def coreFits (s : State) (t : Team) : Bool :=
  let ts := coreTeams s t.core none
  decide (ts.length < 8) && decide ((ts.map Team.nslices).foldl (· + ·) 0 + t.nslices ≤ 128) &&
  decide ((ts.map (fun x => 4 * x.nslices * x.nregs)).foldl (· + ·) 0 + 4 * t.nslices * t.nregs ≤ 65536)

/-- The windows of a form are free at their old bases. -/
def windowsFree (s : State) (f : Form) : Bool :=
  (f.cores.zip f.bases).all (fun p =>
    (f.excl || decide (p.2 * 4096 + f.winLen ≤ 8192 * (banksIn (segModes s f.cluster (p.1 % 4)) 1).length)) &&
    (coreWindows s p.1 none).all (fun u => !overlaps (p.2 * 4096) f.winLen u.1 u.2))

/-- A core's log can take a returning team's k entries (R245, R256). -/
def logFits (s : State) (core k : Nat) : Bool :=
  let c := coreOf s core
  let used := (c.log.filter (fun e => e.slot != none)).length
  let others := (s.teams.filter (fun t => t.core == core && logCount c t.tid < 2)).length
  (List.range k).all (fun j => decide (used + j < 16) && (decide (j < 2) || decide (2 * others < 16 - used - j)))

/-- The form's accumulator slots and reservation can be had again, and its posted commands find room (R256, R466). -/
def slotsFit (s : State) (f : Form) : Bool :=
  let free := freeSlots s f.cluster
  f.names.all (fun p => free.contains p.2) && decide (f.names.length + f.owedSlots ≤ free.length) &&
  decide ((mxOf s f.cluster).resv.length + f.savedResvs.length ≤ 8)

/-- A launch's next form passes on a cluster. -/
def passesOn (s : State) (h : Grid) (cl : Nat) : Bool :=
  h.waiting && (if h.formSize = 1 then [some 0, some 1, some 2, some 3] else [none]).any (fun only =>
    (clusterCheck s h cl (h.formTeams h.nextForm) only none).isSome)

/-- A swapped-out form may return now (R235, R236, R256). -/
def mayReturn (s : State) (g : Grid) (f : Form) : Bool :=
  let here := s.forms.filter (fun x => x.cluster == f.cluster && x.resident s)
  f.out && !(here.any Form.excl) && (!f.excl || clusterIdle s f.cluster) && f.savedTeams.all (coreFits s) && windowsFree s f &&
  f.savedTeams.all (fun t => logFits s t.core (s.outLog.filter (fun e => e.op.tid == t.tid && e.slot.isSome)).length) && slotsFit s f &&
  !(g.swapRoom.contains f.cluster && passesOn s g f.cluster) &&
  !(f.preempted && s.grids.any (fun h => decide (g.prio < h.prio) && passesOn s h f.cluster))

/-- Returning forms in order: by the rank of their grids, then each return list from its front. -/
def returning (s : State) : List (Grid × Form) :=
  (sortOn (fun g => 7 - g.prio) (sortOn Grid.acceptSeq s.grids)).flatMap (fun g =>
    g.returns.filterMap (fun i => (findForm s i).map (fun f => (g, f))))

/-! ## TEAM_RESTORE -/

/-- An image read back, by rank, and whether it passes the check of R259. -/
def readImage (s : State) (us : List Nat) : List Byte := poolRead s us (natLE (mgetAll s.mem (poolAt us 56) 4))
def imageGood (b : List Byte) : Bool :=
  natAt b 0 4 == 0xC07EA701 && natAt b 4 2 == 1 && natAt b 56 4 == b.length && decide (1600 ≤ b.length) &&
  natAt b 60 4 == crc32c (spliceAt b 60 (bytesLE 4 0))

/-- Words of a list of bytes, low byte first. -/
def wordsOf : Nat → List Byte → List Nat
  | 0, _ => []
  | n + 1, b => natLE (b.take 4) :: wordsOf n (b.drop 4)

/-- The vector registers of a slice read from the vector section: registers r to n - 1 (Table 8.8). -/
def readRegs (uni : BitVec 128) : Nat → Nat → List Byte → Tbl W32
  | 0, _, _ => []
  | k + 1, r, b =>
    let one := uni.getLsbD r
    let w := if one then List.replicate 4 (natLE (b.take 4)) else wordsOf 4 b
    (((List.range 4).zip w).map (fun p => (4 * r + p.1, BitVec.ofNat 32 p.2))).filter (fun p => p.2 != 0#32) ++
      readRegs uni k (r + 1) (b.drop (if one then 4 else 16))

/-- A slice as its record and registers give it (Table 8.9, R256 step 4): one that stopped at a safe point is issuable again,
and its registers from its live count on are undefined (R204). `fr` is the first free value for them. -/
def readSlice (b : List Byte) (t : Team) (fr n : Nat) (old : Slice) : Slice :=
  let o := 1600 + 256 * n
  let w := natAt b (o + 16) 4
  let st := SliceSt.ofCode (w / 16 % 16)
  let live := min t.nregs (w / 256 % 256)
  let uni := BitVec.ofNat 128 (natAt b (o + 224) 16)
  let v := readRegs uni live 0 (b.drop (natAt b 32 4 + natAt b (o + 240) 4))
  let pos := natAt b (1168 + n) 1
  let sl := { old with
    pc := BitVec.ofNat 64 (natAt b o 8), mode := BitVec.ofNat 64 (natAt b (o + 8) 8), lm := BitVec.ofNat 4 (w % 16),
    g := ((List.range 16).map (fun k => (k, BitVec.ofNat 64 (natAt b (o + 24 + 8 * k) 8)))).filter (fun p => p.2 != 0#64),
    p := BitVec.ofNat 32 (natAt b (o + 152) 4),
    x := ((List.range 16).map (fun k => (k, BitVec.ofNat 32 (natAt b (o + 160 + 4 * k) 4)))).filter (fun p => p.2 != 0#32),
    uni, v, st := if st = .safepoint then .issuable else st, pend := [], inv := [], live := t.nregs,
    dqPos := if pos ≤ 64 then natAt b 1152 8 + pos else old.dqPos }
  if st = .safepoint then
    (List.range (t.nregs - live)).foldl (fun sl k => (List.range 4).foldl (fun sl l =>
      wrV sl (live + k) l (Config.freeWord (fr + 4 * (live + k) + l))) sl) sl
  else sl

/-- A team read back from its image, at a core's lowest free team slot (R256). -/
def readTeam (s : State) (b : List Byte) (t : Team) : Team × State :=
  let head := natAt b 1152 8
  let n := natAt b 1160 8 - head
  ({ t with
      slot := lowSlot s t.core
      slices := t.slices.map (fun p => (p.1, readSlice b t (s.fresh + 512 * p.1) p.1 p.2))
      pf := { t.pf with
        pc := BitVec.ofNat 64 (natAt b 64 8)
        s := ((List.range 64).map (fun k => (k, BitVec.ofNat 64 (natAt b (80 + 8 * k) 8)))).filter (fun p => p.2 != 0#64) }
      dq := (List.range (min 64 n)).map (fun k => BitVec.ofNat 64 (natAt b (640 + 8 * ((head + k) % 64)) 8))
      dqHead := head
      episodes := t.episodes.map (fun p => (p.1, { p.2 with opened := s.clock.cycle })) },
   { s with fresh := s.fresh + 512 * 64 })

/-- The saved values of the TAGS bits attributed to a team; a bit that another tenant has taken since stays (R259). -/
def tagsBack (s : State) (b : List Byte) (core ten tid : Nat) : State :=
  let v := BitVec.ofNat 64 (natAt b 1280 8)
  let m := BitVec.ofNat 64 (natAt b 1288 8)
  (List.range 64).foldl (fun s k =>
    if m.getLsbD k && tagOk s core ten k then
      updCore (tagClaim s core ten k) core (fun c => { c with
        tags := (c.tags &&& ~~~(BitVec.ofNat 64 (2 ^ k))) ||| (if v.getLsbD k then BitVec.ofNat 64 (2 ^ k) else 0)
        tagTeam := c.tagTeam.filter (fun p => p.1 != k) ++ [(k, tid)] })
    else s) s

/-- A team's log entries re-enter its core's log; those that had waited in the request table wait there again (R256). -/
def logBack (s : State) (t : Team) : State :=
  let mine := s.outLog.filter (fun e => e.op.tid == t.tid)
  let s := { s with outLog := s.outLog.filter (fun e => e.op.tid != t.tid) }
  let s := mine.foldl (fun s e => updCore s t.core (fun c =>
    { c with log := c.log ++ [if e.slot.isSome then { e with slot := freeSlot c } else e] })) s
  admitLog 32 s t.core

/-- A saved command posted again with a new age; none when a check of its post fails now (R466). -/
def postAgain (s : State) (g : Grid) (f : Form) (t : Team) (b : List Byte) (r : Resv) : Option State :=
  let word := BitVec.ofNat 32 (natAt b 0 4)
  let sa := BitVec.ofNat 64 (natAt b 8 8)
  let sb := BitVec.ofNat 64 (natAt b 16 8)
  let instr := (decodeWord word).getD r.instr
  let c : MxCmd := ⟨⟨t, g⟩, f, f.cluster, g.tenant, sa, sb, true⟩
  let units := match instr with | .slchunk _ _ _ => owTokens sb - natAt b 4 1 | _ => 1
  let post := fun (s : State) (pas : List TlbEntry) (desc : List Byte) =>
    let r' := { r with instr, word, sa, sb, pc := BitVec.ofNat 64 (natAt b 24 8), exact := natAt b 5 1 % 2 == 1,
                       prio := g.prio, age := s.clock.cycle, skip := 0, units, pas, desc, busy := false }
    some (updMx s f.cluster (fun m => { m with resv := m.resv ++ [r'] }))
  match cmdCheck instr s c with
  | .fault _ _ _ _ _ => none
  | .retire s => some s
  | .wait s => post s [] r.desc
  | .ok s pas desc _ act => post (act s) pas desc

/-- A form's commands posted again in their saved order; an entry's image is that of its place among its core's.
One that a SKIP has removed meanwhile is marked busy. -/
def postAll (g : Grid) (f : Form) (ims : List (Nat × List Byte)) : List Resv → List Resv → State → Option State
  | _, [], s => some s
  | before, r :: rest, s =>
    let rank := ((List.range f.cores.length).find? (fun i => f.cores.getD i 0 == r.core)).getD 0
    let t := (findTeam s r.tid).getD (ghostTeam g f rank)
    let k := (before.filter (fun x => x.core == r.core)).length
    if r.busy then postAll g f ims (before ++ [r]) rest s
    else
    let b := ((ims.find? (fun p => p.1 == rank)).map Prod.snd).getD []
    match postAgain s g f t ((b.drop (1344 + 32 * k)).take 32) r with
    | none => none
    | some s => postAll g f ims (before ++ [r]) rest s

/-- The bank modes and FIFO contents of an exclusively held cluster come back (R400). -/
def fifoBack (s : State) (cl : Nat) (b : List Byte) : State :=
  let s := applyConfig s cl ((List.range 4).map (fun g => BitVec.ofNat 64 (natAt b (8 * g) 8)))
  let s := updCluster s cl (fun c => { c with fifos := [] })
  ((List.range 4).foldl (fun (q : Nat × State) g =>
    let n := natAt b (32 + 4 * g) 4
    let ws := (wordsOf (min n 65536) (b.drop q.1)).map (BitVec.ofNat 32)
    (q.1 + roundUp 64 (4 * n), updCluster q.2 cl (fun c => fifoPush c (fifoBanks q.2 cl g) g ws))) (64, s)).2

/-- The accumulators of the rank-0 image go back into the slots of their names (R256 step 3, R466). -/
def accsBack (s : State) (g : Grid) (f : Form) (b : List Byte) : State :=
  (List.range (natAt b 22 1)).foldl (fun s i =>
    let o := natAt b 40 4 + 65600 * i
    match tfind (natAt b o 1) f.names with
    | none => s
    | some k =>
      let w := (List.range 16384).zip ((wordsOf 16384 (b.drop (o + 64))).map (BitVec.ofNat 32))
      setOwn (setSlot s f.cluster k (w.filter (fun p => p.2 != 0#32))) f.cluster k
        { state := 1, tenant := g.tenant, fid := some f.fid, gid := g.gid }) s

/-- A form comes back to its cluster and cores (R256). A bad image aborts the grid with a record (R259). -/
def restoreForm (s : State) (g : Grid) (f : Form) : State :=
  let ims := f.images.map (fun p => (p.1, readImage s p.2))
  if ims.any (fun p => !imageGood p.2) then
    abortGrid (emit s g.tenant { code := fcIllegal, cause := 1, issuer := 4, asid := g.asid, queue := g.queue } 0) g.gid
  else
    let im := fun (r : Nat) => ((ims.find? (fun p => p.1 == r)).map Prod.snd).getD []
    let b0 := im 0
    let s := if f.excl && natAt b0 6 1 / 4 % 2 == 1 then
        fifoBack s f.cluster (b0.drop (natAt b0 44 4 + roundUp 64 f.winLen)) else s
    let s := accsBack s g f b0
    let own := (freeSlots s f.cluster).take f.owedSlots
    let s := updForm s f.fid (fun x => { x with
      out := false, images := [], savedTeams := [], savedResvs := [], owedSlots := 0, reserved := own, stopReq := none,
      placedAt := nsOf s })
    let s := updTenant s g.tenant (fun t => { t with pool := t.pool.filter (fun p => p.1 != f.fid) })
    let s := roomTaken (updGrid s g.gid (fun x => { x with returns := x.returns.filter (fun i => i != f.fid) })) f.cluster
    let s := (List.range f.cores.length).foldl (fun s r =>
      spadWrite s f (r * f.winLen) (((im r).drop (natAt (im r) 44 4)).take f.winLen)) s
    let s := f.savedTeams.foldl (fun s t =>
      let (t, s) := readTeam s (im t.rank) t
      let s := enqueueTeam { s with teams := s.teams ++ [t] } t
      logBack (tagsBack s (im t.rank) t.core g.tenant t.tid) t) s
    match (findForm s f.fid).bind (fun f' => postAll g f' ims [] f.savedResvs s) with
    | none => abortGrid s g.gid
    | some s =>
      let mine := f.savedTeams.map Team.tid
      (entriesWhere s (fun e => mine.contains e.op.tid && e.st == 1)).foldl resumeEntry s

/-- TEAM_RESTORE (R235, R236, R256): form arg.a, or with 0 the first returning form that may return. -/
def execTeamRestore (s : State) : Out :=
  .next (match (returning s).find? (fun p => (s.arg.a == 0 || p.2.fid == s.arg.a) && mayReturn s p.1 p.2) with
    | none => s
    | some (g, f) => restoreForm s g f)

end Sys2Proof.Machine
end

