-- ==== Sys2Proof/Machine/Resume.lean ====
section
/-! DEFINITION. The return from a fault: the resume of a waiting fault by SYS.FAULT_RESUME (R247 to R249, R431, R433, R449,
R452, R464), and the reset of a tenant (R264). -/

namespace Sys2Proof.Machine

/-! ## Actions -/

/-- The codes that a replay resumes (Table 8.1). -/
def replayable (code : Nat) : Bool :=
  !([fcBounds, fcIllegal, fcMisalign, fcRemoteAtom, fcSlateOwner, fcSlateCorrupt].contains code)

/-- An action is allowed for a fault (Table 8.1, R248): 0 REPLAY, 1 SKIP, 2 ABORT, 3 REPLAYF. -/
def actionOk (code action : Nat) (notReplay : Bool) : Bool :=
  match action with
  | 0 => replayable code && !notReplay
  | 1 => true
  | 2 => true
  | 3 => replayable code
  | _ => false

/-- A waiting fault leaves its tenant's list. -/
def dropFault (s : State) (ten id : Nat) : State :=
  updTenant s ten (fun t => { t with faults := t.faults.filter (fun f => f.id != id) })

/-! ## A gang or a Prefect (class P) -/

/-- The form that holds a team while it is out. -/
def outForm (s : State) (tid : Nat) : Option Form := s.forms.find? (fun f => f.out && f.savedTeams.any (fun t => t.tid == tid))

/-- A saved team changed, beside its image. -/
def updSaved (s : State) (fid tid : Nat) (f : Team → Team) : State :=
  updForm s fid (fun x => { x with savedTeams := x.savedTeams.map (fun t => if t.tid = tid then f t else t) })

/-- Four added to the program counter at an offset of an image. -/
def imagePc (o : Nat) (b : List Byte) : List Byte := spliceAt b o (bytesLE 8 (BitVec.ofNat 64 (natAt b o 8) + 4).toNat)

/-- A gang or Prefect of a saved team goes on once it is restored (R247). -/
def resumeSaved (s : State) (f : Form) (w : FaultAt) (skip : Bool) : State :=
  let edit := fun (s : State) (tid : Nat) (g : List Byte → List Byte) =>
    if skip then (match imageOfTeam s tid with | some us => imageEdit s us g | none => s) else s
  match w with
  | .gang tid ns =>
    edit (updSaved s f.fid tid (fun t => t.mapSlices ns (fun _ sl => { sl with stop := none }))) tid
      (fun b => ns.foldl (fun b n => imagePc (1600 + 256 * n) b) b)
  | .prefect tid =>
    edit (updSaved s f.fid tid (fun t => { t with pf := { t.pf with stop := none } })) tid (imagePc 64)
  | .race tid id => updSaved s f.fid tid (fun t => t.endStop id)
  | _ => s

/-- A class P fault of a team is resumed. -/
def resumeIssuer (s : State) (tid : Nat) (w : FaultAt) (skip : Bool) : State :=
  match outForm s tid with
  | some f => resumeSaved s f w skip
  | none => resumeAt s w skip

/-! ## Engines (class E) -/

/-- The chain that a fault stopped may be walked again. -/
def chainFree (s : State) (eng chain id : Nat) : State :=
  updChain s eng chain (fun c => if c.stop = some id then { c with stop := none } else c)

/-- The bytes of an operation's destination that its remaining units would have written become undefined (R12, R433). -/
def scrambleRest (s : State) (o : EngOp) : State :=
  ((List.range o.units).filter (fun i => decide (o.unit ≤ i))).foldl (fun s i =>
    if enColl o.ty then
      let (pos, len) := o.block i
      match (if o.ty = 5 || enGroup o.ty then ownWindow s o pos else none) with
      | some pa => let (b, s) := freeBytes s len; homeStore s pa b
      | none => s
    else if o.ty = 11 then
      let (lo, n) := pieceAt (enW1 o.entry) (enW3 o.entry) i
      engScramble 2 s o false (BitVec.ofNat 64 (enW1 o.entry) + BitVec.ofNat 64 lo) n
    else
      let x := if o.ty = 3 ∨ o.ty = 4 then (match indexAt s o i with | .ok _ b => natLE b | _ => 0) else 0
      match unitOf o i x with
      | some u =>
        let n := (u.f (List.replicate ((u.rds.map (fun r => r.2.2)).foldl (· + ·) 0) 0#8)).length
        engScramble (n / 2 ^ 16 + 2) s o u.wsp u.wat n
      | none => s) s

/-- An engine operation's fault is resumed (R433): REPLAY goes on from the first unfinished unit, to the members that faulted;
SKIP completes the entry without its remaining units. -/
def resumeOp (s : State) (id op : Nat) (skip : Bool) : State :=
  match findEop s op with
  | none => s
  | some o =>
    let s := chainFree s o.eng o.chain id
    if skip then
      let s := dropCk (if o.ty = 10 then s else scrambleRest s o) (fun e => o.ty == 10 && e.op == o.id)
      finishOp s o true
    else
      runOp (updEop s op (fun x => { x with phase := if x.ranges.isSome then 1 else 0, stop := none, asked := false,
                                            mstat := x.mstat.map (fun m => if m = 0 then 0 else 5) })) op

/-- A chain stopped at a malformed entry, or by a failed read, is skipped on (R431). -/
def resumeChain (s : State) (eng chain : Nat) : State :=
  let bad := (engineOf s eng).chains.any (fun c => c.id == chain && c.bad)
  if bad then updChain s eng chain (fun c => { c with stop := none, bad := false, pos := c.pos + 32 })
  else retireChain (updChain s eng chain (fun c => { c with stop := none, failed := false, ended := true })) eng chain

/-! ## Matrix commands -/

/-- The effects of a removed command: its byte count is added in full, and what it would have written is undefined
(R452). -/
def skipCmd (s : State) (cl : Nat) (r : Resv) (f : Form) : State :=
  match r.instr with
  | .mcb _ _ => scrambleForm s f r.sb.toNat 32
  | .mepi _ _ _ =>
    let s := (List.range (epRows r.sb)).foldl (fun s i =>
      (splitLines 6 (r.sa + BitVec.ofNat 64 (epStride r.sb * i)) (List.replicate (16 * epWidth r.sb) 0#8)).foldl (fun s p =>
        match walkQuiet s r.asid r.tenant p.va .write with
        | some (e, lev) =>
          if pteFar e || !isOwnDev s (pteDev e) then s
          else let (b, s) := freeBytes s p.n; mxPut s cl (leafPa e lev p.va) b r.tenant
        | none => s) s) s
    if bit 8 r.sb then (barAdd s cl (epBc r.sb) (epBytes r.sb) r.tenant).getD s else s
  | _ => s

/-- A matrix engine's fault is resumed: an entry that a retranslation stopped, resident or saved, or a transfer (R452). -/
def resumeMatrix (s : State) (cl id : Nat) (skip : Bool) : State :=
  match (mxOf s cl).io.find? (fun x => x.id == id && x.stop.isSome) with
  | some x =>
    let upd := fun (s : State) (f : MxIo → MxIo) => updMx s cl (fun m => { m with io := m.io.map (fun y => if y.id = id then f y else y) })
    if !skip then mxIoStep (upd s (fun y => { y with stop := none, asked := false })) cl id
    else
      let s := updMx s cl (fun m => { m with io := m.io.filter (fun y => y.id != id), resv := m.resv.filter (fun r => r.id != id) })
      (match x.rd, x.bar with
       | some off, _ => (match findForm s x.fid with | some f => scrambleForm s f off 32 | none => s)
       | none, some (k, n) => (barAdd s cl k n x.tenant).getD s
       | none, none => s)
  | none =>
    match (mxOf s cl).resv.find? (fun r => r.id == id) with
    | some r =>
      if !skip then updResv s cl id (fun r => { r with stop := none, pas := [] })
      else
        let s := dropResv s cl id
        (match findForm s r.fid with | some f => skipCmd s cl r f | none => s)
    | none =>
      match s.forms.find? (fun f => f.out && f.savedResvs.any (fun r => r.id == id)) with
      | none => s
      | some f =>
        let s := updForm s f.fid (fun x => { x with savedResvs := x.savedResvs.map (fun r =>
          if r.id = id then (if skip then { r with busy := true } else { r with stop := none }) else r) })
        match f.savedResvs.find? (fun r => r.id == id) with
        | some r => if skip && (match r.instr with | .mepi _ _ _ => true | _ => false) then skipCmd s cl r f else s
        | none => s

/-! ## SYS.FAULT_RESUME (R247) -/

/-- A log entry of a saved team is set to be resumed, in its image too (R247). -/
def resumeOut (s : State) (e : OpEntry) (action : Nat) : State :=
  let i := ((s.outLog.filter (fun x => x.op.tid == e.op.tid && x.slot.isSome)).takeWhile (fun x => x.id != e.id)).length
  let s := { s with outLog := s.outLog.map (fun x => if x.id = e.id then { x with st := 1, action } else x) }
  match (if e.slot.isSome then imageOfTeam s e.op.tid else none) with
  | none => s
  | some us => imageEdit s us (fun b =>
      let o := natAt b 36 4 + 1344 * i
      spliceAt (spliceAt b (o + 7) (bytesLE 1 1)) (o + 34) (bytesLE 1 action))

/-- A waiting fault other than a log entry is resumed. An access that a race TRAP stopped after has been performed, and the
issuer stands past it (R106, R248). -/
def resumeWait (s : State) (ten : Nat) (w : WaitFault) (action : Nat) : State :=
  let s := dropFault s ten w.id
  let skip := action == 1
  match w.where_ with
  | .gang tid _ => resumeIssuer s tid w.where_ skip
  | .prefect tid => resumeIssuer s tid w.where_ skip
  | .race tid _ => resumeIssuer s tid w.where_ skip
  | .chain eng chain => resumeChain s eng chain
  | .op op => resumeOp s w.id op skip
  | .matrix cl id => resumeMatrix s cl id skip
  | .removed _ => s

/-- A write to a tenant's SYS.FAULT_RESUME (R247, R248), delivered at once. -/
def resumeWrite (s : State) (ten : Nat) (v : W64) : State :=
  let seq := bits 63 32 v
  let action := bits 2 0 v
  let status := fun (s : State) (n : Nat) => updTenant s ten (fun t => { t with resumeStatus := n })
  let mine := fun (e : OpEntry) => e.op.tenant == ten && e.seq == seq && e.auto == 0 && e.st == 0
  if seq = 0 then status s 1
  else match (tenantOf s ten).faults.find? (fun w => w.seq == seq) with
    | some w =>
      if !actionOk w.code action false then status s 2
      else if action = 2 then status (abortGrid (dropFault s ten w.id) w.gid) 0
      else status (resumeWait s ten w action) 0
    | none =>
      match entriesWhere s mine with
      | e :: _ =>
        if !actionOk e.code action e.notReplay then status s 2
        else if action = 2 then status (abortGrid s e.op.gid) 0
        else
          let s := updCore s e.op.core (fun c => { c with log := c.log.map (fun x => if x.id = e.id then { x with st := 1, action } else x) })
          status s 0
      | [] => match s.outLog.find? mine with
        | some e =>
          if !actionOk e.code action e.notReplay then status s 2
          else if action = 2 then status (abortGrid s e.op.gid) 0
          else status (resumeOut s e action) 0
        | none => status s 1

/-- A write to the SYS.FAULT_RESUME of tenant arg.a with the SEQ of arg.v and the action of the row. -/
def resumeRow (action : Nat) (s : State) : Out := .next (resumeWrite s (s.arg.a % 64) (withBits 2 0 action s.arg.v))
/-- REPLAY (R248). -/
def execReplayResume (s : State) : Out := resumeRow 0 s
/-- SKIP (R248). -/
def execSkipResume (s : State) : Out := resumeRow 1 s
/-- ABORT (R248). -/
def execAbortResume (s : State) : Out := resumeRow 2 s
/-- REPLAYF (R248). -/
def execReplayfResume (s : State) : Out := resumeRow 3 s

/-! ## The reset of a tenant (R264) -/

/-- A tenant reset, step by step. -/
def tenantReset (s : State) (ten : Nat) : State :=
  let qs := (s.queues.filter (fun q => q.2.tenant == ten && q.2.state != 0)).map Prod.fst
  let grids := (s.grids.filter (fun g => g.tenant == ten)).map Grid.gid
  let ts := teamsOf s grids
  let s := qs.foldl (fun s q => queuePut (dropQueueWork (updQueue s q Queue.idle) q) q (fun k => { k with state := 0, cause := 0 })) s
  let s := grids.foldl abortGrid s
  let s := setTape s ten (withBits 12 0 0)
  let s := mapMx { s with slates := s.slates.filter (fun x => x.tenant != ten) } (fun m => m.mapOwn (fun o => if o.tenant = ten then {} else o))
  let s := dropCk s (fun e => e.tenant == ten)
  let s := dropTeamRes s ts
  let mineAsid := fun (a : Nat) => (bindOf s a).tenant == ten
  let s := { s with
    clusters := (s.clusters.map (fun p => (p.1, { p.2 with
      cc := p.2.cc.filter (fun x => x.tenant != ten), tlb := p.2.tlb.filter (fun e => !mineAsid e.asid),
      ahead := p.2.ahead.filter (fun e => !mineAsid e.asid), walks := p.2.walks.filter (fun w => w.tenant != ten) }))).filter (fun p => p.2 != {})
    cores := (s.cores.map (fun p => (p.1, { p.2 with tlb := p.2.tlb.filter (fun e => !mineAsid e.asid) }))).filter (fun p => p.2 != {}) }
  emit s ten { code := fcReset, issuer := 4 } 0

/-- TENANT_RESET (R264) of tenant arg.a. -/
def execTenantReset (s : State) : Out := .next (tenantReset s (s.arg.a % 64))

end Sys2Proof.Machine
end

