-- ==== Sys2Proof/Machine/SysAccess.lean ====
section
/-! DEFINITION. Access to the system registers: SYSR, SYSW, SSYSR and SSYSW of kernels (R315, R342, R356), and the
driver's reads and writes through BAR0 (R9, R498). -/

namespace Sys2Proof.Machine

/-! ## What a kernel reads -/

/-- The grid was launched with table authority (R33). -/
def Grid.authority (g : Grid) : Bool := g.flag 1

/-- SYS.TIME_STAT (Table 5.13). -/
def timeStat (s : State) : W64 := withBits 63 32 s.clock.offset.toNat (if s.clock.lock then 1 else 0)

/-- SYS.RDC_SIZE of a die (Table 2.9): the size in force, PENDING while a written one waits. -/
def rdcSizeReg (s : State) (die : Nat) : W64 :=
  BitVec.ofNat 64 (rdcSize s die + (if (if die = 0 then s.rdcNext0 else s.rdcNext1).isSome then 2 ^ 8 else 0))

/-- SYS.GRID (Table 7.7). -/
def gridReg (g : Grid) : W64 :=
  BitVec.ofNat 64 (g.teams * 2 ^ 32 + g.prio * 2 ^ 29 + g.queue * 2 ^ 16 + g.formSize * 2 ^ 13 + g.slices * 2 ^ 6 + g.tenant)

/-- SYS.SRAM_FIFOg of a cluster (Table 2.2). -/
def fifoReg (s : State) (cl g : Nat) : W64 :=
  let f : Fifo := tget {} g (clusterOf s cl).fifos
  BitVec.ofNat 64 (f.count * 2 ^ 32 + f.head * 2 ^ 16 + f.tail)

/-- A register of the package, of the device or of a die, with write-only fields 0 (R9). -/
def packageRead (s : State) (die n : Nat) : W64 :=
  if n = srTime then s.clock.time
  else if n = srTimeStat then timeStat s
  else if n = srRdcGen then (if die = 0 then s.rdcGen0 else s.rdcGen1).setWidth 64
  else if n = srRdcSize then rdcSizeReg s die
  else if n = srTwinPool then sysGet s (srTwinPool + 4096 * (die + 1))
  else if n = srQueueDb ∨ n = srQueueCmd then 0
  else sysGet s n

/-- A tenant's register. SYS.PT_SYNC reads 0 (R33), SYS.FAULT_RESUME the STATUS of the last write (R247). -/
def tenantRead (s : State) (ten n : Nat) : W64 :=
  if n = srPtSync then 0
  else if n = srFaultResume then BitVec.ofNat 64 ((tenantOf s ten).resumeStatus * 2 ^ 30)
  else tsysGet s ten n

/-- A register as a team of a grid reads it: the issuer's own copy (R315). -/
def kernelRead (s : State) (t : Team) (g : Grid) (n : Nat) : W64 :=
  let cl := clusterOfCore t.core
  if isPerTenant n then tenantRead s g.tenant n
  else if n = srTeamId then t.teamId
  else if n = srSpadWin then (match findForm s t.fid with | some f => spadWin f | none => 0)
  else if n = srKarg then BitVec.ofNat 64 (natAt g.record 32 8)
  else if n = srGrid then gridReg g
  else if n = srGambitCnt then (coreOf s t.core).gcnt
  else if srSramMode ≤ n ∧ n < srSramMode + 4 then segModes s cl (n - srSramMode)
  else if srSramFifo ≤ n ∧ n < srSramFifo + 4 then fifoReg s cl (n - srSramFifo)
  else packageRead s (dieOfCore t.core) n

/-- A kernel may read a register (R315, R342). -/
def kernelMayRead (g : Grid) (n : Nat) : Bool :=
  sysAssigned n && !sysDriverOnly n && (n != srFaultResume || g.authority)

/-- A kernel may write a value to a register (R315, R342): a doorbell of a queue of its own tenant (R211), the
registers of table authority. -/
def kernelMayWrite (s : State) (g : Grid) (n : Nat) (v : W64) : Bool :=
  n == srFpflags || ((n == srPtSync || n == srFaultResume) && g.authority) ||
  (n == srQueueDb && (queueOf s (bits 12 0 v)).tenant == g.tenant)

/-- SYS.PT_SYNC names an ASID that the tenant may synchronise (R33): one bound to it, or all of its own. An ASID that is
bound to no tenant counts as another tenant's: DESIGN CHOICE, log entry 110. -/
def syncAllowed (s : State) (ten : Nat) (v : W64) : Bool :=
  bits 15 0 v == 0xFFFF || ((bindOf s (bits 15 0 v)).valid && (bindOf s (bits 15 0 v)).tenant == ten)

/-! ## Writes -/

/-- The flags that a write of ones clears (R281). -/
def clearFlags (s : State) (ten : Nat) (v : W64) : State :=
  tsysSet s ten srFpflags (tsysGet s ten srFpflags &&& ~~~v)

/-- A kernel's permitted write, but for SYS.PT_SYNC (R342). -/
def kernelWrite (s : State) (ten n : Nat) (v : W64) : State :=
  if n = srFpflags then clearFlags s ten v
  else if n = srQueueDb then doorbell s (bits 12 0 v) (v.extractLsb' 32 32)
  else if n = srFaultResume then resumeWrite s ten v
  else s

/-- The bits [hi : lo] of a list of fields. -/
def fieldMask (l : List (Nat × Nat)) : W64 :=
  BitVec.ofNat 64 ((l.map (fun f => 2 ^ (f.1 + 1) - 2 ^ f.2)).foldl (· + ·) 0)

/-- A value with the field [hi : lo] at least 1: a write of 0 stores 1. -/
def atLeast1 (hi lo : Nat) (v : W64) : W64 := if bits hi lo v = 0 then withBits hi lo 1 v else v

/-- A register's count field [hi : lo] after a write: cleared by a 1 to any of its bits (R9). -/
def clearCount (hi lo : Nat) (v old : W64) : W64 := if bits hi lo v = 0 then old else withBits hi lo 0 old

/-- The fields that a write replaces, from the written value; the rest stay. -/
def writeFields (l : List (Nat × Nat)) (v old : W64) : W64 := (old &&& ~~~(fieldMask l)) ||| (v &&& fieldMask l)

/-- The driver's write to a tenant's register (R9 and the register's own table). -/
def tenantWrite (s : State) (ten n : Nat) (v : W64) : State :=
  let old := tsysGet s ten n
  let put := tsysSet s ten n
  if n = srFpflags then clearFlags s ten v
  else if n = srCheck then put (writeFields [(0, 0)] v old)
  else if n = srGambitCtl then put (writeFields [(16, 0)] v old)
  else if n = srPtSync then (ptSyncStart s ten v).2
  else if n = srPtCtl then put (writeFields [(31, 16), (1, 0)] v old)
  else if n = srRdcCtl then
    let s := put (writeFields [(0, 0)] v old)
    if bit 1 v then bumpDie (bumpDie s 0) 1 else s
  else if n = srCkoutCtl then put (clearCount 63 32 v (writeFields [(16, 0)] v old))
  else if n = srRaceCtl then put (clearCount 51 20 v (writeFields [(63, 52), (1, 0)] v old))
  else if n = srRaceLog then put (clearCount 11 0 v (writeFields [(63, 12)] v old))
  else if n = srPodDomain then put (writeFields [(15, 0)] v old)
  else if n = srFaultRing then pumpRing 200 (put (writeFields [(38, 12), (0, 0)] v old)) ten
  else if n = srFaultResume then resumeWrite s ten v
  else if n = srPreemptCtl then put (writeFields [(63, 48), (31, 16)] (atLeast1 31 16 v) old)
  else if n = srTape then
    put (clearCount 13 13 v (if bits 12 0 old = 0 then writeFields [(38, 16)] v old else old))
  else if n = srSwapPool then put (writeFields [(38, 0)] v old)
  else if n = srPlaceD0 ∨ n = srPlaceD1 then put v
  else if n = srSlateCtl then
    let v := if 32 < bits 5 0 v then withBits 5 0 32 v else v
    let held := s.slates.any (fun x => x.tenant == ten)
    put (writeFields (if held then [(5, 0)] else [(38, 16), (5, 0)]) v old)
  else s

/-- The router table loaded (R147): the entries for the device itself and beyond the pod are ignored, one with a nonzero
RSV bit has V = 0. -/
def reloadRoutes (s : State) : State :=
  let base := bits 38 16 (sysGet s srRouteBase) * 2 ^ 16
  let one := fun t =>
    let e := mem64 s (base + 8 * t)
    if bits 31 8 e = 0 ∧ bits 6 5 e = 0 then e else withBits 7 7 0 e
  { s with fab := { s.fab with
      routes := (((List.range (podSize s)).filter (fun t => t != ownDev s)).map (fun t => (t, one t))).filter (fun p => p.2 != 0) } }

/-- A twin pool of this base and size may be placed on a die (Table 3.3). -/
def twinOk (s : State) (die base size : Nat) : Bool :=
  !(s.ck.any (fun e => e.mode == 1 && e.base / 2 ^ 38 == die)) &&
  (size == 0 || (decide (die * 2 ^ 38 ≤ base) && decide (base + size ≤ (die + 1) * 2 ^ 38) &&
    !overlaps base size (carveBase s die) (rdcSize s die * 2 ^ 30)))

/-- The fields of a register whose write has no other effect. -/
def plainFields (n : Nat) : List (Nat × Nat) :=
  if n = srQueueBase ∨ n = srAsidBase ∨ n = srRouteBase ∨ n = srMcastBase then [(38, 16)]
  else if srTenantL ≤ n ∧ n < srTenantL + 64 then [(63, 40), (32, 0)]
  else if srRangeA ≤ n ∧ n < srRangeA + 32 then [(38, 5), (0, 0)]
  else if srRangeB ≤ n ∧ n < srRangeB + 32 then [(63, 40), (38, 16)]
  else if srExportA ≤ n ∧ n < srExportA + 64 then [(38, 10), (3, 0)]
  else if srExportB ≤ n ∧ n < srExportB + 64 then [(63, 48), (38, 16)]
  else []

/-- The driver's write to a register of the package, of the device or of a die. A tenant's token buckets are brought up to date
before its allotment changes (R73). -/
def packageWrite (s : State) (die n : Nat) (v : W64) : State :=
  let old := sysGet s n
  let put := sysSet s n
  if n = srRdcSize then
    if 32 < bits 5 0 v then s
    else if die = 0 then { s with rdcNext0 := some (bits 5 0 v) } else { s with rdcNext1 := some (bits 5 0 v) }
  else if n = srTwinPool then
    if twinOk s die (bits 38 20 v * 2 ^ 20) (bits 7 0 v * 2 ^ 20) then
      sysSet s (srTwinPool + 4096 * (die + 1)) (v &&& fieldMask [(38, 20), (7, 0)])
    else s
  else if n = srQueueDb then doorbell s (bits 12 0 v) (v.extractLsb' 32 32)
  else if n = srQueueCmd then queueCommand s v
  else if n = srSchedCtl then put (atLeast1 63 52 (atLeast1 27 16 (writeFields [(63, 16), (11, 0)] v old)))
  else if n = srTenantReset then tenantReset s (bits 5 0 v)
  else if n = srAsidRebind then asidRebind s v
  else if n = srSramDefault then (if segValid v then put v else s)
  else if n = srFabCtl then
    let s := put (atLeast1 63 48 (atLeast1 47 32 (writeFields [(63, 8), (0, 0)] v old)))
    setHints (if bit 1 v then reloadRoutes s else s)
  else if n = srFabCnt then
    put (clearCount 59 48 v (clearCount 47 36 v (clearCount 35 24 v (clearCount 23 12 v (clearCount 11 0 v old)))))
  else if srTenantL ≤ n ∧ n < srTenantL + 64 then
    sysSet (settleTokens s (n - srTenantL)) n (writeFields (plainFields n) v old)
  else if srRangeA ≤ n ∧ n < srRangeA + 32 then
    put (writeFields (plainFields n) (if 16 < bits 9 5 v then withBits 9 5 16 v else v) old)
  else if (plainFields n).isEmpty then s
  else put (writeFields (plainFields n) v old)

/-- Registers of which a cluster, core, team or grid has its own copy: the host reads 0 and writes nothing (R498). -/
def hostIgnores (n : Nat) : Bool :=
  n == srTeamId || n == srSpadWin || n == srKarg || n == srGrid || n == srGambitCnt ||
  decide (srSramMode ≤ n ∧ n < srSramFifo + 4)

/-- The die whose per-die registers a view shows (R498). -/
def viewDie (view : Nat) : Nat := if view = 65 then 1 else 0

/-- What the host reads from register n of a view (R498); all ones before the device is READY (R501). -/
def hostRead (s : State) (view n : Nat) : W64 :=
  if 66 ≤ view ∨ !sysAssigned n ∨ s.mgt.state ≠ 1 then BitVec.allOnes 64
  else if hostIgnores n then 0
  else if isPerTenant n then (if view < 64 then tenantRead s view n else 0)
  else packageRead s (viewDie view) n

/-- An entry of the management error ring (R512): cause, unit, index and detail of Table 19.7. A full ring loses it. -/
def mgtRecord (s : State) (cause unit index detail : Nat) : State :=
  let m := s.mgt
  if 256 ≤ m.ring.length then { s with mgt := { m with dropped := min (m.dropped + 1) 255 } }
  else
    let w := BitVec.ofNat 64 (2 ^ 63 + cause * 2 ^ 48 + unit * 2 ^ 40 + index % 2 ^ 16 * 2 ^ 24 + m.dropped * 2 ^ 16 + detail % 2 ^ 16)
    { s with mgt := { m with ring := m.ring ++ [⟨w, nsOf s⟩], dropped := 0 } }

/-- RELOAD (R147): a write of 1 to SYS.FAB_CTL.RELOAD. -/
def execReload (s : State) : Out := .next (reloadRoutes s)

/-! ## SYSR, SYSW, SSYSR, SSYSW -/

/-- SYSR (R342). -/
def execSysr (g : GReg) (n : BitVec 12) (s : State) : Out :=
  ctl s true (fun x => kernelMayRead x.grid n.toNat) [] [.g g.toNat] (fun x _ sl =>
    setInv (wrG sl g.toNat (kernelRead s x.team x.grid n.toNat)) (.g g.toNat) 0 false)

/-- The phases of a write to SYS.PT_SYNC, kept in the issuer's wait operand: even while step 1 of R34 waits, odd with the
number of the synchronisation after it. -/
def syncPhase (st : SliceSt) (op : Nat) : Option Nat := if st = .scoreboard ∧ op % 2 = 1 then some (op / 2) else none

/-- The ordering of R138, step 1 of R34 in it: that of a FENCE rw, rw at package scope. -/
def syncFence (s : State) (b : FenceBy) : Bool × Nat × State := fenceStep s b ⟨3, 4, 3⟩

/-- SYSW of a cohort to SYS.PT_SYNC (R33, R34, R138): it waits for its stores, begins each slice's synchronisation, and
retires when all have retired. -/
def syncGang (s : State) (g : Gang) (val : Slice → W64) : State :=
  let ten := g.grid.tenant
  if !g.sl.all (fun p => syncAllowed s ten (val p.2)) then raiseGang s g fcPagePerm 4 0 0 0
  else if g.sl.all (fun p => (syncPhase p.2.st p.2.waitOp).isSome) then
    let ids := g.sl.filterMap (fun p => syncPhase p.2.st p.2.waitOp)
    if ids.all (fun i => s.synced.contains i) then
      finish { s with synced := s.synced.filter (fun i => !(ids.contains i)) } g 1 none (fun _ sl => { sl with waitOp := 0 })
    else s
  else
    let mark := match g.sl with | [] => 0 | x :: _ => if x.2.st = .scoreboard then x.2.waitOp / 2 else 0
    let (ok, m, s) := syncFence s ⟨g.team.tid, false, g.nums, ten, clusterOfCore g.team.core, mark⟩
    if !ok then updSlices s g.team.tid g.nums (fun _ sl => { sl with st := .scoreboard, waitRegs := [], waitOp := 2 * m })
    else g.sl.foldl (fun s p =>
      let (id, s) := ptSyncStart s ten (val p.2)
      updSlices s g.team.tid [p.1] (fun _ sl => { sl with st := .scoreboard, waitRegs := [], waitOp := 2 * id + 1 })) s

/-- SYSW (R342): nothing in Gambit (R36, Table 11.1); else it parks as R244 says, and every slice writes in ascending
order (Table 11.6). -/
def execSysw (g : GReg) (n : BitVec 12) (s : State) : Out :=
  withGang s (fun s x =>
    let val := fun (sl : Slice) => rdG sl g.toNat
    if x.ahead then finish s x 1 none (fun _ sl => sl)
    else if !x.sl.all (fun p => kernelMayWrite s x.grid n.toNat (val p.2)) then illegalGang s x
    else if !(gangEntries s x.team x.nums).isEmpty then stall s x .parked
    else if n.toNat = srPtSync then syncGang s x val
    else finish (x.sl.foldl (fun s p => kernelWrite s x.grid.tenant n.toNat (val p.2)) s) x 1 none (fun _ sl => sl))

/-- The register number of SSYSR and SSYSW: bits [11:6] in h, [5:0] in l (Table 11.5). -/
def sysNum (h l : BitVec 6) : Nat := (h ++ l).toNat

/-- SSYSR (R356). -/
def execSsysr (d h l : BitVec 6) (s : State) : Out :=
  withPref s (fun p =>
    if kernelMayRead p.grid (sysNum h l) then
      prefDone s p (fun q => wrS q d.toNat (kernelRead s p.team p.grid (sysNum h l)))
    else illegalPref s p)

/-- SSYSW to SYS.PT_SYNC (R33, R34). -/
def syncPref (s : State) (p : Pref) (v : W64) : State :=
  let ten := p.grid.tenant
  let tid := p.team.tid
  let wait := fun (s : State) (op : Nat) => updTeam s tid (fun t => { t with pf := { t.pf with st := .scoreboard, waitOp := op } })
  if !syncAllowed s ten v then raisePref s p fcPagePerm 4 0 0
  else match syncPhase p.team.pf.st p.team.pf.waitOp with
    | some id =>
      if s.synced.contains id then
        prefDone { s with synced := s.synced.filter (fun i => i != id) } p (fun q => { q with waitOp := 0 })
      else s
    | none =>
      let mark := if p.team.pf.st = .scoreboard then p.team.pf.waitOp / 2 else 0
      let (ok, m, s) := syncFence s ⟨tid, true, [], ten, clusterOfCore p.team.core, mark⟩
      if !ok then wait s (2 * m)
      else
        let (id, s) := ptSyncStart s ten v
        wait s (2 * id + 1)

/-- SSYSW (R356). -/
def execSsysw (d h l : BitVec 6) (s : State) : Out :=
  withPref s (fun p =>
    let v := rdS p.team.pf d.toNat
    if !kernelMayWrite s p.grid (sysNum h l) v then illegalPref s p
    else if sysNum h l = srPtSync then syncPref s p v
    else prefDone (kernelWrite s p.grid.tenant (sysNum h l) v) p (fun q => q))

end Sys2Proof.Machine
end

