-- ==== Sys2Proof/Machine/Fabric.lean ====
section
/-! DEFINITION. The pod's packets as this device sends and takes them: responses and timeouts of its requests (R156, R157),
requests of other devices (R152 to R154, R159), multicast copies (R164 to R166), reductions and deliveries (R167 to R169),
the hall pass (R171 to R173), links (R160), Ultra Ethernet (R176) and pod time (R177, R178). -/

namespace Sys2Proof.Machine

/-! ## The end of a request of this device -/

/-- Code and cause of a request's failure, by the status of its response: 0 DONE, 1 to 3 as in R166; 4 stands for an engine
lock at the target (R94), 5 for a poisoned sector (R253). -/
def statusFault (st : Nat) : Nat × Nat :=
  match st with
  | 1 => (fcPagePerm, 5)
  | 2 => (fcFabricTimeout, 0)
  | 3 => (fcFabricTimeout, 1)
  | 4 => (fcRangeLock, 0)
  | _ => (fcPoison, 0)

/-- The level of a request's fault: that of the leaf that named the device, for a refused access (R28). -/
def pktLevel (p : Packet) (code : Nat) : Nat := if code = fcPagePerm then p.level else 0

/-- A QSIGNAL's event operation that failed: a class A record (R352). -/
def eventFailed (s : State) (gid ten : Nat) (teamId pc : W64) (word : W32) (va : W64) (p : Packet) (st : Nat) : State :=
  let (c, x) := statusFault st
  let (asid, q) := match findGrid s gid with | some g => (g.asid, g.queue) | none => (0, 0)
  emit s ten { code := c, cause := x, level := pktLevel p c, issuer := 1, pc, va, asid, teamId, queue := q, word } 0

/-- A member's status of a multicast lane (R166). -/
def memberDone (s : State) (op gl i st : Nat) : State :=
  match findOp s op with
  | none => s
  | some _ =>
    let s := updLane s op gl (fun l =>
      let m := l.mstat.set i st
      { l with mstat := m, st := mstatSt m (mcastVa (bits 9 0 l.va) m.length) })
    settleOp (advanceAll s) op

/-- A request of an engine operation has ended: a member's status of a collective, or a piece read or written. -/
def engineDone (s : State) (op member : Nat) (va : W64) (p : Packet) (st : Nat) (d : List Byte) : State :=
  match findEop s op with
  | none => s
  | some o =>
    if p.code ≠ 16 ∧ p.code ≠ 17 then runOp (updEop s op (fun x => { x with mstat := x.mstat.set member st })) op
    else if st = 0 then
      runOp (updEop s op (fun x =>
        if p.code = 16 then { x with asked := false, held := x.held ++ d } else { x with asked := false, wrote := x.wrote + p.n })) op
    else
      let (c, x) := statusFault st
      engFault (updEop s op (fun x => { x with asked := false })) { o with asked := false } c x (pktLevel p c) va []

/-- A request has ended with a status: who waits for it goes on (R152, R156). -/
def podDone (s : State) (use : TagUse) (gid : Nat) (p : Packet) (st : Nat) (d : List Byte) : State :=
  let (c, x) := statusFault st
  match use with
  | .lane op gl (some i) => memberDone s op gl i st
  | .lane op gl none => answerLane s op gl (if st = 0 then .data d else .fault c x) none
  | .event ten _ teamId pc word va => if st = 0 then s else eventFailed s gid ten teamId pc word va p st
  | .engine op member va => engineDone s op member va p st d
  | .queue q n =>
    if p.code = 16 then
      if st = 0 then queueReadDone s q n (BitVec.ofNat 64 (natLE d)) else queueReadFail s q n
    else if st = 0 then entryDone s q (BitVec.ofNat 32 n) else stopQueueAt s q (BitVec.ofNat 32 n) 0x0B
  | .grid gid => (match findGrid s gid with
    | none => s
    | some g => if st = 0 then gridOver s g else gridStop s g)
  | .matrix cl io => mxIoReply s cl io (if st = 0 then none else some (c, x, pktLevel p c)) d
  | .fetch gid pc => codeDone s gid pc (if st = 0 then .inr d else .inl (c, x, pktLevel p c))
  | .zero base => zeroReport s p.dst base st

/-- A request given up, or answered, by its tag's key; a copy that ends makes room for the next one to its member (R164). -/
def endTag (s : State) (key : Nat) (late : Bool) (st : Nat) (d : List Byte) : State :=
  let t : ReqTag := tget {} key s.fab.tags
  match t.use with
  | none => s
  | some use => relayPump 64 (podDone (freeTagAt s key late) use t.gid t.pkt st d) t.dev

/-- FABRIC_TIMEOUT (R156): the tag of key arg.a − 1, or with 0 the first whose timer has run out, is given up. -/
def execFabricTimeout (s : State) : Out :=
  let late := fun (t : Nat × ReqTag) => t.2.use.isSome && (s.arg.a == 0 || t.1 + 1 == s.arg.a) &&
    (match t.2.sentAt with | some c => decide (c + t.2.timeout ≤ nsOf s) | none => false)
  .next (match s.fab.tags.find? late with
    | none => s
    | some t => endTag s t.1 true 2 [])

/-! ## Copies that a root makes (R165) -/

/-- A member's status of a copy that this device made as a root ends the tag of its own store, or goes to the issuing device
(R165). -/
def relayReply (s : State) (p : Packet) : State :=
  let mine := fun (q : Packet) => q.dst == p.src && q.die == p.die && q.tag == p.tag && q.gen == p.gen && q.origin == p.origin
  match s.fab.relays.find? mine with
  | none => s
  | some q =>
    let s := relayPump 64 { s with fab := { s.fab with relays := s.fab.relays.erase q } } q.dst
    let key := 4096 * p.die + p.tag
    if p.origin ≠ ownDev s + 1 then sendMin s { p with src := ownDev s, dst := p.origin - 1, origin := 0, input := 33 }
    else if (tget ({} : ReqTag) key s.fab.tags).gen ≠ p.gen then fabCount s 48
    else endTag s key false p.status p.data

/-- A response at its issuer (R157): its tag's request ends, unless the tag's generation has moved on. -/
def responseIn (s : State) (p : Packet) : State :=
  if p.origin ≠ 0 then relayReply s p
  else
    let key := 4096 * p.die + p.tag
    let t : ReqTag := tget {} key s.fab.tags
    if t.use.isNone || t.gen != p.gen then fabCount s 48 else endTag s key false p.status p.data

/-! ## Requests of other devices -/

/-- The request of another device at its home slice, under the tenant of its export range. The device of a pod request
keys reservations with its lanes (R159). -/
def podKey (p : Packet) : Nat := 2 ^ 64 * (p.src + 1) + p.lane
def podReq (s : State) (p : Packet) (ten : Nat) (k : L2Kind) : State :=
  let r := mkReq (homeSlice p.pa) p.pa ten (64 * homeDie p.pa) 0 k (.pod p) 0 (0, 0)
  postReq s { r with node := 16 * 9, checked := !((p.code == 16 || p.code == 17) && p.op == 1) }

/-- A request admitted under R154, or rejected. -/
def admitted (s : State) (p : Packet) (need : Need) (k : Nat → State) : State :=
  match admission s p.domain p.pa need with
  | none => respond s p 1 []
  | some ten => k ten

/-- A read (R152). -/
def readIn (s : State) (p : Packet) : State := admitted s p .rd (fun ten => podReq s p ten (.read p.n))
/-- A write (R152). -/
def writeIn (s : State) (p : Packet) : State := admitted s p .w (fun ten => podReq s p ten (.write (cellsAt p.pa (p.data.take p.n))))
/-- A reduction or an event operation (R154, R159, R352). A Prefect's event operation is checked against locks (R94). -/
def rdnIn (s : State) (p : Packet) : State :=
  if 32 ≤ p.op then
    let add := p.op % 2 == 1
    admitted s p (if add then .all else .w) (fun ten =>
      if 34 ≤ p.op && lockBlocks s p.pa 8 true then respond s p 4 []
      else respond (eventOp s p.pa ten add (BitVec.ofNat 64 (natLE (p.data.take 8)))) p 0 [])
  else admitted s p .all (fun ten => podReq s p ten (.atom p.op p.n p.data false))
/-- A load-linked (R159). -/
def llqIn (s : State) (p : Packet) : State := admitted s p .all (fun ten => podReq s p ten (.ll (podKey p) p.n))
/-- A store-conditional (R159). -/
def scqIn (s : State) (p : Packet) : State := admitted s p .all (fun ten => podReq s p ten (.sc (podKey p) (p.data.take p.n)))

/-- The tenant under which this device performs a copy: that of its own group for a copy of its own store, which is a local
store (R163), else that of the export range that admits it (R154). -/
def copyTenant (s : State) (p : Packet) (pa : Nat) : Option Nat :=
  if p.origin = ownDev s + 1 then
    some (natAt (mgetAll s.mem (bits 38 16 (sysGet s srMcastBase) * 2 ^ 16 + 32 * p.group) 2) 0 2 / 4 % 64)
  else admission s p.domain pa .w

/-- A thread's copy for this member waits while an engine lock that stops a store lies on it (R94): a copy's status cannot
say so (R166), so it is not refused. DESIGN CHOICE, log entry 121. -/
def copyLocked (s : State) (p : Packet) (pa : Nat) : Bool := p.op != 1 && lockBlocks s pa p.data.length true

/-- A multicast copy performed at this member: admitted, stored, counted (R128, R154, R164). -/
def copyStore (s : State) (p : Packet) (pa : Nat) : Nat × State :=
  match copyTenant s p pa with
  | none => (1, s)
  | some ten =>
    let (ok, s) := recvCount (devStore s ten pa p.data) p.lane p.data.length ten
    (if ok then 0 else 1, s)

/-- A group as a root serves it: the issuer has judged who may use it (R163). -/
def groupAny (s : State) (g : Nat) : Option Group :=
  let flags := natAt (mgetAll s.mem (bits 38 16 (sysGet s srMcastBase) * 2 ^ 16 + 32 * g) 2) 0 2
  groupOf s (flags / 4 % 64) g

/-- An ordered store at its root (R165), or none while its own copy waits. -/
def mcoServe (s : State) (p : Packet) : Option State :=
  let answer := fun (s : State) (t : Nat × Nat × Nat) (st : Nat) =>
    respond s { p with rank := t.1, tag := t.2.1, gen := t.2.2, origin := 0 } st []
  match groupAny s p.group with
  | none => some (p.tags.foldl (fun s t => answer s t 1) s)
  | some g =>
    let waits := p.tags.any (fun t =>
      let m := g.members.getD t.1 (0, 0)
      m.1 == ownDev s && copyLocked s p (m.2 + p.pa))
    if waits then none else some (rootServe g p (fun s pa => copyStore s p pa) answer s)

/-- A copy or an ordered store performed, or none while it waits. -/
def copyDo (s : State) (p : Packet) : Option State :=
  if p.code = 1 then mcoServe s p
  else if copyLocked s p p.pa then none
  else
    let (st, s) := copyStore s p p.pa
    some (respond s p st [])

/-- A source's copies in its sequence: early ones are held, and so are those behind one that waits (R164). -/
def copyNext : Nat → State → Nat → State
  | 0, s, _ => s
  | k + 1, s, src =>
    let n := tget 0 src s.fab.seqFrom
    match s.fab.held.find? (fun p => p.src == src && p.seq == n) with
    | none => s
    | some p => match copyDo s p with
      | none => s
      | some t =>
        copyNext k { t with fab := { t.fab with held := t.fab.held.erase p, seqFrom := tset 0 src (n + 1) t.fab.seqFrom } } src
def copyIn (s : State) (p : Packet) : State :=
  let s := { s with fab := { s.fab with held := s.fab.held ++ [p] } }
  copyNext s.fab.held.length s p.src

/-! ## Collectives -/

/-- A packet waits at this device for room in a reduction unit (R167). -/
def stallPkt (s : State) (p : Packet) : State :=
  { s with fab := { s.fab with stalled := s.fab.stalled ++ [{ p with headAt := some (nsOf s), blocked := false }] } }

/-- A contribution (R168): a unit holds it, or the own entry combines it. It waits for room in its unit; a recovered one has
the unit's recovery slot (R172). -/
def ctbIn (s : State) (p : Packet) : State :=
  if p.via = 0 && !unitRoom s p.index p.data.length then stallPkt s p
  else
    let d := (List.range (p.data.length / 4)).map (fun i => BitVec.ofNat 32 (natAt p.data (4 * i) 4))
    let s := { s with fab := { s.fab with nodes := s.fab.nodes ++ [⟨p.group, p.seq, p.index, p.rank, p.n, d⟩] } }
    let s := respond s p 0 []
    match collOp s p.group p.seq with
    | none => s
    | some o => runOp s o.id

/-- A delivery (R169, R428): the own entry places it, or a unit holds it until that entry has started. -/
def deliveryIn (s : State) (p : Packet) : State :=
  match collOp s p.group p.seq with
  | none =>
    if p.via = 0 && !unitRoom s p.index p.data.length then stallPkt s p
    else { s with fab := { s.fab with pendingDel := s.fab.pendingDel ++ [p] } }
  | some o =>
    let (st, s) := placeDelivery s o p true
    runOp (respond s p st []) o.id

/-- A packet of a collective taken again by its kind. -/
def collIn (s : State) (p : Packet) : State := if p.code = 5 then ctbIn s p else deliveryIn s p

/-- Packets that wait at this device are tried again in their order, and copies that wait for their turn or for a lock
(R94, R164, R167). -/
def fabricRetry (s : State) : State :=
  let s := if s.fab.held.isEmpty then s else
    (distinct (s.fab.held.map Packet.src)).foldl (fun s src => copyNext s.fab.held.length s src) s
  let s := if s.fab.stalled.isEmpty then s else
    s.fab.stalled.foldl (fun s p =>
      if (collOp s p.group p.seq).isSome && p.code != 5 || unitRoom s p.index p.data.length then
        collIn { s with fab := { s.fab with stalled := s.fab.stalled.erase p } } p
      else s) s
  if s.fab.relayQ.isEmpty then s else (distinct (s.fab.relayQ.map Packet.dst)).foldl (relayPump 64) s

/-! ## The hall pass (R172, R173) -/

/-- Devices that the router table reaches, in ascending number. -/
def reachable (s : State) : List Nat := (s.fab.routes.filter (fun r => routeV r.2 && r.1 != ownDev s)).map Prod.fst

/-- The device after this one on the pass's way. -/
def passNext (s : State) : Option Nat :=
  match (reachable s).find? (fun t => decide (ownDev s < t)) with
  | some t => some t
  | none => (reachable s).head?

/-- The pass sent on. -/
def passOn (s : State) : State :=
  match passNext s with
  | none => s
  | some t => sendMin s { code := 8, src := ownDev s, dst := t, seq := s.fab.epoch }

/-- The packets that have been at the head of a queue, or of an input, for BLOCK microseconds are blocked; FRCV is not
watched (R171). -/
def markBlocked (s : State) : State :=
  let limit := max 1 (bits 47 32 (sysGet s srFabCtl)) * 1000
  let mark := fun (p : Packet) => match p.headAt with
    | some c => if p.via = 0 ∧ c + limit ≤ nsOf s then { p with blocked := true } else p
    | none => p
  { s with fab := { s.fab with outbox := s.fab.outbox.map mark, stalled := s.fab.stalled.map mark } }

/-- The order of blocked packets: the oldest, then the lower input, then FREQ before FCOL before FRSP (R172). -/
def blockedList (s : State) : List Packet :=
  let chan := fun (p : Packet) => match channelOf p with | 0 => 0 | 2 => 1 | 1 => 2 | c => c
  sortOn (fun p => p.headAt.getD 0) (sortOn Packet.input (sortOn chan ((s.fab.outbox ++ s.fab.stalled).filter Packet.blocked)))

/-- What the holder of the pass does: its oldest blocked packet goes on the recovery lane to its target, or into its unit's
recovery slot where it is at its target, else the pass goes on (R172). -/
def passAct (s : State) : State :=
  let s := markBlocked s
  match blockedList s with
  | [] => passOn s
  | p :: _ =>
    let q := { p with via := ownDev s + 1, headAt := none, blocked := false }
    if p.dst = ownDev s then
      passOn (fabCount (collIn { s with fab := { s.fab with stalled := s.fab.stalled.erase p } } q) 24)
    else if (minPort s p.dst p.pa).isNone then passOn s
    else
      let s := setQueues { s with fab := { s.fab with passHeld := some q } } (s.fab.outbox.erase p)
      fabCount (sendMin s q) 24

/-- A pass received: one of an older epoch than the newest seen is dropped. One of a newer epoch than that of the pass held
here takes its place, the acknowledgement waited for being lost (R173). -/
def passIn (s : State) (p : Packet) : State :=
  let ahead := (p.seq + 2 ^ 16 - s.fab.epoch % 2 ^ 16) % 2 ^ 16
  if 2 ^ 15 ≤ ahead then s
  else
    let s := { s with fab := { s.fab with epoch := p.seq % 2 ^ 16, passSeen := nsOf s } }
    if s.fab.passHeld.isSome && ahead == 0 then s else passAct { s with fab := { s.fab with passHeld := none } }

/-- The acknowledgement of a recovered packet: its target names it by its tag, address and kind. -/
def recoveryAck (s : State) (p : Packet) : Packet :=
  { code := 19, src := ownDev s, dst := p.via - 1, die := p.die, tag := p.tag, gen := p.gen, pa := p.pa, rank := p.rank, op := p.code }
/-- The acknowledgement at the holder of the pass, which goes on (R172). -/
def ackIn (s : State) (a : Packet) : State :=
  match s.fab.passHeld with
  | none => s
  | some p =>
    if a.src = p.dst ∧ a.die = p.die ∧ a.tag = p.tag ∧ a.gen = p.gen ∧ a.pa = p.pa ∧ a.rank = p.rank ∧ a.op = p.code then
      passOn { s with fab := { s.fab with passHeld := none } }
    else s

/-! ## Packets in -/

/-- A packet that has no route left: a request is answered UNREACHABLE to its issuer, each copy by itself; the rest is lost
(R156, R160). -/
def noRoute (s : State) (p : Packet) : State :=
  if p.code = 8 ∨ p.code = 18 ∨ p.code = 19 then s
  else if p.src = ownDev s then
    (if p.origin = 0 ∨ p.origin = ownDev s + 1 then (pktKeys s p).foldl (fun s key => endTag s key false 3 []) s
     else relayReply s { p with src := p.dst, dst := p.src, status := 3, code := 18, op := p.code, data := [] })
  else if p.code = 1 then p.tags.foldl (fun s t => respond s { p with rank := t.1, tag := t.2.1, gen := t.2.2 } 3 []) s
  else respond s p 3 []

/-- A packet that another device sent goes on minimally (R152 step 3). -/
def forward (s : State) (p : Packet) : State := if (minPort s p.dst p.pa).isNone then noRoute s p else sendMin s p

/-- A packet at this device, by its code; one for another device goes on. -/
def arrive (s : State) (p : Packet) : State :=
  if p.dst ≠ ownDev s then forward s p
  else match p.code with
    | 0 => copyIn s p
    | 1 => copyIn s p
    | 2 => rdnIn s p
    | 3 => llqIn s p
    | 4 => scqIn s p
    | 5 => ctbIn s p
    | 6 => deliveryIn s p
    | 7 => deliveryIn s p
    | 8 => passIn s p
    | 16 => readIn s p
    | 17 => writeIn s p
    | 18 => responseIn s p
    | 19 => ackIn s p
    | 20 => zeroIn s p
    | _ => fabCount s 0

/-- A packet as it comes in at the port arg.b. -/
def comesIn (s : State) (p : Packet) : Packet := { p with input := s.arg.b % 32, headAt := none, blocked := false, level := 0 }

/-- A row's packet, arg.p, taken with the row's code, not on the recovery lane. -/
def packetRow (code : Nat) (s : State) : Out := .next (arrive s { comesIn s s.arg.p with code, via := 0 })

/-- UALINK_READ_REQUEST (R152, R154). -/
def execUalinkReadRequest (s : State) : Out := packetRow 16 s
/-- UALINK_WRITE_REQUEST (R152, R154). -/
def execUalinkWriteRequest (s : State) : Out := packetRow 17 s
/-- POD_RESPONSE (R157). -/
def execPodResponse (s : State) : Out := packetRow 18 s
/-- MCW (R164). -/
def execMcw (s : State) : Out := packetRow 0 s
/-- MCO (R165). -/
def execMco (s : State) : Out := packetRow 1 s
/-- RDN (R159). -/
def execRdn (s : State) : Out := packetRow 2 s
/-- LLQ (R159). -/
def execLlq (s : State) : Out := packetRow 3 s
/-- SCQ (R159). -/
def execScq (s : State) : Out := packetRow 4 s
/-- CTB (R168). -/
def execCtb (s : State) : Out := packetRow 5 s
/-- CRS (R169). -/
def execCrs (s : State) : Out := packetRow 6 s
/-- SPK (R169). -/
def execSpk (s : State) : Out := packetRow 7 s
/-- PASS (R172). -/
def execPassToken (s : State) : Out := packetRow 8 s

/-- RCV (R172): the packet arg.p that device arg.p.via − 1 sent on the recovery lane is taken as its own kind at its target,
and the sender is told; an intermediate device passes it on there. -/
def execRcv (s : State) : Out :=
  let p := comesIn s s.arg.p
  .next (if p.dst ≠ ownDev s then sendMin s p else sendMin (arrive s p) (recoveryAck s p))

/-- RECOVERY_ACK (R172): the acknowledgement arg.p; the holder passes on. -/
def execRecoveryAck (s : State) : Out := packetRow 19 s

/-- BADOP (R161): a packet with a code of 0xA to 0xF is dropped and counted. -/
def execBadop (s : State) : Out := .next (fabCount s 0)

/-- PACKET_BLOCKED (R171): the packets that have been at the head of a queue for BLOCK microseconds are blocked. -/
def execPacketBlocked (s : State) : Out := .next (markBlocked s)

/-- PASS_REISSUE (R173): the lowest reachable device has not seen the pass for 10 ms. -/
def execPassReissue (s : State) : Out :=
  .next (if (reachable s).any (fun t => decide (t < ownDev s)) || decide (nsOf s < s.fab.passSeen + 10000000) then s
    else passIn s { code := 8, seq := (s.fab.epoch + 1) % 2 ^ 16 })

/-! ## Links (R160) -/

/-- Port k retrains: it holds its traffic. -/
def retrain (s : State) (k : Nat) : State :=
  if s.fab.retraining.contains k then s
  else { s with fab := { s.fab with retraining := s.fab.retraining ++ [k], fails := tset 0 k 0 s.fab.fails } }

/-- LINK_REPLAY (R160): a replay on port arg.a, counted; arg.ok says whether it delivered the flit. Eight in a row that fail
retrain the link. -/
def execLinkReplay (s : State) : Out :=
  let k := s.arg.a % 32
  let s := fabCount s 36
  let n := if s.arg.ok then 0 else tget 0 k s.fab.fails + 1
  .next (if 8 ≤ n then retrain s k else { s with fab := { s.fab with fails := tset 0 k n s.fab.fails } })

/-- LANE_SPARE_RETRAIN (R160): port arg.a retrains with its spare lane, whose use is recorded (R509). -/
def execLaneSpareRetrain (s : State) : Out :=
  let k := s.arg.a % 32
  .next (retrain (mgtRecord (sysSet s srFabPorts (sysGet s srFabPorts ||| BitVec.ofNat 64 (2 ^ (32 + k)))) 0x09 6 k 3) k)

/-- LINK_RETRAIN_END (R160): port arg.a's retraining succeeds where arg.ok, and its traffic goes on; else it is tried again,
up to three times, after which its traffic waits for PORT_DOWN. -/
def execLinkRetrainEnd (s : State) : Out :=
  let k := s.arg.a % 32
  let n := tget 0 k s.fab.retrains + 1
  .next (if !s.fab.retraining.contains k then s
    else if s.arg.ok then { s with fab := { s.fab with
      retraining := s.fab.retraining.filter (fun j => j != k), retrains := tset 0 k 0 s.fab.retrains } }
    else { s with fab := { s.fab with retrains := tset 0 k (min n 3) s.fab.retrains } })

/-- The port of a packet whose port went down: a plain request of this device takes that of an earlier one to its line (R149),
or an NMASK port; the rest, and one with no such port, a remaining port to the same neighbour (R160). -/
def reroute (s : State) (p : Packet) : Option Nat × State :=
  let own := plainCode p.code && p.src == ownDev s
  match (if own then lineRoute s p.dst p.pa else none) with
  | some k => (some k, s)
  | none =>
    let mask := if own then maskPorts s p.dst else []
    match mask[Config.nonMinPort s.fresh % mask.length]? with
    | some k => (some k, if (minPorts s p.dst).contains k then { s with fresh := s.fresh + 1 } else countNonmin { s with fresh := s.fresh + 1 })
    | none => (minPort s p.dst p.pa, s)

/-- A queued packet moved, or failed at its issuer. -/
def requeue (s : State) (p : Packet) : State :=
  let s := setQueues s (s.fab.outbox.erase p)
  let (k, s) := reroute s p
  match k with
  | some k =>
    let s := outPkt s { p with port := k, headAt := none, blocked := false }
    (pktKeys s p).foldl (fun s key =>
      let t : ReqTag := tget {} key s.fab.tags
      if t.use.isNone then s
      else { s with fab := { s.fab with tags := tset {} key { t with pkt := { t.pkt with port := k } } s.fab.tags } }) s
  | none => noRoute s p

/-- PORT_DOWN (R160): after three failed retrainings port arg.a goes down, and its queued packets are moved, oldest first.
What has left on the link and is not acknowledged is lost. -/
def execPortDown (s : State) : Out :=
  let k := s.arg.a % 32
  .next (if tget 0 k s.fab.retrains < 3 then s
    else
      let s := sysSet s srFabPorts (sysGet s srFabPorts &&& ~~~(BitVec.ofNat 64 (2 ^ k)))
      let s := { s with fab := { s.fab with retrains := tset 0 k 0 s.fab.retrains, links := tset {} k {} s.fab.links,
                                            retraining := s.fab.retraining.filter (fun j => j != k) } }
      (s.fab.outbox.filter (fun p => p.port == k)).foldl requeue s)

/-! ## Ultra Ethernet and pod time -/

/-- UET_PACKET (R176): payload arg.data for the collective engines, or dropped and counted where its transport context is
unknown (not arg.ok). How an engine takes a payload the spec does not say: it is kept, DESIGN CHOICE, log entry 113. -/
def execUetPacket (s : State) : Out :=
  .next { s with fab :=
    if s.arg.ok then { s.fab with uet := s.fab.uet ++ [s.arg.data] } else { s.fab with uetDropped := s.fab.uetDropped + 1 } }

/-- PTP_SYNC (R178): arg.v is the time of arrival less the Sync's origin time, in 1/64 ns; OFFSET is that less the path
delay. Eight intervals in a row within 16 ns lock the counter, more than 32 ns unlocks it. An unlocked counter steps by
arg.c, a locked one takes arg.c as its rate correction (two's complement). A grandmaster follows no Sync. -/
def execPtpSync (s : State) : Out :=
  let c := s.clock
  let off : W32 := s.arg.v.setWidth 32 - c.pathDelay
  let m := off.toInt.natAbs
  let good := if m ≤ 16 * 64 then c.good + 1 else 0
  let lock := if 32 * 64 < m then false else c.lock || decide (8 ≤ good)
  let x := BitVec.ofNat 64 s.arg.c
  .next (if c.grandmaster then s
    else { s with clock := { c with offset := off, good, lock, time := if lock then c.time else c.time + x,
                                    rate := if lock then max (-(2 ^ 32)) x.toInt else 0 } })

/-- PTP_DELAY_RESP (R178): the mean path delay is measured, arg.v in 1/64 ns. -/
def execPtpDelayResp (s : State) : Out :=
  .next (if s.clock.grandmaster then s else { s with clock := { s.clock with pathDelay := s.arg.v.setWidth 32 } })

/-- PTP_SYNC_LOSS (R178): four Sync intervals pass without a Sync. -/
def execPtpSyncLoss (s : State) : Out :=
  .next (if s.clock.grandmaster then s else { s with clock := { s.clock with lock := false, good := 0, rate := 0 } })

end Sys2Proof.Machine
end

