-- ==== Sys2Proof/Machine/Host.lean ====
section
/-! DEFINITION. The host and the service processor: start-up and reset (R501, R502, R511), BAR0 and BAR4 (R497 to R499), far
extents (R500), power and clock (R505, R506), errors (R253, R508, R512), the mailbox (R503, R504, R513, R514). -/

namespace Sys2Proof.Machine

/-! ## Firmware images (R502) -/

/-- The key slot of an image, and its digests and signature. -/
def imgSlot (b : List Byte) : Nat := natAt b 12 1
/-- An image is accepted (R502). -/
def firmwareOk (b : List Byte) : Bool :=
  let body := b.drop 256
  decide (256 ≤ b.length) && natAt b 0 4 == 0x9B10F1A5 && decide (imgSlot b ≤ 3) && natAt b 13 3 == 0 && natAt b 202 54 == 0 &&
  natAt b 16 8 == body.length && !Config.keyRevoked (imgSlot b) &&
  (Config.shake256 (Config.slotKey (imgSlot b))).take 32 == Config.slotDigest (imgSlot b) &&
  Config.ed448Verify (Config.slotKey (imgSlot b)) (b.take 88) ((b.drop 88).take 114) &&
  Config.shake256 body == (b.drop 24).take 64 && decide (Config.minRollback ≤ natAt b 8 4)

/-- Version, rollback index and body digest of the running firmware (R504). -/
def fwReport (s : State) : List Byte :=
  match s.mgt.fw with
  | some b => (b.drop 4).take 8 ++ (b.drop 24).take 64
  | none => bytesLE 4 Config.fwVersion.toNat ++ bytesLE 4 Config.fwRollback.toNat ++ fitTo 64 Config.fwDigest

/-! ## Start-up and reset -/

/-- MGT.STATUS.STATE after start-up k (Table 19.2): the state of the first step that fails, else READY. A staged image that
R502 refuses fails step 1. -/
def startState (s : State) (k : Nat) : Nat :=
  let image := match s.mgt.mbox.next with | some b => firmwareOk b | none => true
  if !image || !Config.startStep k 1 then 2
  else match [2, 3, 4, 5].find? (fun n => !Config.startStep k n) with
    | some n => n + 1
    | none => 1

/-- Prebriyr's number and order for the device are a position of a pod (R143). -/
def positionOk (p : Nat × Nat) : Bool := [3, 7, 13, 31].contains p.1 && decide (p.2 ≤ p.1 * p.1 + p.1)

/-- Step 6: SYS.DEVNUM, the role in the pod's time (R178), and the ports that come up, of which an unconnected one stays down
(R145); where it fails the device is in no pod, and FABRIC is recorded. -/
def joinPod (s : State) (k : Nat) : State :=
  let p := Config.podPosition k
  if Config.startStep k 6 && positionOk p then
    let s := sysSet { s with clock := { s.clock with grandmaster := Config.grandmaster k } } srDevnum (BitVec.ofNat 64 (p.1 * 2 ^ 16 + p.2))
    let up := (List.range 32).filter (fun i => (Config.portsUp k).getLsbD i && (portTo s i).isSome)
    sysSet s srFabPorts (BitVec.ofNat 64 (up.map (fun i => 2 ^ i)).sum)
  else mgtRecord s 0x08 0 0 0

/-- Start-up from a machine whose registers have their reset values (Table 19.2, R509). -/
def startUp (s : State) : State :=
  let k := s.mgt.boots + 1
  let st := startState s k
  let s := { s with mgt := { s.mgt with state := st, boots := k } }
  if st ≠ 1 then s
  else
    let off := (List.range 512).filter (Config.coreOff k)
    let fw := match s.mgt.mbox.next with | some b => some b | none => s.mgt.fw
    let s := { s with mgt := { s.mgt with
      fw, mbox := { s.mgt.mbox with next := none }, spares := Config.sparesLeft k % 5, offCores := off, degraded := !off.isEmpty } }
    let s := (Config.sparesTaken k).foldl (fun s x => mgtRecord s 0x09 x.1 x.2.1 x.2.2) s
    let s := off.foldl (fun s c => mgtRecord s 0x0B 3 c 0) s
    joinPod s k

/-- A device reset (R508, R511): every register at its reset value, memory and arrays clear. The error ring, the spare map,
the firmware, the adapter's extents and the packets that have left on a link stay. -/
def deviceReset (s : State) : State :=
  let m := s.mgt
  startUp { State.reset with
    agenda := s.agenda, fresh := s.fresh, nextId := s.nextId, arg := s.arg
    fab := { sent := s.fab.sent }
    mgt := { ring := m.ring, dropped := m.dropped, signalled := m.signalled, boots := m.boots, fw := m.fw, extents := m.extents,
             spares := m.spares, offCores := m.offCores, degraded := m.degraded, mbox := { next := m.mbox.next } } }

/-- POWER_ON (R501): power is applied. -/
def execPowerOn (s : State) : Out :=
  .next (startUp { State.reset with
    agenda := s.agenda, fresh := s.fresh, nextId := s.nextId, arg := s.arg
    mgt := { boots := s.mgt.boots, fw := s.mgt.fw, mbox := { next := s.mgt.mbox.next } } })

/-- RESET (R511): a write of 1 to MGT.CTL.RESET, accepted in every state. -/
def execResetDevice (s : State) : Out := .next (deviceReset s)

/-! ## Errors (R508, R512) -/

/-- An error of Table 19.8 that resets the device after its entry is written. -/
def fatalError (s : State) (cause unit index : Nat) : State :=
  let s := mgtRecord s cause unit index 0
  deviceReset { s with mgt := { s.mgt with signalled := true } }

/-- D2D_FAILURE. -/
def execD2dFailure (s : State) : Out := .next (fatalError s 0x01 0 0)
/-- PREBRIYR_FAULT. -/
def execPrebriyrFault (s : State) : Out := .next (fatalError s 0x02 8 0)
/-- HBM_STACK_FAILURE: the stack in which the physical address arg.a lies (R67). -/
def execHbmStackFailure (s : State) : Out := .next (fatalError s 0x03 5 (hbmStack (s.arg.a % 2 ^ 39)))
/-- SOFTCORR: unit arg.a, index arg.b, array arg.c. -/
def execSoftcorr (s : State) : Out := .next (mgtRecord s 0x04 s.arg.a s.arg.b s.arg.c)
/-- SCRUB (R253): unit arg.a, index arg.b, array arg.c; recorded for management only. -/
def execScrub (s : State) : Out := .next (mgtRecord s 0x05 s.arg.a s.arg.b s.arg.c)
/-- BRODILE_LINK_RETRAIN (R497). -/
def execBrodileLinkRetrain (s : State) : Out := .next (mgtRecord s 0x0A 7 0 0)

/-- MGT_ERR (R512): a read of MGT.ERR removes the oldest entry and loads MGT.ERR_TIME. -/
def execMgtErr (s : State) : Out :=
  .next (match s.mgt.ring with
    | [] => s
    | e :: r => { s with mgt := { s.mgt with ring := r, errTime := BitVec.ofNat 64 e.time } })

/-- ERRCLR (R511): a write of 1 to MGT.CTL.ERRCLR empties the ring. -/
def errClear (s : State) : State := { s with mgt := { s.mgt with ring := [] } }
def execErrclr (s : State) : Out := .next (errClear s)

/-- ECC_UNCORR (R253): a request of tenant arg.b finds an uncorrectable error at the physical address arg.a: the sector is
poisoned, and the tenant's ring gets a class A record. -/
def execEccUncorr (s : State) : Out :=
  let p := s.arg.a % 2 ^ 39 / 32
  let s := if s.poison.contains p then s else { s with poison := s.poison ++ [p] }
  .next (emit s (s.arg.b % 64) { code := fcEccUncorr, issuer := 4 } 0)

/-! ## BAR0 and BAR4 -/

/-- What the host reads from management register n from offset 0x40_0000 (R511, Tables 19.3 to 19.7): the oldest entry of the
error ring at MGT.ERR, which the read removes (MGT_ERR). A field that is only written reads 0 (R9), an offset that is not
assigned all ones. -/
def mgtRead (s : State) (n : Nat) : W64 :=
  match n with
  | 0 => BitVec.ofNat 64 (s.mgt.spares * 2 ^ 8 + (if s.mgt.degraded then 2 ^ 7 else 0) + s.mgt.state)
  | 1 => 0
  | 2 => s.clock.sags ++ s.clock.caps ++ BitVec.ofNat 16 s.clock.step
  | 3 => s.clock.draw ++ (0 : W32) ++ s.clock.cap
  | 4 => (s.mgt.ring.head?.map MgtEntry.word).getD 0
  | 5 => s.mgt.errTime
  | _ => BitVec.allOnes 64

/-- The management registers in BAR0 (R511): a write to register n from offset 0x40_0000. A 1 to any bit of SAGS clears it, to
a bit of CAPS that bit (R9). -/
def mgtWrite (s : State) (n : Nat) (v : W64) : State :=
  match n with
  | 0 => s
  | 1 => let s := if bit 1 v then errClear s else s
         if bit 0 v then deviceReset s else s
  | 2 => { s with clock := { s.clock with
      sags := if bits 63 32 v = 0 then s.clock.sags else 0, caps := s.clock.caps &&& ~~~(v.extractLsb' 16 16) } }
  | 3 => { s with clock := { s.clock with cap := v.setWidth 16 } }
  | 4 => s
  | _ => s

/-- A host access to BAR0 that is not assigned, not 8 bytes or not aligned: a HOSTACC entry with the offset (R498, R511). -/
def hostAcc (s : State) (offset : Nat) : State := mgtRecord s 0x07 0 0 offset

/-- The host's write to BAR0 at offset 0x8000·view + 8·n (R498, R511). The system registers are refused until the device is
READY (R501). -/
def hostWrite (s : State) (view n : Nat) (v : W64) : State :=
  if 128 ≤ view then
    if view = 128 ∧ n < 6 then mgtWrite s n v else hostAcc s (0x8000 * view + 8 * n)
  else if s.mgt.state ≠ 1 then s
  else if 66 ≤ view ∨ !sysAssigned n then hostAcc s (0x8000 * view + 8 * n)
  else if hostIgnores n then s
  else if isPerTenant n then (if view < 64 then tenantWrite s view n v else s)
  else packageWrite s (viewDie view) n v

/-- SYSTEM_REGISTER_WRITE: the host's write of arg.v to register arg.b of view arg.a (R9, R498). -/
def execSystemRegisterWrite (s : State) : Out := .next (hostWrite s s.arg.a s.arg.b s.arg.v)

/-- INVALID_HOST_ACCESS (R498): an access at BAR0 offset arg.a. -/
def execInvalidHostAccess (s : State) : Out := .next (hostAcc s s.arg.a)

/-- HOST_MEMORY_ACCESS (R39, R497, R499): an access through BAR4 to offset arg.a that the host's table maps (arg.ok): a store of
arg.data, or a load where arg.data is empty. It is refused until the device is READY (R501). A load changes nothing. -/
def execHostMemoryAccess (s : State) : Out :=
  .next (if s.mgt.state ≠ 1 ∨ !s.arg.ok ∨ s.arg.data.isEmpty ∨ 2 ^ 39 < s.arg.a + s.arg.data.length then s
    else performStore s s.arg.a s.arg.data 0 3)

/-! ## Far extents (R500) -/

/-- An entry of the far-extent table with V = 1 is well formed. -/
def extentOk (b : List Byte) : Bool :=
  natAt b 0 8 % 2 ^ 21 == 0 && natAt b 0 8 / 2 ^ 52 == 0 && natAt b 8 4 != 0 && decide (natAt b 12 1 < 64) && natAt b 13 1 == 1 &&
  natAt b 14 2 == 0

/-- FAR_EXTENT_ADD (R500): entry arg.a is written as arg.data, 16 bytes, with V = 1. -/
def execFarExtentAdd (s : State) : Out :=
  let i := s.arg.a % 64
  let b := s.arg.data
  let base := natAt b 0 8
  let len := natAt b 8 4 * 2 ^ 21
  let clash := s.mgt.extents.any (fun p => p.1 != i && overlaps base len p.2.base p.2.len)
  .next (if extentOk b && !clash then
      { s with mgt := { s.mgt with extents := (s.mgt.extents.filter (fun p => decide (p.1 < i))) ++ [(i, ⟨base, len, natAt b 12 1, false⟩)] ++
        (s.mgt.extents.filter (fun p => decide (i < p.1))) } }
    else mgtRecord { s with mgt := { s.mgt with extents := s.mgt.extents.filter (fun p => p.1 != i) } } 0x06 0 0 0)

/-- FAR_EXTENT_RELEASE (R500): entry arg.a is written with V = 0; it is gone once no access to it is in flight. -/
def execFarExtentRelease (s : State) : Out :=
  let i := s.arg.a % 64
  let busy := fun (x : Extent) => s.fars.any (fun f => f.tenant == x.tenant && overlaps f.addr f.n x.base x.len)
  .next { s with mgt := { s.mgt with extents :=
    (s.mgt.extents.filter (fun p => p.1 != i || busy p.2)).map (fun p => if p.1 = i then (i, { p.2 with leaving := true }) else p) } }

/-! ## Power and clock (R505, R506) -/

/-- The power limit in force in watts (R505). -/
def powerLimit (s : State) : Nat :=
  let c := s.clock.cap.toNat
  if c = 0 ∨ 1800 < c then 1800 else c

/-- The lower of the step that the cap holds and the one that a sag forces (R506, R510). -/
def Clock.atStep (c : Clock) : Clock :=
  { c with step := if c.sag || c.recovered.isSome then max 2 c.capStep else c.capStep }

/-- POWER_CAP_STEP_DOWN (R505): the draw averaged over 1 ms is arg.v watts; beyond the limit the clock steps down. -/
def execPowerCapStepDown (s : State) : Out :=
  let c := { s.clock with draw := s.arg.v.setWidth 16 }
  .next { s with clock :=
    if powerLimit s < c.draw.toNat ∧ c.capStep < 2 then
      { c with capStep := c.capStep + 1, caps := if c.caps = BitVec.allOnes 16 then c.caps else c.caps + 1 }.atStep
    else c }

/-- SUPPLY_SAG (R506). -/
def execSupplySag (s : State) : Out :=
  let c := s.clock
  .next { s with clock :=
    { c with sag := true, recovered := none, sags := if c.sags = BitVec.allOnes 32 then c.sags else c.sags + 1 }.atStep }

/-- RAIL_RECOVERY (R506). -/
def execRailRecovery (s : State) : Out :=
  .next (if s.clock.sag then { s with clock := { s.clock with sag := false, recovered := some (nsOf s) }.atStep } else s)

/-- CLOCK_STEP_UP (R506): no sooner than 100 µs after the rail recovered, the clock returns to the highest step that the cap
allows; the cap holds no step while the draw, arg.v watts, is within the limit. -/
def execClockStepUp (s : State) : Out :=
  let c := { s.clock with draw := s.arg.v.setWidth 16 }
  let ready := !c.sag && (match c.recovered with | some t => decide (t + 100000 ≤ nsOf s) | none => true)
  .next (if ready then
      { s with clock := { c with recovered := none, capStep := if c.draw.toNat ≤ powerLimit s then 0 else c.capStep }.atStep }
    else { s with clock := c })

/-! ## The mailbox (R513, R514) -/

/-- A CMD write of `v` with request data: discarded while a request is pending (R513). -/
def mailboxCmd (s : State) (v : W64) : State :=
  let m := s.mgt.mbox
  let m := if m.state = 1 then { m with busy := true }
    else { m with state := 1, busy := false, err := 0, cmd := v, req := fitTo 3840 s.arg.data, resp := [] }
  { s with mgt := { s.mgt with mbox := m } }

/-- A row's CMD write: LEN and the reserved fields from arg.v, the request data arg.data. -/
def mailboxRow (op : Nat) (s : State) : Out := .next (mailboxCmd s (withBits 7 0 op s.arg.v))

/-- ATTEST (R514). -/
def execAttest (s : State) : Out := mailboxRow 1 s
/-- IDENTITY (R514). -/
def execIdentityRequest (s : State) : Out := mailboxRow 2 s
/-- STAGE_BEGIN (R514). -/
def execStageBegin (s : State) : Out := mailboxRow 3 s
/-- STAGE_DATA (R514). -/
def execStageData (s : State) : Out := mailboxRow 4 s
/-- STAGE_COMMIT (R514). -/
def execStageCommit (s : State) : Out := mailboxRow 5 s
/-- STAGE_ABORT (R514). -/
def execStageAbort (s : State) : Out := mailboxRow 6 s
/-- MAILBOX_BADOP (R514): a CMD write of arg.v, whatever its OP. -/
def execMailboxBadop (s : State) : Out := .next (mailboxCmd s s.arg.v)

/-- The configuration that a report's digest covers (R504). -/
def configBytes (s : State) : List Byte :=
  ([srFabCtl, srSramDefault] ++ (List.range 64).map (fun i => srExportA + i) ++ (List.range 64).map (fun i => srExportB + i)).flatMap
    (fun n => bytesLE 8 (sysGet s n).toNat) ++ Config.spareMap

/-- The attestation report (R504). -/
def report (s : State) (nonce : List Byte) : List Byte :=
  let b := fitTo 16 Config.serial ++ fwReport s ++ fitTo 64 (Config.shake256 (configBytes s)) ++ bytesLE 2 (ownDev s) ++ nonce
  b ++ fitTo 114 (Config.ed448Sign b)

/-- LEN lies in the range that Table 19.10 gives for an operation. -/
def lenOk (op n : Nat) : Bool :=
  match op with
  | 1 => n == 32
  | 3 => n == 8
  | 4 => decide (1 ≤ n ∧ n ≤ 3840)
  | _ => n == 0

/-- The end of a request: an error code, or the response and the staged image as the operation leaves them. -/
def mailboxServe (s : State) : Nat ⊕ Mailbox :=
  let m := s.mgt.mbox
  let op := bits 7 0 m.cmd
  let n := bits 31 16 m.cmd
  let len := natAt m.req 0 8
  if s.mgt.state = 0 then .inl 6
  else if bits 15 8 m.cmd ≠ 0 ∨ bits 63 32 m.cmd ≠ 0 ∨ op = 0 ∨ 6 < op then .inl 1
  else if !lenOk op n then .inl 2
  else match op, m.staged with
    | 1, _ => .inr { m with resp := report s (m.req.take 32) }
    | 2, _ => .inr { m with resp := (fitTo 57 Config.identityKey ++ List.replicate 7 0#8 ++ Config.certificate).take 8192 }
    | 3, _ => if 2 ^ 24 < len then .inl 4 else .inr { m with staged := some (len, []) }
    | 4, none => .inl 3
    | 4, some (all, b) => if min all (2 ^ 24) < b.length + n then .inl 4 else .inr { m with staged := some (all, b ++ m.req.take n) }
    | 5, none => .inl 3
    | 5, some (all, b) => if b.length = all && firmwareOk b then .inr { m with staged := none, next := some b } else .inl 5
    | _, _ => .inr { m with staged := none }

/-- MAILBOX_REQUEST_END (R513): the pending request ends. -/
def execMailboxRequestEnd (s : State) : Out :=
  .next (if s.mgt.mbox.state ≠ 1 then s
    else
      let m := match mailboxServe s with
        | .inl e => { s.mgt.mbox with state := 3, err := e }
        | .inr m => { m with state := 2 }
      { s with mgt := { s.mgt with mbox := m } })

end Sys2Proof.Machine
end

