-- ==== Sys2Proof/Machine/VecFloat.lean ====
section
/-! DEFINITION. The float vector instructions of majors 0x10 to 0x17, 0x1C, 0x1D, 0x1F and group 0x21, and CVT (R362,
R369, R371, R375, R376). -/

namespace Sys2Proof.Machine

/-- FADD (R369). -/
def execFadd (h : BitVec 2) (w : BitVec 3) (d a b : VReg) (s : State) : Out :=
  vec (floatSpec h.toNat w.toNat d.toNat a.toNat (some b.toNat) false (some 6) (fun f md x y _ => addF f md false x y)) s
/-- FSUB (R369). -/
def execFsub (h : BitVec 2) (w : BitVec 3) (d a b : VReg) (s : State) : Out :=
  vec (floatSpec h.toNat w.toNat d.toNat a.toNat (some b.toNat) false (some 6) (fun f md x y _ => addF f md true x y)) s
/-- FMUL (R369). -/
def execFmul (h : BitVec 2) (w : BitVec 3) (d a b : VReg) (s : State) : Out :=
  vec (floatSpec h.toNat w.toNat d.toNat a.toNat (some b.toNat) false (some 6) (fun f md x y _ => mulF f md x y)) s
/-- FMA: A·B + D (R369). -/
def execFma (h : BitVec 2) (w : BitVec 3) (d a b : VReg) (s : State) : Out :=
  vec (floatSpec h.toNat w.toNat d.toNat a.toNat (some b.toNat) true (some 6) (fun f md x y z => fmaF f md false false x y z)) s
/-- FMS: A·B − D (R369). -/
def execFms (h : BitVec 2) (w : BitVec 3) (d a b : VReg) (s : State) : Out :=
  vec (floatSpec h.toNat w.toNat d.toNat a.toNat (some b.toNat) true (some 6) (fun f md x y z => fmaF f md false true x y z)) s
/-- FNMA: D − A·B (R369). -/
def execFnma (h : BitVec 2) (w : BitVec 3) (d a b : VReg) (s : State) : Out :=
  vec (floatSpec h.toNat w.toNat d.toNat a.toNat (some b.toNat) true (some 6) (fun f md x y z => fmaF f md true false x y z)) s
/-- FMIN (R277). -/
def execFmin (h : BitVec 2) (w : BitVec 3) (d a b : VReg) (s : State) : Out :=
  vec (floatSpec h.toNat w.toNat d.toNat a.toNat (some b.toNat) false (some 6) (fun f md x y _ => minmaxF f md false x y)) s
/-- FMAX (R277). -/
def execFmax (h : BitVec 2) (w : BitVec 3) (d a b : VReg) (s : State) : Out :=
  vec (floatSpec h.toNat w.toNat d.toNat a.toNat (some b.toNat) false (some 6) (fun f md x y _ => minmaxF f md true x y)) s
/-- FSCALE: Round(A·2^k) (R369). -/
def execFscale (h : BitVec 2) (w : BitVec 3) (d a b : VReg) (s : State) : Out :=
  vec (floatSpec h.toNat w.toNat d.toNat a.toNat (some b.toNat) false (some 6) (fun f md x y _ => scaleF f md x (sval f.width y))) s
/-- DOT2 (R371). -/
def execDot2 (h : BitVec 2) (w : BitVec 3) (d a b : VReg) (s : State) : Out :=
  vec { vbase h.toNat w.toNat with
        a := some a.toNat, b := some b.toNat, ds := some d.toNat, dst := .v d.toNat, lat := some 8
        run := perLane (fun m i => dot2F (fmodeOf m) i.a i.b i.d) } s
/-- DOT4: unsigned under ETYPE UINT32 only (R371). -/
def execDot4 (h : BitVec 2) (w : BitVec 3) (d a b : VReg) (s : State) : Out :=
  vec { vbase h.toNat w.toNat with
        a := some a.toNat, b := some b.toNat, ds := some d.toNat, dst := .v d.toNat, lat := some 8
        run := perLane (fun m i => dot4 (modeEtype m != 10) (modeSat m) i.a i.b i.d) } s

/-- A unary float instruction of group 0x21. -/
def unaryF (h : BitVec 2) (w : BitVec 3) (d a : VReg) (lat : Option Nat) (f : Fmt → FMode → Nat → Nat × Fl) : VSpec :=
  floatSpec h.toNat w.toNat d.toNat a.toNat none false lat (fun ft md x _ _ => f ft md x)

/-- FNEG: the sign bit flipped (R375). -/
def execFneg (h : BitVec 2) (w : BitVec 3) (d a : VReg) (s : State) : Out :=
  vec (unaryF h w d a (some 4) (fun f _ x => (x ^^^ 2 ^ (f.width - 1), 0))) s
/-- FABS: the sign bit cleared (R375). -/
def execFabs (h : BitVec 2) (w : BitVec 3) (d a : VReg) (s : State) : Out :=
  vec (unaryF h w d a (some 4) (fun f _ x => (x % 2 ^ (f.width - 1), 0))) s
/-- FRCP (Table 9.5). -/
def execFrcp (h : BitVec 2) (w : BitVec 3) (d a : VReg) (s : State) : Out := vec (unaryF h w d a none rcpF) s
/-- FRSQ (Table 9.5). -/
def execFrsq (h : BitVec 2) (w : BitVec 3) (d a : VReg) (s : State) : Out := vec (unaryF h w d a none rsqF) s
/-- FSQRT (R276). -/
def execFsqrt (h : BitVec 2) (w : BitVec 3) (d a : VReg) (s : State) : Out := vec (unaryF h w d a none sqrtF) s
/-- FEXP2 (Table 9.5). -/
def execFexp2 (h : BitVec 2) (w : BitVec 3) (d a : VReg) (s : State) : Out :=
  vec (unaryF h w d a none (fun f md x => exp2F f md (hardEl f 0 x) x)) s
/-- FLOG2 (Table 9.5). -/
def execFlog2 (h : BitVec 2) (w : BitVec 3) (d a : VReg) (s : State) : Out :=
  vec (unaryF h w d a none (fun f md x => log2F f md (hardEl f 1 x) x)) s
/-- FSIN (Table 9.5). -/
def execFsin (h : BitVec 2) (w : BitVec 3) (d a : VReg) (s : State) : Out :=
  vec (unaryF h w d a none (fun f md x => trigF f md false (hardEl f 2 x) x)) s
/-- FCOS (Table 9.5). -/
def execFcos (h : BitVec 2) (w : BitVec 3) (d a : VReg) (s : State) : Out :=
  vec (unaryF h w d a none (fun f md x => trigF f md true (hardEl f 3 x) x)) s
/-- FFLOOR (Table 9.5). -/
def execFfloor (h : BitVec 2) (w : BitVec 3) (d a : VReg) (s : State) : Out :=
  vec (unaryF h w d a (some 6) (fun f md x => rintF f md 2 false x)) s
/-- FCEIL (Table 9.5). -/
def execFceil (h : BitVec 2) (w : BitVec 3) (d a : VReg) (s : State) : Out :=
  vec (unaryF h w d a (some 6) (fun f md x => rintF f md 3 false x)) s
/-- FTRUNC (Table 9.5). -/
def execFtrunc (h : BitVec 2) (w : BitVec 3) (d a : VReg) (s : State) : Out :=
  vec (unaryF h w d a (some 6) (fun f md x => rintF f md 1 false x)) s
/-- FRINT: an integer under MODE.RND, NX when it differs (Table 9.5). -/
def execFrint (h : BitVec 2) (w : BitVec 3) (d a : VReg) (s : State) : Out :=
  vec (unaryF h w d a (some 6) (fun f md x => rintF f md md.rnd true x)) s
/-- FCLASS (Table 12.4). -/
def execFclass (h : BitVec 2) (w : BitVec 3) (d a : VReg) (s : State) : Out :=
  vec (unaryF h w d a (some 6) (fun f _ x => (classF f x, 0))) s
/-- FFRAC (Table 9.5). -/
def execFfrac (h : BitVec 2) (w : BitVec 3) (d a : VReg) (s : State) : Out :=
  vec (unaryF h w d a (some 6) fracF) s

/-- CVT's source code and element index are legal (R302). -/
def cvtSrcOk (f n : Nat) : Bool :=
  decide (f ≤ 11) && f != 5 &&
  (match codeWidth f with | 16 => decide (n ≤ 1) | 8 => true | _ => n == 0)

/-- CVT of element n of format f to MODE.ETYPE (R376). -/
def execCvt (h : BitVec 2) (w : BitVec 3) (d a : VReg) (n : BitVec 2) (f : BitVec 4) (s : State) : Out :=
  vec { vbase h.toNat w.toNat with
        enc := cvtSrcOk f.toNat n.toNat, legal := fun m => modeEtype m != 5 && decide (modeEtype m ≤ 11)
        a := some a.toNat, dst := .v d.toNat, lat := some 6
        pairA := fun _ => f.toNat == 11, pairD := isI64
        run := perLane (fun m i =>
          cvtElem (fmodeOf m) f.toNat (modeEtype m) (elem (codeWidth f.toNat) n.toNat i.a)) } s

end Sys2Proof.Machine
end

