-- ==== Sys2Proof/Machine/VecInt.lean ====
section
/-! DEFINITION. The integer vector instructions of majors 0x01 to 0x0F, the unary group 0x20, the compares, the
immediates and the constants (R361 to R368, R374, R381 to R383). -/

namespace Sys2Proof.Machine

/-- IADD (R367). -/
def execIadd (h : BitVec 2) (w : BitVec 3) (d a b : VReg) (s : State) : Out :=
  vec (intElSpec h.toNat w.toNat d.toNat a.toNat (some b.toNat) false 4
    (fun c sat x y z => intEl c sat (fun x y _ => x + y) x y z)) s
/-- ISUB (R367). -/
def execIsub (h : BitVec 2) (w : BitVec 3) (d a b : VReg) (s : State) : Out :=
  vec (intElSpec h.toNat w.toNat d.toNat a.toNat (some b.toNat) false 4
    (fun c sat x y z => intEl c sat (fun x y _ => x - y) x y z)) s
/-- IMUL (R367). -/
def execImul (h : BitVec 2) (w : BitVec 3) (d a b : VReg) (s : State) : Out :=
  vec (intElSpec h.toNat w.toNat d.toNat a.toNat (some b.toNat) false 6
    (fun c sat x y z => intEl c sat (fun x y _ => x * y) x y z)) s
/-- IMULH: floor(A·B / 2^w) (R367). -/
def execImulh (h : BitVec 2) (w : BitVec 3) (d a b : VReg) (s : State) : Out :=
  vec (intElSpec h.toNat w.toNat d.toNat a.toNat (some b.toNat) false 6
    (fun c _ x y z => intEl c false (fun x y _ => x * y / (2 ^ c.w : Int)) x y z)) s
/-- IMAD: A·B + D (R367). -/
def execImad (h : BitVec 2) (w : BitVec 3) (d a b : VReg) (s : State) : Out :=
  vec (intElSpec h.toNat w.toNat d.toNat a.toNat (some b.toNat) true 6
    (fun c sat x y z => intEl c sat (fun x y z => x * y + z) x y z)) s
/-- IMIN (R367). -/
def execImin (h : BitVec 2) (w : BitVec 3) (d a b : VReg) (s : State) : Out :=
  vec (intElSpec h.toNat w.toNat d.toNat a.toNat (some b.toNat) false 4
    (fun c _ x y z => intEl c false (fun x y _ => min x y) x y z)) s
/-- IMAX (R367). -/
def execImax (h : BitVec 2) (w : BitVec 3) (d a b : VReg) (s : State) : Out :=
  vec (intElSpec h.toNat w.toNat d.toNat a.toNat (some b.toNat) false 4
    (fun c _ x y z => intEl c false (fun x y _ => max x y) x y z)) s
/-- IABSD: |A − B| (R367). -/
def execIabsd (h : BitVec 2) (w : BitVec 3) (d a b : VReg) (s : State) : Out :=
  vec (intElSpec h.toNat w.toNat d.toNat a.toNat (some b.toNat) false 4
    (fun c _ x y z => intEl c false (fun x y _ => ((x - y).natAbs : Int)) x y z)) s
/-- AND (R368). -/
def execVand (h : BitVec 2) (w : BitVec 3) (d a b : VReg) (s : State) : Out :=
  vec (wordSpec h.toNat w.toNat d.toNat a.toNat (some b.toNat) 4 (fun x y => x &&& y)) s
/-- OR (R368). -/
def execVor (h : BitVec 2) (w : BitVec 3) (d a b : VReg) (s : State) : Out :=
  vec (wordSpec h.toNat w.toNat d.toNat a.toNat (some b.toNat) 4 (fun x y => x ||| y)) s
/-- XOR (R368). -/
def execVxor (h : BitVec 2) (w : BitVec 3) (d a b : VReg) (s : State) : Out :=
  vec (wordSpec h.toNat w.toNat d.toNat a.toNat (some b.toNat) 4 (fun x y => x ^^^ y)) s
/-- ANDN: a and not b (R368). -/
def execAndn (h : BitVec 2) (w : BitVec 3) (d a b : VReg) (s : State) : Out :=
  vec (wordSpec h.toNat w.toNat d.toNat a.toNat (some b.toNat) 4 (fun x y => x &&& (0xFFFFFFFF ^^^ y))) s
/-- SHL (R368). -/
def execShl (h : BitVec 2) (w : BitVec 3) (d a b : VReg) (s : State) : Out :=
  vec (intSpec h.toNat w.toNat d.toNat a.toNat (some b.toNat) false 4 (fun c _ => shiftReg c shlEl)) s
/-- SHR (R368). -/
def execShr (h : BitVec 2) (w : BitVec 3) (d a b : VReg) (s : State) : Out :=
  vec (intSpec h.toNat w.toNat d.toNat a.toNat (some b.toNat) false 4 (fun c _ => shiftReg c shrEl)) s
/-- SRA (R368). -/
def execSra (h : BitVec 2) (w : BitVec 3) (d a b : VReg) (s : State) : Out :=
  vec (intSpec h.toNat w.toNat d.toNat a.toNat (some b.toNat) false 4 (fun c _ => shiftReg c sraEl)) s

/-- MOV (Table 12.3). -/
def execMov (h : BitVec 2) (w : BitVec 3) (d a : VReg) (s : State) : Out :=
  vec (wordSpec h.toNat w.toNat d.toNat a.toNat none 4 (fun x _ => x)) s
/-- NOT (Table 12.3). -/
def execVnot (h : BitVec 2) (w : BitVec 3) (d a : VReg) (s : State) : Out :=
  vec (wordSpec h.toNat w.toNat d.toNat a.toNat none 4 (fun x _ => 0xFFFFFFFF ^^^ x)) s
/-- INEG (Table 12.3). -/
def execIneg (h : BitVec 2) (w : BitVec 3) (d a : VReg) (s : State) : Out :=
  vec (intElSpec h.toNat w.toNat d.toNat a.toNat none false 4
    (fun c sat x y z => intEl c sat (fun x _ _ => -x) x y z)) s
/-- IABS (Table 12.3). -/
def execIabs (h : BitVec 2) (w : BitVec 3) (d a : VReg) (s : State) : Out :=
  vec (intElSpec h.toNat w.toNat d.toNat a.toNat none false 4
    (fun c sat x y z => intEl c sat (fun x _ _ => (x.natAbs : Int)) x y z)) s
/-- POPC (Table 12.3). -/
def execPopc (h : BitVec 2) (w : BitVec 3) (d a : VReg) (s : State) : Out :=
  vec (wordSpec h.toNat w.toNat d.toNat a.toNat none 4 (fun x _ => popN 32 x)) s
/-- CLZ (Table 12.3). -/
def execClz (h : BitVec 2) (w : BitVec 3) (d a : VReg) (s : State) : Out :=
  vec (wordSpec h.toNat w.toNat d.toNat a.toNat none 4 (fun x _ => ctzN 32 (revN 32 x))) s
/-- CTZ (Table 12.3). -/
def execCtz (h : BitVec 2) (w : BitVec 3) (d a : VReg) (s : State) : Out :=
  vec (wordSpec h.toNat w.toNat d.toNat a.toNat none 4 (fun x _ => ctzN 32 x)) s
/-- BREV (Table 12.3). -/
def execBrev (h : BitVec 2) (w : BitVec 3) (d a : VReg) (s : State) : Out :=
  vec (wordSpec h.toNat w.toNat d.toNat a.toNat none 4 (fun x _ => revN 32 x)) s
/-- SEXT8 (Table 12.3). -/
def execSext8 (h : BitVec 2) (w : BitVec 3) (d a : VReg) (s : State) : Out :=
  vec (wordSpec h.toNat w.toNat d.toNat a.toNat none 4 (fun x _ => wrapN 32 (sval 8 x))) s
/-- SEXT16 (Table 12.3). -/
def execSext16 (h : BitVec 2) (w : BitVec 3) (d a : VReg) (s : State) : Out :=
  vec (wordSpec h.toNat w.toNat d.toNat a.toNat none 4 (fun x _ => wrapN 32 (sval 16 x))) s
/-- ZEXT8 (Table 12.3). -/
def execZext8 (h : BitVec 2) (w : BitVec 3) (d a : VReg) (s : State) : Out :=
  vec (wordSpec h.toNat w.toNat d.toNat a.toNat none 4 (fun x _ => x % 2 ^ 8)) s
/-- ZEXT16 (Table 12.3). -/
def execZext16 (h : BitVec 2) (w : BitVec 3) (d a : VReg) (s : State) : Out :=
  vec (wordSpec h.toNat w.toNat d.toNat a.toNat none 4 (fun x _ => x % 2 ^ 16)) s
/-- BSWAP (Table 12.3). -/
def execBswap (h : BitVec 2) (w : BitVec 3) (d a : VReg) (s : State) : Out :=
  vec (wordSpec h.toNat w.toNat d.toNat a.toNat none 4
    (fun x _ => ofElems 8 [elem 8 3 x, elem 8 2 x, elem 8 1 x, elem 8 0 x])) s

/-- MOVG and MOVGH: a word of a g register in every active lane (R374). -/
def movgSpec (w d g : Nat) (hi : Bool) : VSpec :=
  { vbase 0 w with gr := some g, dst := .v d
                   run := perLane (fun _ i => (if hi then i.g.toNat / 2 ^ 32 else i.g.toNat % 2 ^ 32, 0)) }
/-- MOVG (R374). -/
def execMovg (w : BitVec 3) (d : VReg) (g : GReg) (s : State) : Out :=
  vec (movgSpec w.toNat d.toNat g.toNat false) s
/-- MOVGH (R374). -/
def execMovgh (w : BitVec 3) (d : VReg) (g : GReg) (s : State) : Out :=
  vec (movgSpec w.toNat d.toNat g.toNat true) s

/-- ICMP: the compare of Table 10.8 on words, or on pairs under INT64 (R381). -/
def execIcmp (h : BitVec 2) (w : BitVec 3) (c : BitVec 4) (p : PReg) (a b : VReg) (s : State) : Out :=
  vec { vbase h.toNat w.toNat with
        enc := decide (c.toNat ≤ 9), a := some a.toNat, b := some b.toNat, dst := .p p.toNat
        pairA := isI64, pairB := isI64
        run := perLane (fun m i => (if icmpCode c.toNat (if isI64 m then 64 else 32) i.a i.b then 1 else 0, 0)) } s
/-- FCMP: the compare of Table 10.8 on element 0 (R381). -/
def execFcmp (h : BitVec 2) (w : BitVec 3) (c : BitVec 4) (p : PReg) (a b : VReg) (s : State) : Out :=
  vec { vbase h.toNat w.toNat with
        enc := decide (c.toNat ≤ 13), legal := fun m => (fclass (modeEtype m)).isSome
        a := some a.toNat, b := some b.toNat, dst := .p p.toNat
        run := perLane (fun m i => match fclass (modeEtype m) with
          | some (f, _) =>
            let md := fmodeOf m
            (if fcmpCode c.toNat (readF f md (elem f.width 0 i.a)) (readF f md (elem f.width 0 i.b)) then 1 else 0, 0)
          | none => (0, 0)) } s

/-- The value of a 6-bit immediate, sign-extended to w bits. -/
def imm6 (i : BitVec 6) (w : Nat) : Nat := wrapN w i.toInt

/-- IADDI: IADD with B the sign-extended immediate (R382). -/
def execIaddi (w : BitVec 3) (d a : VReg) (i : BitVec 6) (s : State) : Out :=
  vec (intElSpec 0 w.toNat d.toNat a.toNat none false 4
    (fun c sat x _ z => intEl c sat (fun x _ _ => x + i.toInt) x 0 z)) s
/-- ANDI (R382). -/
def execAndi (w : BitVec 3) (d a : VReg) (i : BitVec 6) (s : State) : Out :=
  vec (wordSpec 0 w.toNat d.toNat a.toNat none 4 (fun x _ => x &&& imm6 i 32)) s
/-- ORI (R382). -/
def execOri (w : BitVec 3) (d a : VReg) (i : BitVec 6) (s : State) : Out :=
  vec (wordSpec 0 w.toNat d.toNat a.toNat none 4 (fun x _ => x ||| imm6 i 32)) s
/-- XORI (R382). -/
def execXori (w : BitVec 3) (d a : VReg) (i : BitVec 6) (s : State) : Out :=
  vec (wordSpec 0 w.toNat d.toNat a.toNat none 4 (fun x _ => x ^^^ imm6 i 32)) s
/-- The immediate shifts: the amount is imm6, 0 to 31 (R304, R382). -/
def shiftiSpec (w d a i : Nat) (f : Nat → Nat → Nat → Nat) : VSpec :=
  let sp := intElSpec 0 w d a none false 4 (fun c _ x _ _ => (f c.w x i, 0))
  { sp with enc := decide (i < 32) }
/-- SHLI (R382). -/
def execShli (w : BitVec 3) (d a : VReg) (i : BitVec 6) (s : State) : Out :=
  vec (shiftiSpec w.toNat d.toNat a.toNat i.toNat shlEl) s
/-- SHRI (R382). -/
def execShri (w : BitVec 3) (d a : VReg) (i : BitVec 6) (s : State) : Out :=
  vec (shiftiSpec w.toNat d.toNat a.toNat i.toNat shrEl) s
/-- SRAI (R382). -/
def execSrai (w : BitVec 3) (d a : VReg) (i : BitVec 6) (s : State) : Out :=
  vec (shiftiSpec w.toNat d.toNat a.toNat i.toNat sraEl) s
/-- MOVK: the zero-extended constant (R383). -/
def execMovk (w : BitVec 3) (d : VReg) (i : BitVec 16) (s : State) : Out :=
  vec { vbase 0 w.toNat with dst := .v d.toNat, run := perLane (fun _ _ => (i.toNat, 0)) } s
/-- MOVKH: the constant in bits [31:16]; bits [15:0] stay (R383). -/
def execMovkh (w : BitVec 3) (d : VReg) (i : BitVec 16) (s : State) : Out :=
  vec { vbase 0 w.toNat with
        ds := some d.toNat, dst := .v d.toNat
        run := perLane (fun _ x => (x.d % 2 ^ 16 + 2 ^ 16 * i.toNat, 0)) } s

end Sys2Proof.Machine
end

