-- ==== Sys2Proof/Machine/VecLane.lean ====
section
/-! DEFINITION. Selection, packing, cross-lane and index-register instructions (R370, R372, R373, R377 to R380). -/

namespace Sys2Proof.Machine

/-- SEL: a where p[MODE.SELP] is 1, else b (R370). -/
def execSel (h : BitVec 2) (w : BitVec 3) (d a b : VReg) (s : State) : Out :=
  vec { vbase h.toNat w.toNat with
        a := some a.toNat, b := some b.toNat, dst := .v d.toNat, preds := fun m => [modeSelp m]
        run := perLane (fun _ i => (if i.pr.all id then i.a else i.b, 0)) } s
/-- PACK (R372). -/
def execPack (h : BitVec 2) (w : BitVec 3) (d a b : VReg) (s : State) : Out :=
  vec { vbase h.toNat w.toNat with
        legal := fun m => (packWidth (modeEtype m)).isSome
        a := some a.toNat, b := some b.toNat, dst := .v d.toNat, lat := some 8
        run := perLane (fun m i => match packWidth (modeEtype m) with
          | some k => (packBits k i.a i.b, 0)
          | none => (0, 0)) } s

/-- a of gang lane j where that lane is active in the cohort, else of the reading lane (R373). -/
def srcLane (l : List LaneIn) (i : LaneIn) (j : Nat) : Nat :=
  match l.find? (fun x => x.gl == j) with
  | some x => x.a
  | none => i.a

/-- SHFL (R373). -/
def execShfl (h : BitVec 2) (w : BitVec 3) (d a b : VReg) (s : State) : Out :=
  vec (crossSpec h.toNat w.toNat d.toNat (some a.toNat) (some b.toNat) 8 (fun l i => srcLane l i (i.b % 32))) s
/-- SHFLX (R373). -/
def execShflx (h : BitVec 2) (w : BitVec 3) (d a b : VReg) (s : State) : Out :=
  vec (crossSpec h.toNat w.toNat d.toNat (some a.toNat) (some b.toNat) 8 (fun l i => srcLane l i (i.gl ^^^ (i.b % 32)))) s
/-- Byte n of a of gang lane j where that lane is active, else 0 (R373). -/
def srcByte (l : List LaneIn) (sel : Nat) : Nat :=
  if 128 ≤ sel then 0
  else match l.find? (fun x => x.gl == sel / 4) with
    | some x => elem 8 (sel % 4) x.a
    | none => 0
/-- BPRM (R373). -/
def execBprm (h : BitVec 2) (w : BitVec 3) (d a b : VReg) (s : State) : Out :=
  vec (crossSpec h.toNat w.toNat d.toNat (some a.toNat) (some b.toNat) 8
    (fun l i => ofElems 8 ((List.range 4).map (fun k => srcByte l (elem 8 k i.b))))) s

/-- BALLOT (Table 12.5). -/
def execBallot (h : BitVec 2) (w : BitVec 3) (d a : VReg) (s : State) : Out :=
  vec (crossSpec h.toNat w.toNat d.toNat (some a.toNat) none 12
    (fun l _ => (l.map (fun x => if x.a = 0 then 0 else 2 ^ x.gl)).foldl (· ||| ·) 0)) s
/-- VANY (Table 12.5). -/
def execVany (h : BitVec 2) (w : BitVec 3) (d a : VReg) (s : State) : Out :=
  vec (crossSpec h.toNat w.toNat d.toNat (some a.toNat) none 12 (fun l _ => if l.any (fun x => x.a != 0) then 1 else 0)) s
/-- VALL (Table 12.5). -/
def execVall (h : BitVec 2) (w : BitVec 3) (d a : VReg) (s : State) : Out :=
  vec (crossSpec h.toNat w.toNat d.toNat (some a.toNat) none 12 (fun l _ => if l.all (fun x => x.a != 0) then 1 else 0)) s
/-- BCAST: a of the lowest active gang lane (Table 12.5). -/
def execBcast (h : BitVec 2) (w : BitVec 3) (d a : VReg) (s : State) : Out :=
  vec (crossSpec h.toNat w.toNat d.toNat (some a.toNat) none 12 (fun l i => match l with | [] => i.a | x :: _ => x.a)) s
/-- LANEID: the lane within its slice (Table 12.5, R181). -/
def execLaneid (h : BitVec 2) (w : BitVec 3) (d : VReg) (s : State) : Out :=
  vec { vbase h.toNat w.toNat with dst := .v d.toNat, run := perLane (fun _ i => (i.ln, 0)) } s
/-- SLICEID: the slice within its team (Table 12.5, R181). -/
def execSliceid (h : BitVec 2) (w : BitVec 3) (d : VReg) (s : State) : Out :=
  vec { vbase h.toNat w.toNat with dst := .v d.toNat, run := perLane (fun _ i => (i.sl, 0)) } s
/-- UNIQ: 1 where no lower active lane holds the same word (Table 12.5). -/
def execUniq (h : BitVec 2) (w : BitVec 3) (d a : VReg) (s : State) : Out :=
  vec (crossSpec h.toNat w.toNat d.toNat (some a.toNat) none 12
    (fun l i => if l.any (fun x => decide (x.gl < i.gl) && x.a == i.a) then 0 else 1)) s

/-- A float reduction of element e over the active lanes by the tree of R168 (R378). -/
def redFloatEl (f : Fmt) (comb : Nat → Nat → Nat × Fl) (l : List LaneIn) (e : Nat) : Nat × Fl :=
  let (r, fl) := treeFold comb 32 (l.map (fun x => elem f.width e x.a))
  (match r with | [] => 0 | x :: _ => x, fl)

/-- An integer reduction of element e (R378). -/
def redIntEl (c : ICls) (sat : Bool) (comb : Int → Int → Int) (l : List LaneIn) (e : Nat) : Nat × Fl :=
  match l.map (fun x => ival c.sgn c.w (elem c.w e x.a)) with
  | [] => (0, 0)
  | x :: r => satWrap c sat (r.foldl comb x)

/-- REDADD, REDMIN and REDMAX: every active lane receives the result (R378). -/
def redSpec (h : BitVec 2) (w : BitVec 3) (d a : VReg) (ff : Fmt → FMode → Nat → Nat → Nat × Fl) (isAdd : Bool)
    (fi : Int → Int → Int) : VSpec :=
  { vbase h.toNat w.toNat with
    legal := fun m => (fclass (modeEtype m)).isSome || (redIClass (modeEtype m)).isSome
    a := some a.toNat, dst := .v d.toNat, lat := some 12, cross := true
    pairA := isI64, pairD := isI64
    run := fun m l =>
      let (x, fl) := match fclass (modeEtype m) with
        | some (f, n) => elemsOut f.width ((List.range n).map (redFloatEl f (ff f (fmodeOf m)) l))
        | none => match redIClass (modeEtype m) with
          | some c => elemsOut c.w ((List.range c.n).map (redIntEl c (isAdd && modeSat m) fi l))
          | none => (0, 0)
      (l.map (fun _ => x), if l.isEmpty then 0 else fl) }
/-- REDADD (R378). -/
def execRedadd (h : BitVec 2) (w : BitVec 3) (d a : VReg) (s : State) : Out :=
  vec (redSpec h w d a (fun f md x y => addF f md false x y) true (fun x y => x + y)) s
/-- REDMIN (R378). -/
def execRedmin (h : BitVec 2) (w : BitVec 3) (d a : VReg) (s : State) : Out :=
  vec (redSpec h w d a (fun f md x y => minmaxF f md false x y) false min) s
/-- REDMAX (R378). -/
def execRedmax (h : BitVec 2) (w : BitVec 3) (d a : VReg) (s : State) : Out :=
  vec (redSpec h w d a (fun f md x y => minmaxF f md true x y) false max) s

/-- The running sums of element e, lane by lane (R378). -/
def prfxEl (m : W64) (l : List LaneIn) (e : Nat) : List (Nat × Fl) :=
  match fclass (modeEtype m) with
  | some (f, _) =>
    match l.map (fun x => elem f.width e x.a) with
    | [] => []
    | x :: r => let (o, fl) := scanl1 (fun p q => addF f (fmodeOf m) false p q) x r; o.map (fun y => (y, fl))
  | none => match redIClass (modeEtype m) with
    | some c =>
      match l.map (fun x => ival c.sgn c.w (elem c.w e x.a)) with
      | [] => []
      | x :: r => (scanl1 (fun (p q : Int) => (p + q, 0)) x r).1.map (satWrap c (modeSat m))
    | none => []

/-- PRFXADD and PRFXEX (R378): the exclusive form gives each lane the sum of the lanes below it. -/
def prfxSpec (h : BitVec 2) (w : BitVec 3) (d a : VReg) (ex : Bool) : VSpec :=
  { vbase h.toNat w.toNat with
    legal := fun m => (fclass (modeEtype m)).isSome || (redIClass (modeEtype m)).isSome
    a := some a.toNat, dst := .v d.toNat, lat := some 12, cross := true
    pairA := isI64, pairD := isI64
    run := fun m l =>
      let (wd, n) := match fclass (modeEtype m) with
        | some (f, n) => (f.width, n)
        | none => match redIClass (modeEtype m) with | some c => (c.w, c.n) | none => (32, 1)
      let used := if ex then l.dropLast else l
      let cols := (List.range n).map (prfxEl m used)
      let cols := if ex then cols.map (fun c => ((0, 0) : Nat × Fl) :: c) else cols
      let rows := (List.range l.length).map (fun i => elemsOut wd (cols.map (fun c => c.getD i (0, 0))))
      (rows.map Prod.fst, (rows.map Prod.snd).foldl (· ||| ·) 0) }
/-- PRFXADD (R378). -/
def execPrfxadd (h : BitVec 2) (w : BitVec 3) (d a : VReg) (s : State) : Out := vec (prfxSpec h w d a false) s
/-- PRFXEX (R378). -/
def execPrfxex (h : BitVec 2) (w : BitVec 3) (d a : VReg) (s : State) : Out := vec (prfxSpec h w d a true) s

/-- XSET: xK := vA, bit 16 stored as 0 (Table 12.6). -/
def execXset (h : BitVec 2) (w : BitVec 3) (a : VReg) (x : XReg) (s : State) : Out :=
  vec { vbase h.toNat w.toNat with a := some a.toNat, dst := .x x.toNat, run := perLane (fun _ i => (i.a, 0)) } s
/-- XADD: IDX := (IDX + c) mod 2^16 (Table 12.6). -/
def execXadd (h : BitVec 2) (w : BitVec 3) (c : BitVec 7) (x : XReg) (s : State) : Out :=
  vec { vbase h.toNat w.toNat with
        xr := some x.toNat, dst := .x x.toNat
        run := perLane (fun _ i => (i.x.toNat / 2 ^ 16 * 2 ^ 16 + wrapN 16 ((i.x.toNat % 2 ^ 16 : Nat) + c.toInt), 0)) } s
/-- XGET: vD := xK (Table 12.6). -/
def execXget (h : BitVec 2) (w : BitVec 3) (d : VReg) (x : XReg) (s : State) : Out :=
  vec { vbase h.toNat w.toNat with xr := some x.toNat, dst := .v d.toNat, run := perLane (fun _ i => (i.x.toNat, 0)) } s
/-- P2V (Table 12.6). -/
def execP2v (h : BitVec 2) (w : BitVec 3) (d : VReg) (k : PReg) (s : State) : Out :=
  vec { vbase h.toNat w.toNat with
        dst := .v d.toNat, preds := fun _ => [k.toNat], run := perLane (fun _ i => (if i.pr.all id then 1 else 0, 0)) } s
/-- V2P (Table 12.6). -/
def execV2p (h : BitVec 2) (w : BitVec 3) (a : VReg) (k : PReg) (s : State) : Out :=
  vec { vbase h.toNat w.toNat with
        a := some a.toNat, dst := .p k.toNat, run := perLane (fun _ i => (if i.a = 0 then 0 else 1, 0)) } s
/-- A predicate operation on the predicates read (Table 12.6). -/
def predSpec (h : BitVec 2) (w : BitVec 3) (p : PReg) (src : List Nat) (f : List Bool → Bool) : VSpec :=
  { vbase h.toNat w.toNat with
    dst := .p p.toNat, preds := fun _ => src, run := perLane (fun _ i => (if f i.pr then 1 else 0, 0)) }
/-- PNOT (Table 12.6). -/
def execPnot (h : BitVec 2) (w : BitVec 3) (p q : PReg) (s : State) : Out :=
  vec (predSpec h w p [q.toNat] (fun l => !l.all id)) s
/-- PAND (Table 12.6). -/
def execPand (h : BitVec 2) (w : BitVec 3) (p r q : PReg) (s : State) : Out :=
  vec (predSpec h w p [q.toNat, r.toNat] (fun l => l.all id)) s
/-- POR (Table 12.6). -/
def execPor (h : BitVec 2) (w : BitVec 3) (p r q : PReg) (s : State) : Out :=
  vec (predSpec h w p [q.toNat, r.toNat] (fun l => l.any id)) s
/-- PXOR (Table 12.6). -/
def execPxor (h : BitVec 2) (w : BitVec 3) (p r q : PReg) (s : State) : Out :=
  vec (predSpec h w p [q.toNat, r.toNat] (fun l => l.foldl (fun x y => x != y) false)) s

/-- The register that an index register and a constant select: BASE + IDX + c; none out of bounds (R194, R380). LEN above
128 acts as 0. -/
def indexReg (x : W32) (c : Int) (n : Nat) : Option Nat :=
  let base : Nat := x.toNat / 2 ^ 25
  let len0 : Nat := (x.toNat / 2 ^ 17) % 2 ^ 8
  let len : Nat := if 128 < len0 then 0 else len0
  let t : Int := sval 16 x.toNat + c
  if t < 0 ∨ (len : Int) ≤ t ∨ n < base + len then none else some (base + t.toNat)

/-- VLDX and VSTX, with the register found per lane at execution: in-bounds lanes are performed, then BOUNDS is raised for
the others (R380). `st` writes the indexed register from d; otherwise d is loaded from it. In Gambit a lane whose index is INV or
out of bounds makes its destination INV and no access; one of which only the data is INV writes INV (R198, R199). -/
def indexRun (st : Bool) (h w d x : Nat) (c : Int) (s : State) (g : Gang) : State :=
  let sp : VSpec :=
    if st then { vbase h w with ds := some d, xr := some x } else { vbase h w with dst := .v d, xr := some x }
  let n := g.team.nregs
  let legal := sp.encOk && sp.ok n g.mode
  let act := activeLanes g w
  let ins := act.map (fun q => (q, sp.laneIn g q, { sp with ds := none }.invIn g q))
  let reg := fun (i : LaneIn) => indexReg i.x c n
  let cnt := fun (sl : Slice) => sl.count + max w 1
  if g.ahead then
    if !sp.encOk then endGambit s g.team.tid g.lead 5
    else if !legal then vecAhead sp s g false
    else
      let ok := ins.filter (fun e => !e.2.2 && (reg e.2.1).isSome)
      let saves := if st then ok.filterMap (fun e => (reg e.2.1).map (fun r => (e.1.1, r)))
        else ins.map (fun e => (e.1.1, d))
      match gambitSaves g.team saves with
      | none => endGambit s g.team.tid g.lead 3
      | some t =>
        let s := updTeam s g.team.tid (fun _ => t)
        finish s g w sp.held (fun k sl =>
          ins.foldl (fun acc e =>
            if e.1.1 = k then
              match (if e.2.2 then none else reg e.2.1) with
              | none => if st then acc else setInv acc (.v d) e.2.1.ln true
              | some r =>
                if st then setInv (writeReg (some 4) (cnt sl) acc (.v r) e.2.1.ln (BitVec.ofNat 32 e.2.1.d)) (.v r) e.2.1.ln (sp.invIn g e.1)
                else
                  let bad := isInv sl (.v r) e.2.1.ln || isShort sl (.v r) (cnt sl)
                  setInv (writeReg (some 4) (cnt sl) acc (.v d) e.2.1.ln (rdV sl r e.2.1.ln)) (.v d) e.2.1.ln bad
            else acc) sl)
  else if !legal then illegalGang s g
  else
    let found := distinct (ins.filterMap (fun e => reg e.2.1))
    let rd := sp.reads g.mode ++ (if st then [] else found.map (fun r => (RegId.v r, 0)))
    let wr := if st then found.map RegId.v else [.v d]
    match prelude s g w rd wr with
    | some s' => s'
    | none =>
      let bad := ins.filter (fun e => (reg e.2.1).isNone)
      let perform := fun (k : Nat) (sl : Slice) =>
        ins.foldl (fun acc e =>
          if e.1.1 = k then
            match reg e.2.1 with
            | none => acc
            | some r =>
              if st then writeReg (some 4) (cnt sl) acc (.v r) e.2.1.ln (BitVec.ofNat 32 e.2.1.d)
              else writeReg (some 4) (cnt sl) acc (.v d) e.2.1.ln (readV sl r e.2.1.ln (cnt sl))
          else acc) sl
      if bad.isEmpty then finish s g w sp.held perform
      else
        let s := updSlices s g.team.tid g.nums perform
        raiseGang s g fcBounds 0 0 0 ((bad.map (fun e => 2 ^ e.2.1.gl)).foldl (· ||| ·) 0)

/-- VLDX (R380). -/
def execVldx (h : BitVec 2) (w : BitVec 3) (d : VReg) (c : BitVec 7) (x : XReg) (s : State) : Out :=
  withGang s (indexRun false h.toNat w.toNat d.toNat x.toNat c.toInt)
/-- VSTX (R380). -/
def execVstx (h : BitVec 2) (w : BitVec 3) (d : VReg) (c : BitVec 7) (x : XReg) (s : State) : Out :=
  withGang s (indexRun true h.toNat w.toNat d.toNat x.toNat c.toInt)

end Sys2Proof.Machine
end

