-- ==== Sys2Proof/Machine/Dispatch.lean ====
section
/-! DEFINITION. The dispatch: one arm per row of the opcode table, each a direct call of that row's meaning. -/

namespace Sys2Proof.Machine

def exec (i : Instr) (s : State) : Host.Outcome State Fault Refusal :=
  match i with
  | .iadd h w d a b => Sys2Proof.Machine.execIadd h w d a b s
  | .isub h w d a b => Sys2Proof.Machine.execIsub h w d a b s
  | .imul h w d a b => Sys2Proof.Machine.execImul h w d a b s
  | .imulh h w d a b => Sys2Proof.Machine.execImulh h w d a b s
  | .imad h w d a b => Sys2Proof.Machine.execImad h w d a b s
  | .imin h w d a b => Sys2Proof.Machine.execImin h w d a b s
  | .imax h w d a b => Sys2Proof.Machine.execImax h w d a b s
  | .iabsd h w d a b => Sys2Proof.Machine.execIabsd h w d a b s
  | .vand h w d a b => Sys2Proof.Machine.execVand h w d a b s
  | .vor h w d a b => Sys2Proof.Machine.execVor h w d a b s
  | .vxor h w d a b => Sys2Proof.Machine.execVxor h w d a b s
  | .andn h w d a b => Sys2Proof.Machine.execAndn h w d a b s
  | .shl h w d a b => Sys2Proof.Machine.execShl h w d a b s
  | .shr h w d a b => Sys2Proof.Machine.execShr h w d a b s
  | .sra h w d a b => Sys2Proof.Machine.execSra h w d a b s
  | .fadd h w d a b => Sys2Proof.Machine.execFadd h w d a b s
  | .fsub h w d a b => Sys2Proof.Machine.execFsub h w d a b s
  | .fmul h w d a b => Sys2Proof.Machine.execFmul h w d a b s
  | .fma h w d a b => Sys2Proof.Machine.execFma h w d a b s
  | .fms h w d a b => Sys2Proof.Machine.execFms h w d a b s
  | .fnma h w d a b => Sys2Proof.Machine.execFnma h w d a b s
  | .fmin h w d a b => Sys2Proof.Machine.execFmin h w d a b s
  | .fmax h w d a b => Sys2Proof.Machine.execFmax h w d a b s
  | .sel h w d a b => Sys2Proof.Machine.execSel h w d a b s
  | .shfl h w d a b => Sys2Proof.Machine.execShfl h w d a b s
  | .shflx h w d a b => Sys2Proof.Machine.execShflx h w d a b s
  | .bprm h w d a b => Sys2Proof.Machine.execBprm h w d a b s
  | .dot2 h w d a b => Sys2Proof.Machine.execDot2 h w d a b s
  | .dot4 h w d a b => Sys2Proof.Machine.execDot4 h w d a b s
  | .pack h w d a b => Sys2Proof.Machine.execPack h w d a b s
  | .fscale h w d a b => Sys2Proof.Machine.execFscale h w d a b s
  | .mov h w d a => Sys2Proof.Machine.execMov h w d a s
  | .vnot h w d a => Sys2Proof.Machine.execVnot h w d a s
  | .ineg h w d a => Sys2Proof.Machine.execIneg h w d a s
  | .iabs h w d a => Sys2Proof.Machine.execIabs h w d a s
  | .popc h w d a => Sys2Proof.Machine.execPopc h w d a s
  | .clz h w d a => Sys2Proof.Machine.execClz h w d a s
  | .ctz h w d a => Sys2Proof.Machine.execCtz h w d a s
  | .brev h w d a => Sys2Proof.Machine.execBrev h w d a s
  | .sext8 h w d a => Sys2Proof.Machine.execSext8 h w d a s
  | .sext16 h w d a => Sys2Proof.Machine.execSext16 h w d a s
  | .zext8 h w d a => Sys2Proof.Machine.execZext8 h w d a s
  | .zext16 h w d a => Sys2Proof.Machine.execZext16 h w d a s
  | .bswap h w d a => Sys2Proof.Machine.execBswap h w d a s
  | .movg w d g => Sys2Proof.Machine.execMovg w d g s
  | .movgh w d g => Sys2Proof.Machine.execMovgh w d g s
  | .fneg h w d a => Sys2Proof.Machine.execFneg h w d a s
  | .fabs h w d a => Sys2Proof.Machine.execFabs h w d a s
  | .frcp h w d a => Sys2Proof.Machine.execFrcp h w d a s
  | .frsq h w d a => Sys2Proof.Machine.execFrsq h w d a s
  | .fsqrt h w d a => Sys2Proof.Machine.execFsqrt h w d a s
  | .fexp2 h w d a => Sys2Proof.Machine.execFexp2 h w d a s
  | .flog2 h w d a => Sys2Proof.Machine.execFlog2 h w d a s
  | .fsin h w d a => Sys2Proof.Machine.execFsin h w d a s
  | .fcos h w d a => Sys2Proof.Machine.execFcos h w d a s
  | .ffloor h w d a => Sys2Proof.Machine.execFfloor h w d a s
  | .fceil h w d a => Sys2Proof.Machine.execFceil h w d a s
  | .ftrunc h w d a => Sys2Proof.Machine.execFtrunc h w d a s
  | .frint h w d a => Sys2Proof.Machine.execFrint h w d a s
  | .fclass h w d a => Sys2Proof.Machine.execFclass h w d a s
  | .ffrac h w d a => Sys2Proof.Machine.execFfrac h w d a s
  | .cvt h w d a n f => Sys2Proof.Machine.execCvt h w d a n f s
  | .ballot h w d a => Sys2Proof.Machine.execBallot h w d a s
  | .vany h w d a => Sys2Proof.Machine.execVany h w d a s
  | .vall h w d a => Sys2Proof.Machine.execVall h w d a s
  | .bcast h w d a => Sys2Proof.Machine.execBcast h w d a s
  | .laneid h w d => Sys2Proof.Machine.execLaneid h w d s
  | .sliceid h w d => Sys2Proof.Machine.execSliceid h w d s
  | .redadd h w d a => Sys2Proof.Machine.execRedadd h w d a s
  | .redmin h w d a => Sys2Proof.Machine.execRedmin h w d a s
  | .redmax h w d a => Sys2Proof.Machine.execRedmax h w d a s
  | .prfxadd h w d a => Sys2Proof.Machine.execPrfxadd h w d a s
  | .prfxex h w d a => Sys2Proof.Machine.execPrfxex h w d a s
  | .uniq h w d a => Sys2Proof.Machine.execUniq h w d a s
  | .xset h w a x => Sys2Proof.Machine.execXset h w a x s
  | .xadd h w c x => Sys2Proof.Machine.execXadd h w c x s
  | .xget h w d x => Sys2Proof.Machine.execXget h w d x s
  | .vldx h w d c x => Sys2Proof.Machine.execVldx h w d c x s
  | .vstx h w d c x => Sys2Proof.Machine.execVstx h w d c x s
  | .p2v h w d k => Sys2Proof.Machine.execP2v h w d k s
  | .v2p h w a k => Sys2Proof.Machine.execV2p h w a k s
  | .pnot h w p q => Sys2Proof.Machine.execPnot h w p q s
  | .pand h w p r q => Sys2Proof.Machine.execPand h w p r q s
  | .por h w p r q => Sys2Proof.Machine.execPor h w p r q s
  | .pxor h w p r q => Sys2Proof.Machine.execPxor h w p r q s
  | .icmp h w c p a b => Sys2Proof.Machine.execIcmp h w c p a b s
  | .fcmp h w c p a b => Sys2Proof.Machine.execFcmp h w c p a b s
  | .iaddi w d a imm => Sys2Proof.Machine.execIaddi w d a imm s
  | .andi w d a imm => Sys2Proof.Machine.execAndi w d a imm s
  | .ori w d a imm => Sys2Proof.Machine.execOri w d a imm s
  | .xori w d a imm => Sys2Proof.Machine.execXori w d a imm s
  | .shli w d a imm => Sys2Proof.Machine.execShli w d a imm s
  | .shri w d a imm => Sys2Proof.Machine.execShri w d a imm s
  | .srai w d a imm => Sys2Proof.Machine.execSrai w d a imm s
  | .movk w d imm => Sys2Proof.Machine.execMovk w d imm s
  | .movkh w d imm => Sys2Proof.Machine.execMovkh w d imm s
  | .ld w d a s0 imm => Sys2Proof.Machine.execLd w d a s0 imm s
  | .st w d a s0 imm => Sys2Proof.Machine.execSt w d a s0 imm s
  | .lds w d a s0 imm => Sys2Proof.Machine.execLds w d a s0 imm s
  | .sts w d a s0 imm => Sys2Proof.Machine.execSts w d a s0 imm s
  | .atom o w d a b => Sys2Proof.Machine.execAtom o w d a b s
  | .red m w a b => Sys2Proof.Machine.execRed m w a b s
  | .redFadd a b => Sys2Proof.Machine.execRedFadd a b s
  | .redBfadd2 a b => Sys2Proof.Machine.execRedBfadd2 a b s
  | .ll4 d a => Sys2Proof.Machine.execLl4 d a s
  | .ll8 d a => Sys2Proof.Machine.execLl8 d a s
  | .sc4 d a b => Sys2Proof.Machine.execSc4 d a b s
  | .sc8 d a b => Sys2Proof.Machine.execSc8 d a b s
  | .ldt d a => Sys2Proof.Machine.execLdt d a s
  | .unpk d a => Sys2Proof.Machine.execUnpk d a s
  | .sttr d a b => Sys2Proof.Machine.execSttr d a b s
  | .pref a l => Sys2Proof.Machine.execPref a l s
  | .fpush a b => Sys2Proof.Machine.execFpush a b s
  | .fpop d a => Sys2Proof.Machine.execFpop d a s
  | .stm s0 a b => Sys2Proof.Machine.execStm s0 a b s
  | .bra c g d => Sys2Proof.Machine.execBra c g d s
  | .call g d => Sys2Proof.Machine.execCall g d s
  | .gadd d a b => Sys2Proof.Machine.execGadd d a b s
  | .gsub d a b => Sys2Proof.Machine.execGsub d a b s
  | .gmul d a b => Sys2Proof.Machine.execGmul d a b s
  | .gand d a b => Sys2Proof.Machine.execGand d a b s
  | .gor d a b => Sys2Proof.Machine.execGor d a b s
  | .gxor d a b => Sys2Proof.Machine.execGxor d a b s
  | .gshl d a b => Sys2Proof.Machine.execGshl d a b s
  | .gshr d a b => Sys2Proof.Machine.execGshr d a b s
  | .gsra d a b => Sys2Proof.Machine.execGsra d a b s
  | .gmin d a b => Sys2Proof.Machine.execGmin d a b s
  | .gmax d a b => Sys2Proof.Machine.execGmax d a b s
  | .gslt d a b => Sys2Proof.Machine.execGslt d a b s
  | .gsltu d a b => Sys2Proof.Machine.execGsltu d a b s
  | .gmov d a => Sys2Proof.Machine.execGmov d a s
  | .gaddi d a imm => Sys2Proof.Machine.execGaddi d a imm s
  | .gandi d a imm => Sys2Proof.Machine.execGandi d a imm s
  | .gori d a imm => Sys2Proof.Machine.execGori d a imm s
  | .gxori d a imm => Sys2Proof.Machine.execGxori d a imm s
  | .gshli d a imm => Sys2Proof.Machine.execGshli d a imm s
  | .gshri d a imm => Sys2Proof.Machine.execGshri d a imm s
  | .gsrai d a imm => Sys2Proof.Machine.execGsrai d a imm s
  | .gli d imm => Sys2Proof.Machine.execGli d imm s
  | .vget d l v => Sys2Proof.Machine.execVget d l v s
  | .vgeth d l v => Sys2Proof.Machine.execVgeth d l v s
  | .modeSet imm => Sys2Proof.Machine.execModeSet imm s
  | .mset imm => Sys2Proof.Machine.execMset imm s
  | .msave g => Sys2Proof.Machine.execMsave g s
  | .mrest g w => Sys2Proof.Machine.execMrest g w s
  | .mand g n p => Sys2Proof.Machine.execMand g n p s
  | .mor g n p => Sys2Proof.Machine.execMor g n p s
  | .mall g => Sys2Proof.Machine.execMall g s
  | .regang l => Sys2Proof.Machine.execRegang l s
  | .bar n c => Sys2Proof.Machine.execBar n c s
  | .safept n => Sys2Proof.Machine.execSafept n s
  | .dqpop g => Sys2Proof.Machine.execDqpop g s
  | .trap c => Sys2Proof.Machine.execTrap c s
  | .brk c => Sys2Proof.Machine.execBrk c s
  | .wait n => Sys2Proof.Machine.execWait n s
  | .fence p s0 c => Sys2Proof.Machine.execFence p s0 c s
  | .wtime g => Sys2Proof.Machine.execWtime g s
  | .sysr g n => Sys2Proof.Machine.execSysr g n s
  | .sysw g n => Sys2Proof.Machine.execSysw g n s
  | .ret g => Sys2Proof.Machine.execRet g s
  | .jr g d => Sys2Proof.Machine.execJr g d s
  | .chain a e => Sys2Proof.Machine.execChain a e s
  | .tagwaitAny d a => Sys2Proof.Machine.execTagwaitAny d a s
  | .tagwaitAll d a => Sys2Proof.Machine.execTagwaitAll d a s
  | .tagff d a => Sys2Proof.Machine.execTagff d a s
  | .tagclr a => Sys2Proof.Machine.execTagclr a s
  | .bcwait d a k => Sys2Proof.Machine.execBcwait d a k s
  | .bcadd a k => Sys2Proof.Machine.execBcadd a k s
  | .sadd d a b => Sys2Proof.Machine.execSadd d a b s
  | .ssub d a b => Sys2Proof.Machine.execSsub d a b s
  | .smul d a b => Sys2Proof.Machine.execSmul d a b s
  | .smulh d a b => Sys2Proof.Machine.execSmulh d a b s
  | .sdiv d a b => Sys2Proof.Machine.execSdiv d a b s
  | .srem d a b => Sys2Proof.Machine.execSrem d a b s
  | .sand d a b => Sys2Proof.Machine.execSand d a b s
  | .sor d a b => Sys2Proof.Machine.execSor d a b s
  | .sxor d a b => Sys2Proof.Machine.execSxor d a b s
  | .sshl d a b => Sys2Proof.Machine.execSshl d a b s
  | .sshr d a b => Sys2Proof.Machine.execSshr d a b s
  | .ssra d a b => Sys2Proof.Machine.execSsra d a b s
  | .smin d a b => Sys2Proof.Machine.execSmin d a b s
  | .smax d a b => Sys2Proof.Machine.execSmax d a b s
  | .sslt d a b => Sys2Proof.Machine.execSslt d a b s
  | .ssltu d a b => Sys2Proof.Machine.execSsltu d a b s
  | .smov d a => Sys2Proof.Machine.execSmov d a s
  | .saddi d a imm => Sys2Proof.Machine.execSaddi d a imm s
  | .sandi d a imm => Sys2Proof.Machine.execSandi d a imm s
  | .sori d a imm => Sys2Proof.Machine.execSori d a imm s
  | .sxori d a imm => Sys2Proof.Machine.execSxori d a imm s
  | .sshli d a imm => Sys2Proof.Machine.execSshli d a imm s
  | .sshri d a imm => Sys2Proof.Machine.execSshri d a imm s
  | .ssrai d a imm => Sys2Proof.Machine.execSsrai d a imm s
  | .slui d imm => Sys2Proof.Machine.execSlui d imm s
  | .sld d a imm => Sys2Proof.Machine.execSld d a imm s
  | .sst d a imm => Sys2Proof.Machine.execSst d a imm s
  | .slds d a imm => Sys2Proof.Machine.execSlds d a imm s
  | .ssts d a imm => Sys2Proof.Machine.execSsts d a imm s
  | .sld4 d a imm => Sys2Proof.Machine.execSld4 d a imm s
  | .sst4 d a imm => Sys2Proof.Machine.execSst4 d a imm s
  | .slds4 d a imm => Sys2Proof.Machine.execSlds4 d a imm s
  | .ssts4 d a imm => Sys2Proof.Machine.execSsts4 d a imm s
  | .sbEq a b d => Sys2Proof.Machine.execSbEq a b d s
  | .sbNe a b d => Sys2Proof.Machine.execSbNe a b d s
  | .sbLt a b d => Sys2Proof.Machine.execSbLt a b d s
  | .sbGe a b d => Sys2Proof.Machine.execSbGe a b d s
  | .sbLtu a b d => Sys2Proof.Machine.execSbLtu a b d s
  | .sbGeu a b d => Sys2Proof.Machine.execSbGeu a b d s
  | .sj d => Sys2Proof.Machine.execSj d s
  | .scall a d => Sys2Proof.Machine.execScall a d s
  | .sret a => Sys2Proof.Machine.execSret a s
  | .sjr a d => Sys2Proof.Machine.execSjr a d s
  | .dqpush a => Sys2Proof.Machine.execDqpush a s
  | .tapePush a => Sys2Proof.Machine.execTapePush a s
  | .qsignal c o a b => Sys2Proof.Machine.execQsignal c o a b s
  | .stime d => Sys2Proof.Machine.execStime d s
  | .swtime a => Sys2Proof.Machine.execSwtime a s
  | .sbar n h l => Sys2Proof.Machine.execSbar n h l s
  | .ssysr d h l => Sys2Proof.Machine.execSsysr d h l s
  | .ssysw d h l => Sys2Proof.Machine.execSsysw d h l s
  | .sramcfg m a => Sys2Proof.Machine.execSramcfg m a s
  | .sfence c p s0 => Sys2Proof.Machine.execSfence c p s0 s
  | .mcfg a => Sys2Proof.Machine.execMcfg a s
  | .mcb a b => Sys2Proof.Machine.execMcb a b s
  | .mldb k a => Sys2Proof.Machine.execMldb k a s
  | .mma n a b => Sys2Proof.Machine.execMma n a b s
  | .mepi n a b => Sys2Proof.Machine.execMepi n a b s
  | .mzero n => Sys2Proof.Machine.execMzero n s
  | .mrel n => Sys2Proof.Machine.execMrel n s
  | .slpin n a b => Sys2Proof.Machine.execSlpin n a b s
  | .slunpin n => Sys2Proof.Machine.execSlunpin n s
  | .sldelta n a => Sys2Proof.Machine.execSldelta n a s
  | .slread n a b => Sys2Proof.Machine.execSlread n a b s
  | .slchunk n a b => Sys2Proof.Machine.execSlchunk n a b s
  | .slspill n => Sys2Proof.Machine.execSlspill n s
  | .slfill n => Sys2Proof.Machine.execSlfill n s
  | .slinfo d a => Sys2Proof.Machine.execSlinfo d a s
  | .schain e a => Sys2Proof.Machine.execSchain e a s
  | .stagwaitAny d a c => Sys2Proof.Machine.execStagwaitAny d a c s
  | .stagwaitAll d a c => Sys2Proof.Machine.execStagwaitAll d a c s
  | .stagff d a c => Sys2Proof.Machine.execStagff d a c s
  | .sbcwait d a k => Sys2Proof.Machine.execSbcwait d a k s
  | .sbcarm k a b => Sys2Proof.Machine.execSbcarm k a b s
  | .pageWalk => Sys2Proof.Machine.execPageWalk s
  | .zeroRequest => Sys2Proof.Machine.execZeroRequest s
  | .zeroingComplete => Sys2Proof.Machine.execZeroingComplete s
  | .asidRebind => Sys2Proof.Machine.execAsidRebind s
  | .asidRebindDone => Sys2Proof.Machine.execAsidRebindDone s
  | .ptSync => Sys2Proof.Machine.execPtSync s
  | .ptSyncRetire => Sys2Proof.Machine.execPtSyncRetire s
  | .adapterFlipReply => Sys2Proof.Machine.execAdapterFlipReply s
  | .hostFlip => Sys2Proof.Machine.execHostFlip s
  | .flipHoldExpiry => Sys2Proof.Machine.execFlipHoldExpiry s
  | .rdcSizeApply => Sys2Proof.Machine.execRdcSizeApply s
  | .l2Request => Sys2Proof.Machine.execL2Request s
  | .bump => Sys2Proof.Machine.execBump s
  | .ckoutGrant => Sys2Proof.Machine.execCkoutGrant s
  | .ckoutTimeout => Sys2Proof.Machine.execCkoutTimeout s
  | .engineLockGrant => Sys2Proof.Machine.execEngineLockGrant s
  | .lockReplay => Sys2Proof.Machine.execLockReplay s
  | .reservationExpiry => Sys2Proof.Machine.execReservationExpiry s
  | .engineOperationComplete => Sys2Proof.Machine.execEngineOperationComplete s
  | .reload => Sys2Proof.Machine.execReload s
  | .ualinkReadRequest => Sys2Proof.Machine.execUalinkReadRequest s
  | .ualinkWriteRequest => Sys2Proof.Machine.execUalinkWriteRequest s
  | .podResponse => Sys2Proof.Machine.execPodResponse s
  | .fabricTimeout => Sys2Proof.Machine.execFabricTimeout s
  | .mcw => Sys2Proof.Machine.execMcw s
  | .mco => Sys2Proof.Machine.execMco s
  | .rdn => Sys2Proof.Machine.execRdn s
  | .llq => Sys2Proof.Machine.execLlq s
  | .scq => Sys2Proof.Machine.execScq s
  | .ctb => Sys2Proof.Machine.execCtb s
  | .crs => Sys2Proof.Machine.execCrs s
  | .spk => Sys2Proof.Machine.execSpk s
  | .passToken => Sys2Proof.Machine.execPassToken s
  | .rcv => Sys2Proof.Machine.execRcv s
  | .recoveryAck => Sys2Proof.Machine.execRecoveryAck s
  | .badop => Sys2Proof.Machine.execBadop s
  | .packetBlocked => Sys2Proof.Machine.execPacketBlocked s
  | .passReissue => Sys2Proof.Machine.execPassReissue s
  | .linkReplay => Sys2Proof.Machine.execLinkReplay s
  | .laneSpareRetrain => Sys2Proof.Machine.execLaneSpareRetrain s
  | .portDown => Sys2Proof.Machine.execPortDown s
  | .uetPacket => Sys2Proof.Machine.execUetPacket s
  | .ptpSync => Sys2Proof.Machine.execPtpSync s
  | .ptpDelayResp => Sys2Proof.Machine.execPtpDelayResp s
  | .ptpSyncLoss => Sys2Proof.Machine.execPtpSyncLoss s
  | .timeTargetReached => Sys2Proof.Machine.execTimeTargetReached s
  | .loadReturn => Sys2Proof.Machine.execLoadReturn s
  | .gambitEntry => Sys2Proof.Machine.execGambitEntry s
  | .gambitInstructionLimit => Sys2Proof.Machine.execGambitInstructionLimit s
  | .regangTimeout => Sys2Proof.Machine.execRegangTimeout s
  | .queueDb => Sys2Proof.Machine.execQueueDb s
  | .queueEnable => Sys2Proof.Machine.execQueueEnable s
  | .queueDisable => Sys2Proof.Machine.execQueueDisable s
  | .queueReset => Sys2Proof.Machine.execQueueReset s
  | .queueResume => Sys2Proof.Machine.execQueueResume s
  | .queueLaunch => Sys2Proof.Machine.execQueueLaunch s
  | .queueWait => Sys2Proof.Machine.execQueueWait s
  | .queueWaitPoll => Sys2Proof.Machine.execQueueWaitPoll s
  | .queueWaitTimeout => Sys2Proof.Machine.execQueueWaitTimeout s
  | .queueSignal => Sys2Proof.Machine.execQueueSignal s
  | .queueCopy => Sys2Proof.Machine.execQueueCopy s
  | .queueRewind => Sys2Proof.Machine.execQueueRewind s
  | .queueNop => Sys2Proof.Machine.execQueueNop s
  | .timedStart => Sys2Proof.Machine.execTimedStart s
  | .formPlacement => Sys2Proof.Machine.execFormPlacement s
  | .launchReserving => Sys2Proof.Machine.execLaunchReserving s
  | .gridComplete => Sys2Proof.Machine.execGridComplete s
  | .forcedEntry => Sys2Proof.Machine.execForcedEntry s
  | .quantumExpiry => Sys2Proof.Machine.execQuantumExpiry s
  | .priorityPreemption => Sys2Proof.Machine.execPriorityPreemption s
  | .hardPreemption => Sys2Proof.Machine.execHardPreemption s
  | .contextSave => Sys2Proof.Machine.execContextSave s
  | .teamRestore => Sys2Proof.Machine.execTeamRestore s
  | .matrixGrant => Sys2Proof.Machine.execMatrixGrant s
  | .slateRefill => Sys2Proof.Machine.execSlateRefill s
  | .replayResume => Sys2Proof.Machine.execReplayResume s
  | .skipResume => Sys2Proof.Machine.execSkipResume s
  | .abortResume => Sys2Proof.Machine.execAbortResume s
  | .replayfResume => Sys2Proof.Machine.execReplayfResume s
  | .operandLogReplay => Sys2Proof.Machine.execOperandLogReplay s
  | .watchdog => Sys2Proof.Machine.execWatchdog s
  | .tenantReset => Sys2Proof.Machine.execTenantReset s
  | .eccUncorr => Sys2Proof.Machine.execEccUncorr s
  | .systemRegisterWrite => Sys2Proof.Machine.execSystemRegisterWrite s
  | .hostMemoryAccess => Sys2Proof.Machine.execHostMemoryAccess s
  | .mgtErr => Sys2Proof.Machine.execMgtErr s
  | .resetDevice => Sys2Proof.Machine.execResetDevice s
  | .errclr => Sys2Proof.Machine.execErrclr s
  | .farExtentAdd => Sys2Proof.Machine.execFarExtentAdd s
  | .farExtentRelease => Sys2Proof.Machine.execFarExtentRelease s
  | .attest => Sys2Proof.Machine.execAttest s
  | .identityRequest => Sys2Proof.Machine.execIdentityRequest s
  | .stageBegin => Sys2Proof.Machine.execStageBegin s
  | .stageData => Sys2Proof.Machine.execStageData s
  | .stageCommit => Sys2Proof.Machine.execStageCommit s
  | .stageAbort => Sys2Proof.Machine.execStageAbort s
  | .mailboxBadop => Sys2Proof.Machine.execMailboxBadop s
  | .mailboxRequestEnd => Sys2Proof.Machine.execMailboxRequestEnd s
  | .powerOn => Sys2Proof.Machine.execPowerOn s
  | .powerCapStepDown => Sys2Proof.Machine.execPowerCapStepDown s
  | .supplySag => Sys2Proof.Machine.execSupplySag s
  | .clockStepUp => Sys2Proof.Machine.execClockStepUp s
  | .d2dFailure => Sys2Proof.Machine.execD2dFailure s
  | .prebriyrFault => Sys2Proof.Machine.execPrebriyrFault s
  | .hbmStackFailure => Sys2Proof.Machine.execHbmStackFailure s
  | .softcorr => Sys2Proof.Machine.execSoftcorr s
  | .scrub => Sys2Proof.Machine.execScrub s
  | .brodileLinkRetrain => Sys2Proof.Machine.execBrodileLinkRetrain s
  | .copyEntry => Sys2Proof.Machine.execCopyEntry s
  | .copyt => Sys2Proof.Machine.execCopyt s
  | .gather => Sys2Proof.Machine.execGather s
  | .scatter => Sys2Proof.Machine.execScatter s
  | .mcast => Sys2Proof.Machine.execMcast s
  | .allred => Sys2Proof.Machine.execAllred s
  | .redscat => Sys2Proof.Machine.execRedscat s
  | .allgath => Sys2Proof.Machine.execAllgath s
  | .sparsek => Sys2Proof.Machine.execSparsek s
  | .ckout => Sys2Proof.Machine.execCkout s
  | .ckin => Sys2Proof.Machine.execCkin s
  | .signalEntry => Sys2Proof.Machine.execSignalEntry s
  | .waitbc => Sys2Proof.Machine.execWaitbc s
  | .loopEntry => Sys2Proof.Machine.execLoopEntry s
  | .ifbc => Sys2Proof.Machine.execIfbc s
  | .endEntry => Sys2Proof.Machine.execEndEntry s
  | .ill => Sys2Proof.Machine.execIll s
  | .exitSlice => Sys2Proof.Machine.execExitSlice s
  | .nop => Sys2Proof.Machine.execNop s
  | .yield => Sys2Proof.Machine.execYield s
  | .sexit => Sys2Proof.Machine.execSexit s
  | .mdrain => Sys2Proof.Machine.execMdrain s
  | .railRecovery => Sys2Proof.Machine.execRailRecovery s
  | .linkRetrainEnd => Sys2Proof.Machine.execLinkRetrainEnd s
  | .farAccessReply => Sys2Proof.Machine.execFarAccessReply s
  | .invalidHostAccess => Sys2Proof.Machine.execInvalidHostAccess s

end Sys2Proof.Machine
end

