-- ==== Sys2Proof/Machine/Issue.lean ====
section
/-! DEFINITION. When an instruction may issue: its count (R293), the banks its sources lie in and the operand latch (R298,
R299), and the scheduler's choice of the issuer (R230, R233). -/

namespace Sys2Proof.Machine

/-- What an instruction adds to the count of its slice (R293): its wait field, or the operand of WAIT. -/
def waitOf (w : W32) : Nat :=
  let m := num 6 26 w
  if 0x01 ≤ m ∧ m ≤ 0x26 then max (num 3 21 w) 1
  else if 0x27 ≤ m ∧ m ≤ 0x2D then max (num 3 23 w) 1
  else match decodeWord w with
    | some (.wait n) => n.toNat
    | _ => 1

/-- The first cycle at which a cohort's instruction may issue by its count (R293). -/
def dueCycle (sl : List (Nat × Slice)) (wait : Nat) : Nat :=
  (sl.map (fun p => match p.2.first with
    | none => 0
    | some (c, k) => c + (p.2.count + wait - k))).foldl max 0

/-- The vector registers that a word reads as its sources a, b and d, with the cycle after issue of each read (R295, R298):
by the formats of Table 10.3, pairs where MODE or the opcode makes them, a group of registers in its one cycle. -/
def bankReads (w : W32) (m : W64) : List (Nat × Nat) :=
  let mj := num 6 26 w
  let i64 := isI64 m
  let rs := fun (n r off : Nat) => (groupRegs r n).map (fun k => (k, off))
  let pr := fun (p : Bool) => if p then 2 else 1
  let d := num 7 14 w
  let a := num 7 7 w
  let b := num 7 0 w
  let minor := num 7 0 w
  if 0x01 ≤ mj ∧ mj ≤ 0x1F then
    let n := pr (i64 && (decide (mj ≤ 0x08) || decide (0x0D ≤ mj ∧ mj ≤ 0x0F)))
    rs n a 0 ++ rs n b 1 ++ (if [0x05, 0x13, 0x14, 0x15, 0x1C, 0x1D].contains mj then rs n d 2 else [])
  else if mj = 0x20 then (if minor ≤ 0x0C then rs (pr (i64 && (minor == 2 || minor == 3))) a 0 else [])
  else if mj = 0x21 then rs 1 a 0
  else if mj = 0x22 then rs (pr (minor % 16 == 11)) a 0
  else if mj = 0x23 then
    (if minor = 4 ∨ minor = 5 then [] else rs (pr (i64 && decide (6 ≤ minor ∧ minor ≤ 10))) a 0)
  else if mj = 0x24 then
    (if minor % 16 = 0 ∨ minor % 16 = 6 then rs 1 a 0 else if minor % 16 = 4 then rs 1 d 2 else [])
  else if mj = 0x25 ∨ mj = 0x26 then
    let n := pr (i64 && mj == 0x25)
    rs n a 0 ++ rs n b 1
  else if mj = 0x27 then
    let k := num 3 6 w
    rs (pr (i64 && (k == 0 || decide (4 ≤ k)))) (num 7 9 w) 0
  else if mj = 0x29 then rs 1 (num 7 16 w) 2
  else if 0x2A ≤ mj ∧ mj ≤ 0x2D then
    let n := regCount (vmBytes (field 2 7 w) m)
    rs (if mj ≤ 0x2B then 2 else 1) (num 7 9 w) 0 ++ (if mj = 0x2B ∨ mj = 0x2D then rs n (num 7 16 w) 2 else [])
  else if mj = 0x2E then
    let n := if num 1 21 w = 1 then 2 else 1
    rs 2 a 0 ++ rs (if num 4 22 w = 9 then 2 * n else n) b 1
  else if mj = 0x2F then
    let k := num 5 21 w
    if k ≤ 7 then rs 2 a 0 ++ rs (if num 1 14 w = 1 then 2 else 1) b 1
    else if k ≤ 9 then rs 2 a 0 ++ rs 1 b 1
    else if k = 0x0C ∨ k = 0x0D then rs 2 a 0 ++ rs (k - 0x0B) b 1
    else if k = 0x10 then rs 2 a 0 ++ rs 2 b 1 ++ rs 1 d 2
    else if k = 0x12 then rs 1 a 0 ++ rs 1 b 1
    else if k = 0x13 then rs 1 a 0
    else if k = 0x14 then rs 2 a 0 ++ rs (2 ^ (d % 4)) b 1
    else rs 2 a 0
  else match decodeWord w with
    | some (.vget _ _ v) => rs 1 v.toNat 0
    | some (.vgeth _ _ v) => rs 1 v.toNat 0
    | _ => []

/-- The banks and cycles that a gang's instruction would read at a cycle: sources that the operand latch serves read no
bank (R298, R299). -/
def bankUse (s : State) (t : Team) (lead now : Nat) (w : W32) (m : W64) : List (Nat × Nat) :=
  let p := (coreOf s t.core).port (portNum t (lead / 8))
  let served := fun (r : Nat) => p.latch.any (fun e => e.tid == t.tid && e.lead == lead && e.reg == r)
  distinct (((bankReads w m).filter (fun r => !served r.1)).map (fun r => (r.1 % 4, now + r.2)))

/-- The first cycle at which the word of an issuing cohort may issue: its count, then the cycle after a bank conflict. -/
def earliest (s : State) (g : Gang) (w : W32) : Nat :=
  let now := s.clock.cycle
  let due := dueCycle g.sl (waitOf w)
  if now < due then due
  else
    let p := (coreOf s g.team.core).port (portNum g.team g.home)
    if (bankUse s g.team g.lead now w g.mode).any (fun x => p.taken.contains x) then now + 1 else now

/-- The instruction of a gang does not issue before a cycle (R293, R298). -/
def deferGang (s : State) (g : Gang) (c : Nat) : State :=
  updCore s g.team.core (fun k =>
    let n := portNum g.team g.home
    let p := k.port n
    let set := fun (e : GangAge) => if e.isGang g.team.tid g.lead then { e with notBefore := c } else e
    k.withPort n { p with active := p.active.map set, pending := p.pending.map set })

/-- The bank reads of an instruction that issues are taken at its port (R298). -/
def takeBanks (s : State) (g : Gang) (w : W32) : State :=
  updCore s g.team.core (fun k =>
    let n := portNum g.team g.home
    let p := k.port n
    k.withPort n { p with taken := p.taken ++ bankUse s g.team g.lead s.clock.cycle w g.mode })

/-- A cohort has issued its instruction and waits in it, for an event or for the scoreboard of a fence or a fetch: its turn
tries the wait again and is no issue (R209). -/
def gangWaits (t : Team) (lead : Nat) : Bool :=
  (cohortOf t lead).any (fun p => match p.2.st with
    | .barrier => true | .regang => true | .safepoint => true | .swapped => true | .exited => true
    | .scoreboard => p.2.waitOp != 0
    | .issuable => false | .parked => false | .ahead => false)

/-- The schedulers let an issuer issue now: a gang that its port picks, a Prefect that its core picks (R230, R233); a waiting
one tries its wait again. -/
def mayIssue (s : State) (who : Issuer) : Bool :=
  match who with
  | .gang tid lead => (match findTeam s tid with
    | none => true
    | some t => gangWaits t lead ||
      (match portPick s t.core (portNum t (lead / 8)) with
       | some e => e.isGang tid lead
       | none => false))
  | .prefect tid => (match findTeam s tid with
    | none => true
    | some t => t.pf.st != .issuable || prefPick s t.core == some tid)

/-- The port or scalar path of an issuer has issued in this cycle (R230, R233). -/
def portUsed (s : State) (who : Issuer) : Bool :=
  match who with
  | .gang tid lead => (match findTeam s tid with
    | none => false
    | some t => !gangWaits t lead && decide (((coreOf s t.core).port (portNum t (lead / 8))).issued = s.clock.cycle + 1))
  | .prefect tid => (match findTeam s tid with
    | none => false
    | some t => t.pf.st == .issuable && decide ((coreOf s t.core).pfIssued.1 = s.clock.cycle + 1))

end Sys2Proof.Machine
end

