-- ==== Sys2Proof/Machine/Turn.lean ====
section
/-! DEFINITION. One turn of the machine: time that passes (R177, R506), an issuer that fetches, decodes and executes (R230,
R233, R316), an event; the order in which the machine moves where the agenda says nothing; a word placed for the fetch. -/

namespace Sys2Proof.Machine

/-- The clock after some cycles: device time grows by the length of a cycle at the clock's step (R506), while it is locked at
the corrected rate (R178). -/
def Clock.after (c : Clock) (dt : Nat) : Clock :=
  let rate := (2 ^ 32 + (if c.lock then c.rate else 0)).toNat
  let u := dt * cycleUnits c.step * 64 * rate + c.sub
  { c with cycle := c.cycle + dt, elapsed := c.elapsed + dt * cycleUnits c.step,
           time := c.time + BitVec.ofNat 64 (u / (21 * 2 ^ 32)), sub := u % (21 * 2 ^ 32) }

/-- Cycles of the arithmetic clock pass: the clock, the switches' outputs and what waits at them (R151, R164, R167), then the
schedulers' counters (R230, R233). -/
def elapse (s : State) (dt : Nat) : State :=
  let s := { s with clock := s.clock.after dt }
  schedTick (if dt = 0 then s else fabricRetry (fabricRun s dt)) dt

/-- The issuer is left waiting on the scoreboard: its instruction has not issued (R230). -/
def notIssued (s : State) (who : Issuer) : Bool :=
  match who with
  | .gang tid lead => (match findTeam s tid with
    | none => false
    | some t => let l := cohortOf t lead; !l.isEmpty && l.all (fun p => p.2.st == .scoreboard))
  | .prefect tid => (match findTeam s tid with
    | none => false
    | some t => t.pf.st == .scoreboard)

/-- The counters after an instruction: an issuer that has issued begins at age 0 (R230, R233). -/
def aged (who : Issuer) (o : Out) : Out :=
  match o with
  | .next t => .next (if notIssued t who then t else schedIssued t who)
  | .fault r => .fault r
  | .refused r => .refused r

/-- The count or a bank conflict holds the issuer's instruction back: the first cycle at which it may issue (R293, R298). -/
def heldBack (s : State) (w : W32) : Option (Gang × Nat) :=
  match s.cur with
  | .prefect _ => none
  | .gang tid lead => match theGang s tid lead with
    | none => none
    | some g => if gangWaits g.team lead then none
      else let c := earliest s g w; if s.clock.cycle < c then some (g, c) else none

/-- The machine before the instruction of a gang executes: its bank reads are taken (R298), and REGANG separates a fused
gang (R190). -/
def beforeExec (s : State) (i : Instr) (w : W32) : State :=
  match s.cur with
  | .prefect _ => s
  | .gang tid lead => match theGang s tid lead with
    | none => s
    | some g =>
      let s := if gangWaits g.team lead then s else takeBanks s g w
      match i with
      | .regang _ => separate s g.team.core tid lead
      | _ => s

/-- The further parts of the fused gang that an issuer leads (R190). -/
def restOf (s : State) (who : Issuer) : List Turn :=
  match who with
  | .prefect _ => []
  | .gang tid lead => match findTeam s tid with
    | none => []
    | some t => match fusionOf s t.core tid lead with
      | none => []
      | some f => if gangWaits t lead then [] else (f.parts.filter (fun l => l != lead)).map (fun l => .part (.gang tid l))

/-- Turns put before all others. -/
def andThen (o : Out) (l : List Turn) : Out :=
  match o with
  | .next t => .next (if l.isEmpty then t else { t with agenda := l ++ t.agenda })
  | .fault r => .fault r
  | .refused r => .refused r

/-- An issuer's instruction: fetch, decode, execute. A word that is no instruction raises ILLEGAL (R316). -/
def runIssuer (s : State) (who : Issuer) : Out :=
  match fetch { s with cur := who } with
  | .gone => .fault .noIssuer
  | .held t => .next t
  | .word w t => match decodeWord w with
    | none => .next (illegalWord { t with word := w })
    | some i => match heldBack t w with
      | some (g, c) => .next (deferGang t g c)
      | none =>
        let u := beforeExec t i w
        andThen (aged who (exec i { u with word := w })) (restOf u who)

/-- An issuer's turn. One that the schedulers do not choose now issues nothing (R230, R233). -/
def issueTurn (s : State) (who : Issuer) : Out := if mayIssue s who then runIssuer s who else .next s

/-- A further part of a fused gang, in the cycle of its leading part; a part that is gone executes nothing. -/
def partTurn (s : State) (who : Issuer) : Out :=
  match fetch { s with cur := who } with
  | .gone => .next s
  | .held t => .next t
  | .word w t => match decodeWord w with
    | none => .next (illegalWord { t with word := w })
    | some i => aged who (exec i { t with word := w })

/-- An event's turn; an encoded instruction is no event. -/
def eventTurn (s : State) (ev : Instr) (a : EvArg) : Out :=
  if isEvent ev then exec ev { s with arg := a } else .fault .noIssuer

/-! ## The order of events in one cycle (R52, R59, R85, R155, R224, R237, R238, R265, R359, R405, R435, R467, R510) -/

/-- The rank of an instruction among those of its cycle: what must come before a DQPOP, an arrival or an addition; what
reads a count or a tag last (Tables 11.6 and 14.6). -/
def issueRank (i : Option Instr) : Nat :=
  match i with
  | some .exitSlice => 40
  | some .sexit => 40
  | some (.dqpush _) => 40
  | some (.tagclr _) => 40
  | some (.sbcarm _ _ _) => 40
  | some (.bcwait _ _ _) => 55
  | some (.sbcwait _ _ _) => 55
  | _ => 42

/-- The instruction that an issuer stands at. -/
def nextInstr (s : State) (who : Issuer) : Option Instr :=
  match fetch { s with cur := who } with
  | .word w _ => decodeWord w
  | .gone => none
  | .held _ => none

/-- The rank of an event among those of its cycle: registrations of locks, then what arrives, doorbells before disables,
completions, grants, resumes, waits' reads and timers, stop requests, saves, the set change, Gambit entry, and writes of
registers by the host, which act from the next cycle. -/
def eventRank (ev : Instr) : Nat :=
  match ev with
  | .copyEntry => 10 | .copyt => 10 | .gather => 10 | .scatter => 10 | .mcast => 10 | .allred => 10 | .redscat => 10
  | .allgath => 10 | .sparsek => 10 | .ckout => 10 | .ckin => 10 | .ckoutGrant => 11 | .engineLockGrant => 11
  | .hostFlip => 25 | .queueDb => 30 | .queueEnable => 31 | .queueDisable => 31 | .queueReset => 31
  | .ptSync => 44 | .timeTargetReached => 45 | .engineOperationComplete => 50 | .signalEntry => 50 | .gridComplete => 51
  | .queueSignal => 50 | .matrixGrant => 52 | .replayResume => 54 | .skipResume => 54 | .abortResume => 54
  | .replayfResume => 54 | .queueResume => 54 | .waitbc => 55 | .ifbc => 55
  | .queueLaunch => 56 | .queueWait => 56 | .queueWaitPoll => 56 | .queueCopy => 56 | .queueRewind => 56 | .queueNop => 56
  | .queueWaitTimeout => 57 | .timedStart => 57
  | .regangTimeout => 60 | .ckoutTimeout => 60 | .fabricTimeout => 60 | .watchdog => 60 | .reservationExpiry => 60
  | .formPlacement => 61 | .launchReserving => 61 | .quantumExpiry => 62 | .priorityPreemption => 62 | .hardPreemption => 63
  | .contextSave => 64 | .teamRestore => 65 | .forcedEntry => 70 | .gambitEntry => 80 | .systemRegisterWrite => 90
  | _ => 20

/-- Events that the device's own units bring about without an operand. -/
def plainEvents : List Instr :=
  [.zeroRequest, .zeroingComplete, .asidRebindDone, .ptSyncRetire, .flipHoldExpiry, .ckoutTimeout, .lockReplay,
   .reservationExpiry, .fabricTimeout, .loadReturn, .regangTimeout, .formPlacement, .launchReserving, .quantumExpiry,
   .priorityPreemption, .hardPreemption, .contextSave, .teamRestore, .matrixGrant, .slateRefill, .operandLogReplay, .watchdog,
   .mailboxRequestEnd, .passReissue]
/-- Those of a queue, of an engine's chains, and of an engine operation. -/
def queueEvents : List Instr :=
  [.queueLaunch, .queueWait, .queueSignal, .queueCopy, .queueRewind, .queueNop, .queueWaitPoll, .queueWaitTimeout, .timedStart]
def chainEvents : List Instr :=
  [.endEntry, .copyEntry, .copyt, .gather, .scatter, .mcast, .allred, .redscat, .allgath, .sparsek, .ckout, .ckin,
   .signalEntry, .waitbc, .loopEntry, .ifbc]
def opEvents : List Instr := [.ckoutGrant, .engineLockGrant, .engineOperationComplete]
/-- Events that name a unit in another way. -/
def unitEvents : List Instr := [.l2Request, .pageWalk, .rdcSizeApply, .gridComplete, .forcedEntry, .gambitEntry,
  .gambitInstructionLimit, .timeTargetReached]
def ownKinds : List Instr := plainEvents ++ queueEvents ++ chainEvents ++ opEvents ++ unitEvents

/-- A place for an issuer among those of a core: slices in ascending number, then the Prefect (Table 11.6). -/
def whoUnit (s : State) (who : Issuer) : Nat :=
  match who with
  | .gang tid lead => (match findTeam s tid with | some t => (t.core * 256 + lead) * 8 + t.slot | none => 0)
  | .prefect tid => (match findTeam s tid with | some t => (t.core * 256 + 128) * 8 + t.slot | none => 0)

/-- The unit that an event is of: an engine by its cluster and then its kind (R85), a checkpoint slot's port before its gang
(R232), else the number it names. -/
def eventUnit (s : State) (ev : Instr) (a : EvArg) : Nat :=
  if chainEvents.contains ev then (if a.a < 256 then a.a % 128 * 2 + a.a / 128 else 256 + a.a)
  else match ev with
  | .gambitEntry => (match a.who with
    | .gang tid lead => (match findTeam s tid with | some t => portNum t (lead / 8) * 2 ^ 24 | none => 0) + whoUnit s a.who
    | .prefect _ => 0)
  | .gambitInstructionLimit => whoUnit s a.who
  | .timeTargetReached => whoUnit s a.who
  | _ => a.a * 2 + a.b % 2

/-- The place of a turn in its cycle. -/
def turnKey (s : State) (t : Turn) : Nat × Nat :=
  match t with
  | .issue _ who => (issueRank (nextInstr s who), whoUnit s who)
  | .event _ ev a => (eventRank ev, eventUnit s ev a * 256 + ownKinds.findIdx (fun i => i == ev))
  | .part _ => s.order
/-- One place comes before another. -/
def keyBefore (a b : Nat × Nat) : Bool := decide (a.1 < b.1) || (a.1 == b.1 && decide (a.2 < b.2))

/-- Time up to a turn: a turn that would fall in the present cycle after one that it must precede, or on an issue port that
has issued, falls in the next cycle. -/
def enter (s : State) (t : Turn) (dt : Nat) (used : Bool) : State :=
  let k := turnKey s t
  { elapse s (if dt = 0 ∧ (keyBefore k s.order ∨ used) then 1 else dt) with order := k }

/-- One turn. -/
def runTurn (t : Turn) (s : State) : Out :=
  match t with
  | .issue dt who => issueTurn (enter s t dt (portUsed s who)) who
  | .event dt ev a => eventTurn (enter s t dt false) ev a
  | .part who => partTurn s who

/-! ## The machine's own order -/

/-- The gangs of the machine and its Prefects. -/
def gangsOf (s : State) : List Issuer :=
  s.teams.flatMap (fun t => (distinct ((t.slices.filter (fun p => p.2.st != .exited)).map (fun p => p.2.cohort))).map (fun l => .gang t.tid l))
def prefsOf (s : State) : List Issuer := s.teams.map (fun t => .prefect t.tid)

/-- The cores that hold teams. -/
def busyCores (s : State) : List Nat := distinct (s.teams.map Team.core)

/-- Events that the device's own units bring about, each with the operands that name a unit at work. Packets, the host, the
adapter, the links and the power supply are outside: only the agenda brings them. -/
def ownEvents (s : State) : List (Instr × EvArg) :=
  let at1 := fun (n : Nat) (i : Instr) => (i, ({ a := n } : EvArg))
  plainEvents.map (at1 0) ++
  (distinct (s.l2q.map L2Req.sl)).map (fun n => at1 n .l2Request) ++
  (s.clusters.filter (fun p => !p.2.walks.isEmpty)).map (fun p => at1 p.1 .pageWalk) ++
  [at1 0 .rdcSizeApply, at1 1 .rdcSizeApply] ++
  s.ops.flatMap (fun o => opEvents.map (at1 o.id)) ++
  s.engines.flatMap (fun e => chainEvents.map (at1 e.1)) ++
  s.queues.flatMap (fun q => queueEvents.map (at1 q.1)) ++
  s.grids.map (fun g => at1 g.gid .gridComplete) ++
  (busyCores s).flatMap (fun c => [(.forcedEntry, { a := c }), (.forcedEntry, { a := c, b := 1 })]) ++
  (gangsOf s).flatMap (fun w => [(.gambitEntry, { who := w }), (.gambitInstructionLimit, { who := w })]) ++
  (gangsOf s ++ prefsOf s).map (fun w => (.timeTargetReached, { who := w }))

/-- The turns that the machine may still take by itself in the present cycle, in the order of their places: its events, and
its issuers, of which each port and each scalar path issues the one it picks. -/
def ownTurns (s : State) : List Turn :=
  let l := (ownEvents s).map (fun p => Turn.event 0 p.1 p.2) ++
    ((gangsOf s ++ prefsOf s).filter (fun w => mayIssue s w && !portUsed s w)).map (Turn.issue 0)
  let l := l.map (fun t => (turnKey s t, t))
  (sortOn (fun p => p.1.1) (sortOn (fun p => p.1.2) (l.filter (fun p => keyBefore s.order p.1)))).map Prod.snd

/-- A turn changes more than the clock, the schedulers' counters and the fields that name the turn. -/
def moves (s : State) (t : Turn) : Bool :=
  let s1 := elapse s 0
  match runTurn t s with
  | .next u => decide ({ u with cur := s1.cur, arg := s1.arg, word := s1.word, order := s1.order } ≠ s1)
  | .fault _ => false
  | .refused _ => false

/-- The step where the agenda is empty: the next turn of the cycle that moves the machine; after the last, a cycle
passes. -/
def ownStep (s : State) : Out :=
  match (ownTurns s).find? (moves s) with
  | some t => runTurn t s
  | none => .next { elapse s 1 with order := (0, 0) }

/-! ## Placing a word for the fetch -/

/-- A table entry that points to a next-level table, and a leaf with every permission, accessed and dirty, of this device
(Table 1.1). -/
def tableEntry (pa : Nat) : W64 := BitVec.ofNat 64 (pa + 1)
def openLeaf (pa : Nat) : W64 := BitVec.ofNat 64 (1023 * 2 ^ 52 + pa + 0x181F)

/-- Memory with a three-level table at 0x10000 that maps virtual page 0 to the frame at 0x40000, and bytes there. -/
def placedMem (m : List Host.Cell) (code : List Byte) : List Host.Cell :=
  let m := msetAll m 0x10000 (bytesLE 8 (tableEntry 0x20000).toNat)
  let m := msetAll m 0x20000 (bytesLE 8 (tableEntry 0x30000).toNat)
  let m := msetAll m 0x30000 (bytesLE 8 (openLeaf 0x40000).toNat)
  msetAll m 0x40000 code

/-- A machine with a one-team grid of one slice on core 0, tenant 0, ASID 0, whose code at virtual address 0 is the given
bytes, and an agenda whose next turn is the issuer's. -/
def placedTeam (s : State) (code : List Byte) (pref : Bool) : State :=
  let mem := placedMem s.mem code
  let gid := s.nextId
  let fid := gid + 1
  let tid := gid + 2
  let grid : Grid := { gid, queue := 0, entry := none, tenant := 0, asid := 0, prio := 0, record := List.replicate 128 0#8, check := false,
                       race := false, accepted := nsOf s, acceptSeq := gid, nextForm := 1, snap := mem }
  let form : Form := { fid, gid, idx := 0, cluster := 0, cores := [0], bases := [0], winLen := 4096, excl := false }
  let team : Team := { tid, gid, fid, rank := 0, core := 0, slot := 0, nslices := 1, nregs := 128, teamId := 0, slices := [(0, {})] }
  let other := fun (t : TlbEntry) => t.asid != 0
  let s := updCluster (updCore s 0 (fun c =>
    { c with tlb := c.tlb.filter other, port0 := { active := [{ tid, lead := 0, age := 0, since := 0 }] }, pfAge := [(tid, 0)] }))
    0 (fun c => { c with tlb := c.tlb.filter other })
  { s with
    mem
    binds := tset {} 0 { root := 1, valid := true, tenant := 0, gen := (bindOf s 0).gen } s.binds
    grids := grid :: s.grids
    forms := form :: s.forms
    teams := team :: s.teams
    nextId := gid + 3
    agenda := [.issue 1 (if pref then .prefect tid else .gang tid 0)] }

end Sys2Proof.Machine
end

