-- ==== Sys2Proof/Machine/Step.lean ====
section
/-! DEFINITION. One step: the oldest turn of the agenda, or the machine's own next turn where it is empty; and the host's
way to place a word for the next fetch. -/

namespace Sys2Proof.Machine

/-- One step. -/
def step (s : State) : Host.Outcome State Fault Refusal :=
  match s.agenda with
  | [] => ownStep s
  | t :: r => runTurn t { s with agenda := r }

/-- The instruction w placed where the next step fetches it. It stands for a launch and a placement (R218, R226): no
program runs from reset without one. Prefect majors are 0x34 and above (Table 10.6). -/
def State.withFetchWord (s : State) (nbits w : Nat) : State :=
  let x : W32 := BitVec.ofNat 32 (w % 2 ^ nbits)
  placedTeam s (bytesOfWord x) (decide (0x34 ≤ (field 6 26 x).toNat))

end Sys2Proof.Machine
end

