-- ==== Sys2Proof/Safety.lean ====
section
/-! DEFINITION. The terms that claims use: an issuer that stands before an instruction with nothing in its way, what a
gang or a Prefect instruction may change, and the invariants. -/

namespace Sys2Proof.Machine

/-! ## Issuers that nothing holds -/

/-- A cohort about to execute: it is the issuer, its slices are ISSUABLE under one program counter and MODE (R187) with every
earlier result ready (R294) and no register INV (R198), no memory operation and no operand-log entry of its team is open (R244), no save stops it (R205). -/
structure GangReady (s : State) (g : Gang) : Prop where
  cur : s.cur = .gang g.team.tid g.lead
  here : theGang s g.team.tid g.lead = some g
  free : saveHolds s g.team.fid none = false
  slices : ∀ p ∈ g.sl, p.2.st = .issuable ∧ p.2.stop = none ∧ p.2.pend = [] ∧ p.2.pc = g.pc ∧ p.2.mode = g.mode
  valid : ∀ p ∈ g.sl, p.2.inv = []
  memops : ∀ o ∈ s.memops, o.tid ≠ g.team.tid
  log : ∀ e ∈ (coreOf s g.team.core).log, e.op.tid ≠ g.team.tid

/-- A Prefect about to execute: it is the issuer, ISSUABLE, with no load or store of its own open, and no save stops it. -/
structure PrefReady (s : State) (p : Pref) : Prop where
  cur : s.cur = .prefect p.team.tid
  here : thePref s p.team.tid = some p
  free : saveHolds s p.team.fid (some p.team.pf) = false
  st : p.team.pf.st = .issuable
  stop : p.team.pf.stop = none
  memops : ∀ o ∈ s.memops, o.tid ≠ p.team.tid

/-- A lane of a slice is active outside Gambit: LM and the guard predicate (R183). -/
def activeIn (sl : Slice) (l : Nat) : Bool := sl.lm.getLsbD l && rdP sl (modeGuard sl.mode) l

/-! ## What an instruction may change -/

/-- Two cores differ at most in the operand latches of their ports (R299). -/
def SameButLatch (c c' : Core) : Prop :=
  ∃ l0 l1, c' = { c with port0 := { c.port0 with latch := l0 }, port1 := { c.port1 with latch := l1 } }

/-- The machine `t` is `s` but for the slices of cohort `g`, each changed as `Q` allows, and the operand latch of its core. -/
def GangGoes (s : State) (g : Gang) (t : State) (Q : Nat → Slice → Slice → Prop) : Prop :=
  ∃ (f : Team → Nat → Slice → Slice) (c : Core),
    t = { s with
      teams := s.teams.map (fun u => if u.tid = g.team.tid then u.mapSlices g.nums (f u) else u)
      cores := tset {} g.team.core c s.cores } ∧
    SameButLatch (coreOf s g.team.core) c ∧ ∀ u, ∀ p ∈ g.sl, Q p.1 p.2 (f u p.1 p.2)

/-- The machine `t` is `s` but for the Prefect of a team, changed by `f`. -/
def PrefGoes (s : State) (p : Pref) (t : State) (f : Prefect → Prefect) : Prop :=
  t = updTeam s p.team.tid (fun u => { u with pf := f u.pf })

/-- A slice with the cohort, the issue count and the readiness of another: what every instruction of a gang may change
(R187, R293, R294). -/
def sameTurn (sl sl' : Slice) : Slice := { sl' with cohort := sl.cohort, count := sl.count, pend := sl.pend }

/-- Nothing of a slice changed but its program counter, which moved past the instruction. -/
def OnlyPc (sl sl' : Slice) : Prop := sameTurn sl sl' = { sl with pc := sl.pc + 4 }
/-- The same but for vector registers and their tags, predicates, index registers, or scalar registers. -/
def OnlyV (sl sl' : Slice) : Prop := { sameTurn sl sl' with v := sl.v, uni := sl.uni } = { sl with pc := sl.pc + 4 }
def OnlyP (sl sl' : Slice) : Prop := { sameTurn sl sl' with p := sl.p } = { sl with pc := sl.pc + 4 }
def OnlyX (sl sl' : Slice) : Prop := { sameTurn sl sl' with x := sl.x } = { sl with pc := sl.pc + 4 }
def OnlyG (sl sl' : Slice) : Prop := { sameTurn sl sl' with g := sl.g } = { sl with pc := sl.pc + 4 }

/-- Vector register d of every active lane holds `val`; every other lane and register is as it was. -/
def LanesSet (d : Nat) (val : Slice → Nat → W32) (sl sl' : Slice) : Prop :=
  OnlyV sl sl' ∧ ∀ r l, l < 4 → rdV sl' r l = if r = d ∧ activeIn sl l = true then val sl l else rdV sl r l

/-- No vector register but those in `ds`, and no lane but the active ones, changed. -/
def LanesTouched (ds : List Nat) (sl sl' : Slice) : Prop :=
  OnlyV sl sl' ∧ ∀ r l, l < 4 → (r ∉ ds ∨ activeIn sl l = false) → rdV sl' r l = rdV sl r l

/-- A vector operand of a lane: a register, or the even-odd pair with its high word above its low one (R267). -/
def opnd (pair : Bool) (sl : Slice) (r l : Nat) : Nat :=
  (rdV sl r l).toNat + (if pair then 2 ^ 32 * (rdV sl (r + 1) l).toNat else 0)

/-- The destination operand of every active lane holds the low bits of `val`; every other lane and register is as it was. -/
def OpndSet (pair : Bool) (d : Nat) (val : Slice → Nat → Nat) (sl sl' : Slice) : Prop :=
  LanesTouched (regsOf pair d) sl sl' ∧
  ∀ l, l < 4 → activeIn sl l = true → opnd pair sl' d l = val sl l % 2 ^ (if pair then 64 else 32)

/-- Predicate k of every active lane is `val`, p0 excepted; every other lane and predicate is as it was. -/
def PredSet (k : Nat) (val : Slice → Nat → Bool) (sl sl' : Slice) : Prop :=
  OnlyP sl sl' ∧ ∀ q l, q < 8 → l < 4 →
    rdP sl' q l = if q = k ∧ k ≠ 0 ∧ activeIn sl l = true then val sl l else rdP sl q l

/-- Scalar register k holds `x`; nothing else of the slice changed but its program counter. -/
def GSet (k : Nat) (x : W64) (sl sl' : Slice) : Prop := OnlyG sl sl' ∧ ∀ q, rdG sl' q = if q = k then x else rdG sl q

/-- Index register k of every active lane holds `val` with bit 16 at 0; every other lane and index register is as it was. -/
def IndexSet (k : Nat) (val : Slice → Nat → W32) (sl sl' : Slice) : Prop :=
  OnlyX sl sl' ∧ ∀ q l, l < 4 → rdX sl' q l = if q = k ∧ activeIn sl l = true then val sl l &&& 0xFFFEFFFF#32 else rdX sl q l

/-! ## Invariants -/

/-- Memory is in its one canonical form. -/
def MemInv (s : State) : Prop := Memory.wf s.mem = true

end Sys2Proof.Machine
end

