-- ==== Sys2Proof/WellFormed.lean ====
section
/-! DEFINITION. Which instructions are well formed: the checks of R316 that the word alone decides. An instruction that is not
well formed raises ILLEGAL where it executes. Checks against N, MODE and register values are the meaning's. -/

namespace Sys2Proof

/-- An even register number, as a pair needs (R267). -/
def even {n : Nat} (x : BitVec n) : Bool := x.toNat % 2 == 0
/-- A register number that is a multiple of k. -/
def aligned {n : Nat} (k : Nat) (x : BitVec n) : Bool := x.toNat % k == 0
/-- A hold that names a or b, or a alone (R299, R365). -/
def holdAB (h : BitVec 2) : Bool := h != 3
def holdA (h : BitVec 2) : Bool := decide (h.toNat ≤ 1)
/-- Registers of an access of 4, 8 or 16 bytes begin at a multiple of their count (R305); size 11 depends on MODE. -/
def sized (d : VReg) (s : BitVec 2) : Bool := s == 3 || aligned (2 ^ s.toNat) d
/-- Registers that ATOM reads from b (R391, R392): twice as many for cas. -/
def atomRegs (o : BitVec 4) (w : BitVec 1) : Nat := (if o = 9 then 2 else 1) * (if w = 1 then 2 else 1)
/-- CVT's source code and element (R302). -/
def cvtSource (f n : Nat) : Bool :=
  decide (f ≤ 11) && f != 5 && (match f with | 0 | 10 | 11 | 9 => n == 0 | 1 | 2 | 8 => decide (n ≤ 1) | _ => true)
/-- MODE's value: no reserved bit, ETYPE or RND (R291, R329). -/
def modeWord (i : BitVec 20) : Bool :=
  !i.getLsbD 15 && !i.getLsbD 7 && !i.getLsbD 3 && decide ((i.toNat / 256) % 16 < 12) && decide ((i.toNat / 4096) % 8 < 5)
/-- A fence's sets and scope (R403). -/
def fenceWord (p s : BitVec 4) (c : BitVec 3) : Bool := p != 0 && s != 0 && decide (1 ≤ c.toNat ∧ c.toNat ≤ 5)

/-- The instruction's fields are assigned and consistent. An event row has no word. -/
def Instr.wellFormed (i : Instr) : Bool :=
  match i with
  | .iadd h _ _ _ _ => holdAB h
  | .isub h _ _ _ _ => holdAB h
  | .imul h _ _ _ _ => holdAB h
  | .imulh h _ _ _ _ => holdAB h
  | .imad _ _ _ _ _ => true
  | .imin h _ _ _ _ => holdAB h
  | .imax h _ _ _ _ => holdAB h
  | .iabsd h _ _ _ _ => holdAB h
  | .vand h _ _ _ _ => holdAB h
  | .vor h _ _ _ _ => holdAB h
  | .vxor h _ _ _ _ => holdAB h
  | .andn h _ _ _ _ => holdAB h
  | .shl h _ _ _ _ => holdAB h
  | .shr h _ _ _ _ => holdAB h
  | .sra h _ _ _ _ => holdAB h
  | .fadd h _ _ _ _ => holdAB h
  | .fsub h _ _ _ _ => holdAB h
  | .fmul h _ _ _ _ => holdAB h
  | .fma _ _ _ _ _ => true
  | .fms _ _ _ _ _ => true
  | .fnma _ _ _ _ _ => true
  | .fmin h _ _ _ _ => holdAB h
  | .fmax h _ _ _ _ => holdAB h
  | .sel h _ _ _ _ => holdAB h
  | .shfl h _ _ _ _ => holdAB h
  | .shflx h _ _ _ _ => holdAB h
  | .bprm h _ _ _ _ => holdAB h
  | .dot2 _ _ _ _ _ => true
  | .dot4 _ _ _ _ _ => true
  | .pack h _ _ _ _ => holdAB h
  | .fscale h _ _ _ _ => holdAB h
  | .mov h _ _ _ => holdA h
  | .vnot h _ _ _ => holdA h
  | .ineg h _ _ _ => holdA h
  | .iabs h _ _ _ => holdA h
  | .popc h _ _ _ => holdA h
  | .clz h _ _ _ => holdA h
  | .ctz h _ _ _ => holdA h
  | .brev h _ _ _ => holdA h
  | .sext8 h _ _ _ => holdA h
  | .sext16 h _ _ _ => holdA h
  | .zext8 h _ _ _ => holdA h
  | .zext16 h _ _ _ => holdA h
  | .bswap h _ _ _ => holdA h
  | .movg _ _ _ => true
  | .movgh _ _ _ => true
  | .fneg h _ _ _ => holdA h
  | .fabs h _ _ _ => holdA h
  | .frcp h _ _ _ => holdA h
  | .frsq h _ _ _ => holdA h
  | .fsqrt h _ _ _ => holdA h
  | .fexp2 h _ _ _ => holdA h
  | .flog2 h _ _ _ => holdA h
  | .fsin h _ _ _ => holdA h
  | .fcos h _ _ _ => holdA h
  | .ffloor h _ _ _ => holdA h
  | .fceil h _ _ _ => holdA h
  | .ftrunc h _ _ _ => holdA h
  | .frint h _ _ _ => holdA h
  | .fclass h _ _ _ => holdA h
  | .ffrac h _ _ _ => holdA h
  | .cvt h _ _ a n f => holdA h && cvtSource f.toNat n.toNat && (f != 11 || even a)
  | .ballot h _ _ _ => holdA h
  | .vany h _ _ _ => holdA h
  | .vall h _ _ _ => holdA h
  | .bcast h _ _ _ => holdA h
  | .laneid h _ _ => h == 0
  | .sliceid h _ _ => h == 0
  | .redadd h _ _ _ => holdA h
  | .redmin h _ _ _ => holdA h
  | .redmax h _ _ _ => holdA h
  | .prfxadd h _ _ _ => holdA h
  | .prfxex h _ _ _ => holdA h
  | .uniq h _ _ _ => holdA h
  | .xset h _ _ _ => holdA h
  | .xadd h _ _ _ => h == 0
  | .xget h _ _ _ => h == 0
  | .vldx h _ _ _ _ => h == 0
  | .vstx h _ _ _ _ => h == 0 || h == 3
  | .p2v h _ _ _ => h == 0
  | .v2p h _ _ _ => holdA h
  | .pnot h _ _ _ => h == 0
  | .pand h _ _ _ _ => h == 0
  | .por h _ _ _ _ => h == 0
  | .pxor h _ _ _ _ => h == 0
  | .icmp h _ c _ _ _ => holdAB h && decide (c.toNat ≤ 9)
  | .fcmp h _ c _ _ _ => holdAB h && decide (c.toNat ≤ 13)
  | .iaddi _ _ _ _ => true
  | .andi _ _ _ _ => true
  | .ori _ _ _ _ => true
  | .xori _ _ _ _ => true
  | .shli _ _ _ i => decide (i.toNat < 32)
  | .shri _ _ _ i => decide (i.toNat < 32)
  | .srai _ _ _ i => decide (i.toNat < 32)
  | .movk _ _ _ => true
  | .movkh _ _ _ => true
  | .ld _ d a s _ => even a && sized d s
  | .st _ d a s _ => even a && sized d s
  | .lds _ d _ s _ => sized d s
  | .sts _ d _ s _ => sized d s
  | .atom o w d a b => decide (o.toNat ≤ 11) && (w == 0 || (decide (o.toNat ≤ 9) && even d)) && even a && aligned (atomRegs o w) b
  | .red _ w a b => even a && (w == 0 || even b)
  | .redFadd a _ => even a
  | .redBfadd2 a _ => even a
  | .ll4 _ a => even a
  | .ll8 d a => even a && even d
  | .sc4 _ a _ => even a
  | .sc8 _ a b => even a && even b
  | .ldt _ a => even a
  | .unpk d a => even a && even d
  | .sttr _ a b => even a && even b
  | .pref a _ => even a
  | .fpush _ _ => true
  | .fpop _ _ => true
  | .stm s a b => s != 3 && even a && aligned (if s = 0 then 1 else if s = 1 then 2 else 4) b
  | .bra c g _ => decide (c.toNat ≤ 9) && (decide (1 ≤ c.toNat ∧ c.toNat ≤ 6) || g == 0)
  | .call _ _ => true
  | .gadd _ _ _ => true
  | .gsub _ _ _ => true
  | .gmul _ _ _ => true
  | .gand _ _ _ => true
  | .gor _ _ _ => true
  | .gxor _ _ _ => true
  | .gshl _ _ _ => true
  | .gshr _ _ _ => true
  | .gsra _ _ _ => true
  | .gmin _ _ _ => true
  | .gmax _ _ _ => true
  | .gslt _ _ _ => true
  | .gsltu _ _ _ => true
  | .gmov _ _ => true
  | .gaddi _ _ _ => true
  | .gandi _ _ _ => true
  | .gori _ _ _ => true
  | .gxori _ _ _ => true
  | .gshli _ _ i => decide (i.toNat < 64)
  | .gshri _ _ i => decide (i.toNat < 64)
  | .gsrai _ _ i => decide (i.toNat < 64)
  | .gli _ _ => true
  | .vget _ _ _ => true
  | .vgeth _ _ _ => true
  | .modeSet i => modeWord i
  | .mset _ => true
  | .msave _ => true
  | .mrest _ w => w != 0
  | .mand _ _ _ => true
  | .mor _ _ _ => true
  | .mall _ => true
  | .regang l => l != 0
  | .bar _ c => decide (c.toNat ≤ 260)
  | .safept _ => true
  | .dqpop _ => true
  | .trap _ => true
  | .brk _ => true
  | .wait _ => true
  | .fence p s c => fenceWord p s c
  | .wtime _ => true
  | .sysr _ _ => true
  | .sysw _ _ => true
  | .ret _ => true
  | .jr _ _ => true
  | .chain _ e => decide (e.toNat < 18)
  | .tagwaitAny _ _ => true
  | .tagwaitAll _ _ => true
  | .tagff _ _ => true
  | .tagclr _ => true
  | .bcwait _ _ _ => true
  | .bcadd _ _ => true
  | .sadd _ _ _ => true
  | .ssub _ _ _ => true
  | .smul _ _ _ => true
  | .smulh _ _ _ => true
  | .sdiv _ _ _ => true
  | .srem _ _ _ => true
  | .sand _ _ _ => true
  | .sor _ _ _ => true
  | .sxor _ _ _ => true
  | .sshl _ _ _ => true
  | .sshr _ _ _ => true
  | .ssra _ _ _ => true
  | .smin _ _ _ => true
  | .smax _ _ _ => true
  | .sslt _ _ _ => true
  | .ssltu _ _ _ => true
  | .smov _ _ => true
  | .saddi _ _ _ => true
  | .sandi _ _ _ => true
  | .sori _ _ _ => true
  | .sxori _ _ _ => true
  | .sshli _ _ i => decide (i.toNat < 64)
  | .sshri _ _ i => decide (i.toNat < 64)
  | .ssrai _ _ i => decide (i.toNat < 64)
  | .slui _ _ => true
  | .sld _ _ _ => true
  | .sst _ _ _ => true
  | .slds _ _ _ => true
  | .ssts _ _ _ => true
  | .sld4 _ _ _ => true
  | .sst4 _ _ _ => true
  | .slds4 _ _ _ => true
  | .ssts4 _ _ _ => true
  | .sbEq _ _ _ => true
  | .sbNe _ _ _ => true
  | .sbLt _ _ _ => true
  | .sbGe _ _ _ => true
  | .sbLtu _ _ _ => true
  | .sbGeu _ _ _ => true
  | .sj _ => true
  | .scall _ _ => true
  | .sret _ => true
  | .sjr _ _ => true
  | .dqpush _ => true
  | .tapePush _ => true
  | .qsignal c _ _ _ => c == 4 || c == 5
  | .stime _ => true
  | .swtime _ => true
  | .sbar _ h l => decide (64 * h.toNat + l.toNat ≤ 260)
  | .ssysr _ _ _ => true
  | .ssysw _ _ _ => true
  | .sramcfg m _ => m != 0
  | .sfence c p s => fenceWord p s c
  | .mcfg _ => true
  | .mcb _ _ => true
  | .mldb _ _ => true
  | .mma _ _ _ => true
  | .mepi _ _ _ => true
  | .mzero _ => true
  | .mrel _ => true
  | .slpin _ _ _ => true
  | .slunpin _ => true
  | .sldelta _ _ => true
  | .slread _ _ _ => true
  | .slchunk _ _ _ => true
  | .slspill _ => true
  | .slfill _ => true
  | .slinfo _ _ => true
  | .schain e _ => decide (e.toNat < 18)
  | .stagwaitAny _ _ _ => true
  | .stagwaitAll _ _ _ => true
  | .stagff _ _ _ => true
  | .sbcwait _ _ _ => true
  | .sbcarm _ _ _ => true
  | .pageWalk => false
  | .zeroRequest => false
  | .zeroingComplete => false
  | .asidRebind => false
  | .asidRebindDone => false
  | .ptSync => false
  | .ptSyncRetire => false
  | .adapterFlipReply => false
  | .hostFlip => false
  | .flipHoldExpiry => false
  | .rdcSizeApply => false
  | .l2Request => false
  | .bump => false
  | .ckoutGrant => false
  | .ckoutTimeout => false
  | .engineLockGrant => false
  | .lockReplay => false
  | .reservationExpiry => false
  | .engineOperationComplete => false
  | .reload => false
  | .ualinkReadRequest => false
  | .ualinkWriteRequest => false
  | .podResponse => false
  | .fabricTimeout => false
  | .mcw => false
  | .mco => false
  | .rdn => false
  | .llq => false
  | .scq => false
  | .ctb => false
  | .crs => false
  | .spk => false
  | .passToken => false
  | .rcv => false
  | .recoveryAck => false
  | .badop => false
  | .packetBlocked => false
  | .passReissue => false
  | .linkReplay => false
  | .laneSpareRetrain => false
  | .portDown => false
  | .uetPacket => false
  | .ptpSync => false
  | .ptpDelayResp => false
  | .ptpSyncLoss => false
  | .timeTargetReached => false
  | .loadReturn => false
  | .gambitEntry => false
  | .gambitInstructionLimit => false
  | .regangTimeout => false
  | .queueDb => false
  | .queueEnable => false
  | .queueDisable => false
  | .queueReset => false
  | .queueResume => false
  | .queueLaunch => false
  | .queueWait => false
  | .queueWaitPoll => false
  | .queueWaitTimeout => false
  | .queueSignal => false
  | .queueCopy => false
  | .queueRewind => false
  | .queueNop => false
  | .timedStart => false
  | .formPlacement => false
  | .launchReserving => false
  | .gridComplete => false
  | .forcedEntry => false
  | .quantumExpiry => false
  | .priorityPreemption => false
  | .hardPreemption => false
  | .contextSave => false
  | .teamRestore => false
  | .matrixGrant => false
  | .slateRefill => false
  | .replayResume => false
  | .skipResume => false
  | .abortResume => false
  | .replayfResume => false
  | .operandLogReplay => false
  | .watchdog => false
  | .tenantReset => false
  | .eccUncorr => false
  | .systemRegisterWrite => false
  | .hostMemoryAccess => false
  | .mgtErr => false
  | .resetDevice => false
  | .errclr => false
  | .farExtentAdd => false
  | .farExtentRelease => false
  | .attest => false
  | .identityRequest => false
  | .stageBegin => false
  | .stageData => false
  | .stageCommit => false
  | .stageAbort => false
  | .mailboxBadop => false
  | .mailboxRequestEnd => false
  | .powerOn => false
  | .powerCapStepDown => false
  | .supplySag => false
  | .clockStepUp => false
  | .d2dFailure => false
  | .prebriyrFault => false
  | .hbmStackFailure => false
  | .softcorr => false
  | .scrub => false
  | .brodileLinkRetrain => false
  | .copyEntry => false
  | .copyt => false
  | .gather => false
  | .scatter => false
  | .mcast => false
  | .allred => false
  | .redscat => false
  | .allgath => false
  | .sparsek => false
  | .ckout => false
  | .ckin => false
  | .signalEntry => false
  | .waitbc => false
  | .loopEntry => false
  | .ifbc => false
  | .endEntry => false
  | .ill => false
  | .exitSlice => true
  | .nop => true
  | .yield => true
  | .sexit => true
  | .mdrain => true
  | .railRecovery => false
  | .linkRetrainEnd => false
  | .farAccessReply => false
  | .invalidHostAccess => false

end Sys2Proof
end

