-- ==== Sys2Proof/Certificates/Slice0/Obligations.lean ====
section
/-! DEFINITION. The statements about the machine, family by family, each from the rules of the spec that it names, and the
tables they go through. -/

open Sys2Proof Sys2Proof.Machine

/-! ## Integer vector instructions -/

namespace Sys2Proof.Claims
open Sys2Proof.Machine

/-- A hold field that names a source the instruction reads (R365). -/
def HoldOk (h : BitVec 2) (useB useD : Bool) : Prop := h = 0 ∨ h = 1 ∨ (h = 2 ∧ useB = true) ∨ (h = 3 ∧ useD = true)

/-- A vector register operand is legal among n registers (R182, R363). -/
def OpndOk (n : Nat) (pair : Bool) (r : VReg) : Prop :=
  if pair then r.toNat % 2 = 0 ∧ r.toNat + 1 < n else r.toNat < n

/-- Element width, elements per operand and signedness of the class of an ETYPE (Table 12.1). -/
def intClassOf : Nat → Option (Nat × Nat × Bool)
  | 0 => some (32, 1, true)
  | 9 => some (32, 1, true)
  | 10 => some (32, 1, false)
  | 1 => some (16, 2, true)
  | 2 => some (16, 2, true)
  | 8 => some (16, 2, true)
  | 11 => some (64, 1, true)
  | _ => none

/-- Element e, of w bits, of an operand. -/
def elemBits (w e x : Nat) : BitVec w := BitVec.ofNat w (x / 2 ^ (w * e))
/-- An element as a number under its class's signedness. -/
def elemVal (sgn : Bool) (w e x : Nat) : Int := if sgn then (elemBits w e x).toInt else ((elemBits w e x).toNat : Int)
/-- The range of a class (R270). -/
def lowest (sgn : Bool) (w : Nat) : Int := if sgn then -(2 ^ (w - 1)) else 0
def highest (sgn : Bool) (w : Nat) : Int := if sgn then 2 ^ (w - 1) - 1 else 2 ^ w - 1
def inRange (sgn : Bool) (w : Nat) (v : Int) : Prop := lowest sgn w ≤ v ∧ v ≤ highest sgn w

/-- An integer-class instruction: its words, the sources it reads besides a, whether SAT clamps it, and the exact result from
A, B, D and the immediate. -/
structure IntForm where
  form : BitVec 2 → BitVec 3 → VReg → VReg → VReg → BitVec 6 → Instr
  useB : Bool
  useD : Bool
  clamps : Bool
  val : Nat → Int → Int → Int → Int → Int

/-- Table 12.2, INEG and IABS of Table 12.3, and IADDI (R382). -/
def intForms : List IntForm := [
  ⟨fun h w d a b _ => .iadd h w d a b, true, false, true, fun _ a b _ _ => a + b⟩,
  ⟨fun h w d a b _ => .isub h w d a b, true, false, true, fun _ a b _ _ => a - b⟩,
  ⟨fun h w d a b _ => .imul h w d a b, true, false, true, fun _ a b _ _ => a * b⟩,
  ⟨fun h w d a b _ => .imulh h w d a b, true, false, false, fun w a b _ _ => a * b / 2 ^ w⟩,
  ⟨fun h w d a b _ => .imad h w d a b, true, true, true, fun _ a b d _ => a * b + d⟩,
  ⟨fun h w d a b _ => .imin h w d a b, true, false, false, fun _ a b _ _ => min a b⟩,
  ⟨fun h w d a b _ => .imax h w d a b, true, false, false, fun _ a b _ _ => max a b⟩,
  ⟨fun h w d a b _ => .iabsd h w d a b, true, false, false, fun _ a b _ _ => |a - b|⟩,
  ⟨fun h w d a _ _ => .ineg h w d a, false, false, true, fun _ a _ _ _ => -a⟩,
  ⟨fun h w d a _ _ => .iabs h w d a, false, false, true, fun _ a _ _ _ => |a|⟩,
  ⟨fun _ w d a _ i => .iaddi w d a i, false, false, true, fun _ a _ _ i => a + i⟩]

/-- What a lane's element of an integer-class instruction is before wrapping or clamping. -/
def IntForm.exact (F : IntForm) (c : Nat × Nat × Bool) (d a b : VReg) (i : BitVec 6) (sl : Slice) (l e : Nat) : Int :=
  let x := fun (r : VReg) => elemVal c.2.2 c.1 e (opnd (c.1 == 64) sl r.toNat l)
  F.val c.1 (x a) (x b) (x d) i.toInt

end Sys2Proof.Claims
open Sys2Proof.Claims

/-- R361, R363, R364, R367: an integer-class instruction acts element by element, exactly, and then wraps or clamps; it sets
SYS.FPFLAGS.SAT when it clamps and no other flag; nothing else of the machine changes but the program counter. -/
def Obligations.IntegerArithmetic : Prop :=
  ∀ (s : State) (g : Gang), GangReady s g → ∀ F ∈ intForms, ∀ (h : BitVec 2) (w : BitVec 3) (d a b : VReg) (i : BitVec 6)
    (c : Nat × Nat × Bool), intClassOf (modeEtype g.mode) = some c → HoldOk h F.useB F.useD →
    OpndOk g.team.nregs (c.1 == 64) d → OpndOk g.team.nregs (c.1 == 64) a → OpndOk g.team.nregs (c.1 == 64) b →
    ∃ t fl, exec (F.form h w d a b i) s = .next t ∧ (fl = 0 ∨ fl = flSAT) ∧
      (fl = flSAT ↔ modeSat g.mode = true ∧ F.clamps = true ∧ ∃ p ∈ g.sl, ∃ l < 4, activeIn p.2 l = true ∧
        ∃ e < c.2.1, ¬ inRange c.2.2 c.1 (F.exact c d a b i p.2 l e)) ∧
      GangGoes (raiseFl s g.grid.tenant fl) g t (fun _ sl sl' =>
        LanesTouched (regsOf (c.1 == 64) d.toNat) sl sl' ∧
        ∀ l, l < 4 → activeIn sl l = true → ∀ e, e < c.2.1 →
          elemBits c.1 e (opnd (c.1 == 64) sl' d.toNat l) = BitVec.ofInt c.1
            (if modeSat g.mode && F.clamps then max (lowest c.2.2 c.1) (min (highest c.2.2 c.1) (F.exact c d a b i sl l e))
             else F.exact c d a b i sl l e))

/-! ## Words, shifts and moves -/

namespace Sys2Proof.Claims
open Sys2Proof.Machine

/-- Leading and trailing zero bits, and the number of 1 bits, of a word. -/
def leadingZeros (x : W32) : Nat := ((List.range 32).takeWhile (fun i => !x.getLsbD (31 - i))).length
def trailingZeros (x : W32) : Nat := ((List.range 32).takeWhile (fun i => !x.getLsbD i)).length
def onesIn (x : W32) : Nat := (List.range 32).countP (fun i => x.getLsbD i)
/-- Byte k of a word. -/
def byteOf (k : Nat) (x : W32) : BitVec 8 := x.extractLsb' (8 * k) 8

/-- An instruction on whole words that reads no MODE field but GUARD. -/
structure WordForm where
  form : BitVec 2 → BitVec 3 → VReg → VReg → VReg → BitVec 6 → Instr
  useB : Bool
  val : W32 → W32 → BitVec 6 → W32

/-- R368, Table 12.3 and R382. -/
def wordForms : List WordForm := [
  ⟨fun h w d a b _ => .vand h w d a b, true, fun x y _ => x &&& y⟩,
  ⟨fun h w d a b _ => .vor h w d a b, true, fun x y _ => x ||| y⟩,
  ⟨fun h w d a b _ => .vxor h w d a b, true, fun x y _ => x ^^^ y⟩,
  ⟨fun h w d a b _ => .andn h w d a b, true, fun x y _ => x &&& ~~~y⟩,
  ⟨fun h w d a _ _ => .mov h w d a, false, fun x _ _ => x⟩,
  ⟨fun h w d a _ _ => .vnot h w d a, false, fun x _ _ => ~~~x⟩,
  ⟨fun h w d a _ _ => .popc h w d a, false, fun x _ _ => BitVec.ofNat 32 (onesIn x)⟩,
  ⟨fun h w d a _ _ => .clz h w d a, false, fun x _ _ => BitVec.ofNat 32 (leadingZeros x)⟩,
  ⟨fun h w d a _ _ => .ctz h w d a, false, fun x _ _ => BitVec.ofNat 32 (trailingZeros x)⟩,
  ⟨fun h w d a _ _ => .brev h w d a, false, fun x _ _ => x.reverse⟩,
  ⟨fun h w d a _ _ => .sext8 h w d a, false, fun x _ _ => (x.setWidth 8).signExtend 32⟩,
  ⟨fun h w d a _ _ => .sext16 h w d a, false, fun x _ _ => (x.setWidth 16).signExtend 32⟩,
  ⟨fun h w d a _ _ => .zext8 h w d a, false, fun x _ _ => (x.setWidth 8).setWidth 32⟩,
  ⟨fun h w d a _ _ => .zext16 h w d a, false, fun x _ _ => (x.setWidth 16).setWidth 32⟩,
  ⟨fun h w d a _ _ => .bswap h w d a, false, fun x _ _ => byteOf 0 x ++ byteOf 1 x ++ byteOf 2 x ++ byteOf 3 x⟩,
  ⟨fun _ w d a _ i => .andi w d a i, false, fun x _ i => x &&& i.signExtend 32⟩,
  ⟨fun _ w d a _ i => .ori w d a i, false, fun x _ i => x ||| i.signExtend 32⟩,
  ⟨fun _ w d a _ i => .xori w d a i, false, fun x _ i => x ^^^ i.signExtend 32⟩]

/-- A shift: whether its amount is the immediate, and the element by an amount. -/
structure ShiftForm where
  form : BitVec 2 → BitVec 3 → VReg → VReg → VReg → BitVec 6 → Instr
  imm : Bool
  val : (w : Nat) → BitVec w → Nat → BitVec w

def shiftForms : List ShiftForm := [
  ⟨fun h w d a b _ => .shl h w d a b, false, fun _ x n => x <<< n⟩,
  ⟨fun h w d a b _ => .shr h w d a b, false, fun _ x n => x >>> n⟩,
  ⟨fun h w d a b _ => .sra h w d a b, false, fun _ x n => x.sshiftRight n⟩,
  ⟨fun _ w d a _ i => .shli w d a i, true, fun _ x n => x <<< n⟩,
  ⟨fun _ w d a _ i => .shri w d a i, true, fun _ x n => x >>> n⟩,
  ⟨fun _ w d a _ i => .srai w d a i, true, fun _ x n => x.sshiftRight n⟩]

/-- The instruction executes and writes `val` into register d of every active lane; nothing else changes. -/
def LaneValue (s : State) (g : Gang) (i : Instr) (d : VReg) (val : Nat → Slice → Nat → W32) : Prop :=
  ∃ t, exec i s = .next t ∧ GangGoes s g t (fun n sl sl' => LanesSet d.toNat (val n) sl sl')

/-- The same for predicate k, and for index register k. -/
def LanePred (s : State) (g : Gang) (i : Instr) (k : PReg) (val : Slice → Nat → Bool) : Prop :=
  ∃ t, exec i s = .next t ∧ GangGoes s g t (fun _ sl sl' => PredSet k.toNat val sl sl')
def LaneIndex (s : State) (g : Gang) (i : Instr) (k : XReg) (val : Slice → Nat → W32) : Prop :=
  ∃ t, exec i s = .next t ∧ GangGoes s g t (fun _ sl sl' => IndexSet k.toNat val sl sl')

/-- The integer compares of Table 10.8. -/
def icmpHolds {w : Nat} (c : Nat) (x y : BitVec w) : Bool :=
  match c with
  | 0 => x == y
  | 1 => x != y
  | 2 => x.slt y
  | 3 => x.sle y
  | 4 => y.slt x
  | 5 => y.sle x
  | 6 => x.ult y
  | 7 => x.ule y
  | 8 => y.ult x
  | _ => y.ule x

/-- PACK's element width (R372). -/
def packOf : Nat → Option Nat
  | 1 => some 16
  | 2 => some 16
  | 8 => some 16
  | 3 => some 8
  | 4 => some 8
  | 6 => some 8
  | 7 => some 8
  | _ => none

/-- DOT4's exact sum (R371). -/
def dotSum (sgn : Bool) (x y z : W32) : Int :=
  let v := fun (k : Nat) (r : W32) => if sgn then (byteOf k r).toInt else ((byteOf k r).toNat : Int)
  (if sgn then z.toInt else (z.toNat : Int)) + v 0 x * v 0 y + v 1 x * v 1 y + v 2 x * v 2 y + v 3 x * v 3 y

end Sys2Proof.Claims

/-- R368, R374, R382: the bitwise and word instructions give their word in every active lane whatever MODE holds; nothing
else changes but the program counter.
R368, R382: a shift acts element by element by bits [7:0] of the matching element of b, or by the immediate, the amount
used whole; no flag is raised. -/
def Obligations.WordAndShiftOperations : Prop :=
  (∀ (s : State) (g : Gang), GangReady s g → ∀ F ∈ wordForms, ∀ (h : BitVec 2) (w : BitVec 3) (d a b : VReg) (i : BitVec 6),
    HoldOk h F.useB false → d.toNat < g.team.nregs → a.toNat < g.team.nregs → b.toNat < g.team.nregs →
    LaneValue s g (F.form h w d a b i) d (fun _ sl l => F.val (rdV sl a.toNat l) (rdV sl b.toNat l) i)) ∧
  (∀ (s : State) (g : Gang), GangReady s g → ∀ F ∈ shiftForms, ∀ (h : BitVec 2) (w : BitVec 3) (d a b : VReg) (i : BitVec 6)
    (c : Nat × Nat × Bool), intClassOf (modeEtype g.mode) = some c → HoldOk h (!F.imm) false → (F.imm = true → i.toNat < 32) →
    OpndOk g.team.nregs (c.1 == 64) d → OpndOk g.team.nregs (c.1 == 64) a → OpndOk g.team.nregs (c.1 == 64) b →
    ∃ t, exec (F.form h w d a b i) s = .next t ∧ GangGoes s g t (fun _ sl sl' =>
      LanesTouched (regsOf (c.1 == 64) d.toNat) sl sl' ∧
      ∀ l, l < 4 → activeIn sl l = true → ∀ e, e < c.2.1 →
        elemBits c.1 e (opnd (c.1 == 64) sl' d.toNat l) = F.val c.1 (elemBits c.1 e (opnd (c.1 == 64) sl a.toNat l))
          (if F.imm then i.toNat else (elemBits c.1 e (opnd (c.1 == 64) sl b.toNat l)).toNat % 256)))

/-- R370, R374, R377, R379, R383: constants, g registers, lane and slice numbers, index registers, predicates and selection
as words of a vector register.
R379, R381: predicate and index-register writes of every active lane. ICMP compares pairs under INT64 and words under
every other ETYPE. A write to p0 has no effect.
R371, R372: PACK interleaves narrow elements; DOT4 adds four products of bytes to d, wrapping, or clamping under SAT with
its flag. -/
def Obligations.LaneMovesPredicatesAndPacking : Prop :=
  (∀ (s : State) (g : Gang), GangReady s g → ∀ (h : BitVec 2) (w : BitVec 3) (d a b : VReg) (k : BitVec 16) (r : GReg) (x : XReg)
    (p : PReg), d.toNat < g.team.nregs → a.toNat < g.team.nregs → b.toNat < g.team.nregs →
    LaneValue s g (.movk w d k) d (fun _ _ _ => k.setWidth 32) ∧
    LaneValue s g (.movkh w d k) d (fun _ sl l => k ++ (rdV sl d.toNat l).setWidth 16) ∧
    LaneValue s g (.movg w d r) d (fun _ sl _ => (rdG sl r.toNat).setWidth 32) ∧
    LaneValue s g (.movgh w d r) d (fun _ sl _ => (rdG sl r.toNat).extractLsb' 32 32) ∧
    LaneValue s g (.laneid 0 w d) d (fun _ _ l => BitVec.ofNat 32 l) ∧
    LaneValue s g (.sliceid 0 w d) d (fun n _ _ => BitVec.ofNat 32 n) ∧
    LaneValue s g (.xget 0 w d x) d (fun _ sl l => rdX sl x.toNat l) ∧
    LaneValue s g (.p2v 0 w d p) d (fun _ sl l => if rdP sl p.toNat l then 1 else 0) ∧
    (HoldOk h true false → LaneValue s g (.sel h w d a b) d (fun _ sl l =>
      if rdP sl (modeSelp g.mode) l then rdV sl a.toNat l else rdV sl b.toNat l))) ∧
  ((∀ (s : State) (g : Gang), GangReady s g → ∀ (h : BitVec 2) (w : BitVec 3) (c : BitVec 4) (p q r : PReg) (a b : VReg) (x : XReg)
    (k : BitVec 7), a.toNat < g.team.nregs → b.toNat < g.team.nregs →
    LanePred s g (.pnot 0 w p q) p (fun sl l => !rdP sl q.toNat l) ∧
    LanePred s g (.pand 0 w p r q) p (fun sl l => rdP sl q.toNat l && rdP sl r.toNat l) ∧
    LanePred s g (.por 0 w p r q) p (fun sl l => rdP sl q.toNat l || rdP sl r.toNat l) ∧
    LanePred s g (.pxor 0 w p r q) p (fun sl l => rdP sl q.toNat l != rdP sl r.toNat l) ∧
    (HoldOk h false false → LanePred s g (.v2p h w a p) p (fun sl l => rdV sl a.toNat l != 0)) ∧
    (HoldOk h false false → LaneIndex s g (.xset h w a x) x (fun sl l => rdV sl a.toNat l)) ∧
    LaneIndex s g (.xadd 0 w k x) x (fun sl l =>
      (rdX sl x.toNat l).extractLsb' 16 16 ++ ((rdX sl x.toNat l).setWidth 16 + k.signExtend 16)) ∧
    (HoldOk h true false → c.toNat ≤ 9 → modeEtype g.mode ≠ 11 →
      LanePred s g (.icmp h w c p a b) p (fun sl l => icmpHolds c.toNat (rdV sl a.toNat l) (rdV sl b.toNat l))) ∧
    (HoldOk h true false → c.toNat ≤ 9 → modeEtype g.mode = 11 → OpndOk g.team.nregs true a → OpndOk g.team.nregs true b →
      LanePred s g (.icmp h w c p a b) p (fun sl l =>
        icmpHolds c.toNat (rdV sl (a.toNat + 1) l ++ rdV sl a.toNat l) (rdV sl (b.toNat + 1) l ++ rdV sl b.toNat l)))) ∧
  (∀ (s : State) (g : Gang), GangReady s g → ∀ (h : BitVec 2) (w : BitVec 3) (d a b : VReg),
    d.toNat < g.team.nregs → a.toNat < g.team.nregs → b.toNat < g.team.nregs →
    (HoldOk h true false → ∀ k, packOf (modeEtype g.mode) = some k →
      LaneValue s g (.pack h w d a b) d (fun _ sl l =>
        let x := rdV sl a.toNat l
        let y := rdV sl b.toNat l
        if k = 16 then y.setWidth 16 ++ x.setWidth 16 else byteOf 1 y ++ byteOf 1 x ++ byteOf 0 y ++ byteOf 0 x)) ∧
    (HoldOk h true true → ∃ t fl, exec (.dot4 h w d a b) s = .next t ∧
      let sgn := modeEtype g.mode != 10
      let sum := fun (sl : Slice) l => dotSum sgn (rdV sl a.toNat l) (rdV sl b.toNat l) (rdV sl d.toNat l)
      (fl = 0 ∨ fl = flSAT) ∧
      (fl = flSAT ↔ modeSat g.mode = true ∧ ∃ p ∈ g.sl, ∃ l < 4, activeIn p.2 l = true ∧ ¬ inRange sgn 32 (sum p.2 l)) ∧
      GangGoes (raiseFl s g.grid.tenant fl) g t (fun _ sl sl' => LanesSet d.toNat (fun sl l => BitVec.ofInt 32
        (if modeSat g.mode then max (lowest sgn 32) (min (highest sgn 32) (sum sl l)) else sum sl l)) sl sl'))))/-! ## Float vector instructions -/

namespace Sys2Proof.Claims
open Sys2Proof.Machine

/-- Exponent and fraction widths of the float class of an ETYPE (R362, Table 9.2). -/
def floatOf : Nat → Option (Nat × Nat)
  | 0 => some (8, 23)
  | 1 => some (5, 10)
  | 2 => some (8, 7)
  | _ => none

/-- Bits of an element, and elements of a register (R362). -/
def floatBits (c : Nat × Nat) : Nat := 1 + c.1 + c.2
def floatCount (c : Nat × Nat) : Nat := 32 / floatBits c
/-- Element e of a vector register. -/
def floatElem (c : Nat × Nat) (e : Nat) (x : W32) : Nat := x.toNat / 2 ^ (floatBits c * e) % 2 ^ floatBits c

/-- Sign, exponent field, fraction field and magnitude of an element (Table 9.2). -/
def signBit (c : Nat × Nat) (x : Nat) : Bool := decide (x / 2 ^ (c.1 + c.2) % 2 = 1)
def expField (c : Nat × Nat) (x : Nat) : Nat := x / 2 ^ c.2 % 2 ^ c.1
def fracField (c : Nat × Nat) (x : Nat) : Nat := x % 2 ^ c.2
def magnitude (c : Nat × Nat) (x : Nat) : Nat := x % 2 ^ (c.1 + c.2)
/-- NaN, and the canonical NaN (R268, R269). -/
def isNaN (c : Nat × Nat) (x : Nat) : Bool := decide (expField c x = 2 ^ c.1 - 1 ∧ fracField c x ≠ 0)
def canonicalNaN (c : Nat × Nat) : Nat := (2 ^ c.1 - 1) * 2 ^ c.2 + 2 ^ (c.2 - 1)
/-- A subnormal operand read as a zero of the same sign under FTZ (R275). -/
def flushed (ftz : Bool) (c : Nat × Nat) (x : Nat) : Nat :=
  if ftz = true ∧ expField c x = 0 then (if signBit c x then 2 ^ (c.1 + c.2) else 0) else x
/-- The order of elements that are not NaN; −0 is below +0 where `zeros` says so. -/
def orderKey (zeros : Bool) (c : Nat × Nat) (x : Nat) : Int :=
  if signBit c x then -(magnitude c x : Int) - (if zeros then 1 else 0) else (magnitude c x : Int)

/-- The FCLASS bit of an element (Table 12.4). -/
def classBit (c : Nat × Nat) (x : Nat) : Nat :=
  if expField c x = 2 ^ c.1 - 1 then (if fracField c x ≠ 0 then 8 else if signBit c x then 0 else 7)
  else if expField c x = 0 then
    (if fracField c x = 0 then (if signBit c x then 3 else 4) else if signBit c x then 2 else 5)
  else if signBit c x then 1 else 6

/-- The float compares of Table 10.8. -/
def fcmpHolds (code : Nat) (c : Nat × Nat) (x y : Nat) : Bool :=
  let un := isNaN c x || isNaN c y
  let lt := !un && decide (orderKey false c x < orderKey false c y)
  let gt := !un && decide (orderKey false c y < orderKey false c x)
  let eq := !un && decide (orderKey false c x = orderKey false c y)
  match code with
  | 0 => eq
  | 1 => !eq
  | 2 => lt
  | 3 => lt || eq
  | 4 => gt
  | 5 => gt || eq
  | 6 => un
  | 7 => !un
  | 8 => un || eq
  | 9 => un || lt
  | 10 => un || lt || eq
  | 11 => un || gt
  | 12 => un || gt || eq
  | _ => lt || gt

/-- The instruction executes; every element of d in every active lane is the given function of the elements of a, b and d;
nothing else changes but the program counter, and no flag is raised. -/
def FloatValue (s : State) (g : Gang) (i : Instr) (c : Nat × Nat) (d a b : VReg) (val : Nat → Nat → Nat → Nat) : Prop :=
  ∃ t, exec i s = .next t ∧ GangGoes s g t (fun _ sl sl' => LanesTouched [d.toNat] sl sl' ∧
    ∀ l, l < 4 → activeIn sl l = true → ∀ e, e < floatCount c →
      floatElem c e (rdV sl' d.toNat l) =
        val (floatElem c e (rdV sl a.toNat l)) (floatElem c e (rdV sl b.toNat l)) (floatElem c e (rdV sl d.toNat l)))

/-- A float-class instruction that computes: its words and the float sources it reads besides a. -/
structure FloatForm where
  form : BitVec 2 → BitVec 3 → VReg → VReg → VReg → Instr
  useB : Bool
  floatB : Bool
  useD : Bool

/-- R369 and the 0x21 group but FMIN, FMAX, FNEG, FABS and FCLASS. -/
def roundingForms : List FloatForm := [
  ⟨fun h w d a b => .fadd h w d a b, true, true, false⟩, ⟨fun h w d a b => .fsub h w d a b, true, true, false⟩,
  ⟨fun h w d a b => .fmul h w d a b, true, true, false⟩, ⟨fun h w d a b => .fma h w d a b, true, true, true⟩,
  ⟨fun h w d a b => .fms h w d a b, true, true, true⟩, ⟨fun h w d a b => .fnma h w d a b, true, true, true⟩,
  ⟨fun h w d a b => .fscale h w d a b, true, false, false⟩, ⟨fun h w d a _ => .frcp h w d a, false, false, false⟩,
  ⟨fun h w d a _ => .frsq h w d a, false, false, false⟩, ⟨fun h w d a _ => .fsqrt h w d a, false, false, false⟩,
  ⟨fun h w d a _ => .fexp2 h w d a, false, false, false⟩, ⟨fun h w d a _ => .flog2 h w d a, false, false, false⟩,
  ⟨fun h w d a _ => .fsin h w d a, false, false, false⟩, ⟨fun h w d a _ => .fcos h w d a, false, false, false⟩,
  ⟨fun h w d a _ => .ffloor h w d a, false, false, false⟩, ⟨fun h w d a _ => .fceil h w d a, false, false, false⟩,
  ⟨fun h w d a _ => .ftrunc h w d a, false, false, false⟩, ⟨fun h w d a _ => .frint h w d a, false, false, false⟩,
  ⟨fun h w d a _ => .ffrac h w d a, false, false, false⟩]

/-- The sums and products of R276, exact before their one rounding: a term may be left out or negated. -/
def sumForms : List (FloatForm × (Rat → Rat → Rat → Rat)) := [
  (⟨fun h w d a b => .fadd h w d a b, true, true, false⟩, fun a b _ => a + b),
  (⟨fun h w d a b => .fsub h w d a b, true, true, false⟩, fun a b _ => a - b),
  (⟨fun h w d a b => .fmul h w d a b, true, true, false⟩, fun a b _ => a * b),
  (⟨fun h w d a b => .fma h w d a b, true, true, true⟩, fun a b d => a * b + d),
  (⟨fun h w d a b => .fms h w d a b, true, true, true⟩, fun a b d => a * b - d),
  (⟨fun h w d a b => .fnma h w d a b, true, true, true⟩, fun a b d => d - a * b)]

/-- An element is finite, and the number it stands for (Table 9.2). -/
def isFinite (c : Nat × Nat) (x : Nat) : Prop := expField c x ≠ 2 ^ c.1 - 1
def valueOf (c : Nat × Nat) (x : Nat) : Rat :=
  let m : Rat := if expField c x = 0 then (fracField c x : Rat) else (fracField c x : Rat) + 2 ^ c.2
  let e : Int := (max (expField c x) 1 : Nat) - (2 ^ (c.1 - 1) : Int) + 1 - c.2
  (if signBit c x then -m else m) * (2 : Rat) ^ e

end Sys2Proof.Claims

/-- R375 and Table 12.4: FNEG flips and FABS clears the sign bit of each element and nothing else, NaN patterns included;
FCLASS gives each element the one bit of its class. No flag is raised.
R277: FMIN and FMAX order −0 below +0; one NaN gives the other operand, two give the canonical NaN; no flag. Subnormal
operands are read as zeros under FTZ (R275).
R303, R381 and Table 10.8: FCMP writes its predicate in every active lane from element 0 of each register; −0 equals +0,
subnormals are zeros under FTZ, unordered means a NaN; no flag. -/
def Obligations.FloatSignMinMaxAndCompares : Prop :=
  ((∀ (s : State) (g : Gang), GangReady s g → ∀ (h : BitVec 2) (w : BitVec 3) (d a : VReg) (c : Nat × Nat),
    floatOf (modeEtype g.mode) = some c → HoldOk h false false → d.toNat < g.team.nregs → a.toNat < g.team.nregs →
    FloatValue s g (.fneg h w d a) c d a a (fun x _ _ => if signBit c x then magnitude c x else magnitude c x + 2 ^ (c.1 + c.2)) ∧
    FloatValue s g (.fabs h w d a) c d a a (fun x _ _ => magnitude c x) ∧
    FloatValue s g (.fclass h w d a) c d a a (fun x _ _ => 2 ^ classBit c x)) ∧
  (∀ (s : State) (g : Gang), GangReady s g → ∀ (h : BitVec 2) (w : BitVec 3) (d a b : VReg) (c : Nat × Nat),
    floatOf (modeEtype g.mode) = some c → HoldOk h true false →
    d.toNat < g.team.nregs → a.toNat < g.team.nregs → b.toNat < g.team.nregs →
    let z := flushed (bit 17 g.mode) c
    FloatValue s g (.fmin h w d a b) c d a b (fun x y _ =>
      if isNaN c x then (if isNaN c y then canonicalNaN c else z y) else if isNaN c y then z x
      else if orderKey true c (z y) < orderKey true c (z x) then z y else z x) ∧
    FloatValue s g (.fmax h w d a b) c d a b (fun x y _ =>
      if isNaN c x then (if isNaN c y then canonicalNaN c else z y) else if isNaN c y then z x
      else if orderKey true c (z x) < orderKey true c (z y) then z y else z x))) ∧
  (∀ (s : State) (g : Gang), GangReady s g → ∀ (h : BitVec 2) (w : BitVec 3) (code : BitVec 4) (p : PReg) (a b : VReg) (c : Nat × Nat),
    floatOf (modeEtype g.mode) = some c → HoldOk h true false → code.toNat ≤ 13 → a.toNat < g.team.nregs → b.toNat < g.team.nregs →
    let z := fun (sl : Slice) (r : VReg) (l : Nat) => flushed (bit 17 g.mode) c (floatElem c 0 (rdV sl r.toNat l))
    LanePred s g (.fcmp h w code p a b) p (fun sl l => fcmpHolds code.toNat c (z sl a l) (z sl b l)))

/-- R269, R362: a float-class instruction that computes writes d in the active lanes only, element by element, and a NaN among
an element's float sources gives the canonical NaN there. -/
def Obligations.NaNGivesCanonicalNaN : Prop :=
  ∀ (s : State) (g : Gang), GangReady s g → ∀ F ∈ roundingForms, ∀ (h : BitVec 2) (w : BitVec 3) (d a b : VReg) (c : Nat × Nat),
    floatOf (modeEtype g.mode) = some c → HoldOk h F.useB F.useD →
    d.toNat < g.team.nregs → a.toNat < g.team.nregs → b.toNat < g.team.nregs →
    ∃ t fl, exec (F.form h w d a b) s = .next t ∧ GangGoes (raiseFl s g.grid.tenant fl) g t (fun _ sl sl' =>
      LanesTouched [d.toNat] sl sl' ∧ ∀ l, l < 4 → activeIn sl l = true → ∀ e, e < floatCount c →
        (isNaN c (floatElem c e (rdV sl a.toNat l)) || (F.floatB && isNaN c (floatElem c e (rdV sl b.toNat l))) ||
          (F.useD && isNaN c (floatElem c e (rdV sl d.toNat l)))) = true →
        floatElem c e (rdV sl' d.toNat l) = canonicalNaN c)

/-- R276 with R272 and R273 at RNE: where the operands of FADD, FSUB, FMUL, FMA, FMS or FNMA are finite, FTZ is 0 and the
result is finite, no finite value of the format is nearer to the exact result than the result is. -/
def Obligations.RoundsToNearest : Prop :=
  ∀ (s : State) (g : Gang), GangReady s g → modeRnd g.mode = 0 → bit 17 g.mode = false → ∀ F ∈ sumForms,
    ∀ (h : BitVec 2) (w : BitVec 3) (d a b : VReg) (c : Nat × Nat), floatOf (modeEtype g.mode) = some c → HoldOk h true F.1.useD →
    d.toNat < g.team.nregs → a.toNat < g.team.nregs → b.toNat < g.team.nregs →
    ∃ t fl, exec (F.1.form h w d a b) s = .next t ∧ GangGoes (raiseFl s g.grid.tenant fl) g t (fun _ sl sl' =>
      LanesTouched [d.toNat] sl sl' ∧ ∀ l, l < 4 → activeIn sl l = true → ∀ e, e < floatCount c →
        let x := floatElem c e (rdV sl a.toNat l)
        let y := floatElem c e (rdV sl b.toNat l)
        let z := floatElem c e (rdV sl d.toNat l)
        let r := floatElem c e (rdV sl' d.toNat l)
        isFinite c x → isFinite c y → (F.1.useD = true → isFinite c z) → isFinite c r →
        ∀ n, n < 2 ^ floatBits c → isFinite c n →
          |valueOf c r - F.2 (valueOf c x) (valueOf c y) (valueOf c z)| ≤ |valueOf c n - F.2 (valueOf c x) (valueOf c y) (valueOf c z)|)

/-! ## Lanes of the cohort, conversions, indexed moves -/

namespace Sys2Proof.Claims
open Sys2Proof.Machine

/-- The active lanes of a cohort in ascending gang lane: slice number, slice and lane. -/
def cohortLanes (g : Gang) : List (Nat × Slice × Nat) :=
  g.sl.flatMap (fun p => ((List.range 4).filter (activeIn p.2)).map (fun l => (p.1, p.2, l)))

/-- a of gang lane j where that lane is active (R373). -/
def laneWord (g : Gang) (a : VReg) (j : Nat) : Option W32 :=
  ((cohortLanes g).find? (fun q => gangLane q.1 q.2.2 == j)).map (fun q => rdV q.2.1 a.toNat q.2.2)

/-- Byte k of BPRM's result for the selector byte of b (R373). -/
def permByte (g : Gang) (a : VReg) (sel : Nat) : BitVec 8 :=
  if sel / 128 = 1 then 0
  else match laneWord g a (sel / 4) with
    | some x => byteOf (sel % 4) x
    | none => 0

/-- The integer class of a reduction (R378). -/
def reduceOf : Nat → Option (Nat × Nat × Bool)
  | 8 => some (16, 2, true)
  | 9 => some (32, 1, true)
  | 10 => some (32, 1, false)
  | 11 => some (64, 1, true)
  | _ => none

/-- Width and signedness of an integer format code (Table 9.1). -/
def intFormat : Nat → Option (Nat × Bool)
  | 6 => some (8, true)
  | 7 => some (8, false)
  | 8 => some (16, true)
  | 9 => some (32, true)
  | 10 => some (32, false)
  | 11 => some (64, true)
  | _ => none

/-- Width of a format code (Table 9.1) that CVT converts from and to (R376): every code but FP4. -/
def formatBits : Nat → Option Nat
  | 0 => some 32
  | 1 => some 16
  | 2 => some 16
  | 3 => some 8
  | 4 => some 8
  | f => (intFormat f).map Prod.fst

/-- The exact value clamped under SAT, else as it is: a conversion to bits then wraps it (R364). -/
def settled (sat sgn : Bool) (w : Nat) (v : Int) : Int := if sat then max (lowest sgn w) (min (highest sgn w) v) else v

/-- Element e of a in a lane, as a number (R378). -/
def laneNum (c : Nat × Nat × Bool) (a : VReg) (e : Nat) (q : Nat × Slice × Nat) : Int :=
  elemVal c.2.2 c.1 e (opnd (c.1 == 64) q.2.1 a.toNat q.2.2)

/-- An instruction over the lanes of the cohort executes, writes its destination operand in the active lanes, each by its slice
number, slice, lane and the operand it leaves, and changes nothing else but sticky float flags and the program counter. -/
def LanesCompute (s : State) (g : Gang) (i : Instr) (pair : Bool) (d : VReg) (res : Nat → Slice → Nat → Nat → Prop) : Prop :=
  ∃ t fl, exec i s = .next t ∧ GangGoes (raiseFl s g.grid.tenant fl) g t (fun n sl sl' =>
    LanesTouched (regsOf pair d.toNat) sl sl' ∧ ∀ l, l < 4 → activeIn sl l = true → res n sl l (opnd pair sl' d.toNat l))

/-- The register that an index register and a constant select (R194, R380): BASE [31:25], LEN [24:17], a signed IDX [15:0]. -/
def indexed (x : W32) (c : BitVec 7) (n : Nat) : Option Nat :=
  let base := (x.extractLsb' 25 7).toNat
  let len := if 128 < (x.extractLsb' 17 8).toNat then 0 else (x.extractLsb' 17 8).toNat
  let t := (x.setWidth 16).toInt + c.toInt
  if 0 ≤ t ∧ t < len ∧ base + len ≤ n then some (base + t.toNat) else none

end Sys2Proof.Claims

/-- R377 and Table 12.5: the votes and the broadcast over the active lanes of the cohort; every active lane receives the
result; SHFL, SHFLX and BPRM read other active lanes (R373); no MODE field but GUARD is read.
R378 for the integer classes: REDADD, REDMIN, REDMAX over the active lanes and the running sums of PRFXADD and PRFXEX, in
ascending gang lane, element by element; a sum wraps, or clamps under SAT. -/
def Obligations.CrossLaneAndReductions : Prop :=
  (∀ (s : State) (g : Gang), GangReady s g → ∀ (h : BitVec 2) (w : BitVec 3) (d a b : VReg),
    d.toNat < g.team.nregs → a.toNat < g.team.nregs → b.toNat < g.team.nregs →
    let x := fun (q : Nat × Slice × Nat) => rdV q.2.1 a.toNat q.2.2
    let L := cohortLanes g
    (HoldOk h false false →
      LaneValue s g (.ballot h w d a) d (fun _ _ _ =>
        BitVec.ofNat 32 ((L.map (fun q => if x q = 0 then 0 else 2 ^ gangLane q.1 q.2.2)).sum)) ∧
      LaneValue s g (.vany h w d a) d (fun _ _ _ => if ∃ q ∈ L, x q ≠ 0 then 1 else 0) ∧
      LaneValue s g (.vall h w d a) d (fun _ _ _ => if ∀ q ∈ L, x q ≠ 0 then 1 else 0) ∧
      LaneValue s g (.bcast h w d a) d (fun _ sl l => ((L.head?.map x).getD (rdV sl a.toNat l))) ∧
      LaneValue s g (.uniq h w d a) d (fun n sl l =>
        if ∃ q ∈ L, gangLane q.1 q.2.2 < gangLane n l ∧ x q = rdV sl a.toNat l then 0 else 1)) ∧
    (HoldOk h true false →
      LaneValue s g (.shfl h w d a b) d (fun _ sl l =>
        (laneWord g a ((rdV sl b.toNat l).toNat % 32)).getD (rdV sl a.toNat l)) ∧
      LaneValue s g (.shflx h w d a b) d (fun n sl l =>
        (laneWord g a (gangLane n l ^^^ (rdV sl b.toNat l).toNat % 32)).getD (rdV sl a.toNat l)) ∧
      LaneValue s g (.bprm h w d a b) d (fun _ sl l =>
        let p := fun k => permByte g a (byteOf k (rdV sl b.toNat l)).toNat
        p 3 ++ p 2 ++ p 1 ++ p 0))) ∧
  (∀ (s : State) (g : Gang), GangReady s g → ∀ (h : BitVec 2) (w : BitVec 3) (d a : VReg) (c : Nat × Nat × Bool),
    reduceOf (modeEtype g.mode) = some c → HoldOk h false false →
    OpndOk g.team.nregs (c.1 == 64) d → OpndOk g.team.nregs (c.1 == 64) a →
    let L := cohortLanes g
    let low := fun (n l : Nat) => L.filter (fun q => decide (gangLane q.1 q.2.2 < gangLane n l))
    let sat := settled (modeSat g.mode) c.2.2 c.1
    LanesCompute s g (.redadd h w d a) (c.1 == 64) d (fun _ _ _ r => ∀ e, e < c.2.1 →
      elemBits c.1 e r = BitVec.ofInt c.1 (sat (L.map (laneNum c a e)).sum)) ∧
    LanesCompute s g (.redmin h w d a) (c.1 == 64) d (fun _ _ _ r => ∀ e, e < c.2.1 →
      ∃ q ∈ L, elemBits c.1 e r = BitVec.ofInt c.1 (laneNum c a e q) ∧ ∀ p ∈ L, laneNum c a e q ≤ laneNum c a e p) ∧
    LanesCompute s g (.redmax h w d a) (c.1 == 64) d (fun _ _ _ r => ∀ e, e < c.2.1 →
      ∃ q ∈ L, elemBits c.1 e r = BitVec.ofInt c.1 (laneNum c a e q) ∧ ∀ p ∈ L, laneNum c a e p ≤ laneNum c a e q) ∧
    LanesCompute s g (.prfxadd h w d a) (c.1 == 64) d (fun n sl l r => ∀ e, e < c.2.1 →
      elemBits c.1 e r = BitVec.ofInt c.1 (sat (((low n l).map (laneNum c a e)).sum + laneNum c a e (n, sl, l)))) ∧
    LanesCompute s g (.prfxex h w d a) (c.1 == 64) d (fun n _ l r => ∀ e, e < c.2.1 →
      elemBits c.1 e r = BitVec.ofInt c.1 (sat ((low n l).map (laneNum c a e)).sum)))

/-- R279 for integer formats and R376: CVT of one element wraps, or clamps under SAT, and fills the rest of d with 0. -/
def Obligations.IntegerConversions : Prop :=
  ∀ (s : State) (g : Gang), GangReady s g → ∀ (h : BitVec 2) (w : BitVec 3) (d a : VReg) (n : BitVec 2) (f : BitVec 4) (c c' : Nat × Bool),
    intFormat f.toNat = some c → intFormat (modeEtype g.mode) = some c' → HoldOk h false false → (n.toNat + 1) * c.1 ≤ max 32 c.1 →
    OpndOk g.team.nregs (c'.1 == 64) d → OpndOk g.team.nregs (c.1 == 64) a →
    LanesCompute s g (.cvt h w d a n f) (c'.1 == 64) d (fun _ sl l r =>
      r = (BitVec.ofInt c'.1 (settled (modeSat g.mode) c'.2 c'.1 (elemVal c.2 c.1 n.toNat (opnd (c.1 == 64) sl a.toNat l)))).toNat)

/-- R362, R371, R376, R378: DOT2 under every ETYPE, CVT between any two formats, and the float reductions execute, write d
in the active lanes, and change nothing else but float flags and the program counter. A reduction gives every active lane the
same word. -/
def Obligations.FloatLanesComplete : Prop :=
  ∀ (s : State) (g : Gang), GangReady s g → ∀ (h : BitVec 2) (w : BitVec 3) (d a b : VReg) (n : BitVec 2) (f : BitVec 4) (c : Nat × Nat),
    d.toNat < g.team.nregs → a.toNat < g.team.nregs → b.toNat < g.team.nregs →
    (HoldOk h true true → LanesCompute s g (.dot2 h w d a b) false d (fun _ _ _ _ => True)) ∧
    (HoldOk h false false → ∀ k k', formatBits f.toNat = some k → formatBits (modeEtype g.mode) = some k' →
      (n.toNat + 1) * k ≤ max 32 k → OpndOk g.team.nregs (k' == 64) d → OpndOk g.team.nregs (k == 64) a →
      LanesCompute s g (.cvt h w d a n f) (k' == 64) d (fun _ _ _ _ => True)) ∧
    (HoldOk h false false → floatOf (modeEtype g.mode) = some c →
      (∃ x, LanesCompute s g (.redadd h w d a) false d (fun _ _ _ r => r = x)) ∧
      (∃ x, LanesCompute s g (.redmin h w d a) false d (fun _ _ _ r => r = x)) ∧
      (∃ x, LanesCompute s g (.redmax h w d a) false d (fun _ _ _ r => r = x)) ∧
      LanesCompute s g (.prfxadd h w d a) false d (fun _ _ _ _ => True) ∧
      LanesCompute s g (.prfxex h w d a) false d (fun _ _ _ _ => True))

/-- R194, R379, R380: where every active lane is in bounds, VLDX gives each active lane the register that its index selects, and
VSTX writes that register from d; nothing else changes but the program counter. -/
def Obligations.IndexedMoves : Prop :=
  ∀ (s : State) (g : Gang), GangReady s g → ∀ (h : BitVec 2) (w : BitVec 3) (d : VReg) (c : BitVec 7) (x : XReg),
    d.toNat < g.team.nregs →
    (∀ p ∈ g.sl, ∀ l, l < 4 → activeIn p.2 l = true → (indexed (rdX p.2 x.toNat l) c g.team.nregs).isSome = true) →
    LaneValue s g (.vldx 0 w d c x) d (fun _ sl l => rdV sl ((indexed (rdX sl x.toNat l) c g.team.nregs).getD 0) l) ∧
    (h = 0 ∨ h = 3 → ∃ t, exec (.vstx h w d c x) s = .next t ∧ GangGoes s g t (fun _ sl sl' => OnlyV sl sl' ∧
      ∀ r l, l < 4 → rdV sl' r l = if activeIn sl l = true ∧ indexed (rdX sl x.toNat l) c g.team.nregs = some r
        then rdV sl d.toNat l else rdV sl r l))

/-- R316, R361, R363: an integer-class instruction whose ETYPE gives no class, or with a register that is out of range or an odd
one of a pair, raises ILLEGAL and has no effect. -/
def Obligations.BadVectorOperandsAreIllegal : Prop :=
  ∀ (s : State) (g : Gang), GangReady s g → ∀ F ∈ intForms, ∀ (h : BitVec 2) (w : BitVec 3) (d a b : VReg) (i : BitVec 6),
    (∀ c, intClassOf (modeEtype g.mode) = some c →
      ¬ (OpndOk g.team.nregs (c.1 == 64) d ∧ OpndOk g.team.nregs (c.1 == 64) a ∧ (F.useB = true → OpndOk g.team.nregs (c.1 == 64) b))) →
    exec (F.form h w d a b i) s = .next (illegalGang s g)

/-! ## Slice control -/

namespace Sys2Proof.Claims
open Sys2Proof.Machine

/-- An instruction of the slice scalar ALU: its words, the immediates it may carry, and its result from A, B and imm13. -/
structure GForm where
  form : GReg → GReg → GReg → BitVec 13 → Instr
  legal : BitVec 13 → Prop
  val : W64 → W64 → BitVec 13 → W64

/-- Table 11.2 (R326). -/
def gForms : List GForm := [
  ⟨fun d a b _ => .gadd d a b, fun _ => True, fun x y _ => x + y⟩,
  ⟨fun d a b _ => .gsub d a b, fun _ => True, fun x y _ => x - y⟩,
  ⟨fun d a b _ => .gmul d a b, fun _ => True, fun x y _ => x * y⟩,
  ⟨fun d a b _ => .gand d a b, fun _ => True, fun x y _ => x &&& y⟩,
  ⟨fun d a b _ => .gor d a b, fun _ => True, fun x y _ => x ||| y⟩,
  ⟨fun d a b _ => .gxor d a b, fun _ => True, fun x y _ => x ^^^ y⟩,
  ⟨fun d a b _ => .gshl d a b, fun _ => True, fun x y _ => x <<< (y.setWidth 6).toNat⟩,
  ⟨fun d a b _ => .gshr d a b, fun _ => True, fun x y _ => x >>> (y.setWidth 6).toNat⟩,
  ⟨fun d a b _ => .gsra d a b, fun _ => True, fun x y _ => x.sshiftRight (y.setWidth 6).toNat⟩,
  ⟨fun d a b _ => .gmin d a b, fun _ => True, fun x y _ => if x.sle y then x else y⟩,
  ⟨fun d a b _ => .gmax d a b, fun _ => True, fun x y _ => if x.sle y then y else x⟩,
  ⟨fun d a b _ => .gslt d a b, fun _ => True, fun x y _ => if x.slt y then 1 else 0⟩,
  ⟨fun d a b _ => .gsltu d a b, fun _ => True, fun x y _ => if x.ult y then 1 else 0⟩,
  ⟨fun d a _ _ => .gmov d a, fun _ => True, fun x _ _ => x⟩,
  ⟨fun d a _ i => .gaddi d a i, fun _ => True, fun x _ i => x + i.signExtend 64⟩,
  ⟨fun d a _ i => .gandi d a i, fun _ => True, fun x _ i => x &&& i.signExtend 64⟩,
  ⟨fun d a _ i => .gori d a i, fun _ => True, fun x _ i => x ||| i.signExtend 64⟩,
  ⟨fun d a _ i => .gxori d a i, fun _ => True, fun x _ i => x ^^^ i.signExtend 64⟩,
  ⟨fun d a _ i => .gshli d a i, fun i => i.toNat ≤ 63, fun x _ i => x <<< i.toNat⟩,
  ⟨fun d a _ i => .gshri d a i, fun i => i.toNat ≤ 63, fun x _ i => x >>> i.toNat⟩,
  ⟨fun d a _ i => .gsrai d a i, fun i => i.toNat ≤ 63, fun x _ i => x.sshiftRight i.toNat⟩,
  ⟨fun d _ _ i => .gli d i, fun _ => True, fun _ _ i => i.signExtend 64⟩]

/-- The instruction executes; each slice of the cohort changes as `Q` says and nothing else of the machine does, but for the
operand latch. -/
def SlicesGo (s : State) (g : Gang) (i : Instr) (Q : Nat → Slice → Slice → Prop) : Prop :=
  ∃ t, exec i s = .next t ∧ GangGoes s g t Q

/-- A slice goes to `pc`, and nothing else of it changes. -/
def GoesTo (pc : W64) (sl sl' : Slice) : Prop := sameTurn sl sl' = { sl with pc := pc }

/-- A displacement counted in words, as bytes. -/
def words {n : Nat} (d : BitVec n) : W64 := BitVec.ofInt 64 (4 * d.toInt)

/-- The branch conditions of Table 10.10. -/
def branchHolds (c : Nat) (x : W64) (lm : BitVec 4) : Prop :=
  match c with
  | 0 => True
  | 1 => x.toInt = 0
  | 2 => x.toInt ≠ 0
  | 3 => x.toInt < 0
  | 4 => 0 ≤ x.toInt
  | 5 => 0 < x.toInt
  | 6 => x.toInt ≤ 0
  | 7 => lm = 0
  | 8 => lm ≠ 0
  | 9 => lm = 15#4
  | _ => False

/-- A MODE value without a reserved bit, ETYPE or RND (R291, Table 10.2). -/
def legalMode (i : BitVec 20) : Prop :=
  i.getLsbD 3 = false ∧ i.getLsbD 7 = false ∧ i.getLsbD 15 = false ∧ (i.extractLsb' 8 4).toNat < 12 ∧ (i.extractLsb' 12 3).toNat < 5

/-- The layout of a saved mask: LM in bits [3:0], MODE in bits [23:4] (R330). -/
def savedMask (sl : Slice) : W64 := (sl.mode.setWidth 20 ++ sl.lm).setWidth 64

/-- The mask of the lanes whose predicate p differs from n (R331). -/
def predLanes (sl : Slice) (n : BitVec 1) (p : PReg) (l : Nat) : Bool := rdP sl p.toNat l != (n == 1)

end Sys2Proof.Claims

/-- R326 and Table 11.2: every instruction of the slice scalar ALU writes its result to gd in each slice of the cohort; an
immediate shift beyond 63 is ILLEGAL. -/
def Obligations.SliceScalarArithmetic : Prop :=
  ∀ (s : State) (g : Gang), GangReady s g → ∀ F ∈ gForms, ∀ (d a b : GReg) (i : BitVec 13),
    (F.legal i → SlicesGo s g (F.form d a b i) (fun _ sl sl' => GSet d.toNat (F.val (rdG sl a.toNat) (rdG sl b.toNat) i) sl sl')) ∧
    (¬ F.legal i → exec (F.form d a b i) s = .next (illegalGang s g))

/-- R327: VGET zero-extends one lane's register into gd; VGETH writes it to gd [63:32] and keeps the rest. -/
def Obligations.LaneReads : Prop :=
  ∀ (s : State) (g : Gang), GangReady s g → ∀ (d : GReg) (l : BitVec 2) (v : VReg),
    (v.toNat < g.team.nregs →
      SlicesGo s g (.vget d l v) (fun _ sl sl' => GSet d.toNat ((rdV sl v.toNat l.toNat).setWidth 64) sl sl') ∧
      SlicesGo s g (.vgeth d l v) (fun _ sl sl' => GSet d.toNat (rdV sl v.toNat l.toNat ++ (rdG sl d.toNat).setWidth 32) sl sl')) ∧
    (g.team.nregs ≤ v.toNat →
      exec (.vget d l v) s = .next (illegalGang s g) ∧ exec (.vgeth d l v) s = .next (illegalGang s g))

/-- R324, R325 and Table 10.10: each slice branches by its own registers and mask; CALL writes the return address. -/
def Obligations.SliceBranches : Prop :=
  ∀ (s : State) (g : Gang), GangReady s g → ∀ (c : BitVec 4) (r : GReg) (d : BitVec 18) (e : BitVec 16),
    (c.toNat ≤ 9 → (1 ≤ c.toNat ∧ c.toNat ≤ 6 ∨ r = 0) → SlicesGo s g (.bra c r d) (fun _ sl sl' =>
      (branchHolds c.toNat (rdG sl r.toNat) sl.lm → GoesTo (sl.pc + words d) sl sl') ∧
      (¬ branchHolds c.toNat (rdG sl r.toNat) sl.lm → GoesTo (sl.pc + 4) sl sl'))) ∧
    (9 < c.toNat ∨ (¬ (1 ≤ c.toNat ∧ c.toNat ≤ 6) ∧ r ≠ 0) → exec (.bra c r d) s = .next (illegalGang s g)) ∧
    SlicesGo s g (.call r d) (fun _ sl sl' =>
      { sameTurn sl sl' with g := sl.g } = { sl with pc := sl.pc + words d } ∧
      ∀ k, rdG sl' k = if k = r.toNat then sl.pc + 4 else rdG sl k) ∧
    SlicesGo s g (.ret r) (fun _ sl sl' => GoesTo (rdG sl r.toNat) sl sl') ∧
    SlicesGo s g (.jr r e) (fun _ sl sl' => GoesTo (rdG sl r.toNat + words e) sl sl')

/-- R329, R330, R331: MODE and the lane mask, set, saved, restored and narrowed by a predicate; a MODE value that is not
legal is ILLEGAL for the whole cohort. -/
def Obligations.ModeAndMask : Prop :=
  ∀ (s : State) (g : Gang), GangReady s g → ∀ (i : BitVec 20) (m : BitVec 4) (r : GReg) (w : BitVec 2) (n : BitVec 1) (p : PReg),
    (legalMode i → SlicesGo s g (.modeSet i) (fun _ sl sl' => sameTurn sl sl' = { sl with pc := sl.pc + 4, mode := i.setWidth 64 })) ∧
    (¬ legalMode i → exec (.modeSet i) s = .next (illegalGang s g)) ∧
    SlicesGo s g (.mset m) (fun _ sl sl' => sameTurn sl sl' = { sl with pc := sl.pc + 4, lm := m }) ∧
    SlicesGo s g (.msave r) (fun _ sl sl' => GSet r.toNat (savedMask sl) sl sl') ∧
    SlicesGo s g (.mall r) (fun _ sl sl' =>
      { sameTurn sl sl' with g := sl.g } = { sl with pc := sl.pc + 4, lm := 15#4 } ∧
      ∀ k, rdG sl' k = if k = r.toNat then savedMask sl else rdG sl k) ∧
    (w ≠ 0 → (w.getLsbD 1 = true → ∀ q ∈ g.sl, legalMode ((rdG q.2 r.toNat).extractLsb' 4 20)) →
      SlicesGo s g (.mrest r w) (fun _ sl sl' => sameTurn sl sl' = { sl with
        pc := sl.pc + 4
        lm := if w.getLsbD 0 then (rdG sl r.toNat).setWidth 4 else sl.lm
        mode := if w.getLsbD 1 then ((rdG sl r.toNat).extractLsb' 4 20).setWidth 64 else sl.mode })) ∧
    (w = 0 ∨ (w.getLsbD 1 = true ∧ ∃ q ∈ g.sl, ¬ legalMode ((rdG q.2 r.toNat).extractLsb' 4 20)) →
      exec (.mrest r w) s = .next (illegalGang s g)) ∧
    SlicesGo s g (.mand r n p) (fun _ sl sl' => ∃ lm, sameTurn sl sl' = { sl with pc := sl.pc + 4, lm := lm } ∧
      ∀ l, l < 4 → lm.getLsbD l = ((rdG sl r.toNat).getLsbD l && predLanes sl n p l)) ∧
    SlicesGo s g (.mor r n p) (fun _ sl sl' => ∃ lm, sameTurn sl sl' = { sl with pc := sl.pc + 4, lm := lm } ∧
      ∀ l, l < 4 → lm.getLsbD l = (sl.lm.getLsbD l || ((rdG sl r.toNat).getLsbD l && predLanes sl n p l)))
/-! ## Waiting, stopping, leaving -/

namespace Sys2Proof.Claims
open Sys2Proof.Machine

/-- The machine `t` is `s` but for the slices of cohort `g`, each changed as `Q` allows. -/
def CohortGoes (s : State) (g : Gang) (t : State) (Q : Nat → Slice → Slice → Prop) : Prop :=
  ∃ f : Team → Nat → Slice → Slice,
    t = { s with teams := s.teams.map (fun u => if u.tid = g.team.tid then u.mapSlices g.nums (f u) else u) } ∧
    ∀ u, ∀ p ∈ g.sl, Q p.1 p.2 (f u p.1 p.2)

/-- The Prefect of `p` becomes `q`; nothing else of the machine changes. -/
def PrefBecomes (s : State) (p : Pref) (t : State) (q : Prefect) : Prop := ∃ f, PrefGoes s p t f ∧ f p.team.pf = q

/-- The instruction executes and the Prefect becomes `q`. -/
def PrefExec (s : State) (p : Pref) (i : Instr) (q : Prefect) : Prop := ∃ t, exec i s = .next t ∧ PrefBecomes s p t q

/-- The same where register d takes `x` and the program counter moves on. -/
def PrefSets (s : State) (p : Pref) (i : Instr) (d : SReg) (x : W64) : Prop :=
  ∃ q, PrefExec s p i q ∧ { q with s := p.team.pf.s } = { p.team.pf with pc := p.team.pf.pc + 4 } ∧
    ∀ k, rdS q k = if k = d.toNat then x else rdS p.team.pf k

/-- A save or a pre-emption asks the form to stop (R205, R235, R236). -/
def stopAsked (s : State) (fid : Nat) : Prop := ∃ f, findForm s fid = some f ∧ f.stopReq.isSome = true

/-- The waiting fault of a class P stop (R239, R247). -/
def FaultWaits (s t : State) (ten code : Nat) (who : FaultAt) : Prop :=
  ∃ w ∈ (tenantOf t ten).faults, w.id = s.nextId ∧ w.code = code ∧ w.cause = 0 ∧ w.where_ = who

/-- A class P fault of a cohort: every slice of it stands stopped at the instruction, and the fault waits for its resume. -/
def GangStops (s : State) (g : Gang) (code : Nat) (t : State) : Prop :=
  t.teams = s.teams.map (fun u => if u.tid = g.team.tid then
    u.mapSlices g.nums (fun _ sl => { sl with stop := some s.nextId, st := .issuable }) else u) ∧
  t.memops = s.memops ∧ t.forms = s.forms ∧ t.nextId = s.nextId + 1 ∧
  FaultWaits s t g.grid.tenant code (.gang g.team.tid g.nums)

/-- A class P fault of a Prefect. -/
def PrefStops (s : State) (p : Pref) (code : Nat) (t : State) : Prop :=
  t.teams = s.teams.map (fun u => if u.tid = p.team.tid then
    { u with pf := { u.pf with stop := some s.nextId, st := .issuable } } else u) ∧
  t.memops = s.memops ∧ t.forms = s.forms ∧ t.nextId = s.nextId + 1 ∧
  FaultWaits s t p.grid.tenant code (.prefect p.team.tid)

/-- A tenant's fault ring is enabled with room for a record and nothing waits to enter it (R241, Table 8.2): its base, its
capacity in records and its write index. -/
def RingReady (s : State) (ten base cap w : Nat) : Prop :=
  let v := tsysGet s ten srFaultRing
  bit 0 v = true ∧ base = bits 38 16 v * 2 ^ 16 ∧ cap = (2 ^ (16 + bits 15 12 v) - 64) / 64 ∧
  natLE (mgetAll s.mem base 8) = w ∧ (w + 2 ^ 64 - natLE (mgetAll s.mem (base + 8) 8)) % 2 ^ 64 < cap ∧
  (tenantOf s ten).buf = [] ∧ (tenantOf s ten).late = []

/-- The bytes of Table 8.3 of a class P fault that a cohort takes, without address or mask. -/
def gangRecord (s : State) (g : Gang) (code : Nat) : List Byte :=
  bytesLE 1 code ++ [0, 0, 0] ++ bytesLE 4 (tenantOf s g.grid.tenant).seq ++ bytesLE 8 g.pc.toNat ++ bytesLE 8 0 ++ bytesLE 4 0 ++
  bytesLE 2 g.grid.asid ++ [0, 1] ++ bytesLE 8 g.team.teamId.toNat ++ bytesLE 2 g.grid.queue ++
  bytesLE 2 (sliceMask g.nums + 256 * g.home) ++ bytesLE 4 (tsysGet s g.grid.tenant srPtGen).toNat ++ bytesLE 8 (nsOf s) ++
  bytesLE 4 s.word.toNat ++ [0, 0, 0, 1]

/-- A team's slices with their cohorts left out, to compare what a regrouping may rename (R187). -/
def bare (t : Team) : Team := { t with slices := t.slices.map (fun p => (p.1, { p.2 with cohort := 0 })) }

/-- A team after the participants `l` of a barrier have left it (R334): slices, and 64 for the Prefect. -/
def barLeft (l : List (Nat × Nat)) (t : Team) : Team :=
  { t with
    slices := t.slices.map (fun p => if (t.tid, p.1) ∈ l ∧ p.1 < 64 then
      (p.1, { p.2 with st := .issuable, pc := p.2.pc + 4, count := p.2.count + 1, pend := [] }) else p)
    pf := if (t.tid, 64) ∈ l then { t.pf with st := .issuable, pc := t.pf.pc + 4 } else t.pf }

/-- A team whose participants `l` wait at a barrier. -/
def barWaiting (l : List (Nat × Nat)) (t : Team) : Team :=
  { t with
    slices := t.slices.map (fun p => if (t.tid, p.1) ∈ l ∧ p.1 < 64 then (p.1, { p.2 with st := .barrier }) else p)
    pf := if (t.tid, 64) ∈ l then { t.pf with st := .barrier } else t.pf }

/-- The open episode of a form's barrier, or a new one with this count; none of `l` waits in it, and a count that differs is
no arrival (R334). -/
def barOpen (f : Form) (n c : Nat) (l : List (Nat × Nat)) (arrived : List (Nat × Nat)) : Prop :=
  (tfind n f.bars = none ∧ arrived = [] ∨ tfind n f.bars = some ⟨c, arrived⟩) ∧ ∀ p ∈ l, p ∉ arrived

/-- Arrivals that an episode of count c needs (R334). -/
def barNeed (s : State) (fid c : Nat) : Nat := if c = 0 then liveParts s fid else c

/-- What participants `l` do to barrier n of a form by arriving with count c (R334). -/
def BarArrives (s : State) (fid : Nat) (f : Form) (n c : Nat) (l arrived : List (Nat × Nat)) (t : State) : Prop :=
  (arrived.length + l.length < barNeed s fid c →
    t.teams.map bare = s.teams.map (fun u => bare (barWaiting l u)) ∧
    findForm t fid = some { f with bars := tput n ⟨c, arrived ++ l⟩ f.bars }) ∧
  (arrived.length + l.length = barNeed s fid c →
    t.teams.map bare = s.teams.map (fun u => bare (barLeft (arrived ++ l) u)) ∧
    findForm t fid = some { f with bars := tdel n f.bars })

/-- A slice has passed its instruction, out of whatever wait it stood in; nothing else of it changed (R187, R296). -/
def Passed (sl sl' : Slice) : Prop := sameTurn sl sl' = { sl with pc := sl.pc + 4, st := .issuable }

/-- A cohort that waits in BARRIER state at its instruction and is tried again: it is the issuer, no fault and no save stops
it, and its team has no operand-log entry (R209, R244). -/
structure GangWaiting (s : State) (g : Gang) : Prop where
  cur : s.cur = .gang g.team.tid g.lead
  here : theGang s g.team.tid g.lead = some g
  free : saveHolds s g.team.fid none = false
  slices : ∀ p ∈ g.sl, p.2.st = .barrier ∧ p.2.stop = none ∧ p.2.pc = g.pc ∧ p.2.mode = g.mode
  log : ∀ e ∈ (coreOf s g.team.core).log, e.op.tid ≠ g.team.tid

/-- A Prefect that waits in BARRIER state at its instruction and is tried again. -/
structure PrefWaiting (s : State) (p : Pref) : Prop where
  cur : s.cur = .prefect p.team.tid
  here : thePref s p.team.tid = some p
  free : saveHolds s p.team.fid (some p.team.pf) = false
  st : p.team.pf.st = .barrier
  stop : p.team.pf.stop = none

/-- The machine in which an event's issuer has fetched its instruction word. -/
def Fetched (s : State) (i : Instr) (u : State) : Prop := ∃ w, fetch { s with cur := s.arg.who } = .word w u ∧ decodeWord w = some i

/-- What a slice is, but for the place in its program: pc, state, cohort and readiness (R187, R293, R294). -/
def still (t : Team) : Team :=
  { t with
    slices := t.slices.map (fun p => (p.1, { p.2 with pc := 0, st := .issuable, cohort := 0, count := 0, pend := [] }))
    episodes := [] }

/-- No team but this one has its number, and each slice number of it names one slice (R181, R183). -/
def OneTeam (s : State) (t : Team) : Prop := (∀ u ∈ s.teams, u.tid = t.tid → u = t) ∧ (t.slices.map Prod.fst).Nodup

end Sys2Proof.Claims

/-- R337, R338, R339, R353: waiting instructions. WAIT and NOP move the issue count; YIELD moves the gang to the pending set;
WTIME and SWTIME hold until SYS.TIME; SAFEPT is a NOP without a request and stops the gang past itself with one.
TIME_TARGET_REACHED at an issuer that waits in a WTIME or SWTIME compares again: what has reached its time goes on past the
instruction, with every earlier result ready, and the rest goes on waiting. -/
def Obligations.WaitsAndSafePoints : Prop :=
  (∀ (s : State) (g : Gang), GangReady s g → ∀ (n : BitVec 16) (k : BitVec 8) (r : GReg),
    SlicesGo s g (.wait n) (fun _ sl sl' => OnlyPc sl sl' ∧ sl'.pend = [] ∧ (1 ≤ sl.count → sl'.count = sl.count + n.toNat)) ∧
    SlicesGo s g .nop (fun _ sl sl' => OnlyPc sl sl' ∧ sl'.count = sl.count + 1) ∧
    (∃ t, exec .yield s = .next t ∧
      (∃ cs, CohortGoes { s with cores := cs } g t (fun _ sl sl' => OnlyPc sl sl')) ∧
      (∀ k, k ≠ g.team.core → coreOf t k = coreOf s k) ∧
      (∃ e ∈ ((coreOf t g.team.core).port (portNum g.team (g.lead / 8))).pending, e.tid = g.team.tid ∧ e.lead = g.lead) ∧
      ∀ e ∈ ((coreOf t g.team.core).port (portNum g.team (g.lead / 8))).active, ¬ (e.tid = g.team.tid ∧ e.lead = g.lead)) ∧
    (∃ t, exec (.wtime r) s = .next t ∧ CohortGoes s g t (fun _ sl sl' =>
      if rdG sl r.toNat ≤ s.clock.time then OnlyPc sl sl' else sameTurn sl sl' = { sl with st := .barrier })) ∧
    (k.toNat ≤ g.team.nregs → ¬ stopAsked s g.team.fid → SlicesGo s g (.safept k) (fun _ sl sl' => OnlyPc sl sl')) ∧
    (k.toNat ≤ g.team.nregs → stopAsked s g.team.fid → ∃ t, exec (.safept k) s = .next t ∧ CohortGoes s g t (fun _ sl sl' =>
      sameTurn sl sl' = { sl with pc := sl.pc + 4, st := .safepoint, live := k.toNat })) ∧
    (g.team.nregs < k.toNat → exec (.safept k) s = .next (illegalGang s g))) ∧
  (∀ (s : State) (p : Pref), PrefReady s p → ∀ (d : SReg),
    PrefSets s p (.stime d) d s.clock.time ∧
    (rdS p.team.pf d.toNat ≤ s.clock.time → PrefExec s p (.swtime d) { p.team.pf with pc := p.team.pf.pc + 4 }) ∧
    (¬ rdS p.team.pf d.toNat ≤ s.clock.time → PrefExec s p (.swtime d) { p.team.pf with st := .barrier })) ∧
  (∀ (s u : State) (g : Gang) (r : GReg), Fetched s (.wtime r) u → GangWaiting u g →
    ∃ t, exec .timeTargetReached s = .next t ∧ CohortGoes u g t (fun _ sl sl' =>
      if rdG sl r.toNat ≤ u.clock.time then Passed sl sl' ∧ sl'.pend = [] else sameTurn sl sl' = sl)) ∧
  ∀ (s u : State) (p : Pref) (d : SReg), Fetched s (.swtime d) u → PrefWaiting u p →
    ∃ t, exec .timeTargetReached s = .next t ∧ PrefBecomes u p t
      (if rdS p.team.pf d.toNat ≤ u.clock.time then { p.team.pf with pc := p.team.pf.pc + 4, st := .issuable } else p.team.pf)

/-- R239, R300, R341: TRAP, BRK and the illegal word stop their issuer at the instruction, class P, with the codes of
Table 8.1. -/
def Obligations.TrapsStopTheIssuer : Prop :=
  (∀ (s : State) (g : Gang), GangReady s g → ∀ (c : BitVec 16),
    (∃ t, exec (.trap c) s = .next t ∧ GangStops s g 0x11 t) ∧
    (∃ t, exec (.brk c) s = .next t ∧ GangStops s g 0x12 t) ∧
    (∃ t, exec .ill s = .next t ∧ GangStops s g 0x07 t)) ∧
  ∀ (s : State) (p : Pref), PrefReady s p → ∃ t, exec .ill s = .next t ∧ PrefStops s p 0x07 t

/-- R241, R242 and Table 8.3: a fault's record stands in the tenant's ring at the write index, which then advances. -/
def Obligations.FaultRecordIsWritten : Prop :=
  ∀ (s : State) (g : Gang) (base cap w : Nat), GangReady s g → RingReady s g.grid.tenant base cap w → ∀ (c : BitVec 16) (i : Instr) (code : Nat),
    (i = .trap c ∧ code = 0x11) ∨ (i = .brk c ∧ code = 0x12) ∨ (i = .ill ∧ code = 0x07) →
    ∃ t, exec i s = .next t ∧ mgetAll t.mem (base + 64 + 64 * (w % cap)) 64 = gangRecord s g code ∧
      natLE (mgetAll t.mem base 8) = (w + 1) % 2 ^ 64 ∧
      ∀ a, (a < base ∨ base + 8 ≤ a) → (a < base + 64 + 64 * (w % cap) ∨ base + 128 + 64 * (w % cap) ≤ a) → mget t.mem a = mget s.mem a

/-- R334, R354: BAR and SBAR. Arrivals wait until the episode has all it needs; then every participant leaves together. A
count above 260, or one that differs from the open episode's, is ILLEGAL. -/
def Obligations.NumberedBarriers : Prop :=
  (∀ (s : State) (g : Gang) (f : Form) (n : BitVec 4) (c : BitVec 9) (arrived : List (Nat × Nat)), GangReady s g → OneTeam s g.team →
    findForm s g.team.fid = some f → (∀ k ∈ g.nums, k < 64) →
    let l := g.nums.map (fun k => (g.team.tid, k))
    (c.toNat ≤ 260 → barOpen f n.toNat c.toNat l arrived → ∃ t, exec (.bar n c) s = .next t ∧
      BarArrives s g.team.fid f n.toNat c.toNat l arrived t) ∧
    (260 < c.toNat → exec (.bar n c) s = .next (illegalGang s g)) ∧
    (∀ e, tfind n.toNat f.bars = some e → e.count ≠ c.toNat → (∀ p ∈ l, p ∉ e.arrived) →
      exec (.bar n c) s = .next (illegalGang s g))) ∧
  ∀ (s : State) (p : Pref) (f : Form) (n : BitVec 4) (h l : BitVec 6) (arrived : List (Nat × Nat)), PrefReady s p → OneTeam s p.team →
    findForm s p.team.fid = some f →
    let c := (h ++ l).toNat
    (c ≤ 260 → barOpen f n.toNat c [(p.team.tid, 64)] arrived → ∃ t, exec (.sbar n h l) s = .next t ∧
      BarArrives s p.team.fid f n.toNat c [(p.team.tid, 64)] arrived t) ∧
    (260 < c → exec (.sbar n h l) s = .next (illegalPref s p))

/-- R189, R333: REGANG executes for every limit but 0, which is ILLEGAL: each slice of the cohort waits in its home gang's
episode or goes on past the instruction, and no register of the team changes. The first cohort opens an episode and waits
while live slices of its home gang are missing; with none missing the cohort leaves as one. -/
def Obligations.RegangMeets : Prop :=
  ∀ (s : State) (g : Gang) (l : BitVec 20), GangReady s g →
    (l = 0 → exec (.regang l) s = .next (illegalGang s g)) ∧
    (l ≠ 0 → OneTeam s g.team → (∀ e, tfind g.home g.team.episodes = some e → ∀ n ∈ g.nums, n ∉ e.waiting) →
      ∃ t u, exec (.regang l) s = .next t ∧ findTeam t g.team.tid = some u ∧ still u = still g.team ∧
        ∀ q ∈ g.sl, ∃ sl', (q.1, sl') ∈ u.slices ∧ (Passed q.2 sl' ∨ sameTurn q.2 sl' = { q.2 with st := .regang })) ∧
    (l ≠ 0 → tfind g.home g.team.episodes = none → ∃ t u, exec (.regang l) s = .next t ∧ findTeam t g.team.tid = some u ∧
      ((∃ k, k / 8 = g.home ∧ k ∉ g.nums ∧ ∃ sl, (k, sl) ∈ g.team.slices ∧ sl.st ≠ .exited) →
        bare u = bare { g.team.mapSlices g.nums (fun _ sl => { sl with st := .regang }) with
          episodes := tput g.home ⟨g.pc, s.clock.cycle, l.toNat, g.nums, []⟩ g.team.episodes }) ∧
      ((∀ k, k / 8 = g.home → k ∉ g.nums → ∀ sl, (k, sl) ∈ g.team.slices → sl.st = .exited) →
        bare { u with episodes := [] } = bare { g.team.mapSlices g.nums (fun _ sl =>
          { sl with pc := sl.pc + 4, count := sl.count + 1, st := .issuable, pend := [] }) with episodes := [] } ∧
        tfind g.home u.episodes = none))

/-- R192, R336, R350: DQPUSH appends to the decision queue, or waits while it holds 64 entries; DQPOP gives each slice the
entry at its own position, and a slice that has none yet waits. An entry that every live slice has popped is freed. After
SEXIT a pop beyond the tail is ILLEGAL. -/
def Obligations.DecisionQueue : Prop :=
  (∀ (s : State) (p : Pref) (a : SReg), PrefReady s p →
    (64 ≤ p.team.dq.length → PrefExec s p (.dqpush a) { p.team.pf with st := .barrier }) ∧
    (p.team.dq.length < 64 → ∃ t u, exec (.dqpush a) s = .next t ∧ findTeam t p.team.tid = some u ∧
      { u with dq := [], dqHead := 0 } = { p.team with dq := [], dqHead := 0, pf := { p.team.pf with pc := p.team.pf.pc + 4 } } ∧
      u.dq = (p.team.dq ++ [rdS p.team.pf a.toNat]).drop (u.dqHead - p.team.dqHead)) ∧
    (p.team.dq.length < 64 → (∃ k sl, (k, sl) ∈ p.team.slices ∧ sl.st ≠ .exited ∧ sl.dqPos ≤ p.team.dqHead) →
      ∃ t, exec (.dqpush a) s = .next t ∧ findTeam t p.team.tid = some { p.team with
        dq := p.team.dq ++ [rdS p.team.pf a.toNat], pf := { p.team.pf with pc := p.team.pf.pc + 4 } })) ∧
  ∀ (s : State) (g : Gang) (r : GReg), GangReady s g → OneTeam s g.team →
    (g.team.pf.st ≠ .exited ∨ (∀ q ∈ g.sl, q.2.dqPos - g.team.dqHead < g.team.dq.length) →
      ∃ t u, exec (.dqpop r) s = .next t ∧ findTeam t g.team.tid = some u ∧
        u.dq = g.team.dq.drop (u.dqHead - g.team.dqHead) ∧
        ∀ q ∈ g.sl, ∃ sl', (q.1, sl') ∈ u.slices ∧
          (∀ x, g.team.dq[q.2.dqPos - g.team.dqHead]? = some x →
            sameTurn q.2 sl' = { wrG q.2 r.toNat x with pc := q.2.pc + 4, dqPos := q.2.dqPos + 1 }) ∧
          (g.team.dq.length ≤ q.2.dqPos - g.team.dqHead → sameTurn q.2 sl' = { q.2 with st := .barrier })) ∧
    (g.team.pf.st = .exited → (∀ q ∈ g.sl, g.team.dq.length ≤ q.2.dqPos - g.team.dqHead) →
      ∃ t, exec (.dqpop r) s = .next t ∧ FaultWaits s t g.grid.tenant 0x07 (.gang g.team.tid g.nums)) ∧
    ((∀ q ∈ g.sl, q.2.dqPos - g.team.dqHead < g.team.dq.length) → ∃ t u, exec (.dqpop r) s = .next t ∧
      findTeam t g.team.tid = some u ∧
      bare { u with dq := [], dqHead := 0 } = bare { g.team.mapSlices g.nums (fun _ sl =>
        { wrG sl r.toNat (g.team.dq.getD (sl.dqPos - g.team.dqHead) 0) with
          pc := sl.pc + 4, count := sl.count + 1, dqPos := sl.dqPos + 1 }) with dq := [], dqHead := 0 } ∧
      u.dq = g.team.dq.drop (u.dqHead - g.team.dqHead)) ∧
    ((∀ q ∈ g.sl, g.team.dq.length ≤ q.2.dqPos - g.team.dqHead) → g.team.pf.st ≠ .exited →
      ∃ t u, exec (.dqpop r) s = .next t ∧ findTeam t g.team.tid = some u ∧
        bare { u with dq := [], dqHead := 0 } = bare { g.team.mapSlices g.nums (fun _ sl => { sl with st := .barrier }) with
          dq := [], dqHead := 0 })

/-- R191, R340, R355: EXIT ends its slices and SEXIT the Prefect while others of the team live; the last to leave completes
the team, which leaves its core and counts toward its grid (here with another team on the cluster). -/
def Obligations.LeavingATeam : Prop :=
  (∀ (s : State) (g : Gang), GangReady s g → tfind g.home g.team.episodes = none →
    (∀ f, findForm s g.team.fid = some f → ∀ n e, tfind n f.bars = some e → e.count ≠ 0) → g.team.pf.st ≠ .exited →
    ∃ t u, exec .exitSlice s = .next t ∧ findTeam t g.team.tid = some u ∧
      bare { u with dq := [], dqHead := 0 } = bare { g.team.mapSlices g.nums (fun _ sl => { sl with st := .exited, pend := [] }) with
        dq := [], dqHead := 0 }) ∧
  ∀ (s : State) (p : Pref), PrefReady s p →
    (∀ f, findForm s p.team.fid = some f → ∀ n e, tfind n f.bars = some e → e.count ≠ 0) →
    ((∃ k sl, (k, sl) ∈ p.team.slices ∧ sl.st ≠ .exited) → PrefExec s p .sexit { p.team.pf with st := .exited }) ∧
    ((∀ k sl, (k, sl) ∈ p.team.slices → sl.st = .exited) →
      (∃ u ∈ s.teams, u.tid ≠ p.team.tid ∧ clusterOfCore u.core = clusterOfCore p.team.core) →
      ∃ t, exec .sexit s = .next t ∧ t.teams = s.teams.filter (fun u => u.tid != p.team.tid) ∧
        (findGrid t p.team.gid).map Grid.doneTeams = some (p.grid.doneTeams + 1))

/-- R112, R114, R403, R404: a fence with nothing of its predecessors open completes; at scopes cta and form it changes nothing
else, and a wider one neither where the tenant has nothing in the cluster's cache and no read side that drops remote data. An
empty set or an unassigned scope is ILLEGAL. -/
def Obligations.FencesComplete : Prop :=
  let good := fun (p q : BitVec 4) (c : BitVec 3) => p ≠ 0 ∧ q ≠ 0 ∧ 1 ≤ c.toNat ∧ c.toNat ≤ 5
  let light := fun (s : State) (core ten : Nat) (q : BitVec 4) (c : BitVec 3) => c.toNat ≤ 2 ∨
    ((∀ x ∈ (clusterOf s (clusterOfCore core)).cc, x.tenant ≠ ten) ∧ s.l2q = [] ∧ (c.toNat = 3 ∨ q.getLsbD 0 = false))
  let idle := fun (s : State) (tid : Nat) => (∀ o ∈ s.ops, o.phase ≠ 0) ∧ ∀ e ∈ s.engines, ∀ c ∈ e.2.chains, c.tid ≠ tid
  (∀ (s : State) (g : Gang) (p q : BitVec 4) (c : BitVec 3), GangReady s g →
    (good p q c → idle s g.team.tid → light s g.team.core g.grid.tenant q c → g.team.det = none →
      SlicesGo s g (.fence p q c) (fun _ sl sl' => OnlyPc { sl with waitOp := 0 } sl')) ∧
    (¬ good p q c → exec (.fence p q c) s = .next (illegalGang s g))) ∧
  ∀ (s : State) (x : Pref) (p q : BitVec 4) (c : BitVec 3), PrefReady s x →
    (good p q c → idle s x.team.tid → light s x.team.core x.grid.tenant q c → (∀ t ∈ s.fab.tags, t.2.use = none) →
      (clusterOf s (clusterOfCore x.team.core)).mx.resv = [] → (clusterOf s (clusterOfCore x.team.core)).mx.io = [] →
      PrefExec s x (.sfence c p q) { x.team.pf with pc := x.team.pf.pc + 4, waitOp := 0 }) ∧
    (¬ good p q c → exec (.sfence c p q) s = .next (illegalPref s x))

/-- R315, R342, R356: reads and writes of system registers by kernels: what each may read and write, the value read, FPFLAGS
cleared by ones, a doorbell of an own queue; every other use is ILLEGAL; and what a kernel
reads from the registers that name its own place (Table 10.12): time, team, launch argument, flags, its tenant's own copies. -/
def Obligations.SystemRegisters : Prop :=
  let readable := fun (g : Grid) (n : Nat) => (n ≤ 2 ∨ (0x10 ≤ n ∧ n ≤ 0x13) ∨ (0x20 ≤ n ∧ n ≤ 0x4B)) ∧ n ≠ 0x2E ∧ n ≠ 0x35 ∧
    ¬ (0x37 ≤ n ∧ n ≤ 0x43) ∧ (n = 0x2F → g.flag 1 = true)
  let writable := fun (s : State) (g : Grid) (n : Nat) (v : W64) => n = 0x20 ∨ ((n = 0x24 ∨ n = 0x2F) ∧ g.flag 1 = true) ∨
    (n = 0x36 ∧ (queueOf s (v.extractLsb' 0 13).toNat).tenant = g.tenant)
  ((∀ (s : State) (g : Gang) (r : GReg) (n : BitVec 12), GangReady s g →
    (readable g.grid n.toNat → SlicesGo s g (.sysr r n) (fun _ sl sl' => GSet r.toNat (kernelRead s g.team g.grid n.toNat) sl sl')) ∧
    (¬ readable g.grid n.toNat → exec (.sysr r n) s = .next (illegalGang s g)) ∧
    (∀ q ∈ g.sl, g.sl = [q] →
      (∃ t, exec (.sysw r 0x20) s = .next t ∧
        GangGoes (tsysSet s g.grid.tenant 0x20 (tsysGet s g.grid.tenant 0x20 &&& ~~~(rdG q.2 r.toNat))) g t (fun _ sl sl' => OnlyPc sl sl')) ∧
      (writable s g.grid 0x36 (rdG q.2 r.toNat) → ∃ t, exec (.sysw r 0x36) s = .next t ∧
        GangGoes (doorbell s ((rdG q.2 r.toNat).extractLsb' 0 13).toNat ((rdG q.2 r.toNat).extractLsb' 32 32)) g t
          (fun _ sl sl' => OnlyPc sl sl'))) ∧
    ((∃ q ∈ g.sl, ¬ writable s g.grid n.toNat (rdG q.2 r.toNat)) → exec (.sysw r n) s = .next (illegalGang s g))) ∧
  (∀ (s : State) (p : Pref) (d : SReg) (h l : BitVec 6), PrefReady s p →
    let n := (h ++ l).toNat
    (readable p.grid n → PrefSets s p (.ssysr d h l) d (kernelRead s p.team p.grid n)) ∧
    (¬ readable p.grid n → exec (.ssysr d h l) s = .next (illegalPref s p)) ∧
    (n = 0x20 → ∃ t, exec (.ssysw d h l) s = .next t ∧
      PrefBecomes (tsysSet s p.grid.tenant 0x20 (tsysGet s p.grid.tenant 0x20 &&& ~~~(rdS p.team.pf d.toNat))) p t
        { p.team.pf with pc := p.team.pf.pc + 4 }) ∧
    (¬ writable s p.grid n (rdS p.team.pf d.toNat) → exec (.ssysw d h l) s = .next (illegalPref s p)))) ∧
  ∀ (s : State) (t : Team) (g : Grid),
    kernelRead s t g 0x000 = s.clock.time ∧
    kernelRead s t g 0x010 = t.teamId ∧
    kernelRead s t g 0x012 = BitVec.ofNat 64 (natAt g.record 32 8) ∧
    kernelRead s t g 0x020 = tsysGet s g.tenant 0x020 ∧
    kernelRead s t g 0x025 = tsysGet s g.tenant 0x025 ∧
    kernelRead s t g 0x023 = (coreOf s t.core).gcnt ∧
    kernelRead s t g 0x024 = 0 ∧
    kernelRead s t g 0x036 = 0 ∧
    (∀ k, k < 4 → kernelRead s t g (0x044 + k) = segModes s (clusterOfCore t.core) k) ∧
    (∀ k, k < 4 → let f := tget {} k (clusterOf s (clusterOfCore t.core)).fifos
      kernelRead s t g (0x048 + k) = BitVec.ofNat 64 (2 ^ 32 * f.count + 2 ^ 16 * f.head + f.tail))
/-! ## The Prefect -/

namespace Sys2Proof.Claims
open Sys2Proof.Machine

/-- An instruction of the Prefect's ALU: its words, the immediates it may carry, and its result from the old sd, A, B and
imm10. -/
structure SForm where
  form : SReg → SReg → SReg → BitVec 10 → Instr
  legal : BitVec 10 → Prop
  val : W64 → W64 → W64 → BitVec 10 → W64

/-- Table 11.4, R345 and R346. -/
def sForms : List SForm := [
  ⟨fun d a b _ => .sadd d a b, fun _ => True, fun _ x y _ => x + y⟩,
  ⟨fun d a b _ => .ssub d a b, fun _ => True, fun _ x y _ => x - y⟩,
  ⟨fun d a b _ => .smul d a b, fun _ => True, fun _ x y _ => x * y⟩,
  ⟨fun d a b _ => .smulh d a b, fun _ => True, fun _ x y _ => (x.signExtend 128 * y.signExtend 128).extractLsb' 64 64⟩,
  ⟨fun d a b _ => .sdiv d a b, fun _ => True, fun _ x y _ => if y = 0 then -1 else x.sdiv y⟩,
  ⟨fun d a b _ => .srem d a b, fun _ => True, fun _ x y _ => if y = 0 then x else x.srem y⟩,
  ⟨fun d a b _ => .sand d a b, fun _ => True, fun _ x y _ => x &&& y⟩,
  ⟨fun d a b _ => .sor d a b, fun _ => True, fun _ x y _ => x ||| y⟩,
  ⟨fun d a b _ => .sxor d a b, fun _ => True, fun _ x y _ => x ^^^ y⟩,
  ⟨fun d a b _ => .sshl d a b, fun _ => True, fun _ x y _ => x <<< (y.setWidth 6).toNat⟩,
  ⟨fun d a b _ => .sshr d a b, fun _ => True, fun _ x y _ => x >>> (y.setWidth 6).toNat⟩,
  ⟨fun d a b _ => .ssra d a b, fun _ => True, fun _ x y _ => x.sshiftRight (y.setWidth 6).toNat⟩,
  ⟨fun d a b _ => .smin d a b, fun _ => True, fun _ x y _ => if x.sle y then x else y⟩,
  ⟨fun d a b _ => .smax d a b, fun _ => True, fun _ x y _ => if x.sle y then y else x⟩,
  ⟨fun d a b _ => .sslt d a b, fun _ => True, fun _ x y _ => if x.slt y then 1 else 0⟩,
  ⟨fun d a b _ => .ssltu d a b, fun _ => True, fun _ x y _ => if x.ult y then 1 else 0⟩,
  ⟨fun d a _ _ => .smov d a, fun _ => True, fun _ x _ _ => x⟩,
  ⟨fun d a _ i => .saddi d a i, fun _ => True, fun _ x _ i => x + i.signExtend 64⟩,
  ⟨fun d a _ i => .sandi d a i, fun _ => True, fun _ x _ i => x &&& i.signExtend 64⟩,
  ⟨fun d a _ i => .sori d a i, fun _ => True, fun _ x _ i => x ||| i.signExtend 64⟩,
  ⟨fun d a _ i => .sxori d a i, fun _ => True, fun _ x _ i => x ^^^ i.signExtend 64⟩,
  ⟨fun d a _ i => .sshli d a i, fun i => i.toNat ≤ 63, fun _ x _ i => x <<< i.toNat⟩,
  ⟨fun d a _ i => .sshri d a i, fun i => i.toNat ≤ 63, fun _ x _ i => x >>> i.toNat⟩,
  ⟨fun d a _ i => .ssrai d a i, fun i => i.toNat ≤ 63, fun _ x _ i => x.sshiftRight i.toNat⟩,
  ⟨fun d _ _ i => .slui d i, fun _ => True, fun old _ _ i => BitVec.ofNat 64 (old.toNat * 1024 + i.toNat)⟩]

/-- The conditional branches of R348 and when they are taken. -/
def sBranches : List ((SReg → SReg → BitVec 11 → Instr) × (W64 → W64 → Bool)) := [
  (.sbEq, fun x y => x == y), (.sbNe, fun x y => x != y), (.sbLt, fun x y => x.slt y), (.sbGe, fun x y => y.sle x),
  (.sbLtu, fun x y => x.ult y), (.sbGeu, fun x y => y.ule x)]

/-- The Prefect's loads and stores (R347): their words, bytes, and whether they store and go to the scratchpad. -/
def sAccesses : List ((SReg → SReg → BitVec 10 → Instr) × Nat × Bool × Bool) := [
  (.sld, 8, false, false), (.sst, 8, true, false), (.sld4, 4, false, false), (.sst4, 4, true, false),
  (.slds, 8, false, true), (.ssts, 8, true, true), (.slds4, 4, false, true), (.ssts4, 4, true, true)]

/-- A displacement counted in accesses, as bytes. -/
def dispBytes (i : BitVec 10) (n : Nat) : W64 := BitVec.ofInt 64 (i.toInt * n)

/-- No SRAMCFG waits in a cluster of the form: none of its segments is held (R51). -/
def NoModeChange (s : State) (f : Form) : Prop := ∀ c ∈ f.cores, cfgWaits s (clusterOfCore c) = []

/-- The cluster's cache holds no line of the tenant for an address. -/
def notCached (s : State) (cl ten pa : Nat) : Prop := ∀ x ∈ (clusterOf s cl).cc, ¬ (x.line = pa / 128 ∧ x.tenant = ten)

end Sys2Proof.Claims

/-- R343, R344, R345, R346 and Table 11.4: every instruction of the Prefect's ALU writes its result to sd and nothing else; an
immediate shift beyond 63 is ILLEGAL. -/
def Obligations.PrefectArithmetic : Prop :=
  ∀ (s : State) (p : Pref), PrefReady s p → ∀ F ∈ sForms, ∀ (d a b : SReg) (i : BitVec 10),
    (F.legal i → PrefSets s p (F.form d a b i) d
      (F.val (rdS p.team.pf d.toNat) (rdS p.team.pf a.toNat) (rdS p.team.pf b.toNat) i)) ∧
    (¬ F.legal i → exec (F.form d a b i) s = .next (illegalPref s p))

/-- R348: the Prefect's branches go to PC + 4·disp where the condition holds, else on; SCALL writes the return address. -/
def Obligations.PrefectBranches : Prop :=
  ∀ (s : State) (p : Pref), PrefReady s p → ∀ (a b : SReg) (d : BitVec 11),
    (∀ B ∈ sBranches, PrefExec s p (B.1 a b d) { p.team.pf with
      pc := if B.2 (rdS p.team.pf a.toNat) (rdS p.team.pf b.toNat) then p.team.pf.pc + words d else p.team.pf.pc + 4 }) ∧
    PrefExec s p (.sj d) { p.team.pf with pc := p.team.pf.pc + words d } ∧
    (∃ q, PrefExec s p (.scall a d) q ∧ { q with s := p.team.pf.s } = { p.team.pf with pc := p.team.pf.pc + words d } ∧
      ∀ k, rdS q k = if k = a.toNat then p.team.pf.pc + 4 else rdS p.team.pf k) ∧
    PrefExec s p (.sret a) { p.team.pf with pc := rdS p.team.pf a.toNat } ∧
    PrefExec s p (.sjr a d) { p.team.pf with pc := rdS p.team.pf a.toNat + words d }

/-- R54, R55, R347: the Prefect's scratchpad accesses read and write the bytes at a form offset, a 4-byte load zero-extending;
an offset off its size is MISALIGN, one beyond the form's windows PAGE_PERM. -/
def Obligations.PrefectScratchpad : Prop :=
  ∀ (s : State) (p : Pref) (f : Form), PrefReady s p → findForm s p.team.fid = some f → NoModeChange s f →
    ∀ A ∈ sAccesses, A.2.2.2 = true → ∀ (d a : SReg) (i : BitVec 10),
      let n := A.2.1
      let o := rdS p.team.pf a.toNat + dispBytes i n
      (o.toNat % n = 0 → o.toInt < 0 ∨ f.cores.length * f.winLen < o.toNat + n →
        exec (A.1 d a i) s = .next (raisePref s p 0x02 4 0 o)) ∧
      (o.toNat % n ≠ 0 → exec (A.1 d a i) s = .next (raisePref s p 0x09 0 0 o)) ∧
      (o.toNat % n = 0 → 0 ≤ o.toInt → o.toNat + n ≤ f.cores.length * f.winLen →
        (A.2.2.1 = false → PrefSets s p (A.1 d a i) d (BitVec.ofNat 64 (natLE (spadRead s f o.toNat n)))) ∧
        (A.2.2.1 = true → ∃ t, exec (A.1 d a i) s = .next t ∧
          PrefBecomes (spadWrite s f o.toNat (bytesLE n (rdS p.team.pf d.toNat).toNat)) p t { p.team.pf with pc := p.team.pf.pc + 4 }))

/-- R27, R347, R250: the Prefect's accesses to global memory. An address off its size is MISALIGN; a translation that fails
stops the Prefect with its fault; one that succeeds to uncached memory of this device sends the request to its home slice,
and the Prefect waits for the answer at its instruction. -/
def Obligations.PrefectMemory : Prop :=
  ∀ (s : State) (p : Pref), PrefReady s p → (∀ o ∈ s.memops, o.id ≠ s.nextId) → ∀ A ∈ sAccesses, A.2.2.2 = false →
    ∀ (d a : SReg) (i : BitVec 10),
      let n := A.2.1
      let va := rdS p.team.pf a.toNat + dispBytes i n
      let tr := tlbTry s p.team.core p.grid.asid p.grid.tenant va (if A.2.2.1 then .write else .read)
      (va.toNat % n ≠ 0 → exec (A.1 d a i) s = .next (raisePref s p 0x09 0 0 va)) ∧
      (va.toNat % n = 0 → canonical va = false → exec (A.1 d a i) s = .next (raisePref s p 0x01 1 0 va)) ∧
      (va.toNat % n = 0 → canonical va = true → ∀ c x lev, tr = some (.fault c x lev) → c ≠ 0x03 →
        exec (A.1 d a i) s = .next (raisePref s p c x lev va)) ∧
      (va.toNat % n = 0 → canonical va = true → ∀ e lev, tr = some (.ok e lev) → pteFar e = false → isOwnDev s (pteDev e) = true →
        pteCc e = 3 → coreSent s p.team.core < 2048 → notCached s (clusterOfCore p.team.core) p.grid.tenant (leafPa e lev va) → s.l2q = [] →
        ∃ t o r, exec (A.1 d a i) s = .next t ∧ t.memops = s.memops ++ [o] ∧ t.l2q = [r] ∧
          o.pf = true ∧ o.tid = p.team.tid ∧ o.dests = (if A.2.2.1 then [] else [d.toNat]) ∧
          r.ref = .lane o.id 0 ∧ r.pa = leafPa e lev va ∧ r.sl = homeSlice (leafPa e lev va) ∧
          r.kind = (if A.2.2.1 then .write (cellsAt (leafPa e lev va) (bytesLE n (rdS p.team.pf d.toNat).toNat)) else .read n) ∧
          PrefBecomes { s with memops := t.memops, l2q := t.l2q, nextId := t.nextId } p t { p.team.pf with st := .scoreboard })

/-- R224, R351: TAPE.PUSH appends 128 bytes of the form's scratchpad to the tape, with the launching queue's number; on a full
tape it sets OVF. R352: QSIGNAL writes or adds to a word of this device, after its release. R50, R51, R357: SRAMCFG gives the
masked segments their modes, after the accesses already issued to the form's segments and the SRAMCFG instructions that the
cluster received before it. -/
def Obligations.TapeSignalAndSram : Prop :=
  (∀ (s : State) (p : Pref) (f : Form) (a : SReg), PrefReady s p → findForm s p.team.fid = some f → NoModeChange s f →
    let o := rdS p.team.pf a.toNat
    let ten := p.grid.tenant
    let n := bits 12 0 (tsysGet s ten 0x031)
    (o.toNat % 8 ≠ 0 → exec (.tapePush a) s = .next (raisePref s p 0x09 0 0 o)) ∧
    (o.toNat % 8 = 0 → o.toInt < 0 ∨ f.cores.length * f.winLen < o.toNat + 128 →
      exec (.tapePush a) s = .next (raisePref s p 0x02 4 0 o)) ∧
    (o.toNat % 8 = 0 → 0 ≤ o.toInt → o.toNat + 128 ≤ f.cores.length * f.winLen → n < 4096 →
      ∃ t, exec (.tapePush a) s = .next t ∧ bits 12 0 (tsysGet t ten 0x031) = n + 1 ∧
        (let r := spadRead s f o.toNat 128
         mgetAll t.mem (bits 38 16 (tsysGet s ten 0x031) * 2 ^ 16 + 128 * n) 128 =
           r.take 80 ++ bytesLE 2 p.grid.queue ++ (if natAt r 80 3 = 0 then [0] else [1]) ++ r.drop 83) ∧
        ∀ x, (x < bits 38 16 (tsysGet s ten 0x031) * 2 ^ 16 + 128 * n ∨ bits 38 16 (tsysGet s ten 0x031) * 2 ^ 16 + 128 * n + 128 ≤ x) →
          mget t.mem x = mget s.mem x) ∧
    (o.toNat % 8 = 0 → 0 ≤ o.toInt → o.toNat + 128 ≤ f.cores.length * f.winLen → 4096 ≤ n →
      ∃ t, exec (.tapePush a) s = .next t ∧ bits 13 13 (tsysGet t ten 0x031) = 1 ∧ t.mem = s.mem)) ∧
  (∀ (s : State) (p : Pref) (c : BitVec 3) (o : BitVec 1) (a b : SReg), PrefReady s p →
    let va := rdS p.team.pf a.toNat
    (c ≠ 4 → c ≠ 5 → exec (.qsignal c o a b) s = .next (illegalPref s p)) ∧
    (c = 4 ∨ c = 5 → va.toNat % 8 ≠ 0 → exec (.qsignal c o a b) s = .next (raisePref s p 0x09 0 0 va)) ∧
    (c = 4 ∨ c = 5 → va.toNat % 8 = 0 → canonical va = true →
      ∀ e lev, tlbTry s p.team.core p.grid.asid p.grid.tenant va .atomic = some (.ok e lev) → pteFar e = false →
        isOwnDev s (pteDev e) = true → lockBlocks s (leafPa e lev va) 8 true = false → (∀ t ∈ s.fab.tags, t.2.use = none) →
        (∀ x ∈ (clusterOf s (clusterOfCore p.team.core)).cc, x.tenant ≠ p.grid.tenant) → s.l2q = [] →
        ∃ t, exec (.qsignal c o a b) s = .next t ∧
          mem64 t (leafPa e lev va) = (if o = 1 then mem64 s (leafPa e lev va) + rdS p.team.pf b.toNat else rdS p.team.pf b.toNat) ∧
          (∀ x, (x < leafPa e lev va ∨ leafPa e lev va + 8 ≤ x) → mget t.mem x = mget s.mem x) ∧
          findTeam t p.team.tid = some { p.team with pf := { p.team.pf with pc := p.team.pf.pc + 4, waitOp := 0 } })) ∧
  ∀ (s : State) (p : Pref) (f : Form) (m : BitVec 4) (a : SReg), PrefReady s p → findForm s p.team.fid = some f →
    (∀ c ∈ (clusterOf s (clusterOfCore p.team.core)).cfgQ, c.tid ≠ p.team.tid) →
    let v := rdS p.team.pf a.toNat
    let cl := clusterOfCore p.team.core
    let good := m ≠ 0 ∧ f.excl = true ∧ segValid v = true ∧ windowsFit f cl m.toNat v = true
    (¬ good → exec (.sramcfg m a) s = .next (illegalPref s p)) ∧
    (good → cfgWaits s cl = [] → sramBusy s f cl = false → (clusterOf s cl).cc = [] → s.l2q = [] → s.memops = [] →
      ∃ t, exec (.sramcfg m a) s = .next t ∧
        (∀ g, g < 4 → segModes t cl g = if m.getLsbD g then v else segModes s cl g) ∧ t.mem = s.mem ∧
        findTeam t p.team.tid = some { p.team with pf := { p.team.pf with pc := p.team.pf.pc + 4 } }) ∧
    (good → cfgWaits s cl ≠ [] ∨ sramBusy s f cl = true → ∃ t, exec (.sramcfg m a) s = .next t ∧
      (∀ g, segModes t cl g = segModes s cl g) ∧ t.mem = s.mem ∧
      (⟨p.team.tid, m.toNat, 0⟩ : CfgReq) ∈ cfgWaits t cl ∧
      findTeam t p.team.tid = some { p.team with pf := { p.team.pf with st := .scoreboard } })
/-! ## Memory instructions of gangs -/

namespace Sys2Proof.Claims
open Sys2Proof.Machine

/-- The number that the machine gives next is not in use. -/
def Fresh (s : State) : Prop :=
  (∀ o ∈ s.memops, o.id ≠ s.nextId) ∧ (∀ c ∈ s.clusters, ∀ w ∈ c.2.walks, w.kind = 1 → w.op ≠ s.nextId) ∧
  ∀ t ∈ s.teams, ∀ e ∈ t.gambit, e.blockOp ≠ s.nextId

/-- The active lanes of a cohort in ascending gang lane (R183): slice number, slice, lane. -/
def lanesOf (g : Gang) : List (Nat × Slice × Nat) :=
  g.sl.flatMap (fun p => ((List.range 4).filter (activeIn p.2)).map (fun l => (p.1, p.2, l)))

/-- Operand fields of a memory instruction. -/
structure MOps where
  w : BitVec 3
  d : VReg
  a : VReg
  b : VReg
  z : BitVec 2
  i : BitVec 7
  o : BitVec 4
  q : BitVec 3
  wide : BitVec 1

/-- Bytes of a size code under an ETYPE; none is ILLEGAL (Table 13.2). -/
def accessSize (z : BitVec 2) (mode : W64) : Option Nat :=
  match z.toNat with
  | 0 => some 4
  | 1 => some 8
  | 2 => some 16
  | _ => [some 4, some 2, some 2, some 1, some 1, none, some 1, some 1, some 2, some 4, some 4, some 8].getD (modeEtype mode) none

/-- Bytes of an LDT row: four elements (R396). -/
def rowSize (mode : W64) : Option Nat :=
  [some 16, some 8, some 8, some 4, some 4, none, some 4, some 4, some 8, some 16, some 16].getD (modeEtype mode) none

/-- A memory instruction that translates an address pair: its words, wait field, what its leaf must permit, bytes per lane
under a MODE (none is ILLEGAL), displacement in accesses, and for an access of n bytes the registers that give data and those
that take it: first register and number. -/
structure MForm where
  form : MOps → Instr
  wait : MOps → Nat := fun _ => 1
  acc : Acc
  size : MOps → W64 → Option Nat
  disp : MOps → Int := fun _ => 0
  src : MOps → Nat → VReg × Nat := fun x _ => (x.b, 0)
  dst : MOps → Nat → VReg × Nat := fun x _ => (x.d, 0)

/-- Registers of n bytes. -/
def regsFor (n : Nat) : Nat := max 1 (n / 4)

/-- R390 to R397 and Tables 10.9, 13.2 and 13.3. -/
def mForms : List MForm := [
  { form := fun x => .ld x.w x.d x.a x.z x.i, wait := fun x => x.w.toNat, acc := .read, size := fun x => accessSize x.z,
    disp := fun x => x.i.toInt, dst := fun x n => (x.d, regsFor n) },
  { form := fun x => .st x.w x.d x.a x.z x.i, wait := fun x => x.w.toNat, acc := .write, size := fun x => accessSize x.z,
    disp := fun x => x.i.toInt, src := fun x n => (x.d, regsFor n) },
  { form := fun x => .atom x.o x.wide x.d x.a x.b, acc := .atomic
    size := fun x _ => if 11 < x.o.toNat ∨ (x.wide = 1 ∧ 10 ≤ x.o.toNat) then none else some (if x.wide = 1 then 8 else 4)
    src := fun x n => (x.b, if x.o = 9 then 2 * (n / 4) else n / 4), dst := fun x n => (x.d, n / 4) },
  { form := fun x => .red x.q x.wide x.a x.b, acc := .update, size := fun x _ => some (if x.wide = 1 then 8 else 4)
    src := fun x n => (x.b, n / 4) },
  { form := fun x => .redFadd x.a x.b, acc := .update, size := fun _ _ => some 4, src := fun x _ => (x.b, 1) },
  { form := fun x => .redBfadd2 x.a x.b, acc := .update, size := fun _ _ => some 4, src := fun x _ => (x.b, 1) },
  { form := fun x => .ll4 x.d x.a, acc := .reserve, size := fun _ _ => some 4, dst := fun x _ => (x.d, 1) },
  { form := fun x => .ll8 x.d x.a, acc := .reserve, size := fun _ _ => some 8, dst := fun x _ => (x.d, 2) },
  { form := fun x => .sc4 x.d x.a x.b, acc := .update, size := fun _ _ => some 4, src := fun x _ => (x.b, 1)
    dst := fun x _ => (x.d, 1) },
  { form := fun x => .sc8 x.d x.a x.b, acc := .update, size := fun _ _ => some 8, src := fun x _ => (x.b, 2)
    dst := fun x _ => (x.d, 1) },
  { form := fun x => .ldt x.d x.a, acc := .read, size := fun _ => rowSize, dst := fun x n => (x.d, n / 4) },
  { form := fun x => .unpk x.d x.a, acc := .read, size := fun _ _ => some 4, dst := fun x _ => (x.d, 2) }]

/-- k registers from r, a multiple of k, below N (R385, R390). -/
def groupOk (N : Nat) (r : VReg × Nat) : Prop := r.2 = 0 ∨ (r.1.toNat % r.2 = 0 ∧ r.1.toNat + r.2 ≤ N)

/-- The operands are legal for an access of n bytes: an even address pair and aligned register groups below N. -/
def MForm.Legal (F : MForm) (N : Nat) (mode : W64) (x : MOps) (n : Nat) : Prop :=
  F.size x mode = some n ∧ x.a.toNat % 2 = 0 ∧ x.a.toNat + 1 < N ∧ groupOk N (F.src x n) ∧ groupOk N (F.dst x n)

/-- An address pair of a lane (R385). -/
def pairOf (sl : Slice) (r : VReg) (l : Nat) : W64 := rdV sl (r.toNat + 1) l ++ rdV sl r.toNat l

/-- The bytes of k registers of a lane, low register first. -/
def dataOf (sl : Slice) (r : VReg × Nat) (l : Nat) : List Byte :=
  (List.range r.2).flatMap (fun j => bytesLE 4 (rdV sl (r.1.toNat + j) l).toNat)

/-- The address of a lane's access. -/
def MForm.addr (F : MForm) (x : MOps) (n : Nat) (q : Nat × Slice × Nat) : W64 :=
  pairOf q.2.1 x.a q.2.2 + BitVec.ofInt 64 (F.disp x * n)

/-- The parts of an operation in flight that its instruction fixes. -/
def OpOf (s : State) (g : Gang) (i : Instr) (o : MemOp) : Prop :=
  o.id = s.nextId ∧ o.instr = i ∧ o.pc = g.pc ∧ o.mode = g.mode ∧ o.slices = g.nums ∧ o.tid = g.team.tid ∧ o.asid = g.grid.asid

end Sys2Proof.Claims

/-- R25, R243, R294, R385, R390 to R397: a memory instruction whose translations miss issues as an operation in flight with
each active lane's address and data as read at issue, its walks queued as far as the walker has room, and the gang goes on;
nothing else changes. Illegal operands are ILLEGAL. -/
def Obligations.MemoryIssue : Prop :=
  ∀ (s : State) (g : Gang), GangReady s g → Fresh s → ∀ F ∈ mForms, ∀ (x : MOps) (i : Instr), F.form x = i →
    (∀ n, F.Legal g.team.nregs g.mode x n → lanesOf g ≠ [] →
      (∀ q ∈ lanesOf g, (F.addr x n q).toNat % n = 0 ∧ canonical (F.addr x n q) = true ∧
        tlbTry s g.team.core g.grid.asid g.grid.tenant (F.addr x n q) F.acc = none) →
      ∃ t o cs, exec i s = .next t ∧
        GangGoes { s with memops := s.memops ++ [o], nextId := s.nextId + 1, clusters := cs } g t (fun _ sl sl' => OnlyPc sl sl') ∧
        OpOf s g i o ∧ o.dests = (List.range (F.dst x n).2).map (fun j => (F.dst x n).1.toNat + j) ∧
        o.lanes.map (fun l => (l.gl, l.va, l.src)) =
          (lanesOf g).map (fun q => (4 * (q.1 % 8) + q.2.2, F.addr x n q, dataOf q.2.1 (F.src x n) q.2.2)) ∧
        (∀ l ∈ o.lanes, l.st = .todo) ∧
        (let c := clusterOfCore g.team.core
         let old := clusterOf s c
         ∃ ws, (∀ k, tget {} k cs = if k = c then { old with walks := old.walks ++ ws } else clusterOf s k) ∧
           ∀ q ∈ lanesOf g, 16 ≤ (old.walks ++ ws).length ∨
             ∃ w ∈ old.walks ++ ws, w.kind = 1 ∧ w.op = o.id ∧ bits 63 16 w.va = bits 63 16 (F.addr x n q))) ∧
    ((∀ n, ¬ F.Legal g.team.nregs g.mode x n) → exec i s = .next (illegalGang s g))

namespace Sys2Proof.Claims
open Sys2Proof.Machine

/-- The form offset of an LDS or STS lane: the register, zero-extended, and the displacement in accesses (R385). -/
def spadOff (x : MOps) (n : Nat) (q : Nat × Slice × Nat) : W64 :=
  (rdV q.2.1 x.a.toNat q.2.2).setWidth 64 + BitVec.ofInt 64 (x.i.toInt * n)

/-- The operands of an LDS or STS are legal for an access of n bytes. -/
def SpadLegal (N : Nat) (mode : W64) (x : MOps) (n : Nat) : Prop :=
  accessSize x.z mode = some n ∧ x.a.toNat < N ∧ groupOk N (x.d, regsFor n)

end Sys2Proof.Claims

/-- R55, R385, R390: LDS reads and STS writes the form's scratchpad in every active lane, in ascending gang lane; an LDS is
then an operation in flight with the bytes read, which its return writes to registers, and an STS is done at once. Illegal operands are
ILLEGAL. -/
def Obligations.ScratchpadLanes : Prop :=
  ∀ (s : State) (g : Gang) (f : Form), GangReady s g → Fresh s → findForm s g.team.fid = some f → NoModeChange s f →
    teamOut s g.team.tid = false → ∀ (x : MOps),
    (∀ n, SpadLegal g.team.nregs g.mode x n →
      (∀ q ∈ lanesOf g, (spadOff x n q).toNat % n = 0 ∧ 0 ≤ (spadOff x n q).toInt ∧ (spadOff x n q).toNat + n ≤ f.cores.length * f.winLen) →
      (∃ t o, exec (.lds x.w x.d x.a x.z x.i) s = .next t ∧
        GangGoes { s with memops := s.memops ++ [o], nextId := s.nextId + 1 } g t (fun _ sl sl' => OnlyPc sl sl') ∧
        OpOf s g (.lds x.w x.d x.a x.z x.i) o ∧ o.dests = (List.range (regsFor n)).map (fun j => x.d.toNat + j) ∧
        o.lanes.map (fun l => (l.gl, l.st, l.data)) =
          (lanesOf g).map (fun q => (4 * (q.1 % 8) + q.2.2, .done, spadRead s f (spadOff x n q).toNat n))) ∧
      ∃ t, exec (.sts x.w x.d x.a x.z x.i) s = .next t ∧
        GangGoes { (lanesOf g).foldl (fun s q => spadWrite s f (spadOff x n q).toNat ((dataOf q.2.1 (x.d, regsFor n) q.2.2).take n)) s with
          nextId := s.nextId + 1 } g t (fun _ sl sl' => OnlyPc sl sl')) ∧
    ((∀ n, ¬ SpadLegal g.team.nregs g.mode x n) →
      exec (.lds x.w x.d x.a x.z x.i) s = .next (illegalGang s g) ∧ exec (.sts x.w x.d x.a x.z x.i) s = .next (illegalGang s g))

namespace Sys2Proof.Claims
open Sys2Proof.Machine

/-- Words that FIFO n of a cluster can hold (R59). -/
def fifoCap (s : State) (cl n : Nat) : Nat := 2048 * (fifoBanks s cl n).length

/-- Its ring: COUNT, head and tail agree. -/
def FifoOk (s : State) (cl n : Nat) : Prop :=
  let f := tget {} n (clusterOf s cl).fifos
  f.count ≤ fifoCap s cl n ∧ f.head < fifoCap s cl n ∧ f.tail = (f.head + f.count) % fifoCap s cl n

/-- Its words in the order in which FPOP removes them. -/
def fifoWords (s : State) (cl n : Nat) : List W32 :=
  let f := tget {} n (clusterOf s cl).fifos
  (List.range f.count).map (fun i =>
    tget 0#32 (fifoKey (fifoBanks s cl n) n ((f.head + i) % fifoCap s cl n)) (clusterOf s cl).sram)

/-- Two machines differ at most in FIFO n of a cluster. -/
def FifoOnly (s t : State) (cl n : Nat) : Prop :=
  ∃ cs, t = { s with clusters := cs } ∧ (∀ k, k ≠ cl → clusterOf t k = clusterOf s k) ∧
    (∃ m fs q, clusterOf t cl = { clusterOf s cl with sram := m, fifos := fs, fifoQ := q }) ∧
    (∀ j, j ≠ n → tget {} j (clusterOf t cl).fifos = tget {} j (clusterOf s cl).fifos ∧
      tget [] j (clusterOf t cl).fifoQ = tget [] j (clusterOf s cl).fifoQ) ∧
    ∀ k, (∀ e, k ≠ fifoKey (fifoBanks s cl n) n e) → tget 0#32 k (clusterOf t cl).sram = tget 0#32 k (clusterOf s cl).sram

/-- The slices of the cohort wait in BARRIER state; nothing else changes. -/
def WaitsBarrier (s : State) (g : Gang) (i : Instr) : Prop :=
  ∃ t, exec i s = .next t ∧ CohortGoes s g t (fun _ sl sl' => sameTurn sl sl' = { sl with st := .barrier })

/-- The slices of the cohort wait in BARRIER state at FIFO n, behind the gangs that wait there already; nothing else
changes. -/
def WaitsFifo (s : State) (g : Gang) (cl n : Nat) (i : Instr) : Prop :=
  ∃ t cs q, exec i s = .next t ∧
    CohortGoes { s with clusters := cs } g t (fun _ sl sl' => sameTurn sl sl' = { sl with st := .barrier }) ∧
    (∀ k, tget {} k cs = if k = cl then { clusterOf s cl with fifoQ := q } else clusterOf s k) ∧
    (∀ j, tget [] j q = if j = n then fifoWaits s cl n ++ [(g.team.tid, g.lead)] else tget [] j (clusterOf s cl).fifoQ)

end Sys2Proof.Claims

/-- R50, R51, R59, R400: FPUSH appends the active lanes' words to the FIFO that its register names, and FPOP removes words into the
active lanes, both in ascending gang lane and as one run; without room or words, behind a gang that reached the FIFO
earlier, or while a SRAMCFG holds the segment, the slices wait in BARRIER state; a FIFO
use without an exclusive cluster, with lanes that disagree or with no FIFO bank is ILLEGAL. -/
def Obligations.FifoRuns : Prop :=
  ∀ (s : State) (g : Gang) (f : Form) (a b d : VReg), GangReady s g → findForm s g.team.fid = some f →
    let cl := clusterOfCore g.team.core
    let act := lanesOf g
    let names := fun n => n < 4 ∧ fifoBanks s cl n ≠ [] ∧ ∀ q ∈ act, (rdV q.2.1 a.toNat q.2.2).toNat = n
    a.toNat < g.team.nregs → b.toNat < g.team.nregs → d.toNat < g.team.nregs → act ≠ [] →
    (∀ n, (g.team.tid, g.lead) ∉ fifoWaits s cl n) →
    (f.excl = true → ∀ n, names n → FifoOk s cl n →
      let free := fifoWaits s cl n = [] ∧ segHeld s cl n = false
      (free → (fifoWords s cl n).length + act.length ≤ fifoCap s cl n → ∃ t u, exec (.fpush a b) s = .next t ∧ FifoOnly s u cl n ∧ FifoOk u cl n ∧
        fifoWords u cl n = fifoWords s cl n ++ act.map (fun q => rdV q.2.1 b.toNat q.2.2) ∧
        GangGoes u g t (fun _ sl sl' => OnlyPc sl sl')) ∧
      (¬ free ∨ fifoCap s cl n < (fifoWords s cl n).length + act.length → WaitsFifo s g cl n (.fpush a b)) ∧
      (free → act.length ≤ (fifoWords s cl n).length → ∃ t u, exec (.fpop d a) s = .next t ∧ FifoOnly s u cl n ∧ FifoOk u cl n ∧
        fifoWords u cl n = (fifoWords s cl n).drop act.length ∧
        GangGoes u g t (fun m sl sl' => LanesTouched [d.toNat] sl sl' ∧
          ∀ j q, act[j]? = some q → q.1 = m → rdV sl' d.toNat q.2.2 = (fifoWords s cl n).getD j 0)) ∧
      (¬ free ∨ (fifoWords s cl n).length < act.length → WaitsFifo s g cl n (.fpop d a))) ∧
    (f.excl = false ∨ (∀ n, ¬ names n) →
      exec (.fpush a b) s = .next (illegalGang s g) ∧ exec (.fpop d a) s = .next (illegalGang s g))

namespace Sys2Proof.Claims
open Sys2Proof.Machine

/-- A page of the own device's memory, the near kind that far memory and pod memory are not. -/
def nearPage (s : State) (e : W64) : Prop := isOwnDev s (pteDev e) = true ∧ pteFar e = false

/-- The walks of one cluster alone changed, by some that joined them (R25). -/
def WalksJoin (s : State) (c : Nat) (cs : Tbl Cluster) (ws : List Walk) : Prop :=
  ∀ k, tget {} k cs = if k = c then { clusterOf s c with walks := (clusterOf s c).walks ++ ws } else clusterOf s k

end Sys2Proof.Claims

/-- R29, R108, R399: PREF changes no register, no byte of memory and no cache line; a lane whose translation misses has its
page's walk queued as far as the walker has room, and a lane with a near page of its own die that may be cached sends one prefetch to its
slice; nothing of it faults. -/
def Obligations.PrefetchIsNoAccess : Prop :=
  ∀ (s : State) (g : Gang) (a : VReg) (l2 : BitVec 1), GangReady s g →
    let c := clusterOfCore g.team.core
    let va := fun (q : Nat × Slice × Nat) => pairOf q.2.1 a q.2.2
    let look := fun (q : Nat × Slice × Nat) => tlbTry s g.team.core g.grid.asid g.grid.tenant (va q) .read
    (a.toNat % 2 = 0 → a.toNat + 1 < g.team.nregs → ∃ t cs ws rs, exec (.pref a l2) s = .next t ∧
      GangGoes { s with clusters := cs, l2q := s.l2q ++ rs, nextId := s.nextId + rs.length } g t (fun _ sl sl' => OnlyPc sl sl') ∧
      WalksJoin s c cs ws ∧ (∀ r ∈ rs, r.kind = .pref) ∧
      ∀ q ∈ lanesOf g, canonical (va q) = true →
        (look q = none → 16 ≤ ((clusterOf s c).walks ++ ws).length ∨
          ∃ w ∈ (clusterOf s c).walks ++ ws, w.kind = (if l2 = 1 then 3 else 0) ∧ bits 63 16 w.va = bits 63 16 (va q)) ∧
        (∀ e lev, look q = some (.ok e lev) → nearPage s e → homeDie (leafPa e lev (va q)) = c / 64 → classOf e (modeCc g.mode) ≠ 3 →
          ∃ r ∈ rs, r.pa = leafPa e lev (va q) ∧ r.sl = 96 * (c / 64) + l2Slice (leafPa e lev (va q)) ∧ r.cluster = c ∧
            (r.owner.2 = 1 ↔ l2 = 0 ∧ classOf e (modeCc g.mode) = 0))) ∧
    (a.toNat % 2 = 1 ∨ g.team.nregs ≤ a.toNat + 1 → exec (.pref a l2) s = .next (illegalGang s g))

namespace Sys2Proof.Claims
open Sys2Proof.Machine

/-- A lane's write of an address goes uncached to a near page that the buffers hold, with no copy of it in the cluster's
cache. -/
def PlainWrite (s : State) (g : Gang) (va : W64) (e : W64) (lev : Nat) : Prop :=
  canonical va = true ∧ tlbTry s g.team.core g.grid.asid g.grid.tenant va .write = some (.ok e lev) ∧ nearPage s e ∧
  classOf e (modeCc g.mode) = 3 ∧ notCached s (clusterOfCore g.team.core) g.grid.tenant (leafPa e lev va)

/-- The byte that each active lane k of lane q's slice gives to its transposed word: byte l of lane k's word, l the lane of
q (R398). -/
def transposed (q : Nat × Slice × Nat) (d : VReg) : List (Nat × Byte) :=
  ((List.range 4).filter (activeIn q.2.1)).map (fun k => (k, (bytesLE 4 (rdV q.2.1 d.toNat k).toNat).getD q.2.2 0))

/-- The cells of bytes from a physical address on. -/
def cellsFrom (pa : Nat) (b : List Byte) : List Host.Cell := (List.range b.length).map (fun i => (pa + i, b.getD i 0))

/-- The requests of one STTR lane: the plain word at A; then the transposed word at B as a whole where all four lanes of the
slice are active, else byte by byte (R398). -/
def sttrSends (x : MOps) (q : Nat × Slice × Nat) (ea : W64) (la : Nat) (eb : W64) (lb : Nat) : List (List Host.Cell) :=
  let tr := transposed q x.d
  let vb := pairOf q.2.1 x.b q.2.2
  cellsFrom (leafPa ea la (pairOf q.2.1 x.a q.2.2)) (bytesLE 4 (rdV q.2.1 x.d.toNat q.2.2).toNat) ::
    if tr.length = 4 then [cellsFrom (leafPa eb lb vb) (tr.map Prod.snd)]
    else tr.map (fun k => [(leafPa eb lb (vb + BitVec.ofNat 64 k.1), k.2)])

/-- Bytes of an STM size code (R401). -/
def stmSize (z : BitVec 2) : Nat := if z = 0 then 4 else if z = 1 then 8 else 16

/-- Nothing holds a store of the cohort's at a home slice of this device: no earlier request or check-out, no unlocked
transfer of an engine, no copy in the cluster's cache or the house's remote-data cache, a tag to take, and a tenant that
is served beyond its tokens (R72, R93, R95, R119, R156). -/
def OwnStoresGo (s : State) (g : Gang) : Prop :=
  s.l2q = [] ∧ s.fars = [] ∧ (∀ o ∈ s.ops, o.phase ≠ 1) ∧ (∀ t ∈ s.fab.tags, t.2.use = none) ∧
  (∀ x ∈ (clusterOf s (clusterOfCore g.team.core)).cc, x.tenant ≠ g.grid.tenant) ∧
  (∀ a, rdcHit s (clusterOfCore g.team.core / 64) a = none) ∧ hardOf s g.grid.tenant = false ∧ teamOut s g.team.tid = false

/-- Where member m of a lane's group takes its copy. -/
def copyAt (x : MOps) (q : Nat × Slice × Nat) (m : Nat × Nat) : Nat := (m.2 + bits 63 10 (pairOf q.2.1 x.a q.2.2)) % 2 ^ 39

/-- The lanes' groups are these, and none of the copies falls on the tables that say so (R163). -/
def GroupsStay (s : State) (g : Gang) (x : MOps) (gr : Nat × Slice × Nat → Group) : Prop :=
  ∀ mem, (∀ a, (∀ q ∈ lanesOf g, ∀ m ∈ (gr q).members, a < copyAt x q m ∨ copyAt x q m + stmSize x.z ≤ a) → mget mem a = mget s.mem a) →
    ∀ q ∈ lanesOf g, groupOf { s with mem := mem } g.grid.tenant (bits 9 0 (pairOf q.2.1 x.a q.2.2)) = some (gr q)

/-- The machine `u` is `s` but for memory and what follows its stores: cache lines, reservations, poison, tokens, tags, the
next request number. -/
def MemoryOnly (s u : State) : Prop :=
  u = { s with mem := u.mem, l2 := u.l2, rdc := u.rdc, resvs := u.resvs, poison := u.poison, buckets := u.buckets, fab := u.fab, nextId := u.nextId, fresh := u.fresh }

end Sys2Proof.Claims

/-- R251, R398, R401: an STTR of near uncached addresses sends, per active lane in ascending order, the plain word and then the
transposed bytes whose source lanes are active, and goes on at once with its lanes waiting for the answers. An STM to a
group whose members are all this device stores one copy of each lane's data per member, at its base plus the offset, lane
after lane, and changes no other byte of memory. -/
def Obligations.SpreadStores : Prop :=
  ∀ (s : State) (g : Gang) (x : MOps), GangReady s g → Fresh s → s.ck = [] → g.grid.race = false → lanesOf g ≠ [] →
    (s.l2q = [] → coreSent s g.team.core + 5 * (lanesOf g).length ≤ 2048 → x.d.toNat < g.team.nregs → x.a.toNat % 2 = 0 →
       x.a.toNat + 1 < g.team.nregs → x.b.toNat % 2 = 0 → x.b.toNat + 1 < g.team.nregs →
      ∀ (ea eb : Nat × Slice × Nat → W64) (la lb : Nat × Slice × Nat → Nat),
      (∀ q ∈ lanesOf g, (pairOf q.2.1 x.a q.2.2).toNat % 4 = 0 ∧ (pairOf q.2.1 x.b q.2.2).toNat % 4 = 0 ∧
        PlainWrite s g (pairOf q.2.1 x.a q.2.2) (ea q) (la q) ∧ PlainWrite s g (pairOf q.2.1 x.b q.2.2) (eb q) (lb q) ∧
        ∀ k, k < 4 → notCached s (clusterOfCore g.team.core) g.grid.tenant (leafPa (eb q) (lb q) (pairOf q.2.1 x.b q.2.2 + BitVec.ofNat 64 k))) →
      ∃ t o rs, exec (.sttr x.d x.a x.b) s = .next t ∧
        GangGoes { s with memops := s.memops ++ [o], l2q := rs, nextId := s.nextId + 1 + rs.length } g t (fun _ sl sl' => OnlyPc sl sl') ∧
        OpOf s g (.sttr x.d x.a x.b) o ∧ (∀ l ∈ o.lanes, ∃ k, l.st = .sent k) ∧
        rs.map (fun r => r.kind) = (lanesOf g).flatMap (fun q => (sttrSends x q (ea q) (la q) (eb q) (lb q)).map (fun c => .write c)) ∧
        ∀ r ∈ rs, r.sl = homeSlice r.pa ∧ r.far = false ∧ r.cls = 3 ∧ ∃ gl, r.ref = .lane o.id gl) ∧
    (x.z ≠ 3 → x.a.toNat % 2 = 0 → x.a.toNat + 1 < g.team.nregs → groupOk g.team.nregs (x.b, stmSize x.z / 4) →
      ∀ (gr : Nat × Slice × Nat → Group),
      (∀ q ∈ lanesOf g, let v := pairOf q.2.1 x.a q.2.2
        bits 63 10 v % stmSize x.z = 0 ∧ bits 63 10 v + stmSize x.z ≤ (gr q).len ∧ (gr q).members ≠ [] ∧ (gr q).members.length < 4096 ∧
        ∀ m ∈ (gr q).members, m.1 = ownDev s ∧ ((gr q).ordered = false ∨ (gr q).root = ownDev s)) →
      GroupsStay s g x gr → OwnStoresGo s g →
      ∃ t u, exec (.stm x.z x.a x.b) s = .next t ∧ GangGoes u g t (fun _ sl sl' => OnlyPc sl sl') ∧ MemoryOnly s u ∧
        u.mem = (lanesOf g).foldl (fun m q => (gr q).members.foldl (fun m r =>
          msetAll m (copyAt x q r) (dataOf q.2.1 (x.b, stmSize x.z / 4) q.2.2)) m) s.mem)

/-! ## Chains, tags and byte counts -/

namespace Sys2Proof.Claims
open Sys2Proof.Machine

/-- A slice waits in BARRIER state. -/
def Waits (sl sl' : Slice) : Prop := sameTurn sl sl' = { sl with st := .barrier }

/-- Engine k accepted new chains; nothing else of any engine changed. -/
def Accepted (s : State) (k : Nat) (es : Tbl Engine) (new : List Chain) : Prop :=
  ∀ j, tget {} j es = if j = k then { engineOf s k with chains := (engineOf s k).chains ++ new } else engineOf s j

/-- A chain whose first entry lies at a form offset, of an issuing team (R413). -/
def ChainOf (t : Team) (g : Grid) (o : W64) (c : Chain) : Prop :=
  c = { id := c.id, fid := t.fid, gid := g.gid, tid := t.tid, core := t.core, tenant := g.tenant, asid := g.asid, headOff := o.toNat,
        pos := o.toNat, teamId := t.teamId, det := t.det }

/-- A head offset that CHAIN and SCHAIN accept (R413). -/
def headOk (f : Form) (o : W64) : Prop := o.toNat % 32 = 0 ∧ o.toNat + 32 ≤ f.cores.length * f.winLen

/-- The fault of a head offset that they do not accept: MISALIGN, or PAGE_PERM with cause PERM at level 0 (R413). -/
def headCode (o : W64) : Nat × Nat := if o.toNat % 32 ≠ 0 then (fcMisalign, 0) else (fcPagePerm, 4)

end Sys2Proof.Claims

/-- R407, R408, R412, R413, R416: CHAIN hands over one chain per slice in ascending order while the engine holds fewer than 16;
the slices left over wait in BARRIER state; the first bad head offset faults, class P; an engine number of 18 to 31 is
ILLEGAL. SCHAIN does the same for its Prefect. -/
def Obligations.ChainsAreHandedOver : Prop :=
  (∀ (s : State) (g : Gang) (f : Form) (a : GReg) (e : BitVec 5), GangReady s g → findForm s g.team.fid = some f →
    let k := engKeyOf g.team.core e.toNat
    let room := 16 - (engineOf s k).chains.length
    let off := fun (p : Nat × Slice) => rdG p.2 a.toNat
    (e.toNat < 18 → (∀ p ∈ g.sl, headOk f (off p)) → 0 < room → ∃ t es new, exec (.chain a e) s = .next t ∧
      GangGoes { s with engines := es, nextId := s.nextId + new.length } g t (fun n sl sl' =>
        (n ∈ g.nums.take room → OnlyPc sl sl') ∧ (n ∉ g.nums.take room → Waits sl sl')) ∧
      Accepted s k es new ∧ List.Forall₂ (fun p c => ChainOf g.team g.grid (off p) c) (g.sl.take room) new) ∧
    (e.toNat < 18 → (∀ p ∈ g.sl, headOk f (off p)) → room = 0 → WaitsBarrier s g (.chain a e)) ∧
    (e.toNat < 18 → ∀ l p r, g.sl = l ++ p :: r → (∀ q ∈ l, headOk f (off q)) → ¬ headOk f (off p) →
      exec (.chain a e) s = .next (raiseGang s g (headCode (off p)).1 (headCode (off p)).2 0 (off p) 0)) ∧
    (18 ≤ e.toNat → exec (.chain a e) s = .next (illegalGang s g))) ∧
  ∀ (s : State) (p : Pref) (f : Form) (e : BitVec 6) (a : SReg), PrefReady s p → findForm s p.team.fid = some f →
    let k := engKeyOf p.team.core e.toNat
    let o := rdS p.team.pf a.toNat
    (e.toNat < 18 → headOk f o → (engineOf s k).chains.length < 16 → ∃ t es c, exec (.schain e a) s = .next t ∧
      PrefBecomes { s with engines := es, nextId := s.nextId + 1 } p t { p.team.pf with pc := p.team.pf.pc + 4 } ∧
      Accepted s k es [c] ∧ ChainOf p.team p.grid o c) ∧
    (e.toNat < 18 → headOk f o → 16 ≤ (engineOf s k).chains.length → PrefExec s p (.schain e a) { p.team.pf with st := .barrier }) ∧
    (e.toNat < 18 → ¬ headOk f o → exec (.schain e a) s = .next (raisePref s p (headCode o).1 (headCode o).2 0 o)) ∧
    (18 ≤ e.toNat → exec (.schain e a) s = .next (illegalPref s p))

namespace Sys2Proof.Claims
open Sys2Proof.Machine

/-- A core lists at most one owner of each of its 64 tag bits (R409). -/
def OwnersOk (s : State) (core : Nat) : Prop := ((coreOf s core).tagOwner.map Prod.fst).Nodup ∧ ∀ p ∈ (coreOf s core).tagOwner, p.1 < 64

/-- TAGS as a tenant sees them: the bits that it owns (R414). -/
def SeesTags (s : State) (core ten : Nat) (T : W64) : Prop :=
  ∀ b, b < 64 → (T.getLsbD b = true ↔ (coreOf s core).tags.getLsbD b = true ∧ tagOwner s core b = some ten)

/-- No bit of a mask belongs to another tenant (R409). -/
def MaskFree (s : State) (core ten : Nat) (m : W64) : Prop := ∀ b, m.getLsbD b = true → ∀ o, tagOwner s core b = some o → o = ten

/-- An engine operation of the tenant in flight carries a tag of the core (R409). -/
def Carried (s : State) (core ten b : Nat) : Prop :=
  ∃ o ∈ s.ops, o.core = core ∧ o.tenant = ten ∧ o.carriesTag = true ∧ natAt o.entry 2 1 % 64 = b

/-- The bits of a mask cleared in TAGS of a core; each is free unless an operation carries it, and then its tenant's (R414). -/
def TagsCleared (s u : State) (core ten : Nat) (m : W64) : Prop :=
  ∃ cs, u = { s with cores := cs } ∧ (∀ k, k ≠ core → coreOf u k = coreOf s k) ∧
    (∃ ow tt, coreOf u core = { coreOf s core with tags := (coreOf s core).tags &&& ~~~m, tagOwner := ow, tagTeam := tt }) ∧
    ∀ b, b < 64 →
      (m.getLsbD b = true → (Carried s core ten b → tagOwner u core b = some ten) ∧ (¬ Carried s core ten b → tagOwner u core b = none)) ∧
      (m.getLsbD b = false → tagOwner u core b = tagOwner s core b)

/-- The number of the lowest set bit, 64 of none (R414). -/
def IsLowest (x : W64) (n : Nat) : Prop := n ≤ 64 ∧ (∀ j, j < n → x.getLsbD j = false) ∧ (n < 64 → x.getLsbD n = true)

/-- A tag instruction of a Prefect: its result, and with C = 1 the bits `hit` cleared (R416). -/
def TagPref (s : State) (p : Pref) (i : Instr) (d : SReg) (c : BitVec 1) (x hit : W64) : Prop :=
  ∃ t u q, exec i s = .next t ∧ (c = 0 → u = s) ∧ (c = 1 → TagsCleared s u p.team.core p.grid.tenant hit) ∧ PrefBecomes u p t q ∧
    { q with s := p.team.pf.s } = { p.team.pf with pc := p.team.pf.pc + 4 } ∧ ∀ k, rdS q k = if k = d.toNat then x else rdS p.team.pf k

end Sys2Proof.Claims

/-- R409, R414, R416: the tag waits of slices and Prefects over the tags that the tenant owns: what each waits for and writes,
TAGFF's lowest bit or 64, TAGCLR's clearing and the clearing of the .c forms, and ILLEGAL for an empty TAGWAIT.ANY mask or for a
bit of another tenant. -/
def Obligations.TagWaits : Prop :=
  (∀ (s : State) (g : Gang) (d a : GReg) (T : W64), GangReady s g → OwnersOk s g.team.core → SeesTags s g.team.core g.grid.tenant T →
    let mask := fun (p : Nat × Slice) => rdG p.2 a.toNat
    let free := ∀ p ∈ g.sl, MaskFree s g.team.core g.grid.tenant (mask p)
    (free → (∀ p ∈ g.sl, mask p ≠ 0) → (∃ p ∈ g.sl, T &&& mask p ≠ 0) → SlicesGo s g (.tagwaitAny d a) (fun _ sl sl' =>
      let x := T &&& rdG sl a.toNat
      (x ≠ 0 → GSet d.toNat x sl sl') ∧ (x = 0 → Waits sl sl'))) ∧
    (free → (∀ p ∈ g.sl, mask p ≠ 0 ∧ T &&& mask p = 0) → WaitsBarrier s g (.tagwaitAny d a)) ∧
    (free → (∃ p ∈ g.sl, T &&& mask p = mask p) → SlicesGo s g (.tagwaitAll d a) (fun _ sl sl' =>
      let x := T &&& rdG sl a.toNat
      (x = rdG sl a.toNat → GSet d.toNat x sl sl') ∧ (x ≠ rdG sl a.toNat → Waits sl sl'))) ∧
    (free → (∀ p ∈ g.sl, T &&& mask p ≠ mask p) → WaitsBarrier s g (.tagwaitAll d a)) ∧
    (free → SlicesGo s g (.tagff d a) (fun _ sl sl' => ∃ n, IsLowest (T &&& rdG sl a.toNat) n ∧ GSet d.toNat (BitVec.ofNat 64 n) sl sl')) ∧
    (free → ∃ t u, exec (.tagclr a) s = .next t ∧
      TagsCleared s u g.team.core g.grid.tenant ((g.sl.map mask).foldl (fun x y => x ||| y) 0) ∧ GangGoes u g t (fun _ sl sl' => OnlyPc sl sl')) ∧
    ((∃ p ∈ g.sl, ¬ MaskFree s g.team.core g.grid.tenant (mask p)) →
      exec (.tagwaitAny d a) s = .next (illegalGang s g) ∧ exec (.tagwaitAll d a) s = .next (illegalGang s g) ∧
      exec (.tagff d a) s = .next (illegalGang s g) ∧ exec (.tagclr a) s = .next (illegalGang s g)) ∧
    ((∃ p ∈ g.sl, mask p = 0) → exec (.tagwaitAny d a) s = .next (illegalGang s g))) ∧
  ∀ (s : State) (p : Pref) (d a : SReg) (c : BitVec 1) (T : W64), PrefReady s p → OwnersOk s p.team.core →
    SeesTags s p.team.core p.grid.tenant T →
    let m := rdS p.team.pf a.toNat
    (MaskFree s p.team.core p.grid.tenant m →
      (T &&& m ≠ 0 → TagPref s p (.stagwaitAny d a c) d c (T &&& m) (T &&& m)) ∧
      (m ≠ 0 → T &&& m = 0 → PrefExec s p (.stagwaitAny d a c) { p.team.pf with st := .barrier }) ∧
      (T &&& m = m → TagPref s p (.stagwaitAll d a c) d c (T &&& m) (T &&& m)) ∧
      (T &&& m ≠ m → PrefExec s p (.stagwaitAll d a c) { p.team.pf with st := .barrier }) ∧
      ∃ n, IsLowest (T &&& m) n ∧ TagPref s p (.stagff d a c) d c (BitVec.ofNat 64 n) (if n = 64 then 0 else BitVec.ofNat 64 (2 ^ n))) ∧
    (¬ MaskFree s p.team.core p.grid.tenant m →
      exec (.stagwaitAny d a c) s = .next (illegalPref s p) ∧ exec (.stagwaitAll d a c) s = .next (illegalPref s p) ∧
      exec (.stagff d a c) s = .next (illegalPref s p)) ∧
    (m = 0 → exec (.stagwaitAny d a c) s = .next (illegalPref s p))

namespace Sys2Proof.Claims
open Sys2Proof.Machine

/-- A tenant may name a byte-counting barrier of a cluster: it owns it, or no one does (R410). -/
def BarFree (s : State) (cl k ten : Nat) : Prop := (barOf s cl k).owner = none ∨ (barOf s cl k).owner = some ten

/-- Barrier k of a cluster is `b` in u; nothing else differs from s. -/
def BarBecomes (s u : State) (cl k : Nat) (b : BcBar) : Prop :=
  ∃ cs, u = { s with clusters := cs } ∧ (∀ c, c ≠ cl → clusterOf u c = clusterOf s c) ∧
    (∃ bc, clusterOf u cl = { clusterOf s cl with bc := bc }) ∧ ∀ j, barOf u cl j = if j = k then b else barOf s cl j

/-- A tag bit of a core is set in v, attributed to a team (R259, R411); nothing else differs from u. -/
def TagSet (u v : State) (core bit tid : Nat) : Prop :=
  ∃ cs, v = { u with cores := cs } ∧ (∀ k, k ≠ core → coreOf v k = coreOf u k) ∧
    ∃ tt, coreOf v core = { coreOf u core with tags := (coreOf u core).tags ||| BitVec.ofNat 64 (2 ^ bit), tagTeam := tt } ∧ (bit, tid) ∈ tt

/-- A free tag bit belongs to the tenant in v; nothing else differs from u (R409). -/
def TagTaken (u v : State) (core ten bit : Nat) : Prop :=
  ∃ cs, v = { u with cores := cs } ∧ (∀ k, k ≠ core → coreOf v k = coreOf u k) ∧
    (∃ ow, coreOf v core = { coreOf u core with tagOwner := ow }) ∧ tagOwner v core bit = some ten ∧
    ∀ b, b ≠ bit → tagOwner v core b = tagOwner u core b

/-- No image of the team takes tags in its place: the team is not out (R259). -/
def TeamIn (s : State) (tid : Nat) : Prop := imageOfTeam s tid = none

end Sys2Proof.Claims

/-- R128, R410, R411, R415, R416, R417: BCWAIT and SBCWAIT go on with COUNT where it has reached the target and wait where it
has not; BCADD adds each slice's value and fires an arm whose target is reached; SBCARM arms, disarms or fires at once. A free
barrier becomes the tenant's; one of another tenant is ILLEGAL. -/
def Obligations.ByteCounts : Prop :=
  (∀ (s : State) (g : Gang) (d a : GReg) (k : BitVec 6), GangReady s g →
    let cl := clusterOfCore g.team.core
    let ten := g.grid.tenant
    let b := barOf s cl k.toNat
    let hit := fun (n : W32) (sl : Slice) => (n - (rdG sl a.toNat).setWidth 32).toNat < 2 ^ 31
    (BarFree s cl k.toNat ten →
      (∃ t u, exec (.bcwait d a k) s = .next t ∧ BarBecomes s u cl k.toNat { b with owner := some ten } ∧
        ((∃ p ∈ g.sl, hit b.count p.2) → GangGoes u g t (fun _ sl sl' =>
          (hit b.count sl → GSet d.toNat (b.count.setWidth 64) sl sl') ∧ (¬ hit b.count sl → Waits sl sl'))) ∧
        ((∀ p ∈ g.sl, ¬ hit b.count p.2) → CohortGoes u g t (fun _ sl sl' => Waits sl sl'))) ∧
      (b.arm = none → ∃ t u, exec (.bcadd a k) s = .next t ∧
        BarBecomes s u cl k.toNat { b with owner := some ten, count := b.count + (g.sl.map (fun p => (rdG p.2 a.toNat).setWidth 32)).sum } ∧
        GangGoes u g t (fun _ sl sl' => OnlyPc sl sl')) ∧
      (∀ p x, g.sl = [p] → b.arm = some x → TeamIn s x.tid →
        let n := b.count + (rdG p.2 a.toNat).setWidth 32
        ((n - x.target).toNat < 2 ^ 31 → ∃ t u v, exec (.bcadd a k) s = .next t ∧
          BarBecomes s u cl k.toNat { count := n, arm := none, owner := some ten } ∧ TagSet u v x.core x.tag x.tid ∧
          GangGoes v g t (fun _ sl sl' => OnlyPc sl sl')) ∧
        (¬ (n - x.target).toNat < 2 ^ 31 → ∃ t u, exec (.bcadd a k) s = .next t ∧
          BarBecomes s u cl k.toNat { count := n, arm := some x, owner := some ten } ∧ GangGoes u g t (fun _ sl sl' => OnlyPc sl sl')))) ∧
    (¬ BarFree s cl k.toNat ten → exec (.bcwait d a k) s = .next (illegalGang s g) ∧ exec (.bcadd a k) s = .next (illegalGang s g))) ∧
  ∀ (s : State) (p : Pref) (d a v : SReg) (k : BitVec 6), PrefReady s p →
    let cl := clusterOfCore p.team.core
    let core := p.team.core
    let ten := p.grid.tenant
    let b := barOf s cl k.toNat
    let x := (rdS p.team.pf a.toNat).setWidth 32
    let w := rdS p.team.pf v.toNat
    let tag := w.toNat % 64
    (BarFree s cl k.toNat ten →
      (∃ t u, exec (.sbcwait d a k) s = .next t ∧ BarBecomes s u cl k.toNat { b with owner := some ten } ∧
        ((b.count - x).toNat < 2 ^ 31 → ∃ q, PrefBecomes u p t q ∧ { q with s := p.team.pf.s } = { p.team.pf with pc := p.team.pf.pc + 4 } ∧
          ∀ r, rdS q r = if r = d.toNat then b.count.setWidth 64 else rdS p.team.pf r) ∧
        (¬ (b.count - x).toNat < 2 ^ 31 → PrefBecomes u p t { p.team.pf with st := .barrier })) ∧
      (64 ≤ w.toNat → w.toNat < 128 → ∃ t u, exec (.sbcarm k a v) s = .next t ∧
        BarBecomes s u cl k.toNat { b with owner := some ten, arm := none } ∧ PrefBecomes u p t { p.team.pf with pc := p.team.pf.pc + 4 }) ∧
      (w.toNat < 64 → (∀ o, tagOwner s core tag = some o → o = ten) → TeamIn s p.team.tid →
        ((b.count - x).toNat < 2 ^ 31 → ∃ t u u' u'', exec (.sbcarm k a v) s = .next t ∧
          BarBecomes s u cl k.toNat { b with owner := some ten, arm := none } ∧ TagTaken u u' core ten tag ∧ TagSet u' u'' core tag p.team.tid ∧
          PrefBecomes u'' p t { p.team.pf with pc := p.team.pf.pc + 4 }) ∧
        (¬ (b.count - x).toNat < 2 ^ 31 → ∃ t u u', exec (.sbcarm k a v) s = .next t ∧
          BarBecomes s u cl k.toNat { b with owner := some ten, arm := some ⟨x, tag, core, p.team.tid⟩ } ∧ TagTaken u u' core ten tag ∧
          PrefBecomes u' p t { p.team.pf with pc := p.team.pf.pc + 4 })) ∧
      (w.toNat < 64 → (∃ o, tagOwner s core tag = some o ∧ o ≠ ten) → exec (.sbcarm k a v) s = .next (illegalPref s p))) ∧
    (128 ≤ w.toNat → exec (.sbcarm k a v) s = .next (illegalPref s p)) ∧
    (¬ BarFree s cl k.toNat ten →
      exec (.sbcwait d a k) s = .next (illegalPref s p) ∧ exec (.sbcarm k a v) s = .next (illegalPref s p))

/-! ## Matrix and slate commands -/

namespace Sys2Proof.Claims
open Sys2Proof.Machine

/-- The machine with the Prefect's earlier wish for a slate withdrawn, as a command finds it. -/
def asked (s : State) (p : Pref) : State :=
  updMx s (clusterOfCore p.team.core) (fun m => { m with wants := m.wants.filter (fun w => w.1 != p.team.tid) })

/-- The command retires with one more reservation entry, of these operands, units, translations and descriptor bytes, in the
table of the Prefect's engine; nothing else differs from u but the Prefect's program counter (R440). -/
def CmdPosted (u : State) (p : Pref) (i : Instr) (sa sb : W64) (units : Nat) (pas : List TlbEntry) (desc : List Byte) (t : State) : Prop :=
  let r : Resv := { id := u.nextId, tid := p.team.tid, fid := p.team.fid, gid := p.grid.gid, tenant := p.grid.tenant, asid := p.grid.asid, core := p.team.core, teamId := p.team.teamId, instr := i, word := u.word, pc := p.team.pf.pc, sa := sa, sb := sb, exact := p.team.pf.exact, prio := p.grid.prio, age := u.clock.cycle, skip := 0, units := units, pas := pas, desc := desc }
  PrefBecomes (updMx { u with nextId := u.nextId + 1 } (clusterOfCore p.team.core) (fun m => { m with resv := m.resv ++ [r] })) p t
    { p.team.pf with pc := p.team.pf.pc + 4 }

/-- The table of the Prefect's engine has room for an entry, and no SRAMCFG waits in the cluster (R51, R237). -/
def MxRoom (s : State) (p : Pref) : Prop :=
  (mxOf s (clusterOfCore p.team.core)).resv.length < 8 ∧ cfgWaits s (clusterOfCore p.team.core) = []

/-- A command whose checks hold: it is posted over `u`, or waits while the table of 8 entries is full or a SRAMCFG waits in the
cluster (R51, R237, R440). -/
def Posts (s s1 : State) (p : Pref) (i : Instr) (sa sb : W64) (units : Nat) (pas : List TlbEntry) (desc : List Byte) (u : State) : Prop :=
  (MxRoom s p → ∃ t, exec i s = .next t ∧ CmdPosted u p i sa sb units pas desc t) ∧
  (¬ MxRoom s p → ∃ t, exec i s = .next t ∧ PrefBecomes s1 p t { p.team.pf with st := .barrier })

/-- A command turned away at post, class P, with one of the faults of R440. -/
def Refused (s : State) (p : Pref) (i : Instr) : Prop :=
  ∃ c x va, ((c = fcIllegal ∧ x = 0) ∨ (c = fcMisalign ∧ x = 0) ∨ (c = fcPagePerm ∧ x = 4)) ∧ exec i s = .next (raisePref (asked s p) p c x 0 va)

/-- A form range inside the form's scratchpad. -/
def inForm (f : Form) (o n : Nat) : Prop := o + n ≤ f.cores.length * f.winLen

/-- The limits of a pass descriptor, `a` the A offset of an MMA (R444, R447, R448, Table 15.3). -/
def PassOk (s : State) (f : Form) (o : Nat) (a : Option Nat) : Prop :=
  o % 32 = 0 ∧ inForm f o 32 ∧
  let d := spadRead s f o 32
  natAt d 22 1 < 128 ∧ natAt d 23 1 < 16 ∧ natAt d 24 8 = 0 ∧
  pdAf d ∈ [2, 3, 4, 6] ∧ pdBf d ∈ [2, 3, 4, 6, 5] ∧
  (pdFlag d 2 = true ∨ pdFlag d 3 = true → pdAf d ≠ 6 ∧ pdBf d ≠ 6) ∧
  pdAstr d % 16 = 0 ∧ pdArow d ≤ pdAstr d ∧ pdBstr d % 16 = 0 ∧ pdBrow d ≤ pdBstr d ∧
  pdB d % 64 = 0 ∧ inForm f (pdB d) (pdBstr d * (pdK d - 1) + pdBrow d) ∧
  (pdFlag d 3 = true → pdBs d % 4 = 0 ∧ inForm f (pdBs d) 512) ∧
  (pdFlag d 2 = true → pdAs d % 4 = 0 ∧ inForm f (pdAs d) (4 * pdM d)) ∧
  (pdBf d = 5 → pdCb d % 32 = 0 ∧ inForm f (pdCb d) 32) ∧
  ∀ x, a = some x → x % 16 = 0 ∧ inForm f x (pdAstr d * (pdM d - 1) + pdArow d)

/-- The limits of an epilogue word and its destination offset (R450, Table 15.4). -/
def EpiOk (s : State) (p : Pref) (dst : W64) (w : W64) : Prop :=
  w >>> 40 = 0 ∧ bit 23 w = false ∧ bit 15 w = false ∧ epFmt w ∈ [0, 1, 2, 3, 4, 9] ∧ epStride w % 16 = 0 ∧ 16 * epWidth w ≤ epStride w ∧
  (bit 8 w = true → BarFree s (clusterOfCore p.team.core) (epBc w) p.grid.tenant) ∧ dst.toNat % 16 = 0

/-- The name is bound to an ordinary slot. -/
def BoundName (f : Form) (n : Nat) : Prop := tfind n f.slateNames = none ∧ ∃ k, tfind n f.names = some k

/-- The name is bound to nothing. -/
def FreeName (f : Form) (n : Nat) : Prop := tfind n f.slateNames = none ∧ tfind n f.names = none

/-- The name denotes the slate x, of state `st`. -/
def SlateName (s : State) (p : Pref) (f : Form) (n : Nat) (x : Slate) : Prop :=
  ∃ id, tfind n f.slateNames = some id ∧ findSlate s p.grid.tenant id = some x

/-- The slate is on the Prefect's engine, or its SLPIN is still posted. -/
def Here (p : Pref) (x : Slate) : Prop := x.state = 0 ∨ (x.state = 1 ∧ x.cluster = clusterOfCore p.team.core)
/-- The slate is spilled, or resident on another engine. -/
def Away (p : Pref) (x : Slate) : Prop := x.state = 2 ∨ (x.state = 1 ∧ x.cluster ≠ clusterOfCore p.team.core)

/-- The Prefect waits in its command for the slate to be refilled (R462). -/
def WantsSlate (s : State) (p : Pref) (i : Instr) (id : Nat) : Prop :=
  ∃ t, exec i s = .next t ∧ PrefBecomes (updMx (asked s p) (clusterOfCore p.team.core) (fun m => { m with wants := m.wants ++ [(p.team.tid, id)] })) p t
    { p.team.pf with st := .barrier }

/-- Binding an unbound name: the lowest slot that the form reserved, or with none the lowest free one; its words are +0, and
it is BOUND to the form (R438). -/
def Binds (s : State) (p : Pref) (f : Form) (n : Nat) (u : State) : Prop :=
  let cl := clusterOfCore p.team.core
  ∃ k, (k ∈ f.reserved ∧ (∀ j ∈ f.reserved, k ≤ j) ∨ f.reserved = [] ∧ k ∈ freeSlots s cl ∧ ∀ j ∈ freeSlots s cl, k ≤ j) ∧
    (∀ i j, slotWord (slotOf u cl k) i j = 0) ∧ ownOf u cl k = { state := 1, tenant := p.grid.tenant, fid := some p.team.fid, gid := p.grid.gid } ∧
    (∀ j, j ≠ k → slotOf u cl j = slotOf s cl j ∧ ownOf u cl j = ownOf s cl j) ∧
    findForm u p.team.fid = some { f with names := tput n k f.names, reserved := (sortOn (fun x => x) f.reserved).drop 1 }

/-- What an SLDELTA, SLREAD or SLCHUNK record must hold (R457, Table 15.8). -/
def RecordOk (s : State) (f : Form) (o dv dk : Nat) : Prop :=
  o % 16 = 0 ∧ inForm f o 16 ∧
  let h := spadRead s f o 16
  (natAt h 0 1 = 0 ∨ natAt h 0 1 = 2) ∧ natAt h 1 1 < 2 ∧ natAt h 2 2 = 0 ∧ natAt h 12 4 = 0 ∧ inForm f o (tkLen h dv dk)

/-- The limits of an output or chunk word (R458, Table 15.9). -/
def OutOk (s : State) (p : Pref) (f : Form) (w : W64) (dv n : Nat) : Prop :=
  w >>> 57 = 0 ∧ (owFmt w = 0 ∨ owFmt w = 2) ∧ (owBcv w = true → BarFree s (clusterOfCore p.team.core) (owBc w) p.grid.tenant) ∧
  owOut w % 16 = 0 ∧ inForm f (owOut w) (roundUp 16 (owBytes w dv) * (n - 1) + owBytes w dv)

/-- Posting a command with BCV takes the barrier it names if no tenant owns it; else posting changes nothing (R410). -/
def BarTaken (s u : State) (p : Pref) (v : Bool) (k : Nat) : Prop :=
  if v then BarBecomes s u (clusterOfCore p.team.core) k { barOf s (clusterOfCore p.team.core) k with owner := some p.grid.tenant } else u = s

end Sys2Proof.Claims

/-- R51, R237, R438, R440, R444, R447, R448, R450, R451: what a Prefect's matrix command does: it checks its operands, faults
before anything is posted, binds an unbound name, and posts one reservation entry, or waits while the table is full. MREL of an
unbound name retires; MREL of a slate is ILLEGAL. -/
def Obligations.MatrixPosts : Prop :=
  ∀ (s : State) (p : Pref) (f : Form) (k : BitVec 1) (n : BitVec 5) (a b : SReg), PrefReady s p → findForm s p.team.fid = some f →
    let sa := rdS p.team.pf a.toNat
    let sb := rdS p.team.pf b.toNat
    let s1 := asked s p
    let s0 := rdS p.team.pf 0
    let old := BoundName f n.toNat ∨ ∃ x, SlateName s p f n.toNat x ∧ Here p x
    let new := fun (i : Instr) (sa sb : W64) (d : List Byte) => FreeName f n.toNat →
      (f.reserved ≠ [] ∨ freeSlots s (clusterOfCore p.team.core) ≠ []) → MxRoom s p →
      ∃ t u, exec i s = .next t ∧ Binds s p f n.toNat u ∧ CmdPosted u p i sa sb 1 [] d t
    (PassOk s f sa.toNat none → Posts s s1 p (.mldb k a) sa s0 1 [] (spadRead s f sa.toNat 32) s1) ∧
    (¬ PassOk s f sa.toNat none → Refused s p (.mldb k a)) ∧
    (PassOk s f sa.toNat (some sb.toNat) →
      (old → Posts s s1 p (.mma n a b) sa sb 1 [] (spadRead s f sa.toNat 32) s1) ∧ new (.mma n a b) sa sb (spadRead s f sa.toNat 32)) ∧
    (¬ PassOk s f sa.toNat (some sb.toNat) → Refused s p (.mma n a b)) ∧
    (EpiOk s p sa sb → bit 4 sb = true → inForm f sa.toNat (epSpan sb) →
      ((BoundName f n.toNat ∨ bit 7 sb = false ∧ ∃ x, SlateName s p f n.toNat x ∧ Here p x) →
        ∃ u, BarTaken s1 u p (bit 8 sb) (epBc sb) ∧ Posts s s1 p (.mepi n a b) sa sb 1 [] [] u) ∧
      (bit 7 sb = true → (∃ x, SlateName s p f n.toNat x ∧ Here p x) → Refused s p (.mepi n a b))) ∧
    (¬ EpiOk s p sa sb → Refused s p (.mepi n a b)) ∧
    (old → Posts s s1 p (.mzero n) s0 s0 1 [] [] s1) ∧ new (.mzero n) s0 s0 [] ∧
    (BoundName f n.toNat → Posts s s1 p (.mrel n) s0 s0 1 [] [] s1) ∧
    (FreeName f n.toNat → ∃ t, exec (.mrel n) s = .next t ∧ PrefBecomes s1 p t { p.team.pf with pc := p.team.pf.pc + 4 }) ∧
    ((∃ x, SlateName s p f n.toNat x) → Refused s p (.mrel n))

/-- R440, R456 to R459, R462, R463: what a Prefect's slate command does: ILLEGAL on a name that is no slate's, SLATE_CORRUPT on
a corrupt slate, a wait for the refill of one that is spilled or elsewhere, and else one reservation entry, with a record's
bytes and one unit per token. SLFILL posts nothing and retires once the slate is resident here. -/
def Obligations.SlatePosts : Prop :=
  ∀ (s : State) (p : Pref) (f : Form) (n : BitVec 5) (a b : SReg), PrefReady s p → findForm s p.team.fid = some f →
    let sa := rdS p.team.pf a.toNat
    let sb := rdS p.team.pf b.toNat
    let s1 := asked s p
    let s0 := rdS p.team.pf 0
    let offs := (List.range (owTokens sb)).map (fun t => sa.toNat + 64 * owRstride sb * t)
    let recs := fun (x : Slate) (l : List Nat) => l.flatMap (fun o => spadRead s f o (tkLen (spadRead s f o 16) x.dv x.dk))
    (∀ i ∈ [Instr.slunpin n, .slspill n, .slfill n, .sldelta n a, .slread n a b, .slchunk n a b],
      (tfind n.toNat f.slateNames = none → exec i s = .next (illegalPref s1 p)) ∧
      ∀ x, SlateName s p f n.toNat x →
        (x.state = 3 → exec i s = .next (raisePref s1 p fcSlateCorrupt 0 0 0)) ∧ (Away p x → WantsSlate s p i x.id)) ∧
    ∀ x, SlateName s p f n.toNat x → Here p x →
      Posts s s1 p (.slunpin n) s0 s0 1 [] [] s1 ∧ Posts s s1 p (.slspill n) s0 s0 1 [] [] s1 ∧
      (x.state = 1 → ∃ t, exec (.slfill n) s = .next t ∧ PrefBecomes s1 p t { p.team.pf with pc := p.team.pf.pc + 4 }) ∧
      (RecordOk s f sa.toNat x.dv x.dk → Posts s s1 p (.sldelta n a) sa s0 1 [] (recs x [sa.toNat]) s1) ∧
      (¬ RecordOk s f sa.toNat x.dv x.dk → Refused s p (.sldelta n a)) ∧
      (OutOk s p f sb x.dv 1 ∧ owRstride sb = 0 ∧ owTokens sb = 1 ∧ RecordOk s f sa.toNat x.dv x.dk →
        ∃ u, BarTaken s1 u p (owBcv sb) (owBc sb) ∧ Posts s s1 p (.slread n a b) sa sb 1 [] (recs x [sa.toNat]) u) ∧
      (¬ (OutOk s p f sb x.dv 1 ∧ owRstride sb = 0 ∧ owTokens sb = 1 ∧ RecordOk s f sa.toNat x.dv x.dk) → Refused s p (.slread n a b)) ∧
      (OutOk s p f sb x.dv (owTokens sb) ∧ owRstride sb ≠ 0 ∧
          (∀ o ∈ offs, RecordOk s f o x.dv x.dk ∧ tkLen (spadRead s f o 16) x.dv x.dk ≤ 64 * owRstride sb) →
        ∃ u, BarTaken s1 u p (owBcv sb) (owBc sb) ∧ Posts s s1 p (.slchunk n a b) sa sb (owTokens sb) [] (recs x offs) u) ∧
      (¬ (OutOk s p f sb x.dv (owTokens sb) ∧ owRstride sb ≠ 0 ∧
          ∀ o ∈ offs, RecordOk s f o x.dv x.dk ∧ tkLen (spadRead s f o 16) x.dv x.dk ≤ 64 * owRstride sb) → Refused s p (.slchunk n a b))

namespace Sys2Proof.Claims
open Sys2Proof.Machine

/-- A range inside one page, which a walk of the tables translates for each access in turn, to this device. -/
def OnePage (s : State) (p : Pref) (va : W64) (n : Nat) : List Acc → State → W64 → Nat → Prop
  | [], _, _, _ => False
  | [a], u, e, lev => va.toNat % 2 ^ 16 + n ≤ 2 ^ 16 ∧ 0 < n ∧ canonical va = true ∧ walkNow s p.grid.asid p.grid.tenant va a = (.ok e lev, u) ∧
      pteFar e = false ∧ isOwnDev s (pteDev e) = true
  | a :: l, u, e, lev => va.toNat % 2 ^ 16 + n ≤ 2 ^ 16 ∧ 0 < n ∧ canonical va = true ∧ (∃ v e0 lev0, walkNow s p.grid.asid p.grid.tenant va a = (.ok e0 lev0, v) ∧
      pteFar e0 = false ∧ isOwnDev s (pteDev e0) = true ∧ OnePage v p va n l u e lev)

end Sys2Proof.Claims

/-- R440, R446, R450, R455: the commands with an operand in memory: MCB, MEPI to memory and SLPIN translate it at post with the
permissions they need; a walk that faults is the Prefect's fault; one that succeeds gives the entry its translation. SLPIN
creates or attaches a slate, or faults as Table 15.7 says. -/
def Obligations.MatrixMemory : Prop :=
  ∀ (s : State) (p : Pref) (f : Form) (n : BitVec 5) (a b : SReg), PrefReady s p → findForm s p.team.fid = some f →
    let sa := rdS p.team.pf a.toNat
    let sb := rdS p.team.pf b.toNat
    let s1 := asked s p
    let cl := clusterOfCore p.team.core
    let ten := p.grid.tenant
    let id := bits 31 0 sa
    let dv := bits 38 32 sa + 1
    let dk := bits 45 39 sa + 1
    let tr := fun (u : State) (va : W64) (e : W64) (lev : Nat) => [tlbEntry u p.grid.asid ten va e lev]
    (sa.toNat % 32 = 0 → sb.toNat % 32 = 0 → inForm f sb.toNat 32 → MxRoom s p →
      (∀ u e lev, OnePage s1 p sa 32 [.read] u e lev → ∃ t, exec (.mcb a b) s = .next t ∧ CmdPosted u p (.mcb a b) sa sb 1 (tr u sa e lev) [] t) ∧
      (∀ c x lev u, canonical sa = true → walkNow s1 p.grid.asid ten sa .read = (.fault c x lev, u) → c ≠ 3 →
        exec (.mcb a b) s = .next (raisePref u p c x lev sa))) ∧
    (EpiOk s p sa sb → bit 4 sb = false → BoundName f n.toNat → MxRoom s p →
      ∀ u e lev, OnePage s1 p sa (epSpan sb) [.write] u e lev → ∃ t v, exec (.mepi n a b) s = .next t ∧ BarTaken u v p (bit 8 sb) (epBc sb) ∧
        CmdPosted v p (.mepi n a b) sa sb 1 (tr u sa e lev) [] t) ∧
    (id ≠ 0 → sa >>> 46 = 0 → sb.toNat % 64 = 0 → tfind n.toNat f.slateNames = none →
      (findSlate s ten id = none → sb ≠ 0 →
        (quotaOf s ten = 0 → exec (.slpin n a b) s = .next (raisePref s1 p fcSlateOwner 1 0 0)) ∧
        (quotaOf s ten ≠ 0 → 1024 ≤ (s.slates.filter (fun x => x.tenant == ten)).length →
          exec (.slpin n a b) s = .next (raisePref s1 p fcSlateOwner 2 0 0)) ∧
        (quotaOf s ten ≠ 0 → (s.slates.filter (fun x => x.tenant == ten)).length < 1024 → MxRoom s p →
          ∀ u e lev, OnePage s1 p sb (64 + 4 * dv * dk) [.read, .write] u e lev → ∃ t v x, exec (.slpin n a b) s = .next t ∧
            v.slates = u.slates ++ [x] ∧ x.tenant = ten ∧ x.id = id ∧ x.dv = dv ∧ x.dk = dk ∧ x.gen = 0 ∧ x.progress = 0 ∧
            x.owner = some p.team.fid ∧ x.spill0 = leafPa e lev sb ∧
            findForm v p.team.fid = some { f with slateNames := tput n.toNat id f.slateNames } ∧ CmdPosted v p (.slpin n a b) sa sb 1 [] [] t)) ∧
      (findSlate s ten id = none → sb = 0 → exec (.slpin n a b) s = .next (illegalPref s1 p)) ∧
      ∀ x, findSlate s ten id = some x →
        ((tfind n.toNat f.names).isSome = true → exec (.slpin n a b) s = .next (illegalPref s1 p)) ∧
        (tfind n.toNat f.names = none → quotaOf s ten ≠ 0 →
          (x.owner ≠ none → exec (.slpin n a b) s = .next (raisePref s1 p fcSlateOwner 0 0 0)) ∧
          (x.owner = none → (x.dv ≠ dv ∨ x.dk ≠ dk) → exec (.slpin n a b) s = .next (raisePref s1 p fcSlateOwner 3 0 0)) ∧
          (x.owner = none → x.dv = dv → x.dk = dk → sb = 0 →
            (x.state = 3 → exec (.slpin n a b) s = .next (raisePref s1 p fcSlateCorrupt 0 0 0)) ∧
            (Away p x → WantsSlate s p (.slpin n a b) id) ∧
            (x.state = 1 → x.cluster = cl → MxRoom s p → ∃ t v, exec (.slpin n a b) s = .next t ∧
              v.slates = s.slates.map (fun y => if y.tenant = ten ∧ y.id = id then { y with owner := some p.team.fid } else y) ∧
              ownOf v cl x.slot = { ownOf s cl x.slot with fid := some p.team.fid, gid := p.grid.gid } ∧
              findForm v p.team.fid = some { f with slateNames := tput n.toNat id f.slateNames } ∧ CmdPosted v p (.slpin n a b) sa sb 1 [] [] t)))) ∧
    ((id = 0 ∨ sa >>> 46 ≠ 0 ∨ (∃ y, tfind n.toNat f.slateNames = some y)) → exec (.slpin n a b) s = .next (illegalPref s1 p))

/-- R445, R451, R465: MCFG sets the Prefect's accumulation mode and faults on a word above 1; MDRAIN holds the Prefect while an
entry or a transfer of one is left; SLINFO writes the fields of Table 15.11. -/
def Obligations.MatrixConfig : Prop :=
  ∀ (s : State) (p : Pref) (d a : SReg), PrefReady s p →
    let w := rdS p.team.pf a.toNat
    let cl := clusterOfCore p.team.core
    let ten := p.grid.tenant
    (w.toNat < 2 → PrefExec s p (.mcfg a) { p.team.pf with pc := p.team.pf.pc + 4, exact := w == 1 }) ∧
    (2 ≤ w.toNat → exec (.mcfg a) s = .next (illegalPref s p)) ∧
    (let busy := (∃ r ∈ (mxOf s cl).resv, r.tid = p.team.tid) ∨ ∃ r ∈ (mxOf s cl).io, r.tid = p.team.tid
     (¬ busy → PrefExec s p .mdrain { p.team.pf with pc := p.team.pf.pc + 4 }) ∧ (busy → PrefExec s p .mdrain { p.team.pf with st := .barrier })) ∧
    ∃ v : W64, PrefSets s p (.slinfo d a) d v ∧
      ((∀ x ∈ s.slates, x.state < 4 ∧ x.progress ≤ 64) →
        bits 27 22 v = (residentSlots s cl ten).length ∧ bits 21 16 v = quotaOf s ten ∧ bits 31 28 v = 0 ∧ bit 15 v = false ∧ bits 7 5 v = 0 ∧
        (findSlate s ten (bits 31 0 w) = none → bits 63 32 v = 0 ∧ bits 14 0 v = 0) ∧
        ∀ x, findSlate s ten (bits 31 0 w) = some x → x.state ≠ 0 →
          bits 63 32 v = x.gen.toNat % 2 ^ 32 ∧ bits 14 8 v = x.progress ∧ bit 4 v = decide (x.state = 1 ∧ x.cluster = cl) ∧
          bit 3 v = decide (x.owner = some p.team.fid) ∧ bit 2 v = x.owner.isSome ∧ bits 1 0 v = x.state)
/-! ## The host, the management processor, power and start-up -/

namespace Sys2Proof.Claims

/-- The event i, performed at s, leaves t. -/
def Does (i : Instr) (s t : State) : Prop := exec i s = .next t

/-- The management error ring after an entry of this cause, unit, index and detail (R512, Table 19.7): a ring of 256 entries loses
it and counts it. -/
def Records (s t : State) (cause unit index detail : Nat) : Prop :=
  if s.mgt.ring.length < 256 then
    ∃ e : MgtEntry, e.time = s.clock.time.toNat / 64 ∧
      e.word = BitVec.ofNat 64 (2 ^ 63 + 2 ^ 48 * cause + 2 ^ 40 * unit + 2 ^ 24 * (index % 2 ^ 16) + 2 ^ 16 * s.mgt.dropped + detail % 2 ^ 16) ∧
      t = { s with mgt := { s.mgt with ring := s.mgt.ring ++ [e], dropped := 0 } }
  else t = { s with mgt := { s.mgt with dropped := min (s.mgt.dropped + 1) 255 } }

/-- Start-up number k of s ends in t: READY where the staged image and every step 1 to 5 pass, and the HALT state of the first step
that fails otherwise (Table 19.2); with a step that fails, the management state is otherwise as it was. -/
def Boots (s t : State) : Prop :=
  let k := s.mgt.boots + 1
  let imageOk : Prop := ∀ b, s.mgt.mbox.next = some b → firmwareOk b = true
  t.mgt.boots = k ∧
  (imageOk → (∀ n, 1 ≤ n → n ≤ 5 → Config.startStep k n = true) → t.mgt.state = 1 ∧ t.mgt.mbox.next = none ∧
    t.mgt.fw = (match s.mgt.mbox.next with | some b => some b | none => s.mgt.fw) ∧
    (∀ c, c ∈ t.mgt.offCores ↔ c < 512 ∧ Config.coreOff k c = true) ∧ (t.mgt.degraded = true ↔ t.mgt.offCores ≠ [])) ∧
  (¬ imageOk → t.mgt.state = 2) ∧
  (imageOk → ∀ n, 1 ≤ n → n ≤ 5 → Config.startStep k n = false → (∀ m, 1 ≤ m → m < n → Config.startStep k m = true) →
    t.mgt.state = n + 1) ∧
  (t.mgt.state ≠ 1 → t.mgt.mbox = { next := s.mgt.mbox.next } ∧ t.mgt.fw = s.mgt.fw)

/-- A device that starts again: every array clear, every register at its reset value, but for SYS.DEVNUM and SYS.FAB_PORTS, which
step 6 of the start-up writes with its role in the pod's time, and the management state. A port that is connected to nothing
is not UP (R145). -/
def StartsAgain (s t : State) (sent : List Packet) : Prop :=
  { t with sys := [], mgt := {}, clock := { t.clock with grandmaster := State.reset.clock.grandmaster } } =
    { State.reset with agenda := s.agenda, fresh := s.fresh, nextId := s.nextId, arg := s.arg, fab := { sent := sent } } ∧
  (∀ n, n ≠ 0x002 → n ≠ 0x040 → sysGet t n = sysGet State.reset n) ∧
  (∀ k, k < 32 → (sysGet t 0x040).getLsbD k = true → portTo t k ≠ none) ∧ Boots s t

/-- The bits of m from v, the others from w. -/
def mixed (m v w : W64) : W64 := (v &&& m) ||| (w &&& ~~~m)

end Sys2Proof.Claims

/-- R67, R145, R501, R508, R511, R512: power on, a device reset, the errors below the level of a tenant, and reads of the error ring. -/
def Obligations.StartUpAndErrors : Prop :=
  ∀ (s : State),
    (∃ t, Claims.Does .powerOn s t ∧ Claims.StartsAgain s t [] ∧ t.mgt.extents = [] ∧
      (t.mgt.state ≠ 1 → t.mgt.ring = [])) ∧
    (∃ t, Claims.Does .resetDevice s t ∧ Claims.StartsAgain s t s.fab.sent ∧ t.mgt.extents = s.mgt.extents ∧
      t.mgt.signalled = s.mgt.signalled ∧ (∃ r, t.mgt.ring = s.mgt.ring ++ r) ∧
      (t.mgt.state ≠ 1 → t.mgt.ring = s.mgt.ring ∧ t.mgt.spares = s.mgt.spares ∧ t.mgt.offCores = s.mgt.offCores)) ∧
    (∀ i cause unit index, (i, cause, unit, index) ∈
        [(Instr.d2dFailure, 1, 0, 0), (.prebriyrFault, 2, 8, 0), (.hbmStackFailure, 3, 5, 4 * (s.arg.a / 2 ^ 38 % 2) + ((s.arg.a / 2 ^ 12 % 4) ^^^ (s.arg.a / 2 ^ 22 % 4)))] →
      ∃ u t, Claims.Records s u cause unit index 0 ∧ Claims.Does i s t ∧
        Claims.StartsAgain { u with mgt := { u.mgt with signalled := true } } t s.fab.sent ∧ t.mgt.signalled = true ∧
        ∃ r, t.mgt.ring = u.mgt.ring ++ r) ∧
    (∃ t, Claims.Does .softcorr s t ∧ Claims.Records s t 4 s.arg.a s.arg.b s.arg.c) ∧
    (∃ t, Claims.Does .scrub s t ∧ Claims.Records s t 5 s.arg.a s.arg.b s.arg.c) ∧
    (∃ t, Claims.Does .invalidHostAccess s t ∧ Claims.Records s t 7 0 0 s.arg.a) ∧
    (∃ t, Claims.Does .brodileLinkRetrain s t ∧ Claims.Records s t 10 7 0 0) ∧
    (s.mgt.ring = [] → Claims.Does .mgtErr s s) ∧
    (∀ e r, s.mgt.ring = e :: r →
      Claims.Does .mgtErr s { s with mgt := { s.mgt with ring := r, errTime := BitVec.ofNat 64 e.time } }) ∧
    Claims.Does .errclr s { s with mgt := { s.mgt with ring := [] } } ∧
    (∃ t u, Claims.Does .eccUncorr s t ∧ u.poison = (if s.arg.a % 2 ^ 39 / 32 ∈ s.poison then s.poison
        else s.poison ++ [s.arg.a % 2 ^ 39 / 32]) ∧ u = { s with poison := u.poison } ∧
      t = emit u (s.arg.b % 64) { code := 0x0F, issuer := 4 } 0)

/-- R9, R73, R498, R499, R501, R511 and Table 10.12: the host's accesses to BAR0 and BAR4: which register of which view a write reaches,
what each field of it does, and which accesses are recorded or ignored. -/
def Obligations.HostAccess : Prop :=
  ∀ (s : State),
    let view := s.arg.a
    let n := s.arg.b
    let v := s.arg.v
    let i := Instr.systemRegisterWrite
    let assigned := n ≤ 2 ∨ (0x10 ≤ n ∧ n ≤ 0x13) ∨ (0x20 ≤ n ∧ n ≤ 0x4B) ∨ (0x100 ≤ n ∧ n ≤ 0x1FF)
    (view < 128 → s.mgt.state ≠ 1 → Claims.Does i s s) ∧
    (view < 128 → s.mgt.state = 1 → 66 ≤ view ∨ ¬ assigned → ∃ t, Claims.Does i s t ∧ Claims.Records s t 7 0 0 (0x8000 * view + 8 * n)) ∧
    (128 ≤ view → view ≠ 128 ∨ 6 ≤ n → ∃ t, Claims.Does i s t ∧ Claims.Records s t 7 0 0 (0x8000 * view + 8 * n)) ∧
    (view < 66 → s.mgt.state = 1 →
      ((n ≤ 2 ∨ (0x10 ≤ n ∧ n ≤ 0x13) ∨ n = 0x23 ∨ n = 0x25 ∨ n = 0x28 ∨ n = 0x40 ∨ (0x44 ≤ n ∧ n ≤ 0x4B)) → Claims.Does i s s) ∧
      (64 ≤ view → n ∈ [0x20, 0x21, 0x22, 0x24, 0x26, 0x27, 0x2A, 0x2B, 0x2C, 0x2D, 0x2E, 0x2F, 0x30, 0x31, 0x32, 0x33, 0x34, 0x43] →
        Claims.Does i s s) ∧
      (view < 64 → n = 0x20 → Claims.Does i s (tsysSet s view n (tsysGet s view n &&& ~~~v))) ∧
      (view < 64 → ∀ m : W64, (n, m) ∈ [(0x21, 1), (0x22, 0x1FFFF), (0x26, 0xFFFF0003), (0x2D, 0xFFFF), (0x32, 0x7FFFFFFFFF),
          (0x33, 0xFFFFFFFFFFFFFFFF), (0x34, 0xFFFFFFFFFFFFFFFF)] →
        Claims.Does i s (tsysSet s view n (Claims.mixed m v (tsysGet s view n)))) ∧
      (view < 64 → n = 0x30 → v.extractLsb' 16 16 ≠ 0 →
        Claims.Does i s (tsysSet s view n (Claims.mixed 0xFFFF0000FFFF0000 v (tsysGet s view n)))) ∧
      (n = 0x36 → Claims.Does i s (doorbell s (v.extractLsb' 0 13).toNat (v.extractLsb' 32 32))) ∧
      (∀ m : W64, (n, m) ∈ [(0x38, 0x7FFFFF0000), (0x3B, 0x7FFFFF0000), (0x41, 0x7FFFFF0000), (0x42, 0x7FFFFF0000)] ∨
          (0x160 ≤ n ∧ n < 0x180 ∧ m = 0xFFFFFF7FFFFF0000) ∨
          (0x140 ≤ n ∧ n < 0x160 ∧ (v.extractLsb' 5 5).toNat ≤ 16 ∧ m = 0x7FFFFFFFE1) ∨
          (0x180 ≤ n ∧ n < 0x1C0 ∧ m = 0x7FFFFFFC0F) ∨ (0x1C0 ≤ n ∧ n < 0x200 ∧ m = 0xFFFF007FFFFF0000) →
        Claims.Does i s (sysSet s n (Claims.mixed m v (sysGet s n)))) ∧
      (0x100 ≤ n → n < 0x140 → ∃ u, Claims.Does i s (sysSet u n (Claims.mixed 0xFFFFFF01FFFFFFFF v (sysGet s n))) ∧
        u = { s with buckets := u.buckets } ∧ ∀ sl, sl < 192 → bucketNow u sl (n - 0x100) = bucketNow s sl (n - 0x100))) ∧
    (view = 128 →
      (n = 0 ∨ n = 4 ∨ n = 5 → Claims.Does i s s) ∧
      (n = 1 → v.getLsbD 0 = true → v.getLsbD 1 = false → exec i s = exec .resetDevice s) ∧
      (n = 1 → v.getLsbD 0 = false → v.getLsbD 1 = true → exec i s = exec .errclr s) ∧
      (n = 1 → v.getLsbD 0 = false → v.getLsbD 1 = false → Claims.Does i s s) ∧
      (n = 2 → Claims.Does i s { s with clock := { s.clock with sags := if v.extractLsb' 32 32 = 0 then s.clock.sags else 0, caps := s.clock.caps &&& ~~~(v.extractLsb' 16 16) } }) ∧
      (n = 3 → Claims.Does i s { s with clock := { s.clock with cap := v.extractLsb' 0 16 } })) ∧
    (s.mgt.state = 1 → s.arg.ok = true → s.arg.data ≠ [] → s.arg.a + s.arg.data.length ≤ 2 ^ 39 →
      Claims.Does .hostMemoryAccess s (performStore s s.arg.a s.arg.data 0 3)) ∧
    (s.mgt.state ≠ 1 ∨ s.arg.ok = false ∨ s.arg.data = [] → Claims.Does .hostMemoryAccess s s)

/-- R43, R500, R504 to R506, R513, R514: far extents, the power cap, the clock's steps, the mailbox and firmware staging. -/
def Obligations.PowerAndMailbox : Prop :=
  ∀ (s : State),
    let d := s.arg.data
    let k := s.arg.a % 64
    let base := natAt d 0 8
    let len := natAt d 8 4 * 2 ^ 21
    let good := base % 2 ^ 21 = 0 ∧ base < 2 ^ 52 ∧ 0 < len ∧ natAt d 12 1 < 64 ∧ natAt d 13 1 = 1 ∧ natAt d 14 2 = 0
    let apart := ∀ p ∈ s.mgt.extents, p.1 ≠ k → base + len ≤ p.2.base ∨ p.2.base + p.2.len ≤ base
    (good → apart → ∃ t, Claims.Does .farExtentAdd s t ∧ t = { s with mgt := { s.mgt with extents := t.mgt.extents } } ∧
      ∀ p, p ∈ t.mgt.extents ↔ (p ∈ s.mgt.extents ∧ p.1 ≠ k) ∨ p = (k, ⟨base, len, natAt d 12 1, false⟩)) ∧
    (¬ good → ∃ t u, Claims.Does .farExtentAdd s t ∧ Claims.Records u t 6 0 0 0 ∧
      u = { s with mgt := { s.mgt with extents := s.mgt.extents.filter (fun p => p.1 ≠ k) } }) ∧
    (∃ t, Claims.Does .farExtentRelease s t ∧ t = { s with mgt := { s.mgt with extents := t.mgt.extents } } ∧
      (∀ p ∈ s.mgt.extents, p.1 ≠ k → p ∈ t.mgt.extents) ∧
      (∀ p ∈ t.mgt.extents, p.1 = k → p.2.leaving = true ∧ ∃ f ∈ s.fars, f.tenant = p.2.tenant)) ∧
    (let c : Clock := { s.clock with draw := s.arg.v.extractLsb' 0 16 }
     let limit := if s.clock.cap = 0 ∨ 1800 < s.clock.cap.toNat then 1800 else s.clock.cap.toNat
     let slow := fun (x : Clock) => { x with step := if x.sag = true ∨ x.recovered ≠ none then max 2 x.capStep else x.capStep }
     (c.draw.toNat ≤ limit ∨ 2 ≤ c.capStep → Claims.Does .powerCapStepDown s { s with clock := c }) ∧
     (limit < c.draw.toNat → c.capStep < 2 → Claims.Does .powerCapStepDown s
       { s with clock := slow { c with capStep := c.capStep + 1, caps := if c.caps = BitVec.allOnes 16 then c.caps else c.caps + 1 } }) ∧
     Claims.Does .supplySag s { s with clock := { s.clock with sag := true, recovered := none, step := max 2 s.clock.capStep, sags := if s.clock.sags = BitVec.allOnes 32 then s.clock.sags else s.clock.sags + 1 } } ∧
     (s.clock.sag = true → Claims.Does .railRecovery s
       { s with clock := { s.clock with sag := false, recovered := some (s.clock.time.toNat / 64), step := max 2 s.clock.capStep } }) ∧
     (s.clock.sag = false → Claims.Does .railRecovery s s) ∧
     (s.clock.sag = true ∨ (∃ t0, s.clock.recovered = some t0 ∧ s.clock.time.toNat / 64 < t0 + 100000) →
       Claims.Does .clockStepUp s { s with clock := c }) ∧
     (s.clock.sag = false → (∀ t0, s.clock.recovered = some t0 → t0 + 100000 ≤ s.clock.time.toNat / 64) →
       let x := if c.draw.toNat ≤ limit then 0 else c.capStep
       Claims.Does .clockStepUp s { s with clock := { c with recovered := none, capStep := x, step := x } })) ∧
    (∀ i op, (i, op) ∈ [(Instr.attest, (1 : Nat)), (.identityRequest, 2), (.stageBegin, 3), (.stageData, 4), (.stageCommit, 5),
        (.stageAbort, 6), (.mailboxBadop, (s.arg.v.extractLsb' 0 8).toNat)] →
      let b := s.mgt.mbox
      (b.state = 1 → Claims.Does i s { s with mgt := { s.mgt with mbox := { b with busy := true } } }) ∧
      (b.state ≠ 1 → ∃ t, Claims.Does i s t ∧ t = { s with mgt := { s.mgt with mbox := t.mgt.mbox } } ∧
        (t.mgt.mbox.cmd.extractLsb' 0 8).toNat = op ∧ t.mgt.mbox.cmd.extractLsb' 8 56 = s.arg.v.extractLsb' 8 56 ∧
        t.mgt.mbox = { b with state := 1, busy := false, err := 0, resp := [], cmd := t.mgt.mbox.cmd, req := t.mgt.mbox.req } ∧
        t.mgt.mbox.req = (d ++ List.replicate 3840 0).take 3840)) ∧
    (let b := s.mgt.mbox
     let op := (b.cmd.extractLsb' 0 8).toNat
     let n := (b.cmd.extractLsb' 16 16).toNat
     let rsv := b.cmd.extractLsb' 8 8 ≠ 0 ∨ b.cmd.extractLsb' 32 32 ≠ 0
     let lenOk := (op = 1 → n = 32) ∧ (op = 3 → n = 8) ∧ (op = 4 → 1 ≤ n ∧ n ≤ 3840) ∧ (op = 2 ∨ op = 5 ∨ op = 6 → n = 0)
     let i := Instr.mailboxRequestEnd
     let ends := fun (x : Mailbox) => Claims.Does i s { s with mgt := { s.mgt with mbox := x } }
     let fails := fun (e : Nat) => ends { b with state := 3, err := e }
     (b.state ≠ 1 → Claims.Does i s s) ∧
     (b.state = 1 → s.mgt.state = 0 → fails 6) ∧
     (b.state = 1 → s.mgt.state ≠ 0 → rsv ∨ op = 0 ∨ 6 < op → fails 1) ∧
     (b.state = 1 → s.mgt.state ≠ 0 → ¬ rsv → 1 ≤ op → op ≤ 6 →
       (¬ lenOk → fails 2) ∧
       (lenOk →
         (op = 1 → ends { b with state := 2, resp := report s (b.req.take 32) }) ∧
         (op = 2 → ∃ r, ends { b with state := 2, resp := r } ∧ r.length ≤ 8192 ∧
           r.take 64 = (Config.identityKey ++ List.replicate 57 0).take 57 ++ List.replicate 7 0) ∧
         (op = 3 → (2 ^ 24 < natAt b.req 0 8 → fails 4) ∧
           (natAt b.req 0 8 ≤ 2 ^ 24 → ends { b with state := 2, staged := some (natAt b.req 0 8, []) })) ∧
         (op = 4 → (b.staged = none → fails 3) ∧ ∀ all im, b.staged = some (all, im) →
           (all < im.length + n ∨ 2 ^ 24 < im.length + n → fails 4) ∧
           (im.length + n ≤ all → im.length + n ≤ 2 ^ 24 → ends { b with state := 2, staged := some (all, im ++ b.req.take n) })) ∧
         (op = 5 → (b.staged = none → fails 3) ∧ ∀ all im, b.staged = some (all, im) →
           (im.length ≠ all ∨ firmwareOk im = false → fails 5) ∧
           (im.length = all → firmwareOk im = true → ends { b with state := 2, staged := none, next := some im })) ∧
         (op = 6 → ends { b with state := 2, staged := none }))))
/-! ## Events of the memory system -/

namespace Sys2Proof.Claims

/-- No lane of an operation is still to be translated. -/
def NoLaneWaits (s : State) : Prop := ∀ o ∈ s.memops, ∀ l ∈ o.lanes, l.st ≠ .todo

/-- A 64-bit word of memory becomes v: its bytes, reservations over its sectors, nothing else. -/
def wordStored (s : State) (a : Nat) (v : W64) : State :=
  { s with mem := msetAll s.mem a (bytesLE 8 v.toNat), resvs := s.resvs.filter (fun r => !overlaps a 8 (32 * r.sector) 32) }

/-- Bytes [base, base + len) of memory read 0 and the rest read as before; poison and reservations of the range are gone, and
the slices may count the writes (R71). -/
def Zeroed (s t : State) (base len : Nat) : Prop :=
  (∀ a, mget t.mem a = if base ≤ a ∧ a < base + len then 0 else mget s.mem a) ∧
  (∀ p, p ∈ t.poison ↔ p ∈ s.poison ∧ ¬ (base ≤ 32 * p ∧ 32 * p < base + len)) ∧
  (∀ r, r ∈ t.resvs ↔ r ∈ s.resvs ∧ ¬ (0 < len ∧ base < 32 * r.sector + 32 ∧ 32 * r.sector < base + len)) ∧
  t = { s with mem := t.mem, poison := t.poison, resvs := t.resvs, rdc := t.rdc, l2 := t.l2, buckets := t.buckets }

/-- The translations of a page range of an ASID are synchronised by a tenant (R34): the table generation advances, and no buffer
holds a named translation. -/
def Synced (s t : State) (ten asid page nlog : Nat) : Prop :=
  tsysGet t ten 0x025 = BitVec.ofNat 64 (((tsysGet s ten 0x025).toNat + 1) % 2 ^ 32) ∧
  (∀ p ∈ t.cores, ∀ e ∈ p.2.tlb, ¬ (asidNamed s ten asid e.asid = true ∧ tlbNamed page nlog e = true)) ∧
  (∀ p ∈ t.clusters, ∀ e ∈ p.2.tlb ++ p.2.ahead, ¬ (asidNamed s ten asid e.asid = true ∧ tlbNamed page nlog e = true))

/-- A request of the flip agent names an ASID that is bound to its tenant. -/
def FlipBound (s : State) (f : FlipReq) : Prop := f.asid < 0xFFFF ∧ (bindOf s f.asid).tenant = f.tenant

/-- A flip of a page's leaf at address a, now e of a level, to the host or to the device (R40, R41): V and ELSE exchange their
values, the page's translations are synchronised, the flip waits for the end of that synchronisation, and its time is kept. -/
def Flipped (s t : State) (f : FlipReq) (a : Nat) (e : W64) (level : Nat) : Prop :=
  Synced s t f.tenant f.asid (pageOf s f.asid f.va) (if level = 2 then 13 else 0) ∧
  (∃ x, t.syncs = s.syncs ++ [x] ∧ x.id = s.nextId ∧ x.asid = f.asid ∧ x.page = pageOf s f.asid f.va) ∧
  t.mem = msetAll s.mem a (bytesLE 8 (if f.toHost = true then (e &&& ~~~1#64) ||| 0x20 else (e &&& ~~~0x20#64) ||| 1).toNat) ∧
  t.flips = s.flips.map (fun x => if x = f then { x with asked := true, sync := some s.nextId } else x) ∧
  (∀ x, x ∈ t.flipped ↔ (x ∈ s.flipped ∧ x.1 ≠ (f.asid, pageOf s f.asid f.va)) ∨
    x = ((f.asid, pageOf s f.asid f.va), s.clock.time.toNat / 64))

/-- The operation that replays a log entry (R249): its lanes are to be performed again, members of a multicast that are done
excepted. -/
def replayOp (s : State) (e : OpEntry) : MemOp :=
  { e.op with id := s.nextId, replayOf := some e.id, issued := s.clock.cycle, lanes := e.op.lanes.map (fun l => { l with st := .todo, data := [], mstat := l.mstat.map (fun x => if x = 0 then 0 else 5) }) }

/-- A log entry begins its replay: the entry is REPLAYING, and its operation goes as far as it can. -/
def Replays (s t : State) (e : OpEntry) : Prop :=
  ∃ u : State, u = { s with cores := u.cores, memops := s.memops ++ [replayOp s e], nextId := s.nextId + 1 } ∧
    (coreOf u e.op.core).log = (coreOf s e.op.core).log.map (fun x => if x.id = e.id then { x with st := 2 } else x) ∧
    (∀ k, k ≠ e.op.core → coreOf u k = coreOf s k) ∧
    t = (let v := advanceOp u s.nextId
         match findOp v s.nextId with
         | none => v
         | some o => if o.final = true then completeOp v s.nextId else v)

end Sys2Proof.Claims

/-- R22, R25, R29, R31 to R34, R38, R40, R72, R515: walks, zeroing of frames, rebinding of ASIDs and table synchronisation, as the
agents of the memory system perform them. -/
def Obligations.TranslationEvents : Prop :=
  ∀ (s : State), let a := s.arg.a; let v := s.arg.v
    ((clusterOf s a).walks = [] → Claims.NoLaneWaits s → Claims.Does .pageWalk s s) ∧
    (∀ w r, (clusterOf s a).walks = w :: r → let u := updCluster s a (fun c => { c with walks := r })
      (∀ x, w.kind ≠ 1 → askFor w.tenant (walkReads u w.asid w.tenant w.va) u = some x → walkQuiet x w.asid w.tenant w.va .read = none →
        Claims.NoLaneWaits s → Claims.Does .pageWalk s x) ∧
      (w.kind ≠ 1 → askFor w.tenant (walkReads u w.asid w.tenant w.va) u = none → Claims.NoLaneWaits s →
        Claims.Does .pageWalk s (queueWalk u w)) ∧
      (∀ o l tr x, w.kind = 1 → findOp s w.op = some o →
        o.lanes.filter (fun l => l.st == .todo && l.va.extractLsb' 16 48 == w.va.extractLsb' 16 48) = [l] →
        walkNow u o.asid o.tenant l.va o.kind.acc = (tr, x) →
        let y := match tr with | .ok e lev => tlbFill x o.core o.asid o.tenant l.va e lev | _ => x
        Claims.Does .pageWalk s (advanceAll (settleOp (advanceAll (applyTr y o.id l.gl tr)) w.op)))) ∧
    (let p := s.arg.p
     let here := s.zeros.find? (fun z => z.dev == 1023 && overlaps p.pa p.n z.base z.len)
     s.arg.ok = true → (admission s p.domain p.pa .w = none → Claims.Does .zeroRequest s (respond s p 1 [])) ∧
      (∀ ten, admission s p.domain p.pa .w = some ten →
        (here = none → ∃ z, Claims.Does .zeroRequest s { s with zeros := s.zeros ++ [z] } ∧ z.base = p.pa ∧ z.len = p.n ∧ z.dev = 1023 ∧
          z.tenant = ten ∧ z.leaves = [] ∧ z.asks = [p] ∧ z.begun = false) ∧
        (∀ z, here = some z → Claims.Does .zeroRequest s { s with zeros := s.zeros.map (fun x => if x = z then { x with asks := x.asks ++ [p] } else x) }))) ∧
    (∀ z, s.arg.ok = false → s.zeros.find? (fun z => !z.begun) = some z →
      let u := fun (s : State) => { s with zeros := s.zeros.map (fun x => if x = z then { x with begun := true } else x) }
      (z.dev = 1023 → ∃ t, Claims.Does .zeroRequest s t ∧ Claims.Zeroed (u s) t z.base z.len) ∧
      (∀ v, z.dev ≠ 1023 → podSend s (homeDie (z.leaves.headD 0)) z.dev { code := 20, pa := z.base, n := z.len, domain := domainOf s z.tenant } (.zero z.base) 0 = .sent v →
        Claims.Does .zeroRequest s (u v))) ∧
    (∀ z, s.zeros.find? (fun z => z.begun && (z.dev == 1023 || z.reported)) = some z →
      let u : State := { s with zeros := s.zeros.filter (fun x => x ≠ z) }
      let x := z.leaves.foldl (fun u k => if (mem64 u k).getLsbD 6 = true then Claims.wordStored u k (mem64 u k &&& ~~~0x40#64) else u) u
      let y := updTenant (z.asks.foldl (fun x p => respond x p 0 []) x) z.tenant (fun t => { t with zeroings := t.zeroings + 1 })
      Claims.Does .zeroingComplete s (advanceAll { y with memops := y.memops.map (fun o => { o with lanes := o.lanes.map (fun l =>
        match l.st with | .zero _ => { l with st := .todo } | _ => l) }) })) ∧
    (let n := (v.extractLsb' 0 16).toNat
     let used := s.grids.any (fun g => g.asid == n) || s.memops.any (fun o => o.asid == n) || s.ops.any (fun o => o.asid == n) || s.cores.any (fun c => c.2.log.any (fun e => e.op.asid == n)) || s.clusters.any (fun c => c.2.walks.any (fun w => w.asid == n)) || s.engines.any (fun e => e.2.chains.any (fun c => c.asid == n))
     let at_ := ((sysGet s 0x03B).extractLsb' 16 23).toNat * 2 ^ 16 + 8 * n
     let reg := fun (s : State) (st : Nat) => sysSet s 0x03C (BitVec.ofNat 64 (n + 2 ^ 16 * st))
     (n = 0xFFFF → Claims.Does .asidRebind s (reg s 3)) ∧
     (n ≠ 0xFFFF → s.rebind ≠ none ∨ used = true → Claims.Does .asidRebind s (reg s 2)) ∧
     (n ≠ 0xFFFF → s.rebind = none → used = false → ∃ r, r.kind = .read 8 ∧ r.ref = .asid n ∧ r.pa = at_ ∧ r.sl = homeSlice at_ ∧
       r.mgmt = true ∧ r.checked = false ∧ r.far = false ∧ r.die = homeDie at_ ∧
       Claims.Does .asidRebind s (reg { s with l2q := s.l2q ++ [r], nextId := s.nextId + 1, rebind := some (n, none) } 1))) ∧
    (∀ r tok n, nextReq s a = some (r, tok) → r.ref = .asid n → r.kind = .read 8 → r.sl = homeSlice r.pa → r.checked = false → r.far = false →
      r.die = homeDie r.pa →
      let e := mem64 s r.pa
      let gen := ((bindOf s n).gen + 1) % 16
      ∃ t, Claims.Does .l2Request s t ∧ t.binds = s.binds ∧ t.mem = msetAll s.mem r.pa (bytesLE 8 (e.extractLsb' 4 60 ++ BitVec.ofNat 4 gen).toNat) ∧
        t.rebind = some (n, some ⟨(e.extractLsb' 16 23).toNat, e.getLsbD 15, (e.extractLsb' 4 6).toNat, gen⟩)) ∧
    ((∀ n b, s.rebind ≠ some (n, some b)) → Claims.Does .asidRebindDone s s) ∧
    (∀ n b, s.rebind = some (n, some b) → ∃ t, Claims.Does .asidRebindDone s t ∧ t.rebind = none ∧ sysGet t 0x03C = BitVec.ofNat 64 n ∧
      bindOf t n = b ∧ (∀ k, k ≠ n → bindOf t k = bindOf s k) ∧ (b.gen ≠ 0 → t.cores = s.cores ∧ t.clusters = s.clusters) ∧
      (b.gen = 0 → (∀ p ∈ t.cores, ∀ e ∈ p.2.tlb, e.asid ≠ n) ∧ (∀ p ∈ t.clusters, ∀ e ∈ p.2.tlb ++ p.2.ahead, e.asid ≠ n)) ∧
      t.mem = s.mem ∧ t.teams = s.teams ∧ t.tsys = s.tsys) ∧
    (let n := (v.extractLsb' 0 16).toNat
     let own := n = 0xFFFF ∨ ((bindOf s n).valid = true ∧ (bindOf s n).tenant = a)
     (¬ own → Claims.Does .ptSync s s) ∧
     (own → ∃ t x, Claims.Does .ptSync s t ∧ t.syncs = s.syncs ++ [x] ∧ x.id = s.nextId ∧ x.tenant = a ∧ t.nextId = s.nextId + 1 ∧
       x.fars = syncFars s a ∧ x.tags = syncTags s a ∧ (∀ q ∈ t.queues, q.2.tenant = a → q.2.waitPa = none) ∧
       Claims.Synced s t a n (v.extractLsb' 25 39).toNat (v.extractLsb' 20 5).toNat ∧ t.mem = s.mem ∧ t.teams = s.teams ∧ t.memops = s.memops)) ∧
    (let open' := fun (p : PtSync) => s.memops.any (fun o => p.reqs.contains o.id && o.lanes.any (fun l => match l.st with | .sent _ => true | _ => false)) ||
       s.fars.any (fun f => p.fars.contains f.id) || s.fab.tags.any (fun t => t.2.use.isSome && p.tags.contains t.2.id)
     (∀ p, s.syncs.find? (fun p => !open' p) = some p → let u : State := { s with syncs := s.syncs.filter (fun q => q.id ≠ p.id) }
       (s.flips.find? (fun f => f.sync == some p.id) = none → Claims.Does .ptSyncRetire s { u with synced := s.synced ++ [p.id] }) ∧
       (∀ f, s.flips.find? (fun f => f.sync == some p.id) = some f → let v : State := { u with flips := s.flips.filter (fun x => x ≠ f) }
         (f.toHost = true → Claims.Does .ptSyncRetire s { v with validated := s.validated ++ [(f.asid, pageOf s f.asid f.va)] }) ∧
         (f.toHost = false → Claims.Does .ptSyncRetire s (flipReplays 64 v f)))) ∧
     ((∀ p ∈ s.syncs, open' p = true) → Claims.Does .ptSyncRetire s s))

/-- R40, R41, R44, R64 to R76, R94, R99 to R101, R132 to R134, R147, R244 to R249, R253, R390, R395: what a home slice does with a
request, the return of a load, flips of pages, replays, and the caches' own events. -/
def Obligations.MemoryEvents : Prop :=
  ∀ (s : State), let a := s.arg.a
    (nextReq s a = none → Claims.Does .l2Request s s) ∧
    (∀ r tok, nextReq s a = some (r, tok) → r.far = false → r.sl = homeSlice r.pa → (∀ o ∈ s.ops, o.phase = 1 → o.unlocked = []) →
      let u := acceptReq s r
      let answers := fun (v : State) (d : List Byte) => Claims.Does .l2Request s (answerReq v r (.data d))
      let fails := fun (v : State) (code : Nat) => Claims.Does .l2Request s (answerReq v r (.fault code 0))
      (∀ n, r.kind = .read n → r.checked && lockBlocks s r.pa n false = false → poisoned s r.pa n = false → ∃ v,
        answers v (mgetAll s.mem (r.pa / 32 * 32) 32) ∧ (r.die = homeDie r.pa → v.mem = s.mem) ∧ v.teams = s.teams ∧ v.resvs = s.resvs) ∧
      (∀ n, r.kind = .read n → r.checked && lockBlocks s r.pa n false = true → fails u 4) ∧
      (∀ n, r.kind = .read n → r.checked && lockBlocks s r.pa n false = false → poisoned s r.pa n = true → ∃ v, fails v 12 ∧ v.mem = s.mem) ∧
      (∀ x b, r.kind = .write ((x, b.headD 0) :: (b.tail.zipIdx (x + 1)).map Prod.swap) → b ≠ [] → r.die = homeDie x →
        r.checked && lockBlocks s x b.length true = false → ∃ v, answers v [] ∧ v.mem = msetAll s.mem x b ∧
          (∀ q, q ∈ v.resvs ↔ q ∈ s.resvs ∧ ¬ (x < 32 * q.sector + 32 ∧ 32 * q.sector < x + b.length)) ∧
          (∀ q, q ∈ v.poison ↔ q ∈ s.poison ∧ ¬ (x ≤ 32 * q ∧ 32 * q + 32 ≤ x + b.length)) ∧ v.teams = s.teams) ∧
      (∀ op n b ret new, r.kind = .atom op n b ret → r.checked && lockBlocks s r.pa n true = false → poisoned s r.pa n = false →
        let old := mgetAll s.mem r.pa n
        atomNew op n (natLE old) (natLE b) = some new → ∃ v, answers v (if ret = true then old else []) ∧
          v.mem = msetAll s.mem r.pa (bytesLE n new) ∧ v.teams = s.teams) ∧
      (∀ key n, r.kind = .ll key n → r.checked && lockBlocks s r.pa n false = false → poisoned s r.pa n = false → ∃ v,
        answers v (mgetAll s.mem r.pa n) ∧ v.mem = s.mem ∧ (∃ q ∈ v.resvs, q.key = key ∧ q.sector = r.pa / 32 ∧ q.at_ = s.clock.cycle)) ∧
      (∀ key b, r.kind = .sc key b → r.checked && lockBlocks s r.pa b.length true = false → poisoned s r.pa b.length = false →
        (resOk s key r.pa = true → ∃ v, answers v [0] ∧ v.mem = msetAll s.mem r.pa b) ∧
        (resOk s key r.pa = false → ∃ v, answers v [1] ∧ v.mem = s.mem ∧ ∀ q, q ∈ v.resvs ↔ q ∈ s.resvs ∧ q.key ≠ key))) ∧
    (∀ o t k bs sg d, Claims.NoLaneWaits s → (s.memops.map MemOp.id).Nodup → o ∈ s.memops → a = o.id → o.id ≠ 0 → teamOut s o.tid = false → o.pf = false →
      o.replayOf = none → o.kind = .load bs sg → bs < 4 → o.dests = [d] → (∀ l ∈ o.lanes, l.st = .done) → (o.lanes.map MLane.gl).Nodup →
      findTeam s o.tid = some t → t.gambit = [] → ∀ l ∈ o.lanes, t.slice (8 * o.gang + l.gl / 4) = some k → ∃ u t', Claims.Does .loadReturn s u ∧
        u.memops = s.memops.filter (fun p => p.id ≠ o.id) ∧ findTeam u o.tid = some t' ∧ ∃ k', t'.slice (8 * o.gang + l.gl / 4) = some k' ∧
        rdV k' d (l.gl % 4) = BitVec.ofInt 32 (if sg = true ∧ 2 ^ (8 * bs - 1) ≤ natLE l.data % 2 ^ (8 * bs) then
          (natLE l.data % 2 ^ (8 * bs) : Int) - 2 ^ (8 * bs) else (natLE l.data % 2 ^ (8 * bs) : Int)) ∧
        ∀ x, x ≠ d → ∀ y, rdV k' x y = rdV k x y) ∧
    (∀ e r, entriesWhere s (fun e => e.auto == 2 && e.st == 0 && !entryBlocked s e) = e :: r →
      ∃ t, Claims.Does .lockReplay s t ∧ Claims.Replays s t e) ∧
    (entriesWhere s (fun e => e.auto == 2 && e.st == 0 && !entryBlocked s e) = [] → Claims.Does .lockReplay s s) ∧
    (∀ e r, entriesWhere s (fun e => e.st == 1) = e :: r →
      (e.action ≠ 1 → ∃ t, Claims.Does .operandLogReplay s t ∧ Claims.Replays s t e) ∧
      (e.action = 1 → Claims.Does .operandLogReplay s (advanceAll (dropEntry (writeDone s { e.op with lanes := e.op.lanes.map (fun l => { l with st := .done, data := (match e.op.kind with | .sc _ => [1, 0, 0, 0] | _ => []) }) }) e.op.core e.id)))) ∧
    (∀ f p e lev, s.flips.find? (fun f => f.asked && f.sync.isNone && !f.toHost) = some f → Claims.FlipBound s f →
      leafSlot s f.asid f.va = some (p, e, lev) → e.getLsbD 0 = false → e.getLsbD 5 = true →
      ∃ t, Claims.Does .adapterFlipReply s t ∧ Claims.Flipped s t f p e lev) ∧
    (let ten := (bindOf s a).tenant
     let f : FlipReq := ⟨a, ten, s.arg.v, true, false, none⟩
     let page := fun (x : FlipReq) => x.asid = a ∧ pageOf s a x.va = pageOf s a f.va
     ((tsysGet s ten 0x026).getLsbD 1 = false → Claims.Does .hostFlip s s) ∧
     (∀ p e lev, (tsysGet s ten 0x026).getLsbD 1 = true → (∀ x ∈ s.flips, ¬ page x) → holdOver s a ten f.va = true →
       leafSlot s a f.va = some (p, e, lev) → a < 0xFFFF → (e.getLsbD 0 = true → e.getLsbD 7 = false →
         ∃ t, Claims.Does .hostFlip s t ∧ Claims.Flipped { s with flips := s.flips ++ [f] } t f p e lev) ∧
         (e.getLsbD 0 = false ∨ e.getLsbD 7 = true → Claims.Does .hostFlip s s)) ∧
     ((tsysGet s ten 0x026).getLsbD 1 = true → (∃ x ∈ s.flips, page x) ∨ holdOver s a ten f.va = false → (∀ x ∈ s.flips, page x → x.toHost = false) →
       Claims.Does .hostFlip s { s with flips := s.flips ++ [f] })) ∧
    (∀ f, s.flips = [f] → f.asked = false → holdOver s f.asid f.tenant f.va = true →
      (f.toHost = false → Claims.Does .flipHoldExpiry s { s with flips := [{ f with asked := true }] }) ∧
      (∀ p e lev, f.toHost = true → Claims.FlipBound s f → leafSlot s f.asid f.va = some (p, e, lev) → e.getLsbD 0 = true → e.getLsbD 7 = false →
        ∃ t, Claims.Does .flipHoldExpiry s t ∧ Claims.Flipped s t f p e lev)) ∧
    (let idle := ∀ t ∈ s.teams, t.core / 256 ≠ a % 2
     let quiet := ∀ o ∈ s.ops, o.core / 256 ≠ a % 2
     let rdc := s.rdc.filter (fun p => p.1 / 2 ^ 40 ≠ a % 2)
     (∀ n, a % 2 = 0 → s.rdcNext0 = some n → idle → quiet → Claims.Does .rdcSizeApply s { s with rdcSize0 := n, rdcNext0 := none, rdc := rdc }) ∧
     (∀ n, a % 2 = 1 → s.rdcNext1 = some n → idle → quiet → Claims.Does .rdcSizeApply s { s with rdcSize1 := n, rdcNext1 := none, rdc := rdc }) ∧
     (¬ idle → Claims.Does .rdcSizeApply s s)) ∧
    (∃ t, Claims.Does .bump s t ∧ t = { s with rdcGen0 := s.rdcGen0 + 1, rdcGen1 := s.rdcGen1 + 1, rdc := t.rdc, l2 := t.l2 } ∧
      (s.rdcGen0 ≠ BitVec.allOnes 16 → s.rdcGen1 ≠ BitVec.allOnes 16 → t.rdc = s.rdc ∧ t.l2 = s.l2) ∧
      (s.rdcGen0 = BitVec.allOnes 16 → ∀ p ∈ t.rdc, p.1 / 2 ^ 40 ≠ 0)) ∧
    Claims.Does .reservationExpiry s { s with resvs := s.resvs.filter (fun r => s.clock.cycle - r.at_ < 4096) } ∧
    (∃ t, Claims.Does .reload s t ∧ t = { s with fab := { s.fab with routes := t.fab.routes } } ∧ ∀ k,
      let e := mem64 s (((sysGet s 0x041).extractLsb' 16 23).toNat * 2 ^ 16 + 8 * k)
      tget 0 k t.fab.routes = (if podSize s ≤ k ∨ k = ownDev s then 0 else if e.extractLsb' 8 24 = 0 ∧ e.extractLsb' 5 2 = 0 then e else e &&& ~~~0x80#64)) ∧
    (∀ f, (s.fars = [f] ∧ (a = 0 ∨ a = f.id)) → let u : State := { s with fars := [] }
      (∀ i, f.ref = .pod i → f.n ≠ 128 → Claims.Does .farAccessReply s u) ∧
      (∀ q n, f.ref = .queue q n → f.n = 8 → farBacked s f.tenant f.addr 8 = true →
        Claims.Does .farAccessReply s (queueReadDone u q n (BitVec.ofNat 64 (natLE ((s.arg.data ++ List.replicate 8 0).take 8))))) ∧
      (∀ q n, f.ref = .queue q n → f.n = 8 → farBacked s f.tenant f.addr 8 = false → Claims.Does .farAccessReply s (queueReadFail u q n)) ∧
      (∀ id gl o l, f.ref = .lane id gl → farBacked s f.tenant f.addr f.n = false → findOp s id = some o → o.lane gl = some l →
        Claims.Does .farAccessReply s (settleOp (advanceAll (setLaneSt u id gl (.fault 1 3 l.level l.va))) id)) ∧
      (∀ id gl d, f.ref = .lane id gl → farBacked s f.tenant f.addr f.n = true → f.n ≠ 128 → f.wr = some d →
        Claims.Does .farAccessReply s (answerLane u id gl (.data []) none)))
/-! ## Queues, placement, schedulers, contexts and resumes -/

namespace Sys2Proof.Claims

/-- Queue q holds k, its descriptor shows HEAD, TAIL, STATE and CAUSE (R210), and nothing else differs. -/
def Puts (s t : State) (q : Nat) (k : Queue) : Prop :=
  queueOf t q = k ∧ (∀ r, r ≠ q → queueOf t r = queueOf s r) ∧
  t.mem = msetAll s.mem (((sysGet s 0x038).extractLsb' 16 23).toNat * 2 ^ 16 + 32 * q + 12)
    (bytesLE 4 k.head.toNat ++ bytesLE 4 k.tail.toNat ++ [BitVec.ofNat 8 k.state, BitVec.ofNat 8 k.cause]) ∧
  t = { s with queues := t.queues, mem := t.mem, resvs := t.resvs }

/-- Queue q stops at its head entry with a cause of Table 7.5: STOPPED, and a QSTOP record of its tenant (R214). -/
def Stops (s t : State) (q cause : Nat) : Prop :=
  let k := queueOf s q
  ∃ u, Puts s u q { k with state := 6, cause := cause, waitFrom := none, waitPa := none, recheck := false, asked := false, rewinding := if k.rewinding = some k.head then none else k.rewinding, atHead := true, started := k.started.filter (fun x => x ≠ k.head) } ∧
    t = emit u k.tenant { code := 0x13, cause := cause, issuer := 3, pc := BitVec.ofNat 64 (k.entryAt k.head), asid := k.asid, queue := q } 0

/-- The head entry of queue q, of bytes b and this type, may start: the queue runs, the entry is due, and, where it must, it finds
every earlier one complete (R214, R218). -/
def HeadIs (s : State) (q ty : Nat) (b : List Byte) : Prop :=
  let k := queueOf s q
  k.state ≠ 0 ∧ k.state ≠ 6 ∧ k.disabling = false ∧ k.head ≠ k.tail ∧ k.waitFrom = none ∧ b = mgetAll s.mem (k.entryAt k.head) 128 ∧ natAt b 0 1 = ty ∧
  (natAt b 1 1 % 2 = 1 ∨ ty = 3 ∨ ty = 5 → k.started = [])

/-- The queue after its head entry has started, and is complete or not (R218). -/
def started (k : Queue) (done : Bool) : Queue :=
  { k with head := k.head + 1, state := if k.head + 1 = k.tail then 1 else 2, waitFrom := none, waitPa := none, recheck := false, asked := false, waitRec := [], started := if done then k.started else k.started ++ [k.head] }

/-- The fields of an entry other than a launch that must be zero are: FLAGS but its lowest bit, and bytes x to y - 1 of each
range. -/
def zeros (b : List Byte) (l : List (Nat × Nat)) : Prop := natAt b 1 1 / 2 = 0 ∧ ∀ r ∈ l, natAt b r.1 (r.2 - r.1) = 0

end Sys2Proof.Claims

/-- R210 to R212, R214: a doorbell and the four commands of SYS.QUEUE_CMD, by the state that the queue is in. -/
def Obligations.QueueCommands : Prop :=
  ∀ (s : State),
    (let q := (s.arg.v.extractLsb' 0 13).toNat
     let k := queueOf s q
     let tail := s.arg.v.extractLsb' 32 32
     let k' := { k with tail := tail }
     let fits := (tail - k.head).toNat ≤ 512 * 2 ^ k.size
     (tail = k.tail → Claims.Does .queueDb s s) ∧
     (tail ≠ k.tail → k.state = 0 ∨ k.state = 6 → ∃ t, Claims.Does .queueDb s t ∧ Claims.Puts s t q k') ∧
     (tail ≠ k.tail → 1 ≤ k.state → k.state ≤ 2 → fits → ∃ t u, Claims.Does .queueDb s t ∧ Claims.Puts s u q k' ∧
       Claims.Puts u t q { k' with state := if k.head = tail then 1 else 2 }) ∧
     (tail ≠ k.tail → 3 ≤ k.state → k.state ≤ 5 → fits → ∃ t, Claims.Does .queueDb s t ∧ Claims.Puts s t q k') ∧
     (tail ≠ k.tail → k.state ≠ 0 → k.state ≠ 6 → ¬ fits → ∃ t u, Claims.Does .queueDb s t ∧ Claims.Puts s u q k' ∧ Claims.Stops u t q 0x0F)) ∧
    (let q := s.arg.a
     let k := queueOf s q
     let b := mgetAll s.mem (((sysGet s 0x038).extractLsb' 16 23).toNat * 2 ^ 16 + 32 * q) 32
     let good := natAt b 0 8 < 2 ^ 39 ∧ natAt b 0 8 % 2 ^ 16 = 0 ∧ natAt b 8 1 ≤ 7 ∧ natAt b 9 1 ≤ 7 ∧ natAt b 11 1 < 4 ∧ natAt b 11 1 % 2 = 1 ∧ natAt b 24 8 = 0 ∧ (bindOf s (natAt b 22 2)).valid = true ∧ (bindOf s (natAt b 22 2)).tenant = natAt b 10 1
     let k' : Queue := { k with ring := natAt b 0 8, size := natAt b 8 1, prio := natAt b 9 1, tenant := natAt b 10 1 % 64, ptok := natAt b 11 1 / 2 % 2 == 1, asid := natAt b 22 2 }
     let head := BitVec.ofNat 32 (natAt b 12 4)
     let tail := BitVec.ofNat 32 (natAt b 16 4)
     let fits := (tail - head).toNat ≤ 512 * 2 ^ (natAt b 8 1)
     (k.state ≠ 0 → Claims.Does .queueEnable s s) ∧
     (k.state = 0 → good → fits → ∃ t, Claims.Does .queueEnable s t ∧
       Claims.Puts s t q { k' with head := head, tail := tail, cause := 0, disabling := false, started := [], state := if head = tail then 1 else 2 }) ∧
     (k.state = 0 → ¬ (good ∧ fits) → ∃ t, Claims.Does .queueEnable s t ∧ (queueOf t q).state = 6 ∧ (queueOf t q).cause = 0x0F) ∧
     (k.state = 0 → Claims.Does .queueDisable s s) ∧
     (k.state ≠ 0 → k.state ≠ 6 → k.started = [] → k.waitFrom = none → ∃ t u, Claims.Does .queueDisable s t ∧ queueOf u q = { k with disabling := true } ∧
       Claims.Puts u t q { k with state := 0, disabling := false }) ∧
     (k.state ≠ 0 → k.started ≠ [] ∨ k.waitFrom ≠ none ∨ k.state = 6 → Claims.Does .queueDisable s (updQueue s q (fun k => { k with disabling := true }))) ∧
     (k.state = 0 → Claims.Does .queueReset s s) ∧
     (k.state ≠ 0 → ∃ t u, Claims.Does .queueReset s t ∧ t = emit u k.tenant { code := 0x14, issuer := 4, queue := q } 0 ∧ (∀ g ∈ t.grids, g.queue ≠ q) ∧
       queueOf t q = { k with started := [], waitFrom := none, waitPa := none, recheck := false, asked := false, waitRec := [], rewinding := none, rewindGrid := none, popped := none, rewound := 0, disabling := false, head := k.tail, state := 1, cause := 0 }) ∧
     (k.state ≠ 6 → Claims.Does .queueResume s s) ∧
     (k.state = 6 → k.disabling = false → k.cause ≠ 0x0F → let h := if k.atHead = true then k.head + 1 else k.head
       ((k.tail - h).toNat ≤ 512 * 2 ^ k.size → ∃ t, Claims.Does .queueResume s t ∧ Claims.Puts s t q { k with cause := 0, head := h, state := if h = k.tail then 1 else 2 }) ∧
       (512 * 2 ^ k.size < (k.tail - h).toNat → ∃ t, Claims.Does .queueResume s t ∧ (queueOf t q).state = 6 ∧ (queueOf t q).cause = 0x0F ∧ (queueOf t q).head = h)) ∧
     (k.state = 6 → k.disabling = false → k.cause = 0x0F → good → (k.tail - k.head).toNat ≤ 512 * 2 ^ (natAt b 8 1) → ∃ t, Claims.Does .queueResume s t ∧
       Claims.Puts s t q { k' with cause := 0, state := if k.head = k.tail then 1 else 2 }) ∧
     (k.state = 6 → k.cause = 0x0F → ¬ (good ∧ (k.tail - k.head).toNat ≤ 512 * 2 ^ (natAt b 8 1)) → Claims.Does .queueResume s s))

/-- R214 to R228, R262 to R264: the entries of a queue, the grids that they launch, the placement of forms, and the ends of a
grid, of an entry that waits, and of a tenant's work. -/
def Obligations.QueueEntries : Prop :=
  ∀ (s : State), let q := s.arg.a; let k := queueOf s q
    (∀ i ty b, (i, ty) ∈ [(Instr.queueLaunch, (1 : Nat)), (.queueSignal, 3), (.queueCopy, 4), (.queueNop, 6)] → Claims.HeadIs s q ty b →
      (ty = 1 → natAt b 1 1 / 16 % 2 = 1 → s.clock.time.toNat / 64 < natAt b 40 8 → k.state ≠ 5 →
        ∃ t, Claims.Does i s t ∧ Claims.Puts s t q { k with state := 5 }) ∧
      (∀ n u, ty = 1 → ¬ (natAt b 1 1 / 16 % 2 = 1 ∧ s.clock.time.toNat / 64 < natAt b 40 8) → acceptLaunch s q b (some k.head.toNat) = .inr (n, u) →
        ∃ t g, Claims.Does i s t ∧ n = s.nextId ∧ t.grids = s.grids ++ [g] ∧ g.gid = s.nextId ∧ g.queue = q ∧ g.entry = some k.head.toNat ∧ g.tenant = k.tenant ∧
          g.asid = natAt b 2 2 ∧ g.prio = k.prio ∧ g.record = b ∧ g.snap = s.mem ∧ Claims.Puts u t q (Claims.started k false)) ∧
      (∀ c, ty = 1 → ¬ (natAt b 1 1 / 16 % 2 = 1 ∧ s.clock.time.toNat / 64 < natAt b 40 8) → acceptLaunch s q b (some k.head.toNat) = .inl c →
        ∃ t, Claims.Does i s t ∧ Claims.Stops s t q c) ∧
      (ty = 3 → ¬ Claims.zeros b [(4, 8), (24, 128)] ∨ 1 < natAt b 2 1 → ∃ t, Claims.Does i s t ∧ Claims.Stops s t q 0x02) ∧
      (∀ r, ty = 3 → Claims.zeros b [(4, 8), (24, 128)] → natAt b 2 1 ≤ 1 → (natAt b 3 1 = 4 ∨ natAt b 3 1 = 5) → natAt b 8 8 % 8 = 0 →
        eventAt s k.asid k.tenant (BitVec.ofNat 64 (natAt b 8 8)) (natAt b 2 1 == 1) (BitVec.ofNat 64 (natAt b 16 8)) (.queue q k.head.toNat) 0 = r →
        (∀ u, r = .done u → ∃ t, Claims.Does i s t ∧ Claims.Puts u t q (Claims.started (queueOf u q) true)) ∧
        (∀ u, r = .sent u → ∃ t, Claims.Does i s t ∧ Claims.Puts u t q (Claims.started (queueOf u q) false)) ∧
        (∀ u, r = .wait u → Claims.Does i s u) ∧ (∀ u, r = .fault u → ∃ t, Claims.Does i s t ∧ Claims.Stops u t q 0x0B)) ∧
      (ty = 4 → ¬ Claims.zeros b [(4, 8), (48, 128)] ∨ 1 < natAt b 2 1 → ∃ t, Claims.Does i s t ∧ Claims.Stops s t q 0x02) ∧
      (ty = 4 → Claims.zeros b [(4, 8), (48, 128)] → natAt b 2 1 ≤ 1 → (natAt b 3 1 = 4 ∨ natAt b 3 1 = 5) → natAt b 32 8 % 8 = 0 → s.ops = [] →
        ∃ u x o, Claims.Does i s (runOp u o.id) ∧ u.ops = [o] ∧ o.id = s.nextId ∧ 256 ≤ o.eng ∧ o.eng < 288 ∧ o.queue = some (q, k.head) ∧ o.tenant = k.tenant ∧
          o.asid = k.asid ∧ o.entry.take 1 = [1] ∧ (o.entry.drop 8) = (b.drop 8).take 24 ∧ x.queues = s.queues ∧ Claims.Puts x u q (Claims.started k false)) ∧
      (ty = 6 → Claims.zeros b [(2, 128)] → ∃ t, Claims.Does i s t ∧ Claims.Puts s t q (Claims.started k true)) ∧
      (ty = 6 → ¬ Claims.zeros b [(2, 128)] → ∃ t, Claims.Does i s t ∧ Claims.Stops s t q 0x02)) ∧
    (∀ b, Claims.HeadIs s q 2 b → let i := Instr.queueWait
      (¬ Claims.zeros b [(4, 8), (40, 128)] ∨ 2 < natAt b 2 1 → ∃ t, Claims.Does i s t ∧ Claims.Stops s t q 0x02) ∧
      (Claims.zeros b [(4, 8), (40, 128)] → natAt b 2 1 ≤ 2 → natAt b 3 1 ≠ 4 → natAt b 3 1 ≠ 5 → ∃ t, Claims.Does i s t ∧ Claims.Stops s t q 0x09) ∧
      (Claims.zeros b [(4, 8), (40, 128)] → natAt b 2 1 ≤ 2 → (natAt b 3 1 = 4 ∨ natAt b 3 1 = 5) → natAt b 8 8 % 8 = 0 → k.state ≠ 4 → k.asked = false →
        let va := BitVec.ofNat 64 (natAt b 8 8)
        ∃ u, Claims.Puts s u q { k with state := 4 } ∧ ∀ e lev x, walkNow u k.asid k.tenant va .read = (.ok e lev, x) → pteFar e = false → isOwnDev u (pteDev e) = true →
          let w := mem64 x (leafPa e lev va)
          let val := BitVec.ofNat 64 (natAt b 16 8)
          let met := match natAt b 2 1 with | 0 => w &&& BitVec.ofNat 64 (natAt b 24 8) = val | 1 => w &&& BitVec.ofNat 64 (natAt b 24 8) ≠ val | _ => val.toNat ≤ w.toNat
          (met → ∃ t, Claims.Does i s t ∧ (queueOf t q).head = k.head + 1 ∧ (queueOf t q).state = (if k.head + 1 = k.tail then 1 else 2) ∧ (queueOf t q).waitFrom = none) ∧
          (¬ met → ∃ t, Claims.Does i s t ∧ (queueOf t q).head = k.head ∧ (queueOf t q).state = 4 ∧ (queueOf t q).waitFrom = some (s.clock.time.toNat / 64) ∧ (queueOf t q).waitRec = b))) ∧
    ((k.waitFrom = none → Claims.Does .queueWaitPoll s s ∧ Claims.Does .queueWaitTimeout s s) ∧
     (∀ f, k.waitFrom = some f → k.state = 4 →
       (k.lastPoll + ((sysGet s 0x039).extractLsb' 52 12).toNat * 1000 ≤ s.clock.time.toNat / 64 → Claims.Does .queueWaitPoll s (waitRead s q)) ∧
       (s.clock.time.toNat / 64 < k.lastPoll + ((sysGet s 0x039).extractLsb' 52 12).toNat * 1000 → Claims.Does .queueWaitPoll s s) ∧
       (let t0 := natAt k.waitRec 32 8
        (t0 ≠ 0 → f + t0 * 1000 ≤ s.clock.time.toNat / 64 → ∃ t, Claims.Does .queueWaitTimeout s t ∧ Claims.Stops s t q 0x0C) ∧
        (t0 = 0 ∨ s.clock.time.toNat / 64 < f + t0 * 1000 → Claims.Does .queueWaitTimeout s s)))) ∧
    (∀ b, Claims.HeadIs s q 5 b → k.rewinding = none →
      (¬ Claims.zeros b [(2, 4), (8, 128)] → ∃ t, Claims.Does .queueRewind s t ∧ Claims.Stops s t q 0x02) ∧
      (Claims.zeros b [(2, 4), (8, 128)] → k.ovf = true → ∃ t, Claims.Does .queueRewind s t ∧ (queueOf t q).state = 6 ∧ (queueOf t q).cause = 0x0D ∧ (queueOf t q).ovf = false) ∧
      (Claims.zeros b [(2, 4), (8, 128)] → k.ovf = false → (∀ u, Claims.Puts s u q (Claims.started k false) → tapePop u k.tenant q = none) →
        ∃ t, Claims.Does .queueRewind s t ∧ (queueOf t q).head = k.head + 1 ∧ (queueOf t q).started = [] ∧ (queueOf t q).rewinding = none ∧ t.grids = s.grids)) ∧
    (∀ b n u, Claims.HeadIs s q 1 b → k.state = 5 → k.popped = none → natAt b 40 8 ≤ s.clock.time.toNat / 64 → acceptLaunch s q b (some k.head.toNat) = .inr (n, u) →
      ∃ t, Claims.Does .timedStart s t ∧ Claims.Puts u t q (Claims.started k false) ∧ t.grids.length = s.grids.length + 1) ∧
    (nextPlace s [] (ranked s) = none → Claims.Does .formPlacement s s) ∧
    (∀ g i p, nextPlace s [] (ranked s) = some (g, i, p) → p ≠ [] → g ∈ s.grids → (s.grids.map Grid.gid).Nodup → ∃ t, Claims.Does .formPlacement s t ∧
      (∃ f ∈ t.forms, f.fid = s.nextId ∧ f.gid = g.gid ∧ f.idx = g.nextForm ∧ f.cores = p.map Prod.fst ∧ f.bases = p.map (fun x => x.2 / 4096) ∧ f.winLen = g.window) ∧
      t.teams.length = s.teams.length + p.length ∧ (∀ r c b0, p[r]? = some (c, b0) → ∃ x ∈ t.teams, x.fid = s.nextId ∧ x.rank = r ∧ x.core = c ∧
        x.slices.map Prod.fst = List.range g.slices ∧ (∀ y ∈ x.slices, y.2.pc = BitVec.ofNat 64 (natAt g.record 16 8) ∧ y.2.lm = 15) ∧
        x.pf.pc = BitVec.ofNat 64 (natAt g.record 24 8)) ∧
      ∃ g' ∈ t.grids, g'.gid = g.gid ∧ g'.nextForm = g.nextForm + 1 ∧ g'.ptr = (i + 1) % g.positions ∧ g'.reserving = false) ∧
    (let due := fun (g : Grid) => !g.reserving && decide (g.waitSince + ((sysGet s 0x039).extractLsb' 28 12).toNat * 1000 ≤ s.clock.time.toNat / 64)
     (∀ g, (ranked s).find? due = some g → Claims.Does .launchReserving s (updGrid s g.gid (fun x => { x with reserving := true }))) ∧
     ((ranked s).find? due = none → Claims.Does .launchReserving s s)) ∧
    (∀ g, s.grids = [g] → (q = 0 ∨ q = g.gid) → g.evSent = false → (gridQuiet s g = false → Claims.Does .gridComplete s s) ∧
      (gridQuiet s g = true → g.event = 0 → g.mark = 0 → s.forms = [] → ∃ t, Claims.Does .gridComplete s t ∧ t.grids = [] ∧
        (∀ n, g.entry = some n → BitVec.ofNat 32 n ∉ (queueOf t g.queue).started))) ∧
    (∀ g, s.grids = [g] → (q = 0 ∨ q = g.gid) → let w := ((tsysGet s g.tenant 0x030).extractLsb' 48 16).toNat
      (w = 0 ∨ s.clock.time.toNat / 64 < g.accepted + w * 1000000 → Claims.Does .watchdog s s) ∧
      (w ≠ 0 → g.accepted + w * 1000000 ≤ s.clock.time.toNat / 64 →
        Claims.Does .watchdog s (abortGrid (emit s g.tenant { code := 0x10, issuer := 4, asid := g.asid, queue := g.queue } 0) g.gid))) ∧
    (∃ u, Claims.Does .tenantReset s (emit u (q % 64) { code := 0x14, issuer := 4 } 0) ∧ (∀ g ∈ u.grids, g.tenant ≠ q % 64) ∧ (∀ x ∈ u.slates, x.tenant ≠ q % 64) ∧
      (∀ e ∈ u.ck, e.tenant ≠ q % 64) ∧ (∀ p ∈ u.clusters, ∀ x ∈ p.2.cc, x.tenant ≠ q % 64))

/-- R189, R196 to R205, R230 to R238, R247 to R256, R338: set changes, swaps and pre-emptions, saves and restores, grants of the
matrix engine, resumes of faults, Gambit, and the waits that time ends. -/
def Obligations.SchedulerEvents : Prop :=
  ∀ (s : State), let now := s.clock.cycle; let ns := s.clock.time.toNat / 64
    (let c := s.arg.a
     let n := s.arg.b % 2
     let u := portSync s c n
     let p := (coreOf u c).port n
     let ready := fun (e : GangAge) => match findTeam u e.tid with | some t => gangReady u t e.lead && (gangHint u e).isNone | none => false
     (p.changed = now + 1 → Claims.Does .forcedEntry s u) ∧
     (∀ e, (sortOn GangAge.since (sortOn (tieOf u) (p.pending.filter ready))).head? = some e → p.changed ≠ now + 1 → p.active.length < 8 →
       (e.since + ((sysGet u 0x039).extractLsb' 16 12).toNat ≤ now → p.yielded ≠ now + 1 → ∃ t, Claims.Does .forcedEntry s t ∧
         ((coreOf t c).port n).active = p.active ++ [{ e with since := now, stalled := now }] ∧ ((coreOf t c).port n).changed = now + 1 ∧
         (∀ x ∈ ((coreOf t c).port n).pending, ¬ (x.tid = e.tid ∧ x.lead = e.lead)) ∧ t.teams = u.teams) ∧
       (e.since + ((sysGet u 0x039).extractLsb' 16 12).toNat ≤ now → p.yielded = now + 1 → Claims.Does .forcedEntry s u) ∧
       (now < e.since + ((sysGet u 0x039).extractLsb' 16 12).toNat → ∃ t, Claims.Does .forcedEntry s t ∧
         ((coreOf t c).port n).active = p.active ++ [{ e with since := now, stalled := now }] ∧ t.teams = u.teams))) ∧
    (∀ f g, s.forms = [f] → (s.arg.a = 0 ∨ s.arg.a = f.fid) → findGrid s f.gid = some g →
      (f.resident s = true → f.stopReq = none → (∀ t ∈ s.teams, t.gambit = []) → g.flag 3 = true → (g.waiting = true ∨ g.returns ≠ []) → f.placedAt + g.quantum ≤ ns →
        Claims.Does .quantumExpiry s (updForm s f.fid (fun f => { f with stopReq := some { preempt := false, since := ns, by_ := 0 } }))) ∧
      (f.resident s = false ∨ f.stopReq ≠ none ∨ g.flag 3 = false ∨ ns < f.placedAt + g.quantum → Claims.Does .quantumExpiry s s) ∧
      (∀ r, f.resident s = true → f.stopReq = some r → r.drain = false → softStopped s f.fid = false → (∀ t ∈ s.teams, t.gambit = []) →
        r.since + ((tsysGet s g.tenant 0x030).extractLsb' 16 16).toNat * 1000 ≤ ns → (s.teams.map Team.tid).Nodup → ∃ t, Claims.Does .hardPreemption s t ∧
          t.forms = [{ f with stopReq := some { r with hard := true, drain := true } }] ∧
          ∀ x ∈ s.teams, x.fid = f.fid → ∃ y ∈ t.teams, y.tid = x.tid ∧ ∀ sl ∈ y.slices, sliceStopped sl.2 = true ∨ sl.2.stop ≠ none) ∧
      (∀ r, f.resident s = true → f.stopReq = some r → (r.drain = true ∨ softStopped s f.fid = true) → Claims.Does .hardPreemption s s) ∧
      (∀ r, f.resident s = true → f.stopReq = some r → r.drain = false → softStopped s f.fid = true →
        Claims.Does .contextSave s (updForm s f.fid (fun f => { f with stopReq := f.stopReq.map (fun r => { r with drain := true }) }))) ∧
      (∀ r, f.resident s = true → f.stopReq = some r → r.drain = true → formDrained s f = true → ∃ t, Claims.Does .contextSave s t ∧ (∀ x ∈ t.teams, x.fid ≠ f.fid) ∧
        ∃ f' ∈ t.forms, f'.fid = f.fid ∧ f'.out = true ∧ f'.cores = f.cores ∧ f'.bases = f.bases ∧ f'.savedTeams.map Team.tid = (formTeams s f.fid).map Team.tid ∧ f'.names = f.names ∧
          ∀ x ∈ f'.savedTeams, ∀ sl ∈ x.slices, sl.2.st = .swapped ∨ sl.2.st = .exited)) ∧
    (∀ g f h, ranked s = [g] → let pw := ((sysGet s 0x039).extractLsb' 40 12).toNat
      (pw = 0 ∨ ns < g.waitSince + pw * 1000 → Claims.Does .priorityPreemption s s) ∧
      (pw ≠ 0 → g.waitSince + pw * 1000 ≤ ns → findPlace s [] g = none → (∀ x ∈ s.forms, x.stopReq = none) → victimOf s g = some (f, h) → (∀ t ∈ s.teams, t.gambit = []) →
        let u := if h.flag 3 = true then s else poolTake s h.tenant f.fid (formPool h f)
        Claims.Does .priorityPreemption s (updForm u f.fid (fun f => { f with stopReq := some { preempt := true, since := ns, by_ := g.gid } })))) ∧
    (returning s = [] → Claims.Does .teamRestore s s) ∧
    (∀ g f, returning s = [(g, f)] → (s.arg.a = 0 ∨ s.arg.a = f.fid) → (mayReturn s g f = false → Claims.Does .teamRestore s s) ∧
      (mayReturn s g f = true → (∃ p ∈ f.images, imageGood (readImage s p.2) = false) → Claims.Does .teamRestore s
        (abortGrid (emit s g.tenant { code := 0x07, cause := 1, issuer := 4, asid := g.asid, queue := g.queue } 0) g.gid)) ∧
      (mayReturn s g f = true → (∀ p ∈ f.images, imageGood (readImage s p.2) = true) → f.savedResvs = [] → s.outLog = [] → f ∈ s.forms → (s.forms.map Form.fid).Nodup →
        (∀ c ∈ s.cores, ∀ e ∈ c.2.log, e.op.tid ∉ f.savedTeams.map Team.tid) → ∃ t, Claims.Does .teamRestore s t ∧
        (∃ f' ∈ t.forms, f'.fid = f.fid ∧ f'.out = false ∧ f'.savedTeams = [] ∧ f'.stopReq = none ∧ f'.cores = f.cores) ∧ ∀ x ∈ f.savedTeams, ∃ y ∈ t.teams, y.tid = x.tid ∧ y.core = x.core)) ∧
    (∀ cl r f u, s.arg.a = cl + 1 → (mxOf s cl).io = [] → quotaTrim 32 s cl = s → (mxOf s cl).resv = [r] → eligible s cl [] r = true → r.units ≤ 1 → findForm s r.fid = some f →
      runEntry s cl r f = .done u → Claims.Does .matrixGrant s (dropResv (touchSlot u cl r) cl r.id)) ∧
    (∀ cl r f n k sid u, s.arg.a = cl + 1 → (mxOf s cl).io = [] → quotaTrim 32 s cl = s → (mxOf s cl).resv = [r] → eligible s cl [] r = true → r.units ≤ 1 → findForm s r.fid = some f →
      r.instr = .mzero n → entrySlot s cl r n.toNat = some (k, sid, u) → ∃ t, Claims.Does .matrixGrant s t ∧ ∀ i j, slotWord (slotOf t cl k) i j = 0) ∧
    (∀ cl, s.arg.a = cl + 1 → (wantedSlate s cl = none → Claims.Does .slateRefill s s) ∧
      (∀ fid ten id pin x u, wantedSlate s cl = some (fid, ten, id, pin, none) → findSlate s ten id = some x → x.state ≠ 3 → refillSlate s cl fid ten id pin = some u →
        (findSlate u ten id).map Slate.state ≠ some 3 → Claims.Does .slateRefill s (updMx u cl (fun m => { m with wants := m.wants.filter (fun w => w.2 ≠ id) })))) ∧
    (∀ i act, (i, act) ∈ [(Instr.replayResume, (0 : Nat)), (.skipResume, 1), (.abortResume, 2), (.replayfResume, 3)] →
      let ten := s.arg.a % 64
      let seq := (s.arg.v.extractLsb' 32 32).toNat
      let fails := fun (n : Nat) => Claims.Does i s (updTenant s ten (fun t => { t with resumeStatus := n }))
      let only12 := [6, 7, 9, 10, 13, 14]
      (seq = 0 → fails 1) ∧
      (∀ w, seq ≠ 0 → (tenantOf s ten).faults = [w] → w.seq = seq →
        ((act = 0 ∨ act = 3) → w.code ∈ only12 → fails 2) ∧
        (act = 2 → ∃ t, Claims.Does i s t ∧ (∀ g ∈ t.grids, g.gid ≠ w.gid) ∧ (tenantOf t ten).resumeStatus = 0) ∧
        (∀ tid ns', w.where_ = .gang tid ns' → outForm s tid = none → ((act = 0 ∨ act = 3) ∧ w.code ∉ only12) ∨ (act = 1 ∧ w.code ≠ 0x11) →
          ∃ t, Claims.Does i s t ∧ (tenantOf t ten).faults = [] ∧ (tenantOf t ten).resumeStatus = 0 ∧
            t.teams = s.teams.map (fun x => if x.tid = tid then x.mapSlices ns' (fun _ sl => { sl with stop := none, pend := [], pc := if act = 1 then sl.pc + 4 else sl.pc, count := if act = 1 then sl.count + 1 else sl.count }) else x))) ∧
      (seq ≠ 0 → (tenantOf s ten).faults = [] → (∀ c ∈ s.cores, ∀ e ∈ c.2.log, e.seq ≠ seq) → s.outLog = [] → fails 1) ∧
      (∀ e r, seq ≠ 0 → (tenantOf s ten).faults = [] → entriesWhere s (fun e => e.op.tenant == ten && e.seq == seq && e.auto == 0 && e.st == 0) = e :: r →
        ((act = 0 ∨ act = 3) → e.code ∈ only12 → fails 2) ∧
        (act = 1 ∨ (act ≠ 2 ∧ e.code ∉ only12 ∧ (act = 3 ∨ e.notReplay = false)) → ∃ t, Claims.Does i s t ∧
          (coreOf t e.op.core).log = (coreOf s e.op.core).log.map (fun x => if x.id = e.id then { x with st := 1, action := act } else x)))) ∧
    (∀ tid lead x g, s.arg.who = .gang tid lead → findTeam s tid = some x →
      let u := setChange s x.core (portNum x (lead / 8))
      theGang u tid lead = some g →
      (gambitTest u g.team g.grid lead = none → Claims.Does .gambitEntry s u) ∧
      (∀ o b, gambitTest u g.team g.grid lead = some (o, b) → ∃ t y, Claims.Does .gambitEntry s t ∧ findTeam t tid = some y ∧
        (∃ e ∈ y.gambit, e.lead = lead ∧ e.snap = cohortOf g.team lead ∧ e.blockOp = o.id ∧ e.issued = 0) ∧
        (∀ sl ∈ y.slices, sl.1 ∈ (cohortOf g.team lead).map Prod.fst → sl.2.st = .ahead))) ∧
    (∀ tid lead t, s.arg.who = .gang tid lead → findTeam s tid = some t → (gambitFull t lead = false → Claims.Does .gambitInstructionLimit s s) ∧
      (gambitFull t lead = true → ∃ e u y, episodeOf t lead = some e ∧ Claims.Does .gambitInstructionLimit s u ∧ findTeam u tid = some y ∧ y.gambit = t.gambit.filter (fun x => x.lead ≠ e.lead) ∧
        ∀ p ∈ t.slices, ∀ x, e.snap.find? (fun z => z.1 == p.1) = some x →
          (p.1, { x.2 with st := .scoreboard, inv := [], pend := [], dqPos := p.2.dqPos }) ∈ y.slices)) ∧
    ((∀ t ∈ s.teams, ∀ p ∈ t.episodes, p.2.waiting = [] ∨ now < p.2.opened + p.2.limit) → Claims.Does .regangTimeout s s) ∧
    (∀ t n e, s.teams = [t] → t.episodes = [(n, e)] → e.waiting ≠ [] → e.opened + e.limit ≤ now → ∃ y u, Claims.Does .regangTimeout s u ∧ u.teams = [y] ∧ y.tid = t.tid ∧
      (∀ p ∈ y.slices, p.1 ∈ e.waiting → p.2.st ≠ .regang)) ∧
    (∀ g t d, s.arg.who = .gang g t → (fetch { s with cur := .gang g t } = .gone → Claims.Does .timeTargetReached s s) ∧
      (∀ u, fetch { s with cur := .gang g t } = .held u → Claims.Does .timeTargetReached s s) ∧
      (∀ w u, fetch { s with cur := .gang g t } = .word w u → decodeWord w = some (.wtime d) → exec .timeTargetReached s = exec (.wtime d) u)) ∧
    (∀ t a w u, s.arg.who = .prefect t → fetch { s with cur := .prefect t } = .word w u → decodeWord w = some (.swtime a) → exec .timeTargetReached s = exec (.swtime a) u)
/-! ## The pod: requests, copies, reductions, the hall pass, links, Ultra Ethernet and pod time -/

namespace Sys2Proof.Claims

/-- Range i of the export registers is in use, is of pod domain d, and holds the frame of address pa (R154). -/
def Names (s : State) (d pa i : Nat) : Prop :=
  let a := sysGet s (0x180 + i)
  let b := sysGet s (0x1C0 + i)
  a.getLsbD 0 = true ∧ d ≠ 0 ∧ (b.extractLsb' 48 16).toNat = d ∧ (a.extractLsb' 16 23).toNat ≤ pa / 2 ^ 16 ∧ pa / 2 ^ 16 ≤ (b.extractLsb' 16 23).toNat

/-- This device admits a packet for a tenant: the first export range that its domain and frame name grants every right that its
kind needs, and the frame is not reserved (R154). -/
def Admits (s : State) (p : Packet) (rights : List Nat) (ten : Nat) : Prop :=
  ∃ i < 64, Names s p.domain p.pa i ∧ (∀ j < i, ¬ Names s p.domain p.pa j) ∧ (∀ r ∈ rights, (sysGet s (0x180 + i)).getLsbD r = true) ∧
    reservedFrame s p.pa 1 = false ∧ ten = ((sysGet s (0x180 + i)).extractLsb' 10 6).toNat

/-- A packet joins the end of its port's queue (R150). -/
def joins (s : State) (p : Packet) : State := setQueues s (s.fab.outbox ++ [p])
/-- A packet is handed to the queue of its minimal port; with no such port it is lost (R148). -/
def sent (s : State) (p : Packet) : State :=
  match minPort s p.dst p.pa with
  | none => s
  | some k => joins s { p with port := k }
/-- The packet of a row as it comes in on a port. -/
def came (s : State) : Packet := { s.arg.p with via := 0, input := s.arg.b % 32, headAt := none, blocked := false, level := 0 }

/-- The response to packet p, of this status (R152, R157): it names the request by its tag and generation. -/
def answer (s : State) (p : Packet) (st : Nat) (d : List Byte) : Packet :=
  { src := ownDev s, dst := p.src, die := p.die, tag := p.tag, gen := p.gen, status := st, data := d, rank := p.rank, origin := p.origin, group := p.group, seq := p.seq, code := 18, op := p.code, pa := p.pa, n := d.length }

/-- A request of another device queues at the home slice of its line, under the tenant of the export range (R152, R154). -/
def queued (s : State) (p : Packet) (ten : Nat) (k : L2Kind) : State :=
  let r : L2Req := { id := s.nextId, sl := homeSlice p.pa, pa := p.pa, far := false, kind := k, tenant := ten, mgmt := false, at_ := s.clock.cycle, node := 144, die := homeDie p.pa, cluster := 64 * homeDie p.pa, cls := 0, checked := decide (p.op ≠ 1 ∨ p.code < 16), ref := .pod p, gen := 0, owner := (0, 0) }
  { s with l2q := s.l2q ++ [r], nextId := s.nextId + 1 }

/-- Bytes b are stored at address a of this device: memory, reservations and poison of the sectors (R132, R253). -/
def StoredAt (s t : State) (a : Nat) (b : List Byte) : Prop :=
  (∀ r, r ∈ t.resvs ↔ r ∈ s.resvs ∧ ¬ (0 < b.length ∧ a < 32 * r.sector + 32 ∧ 32 * r.sector < a + b.length)) ∧
  (∀ r, r ∈ t.poison ↔ r ∈ s.poison ∧ ¬ (a ≤ 32 * r ∧ 32 * r + 32 ≤ a + b.length)) ∧
  t = { s with mem := msetAll s.mem a b, resvs := t.resvs, poison := t.poison, l2 := t.l2, buckets := t.buckets }

/-- A delivery counts its bytes into the receiver barrier that it names, if it names one (R128, R164, R410). -/
def Counts (s t : State) (lane n ten : Nat) : Prop :=
  if lane / 2 ^ 14 % 2 = 0 then t = s
  else barAdd s (lane % 64 + 64 * (lane / 64 % 2)) (lane / 2 ^ 8 % 64) n ten = some t

/-- The tag of a request is free again; its generation advances where the request was given up (R156). -/
def Freed (s t : State) (key : Nat) (late : Bool) : Prop :=
  let g := (tget {} key s.fab.tags : ReqTag).gen
  t = { s with fab := { s.fab with tags := tset {} key { gen := if late then (g + 1) % 16 else g } s.fab.tags } }

/-- Ports whose retraining ends with m failed attempts. -/
def linkDone (s : State) (k m : Nat) : State :=
  { s with fab := { s.fab with retraining := s.fab.retraining.filter (fun j => j ≠ k), retrains := tset 0 k m s.fab.retrains } }

/-- A port begins to retrain (R160). -/
def linkBegins (s : State) (k : Nat) : State :=
  if k ∈ s.fab.retraining then s
  else { s with fab := { s.fab with retraining := s.fab.retraining ++ [k], fails := tset 0 k 0 s.fab.fails } }

/-- A 12-bit count of SYS.FAB_CNT goes up by one and stays at its highest value (R175). -/
def Counted (s t : State) (lo : Nat) : Prop :=
  (((sysGet t 0x03F).extractLsb' lo 12).toNat = min (((sysGet s 0x03F).extractLsb' lo 12).toNat + 1) 0xFFF) ∧
  (∀ n, n < 64 → (n < lo ∨ lo + 12 ≤ n) → (sysGet t 0x03F).getLsbD n = (sysGet s 0x03F).getLsbD n) ∧
  (∀ n, n % 4096 ≠ 0x03F → sysGet t n = sysGet s n) ∧ t = { s with sys := t.sys }

/-- Rows of the packets that this device routes by their target, with their codes. -/
def packetRows : List (Instr × Nat) :=
  [(.mcw, 0), (.mco, 1), (.rdn, 2), (.llq, 3), (.scq, 4), (.ctb, 5), (.crs, 6), (.spk, 7), (.passToken, 8), (.ualinkReadRequest, 16), (.ualinkWriteRequest, 17), (.podResponse, 18), (.recoveryAck, 19)]

/-- Device numbers that the router table reaches, in ascending order of the table (R147). -/
def Reaches (s : State) (t : Nat) : Prop := t ≠ ownDev s ∧ ∃ e, (t, e) ∈ s.fab.routes ∧ e.getLsbD 7 = true

end Sys2Proof.Claims

namespace Sys2Proof.Claims

/-- What a request's end with a status does for what waits for it (R152, R156, R166, R352, R219): 0 DONE, 1 EXPORT, 2 EXPIRED, 3
UNREACHABLE, 4 a range lock, 5 a poisoned sector. -/
def Ends (u : State) (T : ReqTag) (st : Nat) (d : List Byte) (t : State) : Prop :=
  let code := match st with | 1 => fcPagePerm | 2 => fcFabricTimeout | 3 => fcFabricTimeout | 4 => fcRangeLock | _ => fcPoison
  let cause := match st with | 1 => 5 | 3 => 1 | _ => 0
  let level := if st = 1 then T.pkt.level else 0
  match T.use with
  | none => False
  | some (.lane op gl none) => t = answerLane u op gl (if st = 0 then .data d else .fault code cause) none
  | some (.lane op gl (some m)) => t = memberDone u op gl m st
  | some (.event ten _ teamId pc word va) =>
    if st = 0 then t = u
    else ∃ asid q, (∀ g, findGrid u T.gid = some g → asid = g.asid ∧ q = g.queue) ∧ t = emit u ten { code, cause, level, issuer := 1, pc, va, asid, teamId, queue := q, word } 0
  | some (.engine op m va) => t = engineDone u op m va T.pkt st d
  | some (.queue q n) =>
    if T.pkt.code = 16 then t = (if st = 0 then queueReadDone u q n (BitVec.ofNat 64 (natLE d)) else queueReadFail u q n)
    else if st = 0 then t = entryDone u q (BitVec.ofNat 32 n) else t = stopQueueAt u q (BitVec.ofNat 32 n) 0x0B
  | some (.grid gid) => (findGrid u gid = none → t = u) ∧ ∀ g, findGrid u gid = some g → t = (if st = 0 then gridOver u g else gridStop u g)
  | some (.matrix cl io) => t = mxIoReply u cl io (if st = 0 then none else some (code, cause, level)) d
  | some (.fetch gid pc) => t = codeDone u gid pc (if st = 0 then .inr d else .inl (code, cause, level))
  | some (.zero base) => t = { u with zeros := u.zeros.map (fun z => if z.dev = T.pkt.dst ∧ z.base = base then
      (if st ≤ 1 then { z with reported := true } else { z with begun := false }) else z) }

/-- The pass goes on to the device of next higher number that the router table reaches, or to the lowest one (R171). -/
def PassGoes (s t : State) : Prop :=
  ((∀ d, ¬ Reaches s d) → t = s) ∧
  (∀ d, Reaches s d → (ownDev s < d ∧ (∀ x, Reaches s x → ownDev s < x → d ≤ x)) ∨ ((∀ x, Reaches s x → x < ownDev s ∧ d ≤ x)) →
    t = sent s { code := 8, src := ownDev s, dst := d, seq := s.fab.epoch })

/-- The packets that have stood at the head of a queue for BLOCK microseconds are blocked, those of the recovery lane not
(R171). -/
def marked (s : State) : State :=
  let mark := fun (p : Packet) => if p.via = 0 ∧ (∃ c, p.headAt = some c ∧ c + max 1 ((sysGet s 0x03D).extractLsb' 32 16).toNat * 1000 ≤ s.clock.time.toNat / 64)
    then { p with blocked := true } else p
  { s with fab := { s.fab with outbox := s.fab.outbox.map mark, stalled := s.fab.stalled.map mark } }

/-- The order of recovery of two blocked packets (R172): the older one, then the lower input, then FREQ before FCOL before
FRSP. -/
def Sooner (x y : Packet) : Prop :=
  let chan := fun (p : Packet) => match channelOf p with | 0 => 0 | 2 => 1 | 1 => 2 | c => c
  x.headAt.getD 0 < y.headAt.getD 0 ∨ (x.headAt.getD 0 = y.headAt.getD 0 ∧ (x.input < y.input ∨ (x.input = y.input ∧ chan x ≤ chan y)))

/-- The pass arrives at a device (R172, R173): an older epoch is dropped; a holder keeps its recovery unless the pass is of a
newer epoch; the oldest blocked packet goes on the recovery lane to its target, or into its unit's recovery slot at its target;
with none, the pass goes on. -/
def PassArrives (s t : State) (epoch : Nat) : Prop :=
  let old := 2 ^ 15 ≤ (epoch + 2 ^ 16 - s.fab.epoch % 2 ^ 16) % 2 ^ 16
  let u : State := { s with fab := { s.fab with epoch := epoch % 2 ^ 16, passSeen := s.clock.time.toNat / 64 } }
  (old → t = s) ∧
  (¬ old → s.fab.passHeld ≠ none → epoch % 2 ^ 16 = s.fab.epoch % 2 ^ 16 → t = u) ∧
  (¬ old → s.fab.passHeld = none ∨ epoch % 2 ^ 16 ≠ s.fab.epoch % 2 ^ 16 → let w := marked { u with fab := { u.fab with passHeld := none } }
    (blockedList w = [] → PassGoes w t) ∧
    (∀ b r, blockedList w = b :: r → let q := { b with via := ownDev s + 1, headAt := none, blocked := false }
      (b.dst ≠ ownDev s → minPort s b.dst b.pa = none → PassGoes w t) ∧
      (b.dst ≠ ownDev s → minPort s b.dst b.pa ≠ none →
        Counted (sent (setQueues { w with fab := { w.fab with passHeld := some q } } (w.fab.outbox.erase b)) q) t 24) ∧
      (b.dst = ownDev s → ∃ y, Counted (collIn { w with fab := { w.fab with stalled := w.fab.stalled.erase b } } q) y 24 ∧ PassGoes y t)))

/-- Port k went down: it is no longer up in SYS.FAB_PORTS, its failed retrainings are forgotten, and what had left on it is lost
(R160). -/
def PortIsDown (s t : State) (k : Nat) : Prop :=
  (∀ j < 64, (sysGet t 0x040).getLsbD j = (decide (j ≠ k) && (sysGet s 0x040).getLsbD j)) ∧ (∀ n, n % 4096 ≠ 0x040 → sysGet t n = sysGet s n) ∧
  t = { s with sys := t.sys, fab := { s.fab with retrains := tset 0 k 0 s.fab.retrains, links := tset {} k {} s.fab.links, retraining := s.fab.retraining.filter (fun j => j ≠ k) } }

end Sys2Proof.Claims

/-- R128, R147, R148, R152 to R154, R156, R157, R159, R164 to R166, R168, R169, R352: packets at this device: those for another
device go on by the minimal route; requests are admitted by the export ranges and join the queue of their home slice; copies are
stored in their source's order; contributions and deliveries reach their collective; responses and timeouts end requests. -/
def Obligations.PodPackets : Prop :=
  ∀ (s : State), let p := Claims.came s; let own := p.dst = ownDev s
    let as := fun (c : Nat) => ({ p with code := c } : Packet)
    (∀ i c, (i, c) ∈ Claims.packetRows → ¬ own →
      (minPort s p.dst p.pa ≠ none → Claims.Does i s (Claims.sent s (as c))) ∧
      (minPort s p.dst p.pa = none → c = 8 ∨ c = 18 ∨ c = 19 → Claims.Does i s s) ∧
      (minPort s p.dst p.pa = none → p.src ≠ ownDev s → c ∉ [1, 8, 18, 19] → Claims.Does i s (Claims.sent s (Claims.answer s (as c) 3 []))) ∧
      (∀ rank tag gen, minPort s p.dst p.pa = none → p.src ≠ ownDev s → c = 1 → p.tags = [(rank, tag, gen)] →
        Claims.Does i s (Claims.sent s (Claims.answer s { as 1 with rank, tag, gen } 3 [])))) ∧
    (own → ∀ i c rights k, (i, c, rights, k) ∈
        [(Instr.ualinkReadRequest, 16, [1], L2Kind.read p.n), (.ualinkWriteRequest, 17, [2], .write ((p.data.take p.n).zipIdx.map (fun x => (p.pa + x.2, x.1)))),
         (.llq, 3, [1, 2, 3], .ll (2 ^ 64 * (p.src + 1) + p.lane) p.n), (.scq, 4, [1, 2, 3], .sc (2 ^ 64 * (p.src + 1) + p.lane) (p.data.take p.n))] ++
        (if 32 ≤ p.op then [] else [(.rdn, 2, [1, 2, 3], .atom p.op p.n p.data false)]) →
      (∀ ten, Claims.Admits s p rights ten → Claims.Does i s (Claims.queued s (as c) ten k)) ∧
      ((∀ ten, ¬ Claims.Admits s p rights ten) → Claims.Does i s (Claims.sent s (Claims.answer s (as c) 1 [])))) ∧
    (own → 32 ≤ p.op → let rights := if p.op % 2 = 0 then [2] else [1, 2, 3]; let v := BitVec.ofNat 64 (natAt p.data 0 8)
      let locked := 34 ≤ p.op ∧ lockBlocks s p.pa 8 true = true
      ((∀ ten, ¬ Claims.Admits s p rights ten) → Claims.Does .rdn s (Claims.sent s (Claims.answer s (as 2) 1 []))) ∧
      (∀ ten, Claims.Admits s p rights ten → locked → Claims.Does .rdn s (Claims.sent s (Claims.answer s (as 2) 4 []))) ∧
      (∀ ten, Claims.Admits s p rights ten → ¬ locked → ∃ w, Claims.Does .rdn s (Claims.sent w (Claims.answer s (as 2) 0 [])) ∧
        w.mem = msetAll s.mem p.pa (bytesLE 8 (if p.op % 2 = 1 then mem64 s p.pa + v else v).toNat) ∧
        (∀ q, queueOf w q = { queueOf s q with recheck := (queueOf s q).recheck || (match (queueOf s q).waitPa with | some a => a / 32 == p.pa / 32 | none => false) }) ∧
        w.teams = s.teams ∧ w.fab = s.fab)) ∧
    (own → let n := tget 0 p.src s.fab.seqFrom
      let u : State := { s with fab := { s.fab with seqFrom := tset 0 p.src (n + 1) s.fab.seqFrom } }
      let next := p.seq = n ∧ ∀ h ∈ s.fab.held, h.src = p.src → h.seq ≠ n ∧ h.seq ≠ n + 1
      let free := fun (pa : Nat) => p.op = 1 ∨ lockBlocks s pa p.data.length true = false
      (∀ i c, (i, c) ∈ [(Instr.mcw, 0), (.mco, 1)] → (∀ h ∈ s.fab.held, h.src = p.src → h.seq ≠ n) → p.seq ≠ n →
        Claims.Does i s { s with fab := { s.fab with held := s.fab.held ++ [as c] } }) ∧
      (next → p.op ≠ 1 → lockBlocks s p.pa p.data.length true = true → Claims.Does .mcw s { s with fab := { s.fab with held := s.fab.held ++ [as 0] } }) ∧
      (next → free p.pa → p.origin ≠ ownDev s + 1 → (∀ ten, ¬ Claims.Admits s p [2] ten) → Claims.Does .mcw s (Claims.sent u (Claims.answer s (as 0) 1 []))) ∧
      (next → free p.pa → p.origin ≠ ownDev s + 1 → ∀ ten, Claims.Admits s p [2] ten → ∃ v, Claims.StoredAt u v p.pa p.data ∧
        (∀ w, Claims.Counts v w p.lane p.data.length ten → Claims.Does .mcw s (Claims.sent w (Claims.answer s (as 0) 0 []))) ∧
        (p.lane / 2 ^ 14 % 2 = 1 → barAdd v (p.lane % 64 + 64 * (p.lane / 64 % 2)) (p.lane / 2 ^ 8 % 64) p.data.length ten = none →
          Claims.Does .mcw s (Claims.sent v (Claims.answer s (as 0) 1 [])))) ∧
      (next → p.tags = [] → Claims.Does .mco s u) ∧
      (next → ∀ rank tag gen, p.tags = [(rank, tag, gen)] → let r : Packet := { as 1 with rank, tag, gen, origin := 0 }
        (groupAny s p.group = none → Claims.Does .mco s (Claims.sent u (Claims.answer s r 1 []))) ∧
        (∀ g, groupAny s p.group = some g → let m := g.members.getD rank (0, 0); let pa := m.2 + p.pa
          (m.1 = ownDev s → ¬ free pa → Claims.Does .mco s { s with fab := { s.fab with held := s.fab.held ++ [as 1] } }) ∧
          (m.1 = ownDev s → free pa → p.origin ≠ ownDev s + 1 → (∀ ten, ¬ Claims.Admits s { p with pa } [2] ten) → Claims.Does .mco s (Claims.sent u (Claims.answer s r 1 []))) ∧
          (m.1 = ownDev s → free pa → p.origin ≠ ownDev s + 1 → p.lane / 2 ^ 14 % 2 = 0 → ∀ ten, Claims.Admits s { p with pa } [2] ten → ∃ v, Claims.StoredAt u v pa p.data ∧
            Claims.Does .mco s (Claims.sent v (Claims.answer s r 0 []))) ∧
          (m.1 ≠ ownDev s → minPort s m.1 pa = none → Claims.Does .mco s (Claims.sent u (Claims.answer s r 3 []))) ∧
          (∀ k, m.1 ≠ ownDev s → minPort s m.1 pa = some k → (∀ q ∈ s.fab.relayQ, q.dst ≠ m.1) → podWindow s m.1 < 64 →
            let x := tget 0 m.1 s.fab.seqTo
            let q : Packet := { p with code := 0, src := ownDev s, dst := m.1, tag, gen, rank, pa, origin := p.src + 1, tags := [], via := 0, input := 33, seq := x, port := k }
            Claims.Does .mco s (Claims.sent { u with fab := { u.fab with relays := s.fab.relays ++ [q], seqTo := tset 0 m.1 (x + 1) s.fab.seqTo } } q))))) ∧
    let room := ((s.fab.nodes.filter (fun n => n.block % 8 == p.index % 8)).map (fun n => 4 * n.data.length)).sum +
      ((s.fab.pendingDel.filter (fun q => q.index % 8 == p.index % 8)).map (fun q => q.data.length)).sum + p.data.length ≤ 2 ^ 18
    let waits := fun (c : Nat) => ({ s with fab := { s.fab with stalled := s.fab.stalled ++ [{ as c with headAt := some (s.clock.time.toNat / 64) }] } } : State)
    (own → let u : State := { s with fab := { s.fab with nodes := s.fab.nodes ++ [{ group := p.group, seq := p.seq, block := p.index, node := p.rank, width := p.n, data := (List.range (p.data.length / 4)).map (fun i => BitVec.ofNat 32 (natAt p.data (4 * i) 4)) }] } }
      (¬ room → Claims.Does .ctb s (waits 5)) ∧
      (room →
        (collOp s p.group p.seq = none → Claims.Does .ctb s (Claims.sent u (Claims.answer s (as 5) 0 []))) ∧
        (∀ o, collOp s p.group p.seq = some o → Claims.Does .ctb s (runOp (Claims.sent u (Claims.answer s (as 5) 0 [])) o.id)))) ∧
    (own →
      (collOp s p.group p.seq = none → ∀ i c, (i, c) ∈ [(Instr.crs, 6), (.spk, 7)] → (¬ room → Claims.Does i s (waits c)) ∧
        (room → Claims.Does i s { s with fab := { s.fab with pendingDel := s.fab.pendingDel ++ [as c] } })) ∧
      (∀ o, collOp s p.group p.seq = some o →
        (∀ a, ownWindow s o ((if o.ty = 8 then p.rank * o.glen else 0) + 4096 * p.index) = some a →
          ((∀ ten, ¬ Claims.Admits s { p with pa := a } [2] ten) → Claims.Does .crs s (runOp (Claims.sent s (Claims.answer s (as 6) 1 [])) o.id)) ∧
          (∀ ten, Claims.Admits s { p with pa := a } [2] ten → o.recv / 2 ^ 14 % 2 = 0 → ∃ v, Claims.StoredAt s v a p.data ∧
            Claims.Does .crs s (runOp (Claims.sent (updEop v o.id (fun x => { x with delivered := x.delivered + 1 })) (Claims.answer s (as 6) 0 [])) o.id))) ∧
        (∀ a, ownWindow s o (o.elBytes * p.index) = some a →
          ((∀ ten, ¬ Claims.Admits s { p with pa := a } [2] ten) → Claims.Does .spk s (runOp (Claims.sent s (Claims.answer s (as 7) 1 [])) o.id)) ∧
          (∀ ten, Claims.Admits s { p with pa := a } [2] ten → let l := s.fab.sparse ++ [as 7]
            (l.filter (fun x => x.group == p.group && x.seq == p.seq && x.rank == o.delivered / sparseCount o)).length < sparseCount o →
            Claims.Does .spk s (runOp (Claims.sent { s with fab := { s.fab with sparse := l } } (Claims.answer s (as 7) 0 [])) o.id))))) ∧
    (own → p.origin = 0 → let key := 4096 * p.die + p.tag; let T : ReqTag := tget {} key s.fab.tags
      (T.use = none ∨ T.gen ≠ p.gen → ∃ t, Claims.Does .podResponse s t ∧ Claims.Counted s t 48) ∧
      (T.use ≠ none → T.gen = p.gen → ∃ x u, Claims.Does .podResponse s (relayPump 64 x T.dev) ∧ Claims.Freed s u key false ∧ Claims.Ends u T p.status p.data x)) ∧
    (let late := fun (x : Nat × ReqTag) => x.2.use ≠ none ∧ (∃ c, x.2.sentAt = some c ∧ c + x.2.timeout ≤ s.clock.time.toNat / 64) ∧ (s.arg.a = 0 ∨ x.1 + 1 = s.arg.a)
     ((∀ x ∈ s.fab.tags, ¬ late x) → Claims.Does .fabricTimeout s s) ∧
     (∀ l key T r, s.fab.tags = l ++ (key, T) :: r → (∀ x ∈ l, ¬ late x) → late (key, T) → tget {} key s.fab.tags = T →
       ∃ x u, Claims.Does .fabricTimeout s (relayPump 64 x T.dev) ∧ Claims.Freed s u key true ∧ Claims.Ends u T 2 [] x))

/-- R160, R161, R171 to R173, R175 to R178, R509: the recovery lane and its pass, bad and blocked packets, links that replay, retrain
and go down, Ultra Ethernet packets, and pod time. -/
def Obligations.HallPassLinksAndTime : Prop :=
  ∀ (s : State), let p := Claims.came s; let r : Packet := { p with via := s.arg.p.via }; let k := s.arg.a % 32
    let ack : Packet := { code := 19, src := ownDev s, dst := r.via - 1, die := r.die, tag := r.tag, gen := r.gen, pa := r.pa, rank := r.rank, op := r.code }
    ((s.fab.routes.map Prod.fst).Pairwise (· < ·) → p.dst = ownDev s → ∃ t, Claims.Does .passToken s t ∧ Claims.PassArrives s t p.seq) ∧
    (p.dst ≠ ownDev s → Claims.Does .rcv s (Claims.sent s r)) ∧
    (p.dst = ownDev s → Claims.Does .rcv s (Claims.sent (arrive s r) ack)) ∧
    (p.dst = ownDev s → r.via ≠ 0 → p.code = 5 → collOp s p.group p.seq = none →
      let u : State := { s with fab := { s.fab with nodes := s.fab.nodes ++ [{ group := p.group, seq := p.seq, block := p.index, node := p.rank, width := p.n, data := (List.range (p.data.length / 4)).map (fun i => BitVec.ofNat 32 (natAt p.data (4 * i) 4)) }] } }
      Claims.Does .rcv s (Claims.sent (Claims.sent u (Claims.answer s p 0 [])) ack)) ∧
    (p.dst = ownDev s → s.fab.passHeld = none → Claims.Does .recoveryAck s s) ∧
    (∀ q, p.dst = ownDev s → s.fab.passHeld = some q →
      let its := p.src = q.dst ∧ p.die = q.die ∧ p.tag = q.tag ∧ p.gen = q.gen ∧ p.pa = q.pa ∧ p.rank = q.rank ∧ p.op = q.code
      (¬ its → Claims.Does .recoveryAck s s) ∧
      (its → (s.fab.routes.map Prod.fst).Pairwise (· < ·) → ∃ t, Claims.Does .recoveryAck s t ∧
        Claims.PassGoes { s with fab := { s.fab with passHeld := none } } t)) ∧
    (∃ t, Claims.Does .badop s t ∧ Claims.Counted s t 0) ∧
    Claims.Does .packetBlocked s (Claims.marked s) ∧
    ((blockedList s).Perm ((s.fab.outbox ++ s.fab.stalled).filter Packet.blocked) ∧ (blockedList s).Pairwise Claims.Sooner) ∧
    ((∃ d, Claims.Reaches s d ∧ d < ownDev s) ∨ s.clock.time.toNat / 64 < s.fab.passSeen + 10000000 → Claims.Does .passReissue s s) ∧
    ((s.fab.routes.map Prod.fst).Pairwise (· < ·) → (∀ d, Claims.Reaches s d → ownDev s ≤ d) → s.fab.passSeen + 10000000 ≤ s.clock.time.toNat / 64 →
      ∃ t, Claims.Does .passReissue s t ∧ Claims.PassArrives s t ((s.fab.epoch + 1) % 2 ^ 16)) ∧
    (∃ u, Claims.Counted s u 36 ∧ let n := if s.arg.ok = true then 0 else tget 0 k s.fab.fails + 1
      Claims.Does .linkReplay s (if 8 ≤ n then Claims.linkBegins u k else { u with fab := { u.fab with fails := tset 0 k n u.fab.fails } })) ∧
    (∃ u v, u = { s with sys := u.sys } ∧ (∀ j < 64, (sysGet u 0x040).getLsbD j = (decide (j = 32 + k) || (sysGet s 0x040).getLsbD j)) ∧
      (∀ n, n % 4096 ≠ 0x040 → sysGet u n = sysGet s n) ∧ Claims.Records u v 9 6 k 3 ∧ Claims.Does .laneSpareRetrain s (Claims.linkBegins v k)) ∧
    (k ∉ s.fab.retraining → Claims.Does .linkRetrainEnd s s) ∧
    (k ∈ s.fab.retraining → let n := tget 0 k s.fab.retrains + 1
      (s.arg.ok = true → Claims.Does .linkRetrainEnd s (Claims.linkDone s k 0)) ∧
      (s.arg.ok = false → Claims.Does .linkRetrainEnd s { s with fab := { s.fab with retrains := tset 0 k (min n 3) s.fab.retrains } })) ∧
    (tget 0 k s.fab.retrains < 3 → Claims.Does .portDown s s) ∧
    (3 ≤ tget 0 k s.fab.retrains →
      ((∀ q ∈ s.fab.outbox, q.port ≠ k) → ∃ t, Claims.Does .portDown s t ∧ Claims.PortIsDown s t k) ∧
      (∀ q, s.fab.outbox.filter (fun x => x.port == k) = [q] → q.src ≠ ownDev s → ∃ u, Claims.PortIsDown s u k ∧
        let v := setQueues u (s.fab.outbox.erase q)
        (∀ m, minPort u q.dst q.pa = some m → Claims.Does .portDown s (Claims.joins v { q with port := m, headAt := none, blocked := false })) ∧
        (minPort u q.dst q.pa = none → q.code = 8 ∨ q.code = 18 ∨ q.code = 19 → Claims.Does .portDown s v) ∧
        (minPort u q.dst q.pa = none → q.code ∉ [1, 8, 18, 19] → Claims.Does .portDown s (Claims.sent v (Claims.answer s q 3 []))))) ∧
    (Claims.Does .uetPacket s { s with fab := if s.arg.ok = true then { s.fab with uet := s.fab.uet ++ [s.arg.data] } else { s.fab with uetDropped := s.fab.uetDropped + 1 } }) ∧
    (let off := s.arg.v.setWidth 32 - s.clock.pathDelay
     let good := if off.toInt.natAbs ≤ 1024 then s.clock.good + 1 else 0
     let x := BitVec.ofNat 64 s.arg.c
     s.clock.grandmaster = false → ∃ lock, (lock = true ↔ off.toInt.natAbs ≤ 2048 ∧ (s.clock.lock = true ∨ 8 ≤ good)) ∧
       Claims.Does .ptpSync s { s with clock := { s.clock with offset := off, good, lock, time := s.clock.time + (if lock = true then 0 else x),
                                                               rate := if lock = true then max (-(2 ^ 32)) x.toInt else 0 } }) ∧
    (s.clock.grandmaster = false → Claims.Does .ptpDelayResp s { s with clock := { s.clock with pathDelay := s.arg.v.setWidth 32 } }) ∧
    (s.clock.grandmaster = false → Claims.Does .ptpSyncLoss s { s with clock := { s.clock with lock := false, good := 0, rate := 0 } }) ∧
    (∀ i, i ∈ [Instr.ptpSync, .ptpDelayResp, .ptpSyncLoss] → s.clock.grandmaster = true → Claims.Does i s s)
/-! ## Entries of chains and the operations of engines -/

namespace Sys2Proof.Claims

/-- Chain c of engine eng is the one that a chain-entry row names; it may be walked: it has not ended, no fault stops it, and its form
is resident, and no SRAMCFG holds new accesses to the entry's segment (R51, R419, R433, R434). -/
def Walkable (s : State) (eng : Nat) (c : Chain) (f : Form) : Prop :=
  c ∈ (engineOf s eng).chains ∧ (∀ x ∈ (engineOf s eng).chains, x.id = c.id → x = c) ∧ s.arg.a = eng ∧ s.arg.b = c.id ∧ c.id ≠ 0 ∧
  c.ended = false ∧ c.stop = none ∧ findForm s c.fid = some f ∧ f.away = false ∧ offHeld s f c.pos = false

/-- That chain's next entry is the 32 bytes e of its form's SRAM (R419). -/
def Walks (s : State) (eng : Nat) (c : Chain) (e : List Byte) : Prop :=
  ∃ f, Walkable s eng c f ∧ c.pos + 32 ≤ f.cores.length * f.winLen ∧ e = spadRead s f c.pos 32

/-- Engine eng's chain c becomes c'; no other chain changes. -/
def ChainBecomes (s t : State) (eng : Nat) (c c' : Chain) : Prop :=
  ∀ j, engineOf t j = if j = eng then { chains := (engineOf s eng).chains.map (fun x => if x.id = c.id then c' else x) } else engineOf s j

/-- A chain whose entry cannot be read or is malformed stops with ILLEGAL, cause ENTRY, issuer an engine, at the entry's offset
(R431, R433). -/
def ChainStops (s t : State) (eng : Nat) (c : Chain) (failed : Bool) : Prop :=
  ∃ u q, u = { s with engines := u.engines, nextId := s.nextId + 1 } ∧ ChainBecomes s u eng c { c with stop := some s.nextId, bad := !failed, failed } ∧
    (∀ g, findGrid s c.gid = some g → q = g.queue) ∧
    t = emit (addWait u c.tenant ⟨s.nextId, 0, fcIllegal, 2, c.gid, .chain eng c.id⟩) c.tenant { code := fcIllegal, cause := 2, issuer := 2, pc := BitVec.ofNat 64 c.pos, asid := c.asid, resumable := true, teamId := c.teamId, queue := q } s.nextId

/-- The chain-entry rows with their entry types (Table 14.4). -/
def entryRows : List (Instr × Nat) :=
  [(.endEntry, 0), (.copyEntry, 1), (.copyt, 2), (.gather, 3), (.scatter, 4), (.mcast, 5), (.allred, 6), (.redscat, 7), (.allgath, 8), (.sparsek, 9), (.ckout, 10), (.ckin, 11), (.signalEntry, 12), (.waitbc, 13), (.loopEntry, 14), (.ifbc, 15)]

/-- The entry may be performed now: well formed, of this type, and, where it is ORDERED, behind no open operation of its chain
(R419, R431). -/
def EntryGoes (s : State) (eng : Nat) (c : Chain) (e : List Byte) (ty : Nat) : Prop :=
  Walks s eng c e ∧ entryOk s eng c e = true ∧ natAt e 0 1 = ty ∧ (natAt e 1 1 % 2 = 1 → c.open_ = [])

/-- A free barrier that the entry names becomes its tenant's, and a free tag bit; nothing else changes (R409, R410). -/
def Claimed (s u : State) (c : Chain) (e : List Byte) : Prop :=
  u = { s with cores := u.cores, clusters := u.clusters } ∧ (∀ k, (coreOf u k).tags = (coreOf s k).tags) ∧
  (∀ cl k, (barOf u cl k).count = (barOf s cl k).count ∧ (barOf u cl k).arm = (barOf s cl k).arm) ∧
  (natAt e 0 1 = 13 ∨ natAt e 0 1 = 15 → (barOf u (clusterOfCore c.core) (natAt e 3 1)).owner = some c.tenant)

/-- An operation that chain c of an engine starts with entry e, loop offsets applied: a collective but MCAST takes the next
sequence number of its group (R408, R419, R420, R427). -/
def Started (s u : State) (eng : Nat) (c : Chain) (e : List Byte) (o : EngOp) : Prop :=
  ∃ v, Claimed s v c e ∧
    let e' := offsetEntry c e
    let g := natAt e' 16 8 % 2 ^ 10
    let coll := 6 ≤ natAt e 0 1 ∧ natAt e 0 1 ≤ 9
    let n := tget 0 g s.fab.colSeq
    o = { id := s.nextId, eng, chain := c.id, fid := c.fid, gid := c.gid, tid := c.tid, core := c.core, tenant := c.tenant, asid := c.asid, teamId := c.teamId, det := c.det, entry := e', off := c.pos, seq := if coll then some n else none, since := s.clock.time.toNat / 64 } ∧
    u.ops = s.ops ++ [o] ∧ ChainBecomes s u eng c { c with pos := c.pos + 32, open_ := c.open_ ++ [s.nextId] } ∧
    u = { v with ops := u.ops, engines := u.engines, nextId := s.nextId + 1, fab := { s.fab with colSeq := if coll then tset 0 g (n + 1) s.fab.colSeq else s.fab.colSeq } }

/-- An operation that has just started, of an entry of this type in this form's SRAM. -/
def JustStarted (s : State) (o : EngOp) (ty : Nat) (f : Form) : Prop :=
  findEop s o.id = some o ∧ natAt o.entry 0 1 = ty ∧ o.phase = 0 ∧ o.unit = 0 ∧ o.ranges = none ∧ o.held = [] ∧ o.wrote = 0 ∧ o.asked = false ∧
  o.mstat = [] ∧ findForm s o.fid = some f ∧ f.away = false ∧ f.out = false ∧ natAt o.entry 4 1 / 8 % 4 = 3 ∧ cfgWaits s o.cluster = []

/-- Its one unit is done: n bytes of the form's SRAM are stored at another place of it, and the operation is complete. -/
def Moved (s : State) (o : EngOp) (f : Form) (src dst n : Nat) : Prop :=
  (runOp s o.id).clusters = (spadWrite s f dst (spadRead s f src n)).clusters ∧
  findEop (runOp s o.id) o.id = some { o with phase := 2, unit := 1, ranges := some [] }

end Sys2Proof.Claims

/-- R407 to R411, R418 to R420, R427, R430 to R432, R434: what an engine does with the next entry of a chain. -/
def Obligations.ChainEntries : Prop :=
  ∀ (s : State) (eng : Nat) (c : Chain) (e : List Byte),
    (∀ i ty, (i, ty) ∈ Claims.entryRows →
      ((engineOf s s.arg.a).chains = [] → Claims.Does i s s) ∧
      (∀ f, (engineOf s s.arg.a).chains = [c] → findForm s c.fid = some f → offHeld s f c.pos = true → Claims.Does i s s) ∧
      (∀ f, Claims.Walkable s eng c f → f.cores.length * f.winLen < c.pos + 32 → ∃ t, Claims.Does i s t ∧ Claims.ChainStops s t eng c true) ∧
      (Claims.Walks s eng c e → entryOk s eng c e = false → ∃ t, Claims.Does i s t ∧ Claims.ChainStops s t eng c false) ∧
      (Claims.Walks s eng c e → entryOk s eng c e = true → natAt e 1 1 % 2 = 1 → c.open_ ≠ [] → Claims.Does i s s)) ∧
    (entryOk s eng c e = true →
      (if eng < 128 then natAt e 0 1 ∈ [0, 1, 2, 5, 10, 11, 12, 13, 14, 15] else if eng < 256 then natAt e 0 1 ∈ [0, 3, 4, 12, 13, 14, 15]
        else natAt e 0 1 ∈ [0, 1, 5, 6, 7, 8, 9, 12, 13, 14, 15]) ∧
      natAt e 1 1 < 32 ∧ natAt e 2 1 < 64 ∧ natAt e 3 1 < 64 ∧ (natAt e 0 1 ∈ [1, 10, 11] → 1 ≤ natAt e 24 8 ∧ natAt e 24 8 ≤ 2 ^ 32) ∧
      (natAt e 0 1 = 14 → 1 ≤ natAt e 12 4 ∧ natAt e 12 4 ≤ 255) ∧ (natAt e 0 1 ∈ [3, 4] → 1 ≤ natAt e 6 2)) ∧
    (Claims.EntryGoes s eng c e 0 → ∃ t, Claims.Does .endEntry s t ∧ t = { s with engines := t.engines } ∧
      (c.open_ ≠ [] → Claims.ChainBecomes s t eng c { c with ended := true }) ∧
      (c.open_ = [] → ∀ j, engineOf t j = if j = eng then { chains := (engineOf s eng).chains.filter (fun x => x.id ≠ c.id) } else engineOf s j)) ∧
    (Claims.EntryGoes s eng c e 12 → c.det = none → imageOfTeam s c.tid = none → (barOf s (clusterOfCore c.core) (natAt e 3 1)).arm = none →
      ∃ t, Claims.Does .signalEntry s t ∧ Claims.ChainBecomes s t eng c { c with pos := c.pos + 32 } ∧
      (∀ k, (coreOf t k).tags = if k = c.core ∧ natAt e 1 1 / 2 % 2 = 1 then (coreOf s k).tags ||| BitVec.ofNat 64 (2 ^ natAt e 2 1) else (coreOf s k).tags) ∧
      (barOf t (clusterOfCore c.core) (natAt e 3 1)).count = (barOf s (clusterOfCore c.core) (natAt e 3 1)).count + (if natAt e 1 1 / 4 % 2 = 1 then BitVec.ofNat 32 (natAt e 8 4) else 0) ∧
      t.mem = s.mem ∧ t.teams = s.teams ∧ t.ops = s.ops) ∧
    (∀ i ty, (i, ty) ∈ [(Instr.waitbc, 13), (.ifbc, 15)] → Claims.EntryGoes s eng c e ty → ∃ u, Claims.Claimed s u c e ∧
      let there := ((barOf s (clusterOfCore c.core) (natAt e 3 1)).count - BitVec.ofNat 32 (natAt e 8 4)).toNat < 2 ^ 31
      (ty = 13 → ¬ there → Claims.Does i s u) ∧
      (ty = 15 ∨ there → ∃ t, Claims.Does i s t ∧ t = { u with engines := t.engines } ∧
        Claims.ChainBecomes s t eng c { c with pos := c.pos + 32 * (if there then 1 else 1 + natAt e 12 4) })) ∧
    (Claims.EntryGoes s eng c e 14 → let back := natAt e 12 4
      let pass := match c.loops.find? (fun l => l.at_ == c.pos) with | some l => l.pass | none => 0
      let more := pass + 1 < natAt e 8 4
      let me : LoopSt := { at_ := c.pos, pass := if more then pass + 1 else 0, back, incs := BitVec.ofNat 64 (natAt e 16 8), incd := BitVec.ofNat 64 (natAt e 24 8) }
      let l := c.loops.filter (fun x => x.at_ ≠ c.pos) ++ [me]
      (loopsOk c l = true → ∃ t, Claims.Does .loopEntry s t ∧ t = { s with engines := t.engines } ∧
        Claims.ChainBecomes s t eng c { c with loops := l, pos := if more then c.pos - 32 * back else c.pos + 32 }) ∧
      (loopsOk c l = false → ∃ t, Claims.Does .loopEntry s t ∧ Claims.ChainStops s t eng c false) ∧
      (c.loops = [] → (loopsOk c l = true ↔ c.headOff + 32 * back ≤ c.pos))) ∧
    (∀ i ty, (i, ty) ∈ Claims.entryRows → 1 ≤ ty → ty ≤ 11 → Claims.EntryGoes s eng c e ty → let busy := (s.ops.filter (fun o => o.eng == eng)).length
      (32 ≤ busy → Claims.Does i s s) ∧
      (busy < 32 → ∃ u o, Claims.Started s u eng c e o ∧ Claims.Does i s (runOp (if 6 ≤ ty ∧ ty ≤ 9 then drainDeliveries 4096 u else u) o.id))) ∧
    (e.length = 32 → let act := c.loops.filter (fun l => decide (l.pass ≠ 0 ∧ l.at_ ≤ c.pos + 32 * l.back ∧ c.pos < l.at_)); let e' := offsetEntry c e
      (∀ x n, x + n ≤ 8 → natAt e' x n = natAt e x n) ∧ natAt e' 24 8 = natAt e 24 8 ∧
      natAt e' 8 8 = (natAt e 8 8 + (act.map (fun l => l.incs.toNat * l.pass)).sum) % 2 ^ 64 ∧
      (natAt e 0 1 ∉ [5, 6, 7, 8, 9] → natAt e' 16 8 = (natAt e 16 8 + (act.map (fun l => l.incd.toNat * l.pass)).sum) % 2 ^ 64) ∧
      (natAt e 0 1 ∈ [5, 6, 7, 8, 9] → natAt e' 16 8 % 2 ^ 10 = natAt e 16 8 % 2 ^ 10 ∧
        natAt e' 16 8 / 2 ^ 10 = (natAt e 16 8 / 2 ^ 10 + (act.map (fun l => l.incd.toNat * l.pass)).sum % 2 ^ 64) % 2 ^ 54))

/-- R85, R86, R93, R126, R222, R421, R422, R425, R432: an operation's transfer inside form SRAM, its locks, and its completion. -/
def Obligations.EngineOperations : Prop :=
  ∀ (s : State) (o : EngOp) (f : Form),
    let inside := fun (a n : Nat) => a + n ≤ f.cores.length * f.winLen ∧ a + n ≤ 2 ^ 62
    let w := fun (k : Nat) => natAt o.entry (8 * k) 8
    (Claims.JustStarted s o 1 f → 1 ≤ w 3 → w 2 % 128 + w 3 ≤ 128 → inside (w 1) (w 3) → inside (w 2) (w 3) → w 1 + w 3 ≤ w 2 ∨ w 2 + w 3 ≤ w 1 →
      Claims.Moved s o f (w 1) (w 2) (w 3)) ∧
    (let x := natLE (spadRead s f (w 2) 4); let z := 2 ^ (natAt o.entry 5 1 % 16)
     natAt o.entry 6 2 = 1 → natAt o.entry 5 1 ≤ 12 → inside (w 2) 4 →
      (Claims.JustStarted s o 3 f → inside (w 1 + x * z) z → inside (w 3) z → Claims.Moved s o f (w 1 + x * z) (w 3) z) ∧
      (Claims.JustStarted s o 4 f → natAt o.entry 1 1 / 16 % 2 = 0 → inside (w 1) z → inside (w 3 + x * z) z → Claims.Moved s o f (w 1) (w 3 + x * z) z)) ∧
    (∀ i, i ∈ [Instr.engineLockGrant, .ckoutGrant, .ckoutTimeout, .engineOperationComplete] → s.ops = [] → Claims.Does i s s) ∧
    (o ∈ s.ops → (∀ x ∈ s.ops, x.id = o.id → x = o) → s.arg.a = o.id → o.id ≠ 0 → let ckout := natAt o.entry 0 1 = 10 ∧ o.phase = 0
      (o.phase ≤ 1 → ¬ ckout → Claims.Does .engineLockGrant s (runOp s o.id)) ∧
      (2 ≤ o.phase ∨ ckout → Claims.Does .engineLockGrant s s) ∧
      (ckout → Claims.Does .ckoutGrant s (runOp s o.id)) ∧
      (¬ ckout → Claims.Does .ckoutGrant s s) ∧
      (let m := ((tsysGet s o.tenant 0x02A).extractLsb' 0 16).toNat
       let late := ckout ∧ o.ranges ≠ none ∧ m ≠ 0 ∧ o.since + 1000 * m ≤ s.clock.time.toNat / 64
       (¬ late → Claims.Does .ckoutTimeout s s) ∧
       (late → o.queue = none → ∃ t, Claims.Does .ckoutTimeout s t ∧
         t.ops = s.ops.map (fun x => if x.id = o.id then { o with phase := 3, stop := some s.nextId, ranges := none, waits := none, unit := 0, held := [], wrote := 0, asked := false, walked := 0, heldFaults := [] } else x) ∧
         (∀ x, x ∈ t.ck ↔ x ∈ s.ck ∧ x.op ≠ o.id) ∧ (∃ r ∈ (tenantOf t o.tenant).faults, r.id = s.nextId ∧ r.code = fcCkout ∧ r.cause = 1))) ∧
      (o.phase ≠ 2 → Claims.Does .engineOperationComplete s s) ∧
      (o.phase = 2 → o.queue = none → ∃ t, Claims.Does .engineOperationComplete s t ∧ (∀ x, x ∈ t.ops ↔ x ∈ s.ops ∧ x.id ≠ o.id) ∧
        (natAt o.entry 0 1 ≠ 11 → ∀ x, x ∈ t.ck ↔ x ∈ s.ck ∧ ¬ (x.op = o.id ∧ x.mode = 3)) ∧
        (∀ k x, x ∈ (engineOf t k).chains → x.id = o.chain → k = o.eng → o.id ∉ x.open_) ∧
        (natAt o.entry 1 1 / 2 % 2 = 1 → imageOfTeam s o.tid = none → (∃ m ∈ s.teams, m.core = o.core ∧ tenantOfGrid s m.gid = some o.tenant) → o.det = none →
          (coreOf t o.core).tags.getLsbD (natAt o.entry 2 1 % 64) = true)) ∧
      (∀ q n, o.phase = 2 → o.queue = some (q, n) → natAt o.tensor 32 8 = 0 → ∃ u, Claims.Does .engineOperationComplete s (entryDone u q n) ∧
        (∀ x, x ∈ u.ops ↔ x ∈ s.ops ∧ x.id ≠ o.id) ∧ (∀ x, x ∈ u.ck ↔ x ∈ s.ck ∧ x.op ≠ o.id) ∧ u = { s with ops := u.ops, ck := u.ck, twins := u.twins }))

/-! ## Encodings and the machine as a whole -/

/-- Tables 10.5 to 10.9, 12.12, 13.11, 14.5, 15.2, 18.7: worked words of the spec, byte by byte, decode to the instructions
that stand beside them. -/
def Obligations.DecodeWords : Prop :=
  decode [0x05, 0x00, 0x8C, 0xC0] = .ok (.bra 2 3 5, []) ∧
  decode [0x08, 0x20, 0x02, 0xC6] = .ok (.gaddi 1 1 8, []) ∧
  decode [0x00, 0x04, 0x85, 0xA8] = .ok (.ld 1 5 2 0 0, []) ∧
  decode [0x09, 0x01, 0x02, 0xB8] = .ok (.atom 0 0 8 2 9, []) ∧
  decode [0x24, 0x03, 0x10, 0xC9] = .ok (.fence 3 2 4, []) ∧
  decode [0x02, 0x80, 0x00, 0xCC] = .ok (.chain 4 2, []) ∧
  decode [0x05, 0x60, 0xA4, 0xCC] = .ok (.bcwait 2 3 5, []) ∧
  decode [0x24, 0x48, 0x31, 0xE4] = .ok (.mma 5 8 9, []) ∧
  decode [0xFF, 0x3B, 0x0B, 0xD8] = .ok (.sld 11 14 0x3FF, []) ∧
  decode [0x00, 0x0D, 0x40, 0xE0] = .ok (.swtime 13, [])

/-- Tables 10.4 to 10.9: the bytes of every well-formed instruction are four, and decode to it with all of its operands,
whatever follows them. -/
def Obligations.EncodingRoundTrip : Prop :=
  ∀ (i : Instr) (rest : List Byte), i.wellFormed = true → ∃ b, encode i = some b ∧ b.length = 4 ∧ decode (b ++ rest) = .ok (i, rest)

/-- R8, R25, R139, R190, R230, R293, R298, R316: a turn of an issuer that its scheduler picks executes the instruction that the four
bytes at its program counter encode, on the machine that fetched it, once its count and its banks let it; an issuer that has
issued begins at age 0, and the further parts of a fused gang follow in the same cycle; a word that is no instruction raises
ILLEGAL; a turn of an event performs its row. -/
def Obligations.StepRunsDecoded : Prop :=
  (∀ (s : State) (dt : Nat) (who : Issuer) (rest : List Turn), s.agenda = .issue dt who :: rest →
    let s0 : State := { s with agenda := rest }
    let x := enter s0 (.issue dt who) dt (portUsed s0 who)
    mayIssue x who = false → step s = .next x) ∧
  (∀ (s : State) (dt tid lead : Nat) (rest : List Turn) (g : Gang) (e : W64) (lev : Nat),
    let who := Issuer.gang tid lead
    s.agenda = .issue dt who :: rest →
    let s0 : State := { s with agenda := rest }
    let x := enter s0 (.issue dt who) dt (portUsed s0 who)
    let u : State := { x with cur := who }
    mayIssue x who = true → theGang u tid lead = some g → g.issues = true → saveHolds u g.team.fid none = false → g.ahead = false →
    g.pc.toNat % 4 = 0 → canonical g.pc = true → tlbTry u g.team.core g.grid.asid g.grid.tenant g.pc .fetch = some (.ok e lev) →
    pteFar e = false → isOwnDev u (pteDev e) = true → poisoned u (leafPa e lev g.pc) 4 = false →
    mgetAll u.mem (leafPa e lev g.pc) 4 = mgetAll g.grid.snap (leafPa e lev g.pc) 4 →
    let b := mgetAll u.mem (leafPa e lev g.pc) 4
    let w : W32 := BitVec.ofNat 32 (natLE b)
    let due := gangWaits g.team lead = true ∨ earliest u g w ≤ u.clock.cycle
    (∀ i, decode b = .ok (i, []) → due → let v := beforeExec u i w
      ∀ t, exec i { v with word := w } = .next t →
        let y := if notIssued t who then t else schedIssued t who
        step s = .next (if restOf v who = [] then y else { y with agenda := restOf v who ++ y.agenda })) ∧
    (∀ i, decode b = .ok (i, []) → ¬ due → step s = .next (deferGang u g (earliest u g w))) ∧
    ((∀ i, decode b ≠ .ok (i, [])) → step s = .next (illegalGang { u with word := w } g))) ∧
  (∀ (s : State) (dt tid : Nat) (rest : List Turn) (p : Pref) (e : W64) (lev : Nat),
    let who := Issuer.prefect tid
    s.agenda = .issue dt who :: rest →
    let s0 : State := { s with agenda := rest }
    let x := enter s0 (.issue dt who) dt (portUsed s0 who)
    let u : State := { x with cur := who }
    mayIssue x who = true → thePref u tid = some p → prefIssues p.team.pf = true → saveHolds u p.team.fid (some p.team.pf) = false →
    p.team.pf.pc.toNat % 4 = 0 → canonical p.team.pf.pc = true →
    tlbTry u p.team.core p.grid.asid p.grid.tenant p.team.pf.pc .fetch = some (.ok e lev) →
    pteFar e = false → isOwnDev u (pteDev e) = true → poisoned u (leafPa e lev p.team.pf.pc) 4 = false →
    mgetAll u.mem (leafPa e lev p.team.pf.pc) 4 = mgetAll p.grid.snap (leafPa e lev p.team.pf.pc) 4 →
    let b := mgetAll u.mem (leafPa e lev p.team.pf.pc) 4
    let v : State := { u with word := BitVec.ofNat 32 (natLE b) }
    (∀ i, decode b = .ok (i, []) → ∀ t, exec i v = .next t →
      step s = .next (if notIssued t who then t else schedIssued t who)) ∧
    ((∀ i, decode b ≠ .ok (i, [])) → step s = .next (illegalPref v p))) ∧
  (∀ (s : State) (who : Issuer) (rest : List Turn), s.agenda = .part who :: rest →
    (fetch { s with agenda := rest, cur := who } = .gone → step s = .next { s with agenda := rest }) ∧
    (∀ w v i t, fetch { s with agenda := rest, cur := who } = .word w v → decodeWord w = some i → exec i { v with word := w } = .next t →
      step s = .next (if notIssued t who then t else schedIssued t who))) ∧
  (∀ (s : State) (dt : Nat) (ev : Instr) (a : EvArg) (rest : List Turn), s.agenda = .event dt ev a :: rest → isEvent ev = true →
    step s = exec ev { enter { s with agenda := rest } (.event dt ev a) dt false with arg := a })

/-- R290, R316: a Prefect that meets an instruction of majors 0x01 to 0x33, a gang that meets one of majors 0x34 to 0x3B, and
either that meets an encoding with a field out of its limits, raise ILLEGAL and do nothing else. -/
def Obligations.IllegalEncodings : Prop :=
  ∀ (i : Instr) (w : W32), encodeWord i = some w →
    (w.toNat / 2 ^ 26 < 0x34 → ∀ s p, PrefReady s p → exec i s = .next (illegalPref s p)) ∧
    (0x34 ≤ w.toNat / 2 ^ 26 → ∀ s g, GangReady s g → exec i s = .next (illegalGang s g)) ∧
    (i.wellFormed = false → (w.toNat / 2 ^ 26 < 0x34 → ∀ s g, GangReady s g → exec i s = .next (illegalGang s g)) ∧
      (0x34 ≤ w.toNat / 2 ^ 26 → ∀ s p, PrefReady s p → exec i s = .next (illegalPref s p)))

/-- R243, R250, R290: no instruction and no event stops the machine: it answers a next state always, but for the turn of an
issuer that does not exist. -/
def Obligations.ExecAlwaysAnswers : Prop :=
  ∀ (i : Instr) (s : State), (∃ t, exec i s = .next t) ∨ exec i s = .fault .noIssuer

/-- The memory keeps its canonical form at every step: addresses strictly rising, and no byte listed that reads as an unlisted
one does. -/
def Obligations.MemInvKept : Prop := ∀ (s t : State), MemInv s → step s = .next t → MemInv t
/-! ## Reset -/

namespace Sys2Proof.Claims

/-- Registers of the package, a die or a tenant whose tables state a reset value other than 0, with that value. -/
def resetTable : List (Nat × Nat) :=
  [(0x002, 31 * 2 ^ 16 + 1023), (0x022, 2 ^ 16 + 400), (0x026, 20 * 2 ^ 16 + 3), (0x027, 1), (0x02A, 1000), (0x030, 50 * 2 ^ 16), (0x033, 2 ^ 64 - 1), (0x034, 2 ^ 64 - 1),
   (0x039, 10 * 2 ^ 52 + 100 * 2 ^ 40 + 100 * 2 ^ 28 + 1024 * 2 ^ 16 + 200), (0x03D, 0x55555555), (0x03E, 1000 * 2 ^ 48 + 20 * 2 ^ 32 + 512 * 2 ^ 20 + 256 * 2 ^ 8 + 1), (0x043, 8)]

end Sys2Proof.Claims

/-- What reset leaves: every system register at the value that its table states, a tenant's limits at the whole of its range, every
other register 0; no binding of an ASID loaded (R515), every queue DISABLED (R210), no grid, form, team, operation or fault; memory in
its canonical form, every byte 0 (the model's choice, assumption 2). -/
def Obligations.ResetValues : Prop :=
  (∀ n v, (n, v) ∈ Claims.resetTable → sysGet State.reset n = BitVec.ofNat 64 v ∧ ∀ t, tsysGet State.reset t n = BitVec.ofNat 64 v) ∧
  (∀ n, 0x100 ≤ n → n < 0x140 → sysGet State.reset n = BitVec.ofNat 64 (0xFFFFFF * 2 ^ 40)) ∧
  (∀ n, n < 4096 → n ∉ Claims.resetTable.map Prod.fst → (n < 0x100 ∨ 0x140 ≤ n) → sysGet State.reset n = 0 ∧ ∀ t, tsysGet State.reset t n = 0) ∧
  (∀ a, (bindOf State.reset a).valid = false) ∧ (∀ q, (queueOf State.reset q).state = 0) ∧
  State.reset.grids = [] ∧ State.reset.forms = [] ∧ State.reset.teams = [] ∧ State.reset.memops = [] ∧ State.reset.ops = [] ∧
  (∀ t, (tenantOf State.reset t).faults = []) ∧ State.reset.fab.outbox = [] ∧ State.reset.clock.lock = false ∧
  MemInv State.reset ∧ ∀ a, mget State.reset.mem a = 0
end

