-- ==== Sys2Proof/Laws/State.lean ====
section
/-! SUPPORT. What each update of one part of the machine leaves as it was: one lemma per update and field. -/

namespace Sys2Proof.Machine

variable (s : State)

@[simp] theorem updTeam_agenda (tid : Nat) (f : Team → Team) : (updTeam s tid f).agenda = s.agenda := rfl
@[simp] theorem updTeam_cur (tid : Nat) (f : Team → Team) : (updTeam s tid f).cur = s.cur := rfl
@[simp] theorem updTeam_arg (tid : Nat) (f : Team → Team) : (updTeam s tid f).arg = s.arg := rfl
@[simp] theorem updTeam_word (tid : Nat) (f : Team → Team) : (updTeam s tid f).word = s.word := rfl
@[simp] theorem updTeam_fresh (tid : Nat) (f : Team → Team) : (updTeam s tid f).fresh = s.fresh := rfl
@[simp] theorem updTeam_nextId (tid : Nat) (f : Team → Team) : (updTeam s tid f).nextId = s.nextId := rfl
@[simp] theorem updTeam_clock (tid : Nat) (f : Team → Team) : (updTeam s tid f).clock = s.clock := rfl
@[simp] theorem updTeam_mem (tid : Nat) (f : Team → Team) : (updTeam s tid f).mem = s.mem := rfl
@[simp] theorem updTeam_poison (tid : Nat) (f : Team → Team) : (updTeam s tid f).poison = s.poison := rfl
@[simp] theorem updTeam_l2 (tid : Nat) (f : Team → Team) : (updTeam s tid f).l2 = s.l2 := rfl
@[simp] theorem updTeam_l2q (tid : Nat) (f : Team → Team) : (updTeam s tid f).l2q = s.l2q := rfl
@[simp] theorem updTeam_buckets (tid : Nat) (f : Team → Team) : (updTeam s tid f).buckets = s.buckets := rfl
@[simp] theorem updTeam_lastMgmt (tid : Nat) (f : Team → Team) : (updTeam s tid f).lastMgmt = s.lastMgmt := rfl
@[simp] theorem updTeam_resvs (tid : Nat) (f : Team → Team) : (updTeam s tid f).resvs = s.resvs := rfl
@[simp] theorem updTeam_ck (tid : Nat) (f : Team → Team) : (updTeam s tid f).ck = s.ck := rfl
@[simp] theorem updTeam_twins (tid : Nat) (f : Team → Team) : (updTeam s tid f).twins = s.twins := rfl
@[simp] theorem updTeam_rdc (tid : Nat) (f : Team → Team) : (updTeam s tid f).rdc = s.rdc := rfl
@[simp] theorem updTeam_rdcGen0 (tid : Nat) (f : Team → Team) : (updTeam s tid f).rdcGen0 = s.rdcGen0 := rfl
@[simp] theorem updTeam_rdcGen1 (tid : Nat) (f : Team → Team) : (updTeam s tid f).rdcGen1 = s.rdcGen1 := rfl
@[simp] theorem updTeam_rdcSize0 (tid : Nat) (f : Team → Team) : (updTeam s tid f).rdcSize0 = s.rdcSize0 := rfl
@[simp] theorem updTeam_rdcSize1 (tid : Nat) (f : Team → Team) : (updTeam s tid f).rdcSize1 = s.rdcSize1 := rfl
@[simp] theorem updTeam_rdcNext0 (tid : Nat) (f : Team → Team) : (updTeam s tid f).rdcNext0 = s.rdcNext0 := rfl
@[simp] theorem updTeam_rdcNext1 (tid : Nat) (f : Team → Team) : (updTeam s tid f).rdcNext1 = s.rdcNext1 := rfl
@[simp] theorem updTeam_sys (tid : Nat) (f : Team → Team) : (updTeam s tid f).sys = s.sys := rfl
@[simp] theorem updTeam_tsys (tid : Nat) (f : Team → Team) : (updTeam s tid f).tsys = s.tsys := rfl
@[simp] theorem updTeam_tenants (tid : Nat) (f : Team → Team) : (updTeam s tid f).tenants = s.tenants := rfl
@[simp] theorem updTeam_binds (tid : Nat) (f : Team → Team) : (updTeam s tid f).binds = s.binds := rfl
@[simp] theorem updTeam_rebind (tid : Nat) (f : Team → Team) : (updTeam s tid f).rebind = s.rebind := rfl
@[simp] theorem updTeam_queues (tid : Nat) (f : Team → Team) : (updTeam s tid f).queues = s.queues := rfl
@[simp] theorem updTeam_grids (tid : Nat) (f : Team → Team) : (updTeam s tid f).grids = s.grids := rfl
@[simp] theorem updTeam_forms (tid : Nat) (f : Team → Team) : (updTeam s tid f).forms = s.forms := rfl
@[simp] theorem updTeam_clusters (tid : Nat) (f : Team → Team) : (updTeam s tid f).clusters = s.clusters := rfl
@[simp] theorem updTeam_cores (tid : Nat) (f : Team → Team) : (updTeam s tid f).cores = s.cores := rfl
@[simp] theorem updTeam_memops (tid : Nat) (f : Team → Team) : (updTeam s tid f).memops = s.memops := rfl
@[simp] theorem updTeam_outLog (tid : Nat) (f : Team → Team) : (updTeam s tid f).outLog = s.outLog := rfl
@[simp] theorem updTeam_engines (tid : Nat) (f : Team → Team) : (updTeam s tid f).engines = s.engines := rfl
@[simp] theorem updTeam_ops (tid : Nat) (f : Team → Team) : (updTeam s tid f).ops = s.ops := rfl
@[simp] theorem updTeam_slates (tid : Nat) (f : Team → Team) : (updTeam s tid f).slates = s.slates := rfl
@[simp] theorem updTeam_zeros (tid : Nat) (f : Team → Team) : (updTeam s tid f).zeros = s.zeros := rfl
@[simp] theorem updTeam_flips (tid : Nat) (f : Team → Team) : (updTeam s tid f).flips = s.flips := rfl
@[simp] theorem updTeam_flipped (tid : Nat) (f : Team → Team) : (updTeam s tid f).flipped = s.flipped := rfl
@[simp] theorem updTeam_syncs (tid : Nat) (f : Team → Team) : (updTeam s tid f).syncs = s.syncs := rfl
@[simp] theorem updTeam_synced (tid : Nat) (f : Team → Team) : (updTeam s tid f).synced = s.synced := rfl
@[simp] theorem updTeam_fars (tid : Nat) (f : Team → Team) : (updTeam s tid f).fars = s.fars := rfl
@[simp] theorem updTeam_fab (tid : Nat) (f : Team → Team) : (updTeam s tid f).fab = s.fab := rfl
@[simp] theorem updTeam_mgt (tid : Nat) (f : Team → Team) : (updTeam s tid f).mgt = s.mgt := rfl

@[simp] theorem updForm_agenda (fid : Nat) (f : Form → Form) : (updForm s fid f).agenda = s.agenda := rfl
@[simp] theorem updForm_cur (fid : Nat) (f : Form → Form) : (updForm s fid f).cur = s.cur := rfl
@[simp] theorem updForm_arg (fid : Nat) (f : Form → Form) : (updForm s fid f).arg = s.arg := rfl
@[simp] theorem updForm_word (fid : Nat) (f : Form → Form) : (updForm s fid f).word = s.word := rfl
@[simp] theorem updForm_fresh (fid : Nat) (f : Form → Form) : (updForm s fid f).fresh = s.fresh := rfl
@[simp] theorem updForm_nextId (fid : Nat) (f : Form → Form) : (updForm s fid f).nextId = s.nextId := rfl
@[simp] theorem updForm_clock (fid : Nat) (f : Form → Form) : (updForm s fid f).clock = s.clock := rfl
@[simp] theorem updForm_mem (fid : Nat) (f : Form → Form) : (updForm s fid f).mem = s.mem := rfl
@[simp] theorem updForm_poison (fid : Nat) (f : Form → Form) : (updForm s fid f).poison = s.poison := rfl
@[simp] theorem updForm_l2 (fid : Nat) (f : Form → Form) : (updForm s fid f).l2 = s.l2 := rfl
@[simp] theorem updForm_l2q (fid : Nat) (f : Form → Form) : (updForm s fid f).l2q = s.l2q := rfl
@[simp] theorem updForm_buckets (fid : Nat) (f : Form → Form) : (updForm s fid f).buckets = s.buckets := rfl
@[simp] theorem updForm_lastMgmt (fid : Nat) (f : Form → Form) : (updForm s fid f).lastMgmt = s.lastMgmt := rfl
@[simp] theorem updForm_resvs (fid : Nat) (f : Form → Form) : (updForm s fid f).resvs = s.resvs := rfl
@[simp] theorem updForm_ck (fid : Nat) (f : Form → Form) : (updForm s fid f).ck = s.ck := rfl
@[simp] theorem updForm_twins (fid : Nat) (f : Form → Form) : (updForm s fid f).twins = s.twins := rfl
@[simp] theorem updForm_rdc (fid : Nat) (f : Form → Form) : (updForm s fid f).rdc = s.rdc := rfl
@[simp] theorem updForm_rdcGen0 (fid : Nat) (f : Form → Form) : (updForm s fid f).rdcGen0 = s.rdcGen0 := rfl
@[simp] theorem updForm_rdcGen1 (fid : Nat) (f : Form → Form) : (updForm s fid f).rdcGen1 = s.rdcGen1 := rfl
@[simp] theorem updForm_rdcSize0 (fid : Nat) (f : Form → Form) : (updForm s fid f).rdcSize0 = s.rdcSize0 := rfl
@[simp] theorem updForm_rdcSize1 (fid : Nat) (f : Form → Form) : (updForm s fid f).rdcSize1 = s.rdcSize1 := rfl
@[simp] theorem updForm_rdcNext0 (fid : Nat) (f : Form → Form) : (updForm s fid f).rdcNext0 = s.rdcNext0 := rfl
@[simp] theorem updForm_rdcNext1 (fid : Nat) (f : Form → Form) : (updForm s fid f).rdcNext1 = s.rdcNext1 := rfl
@[simp] theorem updForm_sys (fid : Nat) (f : Form → Form) : (updForm s fid f).sys = s.sys := rfl
@[simp] theorem updForm_tsys (fid : Nat) (f : Form → Form) : (updForm s fid f).tsys = s.tsys := rfl
@[simp] theorem updForm_tenants (fid : Nat) (f : Form → Form) : (updForm s fid f).tenants = s.tenants := rfl
@[simp] theorem updForm_binds (fid : Nat) (f : Form → Form) : (updForm s fid f).binds = s.binds := rfl
@[simp] theorem updForm_rebind (fid : Nat) (f : Form → Form) : (updForm s fid f).rebind = s.rebind := rfl
@[simp] theorem updForm_queues (fid : Nat) (f : Form → Form) : (updForm s fid f).queues = s.queues := rfl
@[simp] theorem updForm_grids (fid : Nat) (f : Form → Form) : (updForm s fid f).grids = s.grids := rfl
@[simp] theorem updForm_teams (fid : Nat) (f : Form → Form) : (updForm s fid f).teams = s.teams := rfl
@[simp] theorem updForm_clusters (fid : Nat) (f : Form → Form) : (updForm s fid f).clusters = s.clusters := rfl
@[simp] theorem updForm_cores (fid : Nat) (f : Form → Form) : (updForm s fid f).cores = s.cores := rfl
@[simp] theorem updForm_memops (fid : Nat) (f : Form → Form) : (updForm s fid f).memops = s.memops := rfl
@[simp] theorem updForm_outLog (fid : Nat) (f : Form → Form) : (updForm s fid f).outLog = s.outLog := rfl
@[simp] theorem updForm_engines (fid : Nat) (f : Form → Form) : (updForm s fid f).engines = s.engines := rfl
@[simp] theorem updForm_ops (fid : Nat) (f : Form → Form) : (updForm s fid f).ops = s.ops := rfl
@[simp] theorem updForm_slates (fid : Nat) (f : Form → Form) : (updForm s fid f).slates = s.slates := rfl
@[simp] theorem updForm_zeros (fid : Nat) (f : Form → Form) : (updForm s fid f).zeros = s.zeros := rfl
@[simp] theorem updForm_flips (fid : Nat) (f : Form → Form) : (updForm s fid f).flips = s.flips := rfl
@[simp] theorem updForm_flipped (fid : Nat) (f : Form → Form) : (updForm s fid f).flipped = s.flipped := rfl
@[simp] theorem updForm_syncs (fid : Nat) (f : Form → Form) : (updForm s fid f).syncs = s.syncs := rfl
@[simp] theorem updForm_synced (fid : Nat) (f : Form → Form) : (updForm s fid f).synced = s.synced := rfl
@[simp] theorem updForm_fars (fid : Nat) (f : Form → Form) : (updForm s fid f).fars = s.fars := rfl
@[simp] theorem updForm_fab (fid : Nat) (f : Form → Form) : (updForm s fid f).fab = s.fab := rfl
@[simp] theorem updForm_mgt (fid : Nat) (f : Form → Form) : (updForm s fid f).mgt = s.mgt := rfl

@[simp] theorem updGrid_agenda (gid : Nat) (f : Grid → Grid) : (updGrid s gid f).agenda = s.agenda := rfl
@[simp] theorem updGrid_cur (gid : Nat) (f : Grid → Grid) : (updGrid s gid f).cur = s.cur := rfl
@[simp] theorem updGrid_arg (gid : Nat) (f : Grid → Grid) : (updGrid s gid f).arg = s.arg := rfl
@[simp] theorem updGrid_word (gid : Nat) (f : Grid → Grid) : (updGrid s gid f).word = s.word := rfl
@[simp] theorem updGrid_fresh (gid : Nat) (f : Grid → Grid) : (updGrid s gid f).fresh = s.fresh := rfl
@[simp] theorem updGrid_nextId (gid : Nat) (f : Grid → Grid) : (updGrid s gid f).nextId = s.nextId := rfl
@[simp] theorem updGrid_clock (gid : Nat) (f : Grid → Grid) : (updGrid s gid f).clock = s.clock := rfl
@[simp] theorem updGrid_mem (gid : Nat) (f : Grid → Grid) : (updGrid s gid f).mem = s.mem := rfl
@[simp] theorem updGrid_poison (gid : Nat) (f : Grid → Grid) : (updGrid s gid f).poison = s.poison := rfl
@[simp] theorem updGrid_l2 (gid : Nat) (f : Grid → Grid) : (updGrid s gid f).l2 = s.l2 := rfl
@[simp] theorem updGrid_l2q (gid : Nat) (f : Grid → Grid) : (updGrid s gid f).l2q = s.l2q := rfl
@[simp] theorem updGrid_buckets (gid : Nat) (f : Grid → Grid) : (updGrid s gid f).buckets = s.buckets := rfl
@[simp] theorem updGrid_lastMgmt (gid : Nat) (f : Grid → Grid) : (updGrid s gid f).lastMgmt = s.lastMgmt := rfl
@[simp] theorem updGrid_resvs (gid : Nat) (f : Grid → Grid) : (updGrid s gid f).resvs = s.resvs := rfl
@[simp] theorem updGrid_ck (gid : Nat) (f : Grid → Grid) : (updGrid s gid f).ck = s.ck := rfl
@[simp] theorem updGrid_twins (gid : Nat) (f : Grid → Grid) : (updGrid s gid f).twins = s.twins := rfl
@[simp] theorem updGrid_rdc (gid : Nat) (f : Grid → Grid) : (updGrid s gid f).rdc = s.rdc := rfl
@[simp] theorem updGrid_rdcGen0 (gid : Nat) (f : Grid → Grid) : (updGrid s gid f).rdcGen0 = s.rdcGen0 := rfl
@[simp] theorem updGrid_rdcGen1 (gid : Nat) (f : Grid → Grid) : (updGrid s gid f).rdcGen1 = s.rdcGen1 := rfl
@[simp] theorem updGrid_rdcSize0 (gid : Nat) (f : Grid → Grid) : (updGrid s gid f).rdcSize0 = s.rdcSize0 := rfl
@[simp] theorem updGrid_rdcSize1 (gid : Nat) (f : Grid → Grid) : (updGrid s gid f).rdcSize1 = s.rdcSize1 := rfl
@[simp] theorem updGrid_rdcNext0 (gid : Nat) (f : Grid → Grid) : (updGrid s gid f).rdcNext0 = s.rdcNext0 := rfl
@[simp] theorem updGrid_rdcNext1 (gid : Nat) (f : Grid → Grid) : (updGrid s gid f).rdcNext1 = s.rdcNext1 := rfl
@[simp] theorem updGrid_sys (gid : Nat) (f : Grid → Grid) : (updGrid s gid f).sys = s.sys := rfl
@[simp] theorem updGrid_tsys (gid : Nat) (f : Grid → Grid) : (updGrid s gid f).tsys = s.tsys := rfl
@[simp] theorem updGrid_tenants (gid : Nat) (f : Grid → Grid) : (updGrid s gid f).tenants = s.tenants := rfl
@[simp] theorem updGrid_binds (gid : Nat) (f : Grid → Grid) : (updGrid s gid f).binds = s.binds := rfl
@[simp] theorem updGrid_rebind (gid : Nat) (f : Grid → Grid) : (updGrid s gid f).rebind = s.rebind := rfl
@[simp] theorem updGrid_queues (gid : Nat) (f : Grid → Grid) : (updGrid s gid f).queues = s.queues := rfl
@[simp] theorem updGrid_forms (gid : Nat) (f : Grid → Grid) : (updGrid s gid f).forms = s.forms := rfl
@[simp] theorem updGrid_teams (gid : Nat) (f : Grid → Grid) : (updGrid s gid f).teams = s.teams := rfl
@[simp] theorem updGrid_clusters (gid : Nat) (f : Grid → Grid) : (updGrid s gid f).clusters = s.clusters := rfl
@[simp] theorem updGrid_cores (gid : Nat) (f : Grid → Grid) : (updGrid s gid f).cores = s.cores := rfl
@[simp] theorem updGrid_memops (gid : Nat) (f : Grid → Grid) : (updGrid s gid f).memops = s.memops := rfl
@[simp] theorem updGrid_outLog (gid : Nat) (f : Grid → Grid) : (updGrid s gid f).outLog = s.outLog := rfl
@[simp] theorem updGrid_engines (gid : Nat) (f : Grid → Grid) : (updGrid s gid f).engines = s.engines := rfl
@[simp] theorem updGrid_ops (gid : Nat) (f : Grid → Grid) : (updGrid s gid f).ops = s.ops := rfl
@[simp] theorem updGrid_slates (gid : Nat) (f : Grid → Grid) : (updGrid s gid f).slates = s.slates := rfl
@[simp] theorem updGrid_zeros (gid : Nat) (f : Grid → Grid) : (updGrid s gid f).zeros = s.zeros := rfl
@[simp] theorem updGrid_flips (gid : Nat) (f : Grid → Grid) : (updGrid s gid f).flips = s.flips := rfl
@[simp] theorem updGrid_flipped (gid : Nat) (f : Grid → Grid) : (updGrid s gid f).flipped = s.flipped := rfl
@[simp] theorem updGrid_syncs (gid : Nat) (f : Grid → Grid) : (updGrid s gid f).syncs = s.syncs := rfl
@[simp] theorem updGrid_synced (gid : Nat) (f : Grid → Grid) : (updGrid s gid f).synced = s.synced := rfl
@[simp] theorem updGrid_fars (gid : Nat) (f : Grid → Grid) : (updGrid s gid f).fars = s.fars := rfl
@[simp] theorem updGrid_fab (gid : Nat) (f : Grid → Grid) : (updGrid s gid f).fab = s.fab := rfl
@[simp] theorem updGrid_mgt (gid : Nat) (f : Grid → Grid) : (updGrid s gid f).mgt = s.mgt := rfl

@[simp] theorem updCore_agenda (c : Nat) (f : Core → Core) : (updCore s c f).agenda = s.agenda := rfl
@[simp] theorem updCore_cur (c : Nat) (f : Core → Core) : (updCore s c f).cur = s.cur := rfl
@[simp] theorem updCore_arg (c : Nat) (f : Core → Core) : (updCore s c f).arg = s.arg := rfl
@[simp] theorem updCore_word (c : Nat) (f : Core → Core) : (updCore s c f).word = s.word := rfl
@[simp] theorem updCore_fresh (c : Nat) (f : Core → Core) : (updCore s c f).fresh = s.fresh := rfl
@[simp] theorem updCore_nextId (c : Nat) (f : Core → Core) : (updCore s c f).nextId = s.nextId := rfl
@[simp] theorem updCore_clock (c : Nat) (f : Core → Core) : (updCore s c f).clock = s.clock := rfl
@[simp] theorem updCore_mem (c : Nat) (f : Core → Core) : (updCore s c f).mem = s.mem := rfl
@[simp] theorem updCore_poison (c : Nat) (f : Core → Core) : (updCore s c f).poison = s.poison := rfl
@[simp] theorem updCore_l2 (c : Nat) (f : Core → Core) : (updCore s c f).l2 = s.l2 := rfl
@[simp] theorem updCore_l2q (c : Nat) (f : Core → Core) : (updCore s c f).l2q = s.l2q := rfl
@[simp] theorem updCore_buckets (c : Nat) (f : Core → Core) : (updCore s c f).buckets = s.buckets := rfl
@[simp] theorem updCore_lastMgmt (c : Nat) (f : Core → Core) : (updCore s c f).lastMgmt = s.lastMgmt := rfl
@[simp] theorem updCore_resvs (c : Nat) (f : Core → Core) : (updCore s c f).resvs = s.resvs := rfl
@[simp] theorem updCore_ck (c : Nat) (f : Core → Core) : (updCore s c f).ck = s.ck := rfl
@[simp] theorem updCore_twins (c : Nat) (f : Core → Core) : (updCore s c f).twins = s.twins := rfl
@[simp] theorem updCore_rdc (c : Nat) (f : Core → Core) : (updCore s c f).rdc = s.rdc := rfl
@[simp] theorem updCore_rdcGen0 (c : Nat) (f : Core → Core) : (updCore s c f).rdcGen0 = s.rdcGen0 := rfl
@[simp] theorem updCore_rdcGen1 (c : Nat) (f : Core → Core) : (updCore s c f).rdcGen1 = s.rdcGen1 := rfl
@[simp] theorem updCore_rdcSize0 (c : Nat) (f : Core → Core) : (updCore s c f).rdcSize0 = s.rdcSize0 := rfl
@[simp] theorem updCore_rdcSize1 (c : Nat) (f : Core → Core) : (updCore s c f).rdcSize1 = s.rdcSize1 := rfl
@[simp] theorem updCore_rdcNext0 (c : Nat) (f : Core → Core) : (updCore s c f).rdcNext0 = s.rdcNext0 := rfl
@[simp] theorem updCore_rdcNext1 (c : Nat) (f : Core → Core) : (updCore s c f).rdcNext1 = s.rdcNext1 := rfl
@[simp] theorem updCore_sys (c : Nat) (f : Core → Core) : (updCore s c f).sys = s.sys := rfl
@[simp] theorem updCore_tsys (c : Nat) (f : Core → Core) : (updCore s c f).tsys = s.tsys := rfl
@[simp] theorem updCore_tenants (c : Nat) (f : Core → Core) : (updCore s c f).tenants = s.tenants := rfl
@[simp] theorem updCore_binds (c : Nat) (f : Core → Core) : (updCore s c f).binds = s.binds := rfl
@[simp] theorem updCore_rebind (c : Nat) (f : Core → Core) : (updCore s c f).rebind = s.rebind := rfl
@[simp] theorem updCore_queues (c : Nat) (f : Core → Core) : (updCore s c f).queues = s.queues := rfl
@[simp] theorem updCore_grids (c : Nat) (f : Core → Core) : (updCore s c f).grids = s.grids := rfl
@[simp] theorem updCore_forms (c : Nat) (f : Core → Core) : (updCore s c f).forms = s.forms := rfl
@[simp] theorem updCore_teams (c : Nat) (f : Core → Core) : (updCore s c f).teams = s.teams := rfl
@[simp] theorem updCore_clusters (c : Nat) (f : Core → Core) : (updCore s c f).clusters = s.clusters := rfl
@[simp] theorem updCore_memops (c : Nat) (f : Core → Core) : (updCore s c f).memops = s.memops := rfl
@[simp] theorem updCore_outLog (c : Nat) (f : Core → Core) : (updCore s c f).outLog = s.outLog := rfl
@[simp] theorem updCore_engines (c : Nat) (f : Core → Core) : (updCore s c f).engines = s.engines := rfl
@[simp] theorem updCore_ops (c : Nat) (f : Core → Core) : (updCore s c f).ops = s.ops := rfl
@[simp] theorem updCore_slates (c : Nat) (f : Core → Core) : (updCore s c f).slates = s.slates := rfl
@[simp] theorem updCore_zeros (c : Nat) (f : Core → Core) : (updCore s c f).zeros = s.zeros := rfl
@[simp] theorem updCore_flips (c : Nat) (f : Core → Core) : (updCore s c f).flips = s.flips := rfl
@[simp] theorem updCore_flipped (c : Nat) (f : Core → Core) : (updCore s c f).flipped = s.flipped := rfl
@[simp] theorem updCore_syncs (c : Nat) (f : Core → Core) : (updCore s c f).syncs = s.syncs := rfl
@[simp] theorem updCore_synced (c : Nat) (f : Core → Core) : (updCore s c f).synced = s.synced := rfl
@[simp] theorem updCore_fars (c : Nat) (f : Core → Core) : (updCore s c f).fars = s.fars := rfl
@[simp] theorem updCore_fab (c : Nat) (f : Core → Core) : (updCore s c f).fab = s.fab := rfl
@[simp] theorem updCore_mgt (c : Nat) (f : Core → Core) : (updCore s c f).mgt = s.mgt := rfl

@[simp] theorem updCluster_agenda (c : Nat) (f : Cluster → Cluster) : (updCluster s c f).agenda = s.agenda := rfl
@[simp] theorem updCluster_cur (c : Nat) (f : Cluster → Cluster) : (updCluster s c f).cur = s.cur := rfl
@[simp] theorem updCluster_arg (c : Nat) (f : Cluster → Cluster) : (updCluster s c f).arg = s.arg := rfl
@[simp] theorem updCluster_word (c : Nat) (f : Cluster → Cluster) : (updCluster s c f).word = s.word := rfl
@[simp] theorem updCluster_fresh (c : Nat) (f : Cluster → Cluster) : (updCluster s c f).fresh = s.fresh := rfl
@[simp] theorem updCluster_nextId (c : Nat) (f : Cluster → Cluster) : (updCluster s c f).nextId = s.nextId := rfl
@[simp] theorem updCluster_clock (c : Nat) (f : Cluster → Cluster) : (updCluster s c f).clock = s.clock := rfl
@[simp] theorem updCluster_mem (c : Nat) (f : Cluster → Cluster) : (updCluster s c f).mem = s.mem := rfl
@[simp] theorem updCluster_poison (c : Nat) (f : Cluster → Cluster) : (updCluster s c f).poison = s.poison := rfl
@[simp] theorem updCluster_l2 (c : Nat) (f : Cluster → Cluster) : (updCluster s c f).l2 = s.l2 := rfl
@[simp] theorem updCluster_l2q (c : Nat) (f : Cluster → Cluster) : (updCluster s c f).l2q = s.l2q := rfl
@[simp] theorem updCluster_buckets (c : Nat) (f : Cluster → Cluster) : (updCluster s c f).buckets = s.buckets := rfl
@[simp] theorem updCluster_lastMgmt (c : Nat) (f : Cluster → Cluster) : (updCluster s c f).lastMgmt = s.lastMgmt := rfl
@[simp] theorem updCluster_resvs (c : Nat) (f : Cluster → Cluster) : (updCluster s c f).resvs = s.resvs := rfl
@[simp] theorem updCluster_ck (c : Nat) (f : Cluster → Cluster) : (updCluster s c f).ck = s.ck := rfl
@[simp] theorem updCluster_twins (c : Nat) (f : Cluster → Cluster) : (updCluster s c f).twins = s.twins := rfl
@[simp] theorem updCluster_rdc (c : Nat) (f : Cluster → Cluster) : (updCluster s c f).rdc = s.rdc := rfl
@[simp] theorem updCluster_rdcGen0 (c : Nat) (f : Cluster → Cluster) : (updCluster s c f).rdcGen0 = s.rdcGen0 := rfl
@[simp] theorem updCluster_rdcGen1 (c : Nat) (f : Cluster → Cluster) : (updCluster s c f).rdcGen1 = s.rdcGen1 := rfl
@[simp] theorem updCluster_rdcSize0 (c : Nat) (f : Cluster → Cluster) : (updCluster s c f).rdcSize0 = s.rdcSize0 := rfl
@[simp] theorem updCluster_rdcSize1 (c : Nat) (f : Cluster → Cluster) : (updCluster s c f).rdcSize1 = s.rdcSize1 := rfl
@[simp] theorem updCluster_rdcNext0 (c : Nat) (f : Cluster → Cluster) : (updCluster s c f).rdcNext0 = s.rdcNext0 := rfl
@[simp] theorem updCluster_rdcNext1 (c : Nat) (f : Cluster → Cluster) : (updCluster s c f).rdcNext1 = s.rdcNext1 := rfl
@[simp] theorem updCluster_sys (c : Nat) (f : Cluster → Cluster) : (updCluster s c f).sys = s.sys := rfl
@[simp] theorem updCluster_tsys (c : Nat) (f : Cluster → Cluster) : (updCluster s c f).tsys = s.tsys := rfl
@[simp] theorem updCluster_tenants (c : Nat) (f : Cluster → Cluster) : (updCluster s c f).tenants = s.tenants := rfl
@[simp] theorem updCluster_binds (c : Nat) (f : Cluster → Cluster) : (updCluster s c f).binds = s.binds := rfl
@[simp] theorem updCluster_rebind (c : Nat) (f : Cluster → Cluster) : (updCluster s c f).rebind = s.rebind := rfl
@[simp] theorem updCluster_queues (c : Nat) (f : Cluster → Cluster) : (updCluster s c f).queues = s.queues := rfl
@[simp] theorem updCluster_grids (c : Nat) (f : Cluster → Cluster) : (updCluster s c f).grids = s.grids := rfl
@[simp] theorem updCluster_forms (c : Nat) (f : Cluster → Cluster) : (updCluster s c f).forms = s.forms := rfl
@[simp] theorem updCluster_teams (c : Nat) (f : Cluster → Cluster) : (updCluster s c f).teams = s.teams := rfl
@[simp] theorem updCluster_cores (c : Nat) (f : Cluster → Cluster) : (updCluster s c f).cores = s.cores := rfl
@[simp] theorem updCluster_memops (c : Nat) (f : Cluster → Cluster) : (updCluster s c f).memops = s.memops := rfl
@[simp] theorem updCluster_outLog (c : Nat) (f : Cluster → Cluster) : (updCluster s c f).outLog = s.outLog := rfl
@[simp] theorem updCluster_engines (c : Nat) (f : Cluster → Cluster) : (updCluster s c f).engines = s.engines := rfl
@[simp] theorem updCluster_ops (c : Nat) (f : Cluster → Cluster) : (updCluster s c f).ops = s.ops := rfl
@[simp] theorem updCluster_slates (c : Nat) (f : Cluster → Cluster) : (updCluster s c f).slates = s.slates := rfl
@[simp] theorem updCluster_zeros (c : Nat) (f : Cluster → Cluster) : (updCluster s c f).zeros = s.zeros := rfl
@[simp] theorem updCluster_flips (c : Nat) (f : Cluster → Cluster) : (updCluster s c f).flips = s.flips := rfl
@[simp] theorem updCluster_flipped (c : Nat) (f : Cluster → Cluster) : (updCluster s c f).flipped = s.flipped := rfl
@[simp] theorem updCluster_syncs (c : Nat) (f : Cluster → Cluster) : (updCluster s c f).syncs = s.syncs := rfl
@[simp] theorem updCluster_synced (c : Nat) (f : Cluster → Cluster) : (updCluster s c f).synced = s.synced := rfl
@[simp] theorem updCluster_fars (c : Nat) (f : Cluster → Cluster) : (updCluster s c f).fars = s.fars := rfl
@[simp] theorem updCluster_fab (c : Nat) (f : Cluster → Cluster) : (updCluster s c f).fab = s.fab := rfl
@[simp] theorem updCluster_mgt (c : Nat) (f : Cluster → Cluster) : (updCluster s c f).mgt = s.mgt := rfl

@[simp] theorem updTenant_agenda (n : Nat) (f : Tenant → Tenant) : (updTenant s n f).agenda = s.agenda := rfl
@[simp] theorem updTenant_cur (n : Nat) (f : Tenant → Tenant) : (updTenant s n f).cur = s.cur := rfl
@[simp] theorem updTenant_arg (n : Nat) (f : Tenant → Tenant) : (updTenant s n f).arg = s.arg := rfl
@[simp] theorem updTenant_word (n : Nat) (f : Tenant → Tenant) : (updTenant s n f).word = s.word := rfl
@[simp] theorem updTenant_fresh (n : Nat) (f : Tenant → Tenant) : (updTenant s n f).fresh = s.fresh := rfl
@[simp] theorem updTenant_nextId (n : Nat) (f : Tenant → Tenant) : (updTenant s n f).nextId = s.nextId := rfl
@[simp] theorem updTenant_clock (n : Nat) (f : Tenant → Tenant) : (updTenant s n f).clock = s.clock := rfl
@[simp] theorem updTenant_mem (n : Nat) (f : Tenant → Tenant) : (updTenant s n f).mem = s.mem := rfl
@[simp] theorem updTenant_poison (n : Nat) (f : Tenant → Tenant) : (updTenant s n f).poison = s.poison := rfl
@[simp] theorem updTenant_l2 (n : Nat) (f : Tenant → Tenant) : (updTenant s n f).l2 = s.l2 := rfl
@[simp] theorem updTenant_l2q (n : Nat) (f : Tenant → Tenant) : (updTenant s n f).l2q = s.l2q := rfl
@[simp] theorem updTenant_buckets (n : Nat) (f : Tenant → Tenant) : (updTenant s n f).buckets = s.buckets := rfl
@[simp] theorem updTenant_lastMgmt (n : Nat) (f : Tenant → Tenant) : (updTenant s n f).lastMgmt = s.lastMgmt := rfl
@[simp] theorem updTenant_resvs (n : Nat) (f : Tenant → Tenant) : (updTenant s n f).resvs = s.resvs := rfl
@[simp] theorem updTenant_ck (n : Nat) (f : Tenant → Tenant) : (updTenant s n f).ck = s.ck := rfl
@[simp] theorem updTenant_twins (n : Nat) (f : Tenant → Tenant) : (updTenant s n f).twins = s.twins := rfl
@[simp] theorem updTenant_rdc (n : Nat) (f : Tenant → Tenant) : (updTenant s n f).rdc = s.rdc := rfl
@[simp] theorem updTenant_rdcGen0 (n : Nat) (f : Tenant → Tenant) : (updTenant s n f).rdcGen0 = s.rdcGen0 := rfl
@[simp] theorem updTenant_rdcGen1 (n : Nat) (f : Tenant → Tenant) : (updTenant s n f).rdcGen1 = s.rdcGen1 := rfl
@[simp] theorem updTenant_rdcSize0 (n : Nat) (f : Tenant → Tenant) : (updTenant s n f).rdcSize0 = s.rdcSize0 := rfl
@[simp] theorem updTenant_rdcSize1 (n : Nat) (f : Tenant → Tenant) : (updTenant s n f).rdcSize1 = s.rdcSize1 := rfl
@[simp] theorem updTenant_rdcNext0 (n : Nat) (f : Tenant → Tenant) : (updTenant s n f).rdcNext0 = s.rdcNext0 := rfl
@[simp] theorem updTenant_rdcNext1 (n : Nat) (f : Tenant → Tenant) : (updTenant s n f).rdcNext1 = s.rdcNext1 := rfl
@[simp] theorem updTenant_sys (n : Nat) (f : Tenant → Tenant) : (updTenant s n f).sys = s.sys := rfl
@[simp] theorem updTenant_tsys (n : Nat) (f : Tenant → Tenant) : (updTenant s n f).tsys = s.tsys := rfl
@[simp] theorem updTenant_binds (n : Nat) (f : Tenant → Tenant) : (updTenant s n f).binds = s.binds := rfl
@[simp] theorem updTenant_rebind (n : Nat) (f : Tenant → Tenant) : (updTenant s n f).rebind = s.rebind := rfl
@[simp] theorem updTenant_queues (n : Nat) (f : Tenant → Tenant) : (updTenant s n f).queues = s.queues := rfl
@[simp] theorem updTenant_grids (n : Nat) (f : Tenant → Tenant) : (updTenant s n f).grids = s.grids := rfl
@[simp] theorem updTenant_forms (n : Nat) (f : Tenant → Tenant) : (updTenant s n f).forms = s.forms := rfl
@[simp] theorem updTenant_teams (n : Nat) (f : Tenant → Tenant) : (updTenant s n f).teams = s.teams := rfl
@[simp] theorem updTenant_clusters (n : Nat) (f : Tenant → Tenant) : (updTenant s n f).clusters = s.clusters := rfl
@[simp] theorem updTenant_cores (n : Nat) (f : Tenant → Tenant) : (updTenant s n f).cores = s.cores := rfl
@[simp] theorem updTenant_memops (n : Nat) (f : Tenant → Tenant) : (updTenant s n f).memops = s.memops := rfl
@[simp] theorem updTenant_outLog (n : Nat) (f : Tenant → Tenant) : (updTenant s n f).outLog = s.outLog := rfl
@[simp] theorem updTenant_engines (n : Nat) (f : Tenant → Tenant) : (updTenant s n f).engines = s.engines := rfl
@[simp] theorem updTenant_ops (n : Nat) (f : Tenant → Tenant) : (updTenant s n f).ops = s.ops := rfl
@[simp] theorem updTenant_slates (n : Nat) (f : Tenant → Tenant) : (updTenant s n f).slates = s.slates := rfl
@[simp] theorem updTenant_zeros (n : Nat) (f : Tenant → Tenant) : (updTenant s n f).zeros = s.zeros := rfl
@[simp] theorem updTenant_flips (n : Nat) (f : Tenant → Tenant) : (updTenant s n f).flips = s.flips := rfl
@[simp] theorem updTenant_flipped (n : Nat) (f : Tenant → Tenant) : (updTenant s n f).flipped = s.flipped := rfl
@[simp] theorem updTenant_syncs (n : Nat) (f : Tenant → Tenant) : (updTenant s n f).syncs = s.syncs := rfl
@[simp] theorem updTenant_synced (n : Nat) (f : Tenant → Tenant) : (updTenant s n f).synced = s.synced := rfl
@[simp] theorem updTenant_fars (n : Nat) (f : Tenant → Tenant) : (updTenant s n f).fars = s.fars := rfl
@[simp] theorem updTenant_fab (n : Nat) (f : Tenant → Tenant) : (updTenant s n f).fab = s.fab := rfl
@[simp] theorem updTenant_mgt (n : Nat) (f : Tenant → Tenant) : (updTenant s n f).mgt = s.mgt := rfl

@[simp] theorem updQueue_agenda (q : Nat) (f : Queue → Queue) : (updQueue s q f).agenda = s.agenda := rfl
@[simp] theorem updQueue_cur (q : Nat) (f : Queue → Queue) : (updQueue s q f).cur = s.cur := rfl
@[simp] theorem updQueue_arg (q : Nat) (f : Queue → Queue) : (updQueue s q f).arg = s.arg := rfl
@[simp] theorem updQueue_word (q : Nat) (f : Queue → Queue) : (updQueue s q f).word = s.word := rfl
@[simp] theorem updQueue_fresh (q : Nat) (f : Queue → Queue) : (updQueue s q f).fresh = s.fresh := rfl
@[simp] theorem updQueue_nextId (q : Nat) (f : Queue → Queue) : (updQueue s q f).nextId = s.nextId := rfl
@[simp] theorem updQueue_clock (q : Nat) (f : Queue → Queue) : (updQueue s q f).clock = s.clock := rfl
@[simp] theorem updQueue_mem (q : Nat) (f : Queue → Queue) : (updQueue s q f).mem = s.mem := rfl
@[simp] theorem updQueue_poison (q : Nat) (f : Queue → Queue) : (updQueue s q f).poison = s.poison := rfl
@[simp] theorem updQueue_l2 (q : Nat) (f : Queue → Queue) : (updQueue s q f).l2 = s.l2 := rfl
@[simp] theorem updQueue_l2q (q : Nat) (f : Queue → Queue) : (updQueue s q f).l2q = s.l2q := rfl
@[simp] theorem updQueue_buckets (q : Nat) (f : Queue → Queue) : (updQueue s q f).buckets = s.buckets := rfl
@[simp] theorem updQueue_lastMgmt (q : Nat) (f : Queue → Queue) : (updQueue s q f).lastMgmt = s.lastMgmt := rfl
@[simp] theorem updQueue_resvs (q : Nat) (f : Queue → Queue) : (updQueue s q f).resvs = s.resvs := rfl
@[simp] theorem updQueue_ck (q : Nat) (f : Queue → Queue) : (updQueue s q f).ck = s.ck := rfl
@[simp] theorem updQueue_twins (q : Nat) (f : Queue → Queue) : (updQueue s q f).twins = s.twins := rfl
@[simp] theorem updQueue_rdc (q : Nat) (f : Queue → Queue) : (updQueue s q f).rdc = s.rdc := rfl
@[simp] theorem updQueue_rdcGen0 (q : Nat) (f : Queue → Queue) : (updQueue s q f).rdcGen0 = s.rdcGen0 := rfl
@[simp] theorem updQueue_rdcGen1 (q : Nat) (f : Queue → Queue) : (updQueue s q f).rdcGen1 = s.rdcGen1 := rfl
@[simp] theorem updQueue_rdcSize0 (q : Nat) (f : Queue → Queue) : (updQueue s q f).rdcSize0 = s.rdcSize0 := rfl
@[simp] theorem updQueue_rdcSize1 (q : Nat) (f : Queue → Queue) : (updQueue s q f).rdcSize1 = s.rdcSize1 := rfl
@[simp] theorem updQueue_rdcNext0 (q : Nat) (f : Queue → Queue) : (updQueue s q f).rdcNext0 = s.rdcNext0 := rfl
@[simp] theorem updQueue_rdcNext1 (q : Nat) (f : Queue → Queue) : (updQueue s q f).rdcNext1 = s.rdcNext1 := rfl
@[simp] theorem updQueue_sys (q : Nat) (f : Queue → Queue) : (updQueue s q f).sys = s.sys := rfl
@[simp] theorem updQueue_tsys (q : Nat) (f : Queue → Queue) : (updQueue s q f).tsys = s.tsys := rfl
@[simp] theorem updQueue_tenants (q : Nat) (f : Queue → Queue) : (updQueue s q f).tenants = s.tenants := rfl
@[simp] theorem updQueue_binds (q : Nat) (f : Queue → Queue) : (updQueue s q f).binds = s.binds := rfl
@[simp] theorem updQueue_rebind (q : Nat) (f : Queue → Queue) : (updQueue s q f).rebind = s.rebind := rfl
@[simp] theorem updQueue_grids (q : Nat) (f : Queue → Queue) : (updQueue s q f).grids = s.grids := rfl
@[simp] theorem updQueue_forms (q : Nat) (f : Queue → Queue) : (updQueue s q f).forms = s.forms := rfl
@[simp] theorem updQueue_teams (q : Nat) (f : Queue → Queue) : (updQueue s q f).teams = s.teams := rfl
@[simp] theorem updQueue_clusters (q : Nat) (f : Queue → Queue) : (updQueue s q f).clusters = s.clusters := rfl
@[simp] theorem updQueue_cores (q : Nat) (f : Queue → Queue) : (updQueue s q f).cores = s.cores := rfl
@[simp] theorem updQueue_memops (q : Nat) (f : Queue → Queue) : (updQueue s q f).memops = s.memops := rfl
@[simp] theorem updQueue_outLog (q : Nat) (f : Queue → Queue) : (updQueue s q f).outLog = s.outLog := rfl
@[simp] theorem updQueue_engines (q : Nat) (f : Queue → Queue) : (updQueue s q f).engines = s.engines := rfl
@[simp] theorem updQueue_ops (q : Nat) (f : Queue → Queue) : (updQueue s q f).ops = s.ops := rfl
@[simp] theorem updQueue_slates (q : Nat) (f : Queue → Queue) : (updQueue s q f).slates = s.slates := rfl
@[simp] theorem updQueue_zeros (q : Nat) (f : Queue → Queue) : (updQueue s q f).zeros = s.zeros := rfl
@[simp] theorem updQueue_flips (q : Nat) (f : Queue → Queue) : (updQueue s q f).flips = s.flips := rfl
@[simp] theorem updQueue_flipped (q : Nat) (f : Queue → Queue) : (updQueue s q f).flipped = s.flipped := rfl
@[simp] theorem updQueue_syncs (q : Nat) (f : Queue → Queue) : (updQueue s q f).syncs = s.syncs := rfl
@[simp] theorem updQueue_synced (q : Nat) (f : Queue → Queue) : (updQueue s q f).synced = s.synced := rfl
@[simp] theorem updQueue_fars (q : Nat) (f : Queue → Queue) : (updQueue s q f).fars = s.fars := rfl
@[simp] theorem updQueue_fab (q : Nat) (f : Queue → Queue) : (updQueue s q f).fab = s.fab := rfl
@[simp] theorem updQueue_mgt (q : Nat) (f : Queue → Queue) : (updQueue s q f).mgt = s.mgt := rfl

@[simp] theorem updEngine_agenda (e : Nat) (f : Engine → Engine) : (updEngine s e f).agenda = s.agenda := rfl
@[simp] theorem updEngine_cur (e : Nat) (f : Engine → Engine) : (updEngine s e f).cur = s.cur := rfl
@[simp] theorem updEngine_arg (e : Nat) (f : Engine → Engine) : (updEngine s e f).arg = s.arg := rfl
@[simp] theorem updEngine_word (e : Nat) (f : Engine → Engine) : (updEngine s e f).word = s.word := rfl
@[simp] theorem updEngine_fresh (e : Nat) (f : Engine → Engine) : (updEngine s e f).fresh = s.fresh := rfl
@[simp] theorem updEngine_nextId (e : Nat) (f : Engine → Engine) : (updEngine s e f).nextId = s.nextId := rfl
@[simp] theorem updEngine_clock (e : Nat) (f : Engine → Engine) : (updEngine s e f).clock = s.clock := rfl
@[simp] theorem updEngine_mem (e : Nat) (f : Engine → Engine) : (updEngine s e f).mem = s.mem := rfl
@[simp] theorem updEngine_poison (e : Nat) (f : Engine → Engine) : (updEngine s e f).poison = s.poison := rfl
@[simp] theorem updEngine_l2 (e : Nat) (f : Engine → Engine) : (updEngine s e f).l2 = s.l2 := rfl
@[simp] theorem updEngine_l2q (e : Nat) (f : Engine → Engine) : (updEngine s e f).l2q = s.l2q := rfl
@[simp] theorem updEngine_buckets (e : Nat) (f : Engine → Engine) : (updEngine s e f).buckets = s.buckets := rfl
@[simp] theorem updEngine_lastMgmt (e : Nat) (f : Engine → Engine) : (updEngine s e f).lastMgmt = s.lastMgmt := rfl
@[simp] theorem updEngine_resvs (e : Nat) (f : Engine → Engine) : (updEngine s e f).resvs = s.resvs := rfl
@[simp] theorem updEngine_ck (e : Nat) (f : Engine → Engine) : (updEngine s e f).ck = s.ck := rfl
@[simp] theorem updEngine_twins (e : Nat) (f : Engine → Engine) : (updEngine s e f).twins = s.twins := rfl
@[simp] theorem updEngine_rdc (e : Nat) (f : Engine → Engine) : (updEngine s e f).rdc = s.rdc := rfl
@[simp] theorem updEngine_rdcGen0 (e : Nat) (f : Engine → Engine) : (updEngine s e f).rdcGen0 = s.rdcGen0 := rfl
@[simp] theorem updEngine_rdcGen1 (e : Nat) (f : Engine → Engine) : (updEngine s e f).rdcGen1 = s.rdcGen1 := rfl
@[simp] theorem updEngine_rdcSize0 (e : Nat) (f : Engine → Engine) : (updEngine s e f).rdcSize0 = s.rdcSize0 := rfl
@[simp] theorem updEngine_rdcSize1 (e : Nat) (f : Engine → Engine) : (updEngine s e f).rdcSize1 = s.rdcSize1 := rfl
@[simp] theorem updEngine_rdcNext0 (e : Nat) (f : Engine → Engine) : (updEngine s e f).rdcNext0 = s.rdcNext0 := rfl
@[simp] theorem updEngine_rdcNext1 (e : Nat) (f : Engine → Engine) : (updEngine s e f).rdcNext1 = s.rdcNext1 := rfl
@[simp] theorem updEngine_sys (e : Nat) (f : Engine → Engine) : (updEngine s e f).sys = s.sys := rfl
@[simp] theorem updEngine_tsys (e : Nat) (f : Engine → Engine) : (updEngine s e f).tsys = s.tsys := rfl
@[simp] theorem updEngine_tenants (e : Nat) (f : Engine → Engine) : (updEngine s e f).tenants = s.tenants := rfl
@[simp] theorem updEngine_binds (e : Nat) (f : Engine → Engine) : (updEngine s e f).binds = s.binds := rfl
@[simp] theorem updEngine_rebind (e : Nat) (f : Engine → Engine) : (updEngine s e f).rebind = s.rebind := rfl
@[simp] theorem updEngine_queues (e : Nat) (f : Engine → Engine) : (updEngine s e f).queues = s.queues := rfl
@[simp] theorem updEngine_grids (e : Nat) (f : Engine → Engine) : (updEngine s e f).grids = s.grids := rfl
@[simp] theorem updEngine_forms (e : Nat) (f : Engine → Engine) : (updEngine s e f).forms = s.forms := rfl
@[simp] theorem updEngine_teams (e : Nat) (f : Engine → Engine) : (updEngine s e f).teams = s.teams := rfl
@[simp] theorem updEngine_clusters (e : Nat) (f : Engine → Engine) : (updEngine s e f).clusters = s.clusters := rfl
@[simp] theorem updEngine_cores (e : Nat) (f : Engine → Engine) : (updEngine s e f).cores = s.cores := rfl
@[simp] theorem updEngine_memops (e : Nat) (f : Engine → Engine) : (updEngine s e f).memops = s.memops := rfl
@[simp] theorem updEngine_outLog (e : Nat) (f : Engine → Engine) : (updEngine s e f).outLog = s.outLog := rfl
@[simp] theorem updEngine_ops (e : Nat) (f : Engine → Engine) : (updEngine s e f).ops = s.ops := rfl
@[simp] theorem updEngine_slates (e : Nat) (f : Engine → Engine) : (updEngine s e f).slates = s.slates := rfl
@[simp] theorem updEngine_zeros (e : Nat) (f : Engine → Engine) : (updEngine s e f).zeros = s.zeros := rfl
@[simp] theorem updEngine_flips (e : Nat) (f : Engine → Engine) : (updEngine s e f).flips = s.flips := rfl
@[simp] theorem updEngine_flipped (e : Nat) (f : Engine → Engine) : (updEngine s e f).flipped = s.flipped := rfl
@[simp] theorem updEngine_syncs (e : Nat) (f : Engine → Engine) : (updEngine s e f).syncs = s.syncs := rfl
@[simp] theorem updEngine_synced (e : Nat) (f : Engine → Engine) : (updEngine s e f).synced = s.synced := rfl
@[simp] theorem updEngine_fars (e : Nat) (f : Engine → Engine) : (updEngine s e f).fars = s.fars := rfl
@[simp] theorem updEngine_fab (e : Nat) (f : Engine → Engine) : (updEngine s e f).fab = s.fab := rfl
@[simp] theorem updEngine_mgt (e : Nat) (f : Engine → Engine) : (updEngine s e f).mgt = s.mgt := rfl

@[simp] theorem updSlices_agenda (tid : Nat) (ns : List Nat) (f : Nat → Slice → Slice) : (updSlices s tid ns f).agenda = s.agenda := rfl
@[simp] theorem updSlices_cur (tid : Nat) (ns : List Nat) (f : Nat → Slice → Slice) : (updSlices s tid ns f).cur = s.cur := rfl
@[simp] theorem updSlices_arg (tid : Nat) (ns : List Nat) (f : Nat → Slice → Slice) : (updSlices s tid ns f).arg = s.arg := rfl
@[simp] theorem updSlices_word (tid : Nat) (ns : List Nat) (f : Nat → Slice → Slice) : (updSlices s tid ns f).word = s.word := rfl
@[simp] theorem updSlices_fresh (tid : Nat) (ns : List Nat) (f : Nat → Slice → Slice) : (updSlices s tid ns f).fresh = s.fresh := rfl
@[simp] theorem updSlices_nextId (tid : Nat) (ns : List Nat) (f : Nat → Slice → Slice) : (updSlices s tid ns f).nextId = s.nextId := rfl
@[simp] theorem updSlices_clock (tid : Nat) (ns : List Nat) (f : Nat → Slice → Slice) : (updSlices s tid ns f).clock = s.clock := rfl
@[simp] theorem updSlices_mem (tid : Nat) (ns : List Nat) (f : Nat → Slice → Slice) : (updSlices s tid ns f).mem = s.mem := rfl
@[simp] theorem updSlices_poison (tid : Nat) (ns : List Nat) (f : Nat → Slice → Slice) : (updSlices s tid ns f).poison = s.poison := rfl
@[simp] theorem updSlices_l2 (tid : Nat) (ns : List Nat) (f : Nat → Slice → Slice) : (updSlices s tid ns f).l2 = s.l2 := rfl
@[simp] theorem updSlices_l2q (tid : Nat) (ns : List Nat) (f : Nat → Slice → Slice) : (updSlices s tid ns f).l2q = s.l2q := rfl
@[simp] theorem updSlices_buckets (tid : Nat) (ns : List Nat) (f : Nat → Slice → Slice) : (updSlices s tid ns f).buckets = s.buckets := rfl
@[simp] theorem updSlices_lastMgmt (tid : Nat) (ns : List Nat) (f : Nat → Slice → Slice) : (updSlices s tid ns f).lastMgmt = s.lastMgmt := rfl
@[simp] theorem updSlices_resvs (tid : Nat) (ns : List Nat) (f : Nat → Slice → Slice) : (updSlices s tid ns f).resvs = s.resvs := rfl
@[simp] theorem updSlices_ck (tid : Nat) (ns : List Nat) (f : Nat → Slice → Slice) : (updSlices s tid ns f).ck = s.ck := rfl
@[simp] theorem updSlices_twins (tid : Nat) (ns : List Nat) (f : Nat → Slice → Slice) : (updSlices s tid ns f).twins = s.twins := rfl
@[simp] theorem updSlices_rdc (tid : Nat) (ns : List Nat) (f : Nat → Slice → Slice) : (updSlices s tid ns f).rdc = s.rdc := rfl
@[simp] theorem updSlices_rdcGen0 (tid : Nat) (ns : List Nat) (f : Nat → Slice → Slice) : (updSlices s tid ns f).rdcGen0 = s.rdcGen0 := rfl
@[simp] theorem updSlices_rdcGen1 (tid : Nat) (ns : List Nat) (f : Nat → Slice → Slice) : (updSlices s tid ns f).rdcGen1 = s.rdcGen1 := rfl
@[simp] theorem updSlices_rdcSize0 (tid : Nat) (ns : List Nat) (f : Nat → Slice → Slice) : (updSlices s tid ns f).rdcSize0 = s.rdcSize0 := rfl
@[simp] theorem updSlices_rdcSize1 (tid : Nat) (ns : List Nat) (f : Nat → Slice → Slice) : (updSlices s tid ns f).rdcSize1 = s.rdcSize1 := rfl
@[simp] theorem updSlices_rdcNext0 (tid : Nat) (ns : List Nat) (f : Nat → Slice → Slice) : (updSlices s tid ns f).rdcNext0 = s.rdcNext0 := rfl
@[simp] theorem updSlices_rdcNext1 (tid : Nat) (ns : List Nat) (f : Nat → Slice → Slice) : (updSlices s tid ns f).rdcNext1 = s.rdcNext1 := rfl
@[simp] theorem updSlices_sys (tid : Nat) (ns : List Nat) (f : Nat → Slice → Slice) : (updSlices s tid ns f).sys = s.sys := rfl
@[simp] theorem updSlices_tsys (tid : Nat) (ns : List Nat) (f : Nat → Slice → Slice) : (updSlices s tid ns f).tsys = s.tsys := rfl
@[simp] theorem updSlices_tenants (tid : Nat) (ns : List Nat) (f : Nat → Slice → Slice) : (updSlices s tid ns f).tenants = s.tenants := rfl
@[simp] theorem updSlices_binds (tid : Nat) (ns : List Nat) (f : Nat → Slice → Slice) : (updSlices s tid ns f).binds = s.binds := rfl
@[simp] theorem updSlices_rebind (tid : Nat) (ns : List Nat) (f : Nat → Slice → Slice) : (updSlices s tid ns f).rebind = s.rebind := rfl
@[simp] theorem updSlices_queues (tid : Nat) (ns : List Nat) (f : Nat → Slice → Slice) : (updSlices s tid ns f).queues = s.queues := rfl
@[simp] theorem updSlices_grids (tid : Nat) (ns : List Nat) (f : Nat → Slice → Slice) : (updSlices s tid ns f).grids = s.grids := rfl
@[simp] theorem updSlices_forms (tid : Nat) (ns : List Nat) (f : Nat → Slice → Slice) : (updSlices s tid ns f).forms = s.forms := rfl
@[simp] theorem updSlices_clusters (tid : Nat) (ns : List Nat) (f : Nat → Slice → Slice) : (updSlices s tid ns f).clusters = s.clusters := rfl
@[simp] theorem updSlices_cores (tid : Nat) (ns : List Nat) (f : Nat → Slice → Slice) : (updSlices s tid ns f).cores = s.cores := rfl
@[simp] theorem updSlices_memops (tid : Nat) (ns : List Nat) (f : Nat → Slice → Slice) : (updSlices s tid ns f).memops = s.memops := rfl
@[simp] theorem updSlices_outLog (tid : Nat) (ns : List Nat) (f : Nat → Slice → Slice) : (updSlices s tid ns f).outLog = s.outLog := rfl
@[simp] theorem updSlices_engines (tid : Nat) (ns : List Nat) (f : Nat → Slice → Slice) : (updSlices s tid ns f).engines = s.engines := rfl
@[simp] theorem updSlices_ops (tid : Nat) (ns : List Nat) (f : Nat → Slice → Slice) : (updSlices s tid ns f).ops = s.ops := rfl
@[simp] theorem updSlices_slates (tid : Nat) (ns : List Nat) (f : Nat → Slice → Slice) : (updSlices s tid ns f).slates = s.slates := rfl
@[simp] theorem updSlices_zeros (tid : Nat) (ns : List Nat) (f : Nat → Slice → Slice) : (updSlices s tid ns f).zeros = s.zeros := rfl
@[simp] theorem updSlices_flips (tid : Nat) (ns : List Nat) (f : Nat → Slice → Slice) : (updSlices s tid ns f).flips = s.flips := rfl
@[simp] theorem updSlices_flipped (tid : Nat) (ns : List Nat) (f : Nat → Slice → Slice) : (updSlices s tid ns f).flipped = s.flipped := rfl
@[simp] theorem updSlices_syncs (tid : Nat) (ns : List Nat) (f : Nat → Slice → Slice) : (updSlices s tid ns f).syncs = s.syncs := rfl
@[simp] theorem updSlices_synced (tid : Nat) (ns : List Nat) (f : Nat → Slice → Slice) : (updSlices s tid ns f).synced = s.synced := rfl
@[simp] theorem updSlices_fars (tid : Nat) (ns : List Nat) (f : Nat → Slice → Slice) : (updSlices s tid ns f).fars = s.fars := rfl
@[simp] theorem updSlices_fab (tid : Nat) (ns : List Nat) (f : Nat → Slice → Slice) : (updSlices s tid ns f).fab = s.fab := rfl
@[simp] theorem updSlices_mgt (tid : Nat) (ns : List Nat) (f : Nat → Slice → Slice) : (updSlices s tid ns f).mgt = s.mgt := rfl

@[simp] theorem sysSet_agenda (n : Nat) (v : W64) : (sysSet s n v).agenda = s.agenda := rfl
@[simp] theorem sysSet_cur (n : Nat) (v : W64) : (sysSet s n v).cur = s.cur := rfl
@[simp] theorem sysSet_arg (n : Nat) (v : W64) : (sysSet s n v).arg = s.arg := rfl
@[simp] theorem sysSet_word (n : Nat) (v : W64) : (sysSet s n v).word = s.word := rfl
@[simp] theorem sysSet_fresh (n : Nat) (v : W64) : (sysSet s n v).fresh = s.fresh := rfl
@[simp] theorem sysSet_nextId (n : Nat) (v : W64) : (sysSet s n v).nextId = s.nextId := rfl
@[simp] theorem sysSet_clock (n : Nat) (v : W64) : (sysSet s n v).clock = s.clock := rfl
@[simp] theorem sysSet_mem (n : Nat) (v : W64) : (sysSet s n v).mem = s.mem := rfl
@[simp] theorem sysSet_poison (n : Nat) (v : W64) : (sysSet s n v).poison = s.poison := rfl
@[simp] theorem sysSet_l2 (n : Nat) (v : W64) : (sysSet s n v).l2 = s.l2 := rfl
@[simp] theorem sysSet_l2q (n : Nat) (v : W64) : (sysSet s n v).l2q = s.l2q := rfl
@[simp] theorem sysSet_buckets (n : Nat) (v : W64) : (sysSet s n v).buckets = s.buckets := rfl
@[simp] theorem sysSet_lastMgmt (n : Nat) (v : W64) : (sysSet s n v).lastMgmt = s.lastMgmt := rfl
@[simp] theorem sysSet_resvs (n : Nat) (v : W64) : (sysSet s n v).resvs = s.resvs := rfl
@[simp] theorem sysSet_ck (n : Nat) (v : W64) : (sysSet s n v).ck = s.ck := rfl
@[simp] theorem sysSet_twins (n : Nat) (v : W64) : (sysSet s n v).twins = s.twins := rfl
@[simp] theorem sysSet_rdc (n : Nat) (v : W64) : (sysSet s n v).rdc = s.rdc := rfl
@[simp] theorem sysSet_rdcGen0 (n : Nat) (v : W64) : (sysSet s n v).rdcGen0 = s.rdcGen0 := rfl
@[simp] theorem sysSet_rdcGen1 (n : Nat) (v : W64) : (sysSet s n v).rdcGen1 = s.rdcGen1 := rfl
@[simp] theorem sysSet_rdcSize0 (n : Nat) (v : W64) : (sysSet s n v).rdcSize0 = s.rdcSize0 := rfl
@[simp] theorem sysSet_rdcSize1 (n : Nat) (v : W64) : (sysSet s n v).rdcSize1 = s.rdcSize1 := rfl
@[simp] theorem sysSet_rdcNext0 (n : Nat) (v : W64) : (sysSet s n v).rdcNext0 = s.rdcNext0 := rfl
@[simp] theorem sysSet_rdcNext1 (n : Nat) (v : W64) : (sysSet s n v).rdcNext1 = s.rdcNext1 := rfl
@[simp] theorem sysSet_tsys (n : Nat) (v : W64) : (sysSet s n v).tsys = s.tsys := rfl
@[simp] theorem sysSet_tenants (n : Nat) (v : W64) : (sysSet s n v).tenants = s.tenants := rfl
@[simp] theorem sysSet_binds (n : Nat) (v : W64) : (sysSet s n v).binds = s.binds := rfl
@[simp] theorem sysSet_rebind (n : Nat) (v : W64) : (sysSet s n v).rebind = s.rebind := rfl
@[simp] theorem sysSet_queues (n : Nat) (v : W64) : (sysSet s n v).queues = s.queues := rfl
@[simp] theorem sysSet_grids (n : Nat) (v : W64) : (sysSet s n v).grids = s.grids := rfl
@[simp] theorem sysSet_forms (n : Nat) (v : W64) : (sysSet s n v).forms = s.forms := rfl
@[simp] theorem sysSet_teams (n : Nat) (v : W64) : (sysSet s n v).teams = s.teams := rfl
@[simp] theorem sysSet_clusters (n : Nat) (v : W64) : (sysSet s n v).clusters = s.clusters := rfl
@[simp] theorem sysSet_cores (n : Nat) (v : W64) : (sysSet s n v).cores = s.cores := rfl
@[simp] theorem sysSet_memops (n : Nat) (v : W64) : (sysSet s n v).memops = s.memops := rfl
@[simp] theorem sysSet_outLog (n : Nat) (v : W64) : (sysSet s n v).outLog = s.outLog := rfl
@[simp] theorem sysSet_engines (n : Nat) (v : W64) : (sysSet s n v).engines = s.engines := rfl
@[simp] theorem sysSet_ops (n : Nat) (v : W64) : (sysSet s n v).ops = s.ops := rfl
@[simp] theorem sysSet_slates (n : Nat) (v : W64) : (sysSet s n v).slates = s.slates := rfl
@[simp] theorem sysSet_zeros (n : Nat) (v : W64) : (sysSet s n v).zeros = s.zeros := rfl
@[simp] theorem sysSet_flips (n : Nat) (v : W64) : (sysSet s n v).flips = s.flips := rfl
@[simp] theorem sysSet_flipped (n : Nat) (v : W64) : (sysSet s n v).flipped = s.flipped := rfl
@[simp] theorem sysSet_syncs (n : Nat) (v : W64) : (sysSet s n v).syncs = s.syncs := rfl
@[simp] theorem sysSet_synced (n : Nat) (v : W64) : (sysSet s n v).synced = s.synced := rfl
@[simp] theorem sysSet_fars (n : Nat) (v : W64) : (sysSet s n v).fars = s.fars := rfl
@[simp] theorem sysSet_fab (n : Nat) (v : W64) : (sysSet s n v).fab = s.fab := rfl
@[simp] theorem sysSet_mgt (n : Nat) (v : W64) : (sysSet s n v).mgt = s.mgt := rfl

@[simp] theorem tsysSet_agenda (n k : Nat) (v : W64) : (tsysSet s n k v).agenda = s.agenda := rfl
@[simp] theorem tsysSet_cur (n k : Nat) (v : W64) : (tsysSet s n k v).cur = s.cur := rfl
@[simp] theorem tsysSet_arg (n k : Nat) (v : W64) : (tsysSet s n k v).arg = s.arg := rfl
@[simp] theorem tsysSet_word (n k : Nat) (v : W64) : (tsysSet s n k v).word = s.word := rfl
@[simp] theorem tsysSet_fresh (n k : Nat) (v : W64) : (tsysSet s n k v).fresh = s.fresh := rfl
@[simp] theorem tsysSet_nextId (n k : Nat) (v : W64) : (tsysSet s n k v).nextId = s.nextId := rfl
@[simp] theorem tsysSet_clock (n k : Nat) (v : W64) : (tsysSet s n k v).clock = s.clock := rfl
@[simp] theorem tsysSet_mem (n k : Nat) (v : W64) : (tsysSet s n k v).mem = s.mem := rfl
@[simp] theorem tsysSet_poison (n k : Nat) (v : W64) : (tsysSet s n k v).poison = s.poison := rfl
@[simp] theorem tsysSet_l2 (n k : Nat) (v : W64) : (tsysSet s n k v).l2 = s.l2 := rfl
@[simp] theorem tsysSet_l2q (n k : Nat) (v : W64) : (tsysSet s n k v).l2q = s.l2q := rfl
@[simp] theorem tsysSet_buckets (n k : Nat) (v : W64) : (tsysSet s n k v).buckets = s.buckets := rfl
@[simp] theorem tsysSet_lastMgmt (n k : Nat) (v : W64) : (tsysSet s n k v).lastMgmt = s.lastMgmt := rfl
@[simp] theorem tsysSet_resvs (n k : Nat) (v : W64) : (tsysSet s n k v).resvs = s.resvs := rfl
@[simp] theorem tsysSet_ck (n k : Nat) (v : W64) : (tsysSet s n k v).ck = s.ck := rfl
@[simp] theorem tsysSet_twins (n k : Nat) (v : W64) : (tsysSet s n k v).twins = s.twins := rfl
@[simp] theorem tsysSet_rdc (n k : Nat) (v : W64) : (tsysSet s n k v).rdc = s.rdc := rfl
@[simp] theorem tsysSet_rdcGen0 (n k : Nat) (v : W64) : (tsysSet s n k v).rdcGen0 = s.rdcGen0 := rfl
@[simp] theorem tsysSet_rdcGen1 (n k : Nat) (v : W64) : (tsysSet s n k v).rdcGen1 = s.rdcGen1 := rfl
@[simp] theorem tsysSet_rdcSize0 (n k : Nat) (v : W64) : (tsysSet s n k v).rdcSize0 = s.rdcSize0 := rfl
@[simp] theorem tsysSet_rdcSize1 (n k : Nat) (v : W64) : (tsysSet s n k v).rdcSize1 = s.rdcSize1 := rfl
@[simp] theorem tsysSet_rdcNext0 (n k : Nat) (v : W64) : (tsysSet s n k v).rdcNext0 = s.rdcNext0 := rfl
@[simp] theorem tsysSet_rdcNext1 (n k : Nat) (v : W64) : (tsysSet s n k v).rdcNext1 = s.rdcNext1 := rfl
@[simp] theorem tsysSet_sys (n k : Nat) (v : W64) : (tsysSet s n k v).sys = s.sys := rfl
@[simp] theorem tsysSet_tenants (n k : Nat) (v : W64) : (tsysSet s n k v).tenants = s.tenants := rfl
@[simp] theorem tsysSet_binds (n k : Nat) (v : W64) : (tsysSet s n k v).binds = s.binds := rfl
@[simp] theorem tsysSet_rebind (n k : Nat) (v : W64) : (tsysSet s n k v).rebind = s.rebind := rfl
@[simp] theorem tsysSet_queues (n k : Nat) (v : W64) : (tsysSet s n k v).queues = s.queues := rfl
@[simp] theorem tsysSet_grids (n k : Nat) (v : W64) : (tsysSet s n k v).grids = s.grids := rfl
@[simp] theorem tsysSet_forms (n k : Nat) (v : W64) : (tsysSet s n k v).forms = s.forms := rfl
@[simp] theorem tsysSet_teams (n k : Nat) (v : W64) : (tsysSet s n k v).teams = s.teams := rfl
@[simp] theorem tsysSet_clusters (n k : Nat) (v : W64) : (tsysSet s n k v).clusters = s.clusters := rfl
@[simp] theorem tsysSet_cores (n k : Nat) (v : W64) : (tsysSet s n k v).cores = s.cores := rfl
@[simp] theorem tsysSet_memops (n k : Nat) (v : W64) : (tsysSet s n k v).memops = s.memops := rfl
@[simp] theorem tsysSet_outLog (n k : Nat) (v : W64) : (tsysSet s n k v).outLog = s.outLog := rfl
@[simp] theorem tsysSet_engines (n k : Nat) (v : W64) : (tsysSet s n k v).engines = s.engines := rfl
@[simp] theorem tsysSet_ops (n k : Nat) (v : W64) : (tsysSet s n k v).ops = s.ops := rfl
@[simp] theorem tsysSet_slates (n k : Nat) (v : W64) : (tsysSet s n k v).slates = s.slates := rfl
@[simp] theorem tsysSet_zeros (n k : Nat) (v : W64) : (tsysSet s n k v).zeros = s.zeros := rfl
@[simp] theorem tsysSet_flips (n k : Nat) (v : W64) : (tsysSet s n k v).flips = s.flips := rfl
@[simp] theorem tsysSet_flipped (n k : Nat) (v : W64) : (tsysSet s n k v).flipped = s.flipped := rfl
@[simp] theorem tsysSet_syncs (n k : Nat) (v : W64) : (tsysSet s n k v).syncs = s.syncs := rfl
@[simp] theorem tsysSet_synced (n k : Nat) (v : W64) : (tsysSet s n k v).synced = s.synced := rfl
@[simp] theorem tsysSet_fars (n k : Nat) (v : W64) : (tsysSet s n k v).fars = s.fars := rfl
@[simp] theorem tsysSet_fab (n k : Nat) (v : W64) : (tsysSet s n k v).fab = s.fab := rfl
@[simp] theorem tsysSet_mgt (n k : Nat) (v : W64) : (tsysSet s n k v).mgt = s.mgt := rfl

end Sys2Proof.Machine
end

