-- ==== Sys2Proof/Laws/Memory.lean ====
section
/-! SUPPORT. Tables and memory: a read after a write, and the canonical form that every operation keeps. -/

namespace Sys2Proof.Machine

variable {α : Type} [DecidableEq α]

omit [DecidableEq α] in
/-- Reading the key just put. -/
@[simp] theorem tget_tput_same (d : α) (k : Nat) (v : α) (t : Tbl α) : tget d k (tput k v t) = v := by
  induction t with
  | nil => simp [tput, tget]
  | cons e r ih =>
    obtain ⟨j, u⟩ := e
    simp only [tput]
    split
    · simp only [tget]; rw [if_neg (by omega)]; exact ih
    · split <;> simp [tget]

omit [DecidableEq α] in
/-- Reading another key than the one put. -/
@[simp] theorem tget_tput_other (d : α) (k j : Nat) (v : α) (t : Tbl α) (h : j ≠ k) : tget d j (tput k v t) = tget d j t := by
  induction t with
  | nil => simp [tput, tget, h.symm]
  | cons e r ih =>
    obtain ⟨i, u⟩ := e
    simp only [tput]
    split
    · simp only [tget, ih]
    · split
      · rename_i h2; subst h2; simp [tget, h.symm]
      · simp [tget, h.symm]

omit [DecidableEq α] in
@[simp] theorem tget_tdel_same (d : α) (k : Nat) (t : Tbl α) : tget d k (tdel k t) = d := by
  induction t with
  | nil => rfl
  | cons e r ih =>
    obtain ⟨i, u⟩ := e
    by_cases h : i = k
    · simpa [tdel, h] using ih
    · simpa [tdel, h, tget] using ih

omit [DecidableEq α] in
@[simp] theorem tget_tdel_other (d : α) (k j : Nat) (t : Tbl α) (h : j ≠ k) : tget d j (tdel k t) = tget d j t := by
  induction t with
  | nil => rfl
  | cons e r ih =>
    obtain ⟨i, u⟩ := e
    by_cases hi : i = k
    · have : ¬ i = j := fun e => h (e ▸ hi)
      simpa [tdel, hi, tget, this, h.symm] using ih
    · by_cases hj : i = j
      · simp [tdel, tget, hj, h]
      · simpa [tdel, hi, tget, hj] using ih

/-- Reading the key just written, and another. -/
@[simp] theorem tget_tset_same (d : α) (k : Nat) (v : α) (t : Tbl α) : tget d k (tset d k v t) = v := by
  unfold tset; split
  · rename_i h; rw [h]; exact tget_tdel_same ..
  · exact tget_tput_same ..
@[simp] theorem tget_tset_other (d : α) (k j : Nat) (v : α) (t : Tbl α) (h : j ≠ k) : tget d j (tset d k v t) = tget d j t := by
  unfold tset; split
  · exact tget_tdel_other _ _ _ _ h
  · exact tget_tput_other _ _ _ _ _ h
theorem tget_tset (d : α) (k j : Nat) (v : α) (t : Tbl α) : tget d j (tset d k v t) = if j = k then v else tget d j t := by
  by_cases h : j = k
  · subst h; simp
  · simp [h]

/-- No key of a canonical table's rest is at or below its first. -/
theorem tcanon_tail {d : α} {e : Nat × α} {r : Tbl α} (h : tcanon d (e :: r) = true) : tcanon d r = true := by
  cases r with
  | nil => rfl
  | cons e' r' => obtain ⟨j, u⟩ := e; obtain ⟨i, x⟩ := e'; simp only [tcanon, Bool.and_eq_true] at h; exact h.2

theorem tcanon_cons {d : α} {j : Nat} {u : α} {r : Tbl α} :
    tcanon d ((j, u) :: r) = true ↔ u ≠ d ∧ (∀ e ∈ r, j < e.1) ∧ tcanon d r = true := by
  induction r generalizing j u with
  | nil => simp [tcanon]
  | cons e r ih =>
    obtain ⟨i, x⟩ := e
    have h2 := ih (j := i) (u := x)
    simp only [tcanon, Bool.and_eq_true, decide_eq_true_eq, List.mem_cons, forall_eq_or_imp]
    constructor
    · rintro ⟨⟨a, b⟩, c⟩
      exact ⟨a, ⟨b, fun e he => Nat.lt_trans b ((h2.1 c).2.1 e he)⟩, c⟩
    · rintro ⟨a, ⟨b, _⟩, c⟩
      exact ⟨⟨a, b⟩, c⟩

omit [DecidableEq α] in
/-- A key of a table after a put is the key put or was there before. -/
theorem mem_tput {k : Nat} {v : α} {t : Tbl α} {e : Nat × α} (h : e ∈ tput k v t) : e = (k, v) ∨ e ∈ t := by
  induction t with
  | nil => simp [tput] at h; exact .inl h
  | cons c r ih =>
    obtain ⟨i, u⟩ := c
    simp only [tput] at h
    split at h
    · rcases List.mem_cons.1 h with h | h
      · exact .inr (h ▸ List.mem_cons_self ..)
      · rcases ih h with h | h
        · exact .inl h
        · exact .inr (List.mem_cons_of_mem _ h)
    · split at h
      · rcases List.mem_cons.1 h with h | h
        · exact .inl h
        · exact .inr (List.mem_cons_of_mem _ h)
      · rcases List.mem_cons.1 h with h | h
        · exact .inl h
        · exact .inr h

/-- A put of a value that is not the default keeps the canonical form. -/
theorem tcanon_tput (d : α) (k : Nat) (v : α) (t : Tbl α) (hv : v ≠ d) (h : tcanon d t = true) : tcanon d (tput k v t) = true := by
  induction t with
  | nil => simp [tput, tcanon, hv]
  | cons e r ih =>
    obtain ⟨j, u⟩ := e
    obtain ⟨hu, hl, hr⟩ := tcanon_cons.1 h
    simp only [tput]
    split
    · rename_i hjk
      refine tcanon_cons.2 ⟨hu, fun e he => ?_, ih hr⟩
      rcases mem_tput he with rfl | he
      · exact hjk
      · exact hl e he
    · split
      · rename_i h1 h2
        exact tcanon_cons.2 ⟨hv, fun e he => h2 ▸ hl e he, hr⟩
      · rename_i h1 h2
        have hkj : k < j := by omega
        refine tcanon_cons.2 ⟨hv, fun e he => ?_, h⟩
        rcases List.mem_cons.1 he with rfl | he
        · exact hkj
        · exact Nat.lt_trans hkj (hl e he)

/-- Removing entries keeps the canonical form. -/
theorem tcanon_filter (d : α) (p : Nat × α → Bool) (t : Tbl α) (h : tcanon d t = true) : tcanon d (t.filter p) = true := by
  induction t with
  | nil => rfl
  | cons e r ih =>
    obtain ⟨j, u⟩ := e
    obtain ⟨hu, hl, hr⟩ := tcanon_cons.1 h
    simp only [List.filter_cons]
    split
    · exact tcanon_cons.2 ⟨hu, fun e he => hl e (List.mem_of_mem_filter he), ih hr⟩
    · exact ih hr

/-- A write keeps the canonical form. -/
theorem tcanon_tset (d : α) (k : Nat) (v : α) (t : Tbl α) (h : tcanon d t = true) : tcanon d (tset d k v t) = true := by
  unfold tset; split
  · exact tcanon_filter _ _ _ h
  · rename_i hv; exact tcanon_tput _ _ _ _ hv h

/-! ## Memory -/

/-- Memory's canonical form is kept by every operation on it. -/
theorem wf_mset (m : List Host.Cell) (a : Nat) (b : Byte) (h : Memory.wf m = true) : Memory.wf (mset m a b) = true :=
  tcanon_tset _ _ _ _ h
theorem wf_msetAll (m : List Host.Cell) (a : Nat) (l : List Byte) (h : Memory.wf m = true) : Memory.wf (msetAll m a l) = true := by
  induction l generalizing m a with
  | nil => exact h
  | cons b r ih => exact ih _ _ (wf_mset _ _ _ h)
theorem wf_mstore (m l : List Host.Cell) (h : Memory.wf m = true) : Memory.wf (mstore m l) = true := by
  induction l generalizing m with
  | nil => exact h
  | cons c r ih => exact ih _ (wf_mset _ _ _ h)
theorem wf_filter (m : List Host.Cell) (p : Host.Cell → Bool) (h : Memory.wf m = true) : Memory.wf (m.filter p) = true :=
  tcanon_filter _ _ _ h

/-- A byte read where it was stored, and elsewhere. -/
@[simp] theorem mget_mset_same (m : List Host.Cell) (a : Nat) (b : Byte) : mget (mset m a b) a = b :=
  tget_tset_same _ _ _ _
@[simp] theorem mget_mset_other (m : List Host.Cell) (a c : Nat) (b : Byte) (h : c ≠ a) : mget (mset m a b) c = mget m c :=
  tget_tset_other _ _ _ _ _ h

/-- Bytes outside a stored range stay. -/
theorem mget_msetAll_other (m : List Host.Cell) (a c : Nat) (l : List Byte) (h : c < a ∨ a + l.length ≤ c) :
    mget (msetAll m a l) c = mget m c := by
  induction l generalizing m a with
  | nil => rfl
  | cons b r ih =>
    simp only [List.length_cons] at h
    simp only [msetAll]
    rw [ih _ _ (by omega), mget_mset_other _ _ _ _ (by omega)]

/-- The bytes stored are read back. -/
theorem mgetAll_msetAll (m : List Host.Cell) (a : Nat) (l : List Byte) :
    mgetAll (msetAll m a l) a l.length = l := by
  induction l generalizing m a with
  | nil => rfl
  | cons b r ih =>
    simp only [List.length_cons, mgetAll, msetAll]
    rw [mget_msetAll_other _ _ _ _ (by omega), mget_mset_same, ih]

/-- A range reads the same in two memories that agree on its bytes. -/
theorem mgetAll_congr {m m' : List Host.Cell} {a n : Nat} (h : ∀ k, a ≤ k → k < a + n → mget m k = mget m' k) :
    mgetAll m a n = mgetAll m' a n := by
  induction n generalizing a with
  | zero => rfl
  | succ n ih =>
    simp only [mgetAll]
    rw [h a (Nat.le_refl _) (by omega), ih (fun k h1 h2 => h k (by omega) (by omega))]

/-! ## Operations of the machine on memory -/

/-- A store at the home slice changes memory by its bytes and clears reservations, nothing else (Table 4.4). -/
@[simp] theorem homeStore_mem (s : State) (a : Nat) (b : List Byte) : (homeStore s a b).mem = msetAll s.mem a b := rfl
@[simp] theorem homeStore_teams (s : State) (a : Nat) (b : List Byte) : (homeStore s a b).teams = s.teams := rfl
theorem homeStore_wf (s : State) (a : Nat) (b : List Byte) (h : Memory.wf s.mem = true) : Memory.wf (homeStore s a b).mem = true :=
  wf_msetAll _ _ _ h

/-- Ring writes keep memory's form. -/
theorem ringWrite_wf (ten : Nat) (l : List (List Byte)) (s : State) (h : Memory.wf s.mem = true) :
    Memory.wf (ringWrite s ten l).mem = true := by
  induction l generalizing s with
  | nil => exact h
  | cons m r ih =>
    simp only [ringWrite]
    split
    · exact h
    · exact ih _ (wf_msetAll _ _ _ (wf_msetAll _ _ _ h))

/-- The memory of the machine after reset is in its form. -/
theorem reset_wf : Memory.wf State.reset.mem = true := rfl

end Sys2Proof.Machine
end

