-- ==== Sys2Proof/Laws/Gang.lean ====
section
/-! SUPPORT. What the shared operations of gang and Prefect instructions do when nothing holds their issuer. -/

namespace Sys2Proof.Machine

/-! ## The issuer -/

theorem GangReady.notAhead {s : State} {g : Gang} (h : GangReady s g) : g.ahead = false := by
  simp only [Gang.ahead, List.any_eq_false, beq_iff_eq]
  intro p hp he
  have := (h.slices p hp).1
  simp_all

theorem GangReady.issues {s : State} {g : Gang} (h : GangReady s g) : g.issues = true := by
  simp only [Gang.issues, List.all_eq_true]
  intro p hp
  obtain ⟨h1, h2, -⟩ := h.slices p hp
  simp [slIssues, h1, h2]

theorem GangReady.wake {s : State} {g : Gang} (h : GangReady s g) : wake s g = s := by
  unfold Machine.wake
  rw [if_neg]
  simp only [List.any_eq_true, not_exists, not_and]
  intro p hp he
  have := (h.slices p hp).1
  simp_all

/-- The cohort's slices are found in its team, all of one home gang, in ascending number. -/
theorem cohortOf_home {t : Team} {lead : Nat} {p : Nat × Slice} (h : p ∈ cohortOf t lead) :
    ∃ k < 8, p.1 = lead / 8 * 8 + k ∧ tfind p.1 t.slices = some p.2 := by
  simp only [cohortOf, List.mem_filterMap, List.mem_range] at h
  obtain ⟨k, hk, h⟩ := h
  split at h
  · rename_i sl hsl
    split at h
    · cases h
      exact ⟨k, hk, rfl, hsl⟩
    · cases h
  · cases h

theorem cohortOf_ascending (t : Team) (lead : Nat) : ((cohortOf t lead).map Prod.fst).Pairwise (· < ·) := by
  unfold cohortOf
  rw [List.map_filterMap, List.pairwise_filterMap]
  refine (List.pairwise_lt_range (n := 8)).imp ?_
  intro a b hab x hx y hy
  simp only [Option.map_eq_some_iff] at hx hy
  obtain ⟨p, hp, rfl⟩ := hx
  obtain ⟨q, hq, rfl⟩ := hy
  have ha : p.1 = lead / 8 * 8 + a := by
    split at hp
    · split at hp
      · cases hp; rfl
      · cases hp
    · cases hp
  have hb : q.1 = lead / 8 * 8 + b := by
    split at hq
    · split at hq
      · cases hq; rfl
      · cases hq
    · cases hq
  omega

theorem theGang_sl {s : State} {tid lead : Nat} {g : Gang} (h : theGang s tid lead = some g) : g.sl = cohortOf g.team lead ∧ g.lead = lead := by
  unfold theGang at h
  split at h
  · cases h
  split at h
  · cases h
  split at h
  · cases h
  · cases h
    exact ⟨rfl, rfl⟩

theorem GangReady.ascending {s : State} {g : Gang} (h : GangReady s g) : g.nums.Pairwise (· < ·) := by
  rw [Gang.nums, (theGang_sl h.here).1]
  exact cohortOf_ascending ..

theorem GangReady.nums {s : State} {g : Gang} (h : GangReady s g) : g.nums.Nodup := h.ascending.imp (fun hab => Nat.ne_of_lt hab)

theorem GangReady.home {s : State} {g : Gang} (h : GangReady s g) {p : Nat × Slice} (hp : p ∈ g.sl) : p.1 / 8 = g.home := by
  rw [(theGang_sl h.here).1] at hp
  obtain ⟨k, hk, e, -⟩ := cohortOf_home hp
  rw [e, Gang.home]
  omega

/-- An instruction of a gang that nothing holds is its meaning. -/
theorem withGang_ready {s : State} {g : Gang} (h : GangReady s g) (k : State → Gang → State) : withGang s k = .next (k s g) := by
  unfold withGang
  simp only [h.cur, h.here, h.issues, h.free, h.notAhead, h.wake, Bool.not_true, Bool.or_self, Bool.false_eq_true, if_false,
    Bool.false_and]

/-- An instruction of a Prefect that nothing holds is its meaning. -/
theorem withPref_ready {s : State} {p : Pref} (h : PrefReady s p) (k : Pref → State) : withPref s k = .next (k p) := by
  unfold withPref
  simp only [h.cur, h.here]
  have : prefIssues p.team.pf = true := by simp [prefIssues, h.st, h.stop]
  simp [this, h.free]

theorem heldBy_ready {s : State} {g : Gang} (h : GangReady s g) (n : Nat) (r : RegId) : heldBy s g.team n r = false := by
  simp only [heldBy, List.any_eq_false, Bool.and_eq_true, beq_iff_eq, not_and]
  intro e he h1
  exact absurd h1.1 (h.log e he)

theorem outstanding_ready {s : State} {g : Gang} (h : GangReady s g) (n : Nat) (r : RegId) : outstanding s g.team n r = false := by
  simp only [outstanding, List.any_eq_false, Bool.and_eq_true, beq_iff_eq]
  intro o ho h1
  exact absurd h1.1.1.1.1 (h.memops o ho)

theorem gangEntries_ready {s : State} {g : Gang} (h : GangReady s g) (ns : List Nat) : gangEntries s g.team ns = [] := by
  simp only [gangEntries, List.filter_eq_nil_iff, Bool.and_eq_true, beq_iff_eq, not_and]
  intro e he h1
  exact absurd h1 (h.log e he)

theorem isShort_ready {s : State} {g : Gang} (h : GangReady s g) {p : Nat × Slice} (hp : p ∈ g.sl) (r : RegId) (c : Nat) :
    isShort p.2 r c = false := by
  simp [isShort, (h.slices p hp).2.2.1]

/-- Nothing makes the cohort wait before its instruction. -/
theorem prelude_ready {s : State} {g : Gang} (h : GangReady s g) (w : Nat) (rd : List (RegId × Nat)) (wr : List RegId) :
    prelude s g w rd wr = none := by
  unfold prelude
  have h1 : (g.sl.any fun p => (rd.map Prod.fst ++ wr).any (heldBy s g.team p.1)) = false := by
    simp [heldBy_ready h]
  have h2 : (g.sl.any fun p => (rd.map Prod.fst ++ wr).any (outstanding s g.team p.1)) = false := by
    simp [outstanding_ready h]
  have h3 : (g.sl.any fun p => rd.any fun e => isShort p.2 e.1 (p.2.count + max w 1 + e.2)) = false := by
    simp only [List.any_eq_false]
    intro p hp
    simp [isShort_ready h hp]
  simp only [h.notAhead, h1, h2, h3, Bool.and_false, Bool.false_eq_true, if_false]

/-! ## Leaving an instruction -/

/-- Two changes of the same slices are one. -/
theorem mapSlices_mapSlices (t : Team) (ns : List Nat) (f f' : Nat → Slice → Slice) :
    (t.mapSlices ns f).mapSlices ns f' = t.mapSlices ns (fun n sl => f' n (f n sl)) := by
  simp only [Team.mapSlices, List.map_map]
  congr 1
  apply List.map_congr_left
  intro p hp
  by_cases hc : ns.contains p.1 = true <;> simp only [Function.comp, hc, if_true, Bool.false_eq_true, if_false]

/-- Forming cohorts again changes only the cohorts' names. -/
theorem regroup_eq (t : Team) (ns : List Nat) : ∃ c : Slice → Nat, regroup t ns = t.mapSlices ns (fun _ sl => { sl with cohort := c sl }) :=
  ⟨fun sl => minOf (((t.slices.filter (fun p => ns.contains p.1)).filter
    (fun p => (p.2.cohort, p.2.pc, p.2.mode, p.2.st) == (sl.cohort, sl.pc, sl.mode, sl.st))).map Prod.fst), rfl⟩

theorem latchStep_eq (s : State) (g : Gang) (held : Option Nat) :
    ∃ c, latchStep s g held = { s with cores := tset {} g.team.core c s.cores } ∧ SameButLatch (coreOf s g.team.core) c := by
  unfold latchStep updCore
  refine ⟨_, rfl, ?_⟩
  by_cases hp : portNum g.team g.home = 0
  · simp only [Core.withPort, hp, if_true, Core.port]
    exact ⟨_, _, rfl⟩
  · simp only [Core.withPort, hp, if_false, Core.port]
    exact ⟨_, _, rfl⟩

/-- Leaving an instruction: each slice of the cohort changed by `f` and past the instruction. -/
theorem finish_goes {s : State} {g : Gang} (ha : g.ahead = false) (w : Nat) (held : Option Nat) (f : Nat → Slice → Slice) :
    GangGoes s g (finish s g w held f) (fun n sl sl' => ∃ c, sl' = { advance w (f n sl) with cohort := c }) := by
  unfold finish
  simp only [ha, Bool.false_eq_true, if_false]
  obtain ⟨c, hc, hs⟩ := latchStep_eq (updTeam s g.team.tid fun t => regroup (t.mapSlices g.nums fun n sl => advance w (f n sl)) g.nums) g held
  rw [hc]
  choose cc hcc using fun u : Team => regroup_eq (u.mapSlices g.nums fun n sl => advance w (f n sl)) g.nums
  refine ⟨fun u n sl => { advance w (f n sl) with cohort := cc u (advance w (f n sl)) }, c, ?_, hs, fun u p _ => ⟨_, rfl⟩⟩
  simp only [updTeam, hcc, mapSlices_mapSlices]

/-- A weaker account of the slices. -/
theorem GangGoes.mono {s t : State} {g : Gang} {Q R : Nat → Slice → Slice → Prop} (h : GangGoes s g t Q)
    (hq : ∀ p ∈ g.sl, ∀ sl', Q p.1 p.2 sl' → R p.1 p.2 sl') : GangGoes s g t R := by
  obtain ⟨f, c, h1, h2, h3⟩ := h
  exact ⟨f, c, h1, h2, fun u p hp => hq p hp _ (h3 u p hp)⟩

/-! ## Vector instructions -/

/-- A legal vector instruction of a cohort that nothing holds: its results in every active lane, its flags, and past it. -/
theorem vec_ready {s : State} {g : Gang} (h : GangReady s g) (sp : VSpec) (he : sp.encOk = true)
    (ho : sp.ok g.team.nregs g.mode = true) :
    ∃ t, vec sp s = .next t ∧
      GangGoes (raiseFl s g.grid.tenant (sp.run g.mode ((activeLanes g sp.wait).map (sp.laneIn g))).2) g t (fun n sl sl' =>
        ∃ c, sl' = { advance sp.wait (writeLanes sp.lat (sl.count + max sp.wait 1) (sp.writes g.mode) n sl
          (((activeLanes g sp.wait).map (sp.laneIn g)).zip (sp.run g.mode ((activeLanes g sp.wait).map (sp.laneIn g))).1)) with
          cohort := c }) := by
  refine ⟨_, withGang_ready h _, ?_⟩
  unfold vecRun
  simp only [h.notAhead, he, ho, Bool.and_self, Bool.not_true, Bool.false_eq_true, if_false, prelude_ready h]
  exact finish_goes h.notAhead _ _ _

/-- An illegal vector instruction takes ILLEGAL. -/
theorem vec_illegal {s : State} {g : Gang} (h : GangReady s g) (sp : VSpec)
    (he : (sp.encOk && sp.ok g.team.nregs g.mode) = false) : vec sp s = .next (illegalGang s g) := by
  rw [vec, withGang_ready h]
  unfold vecRun
  simp only [h.notAhead, he, Bool.not_false, Bool.false_eq_true, if_false, if_true]

/-! ## Slice control -/

/-- A legal control instruction of a cohort that nothing holds. -/
theorem ctl_ready {s : State} {g : Gang} (h : GangReady s g) (ok : Gang → Bool) (rd : List (RegId × Nat)) (wr : List RegId)
    (f : Gang → Nat → Slice → Slice) (ho : ok g = true) :
    ∃ t, ctl s true ok rd wr f = .next t ∧
      GangGoes s g t (fun n sl sl' => ∃ c, sl' = { advance 1 (f g n sl) with cohort := c }) := by
  refine ⟨_, withGang_ready h _, ?_⟩
  simp only [h.notAhead, ho, Bool.and_self, Bool.not_true, Bool.false_eq_true, if_false, prelude_ready h]
  exact finish_goes h.notAhead _ _ _

theorem ctl_illegal {s : State} {g : Gang} (h : GangReady s g) (enc : Bool) (ok : Gang → Bool) (rd : List (RegId × Nat))
    (wr : List RegId) (f : Gang → Nat → Slice → Slice) (ho : (enc && ok g) = false) :
    ctl s enc ok rd wr f = .next (illegalGang s g) := by
  rw [ctl, withGang_ready h]
  simp only [h.notAhead, ho, Bool.not_false, Bool.false_eq_true, if_false, if_true]

/-- An instruction that ends Gambit, of a cohort that nothing holds. -/
theorem ending_ready {s : State} {g : Gang} (h : GangReady s g) (ok : Gang → Bool) (k : State → Gang → State) (ho : ok g = true) :
    ending s ok k = .next (k s g) := by
  rw [ending, withGang_ready h]
  simp only [h.notAhead, ho, Bool.not_true, Bool.false_eq_true, if_false, gangEntries_ready h, List.isEmpty_nil]

theorem ending_illegal {s : State} {g : Gang} (h : GangReady s g) (ok : Gang → Bool) (k : State → Gang → State) (ho : ok g = false) :
    ending s ok k = .next (illegalGang s g) := by
  rw [ending, withGang_ready h]
  simp only [h.notAhead, ho, Bool.not_false, Bool.false_eq_true, if_false, if_true]

/-! ## The Prefect -/

theorem prefDone_goes (s : State) (p : Pref) (f : Prefect → Prefect) :
    PrefGoes s p (prefDone s p f) (fun q => { f q with pc := (f q).pc + 4, st := .issuable }) := rfl

/-- A Prefect instruction that computes one register. -/
theorem prefAlu_ready {s : State} {p : Pref} (h : PrefReady s p) (d : SReg) (f : Prefect → W64) :
    ∃ t, prefAlu d true f s = .next t ∧
      PrefGoes s p t (fun q => { wrS q d.toNat (f q) with pc := (wrS q d.toNat (f q)).pc + 4, st := .issuable }) :=
  ⟨_, withPref_ready h _, rfl⟩

end Sys2Proof.Machine
end

