-- ==== Sys2Proof/Laws/Vec.lean ====
section
/-! SUPPORT. What a vector instruction writes: register by register and lane by lane. -/

namespace Sys2Proof.Machine

/-! ## Registers -/

@[simp] theorem retag_v (sl : Slice) (r : Nat) : (retag sl r).v = sl.v := rfl

theorem rdV_wrV (sl : Slice) (r l : Nat) (x : W32) (q m : Nat) (hl : l < 4) (hm : m < 4) :
    rdV (wrV sl r l x) q m = if q = r ∧ m = l then x else rdV sl q m := by
  simp only [rdV, wrV, retag_v, tget_tset]
  by_cases h : q = r ∧ m = l
  · rw [if_pos h, if_pos (by omega)]
  · rw [if_neg h, if_neg (by omega)]

/-- A write of a vector register changes that table, its tag and what is ready. -/
def SameButV (sl sl' : Slice) : Prop := ∃ v u q, sl' = { sl with v := v, uni := u, pend := q }

theorem SameButV.refl (sl : Slice) : SameButV sl sl := ⟨_, _, _, rfl⟩
theorem SameButV.trans {a b c : Slice} (h : SameButV a b) (k : SameButV b c) : SameButV a c := by
  obtain ⟨v, u, q, rfl⟩ := h
  obtain ⟨v', u', q', rfl⟩ := k
  exact ⟨_, _, _, rfl⟩

theorem writeReg_v (lat : Option Nat) (c : Nat) (sl : Slice) (k l : Nat) (x : W32) : SameButV sl (writeReg lat c sl (.v k) l x) := by
  unfold writeReg
  cases lat <;> exact ⟨_, _, _, rfl⟩

theorem rdV_writeReg_v (lat : Option Nat) (c : Nat) (sl : Slice) (k l : Nat) (x : W32) (q m : Nat) (hl : l < 4) (hm : m < 4) :
    rdV (writeReg lat c sl (.v k) l x) q m = if q = k ∧ m = l then x else rdV sl q m := by
  rw [← rdV_wrV sl k l x q m hl hm]
  unfold writeReg
  cases lat <;> rfl

theorem rdV_writeReg_p (lat : Option Nat) (c : Nat) (sl : Slice) (k l : Nat) (x : W32) (q m : Nat) :
    rdV (writeReg lat c sl (.p k) l x) q m = rdV sl q m := by
  unfold writeReg wrP
  by_cases h : k = 0 <;> cases lat <;> simp [h, addPend, rdV]

/-! ## The results of a vector instruction with one destination register -/

/-- The results of lanes: every lane that is listed, and no other, is written. -/
theorem writeLanes_v (lat : Option Nat) (c d n : Nat) (sl : Slice) (L : List LaneIn) (val : LaneIn → Nat)
    (hl : ∀ i ∈ L, i.ln < 4) (hd : (L.map fun i => (i.sl, i.ln)).Nodup) :
    SameButV sl (writeLanes lat c [.v d] n sl (L.map fun i => (i, val i))) ∧
    ∀ r l, l < 4 → rdV (writeLanes lat c [.v d] n sl (L.map fun i => (i, val i))) r l =
      if r = d then (match L.find? (fun i => i.sl == n && i.ln == l) with
        | some i => BitVec.ofNat 32 (val i)
        | none => rdV sl r l) else rdV sl r l := by
  induction L generalizing sl with
  | nil => exact ⟨SameButV.refl _, fun r l _ => by simp [writeLanes]⟩
  | cons i L ih =>
    simp only [List.map_cons, List.nodup_cons] at hd
    have hl' : ∀ j ∈ L, j.ln < 4 := fun j hj => hl j (List.mem_cons_of_mem _ hj)
    have hi : i.ln < 4 := hl i (List.mem_cons_self ..)
    have step : writeLanes lat c [.v d] n sl ((i :: L).map fun i => (i, val i)) =
        writeLanes lat c [.v d] n (if i.sl = n then writeReg lat c sl (.v d) i.ln (BitVec.ofNat 32 (val i)) else sl)
          (L.map fun i => (i, val i)) := by
      simp only [writeLanes, List.map_cons, List.foldl_cons, writeDst]
    rw [step]
    obtain ⟨h1, h2⟩ := ih (if i.sl = n then writeReg lat c sl (.v d) i.ln (BitVec.ofNat 32 (val i)) else sl) hl' hd.2
    refine ⟨?_, fun r l hlt => ?_⟩
    · refine SameButV.trans ?_ h1
      split
      · exact writeReg_v ..
      · exact SameButV.refl _
    · rw [h2 r l hlt]
      by_cases hn : i.sl = n
      · simp only [hn, if_true, List.find?_cons, beq_self_eq_true, Bool.true_and]
        by_cases he : i.ln = l
        · subst he
          have hno : L.find? (fun j => j.sl == n && j.ln == i.ln) = none := by
            rw [List.find?_eq_none]
            intro j hj hc
            simp only [Bool.and_eq_true, beq_iff_eq] at hc
            exact hd.1 (List.mem_map.2 ⟨j, hj, by rw [hc.1, hc.2, hn]⟩)
          simp only [beq_self_eq_true, hno]
          by_cases hr : r = d
          · simp [hr, rdV_writeReg_v _ _ _ _ _ _ _ _ hi hlt]
          · simp [hr, rdV_writeReg_v _ _ _ _ _ _ _ _ hi hlt]
        · have : (i.ln == l) = false := by simpa using he
          simp only [this]
          have hne : ¬ (r = d ∧ l = i.ln) := fun h => he h.2.symm
          by_cases hr : r = d
          · subst hr
            cases L.find? (fun j => j.sl == n && j.ln == l) <;> simp [rdV_writeReg_v _ _ _ _ _ _ _ _ hi hlt, Ne.symm he]
          · simp [hr, rdV_writeReg_v _ _ _ _ _ _ _ _ hi hlt]
      · have : (i.sl == n) = false := by simpa using hn
        simp only [hn, if_false, List.find?_cons, this, Bool.false_and]

/-! ## Active lanes -/

theorem laneActive_ready {s : State} {g : Gang} (h : GangReady s g) {p : Nat × Slice} (hp : p ∈ g.sl) (w l : Nat) :
    laneActive g w p.2 l = activeIn p.2 l := by
  unfold laneActive activeIn
  simp only [h.notAhead, Bool.false_eq_true, if_false]
  congr 1
  unfold readP pendOld
  simp only [(h.slices p hp).2.2.1, List.find?_nil, Option.map_none]
  by_cases hz : modeGuard p.2.mode = 0
  · simp [hz, rdP]
  · simp [hz]

theorem activeLanes_mem {g : Gang} {w : Nat} {q : Nat × Slice × Nat} :
    q ∈ activeLanes g w ↔ (q.1, q.2.1) ∈ g.sl ∧ q.2.2 < 4 ∧ laneActive g w q.2.1 q.2.2 = true := by
  obtain ⟨n, sl, l⟩ := q
  simp only [activeLanes, List.mem_flatMap, List.mem_map, List.mem_filter, List.mem_range]
  constructor
  · rintro ⟨p, hp, l', ⟨h1, h2⟩, h3⟩
    simp only [Prod.mk.injEq] at h3
    obtain ⟨rfl, rfl, rfl⟩ := h3
    exact ⟨hp, h1, h2⟩
  · rintro ⟨hp, h1, h2⟩
    exact ⟨(n, sl), hp, l, ⟨h1, h2⟩, rfl⟩

theorem activeLanes_nodup {g : Gang} (hn : g.nums.Nodup) (w : Nat) : ((activeLanes g w).map fun q => (q.1, q.2.2)).Nodup := by
  unfold activeLanes
  have hg : (g.sl.map Prod.fst).Nodup := hn
  generalize g.sl = L at hg
  induction L with
  | nil => exact List.nodup_nil
  | cons p L ih =>
    simp only [List.map_cons, List.nodup_cons] at hg
    simp only [List.flatMap_cons, List.map_append, List.map_map]
    rw [List.nodup_append]
    refine ⟨?_, ih hg.2, ?_⟩
    · refine List.Nodup.map_on ?_ (List.Nodup.filter _ List.nodup_range)
      intro a _ b _ hab
      simpa using hab
    · intro a ha b hb hab
      simp only [List.mem_map, Function.comp, List.mem_filter, List.mem_flatMap] at ha hb
      obtain ⟨l, -, rfl⟩ := ha
      obtain ⟨q, ⟨p', hp', l', -, rfl⟩, rfl⟩ := hb
      simp only [Prod.mk.injEq] at hab
      exact hg.1 (List.mem_map.2 ⟨p', hp', hab.1.symm⟩)

/-- The entry of a lane among the lanes that execute. -/
theorem find_lane {s : State} {g : Gang} (h : GangReady s g) (sp : VSpec) {p : Nat × Slice} (hp : p ∈ g.sl) {l : Nat} (hl : l < 4) :
    ((activeLanes g sp.wait).map (sp.laneIn g)).find? (fun i => i.sl == p.1 && i.ln == l) =
      if activeIn p.2 l = true then some (sp.laneIn g (p.1, p.2, l)) else none := by
  have nd := activeLanes_nodup h.nums sp.wait
  by_cases ha : activeIn p.2 l = true
  · rw [if_pos ha]
    have hm : (p.1, p.2, l) ∈ activeLanes g sp.wait := activeLanes_mem.2 ⟨hp, hl, by rw [laneActive_ready h hp]; exact ha⟩
    generalize activeLanes g sp.wait = L at nd hm
    induction L with
    | nil => cases hm
    | cons q L ih =>
      simp only [List.map_cons, List.nodup_cons] at nd
      simp only [List.map_cons, List.find?_cons]
      rcases List.mem_cons.1 hm with rfl | hm
      · simp [VSpec.laneIn]
      · have : ¬ (q.1 = p.1 ∧ q.2.2 = l) := by
          rintro ⟨e1, e2⟩
          exact nd.1 (List.mem_map.2 ⟨_, hm, by simp only [e1, e2]⟩)
        have hf : ((sp.laneIn g q).sl == p.1 && (sp.laneIn g q).ln == l) = false := by
          simpa [VSpec.laneIn] using this
        rw [hf]
        exact ih nd.2 hm
  · rw [if_neg ha, List.find?_eq_none]
    intro i hi hc
    simp only [Bool.and_eq_true, beq_iff_eq] at hc
    obtain ⟨q, hq, rfl⟩ := List.mem_map.1 hi
    obtain ⟨h1, h2, h3⟩ := activeLanes_mem.1 hq
    have e1 : q.1 = p.1 := by simpa [VSpec.laneIn] using hc.1
    have e2 : q.2.2 = l := by simpa [VSpec.laneIn] using hc.2
    have : q.2.1 = p.2 := by
      have hnd : (g.sl.map Prod.fst).Nodup := h.nums
      have := List.inj_on_of_nodup_map hnd h1 hp (by simpa using e1)
      exact congrArg Prod.snd this
    rw [this, e2, laneActive_ready h hp] at h3
    exact ha h3

/-- A slice past its instruction, changed in vector registers only. -/
theorem onlyV_advance {sl sl' : Slice} (w c : Nat) (hs : sl.st = .issuable) (h : SameButV sl sl') :
    OnlyV sl { advance w sl' with cohort := c } := by
  obtain ⟨v, u, q, rfl⟩ := h
  simp [OnlyV, sameTurn, advance, hs]

@[simp] theorem rdV_advance (sl : Slice) (w c r l : Nat) : rdV { advance w sl with cohort := c } r l = rdV sl r l := rfl

/-- A legal vector instruction whose lanes compute one register each by themselves. -/
theorem perLane_ready {s : State} {g : Gang} (h : GangReady s g) (sp : VSpec) (f : W64 → LaneIn → Nat × Fl) (d : Nat)
    (he : sp.encOk = true) (ho : sp.ok g.team.nregs g.mode = true) (hr : sp.run = perLane f)
    (hw : sp.writes g.mode = [.v d]) :
    ∃ t, vec sp s = .next t ∧
      GangGoes (raiseFl s g.grid.tenant (perLane f g.mode ((activeLanes g sp.wait).map (sp.laneIn g))).2) g t (fun n sl sl' =>
        LanesSet d (fun sl l => BitVec.ofNat 32 (f g.mode (sp.laneIn g (n, sl, l))).1) sl sl') := by
  obtain ⟨t, h1, h2⟩ := vec_ready h sp he ho
  refine ⟨t, h1, ?_⟩
  rw [hr] at h2
  refine h2.mono fun p hp sl' => ?_
  rintro ⟨c, rfl⟩
  have hz : ((activeLanes g sp.wait).map (sp.laneIn g)).zip (perLane f g.mode ((activeLanes g sp.wait).map (sp.laneIn g))).1 =
      ((activeLanes g sp.wait).map (sp.laneIn g)).map (fun i => (i, (f g.mode i).1)) := by
    simp only [perLane, List.map_map]
    generalize activeLanes g sp.wait = L
    induction L with
    | nil => rfl
    | cons q L ih => simpa using ih
  rw [hz, hw]
  have hln : ∀ i ∈ (activeLanes g sp.wait).map (sp.laneIn g), i.ln < 4 := by
    intro i hi
    obtain ⟨q, hq, rfl⟩ := List.mem_map.1 hi
    exact (activeLanes_mem.1 hq).2.1
  have hnd : (((activeLanes g sp.wait).map (sp.laneIn g)).map fun i => (i.sl, i.ln)).Nodup := by
    rw [List.map_map]
    exact activeLanes_nodup h.nums sp.wait
  obtain ⟨e1, e2⟩ := writeLanes_v sp.lat (p.2.count + max sp.wait 1) d p.1 p.2 _ (fun i => (f g.mode i).1) hln hnd
  refine ⟨onlyV_advance _ _ (h.slices p hp).1 e1, fun r l hl => ?_⟩
  rw [rdV_advance, e2 r l hl]
  by_cases hrd : r = d
  · simp only [hrd, if_true, true_and]
    rw [find_lane h sp hp hl]
    split <;> simp_all
  · simp [hrd]

/-- What a lane reads when every earlier result is ready. -/
theorem readOpt_ready {s : State} {g : Gang} (h : GangReady s g) {p : Nat × Slice} (hp : p ∈ g.sl) (l c : Nat) (r : Nat) :
    readOpt p.2 l c false (some r) = (rdV p.2 r l).toNat := by
  simp [readOpt, readV, pendOld, (h.slices p hp).2.2.1]

/-! ## Any destination -/

/-- Lanes written one after another through `W`, of which `rd` reads lane by lane. -/
theorem lanes_fold {α : Type} (W : Slice → Nat → Nat → Slice) (rd : Slice → Nat → α) (out : Nat → α) (S : Slice → Slice → Prop)
    (refl : ∀ a, S a a) (trans : ∀ a b c, S a b → S b c → S a c) (hS : ∀ sl i x, i < 4 → S sl (W sl i x))
    (hr : ∀ sl i x l, i < 4 → l < 4 → rd (W sl i x) l = if l = i then out x else rd sl l)
    (n : Nat) (sl : Slice) (L : List LaneIn) (val : LaneIn → Nat)
    (hl : ∀ i ∈ L, i.ln < 4) (hd : (L.map fun i => (i.sl, i.ln)).Nodup) :
    S sl ((L.map fun i => (i, val i)).foldl (fun sl e => if e.1.sl = n then W sl e.1.ln e.2 else sl) sl) ∧
    ∀ l, l < 4 → rd ((L.map fun i => (i, val i)).foldl (fun sl e => if e.1.sl = n then W sl e.1.ln e.2 else sl) sl) l =
      match L.find? (fun i => i.sl == n && i.ln == l) with
      | some i => out (val i)
      | none => rd sl l := by
  induction L generalizing sl with
  | nil => exact ⟨refl _, fun l _ => by simp⟩
  | cons i L ih =>
    simp only [List.map_cons, List.nodup_cons] at hd
    have hl' : ∀ j ∈ L, j.ln < 4 := fun j hj => hl j (List.mem_cons_of_mem _ hj)
    have hi : i.ln < 4 := hl i (List.mem_cons_self ..)
    simp only [List.map_cons, List.foldl_cons]
    obtain ⟨h1, h2⟩ := ih (if i.sl = n then W sl i.ln (val i) else sl) hl' hd.2
    refine ⟨?_, fun l hlt => ?_⟩
    · refine trans _ _ _ ?_ h1
      split
      · exact hS _ _ _ hi
      · exact refl _
    · rw [h2 l hlt]
      by_cases hn : i.sl = n
      · simp only [hn, if_true, List.find?_cons, beq_self_eq_true, Bool.true_and]
        by_cases he : i.ln = l
        · subst he
          have hno : L.find? (fun j => j.sl == n && j.ln == i.ln) = none := by
            rw [List.find?_eq_none]
            intro j hj hc
            simp only [Bool.and_eq_true, beq_iff_eq] at hc
            exact hd.1 (List.mem_map.2 ⟨j, hj, by rw [hc.1, hc.2, hn]⟩)
          simp [hno, hr _ _ _ _ hi hlt]
        · have : (i.ln == l) = false := by simpa using he
          simp only [this]
          cases L.find? (fun j => j.sl == n && j.ln == l) <;> simp [hr _ _ _ _ hi hlt, Ne.symm he]
      · have : (i.sl == n) = false := by simpa using hn
        simp only [hn, if_false, List.find?_cons, this, Bool.false_and]

/-- Results of lanes written to registers `ds`: nothing else changes, and no lane that is not listed. -/
theorem writeLanes_touched (lat : Option Nat) (c n : Nat) (ds : List Nat) (sl : Slice) (L : List (LaneIn × Nat))
    (hl : ∀ e ∈ L, e.1.ln < 4) :
    SameButV sl (writeLanes lat c (ds.map RegId.v) n sl L) ∧
    ∀ r l, l < 4 → (r ∉ ds ∨ ∀ e ∈ L, ¬ (e.1.sl = n ∧ e.1.ln = l)) →
      rdV (writeLanes lat c (ds.map RegId.v) n sl L) r l = rdV sl r l := by
  induction L generalizing sl with
  | nil => exact ⟨SameButV.refl _, fun r l _ _ => rfl⟩
  | cons e L ih =>
    have hl' : ∀ j ∈ L, j.1.ln < 4 := fun j hj => hl j (List.mem_cons_of_mem _ hj)
    have hi : e.1.ln < 4 := hl e (List.mem_cons_self ..)
    have step : writeLanes lat c (ds.map RegId.v) n sl (e :: L) =
        writeLanes lat c (ds.map RegId.v) n (if e.1.sl = n then writeDst lat c (ds.map RegId.v) sl e.1.ln e.2 else sl) L := rfl
    have one : SameButV sl (writeDst lat c (ds.map RegId.v) sl e.1.ln e.2) ∧
        ∀ r l, l < 4 → (r ∉ ds ∨ l ≠ e.1.ln) → rdV (writeDst lat c (ds.map RegId.v) sl e.1.ln e.2) r l = rdV sl r l := by
      match ds with
      | [] => exact ⟨SameButV.refl _, fun r l _ _ => rfl⟩
      | [k] =>
        refine ⟨writeReg_v .., fun r l hlt h => ?_⟩
        simp only [List.map_cons, List.map_nil, writeDst]
        rw [rdV_writeReg_v _ _ _ _ _ _ _ _ hi hlt, if_neg]
        rintro ⟨rfl, rfl⟩
        simp at h
      | k :: q :: _ =>
        refine ⟨SameButV.trans (writeReg_v ..) (writeReg_v ..), fun r l hlt h => ?_⟩
        simp only [List.map_cons, writeDst]
        rw [rdV_writeReg_v _ _ _ _ _ _ _ _ hi hlt, if_neg, rdV_writeReg_v _ _ _ _ _ _ _ _ hi hlt, if_neg]
        all_goals
          rintro ⟨rfl, rfl⟩
          simp at h
    rw [step]
    obtain ⟨h1, h2⟩ := ih (if e.1.sl = n then writeDst lat c (ds.map RegId.v) sl e.1.ln e.2 else sl) hl'
    refine ⟨?_, fun r l hlt h => ?_⟩
    · refine SameButV.trans ?_ h1
      split
      · exact one.1
      · exact SameButV.refl _
    · rw [h2 r l hlt (h.imp id fun h j hj => h j (List.mem_cons_of_mem _ hj))]
      split
      · rename_i hn
        refine one.2 r l hlt (h.imp id fun h he => h e (List.mem_cons_self ..) ⟨hn, he.symm⟩)
      · rfl

/-- A lane among those that execute is an active one of its slice. -/
theorem laneIn_active {s : State} {g : Gang} (h : GangReady s g) (sp : VSpec) {p : Nat × Slice} (hp : p ∈ g.sl) {i : LaneIn}
    (hi : i ∈ (activeLanes g sp.wait).map (sp.laneIn g)) (e1 : i.sl = p.1) : activeIn p.2 i.ln = true := by
  obtain ⟨q, hq, rfl⟩ := List.mem_map.1 hi
  obtain ⟨h1, h2, h3⟩ := activeLanes_mem.1 hq
  have e1 : q.1 = p.1 := e1
  have : q.2.1 = p.2 := by
    have hnd : (g.sl.map Prod.fst).Nodup := h.nums
    have := List.inj_on_of_nodup_map hnd h1 hp (by simpa using e1)
    exact congrArg Prod.snd this
  rw [this, laneActive_ready h hp] at h3
  exact h3

/-- A legal vector instruction changes its destination registers in the active lanes and nothing else of the slices. -/
theorem vec_touched {s : State} {g : Gang} (h : GangReady s g) (sp : VSpec) (d : Nat)
    (he : sp.encOk = true) (ho : sp.ok g.team.nregs g.mode = true) (hd : sp.dst = .v d) :
    ∃ t fl, vec sp s = .next t ∧
      GangGoes (raiseFl s g.grid.tenant fl) g t (fun _ sl sl' => LanesTouched (regsOf (sp.pairD g.mode) d) sl sl') := by
  obtain ⟨t, h1, h2⟩ := vec_ready h sp he ho
  refine ⟨t, _, h1, h2.mono fun p hp sl' => ?_⟩
  rintro ⟨c, rfl⟩
  have hw : sp.writes g.mode = (regsOf (sp.pairD g.mode) d).map RegId.v := by simp [VSpec.writes, hd]
  rw [hw]
  have hz : ∀ e ∈ ((activeLanes g sp.wait).map (sp.laneIn g)).zip (sp.run g.mode ((activeLanes g sp.wait).map (sp.laneIn g))).1,
      e.1 ∈ (activeLanes g sp.wait).map (sp.laneIn g) := fun e he => (List.of_mem_zip he).1
  obtain ⟨e1, e2⟩ := writeLanes_touched sp.lat (p.2.count + max sp.wait 1) p.1 (regsOf (sp.pairD g.mode) d) p.2 _ fun e he => by
    obtain ⟨q, hq, hq'⟩ := List.mem_map.1 (hz e he)
    rw [← hq']
    exact (activeLanes_mem.1 hq).2.1
  refine ⟨onlyV_advance _ _ (h.slices p hp).1 e1, fun r l hl hr => ?_⟩
  rw [rdV_advance, e2 r l hl (hr.imp id fun ha e he hc => ?_)]
  have := laneIn_active h sp hp (hz e he) hc.1
  rw [hc.2, ha] at this
  cases this

/-- The results of lanes that compute by themselves, lane by lane. -/
theorem perLane_zip (f : W64 → LaneIn → Nat × Fl) (m : W64) (L : List LaneIn) :
    L.zip (perLane f m L).1 = L.map (fun i => (i, (f m i).1)) := by
  simp only [perLane, List.map_map]
  induction L with
  | nil => rfl
  | cons q L ih => simpa using ih

theorem laneIn_lt {g : Gang} (sp : VSpec) : ∀ i ∈ (activeLanes g sp.wait).map (sp.laneIn g), i.ln < 4 := by
  intro i hi
  obtain ⟨q, hq, rfl⟩ := List.mem_map.1 hi
  exact (activeLanes_mem.1 hq).2.1

theorem laneIn_nodup {g : Gang} (hn : g.nums.Nodup) (sp : VSpec) :
    (((activeLanes g sp.wait).map (sp.laneIn g)).map fun i => (i.sl, i.ln)).Nodup := by
  rw [List.map_map]
  exact activeLanes_nodup hn sp.wait

/-- Bit n of a 32-bit word set or cleared through its mask. -/
theorem getLsbD_orMask (x : W32) (n m : Nat) (hm : m < 32) :
    (x ||| BitVec.ofNat 32 (2 ^ n)).getLsbD m = (x.getLsbD m || decide (m = n)) := by
  have e : (BitVec.ofNat 32 (2 ^ n)).getLsbD m = decide (m = n) := by
    rw [BitVec.getLsbD_ofNat, Nat.testBit_two_pow]
    by_cases h : n = m
    · subst h; simp [hm]
    · simp [h, Ne.symm h, hm]
  rw [BitVec.getLsbD_or, e]

theorem getLsbD_andMask (x : W32) (n m : Nat) (hm : m < 32) :
    (x &&& ~~~BitVec.ofNat 32 (2 ^ n)).getLsbD m = (x.getLsbD m && !decide (m = n)) := by
  have e : (BitVec.ofNat 32 (2 ^ n)).getLsbD m = decide (m = n) := by
    rw [BitVec.getLsbD_ofNat, Nat.testBit_two_pow]
    by_cases h : n = m
    · subst h; simp [hm]
    · simp [h, Ne.symm h, hm]
  rw [BitVec.getLsbD_and, BitVec.getLsbD_not, e]
  simp [hm]

theorem rdP_wrP (sl : Slice) (k l : Nat) (b : Bool) (q m : Nat) (hl : l < 4) (hq : q < 8) (hm : m < 4) :
    rdP (wrP sl k l b) q m = if q = k ∧ k ≠ 0 ∧ m = l then b else rdP sl q m := by
  by_cases h0 : k = 0
  · simp [wrP, h0]
  by_cases hq0 : q = 0
  · subst hq0
    simp [rdP, Ne.symm h0]
  have hlt' : 4 * q + m < 32 := by omega
  have e1 : rdP (wrP sl k l b) q m = (wrP sl k l b).p.getLsbD (4 * q + m) := by simp [rdP, hq0]
  have e2 : rdP sl q m = sl.p.getLsbD (4 * q + m) := by simp [rdP, hq0]
  have e3 : (wrP sl k l b).p = if b then sl.p ||| BitVec.ofNat 32 (2 ^ (4 * k + l)) else sl.p &&& ~~~BitVec.ofNat 32 (2 ^ (4 * k + l)) := by
    simp only [wrP, h0, if_false]
  rw [e1, e2, e3]
  cases b
  · rw [if_neg (by simp), getLsbD_andMask _ _ _ hlt']
    by_cases hc : q = k ∧ m = l
    · rw [if_pos ⟨hc.1, h0, hc.2⟩, decide_eq_true (by omega)]; simp
    · rw [if_neg (fun h => hc ⟨h.1, h.2.2⟩), decide_eq_false (by omega)]; simp
  · rw [if_pos rfl, getLsbD_orMask _ _ _ hlt']
    by_cases hc : q = k ∧ m = l
    · rw [if_pos ⟨hc.1, h0, hc.2⟩, decide_eq_true (by omega)]; simp
    · rw [if_neg (fun h => hc ⟨h.1, h.2.2⟩), decide_eq_false (by omega)]; simp

/-- A legal vector instruction that writes a predicate lane by lane. -/
theorem perLane_p_ready {s : State} {g : Gang} (h : GangReady s g) (sp : VSpec) (f : W64 → LaneIn → Nat × Fl) (k : Nat) (hk : k < 8)
    (he : sp.encOk = true) (ho : sp.ok g.team.nregs g.mode = true) (hr : sp.run = perLane f) (hd : sp.dst = .p k) :
    ∃ t, vec sp s = .next t ∧
      GangGoes (raiseFl s g.grid.tenant (perLane f g.mode ((activeLanes g sp.wait).map (sp.laneIn g))).2) g t (fun n sl sl' =>
        PredSet k (fun sl l => BitVec.ofNat 32 (f g.mode (sp.laneIn g (n, sl, l))).1 != 0#32) sl sl') := by
  obtain ⟨t, h1, h2⟩ := vec_ready h sp he ho
  refine ⟨t, h1, ?_⟩
  rw [hr] at h2
  refine h2.mono fun p hp sl' => ?_
  rintro ⟨c, rfl⟩
  rw [perLane_zip]
  by_cases h0 : k = 0
  · have hw : sp.writes g.mode = [] := by simp [VSpec.writes, hd, h0]
    have hid : ∀ (L : List (LaneIn × Nat)) (sl : Slice), writeLanes sp.lat (p.2.count + max sp.wait 1) [] p.1 sl L = sl := by
      intro L
      induction L with
      | nil => exact fun _ => rfl
      | cons e L ih => intro sl; simp only [writeLanes, List.foldl_cons, writeDst, ite_self] at ih ⊢; exact ih sl
    rw [hw, hid]
    refine ⟨by simp [OnlyP, sameTurn, advance, (h.slices p hp).1], fun q l _ _ => ?_⟩
    simp [h0, rdP, advance]
  have hw : sp.writes g.mode = [.p k] := by simp [VSpec.writes, hd, h0]
  rw [hw]
  have key := lanes_fold (fun sl l x => writeReg sp.lat (p.2.count + max sp.wait 1) sl (.p k) l (BitVec.ofNat 32 x)) (fun sl l => rdP sl k l)
    (fun x => BitVec.ofNat 32 x != 0#32)
    (fun a b => (∃ v q, b = { a with p := v, pend := q }) ∧ ∀ q l, q < 8 → l < 4 → q ≠ k → rdP b q l = rdP a q l)
    (fun a => ⟨⟨_, _, rfl⟩, fun _ _ _ _ _ => rfl⟩)
    (fun a b c hab hbc => by
      obtain ⟨⟨v, q, rfl⟩, k1⟩ := hab
      obtain ⟨⟨v', q', rfl⟩, k2⟩ := hbc
      exact ⟨⟨_, _, rfl⟩, fun r l h8 h4 hq => (k2 r l h8 h4 hq).trans (k1 r l h8 h4 hq)⟩)
    (fun sl i x hi => by
      refine ⟨?_, fun q l hq8 hl4 hq => ?_⟩
      · unfold writeReg wrP
        simp only [h0, if_false]
        cases sp.lat <;> exact ⟨_, _, rfl⟩
      · have : rdP (writeReg sp.lat (p.2.count + max sp.wait 1) sl (.p k) i (BitVec.ofNat 32 x)) q l =
            rdP (wrP sl k i (BitVec.ofNat 32 x != 0#32)) q l := by unfold writeReg; cases sp.lat <;> rfl
        rw [this, rdP_wrP _ _ _ _ _ _ hi hq8 hl4, if_neg (fun hc => hq hc.1)])
    (fun sl i x l hi hl4 => by
      have : rdP (writeReg sp.lat (p.2.count + max sp.wait 1) sl (.p k) i (BitVec.ofNat 32 x)) k l =
          rdP (wrP sl k i (BitVec.ofNat 32 x != 0#32)) k l := by unfold writeReg; cases sp.lat <;> rfl
      show rdP _ k l = _
      rw [this, rdP_wrP _ _ _ _ _ _ hi hk hl4]
      simp [h0])
    p.1 p.2 ((activeLanes g sp.wait).map (sp.laneIn g)) (fun i => (f g.mode i).1) (laneIn_lt sp) (laneIn_nodup h.nums sp)
  have hwl : writeLanes sp.lat (p.2.count + max sp.wait 1) [.p k] p.1 p.2
      (((activeLanes g sp.wait).map (sp.laneIn g)).map fun i => (i, (f g.mode i).1)) =
      (((activeLanes g sp.wait).map (sp.laneIn g)).map fun i => (i, (f g.mode i).1)).foldl
        (fun sl e => if e.1.sl = p.1 then writeReg sp.lat (p.2.count + max sp.wait 1) sl (.p k) e.1.ln (BitVec.ofNat 32 e.2) else sl) p.2 := rfl
  rw [hwl]
  obtain ⟨⟨⟨v, q, hv⟩, e1⟩, e2⟩ := key
  refine ⟨?_, fun q' l hq8 hl4 => ?_⟩
  · rw [hv]
    simp [OnlyP, sameTurn, advance, (h.slices p hp).1]
  · have hadv : ∀ (sl : Slice) (c : Nat), rdP { advance sp.wait sl with cohort := c } q' l = rdP sl q' l := fun _ _ => rfl
    rw [hadv]
    by_cases hq : q' = k
    · subst hq
      rw [e2 l hl4, find_lane h sp hp hl4]
      by_cases ha : activeIn p.2 l = true
      · simp [ha, h0]
      · simp [ha]
    · rw [e1 q' l hq8 hl4 hq, if_neg (fun hc => hq hc.1)]

theorem rdX_wrX (sl : Slice) (r l : Nat) (x : W32) (q m : Nat) (hl : l < 4) (hm : m < 4) :
    rdX (wrX sl r l x) q m = if q = r ∧ m = l then x &&& 0xFFFEFFFF#32 else rdX sl q m := by
  simp only [rdX, wrX, tget_tset]
  by_cases h : q = r ∧ m = l
  · rw [if_pos h, if_pos (by omega)]
  · rw [if_neg h, if_neg (by omega)]

/-- A legal vector instruction that writes an index register lane by lane. -/
theorem perLane_x_ready {s : State} {g : Gang} (h : GangReady s g) (sp : VSpec) (f : W64 → LaneIn → Nat × Fl) (k : Nat)
    (he : sp.encOk = true) (ho : sp.ok g.team.nregs g.mode = true) (hr : sp.run = perLane f) (hd : sp.dst = .x k) :
    ∃ t, vec sp s = .next t ∧
      GangGoes (raiseFl s g.grid.tenant (perLane f g.mode ((activeLanes g sp.wait).map (sp.laneIn g))).2) g t (fun n sl sl' =>
        IndexSet k (fun sl l => BitVec.ofNat 32 (f g.mode (sp.laneIn g (n, sl, l))).1) sl sl') := by
  obtain ⟨t, h1, h2⟩ := vec_ready h sp he ho
  refine ⟨t, h1, ?_⟩
  rw [hr] at h2
  refine h2.mono fun p hp sl' => ?_
  rintro ⟨c, rfl⟩
  rw [perLane_zip]
  have hw : sp.writes g.mode = [.x k] := by simp [VSpec.writes, hd]
  rw [hw]
  have key := lanes_fold (fun sl l x => writeReg sp.lat (p.2.count + max sp.wait 1) sl (.x k) l (BitVec.ofNat 32 x)) (fun sl l => rdX sl k l)
    (fun x => BitVec.ofNat 32 x &&& 0xFFFEFFFF#32)
    (fun a b => (∃ v q, b = { a with x := v, pend := q }) ∧ ∀ q l, l < 4 → q ≠ k → rdX b q l = rdX a q l)
    (fun a => ⟨⟨_, _, rfl⟩, fun _ _ _ _ => rfl⟩)
    (fun a b c hab hbc => by
      obtain ⟨⟨v, q, rfl⟩, k1⟩ := hab
      obtain ⟨⟨v', q', rfl⟩, k2⟩ := hbc
      exact ⟨⟨_, _, rfl⟩, fun r l h4 hq => (k2 r l h4 hq).trans (k1 r l h4 hq)⟩)
    (fun sl i x hi => by
      refine ⟨by unfold writeReg wrX; cases sp.lat <;> exact ⟨_, _, rfl⟩, fun q l hl4 hq => ?_⟩
      have : rdX (writeReg sp.lat (p.2.count + max sp.wait 1) sl (.x k) i (BitVec.ofNat 32 x)) q l =
          rdX (wrX sl k i (BitVec.ofNat 32 x)) q l := by unfold writeReg; cases sp.lat <;> rfl
      rw [this, rdX_wrX _ _ _ _ _ _ hi hl4, if_neg (fun hc => hq hc.1)])
    (fun sl i x l hi hl4 => by
      have : rdX (writeReg sp.lat (p.2.count + max sp.wait 1) sl (.x k) i (BitVec.ofNat 32 x)) k l =
          rdX (wrX sl k i (BitVec.ofNat 32 x)) k l := by unfold writeReg; cases sp.lat <;> rfl
      show rdX _ k l = _
      rw [this, rdX_wrX _ _ _ _ _ _ hi hl4]
      simp)
    p.1 p.2 ((activeLanes g sp.wait).map (sp.laneIn g)) (fun i => (f g.mode i).1) (laneIn_lt sp) (laneIn_nodup h.nums sp)
  have hwl : writeLanes sp.lat (p.2.count + max sp.wait 1) [.x k] p.1 p.2
      (((activeLanes g sp.wait).map (sp.laneIn g)).map fun i => (i, (f g.mode i).1)) =
      (((activeLanes g sp.wait).map (sp.laneIn g)).map fun i => (i, (f g.mode i).1)).foldl
        (fun sl e => if e.1.sl = p.1 then writeReg sp.lat (p.2.count + max sp.wait 1) sl (.x k) e.1.ln (BitVec.ofNat 32 e.2) else sl) p.2 := rfl
  rw [hwl]
  obtain ⟨⟨⟨v, q, hv⟩, e1⟩, e2⟩ := key
  refine ⟨?_, fun q' l hl4 => ?_⟩
  · rw [hv]
    simp [OnlyX, sameTurn, advance, (h.slices p hp).1]
  · have hadv : ∀ (sl : Slice) (c : Nat), rdX { advance sp.wait sl with cohort := c } q' l = rdX sl q' l := fun _ _ => rfl
    rw [hadv]
    by_cases hq : q' = k
    · subst hq
      rw [e2 l hl4, find_lane h sp hp hl4]
      by_cases ha : activeIn p.2 l = true
      · simp [ha]
      · simp [ha]
    · rw [e1 q' l hl4 hq, if_neg (fun hc => hq hc.1)]

end Sys2Proof.Machine
end

