-- ==== Sys2Proof/Laws/VecInt.lean ====
section
/-! SUPPORT. What vector instructions on operands of one register or a pair write, and elements, wrapping and clamping. -/

namespace Sys2Proof.Machine

/-! ## Operands -/

theorem readOpt_opnd {s : State} {g : Gang} (h : GangReady s g) {p : Nat × Slice} (hp : p ∈ g.sl) (l c : Nat) (pair : Bool) (r : Nat) :
    readOpt p.2 l c pair (some r) = opnd pair p.2 r l := by
  simp [readOpt, opnd, readV, pendOld, (h.slices p hp).2.2.1]

theorem readP_ready {s : State} {g : Gang} (h : GangReady s g) {p : Nat × Slice} (hp : p ∈ g.sl) (k l c : Nat) :
    readP p.2 k l c = rdP p.2 k l := by
  unfold readP pendOld
  simp only [(h.slices p hp).2.2.1, List.find?_nil, Option.map_none]
  by_cases hz : k = 0 <;> simp [hz, rdP]

theorem readX_ready {s : State} {g : Gang} (h : GangReady s g) {p : Nat × Slice} (hp : p ∈ g.sl) (k l c : Nat) :
    readX p.2 k l c = rdX p.2 k l := by
  simp [readX, pendOld, (h.slices p hp).2.2.1]

theorem writeDst_v (lat : Option Nat) (c : Nat) (ds : List Nat) (sl : Slice) (l x : Nat) :
    SameButV sl (writeDst lat c (ds.map RegId.v) sl l x) := by
  match ds with
  | [] => exact SameButV.refl _
  | [k] => exact writeReg_v ..
  | k :: q :: _ => exact SameButV.trans (writeReg_v ..) (writeReg_v ..)

/-- The operand that a lane's result leaves. -/
theorem opnd_writeDst (lat : Option Nat) (c : Nat) (pair : Bool) (d : Nat) (sl : Slice) (i x l : Nat) (hi : i < 4) (hl : l < 4) :
    opnd pair (writeDst lat c ((regsOf pair d).map RegId.v) sl i x) d l =
      if l = i then x % 2 ^ (if pair then 64 else 32) else opnd pair sl d l := by
  cases pair
  · simp only [regsOf, Bool.false_eq_true, if_false, List.map_cons, List.map_nil, writeDst, opnd,
      rdV_writeReg_v _ _ _ _ _ _ _ _ hi hl, true_and, Nat.add_zero]
    split <;> simp
  · simp only [regsOf, if_true, List.map_cons, List.map_nil, writeDst, opnd,
      rdV_writeReg_v _ _ _ _ _ _ _ _ hi hl, true_and]
    by_cases h : l = i
    · simp only [h, and_true, if_true, BitVec.toNat_ofNat]
      rw [if_neg (by omega)]
      simp only [BitVec.toNat_ofNat]
      omega
    · simp [h]

/-- A legal vector instruction whose lanes compute one operand each by themselves. -/
theorem perLane_opnd {s : State} {g : Gang} (h : GangReady s g) (sp : VSpec) (f : W64 → LaneIn → Nat × Fl) (d : Nat)
    (he : sp.encOk = true) (ho : sp.ok g.team.nregs g.mode = true) (hr : sp.run = perLane f) (hd : sp.dst = .v d) :
    ∃ t, vec sp s = .next t ∧
      GangGoes (raiseFl s g.grid.tenant (perLane f g.mode ((activeLanes g sp.wait).map (sp.laneIn g))).2) g t (fun n sl sl' =>
        OpndSet (sp.pairD g.mode) d (fun sl l => (f g.mode (sp.laneIn g (n, sl, l))).1) sl sl') := by
  obtain ⟨t, h1, h2⟩ := vec_ready h sp he ho
  refine ⟨t, h1, ?_⟩
  rw [hr] at h2
  refine h2.mono fun p hp sl' => ?_
  rintro ⟨c, rfl⟩
  rw [perLane_zip]
  have hw : sp.writes g.mode = (regsOf (sp.pairD g.mode) d).map RegId.v := by simp [VSpec.writes, hd]
  rw [hw]
  obtain ⟨e1, e2⟩ := writeLanes_touched sp.lat (p.2.count + max sp.wait 1) p.1 (regsOf (sp.pairD g.mode) d) p.2
    (((activeLanes g sp.wait).map (sp.laneIn g)).map fun i => (i, (f g.mode i).1)) fun e he => by
      obtain ⟨i, hi, rfl⟩ := List.mem_map.1 he
      exact laneIn_lt sp i hi
  have key := lanes_fold (fun sl l x => writeDst sp.lat (p.2.count + max sp.wait 1) ((regsOf (sp.pairD g.mode) d).map RegId.v) sl l x)
    (fun sl l => opnd (sp.pairD g.mode) sl d l) (fun x => x % 2 ^ (if sp.pairD g.mode then 64 else 32)) (fun _ _ => True)
    (fun _ => trivial) (fun _ _ _ _ _ => trivial) (fun _ _ _ _ => trivial)
    (fun sl i x l hi hl => opnd_writeDst _ _ _ _ _ _ _ _ hi hl)
    p.1 p.2 ((activeLanes g sp.wait).map (sp.laneIn g)) (fun i => (f g.mode i).1) (laneIn_lt sp) (laneIn_nodup h.nums sp)
  refine ⟨⟨onlyV_advance _ _ (h.slices p hp).1 e1, fun r l hl hr => ?_⟩, fun l hl ha => ?_⟩
  · rw [rdV_advance, e2 r l hl (hr.imp id fun ha e he hc => ?_)]
    obtain ⟨i, hi, rfl⟩ := List.mem_map.1 he
    have := laneIn_active h sp hp hi hc.1
    rw [hc.2, ha] at this
    cases this
  · have hadv : ∀ (sl : Slice) (c : Nat), opnd (sp.pairD g.mode) { advance sp.wait sl with cohort := c } d l = opnd (sp.pairD g.mode) sl d l :=
      fun _ _ => rfl
    rw [hadv]
    have k2 := key.2 l hl
    rw [find_lane h sp hp hl, if_pos ha] at k2
    exact k2

/-! ## Elements -/

theorem ofElems_lt (w : Nat) (l : List Nat) : ofElems w l < 2 ^ (w * l.length) := by
  induction l with
  | nil => simp [ofElems]
  | cons x l ih =>
    simp only [ofElems, List.length_cons, Nat.mul_add, Nat.mul_one]
    have h1 : x % 2 ^ w < 2 ^ w := Nat.mod_lt _ (Nat.two_pow_pos w)
    have h2 : 2 ^ (w * l.length + w) = 2 ^ w * 2 ^ (w * l.length) := by rw [Nat.pow_add, Nat.mul_comm]
    rw [h2]
    calc x % 2 ^ w + 2 ^ w * ofElems w l < 2 ^ w + 2 ^ w * ofElems w l := by omega
      _ = 2 ^ w * (ofElems w l + 1) := by ring
      _ ≤ 2 ^ w * 2 ^ (w * l.length) := Nat.mul_le_mul_left _ ih

theorem elem_ofElems (w e : Nat) (l : List Nat) : elem w e (ofElems w l) = l.getD e 0 % 2 ^ w := by
  induction l generalizing e with
  | nil => simp [elem, ofElems]
  | cons x l ih =>
    cases e with
    | zero => simp [elem, ofElems]
    | succ e =>
      simp only [List.getD_cons_succ, ← ih e]
      simp only [elem, ofElems, Nat.shiftRight_eq_div_pow, Nat.mul_add, Nat.mul_one]
      have : 2 ^ (w * e + w) = 2 ^ w * 2 ^ (w * e) := by rw [Nat.pow_add, Nat.mul_comm]
      rw [this, ← Nat.div_div_eq_div_mul, Nat.add_mul_div_left _ _ (Nat.two_pow_pos w),
        Nat.div_eq_of_lt (Nat.mod_lt _ (Nat.two_pow_pos w)), Nat.zero_add]

/-- Element e of the results of a function on matching elements. -/
theorem elem_mapElems (w n : Nat) (f : Nat → Nat → Nat → Nat × Fl) (a b d e : Nat) (he : e < n) :
    elem w e (mapElems w n f a b d).1 = (f (elem w e a) (elem w e b) (elem w e d)).1 % 2 ^ w := by
  simp [mapElems, elemsOut, elem_ofElems, List.getD, he]

theorem mapElems_lt (w n : Nat) (f : Nat → Nat → Nat → Nat × Fl) (a b d : Nat) : (mapElems w n f a b d).1 < 2 ^ (w * n) := by
  have := ofElems_lt w ((List.range n).map fun e => (f (elem w e a) (elem w e b) (elem w e d)).1)
  simpa [mapElems, elemsOut, List.map_map, Function.comp_def] using this

/-! ## Integers -/

theorem ival_elem (sgn : Bool) (w e x : Nat) :
    ival sgn w (elem w e x) = if sgn then (BitVec.ofNat w (x / 2 ^ (w * e))).toInt else ((BitVec.ofNat w (x / 2 ^ (w * e))).toNat : Int) := by
  simp only [ival, sval, elem, Nat.shiftRight_eq_div_pow, Nat.mod_mod, BitVec.toInt, BitVec.toNat_ofNat]
  push_cast
  rfl

/-- Flags of which each is one flag or none. -/
theorem flags_join (x : Fl) (l : List Fl) (h : ∀ y ∈ l, y = 0 ∨ y = x) (acc : Fl) (ha : acc = 0 ∨ acc = x) :
    l.foldl (· ||| ·) acc = if acc = x ∨ x ∈ l then x else 0 := by
  induction l generalizing acc with
  | nil => rcases ha with rfl | rfl <;> simp
  | cons y l ih =>
    have h' : ∀ z ∈ l, z = 0 ∨ z = x := fun z hz => h z (List.mem_cons_of_mem _ hz)
    have hy := h y (List.mem_cons_self ..)
    rw [List.foldl_cons, ih h' _ (by rcases ha with rfl | rfl <;> rcases hy with rfl | rfl <;> simp)]
    by_cases hx : x = 0
    · subst hx; simp
    · have hx' : x ≠ 0#10 := hx
      rcases ha with rfl | rfl <;> rcases hy with rfl | rfl <;> simp [hx', Ne.symm hx']

/-- Flags joined over a list, each the SAT flag or none. -/
theorem join_sat {α : Type} (L : List α) (f : α → Fl) (hf : ∀ a ∈ L, f a = 0 ∨ f a = flSAT) :
    ((L.map f).foldl (· ||| ·) 0 = 0 ∨ (L.map f).foldl (· ||| ·) 0 = flSAT) ∧
    ((L.map f).foldl (· ||| ·) 0 = flSAT ↔ ∃ a ∈ L, f a = flSAT) := by
  have h0 : (0 : Fl) ≠ flSAT := by decide
  have e := flags_join flSAT (L.map f) (by simpa using hf) 0 (Or.inl rfl)
  rw [e]
  simp only [List.mem_map, h0, false_or]
  by_cases h : ∃ a ∈ L, f a = flSAT
  · rw [if_pos h]
    exact ⟨Or.inr rfl, iff_of_true rfl h⟩
  · rw [if_neg h]
    exact ⟨Or.inl rfl, iff_of_false h0 h⟩

theorem satWrap_flag (c : ICls) (sat : Bool) (v : Int) :
    ((satWrap c sat v).2 = 0 ∨ (satWrap c sat v).2 = flSAT) ∧
    ((satWrap c sat v).2 = flSAT ↔ sat = true ∧ (clampI c.sgn c.w v).2 = true) := by
  have h0 : (0 : Fl) ≠ flSAT := by decide
  cases sat
  · exact ⟨Or.inl rfl, iff_of_false h0 (by simp)⟩
  · have e : (satWrap c true v).2 = flIf (clampI c.sgn c.w v).2 flSAT := rfl
    rw [e]
    cases hc : (clampI c.sgn c.w v).2
    · exact ⟨Or.inl rfl, iff_of_false h0 (by simp)⟩
    · exact ⟨Or.inr rfl, iff_of_true rfl ⟨rfl, rfl⟩⟩

/-- A source that may be absent. -/
def optOpnd (pair : Bool) (sl : Slice) (l : Nat) : Option Nat → Nat
  | none => 0
  | some r => opnd pair sl r l

theorem readOpt_optOpnd {s : State} {g : Gang} (h : GangReady s g) {p : Nat × Slice} (hp : p ∈ g.sl) (l c : Nat) (pair : Bool)
    (r : Option Nat) : readOpt p.2 l c pair r = optOpnd pair p.2 l r := by
  cases r with
  | none => rfl
  | some r => exact readOpt_opnd h hp l c pair r

/-- The exact result of an integer-class instruction for element e of a lane. -/
def intExact (c : ICls) (pair : Bool) (F : Int → Int → Int → Int) (sl : Slice) (l : Nat) (a b d : Option Nat) (e : Nat) : Int :=
  F (ival c.sgn c.w (elem c.w e (optOpnd pair sl l a))) (ival c.sgn c.w (elem c.w e (optOpnd pair sl l b)))
    (ival c.sgn c.w (elem c.w e (optOpnd pair sl l d)))

theorem iclass_size {n : Nat} {c : ICls} (h : iclass n = some c) : c.w * c.n = if n == 11 then 64 else 32 := by
  unfold iclass at h
  split at h <;> first | cases h; rfl | skip
  cases h

theorem activeLanes_of {s : State} {g : Gang} (h : GangReady s g) (w : Nat) {p : Nat × Slice} (hp : p ∈ g.sl) {l : Nat} (hl : l < 4)
    (ha : activeIn p.2 l = true) : (p.1, p.2, l) ∈ activeLanes g w :=
  activeLanes_mem.2 ⟨hp, hl, by rw [laneActive_ready h hp]; exact ha⟩

/-- Elements of an integer-class instruction wrapped or clamped one by one. -/
theorem elem_satWrap (c : ICls) (sat : Bool) (v : Nat → Int) (e : Nat) (he : e < c.n) :
    elem c.w e (elemsOut c.w ((List.range c.n).map fun e => satWrap c sat (v e))).1 =
      wrapN c.w (if sat then (clampI c.sgn c.w (v e)).1 else v e) % 2 ^ c.w := by
  have : ((List.range c.n).map (Prod.fst ∘ fun e => satWrap c sat (v e))).getD e 0 = (satWrap c sat (v e)).1 := by simp [List.getD, he]
  simp only [elemsOut, elem_ofElems, List.map_map, this]
  cases sat <;> rfl

/-- A legal integer-class instruction that acts element by element: exact results, clamped under SAT where `clamps`, else
wrapped, and the SAT flag. -/
theorem intEl_ready {s : State} {g : Gang} (h : GangReady s g) (hh w d a : Nat) (b : Option Nat) (useD : Bool) (lat : Nat)
    (clamps : Bool) (F : ICls → Int → Int → Int → Int) (c : ICls) (hc : iclass (modeEtype g.mode) = some c)
    (sp : VSpec) (hsp : sp = intElSpec hh w d a b useD lat (fun c sat x y z => intEl c (sat && clamps) (F c) x y z))
    (he : sp.encOk = true) (ho : sp.ok g.team.nregs g.mode = true) :
    ∃ t fl, vec sp s = .next t ∧ (fl = 0 ∨ fl = flSAT) ∧
      (fl = flSAT ↔ modeSat g.mode = true ∧ clamps = true ∧ ∃ p ∈ g.sl, ∃ l < 4, activeIn p.2 l = true ∧ ∃ e < c.n,
        (clampI c.sgn c.w (intExact c (isI64 g.mode) (F c) p.2 l (some a) b (if useD then some d else none) e)).2 = true) ∧
      GangGoes (raiseFl s g.grid.tenant fl) g t (fun _ sl sl' =>
        LanesTouched (regsOf (isI64 g.mode) d) sl sl' ∧
        ∀ l, l < 4 → activeIn sl l = true → ∀ e, e < c.n →
          elem c.w e (opnd (isI64 g.mode) sl' d l) = wrapN c.w
            (if modeSat g.mode && clamps
              then (clampI c.sgn c.w (intExact c (isI64 g.mode) (F c) sl l (some a) b (if useD then some d else none) e)).1
              else intExact c (isI64 g.mode) (F c) sl l (some a) b (if useD then some d else none) e) % 2 ^ c.w) := by
  have hrun : sp.run = perLane (fun m i => match iclass (modeEtype m) with
        | some c => mapElems c.w c.n (fun x y z => intEl c (modeSat m && clamps) (F c) x y z) i.a i.b i.d
        | none => (0, 0)) := by rw [hsp]; rfl
  have hdst : sp.dst = .v d := by rw [hsp]; rfl
  have hpair : sp.pairD g.mode = isI64 g.mode := by rw [hsp]; rfl
  have hel : ∀ p ∈ g.sl, ∀ l, mapElems c.w c.n (fun x y z => intEl c (modeSat g.mode && clamps) (F c) x y z)
      (sp.laneIn g (p.1, p.2, l)).a (sp.laneIn g (p.1, p.2, l)).b (sp.laneIn g (p.1, p.2, l)).d =
      elemsOut c.w ((List.range c.n).map fun e => satWrap c (modeSat g.mode && clamps)
        (intExact c (isI64 g.mode) (F c) p.2 l (some a) b (if useD then some d else none) e)) := by
    intro p hp l
    subst hsp
    simp only [VSpec.laneIn, readOpt_optOpnd h hp]
    rfl
  clear hsp
  obtain ⟨t, h1, h2⟩ := perLane_opnd h _ _ d he ho hrun hdst
  have hfl : (perLane (fun m i => match iclass (modeEtype m) with
        | some c => mapElems c.w c.n (fun x y z => intEl c (modeSat m && clamps) (F c) x y z) i.a i.b i.d
        | none => (0, 0)) g.mode ((activeLanes g sp.wait).map (sp.laneIn g))).2 =
      ((activeLanes g sp.wait).map fun q => ((List.range c.n).map fun e => (satWrap c (modeSat g.mode && clamps)
        (intExact c (isI64 g.mode) (F c) q.2.1 q.2.2 (some a) b (if useD then some d else none) e)).2).foldl (· ||| ·) 0).foldl (· ||| ·) 0 := by
    simp only [perLane, hc, List.map_map]
    congr 1
    apply List.map_congr_left
    rintro ⟨n, sl, l⟩ hq
    obtain ⟨hp, -, -⟩ := activeLanes_mem.1 hq
    simp only [Function.comp]
    rw [hel (n, sl) hp l]
    simp only [elemsOut, List.map_map]
    rfl
  rw [hfl] at h2
  have hone := fun (q : Nat × Slice × Nat) => join_sat (List.range c.n) (fun e => (satWrap c (modeSat g.mode && clamps)
        (intExact c (isI64 g.mode) (F c) q.2.1 q.2.2 (some a) b (if useD then some d else none) e)).2) fun e _ => (satWrap_flag _ _ _).1
  obtain ⟨f1, f2⟩ := join_sat (activeLanes g sp.wait) (fun q => ((List.range c.n).map fun e => (satWrap c (modeSat g.mode && clamps)
        (intExact c (isI64 g.mode) (F c) q.2.1 q.2.2 (some a) b (if useD then some d else none) e)).2).foldl (· ||| ·) 0) fun q _ => (hone q).1
  refine ⟨t, _, h1, f1, ?_, h2.mono fun p hp sl' => ?_⟩
  · rw [f2]
    simp only [(hone _).2, (satWrap_flag _ _ _).2, Bool.and_eq_true, List.mem_range]
    constructor
    · rintro ⟨q, hq, e, he, ⟨k1, k2⟩, k3⟩
      obtain ⟨hp, hl, hact⟩ := activeLanes_mem.1 hq
      rw [laneActive_ready h hp] at hact
      exact ⟨k1, k2, (q.1, q.2.1), hp, q.2.2, hl, hact, e, he, k3⟩
    · rintro ⟨k1, k2, p, hp, l, hl, hact, e, he, k3⟩
      exact ⟨(p.1, p.2, l), activeLanes_of h _ hp hl hact, e, he, ⟨k1, k2⟩, k3⟩
  · rintro ⟨k1, k2⟩
    rw [hpair] at k1 k2
    refine ⟨k1, fun l hl ha e he => ?_⟩
    have k := k2 l hl ha
    simp only [hc] at k
    rw [hel p hp l] at k
    rw [k, Nat.mod_eq_of_lt]
    · exact elem_satWrap c _ _ e he
    · have hs := iclass_size hc
      have := ofElems_lt c.w (((List.range c.n).map fun e => satWrap c (modeSat g.mode && clamps)
        (intExact c (isI64 g.mode) (F c) p.2 l (some a) b (if useD then some d else none) e)).map Prod.fst)
      simp only [List.length_map, List.length_range, hs] at this
      exact this

/-! ## Instructions that raise no flag -/

theorem perLane_flags (f : W64 → LaneIn → Nat × Fl) (m : W64) (hf : ∀ i, (f m i).2 = 0) (L : List LaneIn) : (perLane f m L).2 = 0 := by
  simp only [perLane, List.map_map]
  have : ∀ (L : List LaneIn) (acc : Fl), acc = 0 → (L.map (Prod.snd ∘ f m)).foldl (· ||| ·) acc = 0 := by
    intro L
    induction L with
    | nil => exact fun acc h => h
    | cons i L ih =>
      intro acc h
      simp only [List.map_cons, List.foldl_cons, Function.comp, hf, h]
      exact ih _ rfl
  exact this L 0 rfl

theorem raiseFl_zero (s : State) (ten : Nat) : raiseFl s ten 0 = s := by simp [raiseFl]

theorem LanesSet.congr {d : Nat} {v v' : Slice → Nat → W32} {sl sl' : Slice} (h : LanesSet d v sl sl')
    (hv : ∀ l, l < 4 → activeIn sl l = true → v sl l = v' sl l) : LanesSet d v' sl sl' := by
  refine ⟨h.1, fun r l hl => ?_⟩
  rw [h.2 r l hl]
  by_cases hc : r = d ∧ activeIn sl l = true
  · rw [if_pos hc, if_pos hc, hv l hl hc.2]
  · rw [if_neg hc, if_neg hc]

/-- A vector instruction that gives each active lane one word of its own and raises no flag. -/
theorem lane_value {s : State} {g : Gang} (h : GangReady s g) (sp : VSpec) (f : W64 → LaneIn → Nat × Fl) (d : Nat)
    (val : Nat → Slice → Nat → W32)
    (he : sp.encOk = true) (ho : sp.ok g.team.nregs g.mode = true) (hr : sp.run = perLane f) (hw : sp.writes g.mode = [.v d])
    (hf : ∀ i, (f g.mode i).2 = 0)
    (hv : ∀ p ∈ g.sl, ∀ l, l < 4 → BitVec.ofNat 32 (f g.mode (sp.laneIn g (p.1, p.2, l))).1 = val p.1 p.2 l) :
    ∃ t, vec sp s = .next t ∧ GangGoes s g t (fun n sl sl' => LanesSet d (val n) sl sl') := by
  obtain ⟨t, h1, h2⟩ := perLane_ready h sp f d he ho hr hw
  rw [perLane_flags f g.mode hf, raiseFl_zero] at h2
  exact ⟨t, h1, h2.mono fun p hp sl' k => k.congr fun l hl _ => hv p hp l hl⟩

/-- The same for a predicate. -/
theorem lane_pred {s : State} {g : Gang} (h : GangReady s g) (sp : VSpec) (f : W64 → LaneIn → Nat × Fl) (k : Nat) (hk : k < 8)
    (val : Slice → Nat → Bool)
    (he : sp.encOk = true) (ho : sp.ok g.team.nregs g.mode = true) (hr : sp.run = perLane f) (hd : sp.dst = .p k)
    (hf : ∀ i, (f g.mode i).2 = 0)
    (hv : ∀ p ∈ g.sl, ∀ l, l < 4 → (BitVec.ofNat 32 (f g.mode (sp.laneIn g (p.1, p.2, l))).1 != 0#32) = val p.2 l) :
    ∃ t, vec sp s = .next t ∧ GangGoes s g t (fun _ sl sl' => PredSet k val sl sl') := by
  obtain ⟨t, h1, h2⟩ := perLane_p_ready h sp f k hk he ho hr hd
  rw [perLane_flags f g.mode hf, raiseFl_zero] at h2
  refine ⟨t, h1, h2.mono fun p hp sl' k => ⟨k.1, fun q l hq hl => ?_⟩⟩
  have e := hv p hp l hl
  rw [k.2 q l hq hl]
  simp only [e]

/-- The same for an index register. -/
theorem lane_index {s : State} {g : Gang} (h : GangReady s g) (sp : VSpec) (f : W64 → LaneIn → Nat × Fl) (k : Nat)
    (val : Slice → Nat → W32)
    (he : sp.encOk = true) (ho : sp.ok g.team.nregs g.mode = true) (hr : sp.run = perLane f) (hd : sp.dst = .x k)
    (hf : ∀ i, (f g.mode i).2 = 0)
    (hv : ∀ p ∈ g.sl, ∀ l, l < 4 → BitVec.ofNat 32 (f g.mode (sp.laneIn g (p.1, p.2, l))).1 = val p.2 l) :
    ∃ t, vec sp s = .next t ∧ GangGoes s g t (fun _ sl sl' => IndexSet k val sl sl') := by
  obtain ⟨t, h1, h2⟩ := perLane_x_ready h sp f k he ho hr hd
  rw [perLane_flags f g.mode hf, raiseFl_zero] at h2
  refine ⟨t, h1, h2.mono fun p hp sl' k => ⟨k.1, fun q l hl => ?_⟩⟩
  have e := hv p hp l hl
  rw [k.2 q l hl]
  simp only [e]

end Sys2Proof.Machine
end

