-- ==== Sys2Proof/Laws/VecFloat.lean ====
section
/-! SUPPORT. Float-class instructions element by element, the order of encodings, and the encodings a result can have. -/

namespace Sys2Proof.Machine

theorem regsOf_single (d : Nat) : regsOf false d = [d] := rfl

theorem fclass_size {n : Nat} {c : Fmt × Nat} (h : fclass n = some c) : c.1.width * c.2 = 32 := by
  unfold fclass at h
  split at h <;> first | (cases h; rfl) | cases h

/-- A legal float-class instruction acts element by element; it raises nothing where its elements raise nothing. -/
theorem floatEl_ready {s : State} {g : Gang} (h : GangReady s g) (hh w d a : Nat) (b : Option Nat) (useD : Bool) (lat : Option Nat)
    (F : Fmt → FMode → Nat → Nat → Nat → Nat × Fl) (c : Fmt × Nat) (hc : fclass (modeEtype g.mode) = some c)
    (sp : VSpec) (hsp : sp = floatSpec hh w d a b useD lat F)
    (he : sp.encOk = true) (ho : sp.ok g.team.nregs g.mode = true) :
    ∃ t fl, vec sp s = .next t ∧ ((∀ x y z, (F c.1 (fmodeOf g.mode) x y z).2 = 0) → fl = 0) ∧
      GangGoes (raiseFl s g.grid.tenant fl) g t (fun _ sl sl' =>
        LanesTouched [d] sl sl' ∧
        ∀ l, l < 4 → activeIn sl l = true → ∀ e, e < c.2 →
          elem c.1.width e (rdV sl' d l).toNat = (F c.1 (fmodeOf g.mode) (elem c.1.width e (optOpnd false sl l (some a)))
            (elem c.1.width e (optOpnd false sl l b)) (elem c.1.width e (optOpnd false sl l (if useD then some d else none)))).1 % 2 ^ c.1.width) := by
  have hrun : sp.run = perLane (fun m i => match fclass (modeEtype m) with
      | some (ft, n) => mapElems ft.width n (F ft (fmodeOf m)) i.a i.b i.d
      | none => (0, 0)) := by rw [hsp]; rfl
  have hdst : sp.dst = .v d := by rw [hsp]; rfl
  have hpair : sp.pairD g.mode = false := by rw [hsp]; rfl
  have hel : ∀ p ∈ g.sl, ∀ l, mapElems c.1.width c.2 (F c.1 (fmodeOf g.mode))
      (sp.laneIn g (p.1, p.2, l)).a (sp.laneIn g (p.1, p.2, l)).b (sp.laneIn g (p.1, p.2, l)).d =
      mapElems c.1.width c.2 (F c.1 (fmodeOf g.mode)) (optOpnd false p.2 l (some a)) (optOpnd false p.2 l b)
        (optOpnd false p.2 l (if useD then some d else none)) := by
    intro p hp l
    subst hsp
    simp only [VSpec.laneIn, readOpt_optOpnd h hp]
    rfl
  clear hsp
  obtain ⟨t, h1, h2⟩ := perLane_opnd h sp _ d he ho hrun hdst
  refine ⟨t, _, h1, fun hz => ?_, h2.mono fun p hp sl' => ?_⟩
  · refine perLane_flags _ _ (fun i => ?_) _
    obtain ⟨f, n⟩ := c
    simp only [hc, mapElems, elemsOut, List.map_map]
    have : ∀ L : List Nat, (L.map (Prod.snd ∘ fun e => F f (fmodeOf g.mode) (elem f.width e i.a) (elem f.width e i.b) (elem f.width e i.d))).foldl (· ||| ·) 0 = 0 := by
      intro L
      induction L with
      | nil => rfl
      | cons e L ih =>
        simp only [List.map_cons, List.foldl_cons, Function.comp, hz] at ih ⊢
        exact ih
    exact this _
  · rintro ⟨k1, k2⟩
    rw [hpair] at k1 k2
    refine ⟨k1, fun l hl ha e he => ?_⟩
    have k := k2 l hl ha
    obtain ⟨f, n⟩ := c
    simp only [hc] at k
    rw [hel p hp l] at k
    have ho : opnd false sl' d l = (rdV sl' d l).toNat := by simp [opnd]
    rw [ho] at k
    rw [k, Nat.mod_eq_of_lt]
    · exact elem_mapElems _ _ _ _ _ _ _ he
    · have := mapElems_lt f.width n (F f (fmodeOf g.mode)) (optOpnd false p.2 l (some a)) (optOpnd false p.2 l b)
        (optOpnd false p.2 l (if useD then some d else none))
      rw [fclass_size hc] at this
      exact this

/-! ## Encodings -/

/-- The formats of vector elements (R362). -/
theorem fclass_fmt {n : Nat} {c : Fmt × Nat} (h : fclass n = some c) : c.1.hasInf = true ∧ 0 < c.1.fw ∧ 1 < c.1.ew := by
  unfold fclass at h
  split at h <;> first | (cases h; decide) | cases h

/-- The magnitude of an encoding, and the finite magnitude it stands for in units of the least subnormal. -/
def magOf (f : Fmt) (x : Nat) : Nat := x % 2 ^ (f.ew + f.fw)
def units (f : Fmt) (mag : Nat) : Nat := if mag / 2 ^ f.fw = 0 then mag % 2 ^ f.fw else (mag % 2 ^ f.fw + 2 ^ f.fw) * 2 ^ (mag / 2 ^ f.fw - 1)

theorem units_lt {f : Fmt} {x y : Nat} (h : x < y) : units f x < units f y := by
  have hp : 0 < 2 ^ f.fw := Nat.two_pow_pos _
  have hx := Nat.div_add_mod x (2 ^ f.fw)
  have hy := Nat.div_add_mod y (2 ^ f.fw)
  have mx := Nat.mod_lt x hp
  have my := Nat.mod_lt y hp
  have hd : x / 2 ^ f.fw ≤ y / 2 ^ f.fw := Nat.div_le_div_right (Nat.le_of_lt h)
  unfold units
  generalize x / 2 ^ f.fw = a at *
  generalize y / 2 ^ f.fw = b at *
  generalize x % 2 ^ f.fw = u at *
  generalize y % 2 ^ f.fw = v at *
  rcases Nat.lt_or_ge a b with hab | hab
  · have hb : b ≠ 0 := by omega
    rw [if_neg hb]
    have h1 : 1 ≤ 2 ^ (b - 1) := Nat.one_le_two_pow
    by_cases ha : a = 0
    · rw [if_pos ha]
      calc u < 2 ^ f.fw := mx
        _ ≤ (v + 2 ^ f.fw) * 1 := by omega
        _ ≤ (v + 2 ^ f.fw) * 2 ^ (b - 1) := Nat.mul_le_mul_left _ h1
    · rw [if_neg ha]
      calc (u + 2 ^ f.fw) * 2 ^ (a - 1) < (2 * 2 ^ f.fw) * 2 ^ (a - 1) := Nat.mul_lt_mul_of_pos_right (by omega) (Nat.two_pow_pos _)
        _ = 2 ^ f.fw * 2 ^ a := by
          rw [Nat.mul_comm 2, Nat.mul_assoc]
          congr 1
          rw [Nat.mul_comm, ← Nat.pow_succ]
          congr 1
          omega
        _ ≤ 2 ^ f.fw * 2 ^ (b - 1) := Nat.mul_le_mul_left _ (Nat.pow_le_pow_right (by decide) (by omega))
        _ ≤ (v + 2 ^ f.fw) * 2 ^ (b - 1) := Nat.mul_le_mul_right _ (by omega)
  · have hab' : a = b := by omega
    subst hab'
    have huv : u < v := by omega
    split
    · exact huv
    · exact Nat.mul_lt_mul_of_pos_right (by omega) (Nat.two_pow_pos _)

/-- What an encoding stands for, in units. -/
theorem unpack_cases (f : Fmt) (hf : f.hasInf = true) (x : Nat) :
    (f.infBits < magOf f x ∧ unpack f x = .nan) ∨
    (magOf f x = f.infBits ∧ unpack f x = .inf (signOf f x)) ∨
    (magOf f x < f.infBits ∧ ∃ m k, unpack f x = .fin (signOf f x) m (f.emin + (k : Nat)) ∧ units f (magOf f x) = m * 2 ^ k) := by
  unfold unpack
  simp only [hf, true_and]
  by_cases h1 : f.infBits < magOf f x
  · exact Or.inl ⟨h1, by rw [if_pos (show f.infBits < x % 2 ^ (f.ew + f.fw) from h1)]⟩
  · rw [if_neg (show ¬ f.infBits < x % 2 ^ (f.ew + f.fw) from h1)]
    by_cases h2 : magOf f x = f.infBits
    · exact Or.inr (Or.inl ⟨h2, by rw [if_pos (show x % 2 ^ (f.ew + f.fw) = f.infBits from h2)]⟩)
    · rw [if_neg (show ¬ x % 2 ^ (f.ew + f.fw) = f.infBits from h2)]
      refine Or.inr (Or.inr ⟨by omega, ?_⟩)
      simp only [not_true_eq_false, false_and, if_false]
      by_cases h3 : x % 2 ^ (f.ew + f.fw) / 2 ^ f.fw = 0
      · rw [if_pos h3]
        refine ⟨x % 2 ^ (f.ew + f.fw) % 2 ^ f.fw, 0, by simp, ?_⟩
        simp only [units, magOf, h3, if_true, Nat.pow_zero, Nat.mul_one]
      · rw [if_neg h3]
        obtain ⟨k, hk⟩ := Nat.exists_eq_succ_of_ne_zero h3
        refine ⟨x % 2 ^ (f.ew + f.fw) % 2 ^ f.fw + 2 ^ f.fw, k, ?_, ?_⟩
        · congr 1
          rw [hk]
          push_cast
          omega
        · unfold units
          rw [if_neg (show ¬ magOf f x / 2 ^ f.fw = 0 from h3), show magOf f x / 2 ^ f.fw = k + 1 from hk]
          rfl

/-- Exact values compare as their units with signs do. -/
theorem ltNum_fin (z s t : Bool) (m n a b : Nat) (e : Int) :
    ltNum z (.fin s m (e + (a : Nat))) (.fin t n (e + (b : Nat))) =
      (decide ((if s then -((m * 2 ^ a : Nat) : Int) else ((m * 2 ^ a : Nat) : Int)) < (if t then -((n * 2 ^ b : Nat) : Int) else ((n * 2 ^ b : Nat) : Int))) ||
        (z && decide (m = 0) && decide (n = 0) && s && !t)) := by
  simp only [ltNum]
  congr 1
  have e1 : (e + (a : Int) - min (e + a) (e + b)).toNat = a - min a b := by omega
  have e2 : (e + (b : Int) - min (e + a) (e + b)).toNat = b - min a b := by omega
  rw [e1, e2]
  have ha : m * 2 ^ a = (m <<< (a - min a b)) * 2 ^ (min a b) := by
    rw [Nat.shiftLeft_eq, Nat.mul_assoc, ← Nat.pow_add]
    congr 2
    omega
  have hb : n * 2 ^ b = (n <<< (b - min a b)) * 2 ^ (min a b) := by
    rw [Nat.shiftLeft_eq, Nat.mul_assoc, ← Nat.pow_add]
    congr 2
    omega
  have hk : (0 : Int) < ((2 ^ (min a b) : Nat) : Int) := by exact_mod_cast Nat.two_pow_pos _
  rw [ha, hb]
  generalize m <<< (a - min a b) = u
  generalize n <<< (b - min a b) = v
  generalize 2 ^ (min a b) = k at hk
  rw [decide_eq_decide]
  push_cast
  cases s <;> cases t <;> simp only [Bool.false_eq_true, if_false, if_true]
  · exact ⟨fun h => Int.mul_lt_mul_of_pos_right h hk, fun h => Int.lt_of_mul_lt_mul_right h (Int.le_of_lt hk)⟩
  · rw [← Int.neg_mul]
    exact ⟨fun h => Int.mul_lt_mul_of_pos_right h hk, fun h => Int.lt_of_mul_lt_mul_right h (Int.le_of_lt hk)⟩
  · rw [← Int.neg_mul]
    exact ⟨fun h => Int.mul_lt_mul_of_pos_right h hk, fun h => Int.lt_of_mul_lt_mul_right h (Int.le_of_lt hk)⟩
  · rw [← Int.neg_mul, ← Int.neg_mul]
    exact ⟨fun h => Int.mul_lt_mul_of_pos_right h hk, fun h => Int.lt_of_mul_lt_mul_right h (Int.le_of_lt hk)⟩

/-- The order of encodings that are not NaN: the magnitude with its sign; −0 is below +0 where `z` says so. -/
def keyOf (z : Bool) (f : Fmt) (x : Nat) : Int :=
  if signOf f x then -((magOf f x : Nat) : Int) - (if z then 1 else 0) else ((magOf f x : Nat) : Int)

theorem units_zero (f : Fmt) (x : Nat) : units f x = 0 ↔ x = 0 := by
  constructor
  · intro h
    by_contra h0
    have := units_lt (f := f) (Nat.pos_of_ne_zero h0)
    have z : units f 0 = 0 := by simp [units]
    omega
  · rintro rfl
    simp [units]

theorem units_lt_iff (f : Fmt) (x y : Nat) : units f x < units f y ↔ x < y := by
  constructor
  · intro h
    by_contra hn
    rcases Nat.lt_or_eq_of_le (Nat.le_of_not_lt hn) with h1 | h1
    · have := units_lt (f := f) h1
      omega
    · rw [h1] at h
      omega
  · exact units_lt

theorem ltNum_key (z : Bool) (f : Fmt) (hf : f.hasInf = true) (h0 : 0 < f.infBits) (x y : Nat) (hx : ¬ f.infBits < magOf f x)
    (hy : ¬ f.infBits < magOf f y) : ltNum z (unpack f x) (unpack f y) = decide (keyOf z f x < keyOf z f y) := by
  rcases unpack_cases f hf x with ⟨h, -⟩ | ⟨hx1, ex⟩ | ⟨hx1, m, a, ex, ux⟩
  · exact absurd h hx
  · rcases unpack_cases f hf y with ⟨h, -⟩ | ⟨hy1, ey⟩ | ⟨hy1, n, b, ey, uy⟩
    · exact absurd h hy
    · rw [ex, ey]
      simp only [ltNum, keyOf, hx1, hy1]
      generalize f.infBits = I at h0
      cases signOf f x <;> cases signOf f y <;> cases z <;> simp <;> omega
    · rw [ex, ey]
      simp only [ltNum, keyOf, hx1]
      generalize magOf f y = M at hy1
      generalize f.infBits = I at h0 hy1
      cases signOf f x <;> cases signOf f y <;> cases z <;> simp <;> omega
  · rcases unpack_cases f hf y with ⟨h, -⟩ | ⟨hy1, ey⟩ | ⟨hy1, n, b, ey, uy⟩
    · exact absurd h hy
    · rw [ex, ey]
      simp only [ltNum, keyOf, hy1]
      generalize magOf f x = M at hx1
      generalize f.infBits = I at h0 hx1
      cases signOf f x <;> cases signOf f y <;> cases z <;> simp <;> omega
    · rw [ex, ey, ltNum_fin, ← ux, ← uy]
      have zx : m = 0 ↔ magOf f x = 0 := by
        rw [← units_zero f (magOf f x), ux]
        simp
      have zy : n = 0 ↔ magOf f y = 0 := by
        rw [← units_zero f (magOf f y), uy]
        simp
      have l1 := units_lt_iff f (magOf f x) (magOf f y)
      have l2 := units_lt_iff f (magOf f y) (magOf f x)
      have u1 := units_zero f (magOf f x)
      have u2 := units_zero f (magOf f y)
      rw [Bool.eq_iff_iff, decide_eq_true_iff (p := keyOf z f x < keyOf z f y)]
      simp only [keyOf, zx, zy, Bool.or_eq_true, Bool.and_eq_true, decide_eq_true_eq]
      generalize units f (magOf f x) = U at *
      generalize units f (magOf f y) = V at *
      generalize magOf f x = X at *
      generalize magOf f y = Y at *
      cases signOf f x <;> cases signOf f y <;> cases z <;> simp <;> omega

/-! ## Results -/

theorem bitLen_of {n k : Nat} (h1 : 2 ^ k ≤ n) (h2 : n < 2 ^ (k + 1)) : bitLen n = k + 1 := by
  have h0 : n ≠ 0 := by
    have := Nat.two_pow_pos k
    omega
  rw [bitLen, if_neg h0, (Nat.log2_eq_iff h0).2 ⟨h1, h2⟩]

theorem bitLen_le {n k : Nat} (h : n < 2 ^ k) : bitLen n ≤ k := by
  unfold bitLen
  split
  · omega
  · rename_i h0
    have := (Nat.log2_lt h0).2 h
    omega

/-- Rounding leaves an encodable finite value as it is. -/
theorem packF_unpack (f : Fmt) (hf : f.hasInf = true) (x : Nat) (hx : ¬ f.infBits < magOf f x) (hb : x < 2 ^ f.width) :
    (packF f ⟨0, false, false⟩ (unpack f x)).1 = x := by
  have hw : f.width = f.ew + f.fw + 1 := by unfold Fmt.width; omega
  have hsplit : x = withSign f (signOf f x) (magOf f x) := by
    have h1 := Nat.div_add_mod x (2 ^ (f.ew + f.fw))
    have h2 : x / 2 ^ (f.ew + f.fw) < 2 := by
      rw [Nat.div_lt_iff_lt_mul (Nat.two_pow_pos _), Nat.mul_comm, ← Nat.pow_succ]
      rwa [hw] at hb
    unfold withSign signOf magOf
    rcases Nat.lt_succ_iff_lt_or_eq.1 h2 with h3 | h3
    · have h4 : x / 2 ^ (f.ew + f.fw) = 0 := Nat.lt_one_iff.1 h3
      rw [h4] at h1 ⊢
      simp at h1 ⊢
      omega
    · rw [h3] at h1 ⊢
      simp at h1 ⊢
      omega
  have hmax : f.maxBits = f.infBits - 1 := by simp [Fmt.maxBits, hf]
  have hM : magOf f x = magOf f x / 2 ^ f.fw * 2 ^ f.fw + magOf f x % 2 ^ f.fw := by
    rw [Nat.mul_comm]
    exact (Nat.div_add_mod _ _).symm
  have hm := Nat.mod_lt (magOf f x) (Nat.two_pow_pos f.fw)
  rcases unpack_cases f hf x with ⟨h, -⟩ | ⟨hx1, ex⟩ | ⟨hx1, -⟩
  · exact absurd h hx
  · rw [ex]
    simp only [packF, hf, if_true]
    rw [← hx1]
    exact hsplit.symm
  · conv_rhs => rw [hsplit]
    unfold unpack
    simp only [hf, true_and, not_true_eq_false, false_and, if_false]
    rw [if_neg (show ¬ f.infBits < x % 2 ^ (f.ew + f.fw) from hx), if_neg (show ¬ x % 2 ^ (f.ew + f.fw) = f.infBits by change ¬ magOf f x = _; omega)]
    change (packF f _ (if magOf f x / 2 ^ f.fw = 0 then _ else _)).1 = _
    change (packF f _ (if magOf f x / 2 ^ f.fw = 0 then .fin (signOf f x) (magOf f x % 2 ^ f.fw) f.emin
      else .fin (signOf f x) (magOf f x % 2 ^ f.fw + 2 ^ f.fw) (f.emin + ((magOf f x / 2 ^ f.fw : Nat) : Int) - 1))).1 = _
    generalize signOf f x = s
    generalize magOf f x = M at *
    generalize hE : M / 2 ^ f.fw = E at *
    generalize hF : M % 2 ^ f.fw = m at *
    by_cases h0 : E = 0
    · rw [if_pos h0]
      have hMm : M = m := by rw [hM, h0]; simp
      unfold packF roundFin
      by_cases hz : m = 0
      · simp [hz, hMm]
      · simp only [hz, if_false]
        have hbl := bitLen_le hm
        have ht : max f.emin ((bitLen m : Int) + f.emin - (f.fw + 1)) = f.emin := by omega
        rw [ht]
        have hr : roundQ 0 s m f.emin f.emin = (m, false) := by simp [roundQ]
        rw [hr]
        simp only [Int.sub_self, Int.toNat_zero, Nat.zero_mul, Nat.zero_add, Bool.false_and, hmax]
        rw [if_neg (by omega), if_pos hm]
        rw [hMm]
        simp
    · rw [if_neg h0]
      unfold packF roundFin
      have hz : m + 2 ^ f.fw ≠ 0 := by
        have := Nat.two_pow_pos f.fw
        omega
      simp only [hz, if_false]
      have hbl : bitLen (m + 2 ^ f.fw) = f.fw + 1 := bitLen_of (by omega) (by rw [Nat.pow_succ]; omega)
      have ht : max f.emin ((bitLen (m + 2 ^ f.fw) : Int) + (f.emin + (E : Int) - 1) - (f.fw + 1)) = f.emin + (E : Int) - 1 := by
        rw [hbl]
        push_cast
        omega
      rw [ht]
      have hr : roundQ 0 s (m + 2 ^ f.fw) (f.emin + (E : Int) - 1) (f.emin + (E : Int) - 1) = (m + 2 ^ f.fw, false) := by simp [roundQ]
      rw [hr]
      have hk : (f.emin + (E : Int) - 1 - f.emin).toNat = E - 1 := by omega
      have hmag : (E - 1) * 2 ^ f.fw + (m + 2 ^ f.fw) = M := by
        rw [hM]
        obtain ⟨k, rfl⟩ : ∃ k, E = k + 1 := ⟨E - 1, by omega⟩
        simp only [Nat.add_sub_cancel]
        ring
      simp only [hk, hmag, hmax]
      rw [if_neg (by omega)]
      have hge : ¬ M < 2 ^ f.fw := by
        intro hc
        rw [Nat.div_eq_of_lt hc] at hE
        exact h0 hE.symm
      rw [if_neg hge]

end Sys2Proof.Machine
end

