-- ==== Sys2Proof/Laws/FloatRound.lean ====
section
/-! SUPPORT. Rounding to nearest: no finite encoding is nearer to an exact value than the one it is rounded to. -/

namespace Sys2Proof.Machine

/-- The number that a finite exact value, and a finite encoding, stands for. -/
def numVal : Num → Rat
  | .fin s m e => (if s then -(m : Rat) else (m : Rat)) * 2 ^ e
  | .nan => 0
  | .inf _ => 0
def encVal (f : Fmt) (x : Nat) : Rat :=
  (if signOf f x then -(units f (magOf f x) : Rat) else (units f (magOf f x) : Rat)) * 2 ^ f.emin

theorem encVal_unpack (f : Fmt) (hf : f.hasInf = true) (x : Nat) (hx : magOf f x < f.infBits) : numVal (unpack f x) = encVal f x := by
  rcases unpack_cases f hf x with ⟨h, -⟩ | ⟨h, -⟩ | ⟨-, m, k, e, u⟩
  · omega
  · omega
  · rw [e, numVal, encVal, u, zpow_add₀ (by norm_num), zpow_natCast]
    push_cast
    cases signOf f x <;> simp <;> ring

/-! ## One step of the grid -/

/-- The units of a magnitude given by a scale and a significand. -/
theorem units_mag (f : Fmt) (k q : Nat) (h1 : q ≤ 2 ^ (f.fw + 1)) (h2 : k = 0 ∨ 2 ^ f.fw ≤ q) : units f (k * 2 ^ f.fw + q) = q * 2 ^ k := by
  have hp := Nat.two_pow_pos f.fw
  rw [Nat.pow_succ] at h1
  unfold units
  rcases Nat.lt_or_ge q (2 ^ f.fw) with hq | hq
  · have hk : k = 0 := by omega
    subst hk
    rw [Nat.zero_mul, Nat.zero_add, if_pos (Nat.div_eq_of_lt hq), Nat.mod_eq_of_lt hq]
    simp
  · rcases Nat.lt_or_eq_of_le h1 with hq2 | hq2
    · have e : k * 2 ^ f.fw + q = (q - 2 ^ f.fw) + 2 ^ f.fw * (k + 1) := by
        rw [Nat.mul_add, Nat.mul_comm k]
        omega
      have hlt : q - 2 ^ f.fw < 2 ^ f.fw := by omega
      rw [e, Nat.add_mul_div_left _ _ hp, Nat.div_eq_of_lt hlt, Nat.add_mul_mod_self_left, Nat.mod_eq_of_lt hlt, if_neg (by omega)]
      congr 1
      · omega
      · congr 1
        omega
    · have e : k * 2 ^ f.fw + q = 0 + 2 ^ f.fw * (k + 2) := by
        rw [hq2]
        ring
      rw [e, Nat.add_mul_div_left _ _ hp, Nat.zero_div, Nat.add_mul_mod_self_left, Nat.zero_mod, if_neg (by omega), hq2]
      have : 0 + (k + 2) - 1 = k + 1 := by omega
      rw [this]
      ring

/-- Every magnitude is a multiple of the step 2^k, or below 2^(fw + k). -/
theorem units_grid (f : Fmt) (k mag : Nat) : (∃ j, units f mag = j * 2 ^ k) ∨ units f mag ≤ 2 ^ f.fw * 2 ^ k := by
  have hm := Nat.mod_lt mag (Nat.two_pow_pos f.fw)
  unfold units
  split
  · exact Or.inr (le_trans (Nat.le_of_lt hm) (Nat.le_mul_of_pos_right _ (Nat.two_pow_pos k)))
  · rename_i h
    rcases Nat.lt_or_ge (mag / 2 ^ f.fw - 1) k with hk | hk
    · right
      calc (mag % 2 ^ f.fw + 2 ^ f.fw) * 2 ^ (mag / 2 ^ f.fw - 1) ≤ (2 * 2 ^ f.fw) * 2 ^ (mag / 2 ^ f.fw - 1) := Nat.mul_le_mul_right _ (by omega)
        _ = 2 ^ f.fw * 2 ^ (mag / 2 ^ f.fw - 1 + 1) := by ring
        _ ≤ 2 ^ f.fw * 2 ^ k := Nat.mul_le_mul_left _ (Nat.pow_le_pow_right (by decide) (by omega))
    · left
      refine ⟨(mag % 2 ^ f.fw + 2 ^ f.fw) * 2 ^ (mag / 2 ^ f.fw - 1 - k), ?_⟩
      rw [Nat.mul_assoc, ← Nat.pow_add]
      congr 2
      omega

/-- Round to nearest even of m / 2^k: no whole number is nearer. -/
theorem roundQ_nearest (neg : Bool) (m : Nat) (e t : Int) (h : e < t) (j : Int) :
    |((roundQ 0 neg m e t).1 : Rat) - (m : Rat) / 2 ^ (t - e).toNat| ≤ |(j : Rat) - (m : Rat) / 2 ^ (t - e).toNat| := by
  have hk : (t - e).toNat ≠ 0 := by omega
  obtain ⟨k, hk⟩ := Nat.exists_eq_succ_of_ne_zero hk
  rw [hk]
  unfold roundQ
  rw [if_neg (by omega)]
  simp only [hk, Nat.succ_eq_add_one, Nat.add_sub_cancel, Nat.shiftRight_eq_div_pow, Nat.shiftLeft_eq]
  have hp := Nat.two_pow_pos (k + 1)
  have h2 : 2 ^ (k + 1) = 2 * 2 ^ k := by ring
  have hdm := Nat.div_add_mod m (2 ^ (k + 1))
  have hml := Nat.mod_lt m hp
  have hr : m - m / 2 ^ (k + 1) * 2 ^ (k + 1) = m % 2 ^ (k + 1) := by
    rw [Nat.mul_comm]
    omega
  rw [hr]
  generalize m / 2 ^ (k + 1) = q at *
  generalize m % 2 ^ (k + 1) = r at *
  have hP : (0 : Rat) < 2 ^ (k + 1) := by positivity
  have hm : (m : Rat) / 2 ^ (k + 1) = q + (r : Rat) / 2 ^ (k + 1) := by
    rw [← hdm]
    push_cast
    field_simp
  rw [hm]
  have hr0 : (0 : Rat) ≤ (r : Rat) / 2 ^ (k + 1) := by positivity
  have hr1 : (r : Rat) / 2 ^ (k + 1) < 1 := by
    rw [div_lt_one hP]
    exact_mod_cast hml
  have half : ∀ a : Nat, ((a : Rat) / 2 ^ (k + 1) ≤ 1 / 2 ↔ a ≤ 2 ^ k) := by
    intro a
    rw [div_le_iff₀ hP, pow_succ]
    constructor
    · intro h
      have : (a : Rat) ≤ 2 ^ k := by linarith
      exact_mod_cast this
    · intro h
      have : (a : Rat) ≤ 2 ^ k := by exact_mod_cast h
      linarith
  have half' : 2 ^ k ≤ r → 1 / 2 ≤ (r : Rat) / 2 ^ (k + 1) := by
    intro h
    rw [le_div_iff₀ hP, pow_succ]
    have : (2 : Rat) ^ k ≤ r := by exact_mod_cast h
    linarith
  have hhalf := half r
  generalize (r : Rat) / 2 ^ (k + 1) = x at *
  have hj : (j : Rat) ≤ q ∨ (q : Rat) + 1 ≤ j := by
    rcases lt_or_ge (q : Int) j with h | h
    · right
      have : (q : Int) + 1 ≤ j := h
      exact_mod_cast this
    · left
      exact_mod_cast h
  have down : x ≤ 1 / 2 → |(q : Rat) - (q + x)| ≤ |(j : Rat) - (q + x)| := by
    intro hx
    rw [show (q : Rat) - (q + x) = -x by ring, abs_neg, abs_of_nonneg hr0]
    rcases hj with h | h
    · rw [abs_of_nonpos (by linarith)]
      linarith
    · rw [abs_of_nonneg (by linarith)]
      linarith
  have up : 1 / 2 ≤ x → |((q + 1 : Nat) : Rat) - (q + x)| ≤ |(j : Rat) - (q + x)| := by
    intro hx
    push_cast
    rw [show (q : Rat) + 1 - (q + x) = 1 - x by ring, abs_of_nonneg (by linarith)]
    rcases hj with h | h
    · rw [abs_of_nonpos (by linarith)]
      linarith
    · rw [abs_of_nonneg (by linarith)]
      linarith
  by_cases h0 : r = 0
  · rw [if_pos h0]
    refine down (hhalf.2 ?_)
    rw [h0]
    exact Nat.zero_le _
  · rw [if_neg h0]
    by_cases hu : 2 ^ k < r ∨ (r = 2 ^ k ∧ q % 2 = 1)
    · simp only [hu, decide_true, if_true]
      exact up (half' (by omega))
    · simp only [hu, decide_false, Bool.false_eq_true, if_false]
      exact down (hhalf.2 (by omega))


theorem roundQ_bounds (neg : Bool) (m : Nat) (e t : Int) (h : e < t) :
    m / 2 ^ (t - e).toNat ≤ (roundQ 0 neg m e t).1 ∧ (roundQ 0 neg m e t).1 ≤ m / 2 ^ (t - e).toNat + 1 := by
  unfold roundQ
  rw [if_neg (by omega)]
  simp only [Nat.shiftRight_eq_div_pow]
  split
  · omega
  · split <;> omega

theorem bitLen_bounds {m : Nat} (h : m ≠ 0) : 2 ^ (bitLen m - 1) ≤ m ∧ m < 2 ^ bitLen m ∧ 0 < bitLen m := by
  unfold bitLen
  rw [if_neg h]
  refine ⟨by simpa using Nat.log2_self_le h, Nat.lt_log2_self, by omega⟩

/-- The significand that rounding gives: at most one carry, and full unless at the bottom of the range. -/
theorem roundQ_sig (f : Fmt) (neg : Bool) (m : Nat) (hm : m ≠ 0) (e : Int) :
    let t := max f.emin ((bitLen m : Int) + e - (f.fw + 1))
    (roundQ 0 neg m e t).1 ≤ 2 ^ (f.fw + 1) ∧ ((t - f.emin).toNat = 0 ∨ 2 ^ f.fw ≤ (roundQ 0 neg m e t).1) := by
  intro t
  obtain ⟨b1, b2, b3⟩ := bitLen_bounds hm
  have ht1 : (bitLen m : Int) + e - (f.fw + 1) ≤ t := le_max_right ..
  have ht2 : f.emin < t → t = (bitLen m : Int) + e - (f.fw + 1) := fun h => by
    rcases max_choice f.emin ((bitLen m : Int) + e - (f.fw + 1)) with hc | hc
    · change t = f.emin at hc
      omega
    · exact hc
  generalize hL : bitLen m = L at *
  rcases le_or_gt t e with h | h
  · have hq : (roundQ 0 neg m e t).1 = m <<< (e - t).toNat := by
      unfold roundQ
      rw [if_pos h]
    rw [hq, Nat.shiftLeft_eq]
    constructor
    · calc m * 2 ^ (e - t).toNat ≤ 2 ^ L * 2 ^ (e - t).toNat := Nat.mul_le_mul_right _ (Nat.le_of_lt b2)
        _ = 2 ^ (L + (e - t).toNat) := (Nat.pow_add ..).symm
        _ ≤ 2 ^ (f.fw + 1) := Nat.pow_le_pow_right (by decide) (by omega)
    · by_cases hk : f.emin < t
      · right
        have := ht2 hk
        calc 2 ^ f.fw = 2 ^ (L - 1 + (e - t).toNat) := by
              congr 1
              omega
          _ = 2 ^ (L - 1) * 2 ^ (e - t).toNat := Nat.pow_add ..
          _ ≤ m * 2 ^ (e - t).toNat := Nat.mul_le_mul_right _ b1
      · left
        omega
  · obtain ⟨c1, c2⟩ := roundQ_bounds neg m e t h
    have hp := Nat.two_pow_pos (t - e).toNat
    constructor
    · refine le_trans c2 ?_
      have : m / 2 ^ (t - e).toNat < 2 ^ (f.fw + 1) := by
        rw [Nat.div_lt_iff_lt_mul hp, ← Nat.pow_add]
        exact Nat.lt_of_lt_of_le b2 (Nat.pow_le_pow_right (by decide) (by omega))
      omega
    · by_cases hk : f.emin < t
      · right
        have := ht2 hk
        refine le_trans ?_ c1
        rw [Nat.le_div_iff_mul_le hp, ← Nat.pow_add]
        refine le_trans (Nat.pow_le_pow_right (by decide) ?_) b1
        omega
      · left
        omega

/-- The grid point that rounding chooses is nearest among the magnitudes of the format. -/
theorem grid_nearest (f : Fmt) (neg : Bool) (m : Nat) (hm : m ≠ 0) (e : Int) (mag : Nat) :
    let t := max f.emin ((bitLen m : Int) + e - (f.fw + 1))
    |((roundQ 0 neg m e t).1 : Rat) * 2 ^ (t - f.emin).toNat - (m : Rat) * 2 ^ (e - f.emin)| ≤
      |(units f mag : Rat) - (m : Rat) * 2 ^ (e - f.emin)| := by
  intro t
  obtain ⟨b1, b2, b3⟩ := bitLen_bounds hm
  have ht0 : f.emin ≤ t := le_max_left ..
  have ht2 : f.emin < t → t = (bitLen m : Int) + e - (f.fw + 1) := fun h => by
    rcases max_choice f.emin ((bitLen m : Int) + e - (f.fw + 1)) with hc | hc
    · change t = f.emin at hc
      omega
    · exact hc
  generalize hL : bitLen m = L at *
  have hkz : ((2 : Rat) ^ (t - f.emin).toNat) = 2 ^ (t - f.emin) := by
    rw [← zpow_natCast, Int.toNat_of_nonneg (by omega)]
  rcases le_or_gt t e with h | h
  · have hq : (roundQ 0 neg m e t).1 = m <<< (e - t).toNat := by
      unfold roundQ
      rw [if_pos h]
    have : ((m <<< (e - t).toNat : Nat) : Rat) * 2 ^ (t - f.emin).toNat = (m : Rat) * 2 ^ (e - f.emin) := by
      rw [Nat.shiftLeft_eq, hkz]
      push_cast
      rw [← zpow_natCast, Int.toNat_of_nonneg (by omega), mul_assoc, ← zpow_add₀ (by norm_num)]
      congr 2
      omega
    rw [hq, this, sub_self, abs_zero]
    exact abs_nonneg _
  · have hv : (m : Rat) * 2 ^ (e - f.emin) = (m : Rat) / 2 ^ (t - e).toNat * 2 ^ (t - f.emin).toNat := by
      rw [hkz, ← zpow_natCast, Int.toNat_of_nonneg (by omega), div_eq_mul_inv, ← zpow_neg, mul_assoc, ← zpow_add₀ (by norm_num)]
      congr 2
      omega
    have near : ∀ j : Int, |((roundQ 0 neg m e t).1 : Rat) * 2 ^ (t - f.emin).toNat - (m : Rat) * 2 ^ (e - f.emin)| ≤
        |(j : Rat) * 2 ^ (t - f.emin).toNat - (m : Rat) * 2 ^ (e - f.emin)| := by
      intro j
      have hp : (0 : Rat) < 2 ^ (t - f.emin).toNat := by positivity
      rw [hv, ← sub_mul, ← sub_mul, abs_mul, abs_mul]
      exact mul_le_mul_of_nonneg_right (roundQ_nearest neg m e t h j) (abs_nonneg _)
    rcases units_grid f (t - f.emin).toNat mag with ⟨j, hj⟩ | hsmall
    · have := near (j : Int)
      rw [hj]
      push_cast at this ⊢
      exact this
    · by_cases hk : f.emin < t
      · have ht := ht2 hk
        refine le_trans (near (2 ^ f.fw : Nat)) ?_
        have hp : (0 : Rat) < 2 ^ (t - f.emin).toNat := by positivity
        have hge : ((2 ^ f.fw : Nat) : Rat) * 2 ^ (t - f.emin).toNat ≤ (m : Rat) * 2 ^ (e - f.emin) := by
          rw [hv]
          refine mul_le_mul_of_nonneg_right ?_ (le_of_lt hp)
          rw [le_div_iff₀ (by positivity)]
          have : 2 ^ f.fw * 2 ^ (t - e).toNat ≤ m := by
            rw [← Nat.pow_add]
            refine le_trans (Nat.pow_le_pow_right (by decide) ?_) b1
            omega
          exact_mod_cast this
        have hs : (units f mag : Rat) ≤ ((2 ^ f.fw : Nat) : Rat) * 2 ^ (t - f.emin).toNat := by exact_mod_cast hsmall
        have e1 : (((2 ^ f.fw : Nat) : Int) : Rat) = ((2 ^ f.fw : Nat) : Rat) := by push_cast; rfl
        rw [e1, abs_of_nonpos (by linarith), abs_of_nonpos (by linarith)]
        linarith
      · have h0 : (t - f.emin).toNat = 0 := by omega
        have := near (units f mag : Int)
        rw [h0] at this ⊢
        simpa using this

theorem signOf_withSign (f : Fmt) (s : Bool) (mag : Nat) (h : mag < 2 ^ (f.ew + f.fw)) :
    signOf f (withSign f s mag) = s ∧ magOf f (withSign f s mag) = mag := by
  have hp := Nat.two_pow_pos (f.ew + f.fw)
  cases s
  · simp [withSign, signOf, magOf, Nat.div_eq_of_lt h, Nat.mod_eq_of_lt h]
  · have e : mag + 2 ^ (f.ew + f.fw) = mag + 2 ^ (f.ew + f.fw) * 1 := by omega
    simp only [withSign, signOf, magOf, if_true]
    rw [e, Nat.add_mul_div_left _ _ hp, Nat.div_eq_of_lt h, Nat.add_mul_mod_self_left, Nat.mod_eq_of_lt h]
    simp

theorem infBits_lt (f : Fmt) : f.infBits < 2 ^ (f.ew + f.fw) := by
  rw [Nat.pow_add, Fmt.infBits]
  exact Nat.mul_lt_mul_of_pos_right (Nat.sub_lt (Nat.two_pow_pos _) (by decide)) (Nat.two_pow_pos _)

/-- Rounding a finite exact value under RNE without FTZ: if the result is finite, no finite encoding is nearer. -/
theorem roundFin_nearest (f : Fmt) (hf : f.hasInf = true) (hi : 0 < f.infBits) (md : FMode) (hr : md.rnd = 0) (hz : md.ftz = false)
    (s : Bool) (m : Nat) (e : Int) (hfin : magOf f (roundFin f md s m e).1 < f.infBits) (n : Nat) (hn : magOf f n < f.infBits) :
    |encVal f (roundFin f md s m e).1 - numVal (.fin s m e)| ≤ |encVal f n - numVal (.fin s m e)| := by
  have hP : (0 : Rat) < 2 ^ f.emin := by positivity
  have hmax : f.maxBits = f.infBits - 1 := by simp [Fmt.maxBits, hf]
  have hlt := infBits_lt f
  by_cases hm : m = 0
  · have : encVal f (roundFin f md s m e).1 = numVal (.fin s m e) := by
      have := (signOf_withSign f s 0 (Nat.two_pow_pos _)).2
      unfold roundFin
      rw [if_pos hm]
      simp [encVal, this, units, numVal, hm]
    rw [this, sub_self, abs_zero]
    exact abs_nonneg _
  -- the exact value in units, and the comparison without signs
  have hexact : numVal (.fin s m e) = (if s then -((m : Rat) * 2 ^ (e - f.emin)) else (m : Rat) * 2 ^ (e - f.emin)) * 2 ^ f.emin := by
    have : (2 : Rat) ^ e = 2 ^ (e - f.emin) * 2 ^ f.emin := by
      rw [← zpow_add₀ (by norm_num)]
      congr 1
      omega
    rw [numVal, this]
    cases s <;> simp <;> ring
  have hv0 : (0 : Rat) ≤ (m : Rat) * 2 ^ (e - f.emin) := by positivity
  have hgrid := fun mag => grid_nearest f s m hm e mag
  dsimp only at hgrid
  obtain ⟨g1, g2⟩ := roundQ_sig f s m hm e
  generalize hv : (m : Rat) * 2 ^ (e - f.emin) = v at *
  -- a result with the sign s and a magnitude whose units are nearest
  have finish : ∀ M, M < f.infBits → (∀ M', M' < f.infBits → |(units f M : Rat) - v| ≤ |(units f M' : Rat) - v|) →
      |encVal f (withSign f s M) - numVal (.fin s m e)| ≤ |encVal f n - numVal (.fin s m e)| := by
    intro M hM hnear
    obtain ⟨w1, w2⟩ := signOf_withSign f s M (lt_trans hM hlt)
    rw [hexact, encVal, encVal, w1, w2, ← sub_mul, ← sub_mul, abs_mul, abs_mul]
    refine mul_le_mul_of_nonneg_right ?_ (abs_nonneg _)
    have k1 := hnear (magOf f n) hn
    have k0 := hnear 0 hi
    have u0 : (units f 0 : Rat) = 0 := by simp [units]
    rw [u0, zero_sub, abs_neg, abs_of_nonneg hv0] at k0
    have hu : (0 : Rat) ≤ (units f (magOf f n) : Rat) := by positivity
    cases s <;> cases signOf f n <;> simp only [Bool.false_eq_true, if_false, if_true]
    · exact k1
    · rw [abs_of_nonpos (by linarith : -(units f (magOf f n) : Rat) - v ≤ 0)]
      linarith
    · rw [show -(units f M : Rat) - -v = -((units f M : Rat) - v) by ring, abs_neg, abs_of_nonneg (by linarith : (0 : Rat) ≤ (units f (magOf f n) : Rat) - -v)]
      linarith
    · rw [show -(units f M : Rat) - -v = -((units f M : Rat) - v) by ring, abs_neg,
        show -(units f (magOf f n) : Rat) - -v = -((units f (magOf f n) : Rat) - v) by ring, abs_neg]
      exact k1
  unfold roundFin at hfin ⊢
  rw [if_neg hm] at hfin ⊢
  simp only [hr, hz, Bool.false_and, Bool.false_eq_true, if_false] at hfin ⊢
  generalize max f.emin ((bitLen m : Int) + e - (f.fw + 1)) = t at *
  generalize (roundQ 0 s m e t).2 = ix at *
  generalize hq : (roundQ 0 s m e t).1 = q at *
  have hun := units_mag f (t - f.emin).toNat q g1 g2
  generalize (t - f.emin).toNat = k at *
  have hres : ∀ M', |(units f (k * 2 ^ f.fw + q) : Rat) - v| ≤ |(units f M' : Rat) - v| := by
    intro M'
    rw [hun]
    push_cast
    exact hgrid M'
  by_cases hover : f.maxBits < k * 2 ^ f.fw + q
  · simp only [hover, if_true] at hfin ⊢
    have hsat : md.sat = true := by
      by_contra hs
      have hs' : md.sat = false := by simpa using hs
      simp only [overflowBits, hs', hr, Bool.false_eq_true, if_false, Bool.not_true, hf, if_true, (signOf_withSign f s f.infBits hlt).2] at hfin
      omega
    have hob : (overflowBits f md s).1 = withSign f s f.maxBits := by simp [overflowBits, hsat]
    rw [hob]
    refine finish _ (by omega) (fun M' hM' => ?_)
    have hlt2 : units f f.maxBits < units f (k * 2 ^ f.fw + q) := units_lt hover
    have hle : units f M' ≤ units f f.maxBits := by
      rcases Nat.lt_or_eq_of_le (show M' ≤ f.maxBits by omega) with h | h
      · exact Nat.le_of_lt (units_lt h)
      · rw [h]
    have a1 : (units f f.maxBits : Rat) + 1 ≤ units f (k * 2 ^ f.fw + q) := by exact_mod_cast hlt2
    have a2 : (units f M' : Rat) ≤ units f f.maxBits := by exact_mod_cast hle
    have hge : (units f f.maxBits : Rat) ≤ v := by
      by_contra hc
      have hc := not_le.1 hc
      have := hres f.maxBits
      rw [abs_of_nonneg (by linarith), abs_of_nonneg (by linarith)] at this
      linarith
    rw [abs_of_nonpos (by linarith), abs_of_nonpos (by linarith)]
    linarith
  · simp only [hover, if_false] at hfin ⊢
    have : ∀ fl fl' : Fl, (if k * 2 ^ f.fw + q < 2 ^ f.fw then (withSign f s (k * 2 ^ f.fw + q), fl) else (withSign f s (k * 2 ^ f.fw + q), fl')).1 =
        withSign f s (k * 2 ^ f.fw + q) := by
      intro fl fl'
      split <;> rfl
    rw [this]
    exact finish _ (by omega) (fun M' _ => hres M')

end Sys2Proof.Machine
end

