-- ==== Sys2Proof/Laws/PerInstr.lean ====
section
/-! SUPPORT. For every instruction: a well-formed one is encoded by a word that decodes to it again. -/

namespace Sys2Proof.Laws

/-- The number of a field of a word. -/
theorem num_eq (n lo : Nat) (w : W32) : num n lo w = w.toNat / 2 ^ lo % 2 ^ n := by
  simp [num, field, BitVec.extractLsb'_toNat, Nat.shiftRight_eq_div_pow]
/-- A field whose number is known. -/
theorem field_eq {n : Nat} (lo : Nat) (w : W32) (x : BitVec n) (h : w.toNat / 2 ^ lo % 2 ^ n = x.toNat) : field n lo w = x := by
  apply BitVec.eq_of_toNat_eq
  simpa [field, BitVec.extractLsb'_toNat, Nat.shiftRight_eq_div_pow] using h

/-- Decode and encode agree on a well-formed instruction. -/
def RoundTrip.Statement (i : Instr) : Prop :=
  i.wellFormed = true → ∃ w, encodeWord i = some w ∧ decodeWord w = some i

namespace RoundTrip

theorem iadd (h : BitVec 2) (w : BitVec 3) (d : BitVec 7) (a : BitVec 7) (b : BitVec 7) : Statement (.iadd h w d a b) := by
  intro ok; suffices H : ∀ x, encodeWord (.iadd h w d a b) = some x → decodeWord x = some (.iadd h w d a b) from ⟨_, rfl, H _ rfl⟩
  intro x e; have e := Option.some.inj (show some (BitVec.ofNat 32 (word 67108864 [(h.toNat, 24), (w.toNat, 21), (d.toNat, 14), (a.toNat, 7), (b.toNat, 0)])) = some x from e); simp only [word] at e
  have := h.isLt; have := w.isLt; have := d.isLt; have := a.isLt; have := b.isLt
  have hx : x.toNat = 67108864 + h.toNat * 16777216 + w.toNat * 2097152 + d.toNat * 16384 + a.toNat * 128 + b.toNat * 1 := by rw [← e, BitVec.toNat_ofNat]; omega
  have h6_26 : num 6 26 x = 1 := by rw [num_eq, hx]; omega
  unfold decodeWord; rw [h6_26]; show decodeMajor01 x = _; unfold decodeMajor01
  show (some (Instr.iadd (field 2 24 x) (field 3 21 x) (field 7 14 x) (field 7 7 x) (field 7 0 x)) : Option Instr) = _
  exact (by rw [field_eq 24 x h (by rw [hx]; omega), field_eq 21 x w (by rw [hx]; omega), field_eq 14 x d (by rw [hx]; omega), field_eq 7 x a (by rw [hx]; omega), field_eq 0 x b (by rw [hx]; omega)])
theorem isub (h : BitVec 2) (w : BitVec 3) (d : BitVec 7) (a : BitVec 7) (b : BitVec 7) : Statement (.isub h w d a b) := by
  intro ok; suffices H : ∀ x, encodeWord (.isub h w d a b) = some x → decodeWord x = some (.isub h w d a b) from ⟨_, rfl, H _ rfl⟩
  intro x e; have e := Option.some.inj (show some (BitVec.ofNat 32 (word 134217728 [(h.toNat, 24), (w.toNat, 21), (d.toNat, 14), (a.toNat, 7), (b.toNat, 0)])) = some x from e); simp only [word] at e
  have := h.isLt; have := w.isLt; have := d.isLt; have := a.isLt; have := b.isLt
  have hx : x.toNat = 134217728 + h.toNat * 16777216 + w.toNat * 2097152 + d.toNat * 16384 + a.toNat * 128 + b.toNat * 1 := by rw [← e, BitVec.toNat_ofNat]; omega
  have h6_26 : num 6 26 x = 2 := by rw [num_eq, hx]; omega
  unfold decodeWord; rw [h6_26]; show decodeMajor02 x = _; unfold decodeMajor02
  show (some (Instr.isub (field 2 24 x) (field 3 21 x) (field 7 14 x) (field 7 7 x) (field 7 0 x)) : Option Instr) = _
  exact (by rw [field_eq 24 x h (by rw [hx]; omega), field_eq 21 x w (by rw [hx]; omega), field_eq 14 x d (by rw [hx]; omega), field_eq 7 x a (by rw [hx]; omega), field_eq 0 x b (by rw [hx]; omega)])
theorem imul (h : BitVec 2) (w : BitVec 3) (d : BitVec 7) (a : BitVec 7) (b : BitVec 7) : Statement (.imul h w d a b) := by
  intro ok; suffices H : ∀ x, encodeWord (.imul h w d a b) = some x → decodeWord x = some (.imul h w d a b) from ⟨_, rfl, H _ rfl⟩
  intro x e; have e := Option.some.inj (show some (BitVec.ofNat 32 (word 201326592 [(h.toNat, 24), (w.toNat, 21), (d.toNat, 14), (a.toNat, 7), (b.toNat, 0)])) = some x from e); simp only [word] at e
  have := h.isLt; have := w.isLt; have := d.isLt; have := a.isLt; have := b.isLt
  have hx : x.toNat = 201326592 + h.toNat * 16777216 + w.toNat * 2097152 + d.toNat * 16384 + a.toNat * 128 + b.toNat * 1 := by rw [← e, BitVec.toNat_ofNat]; omega
  have h6_26 : num 6 26 x = 3 := by rw [num_eq, hx]; omega
  unfold decodeWord; rw [h6_26]; show decodeMajor03 x = _; unfold decodeMajor03
  show (some (Instr.imul (field 2 24 x) (field 3 21 x) (field 7 14 x) (field 7 7 x) (field 7 0 x)) : Option Instr) = _
  exact (by rw [field_eq 24 x h (by rw [hx]; omega), field_eq 21 x w (by rw [hx]; omega), field_eq 14 x d (by rw [hx]; omega), field_eq 7 x a (by rw [hx]; omega), field_eq 0 x b (by rw [hx]; omega)])
theorem imulh (h : BitVec 2) (w : BitVec 3) (d : BitVec 7) (a : BitVec 7) (b : BitVec 7) : Statement (.imulh h w d a b) := by
  intro ok; suffices H : ∀ x, encodeWord (.imulh h w d a b) = some x → decodeWord x = some (.imulh h w d a b) from ⟨_, rfl, H _ rfl⟩
  intro x e; have e := Option.some.inj (show some (BitVec.ofNat 32 (word 268435456 [(h.toNat, 24), (w.toNat, 21), (d.toNat, 14), (a.toNat, 7), (b.toNat, 0)])) = some x from e); simp only [word] at e
  have := h.isLt; have := w.isLt; have := d.isLt; have := a.isLt; have := b.isLt
  have hx : x.toNat = 268435456 + h.toNat * 16777216 + w.toNat * 2097152 + d.toNat * 16384 + a.toNat * 128 + b.toNat * 1 := by rw [← e, BitVec.toNat_ofNat]; omega
  have h6_26 : num 6 26 x = 4 := by rw [num_eq, hx]; omega
  unfold decodeWord; rw [h6_26]; show decodeMajor04 x = _; unfold decodeMajor04
  show (some (Instr.imulh (field 2 24 x) (field 3 21 x) (field 7 14 x) (field 7 7 x) (field 7 0 x)) : Option Instr) = _
  exact (by rw [field_eq 24 x h (by rw [hx]; omega), field_eq 21 x w (by rw [hx]; omega), field_eq 14 x d (by rw [hx]; omega), field_eq 7 x a (by rw [hx]; omega), field_eq 0 x b (by rw [hx]; omega)])
theorem imad (h : BitVec 2) (w : BitVec 3) (d : BitVec 7) (a : BitVec 7) (b : BitVec 7) : Statement (.imad h w d a b) := by
  intro ok; suffices H : ∀ x, encodeWord (.imad h w d a b) = some x → decodeWord x = some (.imad h w d a b) from ⟨_, rfl, H _ rfl⟩
  intro x e; have e := Option.some.inj (show some (BitVec.ofNat 32 (word 335544320 [(h.toNat, 24), (w.toNat, 21), (d.toNat, 14), (a.toNat, 7), (b.toNat, 0)])) = some x from e); simp only [word] at e
  have := h.isLt; have := w.isLt; have := d.isLt; have := a.isLt; have := b.isLt
  have hx : x.toNat = 335544320 + h.toNat * 16777216 + w.toNat * 2097152 + d.toNat * 16384 + a.toNat * 128 + b.toNat * 1 := by rw [← e, BitVec.toNat_ofNat]; omega
  have h6_26 : num 6 26 x = 5 := by rw [num_eq, hx]; omega
  unfold decodeWord; rw [h6_26]; show decodeMajor05 x = _; unfold decodeMajor05
  show (some (Instr.imad (field 2 24 x) (field 3 21 x) (field 7 14 x) (field 7 7 x) (field 7 0 x)) : Option Instr) = _
  exact (by rw [field_eq 24 x h (by rw [hx]; omega), field_eq 21 x w (by rw [hx]; omega), field_eq 14 x d (by rw [hx]; omega), field_eq 7 x a (by rw [hx]; omega), field_eq 0 x b (by rw [hx]; omega)])
theorem imin (h : BitVec 2) (w : BitVec 3) (d : BitVec 7) (a : BitVec 7) (b : BitVec 7) : Statement (.imin h w d a b) := by
  intro ok; suffices H : ∀ x, encodeWord (.imin h w d a b) = some x → decodeWord x = some (.imin h w d a b) from ⟨_, rfl, H _ rfl⟩
  intro x e; have e := Option.some.inj (show some (BitVec.ofNat 32 (word 402653184 [(h.toNat, 24), (w.toNat, 21), (d.toNat, 14), (a.toNat, 7), (b.toNat, 0)])) = some x from e); simp only [word] at e
  have := h.isLt; have := w.isLt; have := d.isLt; have := a.isLt; have := b.isLt
  have hx : x.toNat = 402653184 + h.toNat * 16777216 + w.toNat * 2097152 + d.toNat * 16384 + a.toNat * 128 + b.toNat * 1 := by rw [← e, BitVec.toNat_ofNat]; omega
  have h6_26 : num 6 26 x = 6 := by rw [num_eq, hx]; omega
  unfold decodeWord; rw [h6_26]; show decodeMajor06 x = _; unfold decodeMajor06
  show (some (Instr.imin (field 2 24 x) (field 3 21 x) (field 7 14 x) (field 7 7 x) (field 7 0 x)) : Option Instr) = _
  exact (by rw [field_eq 24 x h (by rw [hx]; omega), field_eq 21 x w (by rw [hx]; omega), field_eq 14 x d (by rw [hx]; omega), field_eq 7 x a (by rw [hx]; omega), field_eq 0 x b (by rw [hx]; omega)])
theorem imax (h : BitVec 2) (w : BitVec 3) (d : BitVec 7) (a : BitVec 7) (b : BitVec 7) : Statement (.imax h w d a b) := by
  intro ok; suffices H : ∀ x, encodeWord (.imax h w d a b) = some x → decodeWord x = some (.imax h w d a b) from ⟨_, rfl, H _ rfl⟩
  intro x e; have e := Option.some.inj (show some (BitVec.ofNat 32 (word 469762048 [(h.toNat, 24), (w.toNat, 21), (d.toNat, 14), (a.toNat, 7), (b.toNat, 0)])) = some x from e); simp only [word] at e
  have := h.isLt; have := w.isLt; have := d.isLt; have := a.isLt; have := b.isLt
  have hx : x.toNat = 469762048 + h.toNat * 16777216 + w.toNat * 2097152 + d.toNat * 16384 + a.toNat * 128 + b.toNat * 1 := by rw [← e, BitVec.toNat_ofNat]; omega
  have h6_26 : num 6 26 x = 7 := by rw [num_eq, hx]; omega
  unfold decodeWord; rw [h6_26]; show decodeMajor07 x = _; unfold decodeMajor07
  show (some (Instr.imax (field 2 24 x) (field 3 21 x) (field 7 14 x) (field 7 7 x) (field 7 0 x)) : Option Instr) = _
  exact (by rw [field_eq 24 x h (by rw [hx]; omega), field_eq 21 x w (by rw [hx]; omega), field_eq 14 x d (by rw [hx]; omega), field_eq 7 x a (by rw [hx]; omega), field_eq 0 x b (by rw [hx]; omega)])
theorem iabsd (h : BitVec 2) (w : BitVec 3) (d : BitVec 7) (a : BitVec 7) (b : BitVec 7) : Statement (.iabsd h w d a b) := by
  intro ok; suffices H : ∀ x, encodeWord (.iabsd h w d a b) = some x → decodeWord x = some (.iabsd h w d a b) from ⟨_, rfl, H _ rfl⟩
  intro x e; have e := Option.some.inj (show some (BitVec.ofNat 32 (word 536870912 [(h.toNat, 24), (w.toNat, 21), (d.toNat, 14), (a.toNat, 7), (b.toNat, 0)])) = some x from e); simp only [word] at e
  have := h.isLt; have := w.isLt; have := d.isLt; have := a.isLt; have := b.isLt
  have hx : x.toNat = 536870912 + h.toNat * 16777216 + w.toNat * 2097152 + d.toNat * 16384 + a.toNat * 128 + b.toNat * 1 := by rw [← e, BitVec.toNat_ofNat]; omega
  have h6_26 : num 6 26 x = 8 := by rw [num_eq, hx]; omega
  unfold decodeWord; rw [h6_26]; show decodeMajor08 x = _; unfold decodeMajor08
  show (some (Instr.iabsd (field 2 24 x) (field 3 21 x) (field 7 14 x) (field 7 7 x) (field 7 0 x)) : Option Instr) = _
  exact (by rw [field_eq 24 x h (by rw [hx]; omega), field_eq 21 x w (by rw [hx]; omega), field_eq 14 x d (by rw [hx]; omega), field_eq 7 x a (by rw [hx]; omega), field_eq 0 x b (by rw [hx]; omega)])
theorem vand (h : BitVec 2) (w : BitVec 3) (d : BitVec 7) (a : BitVec 7) (b : BitVec 7) : Statement (.vand h w d a b) := by
  intro ok; suffices H : ∀ x, encodeWord (.vand h w d a b) = some x → decodeWord x = some (.vand h w d a b) from ⟨_, rfl, H _ rfl⟩
  intro x e; have e := Option.some.inj (show some (BitVec.ofNat 32 (word 603979776 [(h.toNat, 24), (w.toNat, 21), (d.toNat, 14), (a.toNat, 7), (b.toNat, 0)])) = some x from e); simp only [word] at e
  have := h.isLt; have := w.isLt; have := d.isLt; have := a.isLt; have := b.isLt
  have hx : x.toNat = 603979776 + h.toNat * 16777216 + w.toNat * 2097152 + d.toNat * 16384 + a.toNat * 128 + b.toNat * 1 := by rw [← e, BitVec.toNat_ofNat]; omega
  have h6_26 : num 6 26 x = 9 := by rw [num_eq, hx]; omega
  unfold decodeWord; rw [h6_26]; show decodeMajor09 x = _; unfold decodeMajor09
  show (some (Instr.vand (field 2 24 x) (field 3 21 x) (field 7 14 x) (field 7 7 x) (field 7 0 x)) : Option Instr) = _
  exact (by rw [field_eq 24 x h (by rw [hx]; omega), field_eq 21 x w (by rw [hx]; omega), field_eq 14 x d (by rw [hx]; omega), field_eq 7 x a (by rw [hx]; omega), field_eq 0 x b (by rw [hx]; omega)])
theorem vor (h : BitVec 2) (w : BitVec 3) (d : BitVec 7) (a : BitVec 7) (b : BitVec 7) : Statement (.vor h w d a b) := by
  intro ok; suffices H : ∀ x, encodeWord (.vor h w d a b) = some x → decodeWord x = some (.vor h w d a b) from ⟨_, rfl, H _ rfl⟩
  intro x e; have e := Option.some.inj (show some (BitVec.ofNat 32 (word 671088640 [(h.toNat, 24), (w.toNat, 21), (d.toNat, 14), (a.toNat, 7), (b.toNat, 0)])) = some x from e); simp only [word] at e
  have := h.isLt; have := w.isLt; have := d.isLt; have := a.isLt; have := b.isLt
  have hx : x.toNat = 671088640 + h.toNat * 16777216 + w.toNat * 2097152 + d.toNat * 16384 + a.toNat * 128 + b.toNat * 1 := by rw [← e, BitVec.toNat_ofNat]; omega
  have h6_26 : num 6 26 x = 10 := by rw [num_eq, hx]; omega
  unfold decodeWord; rw [h6_26]; show decodeMajor0A x = _; unfold decodeMajor0A
  show (some (Instr.vor (field 2 24 x) (field 3 21 x) (field 7 14 x) (field 7 7 x) (field 7 0 x)) : Option Instr) = _
  exact (by rw [field_eq 24 x h (by rw [hx]; omega), field_eq 21 x w (by rw [hx]; omega), field_eq 14 x d (by rw [hx]; omega), field_eq 7 x a (by rw [hx]; omega), field_eq 0 x b (by rw [hx]; omega)])
theorem vxor (h : BitVec 2) (w : BitVec 3) (d : BitVec 7) (a : BitVec 7) (b : BitVec 7) : Statement (.vxor h w d a b) := by
  intro ok; suffices H : ∀ x, encodeWord (.vxor h w d a b) = some x → decodeWord x = some (.vxor h w d a b) from ⟨_, rfl, H _ rfl⟩
  intro x e; have e := Option.some.inj (show some (BitVec.ofNat 32 (word 738197504 [(h.toNat, 24), (w.toNat, 21), (d.toNat, 14), (a.toNat, 7), (b.toNat, 0)])) = some x from e); simp only [word] at e
  have := h.isLt; have := w.isLt; have := d.isLt; have := a.isLt; have := b.isLt
  have hx : x.toNat = 738197504 + h.toNat * 16777216 + w.toNat * 2097152 + d.toNat * 16384 + a.toNat * 128 + b.toNat * 1 := by rw [← e, BitVec.toNat_ofNat]; omega
  have h6_26 : num 6 26 x = 11 := by rw [num_eq, hx]; omega
  unfold decodeWord; rw [h6_26]; show decodeMajor0B x = _; unfold decodeMajor0B
  show (some (Instr.vxor (field 2 24 x) (field 3 21 x) (field 7 14 x) (field 7 7 x) (field 7 0 x)) : Option Instr) = _
  exact (by rw [field_eq 24 x h (by rw [hx]; omega), field_eq 21 x w (by rw [hx]; omega), field_eq 14 x d (by rw [hx]; omega), field_eq 7 x a (by rw [hx]; omega), field_eq 0 x b (by rw [hx]; omega)])
theorem andn (h : BitVec 2) (w : BitVec 3) (d : BitVec 7) (a : BitVec 7) (b : BitVec 7) : Statement (.andn h w d a b) := by
  intro ok; suffices H : ∀ x, encodeWord (.andn h w d a b) = some x → decodeWord x = some (.andn h w d a b) from ⟨_, rfl, H _ rfl⟩
  intro x e; have e := Option.some.inj (show some (BitVec.ofNat 32 (word 805306368 [(h.toNat, 24), (w.toNat, 21), (d.toNat, 14), (a.toNat, 7), (b.toNat, 0)])) = some x from e); simp only [word] at e
  have := h.isLt; have := w.isLt; have := d.isLt; have := a.isLt; have := b.isLt
  have hx : x.toNat = 805306368 + h.toNat * 16777216 + w.toNat * 2097152 + d.toNat * 16384 + a.toNat * 128 + b.toNat * 1 := by rw [← e, BitVec.toNat_ofNat]; omega
  have h6_26 : num 6 26 x = 12 := by rw [num_eq, hx]; omega
  unfold decodeWord; rw [h6_26]; show decodeMajor0C x = _; unfold decodeMajor0C
  show (some (Instr.andn (field 2 24 x) (field 3 21 x) (field 7 14 x) (field 7 7 x) (field 7 0 x)) : Option Instr) = _
  exact (by rw [field_eq 24 x h (by rw [hx]; omega), field_eq 21 x w (by rw [hx]; omega), field_eq 14 x d (by rw [hx]; omega), field_eq 7 x a (by rw [hx]; omega), field_eq 0 x b (by rw [hx]; omega)])
theorem shl (h : BitVec 2) (w : BitVec 3) (d : BitVec 7) (a : BitVec 7) (b : BitVec 7) : Statement (.shl h w d a b) := by
  intro ok; suffices H : ∀ x, encodeWord (.shl h w d a b) = some x → decodeWord x = some (.shl h w d a b) from ⟨_, rfl, H _ rfl⟩
  intro x e; have e := Option.some.inj (show some (BitVec.ofNat 32 (word 872415232 [(h.toNat, 24), (w.toNat, 21), (d.toNat, 14), (a.toNat, 7), (b.toNat, 0)])) = some x from e); simp only [word] at e
  have := h.isLt; have := w.isLt; have := d.isLt; have := a.isLt; have := b.isLt
  have hx : x.toNat = 872415232 + h.toNat * 16777216 + w.toNat * 2097152 + d.toNat * 16384 + a.toNat * 128 + b.toNat * 1 := by rw [← e, BitVec.toNat_ofNat]; omega
  have h6_26 : num 6 26 x = 13 := by rw [num_eq, hx]; omega
  unfold decodeWord; rw [h6_26]; show decodeMajor0D x = _; unfold decodeMajor0D
  show (some (Instr.shl (field 2 24 x) (field 3 21 x) (field 7 14 x) (field 7 7 x) (field 7 0 x)) : Option Instr) = _
  exact (by rw [field_eq 24 x h (by rw [hx]; omega), field_eq 21 x w (by rw [hx]; omega), field_eq 14 x d (by rw [hx]; omega), field_eq 7 x a (by rw [hx]; omega), field_eq 0 x b (by rw [hx]; omega)])
theorem shr (h : BitVec 2) (w : BitVec 3) (d : BitVec 7) (a : BitVec 7) (b : BitVec 7) : Statement (.shr h w d a b) := by
  intro ok; suffices H : ∀ x, encodeWord (.shr h w d a b) = some x → decodeWord x = some (.shr h w d a b) from ⟨_, rfl, H _ rfl⟩
  intro x e; have e := Option.some.inj (show some (BitVec.ofNat 32 (word 939524096 [(h.toNat, 24), (w.toNat, 21), (d.toNat, 14), (a.toNat, 7), (b.toNat, 0)])) = some x from e); simp only [word] at e
  have := h.isLt; have := w.isLt; have := d.isLt; have := a.isLt; have := b.isLt
  have hx : x.toNat = 939524096 + h.toNat * 16777216 + w.toNat * 2097152 + d.toNat * 16384 + a.toNat * 128 + b.toNat * 1 := by rw [← e, BitVec.toNat_ofNat]; omega
  have h6_26 : num 6 26 x = 14 := by rw [num_eq, hx]; omega
  unfold decodeWord; rw [h6_26]; show decodeMajor0E x = _; unfold decodeMajor0E
  show (some (Instr.shr (field 2 24 x) (field 3 21 x) (field 7 14 x) (field 7 7 x) (field 7 0 x)) : Option Instr) = _
  exact (by rw [field_eq 24 x h (by rw [hx]; omega), field_eq 21 x w (by rw [hx]; omega), field_eq 14 x d (by rw [hx]; omega), field_eq 7 x a (by rw [hx]; omega), field_eq 0 x b (by rw [hx]; omega)])
theorem sra (h : BitVec 2) (w : BitVec 3) (d : BitVec 7) (a : BitVec 7) (b : BitVec 7) : Statement (.sra h w d a b) := by
  intro ok; suffices H : ∀ x, encodeWord (.sra h w d a b) = some x → decodeWord x = some (.sra h w d a b) from ⟨_, rfl, H _ rfl⟩
  intro x e; have e := Option.some.inj (show some (BitVec.ofNat 32 (word 1006632960 [(h.toNat, 24), (w.toNat, 21), (d.toNat, 14), (a.toNat, 7), (b.toNat, 0)])) = some x from e); simp only [word] at e
  have := h.isLt; have := w.isLt; have := d.isLt; have := a.isLt; have := b.isLt
  have hx : x.toNat = 1006632960 + h.toNat * 16777216 + w.toNat * 2097152 + d.toNat * 16384 + a.toNat * 128 + b.toNat * 1 := by rw [← e, BitVec.toNat_ofNat]; omega
  have h6_26 : num 6 26 x = 15 := by rw [num_eq, hx]; omega
  unfold decodeWord; rw [h6_26]; show decodeMajor0F x = _; unfold decodeMajor0F
  show (some (Instr.sra (field 2 24 x) (field 3 21 x) (field 7 14 x) (field 7 7 x) (field 7 0 x)) : Option Instr) = _
  exact (by rw [field_eq 24 x h (by rw [hx]; omega), field_eq 21 x w (by rw [hx]; omega), field_eq 14 x d (by rw [hx]; omega), field_eq 7 x a (by rw [hx]; omega), field_eq 0 x b (by rw [hx]; omega)])
theorem fadd (h : BitVec 2) (w : BitVec 3) (d : BitVec 7) (a : BitVec 7) (b : BitVec 7) : Statement (.fadd h w d a b) := by
  intro ok; suffices H : ∀ x, encodeWord (.fadd h w d a b) = some x → decodeWord x = some (.fadd h w d a b) from ⟨_, rfl, H _ rfl⟩
  intro x e; have e := Option.some.inj (show some (BitVec.ofNat 32 (word 1073741824 [(h.toNat, 24), (w.toNat, 21), (d.toNat, 14), (a.toNat, 7), (b.toNat, 0)])) = some x from e); simp only [word] at e
  have := h.isLt; have := w.isLt; have := d.isLt; have := a.isLt; have := b.isLt
  have hx : x.toNat = 1073741824 + h.toNat * 16777216 + w.toNat * 2097152 + d.toNat * 16384 + a.toNat * 128 + b.toNat * 1 := by rw [← e, BitVec.toNat_ofNat]; omega
  have h6_26 : num 6 26 x = 16 := by rw [num_eq, hx]; omega
  unfold decodeWord; rw [h6_26]; show decodeMajor10 x = _; unfold decodeMajor10
  show (some (Instr.fadd (field 2 24 x) (field 3 21 x) (field 7 14 x) (field 7 7 x) (field 7 0 x)) : Option Instr) = _
  exact (by rw [field_eq 24 x h (by rw [hx]; omega), field_eq 21 x w (by rw [hx]; omega), field_eq 14 x d (by rw [hx]; omega), field_eq 7 x a (by rw [hx]; omega), field_eq 0 x b (by rw [hx]; omega)])
theorem fsub (h : BitVec 2) (w : BitVec 3) (d : BitVec 7) (a : BitVec 7) (b : BitVec 7) : Statement (.fsub h w d a b) := by
  intro ok; suffices H : ∀ x, encodeWord (.fsub h w d a b) = some x → decodeWord x = some (.fsub h w d a b) from ⟨_, rfl, H _ rfl⟩
  intro x e; have e := Option.some.inj (show some (BitVec.ofNat 32 (word 1140850688 [(h.toNat, 24), (w.toNat, 21), (d.toNat, 14), (a.toNat, 7), (b.toNat, 0)])) = some x from e); simp only [word] at e
  have := h.isLt; have := w.isLt; have := d.isLt; have := a.isLt; have := b.isLt
  have hx : x.toNat = 1140850688 + h.toNat * 16777216 + w.toNat * 2097152 + d.toNat * 16384 + a.toNat * 128 + b.toNat * 1 := by rw [← e, BitVec.toNat_ofNat]; omega
  have h6_26 : num 6 26 x = 17 := by rw [num_eq, hx]; omega
  unfold decodeWord; rw [h6_26]; show decodeMajor11 x = _; unfold decodeMajor11
  show (some (Instr.fsub (field 2 24 x) (field 3 21 x) (field 7 14 x) (field 7 7 x) (field 7 0 x)) : Option Instr) = _
  exact (by rw [field_eq 24 x h (by rw [hx]; omega), field_eq 21 x w (by rw [hx]; omega), field_eq 14 x d (by rw [hx]; omega), field_eq 7 x a (by rw [hx]; omega), field_eq 0 x b (by rw [hx]; omega)])
theorem fmul (h : BitVec 2) (w : BitVec 3) (d : BitVec 7) (a : BitVec 7) (b : BitVec 7) : Statement (.fmul h w d a b) := by
  intro ok; suffices H : ∀ x, encodeWord (.fmul h w d a b) = some x → decodeWord x = some (.fmul h w d a b) from ⟨_, rfl, H _ rfl⟩
  intro x e; have e := Option.some.inj (show some (BitVec.ofNat 32 (word 1207959552 [(h.toNat, 24), (w.toNat, 21), (d.toNat, 14), (a.toNat, 7), (b.toNat, 0)])) = some x from e); simp only [word] at e
  have := h.isLt; have := w.isLt; have := d.isLt; have := a.isLt; have := b.isLt
  have hx : x.toNat = 1207959552 + h.toNat * 16777216 + w.toNat * 2097152 + d.toNat * 16384 + a.toNat * 128 + b.toNat * 1 := by rw [← e, BitVec.toNat_ofNat]; omega
  have h6_26 : num 6 26 x = 18 := by rw [num_eq, hx]; omega
  unfold decodeWord; rw [h6_26]; show decodeMajor12 x = _; unfold decodeMajor12
  show (some (Instr.fmul (field 2 24 x) (field 3 21 x) (field 7 14 x) (field 7 7 x) (field 7 0 x)) : Option Instr) = _
  exact (by rw [field_eq 24 x h (by rw [hx]; omega), field_eq 21 x w (by rw [hx]; omega), field_eq 14 x d (by rw [hx]; omega), field_eq 7 x a (by rw [hx]; omega), field_eq 0 x b (by rw [hx]; omega)])
theorem fma (h : BitVec 2) (w : BitVec 3) (d : BitVec 7) (a : BitVec 7) (b : BitVec 7) : Statement (.fma h w d a b) := by
  intro ok; suffices H : ∀ x, encodeWord (.fma h w d a b) = some x → decodeWord x = some (.fma h w d a b) from ⟨_, rfl, H _ rfl⟩
  intro x e; have e := Option.some.inj (show some (BitVec.ofNat 32 (word 1275068416 [(h.toNat, 24), (w.toNat, 21), (d.toNat, 14), (a.toNat, 7), (b.toNat, 0)])) = some x from e); simp only [word] at e
  have := h.isLt; have := w.isLt; have := d.isLt; have := a.isLt; have := b.isLt
  have hx : x.toNat = 1275068416 + h.toNat * 16777216 + w.toNat * 2097152 + d.toNat * 16384 + a.toNat * 128 + b.toNat * 1 := by rw [← e, BitVec.toNat_ofNat]; omega
  have h6_26 : num 6 26 x = 19 := by rw [num_eq, hx]; omega
  unfold decodeWord; rw [h6_26]; show decodeMajor13 x = _; unfold decodeMajor13
  show (some (Instr.fma (field 2 24 x) (field 3 21 x) (field 7 14 x) (field 7 7 x) (field 7 0 x)) : Option Instr) = _
  exact (by rw [field_eq 24 x h (by rw [hx]; omega), field_eq 21 x w (by rw [hx]; omega), field_eq 14 x d (by rw [hx]; omega), field_eq 7 x a (by rw [hx]; omega), field_eq 0 x b (by rw [hx]; omega)])
theorem fms (h : BitVec 2) (w : BitVec 3) (d : BitVec 7) (a : BitVec 7) (b : BitVec 7) : Statement (.fms h w d a b) := by
  intro ok; suffices H : ∀ x, encodeWord (.fms h w d a b) = some x → decodeWord x = some (.fms h w d a b) from ⟨_, rfl, H _ rfl⟩
  intro x e; have e := Option.some.inj (show some (BitVec.ofNat 32 (word 1342177280 [(h.toNat, 24), (w.toNat, 21), (d.toNat, 14), (a.toNat, 7), (b.toNat, 0)])) = some x from e); simp only [word] at e
  have := h.isLt; have := w.isLt; have := d.isLt; have := a.isLt; have := b.isLt
  have hx : x.toNat = 1342177280 + h.toNat * 16777216 + w.toNat * 2097152 + d.toNat * 16384 + a.toNat * 128 + b.toNat * 1 := by rw [← e, BitVec.toNat_ofNat]; omega
  have h6_26 : num 6 26 x = 20 := by rw [num_eq, hx]; omega
  unfold decodeWord; rw [h6_26]; show decodeMajor14 x = _; unfold decodeMajor14
  show (some (Instr.fms (field 2 24 x) (field 3 21 x) (field 7 14 x) (field 7 7 x) (field 7 0 x)) : Option Instr) = _
  exact (by rw [field_eq 24 x h (by rw [hx]; omega), field_eq 21 x w (by rw [hx]; omega), field_eq 14 x d (by rw [hx]; omega), field_eq 7 x a (by rw [hx]; omega), field_eq 0 x b (by rw [hx]; omega)])
theorem fnma (h : BitVec 2) (w : BitVec 3) (d : BitVec 7) (a : BitVec 7) (b : BitVec 7) : Statement (.fnma h w d a b) := by
  intro ok; suffices H : ∀ x, encodeWord (.fnma h w d a b) = some x → decodeWord x = some (.fnma h w d a b) from ⟨_, rfl, H _ rfl⟩
  intro x e; have e := Option.some.inj (show some (BitVec.ofNat 32 (word 1409286144 [(h.toNat, 24), (w.toNat, 21), (d.toNat, 14), (a.toNat, 7), (b.toNat, 0)])) = some x from e); simp only [word] at e
  have := h.isLt; have := w.isLt; have := d.isLt; have := a.isLt; have := b.isLt
  have hx : x.toNat = 1409286144 + h.toNat * 16777216 + w.toNat * 2097152 + d.toNat * 16384 + a.toNat * 128 + b.toNat * 1 := by rw [← e, BitVec.toNat_ofNat]; omega
  have h6_26 : num 6 26 x = 21 := by rw [num_eq, hx]; omega
  unfold decodeWord; rw [h6_26]; show decodeMajor15 x = _; unfold decodeMajor15
  show (some (Instr.fnma (field 2 24 x) (field 3 21 x) (field 7 14 x) (field 7 7 x) (field 7 0 x)) : Option Instr) = _
  exact (by rw [field_eq 24 x h (by rw [hx]; omega), field_eq 21 x w (by rw [hx]; omega), field_eq 14 x d (by rw [hx]; omega), field_eq 7 x a (by rw [hx]; omega), field_eq 0 x b (by rw [hx]; omega)])
theorem fmin (h : BitVec 2) (w : BitVec 3) (d : BitVec 7) (a : BitVec 7) (b : BitVec 7) : Statement (.fmin h w d a b) := by
  intro ok; suffices H : ∀ x, encodeWord (.fmin h w d a b) = some x → decodeWord x = some (.fmin h w d a b) from ⟨_, rfl, H _ rfl⟩
  intro x e; have e := Option.some.inj (show some (BitVec.ofNat 32 (word 1476395008 [(h.toNat, 24), (w.toNat, 21), (d.toNat, 14), (a.toNat, 7), (b.toNat, 0)])) = some x from e); simp only [word] at e
  have := h.isLt; have := w.isLt; have := d.isLt; have := a.isLt; have := b.isLt
  have hx : x.toNat = 1476395008 + h.toNat * 16777216 + w.toNat * 2097152 + d.toNat * 16384 + a.toNat * 128 + b.toNat * 1 := by rw [← e, BitVec.toNat_ofNat]; omega
  have h6_26 : num 6 26 x = 22 := by rw [num_eq, hx]; omega
  unfold decodeWord; rw [h6_26]; show decodeMajor16 x = _; unfold decodeMajor16
  show (some (Instr.fmin (field 2 24 x) (field 3 21 x) (field 7 14 x) (field 7 7 x) (field 7 0 x)) : Option Instr) = _
  exact (by rw [field_eq 24 x h (by rw [hx]; omega), field_eq 21 x w (by rw [hx]; omega), field_eq 14 x d (by rw [hx]; omega), field_eq 7 x a (by rw [hx]; omega), field_eq 0 x b (by rw [hx]; omega)])
theorem fmax (h : BitVec 2) (w : BitVec 3) (d : BitVec 7) (a : BitVec 7) (b : BitVec 7) : Statement (.fmax h w d a b) := by
  intro ok; suffices H : ∀ x, encodeWord (.fmax h w d a b) = some x → decodeWord x = some (.fmax h w d a b) from ⟨_, rfl, H _ rfl⟩
  intro x e; have e := Option.some.inj (show some (BitVec.ofNat 32 (word 1543503872 [(h.toNat, 24), (w.toNat, 21), (d.toNat, 14), (a.toNat, 7), (b.toNat, 0)])) = some x from e); simp only [word] at e
  have := h.isLt; have := w.isLt; have := d.isLt; have := a.isLt; have := b.isLt
  have hx : x.toNat = 1543503872 + h.toNat * 16777216 + w.toNat * 2097152 + d.toNat * 16384 + a.toNat * 128 + b.toNat * 1 := by rw [← e, BitVec.toNat_ofNat]; omega
  have h6_26 : num 6 26 x = 23 := by rw [num_eq, hx]; omega
  unfold decodeWord; rw [h6_26]; show decodeMajor17 x = _; unfold decodeMajor17
  show (some (Instr.fmax (field 2 24 x) (field 3 21 x) (field 7 14 x) (field 7 7 x) (field 7 0 x)) : Option Instr) = _
  exact (by rw [field_eq 24 x h (by rw [hx]; omega), field_eq 21 x w (by rw [hx]; omega), field_eq 14 x d (by rw [hx]; omega), field_eq 7 x a (by rw [hx]; omega), field_eq 0 x b (by rw [hx]; omega)])
theorem sel (h : BitVec 2) (w : BitVec 3) (d : BitVec 7) (a : BitVec 7) (b : BitVec 7) : Statement (.sel h w d a b) := by
  intro ok; suffices H : ∀ x, encodeWord (.sel h w d a b) = some x → decodeWord x = some (.sel h w d a b) from ⟨_, rfl, H _ rfl⟩
  intro x e; have e := Option.some.inj (show some (BitVec.ofNat 32 (word 1610612736 [(h.toNat, 24), (w.toNat, 21), (d.toNat, 14), (a.toNat, 7), (b.toNat, 0)])) = some x from e); simp only [word] at e
  have := h.isLt; have := w.isLt; have := d.isLt; have := a.isLt; have := b.isLt
  have hx : x.toNat = 1610612736 + h.toNat * 16777216 + w.toNat * 2097152 + d.toNat * 16384 + a.toNat * 128 + b.toNat * 1 := by rw [← e, BitVec.toNat_ofNat]; omega
  have h6_26 : num 6 26 x = 24 := by rw [num_eq, hx]; omega
  unfold decodeWord; rw [h6_26]; show decodeMajor18 x = _; unfold decodeMajor18
  show (some (Instr.sel (field 2 24 x) (field 3 21 x) (field 7 14 x) (field 7 7 x) (field 7 0 x)) : Option Instr) = _
  exact (by rw [field_eq 24 x h (by rw [hx]; omega), field_eq 21 x w (by rw [hx]; omega), field_eq 14 x d (by rw [hx]; omega), field_eq 7 x a (by rw [hx]; omega), field_eq 0 x b (by rw [hx]; omega)])
theorem shfl (h : BitVec 2) (w : BitVec 3) (d : BitVec 7) (a : BitVec 7) (b : BitVec 7) : Statement (.shfl h w d a b) := by
  intro ok; suffices H : ∀ x, encodeWord (.shfl h w d a b) = some x → decodeWord x = some (.shfl h w d a b) from ⟨_, rfl, H _ rfl⟩
  intro x e; have e := Option.some.inj (show some (BitVec.ofNat 32 (word 1677721600 [(h.toNat, 24), (w.toNat, 21), (d.toNat, 14), (a.toNat, 7), (b.toNat, 0)])) = some x from e); simp only [word] at e
  have := h.isLt; have := w.isLt; have := d.isLt; have := a.isLt; have := b.isLt
  have hx : x.toNat = 1677721600 + h.toNat * 16777216 + w.toNat * 2097152 + d.toNat * 16384 + a.toNat * 128 + b.toNat * 1 := by rw [← e, BitVec.toNat_ofNat]; omega
  have h6_26 : num 6 26 x = 25 := by rw [num_eq, hx]; omega
  unfold decodeWord; rw [h6_26]; show decodeMajor19 x = _; unfold decodeMajor19
  show (some (Instr.shfl (field 2 24 x) (field 3 21 x) (field 7 14 x) (field 7 7 x) (field 7 0 x)) : Option Instr) = _
  exact (by rw [field_eq 24 x h (by rw [hx]; omega), field_eq 21 x w (by rw [hx]; omega), field_eq 14 x d (by rw [hx]; omega), field_eq 7 x a (by rw [hx]; omega), field_eq 0 x b (by rw [hx]; omega)])
theorem shflx (h : BitVec 2) (w : BitVec 3) (d : BitVec 7) (a : BitVec 7) (b : BitVec 7) : Statement (.shflx h w d a b) := by
  intro ok; suffices H : ∀ x, encodeWord (.shflx h w d a b) = some x → decodeWord x = some (.shflx h w d a b) from ⟨_, rfl, H _ rfl⟩
  intro x e; have e := Option.some.inj (show some (BitVec.ofNat 32 (word 1744830464 [(h.toNat, 24), (w.toNat, 21), (d.toNat, 14), (a.toNat, 7), (b.toNat, 0)])) = some x from e); simp only [word] at e
  have := h.isLt; have := w.isLt; have := d.isLt; have := a.isLt; have := b.isLt
  have hx : x.toNat = 1744830464 + h.toNat * 16777216 + w.toNat * 2097152 + d.toNat * 16384 + a.toNat * 128 + b.toNat * 1 := by rw [← e, BitVec.toNat_ofNat]; omega
  have h6_26 : num 6 26 x = 26 := by rw [num_eq, hx]; omega
  unfold decodeWord; rw [h6_26]; show decodeMajor1A x = _; unfold decodeMajor1A
  show (some (Instr.shflx (field 2 24 x) (field 3 21 x) (field 7 14 x) (field 7 7 x) (field 7 0 x)) : Option Instr) = _
  exact (by rw [field_eq 24 x h (by rw [hx]; omega), field_eq 21 x w (by rw [hx]; omega), field_eq 14 x d (by rw [hx]; omega), field_eq 7 x a (by rw [hx]; omega), field_eq 0 x b (by rw [hx]; omega)])
theorem bprm (h : BitVec 2) (w : BitVec 3) (d : BitVec 7) (a : BitVec 7) (b : BitVec 7) : Statement (.bprm h w d a b) := by
  intro ok; suffices H : ∀ x, encodeWord (.bprm h w d a b) = some x → decodeWord x = some (.bprm h w d a b) from ⟨_, rfl, H _ rfl⟩
  intro x e; have e := Option.some.inj (show some (BitVec.ofNat 32 (word 1811939328 [(h.toNat, 24), (w.toNat, 21), (d.toNat, 14), (a.toNat, 7), (b.toNat, 0)])) = some x from e); simp only [word] at e
  have := h.isLt; have := w.isLt; have := d.isLt; have := a.isLt; have := b.isLt
  have hx : x.toNat = 1811939328 + h.toNat * 16777216 + w.toNat * 2097152 + d.toNat * 16384 + a.toNat * 128 + b.toNat * 1 := by rw [← e, BitVec.toNat_ofNat]; omega
  have h6_26 : num 6 26 x = 27 := by rw [num_eq, hx]; omega
  unfold decodeWord; rw [h6_26]; show decodeMajor1B x = _; unfold decodeMajor1B
  show (some (Instr.bprm (field 2 24 x) (field 3 21 x) (field 7 14 x) (field 7 7 x) (field 7 0 x)) : Option Instr) = _
  exact (by rw [field_eq 24 x h (by rw [hx]; omega), field_eq 21 x w (by rw [hx]; omega), field_eq 14 x d (by rw [hx]; omega), field_eq 7 x a (by rw [hx]; omega), field_eq 0 x b (by rw [hx]; omega)])
theorem dot2 (h : BitVec 2) (w : BitVec 3) (d : BitVec 7) (a : BitVec 7) (b : BitVec 7) : Statement (.dot2 h w d a b) := by
  intro ok; suffices H : ∀ x, encodeWord (.dot2 h w d a b) = some x → decodeWord x = some (.dot2 h w d a b) from ⟨_, rfl, H _ rfl⟩
  intro x e; have e := Option.some.inj (show some (BitVec.ofNat 32 (word 1879048192 [(h.toNat, 24), (w.toNat, 21), (d.toNat, 14), (a.toNat, 7), (b.toNat, 0)])) = some x from e); simp only [word] at e
  have := h.isLt; have := w.isLt; have := d.isLt; have := a.isLt; have := b.isLt
  have hx : x.toNat = 1879048192 + h.toNat * 16777216 + w.toNat * 2097152 + d.toNat * 16384 + a.toNat * 128 + b.toNat * 1 := by rw [← e, BitVec.toNat_ofNat]; omega
  have h6_26 : num 6 26 x = 28 := by rw [num_eq, hx]; omega
  unfold decodeWord; rw [h6_26]; show decodeMajor1C x = _; unfold decodeMajor1C
  show (some (Instr.dot2 (field 2 24 x) (field 3 21 x) (field 7 14 x) (field 7 7 x) (field 7 0 x)) : Option Instr) = _
  exact (by rw [field_eq 24 x h (by rw [hx]; omega), field_eq 21 x w (by rw [hx]; omega), field_eq 14 x d (by rw [hx]; omega), field_eq 7 x a (by rw [hx]; omega), field_eq 0 x b (by rw [hx]; omega)])
theorem dot4 (h : BitVec 2) (w : BitVec 3) (d : BitVec 7) (a : BitVec 7) (b : BitVec 7) : Statement (.dot4 h w d a b) := by
  intro ok; suffices H : ∀ x, encodeWord (.dot4 h w d a b) = some x → decodeWord x = some (.dot4 h w d a b) from ⟨_, rfl, H _ rfl⟩
  intro x e; have e := Option.some.inj (show some (BitVec.ofNat 32 (word 1946157056 [(h.toNat, 24), (w.toNat, 21), (d.toNat, 14), (a.toNat, 7), (b.toNat, 0)])) = some x from e); simp only [word] at e
  have := h.isLt; have := w.isLt; have := d.isLt; have := a.isLt; have := b.isLt
  have hx : x.toNat = 1946157056 + h.toNat * 16777216 + w.toNat * 2097152 + d.toNat * 16384 + a.toNat * 128 + b.toNat * 1 := by rw [← e, BitVec.toNat_ofNat]; omega
  have h6_26 : num 6 26 x = 29 := by rw [num_eq, hx]; omega
  unfold decodeWord; rw [h6_26]; show decodeMajor1D x = _; unfold decodeMajor1D
  show (some (Instr.dot4 (field 2 24 x) (field 3 21 x) (field 7 14 x) (field 7 7 x) (field 7 0 x)) : Option Instr) = _
  exact (by rw [field_eq 24 x h (by rw [hx]; omega), field_eq 21 x w (by rw [hx]; omega), field_eq 14 x d (by rw [hx]; omega), field_eq 7 x a (by rw [hx]; omega), field_eq 0 x b (by rw [hx]; omega)])
theorem pack (h : BitVec 2) (w : BitVec 3) (d : BitVec 7) (a : BitVec 7) (b : BitVec 7) : Statement (.pack h w d a b) := by
  intro ok; suffices H : ∀ x, encodeWord (.pack h w d a b) = some x → decodeWord x = some (.pack h w d a b) from ⟨_, rfl, H _ rfl⟩
  intro x e; have e := Option.some.inj (show some (BitVec.ofNat 32 (word 2013265920 [(h.toNat, 24), (w.toNat, 21), (d.toNat, 14), (a.toNat, 7), (b.toNat, 0)])) = some x from e); simp only [word] at e
  have := h.isLt; have := w.isLt; have := d.isLt; have := a.isLt; have := b.isLt
  have hx : x.toNat = 2013265920 + h.toNat * 16777216 + w.toNat * 2097152 + d.toNat * 16384 + a.toNat * 128 + b.toNat * 1 := by rw [← e, BitVec.toNat_ofNat]; omega
  have h6_26 : num 6 26 x = 30 := by rw [num_eq, hx]; omega
  unfold decodeWord; rw [h6_26]; show decodeMajor1E x = _; unfold decodeMajor1E
  show (some (Instr.pack (field 2 24 x) (field 3 21 x) (field 7 14 x) (field 7 7 x) (field 7 0 x)) : Option Instr) = _
  exact (by rw [field_eq 24 x h (by rw [hx]; omega), field_eq 21 x w (by rw [hx]; omega), field_eq 14 x d (by rw [hx]; omega), field_eq 7 x a (by rw [hx]; omega), field_eq 0 x b (by rw [hx]; omega)])
theorem fscale (h : BitVec 2) (w : BitVec 3) (d : BitVec 7) (a : BitVec 7) (b : BitVec 7) : Statement (.fscale h w d a b) := by
  intro ok; suffices H : ∀ x, encodeWord (.fscale h w d a b) = some x → decodeWord x = some (.fscale h w d a b) from ⟨_, rfl, H _ rfl⟩
  intro x e; have e := Option.some.inj (show some (BitVec.ofNat 32 (word 2080374784 [(h.toNat, 24), (w.toNat, 21), (d.toNat, 14), (a.toNat, 7), (b.toNat, 0)])) = some x from e); simp only [word] at e
  have := h.isLt; have := w.isLt; have := d.isLt; have := a.isLt; have := b.isLt
  have hx : x.toNat = 2080374784 + h.toNat * 16777216 + w.toNat * 2097152 + d.toNat * 16384 + a.toNat * 128 + b.toNat * 1 := by rw [← e, BitVec.toNat_ofNat]; omega
  have h6_26 : num 6 26 x = 31 := by rw [num_eq, hx]; omega
  unfold decodeWord; rw [h6_26]; show decodeMajor1F x = _; unfold decodeMajor1F
  show (some (Instr.fscale (field 2 24 x) (field 3 21 x) (field 7 14 x) (field 7 7 x) (field 7 0 x)) : Option Instr) = _
  exact (by rw [field_eq 24 x h (by rw [hx]; omega), field_eq 21 x w (by rw [hx]; omega), field_eq 14 x d (by rw [hx]; omega), field_eq 7 x a (by rw [hx]; omega), field_eq 0 x b (by rw [hx]; omega)])
theorem mov (h : BitVec 2) (w : BitVec 3) (d : BitVec 7) (a : BitVec 7) : Statement (.mov h w d a) := by
  intro ok; suffices H : ∀ x, encodeWord (.mov h w d a) = some x → decodeWord x = some (.mov h w d a) from ⟨_, rfl, H _ rfl⟩
  intro x e; have e := Option.some.inj (show some (BitVec.ofNat 32 (word 2147483648 [(h.toNat, 24), (w.toNat, 21), (d.toNat, 14), (a.toNat, 7)])) = some x from e); simp only [word] at e
  have := h.isLt; have := w.isLt; have := d.isLt; have := a.isLt
  have hx : x.toNat = 2147483648 + h.toNat * 16777216 + w.toNat * 2097152 + d.toNat * 16384 + a.toNat * 128 := by rw [← e, BitVec.toNat_ofNat]; omega
  have h6_26 : num 6 26 x = 32 := by rw [num_eq, hx]; omega
  have h7_0 : num 7 0 x = 0 := by rw [num_eq, hx]; omega
  unfold decodeWord; rw [h6_26]; show decodeMajor20 x = _; unfold decodeMajor20
  rw [h7_0]
  show (some (Instr.mov (field 2 24 x) (field 3 21 x) (field 7 14 x) (field 7 7 x)) : Option Instr) = _
  exact (by rw [field_eq 24 x h (by rw [hx]; omega), field_eq 21 x w (by rw [hx]; omega), field_eq 14 x d (by rw [hx]; omega), field_eq 7 x a (by rw [hx]; omega)])
theorem vnot (h : BitVec 2) (w : BitVec 3) (d : BitVec 7) (a : BitVec 7) : Statement (.vnot h w d a) := by
  intro ok; suffices H : ∀ x, encodeWord (.vnot h w d a) = some x → decodeWord x = some (.vnot h w d a) from ⟨_, rfl, H _ rfl⟩
  intro x e; have e := Option.some.inj (show some (BitVec.ofNat 32 (word 2147483649 [(h.toNat, 24), (w.toNat, 21), (d.toNat, 14), (a.toNat, 7)])) = some x from e); simp only [word] at e
  have := h.isLt; have := w.isLt; have := d.isLt; have := a.isLt
  have hx : x.toNat = 2147483649 + h.toNat * 16777216 + w.toNat * 2097152 + d.toNat * 16384 + a.toNat * 128 := by rw [← e, BitVec.toNat_ofNat]; omega
  have h6_26 : num 6 26 x = 32 := by rw [num_eq, hx]; omega
  have h7_0 : num 7 0 x = 1 := by rw [num_eq, hx]; omega
  unfold decodeWord; rw [h6_26]; show decodeMajor20 x = _; unfold decodeMajor20
  rw [h7_0]
  show (some (Instr.vnot (field 2 24 x) (field 3 21 x) (field 7 14 x) (field 7 7 x)) : Option Instr) = _
  exact (by rw [field_eq 24 x h (by rw [hx]; omega), field_eq 21 x w (by rw [hx]; omega), field_eq 14 x d (by rw [hx]; omega), field_eq 7 x a (by rw [hx]; omega)])
theorem ineg (h : BitVec 2) (w : BitVec 3) (d : BitVec 7) (a : BitVec 7) : Statement (.ineg h w d a) := by
  intro ok; suffices H : ∀ x, encodeWord (.ineg h w d a) = some x → decodeWord x = some (.ineg h w d a) from ⟨_, rfl, H _ rfl⟩
  intro x e; have e := Option.some.inj (show some (BitVec.ofNat 32 (word 2147483650 [(h.toNat, 24), (w.toNat, 21), (d.toNat, 14), (a.toNat, 7)])) = some x from e); simp only [word] at e
  have := h.isLt; have := w.isLt; have := d.isLt; have := a.isLt
  have hx : x.toNat = 2147483650 + h.toNat * 16777216 + w.toNat * 2097152 + d.toNat * 16384 + a.toNat * 128 := by rw [← e, BitVec.toNat_ofNat]; omega
  have h6_26 : num 6 26 x = 32 := by rw [num_eq, hx]; omega
  have h7_0 : num 7 0 x = 2 := by rw [num_eq, hx]; omega
  unfold decodeWord; rw [h6_26]; show decodeMajor20 x = _; unfold decodeMajor20
  rw [h7_0]
  show (some (Instr.ineg (field 2 24 x) (field 3 21 x) (field 7 14 x) (field 7 7 x)) : Option Instr) = _
  exact (by rw [field_eq 24 x h (by rw [hx]; omega), field_eq 21 x w (by rw [hx]; omega), field_eq 14 x d (by rw [hx]; omega), field_eq 7 x a (by rw [hx]; omega)])
theorem iabs (h : BitVec 2) (w : BitVec 3) (d : BitVec 7) (a : BitVec 7) : Statement (.iabs h w d a) := by
  intro ok; suffices H : ∀ x, encodeWord (.iabs h w d a) = some x → decodeWord x = some (.iabs h w d a) from ⟨_, rfl, H _ rfl⟩
  intro x e; have e := Option.some.inj (show some (BitVec.ofNat 32 (word 2147483651 [(h.toNat, 24), (w.toNat, 21), (d.toNat, 14), (a.toNat, 7)])) = some x from e); simp only [word] at e
  have := h.isLt; have := w.isLt; have := d.isLt; have := a.isLt
  have hx : x.toNat = 2147483651 + h.toNat * 16777216 + w.toNat * 2097152 + d.toNat * 16384 + a.toNat * 128 := by rw [← e, BitVec.toNat_ofNat]; omega
  have h6_26 : num 6 26 x = 32 := by rw [num_eq, hx]; omega
  have h7_0 : num 7 0 x = 3 := by rw [num_eq, hx]; omega
  unfold decodeWord; rw [h6_26]; show decodeMajor20 x = _; unfold decodeMajor20
  rw [h7_0]
  show (some (Instr.iabs (field 2 24 x) (field 3 21 x) (field 7 14 x) (field 7 7 x)) : Option Instr) = _
  exact (by rw [field_eq 24 x h (by rw [hx]; omega), field_eq 21 x w (by rw [hx]; omega), field_eq 14 x d (by rw [hx]; omega), field_eq 7 x a (by rw [hx]; omega)])
theorem popc (h : BitVec 2) (w : BitVec 3) (d : BitVec 7) (a : BitVec 7) : Statement (.popc h w d a) := by
  intro ok; suffices H : ∀ x, encodeWord (.popc h w d a) = some x → decodeWord x = some (.popc h w d a) from ⟨_, rfl, H _ rfl⟩
  intro x e; have e := Option.some.inj (show some (BitVec.ofNat 32 (word 2147483652 [(h.toNat, 24), (w.toNat, 21), (d.toNat, 14), (a.toNat, 7)])) = some x from e); simp only [word] at e
  have := h.isLt; have := w.isLt; have := d.isLt; have := a.isLt
  have hx : x.toNat = 2147483652 + h.toNat * 16777216 + w.toNat * 2097152 + d.toNat * 16384 + a.toNat * 128 := by rw [← e, BitVec.toNat_ofNat]; omega
  have h6_26 : num 6 26 x = 32 := by rw [num_eq, hx]; omega
  have h7_0 : num 7 0 x = 4 := by rw [num_eq, hx]; omega
  unfold decodeWord; rw [h6_26]; show decodeMajor20 x = _; unfold decodeMajor20
  rw [h7_0]
  show (some (Instr.popc (field 2 24 x) (field 3 21 x) (field 7 14 x) (field 7 7 x)) : Option Instr) = _
  exact (by rw [field_eq 24 x h (by rw [hx]; omega), field_eq 21 x w (by rw [hx]; omega), field_eq 14 x d (by rw [hx]; omega), field_eq 7 x a (by rw [hx]; omega)])
theorem clz (h : BitVec 2) (w : BitVec 3) (d : BitVec 7) (a : BitVec 7) : Statement (.clz h w d a) := by
  intro ok; suffices H : ∀ x, encodeWord (.clz h w d a) = some x → decodeWord x = some (.clz h w d a) from ⟨_, rfl, H _ rfl⟩
  intro x e; have e := Option.some.inj (show some (BitVec.ofNat 32 (word 2147483653 [(h.toNat, 24), (w.toNat, 21), (d.toNat, 14), (a.toNat, 7)])) = some x from e); simp only [word] at e
  have := h.isLt; have := w.isLt; have := d.isLt; have := a.isLt
  have hx : x.toNat = 2147483653 + h.toNat * 16777216 + w.toNat * 2097152 + d.toNat * 16384 + a.toNat * 128 := by rw [← e, BitVec.toNat_ofNat]; omega
  have h6_26 : num 6 26 x = 32 := by rw [num_eq, hx]; omega
  have h7_0 : num 7 0 x = 5 := by rw [num_eq, hx]; omega
  unfold decodeWord; rw [h6_26]; show decodeMajor20 x = _; unfold decodeMajor20
  rw [h7_0]
  show (some (Instr.clz (field 2 24 x) (field 3 21 x) (field 7 14 x) (field 7 7 x)) : Option Instr) = _
  exact (by rw [field_eq 24 x h (by rw [hx]; omega), field_eq 21 x w (by rw [hx]; omega), field_eq 14 x d (by rw [hx]; omega), field_eq 7 x a (by rw [hx]; omega)])
theorem ctz (h : BitVec 2) (w : BitVec 3) (d : BitVec 7) (a : BitVec 7) : Statement (.ctz h w d a) := by
  intro ok; suffices H : ∀ x, encodeWord (.ctz h w d a) = some x → decodeWord x = some (.ctz h w d a) from ⟨_, rfl, H _ rfl⟩
  intro x e; have e := Option.some.inj (show some (BitVec.ofNat 32 (word 2147483654 [(h.toNat, 24), (w.toNat, 21), (d.toNat, 14), (a.toNat, 7)])) = some x from e); simp only [word] at e
  have := h.isLt; have := w.isLt; have := d.isLt; have := a.isLt
  have hx : x.toNat = 2147483654 + h.toNat * 16777216 + w.toNat * 2097152 + d.toNat * 16384 + a.toNat * 128 := by rw [← e, BitVec.toNat_ofNat]; omega
  have h6_26 : num 6 26 x = 32 := by rw [num_eq, hx]; omega
  have h7_0 : num 7 0 x = 6 := by rw [num_eq, hx]; omega
  unfold decodeWord; rw [h6_26]; show decodeMajor20 x = _; unfold decodeMajor20
  rw [h7_0]
  show (some (Instr.ctz (field 2 24 x) (field 3 21 x) (field 7 14 x) (field 7 7 x)) : Option Instr) = _
  exact (by rw [field_eq 24 x h (by rw [hx]; omega), field_eq 21 x w (by rw [hx]; omega), field_eq 14 x d (by rw [hx]; omega), field_eq 7 x a (by rw [hx]; omega)])
theorem brev (h : BitVec 2) (w : BitVec 3) (d : BitVec 7) (a : BitVec 7) : Statement (.brev h w d a) := by
  intro ok; suffices H : ∀ x, encodeWord (.brev h w d a) = some x → decodeWord x = some (.brev h w d a) from ⟨_, rfl, H _ rfl⟩
  intro x e; have e := Option.some.inj (show some (BitVec.ofNat 32 (word 2147483655 [(h.toNat, 24), (w.toNat, 21), (d.toNat, 14), (a.toNat, 7)])) = some x from e); simp only [word] at e
  have := h.isLt; have := w.isLt; have := d.isLt; have := a.isLt
  have hx : x.toNat = 2147483655 + h.toNat * 16777216 + w.toNat * 2097152 + d.toNat * 16384 + a.toNat * 128 := by rw [← e, BitVec.toNat_ofNat]; omega
  have h6_26 : num 6 26 x = 32 := by rw [num_eq, hx]; omega
  have h7_0 : num 7 0 x = 7 := by rw [num_eq, hx]; omega
  unfold decodeWord; rw [h6_26]; show decodeMajor20 x = _; unfold decodeMajor20
  rw [h7_0]
  show (some (Instr.brev (field 2 24 x) (field 3 21 x) (field 7 14 x) (field 7 7 x)) : Option Instr) = _
  exact (by rw [field_eq 24 x h (by rw [hx]; omega), field_eq 21 x w (by rw [hx]; omega), field_eq 14 x d (by rw [hx]; omega), field_eq 7 x a (by rw [hx]; omega)])
theorem sext8 (h : BitVec 2) (w : BitVec 3) (d : BitVec 7) (a : BitVec 7) : Statement (.sext8 h w d a) := by
  intro ok; suffices H : ∀ x, encodeWord (.sext8 h w d a) = some x → decodeWord x = some (.sext8 h w d a) from ⟨_, rfl, H _ rfl⟩
  intro x e; have e := Option.some.inj (show some (BitVec.ofNat 32 (word 2147483656 [(h.toNat, 24), (w.toNat, 21), (d.toNat, 14), (a.toNat, 7)])) = some x from e); simp only [word] at e
  have := h.isLt; have := w.isLt; have := d.isLt; have := a.isLt
  have hx : x.toNat = 2147483656 + h.toNat * 16777216 + w.toNat * 2097152 + d.toNat * 16384 + a.toNat * 128 := by rw [← e, BitVec.toNat_ofNat]; omega
  have h6_26 : num 6 26 x = 32 := by rw [num_eq, hx]; omega
  have h7_0 : num 7 0 x = 8 := by rw [num_eq, hx]; omega
  unfold decodeWord; rw [h6_26]; show decodeMajor20 x = _; unfold decodeMajor20
  rw [h7_0]
  show (some (Instr.sext8 (field 2 24 x) (field 3 21 x) (field 7 14 x) (field 7 7 x)) : Option Instr) = _
  exact (by rw [field_eq 24 x h (by rw [hx]; omega), field_eq 21 x w (by rw [hx]; omega), field_eq 14 x d (by rw [hx]; omega), field_eq 7 x a (by rw [hx]; omega)])
theorem sext16 (h : BitVec 2) (w : BitVec 3) (d : BitVec 7) (a : BitVec 7) : Statement (.sext16 h w d a) := by
  intro ok; suffices H : ∀ x, encodeWord (.sext16 h w d a) = some x → decodeWord x = some (.sext16 h w d a) from ⟨_, rfl, H _ rfl⟩
  intro x e; have e := Option.some.inj (show some (BitVec.ofNat 32 (word 2147483657 [(h.toNat, 24), (w.toNat, 21), (d.toNat, 14), (a.toNat, 7)])) = some x from e); simp only [word] at e
  have := h.isLt; have := w.isLt; have := d.isLt; have := a.isLt
  have hx : x.toNat = 2147483657 + h.toNat * 16777216 + w.toNat * 2097152 + d.toNat * 16384 + a.toNat * 128 := by rw [← e, BitVec.toNat_ofNat]; omega
  have h6_26 : num 6 26 x = 32 := by rw [num_eq, hx]; omega
  have h7_0 : num 7 0 x = 9 := by rw [num_eq, hx]; omega
  unfold decodeWord; rw [h6_26]; show decodeMajor20 x = _; unfold decodeMajor20
  rw [h7_0]
  show (some (Instr.sext16 (field 2 24 x) (field 3 21 x) (field 7 14 x) (field 7 7 x)) : Option Instr) = _
  exact (by rw [field_eq 24 x h (by rw [hx]; omega), field_eq 21 x w (by rw [hx]; omega), field_eq 14 x d (by rw [hx]; omega), field_eq 7 x a (by rw [hx]; omega)])
theorem zext8 (h : BitVec 2) (w : BitVec 3) (d : BitVec 7) (a : BitVec 7) : Statement (.zext8 h w d a) := by
  intro ok; suffices H : ∀ x, encodeWord (.zext8 h w d a) = some x → decodeWord x = some (.zext8 h w d a) from ⟨_, rfl, H _ rfl⟩
  intro x e; have e := Option.some.inj (show some (BitVec.ofNat 32 (word 2147483658 [(h.toNat, 24), (w.toNat, 21), (d.toNat, 14), (a.toNat, 7)])) = some x from e); simp only [word] at e
  have := h.isLt; have := w.isLt; have := d.isLt; have := a.isLt
  have hx : x.toNat = 2147483658 + h.toNat * 16777216 + w.toNat * 2097152 + d.toNat * 16384 + a.toNat * 128 := by rw [← e, BitVec.toNat_ofNat]; omega
  have h6_26 : num 6 26 x = 32 := by rw [num_eq, hx]; omega
  have h7_0 : num 7 0 x = 10 := by rw [num_eq, hx]; omega
  unfold decodeWord; rw [h6_26]; show decodeMajor20 x = _; unfold decodeMajor20
  rw [h7_0]
  show (some (Instr.zext8 (field 2 24 x) (field 3 21 x) (field 7 14 x) (field 7 7 x)) : Option Instr) = _
  exact (by rw [field_eq 24 x h (by rw [hx]; omega), field_eq 21 x w (by rw [hx]; omega), field_eq 14 x d (by rw [hx]; omega), field_eq 7 x a (by rw [hx]; omega)])
theorem zext16 (h : BitVec 2) (w : BitVec 3) (d : BitVec 7) (a : BitVec 7) : Statement (.zext16 h w d a) := by
  intro ok; suffices H : ∀ x, encodeWord (.zext16 h w d a) = some x → decodeWord x = some (.zext16 h w d a) from ⟨_, rfl, H _ rfl⟩
  intro x e; have e := Option.some.inj (show some (BitVec.ofNat 32 (word 2147483659 [(h.toNat, 24), (w.toNat, 21), (d.toNat, 14), (a.toNat, 7)])) = some x from e); simp only [word] at e
  have := h.isLt; have := w.isLt; have := d.isLt; have := a.isLt
  have hx : x.toNat = 2147483659 + h.toNat * 16777216 + w.toNat * 2097152 + d.toNat * 16384 + a.toNat * 128 := by rw [← e, BitVec.toNat_ofNat]; omega
  have h6_26 : num 6 26 x = 32 := by rw [num_eq, hx]; omega
  have h7_0 : num 7 0 x = 11 := by rw [num_eq, hx]; omega
  unfold decodeWord; rw [h6_26]; show decodeMajor20 x = _; unfold decodeMajor20
  rw [h7_0]
  show (some (Instr.zext16 (field 2 24 x) (field 3 21 x) (field 7 14 x) (field 7 7 x)) : Option Instr) = _
  exact (by rw [field_eq 24 x h (by rw [hx]; omega), field_eq 21 x w (by rw [hx]; omega), field_eq 14 x d (by rw [hx]; omega), field_eq 7 x a (by rw [hx]; omega)])
theorem bswap (h : BitVec 2) (w : BitVec 3) (d : BitVec 7) (a : BitVec 7) : Statement (.bswap h w d a) := by
  intro ok; suffices H : ∀ x, encodeWord (.bswap h w d a) = some x → decodeWord x = some (.bswap h w d a) from ⟨_, rfl, H _ rfl⟩
  intro x e; have e := Option.some.inj (show some (BitVec.ofNat 32 (word 2147483660 [(h.toNat, 24), (w.toNat, 21), (d.toNat, 14), (a.toNat, 7)])) = some x from e); simp only [word] at e
  have := h.isLt; have := w.isLt; have := d.isLt; have := a.isLt
  have hx : x.toNat = 2147483660 + h.toNat * 16777216 + w.toNat * 2097152 + d.toNat * 16384 + a.toNat * 128 := by rw [← e, BitVec.toNat_ofNat]; omega
  have h6_26 : num 6 26 x = 32 := by rw [num_eq, hx]; omega
  have h7_0 : num 7 0 x = 12 := by rw [num_eq, hx]; omega
  unfold decodeWord; rw [h6_26]; show decodeMajor20 x = _; unfold decodeMajor20
  rw [h7_0]
  show (some (Instr.bswap (field 2 24 x) (field 3 21 x) (field 7 14 x) (field 7 7 x)) : Option Instr) = _
  exact (by rw [field_eq 24 x h (by rw [hx]; omega), field_eq 21 x w (by rw [hx]; omega), field_eq 14 x d (by rw [hx]; omega), field_eq 7 x a (by rw [hx]; omega)])
theorem movg (w : BitVec 3) (d : BitVec 7) (g : BitVec 4) : Statement (.movg w d g) := by
  intro ok; suffices H : ∀ x, encodeWord (.movg w d g) = some x → decodeWord x = some (.movg w d g) from ⟨_, rfl, H _ rfl⟩
  intro x e; have e := Option.some.inj (show some (BitVec.ofNat 32 (word 2147483661 [(w.toNat, 21), (d.toNat, 14), (g.toNat, 7)])) = some x from e); simp only [word] at e
  have := w.isLt; have := d.isLt; have := g.isLt
  have hx : x.toNat = 2147483661 + w.toNat * 2097152 + d.toNat * 16384 + g.toNat * 128 := by rw [← e, BitVec.toNat_ofNat]; omega
  have h6_26 : num 6 26 x = 32 := by rw [num_eq, hx]; omega
  have h7_0 : num 7 0 x = 13 := by rw [num_eq, hx]; omega
  have h2_24 : num 2 24 x = 0 := by rw [num_eq, hx]; omega
  have h3_11 : num 3 11 x = 0 := by rw [num_eq, hx]; omega
  unfold decodeWord; rw [h6_26]; show decodeMajor20 x = _; unfold decodeMajor20
  rw [h7_0]
  show (if num 2 24 x = 0 ∧ num 3 11 x = 0 then some (Instr.movg (field 3 21 x) (field 7 14 x) (field 4 7 x)) else none : Option Instr) = _
  exact (if_pos ⟨h2_24, h3_11⟩).trans (by rw [field_eq 21 x w (by rw [hx]; omega), field_eq 14 x d (by rw [hx]; omega), field_eq 7 x g (by rw [hx]; omega)])
theorem movgh (w : BitVec 3) (d : BitVec 7) (g : BitVec 4) : Statement (.movgh w d g) := by
  intro ok; suffices H : ∀ x, encodeWord (.movgh w d g) = some x → decodeWord x = some (.movgh w d g) from ⟨_, rfl, H _ rfl⟩
  intro x e; have e := Option.some.inj (show some (BitVec.ofNat 32 (word 2147483662 [(w.toNat, 21), (d.toNat, 14), (g.toNat, 7)])) = some x from e); simp only [word] at e
  have := w.isLt; have := d.isLt; have := g.isLt
  have hx : x.toNat = 2147483662 + w.toNat * 2097152 + d.toNat * 16384 + g.toNat * 128 := by rw [← e, BitVec.toNat_ofNat]; omega
  have h6_26 : num 6 26 x = 32 := by rw [num_eq, hx]; omega
  have h7_0 : num 7 0 x = 14 := by rw [num_eq, hx]; omega
  have h2_24 : num 2 24 x = 0 := by rw [num_eq, hx]; omega
  have h3_11 : num 3 11 x = 0 := by rw [num_eq, hx]; omega
  unfold decodeWord; rw [h6_26]; show decodeMajor20 x = _; unfold decodeMajor20
  rw [h7_0]
  show (if num 2 24 x = 0 ∧ num 3 11 x = 0 then some (Instr.movgh (field 3 21 x) (field 7 14 x) (field 4 7 x)) else none : Option Instr) = _
  exact (if_pos ⟨h2_24, h3_11⟩).trans (by rw [field_eq 21 x w (by rw [hx]; omega), field_eq 14 x d (by rw [hx]; omega), field_eq 7 x g (by rw [hx]; omega)])
theorem fneg (h : BitVec 2) (w : BitVec 3) (d : BitVec 7) (a : BitVec 7) : Statement (.fneg h w d a) := by
  intro ok; suffices H : ∀ x, encodeWord (.fneg h w d a) = some x → decodeWord x = some (.fneg h w d a) from ⟨_, rfl, H _ rfl⟩
  intro x e; have e := Option.some.inj (show some (BitVec.ofNat 32 (word 2214592512 [(h.toNat, 24), (w.toNat, 21), (d.toNat, 14), (a.toNat, 7)])) = some x from e); simp only [word] at e
  have := h.isLt; have := w.isLt; have := d.isLt; have := a.isLt
  have hx : x.toNat = 2214592512 + h.toNat * 16777216 + w.toNat * 2097152 + d.toNat * 16384 + a.toNat * 128 := by rw [← e, BitVec.toNat_ofNat]; omega
  have h6_26 : num 6 26 x = 33 := by rw [num_eq, hx]; omega
  have h7_0 : num 7 0 x = 0 := by rw [num_eq, hx]; omega
  unfold decodeWord; rw [h6_26]; show decodeMajor21 x = _; unfold decodeMajor21
  rw [h7_0]
  show (some (Instr.fneg (field 2 24 x) (field 3 21 x) (field 7 14 x) (field 7 7 x)) : Option Instr) = _
  exact (by rw [field_eq 24 x h (by rw [hx]; omega), field_eq 21 x w (by rw [hx]; omega), field_eq 14 x d (by rw [hx]; omega), field_eq 7 x a (by rw [hx]; omega)])
theorem fabs (h : BitVec 2) (w : BitVec 3) (d : BitVec 7) (a : BitVec 7) : Statement (.fabs h w d a) := by
  intro ok; suffices H : ∀ x, encodeWord (.fabs h w d a) = some x → decodeWord x = some (.fabs h w d a) from ⟨_, rfl, H _ rfl⟩
  intro x e; have e := Option.some.inj (show some (BitVec.ofNat 32 (word 2214592513 [(h.toNat, 24), (w.toNat, 21), (d.toNat, 14), (a.toNat, 7)])) = some x from e); simp only [word] at e
  have := h.isLt; have := w.isLt; have := d.isLt; have := a.isLt
  have hx : x.toNat = 2214592513 + h.toNat * 16777216 + w.toNat * 2097152 + d.toNat * 16384 + a.toNat * 128 := by rw [← e, BitVec.toNat_ofNat]; omega
  have h6_26 : num 6 26 x = 33 := by rw [num_eq, hx]; omega
  have h7_0 : num 7 0 x = 1 := by rw [num_eq, hx]; omega
  unfold decodeWord; rw [h6_26]; show decodeMajor21 x = _; unfold decodeMajor21
  rw [h7_0]
  show (some (Instr.fabs (field 2 24 x) (field 3 21 x) (field 7 14 x) (field 7 7 x)) : Option Instr) = _
  exact (by rw [field_eq 24 x h (by rw [hx]; omega), field_eq 21 x w (by rw [hx]; omega), field_eq 14 x d (by rw [hx]; omega), field_eq 7 x a (by rw [hx]; omega)])
theorem frcp (h : BitVec 2) (w : BitVec 3) (d : BitVec 7) (a : BitVec 7) : Statement (.frcp h w d a) := by
  intro ok; suffices H : ∀ x, encodeWord (.frcp h w d a) = some x → decodeWord x = some (.frcp h w d a) from ⟨_, rfl, H _ rfl⟩
  intro x e; have e := Option.some.inj (show some (BitVec.ofNat 32 (word 2214592514 [(h.toNat, 24), (w.toNat, 21), (d.toNat, 14), (a.toNat, 7)])) = some x from e); simp only [word] at e
  have := h.isLt; have := w.isLt; have := d.isLt; have := a.isLt
  have hx : x.toNat = 2214592514 + h.toNat * 16777216 + w.toNat * 2097152 + d.toNat * 16384 + a.toNat * 128 := by rw [← e, BitVec.toNat_ofNat]; omega
  have h6_26 : num 6 26 x = 33 := by rw [num_eq, hx]; omega
  have h7_0 : num 7 0 x = 2 := by rw [num_eq, hx]; omega
  unfold decodeWord; rw [h6_26]; show decodeMajor21 x = _; unfold decodeMajor21
  rw [h7_0]
  show (some (Instr.frcp (field 2 24 x) (field 3 21 x) (field 7 14 x) (field 7 7 x)) : Option Instr) = _
  exact (by rw [field_eq 24 x h (by rw [hx]; omega), field_eq 21 x w (by rw [hx]; omega), field_eq 14 x d (by rw [hx]; omega), field_eq 7 x a (by rw [hx]; omega)])
theorem frsq (h : BitVec 2) (w : BitVec 3) (d : BitVec 7) (a : BitVec 7) : Statement (.frsq h w d a) := by
  intro ok; suffices H : ∀ x, encodeWord (.frsq h w d a) = some x → decodeWord x = some (.frsq h w d a) from ⟨_, rfl, H _ rfl⟩
  intro x e; have e := Option.some.inj (show some (BitVec.ofNat 32 (word 2214592515 [(h.toNat, 24), (w.toNat, 21), (d.toNat, 14), (a.toNat, 7)])) = some x from e); simp only [word] at e
  have := h.isLt; have := w.isLt; have := d.isLt; have := a.isLt
  have hx : x.toNat = 2214592515 + h.toNat * 16777216 + w.toNat * 2097152 + d.toNat * 16384 + a.toNat * 128 := by rw [← e, BitVec.toNat_ofNat]; omega
  have h6_26 : num 6 26 x = 33 := by rw [num_eq, hx]; omega
  have h7_0 : num 7 0 x = 3 := by rw [num_eq, hx]; omega
  unfold decodeWord; rw [h6_26]; show decodeMajor21 x = _; unfold decodeMajor21
  rw [h7_0]
  show (some (Instr.frsq (field 2 24 x) (field 3 21 x) (field 7 14 x) (field 7 7 x)) : Option Instr) = _
  exact (by rw [field_eq 24 x h (by rw [hx]; omega), field_eq 21 x w (by rw [hx]; omega), field_eq 14 x d (by rw [hx]; omega), field_eq 7 x a (by rw [hx]; omega)])
theorem fsqrt (h : BitVec 2) (w : BitVec 3) (d : BitVec 7) (a : BitVec 7) : Statement (.fsqrt h w d a) := by
  intro ok; suffices H : ∀ x, encodeWord (.fsqrt h w d a) = some x → decodeWord x = some (.fsqrt h w d a) from ⟨_, rfl, H _ rfl⟩
  intro x e; have e := Option.some.inj (show some (BitVec.ofNat 32 (word 2214592516 [(h.toNat, 24), (w.toNat, 21), (d.toNat, 14), (a.toNat, 7)])) = some x from e); simp only [word] at e
  have := h.isLt; have := w.isLt; have := d.isLt; have := a.isLt
  have hx : x.toNat = 2214592516 + h.toNat * 16777216 + w.toNat * 2097152 + d.toNat * 16384 + a.toNat * 128 := by rw [← e, BitVec.toNat_ofNat]; omega
  have h6_26 : num 6 26 x = 33 := by rw [num_eq, hx]; omega
  have h7_0 : num 7 0 x = 4 := by rw [num_eq, hx]; omega
  unfold decodeWord; rw [h6_26]; show decodeMajor21 x = _; unfold decodeMajor21
  rw [h7_0]
  show (some (Instr.fsqrt (field 2 24 x) (field 3 21 x) (field 7 14 x) (field 7 7 x)) : Option Instr) = _
  exact (by rw [field_eq 24 x h (by rw [hx]; omega), field_eq 21 x w (by rw [hx]; omega), field_eq 14 x d (by rw [hx]; omega), field_eq 7 x a (by rw [hx]; omega)])
theorem fexp2 (h : BitVec 2) (w : BitVec 3) (d : BitVec 7) (a : BitVec 7) : Statement (.fexp2 h w d a) := by
  intro ok; suffices H : ∀ x, encodeWord (.fexp2 h w d a) = some x → decodeWord x = some (.fexp2 h w d a) from ⟨_, rfl, H _ rfl⟩
  intro x e; have e := Option.some.inj (show some (BitVec.ofNat 32 (word 2214592517 [(h.toNat, 24), (w.toNat, 21), (d.toNat, 14), (a.toNat, 7)])) = some x from e); simp only [word] at e
  have := h.isLt; have := w.isLt; have := d.isLt; have := a.isLt
  have hx : x.toNat = 2214592517 + h.toNat * 16777216 + w.toNat * 2097152 + d.toNat * 16384 + a.toNat * 128 := by rw [← e, BitVec.toNat_ofNat]; omega
  have h6_26 : num 6 26 x = 33 := by rw [num_eq, hx]; omega
  have h7_0 : num 7 0 x = 5 := by rw [num_eq, hx]; omega
  unfold decodeWord; rw [h6_26]; show decodeMajor21 x = _; unfold decodeMajor21
  rw [h7_0]
  show (some (Instr.fexp2 (field 2 24 x) (field 3 21 x) (field 7 14 x) (field 7 7 x)) : Option Instr) = _
  exact (by rw [field_eq 24 x h (by rw [hx]; omega), field_eq 21 x w (by rw [hx]; omega), field_eq 14 x d (by rw [hx]; omega), field_eq 7 x a (by rw [hx]; omega)])
theorem flog2 (h : BitVec 2) (w : BitVec 3) (d : BitVec 7) (a : BitVec 7) : Statement (.flog2 h w d a) := by
  intro ok; suffices H : ∀ x, encodeWord (.flog2 h w d a) = some x → decodeWord x = some (.flog2 h w d a) from ⟨_, rfl, H _ rfl⟩
  intro x e; have e := Option.some.inj (show some (BitVec.ofNat 32 (word 2214592518 [(h.toNat, 24), (w.toNat, 21), (d.toNat, 14), (a.toNat, 7)])) = some x from e); simp only [word] at e
  have := h.isLt; have := w.isLt; have := d.isLt; have := a.isLt
  have hx : x.toNat = 2214592518 + h.toNat * 16777216 + w.toNat * 2097152 + d.toNat * 16384 + a.toNat * 128 := by rw [← e, BitVec.toNat_ofNat]; omega
  have h6_26 : num 6 26 x = 33 := by rw [num_eq, hx]; omega
  have h7_0 : num 7 0 x = 6 := by rw [num_eq, hx]; omega
  unfold decodeWord; rw [h6_26]; show decodeMajor21 x = _; unfold decodeMajor21
  rw [h7_0]
  show (some (Instr.flog2 (field 2 24 x) (field 3 21 x) (field 7 14 x) (field 7 7 x)) : Option Instr) = _
  exact (by rw [field_eq 24 x h (by rw [hx]; omega), field_eq 21 x w (by rw [hx]; omega), field_eq 14 x d (by rw [hx]; omega), field_eq 7 x a (by rw [hx]; omega)])
theorem fsin (h : BitVec 2) (w : BitVec 3) (d : BitVec 7) (a : BitVec 7) : Statement (.fsin h w d a) := by
  intro ok; suffices H : ∀ x, encodeWord (.fsin h w d a) = some x → decodeWord x = some (.fsin h w d a) from ⟨_, rfl, H _ rfl⟩
  intro x e; have e := Option.some.inj (show some (BitVec.ofNat 32 (word 2214592519 [(h.toNat, 24), (w.toNat, 21), (d.toNat, 14), (a.toNat, 7)])) = some x from e); simp only [word] at e
  have := h.isLt; have := w.isLt; have := d.isLt; have := a.isLt
  have hx : x.toNat = 2214592519 + h.toNat * 16777216 + w.toNat * 2097152 + d.toNat * 16384 + a.toNat * 128 := by rw [← e, BitVec.toNat_ofNat]; omega
  have h6_26 : num 6 26 x = 33 := by rw [num_eq, hx]; omega
  have h7_0 : num 7 0 x = 7 := by rw [num_eq, hx]; omega
  unfold decodeWord; rw [h6_26]; show decodeMajor21 x = _; unfold decodeMajor21
  rw [h7_0]
  show (some (Instr.fsin (field 2 24 x) (field 3 21 x) (field 7 14 x) (field 7 7 x)) : Option Instr) = _
  exact (by rw [field_eq 24 x h (by rw [hx]; omega), field_eq 21 x w (by rw [hx]; omega), field_eq 14 x d (by rw [hx]; omega), field_eq 7 x a (by rw [hx]; omega)])
theorem fcos (h : BitVec 2) (w : BitVec 3) (d : BitVec 7) (a : BitVec 7) : Statement (.fcos h w d a) := by
  intro ok; suffices H : ∀ x, encodeWord (.fcos h w d a) = some x → decodeWord x = some (.fcos h w d a) from ⟨_, rfl, H _ rfl⟩
  intro x e; have e := Option.some.inj (show some (BitVec.ofNat 32 (word 2214592520 [(h.toNat, 24), (w.toNat, 21), (d.toNat, 14), (a.toNat, 7)])) = some x from e); simp only [word] at e
  have := h.isLt; have := w.isLt; have := d.isLt; have := a.isLt
  have hx : x.toNat = 2214592520 + h.toNat * 16777216 + w.toNat * 2097152 + d.toNat * 16384 + a.toNat * 128 := by rw [← e, BitVec.toNat_ofNat]; omega
  have h6_26 : num 6 26 x = 33 := by rw [num_eq, hx]; omega
  have h7_0 : num 7 0 x = 8 := by rw [num_eq, hx]; omega
  unfold decodeWord; rw [h6_26]; show decodeMajor21 x = _; unfold decodeMajor21
  rw [h7_0]
  show (some (Instr.fcos (field 2 24 x) (field 3 21 x) (field 7 14 x) (field 7 7 x)) : Option Instr) = _
  exact (by rw [field_eq 24 x h (by rw [hx]; omega), field_eq 21 x w (by rw [hx]; omega), field_eq 14 x d (by rw [hx]; omega), field_eq 7 x a (by rw [hx]; omega)])
theorem ffloor (h : BitVec 2) (w : BitVec 3) (d : BitVec 7) (a : BitVec 7) : Statement (.ffloor h w d a) := by
  intro ok; suffices H : ∀ x, encodeWord (.ffloor h w d a) = some x → decodeWord x = some (.ffloor h w d a) from ⟨_, rfl, H _ rfl⟩
  intro x e; have e := Option.some.inj (show some (BitVec.ofNat 32 (word 2214592521 [(h.toNat, 24), (w.toNat, 21), (d.toNat, 14), (a.toNat, 7)])) = some x from e); simp only [word] at e
  have := h.isLt; have := w.isLt; have := d.isLt; have := a.isLt
  have hx : x.toNat = 2214592521 + h.toNat * 16777216 + w.toNat * 2097152 + d.toNat * 16384 + a.toNat * 128 := by rw [← e, BitVec.toNat_ofNat]; omega
  have h6_26 : num 6 26 x = 33 := by rw [num_eq, hx]; omega
  have h7_0 : num 7 0 x = 9 := by rw [num_eq, hx]; omega
  unfold decodeWord; rw [h6_26]; show decodeMajor21 x = _; unfold decodeMajor21
  rw [h7_0]
  show (some (Instr.ffloor (field 2 24 x) (field 3 21 x) (field 7 14 x) (field 7 7 x)) : Option Instr) = _
  exact (by rw [field_eq 24 x h (by rw [hx]; omega), field_eq 21 x w (by rw [hx]; omega), field_eq 14 x d (by rw [hx]; omega), field_eq 7 x a (by rw [hx]; omega)])
theorem fceil (h : BitVec 2) (w : BitVec 3) (d : BitVec 7) (a : BitVec 7) : Statement (.fceil h w d a) := by
  intro ok; suffices H : ∀ x, encodeWord (.fceil h w d a) = some x → decodeWord x = some (.fceil h w d a) from ⟨_, rfl, H _ rfl⟩
  intro x e; have e := Option.some.inj (show some (BitVec.ofNat 32 (word 2214592522 [(h.toNat, 24), (w.toNat, 21), (d.toNat, 14), (a.toNat, 7)])) = some x from e); simp only [word] at e
  have := h.isLt; have := w.isLt; have := d.isLt; have := a.isLt
  have hx : x.toNat = 2214592522 + h.toNat * 16777216 + w.toNat * 2097152 + d.toNat * 16384 + a.toNat * 128 := by rw [← e, BitVec.toNat_ofNat]; omega
  have h6_26 : num 6 26 x = 33 := by rw [num_eq, hx]; omega
  have h7_0 : num 7 0 x = 10 := by rw [num_eq, hx]; omega
  unfold decodeWord; rw [h6_26]; show decodeMajor21 x = _; unfold decodeMajor21
  rw [h7_0]
  show (some (Instr.fceil (field 2 24 x) (field 3 21 x) (field 7 14 x) (field 7 7 x)) : Option Instr) = _
  exact (by rw [field_eq 24 x h (by rw [hx]; omega), field_eq 21 x w (by rw [hx]; omega), field_eq 14 x d (by rw [hx]; omega), field_eq 7 x a (by rw [hx]; omega)])
theorem ftrunc (h : BitVec 2) (w : BitVec 3) (d : BitVec 7) (a : BitVec 7) : Statement (.ftrunc h w d a) := by
  intro ok; suffices H : ∀ x, encodeWord (.ftrunc h w d a) = some x → decodeWord x = some (.ftrunc h w d a) from ⟨_, rfl, H _ rfl⟩
  intro x e; have e := Option.some.inj (show some (BitVec.ofNat 32 (word 2214592523 [(h.toNat, 24), (w.toNat, 21), (d.toNat, 14), (a.toNat, 7)])) = some x from e); simp only [word] at e
  have := h.isLt; have := w.isLt; have := d.isLt; have := a.isLt
  have hx : x.toNat = 2214592523 + h.toNat * 16777216 + w.toNat * 2097152 + d.toNat * 16384 + a.toNat * 128 := by rw [← e, BitVec.toNat_ofNat]; omega
  have h6_26 : num 6 26 x = 33 := by rw [num_eq, hx]; omega
  have h7_0 : num 7 0 x = 11 := by rw [num_eq, hx]; omega
  unfold decodeWord; rw [h6_26]; show decodeMajor21 x = _; unfold decodeMajor21
  rw [h7_0]
  show (some (Instr.ftrunc (field 2 24 x) (field 3 21 x) (field 7 14 x) (field 7 7 x)) : Option Instr) = _
  exact (by rw [field_eq 24 x h (by rw [hx]; omega), field_eq 21 x w (by rw [hx]; omega), field_eq 14 x d (by rw [hx]; omega), field_eq 7 x a (by rw [hx]; omega)])
theorem frint (h : BitVec 2) (w : BitVec 3) (d : BitVec 7) (a : BitVec 7) : Statement (.frint h w d a) := by
  intro ok; suffices H : ∀ x, encodeWord (.frint h w d a) = some x → decodeWord x = some (.frint h w d a) from ⟨_, rfl, H _ rfl⟩
  intro x e; have e := Option.some.inj (show some (BitVec.ofNat 32 (word 2214592524 [(h.toNat, 24), (w.toNat, 21), (d.toNat, 14), (a.toNat, 7)])) = some x from e); simp only [word] at e
  have := h.isLt; have := w.isLt; have := d.isLt; have := a.isLt
  have hx : x.toNat = 2214592524 + h.toNat * 16777216 + w.toNat * 2097152 + d.toNat * 16384 + a.toNat * 128 := by rw [← e, BitVec.toNat_ofNat]; omega
  have h6_26 : num 6 26 x = 33 := by rw [num_eq, hx]; omega
  have h7_0 : num 7 0 x = 12 := by rw [num_eq, hx]; omega
  unfold decodeWord; rw [h6_26]; show decodeMajor21 x = _; unfold decodeMajor21
  rw [h7_0]
  show (some (Instr.frint (field 2 24 x) (field 3 21 x) (field 7 14 x) (field 7 7 x)) : Option Instr) = _
  exact (by rw [field_eq 24 x h (by rw [hx]; omega), field_eq 21 x w (by rw [hx]; omega), field_eq 14 x d (by rw [hx]; omega), field_eq 7 x a (by rw [hx]; omega)])
theorem fclass (h : BitVec 2) (w : BitVec 3) (d : BitVec 7) (a : BitVec 7) : Statement (.fclass h w d a) := by
  intro ok; suffices H : ∀ x, encodeWord (.fclass h w d a) = some x → decodeWord x = some (.fclass h w d a) from ⟨_, rfl, H _ rfl⟩
  intro x e; have e := Option.some.inj (show some (BitVec.ofNat 32 (word 2214592525 [(h.toNat, 24), (w.toNat, 21), (d.toNat, 14), (a.toNat, 7)])) = some x from e); simp only [word] at e
  have := h.isLt; have := w.isLt; have := d.isLt; have := a.isLt
  have hx : x.toNat = 2214592525 + h.toNat * 16777216 + w.toNat * 2097152 + d.toNat * 16384 + a.toNat * 128 := by rw [← e, BitVec.toNat_ofNat]; omega
  have h6_26 : num 6 26 x = 33 := by rw [num_eq, hx]; omega
  have h7_0 : num 7 0 x = 13 := by rw [num_eq, hx]; omega
  unfold decodeWord; rw [h6_26]; show decodeMajor21 x = _; unfold decodeMajor21
  rw [h7_0]
  show (some (Instr.fclass (field 2 24 x) (field 3 21 x) (field 7 14 x) (field 7 7 x)) : Option Instr) = _
  exact (by rw [field_eq 24 x h (by rw [hx]; omega), field_eq 21 x w (by rw [hx]; omega), field_eq 14 x d (by rw [hx]; omega), field_eq 7 x a (by rw [hx]; omega)])
theorem ffrac (h : BitVec 2) (w : BitVec 3) (d : BitVec 7) (a : BitVec 7) : Statement (.ffrac h w d a) := by
  intro ok; suffices H : ∀ x, encodeWord (.ffrac h w d a) = some x → decodeWord x = some (.ffrac h w d a) from ⟨_, rfl, H _ rfl⟩
  intro x e; have e := Option.some.inj (show some (BitVec.ofNat 32 (word 2214592526 [(h.toNat, 24), (w.toNat, 21), (d.toNat, 14), (a.toNat, 7)])) = some x from e); simp only [word] at e
  have := h.isLt; have := w.isLt; have := d.isLt; have := a.isLt
  have hx : x.toNat = 2214592526 + h.toNat * 16777216 + w.toNat * 2097152 + d.toNat * 16384 + a.toNat * 128 := by rw [← e, BitVec.toNat_ofNat]; omega
  have h6_26 : num 6 26 x = 33 := by rw [num_eq, hx]; omega
  have h7_0 : num 7 0 x = 14 := by rw [num_eq, hx]; omega
  unfold decodeWord; rw [h6_26]; show decodeMajor21 x = _; unfold decodeMajor21
  rw [h7_0]
  show (some (Instr.ffrac (field 2 24 x) (field 3 21 x) (field 7 14 x) (field 7 7 x)) : Option Instr) = _
  exact (by rw [field_eq 24 x h (by rw [hx]; omega), field_eq 21 x w (by rw [hx]; omega), field_eq 14 x d (by rw [hx]; omega), field_eq 7 x a (by rw [hx]; omega)])
theorem cvt (h : BitVec 2) (w : BitVec 3) (d : BitVec 7) (a : BitVec 7) (n : BitVec 2) (f : BitVec 4) : Statement (.cvt h w d a n f) := by
  intro ok; suffices H : ∀ x, encodeWord (.cvt h w d a n f) = some x → decodeWord x = some (.cvt h w d a n f) from ⟨_, rfl, H _ rfl⟩
  intro x e; have e := Option.some.inj (show some (BitVec.ofNat 32 (word 2281701376 [(h.toNat, 24), (w.toNat, 21), (d.toNat, 14), (a.toNat, 7), (n.toNat, 4), (f.toNat, 0)])) = some x from e); simp only [word] at e
  have := h.isLt; have := w.isLt; have := d.isLt; have := a.isLt; have := n.isLt; have := f.isLt
  have hx : x.toNat = 2281701376 + h.toNat * 16777216 + w.toNat * 2097152 + d.toNat * 16384 + a.toNat * 128 + n.toNat * 16 + f.toNat * 1 := by rw [← e, BitVec.toNat_ofNat]; omega
  have h6_26 : num 6 26 x = 34 := by rw [num_eq, hx]; omega
  have h1_6 : num 1 6 x = 0 := by rw [num_eq, hx]; omega
  unfold decodeWord; rw [h6_26]; show decodeMajor22 x = _; unfold decodeMajor22
  show (if num 1 6 x = 0 then some (Instr.cvt (field 2 24 x) (field 3 21 x) (field 7 14 x) (field 7 7 x) (field 2 4 x) (field 4 0 x)) else none : Option Instr) = _
  exact (if_pos h1_6).trans (by rw [field_eq 24 x h (by rw [hx]; omega), field_eq 21 x w (by rw [hx]; omega), field_eq 14 x d (by rw [hx]; omega), field_eq 7 x a (by rw [hx]; omega), field_eq 4 x n (by rw [hx]; omega), field_eq 0 x f (by rw [hx]; omega)])
theorem ballot (h : BitVec 2) (w : BitVec 3) (d : BitVec 7) (a : BitVec 7) : Statement (.ballot h w d a) := by
  intro ok; suffices H : ∀ x, encodeWord (.ballot h w d a) = some x → decodeWord x = some (.ballot h w d a) from ⟨_, rfl, H _ rfl⟩
  intro x e; have e := Option.some.inj (show some (BitVec.ofNat 32 (word 2348810240 [(h.toNat, 24), (w.toNat, 21), (d.toNat, 14), (a.toNat, 7)])) = some x from e); simp only [word] at e
  have := h.isLt; have := w.isLt; have := d.isLt; have := a.isLt
  have hx : x.toNat = 2348810240 + h.toNat * 16777216 + w.toNat * 2097152 + d.toNat * 16384 + a.toNat * 128 := by rw [← e, BitVec.toNat_ofNat]; omega
  have h6_26 : num 6 26 x = 35 := by rw [num_eq, hx]; omega
  have h7_0 : num 7 0 x = 0 := by rw [num_eq, hx]; omega
  unfold decodeWord; rw [h6_26]; show decodeMajor23 x = _; unfold decodeMajor23
  rw [h7_0]
  show (some (Instr.ballot (field 2 24 x) (field 3 21 x) (field 7 14 x) (field 7 7 x)) : Option Instr) = _
  exact (by rw [field_eq 24 x h (by rw [hx]; omega), field_eq 21 x w (by rw [hx]; omega), field_eq 14 x d (by rw [hx]; omega), field_eq 7 x a (by rw [hx]; omega)])
theorem vany (h : BitVec 2) (w : BitVec 3) (d : BitVec 7) (a : BitVec 7) : Statement (.vany h w d a) := by
  intro ok; suffices H : ∀ x, encodeWord (.vany h w d a) = some x → decodeWord x = some (.vany h w d a) from ⟨_, rfl, H _ rfl⟩
  intro x e; have e := Option.some.inj (show some (BitVec.ofNat 32 (word 2348810241 [(h.toNat, 24), (w.toNat, 21), (d.toNat, 14), (a.toNat, 7)])) = some x from e); simp only [word] at e
  have := h.isLt; have := w.isLt; have := d.isLt; have := a.isLt
  have hx : x.toNat = 2348810241 + h.toNat * 16777216 + w.toNat * 2097152 + d.toNat * 16384 + a.toNat * 128 := by rw [← e, BitVec.toNat_ofNat]; omega
  have h6_26 : num 6 26 x = 35 := by rw [num_eq, hx]; omega
  have h7_0 : num 7 0 x = 1 := by rw [num_eq, hx]; omega
  unfold decodeWord; rw [h6_26]; show decodeMajor23 x = _; unfold decodeMajor23
  rw [h7_0]
  show (some (Instr.vany (field 2 24 x) (field 3 21 x) (field 7 14 x) (field 7 7 x)) : Option Instr) = _
  exact (by rw [field_eq 24 x h (by rw [hx]; omega), field_eq 21 x w (by rw [hx]; omega), field_eq 14 x d (by rw [hx]; omega), field_eq 7 x a (by rw [hx]; omega)])
theorem vall (h : BitVec 2) (w : BitVec 3) (d : BitVec 7) (a : BitVec 7) : Statement (.vall h w d a) := by
  intro ok; suffices H : ∀ x, encodeWord (.vall h w d a) = some x → decodeWord x = some (.vall h w d a) from ⟨_, rfl, H _ rfl⟩
  intro x e; have e := Option.some.inj (show some (BitVec.ofNat 32 (word 2348810242 [(h.toNat, 24), (w.toNat, 21), (d.toNat, 14), (a.toNat, 7)])) = some x from e); simp only [word] at e
  have := h.isLt; have := w.isLt; have := d.isLt; have := a.isLt
  have hx : x.toNat = 2348810242 + h.toNat * 16777216 + w.toNat * 2097152 + d.toNat * 16384 + a.toNat * 128 := by rw [← e, BitVec.toNat_ofNat]; omega
  have h6_26 : num 6 26 x = 35 := by rw [num_eq, hx]; omega
  have h7_0 : num 7 0 x = 2 := by rw [num_eq, hx]; omega
  unfold decodeWord; rw [h6_26]; show decodeMajor23 x = _; unfold decodeMajor23
  rw [h7_0]
  show (some (Instr.vall (field 2 24 x) (field 3 21 x) (field 7 14 x) (field 7 7 x)) : Option Instr) = _
  exact (by rw [field_eq 24 x h (by rw [hx]; omega), field_eq 21 x w (by rw [hx]; omega), field_eq 14 x d (by rw [hx]; omega), field_eq 7 x a (by rw [hx]; omega)])
theorem bcast (h : BitVec 2) (w : BitVec 3) (d : BitVec 7) (a : BitVec 7) : Statement (.bcast h w d a) := by
  intro ok; suffices H : ∀ x, encodeWord (.bcast h w d a) = some x → decodeWord x = some (.bcast h w d a) from ⟨_, rfl, H _ rfl⟩
  intro x e; have e := Option.some.inj (show some (BitVec.ofNat 32 (word 2348810243 [(h.toNat, 24), (w.toNat, 21), (d.toNat, 14), (a.toNat, 7)])) = some x from e); simp only [word] at e
  have := h.isLt; have := w.isLt; have := d.isLt; have := a.isLt
  have hx : x.toNat = 2348810243 + h.toNat * 16777216 + w.toNat * 2097152 + d.toNat * 16384 + a.toNat * 128 := by rw [← e, BitVec.toNat_ofNat]; omega
  have h6_26 : num 6 26 x = 35 := by rw [num_eq, hx]; omega
  have h7_0 : num 7 0 x = 3 := by rw [num_eq, hx]; omega
  unfold decodeWord; rw [h6_26]; show decodeMajor23 x = _; unfold decodeMajor23
  rw [h7_0]
  show (some (Instr.bcast (field 2 24 x) (field 3 21 x) (field 7 14 x) (field 7 7 x)) : Option Instr) = _
  exact (by rw [field_eq 24 x h (by rw [hx]; omega), field_eq 21 x w (by rw [hx]; omega), field_eq 14 x d (by rw [hx]; omega), field_eq 7 x a (by rw [hx]; omega)])
theorem laneid (h : BitVec 2) (w : BitVec 3) (d : BitVec 7) : Statement (.laneid h w d) := by
  intro ok; suffices H : ∀ x, encodeWord (.laneid h w d) = some x → decodeWord x = some (.laneid h w d) from ⟨_, rfl, H _ rfl⟩
  intro x e; have e := Option.some.inj (show some (BitVec.ofNat 32 (word 2348810244 [(h.toNat, 24), (w.toNat, 21), (d.toNat, 14)])) = some x from e); simp only [word] at e
  have := h.isLt; have := w.isLt; have := d.isLt
  have hx : x.toNat = 2348810244 + h.toNat * 16777216 + w.toNat * 2097152 + d.toNat * 16384 := by rw [← e, BitVec.toNat_ofNat]; omega
  have h6_26 : num 6 26 x = 35 := by rw [num_eq, hx]; omega
  have h7_0 : num 7 0 x = 4 := by rw [num_eq, hx]; omega
  have h7_7 : num 7 7 x = 0 := by rw [num_eq, hx]; omega
  unfold decodeWord; rw [h6_26]; show decodeMajor23 x = _; unfold decodeMajor23
  rw [h7_0]
  show (if num 7 7 x = 0 then some (Instr.laneid (field 2 24 x) (field 3 21 x) (field 7 14 x)) else none : Option Instr) = _
  exact (if_pos h7_7).trans (by rw [field_eq 24 x h (by rw [hx]; omega), field_eq 21 x w (by rw [hx]; omega), field_eq 14 x d (by rw [hx]; omega)])
theorem sliceid (h : BitVec 2) (w : BitVec 3) (d : BitVec 7) : Statement (.sliceid h w d) := by
  intro ok; suffices H : ∀ x, encodeWord (.sliceid h w d) = some x → decodeWord x = some (.sliceid h w d) from ⟨_, rfl, H _ rfl⟩
  intro x e; have e := Option.some.inj (show some (BitVec.ofNat 32 (word 2348810245 [(h.toNat, 24), (w.toNat, 21), (d.toNat, 14)])) = some x from e); simp only [word] at e
  have := h.isLt; have := w.isLt; have := d.isLt
  have hx : x.toNat = 2348810245 + h.toNat * 16777216 + w.toNat * 2097152 + d.toNat * 16384 := by rw [← e, BitVec.toNat_ofNat]; omega
  have h6_26 : num 6 26 x = 35 := by rw [num_eq, hx]; omega
  have h7_0 : num 7 0 x = 5 := by rw [num_eq, hx]; omega
  have h7_7 : num 7 7 x = 0 := by rw [num_eq, hx]; omega
  unfold decodeWord; rw [h6_26]; show decodeMajor23 x = _; unfold decodeMajor23
  rw [h7_0]
  show (if num 7 7 x = 0 then some (Instr.sliceid (field 2 24 x) (field 3 21 x) (field 7 14 x)) else none : Option Instr) = _
  exact (if_pos h7_7).trans (by rw [field_eq 24 x h (by rw [hx]; omega), field_eq 21 x w (by rw [hx]; omega), field_eq 14 x d (by rw [hx]; omega)])
theorem redadd (h : BitVec 2) (w : BitVec 3) (d : BitVec 7) (a : BitVec 7) : Statement (.redadd h w d a) := by
  intro ok; suffices H : ∀ x, encodeWord (.redadd h w d a) = some x → decodeWord x = some (.redadd h w d a) from ⟨_, rfl, H _ rfl⟩
  intro x e; have e := Option.some.inj (show some (BitVec.ofNat 32 (word 2348810246 [(h.toNat, 24), (w.toNat, 21), (d.toNat, 14), (a.toNat, 7)])) = some x from e); simp only [word] at e
  have := h.isLt; have := w.isLt; have := d.isLt; have := a.isLt
  have hx : x.toNat = 2348810246 + h.toNat * 16777216 + w.toNat * 2097152 + d.toNat * 16384 + a.toNat * 128 := by rw [← e, BitVec.toNat_ofNat]; omega
  have h6_26 : num 6 26 x = 35 := by rw [num_eq, hx]; omega
  have h7_0 : num 7 0 x = 6 := by rw [num_eq, hx]; omega
  unfold decodeWord; rw [h6_26]; show decodeMajor23 x = _; unfold decodeMajor23
  rw [h7_0]
  show (some (Instr.redadd (field 2 24 x) (field 3 21 x) (field 7 14 x) (field 7 7 x)) : Option Instr) = _
  exact (by rw [field_eq 24 x h (by rw [hx]; omega), field_eq 21 x w (by rw [hx]; omega), field_eq 14 x d (by rw [hx]; omega), field_eq 7 x a (by rw [hx]; omega)])
theorem redmin (h : BitVec 2) (w : BitVec 3) (d : BitVec 7) (a : BitVec 7) : Statement (.redmin h w d a) := by
  intro ok; suffices H : ∀ x, encodeWord (.redmin h w d a) = some x → decodeWord x = some (.redmin h w d a) from ⟨_, rfl, H _ rfl⟩
  intro x e; have e := Option.some.inj (show some (BitVec.ofNat 32 (word 2348810247 [(h.toNat, 24), (w.toNat, 21), (d.toNat, 14), (a.toNat, 7)])) = some x from e); simp only [word] at e
  have := h.isLt; have := w.isLt; have := d.isLt; have := a.isLt
  have hx : x.toNat = 2348810247 + h.toNat * 16777216 + w.toNat * 2097152 + d.toNat * 16384 + a.toNat * 128 := by rw [← e, BitVec.toNat_ofNat]; omega
  have h6_26 : num 6 26 x = 35 := by rw [num_eq, hx]; omega
  have h7_0 : num 7 0 x = 7 := by rw [num_eq, hx]; omega
  unfold decodeWord; rw [h6_26]; show decodeMajor23 x = _; unfold decodeMajor23
  rw [h7_0]
  show (some (Instr.redmin (field 2 24 x) (field 3 21 x) (field 7 14 x) (field 7 7 x)) : Option Instr) = _
  exact (by rw [field_eq 24 x h (by rw [hx]; omega), field_eq 21 x w (by rw [hx]; omega), field_eq 14 x d (by rw [hx]; omega), field_eq 7 x a (by rw [hx]; omega)])
theorem redmax (h : BitVec 2) (w : BitVec 3) (d : BitVec 7) (a : BitVec 7) : Statement (.redmax h w d a) := by
  intro ok; suffices H : ∀ x, encodeWord (.redmax h w d a) = some x → decodeWord x = some (.redmax h w d a) from ⟨_, rfl, H _ rfl⟩
  intro x e; have e := Option.some.inj (show some (BitVec.ofNat 32 (word 2348810248 [(h.toNat, 24), (w.toNat, 21), (d.toNat, 14), (a.toNat, 7)])) = some x from e); simp only [word] at e
  have := h.isLt; have := w.isLt; have := d.isLt; have := a.isLt
  have hx : x.toNat = 2348810248 + h.toNat * 16777216 + w.toNat * 2097152 + d.toNat * 16384 + a.toNat * 128 := by rw [← e, BitVec.toNat_ofNat]; omega
  have h6_26 : num 6 26 x = 35 := by rw [num_eq, hx]; omega
  have h7_0 : num 7 0 x = 8 := by rw [num_eq, hx]; omega
  unfold decodeWord; rw [h6_26]; show decodeMajor23 x = _; unfold decodeMajor23
  rw [h7_0]
  show (some (Instr.redmax (field 2 24 x) (field 3 21 x) (field 7 14 x) (field 7 7 x)) : Option Instr) = _
  exact (by rw [field_eq 24 x h (by rw [hx]; omega), field_eq 21 x w (by rw [hx]; omega), field_eq 14 x d (by rw [hx]; omega), field_eq 7 x a (by rw [hx]; omega)])
theorem prfxadd (h : BitVec 2) (w : BitVec 3) (d : BitVec 7) (a : BitVec 7) : Statement (.prfxadd h w d a) := by
  intro ok; suffices H : ∀ x, encodeWord (.prfxadd h w d a) = some x → decodeWord x = some (.prfxadd h w d a) from ⟨_, rfl, H _ rfl⟩
  intro x e; have e := Option.some.inj (show some (BitVec.ofNat 32 (word 2348810249 [(h.toNat, 24), (w.toNat, 21), (d.toNat, 14), (a.toNat, 7)])) = some x from e); simp only [word] at e
  have := h.isLt; have := w.isLt; have := d.isLt; have := a.isLt
  have hx : x.toNat = 2348810249 + h.toNat * 16777216 + w.toNat * 2097152 + d.toNat * 16384 + a.toNat * 128 := by rw [← e, BitVec.toNat_ofNat]; omega
  have h6_26 : num 6 26 x = 35 := by rw [num_eq, hx]; omega
  have h7_0 : num 7 0 x = 9 := by rw [num_eq, hx]; omega
  unfold decodeWord; rw [h6_26]; show decodeMajor23 x = _; unfold decodeMajor23
  rw [h7_0]
  show (some (Instr.prfxadd (field 2 24 x) (field 3 21 x) (field 7 14 x) (field 7 7 x)) : Option Instr) = _
  exact (by rw [field_eq 24 x h (by rw [hx]; omega), field_eq 21 x w (by rw [hx]; omega), field_eq 14 x d (by rw [hx]; omega), field_eq 7 x a (by rw [hx]; omega)])
theorem prfxex (h : BitVec 2) (w : BitVec 3) (d : BitVec 7) (a : BitVec 7) : Statement (.prfxex h w d a) := by
  intro ok; suffices H : ∀ x, encodeWord (.prfxex h w d a) = some x → decodeWord x = some (.prfxex h w d a) from ⟨_, rfl, H _ rfl⟩
  intro x e; have e := Option.some.inj (show some (BitVec.ofNat 32 (word 2348810250 [(h.toNat, 24), (w.toNat, 21), (d.toNat, 14), (a.toNat, 7)])) = some x from e); simp only [word] at e
  have := h.isLt; have := w.isLt; have := d.isLt; have := a.isLt
  have hx : x.toNat = 2348810250 + h.toNat * 16777216 + w.toNat * 2097152 + d.toNat * 16384 + a.toNat * 128 := by rw [← e, BitVec.toNat_ofNat]; omega
  have h6_26 : num 6 26 x = 35 := by rw [num_eq, hx]; omega
  have h7_0 : num 7 0 x = 10 := by rw [num_eq, hx]; omega
  unfold decodeWord; rw [h6_26]; show decodeMajor23 x = _; unfold decodeMajor23
  rw [h7_0]
  show (some (Instr.prfxex (field 2 24 x) (field 3 21 x) (field 7 14 x) (field 7 7 x)) : Option Instr) = _
  exact (by rw [field_eq 24 x h (by rw [hx]; omega), field_eq 21 x w (by rw [hx]; omega), field_eq 14 x d (by rw [hx]; omega), field_eq 7 x a (by rw [hx]; omega)])
theorem uniq (h : BitVec 2) (w : BitVec 3) (d : BitVec 7) (a : BitVec 7) : Statement (.uniq h w d a) := by
  intro ok; suffices H : ∀ x, encodeWord (.uniq h w d a) = some x → decodeWord x = some (.uniq h w d a) from ⟨_, rfl, H _ rfl⟩
  intro x e; have e := Option.some.inj (show some (BitVec.ofNat 32 (word 2348810251 [(h.toNat, 24), (w.toNat, 21), (d.toNat, 14), (a.toNat, 7)])) = some x from e); simp only [word] at e
  have := h.isLt; have := w.isLt; have := d.isLt; have := a.isLt
  have hx : x.toNat = 2348810251 + h.toNat * 16777216 + w.toNat * 2097152 + d.toNat * 16384 + a.toNat * 128 := by rw [← e, BitVec.toNat_ofNat]; omega
  have h6_26 : num 6 26 x = 35 := by rw [num_eq, hx]; omega
  have h7_0 : num 7 0 x = 11 := by rw [num_eq, hx]; omega
  unfold decodeWord; rw [h6_26]; show decodeMajor23 x = _; unfold decodeMajor23
  rw [h7_0]
  show (some (Instr.uniq (field 2 24 x) (field 3 21 x) (field 7 14 x) (field 7 7 x)) : Option Instr) = _
  exact (by rw [field_eq 24 x h (by rw [hx]; omega), field_eq 21 x w (by rw [hx]; omega), field_eq 14 x d (by rw [hx]; omega), field_eq 7 x a (by rw [hx]; omega)])
theorem xset (h : BitVec 2) (w : BitVec 3) (a : BitVec 7) (x0 : BitVec 2) : Statement (.xset h w a x0) := by
  intro ok; suffices H : ∀ x, encodeWord (.xset h w a x0) = some x → decodeWord x = some (.xset h w a x0) from ⟨_, rfl, H _ rfl⟩
  intro x e; have e := Option.some.inj (show some (BitVec.ofNat 32 (word 2415919104 [(h.toNat, 24), (w.toNat, 21), (a.toNat, 7), (x0.toNat, 4)])) = some x from e); simp only [word] at e
  have := h.isLt; have := w.isLt; have := a.isLt; have := x0.isLt
  have hx : x.toNat = 2415919104 + h.toNat * 16777216 + w.toNat * 2097152 + a.toNat * 128 + x0.toNat * 16 := by rw [← e, BitVec.toNat_ofNat]; omega
  have h6_26 : num 6 26 x = 36 := by rw [num_eq, hx]; omega
  have h4_0 : num 4 0 x = 0 := by rw [num_eq, hx]; omega
  have h7_14 : num 7 14 x = 0 := by rw [num_eq, hx]; omega
  have h1_6 : num 1 6 x = 0 := by rw [num_eq, hx]; omega
  unfold decodeWord; rw [h6_26]; show decodeMajor24 x = _; unfold decodeMajor24
  rw [h4_0]
  show (if num 7 14 x = 0 ∧ num 1 6 x = 0 then some (Instr.xset (field 2 24 x) (field 3 21 x) (field 7 7 x) (field 2 4 x)) else none : Option Instr) = _
  exact (if_pos ⟨h7_14, h1_6⟩).trans (by rw [field_eq 24 x h (by rw [hx]; omega), field_eq 21 x w (by rw [hx]; omega), field_eq 7 x a (by rw [hx]; omega), field_eq 4 x x0 (by rw [hx]; omega)])
theorem xadd (h : BitVec 2) (w : BitVec 3) (c : BitVec 7) (x0 : BitVec 2) : Statement (.xadd h w c x0) := by
  intro ok; suffices H : ∀ x, encodeWord (.xadd h w c x0) = some x → decodeWord x = some (.xadd h w c x0) from ⟨_, rfl, H _ rfl⟩
  intro x e; have e := Option.some.inj (show some (BitVec.ofNat 32 (word 2415919105 [(h.toNat, 24), (w.toNat, 21), (c.toNat, 7), (x0.toNat, 4)])) = some x from e); simp only [word] at e
  have := h.isLt; have := w.isLt; have := c.isLt; have := x0.isLt
  have hx : x.toNat = 2415919105 + h.toNat * 16777216 + w.toNat * 2097152 + c.toNat * 128 + x0.toNat * 16 := by rw [← e, BitVec.toNat_ofNat]; omega
  have h6_26 : num 6 26 x = 36 := by rw [num_eq, hx]; omega
  have h4_0 : num 4 0 x = 1 := by rw [num_eq, hx]; omega
  have h7_14 : num 7 14 x = 0 := by rw [num_eq, hx]; omega
  have h1_6 : num 1 6 x = 0 := by rw [num_eq, hx]; omega
  unfold decodeWord; rw [h6_26]; show decodeMajor24 x = _; unfold decodeMajor24
  rw [h4_0]
  show (if num 7 14 x = 0 ∧ num 1 6 x = 0 then some (Instr.xadd (field 2 24 x) (field 3 21 x) (field 7 7 x) (field 2 4 x)) else none : Option Instr) = _
  exact (if_pos ⟨h7_14, h1_6⟩).trans (by rw [field_eq 24 x h (by rw [hx]; omega), field_eq 21 x w (by rw [hx]; omega), field_eq 7 x c (by rw [hx]; omega), field_eq 4 x x0 (by rw [hx]; omega)])
theorem xget (h : BitVec 2) (w : BitVec 3) (d : BitVec 7) (x0 : BitVec 2) : Statement (.xget h w d x0) := by
  intro ok; suffices H : ∀ x, encodeWord (.xget h w d x0) = some x → decodeWord x = some (.xget h w d x0) from ⟨_, rfl, H _ rfl⟩
  intro x e; have e := Option.some.inj (show some (BitVec.ofNat 32 (word 2415919106 [(h.toNat, 24), (w.toNat, 21), (d.toNat, 14), (x0.toNat, 4)])) = some x from e); simp only [word] at e
  have := h.isLt; have := w.isLt; have := d.isLt; have := x0.isLt
  have hx : x.toNat = 2415919106 + h.toNat * 16777216 + w.toNat * 2097152 + d.toNat * 16384 + x0.toNat * 16 := by rw [← e, BitVec.toNat_ofNat]; omega
  have h6_26 : num 6 26 x = 36 := by rw [num_eq, hx]; omega
  have h4_0 : num 4 0 x = 2 := by rw [num_eq, hx]; omega
  have h8_6 : num 8 6 x = 0 := by rw [num_eq, hx]; omega
  unfold decodeWord; rw [h6_26]; show decodeMajor24 x = _; unfold decodeMajor24
  rw [h4_0]
  show (if num 8 6 x = 0 then some (Instr.xget (field 2 24 x) (field 3 21 x) (field 7 14 x) (field 2 4 x)) else none : Option Instr) = _
  exact (if_pos h8_6).trans (by rw [field_eq 24 x h (by rw [hx]; omega), field_eq 21 x w (by rw [hx]; omega), field_eq 14 x d (by rw [hx]; omega), field_eq 4 x x0 (by rw [hx]; omega)])
theorem vldx (h : BitVec 2) (w : BitVec 3) (d : BitVec 7) (c : BitVec 7) (x0 : BitVec 2) : Statement (.vldx h w d c x0) := by
  intro ok; suffices H : ∀ x, encodeWord (.vldx h w d c x0) = some x → decodeWord x = some (.vldx h w d c x0) from ⟨_, rfl, H _ rfl⟩
  intro x e; have e := Option.some.inj (show some (BitVec.ofNat 32 (word 2415919107 [(h.toNat, 24), (w.toNat, 21), (d.toNat, 14), (c.toNat, 7), (x0.toNat, 4)])) = some x from e); simp only [word] at e
  have := h.isLt; have := w.isLt; have := d.isLt; have := c.isLt; have := x0.isLt
  have hx : x.toNat = 2415919107 + h.toNat * 16777216 + w.toNat * 2097152 + d.toNat * 16384 + c.toNat * 128 + x0.toNat * 16 := by rw [← e, BitVec.toNat_ofNat]; omega
  have h6_26 : num 6 26 x = 36 := by rw [num_eq, hx]; omega
  have h4_0 : num 4 0 x = 3 := by rw [num_eq, hx]; omega
  have h1_6 : num 1 6 x = 0 := by rw [num_eq, hx]; omega
  unfold decodeWord; rw [h6_26]; show decodeMajor24 x = _; unfold decodeMajor24
  rw [h4_0]
  show (if num 1 6 x = 0 then some (Instr.vldx (field 2 24 x) (field 3 21 x) (field 7 14 x) (field 7 7 x) (field 2 4 x)) else none : Option Instr) = _
  exact (if_pos h1_6).trans (by rw [field_eq 24 x h (by rw [hx]; omega), field_eq 21 x w (by rw [hx]; omega), field_eq 14 x d (by rw [hx]; omega), field_eq 7 x c (by rw [hx]; omega), field_eq 4 x x0 (by rw [hx]; omega)])
theorem vstx (h : BitVec 2) (w : BitVec 3) (d : BitVec 7) (c : BitVec 7) (x0 : BitVec 2) : Statement (.vstx h w d c x0) := by
  intro ok; suffices H : ∀ x, encodeWord (.vstx h w d c x0) = some x → decodeWord x = some (.vstx h w d c x0) from ⟨_, rfl, H _ rfl⟩
  intro x e; have e := Option.some.inj (show some (BitVec.ofNat 32 (word 2415919108 [(h.toNat, 24), (w.toNat, 21), (d.toNat, 14), (c.toNat, 7), (x0.toNat, 4)])) = some x from e); simp only [word] at e
  have := h.isLt; have := w.isLt; have := d.isLt; have := c.isLt; have := x0.isLt
  have hx : x.toNat = 2415919108 + h.toNat * 16777216 + w.toNat * 2097152 + d.toNat * 16384 + c.toNat * 128 + x0.toNat * 16 := by rw [← e, BitVec.toNat_ofNat]; omega
  have h6_26 : num 6 26 x = 36 := by rw [num_eq, hx]; omega
  have h4_0 : num 4 0 x = 4 := by rw [num_eq, hx]; omega
  have h1_6 : num 1 6 x = 0 := by rw [num_eq, hx]; omega
  unfold decodeWord; rw [h6_26]; show decodeMajor24 x = _; unfold decodeMajor24
  rw [h4_0]
  show (if num 1 6 x = 0 then some (Instr.vstx (field 2 24 x) (field 3 21 x) (field 7 14 x) (field 7 7 x) (field 2 4 x)) else none : Option Instr) = _
  exact (if_pos h1_6).trans (by rw [field_eq 24 x h (by rw [hx]; omega), field_eq 21 x w (by rw [hx]; omega), field_eq 14 x d (by rw [hx]; omega), field_eq 7 x c (by rw [hx]; omega), field_eq 4 x x0 (by rw [hx]; omega)])
theorem p2v (h : BitVec 2) (w : BitVec 3) (d : BitVec 7) (k : BitVec 3) : Statement (.p2v h w d k) := by
  intro ok; suffices H : ∀ x, encodeWord (.p2v h w d k) = some x → decodeWord x = some (.p2v h w d k) from ⟨_, rfl, H _ rfl⟩
  intro x e; have e := Option.some.inj (show some (BitVec.ofNat 32 (word 2415919109 [(h.toNat, 24), (w.toNat, 21), (d.toNat, 14), (k.toNat, 4)])) = some x from e); simp only [word] at e
  have := h.isLt; have := w.isLt; have := d.isLt; have := k.isLt
  have hx : x.toNat = 2415919109 + h.toNat * 16777216 + w.toNat * 2097152 + d.toNat * 16384 + k.toNat * 16 := by rw [← e, BitVec.toNat_ofNat]; omega
  have h6_26 : num 6 26 x = 36 := by rw [num_eq, hx]; omega
  have h4_0 : num 4 0 x = 5 := by rw [num_eq, hx]; omega
  have h7_7 : num 7 7 x = 0 := by rw [num_eq, hx]; omega
  unfold decodeWord; rw [h6_26]; show decodeMajor24 x = _; unfold decodeMajor24
  rw [h4_0]
  show (if num 7 7 x = 0 then some (Instr.p2v (field 2 24 x) (field 3 21 x) (field 7 14 x) (field 3 4 x)) else none : Option Instr) = _
  exact (if_pos h7_7).trans (by rw [field_eq 24 x h (by rw [hx]; omega), field_eq 21 x w (by rw [hx]; omega), field_eq 14 x d (by rw [hx]; omega), field_eq 4 x k (by rw [hx]; omega)])
theorem v2p (h : BitVec 2) (w : BitVec 3) (a : BitVec 7) (k : BitVec 3) : Statement (.v2p h w a k) := by
  intro ok; suffices H : ∀ x, encodeWord (.v2p h w a k) = some x → decodeWord x = some (.v2p h w a k) from ⟨_, rfl, H _ rfl⟩
  intro x e; have e := Option.some.inj (show some (BitVec.ofNat 32 (word 2415919110 [(h.toNat, 24), (w.toNat, 21), (a.toNat, 7), (k.toNat, 4)])) = some x from e); simp only [word] at e
  have := h.isLt; have := w.isLt; have := a.isLt; have := k.isLt
  have hx : x.toNat = 2415919110 + h.toNat * 16777216 + w.toNat * 2097152 + a.toNat * 128 + k.toNat * 16 := by rw [← e, BitVec.toNat_ofNat]; omega
  have h6_26 : num 6 26 x = 36 := by rw [num_eq, hx]; omega
  have h4_0 : num 4 0 x = 6 := by rw [num_eq, hx]; omega
  have h7_14 : num 7 14 x = 0 := by rw [num_eq, hx]; omega
  unfold decodeWord; rw [h6_26]; show decodeMajor24 x = _; unfold decodeMajor24
  rw [h4_0]
  show (if num 7 14 x = 0 then some (Instr.v2p (field 2 24 x) (field 3 21 x) (field 7 7 x) (field 3 4 x)) else none : Option Instr) = _
  exact (if_pos h7_14).trans (by rw [field_eq 24 x h (by rw [hx]; omega), field_eq 21 x w (by rw [hx]; omega), field_eq 7 x a (by rw [hx]; omega), field_eq 4 x k (by rw [hx]; omega)])
theorem pnot (h : BitVec 2) (w : BitVec 3) (p : BitVec 3) (q : BitVec 3) : Statement (.pnot h w p q) := by
  intro ok; suffices H : ∀ x, encodeWord (.pnot h w p q) = some x → decodeWord x = some (.pnot h w p q) from ⟨_, rfl, H _ rfl⟩
  intro x e; have e := Option.some.inj (show some (BitVec.ofNat 32 (word 2415919111 [(h.toNat, 24), (w.toNat, 21), (p.toNat, 14), (q.toNat, 7)])) = some x from e); simp only [word] at e
  have := h.isLt; have := w.isLt; have := p.isLt; have := q.isLt
  have hx : x.toNat = 2415919111 + h.toNat * 16777216 + w.toNat * 2097152 + p.toNat * 16384 + q.toNat * 128 := by rw [← e, BitVec.toNat_ofNat]; omega
  have h6_26 : num 6 26 x = 36 := by rw [num_eq, hx]; omega
  have h4_0 : num 4 0 x = 7 := by rw [num_eq, hx]; omega
  have h4_17 : num 4 17 x = 0 := by rw [num_eq, hx]; omega
  have h4_10 : num 4 10 x = 0 := by rw [num_eq, hx]; omega
  have h3_4 : num 3 4 x = 0 := by rw [num_eq, hx]; omega
  unfold decodeWord; rw [h6_26]; show decodeMajor24 x = _; unfold decodeMajor24
  rw [h4_0]
  show (if num 4 17 x = 0 ∧ num 4 10 x = 0 ∧ num 3 4 x = 0 then some (Instr.pnot (field 2 24 x) (field 3 21 x) (field 3 14 x) (field 3 7 x)) else none : Option Instr) = _
  exact (if_pos ⟨h4_17, h4_10, h3_4⟩).trans (by rw [field_eq 24 x h (by rw [hx]; omega), field_eq 21 x w (by rw [hx]; omega), field_eq 14 x p (by rw [hx]; omega), field_eq 7 x q (by rw [hx]; omega)])
theorem pand (h : BitVec 2) (w : BitVec 3) (p : BitVec 3) (r : BitVec 3) (q : BitVec 3) : Statement (.pand h w p r q) := by
  intro ok; suffices H : ∀ x, encodeWord (.pand h w p r q) = some x → decodeWord x = some (.pand h w p r q) from ⟨_, rfl, H _ rfl⟩
  intro x e; have e := Option.some.inj (show some (BitVec.ofNat 32 (word 2415919112 [(h.toNat, 24), (w.toNat, 21), (p.toNat, 14), (r.toNat, 10), (q.toNat, 7)])) = some x from e); simp only [word] at e
  have := h.isLt; have := w.isLt; have := p.isLt; have := r.isLt; have := q.isLt
  have hx : x.toNat = 2415919112 + h.toNat * 16777216 + w.toNat * 2097152 + p.toNat * 16384 + r.toNat * 1024 + q.toNat * 128 := by rw [← e, BitVec.toNat_ofNat]; omega
  have h6_26 : num 6 26 x = 36 := by rw [num_eq, hx]; omega
  have h4_0 : num 4 0 x = 8 := by rw [num_eq, hx]; omega
  have h4_17 : num 4 17 x = 0 := by rw [num_eq, hx]; omega
  have h1_13 : num 1 13 x = 0 := by rw [num_eq, hx]; omega
  have h3_4 : num 3 4 x = 0 := by rw [num_eq, hx]; omega
  unfold decodeWord; rw [h6_26]; show decodeMajor24 x = _; unfold decodeMajor24
  rw [h4_0]
  show (if num 4 17 x = 0 ∧ num 1 13 x = 0 ∧ num 3 4 x = 0 then some (Instr.pand (field 2 24 x) (field 3 21 x) (field 3 14 x) (field 3 10 x) (field 3 7 x)) else none : Option Instr) = _
  exact (if_pos ⟨h4_17, h1_13, h3_4⟩).trans (by rw [field_eq 24 x h (by rw [hx]; omega), field_eq 21 x w (by rw [hx]; omega), field_eq 14 x p (by rw [hx]; omega), field_eq 10 x r (by rw [hx]; omega), field_eq 7 x q (by rw [hx]; omega)])
theorem por (h : BitVec 2) (w : BitVec 3) (p : BitVec 3) (r : BitVec 3) (q : BitVec 3) : Statement (.por h w p r q) := by
  intro ok; suffices H : ∀ x, encodeWord (.por h w p r q) = some x → decodeWord x = some (.por h w p r q) from ⟨_, rfl, H _ rfl⟩
  intro x e; have e := Option.some.inj (show some (BitVec.ofNat 32 (word 2415919113 [(h.toNat, 24), (w.toNat, 21), (p.toNat, 14), (r.toNat, 10), (q.toNat, 7)])) = some x from e); simp only [word] at e
  have := h.isLt; have := w.isLt; have := p.isLt; have := r.isLt; have := q.isLt
  have hx : x.toNat = 2415919113 + h.toNat * 16777216 + w.toNat * 2097152 + p.toNat * 16384 + r.toNat * 1024 + q.toNat * 128 := by rw [← e, BitVec.toNat_ofNat]; omega
  have h6_26 : num 6 26 x = 36 := by rw [num_eq, hx]; omega
  have h4_0 : num 4 0 x = 9 := by rw [num_eq, hx]; omega
  have h4_17 : num 4 17 x = 0 := by rw [num_eq, hx]; omega
  have h1_13 : num 1 13 x = 0 := by rw [num_eq, hx]; omega
  have h3_4 : num 3 4 x = 0 := by rw [num_eq, hx]; omega
  unfold decodeWord; rw [h6_26]; show decodeMajor24 x = _; unfold decodeMajor24
  rw [h4_0]
  show (if num 4 17 x = 0 ∧ num 1 13 x = 0 ∧ num 3 4 x = 0 then some (Instr.por (field 2 24 x) (field 3 21 x) (field 3 14 x) (field 3 10 x) (field 3 7 x)) else none : Option Instr) = _
  exact (if_pos ⟨h4_17, h1_13, h3_4⟩).trans (by rw [field_eq 24 x h (by rw [hx]; omega), field_eq 21 x w (by rw [hx]; omega), field_eq 14 x p (by rw [hx]; omega), field_eq 10 x r (by rw [hx]; omega), field_eq 7 x q (by rw [hx]; omega)])
theorem pxor (h : BitVec 2) (w : BitVec 3) (p : BitVec 3) (r : BitVec 3) (q : BitVec 3) : Statement (.pxor h w p r q) := by
  intro ok; suffices H : ∀ x, encodeWord (.pxor h w p r q) = some x → decodeWord x = some (.pxor h w p r q) from ⟨_, rfl, H _ rfl⟩
  intro x e; have e := Option.some.inj (show some (BitVec.ofNat 32 (word 2415919114 [(h.toNat, 24), (w.toNat, 21), (p.toNat, 14), (r.toNat, 10), (q.toNat, 7)])) = some x from e); simp only [word] at e
  have := h.isLt; have := w.isLt; have := p.isLt; have := r.isLt; have := q.isLt
  have hx : x.toNat = 2415919114 + h.toNat * 16777216 + w.toNat * 2097152 + p.toNat * 16384 + r.toNat * 1024 + q.toNat * 128 := by rw [← e, BitVec.toNat_ofNat]; omega
  have h6_26 : num 6 26 x = 36 := by rw [num_eq, hx]; omega
  have h4_0 : num 4 0 x = 10 := by rw [num_eq, hx]; omega
  have h4_17 : num 4 17 x = 0 := by rw [num_eq, hx]; omega
  have h1_13 : num 1 13 x = 0 := by rw [num_eq, hx]; omega
  have h3_4 : num 3 4 x = 0 := by rw [num_eq, hx]; omega
  unfold decodeWord; rw [h6_26]; show decodeMajor24 x = _; unfold decodeMajor24
  rw [h4_0]
  show (if num 4 17 x = 0 ∧ num 1 13 x = 0 ∧ num 3 4 x = 0 then some (Instr.pxor (field 2 24 x) (field 3 21 x) (field 3 14 x) (field 3 10 x) (field 3 7 x)) else none : Option Instr) = _
  exact (if_pos ⟨h4_17, h1_13, h3_4⟩).trans (by rw [field_eq 24 x h (by rw [hx]; omega), field_eq 21 x w (by rw [hx]; omega), field_eq 14 x p (by rw [hx]; omega), field_eq 10 x r (by rw [hx]; omega), field_eq 7 x q (by rw [hx]; omega)])
theorem icmp (h : BitVec 2) (w : BitVec 3) (c : BitVec 4) (p : BitVec 3) (a : BitVec 7) (b : BitVec 7) : Statement (.icmp h w c p a b) := by
  intro ok; suffices H : ∀ x, encodeWord (.icmp h w c p a b) = some x → decodeWord x = some (.icmp h w c p a b) from ⟨_, rfl, H _ rfl⟩
  intro x e; have e := Option.some.inj (show some (BitVec.ofNat 32 (word 2483027968 [(h.toNat, 24), (w.toNat, 21), (c.toNat, 17), (p.toNat, 14), (a.toNat, 7), (b.toNat, 0)])) = some x from e); simp only [word] at e
  have := h.isLt; have := w.isLt; have := c.isLt; have := p.isLt; have := a.isLt; have := b.isLt
  have hx : x.toNat = 2483027968 + h.toNat * 16777216 + w.toNat * 2097152 + c.toNat * 131072 + p.toNat * 16384 + a.toNat * 128 + b.toNat * 1 := by rw [← e, BitVec.toNat_ofNat]; omega
  have h6_26 : num 6 26 x = 37 := by rw [num_eq, hx]; omega
  unfold decodeWord; rw [h6_26]; show decodeMajor25 x = _; unfold decodeMajor25
  show (some (Instr.icmp (field 2 24 x) (field 3 21 x) (field 4 17 x) (field 3 14 x) (field 7 7 x) (field 7 0 x)) : Option Instr) = _
  exact (by rw [field_eq 24 x h (by rw [hx]; omega), field_eq 21 x w (by rw [hx]; omega), field_eq 17 x c (by rw [hx]; omega), field_eq 14 x p (by rw [hx]; omega), field_eq 7 x a (by rw [hx]; omega), field_eq 0 x b (by rw [hx]; omega)])
theorem fcmp (h : BitVec 2) (w : BitVec 3) (c : BitVec 4) (p : BitVec 3) (a : BitVec 7) (b : BitVec 7) : Statement (.fcmp h w c p a b) := by
  intro ok; suffices H : ∀ x, encodeWord (.fcmp h w c p a b) = some x → decodeWord x = some (.fcmp h w c p a b) from ⟨_, rfl, H _ rfl⟩
  intro x e; have e := Option.some.inj (show some (BitVec.ofNat 32 (word 2550136832 [(h.toNat, 24), (w.toNat, 21), (c.toNat, 17), (p.toNat, 14), (a.toNat, 7), (b.toNat, 0)])) = some x from e); simp only [word] at e
  have := h.isLt; have := w.isLt; have := c.isLt; have := p.isLt; have := a.isLt; have := b.isLt
  have hx : x.toNat = 2550136832 + h.toNat * 16777216 + w.toNat * 2097152 + c.toNat * 131072 + p.toNat * 16384 + a.toNat * 128 + b.toNat * 1 := by rw [← e, BitVec.toNat_ofNat]; omega
  have h6_26 : num 6 26 x = 38 := by rw [num_eq, hx]; omega
  unfold decodeWord; rw [h6_26]; show decodeMajor26 x = _; unfold decodeMajor26
  show (some (Instr.fcmp (field 2 24 x) (field 3 21 x) (field 4 17 x) (field 3 14 x) (field 7 7 x) (field 7 0 x)) : Option Instr) = _
  exact (by rw [field_eq 24 x h (by rw [hx]; omega), field_eq 21 x w (by rw [hx]; omega), field_eq 17 x c (by rw [hx]; omega), field_eq 14 x p (by rw [hx]; omega), field_eq 7 x a (by rw [hx]; omega), field_eq 0 x b (by rw [hx]; omega)])
theorem iaddi (w : BitVec 3) (d : BitVec 7) (a : BitVec 7) (i : BitVec 6) : Statement (.iaddi w d a i) := by
  intro ok; suffices H : ∀ x, encodeWord (.iaddi w d a i) = some x → decodeWord x = some (.iaddi w d a i) from ⟨_, rfl, H _ rfl⟩
  intro x e; have e := Option.some.inj (show some (BitVec.ofNat 32 (word 2617245696 [(w.toNat, 23), (d.toNat, 16), (a.toNat, 9), (i.toNat, 0)])) = some x from e); simp only [word] at e
  have := w.isLt; have := d.isLt; have := a.isLt; have := i.isLt
  have hx : x.toNat = 2617245696 + w.toNat * 8388608 + d.toNat * 65536 + a.toNat * 512 + i.toNat * 1 := by rw [← e, BitVec.toNat_ofNat]; omega
  have h6_26 : num 6 26 x = 39 := by rw [num_eq, hx]; omega
  have h3_6 : num 3 6 x = 0 := by rw [num_eq, hx]; omega
  unfold decodeWord; rw [h6_26]; show decodeMajor27 x = _; unfold decodeMajor27
  rw [h3_6]
  show (some (Instr.iaddi (field 3 23 x) (field 7 16 x) (field 7 9 x) (field 6 0 x)) : Option Instr) = _
  exact (by rw [field_eq 23 x w (by rw [hx]; omega), field_eq 16 x d (by rw [hx]; omega), field_eq 9 x a (by rw [hx]; omega), field_eq 0 x i (by rw [hx]; omega)])
theorem andi (w : BitVec 3) (d : BitVec 7) (a : BitVec 7) (i : BitVec 6) : Statement (.andi w d a i) := by
  intro ok; suffices H : ∀ x, encodeWord (.andi w d a i) = some x → decodeWord x = some (.andi w d a i) from ⟨_, rfl, H _ rfl⟩
  intro x e; have e := Option.some.inj (show some (BitVec.ofNat 32 (word 2617245760 [(w.toNat, 23), (d.toNat, 16), (a.toNat, 9), (i.toNat, 0)])) = some x from e); simp only [word] at e
  have := w.isLt; have := d.isLt; have := a.isLt; have := i.isLt
  have hx : x.toNat = 2617245760 + w.toNat * 8388608 + d.toNat * 65536 + a.toNat * 512 + i.toNat * 1 := by rw [← e, BitVec.toNat_ofNat]; omega
  have h6_26 : num 6 26 x = 39 := by rw [num_eq, hx]; omega
  have h3_6 : num 3 6 x = 1 := by rw [num_eq, hx]; omega
  unfold decodeWord; rw [h6_26]; show decodeMajor27 x = _; unfold decodeMajor27
  rw [h3_6]
  show (some (Instr.andi (field 3 23 x) (field 7 16 x) (field 7 9 x) (field 6 0 x)) : Option Instr) = _
  exact (by rw [field_eq 23 x w (by rw [hx]; omega), field_eq 16 x d (by rw [hx]; omega), field_eq 9 x a (by rw [hx]; omega), field_eq 0 x i (by rw [hx]; omega)])
theorem ori (w : BitVec 3) (d : BitVec 7) (a : BitVec 7) (i : BitVec 6) : Statement (.ori w d a i) := by
  intro ok; suffices H : ∀ x, encodeWord (.ori w d a i) = some x → decodeWord x = some (.ori w d a i) from ⟨_, rfl, H _ rfl⟩
  intro x e; have e := Option.some.inj (show some (BitVec.ofNat 32 (word 2617245824 [(w.toNat, 23), (d.toNat, 16), (a.toNat, 9), (i.toNat, 0)])) = some x from e); simp only [word] at e
  have := w.isLt; have := d.isLt; have := a.isLt; have := i.isLt
  have hx : x.toNat = 2617245824 + w.toNat * 8388608 + d.toNat * 65536 + a.toNat * 512 + i.toNat * 1 := by rw [← e, BitVec.toNat_ofNat]; omega
  have h6_26 : num 6 26 x = 39 := by rw [num_eq, hx]; omega
  have h3_6 : num 3 6 x = 2 := by rw [num_eq, hx]; omega
  unfold decodeWord; rw [h6_26]; show decodeMajor27 x = _; unfold decodeMajor27
  rw [h3_6]
  show (some (Instr.ori (field 3 23 x) (field 7 16 x) (field 7 9 x) (field 6 0 x)) : Option Instr) = _
  exact (by rw [field_eq 23 x w (by rw [hx]; omega), field_eq 16 x d (by rw [hx]; omega), field_eq 9 x a (by rw [hx]; omega), field_eq 0 x i (by rw [hx]; omega)])
theorem xori (w : BitVec 3) (d : BitVec 7) (a : BitVec 7) (i : BitVec 6) : Statement (.xori w d a i) := by
  intro ok; suffices H : ∀ x, encodeWord (.xori w d a i) = some x → decodeWord x = some (.xori w d a i) from ⟨_, rfl, H _ rfl⟩
  intro x e; have e := Option.some.inj (show some (BitVec.ofNat 32 (word 2617245888 [(w.toNat, 23), (d.toNat, 16), (a.toNat, 9), (i.toNat, 0)])) = some x from e); simp only [word] at e
  have := w.isLt; have := d.isLt; have := a.isLt; have := i.isLt
  have hx : x.toNat = 2617245888 + w.toNat * 8388608 + d.toNat * 65536 + a.toNat * 512 + i.toNat * 1 := by rw [← e, BitVec.toNat_ofNat]; omega
  have h6_26 : num 6 26 x = 39 := by rw [num_eq, hx]; omega
  have h3_6 : num 3 6 x = 3 := by rw [num_eq, hx]; omega
  unfold decodeWord; rw [h6_26]; show decodeMajor27 x = _; unfold decodeMajor27
  rw [h3_6]
  show (some (Instr.xori (field 3 23 x) (field 7 16 x) (field 7 9 x) (field 6 0 x)) : Option Instr) = _
  exact (by rw [field_eq 23 x w (by rw [hx]; omega), field_eq 16 x d (by rw [hx]; omega), field_eq 9 x a (by rw [hx]; omega), field_eq 0 x i (by rw [hx]; omega)])
theorem shli (w : BitVec 3) (d : BitVec 7) (a : BitVec 7) (i : BitVec 6) : Statement (.shli w d a i) := by
  intro ok; suffices H : ∀ x, encodeWord (.shli w d a i) = some x → decodeWord x = some (.shli w d a i) from ⟨_, rfl, H _ rfl⟩
  intro x e; have e := Option.some.inj (show some (BitVec.ofNat 32 (word 2617245952 [(w.toNat, 23), (d.toNat, 16), (a.toNat, 9), (i.toNat, 0)])) = some x from e); simp only [word] at e
  have := w.isLt; have := d.isLt; have := a.isLt; have := i.isLt
  have hx : x.toNat = 2617245952 + w.toNat * 8388608 + d.toNat * 65536 + a.toNat * 512 + i.toNat * 1 := by rw [← e, BitVec.toNat_ofNat]; omega
  have h6_26 : num 6 26 x = 39 := by rw [num_eq, hx]; omega
  have h3_6 : num 3 6 x = 4 := by rw [num_eq, hx]; omega
  unfold decodeWord; rw [h6_26]; show decodeMajor27 x = _; unfold decodeMajor27
  rw [h3_6]
  show (some (Instr.shli (field 3 23 x) (field 7 16 x) (field 7 9 x) (field 6 0 x)) : Option Instr) = _
  exact (by rw [field_eq 23 x w (by rw [hx]; omega), field_eq 16 x d (by rw [hx]; omega), field_eq 9 x a (by rw [hx]; omega), field_eq 0 x i (by rw [hx]; omega)])
theorem shri (w : BitVec 3) (d : BitVec 7) (a : BitVec 7) (i : BitVec 6) : Statement (.shri w d a i) := by
  intro ok; suffices H : ∀ x, encodeWord (.shri w d a i) = some x → decodeWord x = some (.shri w d a i) from ⟨_, rfl, H _ rfl⟩
  intro x e; have e := Option.some.inj (show some (BitVec.ofNat 32 (word 2617246016 [(w.toNat, 23), (d.toNat, 16), (a.toNat, 9), (i.toNat, 0)])) = some x from e); simp only [word] at e
  have := w.isLt; have := d.isLt; have := a.isLt; have := i.isLt
  have hx : x.toNat = 2617246016 + w.toNat * 8388608 + d.toNat * 65536 + a.toNat * 512 + i.toNat * 1 := by rw [← e, BitVec.toNat_ofNat]; omega
  have h6_26 : num 6 26 x = 39 := by rw [num_eq, hx]; omega
  have h3_6 : num 3 6 x = 5 := by rw [num_eq, hx]; omega
  unfold decodeWord; rw [h6_26]; show decodeMajor27 x = _; unfold decodeMajor27
  rw [h3_6]
  show (some (Instr.shri (field 3 23 x) (field 7 16 x) (field 7 9 x) (field 6 0 x)) : Option Instr) = _
  exact (by rw [field_eq 23 x w (by rw [hx]; omega), field_eq 16 x d (by rw [hx]; omega), field_eq 9 x a (by rw [hx]; omega), field_eq 0 x i (by rw [hx]; omega)])
theorem srai (w : BitVec 3) (d : BitVec 7) (a : BitVec 7) (i : BitVec 6) : Statement (.srai w d a i) := by
  intro ok; suffices H : ∀ x, encodeWord (.srai w d a i) = some x → decodeWord x = some (.srai w d a i) from ⟨_, rfl, H _ rfl⟩
  intro x e; have e := Option.some.inj (show some (BitVec.ofNat 32 (word 2617246080 [(w.toNat, 23), (d.toNat, 16), (a.toNat, 9), (i.toNat, 0)])) = some x from e); simp only [word] at e
  have := w.isLt; have := d.isLt; have := a.isLt; have := i.isLt
  have hx : x.toNat = 2617246080 + w.toNat * 8388608 + d.toNat * 65536 + a.toNat * 512 + i.toNat * 1 := by rw [← e, BitVec.toNat_ofNat]; omega
  have h6_26 : num 6 26 x = 39 := by rw [num_eq, hx]; omega
  have h3_6 : num 3 6 x = 6 := by rw [num_eq, hx]; omega
  unfold decodeWord; rw [h6_26]; show decodeMajor27 x = _; unfold decodeMajor27
  rw [h3_6]
  show (some (Instr.srai (field 3 23 x) (field 7 16 x) (field 7 9 x) (field 6 0 x)) : Option Instr) = _
  exact (by rw [field_eq 23 x w (by rw [hx]; omega), field_eq 16 x d (by rw [hx]; omega), field_eq 9 x a (by rw [hx]; omega), field_eq 0 x i (by rw [hx]; omega)])
theorem movk (w : BitVec 3) (d : BitVec 7) (i : BitVec 16) : Statement (.movk w d i) := by
  intro ok; suffices H : ∀ x, encodeWord (.movk w d i) = some x → decodeWord x = some (.movk w d i) from ⟨_, rfl, H _ rfl⟩
  intro x e; have e := Option.some.inj (show some (BitVec.ofNat 32 (word 2684354560 [(w.toNat, 23), (d.toNat, 16), (i.toNat, 0)])) = some x from e); simp only [word] at e
  have := w.isLt; have := d.isLt; have := i.isLt
  have hx : x.toNat = 2684354560 + w.toNat * 8388608 + d.toNat * 65536 + i.toNat * 1 := by rw [← e, BitVec.toNat_ofNat]; omega
  have h6_26 : num 6 26 x = 40 := by rw [num_eq, hx]; omega
  unfold decodeWord; rw [h6_26]; show decodeMajor28 x = _; unfold decodeMajor28
  show (some (Instr.movk (field 3 23 x) (field 7 16 x) (field 16 0 x)) : Option Instr) = _
  exact (by rw [field_eq 23 x w (by rw [hx]; omega), field_eq 16 x d (by rw [hx]; omega), field_eq 0 x i (by rw [hx]; omega)])
theorem movkh (w : BitVec 3) (d : BitVec 7) (i : BitVec 16) : Statement (.movkh w d i) := by
  intro ok; suffices H : ∀ x, encodeWord (.movkh w d i) = some x → decodeWord x = some (.movkh w d i) from ⟨_, rfl, H _ rfl⟩
  intro x e; have e := Option.some.inj (show some (BitVec.ofNat 32 (word 2751463424 [(w.toNat, 23), (d.toNat, 16), (i.toNat, 0)])) = some x from e); simp only [word] at e
  have := w.isLt; have := d.isLt; have := i.isLt
  have hx : x.toNat = 2751463424 + w.toNat * 8388608 + d.toNat * 65536 + i.toNat * 1 := by rw [← e, BitVec.toNat_ofNat]; omega
  have h6_26 : num 6 26 x = 41 := by rw [num_eq, hx]; omega
  unfold decodeWord; rw [h6_26]; show decodeMajor29 x = _; unfold decodeMajor29
  show (some (Instr.movkh (field 3 23 x) (field 7 16 x) (field 16 0 x)) : Option Instr) = _
  exact (by rw [field_eq 23 x w (by rw [hx]; omega), field_eq 16 x d (by rw [hx]; omega), field_eq 0 x i (by rw [hx]; omega)])
theorem ld (w : BitVec 3) (d : BitVec 7) (a : BitVec 7) (s : BitVec 2) (i : BitVec 7) : Statement (.ld w d a s i) := by
  intro ok; suffices H : ∀ x, encodeWord (.ld w d a s i) = some x → decodeWord x = some (.ld w d a s i) from ⟨_, rfl, H _ rfl⟩
  intro x e; have e := Option.some.inj (show some (BitVec.ofNat 32 (word 2818572288 [(w.toNat, 23), (d.toNat, 16), (a.toNat, 9), (s.toNat, 7), (i.toNat, 0)])) = some x from e); simp only [word] at e
  have := w.isLt; have := d.isLt; have := a.isLt; have := s.isLt; have := i.isLt
  have hx : x.toNat = 2818572288 + w.toNat * 8388608 + d.toNat * 65536 + a.toNat * 512 + s.toNat * 128 + i.toNat * 1 := by rw [← e, BitVec.toNat_ofNat]; omega
  have h6_26 : num 6 26 x = 42 := by rw [num_eq, hx]; omega
  unfold decodeWord; rw [h6_26]; show decodeMajor2A x = _; unfold decodeMajor2A
  show (some (Instr.ld (field 3 23 x) (field 7 16 x) (field 7 9 x) (field 2 7 x) (field 7 0 x)) : Option Instr) = _
  exact (by rw [field_eq 23 x w (by rw [hx]; omega), field_eq 16 x d (by rw [hx]; omega), field_eq 9 x a (by rw [hx]; omega), field_eq 7 x s (by rw [hx]; omega), field_eq 0 x i (by rw [hx]; omega)])
theorem st (w : BitVec 3) (d : BitVec 7) (a : BitVec 7) (s : BitVec 2) (i : BitVec 7) : Statement (.st w d a s i) := by
  intro ok; suffices H : ∀ x, encodeWord (.st w d a s i) = some x → decodeWord x = some (.st w d a s i) from ⟨_, rfl, H _ rfl⟩
  intro x e; have e := Option.some.inj (show some (BitVec.ofNat 32 (word 2885681152 [(w.toNat, 23), (d.toNat, 16), (a.toNat, 9), (s.toNat, 7), (i.toNat, 0)])) = some x from e); simp only [word] at e
  have := w.isLt; have := d.isLt; have := a.isLt; have := s.isLt; have := i.isLt
  have hx : x.toNat = 2885681152 + w.toNat * 8388608 + d.toNat * 65536 + a.toNat * 512 + s.toNat * 128 + i.toNat * 1 := by rw [← e, BitVec.toNat_ofNat]; omega
  have h6_26 : num 6 26 x = 43 := by rw [num_eq, hx]; omega
  unfold decodeWord; rw [h6_26]; show decodeMajor2B x = _; unfold decodeMajor2B
  show (some (Instr.st (field 3 23 x) (field 7 16 x) (field 7 9 x) (field 2 7 x) (field 7 0 x)) : Option Instr) = _
  exact (by rw [field_eq 23 x w (by rw [hx]; omega), field_eq 16 x d (by rw [hx]; omega), field_eq 9 x a (by rw [hx]; omega), field_eq 7 x s (by rw [hx]; omega), field_eq 0 x i (by rw [hx]; omega)])
theorem lds (w : BitVec 3) (d : BitVec 7) (a : BitVec 7) (s : BitVec 2) (i : BitVec 7) : Statement (.lds w d a s i) := by
  intro ok; suffices H : ∀ x, encodeWord (.lds w d a s i) = some x → decodeWord x = some (.lds w d a s i) from ⟨_, rfl, H _ rfl⟩
  intro x e; have e := Option.some.inj (show some (BitVec.ofNat 32 (word 2952790016 [(w.toNat, 23), (d.toNat, 16), (a.toNat, 9), (s.toNat, 7), (i.toNat, 0)])) = some x from e); simp only [word] at e
  have := w.isLt; have := d.isLt; have := a.isLt; have := s.isLt; have := i.isLt
  have hx : x.toNat = 2952790016 + w.toNat * 8388608 + d.toNat * 65536 + a.toNat * 512 + s.toNat * 128 + i.toNat * 1 := by rw [← e, BitVec.toNat_ofNat]; omega
  have h6_26 : num 6 26 x = 44 := by rw [num_eq, hx]; omega
  unfold decodeWord; rw [h6_26]; show decodeMajor2C x = _; unfold decodeMajor2C
  show (some (Instr.lds (field 3 23 x) (field 7 16 x) (field 7 9 x) (field 2 7 x) (field 7 0 x)) : Option Instr) = _
  exact (by rw [field_eq 23 x w (by rw [hx]; omega), field_eq 16 x d (by rw [hx]; omega), field_eq 9 x a (by rw [hx]; omega), field_eq 7 x s (by rw [hx]; omega), field_eq 0 x i (by rw [hx]; omega)])
theorem sts (w : BitVec 3) (d : BitVec 7) (a : BitVec 7) (s : BitVec 2) (i : BitVec 7) : Statement (.sts w d a s i) := by
  intro ok; suffices H : ∀ x, encodeWord (.sts w d a s i) = some x → decodeWord x = some (.sts w d a s i) from ⟨_, rfl, H _ rfl⟩
  intro x e; have e := Option.some.inj (show some (BitVec.ofNat 32 (word 3019898880 [(w.toNat, 23), (d.toNat, 16), (a.toNat, 9), (s.toNat, 7), (i.toNat, 0)])) = some x from e); simp only [word] at e
  have := w.isLt; have := d.isLt; have := a.isLt; have := s.isLt; have := i.isLt
  have hx : x.toNat = 3019898880 + w.toNat * 8388608 + d.toNat * 65536 + a.toNat * 512 + s.toNat * 128 + i.toNat * 1 := by rw [← e, BitVec.toNat_ofNat]; omega
  have h6_26 : num 6 26 x = 45 := by rw [num_eq, hx]; omega
  unfold decodeWord; rw [h6_26]; show decodeMajor2D x = _; unfold decodeMajor2D
  show (some (Instr.sts (field 3 23 x) (field 7 16 x) (field 7 9 x) (field 2 7 x) (field 7 0 x)) : Option Instr) = _
  exact (by rw [field_eq 23 x w (by rw [hx]; omega), field_eq 16 x d (by rw [hx]; omega), field_eq 9 x a (by rw [hx]; omega), field_eq 7 x s (by rw [hx]; omega), field_eq 0 x i (by rw [hx]; omega)])
theorem atom (o : BitVec 4) (w : BitVec 1) (d : BitVec 7) (a : BitVec 7) (b : BitVec 7) : Statement (.atom o w d a b) := by
  intro ok; suffices H : ∀ x, encodeWord (.atom o w d a b) = some x → decodeWord x = some (.atom o w d a b) from ⟨_, rfl, H _ rfl⟩
  intro x e; have e := Option.some.inj (show some (BitVec.ofNat 32 (word 3087007744 [(o.toNat, 22), (w.toNat, 21), (d.toNat, 14), (a.toNat, 7), (b.toNat, 0)])) = some x from e); simp only [word] at e
  have := o.isLt; have := w.isLt; have := d.isLt; have := a.isLt; have := b.isLt
  have hx : x.toNat = 3087007744 + o.toNat * 4194304 + w.toNat * 2097152 + d.toNat * 16384 + a.toNat * 128 + b.toNat * 1 := by rw [← e, BitVec.toNat_ofNat]; omega
  have h6_26 : num 6 26 x = 46 := by rw [num_eq, hx]; omega
  unfold decodeWord; rw [h6_26]; show decodeMajor2E x = _; unfold decodeMajor2E
  show (some (Instr.atom (field 4 22 x) (field 1 21 x) (field 7 14 x) (field 7 7 x) (field 7 0 x)) : Option Instr) = _
  exact (by rw [field_eq 22 x o (by rw [hx]; omega), field_eq 21 x w (by rw [hx]; omega), field_eq 14 x d (by rw [hx]; omega), field_eq 7 x a (by rw [hx]; omega), field_eq 0 x b (by rw [hx]; omega)])
theorem red (m : BitVec 3) (w : BitVec 1) (a : BitVec 7) (b : BitVec 7) : Statement (.red m w a b) := by
  intro ok; suffices H : ∀ x, encodeWord (.red m w a b) = some x → decodeWord x = some (.red m w a b) from ⟨_, rfl, H _ rfl⟩
  intro x e; have e := Option.some.inj (show some (BitVec.ofNat 32 (word 3154116608 [(m.toNat, 21), (w.toNat, 14), (a.toNat, 7), (b.toNat, 0)])) = some x from e); simp only [word] at e
  have := m.isLt; have := w.isLt; have := a.isLt; have := b.isLt
  have hx : x.toNat = 3154116608 + m.toNat * 2097152 + w.toNat * 16384 + a.toNat * 128 + b.toNat * 1 := by rw [← e, BitVec.toNat_ofNat]; omega
  have h6_26 : num 6 26 x = 47 := by rw [num_eq, hx]; omega
  have h6_15 : num 6 15 x = 0 := by rw [num_eq, hx]; omega
  unfold decodeWord; rw [h6_26]; show decodeMajor2F x = _; unfold decodeMajor2F
  have hm : num 5 21 x = m.toNat := by rw [num_eq, hx]; omega
  have h8 : m.toNat = 0 ∨ m.toNat = 1 ∨ m.toNat = 2 ∨ m.toNat = 3 ∨ m.toNat = 4 ∨ m.toNat = 5 ∨ m.toNat = 6 ∨ m.toNat = 7 := by omega
  have hr : some (Instr.red (field 3 21 x) (field 1 14 x) (field 7 7 x) (field 7 0 x)) = some (Instr.red m w a b) := (by rw [field_eq 21 x m (by rw [hx]; omega), field_eq 14 x w (by rw [hx]; omega), field_eq 7 x a (by rw [hx]; omega), field_eq 0 x b (by rw [hx]; omega)])
  rw [hm]; rcases h8 with h | h | h | h | h | h | h | h <;> rw [h] <;> exact (if_pos h6_15).trans hr
theorem redFadd (a : BitVec 7) (b : BitVec 7) : Statement (.redFadd a b) := by
  intro ok; suffices H : ∀ x, encodeWord (.redFadd a b) = some x → decodeWord x = some (.redFadd a b) from ⟨_, rfl, H _ rfl⟩
  intro x e; have e := Option.some.inj (show some (BitVec.ofNat 32 (word 3170893824 [(a.toNat, 7), (b.toNat, 0)])) = some x from e); simp only [word] at e
  have := a.isLt; have := b.isLt
  have hx : x.toNat = 3170893824 + a.toNat * 128 + b.toNat * 1 := by rw [← e, BitVec.toNat_ofNat]; omega
  have h6_26 : num 6 26 x = 47 := by rw [num_eq, hx]; omega
  have h5_21 : num 5 21 x = 8 := by rw [num_eq, hx]; omega
  have h7_14 : num 7 14 x = 0 := by rw [num_eq, hx]; omega
  unfold decodeWord; rw [h6_26]; show decodeMajor2F x = _; unfold decodeMajor2F
  rw [h5_21]
  show (if num 7 14 x = 0 then some (Instr.redFadd (field 7 7 x) (field 7 0 x)) else none : Option Instr) = _
  exact (if_pos h7_14).trans (by rw [field_eq 7 x a (by rw [hx]; omega), field_eq 0 x b (by rw [hx]; omega)])
theorem redBfadd2 (a : BitVec 7) (b : BitVec 7) : Statement (.redBfadd2 a b) := by
  intro ok; suffices H : ∀ x, encodeWord (.redBfadd2 a b) = some x → decodeWord x = some (.redBfadd2 a b) from ⟨_, rfl, H _ rfl⟩
  intro x e; have e := Option.some.inj (show some (BitVec.ofNat 32 (word 3172990976 [(a.toNat, 7), (b.toNat, 0)])) = some x from e); simp only [word] at e
  have := a.isLt; have := b.isLt
  have hx : x.toNat = 3172990976 + a.toNat * 128 + b.toNat * 1 := by rw [← e, BitVec.toNat_ofNat]; omega
  have h6_26 : num 6 26 x = 47 := by rw [num_eq, hx]; omega
  have h5_21 : num 5 21 x = 9 := by rw [num_eq, hx]; omega
  have h7_14 : num 7 14 x = 0 := by rw [num_eq, hx]; omega
  unfold decodeWord; rw [h6_26]; show decodeMajor2F x = _; unfold decodeMajor2F
  rw [h5_21]
  show (if num 7 14 x = 0 then some (Instr.redBfadd2 (field 7 7 x) (field 7 0 x)) else none : Option Instr) = _
  exact (if_pos h7_14).trans (by rw [field_eq 7 x a (by rw [hx]; omega), field_eq 0 x b (by rw [hx]; omega)])
theorem ll4 (d : BitVec 7) (a : BitVec 7) : Statement (.ll4 d a) := by
  intro ok; suffices H : ∀ x, encodeWord (.ll4 d a) = some x → decodeWord x = some (.ll4 d a) from ⟨_, rfl, H _ rfl⟩
  intro x e; have e := Option.some.inj (show some (BitVec.ofNat 32 (word 3175088128 [(d.toNat, 14), (a.toNat, 7)])) = some x from e); simp only [word] at e
  have := d.isLt; have := a.isLt
  have hx : x.toNat = 3175088128 + d.toNat * 16384 + a.toNat * 128 := by rw [← e, BitVec.toNat_ofNat]; omega
  have h6_26 : num 6 26 x = 47 := by rw [num_eq, hx]; omega
  have h5_21 : num 5 21 x = 10 := by rw [num_eq, hx]; omega
  have h7_0 : num 7 0 x = 0 := by rw [num_eq, hx]; omega
  unfold decodeWord; rw [h6_26]; show decodeMajor2F x = _; unfold decodeMajor2F
  rw [h5_21]
  show (if num 7 0 x = 0 then some (Instr.ll4 (field 7 14 x) (field 7 7 x)) else none : Option Instr) = _
  exact (if_pos h7_0).trans (by rw [field_eq 14 x d (by rw [hx]; omega), field_eq 7 x a (by rw [hx]; omega)])
theorem ll8 (d : BitVec 7) (a : BitVec 7) : Statement (.ll8 d a) := by
  intro ok; suffices H : ∀ x, encodeWord (.ll8 d a) = some x → decodeWord x = some (.ll8 d a) from ⟨_, rfl, H _ rfl⟩
  intro x e; have e := Option.some.inj (show some (BitVec.ofNat 32 (word 3177185280 [(d.toNat, 14), (a.toNat, 7)])) = some x from e); simp only [word] at e
  have := d.isLt; have := a.isLt
  have hx : x.toNat = 3177185280 + d.toNat * 16384 + a.toNat * 128 := by rw [← e, BitVec.toNat_ofNat]; omega
  have h6_26 : num 6 26 x = 47 := by rw [num_eq, hx]; omega
  have h5_21 : num 5 21 x = 11 := by rw [num_eq, hx]; omega
  have h7_0 : num 7 0 x = 0 := by rw [num_eq, hx]; omega
  unfold decodeWord; rw [h6_26]; show decodeMajor2F x = _; unfold decodeMajor2F
  rw [h5_21]
  show (if num 7 0 x = 0 then some (Instr.ll8 (field 7 14 x) (field 7 7 x)) else none : Option Instr) = _
  exact (if_pos h7_0).trans (by rw [field_eq 14 x d (by rw [hx]; omega), field_eq 7 x a (by rw [hx]; omega)])
theorem sc4 (d : BitVec 7) (a : BitVec 7) (b : BitVec 7) : Statement (.sc4 d a b) := by
  intro ok; suffices H : ∀ x, encodeWord (.sc4 d a b) = some x → decodeWord x = some (.sc4 d a b) from ⟨_, rfl, H _ rfl⟩
  intro x e; have e := Option.some.inj (show some (BitVec.ofNat 32 (word 3179282432 [(d.toNat, 14), (a.toNat, 7), (b.toNat, 0)])) = some x from e); simp only [word] at e
  have := d.isLt; have := a.isLt; have := b.isLt
  have hx : x.toNat = 3179282432 + d.toNat * 16384 + a.toNat * 128 + b.toNat * 1 := by rw [← e, BitVec.toNat_ofNat]; omega
  have h6_26 : num 6 26 x = 47 := by rw [num_eq, hx]; omega
  have h5_21 : num 5 21 x = 12 := by rw [num_eq, hx]; omega
  unfold decodeWord; rw [h6_26]; show decodeMajor2F x = _; unfold decodeMajor2F
  rw [h5_21]
  show (some (Instr.sc4 (field 7 14 x) (field 7 7 x) (field 7 0 x)) : Option Instr) = _
  exact (by rw [field_eq 14 x d (by rw [hx]; omega), field_eq 7 x a (by rw [hx]; omega), field_eq 0 x b (by rw [hx]; omega)])
theorem sc8 (d : BitVec 7) (a : BitVec 7) (b : BitVec 7) : Statement (.sc8 d a b) := by
  intro ok; suffices H : ∀ x, encodeWord (.sc8 d a b) = some x → decodeWord x = some (.sc8 d a b) from ⟨_, rfl, H _ rfl⟩
  intro x e; have e := Option.some.inj (show some (BitVec.ofNat 32 (word 3181379584 [(d.toNat, 14), (a.toNat, 7), (b.toNat, 0)])) = some x from e); simp only [word] at e
  have := d.isLt; have := a.isLt; have := b.isLt
  have hx : x.toNat = 3181379584 + d.toNat * 16384 + a.toNat * 128 + b.toNat * 1 := by rw [← e, BitVec.toNat_ofNat]; omega
  have h6_26 : num 6 26 x = 47 := by rw [num_eq, hx]; omega
  have h5_21 : num 5 21 x = 13 := by rw [num_eq, hx]; omega
  unfold decodeWord; rw [h6_26]; show decodeMajor2F x = _; unfold decodeMajor2F
  rw [h5_21]
  show (some (Instr.sc8 (field 7 14 x) (field 7 7 x) (field 7 0 x)) : Option Instr) = _
  exact (by rw [field_eq 14 x d (by rw [hx]; omega), field_eq 7 x a (by rw [hx]; omega), field_eq 0 x b (by rw [hx]; omega)])
theorem ldt (d : BitVec 7) (a : BitVec 7) : Statement (.ldt d a) := by
  intro ok; suffices H : ∀ x, encodeWord (.ldt d a) = some x → decodeWord x = some (.ldt d a) from ⟨_, rfl, H _ rfl⟩
  intro x e; have e := Option.some.inj (show some (BitVec.ofNat 32 (word 3183476736 [(d.toNat, 14), (a.toNat, 7)])) = some x from e); simp only [word] at e
  have := d.isLt; have := a.isLt
  have hx : x.toNat = 3183476736 + d.toNat * 16384 + a.toNat * 128 := by rw [← e, BitVec.toNat_ofNat]; omega
  have h6_26 : num 6 26 x = 47 := by rw [num_eq, hx]; omega
  have h5_21 : num 5 21 x = 14 := by rw [num_eq, hx]; omega
  have h7_0 : num 7 0 x = 0 := by rw [num_eq, hx]; omega
  unfold decodeWord; rw [h6_26]; show decodeMajor2F x = _; unfold decodeMajor2F
  rw [h5_21]
  show (if num 7 0 x = 0 then some (Instr.ldt (field 7 14 x) (field 7 7 x)) else none : Option Instr) = _
  exact (if_pos h7_0).trans (by rw [field_eq 14 x d (by rw [hx]; omega), field_eq 7 x a (by rw [hx]; omega)])
theorem unpk (d : BitVec 7) (a : BitVec 7) : Statement (.unpk d a) := by
  intro ok; suffices H : ∀ x, encodeWord (.unpk d a) = some x → decodeWord x = some (.unpk d a) from ⟨_, rfl, H _ rfl⟩
  intro x e; have e := Option.some.inj (show some (BitVec.ofNat 32 (word 3185573888 [(d.toNat, 14), (a.toNat, 7)])) = some x from e); simp only [word] at e
  have := d.isLt; have := a.isLt
  have hx : x.toNat = 3185573888 + d.toNat * 16384 + a.toNat * 128 := by rw [← e, BitVec.toNat_ofNat]; omega
  have h6_26 : num 6 26 x = 47 := by rw [num_eq, hx]; omega
  have h5_21 : num 5 21 x = 15 := by rw [num_eq, hx]; omega
  have h7_0 : num 7 0 x = 0 := by rw [num_eq, hx]; omega
  unfold decodeWord; rw [h6_26]; show decodeMajor2F x = _; unfold decodeMajor2F
  rw [h5_21]
  show (if num 7 0 x = 0 then some (Instr.unpk (field 7 14 x) (field 7 7 x)) else none : Option Instr) = _
  exact (if_pos h7_0).trans (by rw [field_eq 14 x d (by rw [hx]; omega), field_eq 7 x a (by rw [hx]; omega)])
theorem sttr (d : BitVec 7) (a : BitVec 7) (b : BitVec 7) : Statement (.sttr d a b) := by
  intro ok; suffices H : ∀ x, encodeWord (.sttr d a b) = some x → decodeWord x = some (.sttr d a b) from ⟨_, rfl, H _ rfl⟩
  intro x e; have e := Option.some.inj (show some (BitVec.ofNat 32 (word 3187671040 [(d.toNat, 14), (a.toNat, 7), (b.toNat, 0)])) = some x from e); simp only [word] at e
  have := d.isLt; have := a.isLt; have := b.isLt
  have hx : x.toNat = 3187671040 + d.toNat * 16384 + a.toNat * 128 + b.toNat * 1 := by rw [← e, BitVec.toNat_ofNat]; omega
  have h6_26 : num 6 26 x = 47 := by rw [num_eq, hx]; omega
  have h5_21 : num 5 21 x = 16 := by rw [num_eq, hx]; omega
  unfold decodeWord; rw [h6_26]; show decodeMajor2F x = _; unfold decodeMajor2F
  rw [h5_21]
  show (some (Instr.sttr (field 7 14 x) (field 7 7 x) (field 7 0 x)) : Option Instr) = _
  exact (by rw [field_eq 14 x d (by rw [hx]; omega), field_eq 7 x a (by rw [hx]; omega), field_eq 0 x b (by rw [hx]; omega)])
theorem pref (a : BitVec 7) (l : BitVec 1) : Statement (.pref a l) := by
  intro ok; suffices H : ∀ x, encodeWord (.pref a l) = some x → decodeWord x = some (.pref a l) from ⟨_, rfl, H _ rfl⟩
  intro x e; have e := Option.some.inj (show some (BitVec.ofNat 32 (word 3189768192 [(a.toNat, 7), (l.toNat, 0)])) = some x from e); simp only [word] at e
  have := a.isLt; have := l.isLt
  have hx : x.toNat = 3189768192 + a.toNat * 128 + l.toNat * 1 := by rw [← e, BitVec.toNat_ofNat]; omega
  have h6_26 : num 6 26 x = 47 := by rw [num_eq, hx]; omega
  have h5_21 : num 5 21 x = 17 := by rw [num_eq, hx]; omega
  have h7_14 : num 7 14 x = 0 := by rw [num_eq, hx]; omega
  have h6_1 : num 6 1 x = 0 := by rw [num_eq, hx]; omega
  unfold decodeWord; rw [h6_26]; show decodeMajor2F x = _; unfold decodeMajor2F
  rw [h5_21]
  show (if num 7 14 x = 0 ∧ num 6 1 x = 0 then some (Instr.pref (field 7 7 x) (field 1 0 x)) else none : Option Instr) = _
  exact (if_pos ⟨h7_14, h6_1⟩).trans (by rw [field_eq 7 x a (by rw [hx]; omega), field_eq 0 x l (by rw [hx]; omega)])
theorem fpush (a : BitVec 7) (b : BitVec 7) : Statement (.fpush a b) := by
  intro ok; suffices H : ∀ x, encodeWord (.fpush a b) = some x → decodeWord x = some (.fpush a b) from ⟨_, rfl, H _ rfl⟩
  intro x e; have e := Option.some.inj (show some (BitVec.ofNat 32 (word 3191865344 [(a.toNat, 7), (b.toNat, 0)])) = some x from e); simp only [word] at e
  have := a.isLt; have := b.isLt
  have hx : x.toNat = 3191865344 + a.toNat * 128 + b.toNat * 1 := by rw [← e, BitVec.toNat_ofNat]; omega
  have h6_26 : num 6 26 x = 47 := by rw [num_eq, hx]; omega
  have h5_21 : num 5 21 x = 18 := by rw [num_eq, hx]; omega
  have h7_14 : num 7 14 x = 0 := by rw [num_eq, hx]; omega
  unfold decodeWord; rw [h6_26]; show decodeMajor2F x = _; unfold decodeMajor2F
  rw [h5_21]
  show (if num 7 14 x = 0 then some (Instr.fpush (field 7 7 x) (field 7 0 x)) else none : Option Instr) = _
  exact (if_pos h7_14).trans (by rw [field_eq 7 x a (by rw [hx]; omega), field_eq 0 x b (by rw [hx]; omega)])
theorem fpop (d : BitVec 7) (a : BitVec 7) : Statement (.fpop d a) := by
  intro ok; suffices H : ∀ x, encodeWord (.fpop d a) = some x → decodeWord x = some (.fpop d a) from ⟨_, rfl, H _ rfl⟩
  intro x e; have e := Option.some.inj (show some (BitVec.ofNat 32 (word 3193962496 [(d.toNat, 14), (a.toNat, 7)])) = some x from e); simp only [word] at e
  have := d.isLt; have := a.isLt
  have hx : x.toNat = 3193962496 + d.toNat * 16384 + a.toNat * 128 := by rw [← e, BitVec.toNat_ofNat]; omega
  have h6_26 : num 6 26 x = 47 := by rw [num_eq, hx]; omega
  have h5_21 : num 5 21 x = 19 := by rw [num_eq, hx]; omega
  have h7_0 : num 7 0 x = 0 := by rw [num_eq, hx]; omega
  unfold decodeWord; rw [h6_26]; show decodeMajor2F x = _; unfold decodeMajor2F
  rw [h5_21]
  show (if num 7 0 x = 0 then some (Instr.fpop (field 7 14 x) (field 7 7 x)) else none : Option Instr) = _
  exact (if_pos h7_0).trans (by rw [field_eq 14 x d (by rw [hx]; omega), field_eq 7 x a (by rw [hx]; omega)])
theorem stm (s : BitVec 2) (a : BitVec 7) (b : BitVec 7) : Statement (.stm s a b) := by
  intro ok; suffices H : ∀ x, encodeWord (.stm s a b) = some x → decodeWord x = some (.stm s a b) from ⟨_, rfl, H _ rfl⟩
  intro x e; have e := Option.some.inj (show some (BitVec.ofNat 32 (word 3196059648 [(s.toNat, 14), (a.toNat, 7), (b.toNat, 0)])) = some x from e); simp only [word] at e
  have := s.isLt; have := a.isLt; have := b.isLt
  have hx : x.toNat = 3196059648 + s.toNat * 16384 + a.toNat * 128 + b.toNat * 1 := by rw [← e, BitVec.toNat_ofNat]; omega
  have h6_26 : num 6 26 x = 47 := by rw [num_eq, hx]; omega
  have h5_21 : num 5 21 x = 20 := by rw [num_eq, hx]; omega
  have h5_16 : num 5 16 x = 0 := by rw [num_eq, hx]; omega
  unfold decodeWord; rw [h6_26]; show decodeMajor2F x = _; unfold decodeMajor2F
  rw [h5_21]
  show (if num 5 16 x = 0 then some (Instr.stm (field 2 14 x) (field 7 7 x) (field 7 0 x)) else none : Option Instr) = _
  exact (if_pos h5_16).trans (by rw [field_eq 14 x s (by rw [hx]; omega), field_eq 7 x a (by rw [hx]; omega), field_eq 0 x b (by rw [hx]; omega)])
theorem bra (c : BitVec 4) (g : BitVec 4) (d : BitVec 18) : Statement (.bra c g d) := by
  intro ok; suffices H : ∀ x, encodeWord (.bra c g d) = some x → decodeWord x = some (.bra c g d) from ⟨_, rfl, H _ rfl⟩
  intro x e; have e := Option.some.inj (show some (BitVec.ofNat 32 (word 3221225472 [(c.toNat, 22), (g.toNat, 18), (d.toNat, 0)])) = some x from e); simp only [word] at e
  have := c.isLt; have := g.isLt; have := d.isLt
  have hc : c.toNat ≤ 9 := by simp [Instr.wellFormed] at ok; exact ok.1
  have hx : x.toNat = 3221225472 + c.toNat * 4194304 + g.toNat * 262144 + d.toNat * 1 := by rw [← e, BitVec.toNat_ofNat]; omega
  have h6_26 : num 6 26 x = 48 := by rw [num_eq, hx]; omega
  unfold decodeWord; rw [h6_26]; show decodeMajor30 x = _; unfold decodeMajor30
  have hm : num 4 22 x = c.toNat := by rw [num_eq, hx]; omega
  rw [hm]; split
  · omega
  · exact (by rw [field_eq 22 x c (by rw [hx]; omega), field_eq 18 x g (by rw [hx]; omega), field_eq 0 x d (by rw [hx]; omega)])
theorem call (g : BitVec 4) (d : BitVec 18) : Statement (.call g d) := by
  intro ok; suffices H : ∀ x, encodeWord (.call g d) = some x → decodeWord x = some (.call g d) from ⟨_, rfl, H _ rfl⟩
  intro x e; have e := Option.some.inj (show some (BitVec.ofNat 32 (word 3284140032 [(g.toNat, 18), (d.toNat, 0)])) = some x from e); simp only [word] at e
  have := g.isLt; have := d.isLt
  have hx : x.toNat = 3284140032 + g.toNat * 262144 + d.toNat * 1 := by rw [← e, BitVec.toNat_ofNat]; omega
  have h6_26 : num 6 26 x = 48 := by rw [num_eq, hx]; omega
  have h4_22 : num 4 22 x = 15 := by rw [num_eq, hx]; omega
  unfold decodeWord; rw [h6_26]; show decodeMajor30 x = _; unfold decodeMajor30
  rw [h4_22]
  show (some (Instr.call (field 4 18 x) (field 18 0 x)) : Option Instr) = _
  exact (by rw [field_eq 18 x g (by rw [hx]; omega), field_eq 0 x d (by rw [hx]; omega)])
theorem gadd (d : BitVec 4) (a : BitVec 4) (b : BitVec 4) : Statement (.gadd d a b) := by
  intro ok; suffices H : ∀ x, encodeWord (.gadd d a b) = some x → decodeWord x = some (.gadd d a b) from ⟨_, rfl, H _ rfl⟩
  intro x e; have e := Option.some.inj (show some (BitVec.ofNat 32 (word 3288334336 [(d.toNat, 17), (a.toNat, 13), (b.toNat, 0)])) = some x from e); simp only [word] at e
  have := d.isLt; have := a.isLt; have := b.isLt
  have hx : x.toNat = 3288334336 + d.toNat * 131072 + a.toNat * 8192 + b.toNat * 1 := by rw [← e, BitVec.toNat_ofNat]; omega
  have h6_26 : num 6 26 x = 49 := by rw [num_eq, hx]; omega
  have h5_21 : num 5 21 x = 0 := by rw [num_eq, hx]; omega
  have h9_4 : num 9 4 x = 0 := by rw [num_eq, hx]; omega
  unfold decodeWord; rw [h6_26]; show decodeMajor31 x = _; unfold decodeMajor31
  rw [h5_21]
  show (if num 9 4 x = 0 then some (Instr.gadd (field 4 17 x) (field 4 13 x) (field 4 0 x)) else none : Option Instr) = _
  exact (if_pos h9_4).trans (by rw [field_eq 17 x d (by rw [hx]; omega), field_eq 13 x a (by rw [hx]; omega), field_eq 0 x b (by rw [hx]; omega)])
theorem gsub (d : BitVec 4) (a : BitVec 4) (b : BitVec 4) : Statement (.gsub d a b) := by
  intro ok; suffices H : ∀ x, encodeWord (.gsub d a b) = some x → decodeWord x = some (.gsub d a b) from ⟨_, rfl, H _ rfl⟩
  intro x e; have e := Option.some.inj (show some (BitVec.ofNat 32 (word 3290431488 [(d.toNat, 17), (a.toNat, 13), (b.toNat, 0)])) = some x from e); simp only [word] at e
  have := d.isLt; have := a.isLt; have := b.isLt
  have hx : x.toNat = 3290431488 + d.toNat * 131072 + a.toNat * 8192 + b.toNat * 1 := by rw [← e, BitVec.toNat_ofNat]; omega
  have h6_26 : num 6 26 x = 49 := by rw [num_eq, hx]; omega
  have h5_21 : num 5 21 x = 1 := by rw [num_eq, hx]; omega
  have h9_4 : num 9 4 x = 0 := by rw [num_eq, hx]; omega
  unfold decodeWord; rw [h6_26]; show decodeMajor31 x = _; unfold decodeMajor31
  rw [h5_21]
  show (if num 9 4 x = 0 then some (Instr.gsub (field 4 17 x) (field 4 13 x) (field 4 0 x)) else none : Option Instr) = _
  exact (if_pos h9_4).trans (by rw [field_eq 17 x d (by rw [hx]; omega), field_eq 13 x a (by rw [hx]; omega), field_eq 0 x b (by rw [hx]; omega)])
theorem gmul (d : BitVec 4) (a : BitVec 4) (b : BitVec 4) : Statement (.gmul d a b) := by
  intro ok; suffices H : ∀ x, encodeWord (.gmul d a b) = some x → decodeWord x = some (.gmul d a b) from ⟨_, rfl, H _ rfl⟩
  intro x e; have e := Option.some.inj (show some (BitVec.ofNat 32 (word 3292528640 [(d.toNat, 17), (a.toNat, 13), (b.toNat, 0)])) = some x from e); simp only [word] at e
  have := d.isLt; have := a.isLt; have := b.isLt
  have hx : x.toNat = 3292528640 + d.toNat * 131072 + a.toNat * 8192 + b.toNat * 1 := by rw [← e, BitVec.toNat_ofNat]; omega
  have h6_26 : num 6 26 x = 49 := by rw [num_eq, hx]; omega
  have h5_21 : num 5 21 x = 2 := by rw [num_eq, hx]; omega
  have h9_4 : num 9 4 x = 0 := by rw [num_eq, hx]; omega
  unfold decodeWord; rw [h6_26]; show decodeMajor31 x = _; unfold decodeMajor31
  rw [h5_21]
  show (if num 9 4 x = 0 then some (Instr.gmul (field 4 17 x) (field 4 13 x) (field 4 0 x)) else none : Option Instr) = _
  exact (if_pos h9_4).trans (by rw [field_eq 17 x d (by rw [hx]; omega), field_eq 13 x a (by rw [hx]; omega), field_eq 0 x b (by rw [hx]; omega)])
theorem gand (d : BitVec 4) (a : BitVec 4) (b : BitVec 4) : Statement (.gand d a b) := by
  intro ok; suffices H : ∀ x, encodeWord (.gand d a b) = some x → decodeWord x = some (.gand d a b) from ⟨_, rfl, H _ rfl⟩
  intro x e; have e := Option.some.inj (show some (BitVec.ofNat 32 (word 3294625792 [(d.toNat, 17), (a.toNat, 13), (b.toNat, 0)])) = some x from e); simp only [word] at e
  have := d.isLt; have := a.isLt; have := b.isLt
  have hx : x.toNat = 3294625792 + d.toNat * 131072 + a.toNat * 8192 + b.toNat * 1 := by rw [← e, BitVec.toNat_ofNat]; omega
  have h6_26 : num 6 26 x = 49 := by rw [num_eq, hx]; omega
  have h5_21 : num 5 21 x = 3 := by rw [num_eq, hx]; omega
  have h9_4 : num 9 4 x = 0 := by rw [num_eq, hx]; omega
  unfold decodeWord; rw [h6_26]; show decodeMajor31 x = _; unfold decodeMajor31
  rw [h5_21]
  show (if num 9 4 x = 0 then some (Instr.gand (field 4 17 x) (field 4 13 x) (field 4 0 x)) else none : Option Instr) = _
  exact (if_pos h9_4).trans (by rw [field_eq 17 x d (by rw [hx]; omega), field_eq 13 x a (by rw [hx]; omega), field_eq 0 x b (by rw [hx]; omega)])
theorem gor (d : BitVec 4) (a : BitVec 4) (b : BitVec 4) : Statement (.gor d a b) := by
  intro ok; suffices H : ∀ x, encodeWord (.gor d a b) = some x → decodeWord x = some (.gor d a b) from ⟨_, rfl, H _ rfl⟩
  intro x e; have e := Option.some.inj (show some (BitVec.ofNat 32 (word 3296722944 [(d.toNat, 17), (a.toNat, 13), (b.toNat, 0)])) = some x from e); simp only [word] at e
  have := d.isLt; have := a.isLt; have := b.isLt
  have hx : x.toNat = 3296722944 + d.toNat * 131072 + a.toNat * 8192 + b.toNat * 1 := by rw [← e, BitVec.toNat_ofNat]; omega
  have h6_26 : num 6 26 x = 49 := by rw [num_eq, hx]; omega
  have h5_21 : num 5 21 x = 4 := by rw [num_eq, hx]; omega
  have h9_4 : num 9 4 x = 0 := by rw [num_eq, hx]; omega
  unfold decodeWord; rw [h6_26]; show decodeMajor31 x = _; unfold decodeMajor31
  rw [h5_21]
  show (if num 9 4 x = 0 then some (Instr.gor (field 4 17 x) (field 4 13 x) (field 4 0 x)) else none : Option Instr) = _
  exact (if_pos h9_4).trans (by rw [field_eq 17 x d (by rw [hx]; omega), field_eq 13 x a (by rw [hx]; omega), field_eq 0 x b (by rw [hx]; omega)])
theorem gxor (d : BitVec 4) (a : BitVec 4) (b : BitVec 4) : Statement (.gxor d a b) := by
  intro ok; suffices H : ∀ x, encodeWord (.gxor d a b) = some x → decodeWord x = some (.gxor d a b) from ⟨_, rfl, H _ rfl⟩
  intro x e; have e := Option.some.inj (show some (BitVec.ofNat 32 (word 3298820096 [(d.toNat, 17), (a.toNat, 13), (b.toNat, 0)])) = some x from e); simp only [word] at e
  have := d.isLt; have := a.isLt; have := b.isLt
  have hx : x.toNat = 3298820096 + d.toNat * 131072 + a.toNat * 8192 + b.toNat * 1 := by rw [← e, BitVec.toNat_ofNat]; omega
  have h6_26 : num 6 26 x = 49 := by rw [num_eq, hx]; omega
  have h5_21 : num 5 21 x = 5 := by rw [num_eq, hx]; omega
  have h9_4 : num 9 4 x = 0 := by rw [num_eq, hx]; omega
  unfold decodeWord; rw [h6_26]; show decodeMajor31 x = _; unfold decodeMajor31
  rw [h5_21]
  show (if num 9 4 x = 0 then some (Instr.gxor (field 4 17 x) (field 4 13 x) (field 4 0 x)) else none : Option Instr) = _
  exact (if_pos h9_4).trans (by rw [field_eq 17 x d (by rw [hx]; omega), field_eq 13 x a (by rw [hx]; omega), field_eq 0 x b (by rw [hx]; omega)])
theorem gshl (d : BitVec 4) (a : BitVec 4) (b : BitVec 4) : Statement (.gshl d a b) := by
  intro ok; suffices H : ∀ x, encodeWord (.gshl d a b) = some x → decodeWord x = some (.gshl d a b) from ⟨_, rfl, H _ rfl⟩
  intro x e; have e := Option.some.inj (show some (BitVec.ofNat 32 (word 3300917248 [(d.toNat, 17), (a.toNat, 13), (b.toNat, 0)])) = some x from e); simp only [word] at e
  have := d.isLt; have := a.isLt; have := b.isLt
  have hx : x.toNat = 3300917248 + d.toNat * 131072 + a.toNat * 8192 + b.toNat * 1 := by rw [← e, BitVec.toNat_ofNat]; omega
  have h6_26 : num 6 26 x = 49 := by rw [num_eq, hx]; omega
  have h5_21 : num 5 21 x = 6 := by rw [num_eq, hx]; omega
  have h9_4 : num 9 4 x = 0 := by rw [num_eq, hx]; omega
  unfold decodeWord; rw [h6_26]; show decodeMajor31 x = _; unfold decodeMajor31
  rw [h5_21]
  show (if num 9 4 x = 0 then some (Instr.gshl (field 4 17 x) (field 4 13 x) (field 4 0 x)) else none : Option Instr) = _
  exact (if_pos h9_4).trans (by rw [field_eq 17 x d (by rw [hx]; omega), field_eq 13 x a (by rw [hx]; omega), field_eq 0 x b (by rw [hx]; omega)])
theorem gshr (d : BitVec 4) (a : BitVec 4) (b : BitVec 4) : Statement (.gshr d a b) := by
  intro ok; suffices H : ∀ x, encodeWord (.gshr d a b) = some x → decodeWord x = some (.gshr d a b) from ⟨_, rfl, H _ rfl⟩
  intro x e; have e := Option.some.inj (show some (BitVec.ofNat 32 (word 3303014400 [(d.toNat, 17), (a.toNat, 13), (b.toNat, 0)])) = some x from e); simp only [word] at e
  have := d.isLt; have := a.isLt; have := b.isLt
  have hx : x.toNat = 3303014400 + d.toNat * 131072 + a.toNat * 8192 + b.toNat * 1 := by rw [← e, BitVec.toNat_ofNat]; omega
  have h6_26 : num 6 26 x = 49 := by rw [num_eq, hx]; omega
  have h5_21 : num 5 21 x = 7 := by rw [num_eq, hx]; omega
  have h9_4 : num 9 4 x = 0 := by rw [num_eq, hx]; omega
  unfold decodeWord; rw [h6_26]; show decodeMajor31 x = _; unfold decodeMajor31
  rw [h5_21]
  show (if num 9 4 x = 0 then some (Instr.gshr (field 4 17 x) (field 4 13 x) (field 4 0 x)) else none : Option Instr) = _
  exact (if_pos h9_4).trans (by rw [field_eq 17 x d (by rw [hx]; omega), field_eq 13 x a (by rw [hx]; omega), field_eq 0 x b (by rw [hx]; omega)])
theorem gsra (d : BitVec 4) (a : BitVec 4) (b : BitVec 4) : Statement (.gsra d a b) := by
  intro ok; suffices H : ∀ x, encodeWord (.gsra d a b) = some x → decodeWord x = some (.gsra d a b) from ⟨_, rfl, H _ rfl⟩
  intro x e; have e := Option.some.inj (show some (BitVec.ofNat 32 (word 3305111552 [(d.toNat, 17), (a.toNat, 13), (b.toNat, 0)])) = some x from e); simp only [word] at e
  have := d.isLt; have := a.isLt; have := b.isLt
  have hx : x.toNat = 3305111552 + d.toNat * 131072 + a.toNat * 8192 + b.toNat * 1 := by rw [← e, BitVec.toNat_ofNat]; omega
  have h6_26 : num 6 26 x = 49 := by rw [num_eq, hx]; omega
  have h5_21 : num 5 21 x = 8 := by rw [num_eq, hx]; omega
  have h9_4 : num 9 4 x = 0 := by rw [num_eq, hx]; omega
  unfold decodeWord; rw [h6_26]; show decodeMajor31 x = _; unfold decodeMajor31
  rw [h5_21]
  show (if num 9 4 x = 0 then some (Instr.gsra (field 4 17 x) (field 4 13 x) (field 4 0 x)) else none : Option Instr) = _
  exact (if_pos h9_4).trans (by rw [field_eq 17 x d (by rw [hx]; omega), field_eq 13 x a (by rw [hx]; omega), field_eq 0 x b (by rw [hx]; omega)])
theorem gmin (d : BitVec 4) (a : BitVec 4) (b : BitVec 4) : Statement (.gmin d a b) := by
  intro ok; suffices H : ∀ x, encodeWord (.gmin d a b) = some x → decodeWord x = some (.gmin d a b) from ⟨_, rfl, H _ rfl⟩
  intro x e; have e := Option.some.inj (show some (BitVec.ofNat 32 (word 3307208704 [(d.toNat, 17), (a.toNat, 13), (b.toNat, 0)])) = some x from e); simp only [word] at e
  have := d.isLt; have := a.isLt; have := b.isLt
  have hx : x.toNat = 3307208704 + d.toNat * 131072 + a.toNat * 8192 + b.toNat * 1 := by rw [← e, BitVec.toNat_ofNat]; omega
  have h6_26 : num 6 26 x = 49 := by rw [num_eq, hx]; omega
  have h5_21 : num 5 21 x = 9 := by rw [num_eq, hx]; omega
  have h9_4 : num 9 4 x = 0 := by rw [num_eq, hx]; omega
  unfold decodeWord; rw [h6_26]; show decodeMajor31 x = _; unfold decodeMajor31
  rw [h5_21]
  show (if num 9 4 x = 0 then some (Instr.gmin (field 4 17 x) (field 4 13 x) (field 4 0 x)) else none : Option Instr) = _
  exact (if_pos h9_4).trans (by rw [field_eq 17 x d (by rw [hx]; omega), field_eq 13 x a (by rw [hx]; omega), field_eq 0 x b (by rw [hx]; omega)])
theorem gmax (d : BitVec 4) (a : BitVec 4) (b : BitVec 4) : Statement (.gmax d a b) := by
  intro ok; suffices H : ∀ x, encodeWord (.gmax d a b) = some x → decodeWord x = some (.gmax d a b) from ⟨_, rfl, H _ rfl⟩
  intro x e; have e := Option.some.inj (show some (BitVec.ofNat 32 (word 3309305856 [(d.toNat, 17), (a.toNat, 13), (b.toNat, 0)])) = some x from e); simp only [word] at e
  have := d.isLt; have := a.isLt; have := b.isLt
  have hx : x.toNat = 3309305856 + d.toNat * 131072 + a.toNat * 8192 + b.toNat * 1 := by rw [← e, BitVec.toNat_ofNat]; omega
  have h6_26 : num 6 26 x = 49 := by rw [num_eq, hx]; omega
  have h5_21 : num 5 21 x = 10 := by rw [num_eq, hx]; omega
  have h9_4 : num 9 4 x = 0 := by rw [num_eq, hx]; omega
  unfold decodeWord; rw [h6_26]; show decodeMajor31 x = _; unfold decodeMajor31
  rw [h5_21]
  show (if num 9 4 x = 0 then some (Instr.gmax (field 4 17 x) (field 4 13 x) (field 4 0 x)) else none : Option Instr) = _
  exact (if_pos h9_4).trans (by rw [field_eq 17 x d (by rw [hx]; omega), field_eq 13 x a (by rw [hx]; omega), field_eq 0 x b (by rw [hx]; omega)])
theorem gslt (d : BitVec 4) (a : BitVec 4) (b : BitVec 4) : Statement (.gslt d a b) := by
  intro ok; suffices H : ∀ x, encodeWord (.gslt d a b) = some x → decodeWord x = some (.gslt d a b) from ⟨_, rfl, H _ rfl⟩
  intro x e; have e := Option.some.inj (show some (BitVec.ofNat 32 (word 3311403008 [(d.toNat, 17), (a.toNat, 13), (b.toNat, 0)])) = some x from e); simp only [word] at e
  have := d.isLt; have := a.isLt; have := b.isLt
  have hx : x.toNat = 3311403008 + d.toNat * 131072 + a.toNat * 8192 + b.toNat * 1 := by rw [← e, BitVec.toNat_ofNat]; omega
  have h6_26 : num 6 26 x = 49 := by rw [num_eq, hx]; omega
  have h5_21 : num 5 21 x = 11 := by rw [num_eq, hx]; omega
  have h9_4 : num 9 4 x = 0 := by rw [num_eq, hx]; omega
  unfold decodeWord; rw [h6_26]; show decodeMajor31 x = _; unfold decodeMajor31
  rw [h5_21]
  show (if num 9 4 x = 0 then some (Instr.gslt (field 4 17 x) (field 4 13 x) (field 4 0 x)) else none : Option Instr) = _
  exact (if_pos h9_4).trans (by rw [field_eq 17 x d (by rw [hx]; omega), field_eq 13 x a (by rw [hx]; omega), field_eq 0 x b (by rw [hx]; omega)])
theorem gsltu (d : BitVec 4) (a : BitVec 4) (b : BitVec 4) : Statement (.gsltu d a b) := by
  intro ok; suffices H : ∀ x, encodeWord (.gsltu d a b) = some x → decodeWord x = some (.gsltu d a b) from ⟨_, rfl, H _ rfl⟩
  intro x e; have e := Option.some.inj (show some (BitVec.ofNat 32 (word 3313500160 [(d.toNat, 17), (a.toNat, 13), (b.toNat, 0)])) = some x from e); simp only [word] at e
  have := d.isLt; have := a.isLt; have := b.isLt
  have hx : x.toNat = 3313500160 + d.toNat * 131072 + a.toNat * 8192 + b.toNat * 1 := by rw [← e, BitVec.toNat_ofNat]; omega
  have h6_26 : num 6 26 x = 49 := by rw [num_eq, hx]; omega
  have h5_21 : num 5 21 x = 12 := by rw [num_eq, hx]; omega
  have h9_4 : num 9 4 x = 0 := by rw [num_eq, hx]; omega
  unfold decodeWord; rw [h6_26]; show decodeMajor31 x = _; unfold decodeMajor31
  rw [h5_21]
  show (if num 9 4 x = 0 then some (Instr.gsltu (field 4 17 x) (field 4 13 x) (field 4 0 x)) else none : Option Instr) = _
  exact (if_pos h9_4).trans (by rw [field_eq 17 x d (by rw [hx]; omega), field_eq 13 x a (by rw [hx]; omega), field_eq 0 x b (by rw [hx]; omega)])
theorem gmov (d : BitVec 4) (a : BitVec 4) : Statement (.gmov d a) := by
  intro ok; suffices H : ∀ x, encodeWord (.gmov d a) = some x → decodeWord x = some (.gmov d a) from ⟨_, rfl, H _ rfl⟩
  intro x e; have e := Option.some.inj (show some (BitVec.ofNat 32 (word 3315597312 [(d.toNat, 17), (a.toNat, 13)])) = some x from e); simp only [word] at e
  have := d.isLt; have := a.isLt
  have hx : x.toNat = 3315597312 + d.toNat * 131072 + a.toNat * 8192 := by rw [← e, BitVec.toNat_ofNat]; omega
  have h6_26 : num 6 26 x = 49 := by rw [num_eq, hx]; omega
  have h5_21 : num 5 21 x = 13 := by rw [num_eq, hx]; omega
  have h13_0 : num 13 0 x = 0 := by rw [num_eq, hx]; omega
  unfold decodeWord; rw [h6_26]; show decodeMajor31 x = _; unfold decodeMajor31
  rw [h5_21]
  show (if num 13 0 x = 0 then some (Instr.gmov (field 4 17 x) (field 4 13 x)) else none : Option Instr) = _
  exact (if_pos h13_0).trans (by rw [field_eq 17 x d (by rw [hx]; omega), field_eq 13 x a (by rw [hx]; omega)])
theorem gaddi (d : BitVec 4) (a : BitVec 4) (i : BitVec 13) : Statement (.gaddi d a i) := by
  intro ok; suffices H : ∀ x, encodeWord (.gaddi d a i) = some x → decodeWord x = some (.gaddi d a i) from ⟨_, rfl, H _ rfl⟩
  intro x e; have e := Option.some.inj (show some (BitVec.ofNat 32 (word 3321888768 [(d.toNat, 17), (a.toNat, 13), (i.toNat, 0)])) = some x from e); simp only [word] at e
  have := d.isLt; have := a.isLt; have := i.isLt
  have hx : x.toNat = 3321888768 + d.toNat * 131072 + a.toNat * 8192 + i.toNat * 1 := by rw [← e, BitVec.toNat_ofNat]; omega
  have h6_26 : num 6 26 x = 49 := by rw [num_eq, hx]; omega
  have h5_21 : num 5 21 x = 16 := by rw [num_eq, hx]; omega
  unfold decodeWord; rw [h6_26]; show decodeMajor31 x = _; unfold decodeMajor31
  rw [h5_21]
  show (some (Instr.gaddi (field 4 17 x) (field 4 13 x) (field 13 0 x)) : Option Instr) = _
  exact (by rw [field_eq 17 x d (by rw [hx]; omega), field_eq 13 x a (by rw [hx]; omega), field_eq 0 x i (by rw [hx]; omega)])
theorem gandi (d : BitVec 4) (a : BitVec 4) (i : BitVec 13) : Statement (.gandi d a i) := by
  intro ok; suffices H : ∀ x, encodeWord (.gandi d a i) = some x → decodeWord x = some (.gandi d a i) from ⟨_, rfl, H _ rfl⟩
  intro x e; have e := Option.some.inj (show some (BitVec.ofNat 32 (word 3323985920 [(d.toNat, 17), (a.toNat, 13), (i.toNat, 0)])) = some x from e); simp only [word] at e
  have := d.isLt; have := a.isLt; have := i.isLt
  have hx : x.toNat = 3323985920 + d.toNat * 131072 + a.toNat * 8192 + i.toNat * 1 := by rw [← e, BitVec.toNat_ofNat]; omega
  have h6_26 : num 6 26 x = 49 := by rw [num_eq, hx]; omega
  have h5_21 : num 5 21 x = 17 := by rw [num_eq, hx]; omega
  unfold decodeWord; rw [h6_26]; show decodeMajor31 x = _; unfold decodeMajor31
  rw [h5_21]
  show (some (Instr.gandi (field 4 17 x) (field 4 13 x) (field 13 0 x)) : Option Instr) = _
  exact (by rw [field_eq 17 x d (by rw [hx]; omega), field_eq 13 x a (by rw [hx]; omega), field_eq 0 x i (by rw [hx]; omega)])
theorem gori (d : BitVec 4) (a : BitVec 4) (i : BitVec 13) : Statement (.gori d a i) := by
  intro ok; suffices H : ∀ x, encodeWord (.gori d a i) = some x → decodeWord x = some (.gori d a i) from ⟨_, rfl, H _ rfl⟩
  intro x e; have e := Option.some.inj (show some (BitVec.ofNat 32 (word 3326083072 [(d.toNat, 17), (a.toNat, 13), (i.toNat, 0)])) = some x from e); simp only [word] at e
  have := d.isLt; have := a.isLt; have := i.isLt
  have hx : x.toNat = 3326083072 + d.toNat * 131072 + a.toNat * 8192 + i.toNat * 1 := by rw [← e, BitVec.toNat_ofNat]; omega
  have h6_26 : num 6 26 x = 49 := by rw [num_eq, hx]; omega
  have h5_21 : num 5 21 x = 18 := by rw [num_eq, hx]; omega
  unfold decodeWord; rw [h6_26]; show decodeMajor31 x = _; unfold decodeMajor31
  rw [h5_21]
  show (some (Instr.gori (field 4 17 x) (field 4 13 x) (field 13 0 x)) : Option Instr) = _
  exact (by rw [field_eq 17 x d (by rw [hx]; omega), field_eq 13 x a (by rw [hx]; omega), field_eq 0 x i (by rw [hx]; omega)])
theorem gxori (d : BitVec 4) (a : BitVec 4) (i : BitVec 13) : Statement (.gxori d a i) := by
  intro ok; suffices H : ∀ x, encodeWord (.gxori d a i) = some x → decodeWord x = some (.gxori d a i) from ⟨_, rfl, H _ rfl⟩
  intro x e; have e := Option.some.inj (show some (BitVec.ofNat 32 (word 3328180224 [(d.toNat, 17), (a.toNat, 13), (i.toNat, 0)])) = some x from e); simp only [word] at e
  have := d.isLt; have := a.isLt; have := i.isLt
  have hx : x.toNat = 3328180224 + d.toNat * 131072 + a.toNat * 8192 + i.toNat * 1 := by rw [← e, BitVec.toNat_ofNat]; omega
  have h6_26 : num 6 26 x = 49 := by rw [num_eq, hx]; omega
  have h5_21 : num 5 21 x = 19 := by rw [num_eq, hx]; omega
  unfold decodeWord; rw [h6_26]; show decodeMajor31 x = _; unfold decodeMajor31
  rw [h5_21]
  show (some (Instr.gxori (field 4 17 x) (field 4 13 x) (field 13 0 x)) : Option Instr) = _
  exact (by rw [field_eq 17 x d (by rw [hx]; omega), field_eq 13 x a (by rw [hx]; omega), field_eq 0 x i (by rw [hx]; omega)])
theorem gshli (d : BitVec 4) (a : BitVec 4) (i : BitVec 13) : Statement (.gshli d a i) := by
  intro ok; suffices H : ∀ x, encodeWord (.gshli d a i) = some x → decodeWord x = some (.gshli d a i) from ⟨_, rfl, H _ rfl⟩
  intro x e; have e := Option.some.inj (show some (BitVec.ofNat 32 (word 3330277376 [(d.toNat, 17), (a.toNat, 13), (i.toNat, 0)])) = some x from e); simp only [word] at e
  have := d.isLt; have := a.isLt; have := i.isLt
  have hx : x.toNat = 3330277376 + d.toNat * 131072 + a.toNat * 8192 + i.toNat * 1 := by rw [← e, BitVec.toNat_ofNat]; omega
  have h6_26 : num 6 26 x = 49 := by rw [num_eq, hx]; omega
  have h5_21 : num 5 21 x = 20 := by rw [num_eq, hx]; omega
  unfold decodeWord; rw [h6_26]; show decodeMajor31 x = _; unfold decodeMajor31
  rw [h5_21]
  show (some (Instr.gshli (field 4 17 x) (field 4 13 x) (field 13 0 x)) : Option Instr) = _
  exact (by rw [field_eq 17 x d (by rw [hx]; omega), field_eq 13 x a (by rw [hx]; omega), field_eq 0 x i (by rw [hx]; omega)])
theorem gshri (d : BitVec 4) (a : BitVec 4) (i : BitVec 13) : Statement (.gshri d a i) := by
  intro ok; suffices H : ∀ x, encodeWord (.gshri d a i) = some x → decodeWord x = some (.gshri d a i) from ⟨_, rfl, H _ rfl⟩
  intro x e; have e := Option.some.inj (show some (BitVec.ofNat 32 (word 3332374528 [(d.toNat, 17), (a.toNat, 13), (i.toNat, 0)])) = some x from e); simp only [word] at e
  have := d.isLt; have := a.isLt; have := i.isLt
  have hx : x.toNat = 3332374528 + d.toNat * 131072 + a.toNat * 8192 + i.toNat * 1 := by rw [← e, BitVec.toNat_ofNat]; omega
  have h6_26 : num 6 26 x = 49 := by rw [num_eq, hx]; omega
  have h5_21 : num 5 21 x = 21 := by rw [num_eq, hx]; omega
  unfold decodeWord; rw [h6_26]; show decodeMajor31 x = _; unfold decodeMajor31
  rw [h5_21]
  show (some (Instr.gshri (field 4 17 x) (field 4 13 x) (field 13 0 x)) : Option Instr) = _
  exact (by rw [field_eq 17 x d (by rw [hx]; omega), field_eq 13 x a (by rw [hx]; omega), field_eq 0 x i (by rw [hx]; omega)])
theorem gsrai (d : BitVec 4) (a : BitVec 4) (i : BitVec 13) : Statement (.gsrai d a i) := by
  intro ok; suffices H : ∀ x, encodeWord (.gsrai d a i) = some x → decodeWord x = some (.gsrai d a i) from ⟨_, rfl, H _ rfl⟩
  intro x e; have e := Option.some.inj (show some (BitVec.ofNat 32 (word 3334471680 [(d.toNat, 17), (a.toNat, 13), (i.toNat, 0)])) = some x from e); simp only [word] at e
  have := d.isLt; have := a.isLt; have := i.isLt
  have hx : x.toNat = 3334471680 + d.toNat * 131072 + a.toNat * 8192 + i.toNat * 1 := by rw [← e, BitVec.toNat_ofNat]; omega
  have h6_26 : num 6 26 x = 49 := by rw [num_eq, hx]; omega
  have h5_21 : num 5 21 x = 22 := by rw [num_eq, hx]; omega
  unfold decodeWord; rw [h6_26]; show decodeMajor31 x = _; unfold decodeMajor31
  rw [h5_21]
  show (some (Instr.gsrai (field 4 17 x) (field 4 13 x) (field 13 0 x)) : Option Instr) = _
  exact (by rw [field_eq 17 x d (by rw [hx]; omega), field_eq 13 x a (by rw [hx]; omega), field_eq 0 x i (by rw [hx]; omega)])
theorem gli (d : BitVec 4) (i : BitVec 13) : Statement (.gli d i) := by
  intro ok; suffices H : ∀ x, encodeWord (.gli d i) = some x → decodeWord x = some (.gli d i) from ⟨_, rfl, H _ rfl⟩
  intro x e; have e := Option.some.inj (show some (BitVec.ofNat 32 (word 3336568832 [(d.toNat, 17), (i.toNat, 0)])) = some x from e); simp only [word] at e
  have := d.isLt; have := i.isLt
  have hx : x.toNat = 3336568832 + d.toNat * 131072 + i.toNat * 1 := by rw [← e, BitVec.toNat_ofNat]; omega
  have h6_26 : num 6 26 x = 49 := by rw [num_eq, hx]; omega
  have h5_21 : num 5 21 x = 23 := by rw [num_eq, hx]; omega
  have h4_13 : num 4 13 x = 0 := by rw [num_eq, hx]; omega
  unfold decodeWord; rw [h6_26]; show decodeMajor31 x = _; unfold decodeMajor31
  rw [h5_21]
  show (if num 4 13 x = 0 then some (Instr.gli (field 4 17 x) (field 13 0 x)) else none : Option Instr) = _
  exact (if_pos h4_13).trans (by rw [field_eq 17 x d (by rw [hx]; omega), field_eq 0 x i (by rw [hx]; omega)])
theorem vget (d : BitVec 4) (l : BitVec 2) (v : BitVec 7) : Statement (.vget d l v) := by
  intro ok; suffices H : ∀ x, encodeWord (.vget d l v) = some x → decodeWord x = some (.vget d l v) from ⟨_, rfl, H _ rfl⟩
  intro x e; have e := Option.some.inj (show some (BitVec.ofNat 32 (word 3338665984 [(d.toNat, 17), (l.toNat, 7), (v.toNat, 0)])) = some x from e); simp only [word] at e
  have := d.isLt; have := l.isLt; have := v.isLt
  have hx : x.toNat = 3338665984 + d.toNat * 131072 + l.toNat * 128 + v.toNat * 1 := by rw [← e, BitVec.toNat_ofNat]; omega
  have h6_26 : num 6 26 x = 49 := by rw [num_eq, hx]; omega
  have h5_21 : num 5 21 x = 24 := by rw [num_eq, hx]; omega
  have h8_9 : num 8 9 x = 0 := by rw [num_eq, hx]; omega
  unfold decodeWord; rw [h6_26]; show decodeMajor31 x = _; unfold decodeMajor31
  rw [h5_21]
  show (if num 8 9 x = 0 then some (Instr.vget (field 4 17 x) (field 2 7 x) (field 7 0 x)) else none : Option Instr) = _
  exact (if_pos h8_9).trans (by rw [field_eq 17 x d (by rw [hx]; omega), field_eq 7 x l (by rw [hx]; omega), field_eq 0 x v (by rw [hx]; omega)])
theorem vgeth (d : BitVec 4) (l : BitVec 2) (v : BitVec 7) : Statement (.vgeth d l v) := by
  intro ok; suffices H : ∀ x, encodeWord (.vgeth d l v) = some x → decodeWord x = some (.vgeth d l v) from ⟨_, rfl, H _ rfl⟩
  intro x e; have e := Option.some.inj (show some (BitVec.ofNat 32 (word 3340763136 [(d.toNat, 17), (l.toNat, 7), (v.toNat, 0)])) = some x from e); simp only [word] at e
  have := d.isLt; have := l.isLt; have := v.isLt
  have hx : x.toNat = 3340763136 + d.toNat * 131072 + l.toNat * 128 + v.toNat * 1 := by rw [← e, BitVec.toNat_ofNat]; omega
  have h6_26 : num 6 26 x = 49 := by rw [num_eq, hx]; omega
  have h5_21 : num 5 21 x = 25 := by rw [num_eq, hx]; omega
  have h8_9 : num 8 9 x = 0 := by rw [num_eq, hx]; omega
  unfold decodeWord; rw [h6_26]; show decodeMajor31 x = _; unfold decodeMajor31
  rw [h5_21]
  show (if num 8 9 x = 0 then some (Instr.vgeth (field 4 17 x) (field 2 7 x) (field 7 0 x)) else none : Option Instr) = _
  exact (if_pos h8_9).trans (by rw [field_eq 17 x d (by rw [hx]; omega), field_eq 7 x l (by rw [hx]; omega), field_eq 0 x v (by rw [hx]; omega)])
theorem modeSet (i : BitVec 20) : Statement (.modeSet i) := by
  intro ok; suffices H : ∀ x, encodeWord (.modeSet i) = some x → decodeWord x = some (.modeSet i) from ⟨_, rfl, H _ rfl⟩
  intro x e; have e := Option.some.inj (show some (BitVec.ofNat 32 (word 3355443200 [(i.toNat, 0)])) = some x from e); simp only [word] at e
  have := i.isLt
  have hx : x.toNat = 3355443200 + i.toNat * 1 := by rw [← e, BitVec.toNat_ofNat]; omega
  have h6_26 : num 6 26 x = 50 := by rw [num_eq, hx]; omega
  have h6_20 : num 6 20 x = 0 := by rw [num_eq, hx]; omega
  unfold decodeWord; rw [h6_26]; show decodeMajor32 x = _; unfold decodeMajor32
  rw [h6_20]
  show (some (Instr.modeSet (field 20 0 x)) : Option Instr) = _
  exact (by rw [field_eq 0 x i (by rw [hx]; omega)])
theorem mset (i : BitVec 4) : Statement (.mset i) := by
  intro ok; suffices H : ∀ x, encodeWord (.mset i) = some x → decodeWord x = some (.mset i) from ⟨_, rfl, H _ rfl⟩
  intro x e; have e := Option.some.inj (show some (BitVec.ofNat 32 (word 3356491776 [(i.toNat, 0)])) = some x from e); simp only [word] at e
  have := i.isLt
  have hx : x.toNat = 3356491776 + i.toNat * 1 := by rw [← e, BitVec.toNat_ofNat]; omega
  have h6_26 : num 6 26 x = 50 := by rw [num_eq, hx]; omega
  have h6_20 : num 6 20 x = 1 := by rw [num_eq, hx]; omega
  have h16_4 : num 16 4 x = 0 := by rw [num_eq, hx]; omega
  unfold decodeWord; rw [h6_26]; show decodeMajor32 x = _; unfold decodeMajor32
  rw [h6_20]
  show (if num 16 4 x = 0 then some (Instr.mset (field 4 0 x)) else none : Option Instr) = _
  exact (if_pos h16_4).trans (by rw [field_eq 0 x i (by rw [hx]; omega)])
theorem msave (g : BitVec 4) : Statement (.msave g) := by
  intro ok; suffices H : ∀ x, encodeWord (.msave g) = some x → decodeWord x = some (.msave g) from ⟨_, rfl, H _ rfl⟩
  intro x e; have e := Option.some.inj (show some (BitVec.ofNat 32 (word 3357540352 [(g.toNat, 16)])) = some x from e); simp only [word] at e
  have := g.isLt
  have hx : x.toNat = 3357540352 + g.toNat * 65536 := by rw [← e, BitVec.toNat_ofNat]; omega
  have h6_26 : num 6 26 x = 50 := by rw [num_eq, hx]; omega
  have h6_20 : num 6 20 x = 2 := by rw [num_eq, hx]; omega
  have h16_0 : num 16 0 x = 0 := by rw [num_eq, hx]; omega
  unfold decodeWord; rw [h6_26]; show decodeMajor32 x = _; unfold decodeMajor32
  rw [h6_20]
  show (if num 16 0 x = 0 then some (Instr.msave (field 4 16 x)) else none : Option Instr) = _
  exact (if_pos h16_0).trans (by rw [field_eq 16 x g (by rw [hx]; omega)])
theorem mrest (g : BitVec 4) (w : BitVec 2) : Statement (.mrest g w) := by
  intro ok; suffices H : ∀ x, encodeWord (.mrest g w) = some x → decodeWord x = some (.mrest g w) from ⟨_, rfl, H _ rfl⟩
  intro x e; have e := Option.some.inj (show some (BitVec.ofNat 32 (word 3358588928 [(g.toNat, 16), (w.toNat, 14)])) = some x from e); simp only [word] at e
  have := g.isLt; have := w.isLt
  have hx : x.toNat = 3358588928 + g.toNat * 65536 + w.toNat * 16384 := by rw [← e, BitVec.toNat_ofNat]; omega
  have h6_26 : num 6 26 x = 50 := by rw [num_eq, hx]; omega
  have h6_20 : num 6 20 x = 3 := by rw [num_eq, hx]; omega
  have h14_0 : num 14 0 x = 0 := by rw [num_eq, hx]; omega
  unfold decodeWord; rw [h6_26]; show decodeMajor32 x = _; unfold decodeMajor32
  rw [h6_20]
  show (if num 14 0 x = 0 then some (Instr.mrest (field 4 16 x) (field 2 14 x)) else none : Option Instr) = _
  exact (if_pos h14_0).trans (by rw [field_eq 16 x g (by rw [hx]; omega), field_eq 14 x w (by rw [hx]; omega)])
theorem mand (g : BitVec 4) (n : BitVec 1) (p : BitVec 3) : Statement (.mand g n p) := by
  intro ok; suffices H : ∀ x, encodeWord (.mand g n p) = some x → decodeWord x = some (.mand g n p) from ⟨_, rfl, H _ rfl⟩
  intro x e; have e := Option.some.inj (show some (BitVec.ofNat 32 (word 3359637504 [(g.toNat, 16), (n.toNat, 15), (p.toNat, 12)])) = some x from e); simp only [word] at e
  have := g.isLt; have := n.isLt; have := p.isLt
  have hx : x.toNat = 3359637504 + g.toNat * 65536 + n.toNat * 32768 + p.toNat * 4096 := by rw [← e, BitVec.toNat_ofNat]; omega
  have h6_26 : num 6 26 x = 50 := by rw [num_eq, hx]; omega
  have h6_20 : num 6 20 x = 4 := by rw [num_eq, hx]; omega
  have h12_0 : num 12 0 x = 0 := by rw [num_eq, hx]; omega
  unfold decodeWord; rw [h6_26]; show decodeMajor32 x = _; unfold decodeMajor32
  rw [h6_20]
  show (if num 12 0 x = 0 then some (Instr.mand (field 4 16 x) (field 1 15 x) (field 3 12 x)) else none : Option Instr) = _
  exact (if_pos h12_0).trans (by rw [field_eq 16 x g (by rw [hx]; omega), field_eq 15 x n (by rw [hx]; omega), field_eq 12 x p (by rw [hx]; omega)])
theorem mor (g : BitVec 4) (n : BitVec 1) (p : BitVec 3) : Statement (.mor g n p) := by
  intro ok; suffices H : ∀ x, encodeWord (.mor g n p) = some x → decodeWord x = some (.mor g n p) from ⟨_, rfl, H _ rfl⟩
  intro x e; have e := Option.some.inj (show some (BitVec.ofNat 32 (word 3360686080 [(g.toNat, 16), (n.toNat, 15), (p.toNat, 12)])) = some x from e); simp only [word] at e
  have := g.isLt; have := n.isLt; have := p.isLt
  have hx : x.toNat = 3360686080 + g.toNat * 65536 + n.toNat * 32768 + p.toNat * 4096 := by rw [← e, BitVec.toNat_ofNat]; omega
  have h6_26 : num 6 26 x = 50 := by rw [num_eq, hx]; omega
  have h6_20 : num 6 20 x = 5 := by rw [num_eq, hx]; omega
  have h12_0 : num 12 0 x = 0 := by rw [num_eq, hx]; omega
  unfold decodeWord; rw [h6_26]; show decodeMajor32 x = _; unfold decodeMajor32
  rw [h6_20]
  show (if num 12 0 x = 0 then some (Instr.mor (field 4 16 x) (field 1 15 x) (field 3 12 x)) else none : Option Instr) = _
  exact (if_pos h12_0).trans (by rw [field_eq 16 x g (by rw [hx]; omega), field_eq 15 x n (by rw [hx]; omega), field_eq 12 x p (by rw [hx]; omega)])
theorem mall (g : BitVec 4) : Statement (.mall g) := by
  intro ok; suffices H : ∀ x, encodeWord (.mall g) = some x → decodeWord x = some (.mall g) from ⟨_, rfl, H _ rfl⟩
  intro x e; have e := Option.some.inj (show some (BitVec.ofNat 32 (word 3361734656 [(g.toNat, 16)])) = some x from e); simp only [word] at e
  have := g.isLt
  have hx : x.toNat = 3361734656 + g.toNat * 65536 := by rw [← e, BitVec.toNat_ofNat]; omega
  have h6_26 : num 6 26 x = 50 := by rw [num_eq, hx]; omega
  have h6_20 : num 6 20 x = 6 := by rw [num_eq, hx]; omega
  have h16_0 : num 16 0 x = 0 := by rw [num_eq, hx]; omega
  unfold decodeWord; rw [h6_26]; show decodeMajor32 x = _; unfold decodeMajor32
  rw [h6_20]
  show (if num 16 0 x = 0 then some (Instr.mall (field 4 16 x)) else none : Option Instr) = _
  exact (if_pos h16_0).trans (by rw [field_eq 16 x g (by rw [hx]; omega)])
theorem regang (l : BitVec 20) : Statement (.regang l) := by
  intro ok; suffices H : ∀ x, encodeWord (.regang l) = some x → decodeWord x = some (.regang l) from ⟨_, rfl, H _ rfl⟩
  intro x e; have e := Option.some.inj (show some (BitVec.ofNat 32 (word 3362783232 [(l.toNat, 0)])) = some x from e); simp only [word] at e
  have := l.isLt
  have hx : x.toNat = 3362783232 + l.toNat * 1 := by rw [← e, BitVec.toNat_ofNat]; omega
  have h6_26 : num 6 26 x = 50 := by rw [num_eq, hx]; omega
  have h6_20 : num 6 20 x = 7 := by rw [num_eq, hx]; omega
  unfold decodeWord; rw [h6_26]; show decodeMajor32 x = _; unfold decodeMajor32
  rw [h6_20]
  show (some (Instr.regang (field 20 0 x)) : Option Instr) = _
  exact (by rw [field_eq 0 x l (by rw [hx]; omega)])
theorem bar (n : BitVec 4) (c : BitVec 9) : Statement (.bar n c) := by
  intro ok; suffices H : ∀ x, encodeWord (.bar n c) = some x → decodeWord x = some (.bar n c) from ⟨_, rfl, H _ rfl⟩
  intro x e; have e := Option.some.inj (show some (BitVec.ofNat 32 (word 3363831808 [(n.toNat, 16), (c.toNat, 0)])) = some x from e); simp only [word] at e
  have := n.isLt; have := c.isLt
  have hx : x.toNat = 3363831808 + n.toNat * 65536 + c.toNat * 1 := by rw [← e, BitVec.toNat_ofNat]; omega
  have h6_26 : num 6 26 x = 50 := by rw [num_eq, hx]; omega
  have h6_20 : num 6 20 x = 8 := by rw [num_eq, hx]; omega
  have h7_9 : num 7 9 x = 0 := by rw [num_eq, hx]; omega
  unfold decodeWord; rw [h6_26]; show decodeMajor32 x = _; unfold decodeMajor32
  rw [h6_20]
  show (if num 7 9 x = 0 then some (Instr.bar (field 4 16 x) (field 9 0 x)) else none : Option Instr) = _
  exact (if_pos h7_9).trans (by rw [field_eq 16 x n (by rw [hx]; omega), field_eq 0 x c (by rw [hx]; omega)])
theorem safept (n : BitVec 8) : Statement (.safept n) := by
  intro ok; suffices H : ∀ x, encodeWord (.safept n) = some x → decodeWord x = some (.safept n) from ⟨_, rfl, H _ rfl⟩
  intro x e; have e := Option.some.inj (show some (BitVec.ofNat 32 (word 3365928960 [(n.toNat, 0)])) = some x from e); simp only [word] at e
  have := n.isLt
  have hx : x.toNat = 3365928960 + n.toNat * 1 := by rw [← e, BitVec.toNat_ofNat]; omega
  have h6_26 : num 6 26 x = 50 := by rw [num_eq, hx]; omega
  have h6_20 : num 6 20 x = 10 := by rw [num_eq, hx]; omega
  have h12_8 : num 12 8 x = 0 := by rw [num_eq, hx]; omega
  unfold decodeWord; rw [h6_26]; show decodeMajor32 x = _; unfold decodeMajor32
  rw [h6_20]
  show (if num 12 8 x = 0 then some (Instr.safept (field 8 0 x)) else none : Option Instr) = _
  exact (if_pos h12_8).trans (by rw [field_eq 0 x n (by rw [hx]; omega)])
theorem dqpop (g : BitVec 4) : Statement (.dqpop g) := by
  intro ok; suffices H : ∀ x, encodeWord (.dqpop g) = some x → decodeWord x = some (.dqpop g) from ⟨_, rfl, H _ rfl⟩
  intro x e; have e := Option.some.inj (show some (BitVec.ofNat 32 (word 3366977536 [(g.toNat, 16)])) = some x from e); simp only [word] at e
  have := g.isLt
  have hx : x.toNat = 3366977536 + g.toNat * 65536 := by rw [← e, BitVec.toNat_ofNat]; omega
  have h6_26 : num 6 26 x = 50 := by rw [num_eq, hx]; omega
  have h6_20 : num 6 20 x = 11 := by rw [num_eq, hx]; omega
  have h16_0 : num 16 0 x = 0 := by rw [num_eq, hx]; omega
  unfold decodeWord; rw [h6_26]; show decodeMajor32 x = _; unfold decodeMajor32
  rw [h6_20]
  show (if num 16 0 x = 0 then some (Instr.dqpop (field 4 16 x)) else none : Option Instr) = _
  exact (if_pos h16_0).trans (by rw [field_eq 16 x g (by rw [hx]; omega)])
theorem trap (c : BitVec 16) : Statement (.trap c) := by
  intro ok; suffices H : ∀ x, encodeWord (.trap c) = some x → decodeWord x = some (.trap c) from ⟨_, rfl, H _ rfl⟩
  intro x e; have e := Option.some.inj (show some (BitVec.ofNat 32 (word 3368026112 [(c.toNat, 0)])) = some x from e); simp only [word] at e
  have := c.isLt
  have hx : x.toNat = 3368026112 + c.toNat * 1 := by rw [← e, BitVec.toNat_ofNat]; omega
  have h6_26 : num 6 26 x = 50 := by rw [num_eq, hx]; omega
  have h6_20 : num 6 20 x = 12 := by rw [num_eq, hx]; omega
  have h4_16 : num 4 16 x = 0 := by rw [num_eq, hx]; omega
  unfold decodeWord; rw [h6_26]; show decodeMajor32 x = _; unfold decodeMajor32
  rw [h6_20]
  show (if num 4 16 x = 0 then some (Instr.trap (field 16 0 x)) else none : Option Instr) = _
  exact (if_pos h4_16).trans (by rw [field_eq 0 x c (by rw [hx]; omega)])
theorem brk (c : BitVec 16) : Statement (.brk c) := by
  intro ok; suffices H : ∀ x, encodeWord (.brk c) = some x → decodeWord x = some (.brk c) from ⟨_, rfl, H _ rfl⟩
  intro x e; have e := Option.some.inj (show some (BitVec.ofNat 32 (word 3369074688 [(c.toNat, 0)])) = some x from e); simp only [word] at e
  have := c.isLt
  have hx : x.toNat = 3369074688 + c.toNat * 1 := by rw [← e, BitVec.toNat_ofNat]; omega
  have h6_26 : num 6 26 x = 50 := by rw [num_eq, hx]; omega
  have h6_20 : num 6 20 x = 13 := by rw [num_eq, hx]; omega
  have h4_16 : num 4 16 x = 0 := by rw [num_eq, hx]; omega
  unfold decodeWord; rw [h6_26]; show decodeMajor32 x = _; unfold decodeMajor32
  rw [h6_20]
  show (if num 4 16 x = 0 then some (Instr.brk (field 16 0 x)) else none : Option Instr) = _
  exact (if_pos h4_16).trans (by rw [field_eq 0 x c (by rw [hx]; omega)])
theorem wait (n : BitVec 16) : Statement (.wait n) := by
  intro ok; suffices H : ∀ x, encodeWord (.wait n) = some x → decodeWord x = some (.wait n) from ⟨_, rfl, H _ rfl⟩
  intro x e; have e := Option.some.inj (show some (BitVec.ofNat 32 (word 3370123264 [(n.toNat, 0)])) = some x from e); simp only [word] at e
  have := n.isLt
  have hx : x.toNat = 3370123264 + n.toNat * 1 := by rw [← e, BitVec.toNat_ofNat]; omega
  have h6_26 : num 6 26 x = 50 := by rw [num_eq, hx]; omega
  have h6_20 : num 6 20 x = 14 := by rw [num_eq, hx]; omega
  have h4_16 : num 4 16 x = 0 := by rw [num_eq, hx]; omega
  unfold decodeWord; rw [h6_26]; show decodeMajor32 x = _; unfold decodeMajor32
  rw [h6_20]
  show (if num 4 16 x = 0 then some (Instr.wait (field 16 0 x)) else none : Option Instr) = _
  exact (if_pos h4_16).trans (by rw [field_eq 0 x n (by rw [hx]; omega)])
theorem fence (p : BitVec 4) (s : BitVec 4) (c : BitVec 3) : Statement (.fence p s c) := by
  intro ok; suffices H : ∀ x, encodeWord (.fence p s c) = some x → decodeWord x = some (.fence p s c) from ⟨_, rfl, H _ rfl⟩
  intro x e; have e := Option.some.inj (show some (BitVec.ofNat 32 (word 3373268992 [(p.toNat, 8), (s.toNat, 4), (c.toNat, 0)])) = some x from e); simp only [word] at e
  have := p.isLt; have := s.isLt; have := c.isLt
  have hx : x.toNat = 3373268992 + p.toNat * 256 + s.toNat * 16 + c.toNat * 1 := by rw [← e, BitVec.toNat_ofNat]; omega
  have h6_26 : num 6 26 x = 50 := by rw [num_eq, hx]; omega
  have h6_20 : num 6 20 x = 17 := by rw [num_eq, hx]; omega
  have h8_12 : num 8 12 x = 0 := by rw [num_eq, hx]; omega
  have h1_3 : num 1 3 x = 0 := by rw [num_eq, hx]; omega
  unfold decodeWord; rw [h6_26]; show decodeMajor32 x = _; unfold decodeMajor32
  rw [h6_20]
  show (if num 8 12 x = 0 ∧ num 1 3 x = 0 then some (Instr.fence (field 4 8 x) (field 4 4 x) (field 3 0 x)) else none : Option Instr) = _
  exact (if_pos ⟨h8_12, h1_3⟩).trans (by rw [field_eq 8 x p (by rw [hx]; omega), field_eq 4 x s (by rw [hx]; omega), field_eq 0 x c (by rw [hx]; omega)])
theorem wtime (g : BitVec 4) : Statement (.wtime g) := by
  intro ok; suffices H : ∀ x, encodeWord (.wtime g) = some x → decodeWord x = some (.wtime g) from ⟨_, rfl, H _ rfl⟩
  intro x e; have e := Option.some.inj (show some (BitVec.ofNat 32 (word 3374317568 [(g.toNat, 16)])) = some x from e); simp only [word] at e
  have := g.isLt
  have hx : x.toNat = 3374317568 + g.toNat * 65536 := by rw [← e, BitVec.toNat_ofNat]; omega
  have h6_26 : num 6 26 x = 50 := by rw [num_eq, hx]; omega
  have h6_20 : num 6 20 x = 18 := by rw [num_eq, hx]; omega
  have h16_0 : num 16 0 x = 0 := by rw [num_eq, hx]; omega
  unfold decodeWord; rw [h6_26]; show decodeMajor32 x = _; unfold decodeMajor32
  rw [h6_20]
  show (if num 16 0 x = 0 then some (Instr.wtime (field 4 16 x)) else none : Option Instr) = _
  exact (if_pos h16_0).trans (by rw [field_eq 16 x g (by rw [hx]; omega)])
theorem sysr (g : BitVec 4) (n : BitVec 12) : Statement (.sysr g n) := by
  intro ok; suffices H : ∀ x, encodeWord (.sysr g n) = some x → decodeWord x = some (.sysr g n) from ⟨_, rfl, H _ rfl⟩
  intro x e; have e := Option.some.inj (show some (BitVec.ofNat 32 (word 3375366144 [(g.toNat, 16), (n.toNat, 0)])) = some x from e); simp only [word] at e
  have := g.isLt; have := n.isLt
  have hx : x.toNat = 3375366144 + g.toNat * 65536 + n.toNat * 1 := by rw [← e, BitVec.toNat_ofNat]; omega
  have h6_26 : num 6 26 x = 50 := by rw [num_eq, hx]; omega
  have h6_20 : num 6 20 x = 19 := by rw [num_eq, hx]; omega
  have h4_12 : num 4 12 x = 0 := by rw [num_eq, hx]; omega
  unfold decodeWord; rw [h6_26]; show decodeMajor32 x = _; unfold decodeMajor32
  rw [h6_20]
  show (if num 4 12 x = 0 then some (Instr.sysr (field 4 16 x) (field 12 0 x)) else none : Option Instr) = _
  exact (if_pos h4_12).trans (by rw [field_eq 16 x g (by rw [hx]; omega), field_eq 0 x n (by rw [hx]; omega)])
theorem sysw (g : BitVec 4) (n : BitVec 12) : Statement (.sysw g n) := by
  intro ok; suffices H : ∀ x, encodeWord (.sysw g n) = some x → decodeWord x = some (.sysw g n) from ⟨_, rfl, H _ rfl⟩
  intro x e; have e := Option.some.inj (show some (BitVec.ofNat 32 (word 3376414720 [(g.toNat, 16), (n.toNat, 0)])) = some x from e); simp only [word] at e
  have := g.isLt; have := n.isLt
  have hx : x.toNat = 3376414720 + g.toNat * 65536 + n.toNat * 1 := by rw [← e, BitVec.toNat_ofNat]; omega
  have h6_26 : num 6 26 x = 50 := by rw [num_eq, hx]; omega
  have h6_20 : num 6 20 x = 20 := by rw [num_eq, hx]; omega
  have h4_12 : num 4 12 x = 0 := by rw [num_eq, hx]; omega
  unfold decodeWord; rw [h6_26]; show decodeMajor32 x = _; unfold decodeMajor32
  rw [h6_20]
  show (if num 4 12 x = 0 then some (Instr.sysw (field 4 16 x) (field 12 0 x)) else none : Option Instr) = _
  exact (if_pos h4_12).trans (by rw [field_eq 16 x g (by rw [hx]; omega), field_eq 0 x n (by rw [hx]; omega)])
theorem ret (g : BitVec 4) : Statement (.ret g) := by
  intro ok; suffices H : ∀ x, encodeWord (.ret g) = some x → decodeWord x = some (.ret g) from ⟨_, rfl, H _ rfl⟩
  intro x e; have e := Option.some.inj (show some (BitVec.ofNat 32 (word 3377463296 [(g.toNat, 16)])) = some x from e); simp only [word] at e
  have := g.isLt
  have hx : x.toNat = 3377463296 + g.toNat * 65536 := by rw [← e, BitVec.toNat_ofNat]; omega
  have h6_26 : num 6 26 x = 50 := by rw [num_eq, hx]; omega
  have h6_20 : num 6 20 x = 21 := by rw [num_eq, hx]; omega
  have h16_0 : num 16 0 x = 0 := by rw [num_eq, hx]; omega
  unfold decodeWord; rw [h6_26]; show decodeMajor32 x = _; unfold decodeMajor32
  rw [h6_20]
  show (if num 16 0 x = 0 then some (Instr.ret (field 4 16 x)) else none : Option Instr) = _
  exact (if_pos h16_0).trans (by rw [field_eq 16 x g (by rw [hx]; omega)])
theorem jr (g : BitVec 4) (d : BitVec 16) : Statement (.jr g d) := by
  intro ok; suffices H : ∀ x, encodeWord (.jr g d) = some x → decodeWord x = some (.jr g d) from ⟨_, rfl, H _ rfl⟩
  intro x e; have e := Option.some.inj (show some (BitVec.ofNat 32 (word 3378511872 [(g.toNat, 16), (d.toNat, 0)])) = some x from e); simp only [word] at e
  have := g.isLt; have := d.isLt
  have hx : x.toNat = 3378511872 + g.toNat * 65536 + d.toNat * 1 := by rw [← e, BitVec.toNat_ofNat]; omega
  have h6_26 : num 6 26 x = 50 := by rw [num_eq, hx]; omega
  have h6_20 : num 6 20 x = 22 := by rw [num_eq, hx]; omega
  unfold decodeWord; rw [h6_26]; show decodeMajor32 x = _; unfold decodeMajor32
  rw [h6_20]
  show (some (Instr.jr (field 4 16 x) (field 16 0 x)) : Option Instr) = _
  exact (by rw [field_eq 16 x g (by rw [hx]; omega), field_eq 0 x d (by rw [hx]; omega)])
theorem chain (a : BitVec 4) (e0 : BitVec 5) : Statement (.chain a e0) := by
  intro ok; suffices H : ∀ x, encodeWord (.chain a e0) = some x → decodeWord x = some (.chain a e0) from ⟨_, rfl, H _ rfl⟩
  intro x e; have e := Option.some.inj (show some (BitVec.ofNat 32 (word 3422552064 [(a.toNat, 13), (e0.toNat, 0)])) = some x from e); simp only [word] at e
  have := a.isLt; have := e0.isLt
  have hx : x.toNat = 3422552064 + a.toNat * 8192 + e0.toNat * 1 := by rw [← e, BitVec.toNat_ofNat]; omega
  have h6_26 : num 6 26 x = 51 := by rw [num_eq, hx]; omega
  have h5_21 : num 5 21 x = 0 := by rw [num_eq, hx]; omega
  have h4_17 : num 4 17 x = 0 := by rw [num_eq, hx]; omega
  have h8_5 : num 8 5 x = 0 := by rw [num_eq, hx]; omega
  unfold decodeWord; rw [h6_26]; show decodeMajor33 x = _; unfold decodeMajor33
  rw [h5_21]
  show (if num 4 17 x = 0 ∧ num 8 5 x = 0 then some (Instr.chain (field 4 13 x) (field 5 0 x)) else none : Option Instr) = _
  exact (if_pos ⟨h4_17, h8_5⟩).trans (by rw [field_eq 13 x a (by rw [hx]; omega), field_eq 0 x e0 (by rw [hx]; omega)])
theorem tagwaitAny (d : BitVec 4) (a : BitVec 4) : Statement (.tagwaitAny d a) := by
  intro ok; suffices H : ∀ x, encodeWord (.tagwaitAny d a) = some x → decodeWord x = some (.tagwaitAny d a) from ⟨_, rfl, H _ rfl⟩
  intro x e; have e := Option.some.inj (show some (BitVec.ofNat 32 (word 3424649216 [(d.toNat, 17), (a.toNat, 13)])) = some x from e); simp only [word] at e
  have := d.isLt; have := a.isLt
  have hx : x.toNat = 3424649216 + d.toNat * 131072 + a.toNat * 8192 := by rw [← e, BitVec.toNat_ofNat]; omega
  have h6_26 : num 6 26 x = 51 := by rw [num_eq, hx]; omega
  have h5_21 : num 5 21 x = 1 := by rw [num_eq, hx]; omega
  have h13_0 : num 13 0 x = 0 := by rw [num_eq, hx]; omega
  unfold decodeWord; rw [h6_26]; show decodeMajor33 x = _; unfold decodeMajor33
  rw [h5_21]
  show (if num 13 0 x = 0 then some (Instr.tagwaitAny (field 4 17 x) (field 4 13 x)) else none : Option Instr) = _
  exact (if_pos h13_0).trans (by rw [field_eq 17 x d (by rw [hx]; omega), field_eq 13 x a (by rw [hx]; omega)])
theorem tagwaitAll (d : BitVec 4) (a : BitVec 4) : Statement (.tagwaitAll d a) := by
  intro ok; suffices H : ∀ x, encodeWord (.tagwaitAll d a) = some x → decodeWord x = some (.tagwaitAll d a) from ⟨_, rfl, H _ rfl⟩
  intro x e; have e := Option.some.inj (show some (BitVec.ofNat 32 (word 3426746368 [(d.toNat, 17), (a.toNat, 13)])) = some x from e); simp only [word] at e
  have := d.isLt; have := a.isLt
  have hx : x.toNat = 3426746368 + d.toNat * 131072 + a.toNat * 8192 := by rw [← e, BitVec.toNat_ofNat]; omega
  have h6_26 : num 6 26 x = 51 := by rw [num_eq, hx]; omega
  have h5_21 : num 5 21 x = 2 := by rw [num_eq, hx]; omega
  have h13_0 : num 13 0 x = 0 := by rw [num_eq, hx]; omega
  unfold decodeWord; rw [h6_26]; show decodeMajor33 x = _; unfold decodeMajor33
  rw [h5_21]
  show (if num 13 0 x = 0 then some (Instr.tagwaitAll (field 4 17 x) (field 4 13 x)) else none : Option Instr) = _
  exact (if_pos h13_0).trans (by rw [field_eq 17 x d (by rw [hx]; omega), field_eq 13 x a (by rw [hx]; omega)])
theorem tagff (d : BitVec 4) (a : BitVec 4) : Statement (.tagff d a) := by
  intro ok; suffices H : ∀ x, encodeWord (.tagff d a) = some x → decodeWord x = some (.tagff d a) from ⟨_, rfl, H _ rfl⟩
  intro x e; have e := Option.some.inj (show some (BitVec.ofNat 32 (word 3428843520 [(d.toNat, 17), (a.toNat, 13)])) = some x from e); simp only [word] at e
  have := d.isLt; have := a.isLt
  have hx : x.toNat = 3428843520 + d.toNat * 131072 + a.toNat * 8192 := by rw [← e, BitVec.toNat_ofNat]; omega
  have h6_26 : num 6 26 x = 51 := by rw [num_eq, hx]; omega
  have h5_21 : num 5 21 x = 3 := by rw [num_eq, hx]; omega
  have h13_0 : num 13 0 x = 0 := by rw [num_eq, hx]; omega
  unfold decodeWord; rw [h6_26]; show decodeMajor33 x = _; unfold decodeMajor33
  rw [h5_21]
  show (if num 13 0 x = 0 then some (Instr.tagff (field 4 17 x) (field 4 13 x)) else none : Option Instr) = _
  exact (if_pos h13_0).trans (by rw [field_eq 17 x d (by rw [hx]; omega), field_eq 13 x a (by rw [hx]; omega)])
theorem tagclr (a : BitVec 4) : Statement (.tagclr a) := by
  intro ok; suffices H : ∀ x, encodeWord (.tagclr a) = some x → decodeWord x = some (.tagclr a) from ⟨_, rfl, H _ rfl⟩
  intro x e; have e := Option.some.inj (show some (BitVec.ofNat 32 (word 3430940672 [(a.toNat, 13)])) = some x from e); simp only [word] at e
  have := a.isLt
  have hx : x.toNat = 3430940672 + a.toNat * 8192 := by rw [← e, BitVec.toNat_ofNat]; omega
  have h6_26 : num 6 26 x = 51 := by rw [num_eq, hx]; omega
  have h5_21 : num 5 21 x = 4 := by rw [num_eq, hx]; omega
  have h4_17 : num 4 17 x = 0 := by rw [num_eq, hx]; omega
  have h13_0 : num 13 0 x = 0 := by rw [num_eq, hx]; omega
  unfold decodeWord; rw [h6_26]; show decodeMajor33 x = _; unfold decodeMajor33
  rw [h5_21]
  show (if num 4 17 x = 0 ∧ num 13 0 x = 0 then some (Instr.tagclr (field 4 13 x)) else none : Option Instr) = _
  exact (if_pos ⟨h4_17, h13_0⟩).trans (by rw [field_eq 13 x a (by rw [hx]; omega)])
theorem bcwait (d : BitVec 4) (a : BitVec 4) (k : BitVec 6) : Statement (.bcwait d a k) := by
  intro ok; suffices H : ∀ x, encodeWord (.bcwait d a k) = some x → decodeWord x = some (.bcwait d a k) from ⟨_, rfl, H _ rfl⟩
  intro x e; have e := Option.some.inj (show some (BitVec.ofNat 32 (word 3433037824 [(d.toNat, 17), (a.toNat, 13), (k.toNat, 0)])) = some x from e); simp only [word] at e
  have := d.isLt; have := a.isLt; have := k.isLt
  have hx : x.toNat = 3433037824 + d.toNat * 131072 + a.toNat * 8192 + k.toNat * 1 := by rw [← e, BitVec.toNat_ofNat]; omega
  have h6_26 : num 6 26 x = 51 := by rw [num_eq, hx]; omega
  have h5_21 : num 5 21 x = 5 := by rw [num_eq, hx]; omega
  have h7_6 : num 7 6 x = 0 := by rw [num_eq, hx]; omega
  unfold decodeWord; rw [h6_26]; show decodeMajor33 x = _; unfold decodeMajor33
  rw [h5_21]
  show (if num 7 6 x = 0 then some (Instr.bcwait (field 4 17 x) (field 4 13 x) (field 6 0 x)) else none : Option Instr) = _
  exact (if_pos h7_6).trans (by rw [field_eq 17 x d (by rw [hx]; omega), field_eq 13 x a (by rw [hx]; omega), field_eq 0 x k (by rw [hx]; omega)])
theorem bcadd (a : BitVec 4) (k : BitVec 6) : Statement (.bcadd a k) := by
  intro ok; suffices H : ∀ x, encodeWord (.bcadd a k) = some x → decodeWord x = some (.bcadd a k) from ⟨_, rfl, H _ rfl⟩
  intro x e; have e := Option.some.inj (show some (BitVec.ofNat 32 (word 3435134976 [(a.toNat, 13), (k.toNat, 0)])) = some x from e); simp only [word] at e
  have := a.isLt; have := k.isLt
  have hx : x.toNat = 3435134976 + a.toNat * 8192 + k.toNat * 1 := by rw [← e, BitVec.toNat_ofNat]; omega
  have h6_26 : num 6 26 x = 51 := by rw [num_eq, hx]; omega
  have h5_21 : num 5 21 x = 6 := by rw [num_eq, hx]; omega
  have h4_17 : num 4 17 x = 0 := by rw [num_eq, hx]; omega
  have h7_6 : num 7 6 x = 0 := by rw [num_eq, hx]; omega
  unfold decodeWord; rw [h6_26]; show decodeMajor33 x = _; unfold decodeMajor33
  rw [h5_21]
  show (if num 4 17 x = 0 ∧ num 7 6 x = 0 then some (Instr.bcadd (field 4 13 x) (field 6 0 x)) else none : Option Instr) = _
  exact (if_pos ⟨h4_17, h7_6⟩).trans (by rw [field_eq 13 x a (by rw [hx]; omega), field_eq 0 x k (by rw [hx]; omega)])
theorem sadd (d : BitVec 6) (a : BitVec 6) (b : BitVec 6) : Statement (.sadd d a b) := by
  intro ok; suffices H : ∀ x, encodeWord (.sadd d a b) = some x → decodeWord x = some (.sadd d a b) from ⟨_, rfl, H _ rfl⟩
  intro x e; have e := Option.some.inj (show some (BitVec.ofNat 32 (word 3489660928 [(d.toNat, 14), (a.toNat, 8), (b.toNat, 2)])) = some x from e); simp only [word] at e
  have := d.isLt; have := a.isLt; have := b.isLt
  have hx : x.toNat = 3489660928 + d.toNat * 16384 + a.toNat * 256 + b.toNat * 4 := by rw [← e, BitVec.toNat_ofNat]; omega
  have h6_26 : num 6 26 x = 52 := by rw [num_eq, hx]; omega
  have h6_20 : num 6 20 x = 0 := by rw [num_eq, hx]; omega
  have h2_0 : num 2 0 x = 0 := by rw [num_eq, hx]; omega
  unfold decodeWord; rw [h6_26]; show decodeMajor34 x = _; unfold decodeMajor34
  rw [h6_20]
  show (if num 2 0 x = 0 then some (Instr.sadd (field 6 14 x) (field 6 8 x) (field 6 2 x)) else none : Option Instr) = _
  exact (if_pos h2_0).trans (by rw [field_eq 14 x d (by rw [hx]; omega), field_eq 8 x a (by rw [hx]; omega), field_eq 2 x b (by rw [hx]; omega)])
theorem ssub (d : BitVec 6) (a : BitVec 6) (b : BitVec 6) : Statement (.ssub d a b) := by
  intro ok; suffices H : ∀ x, encodeWord (.ssub d a b) = some x → decodeWord x = some (.ssub d a b) from ⟨_, rfl, H _ rfl⟩
  intro x e; have e := Option.some.inj (show some (BitVec.ofNat 32 (word 3490709504 [(d.toNat, 14), (a.toNat, 8), (b.toNat, 2)])) = some x from e); simp only [word] at e
  have := d.isLt; have := a.isLt; have := b.isLt
  have hx : x.toNat = 3490709504 + d.toNat * 16384 + a.toNat * 256 + b.toNat * 4 := by rw [← e, BitVec.toNat_ofNat]; omega
  have h6_26 : num 6 26 x = 52 := by rw [num_eq, hx]; omega
  have h6_20 : num 6 20 x = 1 := by rw [num_eq, hx]; omega
  have h2_0 : num 2 0 x = 0 := by rw [num_eq, hx]; omega
  unfold decodeWord; rw [h6_26]; show decodeMajor34 x = _; unfold decodeMajor34
  rw [h6_20]
  show (if num 2 0 x = 0 then some (Instr.ssub (field 6 14 x) (field 6 8 x) (field 6 2 x)) else none : Option Instr) = _
  exact (if_pos h2_0).trans (by rw [field_eq 14 x d (by rw [hx]; omega), field_eq 8 x a (by rw [hx]; omega), field_eq 2 x b (by rw [hx]; omega)])
theorem smul (d : BitVec 6) (a : BitVec 6) (b : BitVec 6) : Statement (.smul d a b) := by
  intro ok; suffices H : ∀ x, encodeWord (.smul d a b) = some x → decodeWord x = some (.smul d a b) from ⟨_, rfl, H _ rfl⟩
  intro x e; have e := Option.some.inj (show some (BitVec.ofNat 32 (word 3491758080 [(d.toNat, 14), (a.toNat, 8), (b.toNat, 2)])) = some x from e); simp only [word] at e
  have := d.isLt; have := a.isLt; have := b.isLt
  have hx : x.toNat = 3491758080 + d.toNat * 16384 + a.toNat * 256 + b.toNat * 4 := by rw [← e, BitVec.toNat_ofNat]; omega
  have h6_26 : num 6 26 x = 52 := by rw [num_eq, hx]; omega
  have h6_20 : num 6 20 x = 2 := by rw [num_eq, hx]; omega
  have h2_0 : num 2 0 x = 0 := by rw [num_eq, hx]; omega
  unfold decodeWord; rw [h6_26]; show decodeMajor34 x = _; unfold decodeMajor34
  rw [h6_20]
  show (if num 2 0 x = 0 then some (Instr.smul (field 6 14 x) (field 6 8 x) (field 6 2 x)) else none : Option Instr) = _
  exact (if_pos h2_0).trans (by rw [field_eq 14 x d (by rw [hx]; omega), field_eq 8 x a (by rw [hx]; omega), field_eq 2 x b (by rw [hx]; omega)])
theorem smulh (d : BitVec 6) (a : BitVec 6) (b : BitVec 6) : Statement (.smulh d a b) := by
  intro ok; suffices H : ∀ x, encodeWord (.smulh d a b) = some x → decodeWord x = some (.smulh d a b) from ⟨_, rfl, H _ rfl⟩
  intro x e; have e := Option.some.inj (show some (BitVec.ofNat 32 (word 3492806656 [(d.toNat, 14), (a.toNat, 8), (b.toNat, 2)])) = some x from e); simp only [word] at e
  have := d.isLt; have := a.isLt; have := b.isLt
  have hx : x.toNat = 3492806656 + d.toNat * 16384 + a.toNat * 256 + b.toNat * 4 := by rw [← e, BitVec.toNat_ofNat]; omega
  have h6_26 : num 6 26 x = 52 := by rw [num_eq, hx]; omega
  have h6_20 : num 6 20 x = 3 := by rw [num_eq, hx]; omega
  have h2_0 : num 2 0 x = 0 := by rw [num_eq, hx]; omega
  unfold decodeWord; rw [h6_26]; show decodeMajor34 x = _; unfold decodeMajor34
  rw [h6_20]
  show (if num 2 0 x = 0 then some (Instr.smulh (field 6 14 x) (field 6 8 x) (field 6 2 x)) else none : Option Instr) = _
  exact (if_pos h2_0).trans (by rw [field_eq 14 x d (by rw [hx]; omega), field_eq 8 x a (by rw [hx]; omega), field_eq 2 x b (by rw [hx]; omega)])
theorem sdiv (d : BitVec 6) (a : BitVec 6) (b : BitVec 6) : Statement (.sdiv d a b) := by
  intro ok; suffices H : ∀ x, encodeWord (.sdiv d a b) = some x → decodeWord x = some (.sdiv d a b) from ⟨_, rfl, H _ rfl⟩
  intro x e; have e := Option.some.inj (show some (BitVec.ofNat 32 (word 3493855232 [(d.toNat, 14), (a.toNat, 8), (b.toNat, 2)])) = some x from e); simp only [word] at e
  have := d.isLt; have := a.isLt; have := b.isLt
  have hx : x.toNat = 3493855232 + d.toNat * 16384 + a.toNat * 256 + b.toNat * 4 := by rw [← e, BitVec.toNat_ofNat]; omega
  have h6_26 : num 6 26 x = 52 := by rw [num_eq, hx]; omega
  have h6_20 : num 6 20 x = 4 := by rw [num_eq, hx]; omega
  have h2_0 : num 2 0 x = 0 := by rw [num_eq, hx]; omega
  unfold decodeWord; rw [h6_26]; show decodeMajor34 x = _; unfold decodeMajor34
  rw [h6_20]
  show (if num 2 0 x = 0 then some (Instr.sdiv (field 6 14 x) (field 6 8 x) (field 6 2 x)) else none : Option Instr) = _
  exact (if_pos h2_0).trans (by rw [field_eq 14 x d (by rw [hx]; omega), field_eq 8 x a (by rw [hx]; omega), field_eq 2 x b (by rw [hx]; omega)])
theorem srem (d : BitVec 6) (a : BitVec 6) (b : BitVec 6) : Statement (.srem d a b) := by
  intro ok; suffices H : ∀ x, encodeWord (.srem d a b) = some x → decodeWord x = some (.srem d a b) from ⟨_, rfl, H _ rfl⟩
  intro x e; have e := Option.some.inj (show some (BitVec.ofNat 32 (word 3494903808 [(d.toNat, 14), (a.toNat, 8), (b.toNat, 2)])) = some x from e); simp only [word] at e
  have := d.isLt; have := a.isLt; have := b.isLt
  have hx : x.toNat = 3494903808 + d.toNat * 16384 + a.toNat * 256 + b.toNat * 4 := by rw [← e, BitVec.toNat_ofNat]; omega
  have h6_26 : num 6 26 x = 52 := by rw [num_eq, hx]; omega
  have h6_20 : num 6 20 x = 5 := by rw [num_eq, hx]; omega
  have h2_0 : num 2 0 x = 0 := by rw [num_eq, hx]; omega
  unfold decodeWord; rw [h6_26]; show decodeMajor34 x = _; unfold decodeMajor34
  rw [h6_20]
  show (if num 2 0 x = 0 then some (Instr.srem (field 6 14 x) (field 6 8 x) (field 6 2 x)) else none : Option Instr) = _
  exact (if_pos h2_0).trans (by rw [field_eq 14 x d (by rw [hx]; omega), field_eq 8 x a (by rw [hx]; omega), field_eq 2 x b (by rw [hx]; omega)])
theorem sand (d : BitVec 6) (a : BitVec 6) (b : BitVec 6) : Statement (.sand d a b) := by
  intro ok; suffices H : ∀ x, encodeWord (.sand d a b) = some x → decodeWord x = some (.sand d a b) from ⟨_, rfl, H _ rfl⟩
  intro x e; have e := Option.some.inj (show some (BitVec.ofNat 32 (word 3495952384 [(d.toNat, 14), (a.toNat, 8), (b.toNat, 2)])) = some x from e); simp only [word] at e
  have := d.isLt; have := a.isLt; have := b.isLt
  have hx : x.toNat = 3495952384 + d.toNat * 16384 + a.toNat * 256 + b.toNat * 4 := by rw [← e, BitVec.toNat_ofNat]; omega
  have h6_26 : num 6 26 x = 52 := by rw [num_eq, hx]; omega
  have h6_20 : num 6 20 x = 6 := by rw [num_eq, hx]; omega
  have h2_0 : num 2 0 x = 0 := by rw [num_eq, hx]; omega
  unfold decodeWord; rw [h6_26]; show decodeMajor34 x = _; unfold decodeMajor34
  rw [h6_20]
  show (if num 2 0 x = 0 then some (Instr.sand (field 6 14 x) (field 6 8 x) (field 6 2 x)) else none : Option Instr) = _
  exact (if_pos h2_0).trans (by rw [field_eq 14 x d (by rw [hx]; omega), field_eq 8 x a (by rw [hx]; omega), field_eq 2 x b (by rw [hx]; omega)])
theorem sor (d : BitVec 6) (a : BitVec 6) (b : BitVec 6) : Statement (.sor d a b) := by
  intro ok; suffices H : ∀ x, encodeWord (.sor d a b) = some x → decodeWord x = some (.sor d a b) from ⟨_, rfl, H _ rfl⟩
  intro x e; have e := Option.some.inj (show some (BitVec.ofNat 32 (word 3497000960 [(d.toNat, 14), (a.toNat, 8), (b.toNat, 2)])) = some x from e); simp only [word] at e
  have := d.isLt; have := a.isLt; have := b.isLt
  have hx : x.toNat = 3497000960 + d.toNat * 16384 + a.toNat * 256 + b.toNat * 4 := by rw [← e, BitVec.toNat_ofNat]; omega
  have h6_26 : num 6 26 x = 52 := by rw [num_eq, hx]; omega
  have h6_20 : num 6 20 x = 7 := by rw [num_eq, hx]; omega
  have h2_0 : num 2 0 x = 0 := by rw [num_eq, hx]; omega
  unfold decodeWord; rw [h6_26]; show decodeMajor34 x = _; unfold decodeMajor34
  rw [h6_20]
  show (if num 2 0 x = 0 then some (Instr.sor (field 6 14 x) (field 6 8 x) (field 6 2 x)) else none : Option Instr) = _
  exact (if_pos h2_0).trans (by rw [field_eq 14 x d (by rw [hx]; omega), field_eq 8 x a (by rw [hx]; omega), field_eq 2 x b (by rw [hx]; omega)])
theorem sxor (d : BitVec 6) (a : BitVec 6) (b : BitVec 6) : Statement (.sxor d a b) := by
  intro ok; suffices H : ∀ x, encodeWord (.sxor d a b) = some x → decodeWord x = some (.sxor d a b) from ⟨_, rfl, H _ rfl⟩
  intro x e; have e := Option.some.inj (show some (BitVec.ofNat 32 (word 3498049536 [(d.toNat, 14), (a.toNat, 8), (b.toNat, 2)])) = some x from e); simp only [word] at e
  have := d.isLt; have := a.isLt; have := b.isLt
  have hx : x.toNat = 3498049536 + d.toNat * 16384 + a.toNat * 256 + b.toNat * 4 := by rw [← e, BitVec.toNat_ofNat]; omega
  have h6_26 : num 6 26 x = 52 := by rw [num_eq, hx]; omega
  have h6_20 : num 6 20 x = 8 := by rw [num_eq, hx]; omega
  have h2_0 : num 2 0 x = 0 := by rw [num_eq, hx]; omega
  unfold decodeWord; rw [h6_26]; show decodeMajor34 x = _; unfold decodeMajor34
  rw [h6_20]
  show (if num 2 0 x = 0 then some (Instr.sxor (field 6 14 x) (field 6 8 x) (field 6 2 x)) else none : Option Instr) = _
  exact (if_pos h2_0).trans (by rw [field_eq 14 x d (by rw [hx]; omega), field_eq 8 x a (by rw [hx]; omega), field_eq 2 x b (by rw [hx]; omega)])
theorem sshl (d : BitVec 6) (a : BitVec 6) (b : BitVec 6) : Statement (.sshl d a b) := by
  intro ok; suffices H : ∀ x, encodeWord (.sshl d a b) = some x → decodeWord x = some (.sshl d a b) from ⟨_, rfl, H _ rfl⟩
  intro x e; have e := Option.some.inj (show some (BitVec.ofNat 32 (word 3499098112 [(d.toNat, 14), (a.toNat, 8), (b.toNat, 2)])) = some x from e); simp only [word] at e
  have := d.isLt; have := a.isLt; have := b.isLt
  have hx : x.toNat = 3499098112 + d.toNat * 16384 + a.toNat * 256 + b.toNat * 4 := by rw [← e, BitVec.toNat_ofNat]; omega
  have h6_26 : num 6 26 x = 52 := by rw [num_eq, hx]; omega
  have h6_20 : num 6 20 x = 9 := by rw [num_eq, hx]; omega
  have h2_0 : num 2 0 x = 0 := by rw [num_eq, hx]; omega
  unfold decodeWord; rw [h6_26]; show decodeMajor34 x = _; unfold decodeMajor34
  rw [h6_20]
  show (if num 2 0 x = 0 then some (Instr.sshl (field 6 14 x) (field 6 8 x) (field 6 2 x)) else none : Option Instr) = _
  exact (if_pos h2_0).trans (by rw [field_eq 14 x d (by rw [hx]; omega), field_eq 8 x a (by rw [hx]; omega), field_eq 2 x b (by rw [hx]; omega)])
theorem sshr (d : BitVec 6) (a : BitVec 6) (b : BitVec 6) : Statement (.sshr d a b) := by
  intro ok; suffices H : ∀ x, encodeWord (.sshr d a b) = some x → decodeWord x = some (.sshr d a b) from ⟨_, rfl, H _ rfl⟩
  intro x e; have e := Option.some.inj (show some (BitVec.ofNat 32 (word 3500146688 [(d.toNat, 14), (a.toNat, 8), (b.toNat, 2)])) = some x from e); simp only [word] at e
  have := d.isLt; have := a.isLt; have := b.isLt
  have hx : x.toNat = 3500146688 + d.toNat * 16384 + a.toNat * 256 + b.toNat * 4 := by rw [← e, BitVec.toNat_ofNat]; omega
  have h6_26 : num 6 26 x = 52 := by rw [num_eq, hx]; omega
  have h6_20 : num 6 20 x = 10 := by rw [num_eq, hx]; omega
  have h2_0 : num 2 0 x = 0 := by rw [num_eq, hx]; omega
  unfold decodeWord; rw [h6_26]; show decodeMajor34 x = _; unfold decodeMajor34
  rw [h6_20]
  show (if num 2 0 x = 0 then some (Instr.sshr (field 6 14 x) (field 6 8 x) (field 6 2 x)) else none : Option Instr) = _
  exact (if_pos h2_0).trans (by rw [field_eq 14 x d (by rw [hx]; omega), field_eq 8 x a (by rw [hx]; omega), field_eq 2 x b (by rw [hx]; omega)])
theorem ssra (d : BitVec 6) (a : BitVec 6) (b : BitVec 6) : Statement (.ssra d a b) := by
  intro ok; suffices H : ∀ x, encodeWord (.ssra d a b) = some x → decodeWord x = some (.ssra d a b) from ⟨_, rfl, H _ rfl⟩
  intro x e; have e := Option.some.inj (show some (BitVec.ofNat 32 (word 3501195264 [(d.toNat, 14), (a.toNat, 8), (b.toNat, 2)])) = some x from e); simp only [word] at e
  have := d.isLt; have := a.isLt; have := b.isLt
  have hx : x.toNat = 3501195264 + d.toNat * 16384 + a.toNat * 256 + b.toNat * 4 := by rw [← e, BitVec.toNat_ofNat]; omega
  have h6_26 : num 6 26 x = 52 := by rw [num_eq, hx]; omega
  have h6_20 : num 6 20 x = 11 := by rw [num_eq, hx]; omega
  have h2_0 : num 2 0 x = 0 := by rw [num_eq, hx]; omega
  unfold decodeWord; rw [h6_26]; show decodeMajor34 x = _; unfold decodeMajor34
  rw [h6_20]
  show (if num 2 0 x = 0 then some (Instr.ssra (field 6 14 x) (field 6 8 x) (field 6 2 x)) else none : Option Instr) = _
  exact (if_pos h2_0).trans (by rw [field_eq 14 x d (by rw [hx]; omega), field_eq 8 x a (by rw [hx]; omega), field_eq 2 x b (by rw [hx]; omega)])
theorem smin (d : BitVec 6) (a : BitVec 6) (b : BitVec 6) : Statement (.smin d a b) := by
  intro ok; suffices H : ∀ x, encodeWord (.smin d a b) = some x → decodeWord x = some (.smin d a b) from ⟨_, rfl, H _ rfl⟩
  intro x e; have e := Option.some.inj (show some (BitVec.ofNat 32 (word 3502243840 [(d.toNat, 14), (a.toNat, 8), (b.toNat, 2)])) = some x from e); simp only [word] at e
  have := d.isLt; have := a.isLt; have := b.isLt
  have hx : x.toNat = 3502243840 + d.toNat * 16384 + a.toNat * 256 + b.toNat * 4 := by rw [← e, BitVec.toNat_ofNat]; omega
  have h6_26 : num 6 26 x = 52 := by rw [num_eq, hx]; omega
  have h6_20 : num 6 20 x = 12 := by rw [num_eq, hx]; omega
  have h2_0 : num 2 0 x = 0 := by rw [num_eq, hx]; omega
  unfold decodeWord; rw [h6_26]; show decodeMajor34 x = _; unfold decodeMajor34
  rw [h6_20]
  show (if num 2 0 x = 0 then some (Instr.smin (field 6 14 x) (field 6 8 x) (field 6 2 x)) else none : Option Instr) = _
  exact (if_pos h2_0).trans (by rw [field_eq 14 x d (by rw [hx]; omega), field_eq 8 x a (by rw [hx]; omega), field_eq 2 x b (by rw [hx]; omega)])
theorem smax (d : BitVec 6) (a : BitVec 6) (b : BitVec 6) : Statement (.smax d a b) := by
  intro ok; suffices H : ∀ x, encodeWord (.smax d a b) = some x → decodeWord x = some (.smax d a b) from ⟨_, rfl, H _ rfl⟩
  intro x e; have e := Option.some.inj (show some (BitVec.ofNat 32 (word 3503292416 [(d.toNat, 14), (a.toNat, 8), (b.toNat, 2)])) = some x from e); simp only [word] at e
  have := d.isLt; have := a.isLt; have := b.isLt
  have hx : x.toNat = 3503292416 + d.toNat * 16384 + a.toNat * 256 + b.toNat * 4 := by rw [← e, BitVec.toNat_ofNat]; omega
  have h6_26 : num 6 26 x = 52 := by rw [num_eq, hx]; omega
  have h6_20 : num 6 20 x = 13 := by rw [num_eq, hx]; omega
  have h2_0 : num 2 0 x = 0 := by rw [num_eq, hx]; omega
  unfold decodeWord; rw [h6_26]; show decodeMajor34 x = _; unfold decodeMajor34
  rw [h6_20]
  show (if num 2 0 x = 0 then some (Instr.smax (field 6 14 x) (field 6 8 x) (field 6 2 x)) else none : Option Instr) = _
  exact (if_pos h2_0).trans (by rw [field_eq 14 x d (by rw [hx]; omega), field_eq 8 x a (by rw [hx]; omega), field_eq 2 x b (by rw [hx]; omega)])
theorem sslt (d : BitVec 6) (a : BitVec 6) (b : BitVec 6) : Statement (.sslt d a b) := by
  intro ok; suffices H : ∀ x, encodeWord (.sslt d a b) = some x → decodeWord x = some (.sslt d a b) from ⟨_, rfl, H _ rfl⟩
  intro x e; have e := Option.some.inj (show some (BitVec.ofNat 32 (word 3504340992 [(d.toNat, 14), (a.toNat, 8), (b.toNat, 2)])) = some x from e); simp only [word] at e
  have := d.isLt; have := a.isLt; have := b.isLt
  have hx : x.toNat = 3504340992 + d.toNat * 16384 + a.toNat * 256 + b.toNat * 4 := by rw [← e, BitVec.toNat_ofNat]; omega
  have h6_26 : num 6 26 x = 52 := by rw [num_eq, hx]; omega
  have h6_20 : num 6 20 x = 14 := by rw [num_eq, hx]; omega
  have h2_0 : num 2 0 x = 0 := by rw [num_eq, hx]; omega
  unfold decodeWord; rw [h6_26]; show decodeMajor34 x = _; unfold decodeMajor34
  rw [h6_20]
  show (if num 2 0 x = 0 then some (Instr.sslt (field 6 14 x) (field 6 8 x) (field 6 2 x)) else none : Option Instr) = _
  exact (if_pos h2_0).trans (by rw [field_eq 14 x d (by rw [hx]; omega), field_eq 8 x a (by rw [hx]; omega), field_eq 2 x b (by rw [hx]; omega)])
theorem ssltu (d : BitVec 6) (a : BitVec 6) (b : BitVec 6) : Statement (.ssltu d a b) := by
  intro ok; suffices H : ∀ x, encodeWord (.ssltu d a b) = some x → decodeWord x = some (.ssltu d a b) from ⟨_, rfl, H _ rfl⟩
  intro x e; have e := Option.some.inj (show some (BitVec.ofNat 32 (word 3505389568 [(d.toNat, 14), (a.toNat, 8), (b.toNat, 2)])) = some x from e); simp only [word] at e
  have := d.isLt; have := a.isLt; have := b.isLt
  have hx : x.toNat = 3505389568 + d.toNat * 16384 + a.toNat * 256 + b.toNat * 4 := by rw [← e, BitVec.toNat_ofNat]; omega
  have h6_26 : num 6 26 x = 52 := by rw [num_eq, hx]; omega
  have h6_20 : num 6 20 x = 15 := by rw [num_eq, hx]; omega
  have h2_0 : num 2 0 x = 0 := by rw [num_eq, hx]; omega
  unfold decodeWord; rw [h6_26]; show decodeMajor34 x = _; unfold decodeMajor34
  rw [h6_20]
  show (if num 2 0 x = 0 then some (Instr.ssltu (field 6 14 x) (field 6 8 x) (field 6 2 x)) else none : Option Instr) = _
  exact (if_pos h2_0).trans (by rw [field_eq 14 x d (by rw [hx]; omega), field_eq 8 x a (by rw [hx]; omega), field_eq 2 x b (by rw [hx]; omega)])
theorem smov (d : BitVec 6) (a : BitVec 6) : Statement (.smov d a) := by
  intro ok; suffices H : ∀ x, encodeWord (.smov d a) = some x → decodeWord x = some (.smov d a) from ⟨_, rfl, H _ rfl⟩
  intro x e; have e := Option.some.inj (show some (BitVec.ofNat 32 (word 3506438144 [(d.toNat, 14), (a.toNat, 8)])) = some x from e); simp only [word] at e
  have := d.isLt; have := a.isLt
  have hx : x.toNat = 3506438144 + d.toNat * 16384 + a.toNat * 256 := by rw [← e, BitVec.toNat_ofNat]; omega
  have h6_26 : num 6 26 x = 52 := by rw [num_eq, hx]; omega
  have h6_20 : num 6 20 x = 16 := by rw [num_eq, hx]; omega
  have h8_0 : num 8 0 x = 0 := by rw [num_eq, hx]; omega
  unfold decodeWord; rw [h6_26]; show decodeMajor34 x = _; unfold decodeMajor34
  rw [h6_20]
  show (if num 8 0 x = 0 then some (Instr.smov (field 6 14 x) (field 6 8 x)) else none : Option Instr) = _
  exact (if_pos h8_0).trans (by rw [field_eq 14 x d (by rw [hx]; omega), field_eq 8 x a (by rw [hx]; omega)])
theorem saddi (d : BitVec 6) (a : BitVec 6) (i : BitVec 10) : Statement (.saddi d a i) := by
  intro ok; suffices H : ∀ x, encodeWord (.saddi d a i) = some x → decodeWord x = some (.saddi d a i) from ⟨_, rfl, H _ rfl⟩
  intro x e; have e := Option.some.inj (show some (BitVec.ofNat 32 (word 3556769792 [(d.toNat, 16), (a.toNat, 10), (i.toNat, 0)])) = some x from e); simp only [word] at e
  have := d.isLt; have := a.isLt; have := i.isLt
  have hx : x.toNat = 3556769792 + d.toNat * 65536 + a.toNat * 1024 + i.toNat * 1 := by rw [← e, BitVec.toNat_ofNat]; omega
  have h6_26 : num 6 26 x = 53 := by rw [num_eq, hx]; omega
  have h4_22 : num 4 22 x = 0 := by rw [num_eq, hx]; omega
  unfold decodeWord; rw [h6_26]; show decodeMajor35 x = _; unfold decodeMajor35
  rw [h4_22]
  show (some (Instr.saddi (field 6 16 x) (field 6 10 x) (field 10 0 x)) : Option Instr) = _
  exact (by rw [field_eq 16 x d (by rw [hx]; omega), field_eq 10 x a (by rw [hx]; omega), field_eq 0 x i (by rw [hx]; omega)])
theorem sandi (d : BitVec 6) (a : BitVec 6) (i : BitVec 10) : Statement (.sandi d a i) := by
  intro ok; suffices H : ∀ x, encodeWord (.sandi d a i) = some x → decodeWord x = some (.sandi d a i) from ⟨_, rfl, H _ rfl⟩
  intro x e; have e := Option.some.inj (show some (BitVec.ofNat 32 (word 3560964096 [(d.toNat, 16), (a.toNat, 10), (i.toNat, 0)])) = some x from e); simp only [word] at e
  have := d.isLt; have := a.isLt; have := i.isLt
  have hx : x.toNat = 3560964096 + d.toNat * 65536 + a.toNat * 1024 + i.toNat * 1 := by rw [← e, BitVec.toNat_ofNat]; omega
  have h6_26 : num 6 26 x = 53 := by rw [num_eq, hx]; omega
  have h4_22 : num 4 22 x = 1 := by rw [num_eq, hx]; omega
  unfold decodeWord; rw [h6_26]; show decodeMajor35 x = _; unfold decodeMajor35
  rw [h4_22]
  show (some (Instr.sandi (field 6 16 x) (field 6 10 x) (field 10 0 x)) : Option Instr) = _
  exact (by rw [field_eq 16 x d (by rw [hx]; omega), field_eq 10 x a (by rw [hx]; omega), field_eq 0 x i (by rw [hx]; omega)])
theorem sori (d : BitVec 6) (a : BitVec 6) (i : BitVec 10) : Statement (.sori d a i) := by
  intro ok; suffices H : ∀ x, encodeWord (.sori d a i) = some x → decodeWord x = some (.sori d a i) from ⟨_, rfl, H _ rfl⟩
  intro x e; have e := Option.some.inj (show some (BitVec.ofNat 32 (word 3565158400 [(d.toNat, 16), (a.toNat, 10), (i.toNat, 0)])) = some x from e); simp only [word] at e
  have := d.isLt; have := a.isLt; have := i.isLt
  have hx : x.toNat = 3565158400 + d.toNat * 65536 + a.toNat * 1024 + i.toNat * 1 := by rw [← e, BitVec.toNat_ofNat]; omega
  have h6_26 : num 6 26 x = 53 := by rw [num_eq, hx]; omega
  have h4_22 : num 4 22 x = 2 := by rw [num_eq, hx]; omega
  unfold decodeWord; rw [h6_26]; show decodeMajor35 x = _; unfold decodeMajor35
  rw [h4_22]
  show (some (Instr.sori (field 6 16 x) (field 6 10 x) (field 10 0 x)) : Option Instr) = _
  exact (by rw [field_eq 16 x d (by rw [hx]; omega), field_eq 10 x a (by rw [hx]; omega), field_eq 0 x i (by rw [hx]; omega)])
theorem sxori (d : BitVec 6) (a : BitVec 6) (i : BitVec 10) : Statement (.sxori d a i) := by
  intro ok; suffices H : ∀ x, encodeWord (.sxori d a i) = some x → decodeWord x = some (.sxori d a i) from ⟨_, rfl, H _ rfl⟩
  intro x e; have e := Option.some.inj (show some (BitVec.ofNat 32 (word 3569352704 [(d.toNat, 16), (a.toNat, 10), (i.toNat, 0)])) = some x from e); simp only [word] at e
  have := d.isLt; have := a.isLt; have := i.isLt
  have hx : x.toNat = 3569352704 + d.toNat * 65536 + a.toNat * 1024 + i.toNat * 1 := by rw [← e, BitVec.toNat_ofNat]; omega
  have h6_26 : num 6 26 x = 53 := by rw [num_eq, hx]; omega
  have h4_22 : num 4 22 x = 3 := by rw [num_eq, hx]; omega
  unfold decodeWord; rw [h6_26]; show decodeMajor35 x = _; unfold decodeMajor35
  rw [h4_22]
  show (some (Instr.sxori (field 6 16 x) (field 6 10 x) (field 10 0 x)) : Option Instr) = _
  exact (by rw [field_eq 16 x d (by rw [hx]; omega), field_eq 10 x a (by rw [hx]; omega), field_eq 0 x i (by rw [hx]; omega)])
theorem sshli (d : BitVec 6) (a : BitVec 6) (i : BitVec 10) : Statement (.sshli d a i) := by
  intro ok; suffices H : ∀ x, encodeWord (.sshli d a i) = some x → decodeWord x = some (.sshli d a i) from ⟨_, rfl, H _ rfl⟩
  intro x e; have e := Option.some.inj (show some (BitVec.ofNat 32 (word 3573547008 [(d.toNat, 16), (a.toNat, 10), (i.toNat, 0)])) = some x from e); simp only [word] at e
  have := d.isLt; have := a.isLt; have := i.isLt
  have hx : x.toNat = 3573547008 + d.toNat * 65536 + a.toNat * 1024 + i.toNat * 1 := by rw [← e, BitVec.toNat_ofNat]; omega
  have h6_26 : num 6 26 x = 53 := by rw [num_eq, hx]; omega
  have h4_22 : num 4 22 x = 4 := by rw [num_eq, hx]; omega
  unfold decodeWord; rw [h6_26]; show decodeMajor35 x = _; unfold decodeMajor35
  rw [h4_22]
  show (some (Instr.sshli (field 6 16 x) (field 6 10 x) (field 10 0 x)) : Option Instr) = _
  exact (by rw [field_eq 16 x d (by rw [hx]; omega), field_eq 10 x a (by rw [hx]; omega), field_eq 0 x i (by rw [hx]; omega)])
theorem sshri (d : BitVec 6) (a : BitVec 6) (i : BitVec 10) : Statement (.sshri d a i) := by
  intro ok; suffices H : ∀ x, encodeWord (.sshri d a i) = some x → decodeWord x = some (.sshri d a i) from ⟨_, rfl, H _ rfl⟩
  intro x e; have e := Option.some.inj (show some (BitVec.ofNat 32 (word 3577741312 [(d.toNat, 16), (a.toNat, 10), (i.toNat, 0)])) = some x from e); simp only [word] at e
  have := d.isLt; have := a.isLt; have := i.isLt
  have hx : x.toNat = 3577741312 + d.toNat * 65536 + a.toNat * 1024 + i.toNat * 1 := by rw [← e, BitVec.toNat_ofNat]; omega
  have h6_26 : num 6 26 x = 53 := by rw [num_eq, hx]; omega
  have h4_22 : num 4 22 x = 5 := by rw [num_eq, hx]; omega
  unfold decodeWord; rw [h6_26]; show decodeMajor35 x = _; unfold decodeMajor35
  rw [h4_22]
  show (some (Instr.sshri (field 6 16 x) (field 6 10 x) (field 10 0 x)) : Option Instr) = _
  exact (by rw [field_eq 16 x d (by rw [hx]; omega), field_eq 10 x a (by rw [hx]; omega), field_eq 0 x i (by rw [hx]; omega)])
theorem ssrai (d : BitVec 6) (a : BitVec 6) (i : BitVec 10) : Statement (.ssrai d a i) := by
  intro ok; suffices H : ∀ x, encodeWord (.ssrai d a i) = some x → decodeWord x = some (.ssrai d a i) from ⟨_, rfl, H _ rfl⟩
  intro x e; have e := Option.some.inj (show some (BitVec.ofNat 32 (word 3581935616 [(d.toNat, 16), (a.toNat, 10), (i.toNat, 0)])) = some x from e); simp only [word] at e
  have := d.isLt; have := a.isLt; have := i.isLt
  have hx : x.toNat = 3581935616 + d.toNat * 65536 + a.toNat * 1024 + i.toNat * 1 := by rw [← e, BitVec.toNat_ofNat]; omega
  have h6_26 : num 6 26 x = 53 := by rw [num_eq, hx]; omega
  have h4_22 : num 4 22 x = 6 := by rw [num_eq, hx]; omega
  unfold decodeWord; rw [h6_26]; show decodeMajor35 x = _; unfold decodeMajor35
  rw [h4_22]
  show (some (Instr.ssrai (field 6 16 x) (field 6 10 x) (field 10 0 x)) : Option Instr) = _
  exact (by rw [field_eq 16 x d (by rw [hx]; omega), field_eq 10 x a (by rw [hx]; omega), field_eq 0 x i (by rw [hx]; omega)])
theorem slui (d : BitVec 6) (i : BitVec 10) : Statement (.slui d i) := by
  intro ok; suffices H : ∀ x, encodeWord (.slui d i) = some x → decodeWord x = some (.slui d i) from ⟨_, rfl, H _ rfl⟩
  intro x e; have e := Option.some.inj (show some (BitVec.ofNat 32 (word 3586129920 [(d.toNat, 16), (i.toNat, 0)])) = some x from e); simp only [word] at e
  have := d.isLt; have := i.isLt
  have hx : x.toNat = 3586129920 + d.toNat * 65536 + i.toNat * 1 := by rw [← e, BitVec.toNat_ofNat]; omega
  have h6_26 : num 6 26 x = 53 := by rw [num_eq, hx]; omega
  have h4_22 : num 4 22 x = 7 := by rw [num_eq, hx]; omega
  have h6_10 : num 6 10 x = 0 := by rw [num_eq, hx]; omega
  unfold decodeWord; rw [h6_26]; show decodeMajor35 x = _; unfold decodeMajor35
  rw [h4_22]
  show (if num 6 10 x = 0 then some (Instr.slui (field 6 16 x) (field 10 0 x)) else none : Option Instr) = _
  exact (if_pos h6_10).trans (by rw [field_eq 16 x d (by rw [hx]; omega), field_eq 0 x i (by rw [hx]; omega)])
theorem sld (d : BitVec 6) (a : BitVec 6) (i : BitVec 10) : Statement (.sld d a i) := by
  intro ok; suffices H : ∀ x, encodeWord (.sld d a i) = some x → decodeWord x = some (.sld d a i) from ⟨_, rfl, H _ rfl⟩
  intro x e; have e := Option.some.inj (show some (BitVec.ofNat 32 (word 3623878656 [(d.toNat, 16), (a.toNat, 10), (i.toNat, 0)])) = some x from e); simp only [word] at e
  have := d.isLt; have := a.isLt; have := i.isLt
  have hx : x.toNat = 3623878656 + d.toNat * 65536 + a.toNat * 1024 + i.toNat * 1 := by rw [← e, BitVec.toNat_ofNat]; omega
  have h6_26 : num 6 26 x = 54 := by rw [num_eq, hx]; omega
  have h4_22 : num 4 22 x = 0 := by rw [num_eq, hx]; omega
  unfold decodeWord; rw [h6_26]; show decodeMajor36 x = _; unfold decodeMajor36
  rw [h4_22]
  show (some (Instr.sld (field 6 16 x) (field 6 10 x) (field 10 0 x)) : Option Instr) = _
  exact (by rw [field_eq 16 x d (by rw [hx]; omega), field_eq 10 x a (by rw [hx]; omega), field_eq 0 x i (by rw [hx]; omega)])
theorem sst (d : BitVec 6) (a : BitVec 6) (i : BitVec 10) : Statement (.sst d a i) := by
  intro ok; suffices H : ∀ x, encodeWord (.sst d a i) = some x → decodeWord x = some (.sst d a i) from ⟨_, rfl, H _ rfl⟩
  intro x e; have e := Option.some.inj (show some (BitVec.ofNat 32 (word 3628072960 [(d.toNat, 16), (a.toNat, 10), (i.toNat, 0)])) = some x from e); simp only [word] at e
  have := d.isLt; have := a.isLt; have := i.isLt
  have hx : x.toNat = 3628072960 + d.toNat * 65536 + a.toNat * 1024 + i.toNat * 1 := by rw [← e, BitVec.toNat_ofNat]; omega
  have h6_26 : num 6 26 x = 54 := by rw [num_eq, hx]; omega
  have h4_22 : num 4 22 x = 1 := by rw [num_eq, hx]; omega
  unfold decodeWord; rw [h6_26]; show decodeMajor36 x = _; unfold decodeMajor36
  rw [h4_22]
  show (some (Instr.sst (field 6 16 x) (field 6 10 x) (field 10 0 x)) : Option Instr) = _
  exact (by rw [field_eq 16 x d (by rw [hx]; omega), field_eq 10 x a (by rw [hx]; omega), field_eq 0 x i (by rw [hx]; omega)])
theorem slds (d : BitVec 6) (a : BitVec 6) (i : BitVec 10) : Statement (.slds d a i) := by
  intro ok; suffices H : ∀ x, encodeWord (.slds d a i) = some x → decodeWord x = some (.slds d a i) from ⟨_, rfl, H _ rfl⟩
  intro x e; have e := Option.some.inj (show some (BitVec.ofNat 32 (word 3632267264 [(d.toNat, 16), (a.toNat, 10), (i.toNat, 0)])) = some x from e); simp only [word] at e
  have := d.isLt; have := a.isLt; have := i.isLt
  have hx : x.toNat = 3632267264 + d.toNat * 65536 + a.toNat * 1024 + i.toNat * 1 := by rw [← e, BitVec.toNat_ofNat]; omega
  have h6_26 : num 6 26 x = 54 := by rw [num_eq, hx]; omega
  have h4_22 : num 4 22 x = 2 := by rw [num_eq, hx]; omega
  unfold decodeWord; rw [h6_26]; show decodeMajor36 x = _; unfold decodeMajor36
  rw [h4_22]
  show (some (Instr.slds (field 6 16 x) (field 6 10 x) (field 10 0 x)) : Option Instr) = _
  exact (by rw [field_eq 16 x d (by rw [hx]; omega), field_eq 10 x a (by rw [hx]; omega), field_eq 0 x i (by rw [hx]; omega)])
theorem ssts (d : BitVec 6) (a : BitVec 6) (i : BitVec 10) : Statement (.ssts d a i) := by
  intro ok; suffices H : ∀ x, encodeWord (.ssts d a i) = some x → decodeWord x = some (.ssts d a i) from ⟨_, rfl, H _ rfl⟩
  intro x e; have e := Option.some.inj (show some (BitVec.ofNat 32 (word 3636461568 [(d.toNat, 16), (a.toNat, 10), (i.toNat, 0)])) = some x from e); simp only [word] at e
  have := d.isLt; have := a.isLt; have := i.isLt
  have hx : x.toNat = 3636461568 + d.toNat * 65536 + a.toNat * 1024 + i.toNat * 1 := by rw [← e, BitVec.toNat_ofNat]; omega
  have h6_26 : num 6 26 x = 54 := by rw [num_eq, hx]; omega
  have h4_22 : num 4 22 x = 3 := by rw [num_eq, hx]; omega
  unfold decodeWord; rw [h6_26]; show decodeMajor36 x = _; unfold decodeMajor36
  rw [h4_22]
  show (some (Instr.ssts (field 6 16 x) (field 6 10 x) (field 10 0 x)) : Option Instr) = _
  exact (by rw [field_eq 16 x d (by rw [hx]; omega), field_eq 10 x a (by rw [hx]; omega), field_eq 0 x i (by rw [hx]; omega)])
theorem sld4 (d : BitVec 6) (a : BitVec 6) (i : BitVec 10) : Statement (.sld4 d a i) := by
  intro ok; suffices H : ∀ x, encodeWord (.sld4 d a i) = some x → decodeWord x = some (.sld4 d a i) from ⟨_, rfl, H _ rfl⟩
  intro x e; have e := Option.some.inj (show some (BitVec.ofNat 32 (word 3640655872 [(d.toNat, 16), (a.toNat, 10), (i.toNat, 0)])) = some x from e); simp only [word] at e
  have := d.isLt; have := a.isLt; have := i.isLt
  have hx : x.toNat = 3640655872 + d.toNat * 65536 + a.toNat * 1024 + i.toNat * 1 := by rw [← e, BitVec.toNat_ofNat]; omega
  have h6_26 : num 6 26 x = 54 := by rw [num_eq, hx]; omega
  have h4_22 : num 4 22 x = 4 := by rw [num_eq, hx]; omega
  unfold decodeWord; rw [h6_26]; show decodeMajor36 x = _; unfold decodeMajor36
  rw [h4_22]
  show (some (Instr.sld4 (field 6 16 x) (field 6 10 x) (field 10 0 x)) : Option Instr) = _
  exact (by rw [field_eq 16 x d (by rw [hx]; omega), field_eq 10 x a (by rw [hx]; omega), field_eq 0 x i (by rw [hx]; omega)])
theorem sst4 (d : BitVec 6) (a : BitVec 6) (i : BitVec 10) : Statement (.sst4 d a i) := by
  intro ok; suffices H : ∀ x, encodeWord (.sst4 d a i) = some x → decodeWord x = some (.sst4 d a i) from ⟨_, rfl, H _ rfl⟩
  intro x e; have e := Option.some.inj (show some (BitVec.ofNat 32 (word 3644850176 [(d.toNat, 16), (a.toNat, 10), (i.toNat, 0)])) = some x from e); simp only [word] at e
  have := d.isLt; have := a.isLt; have := i.isLt
  have hx : x.toNat = 3644850176 + d.toNat * 65536 + a.toNat * 1024 + i.toNat * 1 := by rw [← e, BitVec.toNat_ofNat]; omega
  have h6_26 : num 6 26 x = 54 := by rw [num_eq, hx]; omega
  have h4_22 : num 4 22 x = 5 := by rw [num_eq, hx]; omega
  unfold decodeWord; rw [h6_26]; show decodeMajor36 x = _; unfold decodeMajor36
  rw [h4_22]
  show (some (Instr.sst4 (field 6 16 x) (field 6 10 x) (field 10 0 x)) : Option Instr) = _
  exact (by rw [field_eq 16 x d (by rw [hx]; omega), field_eq 10 x a (by rw [hx]; omega), field_eq 0 x i (by rw [hx]; omega)])
theorem slds4 (d : BitVec 6) (a : BitVec 6) (i : BitVec 10) : Statement (.slds4 d a i) := by
  intro ok; suffices H : ∀ x, encodeWord (.slds4 d a i) = some x → decodeWord x = some (.slds4 d a i) from ⟨_, rfl, H _ rfl⟩
  intro x e; have e := Option.some.inj (show some (BitVec.ofNat 32 (word 3649044480 [(d.toNat, 16), (a.toNat, 10), (i.toNat, 0)])) = some x from e); simp only [word] at e
  have := d.isLt; have := a.isLt; have := i.isLt
  have hx : x.toNat = 3649044480 + d.toNat * 65536 + a.toNat * 1024 + i.toNat * 1 := by rw [← e, BitVec.toNat_ofNat]; omega
  have h6_26 : num 6 26 x = 54 := by rw [num_eq, hx]; omega
  have h4_22 : num 4 22 x = 6 := by rw [num_eq, hx]; omega
  unfold decodeWord; rw [h6_26]; show decodeMajor36 x = _; unfold decodeMajor36
  rw [h4_22]
  show (some (Instr.slds4 (field 6 16 x) (field 6 10 x) (field 10 0 x)) : Option Instr) = _
  exact (by rw [field_eq 16 x d (by rw [hx]; omega), field_eq 10 x a (by rw [hx]; omega), field_eq 0 x i (by rw [hx]; omega)])
theorem ssts4 (d : BitVec 6) (a : BitVec 6) (i : BitVec 10) : Statement (.ssts4 d a i) := by
  intro ok; suffices H : ∀ x, encodeWord (.ssts4 d a i) = some x → decodeWord x = some (.ssts4 d a i) from ⟨_, rfl, H _ rfl⟩
  intro x e; have e := Option.some.inj (show some (BitVec.ofNat 32 (word 3653238784 [(d.toNat, 16), (a.toNat, 10), (i.toNat, 0)])) = some x from e); simp only [word] at e
  have := d.isLt; have := a.isLt; have := i.isLt
  have hx : x.toNat = 3653238784 + d.toNat * 65536 + a.toNat * 1024 + i.toNat * 1 := by rw [← e, BitVec.toNat_ofNat]; omega
  have h6_26 : num 6 26 x = 54 := by rw [num_eq, hx]; omega
  have h4_22 : num 4 22 x = 7 := by rw [num_eq, hx]; omega
  unfold decodeWord; rw [h6_26]; show decodeMajor36 x = _; unfold decodeMajor36
  rw [h4_22]
  show (some (Instr.ssts4 (field 6 16 x) (field 6 10 x) (field 10 0 x)) : Option Instr) = _
  exact (by rw [field_eq 16 x d (by rw [hx]; omega), field_eq 10 x a (by rw [hx]; omega), field_eq 0 x i (by rw [hx]; omega)])
theorem sbEq (a : BitVec 6) (b : BitVec 6) (d : BitVec 11) : Statement (.sbEq a b d) := by
  intro ok; suffices H : ∀ x, encodeWord (.sbEq a b d) = some x → decodeWord x = some (.sbEq a b d) from ⟨_, rfl, H _ rfl⟩
  intro x e; have e := Option.some.inj (show some (BitVec.ofNat 32 (word 3690987520 [(a.toNat, 17), (b.toNat, 11), (d.toNat, 0)])) = some x from e); simp only [word] at e
  have := a.isLt; have := b.isLt; have := d.isLt
  have hx : x.toNat = 3690987520 + a.toNat * 131072 + b.toNat * 2048 + d.toNat * 1 := by rw [← e, BitVec.toNat_ofNat]; omega
  have h6_26 : num 6 26 x = 55 := by rw [num_eq, hx]; omega
  have h3_23 : num 3 23 x = 0 := by rw [num_eq, hx]; omega
  unfold decodeWord; rw [h6_26]; show decodeMajor37 x = _; unfold decodeMajor37
  rw [h3_23]
  show (some (Instr.sbEq (field 6 17 x) (field 6 11 x) (field 11 0 x)) : Option Instr) = _
  exact (by rw [field_eq 17 x a (by rw [hx]; omega), field_eq 11 x b (by rw [hx]; omega), field_eq 0 x d (by rw [hx]; omega)])
theorem sbNe (a : BitVec 6) (b : BitVec 6) (d : BitVec 11) : Statement (.sbNe a b d) := by
  intro ok; suffices H : ∀ x, encodeWord (.sbNe a b d) = some x → decodeWord x = some (.sbNe a b d) from ⟨_, rfl, H _ rfl⟩
  intro x e; have e := Option.some.inj (show some (BitVec.ofNat 32 (word 3699376128 [(a.toNat, 17), (b.toNat, 11), (d.toNat, 0)])) = some x from e); simp only [word] at e
  have := a.isLt; have := b.isLt; have := d.isLt
  have hx : x.toNat = 3699376128 + a.toNat * 131072 + b.toNat * 2048 + d.toNat * 1 := by rw [← e, BitVec.toNat_ofNat]; omega
  have h6_26 : num 6 26 x = 55 := by rw [num_eq, hx]; omega
  have h3_23 : num 3 23 x = 1 := by rw [num_eq, hx]; omega
  unfold decodeWord; rw [h6_26]; show decodeMajor37 x = _; unfold decodeMajor37
  rw [h3_23]
  show (some (Instr.sbNe (field 6 17 x) (field 6 11 x) (field 11 0 x)) : Option Instr) = _
  exact (by rw [field_eq 17 x a (by rw [hx]; omega), field_eq 11 x b (by rw [hx]; omega), field_eq 0 x d (by rw [hx]; omega)])
theorem sbLt (a : BitVec 6) (b : BitVec 6) (d : BitVec 11) : Statement (.sbLt a b d) := by
  intro ok; suffices H : ∀ x, encodeWord (.sbLt a b d) = some x → decodeWord x = some (.sbLt a b d) from ⟨_, rfl, H _ rfl⟩
  intro x e; have e := Option.some.inj (show some (BitVec.ofNat 32 (word 3707764736 [(a.toNat, 17), (b.toNat, 11), (d.toNat, 0)])) = some x from e); simp only [word] at e
  have := a.isLt; have := b.isLt; have := d.isLt
  have hx : x.toNat = 3707764736 + a.toNat * 131072 + b.toNat * 2048 + d.toNat * 1 := by rw [← e, BitVec.toNat_ofNat]; omega
  have h6_26 : num 6 26 x = 55 := by rw [num_eq, hx]; omega
  have h3_23 : num 3 23 x = 2 := by rw [num_eq, hx]; omega
  unfold decodeWord; rw [h6_26]; show decodeMajor37 x = _; unfold decodeMajor37
  rw [h3_23]
  show (some (Instr.sbLt (field 6 17 x) (field 6 11 x) (field 11 0 x)) : Option Instr) = _
  exact (by rw [field_eq 17 x a (by rw [hx]; omega), field_eq 11 x b (by rw [hx]; omega), field_eq 0 x d (by rw [hx]; omega)])
theorem sbGe (a : BitVec 6) (b : BitVec 6) (d : BitVec 11) : Statement (.sbGe a b d) := by
  intro ok; suffices H : ∀ x, encodeWord (.sbGe a b d) = some x → decodeWord x = some (.sbGe a b d) from ⟨_, rfl, H _ rfl⟩
  intro x e; have e := Option.some.inj (show some (BitVec.ofNat 32 (word 3716153344 [(a.toNat, 17), (b.toNat, 11), (d.toNat, 0)])) = some x from e); simp only [word] at e
  have := a.isLt; have := b.isLt; have := d.isLt
  have hx : x.toNat = 3716153344 + a.toNat * 131072 + b.toNat * 2048 + d.toNat * 1 := by rw [← e, BitVec.toNat_ofNat]; omega
  have h6_26 : num 6 26 x = 55 := by rw [num_eq, hx]; omega
  have h3_23 : num 3 23 x = 3 := by rw [num_eq, hx]; omega
  unfold decodeWord; rw [h6_26]; show decodeMajor37 x = _; unfold decodeMajor37
  rw [h3_23]
  show (some (Instr.sbGe (field 6 17 x) (field 6 11 x) (field 11 0 x)) : Option Instr) = _
  exact (by rw [field_eq 17 x a (by rw [hx]; omega), field_eq 11 x b (by rw [hx]; omega), field_eq 0 x d (by rw [hx]; omega)])
theorem sbLtu (a : BitVec 6) (b : BitVec 6) (d : BitVec 11) : Statement (.sbLtu a b d) := by
  intro ok; suffices H : ∀ x, encodeWord (.sbLtu a b d) = some x → decodeWord x = some (.sbLtu a b d) from ⟨_, rfl, H _ rfl⟩
  intro x e; have e := Option.some.inj (show some (BitVec.ofNat 32 (word 3724541952 [(a.toNat, 17), (b.toNat, 11), (d.toNat, 0)])) = some x from e); simp only [word] at e
  have := a.isLt; have := b.isLt; have := d.isLt
  have hx : x.toNat = 3724541952 + a.toNat * 131072 + b.toNat * 2048 + d.toNat * 1 := by rw [← e, BitVec.toNat_ofNat]; omega
  have h6_26 : num 6 26 x = 55 := by rw [num_eq, hx]; omega
  have h3_23 : num 3 23 x = 4 := by rw [num_eq, hx]; omega
  unfold decodeWord; rw [h6_26]; show decodeMajor37 x = _; unfold decodeMajor37
  rw [h3_23]
  show (some (Instr.sbLtu (field 6 17 x) (field 6 11 x) (field 11 0 x)) : Option Instr) = _
  exact (by rw [field_eq 17 x a (by rw [hx]; omega), field_eq 11 x b (by rw [hx]; omega), field_eq 0 x d (by rw [hx]; omega)])
theorem sbGeu (a : BitVec 6) (b : BitVec 6) (d : BitVec 11) : Statement (.sbGeu a b d) := by
  intro ok; suffices H : ∀ x, encodeWord (.sbGeu a b d) = some x → decodeWord x = some (.sbGeu a b d) from ⟨_, rfl, H _ rfl⟩
  intro x e; have e := Option.some.inj (show some (BitVec.ofNat 32 (word 3732930560 [(a.toNat, 17), (b.toNat, 11), (d.toNat, 0)])) = some x from e); simp only [word] at e
  have := a.isLt; have := b.isLt; have := d.isLt
  have hx : x.toNat = 3732930560 + a.toNat * 131072 + b.toNat * 2048 + d.toNat * 1 := by rw [← e, BitVec.toNat_ofNat]; omega
  have h6_26 : num 6 26 x = 55 := by rw [num_eq, hx]; omega
  have h3_23 : num 3 23 x = 5 := by rw [num_eq, hx]; omega
  unfold decodeWord; rw [h6_26]; show decodeMajor37 x = _; unfold decodeMajor37
  rw [h3_23]
  show (some (Instr.sbGeu (field 6 17 x) (field 6 11 x) (field 11 0 x)) : Option Instr) = _
  exact (by rw [field_eq 17 x a (by rw [hx]; omega), field_eq 11 x b (by rw [hx]; omega), field_eq 0 x d (by rw [hx]; omega)])
theorem sj (d : BitVec 11) : Statement (.sj d) := by
  intro ok; suffices H : ∀ x, encodeWord (.sj d) = some x → decodeWord x = some (.sj d) from ⟨_, rfl, H _ rfl⟩
  intro x e; have e := Option.some.inj (show some (BitVec.ofNat 32 (word 3749707776 [(d.toNat, 0)])) = some x from e); simp only [word] at e
  have := d.isLt
  have hx : x.toNat = 3749707776 + d.toNat * 1 := by rw [← e, BitVec.toNat_ofNat]; omega
  have h6_26 : num 6 26 x = 55 := by rw [num_eq, hx]; omega
  have h3_23 : num 3 23 x = 7 := by rw [num_eq, hx]; omega
  have h6_11 : num 6 11 x = 0 := by rw [num_eq, hx]; omega
  have h6_17 : num 6 17 x = 0 := by rw [num_eq, hx]; omega
  unfold decodeWord; rw [h6_26]; show decodeMajor37 x = _; unfold decodeMajor37
  rw [h3_23]
  rw [h6_11]
  show (if num 6 17 x = 0 then some (Instr.sj (field 11 0 x)) else none : Option Instr) = _
  exact (if_pos h6_17).trans (by rw [field_eq 0 x d (by rw [hx]; omega)])
theorem scall (a : BitVec 6) (d : BitVec 11) : Statement (.scall a d) := by
  intro ok; suffices H : ∀ x, encodeWord (.scall a d) = some x → decodeWord x = some (.scall a d) from ⟨_, rfl, H _ rfl⟩
  intro x e; have e := Option.some.inj (show some (BitVec.ofNat 32 (word 3749709824 [(a.toNat, 17), (d.toNat, 0)])) = some x from e); simp only [word] at e
  have := a.isLt; have := d.isLt
  have hx : x.toNat = 3749709824 + a.toNat * 131072 + d.toNat * 1 := by rw [← e, BitVec.toNat_ofNat]; omega
  have h6_26 : num 6 26 x = 55 := by rw [num_eq, hx]; omega
  have h3_23 : num 3 23 x = 7 := by rw [num_eq, hx]; omega
  have h6_11 : num 6 11 x = 1 := by rw [num_eq, hx]; omega
  unfold decodeWord; rw [h6_26]; show decodeMajor37 x = _; unfold decodeMajor37
  rw [h3_23]
  rw [h6_11]
  show (some (Instr.scall (field 6 17 x) (field 11 0 x)) : Option Instr) = _
  exact (by rw [field_eq 17 x a (by rw [hx]; omega), field_eq 0 x d (by rw [hx]; omega)])
theorem sret (a : BitVec 6) : Statement (.sret a) := by
  intro ok; suffices H : ∀ x, encodeWord (.sret a) = some x → decodeWord x = some (.sret a) from ⟨_, rfl, H _ rfl⟩
  intro x e; have e := Option.some.inj (show some (BitVec.ofNat 32 (word 3749711872 [(a.toNat, 17)])) = some x from e); simp only [word] at e
  have := a.isLt
  have hx : x.toNat = 3749711872 + a.toNat * 131072 := by rw [← e, BitVec.toNat_ofNat]; omega
  have h6_26 : num 6 26 x = 55 := by rw [num_eq, hx]; omega
  have h3_23 : num 3 23 x = 7 := by rw [num_eq, hx]; omega
  have h6_11 : num 6 11 x = 2 := by rw [num_eq, hx]; omega
  have h11_0 : num 11 0 x = 0 := by rw [num_eq, hx]; omega
  unfold decodeWord; rw [h6_26]; show decodeMajor37 x = _; unfold decodeMajor37
  rw [h3_23]
  rw [h6_11]
  show (if num 11 0 x = 0 then some (Instr.sret (field 6 17 x)) else none : Option Instr) = _
  exact (if_pos h11_0).trans (by rw [field_eq 17 x a (by rw [hx]; omega)])
theorem sjr (a : BitVec 6) (d : BitVec 11) : Statement (.sjr a d) := by
  intro ok; suffices H : ∀ x, encodeWord (.sjr a d) = some x → decodeWord x = some (.sjr a d) from ⟨_, rfl, H _ rfl⟩
  intro x e; have e := Option.some.inj (show some (BitVec.ofNat 32 (word 3749713920 [(a.toNat, 17), (d.toNat, 0)])) = some x from e); simp only [word] at e
  have := a.isLt; have := d.isLt
  have hx : x.toNat = 3749713920 + a.toNat * 131072 + d.toNat * 1 := by rw [← e, BitVec.toNat_ofNat]; omega
  have h6_26 : num 6 26 x = 55 := by rw [num_eq, hx]; omega
  have h3_23 : num 3 23 x = 7 := by rw [num_eq, hx]; omega
  have h6_11 : num 6 11 x = 3 := by rw [num_eq, hx]; omega
  unfold decodeWord; rw [h6_26]; show decodeMajor37 x = _; unfold decodeMajor37
  rw [h3_23]
  rw [h6_11]
  show (some (Instr.sjr (field 6 17 x) (field 11 0 x)) : Option Instr) = _
  exact (by rw [field_eq 17 x a (by rw [hx]; omega), field_eq 0 x d (by rw [hx]; omega)])
theorem dqpush (a : BitVec 6) : Statement (.dqpush a) := by
  intro ok; suffices H : ∀ x, encodeWord (.dqpush a) = some x → decodeWord x = some (.dqpush a) from ⟨_, rfl, H _ rfl⟩
  intro x e; have e := Option.some.inj (show some (BitVec.ofNat 32 (word 3758096384 [(a.toNat, 8)])) = some x from e); simp only [word] at e
  have := a.isLt
  have hx : x.toNat = 3758096384 + a.toNat * 256 := by rw [← e, BitVec.toNat_ofNat]; omega
  have h6_26 : num 6 26 x = 56 := by rw [num_eq, hx]; omega
  have h6_20 : num 6 20 x = 0 := by rw [num_eq, hx]; omega
  have h6_14 : num 6 14 x = 0 := by rw [num_eq, hx]; omega
  have h8_0 : num 8 0 x = 0 := by rw [num_eq, hx]; omega
  unfold decodeWord; rw [h6_26]; show decodeMajor38 x = _; unfold decodeMajor38
  rw [h6_20]
  show (if num 6 14 x = 0 ∧ num 8 0 x = 0 then some (Instr.dqpush (field 6 8 x)) else none : Option Instr) = _
  exact (if_pos ⟨h6_14, h8_0⟩).trans (by rw [field_eq 8 x a (by rw [hx]; omega)])
theorem tapePush (a : BitVec 6) : Statement (.tapePush a) := by
  intro ok; suffices H : ∀ x, encodeWord (.tapePush a) = some x → decodeWord x = some (.tapePush a) from ⟨_, rfl, H _ rfl⟩
  intro x e; have e := Option.some.inj (show some (BitVec.ofNat 32 (word 3759144960 [(a.toNat, 8)])) = some x from e); simp only [word] at e
  have := a.isLt
  have hx : x.toNat = 3759144960 + a.toNat * 256 := by rw [← e, BitVec.toNat_ofNat]; omega
  have h6_26 : num 6 26 x = 56 := by rw [num_eq, hx]; omega
  have h6_20 : num 6 20 x = 1 := by rw [num_eq, hx]; omega
  have h6_14 : num 6 14 x = 0 := by rw [num_eq, hx]; omega
  have h8_0 : num 8 0 x = 0 := by rw [num_eq, hx]; omega
  unfold decodeWord; rw [h6_26]; show decodeMajor38 x = _; unfold decodeMajor38
  rw [h6_20]
  show (if num 6 14 x = 0 ∧ num 8 0 x = 0 then some (Instr.tapePush (field 6 8 x)) else none : Option Instr) = _
  exact (if_pos ⟨h6_14, h8_0⟩).trans (by rw [field_eq 8 x a (by rw [hx]; omega)])
theorem qsignal (c : BitVec 3) (o : BitVec 1) (a : BitVec 6) (b : BitVec 6) : Statement (.qsignal c o a b) := by
  intro ok; suffices H : ∀ x, encodeWord (.qsignal c o a b) = some x → decodeWord x = some (.qsignal c o a b) from ⟨_, rfl, H _ rfl⟩
  intro x e; have e := Option.some.inj (show some (BitVec.ofNat 32 (word 3760193536 [(c.toNat, 15), (o.toNat, 14), (a.toNat, 8), (b.toNat, 2)])) = some x from e); simp only [word] at e
  have := c.isLt; have := o.isLt; have := a.isLt; have := b.isLt
  have hx : x.toNat = 3760193536 + c.toNat * 32768 + o.toNat * 16384 + a.toNat * 256 + b.toNat * 4 := by rw [← e, BitVec.toNat_ofNat]; omega
  have h6_26 : num 6 26 x = 56 := by rw [num_eq, hx]; omega
  have h6_20 : num 6 20 x = 2 := by rw [num_eq, hx]; omega
  have h2_18 : num 2 18 x = 0 := by rw [num_eq, hx]; omega
  have h2_0 : num 2 0 x = 0 := by rw [num_eq, hx]; omega
  unfold decodeWord; rw [h6_26]; show decodeMajor38 x = _; unfold decodeMajor38
  rw [h6_20]
  show (if num 2 18 x = 0 ∧ num 2 0 x = 0 then some (Instr.qsignal (field 3 15 x) (field 1 14 x) (field 6 8 x) (field 6 2 x)) else none : Option Instr) = _
  exact (if_pos ⟨h2_18, h2_0⟩).trans (by rw [field_eq 15 x c (by rw [hx]; omega), field_eq 14 x o (by rw [hx]; omega), field_eq 8 x a (by rw [hx]; omega), field_eq 2 x b (by rw [hx]; omega)])
theorem stime (d : BitVec 6) : Statement (.stime d) := by
  intro ok; suffices H : ∀ x, encodeWord (.stime d) = some x → decodeWord x = some (.stime d) from ⟨_, rfl, H _ rfl⟩
  intro x e; have e := Option.some.inj (show some (BitVec.ofNat 32 (word 3761242112 [(d.toNat, 14)])) = some x from e); simp only [word] at e
  have := d.isLt
  have hx : x.toNat = 3761242112 + d.toNat * 16384 := by rw [← e, BitVec.toNat_ofNat]; omega
  have h6_26 : num 6 26 x = 56 := by rw [num_eq, hx]; omega
  have h6_20 : num 6 20 x = 3 := by rw [num_eq, hx]; omega
  have h14_0 : num 14 0 x = 0 := by rw [num_eq, hx]; omega
  unfold decodeWord; rw [h6_26]; show decodeMajor38 x = _; unfold decodeMajor38
  rw [h6_20]
  show (if num 14 0 x = 0 then some (Instr.stime (field 6 14 x)) else none : Option Instr) = _
  exact (if_pos h14_0).trans (by rw [field_eq 14 x d (by rw [hx]; omega)])
theorem swtime (a : BitVec 6) : Statement (.swtime a) := by
  intro ok; suffices H : ∀ x, encodeWord (.swtime a) = some x → decodeWord x = some (.swtime a) from ⟨_, rfl, H _ rfl⟩
  intro x e; have e := Option.some.inj (show some (BitVec.ofNat 32 (word 3762290688 [(a.toNat, 8)])) = some x from e); simp only [word] at e
  have := a.isLt
  have hx : x.toNat = 3762290688 + a.toNat * 256 := by rw [← e, BitVec.toNat_ofNat]; omega
  have h6_26 : num 6 26 x = 56 := by rw [num_eq, hx]; omega
  have h6_20 : num 6 20 x = 4 := by rw [num_eq, hx]; omega
  have h6_14 : num 6 14 x = 0 := by rw [num_eq, hx]; omega
  have h8_0 : num 8 0 x = 0 := by rw [num_eq, hx]; omega
  unfold decodeWord; rw [h6_26]; show decodeMajor38 x = _; unfold decodeMajor38
  rw [h6_20]
  show (if num 6 14 x = 0 ∧ num 8 0 x = 0 then some (Instr.swtime (field 6 8 x)) else none : Option Instr) = _
  exact (if_pos ⟨h6_14, h8_0⟩).trans (by rw [field_eq 8 x a (by rw [hx]; omega)])
theorem sbar (n : BitVec 4) (h : BitVec 6) (l : BitVec 6) : Statement (.sbar n h l) := by
  intro ok; suffices H : ∀ x, encodeWord (.sbar n h l) = some x → decodeWord x = some (.sbar n h l) from ⟨_, rfl, H _ rfl⟩
  intro x e; have e := Option.some.inj (show some (BitVec.ofNat 32 (word 3763339264 [(n.toNat, 14), (h.toNat, 8), (l.toNat, 2)])) = some x from e); simp only [word] at e
  have := n.isLt; have := h.isLt; have := l.isLt
  have hx : x.toNat = 3763339264 + n.toNat * 16384 + h.toNat * 256 + l.toNat * 4 := by rw [← e, BitVec.toNat_ofNat]; omega
  have h6_26 : num 6 26 x = 56 := by rw [num_eq, hx]; omega
  have h6_20 : num 6 20 x = 5 := by rw [num_eq, hx]; omega
  have h2_18 : num 2 18 x = 0 := by rw [num_eq, hx]; omega
  have h2_0 : num 2 0 x = 0 := by rw [num_eq, hx]; omega
  unfold decodeWord; rw [h6_26]; show decodeMajor38 x = _; unfold decodeMajor38
  rw [h6_20]
  show (if num 2 18 x = 0 ∧ num 2 0 x = 0 then some (Instr.sbar (field 4 14 x) (field 6 8 x) (field 6 2 x)) else none : Option Instr) = _
  exact (if_pos ⟨h2_18, h2_0⟩).trans (by rw [field_eq 14 x n (by rw [hx]; omega), field_eq 8 x h (by rw [hx]; omega), field_eq 2 x l (by rw [hx]; omega)])
theorem ssysr (d : BitVec 6) (h : BitVec 6) (l : BitVec 6) : Statement (.ssysr d h l) := by
  intro ok; suffices H : ∀ x, encodeWord (.ssysr d h l) = some x → decodeWord x = some (.ssysr d h l) from ⟨_, rfl, H _ rfl⟩
  intro x e; have e := Option.some.inj (show some (BitVec.ofNat 32 (word 3765436416 [(d.toNat, 14), (h.toNat, 8), (l.toNat, 2)])) = some x from e); simp only [word] at e
  have := d.isLt; have := h.isLt; have := l.isLt
  have hx : x.toNat = 3765436416 + d.toNat * 16384 + h.toNat * 256 + l.toNat * 4 := by rw [← e, BitVec.toNat_ofNat]; omega
  have h6_26 : num 6 26 x = 56 := by rw [num_eq, hx]; omega
  have h6_20 : num 6 20 x = 7 := by rw [num_eq, hx]; omega
  have h2_0 : num 2 0 x = 0 := by rw [num_eq, hx]; omega
  unfold decodeWord; rw [h6_26]; show decodeMajor38 x = _; unfold decodeMajor38
  rw [h6_20]
  show (if num 2 0 x = 0 then some (Instr.ssysr (field 6 14 x) (field 6 8 x) (field 6 2 x)) else none : Option Instr) = _
  exact (if_pos h2_0).trans (by rw [field_eq 14 x d (by rw [hx]; omega), field_eq 8 x h (by rw [hx]; omega), field_eq 2 x l (by rw [hx]; omega)])
theorem ssysw (d : BitVec 6) (h : BitVec 6) (l : BitVec 6) : Statement (.ssysw d h l) := by
  intro ok; suffices H : ∀ x, encodeWord (.ssysw d h l) = some x → decodeWord x = some (.ssysw d h l) from ⟨_, rfl, H _ rfl⟩
  intro x e; have e := Option.some.inj (show some (BitVec.ofNat 32 (word 3766484992 [(d.toNat, 14), (h.toNat, 8), (l.toNat, 2)])) = some x from e); simp only [word] at e
  have := d.isLt; have := h.isLt; have := l.isLt
  have hx : x.toNat = 3766484992 + d.toNat * 16384 + h.toNat * 256 + l.toNat * 4 := by rw [← e, BitVec.toNat_ofNat]; omega
  have h6_26 : num 6 26 x = 56 := by rw [num_eq, hx]; omega
  have h6_20 : num 6 20 x = 8 := by rw [num_eq, hx]; omega
  have h2_0 : num 2 0 x = 0 := by rw [num_eq, hx]; omega
  unfold decodeWord; rw [h6_26]; show decodeMajor38 x = _; unfold decodeMajor38
  rw [h6_20]
  show (if num 2 0 x = 0 then some (Instr.ssysw (field 6 14 x) (field 6 8 x) (field 6 2 x)) else none : Option Instr) = _
  exact (if_pos h2_0).trans (by rw [field_eq 14 x d (by rw [hx]; omega), field_eq 8 x h (by rw [hx]; omega), field_eq 2 x l (by rw [hx]; omega)])
theorem sramcfg (m : BitVec 4) (a : BitVec 6) : Statement (.sramcfg m a) := by
  intro ok; suffices H : ∀ x, encodeWord (.sramcfg m a) = some x → decodeWord x = some (.sramcfg m a) from ⟨_, rfl, H _ rfl⟩
  intro x e; have e := Option.some.inj (show some (BitVec.ofNat 32 (word 3767533568 [(m.toNat, 14), (a.toNat, 8)])) = some x from e); simp only [word] at e
  have := m.isLt; have := a.isLt
  have hx : x.toNat = 3767533568 + m.toNat * 16384 + a.toNat * 256 := by rw [← e, BitVec.toNat_ofNat]; omega
  have h6_26 : num 6 26 x = 56 := by rw [num_eq, hx]; omega
  have h6_20 : num 6 20 x = 9 := by rw [num_eq, hx]; omega
  have h2_18 : num 2 18 x = 0 := by rw [num_eq, hx]; omega
  have h8_0 : num 8 0 x = 0 := by rw [num_eq, hx]; omega
  unfold decodeWord; rw [h6_26]; show decodeMajor38 x = _; unfold decodeMajor38
  rw [h6_20]
  show (if num 2 18 x = 0 ∧ num 8 0 x = 0 then some (Instr.sramcfg (field 4 14 x) (field 6 8 x)) else none : Option Instr) = _
  exact (if_pos ⟨h2_18, h8_0⟩).trans (by rw [field_eq 14 x m (by rw [hx]; omega), field_eq 8 x a (by rw [hx]; omega)])
theorem sfence (c : BitVec 3) (p : BitVec 4) (s : BitVec 4) : Statement (.sfence c p s) := by
  intro ok; suffices H : ∀ x, encodeWord (.sfence c p s) = some x → decodeWord x = some (.sfence c p s) from ⟨_, rfl, H _ rfl⟩
  intro x e; have e := Option.some.inj (show some (BitVec.ofNat 32 (word 3768582144 [(c.toNat, 14), (p.toNat, 8), (s.toNat, 2)])) = some x from e); simp only [word] at e
  have := c.isLt; have := p.isLt; have := s.isLt
  have hx : x.toNat = 3768582144 + c.toNat * 16384 + p.toNat * 256 + s.toNat * 4 := by rw [← e, BitVec.toNat_ofNat]; omega
  have h6_26 : num 6 26 x = 56 := by rw [num_eq, hx]; omega
  have h6_20 : num 6 20 x = 10 := by rw [num_eq, hx]; omega
  have h3_17 : num 3 17 x = 0 := by rw [num_eq, hx]; omega
  have h2_12 : num 2 12 x = 0 := by rw [num_eq, hx]; omega
  have h2_6 : num 2 6 x = 0 := by rw [num_eq, hx]; omega
  have h2_0 : num 2 0 x = 0 := by rw [num_eq, hx]; omega
  unfold decodeWord; rw [h6_26]; show decodeMajor38 x = _; unfold decodeMajor38
  rw [h6_20]
  show (if num 3 17 x = 0 ∧ num 2 12 x = 0 ∧ num 2 6 x = 0 ∧ num 2 0 x = 0 then some (Instr.sfence (field 3 14 x) (field 4 8 x) (field 4 2 x)) else none : Option Instr) = _
  exact (if_pos ⟨h3_17, h2_12, h2_6, h2_0⟩).trans (by rw [field_eq 14 x c (by rw [hx]; omega), field_eq 8 x p (by rw [hx]; omega), field_eq 2 x s (by rw [hx]; omega)])
theorem mcfg (a : BitVec 6) : Statement (.mcfg a) := by
  intro ok; suffices H : ∀ x, encodeWord (.mcfg a) = some x → decodeWord x = some (.mcfg a) from ⟨_, rfl, H _ rfl⟩
  intro x e; have e := Option.some.inj (show some (BitVec.ofNat 32 (word 3825205248 [(a.toNat, 8)])) = some x from e); simp only [word] at e
  have := a.isLt
  have hx : x.toNat = 3825205248 + a.toNat * 256 := by rw [← e, BitVec.toNat_ofNat]; omega
  have h6_26 : num 6 26 x = 57 := by rw [num_eq, hx]; omega
  have h6_20 : num 6 20 x = 0 := by rw [num_eq, hx]; omega
  have h6_14 : num 6 14 x = 0 := by rw [num_eq, hx]; omega
  have h8_0 : num 8 0 x = 0 := by rw [num_eq, hx]; omega
  unfold decodeWord; rw [h6_26]; show decodeMajor39 x = _; unfold decodeMajor39
  rw [h6_20]
  show (if num 6 14 x = 0 ∧ num 8 0 x = 0 then some (Instr.mcfg (field 6 8 x)) else none : Option Instr) = _
  exact (if_pos ⟨h6_14, h8_0⟩).trans (by rw [field_eq 8 x a (by rw [hx]; omega)])
theorem mcb (a : BitVec 6) (b : BitVec 6) : Statement (.mcb a b) := by
  intro ok; suffices H : ∀ x, encodeWord (.mcb a b) = some x → decodeWord x = some (.mcb a b) from ⟨_, rfl, H _ rfl⟩
  intro x e; have e := Option.some.inj (show some (BitVec.ofNat 32 (word 3826253824 [(a.toNat, 8), (b.toNat, 2)])) = some x from e); simp only [word] at e
  have := a.isLt; have := b.isLt
  have hx : x.toNat = 3826253824 + a.toNat * 256 + b.toNat * 4 := by rw [← e, BitVec.toNat_ofNat]; omega
  have h6_26 : num 6 26 x = 57 := by rw [num_eq, hx]; omega
  have h6_20 : num 6 20 x = 1 := by rw [num_eq, hx]; omega
  have h6_14 : num 6 14 x = 0 := by rw [num_eq, hx]; omega
  have h2_0 : num 2 0 x = 0 := by rw [num_eq, hx]; omega
  unfold decodeWord; rw [h6_26]; show decodeMajor39 x = _; unfold decodeMajor39
  rw [h6_20]
  show (if num 6 14 x = 0 ∧ num 2 0 x = 0 then some (Instr.mcb (field 6 8 x) (field 6 2 x)) else none : Option Instr) = _
  exact (if_pos ⟨h6_14, h2_0⟩).trans (by rw [field_eq 8 x a (by rw [hx]; omega), field_eq 2 x b (by rw [hx]; omega)])
theorem mldb (k : BitVec 1) (a : BitVec 6) : Statement (.mldb k a) := by
  intro ok; suffices H : ∀ x, encodeWord (.mldb k a) = some x → decodeWord x = some (.mldb k a) from ⟨_, rfl, H _ rfl⟩
  intro x e; have e := Option.some.inj (show some (BitVec.ofNat 32 (word 3827302400 [(k.toNat, 14), (a.toNat, 8)])) = some x from e); simp only [word] at e
  have := k.isLt; have := a.isLt
  have hx : x.toNat = 3827302400 + k.toNat * 16384 + a.toNat * 256 := by rw [← e, BitVec.toNat_ofNat]; omega
  have h6_26 : num 6 26 x = 57 := by rw [num_eq, hx]; omega
  have h6_20 : num 6 20 x = 2 := by rw [num_eq, hx]; omega
  have h5_15 : num 5 15 x = 0 := by rw [num_eq, hx]; omega
  have h8_0 : num 8 0 x = 0 := by rw [num_eq, hx]; omega
  unfold decodeWord; rw [h6_26]; show decodeMajor39 x = _; unfold decodeMajor39
  rw [h6_20]
  show (if num 5 15 x = 0 ∧ num 8 0 x = 0 then some (Instr.mldb (field 1 14 x) (field 6 8 x)) else none : Option Instr) = _
  exact (if_pos ⟨h5_15, h8_0⟩).trans (by rw [field_eq 14 x k (by rw [hx]; omega), field_eq 8 x a (by rw [hx]; omega)])
theorem mma (n : BitVec 5) (a : BitVec 6) (b : BitVec 6) : Statement (.mma n a b) := by
  intro ok; suffices H : ∀ x, encodeWord (.mma n a b) = some x → decodeWord x = some (.mma n a b) from ⟨_, rfl, H _ rfl⟩
  intro x e; have e := Option.some.inj (show some (BitVec.ofNat 32 (word 3828350976 [(n.toNat, 14), (a.toNat, 8), (b.toNat, 2)])) = some x from e); simp only [word] at e
  have := n.isLt; have := a.isLt; have := b.isLt
  have hx : x.toNat = 3828350976 + n.toNat * 16384 + a.toNat * 256 + b.toNat * 4 := by rw [← e, BitVec.toNat_ofNat]; omega
  have h6_26 : num 6 26 x = 57 := by rw [num_eq, hx]; omega
  have h6_20 : num 6 20 x = 3 := by rw [num_eq, hx]; omega
  have h1_19 : num 1 19 x = 0 := by rw [num_eq, hx]; omega
  have h2_0 : num 2 0 x = 0 := by rw [num_eq, hx]; omega
  unfold decodeWord; rw [h6_26]; show decodeMajor39 x = _; unfold decodeMajor39
  rw [h6_20]
  show (if num 1 19 x = 0 ∧ num 2 0 x = 0 then some (Instr.mma (field 5 14 x) (field 6 8 x) (field 6 2 x)) else none : Option Instr) = _
  exact (if_pos ⟨h1_19, h2_0⟩).trans (by rw [field_eq 14 x n (by rw [hx]; omega), field_eq 8 x a (by rw [hx]; omega), field_eq 2 x b (by rw [hx]; omega)])
theorem mepi (n : BitVec 5) (a : BitVec 6) (b : BitVec 6) : Statement (.mepi n a b) := by
  intro ok; suffices H : ∀ x, encodeWord (.mepi n a b) = some x → decodeWord x = some (.mepi n a b) from ⟨_, rfl, H _ rfl⟩
  intro x e; have e := Option.some.inj (show some (BitVec.ofNat 32 (word 3829399552 [(n.toNat, 14), (a.toNat, 8), (b.toNat, 2)])) = some x from e); simp only [word] at e
  have := n.isLt; have := a.isLt; have := b.isLt
  have hx : x.toNat = 3829399552 + n.toNat * 16384 + a.toNat * 256 + b.toNat * 4 := by rw [← e, BitVec.toNat_ofNat]; omega
  have h6_26 : num 6 26 x = 57 := by rw [num_eq, hx]; omega
  have h6_20 : num 6 20 x = 4 := by rw [num_eq, hx]; omega
  have h1_19 : num 1 19 x = 0 := by rw [num_eq, hx]; omega
  have h2_0 : num 2 0 x = 0 := by rw [num_eq, hx]; omega
  unfold decodeWord; rw [h6_26]; show decodeMajor39 x = _; unfold decodeMajor39
  rw [h6_20]
  show (if num 1 19 x = 0 ∧ num 2 0 x = 0 then some (Instr.mepi (field 5 14 x) (field 6 8 x) (field 6 2 x)) else none : Option Instr) = _
  exact (if_pos ⟨h1_19, h2_0⟩).trans (by rw [field_eq 14 x n (by rw [hx]; omega), field_eq 8 x a (by rw [hx]; omega), field_eq 2 x b (by rw [hx]; omega)])
theorem mzero (n : BitVec 5) : Statement (.mzero n) := by
  intro ok; suffices H : ∀ x, encodeWord (.mzero n) = some x → decodeWord x = some (.mzero n) from ⟨_, rfl, H _ rfl⟩
  intro x e; have e := Option.some.inj (show some (BitVec.ofNat 32 (word 3831496704 [(n.toNat, 14)])) = some x from e); simp only [word] at e
  have := n.isLt
  have hx : x.toNat = 3831496704 + n.toNat * 16384 := by rw [← e, BitVec.toNat_ofNat]; omega
  have h6_26 : num 6 26 x = 57 := by rw [num_eq, hx]; omega
  have h6_20 : num 6 20 x = 6 := by rw [num_eq, hx]; omega
  have h1_19 : num 1 19 x = 0 := by rw [num_eq, hx]; omega
  have h14_0 : num 14 0 x = 0 := by rw [num_eq, hx]; omega
  unfold decodeWord; rw [h6_26]; show decodeMajor39 x = _; unfold decodeMajor39
  rw [h6_20]
  show (if num 1 19 x = 0 ∧ num 14 0 x = 0 then some (Instr.mzero (field 5 14 x)) else none : Option Instr) = _
  exact (if_pos ⟨h1_19, h14_0⟩).trans (by rw [field_eq 14 x n (by rw [hx]; omega)])
theorem mrel (n : BitVec 5) : Statement (.mrel n) := by
  intro ok; suffices H : ∀ x, encodeWord (.mrel n) = some x → decodeWord x = some (.mrel n) from ⟨_, rfl, H _ rfl⟩
  intro x e; have e := Option.some.inj (show some (BitVec.ofNat 32 (word 3832545280 [(n.toNat, 14)])) = some x from e); simp only [word] at e
  have := n.isLt
  have hx : x.toNat = 3832545280 + n.toNat * 16384 := by rw [← e, BitVec.toNat_ofNat]; omega
  have h6_26 : num 6 26 x = 57 := by rw [num_eq, hx]; omega
  have h6_20 : num 6 20 x = 7 := by rw [num_eq, hx]; omega
  have h1_19 : num 1 19 x = 0 := by rw [num_eq, hx]; omega
  have h14_0 : num 14 0 x = 0 := by rw [num_eq, hx]; omega
  unfold decodeWord; rw [h6_26]; show decodeMajor39 x = _; unfold decodeMajor39
  rw [h6_20]
  show (if num 1 19 x = 0 ∧ num 14 0 x = 0 then some (Instr.mrel (field 5 14 x)) else none : Option Instr) = _
  exact (if_pos ⟨h1_19, h14_0⟩).trans (by rw [field_eq 14 x n (by rw [hx]; omega)])
theorem slpin (n : BitVec 5) (a : BitVec 6) (b : BitVec 6) : Statement (.slpin n a b) := by
  intro ok; suffices H : ∀ x, encodeWord (.slpin n a b) = some x → decodeWord x = some (.slpin n a b) from ⟨_, rfl, H _ rfl⟩
  intro x e; have e := Option.some.inj (show some (BitVec.ofNat 32 (word 3892314112 [(n.toNat, 14), (a.toNat, 8), (b.toNat, 2)])) = some x from e); simp only [word] at e
  have := n.isLt; have := a.isLt; have := b.isLt
  have hx : x.toNat = 3892314112 + n.toNat * 16384 + a.toNat * 256 + b.toNat * 4 := by rw [← e, BitVec.toNat_ofNat]; omega
  have h6_26 : num 6 26 x = 58 := by rw [num_eq, hx]; omega
  have h6_20 : num 6 20 x = 0 := by rw [num_eq, hx]; omega
  have h1_19 : num 1 19 x = 0 := by rw [num_eq, hx]; omega
  have h2_0 : num 2 0 x = 0 := by rw [num_eq, hx]; omega
  unfold decodeWord; rw [h6_26]; show decodeMajor3A x = _; unfold decodeMajor3A
  rw [h6_20]
  show (if num 1 19 x = 0 ∧ num 2 0 x = 0 then some (Instr.slpin (field 5 14 x) (field 6 8 x) (field 6 2 x)) else none : Option Instr) = _
  exact (if_pos ⟨h1_19, h2_0⟩).trans (by rw [field_eq 14 x n (by rw [hx]; omega), field_eq 8 x a (by rw [hx]; omega), field_eq 2 x b (by rw [hx]; omega)])
theorem slunpin (n : BitVec 5) : Statement (.slunpin n) := by
  intro ok; suffices H : ∀ x, encodeWord (.slunpin n) = some x → decodeWord x = some (.slunpin n) from ⟨_, rfl, H _ rfl⟩
  intro x e; have e := Option.some.inj (show some (BitVec.ofNat 32 (word 3893362688 [(n.toNat, 14)])) = some x from e); simp only [word] at e
  have := n.isLt
  have hx : x.toNat = 3893362688 + n.toNat * 16384 := by rw [← e, BitVec.toNat_ofNat]; omega
  have h6_26 : num 6 26 x = 58 := by rw [num_eq, hx]; omega
  have h6_20 : num 6 20 x = 1 := by rw [num_eq, hx]; omega
  have h1_19 : num 1 19 x = 0 := by rw [num_eq, hx]; omega
  have h14_0 : num 14 0 x = 0 := by rw [num_eq, hx]; omega
  unfold decodeWord; rw [h6_26]; show decodeMajor3A x = _; unfold decodeMajor3A
  rw [h6_20]
  show (if num 1 19 x = 0 ∧ num 14 0 x = 0 then some (Instr.slunpin (field 5 14 x)) else none : Option Instr) = _
  exact (if_pos ⟨h1_19, h14_0⟩).trans (by rw [field_eq 14 x n (by rw [hx]; omega)])
theorem sldelta (n : BitVec 5) (a : BitVec 6) : Statement (.sldelta n a) := by
  intro ok; suffices H : ∀ x, encodeWord (.sldelta n a) = some x → decodeWord x = some (.sldelta n a) from ⟨_, rfl, H _ rfl⟩
  intro x e; have e := Option.some.inj (show some (BitVec.ofNat 32 (word 3894411264 [(n.toNat, 14), (a.toNat, 8)])) = some x from e); simp only [word] at e
  have := n.isLt; have := a.isLt
  have hx : x.toNat = 3894411264 + n.toNat * 16384 + a.toNat * 256 := by rw [← e, BitVec.toNat_ofNat]; omega
  have h6_26 : num 6 26 x = 58 := by rw [num_eq, hx]; omega
  have h6_20 : num 6 20 x = 2 := by rw [num_eq, hx]; omega
  have h1_19 : num 1 19 x = 0 := by rw [num_eq, hx]; omega
  have h8_0 : num 8 0 x = 0 := by rw [num_eq, hx]; omega
  unfold decodeWord; rw [h6_26]; show decodeMajor3A x = _; unfold decodeMajor3A
  rw [h6_20]
  show (if num 1 19 x = 0 ∧ num 8 0 x = 0 then some (Instr.sldelta (field 5 14 x) (field 6 8 x)) else none : Option Instr) = _
  exact (if_pos ⟨h1_19, h8_0⟩).trans (by rw [field_eq 14 x n (by rw [hx]; omega), field_eq 8 x a (by rw [hx]; omega)])
theorem slread (n : BitVec 5) (a : BitVec 6) (b : BitVec 6) : Statement (.slread n a b) := by
  intro ok; suffices H : ∀ x, encodeWord (.slread n a b) = some x → decodeWord x = some (.slread n a b) from ⟨_, rfl, H _ rfl⟩
  intro x e; have e := Option.some.inj (show some (BitVec.ofNat 32 (word 3895459840 [(n.toNat, 14), (a.toNat, 8), (b.toNat, 2)])) = some x from e); simp only [word] at e
  have := n.isLt; have := a.isLt; have := b.isLt
  have hx : x.toNat = 3895459840 + n.toNat * 16384 + a.toNat * 256 + b.toNat * 4 := by rw [← e, BitVec.toNat_ofNat]; omega
  have h6_26 : num 6 26 x = 58 := by rw [num_eq, hx]; omega
  have h6_20 : num 6 20 x = 3 := by rw [num_eq, hx]; omega
  have h1_19 : num 1 19 x = 0 := by rw [num_eq, hx]; omega
  have h2_0 : num 2 0 x = 0 := by rw [num_eq, hx]; omega
  unfold decodeWord; rw [h6_26]; show decodeMajor3A x = _; unfold decodeMajor3A
  rw [h6_20]
  show (if num 1 19 x = 0 ∧ num 2 0 x = 0 then some (Instr.slread (field 5 14 x) (field 6 8 x) (field 6 2 x)) else none : Option Instr) = _
  exact (if_pos ⟨h1_19, h2_0⟩).trans (by rw [field_eq 14 x n (by rw [hx]; omega), field_eq 8 x a (by rw [hx]; omega), field_eq 2 x b (by rw [hx]; omega)])
theorem slchunk (n : BitVec 5) (a : BitVec 6) (b : BitVec 6) : Statement (.slchunk n a b) := by
  intro ok; suffices H : ∀ x, encodeWord (.slchunk n a b) = some x → decodeWord x = some (.slchunk n a b) from ⟨_, rfl, H _ rfl⟩
  intro x e; have e := Option.some.inj (show some (BitVec.ofNat 32 (word 3896508416 [(n.toNat, 14), (a.toNat, 8), (b.toNat, 2)])) = some x from e); simp only [word] at e
  have := n.isLt; have := a.isLt; have := b.isLt
  have hx : x.toNat = 3896508416 + n.toNat * 16384 + a.toNat * 256 + b.toNat * 4 := by rw [← e, BitVec.toNat_ofNat]; omega
  have h6_26 : num 6 26 x = 58 := by rw [num_eq, hx]; omega
  have h6_20 : num 6 20 x = 4 := by rw [num_eq, hx]; omega
  have h1_19 : num 1 19 x = 0 := by rw [num_eq, hx]; omega
  have h2_0 : num 2 0 x = 0 := by rw [num_eq, hx]; omega
  unfold decodeWord; rw [h6_26]; show decodeMajor3A x = _; unfold decodeMajor3A
  rw [h6_20]
  show (if num 1 19 x = 0 ∧ num 2 0 x = 0 then some (Instr.slchunk (field 5 14 x) (field 6 8 x) (field 6 2 x)) else none : Option Instr) = _
  exact (if_pos ⟨h1_19, h2_0⟩).trans (by rw [field_eq 14 x n (by rw [hx]; omega), field_eq 8 x a (by rw [hx]; omega), field_eq 2 x b (by rw [hx]; omega)])
theorem slspill (n : BitVec 5) : Statement (.slspill n) := by
  intro ok; suffices H : ∀ x, encodeWord (.slspill n) = some x → decodeWord x = some (.slspill n) from ⟨_, rfl, H _ rfl⟩
  intro x e; have e := Option.some.inj (show some (BitVec.ofNat 32 (word 3897556992 [(n.toNat, 14)])) = some x from e); simp only [word] at e
  have := n.isLt
  have hx : x.toNat = 3897556992 + n.toNat * 16384 := by rw [← e, BitVec.toNat_ofNat]; omega
  have h6_26 : num 6 26 x = 58 := by rw [num_eq, hx]; omega
  have h6_20 : num 6 20 x = 5 := by rw [num_eq, hx]; omega
  have h1_19 : num 1 19 x = 0 := by rw [num_eq, hx]; omega
  have h14_0 : num 14 0 x = 0 := by rw [num_eq, hx]; omega
  unfold decodeWord; rw [h6_26]; show decodeMajor3A x = _; unfold decodeMajor3A
  rw [h6_20]
  show (if num 1 19 x = 0 ∧ num 14 0 x = 0 then some (Instr.slspill (field 5 14 x)) else none : Option Instr) = _
  exact (if_pos ⟨h1_19, h14_0⟩).trans (by rw [field_eq 14 x n (by rw [hx]; omega)])
theorem slfill (n : BitVec 5) : Statement (.slfill n) := by
  intro ok; suffices H : ∀ x, encodeWord (.slfill n) = some x → decodeWord x = some (.slfill n) from ⟨_, rfl, H _ rfl⟩
  intro x e; have e := Option.some.inj (show some (BitVec.ofNat 32 (word 3898605568 [(n.toNat, 14)])) = some x from e); simp only [word] at e
  have := n.isLt
  have hx : x.toNat = 3898605568 + n.toNat * 16384 := by rw [← e, BitVec.toNat_ofNat]; omega
  have h6_26 : num 6 26 x = 58 := by rw [num_eq, hx]; omega
  have h6_20 : num 6 20 x = 6 := by rw [num_eq, hx]; omega
  have h1_19 : num 1 19 x = 0 := by rw [num_eq, hx]; omega
  have h14_0 : num 14 0 x = 0 := by rw [num_eq, hx]; omega
  unfold decodeWord; rw [h6_26]; show decodeMajor3A x = _; unfold decodeMajor3A
  rw [h6_20]
  show (if num 1 19 x = 0 ∧ num 14 0 x = 0 then some (Instr.slfill (field 5 14 x)) else none : Option Instr) = _
  exact (if_pos ⟨h1_19, h14_0⟩).trans (by rw [field_eq 14 x n (by rw [hx]; omega)])
theorem slinfo (d : BitVec 6) (a : BitVec 6) : Statement (.slinfo d a) := by
  intro ok; suffices H : ∀ x, encodeWord (.slinfo d a) = some x → decodeWord x = some (.slinfo d a) from ⟨_, rfl, H _ rfl⟩
  intro x e; have e := Option.some.inj (show some (BitVec.ofNat 32 (word 3899654144 [(d.toNat, 14), (a.toNat, 8)])) = some x from e); simp only [word] at e
  have := d.isLt; have := a.isLt
  have hx : x.toNat = 3899654144 + d.toNat * 16384 + a.toNat * 256 := by rw [← e, BitVec.toNat_ofNat]; omega
  have h6_26 : num 6 26 x = 58 := by rw [num_eq, hx]; omega
  have h6_20 : num 6 20 x = 7 := by rw [num_eq, hx]; omega
  have h8_0 : num 8 0 x = 0 := by rw [num_eq, hx]; omega
  unfold decodeWord; rw [h6_26]; show decodeMajor3A x = _; unfold decodeMajor3A
  rw [h6_20]
  show (if num 8 0 x = 0 then some (Instr.slinfo (field 6 14 x) (field 6 8 x)) else none : Option Instr) = _
  exact (if_pos h8_0).trans (by rw [field_eq 14 x d (by rw [hx]; omega), field_eq 8 x a (by rw [hx]; omega)])
theorem schain (e0 : BitVec 6) (a : BitVec 6) : Statement (.schain e0 a) := by
  intro ok; suffices H : ∀ x, encodeWord (.schain e0 a) = some x → decodeWord x = some (.schain e0 a) from ⟨_, rfl, H _ rfl⟩
  intro x e; have e := Option.some.inj (show some (BitVec.ofNat 32 (word 3959422976 [(e0.toNat, 14), (a.toNat, 8)])) = some x from e); simp only [word] at e
  have := e0.isLt; have := a.isLt
  have hx : x.toNat = 3959422976 + e0.toNat * 16384 + a.toNat * 256 := by rw [← e, BitVec.toNat_ofNat]; omega
  have h6_26 : num 6 26 x = 59 := by rw [num_eq, hx]; omega
  have h6_20 : num 6 20 x = 0 := by rw [num_eq, hx]; omega
  have h8_0 : num 8 0 x = 0 := by rw [num_eq, hx]; omega
  unfold decodeWord; rw [h6_26]; show decodeMajor3B x = _; unfold decodeMajor3B
  rw [h6_20]
  show (if num 8 0 x = 0 then some (Instr.schain (field 6 14 x) (field 6 8 x)) else none : Option Instr) = _
  exact (if_pos h8_0).trans (by rw [field_eq 14 x e0 (by rw [hx]; omega), field_eq 8 x a (by rw [hx]; omega)])
theorem stagwaitAny (d : BitVec 6) (a : BitVec 6) (c : BitVec 1) : Statement (.stagwaitAny d a c) := by
  intro ok; suffices H : ∀ x, encodeWord (.stagwaitAny d a c) = some x → decodeWord x = some (.stagwaitAny d a c) from ⟨_, rfl, H _ rfl⟩
  intro x e; have e := Option.some.inj (show some (BitVec.ofNat 32 (word 3960471552 [(d.toNat, 14), (a.toNat, 8), (c.toNat, 2)])) = some x from e); simp only [word] at e
  have := d.isLt; have := a.isLt; have := c.isLt
  have hx : x.toNat = 3960471552 + d.toNat * 16384 + a.toNat * 256 + c.toNat * 4 := by rw [← e, BitVec.toNat_ofNat]; omega
  have h6_26 : num 6 26 x = 59 := by rw [num_eq, hx]; omega
  have h6_20 : num 6 20 x = 1 := by rw [num_eq, hx]; omega
  have h5_3 : num 5 3 x = 0 := by rw [num_eq, hx]; omega
  have h2_0 : num 2 0 x = 0 := by rw [num_eq, hx]; omega
  unfold decodeWord; rw [h6_26]; show decodeMajor3B x = _; unfold decodeMajor3B
  rw [h6_20]
  show (if num 5 3 x = 0 ∧ num 2 0 x = 0 then some (Instr.stagwaitAny (field 6 14 x) (field 6 8 x) (field 1 2 x)) else none : Option Instr) = _
  exact (if_pos ⟨h5_3, h2_0⟩).trans (by rw [field_eq 14 x d (by rw [hx]; omega), field_eq 8 x a (by rw [hx]; omega), field_eq 2 x c (by rw [hx]; omega)])
theorem stagwaitAll (d : BitVec 6) (a : BitVec 6) (c : BitVec 1) : Statement (.stagwaitAll d a c) := by
  intro ok; suffices H : ∀ x, encodeWord (.stagwaitAll d a c) = some x → decodeWord x = some (.stagwaitAll d a c) from ⟨_, rfl, H _ rfl⟩
  intro x e; have e := Option.some.inj (show some (BitVec.ofNat 32 (word 3961520128 [(d.toNat, 14), (a.toNat, 8), (c.toNat, 2)])) = some x from e); simp only [word] at e
  have := d.isLt; have := a.isLt; have := c.isLt
  have hx : x.toNat = 3961520128 + d.toNat * 16384 + a.toNat * 256 + c.toNat * 4 := by rw [← e, BitVec.toNat_ofNat]; omega
  have h6_26 : num 6 26 x = 59 := by rw [num_eq, hx]; omega
  have h6_20 : num 6 20 x = 2 := by rw [num_eq, hx]; omega
  have h5_3 : num 5 3 x = 0 := by rw [num_eq, hx]; omega
  have h2_0 : num 2 0 x = 0 := by rw [num_eq, hx]; omega
  unfold decodeWord; rw [h6_26]; show decodeMajor3B x = _; unfold decodeMajor3B
  rw [h6_20]
  show (if num 5 3 x = 0 ∧ num 2 0 x = 0 then some (Instr.stagwaitAll (field 6 14 x) (field 6 8 x) (field 1 2 x)) else none : Option Instr) = _
  exact (if_pos ⟨h5_3, h2_0⟩).trans (by rw [field_eq 14 x d (by rw [hx]; omega), field_eq 8 x a (by rw [hx]; omega), field_eq 2 x c (by rw [hx]; omega)])
theorem stagff (d : BitVec 6) (a : BitVec 6) (c : BitVec 1) : Statement (.stagff d a c) := by
  intro ok; suffices H : ∀ x, encodeWord (.stagff d a c) = some x → decodeWord x = some (.stagff d a c) from ⟨_, rfl, H _ rfl⟩
  intro x e; have e := Option.some.inj (show some (BitVec.ofNat 32 (word 3962568704 [(d.toNat, 14), (a.toNat, 8), (c.toNat, 2)])) = some x from e); simp only [word] at e
  have := d.isLt; have := a.isLt; have := c.isLt
  have hx : x.toNat = 3962568704 + d.toNat * 16384 + a.toNat * 256 + c.toNat * 4 := by rw [← e, BitVec.toNat_ofNat]; omega
  have h6_26 : num 6 26 x = 59 := by rw [num_eq, hx]; omega
  have h6_20 : num 6 20 x = 3 := by rw [num_eq, hx]; omega
  have h5_3 : num 5 3 x = 0 := by rw [num_eq, hx]; omega
  have h2_0 : num 2 0 x = 0 := by rw [num_eq, hx]; omega
  unfold decodeWord; rw [h6_26]; show decodeMajor3B x = _; unfold decodeMajor3B
  rw [h6_20]
  show (if num 5 3 x = 0 ∧ num 2 0 x = 0 then some (Instr.stagff (field 6 14 x) (field 6 8 x) (field 1 2 x)) else none : Option Instr) = _
  exact (if_pos ⟨h5_3, h2_0⟩).trans (by rw [field_eq 14 x d (by rw [hx]; omega), field_eq 8 x a (by rw [hx]; omega), field_eq 2 x c (by rw [hx]; omega)])
theorem sbcwait (d : BitVec 6) (a : BitVec 6) (k : BitVec 6) : Statement (.sbcwait d a k) := by
  intro ok; suffices H : ∀ x, encodeWord (.sbcwait d a k) = some x → decodeWord x = some (.sbcwait d a k) from ⟨_, rfl, H _ rfl⟩
  intro x e; have e := Option.some.inj (show some (BitVec.ofNat 32 (word 3963617280 [(d.toNat, 14), (a.toNat, 8), (k.toNat, 2)])) = some x from e); simp only [word] at e
  have := d.isLt; have := a.isLt; have := k.isLt
  have hx : x.toNat = 3963617280 + d.toNat * 16384 + a.toNat * 256 + k.toNat * 4 := by rw [← e, BitVec.toNat_ofNat]; omega
  have h6_26 : num 6 26 x = 59 := by rw [num_eq, hx]; omega
  have h6_20 : num 6 20 x = 4 := by rw [num_eq, hx]; omega
  have h2_0 : num 2 0 x = 0 := by rw [num_eq, hx]; omega
  unfold decodeWord; rw [h6_26]; show decodeMajor3B x = _; unfold decodeMajor3B
  rw [h6_20]
  show (if num 2 0 x = 0 then some (Instr.sbcwait (field 6 14 x) (field 6 8 x) (field 6 2 x)) else none : Option Instr) = _
  exact (if_pos h2_0).trans (by rw [field_eq 14 x d (by rw [hx]; omega), field_eq 8 x a (by rw [hx]; omega), field_eq 2 x k (by rw [hx]; omega)])
theorem sbcarm (k : BitVec 6) (a : BitVec 6) (b : BitVec 6) : Statement (.sbcarm k a b) := by
  intro ok; suffices H : ∀ x, encodeWord (.sbcarm k a b) = some x → decodeWord x = some (.sbcarm k a b) from ⟨_, rfl, H _ rfl⟩
  intro x e; have e := Option.some.inj (show some (BitVec.ofNat 32 (word 3964665856 [(k.toNat, 14), (a.toNat, 8), (b.toNat, 2)])) = some x from e); simp only [word] at e
  have := k.isLt; have := a.isLt; have := b.isLt
  have hx : x.toNat = 3964665856 + k.toNat * 16384 + a.toNat * 256 + b.toNat * 4 := by rw [← e, BitVec.toNat_ofNat]; omega
  have h6_26 : num 6 26 x = 59 := by rw [num_eq, hx]; omega
  have h6_20 : num 6 20 x = 5 := by rw [num_eq, hx]; omega
  have h2_0 : num 2 0 x = 0 := by rw [num_eq, hx]; omega
  unfold decodeWord; rw [h6_26]; show decodeMajor3B x = _; unfold decodeMajor3B
  rw [h6_20]
  show (if num 2 0 x = 0 then some (Instr.sbcarm (field 6 14 x) (field 6 8 x) (field 6 2 x)) else none : Option Instr) = _
  exact (if_pos h2_0).trans (by rw [field_eq 14 x k (by rw [hx]; omega), field_eq 8 x a (by rw [hx]; omega), field_eq 2 x b (by rw [hx]; omega)])
theorem pageWalk : Statement .pageWalk := fun h => absurd h (by decide)
theorem zeroRequest : Statement .zeroRequest := fun h => absurd h (by decide)
theorem zeroingComplete : Statement .zeroingComplete := fun h => absurd h (by decide)
theorem asidRebind : Statement .asidRebind := fun h => absurd h (by decide)
theorem asidRebindDone : Statement .asidRebindDone := fun h => absurd h (by decide)
theorem ptSync : Statement .ptSync := fun h => absurd h (by decide)
theorem ptSyncRetire : Statement .ptSyncRetire := fun h => absurd h (by decide)
theorem adapterFlipReply : Statement .adapterFlipReply := fun h => absurd h (by decide)
theorem hostFlip : Statement .hostFlip := fun h => absurd h (by decide)
theorem flipHoldExpiry : Statement .flipHoldExpiry := fun h => absurd h (by decide)
theorem rdcSizeApply : Statement .rdcSizeApply := fun h => absurd h (by decide)
theorem l2Request : Statement .l2Request := fun h => absurd h (by decide)
theorem bump : Statement .bump := fun h => absurd h (by decide)
theorem ckoutGrant : Statement .ckoutGrant := fun h => absurd h (by decide)
theorem ckoutTimeout : Statement .ckoutTimeout := fun h => absurd h (by decide)
theorem engineLockGrant : Statement .engineLockGrant := fun h => absurd h (by decide)
theorem lockReplay : Statement .lockReplay := fun h => absurd h (by decide)
theorem reservationExpiry : Statement .reservationExpiry := fun h => absurd h (by decide)
theorem engineOperationComplete : Statement .engineOperationComplete := fun h => absurd h (by decide)
theorem reload : Statement .reload := fun h => absurd h (by decide)
theorem ualinkReadRequest : Statement .ualinkReadRequest := fun h => absurd h (by decide)
theorem ualinkWriteRequest : Statement .ualinkWriteRequest := fun h => absurd h (by decide)
theorem podResponse : Statement .podResponse := fun h => absurd h (by decide)
theorem fabricTimeout : Statement .fabricTimeout := fun h => absurd h (by decide)
theorem mcw : Statement .mcw := fun h => absurd h (by decide)
theorem mco : Statement .mco := fun h => absurd h (by decide)
theorem rdn : Statement .rdn := fun h => absurd h (by decide)
theorem llq : Statement .llq := fun h => absurd h (by decide)
theorem scq : Statement .scq := fun h => absurd h (by decide)
theorem ctb : Statement .ctb := fun h => absurd h (by decide)
theorem crs : Statement .crs := fun h => absurd h (by decide)
theorem spk : Statement .spk := fun h => absurd h (by decide)
theorem passToken : Statement .passToken := fun h => absurd h (by decide)
theorem rcv : Statement .rcv := fun h => absurd h (by decide)
theorem recoveryAck : Statement .recoveryAck := fun h => absurd h (by decide)
theorem badop : Statement .badop := fun h => absurd h (by decide)
theorem packetBlocked : Statement .packetBlocked := fun h => absurd h (by decide)
theorem passReissue : Statement .passReissue := fun h => absurd h (by decide)
theorem linkReplay : Statement .linkReplay := fun h => absurd h (by decide)
theorem laneSpareRetrain : Statement .laneSpareRetrain := fun h => absurd h (by decide)
theorem portDown : Statement .portDown := fun h => absurd h (by decide)
theorem uetPacket : Statement .uetPacket := fun h => absurd h (by decide)
theorem ptpSync : Statement .ptpSync := fun h => absurd h (by decide)
theorem ptpDelayResp : Statement .ptpDelayResp := fun h => absurd h (by decide)
theorem ptpSyncLoss : Statement .ptpSyncLoss := fun h => absurd h (by decide)
theorem timeTargetReached : Statement .timeTargetReached := fun h => absurd h (by decide)
theorem loadReturn : Statement .loadReturn := fun h => absurd h (by decide)
theorem gambitEntry : Statement .gambitEntry := fun h => absurd h (by decide)
theorem gambitInstructionLimit : Statement .gambitInstructionLimit := fun h => absurd h (by decide)
theorem regangTimeout : Statement .regangTimeout := fun h => absurd h (by decide)
theorem queueDb : Statement .queueDb := fun h => absurd h (by decide)
theorem queueEnable : Statement .queueEnable := fun h => absurd h (by decide)
theorem queueDisable : Statement .queueDisable := fun h => absurd h (by decide)
theorem queueReset : Statement .queueReset := fun h => absurd h (by decide)
theorem queueResume : Statement .queueResume := fun h => absurd h (by decide)
theorem queueLaunch : Statement .queueLaunch := fun h => absurd h (by decide)
theorem queueWait : Statement .queueWait := fun h => absurd h (by decide)
theorem queueWaitPoll : Statement .queueWaitPoll := fun h => absurd h (by decide)
theorem queueWaitTimeout : Statement .queueWaitTimeout := fun h => absurd h (by decide)
theorem queueSignal : Statement .queueSignal := fun h => absurd h (by decide)
theorem queueCopy : Statement .queueCopy := fun h => absurd h (by decide)
theorem queueRewind : Statement .queueRewind := fun h => absurd h (by decide)
theorem queueNop : Statement .queueNop := fun h => absurd h (by decide)
theorem timedStart : Statement .timedStart := fun h => absurd h (by decide)
theorem formPlacement : Statement .formPlacement := fun h => absurd h (by decide)
theorem launchReserving : Statement .launchReserving := fun h => absurd h (by decide)
theorem gridComplete : Statement .gridComplete := fun h => absurd h (by decide)
theorem forcedEntry : Statement .forcedEntry := fun h => absurd h (by decide)
theorem quantumExpiry : Statement .quantumExpiry := fun h => absurd h (by decide)
theorem priorityPreemption : Statement .priorityPreemption := fun h => absurd h (by decide)
theorem hardPreemption : Statement .hardPreemption := fun h => absurd h (by decide)
theorem contextSave : Statement .contextSave := fun h => absurd h (by decide)
theorem teamRestore : Statement .teamRestore := fun h => absurd h (by decide)
theorem matrixGrant : Statement .matrixGrant := fun h => absurd h (by decide)
theorem slateRefill : Statement .slateRefill := fun h => absurd h (by decide)
theorem replayResume : Statement .replayResume := fun h => absurd h (by decide)
theorem skipResume : Statement .skipResume := fun h => absurd h (by decide)
theorem abortResume : Statement .abortResume := fun h => absurd h (by decide)
theorem replayfResume : Statement .replayfResume := fun h => absurd h (by decide)
theorem operandLogReplay : Statement .operandLogReplay := fun h => absurd h (by decide)
theorem watchdog : Statement .watchdog := fun h => absurd h (by decide)
theorem tenantReset : Statement .tenantReset := fun h => absurd h (by decide)
theorem eccUncorr : Statement .eccUncorr := fun h => absurd h (by decide)
theorem systemRegisterWrite : Statement .systemRegisterWrite := fun h => absurd h (by decide)
theorem hostMemoryAccess : Statement .hostMemoryAccess := fun h => absurd h (by decide)
theorem mgtErr : Statement .mgtErr := fun h => absurd h (by decide)
theorem resetDevice : Statement .resetDevice := fun h => absurd h (by decide)
theorem errclr : Statement .errclr := fun h => absurd h (by decide)
theorem farExtentAdd : Statement .farExtentAdd := fun h => absurd h (by decide)
theorem farExtentRelease : Statement .farExtentRelease := fun h => absurd h (by decide)
theorem attest : Statement .attest := fun h => absurd h (by decide)
theorem identityRequest : Statement .identityRequest := fun h => absurd h (by decide)
theorem stageBegin : Statement .stageBegin := fun h => absurd h (by decide)
theorem stageData : Statement .stageData := fun h => absurd h (by decide)
theorem stageCommit : Statement .stageCommit := fun h => absurd h (by decide)
theorem stageAbort : Statement .stageAbort := fun h => absurd h (by decide)
theorem mailboxBadop : Statement .mailboxBadop := fun h => absurd h (by decide)
theorem mailboxRequestEnd : Statement .mailboxRequestEnd := fun h => absurd h (by decide)
theorem powerOn : Statement .powerOn := fun h => absurd h (by decide)
theorem powerCapStepDown : Statement .powerCapStepDown := fun h => absurd h (by decide)
theorem supplySag : Statement .supplySag := fun h => absurd h (by decide)
theorem clockStepUp : Statement .clockStepUp := fun h => absurd h (by decide)
theorem d2dFailure : Statement .d2dFailure := fun h => absurd h (by decide)
theorem prebriyrFault : Statement .prebriyrFault := fun h => absurd h (by decide)
theorem hbmStackFailure : Statement .hbmStackFailure := fun h => absurd h (by decide)
theorem softcorr : Statement .softcorr := fun h => absurd h (by decide)
theorem scrub : Statement .scrub := fun h => absurd h (by decide)
theorem brodileLinkRetrain : Statement .brodileLinkRetrain := fun h => absurd h (by decide)
theorem copyEntry : Statement .copyEntry := fun h => absurd h (by decide)
theorem copyt : Statement .copyt := fun h => absurd h (by decide)
theorem gather : Statement .gather := fun h => absurd h (by decide)
theorem scatter : Statement .scatter := fun h => absurd h (by decide)
theorem mcast : Statement .mcast := fun h => absurd h (by decide)
theorem allred : Statement .allred := fun h => absurd h (by decide)
theorem redscat : Statement .redscat := fun h => absurd h (by decide)
theorem allgath : Statement .allgath := fun h => absurd h (by decide)
theorem sparsek : Statement .sparsek := fun h => absurd h (by decide)
theorem ckout : Statement .ckout := fun h => absurd h (by decide)
theorem ckin : Statement .ckin := fun h => absurd h (by decide)
theorem signalEntry : Statement .signalEntry := fun h => absurd h (by decide)
theorem waitbc : Statement .waitbc := fun h => absurd h (by decide)
theorem loopEntry : Statement .loopEntry := fun h => absurd h (by decide)
theorem ifbc : Statement .ifbc := fun h => absurd h (by decide)
theorem endEntry : Statement .endEntry := fun h => absurd h (by decide)
theorem ill : Statement .ill := fun h => absurd h (by decide)
theorem exitSlice : Statement .exitSlice := fun _ => ⟨_, rfl, rfl⟩
theorem nop : Statement .nop := fun _ => ⟨_, rfl, rfl⟩
theorem yield : Statement .yield := fun _ => ⟨_, rfl, rfl⟩
theorem sexit : Statement .sexit := fun _ => ⟨_, rfl, rfl⟩
theorem mdrain : Statement .mdrain := fun _ => ⟨_, rfl, rfl⟩
theorem railRecovery : Statement .railRecovery := fun h => absurd h (by decide)
theorem linkRetrainEnd : Statement .linkRetrainEnd := fun h => absurd h (by decide)
theorem farAccessReply : Statement .farAccessReply := fun h => absurd h (by decide)
theorem invalidHostAccess : Statement .invalidHostAccess := fun h => absurd h (by decide)

end RoundTrip

end Sys2Proof.Laws
end

