-- ==== Sys2Proof/Tests/Slice0.lean ====
section
/-! SUPPORT. Tests: words of the spec decode to the instructions beside them, each check of well-formedness refuses, small steps,
and for each statement a state that meets its premises. Expected results come from the spec's tables and examples. -/

namespace Sys2Proof.Machine.Tests
open Sys2Proof Sys2Proof.Machine

/-! ## A machine of one team -/

/-- The launch record of the test grid: all bytes 0. -/
def aGrid : Grid :=
  { gid := 1, queue := 0, entry := none, tenant := 0, asid := 0, prio := 0, record := List.replicate 128 0#8, check := false, race := false, accepted := 0, acceptSeq := 1 }
/-- A form of one team on core 0 with a window of 4 KiB. -/
def aForm : Form := { fid := 2, gid := 1, idx := 0, cluster := 0, cores := [0], bases := [0], winLen := 4096, excl := false }
/-- A team of one slice. -/
def aTeam (sl : Slice) (pf : Prefect) : Team :=
  { tid := 3, gid := 1, fid := 2, rank := 0, core := 0, slot := 0, nslices := 1, nregs := 128, teamId := 0, slices := [(0, sl)], pf }
/-- A machine whose only team is `t`. -/
def machine (t : Team) (who : Issuer) : State :=
  { State.reset with grids := [aGrid], forms := [aForm], teams := [t], cur := who, nextId := 4 }
/-- Its slice is about to execute, or its Prefect. -/
def gangAt (sl : Slice) : State := machine (aTeam sl {}) (.gang 3 0)
def aGang (sl : Slice) : Gang := ⟨aTeam sl {}, aGrid, 0, [(0, sl)]⟩
def prefAt (pf : Prefect) : State := machine (aTeam {} pf) (.prefect 3)
def aPref (pf : Prefect) : Pref := ⟨aTeam {} pf, aGrid⟩

/-- A live slice that waits for nothing. -/
def calm (sl : Slice) : Bool :=
  sl.st == .issuable && sl.stop == none && sl.pend == [] && sl.inv == [] && sl.cohort == 0

theorem gang_ready (sl : Slice) (h : calm sl = true) : GangReady (gangAt sl) (aGang sl) := by
  simp only [calm, Bool.and_eq_true, beq_iff_eq] at h
  obtain ⟨⟨⟨⟨h1, h2⟩, h3⟩, h4⟩, h5⟩ := h
  constructor
  · rfl
  · show (match cohortOf (aTeam sl {}) 0 with | [] => none | l => some (⟨aTeam sl {}, aGrid, 0, l⟩ : Gang)) = _
    have : cohortOf (aTeam sl {}) 0 = [(0, sl)] := by
      simp [cohortOf, aTeam, tfind, List.range, List.range.loop, h1, h5]
    rw [this]; rfl
  · rfl
  · intro p hp
    obtain rfl : p = (0, sl) := by simpa [aGang] using hp
    exact ⟨h1, h2, h3, rfl, rfl⟩
  · intro p hp
    obtain rfl : p = (0, sl) := by simpa [aGang] using hp
    exact h4
  · intro o ho; exact absurd ho (by simp [gangAt, machine, State.reset])
  · intro e he; exact absurd he (by simp [gangAt, machine, State.reset, coreOf, tget])

theorem pref_ready (pf : Prefect) (h1 : pf.st = .issuable) (h2 : pf.stop = none) : PrefReady (prefAt pf) (aPref pf) := by
  refine ⟨rfl, rfl, ?_, h1, h2, ?_⟩
  · rfl
  · intro o ho; exact absurd ho (by simp [prefAt, machine, State.reset])

/-- MODE with this ETYPE (Table 10.2). -/
def mode (e : Nat) : W64 := BitVec.ofNat 64 (256 * e)

/-! ## Words of the spec decode to the instructions beside them -/

/-- R320: iaddi.w4 v2, v1, 3 is 0x9E02_0203. -/
theorem test_decode_IADDI : decodeTableWord 32 0x9E020203 = some (.iaddi 4 2 1 3) := by decide
/-- R320: movk.w1 v1, 0x0040 is 0xA081_0040. -/
theorem test_decode_MOVK : decodeTableWord 32 0xA0810040 = some (.movk 1 1 0x40) := by decide
/-- R320: fma.ha.w1 v5, v3, v4 is 0x4D21_4184. -/
theorem test_decode_FMA : decodeTableWord 32 0x4D214184 = some (.fma 1 1 5 3 4) := by decide
/-- R320: fmul.w5 v6, v3, v5 is 0x48A1_8185. -/
theorem test_decode_FMUL : decodeTableWord 32 0x48A18185 = some (.fmul 0 5 6 3 5) := by decide
/-- R340: exit is 0xC890_0000. -/
theorem test_decode_EXIT : decodeTableWord 32 0xC8900000 = some (.exitSlice) := by decide
/-- R330: msave g2 is 0xC822_0000. -/
theorem test_decode_MSAVE : decodeTableWord 32 0xC8220000 = some (.msave 2) := by decide
/-- R337: wait 2 is 0xC8E0_0002. -/
theorem test_decode_WAIT : decodeTableWord 32 0xC8E00002 = some (.wait 2) := by decide
/-- R331: mand g2, p1 is 0xC842_1000. -/
theorem test_decode_MAND : decodeTableWord 32 0xC8421000 = some (.mand 2 0 1) := by decide
/-- R331: mand.n g2, p1 is 0xC842_9000. -/
theorem test_decode_MANDN : decodeTableWord 32 0xC8429000 = some (.mand 2 1 1) := by decide
/-- R330: mrest.l g2 is 0xC832_4000. -/
theorem test_decode_MREST : decodeTableWord 32 0xC8324000 = some (.mrest 2 1) := by decide
/-- R324: bra.lmz two words on is 0xC1C0_0002. -/
theorem test_decode_BRALMZ : decodeTableWord 32 0xC1C00002 = some (.bra 7 0 2) := by decide
/-- R324: bra.nez g3, here+20 is 0xC08C_0005. -/
theorem test_decode_BRANEZ : decodeTableWord 32 0xC08C0005 = some (.bra 2 3 5) := by decide
/-- R333: regang 64 is 0xC870_0040. -/
theorem test_decode_REGANG : decodeTableWord 32 0xC8700040 = some (.regang 64) := by decide
/-- R333: the greatest limit is 0xC87F_FFFF. -/
theorem test_decode_REGANGtop : decodeTableWord 32 0xC87FFFFF = some (.regang 0xFFFFF) := by decide
/-- R326: gaddi g1, g1, 8 is 0xC602_2008. -/
theorem test_decode_GADDI : decodeTableWord 32 0xC6022008 = some (.gaddi 1 1 8) := by decide
/-- R327: vget g7, v14, 0 is 0xC70E_000E. -/
theorem test_decode_VGET : decodeTableWord 32 0xC70E000E = some (.vget 7 0 14) := by decide
/-- R346: sandi s4, s4, 0 is 0xD444_1000. -/
theorem test_decode_SANDI : decodeTableWord 32 0xD4441000 = some (.sandi 4 4 0) := by decide
/-- R346: slui s4, 0x389 is 0xD5C4_0389. -/
theorem test_decode_SLUI : decodeTableWord 32 0xD5C40389 = some (.slui 4 0x389) := by decide
/-- R329: mode 0x900 is 0xC800_0900. -/
theorem test_decode_MODE : decodeTableWord 32 0xC8000900 = some (.modeSet 0x900) := by decide
/-- R329: mode 0xC0900 is 0xC80C_0900. -/
theorem test_decode_MODEcc : decodeTableWord 32 0xC80C0900 = some (.modeSet 0xC0900) := by decide
/-- R377: ballot.w1 v2, v1 is 0x8C20_8080. -/
theorem test_decode_BALLOT : decodeTableWord 32 0x8C208080 = some (.ballot 0 1 2 1) := by decide
/-- R381: icmp.ne.w2 p1, v1, v0 is 0x9442_4080. -/
theorem test_decode_ICMP : decodeTableWord 32 0x94424080 = some (.icmp 0 2 1 1 1 0) := by decide
/-- R379: p2v.w4 v4, p1 is 0x9081_0015. -/
theorem test_decode_P2V : decodeTableWord 32 0x90810015 = some (.p2v 0 4 4 1) := by decide
/-- R377: prfxex.w4 v5, v4 is 0x8C81_420A. -/
theorem test_decode_PRFXEX : decodeTableWord 32 0x8C81420A = some (.prfxex 0 4 5 4) := by decide
/-- R374: popc.w2 v3, v2 is 0x8040_C104. -/
theorem test_decode_POPC : decodeTableWord 32 0x8040C104 = some (.popc 0 2 3 2) := by decide
/-- R390: ld v5, [v2+0] is 0xA885_0400. -/
theorem test_decode_LD : decodeTableWord 32 0xA8850400 = some (.ld 1 5 2 0 0) := by decide
/-- R390: st.8 [v4+16], v6 is 0xAC86_0882. -/
theorem test_decode_ST8 : decodeTableWord 32 0xAC860882 = some (.st 1 6 4 1 2) := by decide
/-- R390: lds.16 v8, [v1+32] is 0xB088_0302. -/
theorem test_decode_LDS16 : decodeTableWord 32 0xB0880302 = some (.lds 1 8 1 2 2) := by decide
/-- R391: atom.add v8, [v2], v9 is 0xB802_0109. -/
theorem test_decode_ATOM : decodeTableWord 32 0xB8020109 = some (.atom 0 0 8 2 9) := by decide
/-- R393: red.add [v2], v9 is 0xBC00_0109. -/
theorem test_decode_RED : decodeTableWord 32 0xBC000109 = some (.red 0 0 2 9) := by decide
/-- R393: red.fadd [v2], v9 is 0xBD00_0109. -/
theorem test_decode_REDFADD : decodeTableWord 32 0xBD000109 = some (.redFadd 2 9) := by decide
/-- R394: ll.4 v10, [v2] is 0xBD42_8100. -/
theorem test_decode_LL4 : decodeTableWord 32 0xBD428100 = some (.ll4 10 2) := by decide
/-- R395: sc.4 v11, [v2], v12 is 0xBD82_C10C. -/
theorem test_decode_SC4 : decodeTableWord 32 0xBD82C10C = some (.sc4 11 2 12) := by decide
/-- R398: sttr [v2], [v4], v7 is 0xBE01_C104. -/
theorem test_decode_STTR : decodeTableWord 32 0xBE01C104 = some (.sttr 7 2 4) := by decide
/-- R401: stm.4 [v6], v9 is 0xBE80_0309. -/
theorem test_decode_STM4 : decodeTableWord 32 0xBE800309 = some (.stm 0 6 9) := by decide
/-- R401: stm.16 [v6], v8 is 0xBE80_8308. -/
theorem test_decode_STM16 : decodeTableWord 32 0xBE808308 = some (.stm 2 6 8) := by decide
/-- R403: fence rw,w,pod is 0xC910_0325. -/
theorem test_decode_FENCE : decodeTableWord 32 0xC9100325 = some (.fence 3 2 5) := by decide
/-- R404: sfence rw,w,pod is 0xE0A1_4308. -/
theorem test_decode_SFENCE : decodeTableWord 32 0xE0A14308 = some (.sfence 5 3 2) := by decide
/-- R413: chain 2, g4 is 0xCC00_8002. -/
theorem test_decode_CHAIN : decodeTableWord 32 0xCC008002 = some (.chain 4 2) := by decide
/-- R414: tagwait.all g1, g2 is 0xCC42_4000. -/
theorem test_decode_TAGWAITALL : decodeTableWord 32 0xCC424000 = some (.tagwaitAll 1 2) := by decide
/-- R415: bcwait g2, g3, b5 is 0xCCA4_6005. -/
theorem test_decode_BCWAIT : decodeTableWord 32 0xCCA46005 = some (.bcwait 2 3 5) := by decide
/-- R416: schain 2, s10 is 0xEC00_8A00. -/
theorem test_decode_SCHAIN : decodeTableWord 32 0xEC008A00 = some (.schain 2 10) := by decide
/-- R416: sbcwait s7, s6, b2 is 0xEC41_C608. -/
theorem test_decode_SBCWAIT : decodeTableWord 32 0xEC41C608 = some (.sbcwait 7 6 2) := by decide
/-- R416: stagwait.all s12, s11 is 0xEC23_0B00. -/
theorem test_decode_STAGWAIT : decodeTableWord 32 0xEC230B00 = some (.stagwaitAll 12 11 0) := by decide
/-- R347: sld s11, [s14-8] is 0xD80B_3BFF. -/
theorem test_decode_SLD : decodeTableWord 32 0xD80B3BFF = some (.sld 11 14 0x3FF) := by decide
/-- R347: sst s15, [s14+0] is 0xD84F_3800. -/
theorem test_decode_SST : decodeTableWord 32 0xD84F3800 = some (.sst 15 14 0) := by decide
/-- R353: swtime s13 is 0xE040_0D00. -/
theorem test_decode_SWTIME : decodeTableWord 32 0xE0400D00 = some (.swtime 13) := by decide
/-- R448: mma a0, s9, s0 is 0xE430_0900. -/
theorem test_decode_MMA : decodeTableWord 32 0xE4300900 = some (.mma 0 9 0) := by decide
/-- R450: mepi a0, s3, s4 is 0xE440_0310. -/
theorem test_decode_MEPI : decodeTableWord 32 0xE4400310 = some (.mepi 0 3 4) := by decide
/-- R455: slpin a7, s2, s3 is 0xE801_C20C. -/
theorem test_decode_SLPIN : decodeTableWord 32 0xE801C20C = some (.slpin 7 2 3) := by decide
/-- R459: slchunk a7, s0, s11 is 0xE841_C02C. -/
theorem test_decode_SLCHUNK : decodeTableWord 32 0xE841C02C = some (.slchunk 7 0 11) := by decide
/-- R300: ill is 0xFFFF_FFFF. -/
theorem test_decode_ILL : decodeTableWord 32 0xFFFFFFFF = some (.ill) := by decide
/-- A word of no row is no instruction (R14): major 0x3F, and the all-zero word. -/
theorem test_decode_none : decodeTableWord 32 0xFC000000 = none ∧ decodeTableWord 32 0 = none := by decide

/-! ## Each check of well-formedness refuses -/

theorem test_wf_hold_c : Instr.wellFormed (.iadd 3 0 0 0 0) = false := by decide
theorem test_wf_hold_b_in_unary : Instr.wellFormed (.mov 2 0 0 0) = false := by decide
theorem test_wf_hold_in_constant : Instr.wellFormed (.laneid 1 0 0) = false := by decide
theorem test_wf_vstx_hold : Instr.wellFormed (.vstx 1 0 0 0 0) = false := by decide
theorem test_wf_shift_32 : Instr.wellFormed (.shli 0 0 0 32) = false := by decide
theorem test_wf_gshift_64 : Instr.wellFormed (.gshli 0 0 64) = false := by decide
theorem test_wf_gshift_negative : Instr.wellFormed (.gsrai 0 0 0x1FFF) = false := by decide
theorem test_wf_sshift_64 : Instr.wellFormed (.sshli 0 0 64) = false := by decide
theorem test_wf_sc8_odd_pair : Instr.wellFormed (.sc8 0 1 0) = false := by decide
theorem test_wf_sc8_odd_data : Instr.wellFormed (.sc8 0 0 1) = false := by decide
theorem test_wf_ll8_odd_pair : Instr.wellFormed (.ll8 1 0) = false := by decide
theorem test_wf_bar_261 : Instr.wellFormed (.bar 0 261) = false := by decide
theorem test_wf_sbar_261 : Instr.wellFormed (.sbar 0 4 5) = false := by decide
theorem test_wf_lds_misplaced : Instr.wellFormed (.lds 0 1 0 1 0) = false := by decide
theorem test_wf_ld_odd_address : Instr.wellFormed (.ld 0 0 1 0 0) = false := by decide
theorem test_wf_ld_misplaced : Instr.wellFormed (.ld 0 2 0 2 0) = false := by decide
theorem test_wf_chain_engine_18 : Instr.wellFormed (.chain 0 18) = false := by decide
theorem test_wf_mrest_nothing : Instr.wellFormed (.mrest 0 0) = false := by decide
theorem test_wf_red_odd_address : Instr.wellFormed (.red 0 0 1 0) = false := by decide
theorem test_wf_red_odd_pair : Instr.wellFormed (.red 0 1 0 1) = false := by decide
theorem test_wf_redFadd_odd_address : Instr.wellFormed (.redFadd 1 0) = false := by decide
theorem test_wf_qsignal_scope : Instr.wellFormed (.qsignal 3 0 0 0) = false := by decide
theorem test_wf_bra_cond_10 : Instr.wellFormed (.bra 10 0 0) = false := by decide
theorem test_wf_bra_lmz_register : Instr.wellFormed (.bra 7 1 0) = false := by decide
theorem test_wf_cvt_format : Instr.wellFormed (.cvt 0 0 0 0 0 5) = false := by decide
theorem test_wf_cvt_element : Instr.wellFormed (.cvt 0 0 0 0 1 0) = false := by decide
theorem test_wf_cvt_odd_pair : Instr.wellFormed (.cvt 0 0 0 1 0 11) = false := by decide
theorem test_wf_fcmp_code_14 : Instr.wellFormed (.fcmp 0 0 14 1 0 0) = false := by decide
theorem test_wf_icmp_code_10 : Instr.wellFormed (.icmp 0 0 10 1 0 0) = false := by decide
theorem test_wf_mode_reserved : Instr.wellFormed (.modeSet 8) = false := by decide
theorem test_wf_mode_etype_12 : Instr.wellFormed (.modeSet 0xC00) = false := by decide
theorem test_wf_mode_rnd_5 : Instr.wellFormed (.modeSet 0x5000) = false := by decide
theorem test_wf_regang_0 : Instr.wellFormed (.regang 0) = false := by decide
theorem test_wf_sramcfg_nothing : Instr.wellFormed (.sramcfg 0 0) = false := by decide
theorem test_wf_atom_code_12 : Instr.wellFormed (.atom 12 0 0 0 0) = false := by decide
theorem test_wf_atom_wide_code_10 : Instr.wellFormed (.atom 10 1 0 0 0) = false := by decide
theorem test_wf_atom_odd_address : Instr.wellFormed (.atom 0 0 0 1 0) = false := by decide
theorem test_wf_cas_misplaced : Instr.wellFormed (.atom 9 0 0 0 1) = false := by decide
theorem test_wf_fence_empty_set : Instr.wellFormed (.fence 0 1 1) = false := by decide
theorem test_wf_fence_scope_6 : Instr.wellFormed (.fence 1 1 6) = false := by decide
theorem test_wf_stm_size_3 : Instr.wellFormed (.stm 3 0 0) = false := by decide
theorem test_wf_stm_misplaced : Instr.wellFormed (.stm 2 0 2) = false := by decide
theorem test_wf_event_row : Instr.wellFormed (.pageWalk) = false := by decide
/-- At the limits the checks accept. -/
theorem test_wf_limits :
    Instr.wellFormed (.shli 0 0 0 31) = true ∧ Instr.wellFormed (.gshli 0 0 63) = true ∧ Instr.wellFormed (.bar 0 260) = true ∧
    Instr.wellFormed (.sbar 0 4 4) = true ∧ Instr.wellFormed (.chain 0 17) = true ∧ Instr.wellFormed (.bra 9 0 0) = true ∧
    Instr.wellFormed (.atom 11 0 0 0 0) = true ∧ Instr.wellFormed (.fcmp 0 0 13 1 0 0) = true ∧ Instr.wellFormed (.icmp 0 0 9 1 0 0) = true ∧
    Instr.wellFormed (.modeSet 0x4B00) = true := by decide

/-! ## Premises of the statements are met -/

open Sys2Proof.Claims

/-- A slice whose MODE has this ETYPE. -/
def inClass (e : Nat) : Slice := { mode := mode e }
theorem inClass_ready (e : Nat) : GangReady (gangAt (inClass e)) (aGang (inClass e)) := gang_ready _ rfl

/-- INT32: v126, the last register below N = 128, is legal; INT64: the last pair. -/
theorem witness_IntegerArithmetic : ∃ s g, GangReady s g ∧ intForms ≠ [] ∧ intClassOf (modeEtype g.mode) = some (32, 1, true) ∧
    HoldOk 2 true false ∧ OpndOk g.team.nregs false 127 :=
  ⟨_, _, inClass_ready 9, by simp [intForms], by decide, by simp [HoldOk], by simp [OpndOk, aGang, aTeam]⟩
theorem witness_IntegerArithmetic_pair : ∃ s g, GangReady s g ∧ intClassOf (modeEtype g.mode) = some (64, 1, true) ∧
    OpndOk g.team.nregs true 126 ∧ ¬ OpndOk g.team.nregs true 127 :=
  ⟨_, _, inClass_ready 11, by decide, by simp [OpndOk, aGang, aTeam], by simp [OpndOk, aGang, aTeam]⟩
theorem witness_WordAndShiftOperations : ∃ s g, GangReady s g ∧ wordForms ≠ [] ∧ shiftForms ≠ [] ∧ HoldOk 1 true false ∧
    (127 : VReg).toNat < g.team.nregs ∧ intClassOf (modeEtype g.mode) = some (16, 2, true) ∧ (31 : BitVec 6).toNat < 32 :=
  ⟨_, _, inClass_ready 8, by simp [wordForms], by simp [shiftForms], by simp [HoldOk], by decide, by decide, by decide⟩
theorem witness_LaneMovesPredicatesAndPacking : ∃ s g, GangReady s g ∧ (127 : VReg).toNat < g.team.nregs ∧ HoldOk 3 true true ∧
    (9 : BitVec 4).toNat ≤ 9 ∧ modeEtype g.mode = 11 ∧ OpndOk g.team.nregs true 126 :=
  ⟨_, _, inClass_ready 11, by decide, by simp [HoldOk], by decide, by decide, by simp [OpndOk, aGang, aTeam]⟩
theorem witness_Pack : ∃ s g, GangReady s g ∧ modeEtype g.mode ≠ 11 ∧ packOf (modeEtype g.mode) = some 8 :=
  ⟨_, _, inClass_ready 6, by decide, by decide⟩
theorem witness_FloatSignMinMaxAndCompares : ∃ s g, GangReady s g ∧ floatOf (modeEtype g.mode) = some (8, 23) ∧ HoldOk 2 true false ∧
    (13 : BitVec 4).toNat ≤ 13 ∧ (127 : VReg).toNat < g.team.nregs :=
  ⟨_, _, inClass_ready 0, by decide, by simp [HoldOk], by decide, by decide⟩
theorem witness_NaNGivesCanonicalNaN : ∃ s g, GangReady s g ∧ roundingForms ≠ [] ∧ floatOf (modeEtype g.mode) = some (5, 10) ∧ HoldOk 3 true true ∧
    isNaN (5, 10) 0x7E00 = true :=
  ⟨_, _, inClass_ready 1, by simp [roundingForms], by decide, by simp [HoldOk], by decide⟩
theorem witness_RoundsToNearest : ∃ s g, GangReady s g ∧ sumForms ≠ [] ∧ modeRnd g.mode = 0 ∧ bit 17 g.mode = false ∧
    floatOf (modeEtype g.mode) = some (8, 7) ∧ isFinite (8, 7) 0x7F7F ∧ HoldOk 0 true false :=
  ⟨_, _, inClass_ready 2, by simp [sumForms], by decide, by decide, by decide, by unfold isFinite; decide, by simp [HoldOk]⟩
theorem witness_CrossLaneAndReductions : ∃ s g, GangReady s g ∧ reduceOf (modeEtype g.mode) = some (64, 1, true) ∧ HoldOk 0 false false ∧
    OpndOk g.team.nregs true 126 ∧ (127 : VReg).toNat < g.team.nregs :=
  ⟨_, _, inClass_ready 11, by decide, by simp [HoldOk], by simp [OpndOk, aGang, aTeam], by decide⟩
/-- Element 3 of four bytes, the last one. -/
theorem witness_IntegerConversions : ∃ s g, GangReady s g ∧ intFormat (6 : BitVec 4).toNat = some (8, true) ∧
    intFormat (modeEtype g.mode) = some (32, false) ∧ HoldOk 1 false false ∧ ((3 : BitVec 2).toNat + 1) * 8 ≤ max 32 8 :=
  ⟨_, _, inClass_ready 10, by decide, by decide, by simp [HoldOk], by decide⟩
theorem witness_FloatLanesComplete : ∃ s g, GangReady s g ∧ formatBits (4 : BitVec 4).toNat = some 8 ∧ formatBits (modeEtype g.mode) = some 16 ∧
    floatOf (modeEtype g.mode) = some (8, 7) ∧ ((3 : BitVec 2).toNat + 1) * 8 ≤ max 32 8 :=
  ⟨_, _, inClass_ready 2, by decide, by decide, by decide, by decide⟩
/-- x1 with BASE 120 and LEN 8 names v120 to v127: IDX 7 is the last in bounds. -/
theorem witness_IndexedMoves : ∃ s g, GangReady s g ∧ (127 : VReg).toNat < g.team.nregs ∧
    indexed (BitVec.ofNat 32 (120 * 2 ^ 25 + 8 * 2 ^ 17 + 7)) 0 g.team.nregs = some 127 ∧
    indexed (BitVec.ofNat 32 (120 * 2 ^ 25 + 8 * 2 ^ 17 + 7)) 1 g.team.nregs = none ∧
    ∀ p ∈ g.sl, ∀ l, l < 4 → activeIn p.2 l = true → (indexed (rdX p.2 1 l) 0 g.team.nregs).isSome = true :=
  ⟨_, _, gang_ready { x := [(4, BitVec.ofNat 32 (120 * 2 ^ 25 + 8 * 2 ^ 17)), (5, BitVec.ofNat 32 (120 * 2 ^ 25 + 8 * 2 ^ 17)), (6, BitVec.ofNat 32 (120 * 2 ^ 25 + 8 * 2 ^ 17)), (7, BitVec.ofNat 32 (120 * 2 ^ 25 + 8 * 2 ^ 17))] } rfl,
    by decide, by decide, by decide, by decide⟩
theorem witness_BadVectorOperandsAreIllegal : ∃ s g, GangReady s g ∧ intClassOf (modeEtype g.mode) = none :=
  ⟨_, _, inClass_ready 3, by decide⟩
theorem witness_SliceScalarArithmetic : ∃ s g, GangReady s g ∧ ∃ F, gForms[18]? = some F ∧ F.legal 63 ∧ ¬ F.legal 64 :=
  ⟨_, _, inClass_ready 0, _, rfl, by decide, by decide⟩
theorem witness_LaneReads : ∃ s g, GangReady s g ∧ (127 : VReg).toNat < g.team.nregs ∧ ∃ s' g', GangReady s' g' ∧ g'.team.nregs ≤ (127 : VReg).toNat := by
  refine ⟨_, _, inClass_ready 0, by decide, ?_⟩
  refine ⟨machine { aTeam {} {} with nregs := 64 } (.gang 3 0), ⟨{ aTeam {} {} with nregs := 64 }, aGrid, 0, [(0, {})]⟩, ⟨rfl, rfl, rfl, ?_, ?_, ?_, ?_⟩, by decide⟩
  · intro p hp; obtain rfl : p = (0, {}) := by simpa using hp
    exact ⟨rfl, rfl, rfl, rfl, rfl⟩
  · intro p hp; obtain rfl : p = (0, {}) := by simpa using hp
    rfl
  · intro o ho; exact absurd ho (by simp [machine, State.reset])
  · intro e he; exact absurd he (by simp [machine, State.reset, coreOf, tget])
/-- Condition 9, the last one, and 10; a register where none is allowed. -/
theorem witness_SliceBranches : ∃ s g, GangReady s g ∧ (9 : BitVec 4).toNat ≤ 9 ∧ 9 < (10 : BitVec 4).toNat ∧
    ¬ (1 ≤ (7 : BitVec 4).toNat ∧ (7 : BitVec 4).toNat ≤ 6) ∧ branchHolds 7 0 0 ∧ ¬ branchHolds 7 0 1 :=
  ⟨_, _, inClass_ready 0, by decide, by decide, by decide, rfl, by show ¬ ((1 : BitVec 4) = 0); decide⟩
theorem witness_ModeAndMask : ∃ s g, GangReady s g ∧ legalMode 0x4B00 ∧ ¬ legalMode 0xC00 ∧ ¬ legalMode 0x5000 ∧
    (2 : BitVec 2).getLsbD 1 = true ∧ ∀ q ∈ g.sl, legalMode ((rdG q.2 0).extractLsb' 4 20) :=
  ⟨_, _, inClass_ready 0, by unfold legalMode; decide, by unfold legalMode; decide, by unfold legalMode; decide, by decide, by unfold legalMode; decide⟩

/-- What a machine shares with `gangAt` or `prefAt` so that its issuer is about to execute. -/
def SameSeat (s : State) (t : Team) (who : Issuer) : Prop :=
  s.cur = who ∧ s.teams = [t] ∧ s.grids = [aGrid] ∧ (∀ p, saveHolds s 2 p = false) ∧ s.memops = [] ∧ (coreOf s 0).log = []
theorem gang_ready_in (s : State) (sl : Slice) (h : calm sl = true) (e : SameSeat s (aTeam sl {}) (.gang 3 0)) : GangReady s (aGang sl) := by
  obtain ⟨e1, e2, e3, e4, e5, e6⟩ := e
  have r := gang_ready sl h
  refine ⟨e1, ?_, ?_, r.slices, r.valid, ?_, ?_⟩
  · have := r.here; unfold theGang findTeam findGrid at this ⊢; rw [e2, e3]; exact this
  · exact e4 _
  · rw [e5]; exact fun o ho => absurd ho (by simp)
  · show ∀ e ∈ (coreOf s 0).log, _; rw [e6]; exact fun o ho => absurd ho (by simp)
theorem pref_ready_in (s : State) (pf : Prefect) (h1 : pf.st = .issuable) (h2 : pf.stop = none) (e : SameSeat s (aTeam {} pf) (.prefect 3)) :
    PrefReady s (aPref pf) := by
  obtain ⟨e1, e2, e3, e4, e5, _⟩ := e
  have r := pref_ready pf h1 h2
  refine ⟨e1, ?_, ?_, h1, h2, ?_⟩
  · have := r.here; unfold thePref findTeam findGrid at this ⊢; rw [e2, e3]; exact this
  · exact e4 _
  · rw [e5]; exact fun o ho => absurd ho (by simp)

theorem one_team (sl : Slice) (pf : Prefect) (who : Issuer) : OneTeam (machine (aTeam sl pf) who) (aTeam sl pf) :=
  ⟨fun u hu _ => by simpa [machine] using hu, by simp [aTeam]⟩

theorem witness_WaitsAndSafePoints : ∃ s g, GangReady s g ∧ (128 : BitVec 8).toNat ≤ g.team.nregs ∧ ¬ stopAsked s g.team.fid ∧ g.team.nregs < (129 : BitVec 8).toNat := by
  refine ⟨_, _, gang_ready {} rfl, by decide, ?_, by decide⟩
  rintro ⟨f, h, h1⟩
  obtain rfl : aForm = f := Option.some.inj h
  exact absurd h1 (by decide)
/-- SYS.TIME is 5 and the target 5, or 6. -/
theorem witness_SwtimeTargets : ∃ s p, PrefReady s p ∧ rdS p.team.pf 0 ≤ s.clock.time ∧ ¬ rdS p.team.pf 1 ≤ s.clock.time :=
  ⟨{ prefAt { s := [(0, 5), (1, 6)] } with clock := { time := 5 } }, aPref { s := [(0, 5), (1, 6)] }, pref_ready_in _ _ rfl rfl ⟨rfl, rfl, rfl, fun _ => rfl, rfl, rfl⟩, by decide, by decide⟩
theorem witness_TrapsStopTheIssuer : ∃ s g t p, GangReady s g ∧ PrefReady t p := ⟨_, _, _, _, gang_ready {} rfl, pref_ready {} rfl rfl⟩
/-- A ring of 64 KiB at 0x10000: 1023 records fit, the write index is 1022 and the read index 0. -/
theorem witness_FaultRecordIsWritten : ∃ s g, GangReady s g ∧ RingReady s g.grid.tenant 0x10000 1023 1022 := by
  refine ⟨{ gangAt {} with tsys := [(0x02E, 0x10001)], mem := [(0x10000, 0xFE), (0x10001, 3)] }, aGang {}, gang_ready_in _ _ rfl ⟨rfl, rfl, rfl, fun _ => rfl, rfl, rfl⟩, ?_⟩
  exact ⟨by decide, by decide, by decide, by decide, by decide, rfl, rfl⟩
theorem witness_NumberedBarriers : ∃ s g f, GangReady s g ∧ OneTeam s g.team ∧ findForm s g.team.fid = some f ∧ (∀ k ∈ g.nums, k < 64) ∧
    barOpen f 15 260 [(3, 0)] [] ∧ (260 : BitVec 9).toNat ≤ 260 ∧ 260 < (261 : BitVec 9).toNat :=
  ⟨_, _, _, gang_ready {} rfl, one_team _ _ _, rfl, by decide, ⟨.inl ⟨rfl, rfl⟩, by simp⟩, by decide, by decide⟩
theorem witness_Sbar : ∃ s p f, PrefReady s p ∧ OneTeam s p.team ∧ findForm s p.team.fid = some f ∧ barOpen f 0 0 [(3, 64)] [] :=
  ⟨_, _, _, pref_ready {} rfl rfl, one_team _ _ _, rfl, ⟨.inl ⟨rfl, rfl⟩, by simp⟩⟩
theorem witness_RegangMeets : ∃ s g, GangReady s g ∧ tfind g.home g.team.episodes = none ∧ (1 : BitVec 20) ≠ 0 ∧
    ∀ k, k / 8 = g.home → k ∉ g.nums → ∀ sl, (k, sl) ∈ g.team.slices → sl.st = .exited := by
  refine ⟨_, _, gang_ready {} rfl, rfl, by decide, ?_⟩
  intro k _ h sl hs
  obtain ⟨rfl, -⟩ : k = 0 ∧ sl = {} := by simpa [aGang, aTeam] using hs
  exact absurd (by decide : (0 : Nat) ∈ (aGang {}).nums) h
/-- A team of one waiting-free slice 0, whatever else it holds. -/
theorem team_ready (t : Team) (h1 : t.tid = 3) (h2 : t.gid = 1) (h3 : t.fid = 2) (h4 : t.core = 0) (h5 : cohortOf t 0 = [(0, {})]) :
    GangReady (machine t (.gang 3 0)) ⟨t, aGrid, 0, [(0, {})]⟩ := by
  have hs : ∀ p ∈ [((0 : Nat), ({} : Slice))], p = (0, {}) := fun p hp => List.mem_singleton.mp hp
  refine ⟨?_, ?_, ?_, ?_, ?_, ?_, ?_⟩
  · show Issuer.gang 3 0 = .gang t.tid 0; rw [h1]
  · show theGang (machine t (.gang 3 0)) t.tid 0 = _
    have e1 : findTeam (machine t (.gang 3 0)) t.tid = some t := by simp [findTeam, machine]
    have e2 : findGrid (machine t (.gang 3 0)) t.gid = some aGrid := by rw [h2]; rfl
    unfold theGang
    simp [e1, e2, h5]
  · show saveHolds (machine t (.gang 3 0)) t.fid none = false; rw [h3]; rfl
  · intro p hp; obtain rfl := hs p hp; exact ⟨rfl, rfl, rfl, rfl, rfl⟩
  · intro p hp; obtain rfl := hs p hp; rfl
  · intro o ho; exact absurd ho (by simp [machine, State.reset])
  · intro e he
    have : (coreOf (machine t (.gang 3 0)) t.core).log = [] := by rw [h4]; rfl
    exact absurd (this ▸ he) (by simp)
/-- Slice 1 waits in an open episode for slice 0, which is its last arrival; or slice 0 is the first to come. -/
def anEpisode : Episode := { pc := 0, passed := [], waiting := [1], opened := 0, limit := 9 }
def regangTeam (e : Tbl Episode) (sl : Slice) : Team := { aTeam {} {} with nslices := 2, slices := [(0, {}), (1, sl)], episodes := e }
theorem witness_RegangMeets_open : (∃ s g e, GangReady s g ∧ OneTeam s g.team ∧ tfind g.home g.team.episodes = some e ∧ ∀ n ∈ g.nums, n ∉ e.waiting) ∧
    ∃ s g, GangReady s g ∧ tfind g.home g.team.episodes = none ∧ ∃ k, k / 8 = g.home ∧ k ∉ g.nums ∧ ∃ sl, (k, sl) ∈ g.team.slices ∧ sl.st ≠ .exited := by
  refine ⟨⟨_, _, anEpisode, team_ready (regangTeam [(0, anEpisode)] { st := .regang, cohort := 1 }) rfl rfl rfl rfl rfl, ⟨fun u hu _ => by simpa [machine] using hu, by decide⟩, rfl, by decide⟩,
    _, _, team_ready (regangTeam [] { st := .barrier, cohort := 1 }) rfl rfl rfl rfl rfl, rfl, 1, by decide, by decide, { st := .barrier, cohort := 1 }, by decide, by decide⟩
/-- A queue of 64 entries; a slice at its last entry; one beyond the tail after SEXIT. -/
def dqTeam (n : Nat) (pf : Prefect) : Team := { aTeam {} pf with dq := List.replicate n 7 }
theorem witness_DecisionQueue_ends : (∃ s p, PrefReady s p ∧ p.team.dq.length = 64) ∧ (∃ s g, GangReady s g ∧ OneTeam s g.team ∧ ∀ q ∈ g.sl, q.2.dqPos - g.team.dqHead + 1 = g.team.dq.length) ∧
    ∃ s g, GangReady s g ∧ OneTeam s g.team ∧ g.team.pf.st = .exited ∧ ∀ q ∈ g.sl, g.team.dq.length ≤ q.2.dqPos - g.team.dqHead := by
  refine ⟨⟨machine (dqTeam 64 {}) (.prefect 3), ⟨dqTeam 64 {}, aGrid⟩, ⟨rfl, rfl, rfl, rfl, rfl, ?_⟩, by decide⟩,
    ⟨_, _, team_ready (dqTeam 1 {}) rfl rfl rfl rfl rfl, ⟨fun u hu _ => by simpa [machine] using hu, by decide⟩, by decide⟩,
    _, _, team_ready (dqTeam 0 { st := .exited }) rfl rfl rfl rfl rfl, ⟨fun u hu _ => by simpa [machine] using hu, by decide⟩, rfl, by decide⟩
  intro o ho; exact absurd ho (by simp [machine, State.reset])
/-- An empty queue with its one reader at its head. -/
theorem witness_DecisionQueue : ∃ s p, PrefReady s p ∧ p.team.dq.length < 64 ∧ (∃ k sl, (k, sl) ∈ p.team.slices ∧ sl.st ≠ .exited ∧ sl.dqPos ≤ p.team.dqHead) ∧
    ∃ s' g, GangReady s' g ∧ OneTeam s' g.team ∧ (∀ q ∈ g.sl, g.team.dq.length ≤ q.2.dqPos - g.team.dqHead) ∧ g.team.pf.st ≠ .exited :=
  ⟨_, _, pref_ready {} rfl rfl, by decide, ⟨0, {}, by simp [aPref, aTeam], by decide, by decide⟩, _, _, gang_ready {} rfl, one_team _ _ _, by decide, by decide⟩
theorem witness_LeavingATeam : ∃ s g, GangReady s g ∧ tfind g.home g.team.episodes = none ∧
    (∀ f, findForm s g.team.fid = some f → ∀ n e, tfind n f.bars = some e → e.count ≠ 0) ∧ g.team.pf.st ≠ .exited ∧ ∃ s' p, PrefReady s' p ∧
    (∃ k sl, (k, sl) ∈ p.team.slices ∧ sl.st ≠ .exited) := by
  refine ⟨_, _, gang_ready {} rfl, rfl, ?_, by decide, _, _, pref_ready {} rfl rfl, 0, {}, by simp [aPref, aTeam], by decide⟩
  intro f h n e he
  obtain rfl : aForm = f := Option.some.inj h
  exact absurd he (by simp [aForm, tfind])
theorem witness_FencesComplete : ∃ s g, GangReady s g ∧ (∀ o ∈ s.ops, o.phase ≠ 0) ∧ (∀ e ∈ s.engines, ∀ c ∈ e.2.chains, c.tid ≠ g.team.tid) ∧
    (∀ x ∈ (clusterOf s (clusterOfCore g.team.core)).cc, x.tenant ≠ g.grid.tenant) ∧ s.l2q = [] ∧ g.team.det = none ∧ (15 : BitVec 4) ≠ 0 ∧
    1 ≤ (5 : BitVec 3).toNat ∧ (5 : BitVec 3).toNat ≤ 5 :=
  ⟨_, _, gang_ready {} rfl, by simp [gangAt, machine, State.reset], by simp [gangAt, machine, State.reset], by decide, rfl, rfl, by decide, by decide, by decide⟩
/-- Numbers 0x04B and 0x04C: the last that a kernel reads, and the first past it. -/
theorem witness_SystemRegisters : ∃ s g, GangReady s g ∧ (∃ q ∈ g.sl, g.sl = [q] ∧ (queueOf s ((rdG q.2 0).extractLsb' 0 13).toNat).tenant = g.grid.tenant) ∧
    (0x04B : BitVec 12).toNat ≤ 0x4B ∧ ¬ (0x04C : BitVec 12).toNat ≤ 0x4B :=
  ⟨_, _, gang_ready {} rfl, ⟨(0, {}), by simp [aGang], rfl, by decide⟩, by decide, by decide⟩
theorem witness_PrefectArithmetic : ∃ s p, PrefReady s p ∧ ∃ F ∈ sForms, F.legal 63 := ⟨_, _, pref_ready {} rfl rfl, _, List.mem_cons_self, trivial⟩
theorem witness_PrefectBranches : ∃ s p, PrefReady s p := ⟨_, _, pref_ready {} rfl rfl⟩
/-- The window is 4096 bytes: offset 4088 is the last for 8 bytes, 4096 is beyond it, 1 is misaligned. -/
theorem witness_PrefectScratchpad : ∃ s p f, PrefReady s p ∧ findForm s p.team.fid = some f ∧ NoModeChange s f ∧ ((.slds, 8, false, true) ∈ sAccesses) ∧
    rdS p.team.pf 0 = 4088 ∧ 4088 + 8 ≤ f.cores.length * f.winLen ∧ f.cores.length * f.winLen < 4096 + 8 :=
  ⟨_, _, _, pref_ready { s := [(0, 4088)] } rfl rfl, rfl, by unfold NoModeChange; decide, by simp [sAccesses], by decide, by decide, by decide⟩

/-- A translation buffer that maps virtual page 0 to the frame at 0x40000, uncached, with every permission. -/
def mapped (s : State) : State :=
  { s with cores := [(0, { tlb := [{ asid := 0, gen := 0, size := 0, page := 0, leaf := openLeaf 0x40000 ||| 0x600, ptGen := 0 }] })] }
theorem witness_PrefectMemory : ∃ s p e lev, PrefReady s p ∧ (∀ o ∈ s.memops, o.id ≠ s.nextId) ∧ (.sld, 8, false, false) ∈ sAccesses ∧
    tlbTry s p.team.core p.grid.asid p.grid.tenant 0xFFF8 .read = some (.ok e lev) ∧ canonical 0xFFF8 = true ∧ canonical (1 <<< 63) = false ∧ pteFar e = false ∧
    isOwnDev s (pteDev e) = true ∧ pteCc e = 3 ∧ coreSent s p.team.core < 2048 ∧ notCached s (clusterOfCore p.team.core) p.grid.tenant (leafPa e lev 0xFFF8) ∧ s.l2q = [] :=
  ⟨mapped (prefAt {}), aPref {}, _, _, pref_ready_in _ _ rfl rfl ⟨rfl, rfl, rfl, fun _ => rfl, rfl, rfl⟩, by simp [mapped, prefAt, machine, State.reset], by simp [sAccesses], rfl,
    by decide, by decide, by decide, by decide, by decide, by decide, by unfold notCached; decide, rfl⟩
theorem witness_TapeSignalAndSram : ∃ s p f e lev, PrefReady s p ∧ findForm s p.team.fid = some f ∧ NoModeChange s f ∧ (3968 : Nat) + 128 ≤ f.cores.length * f.winLen ∧
    tlbTry s p.team.core p.grid.asid p.grid.tenant 8 .atomic = some (.ok e lev) ∧ isOwnDev s (pteDev e) = true ∧ lockBlocks s (leafPa e lev 8) 8 true = false ∧
    (∀ t ∈ s.fab.tags, t.2.use = none) ∧ s.l2q = [] :=
  ⟨mapped (prefAt {}), aPref {}, _, _, _, pref_ready_in _ _ rfl rfl ⟨rfl, rfl, rfl, fun _ => rfl, rfl, rfl⟩, rfl, by unfold NoModeChange; decide, by decide, rfl, by decide, by decide,
    by simp [mapped, prefAt, machine, State.reset], rfl⟩
/-- A form that holds cluster 0 alone gives segment 3 its modes at once, or waits behind another Prefect's SRAMCFG. -/
def exclForm : Form := { aForm with excl := true }
def configuring (q : List CfgReq) (l : List Team) : State :=
  { prefAt { s := [(1, 3)] } with forms := [exclForm], clusters := [(0, { cfgQ := q })], teams := aTeam {} { s := [(1, 3)] } :: l }
theorem witness_TapeSignalAndSram_modes : ∃ s p, PrefReady s p ∧ findForm s p.team.fid = some exclForm ∧ (∀ c ∈ (clusterOf s 0).cfgQ, c.tid ≠ p.team.tid) ∧
    segValid (rdS p.team.pf 1) = true ∧ windowsFit exclForm 0 8 (rdS p.team.pf 1) = true ∧ cfgWaits s 0 = [] ∧ sramBusy s exclForm 0 = false ∧ (clusterOf s 0).cc = [] ∧
    ∃ s', PrefReady s' p ∧ (∀ c ∈ (clusterOf s' 0).cfgQ, c.tid ≠ p.team.tid) ∧ cfgWaits s' 0 ≠ [] := by
  refine ⟨configuring [] [], aPref { s := [(1, 3)] }, pref_ready_in _ _ rfl rfl ⟨rfl, rfl, rfl, fun _ => rfl, rfl, rfl⟩, rfl, by decide, by decide, by decide, by decide, by decide, rfl,
    configuring [⟨5, 1, 0⟩] [{ aTeam {} { st := .scoreboard } with tid := 5, core := 1 }], ⟨rfl, rfl, rfl, rfl, rfl, ?_⟩, by decide, by decide⟩
  intro o ho; exact absurd ho (by simp [configuring, prefAt, machine, State.reset])

/-! ### Memory, chains and matrix commands -/

/-- A gang's machine with other contents, its seat kept; the form may be another one. -/
theorem fresh_calm (s : State) (sl : Slice) (pf : Prefect) (h1 : s.memops = []) (h2 : ∀ c ∈ s.clusters, c.2.walks = []) (h3 : s.teams = [aTeam sl pf]) : Fresh s := by
  refine ⟨by rw [h1]; exact fun o ho => absurd ho (by simp), fun c hc w hw => absurd hw (by rw [h2 c hc]; simp), ?_⟩
  intro t ht e he
  rw [h3] at ht
  obtain rfl : t = aTeam sl pf := by simpa using ht
  exact absurd he (by simp [aTeam])
def anMOps : MOps := { w := 0, d := 126, a := 126, b := 127, z := 1, i := 0, o := 0, q := 0, wide := 0 }
/-- LD of 8 bytes into v126:v127, the last pair, at address 0, a miss; with v127 as its address pair it is ILLEGAL. -/
theorem witness_MemoryIssue : ∃ s g F, GangReady s g ∧ Fresh s ∧ F ∈ mForms ∧ F.Legal g.team.nregs g.mode anMOps 8 ∧ lanesOf g ≠ [] ∧
    (∀ q ∈ lanesOf g, (F.addr anMOps 8 q).toNat % 8 = 0 ∧ canonical (F.addr anMOps 8 q) = true ∧
      tlbTry s g.team.core g.grid.asid g.grid.tenant (F.addr anMOps 8 q) F.acc = none) ∧ ∃ y, ∀ n, ¬ F.Legal g.team.nregs g.mode y n :=
  ⟨_, _, _, gang_ready {} rfl, fresh_calm _ {} {} rfl (by simp [gangAt, machine, State.reset]) rfl, List.mem_cons_self,
    ⟨rfl, by decide, by decide, .inl rfl, .inr ⟨by decide, by decide⟩⟩, by decide, by decide, { anMOps with a := 127 }, fun _ h => absurd h.2.1 (by decide)⟩
/-- Offset 4088 is the last for 8 bytes; size code 3 under FP8 pairs has no size. -/
theorem witness_ScratchpadLanes : ∃ s g f n, GangReady s g ∧ Fresh s ∧ findForm s g.team.fid = some f ∧ NoModeChange s f ∧ teamOut s g.team.tid = false ∧
    SpadLegal g.team.nregs g.mode anMOps n ∧ (∀ q ∈ lanesOf g, (spadOff anMOps n q).toNat % n = 0 ∧ 0 ≤ (spadOff anMOps n q).toInt ∧
      (spadOff anMOps n q).toNat + n = f.cores.length * f.winLen) ∧ ∀ m, ¬ SpadLegal g.team.nregs g.mode { anMOps with d := 127 } m :=
  ⟨_, _, aForm, 8, gang_ready { v := [(504, 4088), (505, 4088), (506, 4088), (507, 4088)] } rfl, fresh_calm _ _ {} rfl (by simp [gangAt, machine, State.reset]) rfl, rfl, by unfold NoModeChange; decide, by decide,
    ⟨rfl, by decide, .inr ⟨by decide, by decide⟩⟩, by decide, fun m h => by
      obtain ⟨h1, -, h | ⟨h, -⟩⟩ := h
      · have : m = 8 := by simpa [accessSize, anMOps] using h1.symm
        subst this; exact absurd h (by decide)
      · have : m = 8 := by simpa [accessSize, anMOps] using h1.symm
        subst this; exact absurd h (by decide)⟩
/-- A cluster held alone, whose segment 0 gives bank 0 to FIFO 0: three words lie in it, and four lanes push; two words are too few. -/
def fifoForm : Form := { aForm with excl := true }
def withFifo (n head : Nat) : State :=
  { gangAt {} with forms := [fifoForm], clusters := [(0, { modes := [2], fifos := [(0, { count := n, head := head, tail := (head + n) % 2048 })] })] }
theorem witness_FifoRuns : ∃ s g, GangReady s g ∧ findForm s g.team.fid = some fifoForm ∧ fifoForm.excl = true ∧ lanesOf g ≠ [] ∧
    fifoBanks s 0 0 = [0] ∧ (∀ q ∈ lanesOf g, (rdV q.2.1 0 q.2.2).toNat = 0) ∧ (∀ n, (g.team.tid, g.lead) ∉ fifoWaits s 0 n) ∧ fifoWaits s 0 0 = [] ∧
    segHeld s 0 0 = false ∧ FifoOk s 0 0 ∧ (fifoWords s 0 0).length + (lanesOf g).length = fifoCap s 0 0 ∧
    ∃ s' g', GangReady s' g' ∧ FifoOk s' 0 0 ∧ (fifoWords s' 0 0).length + 1 = (lanesOf g').length := by
  refine ⟨withFifo 2044 2047, aGang {}, gang_ready_in _ _ rfl ⟨rfl, rfl, rfl, fun _ => rfl, rfl, rfl⟩, rfl, rfl, by decide, by decide, by decide, ?_, by decide, by decide, ⟨by decide, by decide, by decide⟩, ?_,
    withFifo 3 2046, aGang {}, gang_ready_in _ _ rfl ⟨rfl, rfl, rfl, fun _ => rfl, rfl, rfl⟩, ⟨by decide, by decide, by decide⟩, by decide⟩
  · intro n h; exact absurd h (by simp [fifoWaits, withFifo, clusterOf, tget])
  · simp [fifoWords]; decide
/-- Virtual page 0 maps to a frame that may be cached. -/
def cached (s : State) : State :=
  { s with cores := [(0, { tlb := [{ asid := 0, gen := 0, size := 0, page := 0, leaf := openLeaf 0x40000, ptGen := 0 }] })] }
theorem witness_PrefetchIsNoAccess : ∃ s g e lev, GangReady s g ∧ (126 : VReg).toNat + 1 < g.team.nregs ∧ ∀ q ∈ lanesOf g, canonical (pairOf q.2.1 126 q.2.2) = true ∧
    tlbTry s g.team.core g.grid.asid g.grid.tenant (pairOf q.2.1 126 q.2.2) .read = some (.ok e lev) ∧ nearPage s e ∧
    homeDie (leafPa e lev (pairOf q.2.1 126 q.2.2)) = clusterOfCore g.team.core / 64 ∧ classOf e (modeCc g.mode) ≠ 3 :=
  ⟨cached (gangAt {}), aGang {}, openLeaf 0x40000, 3, gang_ready_in _ _ rfl ⟨rfl, rfl, rfl, fun _ => rfl, rfl, rfl⟩, by decide, by
    unfold nearPage; decide⟩
theorem witness_SpreadStores : ∃ s g, GangReady s g ∧ Fresh s ∧ s.ck = [] ∧ g.grid.race = false ∧ lanesOf g ≠ [] ∧ s.l2q = [] ∧ coreSent s g.team.core + 5 * (lanesOf g).length ≤ 2048 ∧
    (∀ q ∈ lanesOf g, (pairOf q.2.1 126 q.2.2).toNat % 4 = 0 ∧ PlainWrite s g (pairOf q.2.1 126 q.2.2) (openLeaf 0x40000 ||| 0x600) 3 ∧
      ∀ k, k < 4 → notCached s (clusterOfCore g.team.core) g.grid.tenant (leafPa (openLeaf 0x40000 ||| 0x600) 3 (pairOf q.2.1 126 q.2.2 + BitVec.ofNat 64 k))) :=
  ⟨mapped (gangAt {}), aGang {}, gang_ready_in _ _ rfl ⟨rfl, rfl, rfl, fun _ => rfl, rfl, rfl⟩, fresh_calm _ {} {} rfl (by simp [mapped, gangAt, machine, State.reset]) rfl, rfl, rfl, by decide, rfl, by decide, by
    unfold PlainWrite nearPage notCached; decide⟩
/-- Group 0 at 0x20000 has one member, this device, with a window of 64 bytes at 0x50000; its list is at 0x21000. -/
def grouped (s : State) : State :=
  { s with sys := [(0x002, 0), (0x042, 0x20000)], mem := [(0x20000, 1), (0x20002, 0), (0x20004, 1), (0x20008, 64), (0x20011, 0x10), (0x20012, 2), (0x2100A, 5)].filter (fun c => c.2 ≠ 0) }
/-- Offset 60 of a group of 64 bytes, the last word. -/
def lastWord : Slice := { v := (List.range 4).map (fun l => (504 + l, BitVec.ofNat 32 (60 * 1024))) }
def aGroup : Group := ⟨false, 0, 64, [(0, 0x50000)]⟩
theorem grouped_stays : GroupsStay (grouped (gangAt lastWord)) (aGang lastWord) anMOps (fun _ => aGroup) := by
  intro mem h q hq
  have e : ∀ a n, a + n ≤ 0x50000 → mgetAll mem a n = mgetAll (grouped (gangAt lastWord)).mem a n := fun a n ha =>
    mgetAll_congr (fun k h1 h2 => h k (fun q hq m hm => .inl (by
      obtain rfl : m = (0, 0x50000) := by simpa [aGroup] using hm
      have : ∀ q ∈ lanesOf (aGang lastWord), copyAt anMOps q (0, 0x50000) = 0x5003C := by decide
      rw [this q hq]; omega)))
  have g : bits 9 0 (pairOf q.2.1 anMOps.a q.2.2) = 0 := (by decide : ∀ q ∈ lanesOf (aGang lastWord), bits 9 0 (pairOf q.2.1 anMOps.a q.2.2) = 0) q hq
  rw [g]
  have e1 : mgetAll mem 0x20000 32 = [1, 0, 0, 0, 1, 0, 0, 0, 64, 0, 0, 0, 0, 0, 0, 0, 0, 0x10, 2] ++ List.replicate 13 0 := (e _ _ (by decide)).trans (by decide)
  have e2 : mgetAll mem 0x21000 16 = [0, 0, 0, 0, 0, 0, 0, 0, 0, 0, 5, 0, 0, 0, 0, 0] := (e _ _ (by decide)).trans (by decide)
  show groupOf { grouped (gangAt lastWord) with mem := mem } 0 0 = some aGroup
  unfold groupOf
  have b : bits 38 16 (sysGet { grouped (gangAt lastWord) with mem := mem } srMcastBase) * 2 ^ 16 + 32 * 0 = 0x20000 := by
    show bits 38 16 (sysGet (grouped (gangAt lastWord)) srMcastBase) * 2 ^ 16 + 32 * 0 = 0x20000; decide
  have p : podSize { grouped (gangAt lastWord) with mem := mem } = podSize (grouped (gangAt lastWord)) := rfl
  simp only [b, e1]
  have c : natAt ([1, 0, 0, 0, 1, 0, 0, 0, 64, 0, 0, 0, 0, 0, 0, 0, 0, 0x10, 2] ++ List.replicate 13 (0 : Byte)) 4 2 = 1 := by decide
  have d : natAt ([1, 0, 0, 0, 1, 0, 0, 0, 64, 0, 0, 0, 0, 0, 0, 0, 0, 0x10, 2] ++ List.replicate 13 (0 : Byte)) 16 8 = 0x21000 := by decide
  simp only [c, d, List.range, List.range.loop, List.map_cons, List.map_nil, Nat.mul_zero, Nat.add_zero, e2, List.all_cons, List.all_nil, p]
  decide
theorem witness_SpreadStores_group : ∃ s g, GangReady s g ∧ Fresh s ∧ s.ck = [] ∧ g.grid.race = false ∧ lanesOf g ≠ [] ∧ groupOk g.team.nregs (anMOps.b, 1) ∧
    (∀ q ∈ lanesOf g, let v := pairOf q.2.1 anMOps.a q.2.2
      bits 63 10 v % 4 = 0 ∧ bits 63 10 v + 4 = aGroup.len ∧ aGroup.members ≠ [] ∧ aGroup.members.length < 4096 ∧
      ∀ m ∈ aGroup.members, m.1 = ownDev s ∧ (aGroup.ordered = false ∨ aGroup.root = ownDev s)) ∧
    GroupsStay s g anMOps (fun _ => aGroup) ∧ OwnStoresGo s g := by
  refine ⟨grouped (gangAt lastWord), aGang lastWord, gang_ready_in _ _ rfl ⟨rfl, rfl, rfl, fun _ => rfl, rfl, rfl⟩, fresh_calm _ lastWord {} rfl (by simp [grouped, gangAt, machine, State.reset]) rfl,
    rfl, rfl, by decide, .inr ⟨by decide, by decide⟩, by decide, grouped_stays, ?_⟩
  refine ⟨rfl, rfl, fun o ho => absurd ho (by simp [grouped, gangAt, machine, State.reset]), fun t ht => absurd ht (by simp [grouped, gangAt, machine, State.reset]), by decide, ?_, by decide, by decide⟩
  intro a; unfold rdcHit; split <;> rfl

def aChain : Chain := { id := 9, fid := 2, gid := 1, tid := 3, core := 0, tenant := 0, asid := 0, headOff := 0, pos := 0 }
/-- Engine 17 is the last; head offset 4064 the last of the window, 4096 is beyond it; with 15 chains there is room for one more, with 16 none. -/
theorem witness_ChainsAreHandedOver : ∃ s g f s' p, GangReady s g ∧ findForm s g.team.fid = some f ∧ PrefReady s' p ∧ findForm s' p.team.fid = some f ∧
    (17 : BitVec 5).toNat < 18 ∧ (∀ q ∈ g.sl, headOk f (rdG q.2 0) ∧ rdG q.2 0 = 4064) ∧ ¬ headOk f 4096 ∧ headCode 4096 = (fcPagePerm, 4) ∧ headCode 4097 = (fcMisalign, 0) ∧
    (engineOf s (engKeyOf g.team.core 17)).chains.length = 15 ∧ (engineOf s' (engKeyOf p.team.core 17)).chains.length = 16 := by
  refine ⟨{ gangAt { g := [(0, 4064)] } with engines := [(engKeyOf 0 17, { chains := List.replicate 15 aChain })] }, aGang { g := [(0, 4064)] }, aForm,
    { prefAt {} with engines := [(engKeyOf 0 17, { chains := List.replicate 16 aChain })] }, aPref {}, gang_ready_in _ _ rfl ⟨rfl, rfl, rfl, fun _ => rfl, rfl, rfl⟩, rfl,
    pref_ready_in _ _ rfl rfl ⟨rfl, rfl, rfl, fun _ => rfl, rfl, rfl⟩, rfl, by decide, ?_, ?_, by decide, by decide, by decide, by decide⟩ <;> unfold headOk <;> decide
/-- Tag 0 is set and the tenant's; tag 63 belongs to another. -/
def tagged (s : State) : State := { s with cores := [(0, { tags := 0x8000000000000001, tagOwner := [(0, 0), (63, 1)] })] }
theorem tagged_free (s : State) : MaskFree (tagged s) 0 0 1 := by
  intro b hb o ho
  have : b = 0 := by
    rcases Nat.lt_or_ge b 64 with h | h
    · have : ∀ b < 64, (1 : W64).getLsbD b = true → b = 0 := by decide
      exact this b h hb
    · rw [BitVec.getLsbD_of_ge _ _ h] at hb; exact absurd hb (by decide)
  subst this
  exact (Option.some.inj ho).symm
theorem witness_TagWaits : ∃ s g, GangReady s g ∧ OwnersOk s g.team.core ∧ SeesTags s g.team.core g.grid.tenant 1 ∧
    (∀ p ∈ g.sl, MaskFree s g.team.core g.grid.tenant (rdG p.2 0) ∧ (1 : W64) &&& rdG p.2 0 ≠ 0) ∧ ¬ MaskFree s g.team.core g.grid.tenant (1 <<< 63) ∧
    ∃ s' p, PrefReady s' p ∧ OwnersOk s' p.team.core ∧ SeesTags s' p.team.core p.grid.tenant 1 ∧ MaskFree s' p.team.core p.grid.tenant (rdS p.team.pf 0) := by
  refine ⟨tagged (gangAt { g := [(0, 1)] }), aGang { g := [(0, 1)] }, gang_ready_in _ _ rfl ⟨rfl, rfl, rfl, fun _ => rfl, rfl, rfl⟩, by unfold OwnersOk; decide, by unfold SeesTags; decide, ?_, ?_,
    tagged (prefAt { s := [(0, 1)] }), aPref { s := [(0, 1)] }, pref_ready_in _ _ rfl rfl ⟨rfl, rfl, rfl, fun _ => rfl, rfl, rfl⟩, by unfold OwnersOk; decide, by unfold SeesTags; decide, tagged_free _⟩
  · intro p hp
    obtain rfl : p = (0, { g := [(0, 1)] }) := by simpa [aGang] using hp
    exact ⟨tagged_free _, by decide⟩
  · intro h; exact absurd (h 63 (by decide) 1 (by decide)) (by decide)
/-- Barrier 63 counts 7: a target of 7 is reached, one of 8 is not; its arm waits for 8. Tag 63 is the highest that SBCARM names. -/
def counting (s : State) : State := { s with clusters := [(0, { bc := [(63, { count := 7, arm := some ⟨8, 63, 0, 3⟩, owner := some 0 })] })] }
theorem witness_ByteCounts : ∃ s g x, GangReady s g ∧ BarFree s (clusterOfCore g.team.core) (63 : BitVec 6).toNat g.grid.tenant ∧
    (barOf s (clusterOfCore g.team.core) 63).arm = some x ∧ TeamIn s x.tid ∧ (∃ p, g.sl = [p]) ∧
    ((barOf s (clusterOfCore g.team.core) 63).count - (7 : W32)).toNat < 2 ^ 31 ∧ ¬ ((barOf s (clusterOfCore g.team.core) 63).count - (8 : W32)).toNat < 2 ^ 31 ∧
    ∃ s' p, PrefReady s' p ∧ BarFree s' (clusterOfCore p.team.core) (63 : BitVec 6).toNat p.grid.tenant ∧ (63 : W64).toNat < 64 ∧
      (∀ o, tagOwner s' p.team.core 63 = some o → o = p.grid.tenant) ∧ TeamIn s' p.team.tid :=
  ⟨counting (gangAt {}), aGang {}, ⟨8, 63, 0, 3⟩, gang_ready_in _ _ rfl ⟨rfl, rfl, rfl, fun _ => rfl, rfl, rfl⟩, .inr rfl, rfl, rfl, ⟨_, rfl⟩, by decide, by decide,
    counting (prefAt {}), aPref {}, pref_ready_in _ _ rfl rfl ⟨rfl, rfl, rfl, fun _ => rfl, rfl, rfl⟩, .inr rfl, by decide, fun o h => absurd h (by simp [counting, tagOwner, coreOf, tget, prefAt, machine, State.reset, aPref, aTeam]), rfl⟩

/-- FP32 by FP32 of K = 1, M = 1; A rows of 16 bytes, B rows of 512. -/
def aPass : List Byte := [0, 0, 0, 0, 0, 0, 0, 0, 0, 0, 0, 0, 0, 0, 0, 0, 16, 0, 0, 2, 0x22]
/-- A machine whose Prefect names a descriptor at form offset 64. -/
def withPass : State := spadWrite (prefAt { s := [(1, 64)] }) aForm 64 aPass
theorem pass_ready : PrefReady withPass (aPref { s := [(1, 64)] }) := pref_ready_in _ _ rfl rfl ⟨rfl, rfl, rfl, fun _ => rfl, rfl, rfl⟩
theorem pass_ok (a : Option Nat) (h : ∀ x, a = some x → x = 4080) : PassOk withPass aForm 64 a := by
  have e : spadRead withPass aForm 64 32 = aPass ++ List.replicate 11 0 := by decide +kernel
  refine ⟨by decide, by unfold inForm; decide, ?_⟩
  rw [e]
  refine ⟨by decide, by decide, by decide, by decide, by decide, by decide, by decide, by decide, by decide, by decide, by decide,
    by unfold inForm; decide, fun h => absurd h (by decide), fun h => absurd h (by decide), fun h => absurd h (by decide), ?_⟩
  intro x hx; rw [h x hx]; unfold inForm; decide
/-- An epilogue word of FP32 in form SRAM: rows of 512 bytes, one row. -/
def anEpi : W64 := 0x200000010
theorem witness_MatrixPosts : ∃ s p f, PrefReady s p ∧ findForm s p.team.fid = some f ∧ PassOk s f (rdS p.team.pf 1).toNat none ∧
    PassOk s f (rdS p.team.pf 1).toNat (some 4080) ∧ ¬ PassOk s f 0 none ∧ FreeName f 31 ∧ freeSlots s (clusterOfCore p.team.core) ≠ [] ∧
    MxRoom s p ∧ EpiOk s p 3584 anEpi ∧ inForm f 3584 (epSpan anEpi) := by
  refine ⟨withPass, aPref { s := [(1, 64)] }, aForm, pass_ready, rfl, pass_ok none (by simp), pass_ok _ (by intro x h; exact (Option.some.inj h).symm), ?_, ⟨rfl, rfl⟩, by decide +kernel, ⟨by decide +kernel, by decide +kernel⟩,
    ⟨by decide, by decide, by decide, by decide, by decide, by decide, fun h => absurd h (by decide), by decide⟩, by unfold inForm; decide⟩
  rintro ⟨-, -, -, -, -, h, -⟩; exact absurd h (by decide +kernel)
/-- Slate 5 of 8 by 8 stands on cluster 0 under name 31 of the form; its record of zeros at offset 0 is legal. -/
def aSlate : Slate := { tenant := 0, id := 5, dv := 8, dk := 8, spill0 := 0x50000, spill1 := 0x60000, first := 320, gen := 0, progress := 0, state := 1, cluster := 0, slot := 0, owner := some 2 }
def slateForm : Form := { aForm with slateNames := [(31, 5)] }
def withSlate (n : Nat) : State := { prefAt {} with forms := [slateForm], slates := [{ aSlate with state := n }] }
theorem slate_ready (n : Nat) : PrefReady (withSlate n) (aPref {}) := pref_ready_in _ _ rfl rfl ⟨rfl, rfl, rfl, fun _ => rfl, rfl, rfl⟩
theorem witness_SlatePosts : ∃ s p f x, PrefReady s p ∧ findForm s p.team.fid = some f ∧ SlateName s p f (31 : BitVec 5).toNat x ∧ Here p x ∧ x.state = 1 ∧
    RecordOk s f 0 x.dv x.dk ∧ OutOk s p f 0 x.dv 1 ∧ owRstride 0 = 0 ∧ owTokens 0 = 1 ∧ OutOk s p f (1 <<< 49) x.dv (owTokens (1 <<< 49)) ∧ owRstride (1 <<< 49) ≠ 0 ∧
    tkLen (spadRead s f 0 16) x.dv x.dk ≤ 64 * owRstride (1 <<< 50) ∧ ∃ s' y, PrefReady s' p ∧ SlateName s' p f 31 y ∧ Away p y ∧ ∃ s'' z, SlateName s'' p f 31 z ∧ z.state = 3 := by
  refine ⟨withSlate 1, aPref {}, slateForm, { aSlate with state := 1 }, slate_ready 1, rfl, ⟨5, rfl, rfl⟩, .inr ⟨rfl, rfl⟩, rfl, ?_, ?_, by decide, by decide, ?_, by decide, by decide,
    withSlate 2, { aSlate with state := 2 }, slate_ready 2, ⟨5, rfl, rfl⟩, .inl rfl, withSlate 3, { aSlate with state := 3 }, ⟨5, rfl, rfl⟩, rfl⟩
  · unfold RecordOk inForm; decide
  · exact ⟨by decide, .inl (by decide), fun h => absurd h (by decide), by decide, by unfold inForm; decide⟩
  · exact ⟨by decide, .inl (by decide), fun h => absurd h (by decide), by decide, by unfold inForm; decide⟩
/-- Address 0x100 is mapped to 0x40100; the tenant may hold slates. -/
def pinning : State :=
  { prefAt { s := [(1, 5), (2, 0x100)] } with binds := [(0, ⟨1, true, 0, 0⟩)], mem := placedMem [] [], tsys := [(0x02C, 32)] }
theorem pin_ready : PrefReady pinning (aPref { s := [(1, 5), (2, 0x100)] }) := pref_ready_in _ _ rfl rfl ⟨rfl, rfl, rfl, fun _ => rfl, rfl, rfl⟩
def pinned : State := asked pinning (aPref { s := [(1, 5), (2, 0x100)] })
theorem witness_MatrixMemory : ∃ s p f, PrefReady s p ∧ findForm s p.team.fid = some f ∧ MxRoom s p ∧
    bits 31 0 (rdS p.team.pf 1) ≠ 0 ∧ rdS p.team.pf 1 >>> 46 = 0 ∧ (rdS p.team.pf 2).toNat % 64 = 0 ∧ tfind 31 f.slateNames = none ∧
    findSlate s p.grid.tenant (bits 31 0 (rdS p.team.pf 1)) = none ∧ quotaOf s p.grid.tenant ≠ 0 ∧ 
    (∃ u, OnePage (asked s p) p (rdS p.team.pf 2) 32 [.read] u (openLeaf 0x40000) 3) ∧
    (∃ u, OnePage (asked s p) p (rdS p.team.pf 2) 68 [.read, .write] u (openLeaf 0x40000) 3) ∧
    ∃ c x lev u, canonical 0x10000 = true ∧ walkNow (asked s p) p.grid.asid p.grid.tenant 0x10000 .read = (.fault c x lev, u) ∧ c ≠ 3 := by
  have w : ∀ u acc, (walkNow u 0 0 0x100 acc).1 = .ok (openLeaf 0x40000) 3 → walkNow u 0 0 0x100 acc = (.ok (openLeaf 0x40000) 3, (walkNow u 0 0 0x100 acc).2) :=
    fun u acc h => Prod.ext h rfl
  refine ⟨pinning, aPref { s := [(1, 5), (2, 0x100)] }, aForm, pin_ready, rfl, ⟨by decide, by decide⟩, by decide, by decide, by decide, rfl, rfl, by decide, ⟨(walkNow pinned 0 0 0x100 .read).2, ?_⟩,
    ⟨(walkNow (walkNow pinned 0 0 0x100 .read).2 0 0 0x100 .write).2, ?_⟩, 1, 0, 3,
    (walkNow pinned 0 0 0x10000 .read).2, by decide, Prod.ext (by decide) rfl, by decide⟩
  · exact ⟨by decide, by decide, by decide, w _ _ (by decide), by decide, by decide⟩
  · exact ⟨by decide, by decide, by decide, ⟨(walkNow pinned 0 0 0x100 .read).2, openLeaf 0x40000, 3, w _ _ (by decide), by decide, by decide, by decide, by decide, by decide, w _ _ (by decide), by decide, by decide⟩⟩
/-- With an entry of its team left, MDRAIN waits; without one it goes on. -/
theorem witness_MatrixConfig : ∃ s p, PrefReady s p ∧ (∀ x ∈ s.slates, x.state < 4 ∧ x.progress ≤ 64) ∧ findSlate s p.grid.tenant 5 = some { aSlate with state := 1 } ∧
    ¬ ((∃ r ∈ (mxOf s (clusterOfCore p.team.core)).resv, r.tid = p.team.tid) ∨ ∃ r ∈ (mxOf s (clusterOfCore p.team.core)).io, r.tid = p.team.tid) ∧ (1 : W64).toNat < 2 :=
  ⟨withSlate 1, aPref {}, slate_ready 1, by decide, rfl, by decide, by decide⟩

/-! ### Events -/

/-- A machine about to perform an event with these operands. -/
def withArg (s : State) (a : Nat) (b : Nat := 0) (v : W64 := 0) : State := { s with arg := { s.arg with a := a, b := b, v := v } }
theorem witness_StartUpAndErrors : ∃ (s : State) (e : MgtEntry) (r : List MgtEntry), s.mgt.ring = e :: r ∧ s.mgt.ring.length < 256 ∧ (∀ b, s.mgt.mbox.next = some b → firmwareOk b = true) ∧
    ∃ s' : State, ¬ s'.mgt.ring.length < 256 :=
  ⟨{ State.reset with mgt := { ring := [⟨1, 0⟩] } }, ⟨1, 0⟩, [], rfl, by decide, fun b h => absurd h (by simp), { State.reset with mgt := { ring := List.replicate 256 ⟨1, 0⟩ } }, by rw [List.length_replicate]; decide⟩
/-- View 63 is the last of a tenant, 65 the last of the root's, 66 and 127 none; host memory ends at 2^39. -/
theorem witness_HostAccess : ∃ s : State, s.mgt.state = 1 ∧ s.arg.a = 63 ∧ s.arg.b = 0x20 ∧ (∃ s' : State, s'.mgt.state = 1 ∧ s'.arg.a = 65 ∧ s'.arg.b = 0x1FF) ∧
    (∃ s' : State, s'.mgt.state = 1 ∧ 66 ≤ s'.arg.a ∧ s'.arg.a < 128) ∧ (∃ s' : State, s'.arg.a = 128 ∧ s'.arg.b = 5) ∧ (∃ s' : State, s'.arg.a = 128 ∧ s'.arg.b = 6) ∧
    ∃ s' : State, s'.mgt.state = 1 ∧ s'.arg.ok = true ∧ s'.arg.data ≠ [] ∧ s'.arg.a + s'.arg.data.length = 2 ^ 39 :=
  ⟨{ withArg State.reset 63 0x20 with mgt := { state := 1 } }, rfl, rfl, rfl, ⟨{ withArg State.reset 65 0x1FF with mgt := { state := 1 } }, rfl, rfl, rfl⟩,
    ⟨{ withArg State.reset 127 with mgt := { state := 1 } }, rfl, by decide, by decide⟩, ⟨withArg State.reset 128 5, rfl, rfl⟩, ⟨withArg State.reset 128 6, rfl, rfl⟩,
    ⟨{ State.reset with mgt := { state := 1 }, arg := { a := 2 ^ 39 - 1, ok := true, data := [7] } }, rfl, rfl, by decide, by decide⟩⟩
/-- An extent of 2 MiB at 2^52 − 2 MiB, the last place. -/
theorem witness_PowerAndMailbox : ∃ s : State, (let d := s.arg.data; natAt d 0 8 % 2 ^ 21 = 0 ∧ natAt d 0 8 < 2 ^ 52 ∧ 0 < natAt d 8 4 * 2 ^ 21 ∧ natAt d 12 1 < 64 ∧ natAt d 13 1 = 1 ∧ natAt d 14 2 = 0) ∧
    s.mgt.extents = [] ∧ (∃ s' : State, s'.clock.sag = true) ∧ (∃ s' : State, s'.clock.sag = false ∧ ∀ t0, s'.clock.recovered = some t0 → t0 + 100000 ≤ s'.clock.time.toNat / 64) ∧
    ∃ s' : State, s'.mgt.mbox.state = 1 ∧ s'.mgt.state ≠ 0 ∧ (s'.mgt.mbox.cmd.extractLsb' 0 8).toNat = 4 ∧ (s'.mgt.mbox.cmd.extractLsb' 16 16).toNat = 3840 ∧
      s'.mgt.mbox.staged = some (3840, []) := by
  refine ⟨{ State.reset with mgt := {}, arg := { data := bytesLE 8 (2 ^ 52 - 2 ^ 21) ++ bytesLE 4 1 ++ [63, 1, 0, 0] } }, by decide, rfl, ⟨{ State.reset with clock := { sag := true } }, rfl⟩,
    ⟨State.reset, rfl, fun t0 h => absurd h (by simp [State.reset])⟩, { State.reset with mgt := { state := 1, mbox := { state := 1, cmd := 0xF000004, staged := some (3840, []) } } }, rfl, by decide, by decide, by decide, rfl⟩
def aReq (k : L2Kind) : L2Req :=
  { id := 7, sl := homeSlice 0x40000, pa := 0x40000, far := false, kind := k, tenant := 0, mgmt := true, at_ := 0, node := 0, die := homeDie 0x40000, cluster := 0, cls := 3, checked := true, ref := .none, gen := 0, owner := (0, 0) }
def aSync (fars : List Nat) : PtSync := { id := 9, tenant := 0, asid := 0, page := 0, nlog := 0, reqs := [], fars := fars }
def aFar (r : Ref) (n : Nat) : FarReq := { id := 3, addr := 0, tenant := 0, n := n, wr := none, ref := r, cls := 3, die := 0, owner := (0, 0) }
/-- This device is number 0 of a pod of order 2, whose every port is up. -/
def reaching : State := { State.reset with sys := [(0x002, 0x20000), (0x040, 0xFFFFFFFF)], fab := { routes := [(1, 0x80)] } }
def aWalk : Walk := { asid := 0, tenant := 0, va := 0x10000, kind := 0, op := 0, core := 0 }
def aMop (k : Instr) (ls : List MLane) : MemOp :=
  { id := 7, core := 0, tid := 3, gid := 1, tenant := 0, asid := 0, pf := false, gang := 0, slices := [0], word := 0, instr := k, pc := 0, mode := 0, lanes := ls, dests := [4], issued := 0 }
/-- Every array clear but the tables that map page 0; a queue of walks, and TENANT_L of tenant 0: 65535 tokens at most, or HARD with none yet. -/
def tabled (s : State) : State := { s with mem := placedMem [] [], binds := [(0, ⟨1, true, 0, 0⟩)] }
/-- A walk of a page with no entry, a walk that its tenant's tokens hold back, and a walk that a lane of LD waits for. -/
theorem witness_TranslationEvents : (∃ (s : State) (w : Walk), (clusterOf s s.arg.a).walks = [w] ∧ w.kind ≠ 1 ∧ NoLaneWaits s ∧
      let u := updCluster s s.arg.a (fun c => { c with walks := [] })
      ∃ x, askFor w.tenant (walkReads u w.asid w.tenant w.va) u = some x ∧ walkQuiet x w.asid w.tenant w.va .read = none) ∧
    (∃ (s : State) (w : Walk), (clusterOf s s.arg.a).walks = [w] ∧ w.kind ≠ 1 ∧ NoLaneWaits s ∧
      let u := updCluster s s.arg.a (fun c => { c with walks := [] })
      askFor w.tenant (walkReads u w.asid w.tenant w.va) u = none) ∧
    ∃ (s : State) (w : Walk) (o : MemOp) (l : MLane), (clusterOf s s.arg.a).walks = [w] ∧ w.kind = 1 ∧ findOp s w.op = some o ∧
      o.lanes.filter (fun l => l.st == .todo && l.va.extractLsb' 16 48 == w.va.extractLsb' 16 48) = [l] := by
  refine ⟨⟨tabled { State.reset with clusters := [(0, { walks := [aWalk] })] }, aWalk, rfl, by decide, fun o ho => absurd ho (by simp [tabled, State.reset]), _, rfl, by decide⟩,
    ⟨tabled { State.reset with clusters := [(0, { walks := [aWalk] })], sys := [(0x100, 0x100010001)] }, aWalk, rfl, by decide, fun o ho => absurd ho (by simp [tabled, State.reset]), by decide⟩,
    tabled { State.reset with clusters := [(0, { walks := [{ aWalk with kind := 1, op := 7 }] })], memops := [aMop (.ld 1 4 126 0 0) [{ gl := 3, va := 0x1FFFC }]] },
    { aWalk with kind := 1, op := 7 }, aMop (.ld 1 4 126 0 0) [{ gl := 3, va := 0x1FFFC }], { gl := 3, va := 0x1FFFC }, rfl, rfl, rfl, by decide⟩
def aZero (dev : Nat) (begun : Bool) : ZeroReq := { leaves := [0x30000], dev := dev, base := 0x40000, len := 65536, tenant := 3, begun := begun, reported := begun }
/-- Export range 63 of domain 5 holds the frames of 0x40000 with every right, for tenant 3. -/
def exporting (p : Packet) : State :=
  { State.reset with sys := [(0x002, 0), (0x1BF, 0x40C0F), (0x1FF, 0x5000000040000)], arg := { p := p } }
theorem sent_of {r : SendRes} (h : (match r with | .sent _ => true | .wait => false | .unreachable => false) = true) : ∃ v, r = .sent v := by
  cases r <;> first | exact ⟨_, rfl⟩ | cases h
/-- Another device asks for a frame that none zeroes, for one that is being zeroed, and for one that is not exported; a request for this
device and one for another, which a port reaches, begin; one ends. -/
theorem witness_TranslationEvents_zeroing :
    (let s : State := { exporting { domain := 5, pa := 0x40000, n := 65536 } with arg := { p := { domain := 5, pa := 0x40000, n := 65536 }, ok := true } }
     let here := fun (s : State) => s.zeros.find? (fun z => z.dev == 1023 && overlaps s.arg.p.pa s.arg.p.n z.base z.len)
     s.arg.ok = true ∧ admission s 5 0x40000 .w = some 3 ∧ here s = none ∧ admission s 6 0x40000 .w = none ∧
     admission { s with zeros := [aZero 1023 true] } 5 0x40000 .w = some 3 ∧ here { s with zeros := [aZero 1023 true] } = some (aZero 1023 true)) ∧
    (∃ s : State, s.arg.ok = false ∧ s.zeros.find? (fun z => !z.begun) = some (aZero 1023 false)) ∧
    (∃ (s : State) (z : ZeroReq) (v : State), s.arg.ok = false ∧ s.zeros.find? (fun z => !z.begun) = some z ∧ z.dev ≠ 1023 ∧
      podSend s (homeDie (z.leaves.headD 0)) z.dev { code := 20, pa := z.base, n := z.len, domain := domainOf s z.tenant } (.zero z.base) 0 = .sent v) ∧
    ∃ s : State, s.zeros.find? (fun z => z.begun && (z.dev == 1023 || z.reported)) = some (aZero 9 true) := by
  refine ⟨by decide, ⟨{ State.reset with zeros := [aZero 1023 false] }, rfl, rfl⟩, ?_, { State.reset with zeros := [aZero 9 true] }, rfl⟩
  have h : ∃ v, podSend { reaching with zeros := [aZero 1 false] } (homeDie 0x30000) 1
      { code := 20, pa := 0x40000, n := 65536, domain := domainOf { reaching with zeros := [aZero 1 false] } 3 } (.zero 0x40000) 0 = .sent v := by
    apply sent_of; decide +kernel
  obtain ⟨v, h⟩ := h
  exact ⟨{ reaching with zeros := [aZero 1 false] }, aZero 1 false, v, rfl, rfl, by decide, h⟩
/-- ASID 5 is free and is bound again; the read of its entry at the home slice; the end of the rebind, with a generation that wraps and one
that does not. -/
theorem witness_TranslationEvents_rebind : (∃ s : State, (s.arg.v.extractLsb' 0 16).toNat = 5 ∧ s.rebind = none ∧ s.grids = [] ∧ s.memops = [] ∧ s.ops = [] ∧ s.cores = [] ∧ s.clusters = [] ∧ s.engines = []) ∧
    (∃ s : State, (s.arg.v.extractLsb' 0 16).toNat = 0xFFFF) ∧ (∃ s : State, (s.arg.v.extractLsb' 0 16).toNat = 5 ∧ s.rebind ≠ none) ∧
    (∃ (s : State) (r : L2Req) (tok : Bool), nextReq s s.arg.a = some (r, tok) ∧ r.ref = .asid 5 ∧ r.kind = .read 8 ∧ r.sl = homeSlice r.pa ∧ r.checked = false ∧ r.far = false ∧ r.die = homeDie r.pa) ∧
    (∃ s : State, ∀ n b, s.rebind ≠ some (n, some b)) ∧ (∃ s : State, s.rebind = some (5, some ⟨1, true, 0, 15⟩)) ∧ ∃ s : State, s.rebind = some (0xFFFE, some ⟨1, true, 0, 0⟩) := by
  refine ⟨⟨{ State.reset with arg := { v := 5 } }, by decide, rfl, rfl, rfl, rfl, rfl, rfl, rfl⟩, ⟨{ State.reset with arg := { v := 0xFFFF } }, by decide⟩,
    ⟨{ State.reset with arg := { v := 5 }, rebind := some (9, none) }, by decide, by decide⟩, ?_, ⟨State.reset, fun n b h => absurd h (by simp [State.reset])⟩,
    ⟨{ State.reset with rebind := some (5, some ⟨1, true, 0, 15⟩) }, rfl⟩, { State.reset with rebind := some (0xFFFE, some ⟨1, true, 0, 0⟩) }, rfl⟩
  exact ⟨{ State.reset with l2q := [{ aReq (.read 8) with ref := .asid 5, checked := false }], arg := { a := homeSlice 0x40000 } }, { aReq (.read 8) with ref := .asid 5, checked := false }, false,
    by decide, rfl, rfl, rfl, rfl, rfl, rfl⟩
/-- A tenant names its own ASID, all of its ASIDs, or one that is not bound to it; a synchronisation with nothing left retires, as the end
of a flip or of nothing; one that a far access of the tenant holds open does not. -/
theorem witness_TranslationEvents_sync : (∃ s : State, (s.arg.v.extractLsb' 0 16).toNat = 5 ∧ (bindOf s 5).valid = true ∧ (bindOf s 5).tenant = s.arg.a) ∧ (∃ s : State, (s.arg.v.extractLsb' 0 16).toNat = 0xFFFF) ∧
    (∃ s : State, (s.arg.v.extractLsb' 0 16).toNat = 5 ∧ (bindOf s 5).valid = false) ∧
    (∃ (s : State) (p : PtSync), s.syncs = [p] ∧ s.memops = [] ∧ s.fars = [] ∧ s.fab.tags = [] ∧ s.flips.find? (fun f => f.sync == some p.id) = none) ∧
    (∃ (s : State) (p : PtSync) (f : FlipReq), s.syncs = [p] ∧ s.memops = [] ∧ s.fars = [] ∧ s.fab.tags = [] ∧ s.flips.find? (fun f => f.sync == some p.id) = some f ∧ f.toHost = false) ∧
    ∃ (s : State) (p : PtSync), s.syncs = [p] ∧ s.fars.any (fun f => p.fars.contains f.id) = true :=
  ⟨⟨{ State.reset with binds := [(5, ⟨1, true, 0, 0⟩)], arg := { v := 5 } }, by decide, rfl, rfl⟩, ⟨{ State.reset with arg := { v := 0xFFFF } }, by decide⟩,
    ⟨{ State.reset with arg := { v := 5 } }, by decide, rfl⟩, ⟨{ State.reset with syncs := [aSync []] }, _, rfl, rfl, rfl, rfl, rfl⟩,
    ⟨{ State.reset with syncs := [aSync []], flips := [⟨0, 0, 0, false, true, some 9⟩] }, _, _, rfl, rfl, rfl, rfl, rfl, rfl⟩,
    { State.reset with syncs := [aSync [3]], fars := [aFar .none 32] }, _, rfl, by decide⟩
def asking (k : L2Kind) : State := { State.reset with l2q := [aReq k], arg := { a := homeSlice 0x40000 } }
/-- A page that stands on the host, V = 0 and ELSE = 1, and one on the device. -/
def paged (e : W64) (f : List FlipReq) : State :=
  { State.reset with mem := msetAll (placedMem [] []) 0x30000 (bytesLE 8 e.toNat), binds := [(0, ⟨1, true, 0, 0⟩)], flips := f, tsys := [(0x026, 3)] }
/-- A home slice takes a read, a write, an ATOM that adds, an LL and an SC; a read of a poisoned sector. -/
theorem witness_MemoryEvents : (∀ k ∈ [L2Kind.read 32, .write [(0x40000, 5)], .atom 0 4 [1, 0, 0, 0] true, .ll 6 4, .sc 6 [1, 0, 0, 0]], ∃ (s : State) (tok : Bool), nextReq s s.arg.a = some (aReq k, tok) ∧ (aReq k).far = false ∧
      (aReq k).sl = homeSlice (aReq k).pa ∧ (∀ o ∈ s.ops, o.phase = 1 → o.unlocked = []) ∧ lockBlocks s (aReq k).pa 4 true = false ∧ poisoned s (aReq k).pa 4 = false) ∧
    (atomNew 0 4 0 (natLE [1, 0, 0, 0]) = some 1) ∧ (∃ (s : State) (tok : Bool), nextReq s s.arg.a = some (aReq (.read 32), tok) ∧ poisoned s 0x40000 32 = true) ∧
    (∃ s : State, resOk s 6 0x40000 = true) ∧ ∃ s : State, nextReq s s.arg.a = none := by
  refine ⟨?_, by decide, ⟨{ asking (.read 32) with poison := [0x2000] }, false, by decide, by decide⟩,
    ⟨{ State.reset with resvs := [{ key := 6, sl := 0, sector := 0x2000, at_ := 0 }] }, by decide⟩, State.reset, rfl⟩
  intro k hk
  refine ⟨asking k, false, ?_, rfl, rfl, fun o ho => absurd ho (by simp [asking, State.reset]), ?_, ?_⟩
  · revert k hk; decide
  · show lockBlocks State.reset 0x40000 4 true = false; decide
  · show poisoned State.reset 0x40000 4 = false; decide
/-- A load of gang lane 3, byte lane, has its data; an entry waits for its lock's end; one is to be replayed, one to be skipped. -/
def aLoad : MemOp := aMop (.ld 1 4 126 0 0) [{ gl := 3, va := 0, st := .done, data := [0xFF, 0, 0, 0x80] }]
def aLog (st action auto : Nat) : OpEntry :=
  { slot := some 0, op := aMop (.ld 1 4 126 0 0) [{ gl := 3, va := 0 }], code := 4, cause := 0, level := 0, va := 0, st := st, action := action, id := 8, seq := 5, ptGen := 0, notReplay := false, auto := auto }
theorem witness_MemoryEvents_returns : (∃ (s : State) (t : Team) (k : Slice), NoLaneWaits s ∧ (s.memops.map MemOp.id).Nodup ∧ aLoad ∈ s.memops ∧ s.arg.a = aLoad.id ∧ teamOut s aLoad.tid = false ∧
      aLoad.kind = .load 4 false ∧ (∀ l ∈ aLoad.lanes, l.st = .done) ∧ (aLoad.lanes.map MLane.gl).Nodup ∧ findTeam s aLoad.tid = some t ∧ t.gambit = [] ∧ ∀ l ∈ aLoad.lanes, t.slice (8 * aLoad.gang + l.gl / 4) = some k) ∧
    (∃ s : State, entriesWhere s (fun e => e.auto == 2 && e.st == 0 && !entryBlocked s e) = [aLog 0 0 2]) ∧ (∃ s : State, entriesWhere s (fun e => e.st == 1) = [aLog 1 0 0]) ∧
    ∃ s : State, entriesWhere s (fun e => e.st == 1) = [aLog 1 1 0] := by
  refine ⟨⟨{ gangAt {} with memops := [aLoad], arg := { a := 7 } }, aTeam {} {}, {}, ?_, by decide, List.mem_singleton.mpr rfl, rfl, by decide, rfl, by decide, by decide, rfl, rfl, by decide⟩,
    ⟨{ gangAt {} with cores := [(0, { log := [aLog 0 0 2] })] }, by decide⟩, ⟨{ gangAt {} with cores := [(0, { log := [aLog 1 0 0] })] }, by decide⟩, { gangAt {} with cores := [(0, { log := [aLog 1 1 0] })] }, by decide⟩
  intro o ho l hl
  obtain rfl : o = aLoad := by simpa using ho
  obtain rfl : l = { gl := 3, va := 0, st := .done, data := [0xFF, 0, 0, 0x80] } := by simpa [aLoad, aMop] using hl
  decide
/-- Flips of page 0 to the device and to the host, a host write that asks for one, one whose hold is over and one that waits; the resizing of
die 0's remote data cache; a far access of another device's, of a queue's wait, and of a lane whose page has left. -/
theorem witness_MemoryEvents_flips :
    (∃ (s : State) (f : FlipReq) (p : Nat) (e : W64) (lev : Nat), s.flips.find? (fun f => f.asked && f.sync.isNone && !f.toHost) = some f ∧ FlipBound s f ∧ leafSlot s f.asid f.va = some (p, e, lev) ∧ e.getLsbD 0 = false ∧ e.getLsbD 5 = true) ∧
    (∃ (s : State) (p : Nat) (e : W64) (lev : Nat), (tsysGet s (bindOf s s.arg.a).tenant 0x026).getLsbD 1 = true ∧ s.flips = [] ∧ holdOver s s.arg.a 0 s.arg.v = true ∧ leafSlot s s.arg.a s.arg.v = some (p, e, lev) ∧ e.getLsbD 0 = true ∧ e.getLsbD 7 = false) ∧
    (∃ (s : State) (x : FlipReq), (tsysGet s (bindOf s s.arg.a).tenant 0x026).getLsbD 1 = true ∧ s.flips = [x] ∧ x.asid = s.arg.a ∧ pageOf s s.arg.a x.va = pageOf s s.arg.a s.arg.v ∧ x.toHost = false) ∧
    (∃ (s : State) (f : FlipReq), s.flips = [f] ∧ f.asked = false ∧ holdOver s f.asid f.tenant f.va = true ∧ f.toHost = false) ∧
    (∃ (s : State) (f : FlipReq) (p : Nat) (e : W64) (lev : Nat), s.flips = [f] ∧ f.asked = false ∧ holdOver s f.asid f.tenant f.va = true ∧ f.toHost = true ∧ FlipBound s f ∧ leafSlot s f.asid f.va = some (p, e, lev) ∧ e.getLsbD 0 = true ∧ e.getLsbD 7 = false) ∧
    (∃ s : State, s.rdcNext0 = some 2 ∧ (∀ t ∈ s.teams, t.core / 256 ≠ s.arg.a % 2) ∧ ∀ o ∈ s.ops, o.core / 256 ≠ s.arg.a % 2) ∧ (∃ (s : State) (f : FarReq) (i : Packet), s.fars = [f] ∧ f.ref = .pod i ∧ f.n ≠ 128) ∧
    (∃ (s : State) (f : FarReq), s.fars = [f] ∧ f.ref = .queue 0 0 ∧ f.n = 8 ∧ farBacked s f.tenant f.addr 8 = false) ∧
    ∃ (s : State) (f : FarReq) (o : MemOp) (l : MLane), s.fars = [f] ∧ f.ref = .lane 7 3 ∧ farBacked s f.tenant f.addr f.n = false ∧ findOp s 7 = some o ∧ o.lane 3 = some l := by
  refine ⟨⟨paged 0x40020 [⟨0, 0, 0, false, true, none⟩], ⟨0, 0, 0, false, true, none⟩, 0x30000, 0x40020, 3, rfl, ⟨by decide, rfl⟩, by decide, by decide, by decide⟩,
    ⟨paged 0x40001 [], 0x30000, 0x40001, 3, by decide, rfl, by decide, by decide, by decide, by decide⟩,
    ⟨paged 0x40001 [⟨0, 0, 0xFFFF, false, true, none⟩], ⟨0, 0, 0xFFFF, false, true, none⟩, by decide, rfl, rfl, by decide, rfl⟩,
    ⟨paged 0x40020 [⟨0, 0, 0, false, false, none⟩], _, rfl, rfl, by decide, rfl⟩,
    ⟨paged 0x40001 [⟨0, 0, 0, true, false, none⟩], ⟨0, 0, 0, true, false, none⟩, 0x30000, 0x40001, 3, rfl, rfl, by decide, rfl, ⟨by decide, rfl⟩, by decide, by decide, by decide⟩,
    ⟨{ State.reset with rdcNext0 := some 2 }, rfl, fun t ht => absurd ht (by simp [State.reset]), fun t ht => absurd ht (by simp [State.reset])⟩,
    ⟨{ State.reset with fars := [aFar (.pod {}) 32] }, _, _, rfl, rfl, by decide⟩, ⟨{ State.reset with fars := [aFar (.queue 0 0) 8] }, _, rfl, rfl, rfl, by decide⟩,
    { gangAt {} with fars := [aFar (.lane 7 3) 4], memops := [aMop (.ld 1 4 126 0 0) [{ gl := 3, va := 0 }]] }, _, _, _, rfl, rfl, by decide, rfl, rfl⟩

/-- Queue 0 of 512 entries runs at entry 0 of 1, whose bytes are these. -/
def queueAt (st : Nat) (b : List Byte) : State := { State.reset with queues := [(0, { ring := 0x80000, tail := 1, state := st })], mem := msetAll [] 0x80000 b, binds := [(0, ⟨1, true, 0, 0⟩)] }
/-- A doorbell of 512 entries fits a ring of 512, one of 513 does not; a descriptor of zeros but FLAGS 1 is good. -/
theorem witness_QueueCommands : ∃ s : State, (queueOf s 0).state = 2 ∧ (512 - (queueOf s 0).head).toNat ≤ 512 * 2 ^ (queueOf s 0).size ∧ ¬ (513 - (queueOf s 0).head).toNat ≤ 512 * 2 ^ (queueOf s 0).size ∧
    (∃ s' : State, (queueOf s' 0).state = 0 ∧ (let b := mgetAll s'.mem (((sysGet s' 0x038).extractLsb' 16 23).toNat * 2 ^ 16) 32
      natAt b 0 8 < 2 ^ 39 ∧ natAt b 0 8 % 2 ^ 16 = 0 ∧ natAt b 8 1 ≤ 7 ∧ natAt b 9 1 ≤ 7 ∧ natAt b 11 1 < 4 ∧ natAt b 11 1 % 2 = 1 ∧ natAt b 24 8 = 0 ∧
      (bindOf s' (natAt b 22 2)).valid = true ∧ (bindOf s' (natAt b 22 2)).tenant = natAt b 10 1)) ∧
    ∃ s' : State, (queueOf s' 0).state = 6 ∧ (queueOf s' 0).disabling = false ∧ (queueOf s' 0).cause ≠ 0x0F :=
  ⟨queueAt 2 [], rfl, by decide, by decide, ⟨{ State.reset with mem := msetAll [] 11 [1], binds := [(0, ⟨1, true, 0, 0⟩)] }, rfl, by decide⟩,
    { State.reset with queues := [(0, { state := 6, cause := 2 })] }, rfl, rfl, by decide⟩
/-- A launch of no team of 8 registers, one slice and form size 1; a NOP; a WAIT for a word that is equal to 0. -/
theorem witness_QueueEntries : (∃ (s : State) (b : List Byte), HeadIs s 0 1 b ∧ ∃ n u, acceptLaunch s 0 b (some 0) = .inr (n, u)) ∧ (∃ (s : State) (b : List Byte), HeadIs s 0 6 b ∧ zeros b [(2, 128)]) ∧ (∃ (s : State) (b : List Byte), HeadIs s 0 6 b ∧ ¬ zeros b [(2, 128)]) ∧
    (∃ (s : State) (b : List Byte), HeadIs s 0 2 b ∧ zeros b [(4, 8), (40, 128)] ∧ natAt b 3 1 = 4) ∧ (∃ (s : State) (b : List Byte), HeadIs s 0 3 b ∧ zeros b [(4, 8), (24, 128)] ∧ natAt b 3 1 = 5) ∧
    (∃ (s : State) (b : List Byte), HeadIs s 0 4 b ∧ zeros b [(4, 8), (48, 128)] ∧ natAt b 3 1 = 4 ∧ s.ops = []) ∧ (∃ (s : State) (b : List Byte), HeadIs s 0 5 b ∧ zeros b [(2, 4), (8, 128)] ∧ (queueOf s 0).rewinding = none) ∧
    nextPlace State.reset [] (ranked State.reset) = none := by
  have head : ∀ ty b, natAt (mgetAll (queueAt 2 b).mem 0x80000 128) 0 1 = ty → HeadIs (queueAt 2 b) 0 ty (mgetAll (queueAt 2 b).mem 0x80000 128) := fun ty b h =>
    ⟨by show (2 : Nat) ≠ 0; decide, by show (2 : Nat) ≠ 6; decide, rfl, by show (0 : BitVec 32) ≠ 1; decide, rfl, rfl, h, fun _ => rfl⟩
  refine ⟨⟨_, _, head 1 [1, 0, 0, 0, 0, 0, 0, 0, 1, 1, 8] (by decide +kernel), ?_⟩, ⟨_, _, head 6 [6] (by decide +kernel), by decide +kernel, by decide +kernel⟩, ⟨_, _, head 6 [6, 0, 1] (by decide +kernel), fun h => absurd h.2 (by decide +kernel)⟩,
    ⟨_, _, head 2 [2, 0, 0, 4] (by decide +kernel), ⟨by decide +kernel, by decide +kernel⟩, by decide +kernel⟩, ⟨_, _, head 3 [3, 0, 0, 5] (by decide +kernel), ⟨by decide +kernel, by decide +kernel⟩, by decide +kernel⟩,
    ⟨_, _, head 4 [4, 0, 0, 4] (by decide +kernel), ⟨by decide +kernel, by decide +kernel⟩, by decide +kernel, rfl⟩, ⟨_, _, head 5 [5] (by decide +kernel), ⟨by decide +kernel, by decide +kernel⟩, rfl⟩, rfl⟩
  exact ⟨_, _, rfl⟩

/-! ### The pod, engines, and the machine as a whole -/

def aPacket : Packet := { dst := 0, domain := 5, pa := 0x40000, data := [1], n := 1 }
theorem aPacket_admitted : Admits (exporting aPacket) aPacket [1, 2, 3] 3 := by
  refine ⟨63, by decide, ?_, ?_, by decide, by decide, by decide⟩
  · unfold Names; decide
  · unfold Names; decide
theorem aPacket_writable : Admits (exporting aPacket) aPacket [2] 3 := by
  refine ⟨63, by decide, ?_, ?_, by decide, by decide, by decide⟩
  · unfold Names; decide
  · unfold Names; decide
theorem not_admitted (rights : List Nat) : ∀ ten, ¬ Admits (exporting { aPacket with domain := 6 }) { aPacket with domain := 6 } rights ten := by
  rintro ten ⟨i, hi, h, -⟩
  have : ∀ i < 64, ¬ Names (exporting { aPacket with domain := 6 }) 6 0x40000 i := by unfold Names; decide
  exact this i hi h
/-- A packet that has to go on, with a port and without; one for this device that an export range admits and one that none does; an event
operation on a locked word and on a free one. -/
theorem witness_PodPackets : (∃ s : State, (came s).dst ≠ ownDev s ∧ minPort s (came s).dst (came s).pa ≠ none) ∧
    (∃ s : State, (came s).dst ≠ ownDev s ∧ minPort s (came s).dst (came s).pa = none ∧ (came s).src ≠ ownDev s ∧ (came s).tags = [(0, 1, 2)]) ∧
    (∃ s : State, (came s).dst = ownDev s ∧ Admits s (came s) [1, 2, 3] 3 ∧ (came s).op < 32) ∧ (∃ s : State, (came s).dst = ownDev s ∧ ∀ ten, ¬ Admits s (came s) [1] ten) ∧
    (∃ s : State, (came s).dst = ownDev s ∧ (came s).op = 34 ∧ lockBlocks s (came s).pa 8 true = true ∧ Admits s (came s) [2] 3) ∧
    ∃ s : State, (came s).dst = ownDev s ∧ (came s).op = 33 ∧ lockBlocks s (came s).pa 8 true = false ∧ Admits s (came s) [1, 2, 3] 3 := by
  have adm : ∀ (s : State) (l : List Nat), s.sys = (exporting aPacket).sys → (∀ r ∈ l, ((0x40C0F : W64)).getLsbD r = true) →
      (came s).domain = 5 → (came s).pa = 0x40000 → reservedFrame s 0x40000 1 = false → Admits s (came s) l 3 := by
    intro s l hs hl hd hp hr
    have g : ∀ n, sysGet s n = sysGet (exporting aPacket) n := fun n => by simp only [sysGet, hs]
    refine ⟨63, by decide, ?_, ?_, ?_, by rw [hp]; exact hr, by rw [g]; decide⟩
    · unfold Names; rw [hd, hp, g, g]; decide
    · intro k hk; unfold Names; rw [hd, hp, g, g]; revert k; decide
    · intro r h; rw [g]; exact hl r h
  refine ⟨⟨{ reaching with arg := { p := { aPacket with dst := 1 } } }, by decide, by decide +kernel⟩, ⟨exporting { aPacket with dst := 9, src := 3, tags := [(0, 1, 2)] }, by decide, rfl, by decide, rfl⟩,
    ⟨exporting aPacket, rfl, adm _ _ rfl (by decide) rfl rfl (by decide), by decide⟩, ⟨exporting { aPacket with domain := 6 }, rfl, not_admitted _⟩,
    ⟨{ exporting { aPacket with op := 34 } with ck := [{ base := 0x40000, limit := 0x40080, mode := 3, dst := true, tenant := 3, fid := 0, gid := 0, op := 0, twin := 0, vbase := 0, len := 128 }] }, rfl, rfl, by decide,
      adm _ _ rfl (by decide) rfl rfl (by decide)⟩,
    exporting { aPacket with op := 33 }, rfl, rfl, by decide, adm _ _ rfl (by decide) rfl rfl (by decide)⟩
/-- The next copy of its source, and one ahead of its turn; an ordered store at the root of group 0, whose one member is this device, and of a
group that is none. -/
theorem witness_PodPackets_copies : (∃ s : State, (came s).dst = ownDev s ∧ (came s).seq = tget 0 (came s).src s.fab.seqFrom ∧ s.fab.held = [] ∧ (came s).op ≠ 1 ∧ lockBlocks s (came s).pa (came s).data.length true = false ∧
      (came s).origin ≠ ownDev s + 1) ∧ (∃ s : State, (came s).dst = ownDev s ∧ (came s).seq ≠ tget 0 (came s).src s.fab.seqFrom ∧ s.fab.held = []) ∧
    (∃ s : State, groupAny s 0 = some aGroup ∧ (came s).dst = ownDev s ∧ (came s).group = 0 ∧ (came s).tags = [(0, 1, 2)] ∧ (aGroup.members.getD 0 (0, 0)).1 = ownDev s) ∧
    ∃ s : State, groupAny s 5 = none ∧ (came s).dst = ownDev s ∧ (came s).group = 5 ∧ (came s).tags = [(0, 1, 2)] :=
  ⟨⟨exporting aPacket, rfl, rfl, rfl, by decide, by decide, by decide⟩, ⟨exporting { aPacket with seq := 1 }, rfl, by decide, rfl⟩,
    ⟨{ grouped (gangAt {}) with arg := { p := { tags := [(0, 1, 2)] } } }, by decide, rfl, rfl, rfl, rfl⟩, exporting { group := 5, tags := [(0, 1, 2)] }, by decide, rfl, rfl, rfl⟩
/-- Operation 7 of an engine, number 0 of its group: an ALLRED of one word of FP32 in group 0. -/
def aColl : EngOp :=
  { id := 7, eng := 256, chain := 9, fid := 2, gid := 1, tid := 3, core := 0, tenant := 0, asid := 0, entry := [6, 0, 0, 0, 0, 0, 0, 0] ++ bytesLE 8 0 ++ bytesLE 8 0 ++ bytesLE 8 4, off := 0, seq := some 0 }
/-- A contribution that finds room, of a collective that runs here and of one that does not yet, and one for a full unit; a delivery; a
response whose tag is in use and one that comes late; a tag whose time is over. -/
theorem witness_PodPackets_ends : (∃ s : State, (came s).dst = ownDev s ∧ s.fab.nodes = [] ∧ s.fab.pendingDel = [] ∧ (came s).data.length ≤ 2 ^ 18 ∧ collOp s (came s).group (came s).seq = some aColl ∧
      ownWindow s aColl (4096 * (came s).index) = some 0x50000 ∧ ownWindow s aColl (aColl.elBytes * (came s).index) = some 0x50000 ∧ aColl.recv / 2 ^ 14 % 2 = 0) ∧
    (∃ s : State, (came s).dst = ownDev s ∧ collOp s (came s).group (came s).seq = none ∧ (came s).origin = 0) ∧
    (∃ s : State, ¬ ((s.fab.nodes.filter (fun n => n.block % 8 == (came s).index % 8)).map (fun n => 4 * n.data.length)).sum +
      ((s.fab.pendingDel.filter (fun q => q.index % 8 == (came s).index % 8)).map (fun q => q.data.length)).sum + (came s).data.length ≤ 2 ^ 18) ∧
    (∃ s : State, (tget ({} : ReqTag) (4096 * (came s).die + (came s).tag) s.fab.tags).use ≠ none ∧ (tget ({} : ReqTag) (4096 * (came s).die + (came s).tag) s.fab.tags).gen = (came s).gen) ∧
    (∃ s : State, (tget ({} : ReqTag) (4096 * (came s).die + (came s).tag) s.fab.tags).use = none) ∧
    ∃ (s : State) (T : ReqTag), s.fab.tags = [] ++ (7, T) :: [] ∧ T.use ≠ none ∧ T.sentAt = some 0 ∧ 0 + T.timeout ≤ s.clock.time.toNat / 64 ∧ s.arg.a = 0 ∧ tget {} 7 s.fab.tags = T := by
  have big : ∀ l : List W32, l.length = 2 ^ 16 → let s : State := { exporting aPacket with fab := { nodes := [{ group := 1, seq := 0, block := 8, node := 0, width := 0, data := l }] } }
      ¬ ((s.fab.nodes.filter (fun n => n.block % 8 == (came s).index % 8)).map (fun n => 4 * n.data.length)).sum +
        ((s.fab.pendingDel.filter (fun q => q.index % 8 == (came s).index % 8)).map (fun q => q.data.length)).sum + (came s).data.length ≤ 2 ^ 18 := by
    intro l hl s
    simp [s, came, exporting, State.reset, aPacket, hl]
  refine ⟨⟨{ grouped (gangAt {}) with ops := [aColl], arg := { p := { data := [0, 0, 0x80, 0x3F] } } }, rfl, rfl, rfl, by decide, rfl, by decide, by decide, by decide⟩, ⟨exporting aPacket, rfl, rfl, rfl⟩,
    ⟨_, big (List.replicate (2 ^ 16) 0) List.length_replicate⟩,
    ⟨{ exporting { tag := 7 } with fab := { tags := [(7, { use := some (.grid 1) })] } }, by decide, rfl⟩, ⟨exporting aPacket, rfl⟩,
    { State.reset with fab := { tags := [(7, { use := some (.grid 1), sentAt := some 0 })] } }, { use := some (.grid 1), sentAt := some 0 }, rfl, by decide, rfl, by decide, rfl, rfl⟩
/-- The pass arrives at a device that holds nothing and reaches device 1 alone, with nothing blocked and with a packet that is; a recovered
contribution at its target; its acknowledgement, and one of another packet. -/
theorem witness_HallPassLinksAndTime : (∃ s : State, (s.fab.routes.map Prod.fst).Pairwise (· < ·) ∧ (came s).dst = ownDev s ∧ s.fab.passHeld = none ∧ Reaches s 1 ∧ blockedList (marked s) = []) ∧
    (∃ (s : State) (b : Packet), (came s).dst = ownDev s ∧ blockedList (marked s) = [b] ∧ b.dst ≠ ownDev s ∧ minPort s b.dst b.pa ≠ none) ∧
    (∃ s : State, (came s).dst = ownDev s ∧ s.arg.p.via ≠ 0 ∧ (came s).code = 5 ∧ collOp s (came s).group (came s).seq = none) ∧ (∃ s : State, (came s).dst ≠ ownDev s) ∧
    (∃ (s : State) (q : Packet), (came s).dst = ownDev s ∧ s.fab.passHeld = some q ∧ (s.fab.routes.map Prod.fst).Pairwise (· < ·) ∧
      (came s).src = q.dst ∧ (came s).die = q.die ∧ (came s).tag = q.tag ∧ (came s).gen = q.gen ∧ (came s).pa = q.pa ∧ (came s).rank = q.rank ∧ (came s).op = q.code) ∧
    (∃ (s : State) (q : Packet), (came s).dst = ownDev s ∧ s.fab.passHeld = some q ∧ (came s).tag ≠ q.tag) ∧
    ∃ s : State, (∀ d, Reaches s d → ownDev s ≤ d) ∧ s.fab.passSeen + 10000000 ≤ s.clock.time.toNat / 64 := by
  have r1 : Reaches { exporting {} with fab := { routes := [(1, 0x80)] } } 1 := ⟨by decide, 0x80, List.mem_singleton.mpr rfl, by decide⟩
  refine ⟨⟨{ exporting {} with fab := { routes := [(1, 0x80)] } }, by decide, rfl, rfl, r1, rfl⟩,
    ⟨{ reaching with fab := { reaching.fab with outbox := [{ aPacket with dst := 1, headAt := some 0, blocked := true }] } }, { aPacket with dst := 1, headAt := some 0, blocked := true }, rfl, rfl, by decide, by decide +kernel⟩,
    ⟨exporting { code := 5, via := 4 }, rfl, by decide, rfl, rfl⟩, ⟨exporting { dst := 9 }, by decide⟩,
    ⟨{ exporting { src := 1, tag := 7 } with fab := { passHeld := some { dst := 1, tag := 7 } } }, _, rfl, rfl, by decide, rfl, rfl, rfl, rfl, rfl, rfl, rfl⟩,
    ⟨{ exporting { src := 1, tag := 8 } with fab := { passHeld := some { dst := 1, tag := 7 } } }, _, rfl, rfl, by decide⟩,
    { exporting {} with clock := { time := BitVec.ofNat 64 (64 * 10000000) } }, ?_, by decide⟩
  rintro d ⟨-, e, h, -⟩; exact absurd h (by simp [exporting, State.reset])
/-- The eighth failed replay of a port; a port that is retraining and one whose three attempts failed, whose queue holds a packet of another
device's or nothing; pod time of a device that follows and of one that leads. -/
theorem witness_HallPassLinksAndTime_links : (∃ s : State, s.arg.ok = false ∧ tget 0 (s.arg.a % 32) s.fab.fails + 1 = 8) ∧ (∃ s : State, 31 ∈ s.fab.retraining ∧ s.arg.a % 32 = 31 ∧ tget 0 31 s.fab.retrains = 2) ∧
    (∃ (s : State) (q : Packet), tget 0 0 s.fab.retrains = 3 ∧ s.fab.outbox.filter (fun x => x.port == 0) = [q] ∧ q.src ≠ ownDev s) ∧
    (∃ s : State, 3 ≤ tget 0 (s.arg.a % 32) s.fab.retrains ∧ ∀ q ∈ s.fab.outbox, q.port ≠ s.arg.a % 32) ∧ (∃ s : State, s.clock.grandmaster = false) ∧ ∃ s : State, s.clock.grandmaster = true :=
  ⟨⟨{ withArg State.reset 31 with fab := { fails := [(31, 7)] } }, rfl, rfl⟩, ⟨{ withArg State.reset 31 with fab := { retraining := [31], retrains := [(31, 2)] } }, by decide, rfl, rfl⟩,
    ⟨{ State.reset with fab := { outbox := [aPacket], retrains := [(0, 3)] } }, aPacket, rfl, rfl, by decide⟩,
    ⟨{ State.reset with fab := { outbox := [{ aPacket with port := 5 }], retrains := [(0, 3)] } }, by decide, by decide⟩,
    ⟨{ State.reset with clock := { grandmaster := false } }, rfl⟩, { State.reset with clock := { grandmaster := true } }, rfl⟩

/-- A machine whose engine 128 walks a chain at this form offset, with an entry of these bytes there. -/
def walking (pos : Nat) (b : List Byte) : State :=
  { spadWrite (gangAt {}) aForm pos b with engines := [(128, { chains := [{ aChain with pos := pos }] })], arg := { a := 128, b := 9 } }
theorem walking_walkable (pos : Nat) (b : List Byte) (h : findForm (walking pos b) 2 = some aForm)
    (h2 : offHeld (walking pos b) aForm pos = false) : Walkable (walking pos b) 128 { aChain with pos := pos } aForm := by
  refine ⟨?_, ?_, rfl, rfl, by show 9 ≠ 0; decide, rfl, rfl, h, rfl, h2⟩
  · exact List.mem_singleton.mpr rfl
  · intro x hx _; exact List.mem_singleton.mp hx
/-- An END entry at 4064, the last place; a chain at 4096 is past its window; a COPY is no entry of a gather engine. -/
theorem witness_ChainEntries : (∃ s eng c e, EntryGoes s eng c e 0) ∧ (∃ s eng c f, Walkable s eng c f ∧ f.cores.length * f.winLen < c.pos + 32) ∧
    (∃ s eng c e, Walks s eng c e ∧ entryOk s eng c e = false) := by
  refine ⟨⟨walking 4064 [], 128, { aChain with pos := 4064 }, _, ⟨aForm, walking_walkable 4064 [] rfl (by decide +kernel), by decide, rfl⟩, by decide +kernel, by decide +kernel, fun _ => rfl⟩,
    ⟨walking 4096 [], 128, _, _, walking_walkable 4096 [] rfl (by decide +kernel), by decide⟩, walking 0 [1], 128, { aChain with pos := 0 }, _, ⟨aForm, walking_walkable 0 [1] rfl (by decide +kernel), by decide, rfl⟩, by decide +kernel⟩
/-- A COPY of 128 bytes from offset 0 to 3968, the last row of the window. -/
def anEop : EngOp := { id := 7, eng := 0, chain := 9, fid := 2, gid := 1, tid := 3, core := 0, tenant := 0, asid := 0, entry := [1, 0, 0, 0, 0x19, 0, 0, 0] ++ bytesLE 8 0 ++ bytesLE 8 3968 ++ bytesLE 8 128, off := 0 }
theorem witness_EngineOperations : ∃ s o f, JustStarted s o 1 f ∧ natAt o.entry 24 8 = 128 ∧ natAt o.entry 16 8 % 128 + 128 ≤ 128 ∧
    natAt o.entry 8 8 + 128 ≤ natAt o.entry 16 8 ∧ natAt o.entry 16 8 + 128 = f.cores.length * f.winLen ∧ o ∈ s.ops ∧ (∀ x ∈ s.ops, x.id = o.id → x = o) ∧ s.arg.a = o.id ∧ o.id ≠ 0 ∧
    ∃ (s' : State) (o' : EngOp), o' ∈ s'.ops ∧ natAt o'.entry 0 1 = 10 ∧ o'.phase = 0 := by
  refine ⟨{ gangAt {} with ops := [anEop], arg := { a := 7 } }, anEop, aForm, ⟨rfl, by decide, rfl, rfl, rfl, rfl, rfl, rfl, rfl, rfl, rfl, rfl, by decide⟩, by decide, by decide, by decide, by decide,
    List.mem_singleton.mpr rfl, fun x hx _ => List.mem_singleton.mp hx, rfl, by decide, { gangAt {} with ops := [{ anEop with entry := [10] }] }, { anEop with entry := [10] }, List.mem_singleton.mpr rfl, by decide, rfl⟩
theorem witness_EncodingRoundTrip : (Instr.ld 1 5 2 0 127).wellFormed = true := by decide
/-- A gang, and a Prefect, on a machine with one word placed, about to execute it; no earlier result of the gang is still to come, its
operands lie in distinct banks; and one whose scheduler picks it not. -/
def placed (t : Team) (turn : Turn) (b : List Byte) : State :=
  let m := msetAll [] 0x40000 b
  updCore { mapped (machine t (.prefect 0)) with mem := m, grids := [{ aGrid with snap := m }], agenda := [turn] } 0
    (fun c => { c with port0 := { active := [{ tid := 3, lead := 0, age := 0, since := 0 }] }, pfAge := [(3, 0)] })
def entered (s : State) (who : Issuer) : State :=
  let s0 : State := { s with agenda := [] }
  { enter s0 (.issue 1 who) 1 (portUsed s0 who) with cur := who }
theorem witness_StepRunsDecoded :
    (let s := placed (aTeam {} {}) (.issue 1 (.gang 3 0)) [0x05, 0x00, 0x8C, 0xC0]
     let u := entered s (.gang 3 0)
     s.agenda = [.issue 1 (.gang 3 0)] ∧ mayIssue u (.gang 3 0) = true ∧ ∃ (g : Gang) (e : W64) (lev : Nat), theGang u 3 0 = some g ∧ g.issues = true ∧ saveHolds u g.team.fid none = false ∧ g.ahead = false ∧ g.pc.toNat % 4 = 0 ∧ canonical g.pc = true ∧
       tlbTry u g.team.core g.grid.asid g.grid.tenant g.pc .fetch = some (.ok e lev) ∧ pteFar e = false ∧ isOwnDev u (pteDev e) = true ∧ poisoned u (leafPa e lev g.pc) 4 = false ∧
       mgetAll u.mem (leafPa e lev g.pc) 4 = mgetAll g.grid.snap (leafPa e lev g.pc) 4 ∧ decode (mgetAll u.mem (leafPa e lev g.pc) 4) = .ok (.bra 2 3 5, []) ∧
       earliest u g (BitVec.ofNat 32 (natLE (mgetAll u.mem (leafPa e lev g.pc) 4))) ≤ u.clock.cycle) ∧
    (let s := placed (aTeam {} {}) (.issue 1 (.prefect 3)) [0xFF, 0x3B, 0x0B, 0xD8]
     let u := entered s (.prefect 3)
     mayIssue u (.prefect 3) = true ∧ ∃ (p : Pref) (e : W64) (lev : Nat), thePref u 3 = some p ∧ prefIssues p.team.pf = true ∧ saveHolds u p.team.fid (some p.team.pf) = false ∧ p.team.pf.pc.toNat % 4 = 0 ∧ canonical p.team.pf.pc = true ∧
       tlbTry u p.team.core p.grid.asid p.grid.tenant p.team.pf.pc .fetch = some (.ok e lev) ∧ pteFar e = false ∧ isOwnDev u (pteDev e) = true ∧ poisoned u (leafPa e lev p.team.pf.pc) 4 = false ∧
       mgetAll u.mem (leafPa e lev p.team.pf.pc) 4 = mgetAll p.grid.snap (leafPa e lev p.team.pf.pc) 4) := by
  refine ⟨⟨rfl, by decide +kernel, _, openLeaf 0x40000 ||| 0x600, 3, rfl, by decide +kernel, by decide +kernel, by decide +kernel, by decide +kernel, by decide +kernel, by decide +kernel, by decide +kernel, by decide +kernel,
    by decide +kernel, by decide +kernel, by decide +kernel, by decide +kernel⟩,
    by decide +kernel, _, openLeaf 0x40000 ||| 0x600, 3, rfl, by decide +kernel, by decide +kernel, by decide +kernel, by decide +kernel, by decide +kernel, by decide +kernel, by decide +kernel, by decide +kernel, by decide +kernel⟩
/-- An earlier result of the gang that its next instruction reads is still to come: its turn is too early. -/
theorem witness_StepRunsDecoded_early : ∃ (s : State) (g : Gang) (w : W32), theGang s 3 0 = some g ∧ gangWaits g.team 0 = false ∧ s.clock.cycle < earliest s g w :=
  ⟨gangAt { first := some (0, 0), count := 5 }, aGang { first := some (0, 0), count := 5 }, 0, rfl, by decide, by decide⟩
/-- WTIME and SWTIME wait for a time that has come, and one that has not. -/
def waiting (t : Team) (who : Issuer) (b : List Byte) (time : W64) : State :=
  { placed t (.issue 1 who) b with arg := { who := who }, clock := { time := time } }
theorem word_of {f : Fetch} {w : W32} {u : State} (h : (match f with | .word a b => decide (a = w ∧ b = u) | .gone => false | .held _ => false) = true) : f = .word w u := by
  cases f <;> simp_all
/-- The slice of register 5, or the Prefect of register 13, waits for time 9. -/
def gangFor9 (time : W64) : State := waiting (aTeam { st := .barrier, g := [(5, 9)] } {}) (.gang 3 0) [0x00, 0x00, 0x25, 0xC9] time
def prefFor9 (time : W64) : State := waiting (aTeam {} { st := .barrier, s := [(13, 9)] }) (.prefect 3) [0x00, 0x0D, 0x40, 0xE0] time
def gangOf9 : Gang := ⟨aTeam { st := .barrier, g := [(5, 9)] } {}, { aGrid with snap := msetAll [] 0x40000 [0x00, 0x00, 0x25, 0xC9] }, 0, [(0, { st := .barrier, g := [(5, 9)] })]⟩
def prefOf9 : Pref := ⟨aTeam {} { st := .barrier, s := [(13, 9)] }, { aGrid with snap := msetAll [] 0x40000 [0x00, 0x0D, 0x40, 0xE0] }⟩
theorem gang9_waits (time : W64) : GangWaiting { gangFor9 time with cur := .gang 3 0 } gangOf9 := by
  refine ⟨rfl, rfl, rfl, ?_, ?_⟩
  · intro p hp
    obtain rfl : p = (0, { st := .barrier, g := [(5, 9)] }) := List.mem_singleton.mp hp
    exact ⟨rfl, rfl, rfl, rfl⟩
  · intro e he
    have : (coreOf { gangFor9 time with cur := .gang 3 0 } 0).log = [] := rfl
    exact absurd (this ▸ he) (by simp)
theorem witness_WaitsAndSafePoints_time :
    (∃ (s u : State) (g : Gang), Fetched s (.wtime 5) u ∧ GangWaiting u g ∧ (∀ p ∈ g.sl, rdG p.2 5 ≤ u.clock.time)) ∧
    (∃ (s u : State) (g : Gang), Fetched s (.wtime 5) u ∧ GangWaiting u g ∧ ∀ p ∈ g.sl, ¬ rdG p.2 5 ≤ u.clock.time) ∧
    (∃ (s u : State) (p : Pref), Fetched s (.swtime 13) u ∧ PrefWaiting u p ∧ rdS p.team.pf 13 ≤ u.clock.time) ∧
    ∃ (s u : State) (p : Pref), Fetched s (.swtime 13) u ∧ PrefWaiting u p ∧ ¬ rdS p.team.pf 13 ≤ u.clock.time :=
  ⟨⟨gangFor9 9, { gangFor9 9 with cur := .gang 3 0 }, gangOf9, ⟨0xC9250000, word_of (by decide +kernel), by decide⟩, gang9_waits 9, by decide⟩,
    ⟨gangFor9 8, { gangFor9 8 with cur := .gang 3 0 }, gangOf9, ⟨0xC9250000, word_of (by decide +kernel), by decide⟩, gang9_waits 8, by decide⟩,
    ⟨prefFor9 9, { prefFor9 9 with cur := .prefect 3 }, prefOf9, ⟨0xE0400D00, word_of (by decide +kernel), by decide⟩, ⟨rfl, rfl, rfl, rfl, rfl⟩, by decide⟩,
    prefFor9 8, { prefFor9 8 with cur := .prefect 3 }, prefOf9, ⟨0xE0400D00, word_of (by decide +kernel), by decide⟩, ⟨rfl, rfl, rfl, rfl, rfl⟩, by decide⟩
theorem witness_IllegalEncodings : ∃ i w s g s' p, encodeWord i = some w ∧ w.toNat / 2 ^ 26 < 0x34 ∧ i.wellFormed = false ∧ GangReady s g ∧ PrefReady s' p :=
  ⟨.bra 15 0 0, _, _, _, _, _, rfl, by decide, by decide, gang_ready {} rfl, pref_ready {} rfl rfl⟩
theorem witness_MemInvKept : ∃ t, MemInv State.reset ∧ step State.reset = .next t := ⟨_, rfl, rfl⟩

/-- A grid of class ALL with two forms, one placed, whose quantum of 2 ms is over at the test's time. -/
def allGrid : Grid := { aGrid with record := [1, 8, 0, 0, 2, 0, 0, 0, 1, 1, 8] ++ List.replicate 117 0, nextForm := 1 }
def allAt (ns : Nat) : State := { gangAt {} with grids := [allGrid], clock := { time := BitVec.ofNat 64 (64 * ns) } }
theorem witness_SchedulerEvents : (∃ (s : State) (f : Form) (g : Grid), s.forms = [f] ∧ s.arg.a = 0 ∧ findGrid s f.gid = some g ∧ f.resident s = true ∧ f.stopReq = none ∧ (∀ t ∈ s.teams, t.gambit = []) ∧
      g.flag 3 = true ∧ g.waiting = true ∧ f.placedAt + g.quantum = s.clock.time.toNat / 64) ∧ returning State.reset = [] ∧
    (∃ (s : State) (e : GangAge), ((portSync s 0 0).cores.length = 1) ∧ (((coreOf (portSync s 0 0) 0).port 0).pending.filter (fun e => match findTeam s e.tid with | some t => gangReady s t e.lead | none => false)) = [e] ∧
      ((coreOf (portSync s 0 0) 0).port 0).active.length < 8) ∧
    (∃ (s : State) (f : Form) (r : Resv), (mxOf s 0).io = [] ∧ (mxOf s 0).resv = [r] ∧ eligible s 0 [] r = true ∧ r.units ≤ 1 ∧ findForm s r.fid = some f ∧ quotaTrim 32 s 0 = s) ∧
    (∃ (s : State) (w : WaitFault), (tenantOf s 0).faults = [w] ∧ w.seq = 5 ∧ w.code ∈ [6, 7, 9, 10, 13, 14]) ∧
    (∃ (s : State) (g : Gang), s.arg.who = .gang 3 0 ∧ theGang s 3 0 = some g ∧ gambitTest s g.team g.grid 0 = none) ∧
    ∃ (s : State) (t : Team) (n : Nat) (e : Episode), s.teams = [t] ∧ t.episodes = [(n, e)] ∧ e.waiting ≠ [] ∧ e.opened + e.limit ≤ s.clock.cycle := by
  refine ⟨⟨allAt 2000000, aForm, allGrid, rfl, rfl, rfl, by decide, rfl, by decide, by decide, by decide, by decide⟩, rfl, ⟨gangAt {}, { tid := 3, lead := 0, age := 0, since := 0, stalled := 0 }, by decide, by decide, by decide⟩, ?_,
    ⟨{ State.reset with tenants := [(0, { faults := [⟨4, 5, 6, 0, 1, .gang 3 [0]⟩] })] }, _, rfl, rfl, by decide⟩, ⟨{ gangAt {} with arg := { who := .gang 3 0 } }, aGang {}, rfl, rfl, by decide⟩,
    { gangAt {} with teams := [{ aTeam {} {} with episodes := [(0, { pc := 0, passed := [], waiting := [1], opened := 0, limit := 0 })] }] }, _, _, _, rfl, rfl, by decide, by decide⟩
  exact ⟨{ gangAt {} with clusters := [(0, { mx := { resv := [{ id := 6, tid := 3, fid := 2, gid := 1, tenant := 0, asid := 0, core := 0, teamId := 0, instr := .mzero 31, word := 0, pc := 0, sa := 0, sb := 0, exact := false, prio := 0, age := 0, skip := 0, units := 1 }] } })], forms := [{ aForm with names := [(31, 4)] }] },
    { aForm with names := [(31, 4)] }, _, rfl, rfl, by decide, by decide, rfl, rfl⟩
/-- A stop that has reached the hard phase's time, one whose form has drained, a launch that finds no place on the one cluster it may use
and a victim there. -/
def stopping (r : StopReq) (sl : Slice) : State := { gangAt sl with forms := [{ aForm with stopReq := some r }], clock := { time := BitVec.ofNat 64 (64 * 50000) } }
def hungry : Grid := { aGrid with gid := 9, prio := 7, record := [1, 0, 0, 0, 1, 0, 0, 0, 1, 1, 8] ++ List.replicate 117 0, acceptSeq := 2 }
def crowded : State :=
  { allAt 100000 with grids := [{ allGrid with nextForm := 2 }, hungry], forms := [exclForm], tsys := [(0x033, 1), (0x034, 0)] }
theorem witness_SchedulerEvents_stops :
    (∃ (s : State) (f : Form) (g : Grid) (r : StopReq), s.forms = [f] ∧ findGrid s f.gid = some g ∧ f.resident s = true ∧ f.stopReq = some r ∧ r.drain = false ∧ softStopped s f.fid = false ∧ (∀ t ∈ s.teams, t.gambit = []) ∧
      r.since + ((tsysGet s g.tenant 0x030).extractLsb' 16 16).toNat * 1000 ≤ s.clock.time.toNat / 64 ∧ (s.teams.map Team.tid).Nodup) ∧
    (∃ (s : State) (f : Form) (r : StopReq), s.forms = [f] ∧ f.resident s = true ∧ f.stopReq = some r ∧ r.drain = true ∧ formDrained s f = true) ∧
    ∃ (s : State) (g h : Grid) (f : Form), ranked s = [g] ∧ g.waitSince + ((sysGet s 0x039).extractLsb' 40 12).toNat * 1000 = s.clock.time.toNat / 64 ∧ findPlace s [] g = none ∧ (∀ x ∈ s.forms, x.stopReq = none) ∧
      victimOf s g = some (f, h) ∧ ∀ t ∈ s.teams, t.gambit = [] := by
  refine ⟨⟨stopping { preempt := false, since := 0 } {}, _, aGrid, _, rfl, rfl, by decide, rfl, rfl, by decide, by decide, by decide, by decide⟩,
    ⟨stopping { preempt := false, since := 0, drain := true } { st := .safepoint }, _, _, rfl, by decide, rfl, rfl, by decide⟩,
    crowded, hungry, { allGrid with nextForm := 2 }, exclForm, by decide, by decide, by decide +kernel, by decide, by decide +kernel, by decide⟩
/-- A gang whose load of far memory is out, and one at the end of its 2048 instructions. -/
def aheadEp : GambitEp := { lead := 0, snap := [(0, {})], blockOp := 7, used := 224, saved := [], issued := 2048 }
def loading : State :=
  let s := gangAt { st := .scoreboard, waitRegs := [.v 4] }
  updCore { s with memops := [aMop (.ld 1 4 126 0 0) [{ gl := 3, va := 0, st := .sent 1 }]], tsys := [(0x022, 0x10000)], fars := [aFar (.lane 7 3) 4], arg := { who := .gang 3 0 } } 0 (fun c => { c with port0 := { active := [{ tid := 3, lead := 0, age := 0, since := 0 }] } })
theorem witness_SchedulerEvents_gambit : (∃ (s : State) (x : Team) (g : Gang) (o : MemOp) (b : Nat), s.arg.who = .gang 3 0 ∧ findTeam s 3 = some x ∧ theGang (setChange s x.core (portNum x 0)) 3 0 = some g ∧
      gambitTest (setChange s x.core (portNum x 0)) g.team g.grid 0 = some (o, b)) ∧
    ∃ (s : State) (t : Team), s.arg.who = .gang 3 0 ∧ findTeam s 3 = some t ∧ gambitFull t 0 = true := by
  refine ⟨⟨loading, aTeam { st := .scoreboard, waitRegs := [.v 4] } {}, aGang { st := .scoreboard, waitRegs := [.v 4] }, aMop (.ld 1 4 126 0 0) [{ gl := 3, va := 0, st := .sent 1 }], 228, rfl, rfl, rfl, by decide +kernel⟩,
    { machine { aTeam { st := .ahead } {} with gambit := [aheadEp] } (.gang 3 0) with arg := { who := .gang 3 0 } }, _, rfl, rfl, by decide⟩

end Sys2Proof.Machine.Tests
end

section
/-! SUPPORT. Fields of registers, tables, token buckets, the error ring and the word of four bytes: what their operations do. -/

namespace Sys2Proof.Machine

/-! ## Fields of registers -/

/-- A field's number is the value of the bits that it extracts. -/
theorem bits_eq_toNat_extractLsb' (lo len : Nat) (v : W64) (h : 0 < len) : bits (lo + len - 1) lo v = (v.extractLsb' lo len).toNat := by
  rw [bits, BitVec.extractLsb'_toNat, show lo + len - 1 - lo + 1 = len by omega]

theorem bits_eq_zero_iff (lo len : Nat) (v : W64) (h : 0 < len) : bits (lo + len - 1) lo v = 0 ↔ v.extractLsb' lo len = 0 := by
  rw [bits_eq_toNat_extractLsb' lo len v h, BitVec.toNat_eq, BitVec.ofNat_eq_ofNat, BitVec.toNat_ofNat, Nat.zero_mod]

/-- Writing fields whose bits are m takes those bits from the written value. -/
theorem writeFields_eq_mixed {l : List (Nat × Nat)} {m : W64} (h : fieldMask l = m) (v old : W64) :
    writeFields l v old = Claims.mixed m v old := by
  rw [writeFields, Claims.mixed, h, BitVec.or_comm]

/-- Writing every bit replaces the register. -/
theorem mixed_allOnes (v old : W64) : Claims.mixed (BitVec.allOnes 64) v old = v := by
  rw [Claims.mixed, BitVec.and_allOnes, BitVec.not_allOnes, BitVec.and_zero, BitVec.or_zero]

/-! ## Tables -/

theorem tfind_tput_other {α : Type} (k j : Nat) (v : α) (t : Tbl α) (h : j ≠ k) : tfind j (tput k v t) = tfind j t := by
  induction t with
  | nil => simp [tput, tfind, h.symm]
  | cons e r ih =>
    obtain ⟨i, u⟩ := e
    by_cases hlt : i < k
    · simp [tput, tfind, hlt, ih]
    · by_cases heq : i = k
      · simp [tput, tfind, heq, h.symm]
      · simp [tput, tfind, hlt, heq, h.symm]

theorem tfind_map {α : Type} (g : Nat → α → α) (k : Nat) (t : Tbl α) :
    tfind k (t.map (fun p => (p.1, g p.1 p.2))) = (tfind k t).map (g k) := by
  induction t with
  | nil => rfl
  | cons e r ih =>
    obtain ⟨i, u⟩ := e
    by_cases h : i = k
    · simp [tfind, h]
    · simpa [tfind, h] using ih

/-- A key that a table lists reads as its value there, another as the default. -/
theorem tget_eq_tfind {α : Type} (d : α) (k : Nat) (t : Tbl α) : tget d k t = (tfind k t).getD d := by
  induction t with
  | nil => rfl
  | cons e r ih =>
    obtain ⟨i, u⟩ := e
    by_cases h : i = k
    · simp [tget, tfind, h]
    · simpa [tget, tfind, h] using ih

/-! ## Token buckets (R71, R73) -/

/-- Settling changes nothing but the buckets. -/
theorem settleTokens_frame (s : State) (t : Nat) : settleTokens s t = { s with buckets := (settleTokens s t).buckets } := rfl

/-- What settling a tenant's buckets makes of the entry at a key. -/
def settled (s : State) (t k : Nat) (b : Nat × Nat) : Nat × Nat :=
  if k % 64 = t then (bucketNow s (k / 64) t, s.clock.elapsed) else b

/-- A slice without a bucket of its own for a tenant holds what the tenant's common bucket holds. -/
theorem bucketNow_unlisted (s : State) (sl t : Nat) (h : tfind (64 * sl + t) s.buckets = none) : bucketNow s sl t = bucketNow s 192 t := by
  have hat : bucketAt s sl t = bucketAt s 192 t := by
    rw [bucketAt, bucketAt, h, tget_eq_tfind]
    cases tfind (64 * 192 + t) s.buckets <;> rfl
  rw [bucketNow, bucketNow, hat]

/-- A settled bucket stands at what it held when it was settled, at that moment. -/
theorem bucketAt_settleTokens (s : State) (sl t : Nat) (ht : t < 64) (hsl : sl < 192) :
    bucketAt (settleTokens s t) sl t = (bucketNow s sl t, s.clock.elapsed) := by
  have hmap : s.buckets.map (fun p => if p.1 % 64 = t then (p.1, (bucketNow s (p.1 / 64) t, s.clock.elapsed)) else p) =
      s.buckets.map (fun p => (p.1, settled s t p.1 p.2)) :=
    List.map_congr_left fun p _ => by unfold settled; split <;> rfl
  have hown : settled s t (64 * sl + t) = fun _ => (bucketNow s sl t, s.clock.elapsed) := by
    funext b
    rw [settled, if_pos (by omega), show (64 * sl + t) / 64 = sl by omega]
  rw [bucketAt, settleTokens, hmap, tget_tput_same, tfind_tput_other _ _ _ _ (by omega), tfind_map, hown]
  cases hf : tfind (64 * sl + t) s.buckets with
  | some b => rfl
  | none => rw [bucketNow_unlisted s sl t hf]; rfl

theorem bucketNow_settleTokens (s : State) (sl t : Nat) (ht : t < 64) (hsl : sl < 192) :
    bucketNow (settleTokens s t) sl t = bucketNow s sl t := by
  have hcap : bucketNow s sl t ≤ burstOf s t * 21000 := Nat.min_le_right _ _
  show min ((bucketAt (settleTokens s t) sl t).1 + tokensOf s t * (s.clock.elapsed - (bucketAt (settleTokens s t) sl t).2)) (burstOf s t * 21000) = _
  rw [bucketAt_settleTokens s sl t ht hsl]
  simpa using hcap

/-! ## The management error ring (R512) -/

theorem mgtRecord_records (s : State) (cause unit index detail : Nat) :
    Claims.Records s (mgtRecord s cause unit index detail) cause unit index detail := by
  by_cases h : s.mgt.ring.length < 256
  · rw [Claims.Records, if_pos h, mgtRecord, if_neg (by omega)]
    refine ⟨_, rfl, ?_, rfl⟩
    simp only [Nat.mul_comm]
  · rw [Claims.Records, if_neg h, mgtRecord, if_pos (by omega)]

/-! ## The word that four bytes make -/

theorem toNat_append_byte {n : Nat} (x : BitVec n) (b : Byte) : (x ++ b).toNat = b.toNat + 256 * x.toNat := by
  have hb : b.toNat < 2 ^ 8 := b.isLt
  rw [BitVec.toNat_append, ← Nat.shiftLeft_add_eq_or_of_lt hb, Nat.shiftLeft_eq]
  omega

/-- The little-endian number of four bytes is that of the word that they make (R8). -/
theorem wordOfBytes_eq (b0 b1 b2 b3 : Byte) : wordOfBytes b0 b1 b2 b3 = BitVec.ofNat 32 (natLE [b0, b1, b2, b3]) := by
  apply BitVec.eq_of_toNat_eq
  have h := (wordOfBytes b0 b1 b2 b3).isLt
  have hw : (wordOfBytes b0 b1 b2 b3).toNat = natLE [b0, b1, b2, b3] := by
    simp only [wordOfBytes, toNat_append_byte, natLE, Nat.mul_zero, Nat.add_zero]
  rw [hw] at h
  rw [BitVec.toNat_ofNat, Nat.mod_eq_of_lt h, hw]

/-- Four bytes decode to an instruction, and nothing is left, exactly if their word does. -/
theorem decode_word_iff {b : List Byte} (hb : b.length = 4) (i : Instr) :
    decode b = .ok (i, []) ↔ decodeWord (BitVec.ofNat 32 (natLE b)) = some i := by
  obtain ⟨b0, b1, b2, b3, rfl⟩ := List.length_eq_four.mp hb
  rw [decode, ← wordOfBytes_eq]
  cases decodeWord (wordOfBytes b0 b1 b2 b3) <;> simp

theorem decodeWord_none {b : List Byte} (hb : b.length = 4) (h : ∀ i, decode b ≠ .ok (i, [])) :
    decodeWord (BitVec.ofNat 32 (natLE b)) = none :=
  Option.eq_none_iff_forall_ne_some.mpr fun i hi => h i ((decode_word_iff hb i).mpr hi)

theorem length_mgetAll (m : List Host.Cell) (a n : Nat) : (mgetAll m a n).length = n := by
  induction n generalizing a with
  | zero => rfl
  | succ n ih => rw [mgetAll, List.length_cons, ih]

end Sys2Proof.Machine
end

section
/-! SUPPORT. The host's accesses to BAR0 and BAR4 (R9, R73, R498, R499, R501, R511; log entries 82 and 97). -/

namespace Sys2Proof.Machine

/-! ## Registers that a write replaces field by field (R9, Table 10.12) -/

/-- Registers of a tenant whose write only replaces fields, with the bits of those fields. -/
def plainTenantRegs : List (Nat × W64) :=
  [(0x21, 1), (0x22, 0x1FFFF), (0x26, 0xFFFF0003), (0x2D, 0xFFFF), (0x32, 0x7FFFFFFFFF),
    (0x33, 0xFFFFFFFFFFFFFFFF), (0x34, 0xFFFFFFFFFFFFFFFF)]

theorem tenantWrite_flags (s : State) (ten : Nat) (v : W64) :
    tenantWrite s ten 0x20 v = tsysSet s ten 0x20 (tsysGet s ten 0x20 &&& ~~~v) := rfl

theorem tenantWrite_plain (s : State) (ten n : Nat) (v m : W64) (h : (n, m) ∈ plainTenantRegs) :
    tenantWrite s ten n v = tsysSet s ten n (Claims.mixed m v (tsysGet s ten n)) := by
  have put (l : List (Nat × Nat)) (hm : fieldMask l = m) (hw : tenantWrite s ten n v = tsysSet s ten n (writeFields l v (tsysGet s ten n))) :
      tenantWrite s ten n v = tsysSet s ten n (Claims.mixed m v (tsysGet s ten n)) := by
    rw [hw, writeFields_eq_mixed hm]
  have all (hm : m = BitVec.allOnes 64) (hw : tenantWrite s ten n v = tsysSet s ten n v) :
      tenantWrite s ten n v = tsysSet s ten n (Claims.mixed m v (tsysGet s ten n)) := by
    rw [hw, hm, mixed_allOnes]
  simp only [plainTenantRegs, List.mem_cons, List.not_mem_nil, or_false, Prod.mk.injEq] at h
  rcases h with ⟨rfl, rfl⟩ | ⟨rfl, rfl⟩ | ⟨rfl, rfl⟩ | ⟨rfl, rfl⟩ | ⟨rfl, rfl⟩ | ⟨rfl, rfl⟩ | ⟨rfl, rfl⟩
  · exact put [(0, 0)] rfl rfl
  · exact put [(16, 0)] rfl rfl
  · exact put [(31, 16), (1, 0)] rfl rfl
  · exact put [(15, 0)] rfl rfl
  · exact put [(38, 0)] rfl rfl
  · exact all rfl rfl
  · exact all rfl rfl

theorem tenantWrite_ptGen (s : State) (ten : Nat) (v : W64) : tenantWrite s ten 0x25 v = s := rfl

/-- SYS.PREEMPT_CTL takes a written soft time other than 0 as it is. -/
theorem tenantWrite_preempt (s : State) (ten : Nat) (v : W64) (h : v.extractLsb' 16 16 ≠ 0) :
    tenantWrite s ten 0x30 v = tsysSet s ten 0x30 (Claims.mixed 0xFFFF0000FFFF0000 v (tsysGet s ten 0x30)) := by
  have hone : atLeast1 31 16 v = v := if_neg (mt (bits_eq_zero_iff 16 16 v (by decide)).mp h)
  have hm : fieldMask [(63, 48), (31, 16)] = 0xFFFF0000FFFF0000 := rfl
  show tsysSet s ten 0x30 (writeFields [(63, 48), (31, 16)] (atLeast1 31 16 v) _) = _
  rw [hone, writeFields_eq_mixed hm]

/-- Registers of the package whose write only replaces fields, with the bits of those fields; a range's order is at most 16. -/
def PlainPackageReg (n : Nat) (v m : W64) : Prop :=
  (n, m) ∈ [(0x38, 0x7FFFFF0000), (0x3B, 0x7FFFFF0000), (0x41, 0x7FFFFF0000), (0x42, 0x7FFFFF0000)] ∨
    (0x160 ≤ n ∧ n < 0x180 ∧ m = 0xFFFFFF7FFFFF0000) ∨
    (0x140 ≤ n ∧ n < 0x160 ∧ (v.extractLsb' 5 5).toNat ≤ 16 ∧ m = 0x7FFFFFFFE1) ∨
    (0x180 ≤ n ∧ n < 0x1C0 ∧ m = 0x7FFFFFFC0F) ∨ (0x1C0 ≤ n ∧ n < 0x200 ∧ m = 0xFFFF007FFFFF0000)

/-- The fields of plain registers, by register number. -/
theorem plainFields_eq (n : Nat) : plainFields n =
    if n = 0x38 ∨ n = 0x3B ∨ n = 0x41 ∨ n = 0x42 then [(38, 16)]
    else if 0x100 ≤ n ∧ n < 0x140 then [(63, 40), (32, 0)]
    else if 0x140 ≤ n ∧ n < 0x160 then [(38, 5), (0, 0)]
    else if 0x160 ≤ n ∧ n < 0x180 then [(63, 40), (38, 16)]
    else if 0x180 ≤ n ∧ n < 0x1C0 then [(38, 10), (3, 0)]
    else if 0x1C0 ≤ n ∧ n < 0x200 then [(63, 48), (38, 16)]
    else [] := rfl

theorem PlainPackageReg.fields {n : Nat} {v m : W64} (h : PlainPackageReg n v m) : plainFields n ≠ [] ∧ fieldMask (plainFields n) = m := by
  have of (l : List (Nat × Nat)) (hl : l ≠ []) (hm : fieldMask l = m) (hp : plainFields n = l) : plainFields n ≠ [] ∧ fieldMask (plainFields n) = m := by
    rw [hp]; exact ⟨hl, hm⟩
  obtain h | ⟨h1, h2, rfl⟩ | ⟨h1, h2, -, rfl⟩ | ⟨h1, h2, rfl⟩ | ⟨h1, h2, rfl⟩ := h
  · simp only [List.mem_cons, List.not_mem_nil, or_false, Prod.mk.injEq] at h
    rcases h with ⟨rfl, rfl⟩ | ⟨rfl, rfl⟩ | ⟨rfl, rfl⟩ | ⟨rfl, rfl⟩
    all_goals exact of [(38, 16)] (by decide) rfl rfl
  · exact of [(63, 40), (38, 16)] (by decide) rfl (by
      rw [plainFields_eq, if_neg (by omega), if_neg (by omega), if_neg (by omega), if_pos ⟨h1, h2⟩])
  · exact of [(38, 5), (0, 0)] (by decide) rfl (by rw [plainFields_eq, if_neg (by omega), if_neg (by omega), if_pos ⟨h1, h2⟩])
  · exact of [(38, 10), (3, 0)] (by decide) rfl (by
      rw [plainFields_eq, if_neg (by omega), if_neg (by omega), if_neg (by omega), if_neg (by omega), if_pos ⟨h1, h2⟩])
  · exact of [(63, 48), (38, 16)] (by decide) rfl (by
      rw [plainFields_eq, if_neg (by omega), if_neg (by omega), if_neg (by omega), if_neg (by omega), if_neg (by omega), if_pos ⟨h1, h2⟩])

/-- Registers of the package whose write has an effect of its own. -/
def packageSpecial : List Nat := [0x29, 0x35, 0x36, 0x37, 0x39, 0x3A, 0x3C, 0x3D, 0x3E, 0x3F]

theorem PlainPackageReg.not_special {n : Nat} {v m : W64} (h : PlainPackageReg n v m) : n ∉ packageSpecial := by
  simp only [PlainPackageReg, packageSpecial, List.mem_cons, List.not_mem_nil, or_false, Prod.mk.injEq] at *
  omega

theorem PlainPackageReg.not_allotment {n : Nat} {v m : W64} (h : PlainPackageReg n v m) : ¬ (0x100 ≤ n ∧ n < 0x140) := by
  simp only [PlainPackageReg, List.mem_cons, List.not_mem_nil, or_false, Prod.mk.injEq] at h
  omega

/-- The order that a plain write gives a range is not above 16. -/
theorem PlainPackageReg.order {n : Nat} {v m : W64} (h : PlainPackageReg n v m) (hr : 0x140 ≤ n ∧ n < 0x160) : ¬ 16 < bits 9 5 v := by
  simp only [PlainPackageReg, List.mem_cons, List.not_mem_nil, or_false, Prod.mk.injEq] at h
  rw [bits_eq_toNat_extractLsb' 5 5 v (by decide)]
  omega

/-- A write to a package register without an effect of its own replaces its fields; of a tenant's allotment it settles the
buckets first (R73), and an order above 16 of a range is written as 16. -/
theorem packageWrite_of_not_special (s : State) (die n : Nat) (v : W64) (h : n ∉ packageSpecial) :
    packageWrite s die n v =
      if 0x100 ≤ n ∧ n < 0x140 then sysSet (settleTokens s (n - 0x100)) n (writeFields (plainFields n) v (sysGet s n))
      else if 0x140 ≤ n ∧ n < 0x160 then sysSet s n (writeFields (plainFields n) (if 16 < bits 9 5 v then withBits 9 5 16 v else v) (sysGet s n))
      else if (plainFields n).isEmpty then s
      else sysSet s n (writeFields (plainFields n) v (sysGet s n)) := by
  simp only [packageSpecial, List.mem_cons, List.not_mem_nil, or_false, not_or] at h
  obtain ⟨h1, h2, h3, h4, h5, h6, h7, h8, h9, h10⟩ := h
  rw [packageWrite, if_neg (show n ≠ srRdcSize from h1), if_neg (show n ≠ srTwinPool from h2), if_neg (show n ≠ srQueueDb from h3),
    if_neg (show n ≠ srQueueCmd from h4), if_neg (show n ≠ srSchedCtl from h5), if_neg (show n ≠ srTenantReset from h6),
    if_neg (show n ≠ srAsidRebind from h7), if_neg (show n ≠ srSramDefault from h8), if_neg (show n ≠ srFabCtl from h9),
    if_neg (show n ≠ srFabCnt from h10)]
  rfl

theorem packageWrite_doorbell (s : State) (die : Nat) (v : W64) :
    packageWrite s die 0x36 v = doorbell s (v.extractLsb' 0 13).toNat (v.extractLsb' 32 32) := by
  rw [← bits_eq_toNat_extractLsb' 0 13 v (by decide)]
  rfl

theorem packageWrite_fixed (s : State) (die n : Nat) (v : W64) (h : n ∉ packageSpecial) (hf : plainFields n = []) (hl : n < 0x100) :
    packageWrite s die n v = s := by
  rw [packageWrite_of_not_special s die n v h, if_neg (by omega), if_neg (by omega), hf]
  rfl

theorem packageWrite_plain (s : State) (die n : Nat) (v m : W64) (h : PlainPackageReg n v m) :
    packageWrite s die n v = sysSet s n (Claims.mixed m v (sysGet s n)) := by
  obtain ⟨hne, hm⟩ := h.fields
  have hput : packageWrite s die n v = sysSet s n (writeFields (plainFields n) v (sysGet s n)) := by
    rw [packageWrite_of_not_special s die n v h.not_special, if_neg h.not_allotment]
    by_cases hr : 0x140 ≤ n ∧ n < 0x160
    · rw [if_pos hr, if_neg (h.order hr)]
    · rw [if_neg hr, if_neg (mt List.isEmpty_iff.mp hne)]
  rw [hput, writeFields_eq_mixed hm]

theorem packageWrite_allotment (s : State) (die n : Nat) (v : W64) (h1 : 0x100 ≤ n) (h2 : n < 0x140) :
    packageWrite s die n v = sysSet (settleTokens s (n - 0x100)) n (Claims.mixed 0xFFFFFF01FFFFFFFF v (sysGet s n)) := by
  have hm : fieldMask [(63, 40), (32, 0)] = 0xFFFFFF01FFFFFFFF := rfl
  have hs : n ∉ packageSpecial := by simp only [packageSpecial, List.mem_cons, List.not_mem_nil, or_false]; omega
  rw [packageWrite_of_not_special s die n v hs, if_pos ⟨h1, h2⟩, plainFields_eq, if_neg (by omega), if_pos ⟨h1, h2⟩, writeFields_eq_mixed hm]

/-! ## The host's writes to BAR0 by view and register (R498, R501, R511) -/

theorem sysAssigned_iff (n : Nat) :
    sysAssigned n = true ↔ n ≤ 2 ∨ (0x10 ≤ n ∧ n ≤ 0x13) ∨ (0x20 ≤ n ∧ n ≤ 0x4B) ∨ (0x100 ≤ n ∧ n ≤ 0x1FF) := by
  simp only [sysAssigned, Bool.or_eq_true, decide_eq_true_eq, or_assoc]

theorem hostIgnores_iff (n : Nat) : hostIgnores n = true ↔ n = 0x23 ∨ (0x10 ≤ n ∧ n ≤ 0x13) ∨ (0x44 ≤ n ∧ n ≤ 0x4B) := by
  simp only [hostIgnores, Bool.or_eq_true, beq_iff_eq, decide_eq_true_eq]
  simp only [srTeamId, srSpadWin, srKarg, srGrid, srGambitCnt, srSramMode, srSramFifo]
  omega

theorem isPerTenant_iff (n : Nat) :
    isPerTenant n = true ↔ (0x20 ≤ n ∧ n ≤ 0x34 ∧ n ≠ 0x23 ∧ n ≠ 0x28 ∧ n ≠ 0x29) ∨ n = 0x43 := by
  simp only [isPerTenant, List.contains_iff_mem, List.mem_cons, List.not_mem_nil, or_false, srFpflags, srCheck, srGambitCtl, srPtSync,
    srPtGen, srPtCtl, srRdcCtl, srCkoutCtl, srRaceCtl, srRaceLog, srPodDomain, srFaultRing, srFaultResume, srPreemptCtl, srTape,
    srSwapPool, srPlaceD0, srPlaceD1, srSlateCtl]
  omega

theorem isPerTenant_of_plain {n : Nat} {m : W64} (h : (n, m) ∈ plainTenantRegs) : isPerTenant n = true := by
  simp only [plainTenantRegs, List.mem_cons, List.not_mem_nil, or_false, Prod.mk.injEq] at h
  rw [isPerTenant_iff]
  omega

theorem hostWrite_notReady (s : State) (view n : Nat) (v : W64) (hv : view < 128) (hs : s.mgt.state ≠ 1) : hostWrite s view n v = s := by
  rw [hostWrite, if_neg (by omega), if_pos hs]

/-- A write to a system register's place that no view or number assigns is recorded. -/
theorem hostWrite_unassigned (s : State) (view n : Nat) (v : W64) (hv : view < 128) (hs : s.mgt.state = 1)
    (h : 66 ≤ view ∨ sysAssigned n = false) : hostWrite s view n v = hostAcc s (0x8000 * view + 8 * n) := by
  rw [hostWrite, if_neg (by omega), if_neg (not_not.mpr hs), if_pos (by simpa using h)]

theorem hostWrite_management (s : State) (n : Nat) (v : W64) (hn : n < 6) : hostWrite s 128 n v = mgtWrite s n v := by
  rw [hostWrite, if_pos (le_refl 128), if_pos ⟨rfl, hn⟩]

theorem hostWrite_beyond (s : State) (view n : Nat) (v : W64) (hv : 128 ≤ view) (h : view ≠ 128 ∨ 6 ≤ n) :
    hostWrite s view n v = hostAcc s (0x8000 * view + 8 * n) := by
  rw [hostWrite, if_pos hv, if_neg (by omega)]

section
variable (s : State) (view n : Nat) (v : W64) (hv : view < 66) (hs : s.mgt.state = 1)
include hv hs

theorem hostWrite_assigned (ha : sysAssigned n = true) : hostWrite s view n v =
    if hostIgnores n then s
    else if isPerTenant n then (if view < 64 then tenantWrite s view n v else s)
    else packageWrite s (viewDie view) n v := by
  have hn : ¬ (66 ≤ view ∨ (!sysAssigned n) = true) := by
    rw [ha]
    rintro (h | h)
    · omega
    · cases h
  rw [hostWrite, if_neg (by omega), if_neg (not_not.mpr hs), if_neg hn]

theorem hostWrite_ignored (h : hostIgnores n = true) : hostWrite s view n v = s := by
  have ha : sysAssigned n = true := by
    rw [hostIgnores_iff] at h
    rw [sysAssigned_iff]
    omega
  rw [hostWrite_assigned s view n v hv hs ha, if_pos h]

theorem hostWrite_perTenant (h : isPerTenant n = true) :
    hostWrite s view n v = if view < 64 then tenantWrite s view n v else s := by
  have hi : ¬ hostIgnores n = true := by
    rw [isPerTenant_iff] at h
    rw [hostIgnores_iff]
    omega
  have ha : sysAssigned n = true := by
    rw [isPerTenant_iff] at h
    rw [sysAssigned_iff]
    omega
  rw [hostWrite_assigned s view n v hv hs ha, if_neg hi, if_pos h]

theorem hostWrite_package (h : n ≤ 2 ∨ n = 0x28 ∨ n = 0x29 ∨ (0x35 ≤ n ∧ n ≤ 0x42) ∨ (0x100 ≤ n ∧ n ≤ 0x1FF)) :
    hostWrite s view n v = packageWrite s (viewDie view) n v := by
  have hi : ¬ hostIgnores n = true := by rw [hostIgnores_iff]; omega
  have ht : ¬ isPerTenant n = true := by rw [isPerTenant_iff]; omega
  have ha : sysAssigned n = true := by rw [sysAssigned_iff]; omega
  rw [hostWrite_assigned s view n v hv hs ha, if_neg hi, if_neg ht]

/-- A register that the host reads only, or of which it sees no copy, keeps its value. -/
theorem hostWrite_readOnly (h : n ≤ 2 ∨ (0x10 ≤ n ∧ n ≤ 0x13) ∨ n = 0x23 ∨ n = 0x25 ∨ n = 0x28 ∨ n = 0x40 ∨ (0x44 ≤ n ∧ n ≤ 0x4B)) :
    hostWrite s view n v = s := by
  by_cases hi : hostIgnores n = true
  · exact hostWrite_ignored s view n v hv hs hi
  rw [hostIgnores_iff] at hi
  obtain rfl | hp : n = 0x25 ∨ (n ≤ 2 ∨ n = 0x28 ∨ n = 0x40) := by omega
  · rw [hostWrite_perTenant s view _ v hv hs rfl, tenantWrite_ptGen, ite_self]
  · have hf : plainFields n = [] := by
      rw [plainFields_eq, if_neg (by omega), if_neg (by omega), if_neg (by omega), if_neg (by omega), if_neg (by omega), if_neg (by omega)]
    have hn : n ∉ packageSpecial := by simp only [packageSpecial, List.mem_cons, List.not_mem_nil, or_false]; omega
    rw [hostWrite_package s view n v hv hs (by omega), packageWrite_fixed s _ n v hn hf (by omega)]

/-- The root's views show no tenant's register. -/
theorem hostWrite_root_perTenant (hr : 64 ≤ view) (h : isPerTenant n = true) : hostWrite s view n v = s := by
  rw [hostWrite_perTenant s view n v hv hs h, if_neg (by omega)]

theorem hostWrite_tenant (ht : view < 64) (h : isPerTenant n = true) : hostWrite s view n v = tenantWrite s view n v := by
  rw [hostWrite_perTenant s view n v hv hs h, if_pos ht]

theorem hostWrite_plain {m : W64} (h : PlainPackageReg n v m) : hostWrite s view n v = sysSet s n (Claims.mixed m v (sysGet s n)) := by
  have hn : n ≤ 2 ∨ n = 0x28 ∨ n = 0x29 ∨ (0x35 ≤ n ∧ n ≤ 0x42) ∨ (0x100 ≤ n ∧ n ≤ 0x1FF) := by
    simp only [PlainPackageReg, List.mem_cons, List.not_mem_nil, or_false, Prod.mk.injEq] at h
    omega
  rw [hostWrite_package s view n v hv hs hn, packageWrite_plain s _ n v m h]

end

/-! ## Management registers (R511) -/

/-- MGT.CTL: RESET resets the device, ERRCLR empties the ring. -/
theorem mgtWrite_ctl (s : State) (v : W64) : mgtWrite s 1 v =
    (if v.getLsbD 0 then deviceReset (if v.getLsbD 1 then errClear s else s) else if v.getLsbD 1 then errClear s else s) := rfl

theorem mgtWrite_sags (s : State) (v : W64) : mgtWrite s 2 v = { s with clock := { s.clock with
    sags := if v.extractLsb' 32 32 = 0 then s.clock.sags else 0, caps := s.clock.caps &&& ~~~(v.extractLsb' 16 16) } } := by
  show ({ s with clock := { s.clock with
    sags := if bits 63 32 v = 0 then s.clock.sags else 0, caps := s.clock.caps &&& ~~~(v.extractLsb' 16 16) } } : State) = _
  simp only [bits_eq_zero_iff 32 32 v (by decide)]

theorem mgtWrite_cap (s : State) (v : W64) : mgtWrite s 3 v = { s with clock := { s.clock with cap := v.extractLsb' 0 16 } } := by
  have hw : v.setWidth 16 = v.extractLsb' 0 16 := by
    apply BitVec.eq_of_toNat_eq
    rw [BitVec.toNat_setWidth, BitVec.extractLsb'_toNat, Nat.shiftRight_zero]
  show ({ s with clock := { s.clock with cap := v.setWidth 16 } } : State) = _
  rw [hw]

/-! ## The host's accesses as events -/

theorem does_systemRegisterWrite {s t : State} {view n : Nat} {v : W64} (ha : s.arg.a = view) (hn : s.arg.b = n) (hv : s.arg.v = v)
    (h : hostWrite s view n v = t) : Claims.Does .systemRegisterWrite s t := by
  subst ha hn hv h
  rfl

theorem hostAcc_records (s : State) (offset : Nat) : Claims.Records s (hostAcc s offset) 7 0 0 offset :=
  mgtRecord_records s 7 0 0 offset

theorem does_hostMemoryAccess_store {s : State} (hs : s.mgt.state = 1) (hok : s.arg.ok = true) (hd : s.arg.data ≠ [])
    (ha : s.arg.a + s.arg.data.length ≤ 2 ^ 39) : Claims.Does .hostMemoryAccess s (performStore s s.arg.a s.arg.data 0 3) := by
  refine congrArg Host.Outcome.next (if_neg ?_)
  rintro (h | h | h | h)
  · exact h hs
  · rw [hok] at h
    cases h
  · exact hd (List.isEmpty_iff.mp h)
  · omega

theorem does_hostMemoryAccess_nothing {s : State} (h : s.mgt.state ≠ 1 ∨ s.arg.ok = false ∨ s.arg.data = []) :
    Claims.Does .hostMemoryAccess s s := by
  refine congrArg Host.Outcome.next (if_pos ?_)
  obtain h | h | h := h
  · exact .inl h
  · exact .inr (.inl (by rw [h]; rfl))
  · exact .inr (.inr (.inl (by rw [h]; rfl)))

/-- Settles O43: each clause is the equation of hostWrite for its view and register. -/
theorem hostAccess : Obligations.HostAccess := by
  intro s view n v i assigned
  have does {t : State} (h : hostWrite s view n v = t) : Claims.Does i s t := does_systemRegisterWrite rfl rfl rfl h
  have records (h : hostWrite s view n v = hostAcc s (0x8000 * view + 8 * n)) :
      ∃ t, Claims.Does i s t ∧ Claims.Records s t 7 0 0 (0x8000 * view + 8 * n) := ⟨_, does h, hostAcc_records s _⟩
  refine ⟨fun hv hs => does (hostWrite_notReady s view n v hv hs), fun hv hs h => ?unassigned,
    fun hv h => records (hostWrite_beyond s view n v hv h), fun hv hs => ?system, fun hv => ?management, does_hostMemoryAccess_store,
    does_hostMemoryAccess_nothing⟩
  case unassigned =>
    have h' : 66 ≤ view ∨ sysAssigned n = false := h.imp_right fun hn => Bool.not_eq_true _ ▸ mt (sysAssigned_iff n).mp hn
    exact records (hostWrite_unassigned s view n v hv hs h')
  case system =>
    refine ⟨fun h => does (hostWrite_readOnly s view n v hv hs h), fun hr h => does (hostWrite_root_perTenant s view n v hv hs hr ?_),
      fun ht h => does ?_, fun ht m h => does ?_, fun ht h hsoft => does ?_, fun h => does ?_, fun m h => does (hostWrite_plain s view n v hv hs h),
      fun h1 h2 => ?_⟩
    · simp only [List.mem_cons, List.not_mem_nil, or_false] at h
      rw [isPerTenant_iff]
      omega
    · rw [h, hostWrite_tenant s view _ v hv hs ht rfl, tenantWrite_flags]
    · rw [hostWrite_tenant s view n v hv hs ht (isPerTenant_of_plain h), tenantWrite_plain s view n v m h]
    · rw [h, hostWrite_tenant s view _ v hv hs ht rfl, tenantWrite_preempt s view v hsoft]
    · rw [hostWrite_package s view n v hv hs (by omega), h, packageWrite_doorbell]
    · refine ⟨settleTokens s (n - 0x100), does ?_, settleTokens_frame s _, fun sl hsl => bucketNow_settleTokens s sl _ (by omega) hsl⟩
      rw [hostWrite_package s view n v hv hs (by omega), packageWrite_allotment s _ n v h1 h2]
  case management =>
    have mgt {t : State} (hn : n < 6) (h : mgtWrite s n v = t) : Claims.Does i s t := does (by rw [hv, hostWrite_management s n v hn, h])
    refine ⟨fun h => mgt (by omega) ?_, fun h hr hc => mgt (by omega) ?_, fun h hr hc => mgt (by omega) ?_, fun h hr hc => mgt (by omega) ?_,
      fun h => mgt (by omega) ?_, fun h => mgt (by omega) ?_⟩
    · obtain h | h | h := h <;> rw [h] <;> rfl
    · rw [h, mgtWrite_ctl, hr, hc]; rfl
    · rw [h, mgtWrite_ctl, hr, hc]; rfl
    · rw [h, mgtWrite_ctl, hr, hc]; rfl
    · rw [h, mgtWrite_sags]
    · rw [h, mgtWrite_cap]

end Sys2Proof.Machine
end

section
/-! SUPPORT. One turn of the machine: the fetch, the decoder and the instruction that it executes (R8, R25, R139, R190, R230, R293, R298,
R316; log entries 3 and 101). -/

namespace Sys2Proof.Machine

/-! ## The fetch of a resident, unchanged word of this device (R25, R139, R316) -/

theorem xlateNow_hit {s : State} {core asid ten : Nat} {va : W64} {acc : Acc} {r : Tr} (hc : canonical va = true)
    (h : tlbTry s core asid ten va acc = some r) : xlateNow s core asid ten va acc false = (r, s) := by
  rw [xlateNow, hc, h]
  rfl

/-- The fetch address translates by a resident entry to bytes of this device, sound and as they were at the grid's acceptance. -/
structure FetchesHome (s : State) (g : Grid) (core : Nat) (pc e : W64) (lev : Nat) : Prop where
  aligned : pc.toNat % 4 = 0
  canon : canonical pc = true
  hit : tlbTry s core g.asid g.tenant pc .fetch = some (.ok e lev)
  near : pteFar e = false
  own : isOwnDev s (pteDev e) = true
  sound : poisoned s (leafPa e lev pc) 4 = false
  same : mgetAll s.mem (leafPa e lev pc) 4 = mgetAll g.snap (leafPa e lev pc) 4

/-- The word at a translated fetch address. -/
def wordAt (s : State) (e : W64) (lev : Nat) (pc : W64) : W32 := BitVec.ofNat 32 (natLE (mgetAll s.mem (leafPa e lev pc) 4))

section
variable {s : State} {e : W64} {lev : Nat}

theorem FetchesHome.fetchAt {g : Grid} {core : Nat} {pc : W64} (h : FetchesHome s g core pc e lev) :
    fetchAt s g core e lev pc = .word (wordAt s e lev pc) s := by
  rw [Machine.fetchAt, h.near, h.own, h.sound, codeWord, if_pos h.same]
  rfl

theorem FetchesHome.fetchGang {g : Gang} (h : FetchesHome s g.grid g.team.core g.pc e lev) (hi : g.issues = true)
    (hs : saveHolds s g.team.fid none = false) (ha : g.ahead = false) : fetchGang s g = .word (wordAt s e lev g.pc) s := by
  rw [Machine.fetchGang, hi, hs, ha, xlateNow_hit h.canon h.hit, if_neg (by decide), if_neg (by decide), if_neg (not_not.mpr h.aligned)]
  simp only [h.fetchAt]

theorem FetchesHome.fetchPref {p : Pref} (h : FetchesHome s p.grid p.team.core p.team.pf.pc e lev) (hi : prefIssues p.team.pf = true)
    (hs : saveHolds s p.team.fid (some p.team.pf) = false) : fetchPref s p = .word (wordAt s e lev p.team.pf.pc) s := by
  rw [Machine.fetchPref, hi, hs, xlateNow_hit h.canon h.hit, if_neg (by decide), if_neg (not_not.mpr h.aligned)]
  simp only [h.fetchAt]

end

/-! ## A step by its turn -/

theorem step_cons {s : State} {t : Turn} {rest : List Turn} (h : s.agenda = t :: rest) : step s = runTurn t { s with agenda := rest } := by
  rw [step, h]

theorem step_issue {s : State} {dt : Nat} {who : Issuer} {rest : List Turn} (h : s.agenda = .issue dt who :: rest) :
    step s = issueTurn (enter { s with agenda := rest } (.issue dt who) dt (portUsed { s with agenda := rest } who)) who := step_cons h

theorem step_part {s : State} {who : Issuer} {rest : List Turn} (h : s.agenda = .part who :: rest) :
    step s = partTurn { s with agenda := rest } who := step_cons h

theorem step_event {s : State} {dt : Nat} {ev : Instr} {a : EvArg} {rest : List Turn} (h : s.agenda = .event dt ev a :: rest) :
    step s = eventTurn (enter { s with agenda := rest } (.event dt ev a) dt false) ev a := step_cons h

theorem issueTurn_picked {s : State} {who : Issuer} (h : mayIssue s who = true) : issueTurn s who = runIssuer s who := if_pos h

theorem issueTurn_not_picked {s : State} {who : Issuer} (h : mayIssue s who = false) : issueTurn s who = .next s :=
  if_neg (Bool.not_eq_true _ ▸ h)

theorem eventTurn_event (s : State) {ev : Instr} (a : EvArg) (h : isEvent ev = true) : eventTurn s ev a = exec ev { s with arg := a } := if_pos h

theorem andThen_nil (o : Out) : andThen o [] = o := by cases o <;> rfl

theorem andThen_next (t : State) (l : List Turn) : andThen (.next t) l = .next (if l = [] then t else { t with agenda := l ++ t.agenda }) := by
  cases l <;> rfl

/-- An issuer whose instruction leaves t has issued, and begins at age 0, unless it is left waiting on the scoreboard. -/
theorem aged_next (who : Issuer) (t : State) : aged who (.next t) = .next (if notIssued t who then t else schedIssued t who) := rfl

section
variable {s u : State} {who : Issuer} {w : W32} (hf : fetch { s with cur := who } = .word w u)
include hf

theorem runIssuer_noInstr (hd : decodeWord w = none) : runIssuer s who = .next (illegalWord { u with word := w }) := by
  rw [runIssuer, hf]
  simp only [hd]

theorem runIssuer_held {i : Instr} {g : Gang} {c : Nat} (hd : decodeWord w = some i) (hb : heldBack u w = some (g, c)) :
    runIssuer s who = .next (deferGang u g c) := by
  rw [runIssuer, hf]
  simp only [hd, hb]

theorem runIssuer_executes {i : Instr} (hd : decodeWord w = some i) (hb : heldBack u w = none) :
    runIssuer s who = andThen (aged who (exec i { beforeExec u i w with word := w })) (restOf (beforeExec u i w) who) := by
  rw [runIssuer, hf]
  simp only [hd, hb]

theorem partTurn_executes {i : Instr} {t : State} (hd : decodeWord w = some i) (he : exec i { u with word := w } = .next t) :
    partTurn s who = .next (if notIssued t who then t else schedIssued t who) := by
  rw [partTurn, hf]
  simp only [hd, he, aged_next]

end

theorem partTurn_gone {s : State} {who : Issuer} (h : fetch { s with cur := who } = .gone) : partTurn s who = .next s := by
  rw [partTurn, h]

/-! ## What holds an issuer back (R293, R298) -/

section
variable {u : State} {tid lead : Nat} {g : Gang} (hc : u.cur = .gang tid lead) (hg : theGang u tid lead = some g)
include hc hg

theorem heldBack_gang_due {w : W32} (h : gangWaits g.team lead = true ∨ earliest u g w ≤ u.clock.cycle) : heldBack u w = none := by
  rw [heldBack, hc]
  simp only [hg]
  obtain h | h := h
  · rw [if_pos h]
  · rw [if_neg (Nat.not_lt.mpr h), ite_self]

theorem heldBack_gang_early {w : W32} (h : ¬ (gangWaits g.team lead = true ∨ earliest u g w ≤ u.clock.cycle)) :
    heldBack u w = some (g, earliest u g w) := by
  obtain ⟨hw, he⟩ := not_or.mp h
  rw [heldBack, hc]
  simp only [hg]
  rw [if_neg hw, if_pos (Nat.not_le.mp he)]

theorem illegalWord_gang (ha : g.ahead = false) : illegalWord u = illegalGang u g := by
  simp only [illegalWord, hc, hg, ha, Bool.false_eq_true, if_false]

theorem fetch_gang : fetch u = fetchGang u g := by
  simp only [fetch, hc, hg]

end

theorem restOf_prefect (s : State) (tid : Nat) : restOf s (.prefect tid) = [] := rfl

section
variable {u : State} {tid : Nat} (hc : u.cur = .prefect tid)
include hc

theorem heldBack_prefect (w : W32) : heldBack u w = none := by
  rw [heldBack, hc]

theorem beforeExec_prefect (i : Instr) (w : W32) : beforeExec u i w = u := by
  rw [beforeExec, hc]

theorem illegalWord_prefect {p : Pref} (hp : thePref u tid = some p) : illegalWord u = illegalPref u p := by
  simp only [illegalWord, hc, hp]

theorem fetch_prefect {p : Pref} (hp : thePref u tid = some p) : fetch u = fetchPref u p := by
  simp only [fetch, hc, hp]

end

/-! ## The turn of a picked issuer, and the theorem -/

section
variable {x u : State} {tid lead : Nat} {g : Gang} {e : W64} {lev : Nat} (hu : { x with cur := .gang tid lead } = u)
  (hg : theGang u tid lead = some g) (hi : g.issues = true) (hs : saveHolds u g.team.fid none = false) (ha : g.ahead = false)
  (h : FetchesHome u g.grid g.team.core g.pc e lev)
include hu hg hi hs ha h

theorem fetch_home_gang : fetch { x with cur := .gang tid lead } = .word (wordAt u e lev g.pc) u := by
  have hc : u.cur = .gang tid lead := hu ▸ rfl
  rw [hu, fetch_gang hc hg, h.fetchGang hi hs ha]

theorem runIssuer_gang_due {i : Instr} {t : State} (hd : decode (mgetAll u.mem (leafPa e lev g.pc) 4) = .ok (i, []))
    (hdue : gangWaits g.team lead = true ∨ earliest u g (wordAt u e lev g.pc) ≤ u.clock.cycle)
    (he : exec i { beforeExec u i (wordAt u e lev g.pc) with word := wordAt u e lev g.pc } = .next t) :
    runIssuer x (.gang tid lead) = andThen (.next (if notIssued t (.gang tid lead) then t else schedIssued t (.gang tid lead)))
      (restOf (beforeExec u i (wordAt u e lev g.pc)) (.gang tid lead)) := by
  have hc : u.cur = .gang tid lead := hu ▸ rfl
  rw [runIssuer_executes (fetch_home_gang hu hg hi hs ha h) ((decode_word_iff (length_mgetAll ..) i).mp hd) (heldBack_gang_due hc hg hdue),
    he, aged_next]

theorem runIssuer_gang_early {i : Instr} (hd : decode (mgetAll u.mem (leafPa e lev g.pc) 4) = .ok (i, []))
    (hdue : ¬ (gangWaits g.team lead = true ∨ earliest u g (wordAt u e lev g.pc) ≤ u.clock.cycle)) :
    runIssuer x (.gang tid lead) = .next (deferGang u g (earliest u g (wordAt u e lev g.pc))) := by
  have hc : u.cur = .gang tid lead := hu ▸ rfl
  exact runIssuer_held (fetch_home_gang hu hg hi hs ha h) ((decode_word_iff (length_mgetAll ..) i).mp hd) (heldBack_gang_early hc hg hdue)

theorem runIssuer_gang_illegal (hd : ∀ i, decode (mgetAll u.mem (leafPa e lev g.pc) 4) ≠ .ok (i, [])) :
    runIssuer x (.gang tid lead) = .next (illegalGang { u with word := wordAt u e lev g.pc } g) := by
  have hc : u.cur = .gang tid lead := hu ▸ rfl
  rw [runIssuer_noInstr (fetch_home_gang hu hg hi hs ha h) (decodeWord_none (length_mgetAll ..) hd)]
  exact congrArg Host.Outcome.next (illegalWord_gang (u := { u with word := wordAt u e lev g.pc }) hc hg ha)

end

section
variable {x u : State} {tid : Nat} {p : Pref} {e : W64} {lev : Nat} (hu : { x with cur := .prefect tid } = u)
  (hp : thePref u tid = some p) (hi : prefIssues p.team.pf = true) (hs : saveHolds u p.team.fid (some p.team.pf) = false)
  (h : FetchesHome u p.grid p.team.core p.team.pf.pc e lev)
include hu hp hi hs h

theorem fetch_home_prefect : fetch { x with cur := .prefect tid } = .word (wordAt u e lev p.team.pf.pc) u := by
  have hc : u.cur = .prefect tid := hu ▸ rfl
  rw [hu, fetch_prefect hc hp, h.fetchPref hi hs]

theorem runIssuer_prefect {i : Instr} {t : State} (hd : decode (mgetAll u.mem (leafPa e lev p.team.pf.pc) 4) = .ok (i, []))
    (he : exec i { u with word := wordAt u e lev p.team.pf.pc } = .next t) :
    runIssuer x (.prefect tid) = .next (if notIssued t (.prefect tid) then t else schedIssued t (.prefect tid)) := by
  have hc : u.cur = .prefect tid := hu ▸ rfl
  rw [runIssuer_executes (fetch_home_prefect hu hp hi hs h) ((decode_word_iff (length_mgetAll ..) i).mp hd) (heldBack_prefect hc _),
    beforeExec_prefect hc, he, aged_next, restOf_prefect, andThen_nil]

theorem runIssuer_prefect_illegal (hd : ∀ i, decode (mgetAll u.mem (leafPa e lev p.team.pf.pc) 4) ≠ .ok (i, [])) :
    runIssuer x (.prefect tid) = .next (illegalPref { u with word := wordAt u e lev p.team.pf.pc } p) := by
  have hc : u.cur = .prefect tid := hu ▸ rfl
  rw [runIssuer_noInstr (fetch_home_prefect hu hp hi hs h) (decodeWord_none (length_mgetAll ..) hd)]
  exact congrArg Host.Outcome.next (illegalWord_prefect (u := { u with word := wordAt u e lev p.team.pf.pc }) hc hp)

end

/-- Settles O56, turn by turn: one that the scheduler does not pick, a gang's, a Prefect's, a further part's and an event's. -/
theorem stepRunsDecoded : Obligations.StepRunsDecoded := by
  refine ⟨?notPicked, ?gang, ?prefect, ?part, ?event⟩
  case notPicked =>
    intro s dt who rest ha s0 x hx
    exact (step_issue ha).trans (issueTurn_not_picked hx)
  case gang =>
    intro s dt tid lead rest g e lev who ha s0 x u hx hg hi hs hah hal hcan htlb hfar hown hpo hsame b w due
    have h : FetchesHome u g.grid g.team.core g.pc e lev := ⟨hal, hcan, htlb, hfar, hown, hpo, hsame⟩
    have hstep : step s = runIssuer x who := (step_issue ha).trans (issueTurn_picked hx)
    have hu : { x with cur := who } = u := rfl
    clear_value u x
    refine ⟨?executes, fun i hd hdue => ?early, fun hd => ?illegal⟩
    case executes =>
      intro i hd hdue v t he y
      exact hstep.trans ((runIssuer_gang_due hu hg hi hs hah h hd hdue he).trans (andThen_next _ _))
    case early => exact hstep.trans (runIssuer_gang_early hu hg hi hs hah h hd hdue)
    case illegal => exact hstep.trans (runIssuer_gang_illegal hu hg hi hs hah h hd)
  case prefect =>
    intro s dt tid rest p e lev who ha s0 x u hx hp hi hs hal hcan htlb hfar hown hpo hsame b v
    have h : FetchesHome u p.grid p.team.core p.team.pf.pc e lev := ⟨hal, hcan, htlb, hfar, hown, hpo, hsame⟩
    have hstep : step s = runIssuer x who := (step_issue ha).trans (issueTurn_picked hx)
    have hu : { x with cur := who } = u := rfl
    clear_value u x
    exact ⟨fun i hd t he => hstep.trans (runIssuer_prefect hu hp hi hs h hd he),
      fun hd => hstep.trans (runIssuer_prefect_illegal hu hp hi hs h hd)⟩
  case part =>
    intro s who rest ha
    rw [step_part ha]
    exact ⟨partTurn_gone (s := { s with agenda := rest }),
      fun w v i t hf hd he => partTurn_executes (s := { s with agenda := rest }) hf hd he⟩
  case event =>
    intro s dt ev a rest ha hev
    rw [step_event ha, eventTurn_event _ a hev]

end Sys2Proof.Machine
end

section
/-! SUPPORT. Memory stays canonical (O59): the answers that carry a machine, and updates of one part. -/

namespace Sys2Proof.Machine
-- One declaration after the other: in parallel, the threads' stacks pass the check's memory limit.
set_option Elab.async false
variable {s t : State}

/-! Every function of the model that answers a machine keeps memory canonical; the lemma about `f` is `f_inv`, in the
order of the definitions. Memory is written by `mset`, `msetAll`, `mstore` and a filter alone, which `wf_mset` and its like
cover; a lemma hands to `grind` the lemmas of the functions that its own calls. Where the kernel would compute powers of two
when it compares two unfoldings of a function, the function is unfolded at its own level (`delta` on a name for it), and an
inner function is put behind an existential, so that only what its lemma says of it is left. -/

/-! ## Answers that carry a machine -/

/-- Memory is canonical in whatever machine the answer carries, and a post's action keeps it so. -/
def SendRes.Inv : SendRes → Prop
  | .sent s => MemInv s
  | .wait => True
  | .unreachable => True
def LaneOut.Inv : LaneOut → Prop
  | .done s _ => MemInv s
  | .sent s => MemInv s
  | .fault s _ _ _ => MemInv s
  | .wait s => MemInv s
def EvRes.Inv : EvRes → Prop
  | .done s => MemInv s
  | .sent s => MemInv s
  | .wait s => MemInv s
  | .fault s => MemInv s
def EAcc.Inv : EAcc → Prop
  | .ok s _ => MemInv s
  | .wait s => MemInv s
  | .fault s _ _ _ _ => MemInv s
def UStep.Inv : UStep → Prop
  | .done s => MemInv s
  | .wait s => MemInv s
  | .fault s _ _ _ _ => MemInv s
def RedNext.Inv : RedNext → Prop
  | .wait s => MemInv s
  | .send s _ _ _ => MemInv s
  | .result s _ => MemInv s
def MxRange.Inv : MxRange → Prop
  | .ok s _ => MemInv s
  | .wait s => MemInv s
  | .fault s _ _ _ _ => MemInv s
def MxChk.Inv : MxChk → Prop
  | .ok s _ _ _ act => MemInv s ∧ ∀ t, MemInv t → MemInv (act t)
  | .wait s => MemInv s
  | .retire s => MemInv s
  | .fault s _ _ _ _ => MemInv s
def UnitRes.Inv : UnitRes → Prop
  | .done s => MemInv s
  | .hold s => MemInv s
  | .gone s => MemInv s
def CodeRes.Inv : CodeRes → Prop
  | .word _ s => MemInv s
  | .wait s => MemInv s
  | .fault s _ _ _ => MemInv s
def Fetch.Inv : Fetch → Prop
  | .word _ s => MemInv s
  | .held s => MemInv s
  | .gone => True

/-! ## Updates of one part of the machine -/

theorem updTeam_inv (tid f) (h : MemInv s) : MemInv (updTeam s tid f) := h
theorem updGrid_inv (gid f) (h : MemInv s) : MemInv (updGrid s gid f) := h
theorem updCore_inv (c f) (h : MemInv s) : MemInv (updCore s c f) := h
theorem updCluster_inv (c f) (h : MemInv s) : MemInv (updCluster s c f) := h
theorem updTenant_inv (n f) (h : MemInv s) : MemInv (updTenant s n f) := h
theorem updQueue_inv (q f) (h : MemInv s) : MemInv (updQueue s q f) := h
theorem updEngine_inv (n f) (h : MemInv s) : MemInv (updEngine s n f) := h
theorem updSlices_inv (tid ns f) (h : MemInv s) : MemInv (updSlices s tid ns f) := h
theorem sysSet_inv (n v) (h : MemInv s) : MemInv (sysSet s n v) := h
theorem tsysSet_inv (ten n v) (h : MemInv s) : MemInv (tsysSet s ten n v) := h
theorem homeStore_inv (a b) (h : MemInv s) : MemInv (homeStore s a b) := homeStore_wf s a b h
theorem ringWrite_inv (ten l) (h : MemInv s) : MemInv (ringWrite s ten l) := ringWrite_wf ten l s h

/-! ## Folds -/

theorem foldl_inv {α : Type} (f : State → α → State) (l : List α) (hf : ∀ s a, MemInv s → MemInv (f s a))
    (h : MemInv s) : MemInv (l.foldl f s) := by
  induction l generalizing s with
  | nil => exact h
  | cons a l ih => exact ih (hf _ _ h)

/-- The same where the machine is carried beside a value. -/
theorem foldl_snd_inv {α β : Type} (f : β × State → α → β × State) (l : List α) (p : β × State)
    (hf : ∀ p a, MemInv p.2 → MemInv (f p a).2) (h : MemInv p.2) :
    MemInv (l.foldl f p).2 := by
  induction l generalizing p with
  | nil => exact h
  | cons a l ih => exact ih _ (hf _ _ h)

theorem getD_inv {o : Option State} (ho : ∀ t, o = some t → MemInv t) (h : MemInv s) :
    MemInv (o.getD s) := by
  cases o with
  | none => exact h
  | some t => exact ho t rfl

theorem ite_inv {c : Prop} [Decidable c] {a b : State} (ha : MemInv a) (hb : MemInv b) : MemInv (if c then a else b) := by
  split <;> assumption

/-- A property of a function by structural recursion on a number, from what each of its two cases makes of it. -/
theorem brecOn_keeps {α : Type} (F : ∀ n : Nat, Nat.below (motive := fun _ => α) n → α) (P : α → Prop)
    (zero : ∀ b, P (F 0 b)) (succ : ∀ n b, P b.1 → P (F (n + 1) b)) (n : Nat) : P (Nat.brecOn (motive := fun _ => α) n F) := by
  induction n with
  | zero => exact zero _
  | succ n ih => exact succ _ _ ih

end Sys2Proof.Machine
end

section
/-! SUPPORT. Memory stays canonical (O59): tokens, translation, caches, requests and the accesses of gangs and Prefects. -/

namespace Sys2Proof.Machine
-- One declaration after the other: in parallel, the threads' stacks pass the check's memory limit.
set_option Elab.async false
variable {s t : State}

/-! ## The functions of SysRegs -/

theorem fabCount_inv (lo) (h : MemInv s) : MemInv (fabCount s lo) :=
  h

theorem raiseFl_inv (ten fl) (h : MemInv s) : MemInv (raiseFl s ten fl) := by
  unfold raiseFl; grind [tsysSet_inv]

/-! ## The functions of Ops -/

theorem updForm_inv (fid f) (h : MemInv s) : MemInv (updForm s fid f) :=
  h

theorem newId_inv (h : MemInv s) : MemInv (newId s).2 :=
  h

theorem drawWord_inv (h : MemInv s) : MemInv (drawWord s).2 :=
  h

theorem stall_inv (g st) (h : MemInv s) : MemInv (stall s g st) :=
  h

theorem takeSeq_inv (ten r) (h : MemInv s) : MemInv (takeSeq s ten r).2 :=
  h

theorem pumpRing_inv (x y) (h : MemInv s) : MemInv (pumpRing x s y) := by
  fun_induction pumpRing x s y <;> grind [MemInv, updTenant_inv, ringWrite_inv, takeSeq_inv, foldl_inv, foldl_snd_inv]

theorem emit_inv (ten r fault) (h : MemInv s) : MemInv (emit s ten r fault) :=
  pumpRing_inv _ _ h

theorem addWait_inv (ten w) (h : MemInv s) : MemInv (addWait s ten w) :=
  h

theorem raiseGang_inv (g code cause level va mask) (h : MemInv s) : MemInv (raiseGang s g code cause level va mask) :=
  emit_inv _ _ _ h

theorem raisePref_inv (p code cause level va) (h : MemInv s) : MemInv (raisePref s p code cause level va) :=
  emit_inv _ _ _ h

theorem admitLog_inv (x y) (h : MemInv s) : MemInv (admitLog x s y) := by
  fun_induction admitLog x s y <;> grind [MemInv, updCore_inv, emit_inv]

theorem raiseLane_inv (op code cause level va notReplay auto) (h : MemInv s) : MemInv (raiseLane s op code cause level va
    notReplay auto) :=
  admitLog_inv _ _ h

theorem unpark_inv (core tid ns) (h : MemInv s) : MemInv (unpark s core tid ns) := by
  unfold unpark; grind [MemInv, updCore_inv, updSlices_inv]

theorem dropEntry_inv (core id) (h : MemInv s) : MemInv (dropEntry s core id) := by
  unfold dropEntry; grind [MemInv, updCore_inv, admitLog_inv, unpark_inv, foldl_inv, foldl_snd_inv]

theorem resumeAt_inv (w skip) (h : MemInv s) : MemInv (resumeAt s w skip) := by
  unfold resumeAt; grind [MemInv, updTeam_inv, updSlices_inv]

theorem endGambit_inv (tid n cause) (h : MemInv s) : MemInv (endGambit s tid n cause) := by
  unfold endGambit; grind [MemInv, updCore_inv, updTeam_inv]

theorem wake_inv (g) (h : MemInv s) : MemInv (wake s g) := by
  unfold wake; grind [MemInv, updSlices_inv]

theorem latchStep_inv (g held) (h : MemInv s) : MemInv (latchStep s g held) :=
  h

theorem finish_inv (g w held f) (h : MemInv s) : MemInv (finish s g w held f) :=
  h

/-! ## The functions of Operands -/

theorem withGang_inv {k} (hk : ∀ s g, MemInv s → MemInv (k s g)) (h : MemInv s)
    (e : withGang s k = .next t) : MemInv t := by
  unfold withGang at e; grind [MemInv, wake_inv, endGambit_inv, raisePref_inv]

theorem withPref_inv {k} (hk : ∀ p, MemInv (k p)) (h : MemInv s)
    (e : withPref s k = .next t) : MemInv t := by
  unfold withPref at e; grind [MemInv, endGambit_inv, raiseGang_inv]

theorem illegalGang_inv (g) (h : MemInv s) : MemInv (illegalGang s g) :=
  raiseGang_inv _ _ _ _ _ _ h

theorem illegalPref_inv (p) (h : MemInv s) : MemInv (illegalPref s p) :=
  raisePref_inv _ _ _ _ _ h

theorem prelude_inv (g w rd wr) (h : MemInv s) (e : prelude s g w rd wr = some t) : MemInv t := by
  unfold prelude at e; grind [MemInv, raiseGang_inv, updSlices_inv, stall_inv]

theorem vecAhead_inv (sp g legal) (h : MemInv s) : MemInv (vecAhead sp s g legal) := by
  unfold vecAhead; grind [finish_inv, updTeam_inv, endGambit_inv, foldl_inv, foldl_snd_inv]

theorem vecRun_inv (sp g) (h : MemInv s) : MemInv (vecRun sp s g) := by
  unfold vecRun; grind [prelude_inv, vecAhead_inv, illegalGang_inv, finish_inv, endGambit_inv, raiseFl_inv]

theorem vec_inv (sp) (h : MemInv s) (e : vec sp s = .next t) : MemInv t := by
  unfold vec at e; grind [withGang_inv, vecRun_inv]

/-! ## The functions of Control -/

theorem ctl_inv (enc ok rd wr f) (h : MemInv s) (e : ctl s enc ok rd wr f = .next t) : MemInv t := by
  unfold ctl at e; grind [prelude_inv, withGang_inv, illegalGang_inv, finish_inv, endGambit_inv, foldl_inv, foldl_snd_inv]

theorem gsReg_inv (d a b f) (h : MemInv s) (e : gsReg d a b f s = .next t) : MemInv t := by
  unfold gsReg at e; exact ctl_inv _ _ _ _ _ h e

theorem gsImm_inv (d a ok f) (h : MemInv s) (e : gsImm d a ok f s = .next t) : MemInv t := by
  unfold gsImm at e; exact ctl_inv _ _ _ _ _ h e

theorem execGshl_inv (d a b) (h : MemInv s) (e : execGshl d a b s = .next t) : MemInv t := by
  unfold execGshl at e; exact gsReg_inv _ _ _ _ h e

theorem execGshr_inv (d a b) (h : MemInv s) (e : execGshr d a b s = .next t) : MemInv t := by
  unfold execGshr at e; exact gsReg_inv _ _ _ _ h e

theorem execGsra_inv (d a b) (h : MemInv s) (e : execGsra d a b s = .next t) : MemInv t := by
  unfold execGsra at e; exact gsReg_inv _ _ _ _ h e

theorem execGmin_inv (d a b) (h : MemInv s) (e : execGmin d a b s = .next t) : MemInv t := by
  unfold execGmin at e; exact gsReg_inv _ _ _ _ h e

theorem execGmax_inv (d a b) (h : MemInv s) (e : execGmax d a b s = .next t) : MemInv t := by
  unfold execGmax at e; exact gsReg_inv _ _ _ _ h e

theorem execGslt_inv (d a b) (h : MemInv s) (e : execGslt d a b s = .next t) : MemInv t := by
  unfold execGslt at e; exact gsReg_inv _ _ _ _ h e

theorem execGsltu_inv (d a b) (h : MemInv s) (e : execGsltu d a b s = .next t) : MemInv t := by
  unfold execGsltu at e; exact gsReg_inv _ _ _ _ h e

theorem execGmov_inv (d a) (h : MemInv s) (e : execGmov d a s = .next t) : MemInv t := by
  unfold execGmov at e; exact gsImm_inv _ _ _ _ h e

theorem execGaddi_inv (d a imm) (h : MemInv s) (e : execGaddi d a imm s = .next t) : MemInv t := by
  unfold execGaddi at e; exact gsImm_inv _ _ _ _ h e

theorem execGandi_inv (d a imm) (h : MemInv s) (e : execGandi d a imm s = .next t) : MemInv t := by
  unfold execGandi at e; exact gsImm_inv _ _ _ _ h e

theorem execGori_inv (d a imm) (h : MemInv s) (e : execGori d a imm s = .next t) : MemInv t := by
  unfold execGori at e; exact gsImm_inv _ _ _ _ h e

theorem execGxori_inv (d a imm) (h : MemInv s) (e : execGxori d a imm s = .next t) : MemInv t := by
  unfold execGxori at e; exact gsImm_inv _ _ _ _ h e

theorem execGshli_inv (d a imm) (h : MemInv s) (e : execGshli d a imm s = .next t) : MemInv t := by
  unfold execGshli at e; exact gsImm_inv _ _ _ _ h e

theorem execGshri_inv (d a imm) (h : MemInv s) (e : execGshri d a imm s = .next t) : MemInv t := by
  unfold execGshri at e; exact gsImm_inv _ _ _ _ h e

theorem execGsrai_inv (d a imm) (h : MemInv s) (e : execGsrai d a imm s = .next t) : MemInv t := by
  unfold execGsrai at e; exact gsImm_inv _ _ _ _ h e

theorem vgetWith_inv (d l v f) (h : MemInv s) (e : vgetWith d l v f s = .next t) : MemInv t := by
  unfold vgetWith at e; exact ctl_inv _ _ _ _ _ h e

theorem execVget_inv (d l v) (h : MemInv s) (e : execVget d l v s = .next t) : MemInv t := by
  unfold execVget at e; exact vgetWith_inv _ _ _ _ h e

theorem endingBut_inv (but ok) {k} (hk : ∀ s g, MemInv s → MemInv (k s g)) (h : MemInv s)
    (e : endingBut s but ok k = .next t) : MemInv t := by
  refine withGang_inv (fun s g hs => ?_) h e
  grind [MemInv, endGambit_inv, illegalGang_inv, stall_inv]

theorem ending_inv (ok) {k} (hk : ∀ s g, MemInv s → MemInv (k s g)) (h : MemInv s)
    (e : ending s ok k = .next t) : MemInv t := by
  refine withGang_inv (fun s g hs => ?_) h e
  grind [MemInv, endGambit_inv, illegalGang_inv, stall_inv]

theorem execRegang_inv (l) (h : MemInv s) (e : execRegang l s = .next t) : MemInv t := by
  unfold execRegang at e; grind [MemInv, ending_inv, updTeam_inv, foldl_inv, foldl_snd_inv]

theorem barLeave_inv (l) (h : MemInv s) : MemInv (barLeave s l) :=
  h

theorem barCheck_inv (fid n) (h : MemInv s) : MemInv (barCheck s fid n) := by
  unfold barCheck; grind [MemInv, updForm_inv, barLeave_inv]

theorem barArrive_inv (fid n count p) (h : MemInv s) : MemInv (barArrive fid n count s p) := by
  unfold barArrive; grind [MemInv, barCheck_inv, updForm_inv, updTeam_inv, updSlices_inv]

theorem execBar_inv (n c) (h : MemInv s) (e : execBar n c s = .next t) : MemInv t := by
  unfold execBar at e; grind [MemInv, illegalGang_inv, barArrive_inv, ending_inv, updTeam_inv, foldl_inv, foldl_snd_inv]

theorem barsAfterExit_inv (fid) (h : MemInv s) : MemInv (barsAfterExit s fid) := by
  unfold barsAfterExit; grind [barCheck_inv, foldl_inv, foldl_snd_inv]

theorem execDqpop_inv (r) (h : MemInv s) (e : execDqpop r s = .next t) : MemInv t := by
  unfold execDqpop at e; grind [MemInv, withGang_inv, illegalGang_inv, finish_inv, updTeam_inv, stall_inv]

theorem toPending_inv (tid lead) (h : MemInv s) : MemInv (toPending s tid lead) :=
  h

theorem yieldMark_inv (tid lead) (h : MemInv s) : MemInv (yieldMark s tid lead) := by
  unfold yieldMark; grind [MemInv, updCore_inv]

theorem execYield_inv (h : MemInv s) (e : execYield s = .next t) : MemInv t := by
  unfold execYield at e; grind [MemInv, toPending_inv, finish_inv, yieldMark_inv, ending_inv]

theorem execWtime_inv (r) (h : MemInv s) (e : execWtime r s = .next t) : MemInv t := by
  unfold execWtime at e; grind [MemInv, ending_inv, updTeam_inv]

theorem execSafept_inv (n) (h : MemInv s) (e : execSafept n s = .next t) : MemInv t := by
  unfold execSafept at e; grind [MemInv, finish_inv, ending_inv, updTeam_inv]

theorem execTrap_inv (_c) (h : MemInv s) (e : execTrap _c s = .next t) : MemInv t := by
  unfold execTrap at e; grind [MemInv, raiseGang_inv, ending_inv]

theorem execBrk_inv (_c) (h : MemInv s) (e : execBrk _c s = .next t) : MemInv t := by
  unfold execBrk at e; grind [MemInv, raiseGang_inv, ending_inv]

theorem execIll_inv (h : MemInv s) (e : execIll s = .next t) : MemInv t := by
  unfold execIll at e; grind [MemInv, withGang_inv, illegalGang_inv, withPref_inv, illegalPref_inv, endGambit_inv]

/-! ## The functions of Tokens -/

theorem spend_inv (sl tid) (h : MemInv s) : MemInv (spend s sl tid) :=
  h

theorem askFor_inv (tid x) (h : MemInv s) (e : askFor tid x s = some t) : MemInv t := by
  fun_induction askFor tid x s <;> grind [spend_inv]

theorem settleTokens_inv (tid) (h : MemInv s) : MemInv (settleTokens s tid) :=
  h

/-! ## The functions of Xlate -/

theorem clearRes_inv (a n) (h : MemInv s) : MemInv (clearRes s a n) :=
  h

theorem hintLeaf_inv (pos x) (h : MemInv s) : MemInv (hintLeaf s pos x).2 := by
  unfold hintLeaf
  extract_lets
  split
  · exact h
  · split <;> grind [MemInv]

theorem setAD_inv (tenant pos ent d) (h : MemInv s) : MemInv (setAD s tenant pos ent d).2 := by
  unfold setAD; grind [homeStore_inv, spend_inv]

theorem zeroAsk_inv (tenant pos ent level) (h : MemInv s) : MemInv (zeroAsk s tenant pos ent level) := by
  unfold zeroAsk; grind [MemInv]

theorem walkNow_inv (asid tenant va acc) (h : MemInv s) : MemInv (walkNow s asid tenant va acc).2 := by
  unfold walkNow; grind [askFor_inv, hintLeaf_inv, setAD_inv, zeroAsk_inv]

theorem tlbFill_inv (core asid tenant va ent level) (h : MemInv s) : MemInv (tlbFill s core asid tenant va ent level) :=
  h

theorem xlateNow_inv (core asid tenant va acc fresh) (h : MemInv s) : MemInv (xlateNow s core asid tenant va acc fresh).2 := by
  unfold xlateNow; grind [tlbFill_inv, walkNow_inv]

theorem tlbPurge_inv (f) (h : MemInv s) : MemInv (tlbPurge s f) :=
  h

theorem syncTables_inv (tenant asid page nlog) (h : MemInv s) : MemInv (syncTables s tenant asid page nlog) :=
  h

/-! ## The functions of Cache -/

theorem spadWrite_inv (f o x) (h : MemInv s) : MemInv (spadWrite s f o x) := by
  fun_induction spadWrite s f o x <;> grind [updCluster_inv]

theorem l2Hit_inv (sl a x tenant cls) (h : MemInv s) : MemInv (l2Hit s sl a x tenant cls) :=
  h

theorem l2Fill_inv (sl a x tenant cls) (h : MemInv s) : MemInv (l2Fill s sl a x tenant cls) := by
  unfold l2Fill; grind [MemInv]

theorem l2HomeLine_inv (line sec tenant cls write) (h : MemInv s) : MemInv (l2HomeLine s line sec tenant cls write) := by
  unfold l2HomeLine; grind [MemInv, l2Hit_inv, l2Fill_inv]

theorem l2Home_inv (pa n tenant cls write) (h : MemInv s) : MemInv (l2Home s pa n tenant cls write) := by
  unfold l2Home; grind [l2HomeLine_inv, foldl_inv, foldl_snd_inv]

theorem remoteFill_inv (die pa tenant cls gen) (h : MemInv s) : MemInv (remoteFill s die pa tenant cls gen) := by
  generalize hf : remoteFill = f
  delta remoteFill at hf
  subst hf
  beta_reduce
  extract_lets line u
  have hu : MemInv u := l2Fill_inv _ _ _ _ _ h
  clear_value u line
  split
  · exact hu
  · exact wf_msetAll _ _ _ hu

theorem remoteLine_inv (die pa b) (h : MemInv s) : MemInv (remoteLine s die pa b) := by
  generalize hf : remoteLine = f
  delta remoteLine at hf
  subst hf
  beta_reduce
  extract_lets sl u
  have hu : MemInv u := h
  clear_value u
  split
  · exact hu
  · exact wf_msetAll _ _ _ hu

theorem remoteUpdate_inv (die pa b) (h : MemInv s) : MemInv (remoteUpdate s die pa b) := by
  unfold remoteUpdate; grind [foldl_inv, remoteLine_inv]

theorem farUpdate_inv (die addr b) (h : MemInv s) : MemInv (farUpdate s die addr b) := by
  unfold farUpdate; grind [MemInv, foldl_inv, foldl_snd_inv]

theorem remoteDrop_inv (pa) (h : MemInv s) : MemInv (remoteDrop s pa) := by
  generalize hf : remoteDrop = f
  delta remoteDrop at hf
  subst hf
  beta_reduce
  extract_lets die sl u
  have hu : MemInv u := h
  clear_value u
  split
  · exact hu
  · split
    · exact hu
    · split <;> exact hu

theorem bumpDie_inv (die) (h : MemInv s) : MemInv (bumpDie s die) := by
  unfold bumpDie; grind [MemInv]

theorem postReq_inv (r) (h : MemInv s) : MemInv (postReq s r) :=
  h

theorem acceptReq_inv (r) (h : MemInv s) : MemInv (acceptReq s r) := by
  unfold acceptReq; grind [MemInv, spend_inv]

theorem unpoison_inv (pa n) (h : MemInv s) : MemInv (unpoison s pa n) :=
  h

theorem raceFree_inv (write pa b) (h : MemInv s) : MemInv (raceFree s write pa b).2 := by
  unfold raceFree; grind [MemInv]

theorem performStore_inv (pa b tenant cls) (h : MemInv s) : MemInv (performStore s pa b tenant cls) := by
  unfold performStore; grind [homeStore_inv, l2Home_inv, unpoison_inv]

theorem setRes_inv (sl key pa) (h : MemInv s) : MemInv (setRes s sl key pa) :=
  h

theorem performHome_inv (r) (h : MemInv s) : MemInv (performHome s r).2 := by
  generalize hf : performHome = F
  delta performHome at hf
  subst hf
  obtain ⟨R, hR⟩ : ∃ R, R = raceFree := ⟨_, rfl⟩
  obtain ⟨D, hD⟩ : ∃ D, D = remoteDrop := ⟨_, rfl⟩
  have hr (s write pa b) (h : MemInv s) : MemInv (R s write pa b).2 := hR ▸ raceFree_inv write pa b h
  have hd (s pa) (h : MemInv s) : MemInv (D s pa) := hD ▸ remoteDrop_inv pa h
  rw [← hR, ← hD]
  clear hR hD
  beta_reduce
  split
  case h_1 => grind [l2Home_inv, remoteFill_inv]
  case h_2 => grind [performStore_inv, remoteUpdate_inv]
  case h_3 =>
    refine foldl_inv _ _ (fun s c hs => ?_) h
    have := hr s true c.1 [c.2] hs
    grind [performStore_inv, remoteUpdate_inv]
  case h_4 => grind [l2Home_inv, performStore_inv]
  case h_5 => grind [l2Home_inv, setRes_inv]
  case h_6 => grind [performStore_inv, MemInv]
  case h_7 => grind [l2Home_inv, remoteFill_inv]

theorem farAsk_inv (r) (h : MemInv s) : MemInv (farAsk s r) :=
  h

theorem perform_inv (r) (h : MemInv s) : MemInv (perform s r).2 := by
  unfold perform; grind [MemInv, l2Hit_inv, farAsk_inv, postReq_inv, performHome_inv, farUpdate_inv]

theorem ccPut_inv (cl x) (h : MemInv s) : MemInv (ccPut s cl x) :=
  h

theorem ccDrop_inv (cl ten line) (h : MemInv s) : MemInv (ccDrop s cl ten line) :=
  h

theorem ccWriteBack_inv (cl x) (h : MemInv s) : MemInv (ccWriteBack s cl x) := by
  unfold ccWriteBack; grind [MemInv, postReq_inv]

theorem ccFlush_inv (cl ten pa) (h : MemInv s) : MemInv (ccFlush s cl ten pa) := by
  unfold ccFlush; grind [ccWriteBack_inv, ccDrop_inv]

theorem ccEnsure_inv (cl ten pa) (h : MemInv s) : MemInv (ccEnsure s cl ten pa).2 := by
  unfold ccEnsure; grind [MemInv, ccWriteBack_inv, ccPut_inv, ccDrop_inv]

theorem ccStore_inv (cl ten pa b) (h : MemInv s) : MemInv (ccStore s cl ten pa b) :=
  ccEnsure_inv _ _ _ h

theorem ccClean_inv (cl ten drop) (h : MemInv s) : MemInv (ccClean s cl ten drop) := by
  unfold ccClean; grind [MemInv, ccWriteBack_inv, ccPut_inv, ccDrop_inv, foldl_inv, foldl_snd_inv]

/-! ## The functions of Pod -/

theorem setHints_inv (h : MemInv s) : MemInv (setHints s) := by
  unfold setHints; grind [MemInv]

theorem setQueues_inv (l) (h : MemInv s) : MemInv (setQueues s l) :=
  setHints_inv  h

theorem outPkt_inv (p) (h : MemInv s) : MemInv (outPkt s p) :=
  setQueues_inv _ h

theorem sendMin_inv (p) (h : MemInv s) : MemInv (sendMin s p) := by
  unfold sendMin; grind [MemInv, outPkt_inv]

theorem departs_inv (p) (h : MemInv s) : MemInv (departs s p) := by
  unfold departs; grind [MemInv, setQueues_inv, foldl_inv, foldl_snd_inv]

theorem linkRun_inv (k x) (h : MemInv s) : MemInv (linkRun k x s) := by
  fun_induction linkRun k x s <;> grind [MemInv, departs_inv]

theorem fabricRun_inv (dt) (h : MemInv s) : MemInv (fabricRun s dt) := by
  unfold fabricRun; grind [MemInv, linkRun_inv, foldl_inv, foldl_snd_inv]

theorem countNonmin_inv (h : MemInv s) : MemInv (countNonmin s) := by
  unfold countNonmin; grind [MemInv, fabCount_inv]

theorem putTag_inv (key use dev gid p) (h : MemInv s) : MemInv (putTag s key use dev gid p) :=
  h

theorem podSend_inv (die dev p use gid) (h : MemInv s) : (podSend s die dev p use gid).Inv := by
  unfold podSend; grind [MemInv, SendRes.Inv, outPkt_inv, countNonmin_inv, putTag_inv]

theorem takeTags_inv (die dev gid p) (l : List (Nat × TagUse)) (h : MemInv s) {i} (e : takeTags die dev gid p l s = some (i,
    t)) :
    MemInv t := by
  induction l generalizing s i with
  | nil => cases e; exact h
  | cons u l ih =>
    dsimp only [takeTags] at e
    split at e
    · cases e
    split at e
    · cases e
    next hl => cases e; exact ih (putTag_inv _ _ _ _ _ h) hl

theorem mcoSend_inv (die root line p uses gid) (h : MemInv s) : (mcoSend s die root line p uses gid).Inv := by
  unfold mcoSend
  split
  · trivial
  split
  · trivial
  extract_lets
  split
  · trivial
  · next ht => exact outPkt_inv _ (takeTags_inv _ _ _ _ _ h ht : MemInv _)

theorem freeTagAt_inv (key late) (h : MemInv s) : MemInv (freeTagAt s key late) :=
  h

theorem relayPump_inv (x y) (h : MemInv s) : MemInv (relayPump x s y) := by
  fun_induction relayPump x s y <;> grind [MemInv, outPkt_inv]

theorem respond_inv (p status data) (h : MemInv s) : MemInv (respond s p status data) :=
  sendMin_inv _ h

theorem rootServe_inv (g p) {own answer} (hown : ∀ s pa, MemInv s → MemInv (own s pa).2)
    (hans : ∀ s t st, MemInv s → MemInv (answer s t st)) (h : MemInv s) :
    MemInv (rootServe g p own answer s) := by
  unfold rootServe; grind [MemInv, relayPump_inv, foldl_inv]

/-! ## The functions of MemCore -/

theorem updOp_inv (id f) (h : MemInv s) : MemInv (updOp s id f) :=
  h

theorem updLane_inv (id gl f) (h : MemInv s) : MemInv (updLane s id gl f) :=
  h

theorem setLaneSt_inv (id gl st) (h : MemInv s) : MemInv (setLaneSt s id gl st) :=
  h

theorem flipAsk_inv (asid ten va toHost) (h : MemInv s) : MemInv (flipAsk s asid ten va toHost) := by
  unfold flipAsk; grind [MemInv]

theorem raceSkip_inv (ten) (h : MemInv s) : MemInv (raceSkip s ten) :=
  h

theorem detRelease_inv (ten n scope) (h : MemInv s) : MemInv (detRelease s ten n scope) :=
  h

theorem ownWrite_inv (asid ten va) (h : MemInv s) : MemInv (ownWrite s asid ten va).2 := by
  unfold ownWrite; grind [spend_inv, walkNow_inv]

theorem raceLog_inv (asid ten row) (h : MemInv s) : MemInv (raceLog s asid ten row) := by
  have hset {s : State} (v) (h : MemInv s) : MemInv (tsysSet s ten srRaceLog v) := h
  generalize hf : raceLog = f
  delta raceLog at hf
  subst hf
  obtain ⟨O, hO⟩ : ∃ O, O = ownWrite := ⟨_, rfl⟩
  have ho (s asid ten va) (h : MemInv s) : MemInv (O s asid ten va).2 := hO ▸ ownWrite_inv asid ten va h
  rw [← hO]
  clear hO
  grind [homeStore_inv]

theorem raceSector_inv (o n va atomic writes now) (h : MemInv s) : MemInv (raceSector s o n va atomic writes now).2 := by
  generalize hf : raceSector = F
  delta raceSector at hf
  subst hf
  obtain ⟨O, hO⟩ : ∃ O, O = ownWrite := ⟨_, rfl⟩
  have ho (s asid ten va) (h : MemInv s) : MemInv (O s asid ten va).2 := hO ▸ ownWrite_inv asid ten va h
  rw [← hO]
  clear hO
  grind [raceSkip_inv, raceLog_inv, homeStore_inv, MemInv]

theorem raceTrap_inv (o gl va row) (h : MemInv s) : MemInv (raceTrap s o gl va row) :=
  emit_inv _ _ _ h

theorem raceLane_inv (o gl va n miss) (h : MemInv s) : MemInv (raceLane s o gl va n miss) := by
  generalize hf : raceLane = F
  delta raceLane at hf
  subst hf
  obtain ⟨R, hR⟩ : ∃ R, R = raceSector := ⟨_, rfl⟩
  have hr (s o n va atomic writes now) (h : MemInv s) : MemInv (R s o n va atomic writes now).2 :=
    hR ▸ raceSector_inv o n va atomic writes now h
  rw [← hR]
  clear hR
  grind [foldl_snd_inv, raceTrap_inv]

theorem shadowHold_inv (o va n) (h : MemInv s) : MemInv (shadowHold s o va n).2 := by
  generalize hf : shadowHold = F
  delta shadowHold at hf
  subst hf
  obtain ⟨W, hW⟩ : ∃ W, W = walkNow := ⟨_, rfl⟩
  have hw (s asid ten va acc) (h : MemInv s) : MemInv (W s asid ten va acc).2 := hW ▸ walkNow_inv asid ten va acc h
  rw [← hW]
  clear hW
  grind [foldl_snd_inv]

theorem laneReq_inv (o gl sl pa cls far k) (h : MemInv s) : MemInv (laneReq s o gl sl pa cls far k) :=
  h

theorem askLane_inv (o gl sl pa cls far k) (h : MemInv s) : (askLane s o gl sl pa cls far k).Inv := by
  unfold askLane; grind [LaneOut.Inv, laneReq_inv]

theorem localLoad_inv (o gl pa n cls far) (h : MemInv s) : (localLoad s o gl pa n cls far).Inv := by
  unfold localLoad; grind [LaneOut.Inv, ccFlush_inv, askLane_inv, raceFree_inv]

theorem localStore_inv (o gl pa cls far b) (h : MemInv s) : (localStore s o gl pa cls far b).Inv := by
  unfold localStore; grind [LaneOut.Inv, ccFlush_inv, askLane_inv, ccStore_inv, raceFree_inv]

theorem localAtomic_inv (o gl pa cls k) (h : MemInv s) : (localAtomic s o gl pa cls k).Inv := by
  unfold localAtomic; grind [LaneOut.Inv, ccFlush_inv, askLane_inv]

theorem podLane_inv (o gl dev pa level p member plain) (h : MemInv s) : (podLane s o gl dev pa level p member plain).Inv := by
  unfold podLane; grind [MemInv, SendRes.Inv, LaneOut.Inv, podSend_inv]

theorem dropRes_inv (key) (h : MemInv s) : MemInv (dropRes s key) :=
  h

theorem LaneOut.andSent_inv {f} (hf : ∀ s, MemInv s → MemInv (f s)) {o : LaneOut} (h : o.Inv) :
    (o.andSent f).Inv := by
  cases o <;> grind [MemInv, LaneOut.Inv, LaneOut.andSent]

theorem podLl_inv (o gl dev pa level n) (h : MemInv s) : (podLl s o gl dev pa level n).Inv := by
  unfold podLl; grind [MemInv, LaneOut.Inv, dropRes_inv, podLane_inv, LaneOut.andSent_inv]

theorem podSc_inv (o gl dev pa level b) (h : MemInv s) : (podSc s o gl dev pa level b).Inv := by
  unfold podSc; grind [LaneOut.Inv, dropRes_inv, podLane_inv, LaneOut.andSent_inv]

theorem sendLoad_inv (o l n ent level) (h : MemInv s) : (sendLoad s o l n ent level).Inv := by
  unfold sendLoad; grind [LaneOut.Inv, podLane_inv, localLoad_inv]

theorem sendStore_inv (o gl va b ent level) (h : MemInv s) : (sendStore s o gl va b ent level).Inv := by
  unfold sendStore; grind [LaneOut.Inv, podLane_inv, localStore_inv]

theorem sendAtomic_inv (o l x level k) {pod} (hp : ∀ d pa, (pod d pa).Inv) (h : MemInv s) :
    (sendAtomic s o l x level k pod).Inv := by
  unfold sendAtomic; grind [MemInv, LaneOut.Inv, localAtomic_inv]

theorem sendLane_inv (o l ent level) (h : MemInv s) : (sendLane s o l ent level).Inv := by
  unfold sendLane; grind [MemInv, LaneOut.Inv, sendLoad_inv, sendAtomic_inv, sendStore_inv, podSc_inv, podLane_inv,
    LaneOut.andSent_inv, podLl_inv]

theorem applyOut_inv (id gl va) {o : LaneOut} (h : o.Inv) : MemInv (applyOut id gl va o) := by
  cases o <;> grind [LaneOut.Inv, applyOut, updLane_inv, setLaneSt_inv]

theorem applyTr_inv (id gl tr) (h : MemInv s) : MemInv (applyTr s id gl tr) := by
  have hsend {s : State} (o l) (x : W64) (lev miss) (h : MemInv s) :
      MemInv (applyOut id gl l.va (match sendLane s o l x lev with
        | .done s d => .done (raceLane s o gl l.va o.kind.bytes miss) d
        | .sent s => .sent (raceLane s o gl l.va o.kind.bytes miss)
        | x => x)) := by
    apply applyOut_inv
    have := sendLane_inv o l x lev h
    split <;> grind [LaneOut.Inv, raceLane_inv]
  unfold applyTr
  split
  · exact h
  split
  · exact h
  split
  · exact setLaneSt_inv _ _ _ h
  · exact setLaneSt_inv _ _ _ h
  · exact h
  · extract_lets u
    split
    · grind [setLaneSt_inv, updLane_inv, shadowHold_inv]
    · next hs =>
      exact hsend _ _ _ _ _ ((congrArg (fun p => MemInv p.2) hs).mp (shadowHold_inv _ _ _ (updLane_inv _ _ _ h)))

theorem queueWalk_inv (w) (h : MemInv s) : MemInv (queueWalk s w) := by
  unfold queueWalk; grind [MemInv, updCluster_inv]

theorem sttrXlate_inv (o l) (h : MemInv s) : MemInv (sttrXlate s o l).2.2 := by
  unfold sttrXlate; grind [xlateNow_inv]

theorem sttrStores_inv (o gl k x) (h : MemInv s) : MemInv (sttrStores s o gl k x).2 := by
  fun_induction sttrStores s o gl k x <;> grind [LaneOut.Inv, laneReq_inv, sendStore_inv]

theorem sttrWrite_inv (id x) (h : MemInv s) : MemInv (sttrWrite s id x) := by
  fun_induction sttrWrite s id x <;> grind [sttrStores_inv, raceLane_inv, setLaneSt_inv]

theorem sttrStep_inv (o) (h : MemInv s) : MemInv (sttrStep s o) := by
  unfold sttrStep
  split
  rename_i trs u hu
  have hu : MemInv u := by
    grind [foldl_snd_inv, sttrXlate_inv]
  split
  rename_i trs v hv
  have hv : MemInv v := by
    refine (congrArg (fun p => MemInv p.2) hv).mp (foldl_snd_inv _ _ _ (fun p x hp => ?_) hu)
    grind [shadowHold_inv]
  extract_lets _ _ _ flush y
  have hy : MemInv y := by
    grind [ccFlush_inv, foldl_inv]
  clear_value y
  grind [setLaneSt_inv, foldl_inv, sttrWrite_inv]

theorem ownCopy_inv (o l pa) (h : MemInv s) : MemInv (ownCopy s o l pa).2 := by
  unfold ownCopy; grind [performStore_inv, ccFlush_inv, askFor_inv, raceFree_inv, remoteUpdate_inv]

theorem stmMember_inv (o l off idx m) (h : MemInv s) : MemInv (stmMember s o l off idx m).2 := by
  unfold stmMember; grind [MemInv, SendRes.Inv, podSend_inv, ownCopy_inv]

theorem laneStat_inv (o l idx c) (h : MemInv s) : MemInv (laneStat s o l idx c) :=
  h

theorem laneStats_inv (o l c) (h : MemInv s) : MemInv (laneStats s o l c) :=
  h

theorem stmSend_inv (o l g off was) (h : MemInv s) : MemInv (stmSend s o l g off was) := by
  unfold stmSend
  extract_lets p due uses
  split
  · grind [SendRes.Inv, mcoSend_inv, laneStats_inv]
  split
  · split
    · exact h
    split
    · exact h
    · refine rootServe_inv _ _ (fun s pa hs => ownCopy_inv _ _ _ hs)
        (fun s t st hs => freeTagAt_inv _ _ (laneStat_inv _ _ _ _ hs)) ?_
      grind [laneStats_inv, takeTags_inv]
  · grind [foldl_inv, stmMember_inv, laneStat_inv]

theorem stmLane_inv (o l) (h : MemInv s) : MemInv (stmLane s o l) := by
  unfold stmLane; grind [MemInv, updLane_inv, raceLane_inv, setLaneSt_inv, stmSend_inv]

theorem spadLane_inv (o l) (h : MemInv s) : MemInv (spadLane s o l) := by
  unfold spadLane; grind [MemInv, updLane_inv, setLaneSt_inv, spadWrite_inv]

theorem stepLane_inv (id gl) (h : MemInv s) : MemInv (stepLane id s gl) := by
  unfold stepLane; grind [stmLane_inv, setLaneSt_inv, queueWalk_inv, applyTr_inv, spadLane_inv]

theorem advanceOp_inv (id) (h : MemInv s) : MemInv (advanceOp s id) := by
  unfold advanceOp; grind [sttrStep_inv, stepLane_inv, foldl_inv, foldl_snd_inv]

theorem writeLaneRegs_inv (tid n lane regs ws) (h : MemInv s) : MemInv (writeLaneRegs s tid n lane regs ws) :=
  h

theorem writeDone_inv (o) (h : MemInv s) : MemInv (writeDone s o) := by
  unfold writeDone; grind [writeLaneRegs_inv, foldl_inv, foldl_snd_inv]

theorem askFlip_inv (o code lanes) (h : MemInv s) : MemInv (askFlip s o code lanes) := by
  unfold askFlip; grind [flipAsk_inv, foldl_inv, foldl_snd_inv]

theorem logFaults_inv (o) (h : MemInv s) : MemInv (logFaults s o) := by
  unfold logFaults; grind [MemInv, askFlip_inv, raiseLane_inv, foldl_inv, foldl_snd_inv]

theorem endBlocking_inv (o) (h : MemInv s) : MemInv (endBlocking s o) := by
  unfold endBlocking; grind [endGambit_inv]

theorem finishReplay_inv (o id) (h : MemInv s) : MemInv (finishReplay s o id) := by
  unfold finishReplay; grind [MemInv, updCore_inv, askFlip_inv, emit_inv, dropEntry_inv]

theorem completeOp_inv (id) (h : MemInv s) : MemInv (completeOp s id) := by
  unfold completeOp; grind [MemInv, writeDone_inv, logFaults_inv, endBlocking_inv, finishReplay_inv]

theorem completePref_inv (o) (h : MemInv s) : MemInv (completePref s o) := by
  unfold completePref; grind [MemInv, updTeam_inv, raisePref_inv, foldl_inv, foldl_snd_inv]

theorem advanceAll_inv (h : MemInv s) : MemInv (advanceAll s) := by
  unfold advanceAll; grind [advanceOp_inv, foldl_inv, foldl_snd_inv]

theorem settleOp_inv (id) (h : MemInv s) : MemInv (settleOp s id) := by
  unfold settleOp; grind [completeOp_inv, completePref_inv]

theorem answerLane_inv (id gl r cc) (h : MemInv s) : MemInv (answerLane s id gl r cc) := by
  unfold answerLane
  split
  · exact h
  split
  · exact h
  split
  · exact h
  split
  · exact h
  · grind [setLaneSt_inv, settleOp_inv, advanceAll_inv]
  · apply settleOp_inv
    apply advanceAll_inv
    split
    · exact updLane_inv _ _ _ h
    · exact setLaneSt_inv _ _ _ h
    · grind [updLane_inv, ccEnsure_inv, ccPut_inv]

/-! ## The functions of PrefAlu -/

theorem prefDone_inv (p f) (h : MemInv s) : MemInv (prefDone s p f) :=
  h

theorem prefAlu_inv (d ok f) (h : MemInv s) (e : prefAlu d ok f s = .next t) : MemInv t := by
  unfold prefAlu at e; grind [prefDone_inv, withPref_inv, illegalPref_inv]

theorem prefReg_inv (d a b f) (h : MemInv s) (e : prefReg d a b f s = .next t) : MemInv t := by
  unfold prefReg at e; exact prefAlu_inv _ _ _ h e

theorem prefImm_inv (d a ok f) (h : MemInv s) (e : prefImm d a ok f s = .next t) : MemInv t := by
  unfold prefImm at e; exact prefAlu_inv _ _ _ h e

theorem execSmulh_inv (d a b) (h : MemInv s) (e : execSmulh d a b s = .next t) : MemInv t := by
  unfold execSmulh at e; exact prefReg_inv _ _ _ _ h e

theorem execSshl_inv (d a b) (h : MemInv s) (e : execSshl d a b s = .next t) : MemInv t := by
  unfold execSshl at e; exact prefReg_inv _ _ _ _ h e

theorem execSshr_inv (d a b) (h : MemInv s) (e : execSshr d a b s = .next t) : MemInv t := by
  unfold execSshr at e; exact prefReg_inv _ _ _ _ h e

theorem execSsra_inv (d a b) (h : MemInv s) (e : execSsra d a b s = .next t) : MemInv t := by
  unfold execSsra at e; exact prefReg_inv _ _ _ _ h e

theorem execSmin_inv (d a b) (h : MemInv s) (e : execSmin d a b s = .next t) : MemInv t := by
  unfold execSmin at e; exact prefReg_inv _ _ _ _ h e

theorem execSmax_inv (d a b) (h : MemInv s) (e : execSmax d a b s = .next t) : MemInv t := by
  unfold execSmax at e; exact prefReg_inv _ _ _ _ h e

theorem execSslt_inv (d a b) (h : MemInv s) (e : execSslt d a b s = .next t) : MemInv t := by
  unfold execSslt at e; exact prefReg_inv _ _ _ _ h e

theorem execSsltu_inv (d a b) (h : MemInv s) (e : execSsltu d a b s = .next t) : MemInv t := by
  unfold execSsltu at e; exact prefReg_inv _ _ _ _ h e

theorem execSmov_inv (d a) (h : MemInv s) (e : execSmov d a s = .next t) : MemInv t := by
  unfold execSmov at e; exact prefImm_inv _ _ _ _ h e

theorem execSaddi_inv (d a imm) (h : MemInv s) (e : execSaddi d a imm s = .next t) : MemInv t := by
  unfold execSaddi at e; exact prefImm_inv _ _ _ _ h e

theorem execSandi_inv (d a imm) (h : MemInv s) (e : execSandi d a imm s = .next t) : MemInv t := by
  unfold execSandi at e; exact prefImm_inv _ _ _ _ h e

theorem execSori_inv (d a imm) (h : MemInv s) (e : execSori d a imm s = .next t) : MemInv t := by
  unfold execSori at e; exact prefImm_inv _ _ _ _ h e

theorem execSxori_inv (d a imm) (h : MemInv s) (e : execSxori d a imm s = .next t) : MemInv t := by
  unfold execSxori at e; exact prefImm_inv _ _ _ _ h e

theorem execSshli_inv (d a imm) (h : MemInv s) (e : execSshli d a imm s = .next t) : MemInv t := by
  unfold execSshli at e; exact prefImm_inv _ _ _ _ h e

theorem execSshri_inv (d a imm) (h : MemInv s) (e : execSshri d a imm s = .next t) : MemInv t := by
  unfold execSshri at e; exact prefImm_inv _ _ _ _ h e

theorem execSsrai_inv (d a imm) (h : MemInv s) (e : execSsrai d a imm s = .next t) : MemInv t := by
  unfold execSsrai at e; exact prefImm_inv _ _ _ _ h e

theorem prefJump_inv (f) (h : MemInv s) (e : prefJump f s = .next t) : MemInv t := by
  unfold prefJump at e; grind [MemInv, updTeam_inv, withPref_inv]

theorem prefBranch_inv (a b d c) (h : MemInv s) (e : prefBranch a b d c s = .next t) : MemInv t := by
  unfold prefBranch at e; exact prefJump_inv _ h e

theorem execSbGe_inv (a b d) (h : MemInv s) (e : execSbGe a b d s = .next t) : MemInv t := by
  unfold execSbGe at e; exact prefBranch_inv _ _ _ _ h e

theorem execSbLtu_inv (a b d) (h : MemInv s) (e : execSbLtu a b d s = .next t) : MemInv t := by
  unfold execSbLtu at e; exact prefBranch_inv _ _ _ _ h e

theorem execSbGeu_inv (a b d) (h : MemInv s) (e : execSbGeu a b d s = .next t) : MemInv t := by
  unfold execSbGeu at e; exact prefBranch_inv _ _ _ _ h e

theorem execSj_inv (d) (h : MemInv s) (e : execSj d s = .next t) : MemInv t := by
  unfold execSj at e; exact prefJump_inv _ h e

theorem execScall_inv (a d) (h : MemInv s) (e : execScall a d s = .next t) : MemInv t := by
  unfold execScall at e; exact prefJump_inv _ h e

theorem execSret_inv (a) (h : MemInv s) (e : execSret a s = .next t) : MemInv t := by
  unfold execSret at e; exact prefJump_inv _ h e

theorem execSjr_inv (a d) (h : MemInv s) (e : execSjr a d s = .next t) : MemInv t := by
  unfold execSjr at e; exact prefJump_inv _ h e

theorem prefStall_inv (p st) (h : MemInv s) : MemInv (prefStall s p st) :=
  h

theorem execDqpush_inv (a) (h : MemInv s) (e : execDqpush a s = .next t) : MemInv t := by
  unfold execDqpush at e; grind [MemInv, prefStall_inv, updTeam_inv, prefDone_inv, withPref_inv]

theorem execSwtime_inv (a) (h : MemInv s) (e : execSwtime a s = .next t) : MemInv t := by
  unfold execSwtime at e; grind [MemInv, prefStall_inv, prefDone_inv, withPref_inv]

theorem execSbar_inv (n half l) (h : MemInv s) (e : execSbar n half l s = .next t) : MemInv t := by
  unfold execSbar at e; grind [MemInv, barArrive_inv, withPref_inv, illegalPref_inv]

/-! ## The functions of Mem -/

theorem prefReq_inv (core ten va ent level cls near) (h : MemInv s) (e : prefReq s core ten va ent level cls near = some t) :
    MemInv t := by
  unfold prefReq at e; grind [MemInv, postReq_inv]

theorem prefSend_inv (core ten va ent level cls near) (h : MemInv s) : MemInv (prefSend s core ten va ent level cls near) := by
  unfold prefSend; grind [prefReq_inv, getD_inv]

theorem gcntUp_inv (core lo) (h : MemInv s) : MemInv (gcntUp s core lo) :=
  h

theorem gambitPref_inv (core ten va ent level cls) (h : MemInv s) : MemInv (gambitPref s core ten va ent level cls) := by
  unfold gambitPref; grind [gcntUp_inv, prefReq_inv]

theorem gambitLane_inv (g va n) (h : MemInv s) : MemInv (gambitLane s g va n).2 := by
  unfold gambitLane; grind [gcntUp_inv, gambitPref_inv, queueWalk_inv]

theorem gambitLoad_inv (sp k g legal) (h : MemInv s) : MemInv (gambitLoad sp k s g legal) := by
  unfold gambitLoad; grind [MemInv, finish_inv, updTeam_inv, endGambit_inv, gambitLane_inv, foldl_inv, foldl_snd_inv]

theorem startOp_inv (o) (h : MemInv s) : MemInv (startOp s o) :=
  settleOp_inv _ (advanceOp_inv _ h)

theorem memRun_inv (sp g) (h : MemInv s) : MemInv (memRun sp s g) := by
  unfold memRun; grind [prelude_inv, gambitLoad_inv, illegalGang_inv, finish_inv, startOp_inv, stall_inv, endGambit_inv]

theorem memInstr_inv (sp) (h : MemInv s) (e : memInstr sp s = .next t) : MemInv t := by
  unfold memInstr at e; grind [withGang_inv, memRun_inv]

theorem execPref_inv (a l) (h : MemInv s) (e : execPref a l s = .next t) : MemInv t := by
  unfold execPref at e; grind [MemInv, prelude_inv, withGang_inv, illegalGang_inv, prefSend_inv, finish_inv, queueWalk_inv,
    foldl_inv, foldl_snd_inv]

theorem setFifoQ_inv (cl n l) (h : MemInv s) : MemInv (setFifoQ s cl n l) :=
  h

theorem fifoWait_inv (g n) (h : MemInv s) : MemInv (fifoWait s g n) :=
  h

theorem fifoLeave_inv (g n) (h : MemInv s) : MemInv (fifoLeave s g n) :=
  h

theorem execFpush_inv (a b) (h : MemInv s) (e : execFpush a b s = .next t) : MemInv t := by
  unfold execFpush at e; grind [MemInv, prelude_inv, withGang_inv, illegalGang_inv, fifoLeave_inv, fifoWait_inv, finish_inv,
    updCluster_inv, stall_inv, endGambit_inv]

theorem execFpop_inv (d a) (h : MemInv s) (e : execFpop d a s = .next t) : MemInv t := by
  unfold execFpop at e; grind [MemInv, prelude_inv, withGang_inv, illegalGang_inv, fifoLeave_inv, fifoWait_inv, finish_inv,
    updCluster_inv, stall_inv, endGambit_inv, foldl_inv, foldl_snd_inv]

theorem fenceStep_inv (b f) (h : MemInv s) : MemInv (fenceStep s b f).2.2 := by
  unfold fenceStep; grind [ccClean_inv, bumpDie_inv]

theorem execFence_inv (p q c) (h : MemInv s) (e : execFence p q c s = .next t) : MemInv t := by
  unfold execFence at e; grind [MemInv, finish_inv, detRelease_inv, fenceStep_inv, updSlices_inv, endingBut_inv]

theorem execSfence_inv (c p q) (h : MemInv s) (e : execSfence c p q s = .next t) : MemInv t := by
  unfold execSfence at e; grind [MemInv, updTeam_inv, prefDone_inv, withPref_inv, illegalPref_inv, fenceStep_inv]

theorem prefAccess_inv (idx a disp d store) (h : MemInv s) (e : prefAccess idx a disp d store s = .next t) : MemInv t := by
  unfold prefAccess at e; grind [MemInv, prefStall_inv, xlateNow_inv, withPref_inv, applyTr_inv, settleOp_inv, flipAsk_inv,
    raisePref_inv]

theorem prefSpad_inv (a disp d n store) (h : MemInv s) (e : prefSpad a disp d n store s = .next t) : MemInv t := by
  unfold prefSpad at e; grind [prefStall_inv, prefDone_inv, withPref_inv, illegalPref_inv, spadWrite_inv, raisePref_inv]

theorem eventOp_inv (pa ten add v) (h : MemInv s) : MemInv (eventOp s pa ten add v) := by
  unfold eventOp; grind [MemInv, performStore_inv, spend_inv, remoteDrop_inv]

theorem execQsignal_inv (c o a b) (h : MemInv s) (e : execQsignal c o a b s = .next t) : MemInv t := by
  unfold execQsignal at e; grind [MemInv, SendRes.Inv, prefStall_inv, xlateNow_inv, eventOp_inv, updTeam_inv, podSend_inv,
    prefDone_inv, withPref_inv, illegalPref_inv, fenceStep_inv, flipAsk_inv, raisePref_inv]

theorem setSegment_inv (cl g m) (h : MemInv s) : MemInv (setSegment s cl g m) := by
  unfold setSegment; grind [MemInv, updCluster_inv, ccWriteBack_inv, foldl_inv, foldl_snd_inv]

theorem cfgHold_inv (p cl mask mark) (h : MemInv s) : MemInv (cfgHold s p cl mask mark) :=
  h

theorem cfgLeave_inv (cl tid) (h : MemInv s) : MemInv (cfgLeave s cl tid) := by
  unfold cfgLeave; grind [MemInv, updCluster_inv]

theorem execSramcfg_inv (m a) (h : MemInv s) (e : execSramcfg m a s = .next t) : MemInv t := by
  unfold execSramcfg at e; grind [MemInv, prefStall_inv, prefDone_inv, withPref_inv, illegalPref_inv, cfgLeave_inv,
    advanceAll_inv, cfgHold_inv, setSegment_inv, foldl_inv, foldl_snd_inv]

/-! ## The functions of MemEvents -/

theorem walkLanes_inv (w o) (h : MemInv s) : MemInv (walkLanes s w o) := by
  unfold walkLanes; grind [tlbFill_inv, walkNow_inv, applyTr_inv, foldl_inv, foldl_snd_inv]

theorem doWalk_inv (w) (h : MemInv s) : MemInv (doWalk s w) := by
  unfold doWalk; grind [walkLanes_inv, tlbFill_inv, prefSend_inv, askFor_inv, gambitPref_inv, queueWalk_inv, settleOp_inv,
    advanceAll_inv]

theorem execPageWalk_inv (h : MemInv s) (e : execPageWalk s = .next t) : MemInv t := by
  unfold execPageWalk at e; grind [MemInv, updCluster_inv, doWalk_inv, advanceAll_inv]

theorem zeroRange_inv (base len) (h : MemInv s) : MemInv (zeroRange s base len) := by
  unfold zeroRange; grind [MemInv, clearRes_inv, wf_filter]

theorem zeroSpend_inv (ten base len) (h : MemInv s) : MemInv (zeroSpend s ten base len) := by
  unfold zeroSpend; grind [MemInv, foldl_inv, foldl_snd_inv]

theorem zeroIn_inv (p) (h : MemInv s) : MemInv (zeroIn s p) := by
  unfold zeroIn; grind [MemInv, respond_inv]

theorem execZeroRequest_inv (h : MemInv s) (e : execZeroRequest s = .next t) : MemInv t := by
  unfold execZeroRequest at e; grind [MemInv, SendRes.Inv, podSend_inv, zeroSpend_inv, zeroIn_inv, zeroRange_inv]

theorem zeroReport_inv (dev base status) (h : MemInv s) : MemInv (zeroReport s dev base status) :=
  h

theorem wakeZero_inv (h : MemInv s) : MemInv (wakeZero s) :=
  h

theorem execZeroingComplete_inv (h : MemInv s) (e : execZeroingComplete s = .next t) : MemInv t := by
  unfold execZeroingComplete at e; grind [MemInv, homeStore_inv, respond_inv, updTenant_inv, wakeZero_inv, advanceAll_inv,
    foldl_inv, foldl_snd_inv]

theorem asidRebind_inv (v) (h : MemInv s) : MemInv (asidRebind s v) := by
  unfold asidRebind; grind [MemInv, sysSet_inv, postReq_inv]

theorem asidLoad_inv (a pa) (h : MemInv s) : MemInv (asidLoad s a pa) :=
  homeStore_inv _ _ h

theorem execAsidRebind_inv (h : MemInv s) (e : execAsidRebind s = .next t) : MemInv t := by
  cases e; exact asidRebind_inv _ h

theorem execAsidRebindDone_inv (h : MemInv s) (e : execAsidRebindDone s = .next t) : MemInv t := by
  unfold execAsidRebindDone at e; grind [MemInv, sysSet_inv, tlbPurge_inv]

theorem syncMatrix_inv (ten) (h : MemInv s) : MemInv (syncMatrix s ten) :=
  h

theorem syncQueues_inv (ten) (h : MemInv s) : MemInv (syncQueues s ten) :=
  h

theorem ptSyncStart_inv (ten v) (h : MemInv s) : MemInv (ptSyncStart s ten v).2 := by
  unfold ptSyncStart; grind [MemInv, syncMatrix_inv, syncQueues_inv, syncTables_inv]

theorem execPtSync_inv (h : MemInv s) (e : execPtSync s = .next t) : MemInv t := by
  cases e; exact ptSyncStart_inv _ _ h

theorem startReplay_inv (ent) (h : MemInv s) : MemInv (startReplay s ent) := by
  unfold startReplay; grind [MemInv, updCore_inv, completeOp_inv, advanceOp_inv]

theorem skipEntry_inv (ent) (h : MemInv s) : MemInv (skipEntry s ent) := by
  unfold skipEntry; grind [MemInv, writeDone_inv, advanceAll_inv, dropEntry_inv]

theorem resumeEntry_inv (ent) (h : MemInv s) : MemInv (resumeEntry s ent) := by
  unfold resumeEntry; grind [skipEntry_inv, startReplay_inv]

theorem execOperandLogReplay_inv (h : MemInv s) (e : execOperandLogReplay s = .next t) : MemInv t := by
  unfold execOperandLogReplay at e; grind [MemInv, resumeEntry_inv]

theorem execLockReplay_inv (h : MemInv s) (e : execLockReplay s = .next t) : MemInv t := by
  unfold execLockReplay at e; grind [MemInv, startReplay_inv]

theorem flipNow_inv (f) (h : MemInv s) : MemInv (flipNow s f) := by
  generalize hF : flipNow = F
  delta flipNow at hF
  subst hF
  obtain ⟨L, hL⟩ : ∃ L, L = leafSlot := ⟨_, rfl⟩
  obtain ⟨P, hP⟩ : ∃ P, P = ptSyncStart := ⟨_, rfl⟩
  have hp (s ten v) (h : MemInv s) : MemInv (P s ten v).2 := hP ▸ ptSyncStart_inv ten v h
  rw [← hL, ← hP]
  clear hL hP
  beta_reduce
  extract_lets
  split
  · exact h
  · extract_lets
    split
    · exact h
    · exact hp _ _ _ (homeStore_inv _ _ h)

theorem flipReplays_inv (x y) (h : MemInv s) : MemInv (flipReplays x s y) := by
  fun_induction flipReplays x s y <;> grind [MemInv, startReplay_inv]

theorem execAdapterFlipReply_inv (h : MemInv s) (e : execAdapterFlipReply s = .next t) : MemInv t := by
  unfold execAdapterFlipReply at e; grind [MemInv, flipNow_inv]

theorem execHostFlip_inv (h : MemInv s) (e : execHostFlip s = .next t) : MemInv t := by
  unfold execHostFlip at e; grind [MemInv, flipNow_inv, flipAsk_inv]

theorem execFlipHoldExpiry_inv (h : MemInv s) (e : execFlipHoldExpiry s = .next t) : MemInv t := by
  unfold execFlipHoldExpiry at e; grind [MemInv, flipNow_inv]

theorem flipOver_inv (f) (h : MemInv s) : MemInv (flipOver s f) := by
  unfold flipOver; grind [MemInv, flipReplays_inv]

theorem execPtSyncRetire_inv (h : MemInv s) (e : execPtSyncRetire s = .next t) : MemInv t := by
  unfold execPtSyncRetire at e; grind [MemInv, flipOver_inv]

theorem execRdcSizeApply_inv (h : MemInv s) (e : execRdcSizeApply s = .next t) : MemInv t := by
  unfold execRdcSizeApply at e; grind [MemInv]

theorem codeDone_inv (gid pc r) (h : MemInv s) : MemInv (codeDone s gid pc r) :=
  h

theorem answerReq_inv (r p) (h : MemInv s) : MemInv (answerReq s r p) := by
  unfold answerReq; grind [ccEnsure_inv, respond_inv, answerLane_inv, codeDone_inv, asidLoad_inv, ccPut_inv, advanceAll_inv]

theorem execL2Request_inv (h : MemInv s) (e : execL2Request s = .next t) : MemInv t := by
  unfold execL2Request at e; grind [MemInv, answerReq_inv, perform_inv, acceptReq_inv]

theorem execBump_inv (h : MemInv s) (e : execBump s = .next t) : MemInv t := by
  unfold execBump at e; grind [MemInv, bumpDie_inv]

theorem execReservationExpiry_inv (h : MemInv s) (e : execReservationExpiry s = .next t) : MemInv t := by
  cases e; exact h

theorem execLoadReturn_inv (h : MemInv s) (e : execLoadReturn s = .next t) : MemInv t := by
  unfold execLoadReturn at e; grind [MemInv, completeOp_inv, completePref_inv, advanceAll_inv]

end Sys2Proof.Machine
end

section
/-! SUPPORT. Memory stays canonical (O59): grids and the copy engines. -/

namespace Sys2Proof.Machine
-- One declaration after the other: in parallel, the threads' stacks pass the check's memory limit.
set_option Elab.async false
variable {s t : State}

/-! ## The functions of Leave -/

theorem freeTags_inv (core ten) (h : MemInv s) : MemInv (freeTags s core ten) := by
  unfold freeTags; grind [MemInv, updCore_inv, foldl_inv, foldl_snd_inv]

theorem freeBars_inv (cl ten) (h : MemInv s) : MemInv (freeBars s cl ten) := by
  unfold freeBars; grind [MemInv, updCluster_inv]

theorem clusterReset_inv (cl) (h : MemInv s) : MemInv (clusterReset s cl) := by
  unfold clusterReset; grind [MemInv, updCluster_inv, ccWriteBack_inv, ccPut_inv, setSegment_inv, foldl_inv, foldl_snd_inv]

theorem leaveCore_inv (tid) (h : MemInv s) : MemInv (leaveCore s tid) :=
  h

theorem roomTaken_inv (cl) (h : MemInv s) : MemInv (roomTaken s cl) :=
  h

theorem formLeft_inv (fid cl ten) (h : MemInv s) : MemInv (formLeft s fid cl ten) := by
  unfold formLeft; grind [MemInv, updForm_inv, updTenant_inv, roomTaken_inv]

theorem removeTeam_inv (tid) (h : MemInv s) : MemInv (removeTeam s tid) := by
  unfold removeTeam; grind [MemInv, clusterReset_inv, formLeft_inv, freeTags_inv, freeBars_inv, leaveCore_inv]

theorem teamDone_inv (tid) (h : MemInv s) : MemInv (teamDone s tid) := by
  unfold teamDone; grind [MemInv, updGrid_inv, removeTeam_inv]

theorem execExitSlice_inv (h : MemInv s) (e : execExitSlice s = .next t) : MemInv t := by
  unfold execExitSlice at e; grind [MemInv, barsAfterExit_inv, ending_inv, updTeam_inv, teamDone_inv]

theorem execSexit_inv (h : MemInv s) (e : execSexit s = .next t) : MemInv t := by
  unfold execSexit at e; grind [MemInv, barsAfterExit_inv, updTeam_inv, withPref_inv, teamDone_inv]

/-! ## The functions of Grid -/

theorem queuePut_inv (q f) (h : MemInv s) : MemInv (queuePut s q f) :=
  homeStore_inv _ _ h

theorem stopQueueAt_inv (q n cause) (h : MemInv s) : MemInv (stopQueueAt s q n cause) :=
  emit_inv _ _ _ (queuePut_inv _ _ h)

theorem stopQueue_inv (q cause) (h : MemInv s) : MemInv (stopQueue s q cause) :=
  stopQueueAt_inv _ _ _ h

theorem queueSettle_inv (q) (h : MemInv s) : MemInv (queueSettle s q) := by
  unfold queueSettle; grind [MemInv, queuePut_inv]

theorem entryDone_inv (q n) (h : MemInv s) : MemInv (entryDone s q n) := by
  unfold entryDone; grind [MemInv, queueSettle_inv, updQueue_inv, queuePut_inv]

theorem eventAt_inv (asid ten va add v use gid) (h : MemInv s) : (eventAt s asid ten va add v use gid).Inv := by
  unfold eventAt; grind [SendRes.Inv, EvRes.Inv, eventOp_inv, podSend_inv, walkNow_inv, flipAsk_inv]

theorem mapMx_inv (f) (h : MemInv s) : MemInv (mapMx s f) :=
  h

theorem mapCores_inv (f) (h : MemInv s) : MemInv (mapCores s f) :=
  h

theorem dropCk_inv (f) (h : MemInv s) : MemInv (dropCk s f) :=
  h

theorem releaseGrid_inv (g) (h : MemInv s) : MemInv (releaseGrid s g) :=
  h

theorem bumpHouses_inv (g) (h : MemInv s) : MemInv (bumpHouses s g) := by
  unfold bumpHouses; grind [bumpDie_inv, foldl_inv, foldl_snd_inv]

theorem cancelOps_inv (f) (h : MemInv s) : MemInv (cancelOps s f) :=
  h

theorem cancelChains_inv (f) (h : MemInv s) : MemInv (cancelChains s f) :=
  h

theorem abortGrid_inv (gid) (h : MemInv s) : MemInv (abortGrid s gid) := by
  unfold abortGrid; grind [MemInv, bumpHouses_inv, mapMx_inv, ccClean_inv, freeTagAt_inv, cancelOps_inv, mapCores_inv,
    freeBars_inv, removeTeam_inv, releaseGrid_inv, cancelChains_inv, foldl_inv, foldl_snd_inv]

theorem gridOver_inv (g) (h : MemInv s) : MemInv (gridOver s g) := by
  unfold gridOver; grind [MemInv, updQueue_inv, entryDone_inv]

theorem gridStop_inv (g) (h : MemInv s) : MemInv (gridStop s g) := by
  unfold gridStop; grind [MemInv, stopQueueAt_inv, stopQueue_inv, gridOver_inv]

theorem execGridComplete_inv (h : MemInv s) (e : execGridComplete s = .next t) : MemInv t := by
  unfold execGridComplete at e; grind [MemInv, EvRes.Inv, bumpHouses_inv, gridStop_inv, ccClean_inv, updGrid_inv, eventAt_inv,
    freeBars_inv, gridOver_inv, releaseGrid_inv, foldl_inv, foldl_snd_inv]

theorem execWatchdog_inv (h : MemInv s) (e : execWatchdog s = .next t) : MemInv t := by
  unfold execWatchdog at e; grind [MemInv, abortGrid_inv, emit_inv]

/-! ## The functions of EngXfer -/

theorem updEop_inv (id f) (h : MemInv s) : MemInv (updEop s id f) :=
  h

theorem poolWrite_inv (x y) (h : MemInv s) : MemInv (poolWrite s x y) := by
  fun_induction poolWrite s x y <;> grind [homeStore_inv]

theorem imageEdit_inv (us f) (h : MemInv s) : MemInv (imageEdit s us f) :=
  poolWrite_inv _ _ h

theorem tagSet_inv (core bit tid) (h : MemInv s) : MemInv (tagSet s core bit tid) := by
  unfold tagSet; grind [MemInv, updCore_inv, imageEdit_inv]

theorem tagClaim_inv (core ten bit) (h : MemInv s) : MemInv (tagClaim s core ten bit) := by
  unfold tagClaim; grind [MemInv, updCore_inv]

theorem updBar_inv (cl k f) (h : MemInv s) : MemInv (updBar s cl k f) :=
  h

theorem barClaim_inv (cl k ten) (h : MemInv s) : MemInv (barClaim s cl k ten) := by
  unfold barClaim; grind [MemInv, updBar_inv]

theorem barFire_inv (cl k) (h : MemInv s) : MemInv (barFire s cl k) := by
  unfold barFire; grind [MemInv, tagSet_inv, updBar_inv]

theorem barAdd_inv (cl k n ten) (h : MemInv s) (e : barAdd s cl k n ten = some t) : MemInv t := by
  unfold barAdd at e; grind [MemInv, barFire_inv, barClaim_inv, updBar_inv]

theorem engRecord_inv (ten asid gid teamId off code cause level va ms id) (h : MemInv s) : MemInv (engRecord s ten asid gid
    teamId off code cause level va ms id) :=
  emit_inv _ _ _ h

theorem stopChain_inv (eng chain id) (h : MemInv s) : MemInv (stopChain s eng chain id) :=
  h

theorem engFault_inv (o code cause level va ms) (h : MemInv s) : MemInv (engFault s o code cause level va ms) := by
  unfold engFault; grind [MemInv, stopChain_inv, newId_inv, updEop_inv, stopQueueAt_inv, engRecord_inv, dropCk_inv, addWait_inv]

theorem engXlate_inv (o va acc) (h : MemInv s) : MemInv (engXlate s o va acc).2 := by
  unfold engXlate; grind [MemInv, updCluster_inv, walkNow_inv]

theorem engMiss_inv (o va x) (h : MemInv s) : (engMiss s o va x).Inv := by
  unfold engMiss; grind [EAcc.Inv, flipAsk_inv]

theorem engPod_inv (o dev member level p va) (h : MemInv s) : (engPod s o dev member level p va).Inv := by
  unfold engPod; grind [MemInv, SendRes.Inv, EAcc.Inv, updEop_inv, podSend_inv]

theorem engFar_inv (o pa n wr va level) (h : MemInv s) : (engFar s o pa n wr va level).Inv := by
  unfold engFar; grind [MemInv, EAcc.Inv, updEop_inv, farUpdate_inv]

theorem formBytes_inv (o off n) (h : MemInv s) : (formBytes s o off n).Inv := by
  unfold formBytes; grind [EAcc.Inv]

theorem indexAt_inv (o idx) (h : MemInv s) : (indexAt s o idx).Inv :=
  formBytes_inv _ _ _ h

theorem addRanges_inv (o l) (h : MemInv s) : MemInv (addRanges s o l) := by
  unfold addRanges; grind [MemInv, tsysSet_inv, updEop_inv, foldl_inv, foldl_snd_inv]

theorem findRanges_inv (o own) (h : MemInv s) : MemInv (findRanges s o own) :=
  addRanges_inv _ _ h

theorem askPiece_inv (o mode b n) (h : MemInv s) : MemInv (askPiece s o mode b n).2 := by
  unfold askPiece; grind [MemInv, updEop_inv]

theorem takeLocks_inv (id x) (h : MemInv s) : MemInv (takeLocks s id x).2 := by
  fun_induction takeLocks s id x <;> grind [MemInv, askPiece_inv]

theorem engLock_inv (o pa n va d) (h : MemInv s) : MemInv (engLock s o pa n va d).2 := by
  unfold engLock; grind [takeLocks_inv, addRanges_inv]

theorem engRead_inv (o sp va n) (h : MemInv s) : (engRead s o sp va n).Inv := by
  have hx := engXlate_inv o va .read h
  unfold engRead
  split
  · exact formBytes_inv _ _ _ h
  split
  · next e lev u hu =>
    rw [hu] at hx
    extract_lets pa die cls
    clear_value pa die cls
    split
    · split
      · exact hx
      · exact engFar_inv _ _ _ _ _ _ hx
    split
    · exact engPod_inv _ _ _ _ _ _ hx
    have hl := engLock_inv o pa n va false hx
    split
    · next hv => rw [hv] at hl; exact hl
    · next v hv =>
      rw [hv] at hl
      split
      · exact hl
      · next w hw =>
        have hw := askFor_inv _ _ hl hw
        split
        · exact hw
        · extract_lets x y
          have hhome : MemInv x := l2Home_inv _ _ _ _ _ hw
          have hfill : MemInv y := by grind [remoteFill_inv, remoteDrop_inv]
          exact hfill
  · grind [engMiss_inv]

theorem engShadow_inv (k o va n) (h : MemInv s) (e : engShadow k s o va n = some t) : MemInv t := by
  have key := brecOn_keeps engShadow._f (fun f => ∀ s o va n t, MemInv s → f s o va n = some t → MemInv t)
    (fun b s o va n t h e => ?zero) (fun k b hb s o va n t h e => ?succ) k
  · delta engShadow at e
    exact key _ _ _ _ _ h e
  case zero => cases e; exact h
  case succ =>
    generalize hf : engShadow._f = F at e
    delta engShadow._f at hf
    subst hf
    obtain ⟨W, hW⟩ : ∃ W, W = walkNow := ⟨_, rfl⟩
    obtain ⟨O, hO⟩ : ∃ O, O = ownWrite := ⟨_, rfl⟩
    have hw (s asid ten va acc) (h : MemInv s) : MemInv (W s asid ten va acc).2 := hW ▸ walkNow_inv asid ten va acc h
    have ho (s asid ten va) (h : MemInv s) : MemInv (O s asid ten va).2 := hO ▸ ownWrite_inv asid ten va h
    rw [← hW, ← hO] at e
    clear hW hO
    dsimp only at e
    grind [raceSkip_inv, MemInv, homeStore_inv]

theorem engPut_inv (o ent pa b) (h : MemInv s) : MemInv (engPut s o ent pa b) := by
  unfold engPut; grind [performStore_inv, remoteUpdate_inv]

theorem engWrite_inv (o sp va b) (h : MemInv s) : (engWrite s o sp va b).Inv := by
  unfold engWrite
  (repeat' split) <;> grind [EAcc.Inv, spadWrite_inv, engXlate_inv, engShadow_inv, askFor_inv, engFar_inv, engPod_inv,
    engLock_inv,
    engPut_inv, engMiss_inv]

theorem engWritable_inv (x y z k n) (h : MemInv s) : (engWritable x s y z k n).Inv := by
  fun_induction engWritable x s y z k n <;> grind [EAcc.Inv, engMiss_inv, engXlate_inv]

theorem engScramble_inv (x y z k n) (h : MemInv s) : MemInv (engScramble x s y z k n) := by
  fun_induction engScramble x s y z k n <;> grind [MemInv, EAcc.Inv, engWrite_inv, engWritable_inv, engXlate_inv, engPut_inv]

theorem walkRow_inv (x y z k n m) (h : MemInv s) : MemInv (walkRow x s y z k n m).2 := by
  fun_induction walkRow x s y z k n m <;> grind [engXlate_inv]

theorem walkTile_inv (o tid) (h : MemInv s) : MemInv (walkTile s o tid).2 := by
  generalize hf : walkTile = f
  delta walkTile at hf
  subst hf
  obtain ⟨W, hW⟩ : ∃ W, W = walkRow := ⟨_, rfl⟩
  have hw (k s o va n acc l) (h : MemInv s) : MemInv (W k s o va n acc l).2 := hW ▸ walkRow_inv _ _ _ _ _ _ h
  rw [← hW]
  clear hW
  exact foldl_snd_inv _ _ _ (fun _ _ hp => hw _ _ _ _ _ _ _ hp) h

theorem walkAhead_inv (id x) (h : MemInv s) : MemInv (walkAhead id x s) := by
  fun_induction walkAhead id x s <;> grind [MemInv, updEop_inv, walkTile_inv]

theorem gatherUnit_inv (rds id x) (h : MemInv s) : (gatherUnit rds id x s).Inv := by
  fun_induction gatherUnit rds id x s <;> grind [MemInv, EAcc.Inv, UStep.Inv, updEop_inv, engRead_inv]

theorem writeUnit_inv (sp pos d id x) (h : MemInv s) : (writeUnit sp pos d id x s).Inv := by
  fun_induction writeUnit sp pos d id x s <;> grind [MemInv, EAcc.Inv, UStep.Inv, updEop_inv, engWrite_inv]

theorem runUnit_inv (id u) (h : MemInv s) : (runUnit s id u).Inv := by
  unfold runUnit; grind [EAcc.Inv, UStep.Inv, writeUnit_inv, engWritable_inv, gatherUnit_inv, foldl_inv, foldl_snd_inv]

theorem engShadows_inv (o va x) (h : MemInv s) (e : engShadows o va x s = some t) : MemInv t := by
  fun_induction engShadows o va x s <;> grind [engShadow_inv]

theorem ckinUnit_inv (o es i) (h : MemInv s) : (ckinUnit s o es i).Inv := by
  have hput {s : State} (x pa) (ws : List (Nat × List Byte)) (h : MemInv s) :
      MemInv (ws.foldl (fun s w => engPut s o x (pa + w.1) w.2) s) :=
    foldl_inv _ _ (fun s w hs => engPut_inv _ _ _ _ hs) h
  unfold ckinUnit
  split
  extract_lets va
  split
  · exact h
  split
  · next t copy hc =>
    have ht : MemInv t := by grind [EAcc.Inv, formBytes_inv]
    have hx := engXlate_inv o va .write ht
    split
    · next u hs =>
      rw [hs] at hx
      extract_lets pa ws
      split
      · exact hx
      split
      · exact hx
      split
      · exact hx
      · next v hv =>
        have hv := engShadows_inv _ _ _ hx hv
        split
        · exact hv
        · next hw => exact hput _ _ _ (askFor_inv _ _ hv hw)
    · grind [UStep.Inv, EAcc.Inv, engMiss_inv]
  · grind [UStep.Inv, EAcc.Inv, formBytes_inv]
  · grind [UStep.Inv, EAcc.Inv, formBytes_inv]

/-! ## The functions of Engines -/

theorem recvCount_inv (recv n ten) (h : MemInv s) : MemInv (recvCount s recv n ten).2 := by
  unfold recvCount; grind [barAdd_inv]

theorem devStore_inv (ten pa b) (h : MemInv s) : MemInv (devStore s ten pa b) := by
  unfold devStore; grind [performStore_inv, spend_inv, foldl_inv, foldl_snd_inv]

theorem sparseAdd_inv (x y z) (h : MemInv s) : MemInv (sparseAdd x s y z) := by
  fun_induction sparseAdd x s y z <;> grind [MemInv, updEop_inv, devStore_inv, recvCount_inv, foldl_inv, foldl_snd_inv]

theorem placeDelivery_inv (o p far) (h : MemInv s) : MemInv (placeDelivery s o p far).2 := by
  unfold placeDelivery; grind [MemInv, updEop_inv, sparseAdd_inv, devStore_inv, recvCount_inv]

theorem drainDeliveries_inv (x) (h : MemInv s) : MemInv (drainDeliveries x s) := by
  fun_induction drainDeliveries x s <;> grind [MemInv, respond_inv, placeDelivery_inv]

theorem redWalk_inv (op n r group seq block x) (h : MemInv s) : (redWalk op n r group seq block x s).Inv := by
  fun_induction redWalk op n r group seq block x s <;> grind [MemInv, RedNext.Inv]

theorem collSend_inv (o m rank pos p) (h : MemInv s) : MemInv (collSend s o m rank pos p).2 := by
  unfold collSend; grind [MemInv, SendRes.Inv, podSend_inv]

theorem sendMembers_inv (id g pos p ranks) (h : MemInv s) : MemInv (sendMembers id g pos p ranks s) := by
  unfold sendMembers; grind [MemInv, updEop_inv, collSend_inv, placeDelivery_inv, foldl_inv, foldl_snd_inv]

theorem mcastOwn_inv (o pa d) (h : MemInv s) : MemInv (mcastOwn s o pa d).2 :=
  recvCount_inv _ _ _ (devStore_inv _ _ _ h)

theorem mcastMember_inv (o m pos idx d) (h : MemInv s) : MemInv (mcastMember s o m pos idx d).2 := by
  unfold mcastMember; grind [MemInv, collSend_inv, mcastOwn_inv]

theorem mcastMembers_inv (id g pos d) (h : MemInv s) : MemInv (mcastMembers id g pos d s) := by
  unfold mcastMembers
  split
  · exact h
  extract_lets due p set uses
  split
  · grind [SendRes.Inv, mcoSend_inv, updEop_inv]
  split
  · split
    · exact h
    · refine rootServe_inv _ _ (fun s pa hs => mcastOwn_inv _ _ _ hs)
        (fun s t st hs => freeTagAt_inv _ _ (updEop_inv _ _ hs)) ?_
      grind [updEop_inv, takeTags_inv]
  · grind [foldl_inv, mcastMember_inv, updEop_inv]

theorem membersDone_inv (id) {fin} (hf : MemInv (fin s)) (h : MemInv s) : (membersDone s id fin).Inv := by
  unfold membersDone; grind [MemInv, UStep.Inv]

theorem openMembers_inv (id n tgt) (h : MemInv s) : MemInv (openMembers s id n tgt) :=
  h

theorem collUnit_inv (o i) (h : MemInv s) : (collUnit s o i).Inv := by
  unfold collUnit
  (repeat' split) <;> grind [MemInv, UStep.Inv, RedNext.Inv, gatherUnit_inv, mcastMembers_inv, openMembers_inv, membersDone_inv,
    sendMembers_inv, updEop_inv, redWalk_inv, collSend_inv, foldl_inv]

theorem ckoutPieces_inv (o x y z k) (h : MemInv s) : (ckoutPieces o x s y z k).Inv := by
  fun_induction ckoutPieces o x s y z k <;> grind [MemInv, EAcc.Inv, UStep.Inv, engMiss_inv, updEop_inv, engXlate_inv]

theorem twinCopy_inv (pool b n tid) (h : MemInv s) : MemInv (twinCopy s pool b n tid) := by
  unfold twinCopy; grind [MemInv, wf_msetAll]

theorem ckRegister_inv (o b n) (h : MemInv s) (e : ckRegister s o b n = some t) : MemInv t := by
  unfold ckRegister at e; grind [MemInv, twinCopy_inv, foldl_inv, foldl_snd_inv]

theorem ckFail_inv (o code cause level va) (h : MemInv s) : MemInv (ckFail s o code cause level va) :=
  engFault_inv _ _ _ _ _ _ h

theorem ckTake_inv (id x) (h : MemInv s) : (ckTake id x s).Inv := by
  fun_induction ckTake id x s <;> grind [UStep.Inv, ckRegister_inv, askPiece_inv]

theorem prepareOp_inv (id) (h : MemInv s) : (prepareOp s id).Inv := by
  unfold prepareOp; grind [MemInv, UStep.Inv, updEop_inv, gatherUnit_inv]

theorem lockOp_inv (id) (h : MemInv s) : (lockOp s id).Inv := by
  unfold lockOp; grind [MemInv, UStep.Inv, updEop_inv, takeLocks_inv, ckoutPieces_inv, ckTake_inv, findRanges_inv]

theorem oneUnit_inv (o) (h : MemInv s) : (oneUnit s o).Inv := by
  unfold oneUnit; grind [EAcc.Inv, UStep.Inv, runUnit_inv, collUnit_inv, ckinUnit_inv, indexAt_inv]

theorem unitLoop_inv (id x) (h : MemInv s) : (unitLoop id x s).Inv := by
  fun_induction unitLoop id x s <;> grind [MemInv, UStep.Inv, oneUnit_inv, walkAhead_inv, updEop_inv]

theorem scrambleOverlap_inv (o) (h : MemInv s) : MemInv (scrambleOverlap s o) := by
  unfold scrambleOverlap; grind [engScramble_inv]

theorem runOp_inv (id) (h : MemInv s) : MemInv (runOp s id) := by
  unfold runOp
  split
  · exact h
  split
  · exact h
  extract_lets fail
  have hfail (s c x l va) (h : MemInv s) : MemInv (fail s c x l va) := by grind [ckFail_inv, engFault_inv]
  clear_value fail
  have hprep := prepareOp_inv id h
  split <;> simp only [*, UStep.Inv] at hprep
  · exact hprep
  · exact hfail _ _ _ _ _ hprep
  have hlock := lockOp_inv id hprep
  split <;> simp only [*, UStep.Inv] at hlock
  · exact hlock
  · exact hfail _ _ _ _ _ hlock
  grind [UStep.Inv, unitLoop_inv, updEop_inv, scrambleOverlap_inv]

theorem retireChain_inv (eng chain) (h : MemInv s) : MemInv (retireChain s eng chain) :=
  h

theorem signalEntryDone_inv (ten core tid det ent n) (h : MemInv s) : MemInv (signalEntryDone s ten core tid det ent n) := by
  unfold signalEntryDone; grind [tagSet_inv, detRelease_inv, barAdd_inv, getD_inv]

theorem finishOp_inv (o signal) (h : MemInv s) : MemInv (finishOp s o signal) := by
  unfold finishOp; grind [MemInv, signalEntryDone_inv, freeTags_inv, dropCk_inv, freeBars_inv, retireChain_inv, updEngine_inv]

theorem execEngineOperationComplete_inv (h : MemInv s) (e : execEngineOperationComplete s = .next t) : MemInv t := by
  unfold execEngineOperationComplete at e; grind [MemInv, EvRes.Inv, finishOp_inv, stopQueueAt_inv, dropCk_inv, eventAt_inv,
    entryDone_inv]

theorem execEngineLockGrant_inv (h : MemInv s) (e : execEngineLockGrant s = .next t) : MemInv t := by
  unfold execEngineLockGrant at e; grind [MemInv, runOp_inv]

theorem execCkoutGrant_inv (h : MemInv s) (e : execCkoutGrant s = .next t) : MemInv t := by
  unfold execCkoutGrant at e; grind [MemInv, runOp_inv]

theorem execCkoutTimeout_inv (h : MemInv s) (e : execCkoutTimeout s = .next t) : MemInv t := by
  unfold execCkoutTimeout at e; grind [MemInv, ckFail_inv]

theorem chainFault_inv (eng c failed) (h : MemInv s) : MemInv (chainFault s eng c failed) :=
  engRecord_inv _ _ _ _ _ _ _ _ _ _ _ h

theorem updChain_inv (eng chain f) (h : MemInv s) : MemInv (updChain s eng chain f) :=
  h

theorem chainRow_inv (ty) {k} (hk : ∀ s eng c b, MemInv s → MemInv (k s eng c b))
    (h : MemInv s) (e : chainRow ty k s = .next t) : MemInv t := by
  unfold chainRow at e; grind [MemInv, chainFault_inv]

theorem claimEntry_inv (c ent) (h : MemInv s) : MemInv (claimEntry s c ent) := by
  unfold claimEntry; grind [tagClaim_inv, barClaim_inv]

theorem startEntry_inv (eng c ent) (h : MemInv s) : MemInv (startEntry s eng c ent) := by
  unfold startEntry; grind [MemInv, newId_inv, claimEntry_inv, runOp_inv, drainDeliveries_inv, updChain_inv]

theorem execCopyEntry_inv (h : MemInv s) (e : execCopyEntry s = .next t) : MemInv t := by
  unfold execCopyEntry at e; grind [MemInv, startEntry_inv, chainRow_inv]

theorem execCopyt_inv (h : MemInv s) (e : execCopyt s = .next t) : MemInv t := by
  unfold execCopyt at e; grind [MemInv, startEntry_inv, chainRow_inv]

theorem execGather_inv (h : MemInv s) (e : execGather s = .next t) : MemInv t := by
  unfold execGather at e; grind [MemInv, startEntry_inv, chainRow_inv]

theorem execScatter_inv (h : MemInv s) (e : execScatter s = .next t) : MemInv t := by
  unfold execScatter at e; grind [MemInv, startEntry_inv, chainRow_inv]

theorem execMcast_inv (h : MemInv s) (e : execMcast s = .next t) : MemInv t := by
  unfold execMcast at e; grind [MemInv, startEntry_inv, chainRow_inv]

theorem execAllred_inv (h : MemInv s) (e : execAllred s = .next t) : MemInv t := by
  unfold execAllred at e; grind [MemInv, startEntry_inv, chainRow_inv]

theorem execRedscat_inv (h : MemInv s) (e : execRedscat s = .next t) : MemInv t := by
  unfold execRedscat at e; grind [MemInv, startEntry_inv, chainRow_inv]

theorem execAllgath_inv (h : MemInv s) (e : execAllgath s = .next t) : MemInv t := by
  unfold execAllgath at e; grind [MemInv, startEntry_inv, chainRow_inv]

theorem execSparsek_inv (h : MemInv s) (e : execSparsek s = .next t) : MemInv t := by
  unfold execSparsek at e; grind [MemInv, startEntry_inv, chainRow_inv]

theorem execCkout_inv (h : MemInv s) (e : execCkout s = .next t) : MemInv t := by
  unfold execCkout at e; grind [MemInv, startEntry_inv, chainRow_inv]

theorem execCkin_inv (h : MemInv s) (e : execCkin s = .next t) : MemInv t := by
  unfold execCkin at e; grind [MemInv, startEntry_inv, chainRow_inv]

theorem execSignalEntry_inv (h : MemInv s) (e : execSignalEntry s = .next t) : MemInv t := by
  unfold execSignalEntry at e; grind [MemInv, claimEntry_inv, signalEntryDone_inv, chainRow_inv, updChain_inv]

theorem execWaitbc_inv (h : MemInv s) (e : execWaitbc s = .next t) : MemInv t := by
  unfold execWaitbc at e; grind [MemInv, claimEntry_inv, chainRow_inv, updChain_inv]

theorem execIfbc_inv (h : MemInv s) (e : execIfbc s = .next t) : MemInv t := by
  unfold execIfbc at e; grind [MemInv, claimEntry_inv, chainRow_inv, updChain_inv]

theorem execLoopEntry_inv (h : MemInv s) (e : execLoopEntry s = .next t) : MemInv t := by
  unfold execLoopEntry at e; grind [MemInv, chainFault_inv, chainRow_inv, updChain_inv]

theorem execEndEntry_inv (h : MemInv s) (e : execEndEntry s = .next t) : MemInv t := by
  unfold execEndEntry at e; grind [MemInv, retireChain_inv, chainRow_inv, updChain_inv]

/-! ## The functions of EngInstr -/

theorem splitGo_inv (g go f) (h : MemInv s) : MemInv (splitGo s g go f) := by
  unfold splitGo; grind [MemInv, latchStep_inv, updTeam_inv]

theorem tagsClear_inv (core ten tid m) (h : MemInv s) : MemInv (tagsClear s core ten tid m) := by
  unfold tagsClear; grind [MemInv, updCore_inv, tagClaim_inv, foldl_inv, foldl_snd_inv]

theorem acceptChain_inv (tid g eng o) (h : MemInv s) : MemInv (acceptChain s tid g eng o) :=
  h

theorem handChains_inv (tid g eng a x) (h : MemInv s) : MemInv (handChains tid g eng a x s).2 := by
  fun_induction handChains tid g eng a x s <;> grind [acceptChain_inv]

theorem execChain_inv (a ent) (h : MemInv s) (e : execChain a ent s = .next t) : MemInv t := by
  unfold execChain at e; grind [MemInv, handChains_inv, splitGo_inv, raiseGang_inv, ending_inv]

theorem execSchain_inv (ent a) (h : MemInv s) (e : execSchain ent a s = .next t) : MemInv t := by
  unfold execSchain at e; grind [MemInv, prefStall_inv, acceptChain_inv, prefDone_inv, withPref_inv, illegalPref_inv,
    raisePref_inv]

theorem tagSlices_inv (d a ok need res) (h : MemInv s) (e : tagSlices d a ok need res s = .next t) : MemInv t := by
  unfold tagSlices at e; grind [illegalGang_inv, splitGo_inv, ending_inv]

theorem execTagwaitAny_inv (d a) (h : MemInv s) (e : execTagwaitAny d a s = .next t) : MemInv t := by
  unfold execTagwaitAny at e; exact tagSlices_inv _ _ _ _ _ h e

theorem execTagwaitAll_inv (d a) (h : MemInv s) (e : execTagwaitAll d a s = .next t) : MemInv t := by
  unfold execTagwaitAll at e; exact tagSlices_inv _ _ _ _ _ h e

theorem execTagff_inv (d a) (h : MemInv s) (e : execTagff d a s = .next t) : MemInv t := by
  unfold execTagff at e; exact tagSlices_inv _ _ _ _ _ h e

theorem execTagclr_inv (a) (h : MemInv s) (e : execTagclr a s = .next t) : MemInv t := by
  unfold execTagclr at e; grind [MemInv, illegalGang_inv, tagsClear_inv, splitGo_inv, ending_inv, foldl_inv, foldl_snd_inv]

theorem tagPref_inv (d a c ok need res hit) (h : MemInv s) (e : tagPref d a c ok need res hit s = .next t) : MemInv t := by
  unfold tagPref at e; grind [prefStall_inv, tagsClear_inv, prefDone_inv, withPref_inv, illegalPref_inv]

theorem execStagwaitAny_inv (d a c) (h : MemInv s) (e : execStagwaitAny d a c s = .next t) : MemInv t := by
  unfold execStagwaitAny at e; exact tagPref_inv _ _ _ _ _ _ _ h e

theorem execStagwaitAll_inv (d a c) (h : MemInv s) (e : execStagwaitAll d a c s = .next t) : MemInv t := by
  unfold execStagwaitAll at e; exact tagPref_inv _ _ _ _ _ _ _ h e

theorem execStagff_inv (d a c) (h : MemInv s) (e : execStagff d a c s = .next t) : MemInv t := by
  unfold execStagff at e; exact tagPref_inv _ _ _ _ _ _ _ h e

theorem execBcwait_inv (d a k) (h : MemInv s) (e : execBcwait d a k s = .next t) : MemInv t := by
  unfold execBcwait at e; grind [MemInv, illegalGang_inv, splitGo_inv, ending_inv, barClaim_inv]

theorem execBcadd_inv (a k) (h : MemInv s) (e : execBcadd a k s = .next t) : MemInv t := by
  unfold execBcadd at e; grind [MemInv, illegalGang_inv, splitGo_inv, ending_inv, barAdd_inv, foldl_inv, foldl_snd_inv,
    getD_inv]

theorem execSbcwait_inv (d a k) (h : MemInv s) (e : execSbcwait d a k s = .next t) : MemInv t := by
  unfold execSbcwait at e; grind [MemInv, prefStall_inv, prefDone_inv, withPref_inv, illegalPref_inv, barClaim_inv]

theorem memInv_execSbcarm (k a b) (h : MemInv s) (e : execSbcarm k a b s = .next t) : MemInv t := by
  unfold execSbcarm at e; grind [MemInv, barFire_inv, tagClaim_inv, prefDone_inv, withPref_inv, illegalPref_inv, barClaim_inv,
    updBar_inv]

theorem engFarReply_inv (f op backed d) (h : MemInv s) : MemInv (engFarReply s f op backed d) := by
  unfold engFarReply; grind [MemInv, updEop_inv, runOp_inv, engFault_inv]

end Sys2Proof.Machine
end

section
/-! SUPPORT. Memory stays canonical (O59): the matrix units and the queues. -/

namespace Sys2Proof.Machine
-- One declaration after the other: in parallel, the threads' stacks pass the check's memory limit.
set_option Elab.async false
variable {s t : State}

/-! ## The functions of MxSlots -/

theorem updMx_inv (cl f) (h : MemInv s) : MemInv (updMx s cl f) :=
  h

theorem setSlot_inv (cl k w) (h : MemInv s) : MemInv (setSlot s cl k w) :=
  h

theorem setOwn_inv (cl k o) (h : MemInv s) : MemInv (setOwn s cl k o) :=
  h

theorem updSlate_inv (ten id f) (h : MemInv s) : MemInv (updSlate s ten id f) :=
  h

theorem mxPut_inv (cl pa b ten) (h : MemInv s) : MemInv (mxPut s cl pa b ten) := by
  unfold mxPut; grind [performStore_inv, spend_inv, remoteUpdate_inv, foldl_inv, foldl_snd_inv]

theorem spillSlate_inv (cl slot) (h : MemInv s) : MemInv (spillSlate s cl slot) := by
  unfold spillSlate; grind [MemInv, setOwn_inv, mxPut_inv, updSlate_inv]

theorem evictAny_inv (cl) (h : MemInv s) (e : evictAny s cl = some t) : MemInv t := by
  unfold evictAny at e; grind [spillSlate_inv, Option.map_eq_some_iff]

theorem takeSlot_inv (cl fid) (h : MemInv s) {i} (e : takeSlot s cl fid = some (i, t)) : MemInv t := by
  unfold takeSlot at e
  (repeat' split at e) <;> grind [setSlot_inv, updForm_inv, evictAny_inv]

theorem bindName_inv (cl fid gid ten n) (h : MemInv s) {i} (e : bindName s cl fid gid ten n = some (i, t)) : MemInv t := by
  unfold bindName at e; grind [setOwn_inv, updForm_inv, takeSlot_inv]

theorem unbindName_inv (cl fid n) (h : MemInv s) : MemInv (unbindName s cl fid n) := by
  unfold unbindName; grind [MemInv, setOwn_inv, updForm_inv]

theorem quotaRoom_inv (cl ten idle) (h : MemInv s) (e : quotaRoom s cl ten idle = some t) : MemInv t := by
  unfold quotaRoom at e; grind [spillSlate_inv, Option.map_eq_some_iff]

theorem quotaTrim_inv (x y) (h : MemInv s) : MemInv (quotaTrim x s y) := by
  fun_induction quotaTrim x s y <;> grind [spillSlate_inv]

theorem refillSlate_inv (cl fid ten id idle) (h : MemInv s) (e : refillSlate s cl fid ten id idle = some t) : MemInv t := by
  unfold refillSlate at e
  split at e
  · cases e
  split at e
  · cases e
  split at e
  · cases e
  next u hu =>
  have hu : MemInv u := by grind [quotaRoom_inv, spillSlate_inv]
  split at e
  · cases e
  next k v hv =>
  have hv : MemInv v := takeSlot_inv _ _ hu hv
  grind [updSlate_inv, setOwn_inv, setSlot_inv]

theorem mxPage_inv (r va acc) (h : MemInv s) : MemInv (mxPage s r va acc).2 := by
  unfold mxPage; grind [walkNow_inv]

theorem mxRange_inv (r acc x y z k) (h : MemInv s) : (mxRange r acc x s y z k).Inv := by
  fun_induction mxRange r acc x s y z k <;> grind [MxRange.Inv, mxPage_inv, flipAsk_inv]

theorem mxRecord_inv (gid ten asid teamId pc code cause level va id) (h : MemInv s) : MemInv (mxRecord s gid ten asid teamId pc
    code cause level va id) :=
  engRecord_inv _ _ _ _ _ _ _ _ _ _ _ h

theorem updIo_inv (cl id f) (h : MemInv s) : MemInv (updIo s cl id f) :=
  h

theorem mxIoAsk_inv (cl x p) (h : MemInv s) : (mxIoAsk s cl x p).Inv := by
  unfold mxIoAsk; grind [MemInv, SendRes.Inv, EAcc.Inv, mxPut_inv, updIo_inv, podSend_inv, walkNow_inv, flipAsk_inv,
    farUpdate_inv]

theorem mxIoStop_inv (cl x c a lev va) (h : MemInv s) : MemInv (mxIoStop s cl x c a lev va) :=
  mxRecord_inv _ _ _ _ _ _ _ _ _ _ h

theorem mxIoRun_inv (cl id x) (h : MemInv s) : MemInv (mxIoRun cl id x s) := by
  fun_induction mxIoRun cl id x s <;> grind [MemInv, EAcc.Inv, updIo_inv, mxIoAsk_inv, updMx_inv, barAdd_inv, mxIoStop_inv,
    spadWrite_inv, getD_inv]

theorem mxIoStep_inv (cl id) (h : MemInv s) : MemInv (mxIoStep s cl id) :=
  mxIoRun_inv _ _ _ h

theorem mxIoReply_inv (cl id err d) (h : MemInv s) : MemInv (mxIoReply s cl id err d) := by
  unfold mxIoReply; grind [MemInv, updIo_inv, mxIoStep_inv, mxIoStop_inv]

/-! ## The functions of Matrix -/

theorem mxPost_inv (i a b) {chk} (hk : ∀ s c, MemInv s → (chk s c).Inv) (h : MemInv s)
    (e : mxPost i a b chk s = .next t) : MemInv t := by
  refine withPref_inv (fun p => ?_) h e
  grind [MemInv, MxChk.Inv, illegalPref_inv, updMx_inv, raisePref_inv, prefDone_inv, prefStall_inv, newId_inv]

theorem orErr_inv (x) {k : MxChk} (hk : k.Inv) (h : MemInv s) : (orErr s x k).Inv := by
  unfold orErr; grind [MemInv, MxChk.Inv]

theorem mxXlate_inv (c va n accs own) {k} (hk : ∀ s p l, MemInv s → (k s p l).Inv) (h : MemInv s) :
    (mxXlate s c va n accs own k).Inv := by
  generalize hf : mxXlate = f
  delta mxXlate at hf
  subst hf
  obtain ⟨R, hR⟩ : ∃ R, R = mxRange := ⟨_, rfl⟩
  have hr (r acc n s va b l) (h : MemInv s) : (R r acc n s va b l).Inv := hR ▸ mxRange_inv _ _ _ _ _ _ h
  rw [← hR]
  clear hR
  beta_reduce
  extract_lets r go fin
  have hgo (s acc) (h : MemInv s) : (go s acc).Inv := hr _ _ _ _ _ _ _ h
  have hfin (s l) (h : MemInv s) : (fin s l).Inv := by
    dsimp only [fin]
    split
    · exact h
    · exact hk _ _ _ h
  clear_value go fin
  split
  · exact hk _ _ _ h
  · next a rest =>
    have ha := hgo s a h
    split <;> simp only [*, MxRange.Inv] at ha
    · exact ha
    · exact ha
    · next u l hu =>
      split
      · exact hfin _ _ ha
      · next b rest =>
        have hb := hgo u b ha
        split <;> simp only [*, MxRange.Inv] at hb
        · exact hb
        · exact hb
        · exact hfin _ _ hb

theorem withSlate_inv (c id) {k} (hk : ∀ x, (k x).Inv) (h : MemInv s) : (withSlate s c id k).Inv := by
  unfold withSlate; grind [MemInv, MxChk.Inv, updMx_inv]

theorem onName_inv (c n) {k} (hk : ∀ b, (k b).Inv) (h : MemInv s) : (onName s c n k).Inv := by
  unfold onName; grind [MemInv, withSlate_inv]

theorem onSlate_inv (c n) {k} (hk : ∀ x, (k x).Inv) (h : MemInv s) : (onSlate s c n k).Inv := by
  unfold onSlate; grind [MemInv, MxChk.Inv, withSlate_inv]

theorem bindAct_inv (c n) (h : MemInv s) : MemInv (bindAct c n s) := by
  unfold bindAct; grind [bindName_inv]

theorem execMcfg_inv (a) (h : MemInv s) (e : execMcfg a s = .next t) : MemInv t := by
  unfold execMcfg at e; grind [MemInv, prefDone_inv, withPref_inv, illegalPref_inv]

theorem mcbCheck_inv (c) (h : MemInv s) : (mcbCheck s c).Inv := by
  unfold mcbCheck; grind [MxChk.Inv, orErr_inv, mxXlate_inv]

theorem execMcb_inv (a b) (h : MemInv s) (e : execMcb a b s = .next t) : MemInv t := by
  unfold execMcb at e; grind [MemInv, MxChk.Inv, mcbCheck_inv, mxPost_inv]

theorem mldbCheck_inv (c) (h : MemInv s) : (mldbCheck s c).Inv := by
  unfold mldbCheck; grind [MxChk.Inv, orErr_inv]

theorem execMldb_inv (k a) (h : MemInv s) (e : execMldb k a s = .next t) : MemInv t := by
  unfold execMldb at e; grind [MemInv, MxChk.Inv, mldbCheck_inv, mxPost_inv]

theorem mmaCheck_inv (n c) (h : MemInv s) : (mmaCheck n s c).Inv := by
  unfold mmaCheck; grind [MxChk.Inv, orErr_inv, onName_inv, bindAct_inv]

theorem execMma_inv (n a b) (h : MemInv s) (e : execMma n a b s = .next t) : MemInv t := by
  unfold execMma at e; grind [MemInv, MxChk.Inv, mxPost_inv, mmaCheck_inv]

theorem mepiCheck_inv (n c) (h : MemInv s) : (mepiCheck n s c).Inv := by
  unfold mepiCheck; grind [MxChk.Inv, orErr_inv, mxXlate_inv, onName_inv, bindAct_inv, barClaim_inv]

theorem execMepi_inv (n a b) (h : MemInv s) (e : execMepi n a b s = .next t) : MemInv t := by
  unfold execMepi at e; grind [MemInv, MxChk.Inv, mepiCheck_inv, mxPost_inv]

theorem mzeroCheck_inv (n c) (h : MemInv s) : (mzeroCheck n s c).Inv := by
  unfold mzeroCheck; grind [MxChk.Inv, onName_inv, bindAct_inv]

theorem execMzero_inv (n) (h : MemInv s) (e : execMzero n s = .next t) : MemInv t := by
  unfold execMzero at e; grind [MemInv, MxChk.Inv, mxPost_inv, mzeroCheck_inv]

theorem mrelCheck_inv (n c) (h : MemInv s) : (mrelCheck n s c).Inv := by
  unfold mrelCheck; grind [MxChk.Inv]

theorem execMrel_inv (n) (h : MemInv s) (e : execMrel n s = .next t) : MemInv t := by
  unfold execMrel at e; grind [MemInv, MxChk.Inv, mxPost_inv, mrelCheck_inv]

theorem execMdrain_inv (h : MemInv s) (e : execMdrain s = .next t) : MemInv t := by
  unfold execMdrain at e; grind [MemInv, prefStall_inv, prefDone_inv, withPref_inv]

theorem slpinCheck_inv (c n) (h : MemInv s) : (slpinCheck s c n).Inv := by
  unfold slpinCheck; grind [MemInv, MxChk.Inv, setOwn_inv, withSlate_inv, orErr_inv, updForm_inv, mxXlate_inv, updSlate_inv]

theorem execSlpin_inv (n a b) (h : MemInv s) (e : execSlpin n a b s = .next t) : MemInv t := by
  unfold execSlpin at e; grind [MemInv, MxChk.Inv, mxPost_inv, slpinCheck_inv]

theorem slateCheck_inv (n c) (h : MemInv s) : (slateCheck n s c).Inv := by
  unfold slateCheck; grind [MxChk.Inv, onSlate_inv]

theorem execSlunpin_inv (n) (h : MemInv s) (e : execSlunpin n s = .next t) : MemInv t := by
  unfold execSlunpin at e; grind [MemInv, MxChk.Inv, mxPost_inv, slateCheck_inv]

theorem execSlspill_inv (n) (h : MemInv s) (e : execSlspill n s = .next t) : MemInv t := by
  unfold execSlspill at e; grind [MemInv, MxChk.Inv, mxPost_inv, slateCheck_inv]

theorem execSlfill_inv (n) (h : MemInv s) (e : execSlfill n s = .next t) : MemInv t := by
  unfold execSlfill at e; grind [MemInv, MxChk.Inv, onSlate_inv, mxPost_inv]

theorem tokenPostCheck_inv (idx n bc c) (h : MemInv s) : (tokenPostCheck idx n bc s c).Inv :=
  onSlate_inv _ _ (fun _ => orErr_inv _ ⟨h, fun _ ht => ite_inv (barClaim_inv _ _ _ ht) ht⟩ h) h

theorem execSldelta_inv (n a) (h : MemInv s) (e : execSldelta n a s = .next t) : MemInv t := by
  unfold execSldelta at e; grind [MemInv, MxChk.Inv, tokenPostCheck_inv, mxPost_inv]

theorem execSlread_inv (n a b) (h : MemInv s) (e : execSlread n a b s = .next t) : MemInv t := by
  unfold execSlread at e; grind [MemInv, MxChk.Inv, tokenPostCheck_inv, mxPost_inv]

theorem execSlchunk_inv (n a b) (h : MemInv s) (e : execSlchunk n a b s = .next t) : MemInv t := by
  unfold execSlchunk at e; grind [MemInv, MxChk.Inv, tokenPostCheck_inv, mxPost_inv]

theorem cmdCheck_inv (i c) (h : MemInv s) : (cmdCheck i s c).Inv := by
  cases i with
  | mcb => exact mcbCheck_inv _ h
  | mldb => exact mldbCheck_inv _ h
  | mma => exact mmaCheck_inv _ _ h
  | mepi => exact mepiCheck_inv _ _ h
  | mzero => exact mzeroCheck_inv _ _ h
  | slunpin | slspill => exact slateCheck_inv _ _ h
  | sldelta | slread | slchunk => exact tokenPostCheck_inv _ _ _ _ h
  | _ => exact ⟨h, fun _ ht => ht⟩

theorem execSlinfo_inv (d a) (h : MemInv s) (e : execSlinfo d a s = .next t) : MemInv t := by
  unfold execSlinfo at e; grind [MemInv, prefDone_inv, withPref_inv]

theorem updResv_inv (cl id f) (h : MemInv s) : MemInv (updResv s cl id f) :=
  h

theorem dropResv_inv (cl id) (h : MemInv s) : MemInv (dropResv s cl id) :=
  h

theorem removeCmd_inv (cl r code cause) (h : MemInv s) : MemInv (removeCmd s cl r code cause) :=
  mxRecord_inv _ _ _ _ _ _ _ _ _ _ h

theorem stopCmd_inv (cl r code cause level va) (h : MemInv s) : MemInv (stopCmd s cl r code cause level va) :=
  mxRecord_inv _ _ _ _ _ _ _ _ _ _ h

theorem scrambleSlot_inv (cl k) (h : MemInv s) : MemInv (scrambleSlot s cl k) :=
  h

theorem scrambleForm_inv (f off n) (h : MemInv s) : MemInv (scrambleForm s f off n) :=
  spadWrite_inv _ _ _ h

theorem setBank_inv (cl k b) (h : MemInv s) : MemInv (setBank s cl k b) :=
  h

theorem loadBank_inv (cl k f d) (h : MemInv s) : MemInv (loadBank s cl k f d) :=
  h

theorem genUp_inv (ten sid) (h : MemInv s) : MemInv (genUp s ten sid) := by
  unfold genUp; grind [MemInv, updSlate_inv]

theorem entrySlot_inv (cl r n) (h : MemInv s) {i j} (e : entrySlot s cl r n = some (i, j, t)) : MemInv t := by
  unfold entrySlot at e; grind [bindName_inv, Option.map_eq_some_iff]

theorem epiWrite_inv (cl r rows) (h : MemInv s) : MemInv (epiWrite s cl r rows) :=
  mxIoStep_inv _ _ h

theorem mepiUnit_inv (cl r f n) (h : MemInv s) : (mepiUnit s cl r f n).Inv := by
  generalize hf : mepiUnit = f
  delta mepiUnit at hf
  subst hf
  obtain ⟨R, hR⟩ : ∃ R, R = mxRange := ⟨_, rfl⟩
  have hr (r acc n s va b l) (h : MemInv s) : (R r acc n s va b l).Inv := hR ▸ mxRange_inv _ _ _ _ _ _ h
  rw [← hR]
  clear hR
  grind [UnitRes.Inv, MxRange.Inv, stopCmd_inv, entrySlot_inv, raiseFl_inv, genUp_inv, setSlot_inv, spadWrite_inv,
    foldl_inv, barAdd_inv, getD_inv, epiWrite_inv, unbindName_inv]

theorem mcbUnit_inv (cl r f) (h : MemInv s) : (mcbUnit s cl r f).Inv := by
  generalize hf : mcbUnit = g
  delta mcbUnit at hf
  subst hf
  beta_reduce
  have hr := mxRange_inv r .read (rangeFuel r.sa 32) r.sa 32 [] h
  split
  · grind [MxRange.Inv, UnitRes.Inv]
  · grind [MxRange.Inv, UnitRes.Inv, stopCmd_inv]
  · split
    · grind [MxRange.Inv, UnitRes.Inv]
    · grind [MxRange.Inv, UnitRes.Inv, stopCmd_inv, spadWrite_inv, updResv_inv, mxIoStep_inv, updMx_inv]

theorem mmaUnit_inv (cl r f n) (h : MemInv s) : (mmaUnit s cl r f n).Inv := by
  unfold mmaUnit; grind [UnitRes.Inv, genUp_inv, entrySlot_inv, removeCmd_inv, loadBank_inv, scrambleSlot_inv, setSlot_inv,
    raiseFl_inv]

theorem tokenUnit_inv (cl r f x off out upd rd) (h : MemInv s) : MemInv (tokenUnit s cl r f x off out upd rd) := by
  unfold tokenUnit; grind [genUp_inv, barAdd_inv, spadWrite_inv, setSlot_inv, raiseFl_inv, getD_inv]

theorem slateUnit_inv (cl r f n upd rd) (h : MemInv s) : (slateUnit s cl r f n upd rd).Inv := by
  unfold slateUnit
  split
  · exact h
  split
  · exact h
  extract_lets chunk t out off same u v w
  have hu : MemInv u := ite_inv (genUp_inv _ _ (scrambleSlot_inv _ _ h)) h
  have hv : MemInv v := scrambleForm_inv _ _ _ hu
  have hbar {n} : MemInv ((barAdd v cl (owBc r.sb) n r.tenant).getD v) := getD_inv (fun _ => barAdd_inv _ _ _ _ hv) hv
  have hw : MemInv w := ite_inv (tokenUnit_inv _ _ _ _ _ _ _ _ h) (ite_inv (ite_inv hbar hv) hu)
  exact ite_inv (updSlate_inv _ _ _ hw) hw

theorem slpinUnit_inv (cl r n) (h : MemInv s) : (slpinUnit s cl r n).Inv := by
  have hpin {s t : State} {k} (x y) (f g : _ → _) (h : MemInv s) (e : bindName s cl r.fid r.gid r.tenant n = some (k, t)) :
      MemInv (updSlate (setOwn (updForm t r.fid f) cl k x) r.tenant y g) := by
    grind [bindName_inv, updForm_inv, setOwn_inv, updSlate_inv]
  unfold slpinUnit; grind [UnitRes.Inv, quotaRoom_inv]

theorem slunpinUnit_inv (cl r n) (h : MemInv s) : (slunpinUnit s cl r n).Inv := by
  unfold slunpinUnit; grind [MemInv, UnitRes.Inv, setOwn_inv, updForm_inv]

theorem runEntry_inv (cl r f) (h : MemInv s) : (runEntry s cl r f).Inv := by
  unfold runEntry
  cases r.instr with
  | mcb => exact mcbUnit_inv _ _ _ h
  | mldb =>
    have hfree : MemInv { s with fresh := s.fresh + 32 } := h
    dsimp only
    split
    · exact loadBank_inv _ _ _ _ h
    · exact setBank_inv _ _ _ hfree
  | mma => exact mmaUnit_inv _ _ _ _ h
  | mepi => exact mepiUnit_inv _ _ _ _ h
  | mzero =>
    dsimp only
    split
    · exact h
    · next hs => exact genUp_inv _ _ (setSlot_inv _ _ _ (entrySlot_inv _ _ _ h hs))
  | mrel => exact unbindName_inv _ _ _ h
  | slpin => exact slpinUnit_inv _ _ _ h
  | slunpin => exact slunpinUnit_inv _ _ _ h
  | sldelta | slread | slchunk => exact slateUnit_inv _ _ _ _ _ _ h
  | slspill =>
    dsimp only
    split
    · exact h
    · exact ite_inv (spillSlate_inv _ _ h) h
  | _ => exact h

theorem touchSlot_inv (cl r) (h : MemInv s) : MemInv (touchSlot s cl r) := by
  unfold touchSlot; grind [MemInv, setOwn_inv]

theorem grantOne_inv (cl) (h : MemInv s) (e : grantOne s cl = some t) : MemInv t := by
  unfold grantOne at e; grind [MemInv, UnitRes.Inv, dropResv_inv, updResv_inv, runEntry_inv, touchSlot_inv, foldl_inv,
    foldl_snd_inv]

theorem findSome?_getD_inv {f : State → Nat → Option State} (hf : ∀ s c t, MemInv s → f s c = some t → MemInv t) (l : List Nat)
    (h : MemInv s) : MemInv ((l.findSome? (f s)).getD s) :=
  getD_inv (fun t ht => by obtain ⟨c, _, hc⟩ := List.exists_of_findSome?_eq_some ht; exact hf _ _ _ h hc) h

theorem execMatrixGrant_inv (h : MemInv s) (e : execMatrixGrant s = .next t) : MemInv t := by
  cases e
  refine findSome?_getD_inv (f := grantOne) (fun _ _ _ => grantOne_inv _) _ (foldl_inv _ _ (fun s c hs => ?_) h)
  exact quotaTrim_inv _ _ (foldl_inv _ _ (fun s x hs => mxIoStep_inv _ _ hs) hs)

theorem refillOne_inv (cl) (h : MemInv s) (e : refillOne s cl = some t) : MemInv t := by
  unfold refillOne at e; grind [MemInv, refillSlate_inv, removeCmd_inv, updMx_inv]

theorem execSlateRefill_inv (h : MemInv s) (e : execSlateRefill s = .next t) : MemInv t := by
  cases e
  exact findSome?_getD_inv (f := refillOne) (fun _ _ _ => refillOne_inv _) _ h

/-! ## The functions of Queues -/

theorem poolTake_inv (ten owner k) (h : MemInv s) : MemInv (poolTake s ten owner k) :=
  h

theorem doorbell_inv (q tail) (h : MemInv s) : MemInv (doorbell s q tail) := by
  unfold doorbell; grind [MemInv, stopQueue_inv, queuePut_inv]

theorem execQueueDb_inv (h : MemInv s) (e : execQueueDb s = .next t) : MemInv t := by
  cases e; exact doorbell_inv _ _ h

theorem enableQueue_inv (q) (h : MemInv s) : MemInv (enableQueue s q) := by
  unfold enableQueue; grind [MemInv, updQueue_inv, stopQueue_inv, queuePut_inv]

theorem disableQueue_inv (q) (h : MemInv s) : MemInv (disableQueue s q) := by
  unfold disableQueue; grind [MemInv, queueSettle_inv, updQueue_inv]

theorem dropQueueWork_inv (q) (h : MemInv s) : MemInv (dropQueueWork s q) := by
  unfold dropQueueWork; grind [MemInv, freeTagAt_inv, cancelOps_inv, foldl_inv, foldl_snd_inv]

theorem clearQueue_inv (q) (h : MemInv s) : MemInv (clearQueue s q) := by
  unfold clearQueue; grind [updQueue_inv, dropQueueWork_inv, abortGrid_inv, foldl_inv, foldl_snd_inv]

theorem freeFormSlates_inv (fids) (h : MemInv s) : MemInv (freeFormSlates s fids) :=
  h

theorem dropTeamRes_inv (ts) (h : MemInv s) : MemInv (dropTeamRes s ts) :=
  h

theorem tapeForget_inv (ten q) (h : MemInv s) : MemInv (tapeForget s ten q) := by
  unfold tapeForget; grind [tsysSet_inv, homeStore_inv]

theorem resetQueue_inv (q) (h : MemInv s) : MemInv (resetQueue s q) := by
  unfold resetQueue; grind [MemInv, tapeForget_inv, clearQueue_inv, emit_inv, dropTeamRes_inv, queuePut_inv, freeFormSlates_inv]

theorem resumeQueue_inv (q) (h : MemInv s) : MemInv (resumeQueue s q) := by
  unfold resumeQueue; grind [MemInv, queueSettle_inv, updQueue_inv, stopQueue_inv, queuePut_inv]

theorem queueCommand_inv (v) (h : MemInv s) : MemInv (queueCommand s v) := by
  unfold queueCommand; grind [resumeQueue_inv, enableQueue_inv, resetQueue_inv, disableQueue_inv]

theorem execQueueEnable_inv (h : MemInv s) (e : execQueueEnable s = .next t) : MemInv t := by
  cases e; exact enableQueue_inv _ h

theorem execQueueDisable_inv (h : MemInv s) (e : execQueueDisable s = .next t) : MemInv t := by
  cases e; exact disableQueue_inv _ h

theorem execQueueReset_inv (h : MemInv s) (e : execQueueReset s = .next t) : MemInv t := by
  cases e; exact resetQueue_inv _ h

theorem execQueueResume_inv (h : MemInv s) (e : execQueueResume s = .next t) : MemInv t := by
  cases e; exact resumeQueue_inv _ h

theorem queueState_inv (q st) (h : MemInv s) : MemInv (queueState s q st) := by
  unfold queueState; grind [MemInv, queuePut_inv]

theorem startHead_inv (q done) (h : MemInv s) : MemInv (startHead s q done) :=
  queuePut_inv _ _ h

theorem headRow_inv (ty) {k} (hk : ∀ s q b, MemInv s → MemInv (k s q b)) (h : MemInv s)
    (e : headRow ty k s = .next t) : MemInv t := by
  unfold headRow at e; grind [MemInv, queueState_inv, stopQueue_inv]

theorem acceptLaunch_inv (q row entry) (h : MemInv s) {i} (e : acceptLaunch s q row entry = .inr (i, t)) : MemInv t := by
  unfold acceptLaunch at e; grind [MemInv, newId_inv, poolTake_inv]

theorem launchHead_inv (q b) (h : MemInv s) : MemInv (launchHead s q b) := by
  unfold launchHead; grind [stopQueue_inv, acceptLaunch_inv, queueState_inv, startHead_inv]

theorem execQueueLaunch_inv (h : MemInv s) (e : execQueueLaunch s = .next t) : MemInv t := by
  unfold execQueueLaunch at e; grind [MemInv, launchHead_inv, headRow_inv]

theorem queueReadDone_inv (q n ent) (h : MemInv s) : MemInv (queueReadDone s q n ent) := by
  unfold queueReadDone; grind [MemInv, queueSettle_inv, updQueue_inv, startHead_inv]

theorem queueReadFail_inv (q n) (h : MemInv s) : MemInv (queueReadFail s q n) := by
  unfold queueReadFail; grind [stopQueue_inv]

theorem waitRead_inv (q) (h : MemInv s) : MemInv (waitRead s q) := by
  unfold waitRead; grind [MemInv, SendRes.Inv, updQueue_inv, spend_inv, podSend_inv, walkNow_inv, stopQueue_inv,
    queueReadDone_inv, flipAsk_inv]

theorem waitHead_inv (q b) (h : MemInv s) : MemInv (waitHead s q b) := by
  unfold waitHead; grind [MemInv, waitRead_inv, updQueue_inv, stopQueue_inv, queueState_inv]

theorem execQueueWait_inv (h : MemInv s) (e : execQueueWait s = .next t) : MemInv t := by
  unfold execQueueWait at e; grind [MemInv, waitRead_inv, waitHead_inv, headRow_inv]

theorem execQueueWaitPoll_inv (h : MemInv s) (e : execQueueWaitPoll s = .next t) : MemInv t := by
  unfold execQueueWaitPoll at e; grind [MemInv, waitRead_inv]

theorem execQueueWaitTimeout_inv (h : MemInv s) (e : execQueueWaitTimeout s = .next t) : MemInv t := by
  unfold execQueueWaitTimeout at e; grind [MemInv, stopQueue_inv]

theorem signalHead_inv (q b) (h : MemInv s) : MemInv (signalHead s q b) := by
  unfold signalHead; grind [MemInv, EvRes.Inv, eventAt_inv, stopQueue_inv, startHead_inv]

theorem execQueueSignal_inv (h : MemInv s) (e : execQueueSignal s = .next t) : MemInv t := by
  unfold execQueueSignal at e; grind [MemInv, headRow_inv, signalHead_inv]

theorem copyHead_inv (q b) (h : MemInv s) : MemInv (copyHead s q b) := by
  unfold copyHead; grind [MemInv, newId_inv, runOp_inv, stopQueue_inv, startHead_inv]

theorem execQueueCopy_inv (h : MemInv s) (e : execQueueCopy s = .next t) : MemInv t := by
  unfold execQueueCopy at e; grind [MemInv, headRow_inv, copyHead_inv]

theorem execQueueNop_inv (h : MemInv s) (e : execQueueNop s = .next t) : MemInv t := by
  unfold execQueueNop at e; grind [MemInv, stopQueue_inv, headRow_inv, startHead_inv]

theorem setTape_inv (ten f) (h : MemInv s) : MemInv (setTape s ten f) :=
  h

theorem tapePushRec_inv (ten q r) (h : MemInv s) : MemInv (tapePushRec s ten q r) := by
  unfold tapePushRec; grind [MemInv, homeStore_inv, updQueue_inv, setTape_inv]

theorem execTapePush_inv (a) (h : MemInv s) (e : execTapePush a s = .next t) : MemInv t := by
  unfold execTapePush at e; grind [MemInv, prefStall_inv, prefDone_inv, withPref_inv, illegalPref_inv, raisePref_inv,
    tapePushRec_inv]

theorem tapePop_inv (ten q) (h : MemInv s) {i} (e : tapePop s ten q = some (i, t)) : MemInv t := by
  unfold tapePop at e; grind [homeStore_inv, setTape_inv]

theorem launchPopped_inv (q n r) (h : MemInv s) : MemInv (launchPopped s q n r) := by
  unfold launchPopped
  (repeat' split) <;> grind [acceptLaunch_inv, stopQueueAt_inv, MemInv, updQueue_inv]

theorem rewindStep_inv (q) (h : MemInv s) : MemInv (rewindStep s q) := by
  unfold rewindStep; grind [MemInv, updQueue_inv, tapePop_inv, launchPopped_inv, entryDone_inv]

theorem rewindHead_inv (q b) (h : MemInv s) : MemInv (rewindHead s q b) := by
  unfold rewindHead; grind [MemInv, updQueue_inv, stopQueue_inv, rewindStep_inv, startHead_inv]

theorem execQueueRewind_inv (h : MemInv s) (e : execQueueRewind s = .next t) : MemInv t := by
  unfold execQueueRewind at e; grind [MemInv, rewindHead_inv, headRow_inv, rewindStep_inv]

theorem execTimedStart_inv (h : MemInv s) (e : execTimedStart s = .next t) : MemInv t := by
  unfold execTimedStart at e; grind [MemInv, launchHead_inv, headRow_inv, rewindStep_inv]

theorem execFarAccessReply_inv (h : MemInv s) (e : execFarAccessReply s = .next t) : MemInv t := by
  unfold execFarAccessReply at e
  replace e := Host.Outcome.next.inj e
  subst e
  split
  · exact h
  · extract_lets u backed d v
    have hv : MemInv v := by grind [MemInv, l2Fill_inv]
    clear_value v
    split
    · exact advanceAll_inv hv
    · exact hv
    · exact engFarReply_inv _ _ _ _ hv
    · exact mxIoReply_inv _ _ _ _ hv
    · grind [queueReadDone_inv, queueReadFail_inv]
    · exact codeDone_inv _ _ _ hv
    · exact hv
    · grind [setLaneSt_inv, advanceAll_inv, settleOp_inv, answerLane_inv]

end Sys2Proof.Machine
end

section
/-! SUPPORT. Memory stays canonical (O59): placement, fetch, scheduling, contexts, system accesses, fabric and host. -/

namespace Sys2Proof.Machine
-- One declaration after the other: in parallel, the threads' stacks pass the check's memory limit.
set_option Elab.async false
variable {s t : State}

/-! ## The functions of Place -/

theorem takeDet_inv (ten fid die gid) (h : MemInv s) : MemInv (takeDet s ten fid die gid).2 := by
  generalize hf : takeDet = f
  delta takeDet at hf
  subst hf
  obtain ⟨N, hN⟩ : ∃ N, N = List.range 65535 := ⟨_, rfl⟩
  rw [← hN]
  clear hN
  grind [detRelease_inv, updTenant_inv, raceSkip_inv]

theorem enqueueTeam_inv (tid) (h : MemInv s) : MemInv (enqueueTeam s tid) := by
  unfold enqueueTeam; grind [MemInv, updCore_inv, toPending_inv, foldl_inv, foldl_snd_inv]

theorem startTeam_inv (g fid idx rank core) (h : MemInv s) : MemInv (startTeam s g fid idx rank core) := by
  generalize hf : startTeam = f
  delta startTeam at hf
  subst hf
  obtain ⟨D, hD⟩ : ∃ D, D = takeDet := ⟨_, rfl⟩
  have hd (s ten fid die gid) (h : MemInv s) : MemInv (D s ten fid die gid).2 := hD ▸ takeDet_inv ten fid die gid h
  rw [← hD]
  clear hD
  grind [MemInv, newId_inv, enqueueTeam_inv]

theorem applyConfig_inv (cl l) (h : MemInv s) : MemInv (applyConfig s cl l) := by
  unfold applyConfig; grind [setSegment_inv, foldl_inv, foldl_snd_inv]

theorem placeForm_inv (g pos picks) (h : MemInv s) : MemInv (placeForm s g pos picks) := by
  have hteams {s fid g idx} (l : List (Nat × Nat)) (h : MemInv s) : MemInv (l.foldl (fun s p => startTeam s g fid idx p.1 p.2)
    s) :=
    foldl_inv _ _ (fun s p hs => startTeam_inv _ _ _ _ _ hs) h
  unfold placeForm
  apply hteams
  grind [newId_inv, applyConfig_inv, roomTaken_inv, bumpDie_inv, updGrid_inv, MemInv]

theorem execFormPlacement_inv (h : MemInv s) (e : execFormPlacement s = .next t) : MemInv t := by
  unfold execFormPlacement at e; grind [MemInv, placeForm_inv]

theorem execLaunchReserving_inv (h : MemInv s) (e : execLaunchReserving s = .next t) : MemInv t := by
  unfold execLaunchReserving at e; grind [MemInv, updGrid_inv]

/-! ## The functions of Fetch -/

theorem codeWord_inv (g pa) (h : MemInv s) : MemInv (codeWord s g pa).2 := by
  unfold codeWord; grind [MemInv]

theorem askCode_inv (g core ent level pc) (h : MemInv s) : (askCode s g core ent level pc).Inv := by
  unfold askCode; grind [MemInv, SendRes.Inv, CodeRes.Inv, podSend_inv, postReq_inv]

theorem fetchAt_inv (g core ent level pc) (h : MemInv s) : (fetchAt s g core ent level pc).Inv := by
  unfold fetchAt; grind [MemInv, CodeRes.Inv, codeWord_inv, askCode_inv]

theorem fetchGang_inv (g) (h : MemInv s) : (fetchGang s g).Inv := by
  unfold fetchGang; grind [MemInv, Fetch.Inv, CodeRes.Inv, xlateNow_inv, raiseGang_inv, fetchAt_inv, stall_inv, flipAsk_inv,
    endGambit_inv]

theorem prefHold_inv (p) (h : MemInv s) : MemInv (prefHold s p) :=
  h

theorem fetchPref_inv (p) (h : MemInv s) : (fetchPref s p).Inv := by
  unfold fetchPref; grind [MemInv, Fetch.Inv, CodeRes.Inv, xlateNow_inv, prefHold_inv, fetchAt_inv, flipAsk_inv, raisePref_inv]

theorem fetch_inv (h : MemInv s) : (fetch s).Inv := by
  unfold fetch; grind [Fetch.Inv, fetchGang_inv, fetchPref_inv]

theorem illegalWord_inv (h : MemInv s) : MemInv (illegalWord s) := by
  unfold illegalWord; grind [illegalGang_inv, illegalPref_inv, endGambit_inv]

/-! ## The functions of Sched -/

theorem fuseSync_inv (core) (h : MemInv s) : MemInv (fuseSync s core) :=
  h

theorem separate_inv (core tid lead) (h : MemInv s) : MemInv (separate s core tid lead) :=
  h

theorem portSync_inv (core n) (h : MemInv s) : MemInv (portSync s core n) :=
  h

theorem portAge_inv (core n dt) (h : MemInv s) : MemInv (portAge s core n dt) :=
  h

theorem schedTick_inv (dt) (h : MemInv s) : MemInv (schedTick s dt) := by
  unfold schedTick; grind [MemInv, updCore_inv, portAge_inv, fuseSync_inv, portSync_inv, foldl_inv, foldl_snd_inv]

theorem schedIssued_inv (who) (h : MemInv s) : MemInv (schedIssued s who) := by
  unfold schedIssued; grind [MemInv, updCore_inv, updTeam_inv]

theorem endAhead_inv (ent) (h : MemInv s) : MemInv (endAhead s ent) := by
  unfold endAhead; grind [endGambit_inv]

theorem setMove_inv (core n idx o) (h : MemInv s) : MemInv (setMove s core n idx o) := by
  unfold setMove; grind [MemInv, updCore_inv, separate_inv]

theorem setChoice_inv (core n) (h : MemInv s) : MemInv (setChoice s core n) := by
  unfold setChoice; grind [endAhead_inv, setMove_inv]

theorem setChange_inv (core n) (h : MemInv s) : MemInv (setChange s core n) := by
  unfold setChange; grind [MemInv, updCore_inv, setChoice_inv, portSync_inv]

theorem execForcedEntry_inv (h : MemInv s) (e : execForcedEntry s = .next t) : MemInv t := by
  cases e; exact setChange_inv _ _ h

theorem enterGambit_inv (tid lead o used) (h : MemInv s) : MemInv (enterGambit s tid lead o used) :=
  updCore_inv _ _ h

theorem execGambitEntry_inv (h : MemInv s) (e : execGambitEntry s = .next t) : MemInv t := by
  unfold execGambitEntry at e; grind [MemInv, setChange_inv, enterGambit_inv]

theorem execGambitInstructionLimit_inv (h : MemInv s) (e : execGambitInstructionLimit s = .next t) : MemInv t := by
  unfold execGambitInstructionLimit at e; grind [MemInv, endGambit_inv]

theorem execRegangTimeout_inv (h : MemInv s) (e : execRegangTimeout s = .next t) : MemInv t := by
  unfold execRegangTimeout at e; grind [MemInv, updTeam_inv]

theorem next_inv (h : MemInv s) (e : (.next s : Out) = .next t) : MemInv t := Host.Outcome.next.inj e ▸ h

theorem execTimeTargetReached_inv (h : MemInv s) (e : execTimeTargetReached s = .next t) : MemInv t := by
  have hfetch : (fetch { s with cur := s.arg.who }).Inv := fetch_inv h
  unfold execTimeTargetReached at e
  split at e
  · cases e; exact h
  · cases e; exact h
  · next w u hs =>
    have hu : MemInv u := by simpa only [hs, Fetch.Inv] using hfetch
    cases hd : decodeWord w with
    | none => rw [hd] at e; cases e; exact h
    | some i =>
      rw [hd] at e
      cases i with
      | wtime => exact execWtime_inv _ hu e
      | swtime => exact execSwtime_inv _ hu e
      | _ => exact next_inv h e

theorem requestStop_inv (fid preempt launch) (h : MemInv s) : MemInv (requestStop s fid preempt launch) := by
  unfold requestStop; grind [MemInv, updForm_inv, endGambit_inv, foldl_inv, foldl_snd_inv]

theorem execQuantumExpiry_inv (h : MemInv s) (e : execQuantumExpiry s = .next t) : MemInv t := by
  unfold execQuantumExpiry at e; grind [MemInv, requestStop_inv]

theorem execPriorityPreemption_inv (h : MemInv s) (e : execPriorityPreemption s = .next t) : MemInv t := by
  unfold execPriorityPreemption at e; grind [MemInv, poolTake_inv, requestStop_inv]

theorem hardStop_inv (tid) (h : MemInv s) : MemInv (hardStop s tid) := by
  unfold hardStop; grind [MemInv, updTeam_inv, dropTeamRes_inv, endGambit_inv, foldl_inv, foldl_snd_inv]

theorem execHardPreemption_inv (h : MemInv s) (e : execHardPreemption s = .next t) : MemInv t := by
  unfold execHardPreemption at e; grind [MemInv, updForm_inv, hardStop_inv, foldl_inv, foldl_snd_inv]

/-! ## The functions of Context -/

theorem freeBytes_inv (n) (h : MemInv s) : MemInv (freeBytes s n).2 :=
  h

theorem entryBytes_inv (ent) (h : MemInv s) : MemInv (entryBytes s ent).2 :=
  h

theorem imageBytes_inv (f tid logs rs accs fifo hard) (h : MemInv s) : MemInv (imageBytes s f tid logs rs accs fifo hard).2 :=
    by
  unfold imageBytes; grind [entryBytes_inv, drawWord_inv, foldl_inv, foldl_snd_inv]

theorem saveForm_inv (g f) (h : MemInv s) : MemInv (saveForm s g f) := by
  unfold saveForm; grind [MemInv, setOwn_inv, updCore_inv, updForm_inv, admitLog_inv, imageBytes_inv, updMx_inv, updGrid_inv,
    poolWrite_inv, removeTeam_inv, foldl_inv, foldl_snd_inv]

theorem execContextSave_inv (h : MemInv s) (e : execContextSave s = .next t) : MemInv t := by
  unfold execContextSave at e; grind [MemInv, saveForm_inv, updForm_inv]

theorem readTeam_inv (b tid) (h : MemInv s) : MemInv (readTeam s b tid).2 :=
  h

theorem tagsBack_inv (b core ten tid) (h : MemInv s) : MemInv (tagsBack s b core ten tid) := by
  unfold tagsBack; grind [MemInv, updCore_inv, tagClaim_inv, foldl_inv, foldl_snd_inv]

theorem logBack_inv (tid) (h : MemInv s) : MemInv (logBack s tid) := by
  unfold logBack; grind [MemInv, updCore_inv, admitLog_inv, foldl_inv, foldl_snd_inv]

theorem postAgain_inv (g f tid b r) (h : MemInv s) (e : postAgain s g f tid b r = some t) : MemInv t := by
  unfold postAgain at e; grind [MemInv, MxChk.Inv, updMx_inv, cmdCheck_inv]

theorem postAll_inv (g f ims x y) (h : MemInv s) (e : postAll g f ims x y s = some t) : MemInv t := by
  fun_induction postAll g f ims x y s <;> grind [postAgain_inv]

theorem fifoBack_inv (cl b) (h : MemInv s) : MemInv (fifoBack s cl b) := by
  unfold fifoBack; grind [MemInv, applyConfig_inv, updCluster_inv, foldl_inv, foldl_snd_inv]

theorem accsBack_inv (g f b) (h : MemInv s) : MemInv (accsBack s g f b) := by
  unfold accsBack; grind [setOwn_inv, setSlot_inv, foldl_inv, foldl_snd_inv]

theorem restoreForm_inv (g f) (h : MemInv s) : MemInv (restoreForm s g f) := by
  unfold restoreForm
  extract_lets ims im b0 s1 s2 own s3 s4 s5 s6 s7 mine
  split
  · grind [abortGrid_inv, emit_inv]
  · have h1 : MemInv s1 := by grind [fifoBack_inv]
    have h2 : MemInv s2 := accsBack_inv _ _ _ h1
    have h5 : MemInv s5 := by grind [updForm_inv, updTenant_inv, MemInv, roomTaken_inv, updGrid_inv]
    have h6 : MemInv s6 := by grind [foldl_inv, spadWrite_inv]
    have h7 : MemInv s7 := by grind [foldl_inv, readTeam_inv, enqueueTeam_inv, logBack_inv, tagsBack_inv, MemInv]
    clear_value s1 s2 s5 s6 s7
    split
    · exact abortGrid_inv _ h7
    · refine foldl_inv _ _ (fun s e hs => resumeEntry_inv _ hs) ?_
      grind [postAll_inv, Option.bind_eq_some_iff]

theorem execTeamRestore_inv (h : MemInv s) (e : execTeamRestore s = .next t) : MemInv t := by
  unfold execTeamRestore at e; grind [MemInv, restoreForm_inv]

/-! ## The functions of Resume -/

theorem dropFault_inv (ten id) (h : MemInv s) : MemInv (dropFault s ten id) :=
  h

theorem updSaved_inv (fid tid f) (h : MemInv s) : MemInv (updSaved s fid tid f) :=
  h

theorem resumeSaved_inv (f w skip) (h : MemInv s) : MemInv (resumeSaved s f w skip) := by
  unfold resumeSaved; grind [MemInv, updSaved_inv, imageEdit_inv, foldl_inv, foldl_snd_inv]

theorem resumeIssuer_inv (tid w skip) (h : MemInv s) : MemInv (resumeIssuer s tid w skip) := by
  unfold resumeIssuer; grind [resumeAt_inv, resumeSaved_inv]

theorem chainFree_inv (eng chain id) (h : MemInv s) : MemInv (chainFree s eng chain id) :=
  h

theorem scrambleRest_inv (o) (h : MemInv s) : MemInv (scrambleRest s o) := by
  unfold scrambleRest; grind [EAcc.Inv, freeBytes_inv, homeStore_inv, engScramble_inv, indexAt_inv, foldl_inv, foldl_snd_inv]

theorem resumeOp_inv (id op skip) (h : MemInv s) : MemInv (resumeOp s id op skip) := by
  unfold resumeOp; grind [MemInv, finishOp_inv, updEop_inv, runOp_inv, dropCk_inv, scrambleRest_inv, chainFree_inv]

theorem resumeChain_inv (eng chain) (h : MemInv s) : MemInv (resumeChain s eng chain) := by
  unfold resumeChain; grind [MemInv, retireChain_inv, updChain_inv]

theorem skipCmd_inv (cl r f) (h : MemInv s) : MemInv (skipCmd s cl r f) := by
  unfold skipCmd
  cases r.instr with
  | mcb => exact scrambleForm_inv _ _ _ h
  | mepi =>
    have hput {s : State} (hs : MemInv s) (va : W64) (n asid ten) : MemInv (match walkQuiet s asid ten va .write with
        | some (e, lev) =>
          if pteFar e || !isOwnDev s (pteDev e) then s
          else let (b, s) := freeBytes s n; mxPut s cl (leafPa e lev va) b ten
        | none => s) := by
      grind [mxPut_inv, freeBytes_inv]
    extract_lets u
    have hu : MemInv u := foldl_inv _ _ (fun _ _ hs => foldl_inv _ _ (fun _ _ hs => hput hs _ _ _ _) hs) h
    exact ite_inv (getD_inv (fun _ => barAdd_inv _ _ _ _ hu) hu) hu
  | _ => exact h

theorem resumeMatrix_inv (cl id skip) (h : MemInv s) : MemInv (resumeMatrix s cl id skip) := by
  unfold resumeMatrix
  split
  · grind [updMx_inv, mxIoStep_inv, scrambleForm_inv, barAdd_inv, getD_inv]
  · split
    · grind [skipCmd_inv, dropResv_inv, updResv_inv]
    · split
      · exact h
      · next f _ =>
        extract_lets u
        have hu : MemInv u := updForm_inv _ _ h
        clear_value u
        split
        · exact ite_inv (skipCmd_inv _ _ _ hu) hu
        · exact hu

theorem resumeOut_inv (ent action) (h : MemInv s) : MemInv (resumeOut s ent action) := by
  unfold resumeOut; grind [MemInv, imageEdit_inv]

theorem resumeWait_inv (ten w action) (h : MemInv s) : MemInv (resumeWait s ten w action) := by
  unfold resumeWait; grind [resumeChain_inv, dropFault_inv, resumeOp_inv, resumeMatrix_inv, resumeIssuer_inv]

theorem resumeWrite_inv (ten v) (h : MemInv s) : MemInv (resumeWrite s ten v) := by
  unfold resumeWrite; grind [MemInv, updCore_inv, resumeOut_inv, dropFault_inv, abortGrid_inv, updTenant_inv, resumeWait_inv]

theorem resumeRow_inv (action) (h : MemInv s) (e : resumeRow action s = .next t) : MemInv t := by
  cases e; exact resumeWrite_inv _ _ h

theorem tenantReset_inv (ten) (h : MemInv s) : MemInv (tenantReset s ten) := by
  unfold tenantReset; grind [MemInv, mapMx_inv, updQueue_inv, dropQueueWork_inv, abortGrid_inv, emit_inv, dropCk_inv,
    setTape_inv, dropTeamRes_inv, queuePut_inv, foldl_inv, foldl_snd_inv]

theorem execTenantReset_inv (h : MemInv s) (e : execTenantReset s = .next t) : MemInv t := by
  cases e; exact tenantReset_inv _ h

/-! ## The functions of SysAccess -/

theorem clearFlags_inv (ten v) (h : MemInv s) : MemInv (clearFlags s ten v) :=
  h

theorem kernelWrite_inv (ten n v) (h : MemInv s) : MemInv (kernelWrite s ten n v) := by
  unfold kernelWrite; grind [clearFlags_inv, doorbell_inv, resumeWrite_inv]

theorem tenantWrite_inv (ten n v) (h : MemInv s) : MemInv (tenantWrite s ten n v) := by
  have put {n v} : MemInv (tsysSet s ten n v) := h
  unfold tenantWrite
  extract_lets
  with_reducible repeat' apply ite_inv
  all_goals grind [clearFlags_inv, ptSyncStart_inv, bumpDie_inv, pumpRing_inv, resumeWrite_inv]

theorem reloadRoutes_inv (h : MemInv s) : MemInv (reloadRoutes s) :=
  h

theorem packageWrite_inv (die n v) (h : MemInv s) : MemInv (packageWrite s die n v) := by
  have put {s} (n v) (h : MemInv s) : MemInv (sysSet s n v) := h
  unfold packageWrite
  dsimp only
  with_reducible repeat' apply ite_inv
  all_goals grind [MemInv, doorbell_inv, queueCommand_inv, tenantReset_inv, asidRebind_inv, setHints_inv, reloadRoutes_inv,
    settleTokens_inv]

theorem mgtRecord_inv (cause unit index detail) (h : MemInv s) : MemInv (mgtRecord s cause unit index detail) := by
  unfold mgtRecord; grind [MemInv]

theorem execReload_inv (h : MemInv s) (e : execReload s = .next t) : MemInv t := by
  cases e; exact h

theorem syncFence_inv (b) (h : MemInv s) : MemInv (syncFence s b).2.2 :=
  fenceStep_inv _ _ h

theorem syncGang_inv (g val) (h : MemInv s) : MemInv (syncGang s g val) := by
  unfold syncGang; grind [MemInv, finish_inv, ptSyncStart_inv, raiseGang_inv, syncFence_inv, updSlices_inv, foldl_inv,
    foldl_snd_inv]

theorem execSysw_inv (g n) (h : MemInv s) (e : execSysw g n s = .next t) : MemInv t := by
  unfold execSysw at e; grind [MemInv, withGang_inv, illegalGang_inv, syncGang_inv, finish_inv, stall_inv, kernelWrite_inv,
    foldl_inv, foldl_snd_inv]

theorem execSsysr_inv (d half l) (h : MemInv s) (e : execSsysr d half l s = .next t) : MemInv t := by
  unfold execSsysr at e; grind [MemInv, prefDone_inv, withPref_inv, illegalPref_inv]

theorem syncPref_inv (p v) (h : MemInv s) : MemInv (syncPref s p v) := by
  unfold syncPref; grind [MemInv, ptSyncStart_inv, syncFence_inv, updTeam_inv, prefDone_inv, raisePref_inv]

theorem execSsysw_inv (d half l) (h : MemInv s) (e : execSsysw d half l s = .next t) : MemInv t := by
  unfold execSsysw at e; grind [MemInv, prefDone_inv, withPref_inv, illegalPref_inv, kernelWrite_inv, syncPref_inv]

/-! ## The functions of Fabric -/

theorem eventFailed_inv (gid ten teamId pc word va p st) (h : MemInv s) : MemInv (eventFailed s gid ten teamId pc word va p st)
    :=
  emit_inv _ _ _ h

theorem memberDone_inv (op gl idx st) (h : MemInv s) : MemInv (memberDone s op gl idx st) := by
  unfold memberDone; grind [MemInv, updLane_inv, settleOp_inv, advanceAll_inv]

theorem engineDone_inv (op member va p st d) (h : MemInv s) : MemInv (engineDone s op member va p st d) := by
  unfold engineDone; grind [MemInv, updEop_inv, runOp_inv, engFault_inv]

theorem podDone_inv (use gid p st d) (h : MemInv s) : MemInv (podDone s use gid p st d) := by
  unfold podDone; grind [mxIoReply_inv, gridStop_inv, stopQueueAt_inv, answerLane_inv, codeDone_inv, zeroReport_inv,
    queueReadFail_inv, memberDone_inv, eventFailed_inv, queueReadDone_inv, gridOver_inv, entryDone_inv, engineDone_inv]

theorem endTag_inv (key late st d) (h : MemInv s) : MemInv (endTag s key late st d) := by
  unfold endTag; grind [podDone_inv, freeTagAt_inv, relayPump_inv]

theorem execFabricTimeout_inv (h : MemInv s) (e : execFabricTimeout s = .next t) : MemInv t := by
  unfold execFabricTimeout at e; grind [MemInv, endTag_inv]

theorem relayReply_inv (p) (h : MemInv s) : MemInv (relayReply s p) := by
  unfold relayReply; grind [MemInv, fabCount_inv, endTag_inv, relayPump_inv, sendMin_inv]

theorem responseIn_inv (p) (h : MemInv s) : MemInv (responseIn s p) := by
  unfold responseIn; grind [fabCount_inv, relayReply_inv, endTag_inv]

theorem podReq_inv (p ten k) (h : MemInv s) : MemInv (podReq s p ten k) :=
  h

theorem admitted_inv (p need) {k} (hk : ∀ n, MemInv (k n)) (h : MemInv s) :
    MemInv (admitted s p need k) := by
  unfold admitted; grind [MemInv, respond_inv]

theorem readIn_inv (p) (h : MemInv s) : MemInv (readIn s p) := by
  unfold readIn; grind [podReq_inv, admitted_inv]

theorem writeIn_inv (p) (h : MemInv s) : MemInv (writeIn s p) := by
  unfold writeIn; grind [podReq_inv, admitted_inv]

theorem rdnIn_inv (p) (h : MemInv s) : MemInv (rdnIn s p) := by
  unfold rdnIn; grind [eventOp_inv, podReq_inv, respond_inv, admitted_inv]

theorem llqIn_inv (p) (h : MemInv s) : MemInv (llqIn s p) := by
  unfold llqIn; grind [podReq_inv, admitted_inv]

theorem scqIn_inv (p) (h : MemInv s) : MemInv (scqIn s p) := by
  unfold scqIn; grind [podReq_inv, admitted_inv]

theorem copyStore_inv (p pa) (h : MemInv s) : MemInv (copyStore s p pa).2 := by
  unfold copyStore; grind [devStore_inv, recvCount_inv]

theorem mcoServe_inv (p) (h : MemInv s) (e : mcoServe s p = some t) : MemInv t := by
  unfold mcoServe at e; grind [MemInv, copyStore_inv, respond_inv, rootServe_inv, foldl_inv, foldl_snd_inv]

theorem copyDo_inv (p) (h : MemInv s) (e : copyDo s p = some t) : MemInv t := by
  unfold copyDo at e; grind [copyStore_inv, mcoServe_inv, respond_inv]

theorem copyNext_inv (k src) (h : MemInv s) : MemInv (copyNext k s src) := by
  fun_induction copyNext k s src with
  | case1 => exact h
  | case2 => exact h
  | case3 => exact h
  | case4 s src k n p hp t ht ih => exact ih (copyDo_inv _ h ht : MemInv t)

theorem copyIn_inv (p) (h : MemInv s) : MemInv (copyIn s p) :=
  copyNext_inv _ _ h

theorem stallPkt_inv (p) (h : MemInv s) : MemInv (stallPkt s p) :=
  h

theorem ctbIn_inv (p) (h : MemInv s) : MemInv (ctbIn s p) := by
  unfold ctbIn; grind [MemInv, stallPkt_inv, runOp_inv, respond_inv]

theorem deliveryIn_inv (p) (h : MemInv s) : MemInv (deliveryIn s p) := by
  unfold deliveryIn; grind [MemInv, stallPkt_inv, runOp_inv, respond_inv, placeDelivery_inv]

theorem collIn_inv (p) (h : MemInv s) : MemInv (collIn s p) := by
  unfold collIn; grind [deliveryIn_inv, ctbIn_inv]

theorem fabricRetry_inv (h : MemInv s) : MemInv (fabricRetry s) := by
  unfold fabricRetry; grind [MemInv, copyNext_inv, collIn_inv, relayPump_inv, foldl_inv, foldl_snd_inv]

theorem passOn_inv (h : MemInv s) : MemInv (passOn s) := by
  unfold passOn; grind [sendMin_inv]

theorem markBlocked_inv (h : MemInv s) : MemInv (markBlocked s) :=
  h

theorem passAct_inv (h : MemInv s) : MemInv (passAct s) := by
  unfold passAct; grind [MemInv, fabCount_inv, markBlocked_inv, setQueues_inv, collIn_inv, sendMin_inv, passOn_inv]

theorem passIn_inv (p) (h : MemInv s) : MemInv (passIn s p) := by
  have hact {u : State} (h : MemInv u) : MemInv (passAct { u with fab := { u.fab with passHeld := none } }) := passAct_inv h
  generalize hf : passIn = f
  delta passIn at hf
  subst hf
  exact ite_inv h (ite_inv h (hact h))

theorem ackIn_inv (a) (h : MemInv s) : MemInv (ackIn s a) := by
  unfold ackIn; grind [MemInv, passOn_inv]

theorem noRoute_inv (p) (h : MemInv s) : MemInv (noRoute s p) := by
  unfold noRoute; grind [MemInv, relayReply_inv, endTag_inv, respond_inv, foldl_inv, foldl_snd_inv]

theorem forward_inv (p) (h : MemInv s) : MemInv (forward s p) := by
  unfold forward; grind [sendMin_inv, noRoute_inv]

theorem arrive_inv (p) (h : MemInv s) : MemInv (arrive s p) := by
  unfold arrive; grind [readIn_inv, fabCount_inv, responseIn_inv, scqIn_inv, ackIn_inv, deliveryIn_inv, llqIn_inv, forward_inv,
    zeroIn_inv, writeIn_inv, ctbIn_inv, rdnIn_inv, passIn_inv, copyIn_inv]

theorem packetRow_inv (code) (h : MemInv s) (e : packetRow code s = .next t) : MemInv t := by
  cases e; exact arrive_inv _ h

theorem execRcv_inv (h : MemInv s) (e : execRcv s = .next t) : MemInv t := by
  unfold execRcv at e; grind [MemInv, arrive_inv, sendMin_inv]

theorem execBadop_inv (h : MemInv s) (e : execBadop s = .next t) : MemInv t := by
  cases e; exact h

theorem execPacketBlocked_inv (h : MemInv s) (e : execPacketBlocked s = .next t) : MemInv t := by
  cases e; exact h

theorem execPassReissue_inv (h : MemInv s) (e : execPassReissue s = .next t) : MemInv t := by
  unfold execPassReissue at e; grind [MemInv, passIn_inv]

theorem retrain_inv (k) (h : MemInv s) : MemInv (retrain s k) := by
  unfold retrain; grind [MemInv]

theorem execLinkReplay_inv (h : MemInv s) (e : execLinkReplay s = .next t) : MemInv t := by
  unfold execLinkReplay at e; grind [MemInv, fabCount_inv, retrain_inv]

theorem execLaneSpareRetrain_inv (h : MemInv s) (e : execLaneSpareRetrain s = .next t) : MemInv t := by
  unfold execLaneSpareRetrain at e; grind [MemInv, sysSet_inv, mgtRecord_inv, retrain_inv]

theorem execLinkRetrainEnd_inv (h : MemInv s) (e : execLinkRetrainEnd s = .next t) : MemInv t := by
  unfold execLinkRetrainEnd at e; grind [MemInv]

theorem reroute_inv (p) (h : MemInv s) : MemInv (reroute s p).2 := by
  unfold reroute; grind [MemInv, countNonmin_inv]

theorem requeue_inv (p) (h : MemInv s) : MemInv (requeue s p) := by
  unfold requeue; grind [MemInv, outPkt_inv, reroute_inv, setQueues_inv, noRoute_inv, foldl_inv, foldl_snd_inv]

theorem execPortDown_inv (h : MemInv s) (e : execPortDown s = .next t) : MemInv t := by
  unfold execPortDown at e; grind [MemInv, sysSet_inv, requeue_inv, foldl_inv, foldl_snd_inv]

theorem execUetPacket_inv (h : MemInv s) (e : execUetPacket s = .next t) : MemInv t := by
  cases e; exact h

theorem execPtpSync_inv (h : MemInv s) (e : execPtpSync s = .next t) : MemInv t := by
  unfold execPtpSync at e; grind [MemInv]

theorem execPtpDelayResp_inv (h : MemInv s) (e : execPtpDelayResp s = .next t) : MemInv t := by
  unfold execPtpDelayResp at e; grind [MemInv]

theorem execPtpSyncLoss_inv (h : MemInv s) (e : execPtpSyncLoss s = .next t) : MemInv t := by
  unfold execPtpSyncLoss at e; grind [MemInv]

/-! ## The functions of Host -/

theorem joinPod_inv (k) (h : MemInv s) : MemInv (joinPod s k) := by
  unfold joinPod; grind [MemInv, sysSet_inv, mgtRecord_inv]

theorem startUp_inv (h : MemInv s) : MemInv (startUp s) := by
  unfold startUp; grind [MemInv, mgtRecord_inv, joinPod_inv, foldl_inv, foldl_snd_inv]

theorem deviceReset_inv : MemInv (deviceReset s) := startUp_inv reset_wf

theorem execPowerOn_inv (e : execPowerOn s = .next t) : MemInv t := by
  cases e
  exact startUp_inv reset_wf

theorem execResetDevice_inv (e : execResetDevice s = .next t) : MemInv t := by
  unfold execResetDevice at e; grind [MemInv, deviceReset_inv]

theorem fatalError_inv (cause unit index) : MemInv (fatalError s cause unit index) := by
  unfold fatalError; grind [MemInv, mgtRecord_inv, deviceReset_inv]

theorem execD2dFailure_inv (e : execD2dFailure s = .next t) : MemInv t := by
  unfold execD2dFailure at e; grind [MemInv, fatalError_inv]

theorem execPrebriyrFault_inv (e : execPrebriyrFault s = .next t) : MemInv t := by
  unfold execPrebriyrFault at e; grind [MemInv, fatalError_inv]

theorem execHbmStackFailure_inv (e : execHbmStackFailure s = .next t) : MemInv t := by
  unfold execHbmStackFailure at e; grind [MemInv, fatalError_inv]

theorem execSoftcorr_inv (h : MemInv s) (e : execSoftcorr s = .next t) : MemInv t := by
  cases e; exact mgtRecord_inv _ _ _ _ h

theorem execScrub_inv (h : MemInv s) (e : execScrub s = .next t) : MemInv t := by
  cases e; exact mgtRecord_inv _ _ _ _ h

theorem execBrodileLinkRetrain_inv (h : MemInv s) (e : execBrodileLinkRetrain s = .next t) : MemInv t := by
  cases e; exact mgtRecord_inv _ _ _ _ h

theorem execMgtErr_inv (h : MemInv s) (e : execMgtErr s = .next t) : MemInv t := by
  unfold execMgtErr at e; grind [MemInv]

theorem errClear_inv (h : MemInv s) : MemInv (errClear s) :=
  h

theorem execErrclr_inv (h : MemInv s) (e : execErrclr s = .next t) : MemInv t := by
  cases e; exact h

theorem execEccUncorr_inv (h : MemInv s) (e : execEccUncorr s = .next t) : MemInv t := by
  unfold execEccUncorr at e; grind [MemInv, emit_inv]

theorem mgtWrite_inv (n v) (h : MemInv s) : MemInv (mgtWrite s n v) := by
  unfold mgtWrite; grind [MemInv, errClear_inv, deviceReset_inv]

theorem hostAcc_inv (offset) (h : MemInv s) : MemInv (hostAcc s offset) :=
  mgtRecord_inv _ _ _ _ h

theorem hostWrite_inv (view n v) (h : MemInv s) : MemInv (hostWrite s view n v) := by
  unfold hostWrite; grind [mgtWrite_inv, hostAcc_inv, packageWrite_inv, tenantWrite_inv]

theorem execSystemRegisterWrite_inv (h : MemInv s) (e : execSystemRegisterWrite s = .next t) : MemInv t := by
  cases e; exact hostWrite_inv _ _ _ h

theorem execInvalidHostAccess_inv (h : MemInv s) (e : execInvalidHostAccess s = .next t) : MemInv t := by
  cases e; exact hostAcc_inv _ h

theorem execHostMemoryAccess_inv (h : MemInv s) (e : execHostMemoryAccess s = .next t) : MemInv t := by
  unfold execHostMemoryAccess at e; grind [MemInv, performStore_inv]

theorem execFarExtentAdd_inv (h : MemInv s) (e : execFarExtentAdd s = .next t) : MemInv t := by
  unfold execFarExtentAdd at e; grind [MemInv, mgtRecord_inv]

theorem execFarExtentRelease_inv (h : MemInv s) (e : execFarExtentRelease s = .next t) : MemInv t := by
  cases e; exact h

theorem execPowerCapStepDown_inv (h : MemInv s) (e : execPowerCapStepDown s = .next t) : MemInv t := by
  cases e; exact h

theorem execSupplySag_inv (h : MemInv s) (e : execSupplySag s = .next t) : MemInv t := by
  cases e; exact h

theorem execRailRecovery_inv (h : MemInv s) (e : execRailRecovery s = .next t) : MemInv t := by
  unfold execRailRecovery at e; grind [MemInv]

theorem execClockStepUp_inv (h : MemInv s) (e : execClockStepUp s = .next t) : MemInv t := by
  unfold execClockStepUp at e; grind [MemInv]

theorem mailboxCmd_inv (v) (h : MemInv s) : MemInv (mailboxCmd s v) :=
  h

theorem mailboxRow_inv (op) (h : MemInv s) (e : mailboxRow op s = .next t) : MemInv t := by
  cases e; exact h

theorem execMailboxBadop_inv (h : MemInv s) (e : execMailboxBadop s = .next t) : MemInv t := by
  cases e; exact h

theorem execMailboxRequestEnd_inv (h : MemInv s) (e : execMailboxRequestEnd s = .next t) : MemInv t := by
  unfold execMailboxRequestEnd at e; grind [MemInv]

end Sys2Proof.Machine
end

section
/-! SUPPORT. Memory stays canonical (O59): the rows of the opcode table, and the turns. -/

namespace Sys2Proof.Machine
-- One declaration after the other: in parallel, the threads' stacks pass the check's memory limit.
set_option Elab.async false
variable {s t : State}

/-! ## The functions of VecLane -/

theorem indexRun_inv (st half w d x c g) (h : MemInv s) : MemInv (indexRun st half w d x c s g) := by
  unfold indexRun; grind [MemInv, prelude_inv, vecAhead_inv, illegalGang_inv, finish_inv, raiseGang_inv, updTeam_inv,
    updSlices_inv, endGambit_inv, foldl_inv, foldl_snd_inv]

theorem execVldx_inv (half w d c x) (h : MemInv s) (e : execVldx half w d c x s = .next t) : MemInv t := by
  unfold execVldx at e; grind [MemInv, withGang_inv, indexRun_inv]

theorem execVstx_inv (half w d c x) (h : MemInv s) (e : execVstx half w d c x s = .next t) : MemInv t := by
  unfold execVstx at e; grind [MemInv, withGang_inv, indexRun_inv]

/-! ## The functions of Issue -/

theorem deferGang_inv (g c) (h : MemInv s) : MemInv (deferGang s g c) :=
  h

theorem takeBanks_inv (g w) (h : MemInv s) : MemInv (takeBanks s g w) :=
  h

/-! ## The functions of Turn -/

theorem elapse_inv (dt) (h : MemInv s) : MemInv (elapse s dt) := by
  unfold elapse; grind [MemInv, schedTick_inv, fabricRun_inv, fabricRetry_inv]

theorem aged_inv (who) {o : Out} (ho : ∀ t, o = .next t → MemInv t) (e : aged who o = .next t) : MemInv t := by
  unfold aged at e; grind [MemInv, schedIssued_inv]

theorem beforeExec_inv (i w) (h : MemInv s) : MemInv (beforeExec s i w) := by
  unfold beforeExec
  split
  · exact h
  split
  · exact h
  extract_lets u
  have hu : MemInv u := ite_inv h (takeBanks_inv _ _ h)
  clear_value u
  cases i with
  | regang => exact separate_inv _ _ _ hu
  | _ => exact hu

theorem andThen_inv (l) {o : Out} (ho : ∀ t, o = .next t → MemInv t) (e : andThen o l = .next t) : MemInv t := by
  cases o <;> grind [andThen, MemInv]

theorem enter_inv (tid dt used) (h : MemInv s) : MemInv (enter s tid dt used) :=
  elapse_inv _ h

/-! ## The dispatcher and the turns -/

/-- Every row of the opcode table keeps memory canonical. -/
theorem exec_inv (i) (h : MemInv s) (e : exec i s = .next t) : MemInv t := by
  cases i with
  | iadd | isub | imul | imulh | imad | imin | imax | iabsd | vand | vor | vxor | andn | shl | shr | sra | fadd | fsub
  | fmul | fma | fms | fnma | fmin | fmax | sel | shfl | shflx | bprm | dot2 | dot4 | pack | fscale | mov | vnot | ineg
  | iabs | popc | clz | ctz | brev | sext8 | sext16 | zext8 | zext16 | bswap | movg | movgh | fneg | fabs | frcp | frsq
  | fsqrt | fexp2 | flog2 | fsin | fcos | ffloor | fceil | ftrunc | frint | fclass | ffrac | cvt | ballot | vany | vall
  | bcast | laneid | sliceid | redadd | redmin | redmax | prfxadd | prfxex | uniq | xset | xadd | xget | p2v | v2p | pnot
  | pand | por | pxor | icmp | fcmp | iaddi | andi | ori | xori | shli | shri | srai | movk | movkh => exact vec_inv _ h e
  | ld | st | lds | sts | atom | red | redFadd | redBfadd2 | ll4 | ll8 | sc4 | sc8 | ldt | unpk | sttr | stm
    => exact memInstr_inv _ h e
  | bra | call | gli | vgeth | modeSet | mset | msave | mrest | mand | mor | mall | wait | sysr | ret | jr | nop
    => exact ctl_inv _ _ _ _ _ h e
  | ualinkReadRequest | ualinkWriteRequest | podResponse | mcw | mco | rdn | llq | scq | ctb | crs | spk | passToken
  | recoveryAck => exact packetRow_inv _ h e
  | sadd | ssub | smul | sdiv | srem | sand | sor | sxor => exact prefReg_inv _ _ _ _ h e
  | gadd | gsub | gmul | gand | gor | gxor => exact gsReg_inv _ _ _ _ h e
  | attest | identityRequest | stageBegin | stageData | stageCommit | stageAbort => exact mailboxRow_inv _ h e
  | sld | sst | sld4 | sst4 => exact prefAccess_inv _ _ _ _ _ h e
  | slds | ssts | slds4 | ssts4 => exact prefSpad_inv _ _ _ _ _ h e
  | replayResume | skipResume | abortResume | replayfResume => exact resumeRow_inv _ h e
  | sbEq | sbNe | sbLt => exact prefBranch_inv _ _ _ _ h e
  | slui | stime => exact prefAlu_inv _ _ _ h e
  | vldx => exact execVldx_inv _ _ _ _ _ h e
  | vstx => exact execVstx_inv _ _ _ _ _ h e
  | pref => exact execPref_inv _ _ h e
  | fpush => exact execFpush_inv _ _ h e
  | fpop => exact execFpop_inv _ _ h e
  | gshl => exact execGshl_inv _ _ _ h e
  | gshr => exact execGshr_inv _ _ _ h e
  | gsra => exact execGsra_inv _ _ _ h e
  | gmin => exact execGmin_inv _ _ _ h e
  | gmax => exact execGmax_inv _ _ _ h e
  | gslt => exact execGslt_inv _ _ _ h e
  | gsltu => exact execGsltu_inv _ _ _ h e
  | gmov => exact execGmov_inv _ _ h e
  | gaddi => exact execGaddi_inv _ _ _ h e
  | gandi => exact execGandi_inv _ _ _ h e
  | gori => exact execGori_inv _ _ _ h e
  | gxori => exact execGxori_inv _ _ _ h e
  | gshli => exact execGshli_inv _ _ _ h e
  | gshri => exact execGshri_inv _ _ _ h e
  | gsrai => exact execGsrai_inv _ _ _ h e
  | vget => exact execVget_inv _ _ _ h e
  | regang => exact execRegang_inv _ h e
  | bar => exact execBar_inv _ _ h e
  | safept => exact execSafept_inv _ h e
  | dqpop => exact execDqpop_inv _ h e
  | trap code => exact execTrap_inv code h e
  | brk code => exact execBrk_inv code h e
  | fence => exact execFence_inv _ _ _ h e
  | wtime => exact execWtime_inv _ h e
  | sysw => exact execSysw_inv _ _ h e
  | chain => exact execChain_inv _ _ h e
  | tagwaitAny => exact execTagwaitAny_inv _ _ h e
  | tagwaitAll => exact execTagwaitAll_inv _ _ h e
  | tagff => exact execTagff_inv _ _ h e
  | tagclr => exact execTagclr_inv _ h e
  | bcwait => exact execBcwait_inv _ _ _ h e
  | bcadd => exact execBcadd_inv _ _ h e
  | smulh => exact execSmulh_inv _ _ _ h e
  | sshl => exact execSshl_inv _ _ _ h e
  | sshr => exact execSshr_inv _ _ _ h e
  | ssra => exact execSsra_inv _ _ _ h e
  | smin => exact execSmin_inv _ _ _ h e
  | smax => exact execSmax_inv _ _ _ h e
  | sslt => exact execSslt_inv _ _ _ h e
  | ssltu => exact execSsltu_inv _ _ _ h e
  | smov => exact execSmov_inv _ _ h e
  | saddi => exact execSaddi_inv _ _ _ h e
  | sandi => exact execSandi_inv _ _ _ h e
  | sori => exact execSori_inv _ _ _ h e
  | sxori => exact execSxori_inv _ _ _ h e
  | sshli => exact execSshli_inv _ _ _ h e
  | sshri => exact execSshri_inv _ _ _ h e
  | ssrai => exact execSsrai_inv _ _ _ h e
  | sbGe => exact execSbGe_inv _ _ _ h e
  | sbLtu => exact execSbLtu_inv _ _ _ h e
  | sbGeu => exact execSbGeu_inv _ _ _ h e
  | sj => exact execSj_inv _ h e
  | scall => exact execScall_inv _ _ h e
  | sret => exact execSret_inv _ h e
  | sjr => exact execSjr_inv _ _ h e
  | dqpush => exact execDqpush_inv _ h e
  | tapePush => exact execTapePush_inv _ h e
  | qsignal => exact execQsignal_inv _ _ _ _ h e
  | swtime => exact execSwtime_inv _ h e
  | sbar => exact execSbar_inv _ _ _ h e
  | ssysr => exact execSsysr_inv _ _ _ h e
  | ssysw => exact execSsysw_inv _ _ _ h e
  | sramcfg => exact execSramcfg_inv _ _ h e
  | sfence => exact execSfence_inv _ _ _ h e
  | mcfg => exact execMcfg_inv _ h e
  | mcb => exact execMcb_inv _ _ h e
  | mldb => exact execMldb_inv _ _ h e
  | mma => exact execMma_inv _ _ _ h e
  | mepi => exact execMepi_inv _ _ _ h e
  | mzero => exact execMzero_inv _ h e
  | mrel => exact execMrel_inv _ h e
  | slpin => exact execSlpin_inv _ _ _ h e
  | slunpin => exact execSlunpin_inv _ h e
  | sldelta => exact execSldelta_inv _ _ h e
  | slread => exact execSlread_inv _ _ _ h e
  | slchunk => exact execSlchunk_inv _ _ _ h e
  | slspill => exact execSlspill_inv _ h e
  | slfill => exact execSlfill_inv _ h e
  | slinfo => exact execSlinfo_inv _ _ h e
  | schain => exact execSchain_inv _ _ h e
  | stagwaitAny => exact execStagwaitAny_inv _ _ _ h e
  | stagwaitAll => exact execStagwaitAll_inv _ _ _ h e
  | stagff => exact execStagff_inv _ _ _ h e
  | sbcwait => exact execSbcwait_inv _ _ _ h e
  | sbcarm => exact memInv_execSbcarm _ _ _ h e
  | pageWalk => exact execPageWalk_inv h e
  | zeroRequest => exact execZeroRequest_inv h e
  | zeroingComplete => exact execZeroingComplete_inv h e
  | asidRebind => exact execAsidRebind_inv h e
  | asidRebindDone => exact execAsidRebindDone_inv h e
  | ptSync => exact execPtSync_inv h e
  | ptSyncRetire => exact execPtSyncRetire_inv h e
  | adapterFlipReply => exact execAdapterFlipReply_inv h e
  | hostFlip => exact execHostFlip_inv h e
  | flipHoldExpiry => exact execFlipHoldExpiry_inv h e
  | rdcSizeApply => exact execRdcSizeApply_inv h e
  | l2Request => exact execL2Request_inv h e
  | bump => exact execBump_inv h e
  | ckoutGrant => exact execCkoutGrant_inv h e
  | ckoutTimeout => exact execCkoutTimeout_inv h e
  | engineLockGrant => exact execEngineLockGrant_inv h e
  | lockReplay => exact execLockReplay_inv h e
  | reservationExpiry => exact execReservationExpiry_inv h e
  | engineOperationComplete => exact execEngineOperationComplete_inv h e
  | reload => exact execReload_inv h e
  | fabricTimeout => exact execFabricTimeout_inv h e
  | rcv => exact execRcv_inv h e
  | badop => exact execBadop_inv h e
  | packetBlocked => exact execPacketBlocked_inv h e
  | passReissue => exact execPassReissue_inv h e
  | linkReplay => exact execLinkReplay_inv h e
  | laneSpareRetrain => exact execLaneSpareRetrain_inv h e
  | portDown => exact execPortDown_inv h e
  | uetPacket => exact execUetPacket_inv h e
  | ptpSync => exact execPtpSync_inv h e
  | ptpDelayResp => exact execPtpDelayResp_inv h e
  | ptpSyncLoss => exact execPtpSyncLoss_inv h e
  | timeTargetReached => exact execTimeTargetReached_inv h e
  | loadReturn => exact execLoadReturn_inv h e
  | gambitEntry => exact execGambitEntry_inv h e
  | gambitInstructionLimit => exact execGambitInstructionLimit_inv h e
  | regangTimeout => exact execRegangTimeout_inv h e
  | queueDb => exact execQueueDb_inv h e
  | queueEnable => exact execQueueEnable_inv h e
  | queueDisable => exact execQueueDisable_inv h e
  | queueReset => exact execQueueReset_inv h e
  | queueResume => exact execQueueResume_inv h e
  | queueLaunch => exact execQueueLaunch_inv h e
  | queueWait => exact execQueueWait_inv h e
  | queueWaitPoll => exact execQueueWaitPoll_inv h e
  | queueWaitTimeout => exact execQueueWaitTimeout_inv h e
  | queueSignal => exact execQueueSignal_inv h e
  | queueCopy => exact execQueueCopy_inv h e
  | queueRewind => exact execQueueRewind_inv h e
  | queueNop => exact execQueueNop_inv h e
  | timedStart => exact execTimedStart_inv h e
  | formPlacement => exact execFormPlacement_inv h e
  | launchReserving => exact execLaunchReserving_inv h e
  | gridComplete => exact execGridComplete_inv h e
  | forcedEntry => exact execForcedEntry_inv h e
  | quantumExpiry => exact execQuantumExpiry_inv h e
  | priorityPreemption => exact execPriorityPreemption_inv h e
  | hardPreemption => exact execHardPreemption_inv h e
  | contextSave => exact execContextSave_inv h e
  | teamRestore => exact execTeamRestore_inv h e
  | matrixGrant => exact execMatrixGrant_inv h e
  | slateRefill => exact execSlateRefill_inv h e
  | operandLogReplay => exact execOperandLogReplay_inv h e
  | watchdog => exact execWatchdog_inv h e
  | tenantReset => exact execTenantReset_inv h e
  | eccUncorr => exact execEccUncorr_inv h e
  | systemRegisterWrite => exact execSystemRegisterWrite_inv h e
  | hostMemoryAccess => exact execHostMemoryAccess_inv h e
  | mgtErr => exact execMgtErr_inv h e
  | resetDevice => exact execResetDevice_inv e
  | errclr => exact execErrclr_inv h e
  | farExtentAdd => exact execFarExtentAdd_inv h e
  | farExtentRelease => exact execFarExtentRelease_inv h e
  | mailboxBadop => exact execMailboxBadop_inv h e
  | mailboxRequestEnd => exact execMailboxRequestEnd_inv h e
  | powerOn => exact execPowerOn_inv e
  | powerCapStepDown => exact execPowerCapStepDown_inv h e
  | supplySag => exact execSupplySag_inv h e
  | clockStepUp => exact execClockStepUp_inv h e
  | d2dFailure => exact execD2dFailure_inv e
  | prebriyrFault => exact execPrebriyrFault_inv e
  | hbmStackFailure => exact execHbmStackFailure_inv e
  | softcorr => exact execSoftcorr_inv h e
  | scrub => exact execScrub_inv h e
  | brodileLinkRetrain => exact execBrodileLinkRetrain_inv h e
  | copyEntry => exact execCopyEntry_inv h e
  | copyt => exact execCopyt_inv h e
  | gather => exact execGather_inv h e
  | scatter => exact execScatter_inv h e
  | mcast => exact execMcast_inv h e
  | allred => exact execAllred_inv h e
  | redscat => exact execRedscat_inv h e
  | allgath => exact execAllgath_inv h e
  | sparsek => exact execSparsek_inv h e
  | ckout => exact execCkout_inv h e
  | ckin => exact execCkin_inv h e
  | signalEntry => exact execSignalEntry_inv h e
  | waitbc => exact execWaitbc_inv h e
  | loopEntry => exact execLoopEntry_inv h e
  | ifbc => exact execIfbc_inv h e
  | endEntry => exact execEndEntry_inv h e
  | ill => exact execIll_inv h e
  | exitSlice => exact execExitSlice_inv h e
  | yield => exact execYield_inv h e
  | sexit => exact execSexit_inv h e
  | mdrain => exact execMdrain_inv h e
  | railRecovery => exact execRailRecovery_inv h e
  | linkRetrainEnd => exact execLinkRetrainEnd_inv h e
  | farAccessReply => exact execFarAccessReply_inv h e
  | invalidHostAccess => exact execInvalidHostAccess_inv h e

theorem runIssuer_inv (who) (h : MemInv s) (e : runIssuer s who = .next t) : MemInv t := by
  have hfetch : (fetch { s with cur := who }).Inv := fetch_inv h
  unfold runIssuer at e
  split at e
  · cases e
  · next hs => cases e; simpa only [hs, Fetch.Inv] using hfetch
  · next w u hs =>
    have hword : MemInv u := by simpa only [hs, Fetch.Inv] using hfetch
    split at e
    · cases e; exact illegalWord_inv (s := { u with word := w }) hword
    · next i _ =>
      split at e
      · cases e; exact deferGang_inv _ _ hword
      · extract_lets v at e
        have hv : MemInv v := beforeExec_inv i w hword
        clear_value v
        have hrun : MemInv { v with word := w } := hv
        refine andThen_inv _ (fun x hx => ?_) e
        refine aged_inv _ (fun y hy => ?_) hx
        exact exec_inv i hrun hy

theorem partTurn_inv (who) (h : MemInv s) (e : partTurn s who = .next t) : MemInv t := by
  have hfetch : (fetch { s with cur := who }).Inv := fetch_inv h
  unfold partTurn at e
  split at e
  · cases e; exact h
  · next hs => cases e; simpa only [hs, Fetch.Inv] using hfetch
  · next w u hs =>
    have hword : MemInv u := by simpa only [hs, Fetch.Inv] using hfetch
    split at e
    · cases e; exact illegalWord_inv (s := { u with word := w }) hword
    · exact aged_inv _ (fun v hv => exec_inv (s := { u with word := w }) _ hword hv) e

theorem issueTurn_inv (who) (h : MemInv s) (e : issueTurn s who = .next t) : MemInv t := by
  unfold issueTurn at e
  split at e
  · exact runIssuer_inv _ h e
  · cases e; exact h

theorem eventTurn_inv (ev a) (h : MemInv s) (e : eventTurn s ev a = .next t) : MemInv t := by
  unfold eventTurn at e
  split at e
  · exact exec_inv (s := { s with arg := a }) _ h e
  · cases e

theorem runTurn_inv (u) (h : MemInv s) (e : runTurn u s = .next t) : MemInv t := by
  cases u with
  | issue dt who => exact issueTurn_inv _ (enter_inv _ _ _ h) e
  | event dt ev a => exact eventTurn_inv _ _ (enter_inv _ _ _ h) e
  | part who => exact partTurn_inv _ h e

theorem ownStep_inv (h : MemInv s) (e : ownStep s = .next t) : MemInv t := by
  unfold ownStep at e
  split at e
  · exact runTurn_inv _ h e
  · cases e; exact elapse_inv _ h

/-- Settles O59, by one lemma for each function that answers a machine: what a turn does, and the machine's own step. -/
theorem memInvKept : Obligations.MemInvKept := by
  intro s t h e
  unfold step at e
  split at e
  · exact ownStep_inv h e
  · next r _ =>
    have hr : MemInv { s with agenda := r } := h
    exact runTurn_inv _ hr e

end Sys2Proof.Machine
end

section
/-! SUPPORT. Requests of a lane that nothing delays, and the Prefect's accesses to memory (R27, R119, R250, R347). -/

namespace Sys2Proof.Machine
-- One declaration after the other: in parallel, the threads' stacks pass the check's memory limit.
set_option Elab.async false
open Sys2Proof.Claims

/-! ## The operation issued last -/

section
variable {s : State} {l : List MemOp} {o : MemOp} (hs : s.memops = l ++ [o]) (hf : ∀ p ∈ l, p.id ≠ o.id)
include hs hf

theorem findOp_last : findOp s o.id = some o := by
  have hn : l.find? (fun p => p.id == o.id) = none := List.find?_eq_none.mpr (fun p hp => by simpa using hf p hp)
  simp [findOp, hs, hn]

theorem updOp_last (f : MemOp → MemOp) : updOp s o.id f = { s with memops := l ++ [f o] } := by
  have hl : l.map (fun p => if p.id = o.id then f p else p) = l :=
    (List.map_congr_left (fun p hp => if_neg (hf p hp))).trans (List.map_id l)
  simp [updOp, hs, hl]

/-- The only lane of the operation issued last is changed by `f`. -/
theorem updLane_last {gl : Nat} {x : MLane} (hl : o.lanes = [x]) (hg : x.gl = gl) (f : MLane → MLane) :
    updLane s o.id gl f = { s with memops := l ++ [{ o with lanes := [f x] }] } := by
  simp [updLane, updOp_last hs hf, hl, hg]

end

/-! ## A lane that no earlier access of its thread delays (R119) -/

theorem laneUnsent_none {s : State} {o : MemOp} {gl : Nat}
    (h : ∀ p ∈ s.memops, (p.tid ≠ o.tid ∧ p.id ≠ o.id) ∨ (p.id = o.id ∧ ∀ x ∈ p.lanes, gl ≤ x.gl)) (at_ : Bool × Nat × Nat) :
    laneUnsent s o gl at_ = false := by
  refine List.any_eq_false.mpr (fun p hp => ?_)
  rw [Bool.not_eq_true]
  refine List.any_eq_false.mpr (fun x hx => ?_)
  obtain ⟨ht, hi⟩ | ⟨hi, hg⟩ := h p hp
  · simp [sameThread, ht, hi]
  · simp [hi, Nat.not_lt.mpr (hg x hx)]

section
variable {s : State} {o : MemOp} {gl : Nat} (hq : s.l2q = [])
  (h : ∀ p ∈ s.memops, (p.tid ≠ o.tid ∧ p.id ≠ o.id) ∨ (p.id = o.id ∧ ∀ x ∈ p.lanes, gl ≤ x.gl))
include hq h

theorem laneOwn_none (pa : Nat) : laneOwn s o gl pa false = false := by
  simp [laneOwn, laneUnsent_none h, hq]

theorem lanePending_none (pa : Nat) : lanePending s o gl pa false = false := by
  simp [lanePending, laneOwn_none hq h, hq]

end

/-- An operation none of whose lanes has been sent takes no room. -/
theorem coreSent_unsent {s t : State} {o : MemOp} (ht : t.memops = s.memops ++ [o]) (ho : ∀ x ∈ o.lanes, x.st = .todo) (core : Nat) :
    coreSent t core = coreSent s core := by
  simp only [coreSent, ht, List.map_append, List.map_cons, List.map_nil, List.sum_append, List.sum_cons, List.sum_nil, Nat.add_zero]
  refine Nat.add_eq_left.mpr ?_
  split
  · refine List.sum_eq_zero (fun n hn => ?_)
    obtain ⟨x, hx, rfl⟩ := List.mem_map.mp hn
    rw [ho x hx]
  · rfl

@[simp] theorem length_bytesLE (n x : Nat) : (bytesLE n x).length = n := by
  induction n generalizing x with
  | zero => rfl
  | succ n ih => rw [bytesLE, List.length_cons, ih]

/-! ## Uncached accesses to near memory (R62, R63) -/

theorem ccFlush_none {s : State} {cl ten pa : Nat} (h : ∀ x ∈ (clusterOf s cl).cc, ¬ (x.line = pa / 128 ∧ x.tenant = ten)) :
    ccFlush s cl ten pa = s := by
  have : ccFind s cl ten pa = none := List.find?_eq_none.mpr (fun x hx => by simpa using h x hx)
  rw [ccFlush, this]

/-- The class of an access to a page of the uncached kind. -/
theorem effClass_uncached (s : State) (o : MemOp) {e : W64} (h : pteCc e = 3) (pa : Nat) : effClass s o e pa = 3 := by
  simp [effClass, classOf, h]

section
variable {s : State} {o : MemOp} {gl pa : Nat} (hown : laneOwn s o gl pa false = false) (hpend : lanePending s o gl pa false = false)
  (hcc : ∀ x ∈ (clusterOf s o.cluster).cc, ¬ (x.line = pa / 128 ∧ x.tenant = o.tenant)) (hroom : coreSent s o.core < 2048)
include hown hpend hcc hroom

theorem localLoad_uncached (n : Nat) :
    localLoad s o gl pa n 3 false = .sent (laneReq s o gl (homeSlice pa) pa 3 false (.read n)) := by
  simp [localLoad, hown, ccFlush_none hcc, hpend, askLane, Nat.not_le.mpr hroom]

theorem localStore_uncached (b : List Byte) :
    localStore s o gl pa 3 false b = .sent (laneReq s o gl (homeSlice pa) pa 3 false (.write (cellsAt pa b))) := by
  simp [localStore, ccTakes, hown, ccFlush_none hcc, hpend, askLane, Nat.not_le.mpr hroom]

end

/-- An uncached load or store of a lane that nothing delays asks the home slice. -/
theorem sendLane_uncached {s : State} {o : MemOp} {x : MLane} {e : W64} {lev n pa : Nat} {rk : L2Kind} (hpa : leafPa e lev x.va = pa)
    (hfar : pteFar e = false) (hdev : isOwnDev s (pteDev e) = true) (hclass : pteCc e = 3) (hq : s.l2q = [])
    (halone : ∀ p ∈ s.memops, (p.tid ≠ o.tid ∧ p.id ≠ o.id) ∨ (p.id = o.id ∧ ∀ y ∈ p.lanes, x.gl ≤ y.gl))
    (hcc : ∀ y ∈ (clusterOf s o.cluster).cc, ¬ (y.line = pa / 128 ∧ y.tenant = o.tenant)) (hroom : coreSent s o.core < 2048)
    (hk : (o.kind = .load n false ∧ rk = .read n) ∨ (o.kind = .store n ∧ x.src.length = n ∧ rk = .write (cellsAt pa x.src))) :
    sendLane s o x e lev = .sent (laneReq s o x.gl (homeSlice pa) pa 3 false rk) := by
  have hown := laneOwn_none hq halone pa
  have hpend := lanePending_none hq halone pa
  obtain ⟨hk, rfl⟩ | ⟨hk, rfl, rfl⟩ := hk
  · simp [sendLane, hk, sendLoad, hpa, hfar, hdev, effClass_uncached s o hclass, localLoad_uncached hown hpend hcc hroom]
  · simp [sendLane, hk, sendStore, hpa, hfar, hdev, effClass_uncached s o hclass, localStore_uncached hown hpend hcc hroom]

/-! ## The operation of a Prefect's load or store -/

/-- The operation that a load or store of a Prefect issues. -/
def prefOp (s : State) (p : Pref) (i : Instr) (va : W64) (src : List Byte) (dests : List Nat) : MemOp :=
  { id := s.nextId, core := p.team.core, tid := p.team.tid, gid := p.grid.gid, tenant := p.grid.tenant, asid := p.grid.asid, pf := true,
    gang := 0, slices := [], word := s.word, instr := i, pc := p.team.pf.pc, mode := 0, lanes := [{ gl := 0, va, src }], dests,
    issued := s.clock.cycle }

theorem raceOn_pref (s : State) {o : MemOp} (h : o.pf = true) : raceOn s o = none := by simp [raceOn, h]

/-- A translated lane of a Prefect whose request is sent waits for one answer. -/
theorem applyTr_pref_sent {s v : State} {o : MemOp} {x : MLane} {e : W64} {lev : Nat} (ho : findOp s o.id = some o) (hp : o.pf = true)
    (hx : o.lane x.gl = some x) (hv : sendLane (updLane s o.id x.gl (fun y => { y with level := lev })) o x e lev = .sent v) :
    applyTr s o.id x.gl (.ok e lev) = setLaneSt v o.id x.gl (.sent 1) := by
  simp [applyTr, ho, hx, shadowHold, raceOn_pref _ hp, hv, raceLane, applyOut]

theorem settleOp_open {s : State} {id : Nat} {o : MemOp} (h : findOp s id = some o) (hf : o.final = false) : settleOp s id = s := by
  simp [settleOp, h, hf]

section
variable {s : State} {p : Pref} (h : PrefReady s p)

theorem PrefReady.noneOpen (h : PrefReady s p) : s.memops.any (fun o => o.pf && o.tid == p.team.tid) = false :=
  List.any_eq_false.mpr (fun o ho => by simp [h.memops o ho])

variable {i : Instr} {k : MKind} (hk : kindOf i 0 = some k) {a d : SReg} {disp : W64} {store : Bool}
include h hk

theorem prefAccess_misaligned (hn : (rdS p.team.pf a.toNat + disp).toNat % k.bytes ≠ 0) :
    prefAccess i a disp d store s = .next (raisePref s p fcMisalign 0 0 (rdS p.team.pf a.toNat + disp)) := by
  rw [prefAccess, withPref_ready h]
  simp only [h.noneOpen, hk, hn, Option.getD_some, ne_eq, not_false_eq_true, Bool.false_eq_true, if_false, if_true]

variable (hn : (rdS p.team.pf a.toNat + disp).toNat % k.bytes = 0)
include hn

theorem prefAccess_fault {c x lev : Nat} (hc : c ≠ fcPageElsewhere)
    (hx : xlateNow s p.team.core p.grid.asid p.grid.tenant (rdS p.team.pf a.toNat + disp) k.acc false = (.fault c x lev, s)) :
    prefAccess i a disp d store s = .next (raisePref s p c x lev (rdS p.team.pf a.toNat + disp)) := by
  rw [prefAccess, withPref_ready h]
  simp only [h.noneOpen, hk, hn, hx, hc, Option.getD_some, ne_eq, not_true_eq_false, false_and, Bool.false_eq_true, if_false]

/-- A load or store whose address translates to uncached memory of this device sends one request to the home slice, and the Prefect
waits. -/
theorem prefAccess_sends {e : W64} {lev pa : Nat} (hpa : leafPa e lev (rdS p.team.pf a.toNat + disp) = pa)
    (hx : xlateNow s p.team.core p.grid.asid p.grid.tenant (rdS p.team.pf a.toNat + disp) k.acc false = (.ok e lev, s))
    (hfresh : ∀ o ∈ s.memops, o.id ≠ s.nextId) (hfar : pteFar e = false) (hown : isOwnDev s (pteDev e) = true) (hcc : pteCc e = 3)
    (hroom : coreSent s p.team.core < 2048)
    (hcache : ∀ x ∈ (clusterOf s (clusterOfCore p.team.core)).cc, ¬ (x.line = pa / 128 ∧ x.tenant = p.grid.tenant))
    (hq : s.l2q = []) {rk : L2Kind}
    (hkind : k = .load k.bytes false ∧ rk = .read k.bytes ∨
      k = .store k.bytes ∧ store = true ∧ rk = .write (cellsAt pa (bytesLE k.bytes (rdS p.team.pf d.toNat).toNat))) :
    ∃ t o r, prefAccess i a disp d store s = .next t ∧ t.memops = s.memops ++ [o] ∧ t.l2q = [r] ∧ o.pf = true ∧ o.tid = p.team.tid ∧
      o.dests = (if store then [] else [d.toNat]) ∧ r.ref = .lane o.id 0 ∧ r.pa = pa ∧ r.sl = homeSlice pa ∧ r.kind = rk ∧
      PrefBecomes { s with memops := t.memops, l2q := t.l2q, nextId := t.nextId } p t { p.team.pf with st := .scoreboard } := by
  have he : prefAccess i a disp d store s = .next (settleOp (applyTr (prefStall { s with
      memops := s.memops ++ [prefOp s p i (rdS p.team.pf a.toNat + disp)
        (if store then bytesLE k.bytes (rdS p.team.pf d.toNat).toNat else []) (if store then [] else [d.toNat])]
      nextId := s.nextId + 1 } p .scoreboard) s.nextId 0 (.ok e lev)) s.nextId) := by
    rw [prefAccess, withPref_ready h]
    simp only [h.noneOpen, hk, hn, hx, Option.getD_some, ne_eq, not_true_eq_false, Bool.false_eq_true, if_false, prefOp]
  rw [he]
  clear he
  generalize hsrc : (if store then bytesLE k.bytes (rdS p.team.pf d.toNat).toNat else []) = src
  generalize (if store then [] else [d.toNat]) = dests
  generalize ho : prefOp s p i (rdS p.team.pf a.toNat + disp) src dests = o
  generalize hu : prefStall { s with memops := s.memops ++ [o], nextId := s.nextId + 1 } p .scoreboard = u
  have hid : o.id = s.nextId := ho ▸ rfl
  have hlane : o.lanes = [{ gl := 0, va := rdS p.team.pf a.toNat + disp, src }] := ho ▸ rfl
  have hum : u.memops = s.memops ++ [o] := hu ▸ rfl
  have hnew : ∀ q ∈ s.memops, q.id ≠ o.id := hid ▸ hfresh
  have hv := updLane_last hum hnew hlane rfl (fun y => { y with level := lev })
  generalize hlev : updLane u o.id 0 (fun y => { y with level := lev }) = v at hv
  have hvq : v.l2q = [] := hv ▸ hu ▸ hq
  have hsend : sendLane v o { gl := 0, va := rdS p.team.pf a.toNat + disp, src } e lev = .sent (laneReq v o 0 (homeSlice pa) pa 3 false rk) := by
    have hvm : v.memops = s.memops ++ [{ o with lanes := [{ gl := 0, va := rdS p.team.pf a.toNat + disp, src, level := lev }] }] :=
      hv ▸ rfl
    have halone : ∀ q ∈ v.memops, (q.tid ≠ o.tid ∧ q.id ≠ o.id) ∨ (q.id = o.id ∧ ∀ x ∈ q.lanes, 0 ≤ x.gl) := by
      rw [hvm]
      refine List.forall_mem_append.mpr ⟨fun q hq => .inl ⟨?_, hnew q hq⟩, fun q hq => .inr ⟨?_, fun _ _ => Nat.zero_le _⟩⟩
      · exact ho ▸ h.memops q hq
      · rw [List.mem_singleton.mp hq]
    have hvroom : coreSent v o.core < 2048 := by
      rw [coreSent_unsent hvm (fun x hx => by rw [List.mem_singleton.mp hx])]
      exact ho ▸ hroom
    have hvcache : ∀ x ∈ (clusterOf v o.cluster).cc, ¬ (x.line = pa / 128 ∧ x.tenant = o.tenant) := hv ▸ hu ▸ ho ▸ hcache
    have hvown : isOwnDev v (pteDev e) = true := hv ▸ hu ▸ hown
    have hok : o.kind = k := by rw [← ho, MemOp.kind, prefOp, hk, Option.getD_some]
    refine sendLane_uncached (n := k.bytes) hpa hfar hvown hcc hvq halone hvcache hvroom ?_
    obtain ⟨hl, hrk⟩ | ⟨hl, hs, hrk⟩ := hkind
    · exact .inl ⟨hok.trans hl, hrk⟩
    · rw [if_pos hs] at hsrc
      subst hsrc
      exact .inr ⟨hok.trans hl, length_bytesLE .., hrk⟩
  have happ : applyTr u o.id 0 (.ok e lev) = setLaneSt (laneReq v o 0 (homeSlice pa) pa 3 false rk) o.id 0 (.sent 1) :=
    applyTr_pref_sent (x := { gl := 0, va := rdS p.team.pf a.toNat + disp, src }) (findOp_last hum hnew) (ho ▸ rfl) (by simp [MemOp.lane, hlane])
      (hlev ▸ hsend)
  generalize hw : laneReq v o 0 (homeSlice pa) pa 3 false rk = w at happ
  have hwm : w.memops = s.memops ++ [{ o with lanes := [{ gl := 0, va := rdS p.team.pf a.toNat + disp, src, level := lev }] }] := by
    rw [← hw, hv]; rfl
  obtain ⟨r, hr, href, hrpa, hsl, hrk⟩ : ∃ r, w.l2q = [r] ∧ r.ref = .lane o.id 0 ∧ r.pa = pa ∧ r.sl = homeSlice pa ∧ r.kind = rk := by
    rw [← hw, laneReq, postReq, hvq]
    exact ⟨_, rfl, rfl, rfl, rfl, rfl⟩
  obtain ⟨o', ho'⟩ : ∃ o', o' = { o with lanes := [{ gl := 0, va := rdS p.team.pf a.toNat + disp, src, level := lev, st := .sent 1 }] } :=
    ⟨_, rfl⟩
  have hid' : o'.id = o.id := ho' ▸ rfl
  have ht : setLaneSt w o.id 0 (.sent 1) = { w with memops := s.memops ++ [o'] } := ho' ▸ updLane_last hwm hnew rfl rfl _
  have hdone : settleOp { w with memops := s.memops ++ [o'] } o.id = { w with memops := s.memops ++ [o'] } :=
    settleOp_open (hid' ▸ findOp_last (o := o') rfl (hid' ▸ hnew)) (ho' ▸ rfl)
  refine ⟨{ w with memops := s.memops ++ [o'] }, o', r, ?_, rfl, hr, ?_, ?_, ?_, hid' ▸ href, hrpa, hsl, hrk, ?_⟩
  · rw [← hid, happ, ht, hdone]
  · rw [ho', ← ho]; rfl
  · rw [ho', ← ho]; rfl
  · rw [ho', ← ho]; rfl
  · exact ⟨fun q => { q with st := .scoreboard }, by rw [← hw, hv, ← hu]; rfl, rfl⟩

end

theorem sdisp_eq (i : BitVec 10) (n : Nat) : sdisp i n = dispBytes i n := by
  rw [sdisp, dispBytes, BitVec.signExtend, BitVec.ofInt_mul, BitVec.ofInt_natCast]

/-- The instructions of `sAccesses` that go to global memory are accesses of the Prefect of one kind each. -/
theorem sAccesses_global {A} (hA : A ∈ sAccesses) (hg : A.2.2.2 = false) (d a : SReg) (i : BitVec 10) :
    ∃ k : MKind, kindOf (A.1 d a i) 0 = some k ∧ k.bytes = A.2.1 ∧ k.acc = (if A.2.2.1 then .write else .read) ∧
      (A.2.2.1 = false ∧ k = .load A.2.1 false ∨ A.2.2.1 = true ∧ k = .store A.2.1) ∧
      ∀ s, exec (A.1 d a i) s = prefAccess (A.1 d a i) a (dispBytes i A.2.1) d A.2.2.1 s := by
  simp only [sAccesses, List.mem_cons, List.not_mem_nil, or_false] at hA
  obtain rfl | rfl | rfl | rfl | rfl | rfl | rfl | rfl := hA
  · exact ⟨.load 8 false, rfl, rfl, rfl, .inl ⟨rfl, rfl⟩, fun _ => sdisp_eq i 8 ▸ rfl⟩
  · exact ⟨.store 8, rfl, rfl, rfl, .inr ⟨rfl, rfl⟩, fun _ => sdisp_eq i 8 ▸ rfl⟩
  · exact ⟨.load 4 false, rfl, rfl, rfl, .inl ⟨rfl, rfl⟩, fun _ => sdisp_eq i 4 ▸ rfl⟩
  · exact ⟨.store 4, rfl, rfl, rfl, .inr ⟨rfl, rfl⟩, fun _ => sdisp_eq i 4 ▸ rfl⟩
  all_goals cases hg

theorem xlateNow_notCanonical {s : State} {core asid ten : Nat} {va : W64} {acc : Acc} (hc : canonical va = false) :
    xlateNow s core asid ten va acc false = (.fault fcPageAbsent 1 0, s) := by
  rw [xlateNow, hc]
  rfl

/-- Settles O28: by the alignment of the address, then by what its translation answers. -/
theorem prefectMemory : Obligations.PrefectMemory := by
  intro s p h hfresh A hA hg d a i n va tr
  obtain ⟨k, hk, hn, hacc, hkind, hexec⟩ := sAccesses_global hA hg d a i
  rw [hexec]
  have hx {r : Tr} (hc : canonical va = true) (hr : tr = some r) :
      xlateNow s p.team.core p.grid.asid p.grid.tenant va k.acc false = (r, s) := hacc ▸ xlateNow_hit hc hr
  have hon (hm : va.toNat % n = 0) : va.toNat % k.bytes = 0 := hn.symm ▸ hm
  refine ⟨fun hm => ?misaligned, fun hm hc => ?notCanonical, fun hm hc c x lev hr hne => ?fault,
    fun hm hc e lev hr hfar hown hcc hroom hcache hq => ?sent⟩
  case misaligned => exact prefAccess_misaligned h hk (hn.symm ▸ hm : va.toNat % k.bytes ≠ 0)
  case notCanonical => exact prefAccess_fault h hk (hon hm) (by decide) (xlateNow_notCanonical hc)
  case fault => exact prefAccess_fault h hk (hon hm) hne (hx hc hr)
  case sent =>
    obtain ⟨t, o, r, he, hm, hl, hp, htid, hd, href, hpa, hsl, hrk, ht⟩ :=
      prefAccess_sends (rk := if A.2.2.1 then .write (cellsAt (leafPa e lev va) (bytesLE n (rdS p.team.pf d.toNat).toNat)) else .read n)
        h hk (hon hm) rfl (hx hc hr) hfresh hfar hown hcc hroom hcache hq (by
          obtain ⟨hs, hk⟩ | ⟨hs, hk⟩ := hkind
          · exact .inl ⟨by rw [hn]; exact hk, (if_neg (by simp [hs])).trans (by rw [hn])⟩
          · exact .inr ⟨by rw [hn]; exact hk, hs, (if_pos hs).trans (by rw [hn])⟩)
    exact ⟨t, o, r, he, hm, hl, hp, htid, hd, href, hpa, hsl, hrk, ht⟩

end Sys2Proof.Machine
end

section
/-! SUPPORT. Walks that lanes queue, and prefetches (R25, R29, R108, R399). -/

namespace Sys2Proof.Machine
-- One declaration after the other: in parallel, the threads' stacks pass the check's memory limit.
set_option Elab.async false
open Sys2Proof.Claims

/-! ## Active lanes and their operands, of a cohort that nothing holds -/

section
variable {s : State} {g : Gang} (h : GangReady s g)
include h

theorem activeLanes_ready (w : Nat) : activeLanes g w = lanesOf g :=
  List.flatMap_congr (fun p hp => by rw [List.filter_congr (fun l _ => laneActive_ready h hp w l)])

theorem mem_lanesOf {q : Nat × Slice × Nat} (hq : q ∈ lanesOf g) : (q.1, q.2.1) ∈ g.sl ∧ q.2.2 < 4 := by
  rw [← activeLanes_ready h 1] at hq
  exact ⟨(activeLanes_mem.mp hq).1, (activeLanes_mem.mp hq).2.1⟩

theorem readV_ready {q : Nat × Slice × Nat} (hq : q ∈ lanesOf g) (r c : Nat) : readV q.2.1 r q.2.2 c = rdV q.2.1 r q.2.2 := by
  obtain ⟨-, -, hp, -⟩ := h.slices _ (mem_lanesOf h hq).1
  simp [readV, pendOld, show q.2.1.pend = [] from hp]

theorem pairVal_ready {q : Nat × Slice × Nat} (hq : q ∈ lanesOf g) (a : VReg) (c : Nat) :
    pairVal q.2.1 a.toNat q.2.2 c = pairOf q.2.1 a q.2.2 := by
  simp only [pairVal, pairOf, readV_ready h hq]

/-- An instruction that changed nothing of a slice but moved it on. -/
theorem GangGoes.onlyPc {u t : State} {w : Nat} (ht : GangGoes u g t (fun _ sl sl' => ∃ c, sl' = { advance w sl with cohort := c })) :
    GangGoes u g t (fun _ sl sl' => OnlyPc sl sl') :=
  ht.mono (fun p hp sl' hsl => by
    obtain ⟨c, rfl⟩ := hsl
    have hst := (h.slices p hp).1
    simp [OnlyPc, sameTurn, advance, hst])

end

/-! ## Walks that join the walker of a cluster (R25) -/

/-- The walker holds a walk of this kind and operation for the page, or it is full. -/
def Walking (l : List Walk) (kind op : Nat) (va : W64) : Prop :=
  16 ≤ l.length ∨ ∃ w ∈ l, w.kind = kind ∧ w.op = op ∧ bits 63 16 w.va = bits 63 16 va

theorem Walking.append {l l' : List Walk} {kind op : Nat} {va : W64} (h : Walking l kind op va) : Walking (l ++ l') kind op va :=
  h.imp (fun h => by rw [List.length_append]; omega) (fun ⟨w, hw, h⟩ => ⟨w, List.mem_append_left _ hw, h⟩)

theorem walksJoin_nil (s : State) (c : Nat) : WalksJoin s c s.clusters [] := fun k => by
  split
  · next hk => subst hk; simp [clusterOf]
  · rfl

section
variable {s u : State} {c : Nat} {ws : List Walk} (hj : WalksJoin s c u.clusters ws)
include hj

theorem walks_of_joins : (clusterOf u c).walks = (clusterOf s c).walks ++ ws := by
  rw [clusterOf, hj c, if_pos rfl]

/-- Only walks of the cluster changed, so the buffers hold what they held. -/
theorem tlb_of_joins (k : Nat) : (clusterOf u k).tlb = (clusterOf s k).tlb := by
  rw [clusterOf, hj k]
  split
  · next hk => rw [hk]
  · rfl

/-- A walk that is queued joins the walks as far as the walker has room. -/
theorem queueWalk_joins (w : Walk) (hc : clusterOfCore w.core = c) :
    ∃ ws', queueWalk u w = { u with clusters := (queueWalk u w).clusters } ∧ WalksJoin s c (queueWalk u w).clusters (ws ++ ws') ∧
      Walking ((clusterOf s c).walks ++ (ws ++ ws')) w.kind w.op w.va := by
  subst hc
  unfold queueWalk
  split
  · next hroom =>
    refine ⟨[w], rfl, fun k => ?_, .inr ⟨w, by simp, rfl, rfl, rfl⟩⟩
    rw [updCluster, tget_tset]
    split
    · simp only [clusterOf, hj (clusterOfCore w.core), if_true, List.append_assoc]
    · next hk => rw [hj k, if_neg hk]
  · next hroom =>
    refine ⟨[], rfl, by rwa [List.append_nil], ?_⟩
    simp only [walkRoom, walks_of_joins hj, Bool.and_eq_true, decide_eq_true_eq, Bool.not_eq_true', not_and, Bool.not_eq_false, List.any_eq_true,
      beq_iff_eq] at hroom
    rw [List.append_nil]
    by_cases hl : ((clusterOf s (clusterOfCore w.core)).walks ++ ws).length < 16
    · obtain ⟨x, hx, ⟨⟨⟨⟨hk, ho⟩, -⟩, hv⟩, -⟩⟩ := hroom hl
      exact .inr ⟨x, hx, hk, ho, hv⟩
    · exact .inl (Nat.not_lt.mp hl)

end

/-- A look-up of the buffers does not see walks, operations in flight or requests. -/
theorem tlbTry_joins {s u : State} {c : Nat} {ws : List Walk} (hj : WalksJoin s c u.clusters ws)
    (hu : u = { s with clusters := u.clusters, memops := u.memops, l2q := u.l2q, nextId := u.nextId })
    (core asid ten : Nat) (va : W64) (acc : Acc) : tlbTry u core asid ten va acc = tlbTry s core asid ten va acc := by
  have hf : tlbFind u core asid va = tlbFind s core asid va := by
    rw [tlbFind, tlb_of_joins hj, hu]; rfl
  rw [tlbTry, hf, hu]
  rfl

/-! ## Prefetches (R29, R399) -/

/-- A prefetch adds one request to the queues, or nothing. -/
theorem prefSend_adds (s : State) (core ten : Nat) (va e : W64) (level cls : Nat) (near : Bool) :
    ∃ rs, prefSend s core ten va e level cls near = { s with l2q := s.l2q ++ rs, nextId := s.nextId + rs.length } ∧ ∀ r ∈ rs, r.kind = .pref := by
  unfold prefSend prefReq
  extract_lets cl pa remote c c' r
  clear_value c'
  split
  · exact ⟨[], by simp, by simp⟩
  · exact ⟨[_], rfl, fun r hr => by rw [List.mem_singleton.mp hr]; rfl⟩

/-- One to a near page of the own die that may be cached adds its request. -/
theorem prefSend_near {s : State} {core : Nat} {va e : W64} {level cls : Nat} (hn : isOwnDev s (pteDev e) = true ∧ pteFar e = false)
    (hd : homeDie (leafPa e level va) = clusterOfCore core / 64) (hc : classOf e cls ≠ 3) (ten : Nat) (near : Bool) :
    ∃ r, prefSend s core ten va e level cls near = { s with l2q := s.l2q ++ [r], nextId := s.nextId + 1 } ∧ r.kind = .pref ∧
      r.pa = leafPa e level va ∧ r.sl = 96 * (clusterOfCore core / 64) + l2Slice (leafPa e level va) ∧ r.cluster = clusterOfCore core ∧
      r.owner.2 = if near && classOf e cls = 0 then 1 else 0 := by
  obtain ⟨hown, hfar⟩ := hn
  unfold prefSend prefReq
  simp only [hown, hfar, hd, hc, bne_self_eq_false, Bool.or_self, Bool.false_and, Bool.false_eq_true, if_false, Bool.not_true,
    decide_false, Option.getD_some, Bool.not_false, Bool.and_true]
  exact ⟨_, rfl, rfl, rfl, rfl, rfl, rfl⟩

/-- What PREF does in a lane with this address. -/
def prefLane (g : Gang) (l : BitVec 1) (s : State) (va : W64) : State :=
  if !canonical va then s
  else match tlbTry s g.team.core g.grid.asid g.grid.tenant va .read with
    | none => queueWalk s ⟨g.grid.asid, g.grid.tenant, va, if l = 1 then 3 else 0, modeCc g.mode, g.team.core⟩
    | some (.ok e level) => prefSend s g.team.core g.grid.tenant va e level (modeCc g.mode) (l = 0)
    | some (.fault _ _ _) => s
    | some (.zero _) => s
    | some .wait => s

theorem execPref_ready {s : State} {g : Gang} (h : GangReady s g) {a : VReg} (l : BitVec 1) (ha : a.toNat % 2 = 0) (hn : a.toNat + 1 < g.team.nregs) :
    exec (.pref a l) s = .next (finish ((lanesOf g).foldl (fun s q => prefLane g l s (pairOf q.2.1 a q.2.2)) s) g 1 none (fun _ sl => sl)) := by
  rw [exec, execPref, withGang_ready h]
  simp only [h.notAhead, ha, hn, prelude_ready h, decide_true, BEq.rfl, Bool.and_self, Bool.not_true, Bool.false_eq_true, if_false,
    Bool.false_and, Bool.false_or, activeLanes_ready h]
  refine congrArg (fun t => Host.Outcome.next (finish t g 1 none (fun _ sl => sl))) ?_
  refine List.foldl_ext _ _ _ (fun t q hq => ?_)
  have hva : (MSpec.lane { instr := .pref a l, a := a.toNat, act := .loads } g q).va = pairOf q.2.1 a q.2.2 := by
    simp [MSpec.lane, pairVal_ready h hq]
  rw [hva]
  rfl

theorem execPref_illegal {s : State} {g : Gang} (h : GangReady s g) {a : VReg} (l : BitVec 1) (ha : a.toNat % 2 = 1 ∨ g.team.nregs ≤ a.toNat + 1) :
    exec (.pref a l) s = .next (illegalGang s g) := by
  have hok : (decide (a.toNat + 1 < g.team.nregs) && a.toNat % 2 == 0) = false := by
    rw [Bool.and_eq_false_iff, decide_eq_false_iff_not, beq_eq_false_iff_ne]
    omega
  rw [exec, execPref, withGang_ready h]
  simp only [h.notAhead, hok, Bool.not_false, Bool.false_eq_true, if_false, if_true]

/-- Walks `ws` and prefetches `rs` were added, and nothing else changed. -/
structure Prefetched (s u : State) (c : Nat) (ws : List Walk) (rs : List L2Req) : Prop where
  state : u = { s with clusters := u.clusters, l2q := s.l2q ++ rs, nextId := s.nextId + rs.length }
  joins : WalksJoin s c u.clusters ws
  prefs : ∀ r ∈ rs, r.kind = .pref

/-- What PREF owes a lane with this address. -/
def LanePrefetched (s : State) (g : Gang) (l : BitVec 1) (ws : List Walk) (rs : List L2Req) (va : W64) : Prop :=
  let c := clusterOfCore g.team.core
  let look := tlbTry s g.team.core g.grid.asid g.grid.tenant va .read
  canonical va = true →
    (look = none → Walking ((clusterOf s c).walks ++ ws) (if l = 1 then 3 else 0) (modeCc g.mode) va) ∧
    ∀ e lev, look = some (.ok e lev) → nearPage s e → homeDie (leafPa e lev va) = c / 64 → classOf e (modeCc g.mode) ≠ 3 →
      ∃ r ∈ rs, r.pa = leafPa e lev va ∧ r.sl = 96 * (c / 64) + l2Slice (leafPa e lev va) ∧ r.cluster = c ∧
        (r.owner.2 = 1 ↔ l = 0 ∧ classOf e (modeCc g.mode) = 0)

theorem LanePrefetched.append {s : State} {g : Gang} {l : BitVec 1} {ws : List Walk} {rs : List L2Req} {va : W64}
    (h : LanePrefetched s g l ws rs va) (ws' : List Walk) (rs' : List L2Req) : LanePrefetched s g l (ws ++ ws') (rs ++ rs') va := by
  intro hc
  obtain ⟨hw, hr⟩ := h hc
  refine ⟨fun hl => List.append_assoc _ _ _ ▸ (hw hl).append, fun e lev hl hn hd hcl => ?_⟩
  obtain ⟨r, hr, h⟩ := hr e lev hl hn hd hcl
  exact ⟨r, List.mem_append_left _ hr, h⟩

section
variable {s u : State} {c : Nat} {ws : List Walk} {rs : List L2Req} (hu : Prefetched s u c ws rs)
include hu

theorem Prefetched.sends {rs' : List L2Req} (hp : ∀ r ∈ rs', r.kind = .pref) :
    Prefetched s { u with l2q := u.l2q ++ rs', nextId := u.nextId + rs'.length } c ws (rs ++ rs') := by
  refine ⟨?_, hu.joins, List.forall_mem_append.mpr ⟨hu.prefs, hp⟩⟩
  rw [hu.state, List.append_assoc, List.length_append, Nat.add_assoc]

theorem Prefetched.queues (w : Walk) (hc : clusterOfCore w.core = c) :
    ∃ ws', Prefetched s (queueWalk u w) c (ws ++ ws') rs ∧ Walking ((clusterOf s c).walks ++ (ws ++ ws')) w.kind w.op w.va := by
  obtain ⟨ws', hst, hj, hw⟩ := queueWalk_joins hu.joins w hc
  refine ⟨ws', ⟨?_, hj, hu.prefs⟩, hw⟩
  rw [hst, hu.state]

end

/-- PREF does in each lane what it owes it. -/
theorem prefLane_prefetched {s u : State} {g : Gang} {ws : List Walk} {rs : List L2Req} (hu : Prefetched s u (clusterOfCore g.team.core) ws rs)
    (l : BitVec 1) (va : W64) : ∃ ws' rs', Prefetched s (prefLane g l u va) (clusterOfCore g.team.core) (ws ++ ws') (rs ++ rs') ∧
      LanePrefetched s g l (ws ++ ws') (rs ++ rs') va := by
  have hlook : tlbTry u g.team.core g.grid.asid g.grid.tenant va .read = tlbTry s g.team.core g.grid.asid g.grid.tenant va .read :=
    tlbTry_joins hu.joins (by rw [hu.state]) ..
  by_cases hc : canonical va = true
  case neg =>
    refine ⟨[], [], ?_, fun h => absurd h hc⟩
    simpa [prefLane, hc] using hu
  unfold LanePrefetched prefLane
  simp only [hc, hlook, Bool.not_true, Bool.false_eq_true, if_false, true_imp_iff]
  generalize tlbTry s g.team.core g.grid.asid g.grid.tenant va .read = look
  match look with
  | none =>
    obtain ⟨ws', hw, hwalk⟩ := hu.queues ⟨g.grid.asid, g.grid.tenant, va, if l = 1 then 3 else 0, modeCc g.mode, g.team.core⟩ rfl
    exact ⟨ws', [], by simpa using hw, fun _ => hwalk, fun _ _ h => by cases h⟩
  | some (.ok e lev) =>
    dsimp only
    by_cases hn : nearPage s e ∧ homeDie (leafPa e lev va) = clusterOfCore g.team.core / 64 ∧ classOf e (modeCc g.mode) ≠ 3
    case pos =>
      obtain ⟨hnear, hd, hcl⟩ := hn
      have hnear : isOwnDev u (pteDev e) = true ∧ pteFar e = false := by rw [hu.state]; exact hnear
      obtain ⟨r, hr, hk, hpa, hsl, hcc, ho⟩ := prefSend_near hnear hd hcl g.grid.tenant (l = 0)
      refine ⟨[], [r], ?_, fun h => (by cases h), fun _ _ h _ _ _ => ⟨r, by simp, ?_⟩⟩
      · rw [hr, List.append_nil]
        exact hu.sends (rs' := [r]) (by simpa using hk)
      · cases h
        refine ⟨hpa, hsl, hcc, ?_⟩
        rw [ho]
        simp
    case neg =>
      obtain ⟨rs', hr, hk⟩ := prefSend_adds u g.team.core g.grid.tenant va e lev (modeCc g.mode) (l = 0)
      refine ⟨[], rs', ?_, fun h => (by cases h), fun _ _ h hnear hd hcl => ?_⟩
      · rw [hr, List.append_nil]
        exact hu.sends hk
      · cases h
        exact absurd ⟨hnear, hd, hcl⟩ hn
  | some (.fault _ _ _) => exact ⟨[], [], by simpa using hu, fun h => (by cases h), fun _ _ h => by cases h⟩
  | some (.zero _) => exact ⟨[], [], by simpa using hu, fun h => (by cases h), fun _ _ h => by cases h⟩
  | some .wait => exact ⟨[], [], by simpa using hu, fun h => (by cases h), fun _ _ h => by cases h⟩

/-- PREF's lanes one after the other. -/
theorem prefLanes_prefetched {s u : State} {g : Gang} {ws : List Walk} {rs : List L2Req} (hu : Prefetched s u (clusterOfCore g.team.core) ws rs)
    (l : BitVec 1) {α : Type} (va : α → W64) (L : List α) :
    ∃ ws' rs', Prefetched s (L.foldl (fun s q => prefLane g l s (va q)) u) (clusterOfCore g.team.core) (ws ++ ws') (rs ++ rs') ∧
      ∀ q ∈ L, LanePrefetched s g l (ws ++ ws') (rs ++ rs') (va q) := by
  induction L generalizing u ws rs with
  | nil => exact ⟨[], [], by simpa using hu, by simp⟩
  | cons q L ih =>
    obtain ⟨ws1, rs1, hu1, h1⟩ := prefLane_prefetched hu l (va q)
    obtain ⟨ws2, rs2, hu2, h2⟩ := ih hu1
    rw [List.append_assoc, List.append_assoc] at hu2
    refine ⟨ws1 ++ ws2, rs1 ++ rs2, hu2, List.forall_mem_cons.mpr ⟨?_, fun p hp => ?_⟩⟩
    · rw [← List.append_assoc, ← List.append_assoc]
      exact h1.append ws2 rs2
    · rw [← List.append_assoc, ← List.append_assoc]
      exact h2 p hp

/-- Settles O33: by induction on the active lanes, each of which adds at most a walk or a request. -/
theorem prefetchIsNoAccess : Obligations.PrefetchIsNoAccess := by
  intro s g a l h c va look
  refine ⟨fun ha hn => ?_, execPref_illegal h l⟩
  have h0 : Prefetched s s c [] [] := ⟨by simp, walksJoin_nil s c, by simp⟩
  obtain ⟨ws, rs, ⟨hst, hj, hp⟩, hlanes⟩ := prefLanes_prefetched h0 l va (lanesOf g)
  have he := execPref_ready h l ha hn
  change exec (.pref a l) s = .next (finish ((lanesOf g).foldl (fun s q => prefLane g l s (va q)) s) g 1 none (fun _ sl => sl)) at he
  generalize (lanesOf g).foldl (fun s q => prefLane g l s (va q)) s = u at hst hj he
  rw [List.nil_append] at hj hp hlanes hst
  rw [List.nil_append] at hlanes
  refine ⟨_, u.clusters, ws, rs, he, ?_, hj, hp, fun q hq hc => ?_⟩
  · rw [← hst]
    exact (finish_goes h.notAhead 1 none (fun _ sl => sl)).onlyPc h
  · obtain ⟨hw, hr⟩ := hlanes q hq hc
    exact ⟨fun hl => (hw hl).imp_right (fun ⟨w, hm, hk, _, hv⟩ => ⟨w, hm, hk, hv⟩), hr⟩

end Sys2Proof.Machine
end

section
/-! SUPPORT. Memory instructions of gangs whose translations miss (R25, R243, R294, R385, R390 to R397). -/

namespace Sys2Proof.Machine
-- One declaration after the other: in parallel, the threads' stacks pass the check's memory limit.
set_option Elab.async false
open Sys2Proof.Claims

/-! ## The lanes of an operation in flight -/

section
variable {s : State} {g : Gang} (h : GangReady s g)
include h

/-- The active lanes of a cohort have different numbers in the gang. -/
theorem gangLane_inj {p q : Nat × Slice × Nat} (hp : p ∈ lanesOf g) (hq : q ∈ lanesOf g) (he : gangLane p.1 p.2.2 = gangLane q.1 q.2.2) : p = q := by
  obtain ⟨hps, hpl⟩ := mem_lanesOf h hp
  obtain ⟨hqs, hql⟩ := mem_lanesOf h hq
  have hph := h.home hps
  have hqh := h.home hqs
  rw [gangLane, gangLane] at he
  have hn : p.1 = q.1 := by omega
  have hl : p.2.2 = q.2.2 := by omega
  have hs : p.2.1 = q.2.1 := by
    rw [(theGang_sl h.here).1] at hps hqs
    obtain ⟨_, _, _, hpf⟩ := cohortOf_home hps
    obtain ⟨_, _, _, hqf⟩ := cohortOf_home hqs
    exact Option.some.inj (hpf.symm.trans ((congrArg (fun n => tfind n _) hn).trans hqf))
  exact Prod.ext hn (Prod.ext hs hl)

theorem regBytes_ready {q : Nat × Slice × Nat} (hq : q ∈ lanesOf g) (r : VReg × Nat) (c : Nat) :
    regBytes q.2.1 (groupRegs r.1.toNat r.2) q.2.2 c = dataOf q.2.1 r q.2.2 := by
  simp only [regBytes, groupRegs, dataOf, List.flatMap_map, readV_ready h hq]

end

theorem lane_unique {o : MemOp} {l : MLane} (hl : l ∈ o.lanes) (hu : ∀ l' ∈ o.lanes, l'.gl = l.gl → l' = l) : o.lane l.gl = some l := by
  match hf : o.lane l.gl with
  | none => exact absurd BEq.rfl (List.find?_eq_none.mp hf l hl)
  | some l' =>
    have hgl : (l'.gl == l.gl) = true := List.find?_some (p := fun x : MLane => x.gl == l.gl) hf
    rw [hu l' (List.mem_of_find?_eq_some hf) (beq_iff_eq.mp hgl)]

/-- An access whose lanes go one by one through the translation to a request. -/
def MKind.plain : MKind → Bool
  | .load _ _ => true | .store _ => true | .ldt _ => true | .unpk => true | .atom _ _ _ => true | .ll _ => true | .sc _ => true
  | .lds _ _ => false | .sts _ => false | .sttr => false | .stm _ => false

/-- A lane of such an access whose translation misses queues its page's walk. -/
theorem stepLane_miss {u : State} {o : MemOp} {l : MLane} (ho : findOp u o.id = some o) (hk : o.kind.plain = true) (hl : o.lane l.gl = some l)
    (ht : l.st = .todo) (hc : canonical l.va = true) (hr : o.replayOf = none) (hm : tlbTry u o.core o.asid o.tenant l.va o.kind.acc = none) :
    stepLane o.id u l.gl = queueWalk u ⟨o.asid, o.tenant, l.va, 1, o.id, o.core⟩ := by
  unfold stepLane
  simp only [ho, hl, ht, ne_eq, not_true_eq_false, if_false]
  have hwalk : (if !canonical l.va then setLaneSt u o.id l.gl (.fault fcPageAbsent 1 0 l.va)
      else match (if o.replayOf.isSome then none else tlbTry u o.core o.asid o.tenant l.va o.kind.acc) with
        | some tr => applyTr u o.id l.gl tr
        | none => queueWalk u ⟨o.asid, o.tenant, l.va, 1, o.id, o.core⟩) = queueWalk u ⟨o.asid, o.tenant, l.va, 1, o.id, o.core⟩ := by
    simp only [hc, hr, hm, Bool.not_true, Bool.false_eq_true, if_false, Option.isSome_none]
  revert hwalk hk
  cases o.kind with
  | lds | sts | sttr | stm => exact fun hk => nomatch hk
  | _ => exact fun _ => id

section
variable {s : State} {o : MemOp} {c : Nat} (hid : o.id = s.nextId) (hfresh : ∀ p ∈ s.memops, p.id ≠ s.nextId) (hk : o.kind.plain = true)
  (hr : o.replayOf = none) (hc : clusterOfCore o.core = c)
  (hl : ∀ l ∈ o.lanes, o.lane l.gl = some l ∧ l.st = .todo ∧ canonical l.va = true ∧ tlbTry s o.core o.asid o.tenant l.va o.kind.acc = none)
include hid hfresh hk hr hc hl

/-- Lanes that all miss queue their pages' walks, as far as the walker has room, and nothing else happens. -/
theorem stepLanes_walk {u : State} {ws : List Walk}
    (hu : u = { s with memops := s.memops ++ [o], nextId := s.nextId + 1, clusters := u.clusters }) (hj : WalksJoin s c u.clusters ws)
    (L : List MLane) (hL : ∀ l ∈ L, l ∈ o.lanes) :
    ∃ ws' v, (L.map MLane.gl).foldl (stepLane o.id) u = v ∧
      v = { s with memops := s.memops ++ [o], nextId := s.nextId + 1, clusters := v.clusters } ∧ WalksJoin s c v.clusters (ws ++ ws') ∧
      ∀ l ∈ L, Walking ((clusterOf s c).walks ++ (ws ++ ws')) 1 o.id l.va := by
  induction L generalizing u ws with
  | nil => exact ⟨[], u, rfl, hu, by rwa [List.append_nil], by simp⟩
  | cons l L ih =>
    obtain ⟨hlane, htodo, hcan, hmiss⟩ := hl l (hL l List.mem_cons_self)
    have ho : findOp u o.id = some o := findOp_last (by rw [hu]) (hid ▸ hfresh)
    have hmiss' : tlbTry u o.core o.asid o.tenant l.va o.kind.acc = none := (tlbTry_joins hj (by rw [hu]) ..).trans hmiss
    obtain ⟨ws1, hst, hj1, hw1⟩ := queueWalk_joins hj ⟨o.asid, o.tenant, l.va, 1, o.id, o.core⟩ hc
    have hu1 : queueWalk u ⟨o.asid, o.tenant, l.va, 1, o.id, o.core⟩ = { s with memops := s.memops ++ [o], nextId := s.nextId + 1, clusters := (queueWalk u ⟨o.asid, o.tenant, l.va, 1, o.id, o.core⟩).clusters } := by
      rw [hst, hu]
    obtain ⟨ws2, v, hv, hvs, hj2, hw2⟩ := ih hu1 hj1 (fun l hl => hL l (List.mem_cons_of_mem _ hl))
    rw [List.append_assoc] at hj2 hw2
    refine ⟨ws1 ++ ws2, v, ?_, hvs, hj2, List.forall_mem_cons.mpr ⟨?_, hw2⟩⟩
    · rw [List.map_cons, List.foldl_cons, stepLane_miss ho hk hlane htodo hcan hr hmiss', hv]
    · rw [← List.append_assoc, ← List.append_assoc]
      exact List.append_assoc _ ws ws1 ▸ hw1.append

/-- An operation all of whose lanes miss is in flight, and its walks are queued. -/
theorem startOp_misses (hne : o.lanes ≠ []) : ∃ ws cs, startOp s o = { s with memops := s.memops ++ [o], nextId := s.nextId + 1, clusters := cs } ∧
    WalksJoin s c cs ws ∧ ∀ l ∈ o.lanes, Walking ((clusterOf s c).walks ++ ws) 1 o.id l.va := by
  obtain ⟨ws, v, hv, hvs, hj, hw⟩ := stepLanes_walk hid hfresh hk hr hc hl
    (u := { s with memops := s.memops ++ [o], nextId := s.nextId + 1 }) rfl (walksJoin_nil s c) o.lanes (fun _ h => h)
  refine ⟨ws, v.clusters, ?_, hj, hw⟩
  have hfind (u : State) (hm : u.memops = s.memops ++ [o]) : findOp u o.id = some o := findOp_last hm (hid ▸ hfresh)
  have hsttr : o.kind ≠ .sttr := fun h => by rw [h] at hk; cases hk
  obtain ⟨l, hmem⟩ := List.exists_mem_of_ne_nil _ hne
  have hopen : o.final = false := List.all_eq_false.mpr ⟨l, hmem, by rw [(hl l hmem).2.1]; decide⟩
  rw [startOp, advanceOp, hfind _ rfl]
  simp only [hsttr, if_false, hv]
  rw [settleOp_open (hfind v (by rw [hvs])) hopen, ← hvs]

end

/-! ## A memory instruction of a gang that may issue -/

theorem misaligned_none {k : MKind} {l : MLane} (hk : k.plain = true) (h : l.va.toNat % k.bytes = 0) : misaligned k l = none := by
  cases k with
  | sttr | stm => exact nomatch hk
  | _ => exact if_neg (not_not.mpr h)

theorem markAlign_aligned {k : MKind} {ls : List MLane} (hk : k.plain = true) (h : ∀ l ∈ ls, l.va.toNat % k.bytes = 0) : markAlign k ls = ls := by
  have hmap : ls.map (fun l => match misaligned k l with | none => l | some va => { l with st := .fault fcMisalign 0 0 va }) = ls :=
    (List.map_congr_left (g := id) (fun l hl => by rw [misaligned_none hk (h l hl)]; rfl)).trans (List.map_id ls)
  cases k with
  | sttr => exact nomatch hk
  | _ => exact hmap

section
variable {s : State} {g : Gang} (h : GangReady s g) {sp : MSpec}
include h

theorem memInstr_illegal (hbad : (sp.enc && (sp.ok g.team.nregs g.mode && (kindOf sp.instr g.mode).isSome)) = false) :
    memInstr sp s = .next (illegalGang s g) := by
  rw [memInstr, withGang_ready h, memRun]
  simp only [h.notAhead, hbad, Bool.false_eq_true, if_false, Bool.not_false, if_true]

theorem memInstr_issues {k : MKind} (he : sp.enc = true) (hok : sp.ok g.team.nregs g.mode = true) (hk : kindOf sp.instr g.mode = some k)
    (hp : k.plain = true) (ha : ∀ q ∈ lanesOf g, (sp.lane g q).va.toNat % k.bytes = 0) :
    memInstr sp s = .next (finish (startOp s (mkOp s g sp ((lanesOf g).map (sp.lane g)))) g sp.wait none (fun _ sl => sl)) := by
  have hal : markAlign k ((lanesOf g).map (sp.lane g)) = (lanesOf g).map (sp.lane g) :=
    markAlign_aligned hp (List.forall_mem_map.mpr ha)
  rw [memInstr, withGang_ready h, memRun]
  simp only [h.notAhead, he, hok, hk, gangEntries_ready h, prelude_ready h, activeLanes_ready h, meetsEntry, hal, Option.isSome_some, Option.getD_some,
    Bool.and_self, Bool.not_true, Bool.false_eq_true, if_false, List.length_nil, List.any_nil, show ¬ 4 ≤ 0 by decide]

end

/-! ## The forms of the tables -/

/-- The first register of a group is a multiple of their number. -/
def groupAligned (r : VReg × Nat) : Prop := r.2 = 0 ∨ r.1.toNat % r.2 = 0

theorem groupOk_iff {N : Nat} {r : VReg × Nat} : groupOk N r ↔ groupAligned r ∧ ∀ y ∈ groupRegs r.1.toNat r.2, y < N := by
  simp only [groupOk, groupAligned, groupRegs, List.forall_mem_map, List.mem_range]
  constructor
  · rintro (h | ⟨h, hn⟩)
    · exact ⟨.inl h, fun j hj => by omega⟩
    · exact ⟨.inr h, fun j hj => by omega⟩
  · rintro ⟨h, hn⟩
    by_cases h0 : r.2 = 0
    · exact .inl h0
    · have := hn (r.2 - 1) (by omega)
      exact .inr ⟨h.resolve_left h0, by omega⟩

/-- The machine's checks and operands for an access of n bytes are those of the tables. -/
structure Sized (F : MForm) (x : MOps) (sp : MSpec) (m : W64) (n : Nat) : Prop where
  enc : sp.enc = true
  kind : ∃ k, kindOf (F.form x) m = some k ∧ k.plain = true ∧ k.bytes = n ∧ k.acc = F.acc
  legal : sp.legal m = true ↔ groupAligned (F.src x n) ∧ groupAligned (F.dst x n)
  disp : sp.disp m = F.disp x * n
  reads : sp.b m ++ sp.ds m = groupRegs (F.src x n).1.toNat (F.src x n).2
  dests : sp.dests m = groupRegs (F.dst x n).1.toNat (F.dst x n).2

/-- The machine carries a form of the tables out as its own description of the instruction says. -/
structure Carries (F : MForm) (x : MOps) (sp : MSpec) : Prop where
  runs : ∀ s, exec (F.form x) s = memInstr sp s := by intro; rfl
  instr : sp.instr = F.form x := by rfl
  addr : sp.a = x.a.toNat := by rfl
  pair : sp.aPair = true := by rfl
  oneAddr : sp.bAddr = false := by rfl
  unsized : ∀ m, F.size x m = none → sp.enc = false ∨ kindOf (F.form x) m = none
  sized : ∀ m n, F.size x m = some n → Sized F x sp m n

section
variable {F : MForm} {x : MOps} {sp : MSpec} (hc : Carries F x sp)
include hc

theorem Carries.ok_iff {m : W64} {n N : Nat} (hn : F.size x m = some n) : sp.ok N m = true ↔ F.Legal N m x n := by
  obtain ⟨-, -, hlegal, -, hreads, hdests⟩ := hc.sized m n hn
  simp only [MSpec.ok, MSpec.addrRegs, hc.addr, hc.pair, if_true, List.append_assoc, List.all_append, Bool.and_eq_true, hlegal, Bool.not_true,
    Bool.false_or, beq_iff_eq, List.all_cons, List.all_nil, decide_eq_true_eq, MForm.Legal, hn, true_and, groupOk_iff]
  rw [← hreads, ← hdests]
  simp only [List.all_eq_true, decide_eq_true_eq, List.forall_mem_append]
  constructor
  · rintro ⟨⟨⟨h1, h2⟩, h3⟩, ⟨h4, h5, -⟩, h6, h7, h8⟩
    exact ⟨h3, h5, ⟨h1, h6, h7⟩, h2, h8⟩
  · rintro ⟨h3, h5, ⟨h1, h6, h7⟩, h2, h8⟩
    exact ⟨⟨⟨h1, h2⟩, h3⟩, ⟨by omega, h5, trivial⟩, h6, h7, h8⟩

theorem Carries.illegal {m : W64} {N : Nat} (hbad : ∀ n, ¬ F.Legal N m x n) : (sp.enc && (sp.ok N m && (kindOf sp.instr m).isSome)) = false := by
  rw [hc.instr]
  match hn : F.size x m with
  | none => rcases hc.unsized m hn with he | hk <;> simp [*]
  | some n =>
    have : sp.ok N m = false := Bool.eq_false_iff.mpr (fun h => hbad n ((hc.ok_iff hn).mp h))
    simp [this]

section
variable {s : State} {g : Gang} (h : GangReady s g)
include h

theorem Carries.lane {n : Nat} (hn : F.size x g.mode = some n) {q : Nat × Slice × Nat} (hq : q ∈ lanesOf g) :
    (sp.lane g q).gl = gangLane q.1 q.2.2 ∧ (sp.lane g q).va = F.addr x n q ∧ (sp.lane g q).src = dataOf q.2.1 (F.src x n) q.2.2 ∧
      (sp.lane g q).st = .todo := by
  obtain ⟨-, -, -, hdisp, hreads, -⟩ := hc.sized _ n hn
  refine ⟨rfl, ?_, ?_, rfl⟩
  · simp only [MSpec.lane, hc.pair, hc.addr, if_true, pairVal_ready h hq, hdisp, MForm.addr]
  · rw [← regBytes_ready h hq (F.src x n) (q.2.1.count + max sp.wait 1 + 1), ← hreads]
    simp only [MSpec.lane, hc.oneAddr, Bool.false_eq_true, if_false, regBytes, List.flatMap_append, readV_ready h hq]

end
end

/-! ### The sizes of the tables -/

theorem accessSize_eq (z : BitVec 2) (m : W64) : accessSize z m = (sizeAccess z.toNat (modeEtype m)).map Prod.fst := by
  have hel (e : Nat) : [some 4, some 2, some 2, some 1, some 1, none, some 1, some 1, some 2, some 4, some 4, some 8].getD e none =
      (elAccess e).map Prod.fst := by
    match e with
    | 0 | 1 | 2 | 3 | 4 | 5 | 6 | 7 | 8 | 9 | 10 | 11 => rfl
    | _ + 12 => rfl
  unfold accessSize sizeAccess
  generalize z.toNat = k
  match k with
  | 0 | 1 | 2 => rfl
  | _ + 3 => exact hel _

theorem rowSize_eq (m : W64) : rowSize m = (ldtWidth (modeEtype m)).map (· / 2) := by
  rw [rowSize]
  generalize modeEtype m = e
  match e with
  | 0 | 1 | 2 | 3 | 4 | 5 | 6 | 7 | 8 | 9 | 10 => rfl
  | _ + 11 => rfl

theorem ldtWidth_ge {e w : Nat} (h : ldtWidth e = some w) : 8 ≤ w := by
  unfold ldtWidth at h
  split at h <;> cases h <;> decide

theorem regsFor_eq (n : Nat) : regsFor n = regCount n := by
  rw [regsFor, regCount]
  split <;> omega

theorem groupAligned_pos {r : VReg} {k : Nat} (hk : 0 < k) : groupAligned (r, k) ↔ r.toNat % k = 0 := by
  simp only [groupAligned]
  omega

theorem groupAligned_zero (r : VReg) : groupAligned (r, 0) := .inl rfl

theorem groupRegs_one (r : Nat) : groupRegs r 1 = [r] := rfl

section
variable {x : MOps} {m : W64} {n : Nat} (hn : accessSize x.z m = some n)
include hn

theorem sizeAccess_some : ∃ sgn, sizeAccess x.z.toNat (modeEtype m) = some (n, sgn) := by
  rw [accessSize_eq, Option.map_eq_some_iff] at hn
  obtain ⟨⟨_, sgn⟩, hp, rfl⟩ := hn
  exact ⟨sgn, hp⟩

theorem vmBytes_eq : vmBytes x.z m = n := by
  obtain ⟨sgn, h⟩ := sizeAccess_some hn
  rw [vmBytes, h]
  rfl

theorem vmRegs_eq : regCount (vmBytes x.z m) = regsFor n := by
  rw [vmBytes_eq hn, regsFor_eq]

theorem vmAligned_iff : vmAligned x.d.toNat x.z m = true ↔ groupAligned (x.d, regsFor n) := by
  rw [vmAligned, vmBytes_eq hn, regsFor_eq, groupAligned_pos (by rw [regCount]; split <;> omega), beq_iff_eq]

end

/-! ### The forms -/

/-- Words of a 32-bit or 64-bit operation. -/
theorem wide_words (w : BitVec 1) : (if w = 1 then 8 else 4) / 4 = if w = 1 then 2 else 1 := by split <;> rfl

theorem carries_ld (x : MOps) : Carries
    { form := fun x => .ld x.w x.d x.a x.z x.i, wait := fun x => x.w.toNat, acc := .read,
      size := fun x => accessSize x.z, disp := fun x => x.i.toInt, dst := fun x n => (x.d, regsFor n) } x
    (vmSpec (.ld x.w x.d x.a x.z x.i) x.w x.d x.a x.z x.i true true .loads) where
  unsized m hm := .inr (congrArg (Option.map _) (Option.map_eq_none_iff.mp ((accessSize_eq x.z m).symm.trans hm)))
  sized m n hn := by
    obtain ⟨sgn, hs⟩ := sizeAccess_some hn
    refine ⟨rfl, ⟨.load n sgn, congrArg (Option.map _) hs, rfl, rfl, rfl⟩, ?_, ?_, rfl, ?_⟩
    · exact (vmAligned_iff hn).trans (and_iff_right (groupAligned_zero _)).symm
    · exact congrArg (fun k : Nat => x.i.toInt * (k : Int)) (vmBytes_eq hn)
    · exact congrArg (groupRegs x.d.toNat) (vmRegs_eq hn)

theorem carries_st (x : MOps) : Carries
    { form := fun x => .st x.w x.d x.a x.z x.i, wait := fun x => x.w.toNat, acc := .write,
      size := fun x => accessSize x.z, disp := fun x => x.i.toInt, src := fun x n => (x.d, regsFor n) } x
    (vmSpec (.st x.w x.d x.a x.z x.i) x.w x.d x.a x.z x.i true false .dropped) where
  unsized m hm := .inr (congrArg (Option.map _) (Option.map_eq_none_iff.mp ((accessSize_eq x.z m).symm.trans hm)))
  sized m n hn := by
    obtain ⟨sgn, hs⟩ := sizeAccess_some hn
    refine ⟨rfl, ⟨.store n, congrArg (Option.map _) hs, rfl, rfl, rfl⟩, ?_, ?_, ?_, rfl⟩
    · exact (vmAligned_iff hn).trans (and_iff_left (groupAligned_zero _)).symm
    · exact congrArg (fun k : Nat => x.i.toInt * (k : Int)) (vmBytes_eq hn)
    · exact congrArg (groupRegs x.d.toNat) (vmRegs_eq hn)

/-- Of an ATOM the machine takes the width as one or two registers, and two operands where it compares (R391, R392). -/
theorem carries_atom (x : MOps) : Carries
    { form := fun x => .atom x.o x.wide x.d x.a x.b, acc := .atomic,
      size := fun x _ => if 11 < x.o.toNat ∨ (x.wide = 1 ∧ 10 ≤ x.o.toNat) then none else some (if x.wide = 1 then 8 else 4),
      src := fun x n => (x.b, if x.o = 9 then 2 * (n / 4) else n / 4), dst := fun x n => (x.d, n / 4) } x
    { instr := .atom x.o x.wide x.d x.a x.b, enc := decide (x.o.toNat ≤ 11) && !(x.wide == 1 && decide (10 ≤ x.o.toNat)), a := x.a.toNat,
      legal := fun _ => x.d.toNat % (if x.wide = 1 then 2 else 1) == 0 &&
        x.b.toNat % (if x.o = 9 then 2 * (if x.wide = 1 then 2 else 1) else if x.wide = 1 then 2 else 1) == 0
      b := fun _ => groupRegs x.b.toNat (if x.o = 9 then 2 * (if x.wide = 1 then 2 else 1) else if x.wide = 1 then 2 else 1)
      dests := fun _ => groupRegs x.d.toNat (if x.wide = 1 then 2 else 1), act := .ends } where
  unsized m hm := .inl (by
    have hbad : 11 < x.o.toNat ∨ (x.wide = 1 ∧ 10 ≤ x.o.toNat) := by
      by_contra hgood
      exact nomatch (if_neg hgood).symm.trans hm
    rw [Bool.and_eq_false_iff]
    exact hbad.imp (fun h => decide_eq_false (by omega)) (fun ⟨hw, ho⟩ => by simp [hw, ho]))
  sized m n hn := by
    obtain ⟨hgood, hn⟩ := Option.ite_none_left_eq_some.mp hn
    cases hn
    obtain ⟨ho, hw⟩ := not_or.mp hgood
    have henc : (decide (x.o.toNat ≤ 11) && !(x.wide == 1 && decide (10 ≤ x.o.toNat))) = true :=
      Bool.and_eq_true_iff.mpr ⟨decide_eq_true (Nat.not_lt.mp ho), by simpa [imp_iff_not_or] using hw⟩
    refine ⟨henc, ⟨_, rfl, rfl, rfl, rfl⟩, ?_, by simp, by simp only [wide_words, List.append_nil], by simp only [wide_words]⟩
    rw [Bool.and_eq_true, and_comm]
    simp only [wide_words, beq_iff_eq]
    rw [groupAligned_pos (by split <;> split <;> decide), groupAligned_pos (by split <;> decide)]

theorem carries_red (x : MOps) : Carries
    { form := fun x => .red x.q x.wide x.a x.b, acc := .update, size := fun x _ => some (if x.wide = 1 then 8 else 4)
      src := fun x n => (x.b, n / 4) } x
    { instr := .red x.q x.wide x.a x.b, a := x.a.toNat, legal := fun _ => x.b.toNat % (if x.wide = 1 then 2 else 1) == 0
      b := fun _ => groupRegs x.b.toNat (if x.wide = 1 then 2 else 1), act := .ends } where
  unsized _ hm := nomatch hm
  sized m n hn := by
    cases hn
    refine ⟨rfl, ⟨_, rfl, rfl, rfl, rfl⟩, ?_, by simp, by simp only [wide_words, List.append_nil], rfl⟩
    simp only [wide_words, beq_iff_eq, groupAligned_zero, and_true]
    rw [groupAligned_pos (by split <;> decide)]

theorem carries_redFadd (x : MOps) : Carries
    { form := fun x => .redFadd x.a x.b, acc := .update, size := fun _ _ => some 4, src := fun x _ => (x.b, 1) } x
    { instr := .redFadd x.a x.b, a := x.a.toNat, b := fun _ => [x.b.toNat], act := .ends } where
  unsized _ hm := nomatch hm
  sized m n hn := by
    cases hn
    exact ⟨rfl, ⟨_, rfl, rfl, rfl, rfl⟩, by simp [groupAligned, Nat.mod_one], by simp, rfl, rfl⟩

theorem carries_redBfadd2 (x : MOps) : Carries
    { form := fun x => .redBfadd2 x.a x.b, acc := .update, size := fun _ _ => some 4, src := fun x _ => (x.b, 1) } x
    { instr := .redBfadd2 x.a x.b, a := x.a.toNat, b := fun _ => [x.b.toNat], act := .ends } where
  unsized _ hm := nomatch hm
  sized m n hn := by
    cases hn
    exact ⟨rfl, ⟨_, rfl, rfl, rfl, rfl⟩, by simp [groupAligned, Nat.mod_one], by simp, rfl, rfl⟩

theorem carries_ll4 (x : MOps) : Carries
    { form := fun x => .ll4 x.d x.a, acc := .reserve, size := fun _ _ => some 4, dst := fun x _ => (x.d, 1) } x
    { instr := .ll4 x.d x.a, a := x.a.toNat, dests := fun _ => [x.d.toNat], act := .ends } where
  unsized _ hm := nomatch hm
  sized m n hn := by
    cases hn
    exact ⟨rfl, ⟨_, rfl, rfl, rfl, rfl⟩, by simp [groupAligned, Nat.mod_one], by simp, rfl, rfl⟩

theorem carries_ll8 (x : MOps) : Carries
    { form := fun x => .ll8 x.d x.a, acc := .reserve, size := fun _ _ => some 8, dst := fun x _ => (x.d, 2) } x
    { instr := .ll8 x.d x.a, a := x.a.toNat, legal := fun _ => x.d.toNat % 2 == 0, dests := fun _ => groupRegs x.d.toNat 2, act := .ends } where
  unsized _ hm := nomatch hm
  sized m n hn := by
    cases hn
    exact ⟨rfl, ⟨_, rfl, rfl, rfl, rfl⟩, by simp [groupAligned], by simp, rfl, rfl⟩

theorem carries_sc4 (x : MOps) : Carries
    { form := fun x => .sc4 x.d x.a x.b, acc := .update, size := fun _ _ => some 4, src := fun x _ => (x.b, 1)
      dst := fun x _ => (x.d, 1) } x
    { instr := .sc4 x.d x.a x.b, a := x.a.toNat, b := fun _ => [x.b.toNat], dests := fun _ => [x.d.toNat], act := .ends } where
  unsized _ hm := nomatch hm
  sized m n hn := by
    cases hn
    exact ⟨rfl, ⟨_, rfl, rfl, rfl, rfl⟩, by simp [groupAligned, Nat.mod_one], by simp, rfl, rfl⟩

theorem carries_sc8 (x : MOps) : Carries
    { form := fun x => .sc8 x.d x.a x.b, acc := .update, size := fun _ _ => some 8, src := fun x _ => (x.b, 2)
      dst := fun x _ => (x.d, 1) } x
    { instr := .sc8 x.d x.a x.b, a := x.a.toNat, legal := fun _ => x.b.toNat % 2 == 0, b := fun _ => groupRegs x.b.toNat 2
      dests := fun _ => [x.d.toNat], act := .ends } where
  unsized _ hm := nomatch hm
  sized m n hn := by
    cases hn
    exact ⟨rfl, ⟨_, rfl, rfl, rfl, rfl⟩, by simp [groupAligned, Nat.mod_one], by simp, rfl, rfl⟩

theorem carries_ldt (x : MOps) : Carries
    { form := fun x => .ldt x.d x.a, acc := .read, size := fun _ => rowSize, dst := fun x n => (x.d, n / 4) } x
    { instr := .ldt x.d x.a, a := x.a.toNat, legal := fun m => x.d.toNat % ((ldtWidth (modeEtype m)).getD 32 / 8) == 0
      dests := fun m => groupRegs x.d.toNat ((ldtWidth (modeEtype m)).getD 32 / 8), act := .loads } where
  unsized m hm := .inr (congrArg (Option.map _) (Option.map_eq_none_iff.mp ((rowSize_eq m).symm.trans hm)))
  sized m n hn := by
    obtain ⟨w, hw, rfl⟩ := Option.map_eq_some_iff.mp ((rowSize_eq m).symm.trans hn)
    have hregs : w / 2 / 4 = w / 8 := Nat.div_div_eq_div_mul ..
    have hpos : 0 < w / 8 := Nat.div_pos (ldtWidth_ge hw) (by decide)
    refine ⟨rfl, ⟨_, congrArg (Option.map _) hw, rfl, rfl, rfl⟩, ?_, by simp, rfl, by simp [hw, hregs]⟩
    simp only [hw, hregs, Option.getD_some, groupAligned_pos hpos, groupAligned_zero, true_and, beq_iff_eq]

theorem carries_unpk (x : MOps) : Carries
    { form := fun x => .unpk x.d x.a, acc := .read, size := fun _ _ => some 4, dst := fun x _ => (x.d, 2) } x
    { instr := .unpk x.d x.a, a := x.a.toNat, legal := fun _ => x.d.toNat % 2 == 0, dests := fun _ => groupRegs x.d.toNat 2, act := .loads } where
  unsized _ hm := nomatch hm
  sized m n hn := by
    cases hn
    exact ⟨rfl, ⟨_, rfl, rfl, rfl, rfl⟩, by simp [groupAligned], by simp, rfl, rfl⟩

theorem mForms_carried {F : MForm} (hF : F ∈ mForms) (x : MOps) : ∃ sp, Carries F x sp := by
  revert F
  simp only [mForms, List.forall_mem_cons, List.not_mem_nil, false_imp_iff, implies_true, and_true]
  exact ⟨⟨_, carries_ld x⟩, ⟨_, carries_st x⟩, ⟨_, carries_atom x⟩, ⟨_, carries_red x⟩, ⟨_, carries_redFadd x⟩, ⟨_, carries_redBfadd2 x⟩,
    ⟨_, carries_ll4 x⟩, ⟨_, carries_ll8 x⟩, ⟨_, carries_sc4 x⟩, ⟨_, carries_sc8 x⟩, ⟨_, carries_ldt x⟩, ⟨_, carries_unpk x⟩⟩

/-- Settles O30, by the description each form carries: its lanes are those of the tables, and lanes that miss only queue walks. -/
theorem memoryIssue : Obligations.MemoryIssue := by
  intro s g h ⟨hfresh, _, _⟩ F hF x i hi
  obtain ⟨sp, hc⟩ := mForms_carried hF x
  subst hi
  refine ⟨fun n hlegal hne hmiss => ?_, fun hbad => ?_⟩
  case refine_2 => rw [hc.runs, memInstr_illegal h (hc.illegal hbad)]
  have hn : F.size x g.mode = some n := hlegal.1
  obtain ⟨henc, ⟨k, hk, hplain, hbytes, hacc⟩, -, -, -, hdests⟩ := hc.sized _ n hn
  have hlane {q} (hq : q ∈ lanesOf g) := hc.lane h hn hq
  have hrun := memInstr_issues h henc ((hc.ok_iff hn).mpr hlegal) (hc.instr ▸ hk) hplain
    (fun q hq => by rw [(hlane hq).2.1, hbytes]; exact (hmiss q hq).1)
  generalize hls : (lanesOf g).map (sp.lane g) = ls at hrun
  have hkind : (mkOp s g sp ls).kind = k := by rw [MemOp.kind, mkOp, hc.instr, hk, Option.getD_some]
  have hlanes : ∀ l ∈ ls, (mkOp s g sp ls).lane l.gl = some l ∧ l.st = .todo ∧ canonical l.va = true ∧
      tlbTry s g.team.core g.grid.asid g.grid.tenant l.va (mkOp s g sp ls).kind.acc = none := by
    rw [hkind, hacc]
    intro l hl
    have hinj : ∀ l' ∈ ls, l'.gl = l.gl → l' = l := by
      rw [← hls] at hl ⊢
      obtain ⟨q, hq, rfl⟩ := List.mem_map.mp hl
      exact List.forall_mem_map.mpr (fun p hp he => congrArg _ (gangLane_inj h hp hq he))
    refine ⟨lane_unique hl hinj, ?_⟩
    rw [← hls] at hl
    obtain ⟨q, hq, rfl⟩ := List.mem_map.mp hl
    obtain ⟨-, hva, -, hst⟩ := hlane hq
    rw [hva]
    exact ⟨hst, (hmiss q hq).2⟩
  obtain ⟨ws, cs, hstart, hj, hw⟩ := startOp_misses (o := mkOp s g sp ls) rfl hfresh (hkind ▸ hplain) rfl rfl hlanes (by simpa [mkOp, ← hls] using hne)
  rw [hstart] at hrun
  refine ⟨_, mkOp s g sp ls, cs, (hc.runs s).trans hrun, GangGoes.onlyPc h (finish_goes h.notAhead _ _ _), ⟨rfl, hc.instr, rfl, rfl, rfl, rfl, rfl⟩, hdests, ?_,
    fun l hl => (hlanes l hl).2.1, ws, hj, fun q hq => ?_⟩
  · rw [mkOp, ← hls, List.map_map]
    exact List.map_congr_left (fun q hq => by obtain ⟨hgl, hva, hsrc, -⟩ := hlane hq; exact Prod.ext hgl (Prod.ext hva hsrc))
  · rw [← (hlane hq).2.1]
    exact hw _ (by rw [mkOp, ← hls]; exact List.mem_map_of_mem hq)

end Sys2Proof.Machine
end

section
/-! SUPPORT. Far extents, the power cap, the clock's steps and the mailbox (R43, R500, R504 to R506, R513, R514). -/

namespace Sys2Proof.Machine
-- One declaration after the other: in parallel, the threads' stacks pass the check's memory limit.
set_option Elab.async false

theorem decide_ne_eq_bne {α : Type} [DecidableEq α] (a b : α) : decide (a ≠ b) = (a != b) := by
  rw [bne, beq_eq_decide, decide_not]

/-! ## The far-extent table (R43, R500) -/

theorem overlaps_false {a n b m : Nat} (h : a + n ≤ b ∨ b + m ≤ a) : overlaps a n b m = false := by
  simp only [overlaps, Bool.and_eq_false_iff, decide_eq_false_iff_not]
  omega

/-- What a table entry has to be: an extent of whole 2 MiB units below 2^52, for one of the 64 tenants. -/
theorem extentOk_iff (d : List Byte) : extentOk d = true ↔ natAt d 0 8 % 2 ^ 21 = 0 ∧ natAt d 0 8 < 2 ^ 52 ∧ 0 < natAt d 8 4 * 2 ^ 21 ∧
    natAt d 12 1 < 64 ∧ natAt d 13 1 = 1 ∧ natAt d 14 2 = 0 := by
  have hdiv : natAt d 0 8 / 2 ^ 52 = 0 ↔ natAt d 0 8 < 2 ^ 52 := Nat.div_eq_zero_iff_lt (by positivity)
  have hlen : natAt d 8 4 ≠ 0 ↔ 0 < natAt d 8 4 * 2 ^ 21 := by
    rw [← Nat.pos_iff_ne_zero]
    exact (Nat.mul_pos_iff_of_pos_right (by positivity)).symm
  simp only [extentOk, Bool.and_eq_true, beq_iff_eq, bne_iff_ne, decide_eq_true_eq, hdiv, hlen, and_assoc]

section
variable {s : State} {k : Nat} (hk : s.arg.a % 64 = k)
include hk

theorem farExtentAdd_clear (hgood : extentOk s.arg.data = true)
    (hapart : ∀ p ∈ s.mgt.extents, p.1 ≠ k → natAt s.arg.data 0 8 + natAt s.arg.data 8 4 * 2 ^ 21 ≤ p.2.base ∨ p.2.base + p.2.len ≤ natAt s.arg.data 0 8) :
    ∃ t, Claims.Does .farExtentAdd s t ∧ t = { s with mgt := { s.mgt with extents := t.mgt.extents } } ∧
      ∀ p, p ∈ t.mgt.extents ↔ (p ∈ s.mgt.extents ∧ p.1 ≠ k) ∨
        p = (k, ⟨natAt s.arg.data 0 8, natAt s.arg.data 8 4 * 2 ^ 21, natAt s.arg.data 12 1, false⟩) := by
  subst hk
  have hclash : (s.mgt.extents.any fun p => p.1 != s.arg.a % 64 && overlaps (natAt s.arg.data 0 8) (natAt s.arg.data 8 4 * 2 ^ 21) p.2.base p.2.len) = false := by
    rw [List.any_eq_false]
    intro p hp h
    obtain ⟨hne, hov⟩ := Bool.and_eq_true_iff.mp h
    rw [overlaps_false (hapart p hp (bne_iff_ne.mp hne))] at hov
    exact nomatch hov
  refine ⟨_, congrArg Host.Outcome.next (if_pos (by rw [hgood, hclash]; rfl)), rfl, fun p => ?_⟩
  simp only [List.mem_append, List.mem_filter, List.mem_singleton, decide_eq_true_eq, Nat.lt_or_gt, ne_eq]
  have := Nat.lt_or_gt (a := p.1) (b := s.arg.a % 64)
  tauto

theorem farExtentAdd_bad (hbad : extentOk s.arg.data = false) : ∃ t u, Claims.Does .farExtentAdd s t ∧ Claims.Records u t 6 0 0 0 ∧
    u = { s with mgt := { s.mgt with extents := s.mgt.extents.filter (fun p => p.1 ≠ k) } } := by
  subst hk
  refine ⟨_, _, congrArg Host.Outcome.next (if_neg (by rw [hbad]; exact Bool.false_ne_true)), mgtRecord_records .., ?_⟩
  simp only [decide_ne_eq_bne]

/-- A released extent stays, as one that leaves, while an access of its tenant to it is in flight. -/
theorem farExtentRelease_leaves : ∃ t, Claims.Does .farExtentRelease s t ∧ t = { s with mgt := { s.mgt with extents := t.mgt.extents } } ∧
    (∀ p ∈ s.mgt.extents, p.1 ≠ k → p ∈ t.mgt.extents) ∧
    ∀ p ∈ t.mgt.extents, p.1 = k → p.2.leaving = true ∧ ∃ f ∈ s.fars, f.tenant = p.2.tenant := by
  subst hk
  refine ⟨_, rfl, rfl, fun p hp hne => ?_, fun p hp he => ?_⟩
  · refine List.mem_map.mpr ⟨p, List.mem_filter.mpr ⟨hp, ?_⟩, if_neg hne⟩
    simp [hne]
  · obtain ⟨q, hq, rfl⟩ := List.mem_map.mp hp
    obtain ⟨-, hbusy⟩ := List.mem_filter.mp hq
    by_cases hqk : q.1 = s.arg.a % 64
    case neg =>
      rw [if_neg hqk] at he
      exact absurd he hqk
    simp only [hqk, bne_self_eq_false, Bool.false_or, List.any_eq_true, Bool.and_eq_true, beq_iff_eq] at hbusy
    obtain ⟨f, hf, hten, -⟩ := hbusy
    rw [if_pos hqk]
    exact ⟨rfl, f, hf, hten⟩

end

/-! ## Power and clock (R505, R506) -/

theorem setWidth_16 (v : W64) : v.setWidth 16 = v.extractLsb' 0 16 := by
  apply BitVec.eq_of_toNat_eq
  rw [BitVec.toNat_setWidth, BitVec.extractLsb'_toNat, Nat.shiftRight_zero]

/-- A clock under a sag, or on the way back from one, runs at step 2 or slower. -/
theorem atStep_eq (c : Clock) : c.atStep = { c with step := if c.sag = true ∨ c.recovered ≠ none then max 2 c.capStep else c.capStep } := by
  simp only [Clock.atStep, Bool.or_eq_true, ← Option.isSome_iff_ne_none]

theorem powerLimit_eq (s : State) : powerLimit s = if s.clock.cap = 0 ∨ 1800 < s.clock.cap.toNat then 1800 else s.clock.cap.toNat := by
  have h0 : s.clock.cap = 0 ↔ s.clock.cap.toNat = 0 := BitVec.toNat_eq
  simp only [powerLimit, h0]

section
variable {s : State} {c : Clock} {limit : Nat} (hc : c = { s.clock with draw := s.arg.v.extractLsb' 0 16 }) (hl : powerLimit s = limit)
include hc hl

theorem powerCapStepDown_within (h : c.draw.toNat ≤ limit ∨ 2 ≤ c.capStep) : Claims.Does .powerCapStepDown s { s with clock := c } := by
  subst hc hl
  rw [← setWidth_16] at h ⊢
  refine congrArg (fun c => Host.Outcome.next { s with clock := c }) (if_neg ?_)
  rintro ⟨hd, hs⟩
  exact h.elim (Nat.not_le.mpr hd) (Nat.not_le.mpr hs)

theorem powerCapStepDown_beyond (hd : limit < c.draw.toNat) (hs : c.capStep < 2) : Claims.Does .powerCapStepDown s
    { s with clock := Clock.atStep { c with capStep := c.capStep + 1, caps := if c.caps = BitVec.allOnes 16 then c.caps else c.caps + 1 } } := by
  subst hc hl
  rw [← setWidth_16] at hd ⊢
  exact congrArg (fun c : Clock => Host.Outcome.next { s with clock := c }) (if_pos (And.intro hd hs))

omit hl in
theorem clockStepUp_held (h : s.clock.sag = true ∨ ∃ t0, s.clock.recovered = some t0 ∧ nsOf s < t0 + 100000) :
    Claims.Does .clockStepUp s { s with clock := c } := by
  subst hc
  rw [← setWidth_16]
  refine congrArg Host.Outcome.next (if_neg ?_)
  obtain h | ⟨t0, hr, ht⟩ := h
  · simp [h]
  · simp [hr, ht]

theorem clockStepUp_back (hs : s.clock.sag = false) (hr : ∀ t0, s.clock.recovered = some t0 → t0 + 100000 ≤ nsOf s) {x : Nat}
    (hx : x = if c.draw.toNat ≤ limit then 0 else c.capStep) :
    Claims.Does .clockStepUp s { s with clock := { c with recovered := none, capStep := x, step := x } } := by
  have hstep : Clock.atStep { c with recovered := none, capStep := x } = { c with recovered := none, capStep := x, step := x } := by
    subst hc
    simp [Clock.atStep, hs]
  rw [← hstep]
  subst hc hl hx
  rw [← setWidth_16]
  refine congrArg Host.Outcome.next (if_pos ?_)
  match hrec : s.clock.recovered with
  | none => simp [hs]
  | some t0 => simp [hs, hr t0 hrec]

end

theorem railRecovery_sagging {s : State} (h : s.clock.sag = true) : Claims.Does .railRecovery s
    { s with clock := { s.clock with sag := false, recovered := some (nsOf s), step := max 2 s.clock.capStep } } :=
  congrArg Host.Outcome.next (if_pos h)

theorem railRecovery_recovered {s : State} (h : s.clock.sag = false) : Claims.Does .railRecovery s s :=
  congrArg Host.Outcome.next (if_neg (by rw [h]; exact Bool.false_ne_true))

/-! ## Commands of the mailbox (R513, R514) -/

/-- Writing the lowest k + 1 bits of a word: bit i of the result. -/
theorem withBits_getLsbD (k : Nat) (v : W64) (x : Nat) {i : Nat} (hi : i < 64) :
    (withBits k 0 x v).getLsbD i = if i < k + 1 then x.testBit i else v.getLsbD i := by
  have hmask : Nat.testBit (2 ^ (k - 0 + 1) - 1) i = decide (i < k + 1) := Nat.testBit_two_pow_sub_one (k + 1) i
  simp only [withBits, BitVec.getLsbD_or, BitVec.getLsbD_and, BitVec.getLsbD_not, BitVec.getLsbD_ofNat, Nat.shiftLeft_zero, hi, hmask]
  by_cases h : i < k + 1 <;> simp [h]

theorem withBits_low (v : W64) {op : Nat} (h : op < 256) : ((withBits 7 0 op v).extractLsb' 0 8).toNat = op := by
  have : (withBits 7 0 op v).extractLsb' 0 8 = BitVec.ofNat 8 op := by
    apply BitVec.eq_of_getLsbD_eq
    intro i hi
    rw [BitVec.getLsbD_extractLsb', Nat.zero_add, withBits_getLsbD 7 v op (by omega), if_pos hi, BitVec.getLsbD_ofNat]
  rw [this, BitVec.toNat_ofNat, Nat.mod_eq_of_lt h]

theorem withBits_high (v : W64) (op : Nat) : (withBits 7 0 op v).extractLsb' 8 56 = v.extractLsb' 8 56 := by
  apply BitVec.eq_of_getLsbD_eq
  intro i hi
  simp [hi, withBits_getLsbD 7 v op (show 8 + i < 64 by omega)]

theorem mailboxCmd_pending {s : State} (v : W64) (h : s.mgt.mbox.state = 1) :
    mailboxCmd s v = { s with mgt := { s.mgt with mbox := { s.mgt.mbox with busy := true } } } :=
  congrArg (fun m => { s with mgt := { s.mgt with mbox := m } }) (if_pos h)

theorem mailboxCmd_free {s : State} (v : W64) (h : s.mgt.mbox.state ≠ 1) {req : List Byte} (hr : fitTo 3840 s.arg.data = req) :
    mailboxCmd s v =
      { s with mgt := { s.mgt with mbox := { s.mgt.mbox with state := 1, busy := false, err := 0, resp := [], cmd := v, req := req } } } := by
  subst hr
  exact congrArg (fun m => { s with mgt := { s.mgt with mbox := m } }) (if_neg h)

theorem withBits_row (v : W64) {op : Nat} (h : op < 256) :
    ((withBits 7 0 op v).extractLsb' 0 8).toNat = op ∧ (withBits 7 0 op v).extractLsb' 8 56 = v.extractLsb' 8 56 :=
  ⟨withBits_low v h, withBits_high v op⟩

/-- The operation of each row that writes the mailbox's command. -/
theorem mailboxRow_starts {s : State} {i : Instr} {op : Nat} (h : (i, op) ∈ [(Instr.attest, (1 : Nat)), (.identityRequest, 2), (.stageBegin, 3),
    (.stageData, 4), (.stageCommit, 5), (.stageAbort, 6), (.mailboxBadop, (s.arg.v.extractLsb' 0 8).toNat)]) :
    ∃ v, exec i s = .next (mailboxCmd s v) ∧ (v.extractLsb' 0 8).toNat = op ∧ v.extractLsb' 8 56 = s.arg.v.extractLsb' 8 56 := by
  simp only [List.mem_cons, List.not_mem_nil, or_false, Prod.mk.injEq] at h
  obtain ⟨rfl, rfl⟩ | ⟨rfl, rfl⟩ | ⟨rfl, rfl⟩ | ⟨rfl, rfl⟩ | ⟨rfl, rfl⟩ | ⟨rfl, rfl⟩ | ⟨rfl, rfl⟩ := h
  · exact ⟨_, rfl, withBits_row _ (by decide)⟩
  · exact ⟨_, rfl, withBits_row _ (by decide)⟩
  · exact ⟨_, rfl, withBits_row _ (by decide)⟩
  · exact ⟨_, rfl, withBits_row _ (by decide)⟩
  · exact ⟨_, rfl, withBits_row _ (by decide)⟩
  · exact ⟨_, rfl, withBits_row _ (by decide)⟩
  · exact ⟨_, rfl, rfl, rfl⟩

/-! ## The end of a request (R513, R514) -/

theorem requestEnd_idle {s : State} (h : s.mgt.mbox.state ≠ 1) : Claims.Does .mailboxRequestEnd s s := congrArg Host.Outcome.next (if_pos h)

section
variable {s : State} (h : s.mgt.mbox.state = 1)
include h

theorem requestEnd_fails {e : Nat} (hm : mailboxServe s = .inl e) :
    Claims.Does .mailboxRequestEnd s { s with mgt := { s.mgt with mbox := { s.mgt.mbox with state := 3, err := e } } } := by
  refine congrArg Host.Outcome.next ((if_neg (not_not.mpr h)).trans ?_)
  rw [hm]

theorem requestEnd_ends {m : Mailbox} (hm : mailboxServe s = .inr m) :
    Claims.Does .mailboxRequestEnd s { s with mgt := { s.mgt with mbox := { m with state := 2 } } } := by
  refine congrArg Host.Outcome.next ((if_neg (not_not.mpr h)).trans ?_)
  rw [hm]

end

/-- A command sets a field that no operation reads. -/
def SetsReserved (v : W64) : Prop := v.extractLsb' 8 8 ≠ 0 ∨ v.extractLsb' 32 32 ≠ 0

theorem setsReserved_iff (v : W64) : SetsReserved v ↔ bits 15 8 v ≠ 0 ∨ bits 63 32 v ≠ 0 := by
  rw [SetsReserved, ← not_iff_not]
  simp only [not_or, not_not, bits_eq_zero_iff 8 8 v (by decide), bits_eq_zero_iff 32 32 v (by decide)]

theorem serve_starting {s : State} (h : s.mgt.state = 0) : mailboxServe s = .inl 6 := if_pos h

theorem serve_badOp {s : State} (hs : s.mgt.state ≠ 0)
    (h : SetsReserved s.mgt.mbox.cmd ∨ (s.mgt.mbox.cmd.extractLsb' 0 8).toNat = 0 ∨ 6 < (s.mgt.mbox.cmd.extractLsb' 0 8).toNat) :
    mailboxServe s = .inl 1 := by
  rw [setsReserved_iff, ← bits_eq_toNat_extractLsb' 0 8 _ (by decide), or_assoc] at h
  exact (if_neg hs).trans (if_pos h)

/-- The request of a device that has started is one of the six operations, op, with LEN n. -/
structure Request (s : State) (op n : Nat) : Prop where
  started : s.mgt.state ≠ 0
  plain : ¬ SetsReserved s.mgt.mbox.cmd
  op_eq : (s.mgt.mbox.cmd.extractLsb' 0 8).toNat = op
  len_eq : (s.mgt.mbox.cmd.extractLsb' 16 16).toNat = n
  pos : 1 ≤ op
  le_six : op ≤ 6

theorem lenOk_iff {op n : Nat} (h1 : 1 ≤ op) (h6 : op ≤ 6) : lenOk op n = true ↔
    (op = 1 → n = 32) ∧ (op = 3 → n = 8) ∧ (op = 4 → 1 ≤ n ∧ n ≤ 3840) ∧ (op = 2 ∨ op = 5 ∨ op = 6 → n = 0) := by
  interval_cases op <;> simp [lenOk]

/-- What an operation of the right length leaves: an error, or the mailbox (R514). -/
def served (b : Mailbox) (s : State) (op n : Nat) : Nat ⊕ Mailbox :=
  match op, b.staged with
  | 1, _ => .inr { b with resp := report s (b.req.take 32) }
  | 2, _ => .inr { b with resp := (fitTo 57 Config.identityKey ++ List.replicate 7 0#8 ++ Config.certificate).take 8192 }
  | 3, _ => if 2 ^ 24 < natAt b.req 0 8 then .inl 4 else .inr { b with staged := some (natAt b.req 0 8, []) }
  | 4, none => .inl 3
  | 4, some (all, im) => if min all (2 ^ 24) < im.length + n then .inl 4 else .inr { b with staged := some (all, im ++ b.req.take n) }
  | 5, none => .inl 3
  | 5, some (all, im) => if im.length = all && firmwareOk im then .inr { b with staged := none, next := some im } else .inl 5
  | _, _ => .inr { b with staged := none }

section
variable {s : State} {op n : Nat} (r : Request s op n)
include r

theorem Request.serve : mailboxServe s = if lenOk op n = true then served s.mgt.mbox s op n else .inl 2 := by
  have hop : bits 7 0 s.mgt.mbox.cmd = op := (bits_eq_toNat_extractLsb' 0 8 _ (by decide)).trans r.op_eq
  have hlen : bits 31 16 s.mgt.mbox.cmd = n := (bits_eq_toNat_extractLsb' 16 16 _ (by decide)).trans r.len_eq
  have hvalid : ¬ (bits 15 8 s.mgt.mbox.cmd ≠ 0 ∨ bits 63 32 s.mgt.mbox.cmd ≠ 0 ∨ bits 7 0 s.mgt.mbox.cmd = 0 ∨ 6 < bits 7 0 s.mgt.mbox.cmd) := by
    rw [← or_assoc, ← setsReserved_iff, hop]
    rintro (h | h | h)
    · exact r.plain h
    · exact absurd r.pos (by omega)
    · exact absurd r.le_six (by omega)
  refine (if_neg r.started).trans ((if_neg hvalid).trans ?_)
  rw [hop, hlen]
  cases lenOk op n
  · rfl
  · rfl

end

/-- An identity response: the key, padded, and the certificate. -/
theorem identity_response (key cert : List Byte) : ((fitTo 57 key ++ List.replicate 7 0#8 ++ cert).take 8192).length ≤ 8192 ∧
    ((fitTo 57 key ++ List.replicate 7 0#8 ++ cert).take 8192).take 64 = (key ++ List.replicate 57 0).take 57 ++ List.replicate 7 0 := by
  refine ⟨List.length_take_le .., ?_⟩
  have hlen : (fitTo 57 key ++ List.replicate 7 0#8).length = 64 := by simp [fitTo]
  rw [List.take_take, show min 64 8192 = 64 from rfl, List.take_append_of_le_length (by omega), List.take_of_length_le (by omega)]
  rfl

section
variable {b : Mailbox} (s : State) {n all : Nat} {im : List Byte}

theorem served_data_unstaged (h : b.staged = none) : served b s 4 n = .inl 3 := by
  simp only [served, h]

theorem served_data (h : b.staged = some (all, im)) : served b s 4 n =
    if all < im.length + n ∨ 2 ^ 24 < im.length + n then .inl 4 else .inr { b with staged := some (all, im ++ b.req.take n) } := by
  simp only [served, h, min_lt_iff]

theorem served_commit_unstaged (h : b.staged = none) : served b s 5 n = .inl 3 := by
  simp only [served, h]

theorem served_commit (h : b.staged = some (all, im)) : served b s 5 n =
    if im.length = all ∧ firmwareOk im = true then .inr { b with staged := none, next := some im } else .inl 5 := by
  simp only [served, h, Bool.and_eq_true, decide_eq_true_eq]

end

/-- Settles O44, clause by clause from the equations of each row. -/
theorem powerAndMailbox : Obligations.PowerAndMailbox := by
  intro s d k base len good apart
  have hgood : extentOk d = true ↔ good := extentOk_iff d
  refine ⟨fun hg ha => farExtentAdd_clear rfl (hgood.mpr hg) ha, fun hg => farExtentAdd_bad rfl (Bool.eq_false_iff.mpr (mt hgood.mp hg)),
    farExtentRelease_leaves rfl, ?power, ?rows, ?request⟩
  case power =>
    intro c limit slow
    have hlimit : powerLimit s = limit := powerLimit_eq s
    have hslow (x : Clock) : x.atStep = slow x := atStep_eq x
    exact ⟨powerCapStepDown_within rfl hlimit, fun hd hs => hslow _ ▸ powerCapStepDown_beyond rfl hlimit hd hs, rfl, railRecovery_sagging,
      railRecovery_recovered, clockStepUp_held rfl, fun hs hr => clockStepUp_back rfl hlimit hs hr rfl⟩
  case rows =>
    intro i op h b
    obtain ⟨v, he, hop, hv⟩ := mailboxRow_starts h
    refine ⟨fun hb => he.trans (congrArg _ (mailboxCmd_pending v hb)), fun hb => ?_⟩
    generalize hr : (d ++ List.replicate 3840 0).take 3840 = req
    exact ⟨_, he.trans (congrArg _ (mailboxCmd_free v hb hr)), rfl, hop, hv, rfl, rfl⟩
  case request =>
    intro b op n rsv hasLen i ends fails
    refine ⟨requestEnd_idle, fun hb hs => requestEnd_fails hb (serve_starting hs), fun hb hs h => requestEnd_fails hb (serve_badOp hs h),
      fun hb hs hr h1 h6 => ?_⟩
    have serve : mailboxServe s = if lenOk op n = true then served b s op n else .inl 2 := Request.serve ⟨hs, hr, rfl, rfl, h1, h6⟩
    have hlen : lenOk op n = true ↔ hasLen := lenOk_iff h1 h6
    refine ⟨fun hn => requestEnd_fails hb (serve.trans (if_neg (mt hlen.mp hn))), fun hn => ?_⟩
    have serve : mailboxServe s = served b s op n := serve.trans (if_pos (hlen.mpr hn))
    clear_value op n
    refine ⟨?attest, ?identity, ?stageBegin, ?stageData, ?stageCommit, ?stageAbort⟩
    case attest =>
      rintro rfl
      exact requestEnd_ends hb serve
    case identity =>
      rintro rfl
      exact ⟨_, requestEnd_ends (m := { b with resp := List.take 8192 _ }) hb serve, identity_response Config.identityKey Config.certificate⟩
    case stageBegin =>
      rintro rfl
      exact ⟨fun h => requestEnd_fails hb (serve.trans (if_pos h)), fun h => requestEnd_ends hb (serve.trans (if_neg (Nat.not_lt.mpr h)))⟩
    case stageData =>
      rintro rfl
      refine ⟨fun h => requestEnd_fails hb (serve.trans (served_data_unstaged s h)), fun all im h => ?_⟩
      have serve := serve.trans (served_data s h)
      exact ⟨fun hl => requestEnd_fails hb (serve.trans (if_pos hl)),
        fun ha hm => requestEnd_ends hb (serve.trans (if_neg (not_or.mpr ⟨Nat.not_lt.mpr ha, Nat.not_lt.mpr hm⟩)))⟩
    case stageCommit =>
      rintro rfl
      refine ⟨fun h => requestEnd_fails hb (serve.trans (served_commit_unstaged s h)), fun all im h => ?_⟩
      have serve := serve.trans (served_commit s h)
      refine ⟨fun hbad => requestEnd_fails hb (serve.trans (if_neg (fun ⟨ha, hf⟩ => ?_))), fun ha hf => requestEnd_ends hb (serve.trans (if_pos ⟨ha, hf⟩))⟩
      exact hbad.elim (fun h => h ha) (fun h => Bool.eq_false_iff.mp h hf)
    case stageAbort =>
      rintro rfl
      exact requestEnd_ends hb serve

end Sys2Proof.Machine
end

section
/-! SUPPORT. Page walks, zeroing, ASID rebinds and table synchronisation (R22, R25, R29, R31 to R34, R38, R40, R72, R515). -/

namespace Sys2Proof.Machine
-- One declaration after the other: in parallel, the threads' stacks pass the check's memory limit.
set_option Elab.async false
open Sys2Proof.Claims

/-! ## Page walks (R25, R29) -/

/-- Nothing advances where no lane is still to be translated. -/
theorem advanceAll_quiet {s : State} (h : NoLaneWaits s) : advanceAll s = s := by
  have hnone : s.memops.filter (fun o => o.lanes.any (fun l => l.st == .todo)) = [] := by
    simp only [List.filter_eq_nil_iff, Bool.not_eq_true, List.any_eq_false, beq_iff_eq]
    exact h
  rw [advanceAll, hnone, List.foldl_nil]

theorem askFor_memops {t : Nat} {l : List Nat} {s u : State} (h : askFor t l s = some u) : u.memops = s.memops := by
  induction l generalizing s with
  | nil => cases h; rfl
  | cons a r ih =>
    rw [askFor] at h
    split at h
    · exact (ih h).trans rfl
    · cases h

theorem queueWalk_memops (s : State) (w : Walk) : (queueWalk s w).memops = s.memops := by
  unfold queueWalk
  split <;> rfl

theorem bits_63_16 (v : W64) : bits 63 16 v = (v.extractLsb' 16 48).toNat := bits_eq_toNat_extractLsb' 16 48 v (by decide)

/-- What a walk finds for a lane goes to the buffers. -/
def walkFill (s : State) (o : MemOp) (va : W64) : Tr → State
  | .ok e lev => tlbFill s o.core o.asid o.tenant va e lev
  | _ => s

section
variable {s : State} {w : Walk} {r : List Walk} (hw : (clusterOf s s.arg.a).walks = w :: r)
include hw

theorem pageWalk_walks : exec .pageWalk s = .next (advanceAll (doWalk (updCluster s s.arg.a (fun c => { c with walks := r })) w)) := by
  refine congrArg Host.Outcome.next ?_
  rw [hw]

/-- A walk that finds no translation for a prefetch ends. -/
theorem pageWalk_nothing {x : State} (hk : w.kind ≠ 1) (hq : NoLaneWaits s)
    (ha : askFor w.tenant (walkReads (updCluster s s.arg.a (fun c => { c with walks := r })) w.asid w.tenant w.va) (updCluster s s.arg.a (fun c => { c with walks := r })) = some x)
    (hn : walkQuiet x w.asid w.tenant w.va .read = none) : Does .pageWalk s x := by
  have hx : NoLaneWaits x := by
    rw [NoLaneWaits, askFor_memops ha]
    exact hq
  rw [Does, pageWalk_walks hw, doWalk, if_neg hk, ha]
  simp only [hn, advanceAll_quiet hx]

/-- A walk whose reads a slice does not accept waits at the walker. -/
theorem pageWalk_refused (hk : w.kind ≠ 1) (hq : NoLaneWaits s)
    (ha : askFor w.tenant (walkReads (updCluster s s.arg.a (fun c => { c with walks := r })) w.asid w.tenant w.va) (updCluster s s.arg.a (fun c => { c with walks := r })) = none) :
    Does .pageWalk s (queueWalk (updCluster s s.arg.a (fun c => { c with walks := r })) w) := by
  have hx : NoLaneWaits (queueWalk (updCluster s s.arg.a (fun c => { c with walks := r })) w) := by
    rw [NoLaneWaits, queueWalk_memops]
    exact hq
  rw [Does, pageWalk_walks hw, doWalk, if_neg hk, ha]
  simp only [advanceAll_quiet hx]

/-- A walk gives its result to the lane that waits for its page. -/
theorem pageWalk_lane {o : MemOp} {l : MLane} {tr : Tr} {x : State} (hk : w.kind = 1) (ho : findOp s w.op = some o)
    (hl : o.lanes.filter (fun l => l.st == .todo && l.va.extractLsb' 16 48 == w.va.extractLsb' 16 48) = [l])
    (hx : walkNow (updCluster s s.arg.a (fun c => { c with walks := r })) o.asid o.tenant l.va o.kind.acc = (tr, x)) :
    Does .pageWalk s (advanceAll (settleOp (advanceAll (applyTr (walkFill x o l.va tr) o.id l.gl tr)) w.op)) := by
  have hfilter : o.lanes.filter (fun l => l.st == .todo && bits 63 16 l.va == bits 63 16 w.va) = [l] := by
    rw [← hl]
    refine List.filter_congr (fun l _ => ?_)
    simp only [bits_63_16, ← BitVec.toNat_inj, beq_eq_decide]
  have hlanes : walkLanes (updCluster s s.arg.a (fun c => { c with walks := r })) w o = applyTr (walkFill x o l.va tr) o.id l.gl tr := by
    rw [walkLanes, hfilter, List.foldl_cons, List.foldl_nil, hx]
    cases tr <;> rfl
  rw [Does, pageWalk_walks hw, doWalk, if_pos hk, show findOp (updCluster s s.arg.a _) w.op = some o from ho]
  simp only [hlanes]

end

/-! ## Zeroing (R38) -/

theorem tget_filter_key {α : Type} (d : α) (k : Nat) (P : Nat → Bool) (t : Tbl α) :
    tget d k (t.filter (fun e => P e.1)) = if P k = true then tget d k t else d := by
  induction t with
  | nil => simp [tget]
  | cons e r ih =>
    obtain ⟨j, v⟩ := e
    by_cases hj : P j = true
    · rw [List.filter_cons_of_pos (p := fun e : Nat × α => P e.1) hj]
      by_cases hk : j = k
      · subst hk
        simp [tget, hj]
      · simp only [tget, hk, if_false, ih]
    · rw [List.filter_cons_of_neg (p := fun e : Nat × α => P e.1) hj, ih]
      by_cases hk : j = k
      · subst hk
        simp [hj]
      · simp only [tget, hk, if_false]

theorem zeroSpend_buckets (s : State) (ten base len : Nat) : ∃ b, zeroSpend s ten base len = { s with buckets := b } := by
  rw [zeroSpend]
  generalize List.range 96 = l
  induction l generalizing s with
  | nil => exact ⟨s.buckets, rfl⟩
  | cons i l ih =>
    obtain ⟨b, h⟩ := ih { s with buckets := _ }
    exact ⟨b, h⟩

theorem overlaps_iff {a n b m : Nat} : overlaps a n b m = true ↔ 0 < n ∧ 0 < m ∧ a < b + m ∧ b < a + n := by
  simp only [overlaps, Bool.and_eq_true, decide_eq_true_eq, and_assoc]

/-- An address is not in a range of bytes. -/
theorem outside_iff {base len a : Nat} : (!(decide (base ≤ a) && decide (a < base + len))) = true ↔ ¬ (base ≤ a ∧ a < base + len) := by
  rw [Bool.not_eq_true', Bool.eq_false_iff, ne_eq, Bool.and_eq_true, decide_eq_true_eq, decide_eq_true_eq]

theorem zeroRange_zeroed (s : State) (b : Tbl (Nat × Nat)) (base len : Nat) : Zeroed s (zeroRange { s with buckets := b } base len) base len := by
  refine ⟨fun a => ?_, fun p => ?_, fun r => ?_, rfl⟩
  · show tget memDefault a (s.mem.filter (fun c => !(decide (base ≤ c.1) && decide (c.1 < base + len)))) = _
    rw [tget_filter_key memDefault a (fun k => !(decide (base ≤ k) && decide (k < base + len)))]
    simp only [outside_iff, ite_not]
    rfl
  · show p ∈ s.poison.filter (fun p => !(decide (base ≤ 32 * p) && decide (32 * p < base + len))) ↔ _
    rw [List.mem_filter, outside_iff]
  · show r ∈ s.resvs.filter (fun r => !overlaps base len (32 * r.sector) 32) ↔ _
    rw [List.mem_filter, Bool.not_eq_true', Bool.eq_false_iff, ne_eq, overlaps_iff]
    simp

theorem homeStore_word (s : State) (a : Nat) (v : W64) : homeStore s a (bytesLE 8 v.toNat) = wordStored s a v := by
  rw [homeStore, clearRes, length_bytesLE]
  rfl

section
variable {s : State} (hok : s.arg.ok = true)
include hok

theorem zeroRequest_arrives : exec .zeroRequest s = .next (zeroIn s s.arg.p) := congrArg Host.Outcome.next (if_pos hok)

theorem zeroRequest_refused (h : admission s s.arg.p.domain s.arg.p.pa .w = none) : Does .zeroRequest s (respond s s.arg.p 1 []) := by
  rw [Does, zeroRequest_arrives hok, zeroIn, h]

section
variable {ten : Nat} (ha : admission s s.arg.p.domain s.arg.p.pa .w = some ten)
include ha

theorem zeroRequest_posted (h : s.zeros.find? (fun z => z.dev == 1023 && overlaps s.arg.p.pa s.arg.p.n z.base z.len) = none) :
    Does .zeroRequest s { s with zeros := s.zeros ++ [{ leaves := [], dev := 1023, base := s.arg.p.pa, len := s.arg.p.n, tenant := ten, begun := false, asks := [s.arg.p] }] } := by
  rw [Does, zeroRequest_arrives hok, zeroIn, ha]
  simp only [h]

theorem zeroRequest_joins {z : ZeroReq} (h : s.zeros.find? (fun z => z.dev == 1023 && overlaps s.arg.p.pa s.arg.p.n z.base z.len) = some z) :
    Does .zeroRequest s { s with zeros := s.zeros.map (fun x => if x = z then { x with asks := x.asks ++ [s.arg.p] } else x) } := by
  rw [Does, zeroRequest_arrives hok, zeroIn, ha]
  simp only [h]

end
end

/-- A zeroing request begins. -/
def beginZero (z : ZeroReq) (s : State) : State := { s with zeros := s.zeros.map (fun x => if x = z then { x with begun := true } else x) }

section
variable {s : State} {z : ZeroReq} (hok : s.arg.ok = false) (hz : s.zeros.find? (fun z => !z.begun) = some z)
include hok hz

theorem zeroRequest_here (hd : z.dev = 1023) : ∃ t, Does .zeroRequest s t ∧ Zeroed (beginZero z s) t z.base z.len := by
  obtain ⟨b, hb⟩ := zeroSpend_buckets (beginZero z s) z.tenant z.base z.len
  refine ⟨_, ?_, zeroRange_zeroed (beginZero z s) b z.base z.len⟩
  rw [← hb]
  refine congrArg Host.Outcome.next ((if_neg (by rw [hok]; exact Bool.false_ne_true)).trans ?_)
  rw [hz]
  exact if_pos hd

theorem zeroRequest_asks {v : State} (hd : z.dev ≠ 1023)
    (hv : podSend s (homeDie (z.leaves.headD 0)) z.dev { code := 20, pa := z.base, n := z.len, domain := domainOf s z.tenant } (.zero z.base) 0 = .sent v) :
    Does .zeroRequest s (beginZero z v) := by
  refine congrArg Host.Outcome.next ((if_neg (by rw [hok]; exact Bool.false_ne_true)).trans ?_)
  rw [hz]
  refine (if_neg hd).trans ?_
  rw [hv]
  rfl

end

/-- The leaf at an address owes no zeroing any more. -/
def clearZp (s : State) (a : Nat) : State := if (mem64 s a).getLsbD 6 = true then wordStored s a (mem64 s a &&& ~~~0x40#64) else s

theorem zeroingComplete_ends {s : State} {z : ZeroReq} (hz : s.zeros.find? (fun z => z.begun && (z.dev == 1023 || z.reported)) = some z) :
    Does .zeroingComplete s (advanceAll (wakeZero (updTenant (z.asks.foldl (fun x p => respond x p 0 [])
      (z.leaves.foldl clearZp { s with zeros := s.zeros.filter (fun x => x ≠ z) })) z.tenant (fun t => { t with zeroings := t.zeroings + 1 })))) := by
  have hstep : (fun (s : State) a => if pteZp (mem64 s a) then homeStore s a (bytesLE 8 (mem64 s a &&& ~~~0x40#64).toNat) else s) = clearZp := by
    funext s a
    rw [homeStore_word]
    rfl
  simp only [decide_ne_eq_bne]
  rw [← hstep]
  refine congrArg Host.Outcome.next ?_
  rw [hz]

/-! ## ASIDs (R31, R32, R515) -/

/-- SYS.ASID_REBIND shows an ASID and a status. -/
def rebindShows (n : Nat) (s : State) (st : Nat) : State := sysSet s 0x03C (BitVec.ofNat 64 (n + 2 ^ 16 * st))

/-- The address of an ASID's table entry. -/
def asidEntry (s : State) (n : Nat) : Nat := ((sysGet s 0x03B).extractLsb' 16 23).toNat * 2 ^ 16 + 8 * n

section
variable {s : State} {n : Nat} (hn : (s.arg.v.extractLsb' 0 16).toNat = n)
include hn

theorem asidRebind_none (h : n = 0xFFFF) : Does .asidRebind s (rebindShows n s 3) := by
  subst h
  rw [← bits_eq_toNat_extractLsb' 0 16 _ (by decide)] at hn
  refine congrArg Host.Outcome.next ((if_pos hn).trans ?_)
  rw [hn]
  rfl

theorem asidRebind_busy (h : n ≠ 0xFFFF) (hb : s.rebind ≠ none ∨ asidUsed s n = true) : Does .asidRebind s (rebindShows n s 2) := by
  rw [← bits_eq_toNat_extractLsb' 0 16 _ (by decide)] at hn
  subst hn
  refine congrArg Host.Outcome.next ((if_neg h).trans ((if_pos ?_).trans ?_))
  · rwa [Bool.or_eq_true, Option.isSome_iff_ne_none]
  · simp only [rebindShows, Nat.mul_comm]
    rfl

theorem asidRebind_asks (h : n ≠ 0xFFFF) (hb : s.rebind = none) (hu : asidUsed s n = false) :
    ∃ r, r.kind = .read 8 ∧ r.ref = .asid n ∧ r.pa = asidEntry s n ∧ r.sl = homeSlice (asidEntry s n) ∧
      r.mgmt = true ∧ r.checked = false ∧ r.far = false ∧ r.die = homeDie (asidEntry s n) ∧
      Does .asidRebind s (rebindShows n { s with l2q := s.l2q ++ [r], nextId := s.nextId + 1, rebind := some (n, none) } 1) := by
  have hentry : bits 38 16 (sysGet s srAsidBase) * 2 ^ 16 + 8 * n = asidEntry s n := by
    rw [bits_eq_toNat_extractLsb' 16 23 _ (by decide)]
    rfl
  rw [← bits_eq_toNat_extractLsb' 0 16 _ (by decide)] at hn
  have hdie : 64 * homeDie (asidEntry s n) / 64 = homeDie (asidEntry s n) := Nat.mul_div_cancel_left _ (by decide)
  refine ⟨{ mkReq (homeSlice (asidEntry s n)) (asidEntry s n) 0 (64 * homeDie (asidEntry s n)) 3 (.read 8) (.asid n) 0 (0, 0) with
    mgmt := true, checked := false, id := s.nextId, at_ := s.clock.cycle }, rfl, rfl, rfl, rfl, rfl, rfl, rfl, hdie, ?_⟩
  subst hn
  refine congrArg Host.Outcome.next ((if_neg h).trans ((if_neg ?_).trans ?_))
  · rw [hb, hu]
    exact Bool.false_ne_true
  · dsimp only
    rw [hentry]
    simp only [rebindShows, Nat.mul_comm]
    rfl

end

/-! ## What a home slice's access leaves as it was (R64, R65, R76) -/

/-- Nothing but copies of memory in the caches, and the count of free values, differs. -/
def CachesOnly (s t : State) : Prop := ∃ a b c, t = { s with l2 := a, rdc := b, fresh := c }

theorem CachesOnly.refl (s : State) : CachesOnly s s := ⟨s.l2, s.rdc, s.fresh, rfl⟩

theorem CachesOnly.trans {s t u : State} (h : CachesOnly s t) (h' : CachesOnly t u) : CachesOnly s u := by
  obtain ⟨_, _, _, rfl⟩ := h
  obtain ⟨a, b, c, rfl⟩ := h'
  exact ⟨a, b, c, rfl⟩

theorem l2Fill_caches (s : State) (sl a : Nat) (x : L2Line) (tenant cls : Nat) : CachesOnly s (l2Fill s sl a x tenant cls) := by
  unfold l2Fill
  extract_lets ls u cand free way
  clear_value cand free
  match way with
  | none => exact ⟨_, _, _, rfl⟩
  | some w => exact ⟨_, _, _, rfl⟩

theorem l2HomeLine_caches (s : State) (line : Nat) (sec : BitVec 4) (tenant cls : Nat) (write : Bool) :
    CachesOnly s (l2HomeLine s line sec tenant cls write) := by
  unfold l2HomeLine
  extract_lets sl
  match l2Find s sl line false true 0 with
  | some x => exact ⟨_, _, _, rfl⟩
  | none =>
    dsimp only
    split
    · exact .refl s
    · exact l2Fill_caches ..

theorem l2Home_caches (s : State) (pa n tenant cls : Nat) (write : Bool) : CachesOnly s (l2Home s pa n tenant cls write) := by
  rw [l2Home]
  generalize linesOf pa n = l
  induction l generalizing s with
  | nil => exact .refl s
  | cons a l ih => exact (l2HomeLine_caches s a _ tenant cls write).trans (ih _)

theorem raceFree_caches (s : State) (write : Bool) (pa : Nat) (b : List Byte) : CachesOnly s (raceFree s write pa b).2 := by
  unfold raceFree
  split
  · exact ⟨_, _, _, rfl⟩
  · exact .refl s

/-- An accepted request leaves the queue; its slice counts it. -/
theorem acceptReq_queue (s : State) (r : L2Req) : ∃ q m b, acceptReq s r = { s with l2q := q, lastMgmt := m, buckets := b } := by
  unfold acceptReq
  dsimp only
  split
  · exact ⟨_, _, _, rfl⟩
  · exact ⟨_, _, _, rfl⟩

theorem perform_home {s : State} {r : L2Req} (hf : r.far = false) (hs : r.sl = homeSlice r.pa) : perform s r = performHome s r :=
  (if_neg (by rw [hf]; exact Bool.false_ne_true)).trans (if_pos hs)

/-- A slice takes a request and answers it. -/
theorem l2Request_answers {s v : State} {r : L2Req} {tok : Bool} {p : Reply} (hr : nextReq s s.arg.a = some (r, tok))
    (hp : perform (acceptReq s r) r = (p, v)) (hm : p ≠ .moved) : exec .l2Request s = .next (answerReq v r p) := by
  refine congrArg Host.Outcome.next ?_
  rw [hr]
  dsimp only
  rw [hp]
  cases p with
  | moved => exact absurd rfl hm
  | data _ => rfl
  | fault _ _ => rfl

/-- A read for its own die that no lock stops changes nothing but caches, whatever it answers. -/
theorem performHome_ownRead {s : State} {r : L2Req} {n : Nat} (hk : r.kind = .read n) (hc : r.checked = false) (hd : r.die = homeDie r.pa) :
    ∃ p v, performHome s r = (p, v) ∧ p ≠ .moved ∧ CachesOnly s v := by
  have hl := l2Home_caches s r.pa n r.tenant r.cls false
  unfold performHome
  simp only [hk, hc, Bool.false_and, Bool.false_eq_true, if_false, hd, if_true]
  by_cases hp : poisoned s r.pa n = true
  · rw [if_pos hp]
    exact ⟨_, _, rfl, nofun, hl⟩
  · rw [if_neg hp]
    exact ⟨_, _, rfl, nofun, hl.trans (raceFree_caches ..)⟩

theorem withBits_gen (v : W64) (g : Nat) : withBits 3 0 g v = v.extractLsb' 4 60 ++ BitVec.ofNat 4 g := by
  apply BitVec.eq_of_getLsbD_eq
  intro i hi
  rw [withBits_getLsbD 3 v g hi, BitVec.getLsbD_append, BitVec.getLsbD_ofNat, BitVec.getLsbD_extractLsb']
  by_cases h : i < 4
  · simp [h]
  · simp [h, show i - 4 < 60 by omega, show 4 + (i - 4) = i by omega]

/-- The entry that a rebind reads is written back with the next generation, and waits to be put in force. -/
theorem asidLoad_waits (s : State) (n pa : Nat) :
    (asidLoad s n pa).binds = s.binds ∧
    (asidLoad s n pa).mem = msetAll s.mem pa (bytesLE 8 ((mem64 s pa).extractLsb' 4 60 ++ BitVec.ofNat 4 (((bindOf s n).gen + 1) % 16)).toNat) ∧
    (asidLoad s n pa).rebind = some (n, some ⟨((mem64 s pa).extractLsb' 16 23).toNat, (mem64 s pa).getLsbD 15, ((mem64 s pa).extractLsb' 4 6).toNat, ((bindOf s n).gen + 1) % 16⟩) := by
  rw [← withBits_gen, ← bits_eq_toNat_extractLsb' 16 23 _ (by decide), ← bits_eq_toNat_extractLsb' 4 6 _ (by decide)]
  exact ⟨rfl, rfl, rfl⟩

theorem l2Request_rebinds {s : State} {r : L2Req} {tok : Bool} {n : Nat} (hr : nextReq s s.arg.a = some (r, tok)) (href : r.ref = .asid n)
    (hk : r.kind = .read 8) (hs : r.sl = homeSlice r.pa) (hc : r.checked = false) (hf : r.far = false) (hd : r.die = homeDie r.pa) :
    ∃ t, Does .l2Request s t ∧ t.binds = s.binds ∧
      t.mem = msetAll s.mem r.pa (bytesLE 8 ((mem64 s r.pa).extractLsb' 4 60 ++ BitVec.ofNat 4 (((bindOf s n).gen + 1) % 16)).toNat) ∧
      t.rebind = some (n, some ⟨((mem64 s r.pa).extractLsb' 16 23).toNat, (mem64 s r.pa).getLsbD 15, ((mem64 s r.pa).extractLsb' 4 6).toNat, ((bindOf s n).gen + 1) % 16⟩) := by
  obtain ⟨p, v, hv, hm, hcache⟩ := performHome_ownRead (s := acceptReq s r) hk hc hd
  have hdoes := l2Request_answers hr ((perform_home hf hs).trans hv) hm
  have hload : answerReq v r p = asidLoad v n r.pa := by simp only [answerReq, href]
  rw [hload] at hdoes
  obtain ⟨hb, hmem, hre⟩ := asidLoad_waits v n r.pa
  obtain ⟨q, m, b, ha⟩ := acceptReq_queue s r
  obtain ⟨x, y, z, rfl⟩ := hcache
  rw [ha] at hdoes hb hmem hre
  exact ⟨_, hdoes, hb, hmem, hre⟩

/-! ### The end of a rebind -/

theorem asidRebindDone_idle {s : State} (h : ∀ n b, s.rebind ≠ some (n, some b)) : Does .asidRebindDone s s := by
  refine congrArg Host.Outcome.next ?_
  match hr : s.rebind with
  | none => rfl
  | some (_, none) => rfl
  | some (n, some b) => exact absurd hr (h n b)

/-- A purge leaves no entry that it names, in any buffer. -/
theorem tlbPurge_purges (s : State) (f : TlbEntry → Bool) :
    (∀ p ∈ (tlbPurge s f).cores, ∀ e ∈ p.2.tlb, f e = false) ∧ ∀ p ∈ (tlbPurge s f).clusters, ∀ e ∈ p.2.tlb ++ p.2.ahead, f e = false := by
  have keep {l : List TlbEntry} {e : TlbEntry} (h : e ∈ l.filter (fun t => !f t)) : f e = false := by simpa using (List.mem_filter.mp h).2
  refine ⟨fun p hp e he => ?_, fun p hp e he => ?_⟩
  · obtain ⟨q, -, rfl⟩ := List.mem_map.mp (List.mem_filter.mp hp).1
    exact keep he
  · obtain ⟨q, -, rfl⟩ := List.mem_map.mp (List.mem_filter.mp hp).1
    exact (List.mem_append.mp he).elim keep keep

theorem asidRebindDone_inForce {s : State} {n : Nat} {b : Binding} (h : s.rebind = some (n, some b)) :
    ∃ t, Does .asidRebindDone s t ∧ t.rebind = none ∧ sysGet t 0x03C = BitVec.ofNat 64 n ∧
      bindOf t n = b ∧ (∀ k, k ≠ n → bindOf t k = bindOf s k) ∧ (b.gen ≠ 0 → t.cores = s.cores ∧ t.clusters = s.clusters) ∧
      (b.gen = 0 → (∀ p ∈ t.cores, ∀ e ∈ p.2.tlb, e.asid ≠ n) ∧ ∀ p ∈ t.clusters, ∀ e ∈ p.2.tlb ++ p.2.ahead, e.asid ≠ n) ∧
      t.mem = s.mem ∧ t.teams = s.teams ∧ t.tsys = s.tsys := by
  have hdoes : Does .asidRebindDone s (sysSet { (if b.gen = 0 then tlbPurge s (fun t => t.asid == n) else s) with
      rebind := none, binds := tset {} n b (if b.gen = 0 then tlbPurge s (fun t => t.asid == n) else s).binds } srAsidRebind (BitVec.ofNat 64 n)) := by
    refine congrArg Host.Outcome.next ?_
    rw [h]
  by_cases hb : b.gen = 0
  case neg =>
    rw [if_neg hb] at hdoes
    exact ⟨_, hdoes, rfl, tget_tset_same .., tget_tset_same .., fun k hk => tget_tset_other _ _ _ _ _ hk, fun _ => ⟨rfl, rfl⟩, fun h0 => absurd h0 hb, rfl, rfl, rfl⟩
  case pos =>
    rw [if_pos hb] at hdoes
    obtain ⟨hcores, hclusters⟩ := tlbPurge_purges s (fun t => t.asid == n)
    exact ⟨_, hdoes, rfl, tget_tset_same .., tget_tset_same .., fun k hk => tget_tset_other _ _ _ _ _ hk, fun h0 => absurd hb h0,
      fun _ => ⟨fun p hp e he => beq_eq_false_iff_ne.mp (hcores p hp e he), fun p hp e he => beq_eq_false_iff_ne.mp (hclusters p hp e he)⟩, rfl, rfl, rfl⟩

/-! ## Table synchronisation (R33, R34) -/

/-- What a synchronisation removes from the buffers takes in every translation it names. -/
theorem syncTables_synced (s : State) (ten asid page nlog : Nat) : Synced s (syncTables s ten asid page nlog) ten asid page nlog := by
  have named {e : TlbEntry} (h : (if ((tsysGet s ten srPtGen).toNat + 1) % 2 ^ 32 = 0 then asidNamed s ten 0xFFFF e.asid || asidNamed s ten asid e.asid
      else asidNamed s ten asid e.asid && tlbNamed page nlog e) = false) : ¬ (asidNamed s ten asid e.asid = true ∧ tlbNamed page nlog e = true) := by
    rintro ⟨ha, ht⟩
    rw [ha, ht] at h
    split at h
    · simp at h
    · simp at h
  obtain ⟨hcores, hclusters⟩ := tlbPurge_purges (tsysSet s ten srPtGen (BitVec.ofNat 64 (((tsysGet s ten srPtGen).toNat + 1) % 2 ^ 32)))
    (fun t => if ((tsysGet s ten srPtGen).toNat + 1) % 2 ^ 32 = 0 then asidNamed s ten 0xFFFF t.asid || asidNamed s ten asid t.asid
      else asidNamed s ten asid t.asid && tlbNamed page nlog t)
  exact ⟨tget_tset_same .., fun p hp e he => named (hcores p hp e he), fun p hp e he => named (hclusters p hp e he)⟩

/-- A tenant may name every ASID of its own at once, or one that is bound to it. -/
def MayName (s : State) (ten n : Nat) : Prop := n = 0xFFFF ∨ ((bindOf s n).valid = true ∧ (bindOf s n).tenant = ten)

theorem mayName_iff {s : State} {ten n : Nat} :
    MayName s ten n ↔ ¬ (n ≠ 0xFFFF ∧ (!((bindOf s n).valid && (bindOf s n).tenant == ten)) = true) := by
  rw [not_and_or, not_not, Bool.not_eq_true', Bool.not_eq_false, Bool.and_eq_true, beq_iff_eq]
  rfl

/-- The buffers, the matrix units' addresses and the queues forget what a synchronisation names. -/
def forget (s : State) (ten asid page nlog : Nat) : State := syncQueues (syncMatrix (syncTables s ten asid page nlog) ten) ten

theorem forget_synced (s : State) (ten asid page nlog : Nat) : Synced s (forget s ten asid page nlog) ten asid page nlog := by
  obtain ⟨hgen, hcores, hclusters⟩ := syncTables_synced s ten asid page nlog
  refine ⟨hgen, hcores, fun p hp e he => ?_⟩
  obtain ⟨q, hq, rfl⟩ := List.mem_map.mp hp
  exact hclusters q hq e he

theorem forget_queues (s : State) (ten asid page nlog : Nat) : ∀ q ∈ (forget s ten asid page nlog).queues, q.2.tenant = ten → q.2.waitPa = none := by
  intro q hq hten
  obtain ⟨k, -, rfl⟩ := List.mem_map.mp hq
  split
  · rfl
  next hk =>
    rw [if_neg hk] at hten
    simpa [hten] using hk

theorem forget_keeps (s : State) (ten asid page nlog : Nat) : ∃ ts cs cl qs,
    forget s ten asid page nlog = { s with tsys := ts, cores := cs, clusters := cl, queues := qs } := by
  unfold forget
  have htables : ∃ ts cs cl, syncTables s ten asid page nlog = { s with tsys := ts, cores := cs, clusters := cl } := ⟨_, _, _, rfl⟩
  obtain ⟨ts, cs, cl, h⟩ := htables
  rw [h]
  exact ⟨ts, cs, _, _, rfl⟩

/-- A synchronisation that a tenant begins. -/
def syncOf (s : State) (ten asid page nlog : Nat) : PtSync :=
  { id := s.nextId, tenant := ten, asid, page, nlog, reqs := syncReqs s ten asid page nlog, fars := syncFars s ten, tags := syncTags s ten }

/-- A synchronisation begins. -/
def syncing (s : State) (ten asid page nlog : Nat) : State :=
  { forget s ten asid page nlog with nextId := s.nextId + 1, syncs := s.syncs ++ [syncOf s ten asid page nlog] }

theorem syncing_keeps (s : State) (ten asid page nlog : Nat) : ∃ ts cs cl qs, syncing s ten asid page nlog =
    { s with tsys := ts, cores := cs, clusters := cl, queues := qs, nextId := s.nextId + 1, syncs := s.syncs ++ [syncOf s ten asid page nlog] } := by
  obtain ⟨ts, cs, cl, qs, h⟩ := forget_keeps s ten asid page nlog
  exact ⟨ts, cs, cl, qs, by rw [syncing, h]⟩

theorem syncing_synced (s : State) (ten asid page nlog : Nat) : Synced s (syncing s ten asid page nlog) ten asid page nlog :=
  forget_synced s ten asid page nlog

section
variable {s : State} {ten asid page nlog : Nat} {v : W64} (hn : (v.extractLsb' 0 16).toNat = asid)
include hn

theorem ptSyncStart_foreign (h : ¬ MayName s ten asid) : ptSyncStart s ten v = (0, s) := by
  rw [← bits_eq_toNat_extractLsb' 0 16 _ (by decide)] at hn
  subst hn
  exact if_pos (not_not.mp (mt mayName_iff.mpr h))

theorem ptSyncStart_own (hp : (v.extractLsb' 25 39).toNat = page) (hl : (v.extractLsb' 20 5).toNat = nlog) (h : MayName s ten asid) :
    ptSyncStart s ten v = (s.nextId, syncing s ten asid page nlog) := by
  rw [← bits_eq_toNat_extractLsb' 0 16 _ (by decide)] at hn
  rw [← bits_eq_toNat_extractLsb' 25 39 _ (by decide)] at hp
  rw [← bits_eq_toNat_extractLsb' 20 5 _ (by decide)] at hl
  subst hn hp hl
  refine (if_neg (mayName_iff.mp h)).trans ?_
  obtain ⟨ts, cs, cl, qs, hf⟩ := forget_keeps s ten (bits 15 0 v) (bits 63 25 v) (bits 24 20 v)
  rw [syncing, ← forget, hf]
  rfl

end

theorem ptSync_foreign {s : State} {n : Nat} (hn : (s.arg.v.extractLsb' 0 16).toNat = n) (h : ¬ MayName s s.arg.a n) : Does .ptSync s s :=
  congrArg (fun p : Nat × State => Host.Outcome.next p.2) (ptSyncStart_foreign hn h)

theorem ptSync_starts {s : State} {n page nlog : Nat} (hn : (s.arg.v.extractLsb' 0 16).toNat = n) (hp : (s.arg.v.extractLsb' 25 39).toNat = page)
    (hl : (s.arg.v.extractLsb' 20 5).toNat = nlog) (h : MayName s s.arg.a n) :
    ∃ t x, Does .ptSync s t ∧ t.syncs = s.syncs ++ [x] ∧ x.id = s.nextId ∧ x.tenant = s.arg.a ∧ t.nextId = s.nextId + 1 ∧
       x.fars = syncFars s s.arg.a ∧ x.tags = syncTags s s.arg.a ∧ (∀ q ∈ t.queues, q.2.tenant = s.arg.a → q.2.waitPa = none) ∧
       Synced s t s.arg.a n page nlog ∧ t.mem = s.mem ∧ t.teams = s.teams ∧ t.memops = s.memops := by
  have hdoes : Does .ptSync s (syncing s s.arg.a n page nlog) :=
    congrArg (fun p : Nat × State => Host.Outcome.next p.2) (ptSyncStart_own hn hp hl h)
  have hqueues : ∀ q ∈ (syncing s s.arg.a n page nlog).queues, q.2.tenant = s.arg.a → q.2.waitPa = none := forget_queues s s.arg.a n page nlog
  have hsynced := syncing_synced s s.arg.a n page nlog
  obtain ⟨ts, cs, cl, qs, hs⟩ := syncing_keeps s s.arg.a n page nlog
  rw [hs] at hdoes hqueues hsynced
  exact ⟨_, syncOf s s.arg.a n page nlog, hdoes, rfl, rfl, rfl, rfl, rfl, rfl, hqueues, hsynced, rfl, rfl, rfl⟩

/-- An access of a synchronisation is still under way. -/
def syncOpen (s : State) (p : PtSync) : Bool :=
  s.memops.any (fun o => p.reqs.contains o.id && o.lanes.any (fun l => match l.st with | .sent _ => true | _ => false)) ||
    s.fars.any (fun f => p.fars.contains f.id) || s.fab.tags.any (fun t => t.2.use.isSome && p.tags.contains t.2.id)

theorem syncOver_eq (s : State) (p : PtSync) : syncOver s p = !syncOpen s p := by
  rw [syncOpen, Bool.not_or, Bool.not_or]
  rfl

theorem ptSyncRetire_open {s : State} (h : ∀ p ∈ s.syncs, syncOpen s p = true) : Does .ptSyncRetire s s := by
  have hnone : s.syncs.find? (syncOver s) = none := by
    rw [List.find?_eq_none]
    intro p hp
    rw [syncOver_eq, h p hp]
    exact Bool.false_ne_true
  refine congrArg Host.Outcome.next ?_
  rw [hnone]

section
variable {s : State} {p : PtSync} (hp : s.syncs.find? (fun p => !syncOpen s p) = some p)
include hp

theorem find_syncOver : s.syncs.find? (syncOver s) = some p := by
  rw [← hp, funext (syncOver_eq s)]

theorem ptSyncRetire_plain (h : s.flips.find? (fun f => f.sync == some p.id) = none) :
    Does .ptSyncRetire s { s with syncs := s.syncs.filter (fun q => q.id ≠ p.id), synced := s.synced ++ [p.id] } := by
  simp only [decide_ne_eq_bne]
  refine congrArg Host.Outcome.next ?_
  rw [find_syncOver hp]
  dsimp only
  rw [h]

theorem ptSyncRetire_flip {f : FlipReq} (h : s.flips.find? (fun f => f.sync == some p.id) = some f) :
    Does .ptSyncRetire s (flipOver { s with syncs := s.syncs.filter (fun q => q.id ≠ p.id) } f) := by
  simp only [decide_ne_eq_bne]
  refine congrArg Host.Outcome.next ?_
  rw [find_syncOver hp]
  dsimp only
  rw [h]

end

theorem flipOver_toHost {s : State} {f : FlipReq} (h : f.toHost = true) :
    flipOver s f = { s with flips := s.flips.filter (fun x => x ≠ f), validated := s.validated ++ [(f.asid, pageOf s f.asid f.va)] } := by
  simp only [decide_ne_eq_bne]
  exact if_pos h

theorem flipOver_toDevice {s : State} {f : FlipReq} (h : f.toHost = false) :
    flipOver s f = flipReplays 64 { s with flips := s.flips.filter (fun x => x ≠ f) } f := by
  simp only [decide_ne_eq_bne]
  exact if_neg (by rw [h]; exact Bool.false_ne_true)

/-- Settles O45, clause by clause from the equations of each agent's event. -/
theorem translationEvents : Obligations.TranslationEvents := by
  intro s a v
  refine ⟨fun h hq => ?idle, fun w r hw => ?walks, fun hok => ?asked, fun z hok hz => ⟨zeroRequest_here hok hz, fun v => zeroRequest_asks hok hz⟩,
    fun z => zeroingComplete_ends, ⟨asidRebind_none rfl, asidRebind_busy rfl, asidRebind_asks rfl⟩,
    fun r tok n hr href hk hs hc hf hd => l2Request_rebinds hr href hk hs hc hf hd, asidRebindDone_idle, fun n b => asidRebindDone_inForce,
    ⟨ptSync_foreign rfl, ptSync_starts rfl rfl rfl⟩, fun p hp => ⟨ptSyncRetire_plain hp, fun f h => ⟨fun hh => ?toHost, fun hh => ?toDevice⟩⟩, ptSyncRetire_open⟩
  case idle =>
    refine congrArg Host.Outcome.next ?_
    rw [h]
    exact advanceAll_quiet hq
  case walks =>
    refine ⟨fun x hk ha hn hq => pageWalk_nothing hw hk hq ha hn, fun hk ha hq => pageWalk_refused hw hk hq ha, fun o l tr x hk ho hl hx => ?_⟩
    have hdoes := pageWalk_lane hw hk ho hl hx
    cases tr <;> exact hdoes
  case asked =>
    exact ⟨zeroRequest_refused hok, fun ten ha => ⟨fun h => ⟨_, zeroRequest_posted hok ha h, rfl, rfl, rfl, rfl, rfl, rfl, rfl⟩, fun z => zeroRequest_joins hok ha⟩⟩
  case toHost => exact flipOver_toHost (s := { s with syncs := s.syncs.filter (fun q => q.id ≠ p.id) }) hh ▸ ptSyncRetire_flip hp h
  case toDevice => exact flipOver_toDevice (s := { s with syncs := s.syncs.filter (fun q => q.id ≠ p.id) }) hh ▸ ptSyncRetire_flip hp h

end Sys2Proof.Machine
end

section
/-! SUPPORT. A load's return against the register table of its slice (R390, State: vector register r, lane l at key 4·r + l). -/

namespace Sys2Proof.Machine
-- One declaration after the other: in parallel, the threads' stacks pass the check's memory limit.
set_option Elab.async false
open Sys2Proof.Claims

/-- A load of one byte (ETYPE UINT8) into v4 by gang lane 3, whose byte 255 is at hand. -/
def byteLoad : MemOp :=
  { id := 7, core := 0, tid := 3, gid := 1, tenant := 0, asid := 0, pf := false, gang := 0, slices := [0], word := 0,
    instr := .ld 1 4 126 3 0, pc := 0, mode := 0x300, lanes := [{ gl := 3, va := 0, st := .done, data := [0xFF] }], dests := [4], issued := 0 }

/-- A team of one slice, all of whose registers are 0. -/
def clearTeam : Team :=
  { tid := 3, gid := 1, fid := 2, rank := 0, core := 0, slot := 0, nslices := 1, nregs := 128, teamId := 0, slices := [(0, {})] }

/-- The load returns to the team. -/
def byteLoadReturns : State := { State.reset with memops := [byteLoad], teams := [clearTeam], arg := { a := 7 } }

theorem byteLoad_kind : byteLoad.kind = .load 1 false := by decide

theorem byteLoadReturns_quiet : NoLaneWaits byteLoadReturns := by
  intro o ho l hl
  obtain rfl : o = byteLoad := List.mem_singleton.mp ho
  obtain rfl : l = { gl := 3, va := 0, st := .done, data := [0xFF] } := List.mem_singleton.mp hl
  decide

/-- Register x, number y, of the team's slice once the load has returned. -/
def afterReturn (x y : Nat) : Option W32 :=
  match exec .loadReturn byteLoadReturns with
  | .next u => (findTeam u 3).bind (fun t => (t.slice 0).map (fun k => rdV k x y))
  | _ => none

/-- Lane 3 of v4 holds the byte, and number 7 of v3 is the same entry of the table. -/
theorem afterReturn_lane_beyond : afterReturn 4 3 = some 255 ∧ afterReturn 3 7 = some 255 := by decide +kernel

/-- Refutes O46: the clause on the return of a load keeps `rdV k' x y` for every register x but the destination and for EVERY
number y, and number 7 of v3 is the table's entry of lane 3 of v4, which a byte load into v4 by lane 3 changes from 0 to 255. -/
theorem not_memoryEvents : ¬ Obligations.MemoryEvents := by
  intro h
  obtain ⟨-, -, hreturn, -⟩ := h byteLoadReturns
  obtain ⟨u, t', hdoes, -, hteam, k', hslice, -, hother⟩ := hreturn byteLoad clearTeam {} 1 false 4 byteLoadReturns_quiet (by decide)
    (List.mem_singleton.mpr rfl) rfl (by decide) (by decide) rfl rfl byteLoad_kind (by decide) rfl (by decide) (by decide) rfl rfl
    { gl := 3, va := 0, st := .done, data := [0xFF] } (List.mem_singleton.mpr rfl) rfl
  have hkept : rdV k' 3 7 = 0 := hother 3 (by decide) 7
  have hafter : afterReturn 3 7 = some (rdV k' 3 7) := by
    have hteam : findTeam u 3 = some t' := hteam
    have hslice : t'.slice 0 = some k' := hslice
    rw [Does] at hdoes
    simp only [afterReturn, hdoes, hteam, hslice, Option.bind_some, Option.map_some]
  rw [hkept, afterReturn_lane_beyond.2] at hafter
  exact absurd hafter (by decide)

end Sys2Proof.Machine
end

section
/-! SUPPORT. Start-up, device reset and the management error ring (R67, R145, R253, R501, R508, R511, R512). -/

namespace Sys2Proof.Machine
-- One declaration after the other: in parallel, the threads' stacks pass the check's memory limit.
set_option Elab.async false

/-! ## The steps of a start-up (Table 19.2) -/

/-- The staged image, if there is one, is accepted. -/
def StagedOk (m : Mgmt) : Prop := ∀ b, m.mbox.next = some b → firmwareOk b = true

theorem startState_refused {s : State} (h : ¬ StagedOk s.mgt) (k : Nat) : startState s k = 2 := by
  simp only [StagedOk, not_forall] at h
  obtain ⟨b, hb, hf⟩ := h
  simp [startState, hb, hf]

theorem startState_accepted {s : State} (h : StagedOk s.mgt) (k : Nat) : startState s k =
    if Config.startStep k 1 = true then ([2, 3, 4, 5].find? (fun n => !Config.startStep k n)).elim 1 (· + 1) else 2 := by
  unfold startState
  generalize [2, 3, 4, 5].find? (fun n => !Config.startStep k n) = o
  match hb : s.mgt.mbox.next with
  | none => cases Config.startStep k 1 <;> cases o <;> rfl
  | some b =>
    have hok : firmwareOk b = true := h b hb
    simp only [hok]
    cases Config.startStep k 1 <;> cases o <;> rfl

theorem startState_ready {s : State} (h : StagedOk s.mgt) {k : Nat} (hs : ∀ n, 1 ≤ n → n ≤ 5 → Config.startStep k n = true) :
    startState s k = 1 := by
  simp [startState_accepted h, hs]

/-- The first step that fails decides the state. -/
theorem startState_halts {s : State} (h : StagedOk s.mgt) {k n : Nat} (h1 : 1 ≤ n) (h5 : n ≤ 5) (hn : Config.startStep k n = false)
    (hs : ∀ m, 1 ≤ m → m < n → Config.startStep k m = true) : startState s k = n + 1 := by
  interval_cases n <;> simp [startState_accepted h, hn, hs]

/-! ## Entries of the error ring (R512) -/

/-- Entries joined the ring, and nothing else of the management state changed but the count of lost ones. -/
def MgmtGrows (m m' : Mgmt) : Prop := ∃ r d, m' = { m with ring := m.ring ++ r, dropped := d }

theorem MgmtGrows.refl (m : Mgmt) : MgmtGrows m m := ⟨[], m.dropped, by rw [List.append_nil]⟩

theorem MgmtGrows.trans {l m n : Mgmt} (h : MgmtGrows l m) (k : MgmtGrows m n) : MgmtGrows l n := by
  obtain ⟨r, d, rfl⟩ := h
  obtain ⟨r', d', rfl⟩ := k
  exact ⟨r ++ r', d', by rw [List.append_assoc]⟩

/-- Entries joined the management error ring, and nothing else of the machine changed but the count of lost ones. -/
structure RingGrows (s t : State) : Prop where
  frame : t = { s with mgt := t.mgt }
  mgmt : MgmtGrows s.mgt t.mgt

theorem RingGrows.refl (s : State) : RingGrows s s := ⟨rfl, .refl _⟩

theorem RingGrows.trans {s t u : State} (h : RingGrows s t) (k : RingGrows t u) : RingGrows s u :=
  ⟨k.frame.trans (by rw [h.frame]), h.mgmt.trans k.mgmt⟩

theorem RingGrows.of_records {s t : State} {cause unit index detail : Nat} (h : Claims.Records s t cause unit index detail) : RingGrows s t := by
  unfold Claims.Records at h
  split at h
  · obtain ⟨e, -, -, rfl⟩ := h
    exact ⟨rfl, [e], 0, rfl⟩
  · rw [h]
    exact ⟨rfl, [], _, by rw [List.append_nil]⟩

theorem mgtRecord_grows (s : State) (cause unit index detail : Nat) : RingGrows s (mgtRecord s cause unit index detail) :=
  .of_records (mgtRecord_records s cause unit index detail)

theorem foldl_grows {α : Type} {f : State → α → State} (hf : ∀ s x, RingGrows s (f s x)) (l : List α) (s : State) : RingGrows s (l.foldl f s) := by
  induction l generalizing s with
  | nil => exact .refl s
  | cons x l ih => exact (hf s x).trans (ih _)

/-! ## Step 6: the pod (R143, R145, R178) -/

/-- A write of one key does not change what another reads, whatever its default. -/
theorem tget_tset_ne {α : Type} [DecidableEq α] (d e : α) (k j : Nat) (v : α) (t : Tbl α) (h : j ≠ k) : tget d j (tset e k v t) = tget d j t := by
  unfold tset
  split
  · exact tget_tdel_other _ _ _ _ h
  · exact tget_tput_other _ _ _ _ _ h

theorem sysGet_sysSet (s : State) (n j : Nat) (v : W64) : sysGet (sysSet s n v) j = if j = n then v else sysGet s j := by
  rw [sysGet, sysSet, sysGet]
  split
  · next h => rw [h, tget_tset_same]
  · next h => exact tget_tset_ne _ _ _ _ _ _ h

theorem sysGet_congr {s t : State} (h : t.sys = s.sys) (n : Nat) : sysGet t n = sysGet s n := by rw [sysGet, sysGet, h]

/-- Where a port leads depends on SYS.DEVNUM alone. -/
theorem portTo_congr {s t : State} (h : sysGet t srDevnum = sysGet s srDevnum) (k : Nat) : portTo t k = portTo s k := by
  unfold portTo podQ ownDev
  rw [h]

/-- Bits of a word that is the sum of the powers of numbers in ascending order. -/
theorem getLsbD_sum_two_pow {l : List Nat} (hl : l.SortedLT) {k : Nat}
    (h : (BitVec.ofNat 64 (l.map (fun i => 2 ^ i)).sum).getLsbD k = true) : k ∈ l := by
  rw [BitVec.getLsbD_ofNat, Bool.and_eq_true] at h
  rw [← Nat.bitIndices_sum_map_two_pow hl]
  exact Nat.mem_bitIndices.mpr h.2

/-- What step 6 of a start-up changes of a machine whose ports are down. -/
structure JoinsPod (s t : State) : Prop where
  frame : t = { s with sys := t.sys, clock := { s.clock with grandmaster := t.clock.grandmaster }, mgt := t.mgt }
  mgmt : MgmtGrows s.mgt t.mgt
  regs : ∀ n, n ≠ srDevnum → n ≠ srFabPorts → sysGet t n = sysGet s n
  ports : ∀ k, (sysGet t srFabPorts).getLsbD k = true → portTo t k ≠ none

/-- A machine whose ports are down has no port that is up. -/
theorem ports_down {s t : State} (h : sysGet s srFabPorts = 0) (ht : t.sys = s.sys) (k : Nat)
    (hk : (sysGet t srFabPorts).getLsbD k = true) : portTo t k ≠ none := by
  rw [sysGet_congr ht, h] at hk
  exact absurd hk (by simp)

theorem joinPod_joins {s : State} (h : sysGet s srFabPorts = 0) (k : Nat) : JoinsPod s (joinPod s k) := by
  unfold joinPod
  extract_lets p c u up
  split
  · refine ⟨rfl, .refl _, fun n hd hp => ?_, fun i hi => ?_⟩
    · rw [sysGet_sysSet, if_neg hp, sysGet_sysSet, if_neg hd]
      exact sysGet_congr rfl n
    · rw [sysGet_sysSet, if_pos rfl] at hi
      have hup : up.SortedLT := (List.pairwise_lt_range.filter _).sortedLT
      have hi := (List.mem_filter.mp (getLsbD_sum_two_pow hup hi)).2
      rw [portTo_congr (s := u) (by rw [sysGet_sysSet, if_neg (by decide)])]
      exact Option.isSome_iff_ne_none.mp (Bool.and_eq_true _ _ ▸ hi).2
  · obtain ⟨hframe, hmgmt⟩ := mgtRecord_grows s 0x08 0 0 0
    generalize mgtRecord s 0x08 0 0 0 = t at *
    have hsys : t.sys = s.sys := by rw [hframe]
    exact ⟨by rw [hframe], hmgmt, fun _ _ _ => sysGet_congr hsys _, ports_down h hsys⟩

/-! ## Start-up as a whole (Table 19.2, R509) -/

/-- What a start-up that comes to state `st` makes of the management state. -/
structure MgmtStarts (m m' : Mgmt) (st : Nat) : Prop where
  state : m'.state = st
  boots : m'.boots = m.boots + 1
  extents : m'.extents = m.extents
  signalled : m'.signalled = m.signalled
  ring : ∃ r, m'.ring = m.ring ++ r
  ready : st = 1 → m'.mbox = { m.mbox with next := none } ∧ m'.fw = m.mbox.next.or m.fw ∧
    m'.offCores = (List.range 512).filter (Config.coreOff (m.boots + 1)) ∧ m'.degraded = !m'.offCores.isEmpty
  halted : st ≠ 1 → m' = { m with state := st, boots := m.boots + 1 }

/-- What a start-up changes of a machine whose ports are down. -/
structure StartsUp (s t : State) : Prop where
  mgmt : MgmtStarts s.mgt t.mgt (startState s (s.mgt.boots + 1))
  frame : t = { s with sys := t.sys, clock := { s.clock with grandmaster := t.clock.grandmaster }, mgt := t.mgt }
  regs : ∀ n, n ≠ srDevnum → n ≠ srFabPorts → sysGet t n = sysGet s n
  ports : ∀ k, (sysGet t srFabPorts).getLsbD k = true → portTo t k ≠ none

theorem startUp_startsUp {s : State} (h : sysGet s srFabPorts = 0) : StartsUp s (startUp s) := by
  unfold startUp
  extract_lets k st m0 u off fw m1 b s2 s3 s4
  split
  · next hst =>
    exact ⟨⟨rfl, rfl, rfl, rfl, ⟨[], (List.append_nil _).symm⟩, fun h1 => absurd h1 hst, fun _ => rfl⟩, rfl,
      fun n _ _ => sysGet_congr rfl n, ports_down h rfl⟩
  · next hst =>
    have hfw : fw = s.mgt.mbox.next.or s.mgt.fw := by
      show (match s.mgt.mbox.next with | some b => some b | none => s.mgt.fw) = _
      cases s.mgt.mbox.next <;> rfl
    have hoff : off = (List.range 512).filter (Config.coreOff k) := rfl
    clear_value off fw
    obtain ⟨hframe4, hmgmt4⟩ : RingGrows s2 s4 := by
      clear_value s2
      exact (foldl_grows (fun _ _ => mgtRecord_grows ..) _ _).trans (foldl_grows (fun _ _ => mgtRecord_grows ..) _ _)
    clear_value s4
    have hsys : s4.sys = s.sys := by rw [hframe4]
    obtain ⟨hframe, hmgmt, hregs, hports⟩ := joinPod_joins ((sysGet_congr hsys _).trans h) k
    generalize joinPod s4 k = t at *
    obtain ⟨r, d, hm⟩ := hmgmt4.trans hmgmt
    refine ⟨?_, hframe.trans (by rw [hframe4]), fun n hd hp => (hregs n hd hp).trans (sysGet_congr hsys n), hports⟩
    rw [hm]
    exact ⟨rfl, rfl, rfl, rfl, ⟨r, rfl⟩, fun _ => ⟨rfl, hfw, hoff, rfl⟩, fun h1 => absurd h1 hst⟩

/-! ## A device that starts again (R501, R511) -/

/-- A device whose every array is clear, with management state `m`, before its start-up. -/
def cleared (s : State) (sent : List Packet) (m : Mgmt) : State :=
  { State.reset with agenda := s.agenda, fresh := s.fresh, nextId := s.nextId, arg := s.arg, fab := { sent := sent }, mgt := m }

section
variable {s t : State} {sent : List Packet} {m : Mgmt} (hboots : m.boots = s.mgt.boots) (hfw : m.fw = s.mgt.fw)
  (hbox : m.mbox = { next := s.mgt.mbox.next })
include hboots hfw hbox

theorem boots_of_starts (h : MgmtStarts m t.mgt (startState (cleared s sent m) (m.boots + 1))) : Claims.Boots s t := by
  have himage : StagedOk (cleared s sent m).mgt ↔ ∀ b, s.mgt.mbox.next = some b → firmwareOk b = true := by
    show (∀ b, m.mbox.next = some b → _) ↔ _
    rw [hbox]
  rw [hboots] at h
  refine ⟨h.boots.trans (by rw [hboots]), fun hi hs => ?_, fun hi => ?_, fun hi n h1 h5 hn hs => ?_, fun hne => ?_⟩
  · have hst := startState_ready (himage.mpr hi) hs
    obtain ⟨hb, hf, hoff, hdeg⟩ := h.ready hst
    refine ⟨h.state.trans hst, by rw [hb], ?_, fun c => ?_, ?_⟩
    · rw [hf, hbox, hfw]
      cases s.mgt.mbox.next <;> rfl
    · rw [hoff, hboots, List.mem_filter, List.mem_range]
    · rw [hdeg, Bool.not_eq_true', List.isEmpty_eq_false_iff]
  · exact h.state.trans (startState_refused (mt himage.mp hi) _)
  · exact h.state.trans (startState_halts (himage.mpr hi) h1 h5 hn hs)
  · rw [h.halted (h.state ▸ hne)]
    exact ⟨hbox, hfw⟩

theorem startUp_cleared : Claims.StartsAgain s (startUp (cleared s sent m)) sent ∧
    ∃ st, MgmtStarts m (startUp (cleared s sent m)).mgt st := by
  obtain ⟨hmgmt, hframe, hregs, hports⟩ := startUp_startsUp (s := cleared s sent m) rfl
  have hb := boots_of_starts hboots hfw hbox hmgmt
  generalize startUp (cleared s sent m) = t at *
  exact ⟨⟨by rw [hframe]; rfl, hregs, fun k _ => hports k, hb⟩, _, hmgmt⟩

end

theorem MgmtStarts.ring_halted {m m' : Mgmt} {st : Nat} (h : MgmtStarts m m' st) (hs : m'.state ≠ 1) :
    m'.ring = m.ring ∧ m'.spares = m.spares ∧ m'.offCores = m.offCores := by
  rw [h.halted (h.state ▸ hs)]
  exact ⟨rfl, rfl, rfl⟩

theorem powerOn_starts (s : State) : ∃ t, Claims.Does .powerOn s t ∧ Claims.StartsAgain s t [] ∧ t.mgt.extents = [] ∧
    (t.mgt.state ≠ 1 → t.mgt.ring = []) := by
  obtain ⟨hstarts, st, hm⟩ := startUp_cleared (s := s) (sent := [])
    (m := { boots := s.mgt.boots, fw := s.mgt.fw, mbox := { next := s.mgt.mbox.next } }) rfl rfl rfl
  exact ⟨_, rfl, hstarts, hm.extents, fun hne => (hm.ring_halted hne).1⟩

theorem deviceReset_starts (s : State) : Claims.StartsAgain s (deviceReset s) s.fab.sent ∧ ∃ st, MgmtStarts { s.mgt with
    state := 0, errTime := 0, mbox := { next := s.mgt.mbox.next } } (deviceReset s).mgt st :=
  startUp_cleared rfl rfl rfl

/-- The stack in which an address lies (R67). -/
theorem hbmStack_eq (a : Nat) : hbmStack (a % 2 ^ 39) = 4 * (a / 2 ^ 38 % 2) + ((a / 2 ^ 12 % 4) ^^^ (a / 2 ^ 22 % 4)) := by
  rw [hbmStack, homeDie, show a % 2 ^ 39 / 2 ^ 12 % 4 = a / 2 ^ 12 % 4 by omega, show a % 2 ^ 39 / 2 ^ 22 % 4 = a / 2 ^ 22 % 4 by omega]
  congr 2
  omega

/-- An error that resets the device records its entry first, and the entry stays (R508). -/
theorem fatalError_starts (s : State) (cause unit index : Nat) : ∃ u, Claims.Records s u cause unit index 0 ∧
    Claims.StartsAgain { u with mgt := { u.mgt with signalled := true } } (fatalError s cause unit index) s.fab.sent ∧
    (fatalError s cause unit index).mgt.signalled = true ∧ ∃ r, (fatalError s cause unit index).mgt.ring = u.mgt.ring ++ r := by
  have hrec := mgtRecord_records s cause unit index 0
  obtain ⟨hstarts, st, hm⟩ := deviceReset_starts { mgtRecord s cause unit index 0 with mgt := { (mgtRecord s cause unit index 0).mgt with signalled := true } }
  have hsent : (mgtRecord s cause unit index 0).fab.sent = s.fab.sent := by rw [(RingGrows.of_records hrec).frame]
  refine ⟨_, hrec, ?_, hm.signalled, hm.ring⟩
  rw [← hsent]
  exact hstarts

theorem mgtErr_reads {s : State} {e : MgtEntry} {r : List MgtEntry} (h : s.mgt.ring = e :: r) :
    Claims.Does .mgtErr s { s with mgt := { s.mgt with ring := r, errTime := BitVec.ofNat 64 e.time } } := by
  rw [Claims.Does, exec, execMgtErr, h]

theorem mgtErr_empty {s : State} (h : s.mgt.ring = []) : Claims.Does .mgtErr s s := by
  rw [Claims.Does, exec, execMgtErr, h]

theorem execEccUncorr_listed {s : State} (h : s.arg.a % 2 ^ 39 / 32 ∈ s.poison) :
    execEccUncorr s = .next (emit s (s.arg.b % 64) { code := fcEccUncorr, issuer := 4 } 0) := by
  rw [execEccUncorr, if_pos (List.contains_iff_mem.mpr h)]

theorem execEccUncorr_unlisted {s : State} (h : s.arg.a % 2 ^ 39 / 32 ∉ s.poison) : execEccUncorr s =
    .next (emit { s with poison := s.poison ++ [s.arg.a % 2 ^ 39 / 32] } (s.arg.b % 64) { code := fcEccUncorr, issuer := 4 } 0) := by
  rw [execEccUncorr, if_neg (mt List.contains_iff_mem.mp h)]

theorem eccUncorr_poisons (s : State) : ∃ t u, Claims.Does .eccUncorr s t ∧
    u.poison = (if s.arg.a % 2 ^ 39 / 32 ∈ s.poison then s.poison else s.poison ++ [s.arg.a % 2 ^ 39 / 32]) ∧
    u = { s with poison := u.poison } ∧ t = emit u (s.arg.b % 64) { code := 0x0F, issuer := 4 } 0 := by
  by_cases h : s.arg.a % 2 ^ 39 / 32 ∈ s.poison
  · exact ⟨_, s, execEccUncorr_listed h, (if_pos h).symm, rfl, rfl⟩
  · exact ⟨_, { s with poison := s.poison ++ [s.arg.a % 2 ^ 39 / 32] }, execEccUncorr_unlisted h, (if_neg h).symm, rfl, rfl⟩

/-- Settles O42: each row's start-up, reset or entry of the ring by the lemma about it. -/
theorem startUpAndErrors : Obligations.StartUpAndErrors := by
  intro s
  refine ⟨powerOn_starts s, ?reset, ?fatal, ⟨_, rfl, mgtRecord_records ..⟩, ⟨_, rfl, mgtRecord_records ..⟩, ⟨_, rfl, mgtRecord_records ..⟩,
    ⟨_, rfl, mgtRecord_records ..⟩, mgtErr_empty, fun e r => mgtErr_reads, rfl, eccUncorr_poisons s⟩
  case reset =>
    obtain ⟨hstarts, st, hm⟩ := deviceReset_starts s
    exact ⟨_, rfl, hstarts, hm.extents, hm.signalled, hm.ring, hm.ring_halted⟩
  case fatal =>
    intro i cause unit index h
    simp only [List.mem_cons, List.not_mem_nil, or_false, Prod.mk.injEq] at h
    obtain ⟨rfl, rfl, rfl, rfl⟩ | ⟨rfl, rfl, rfl, rfl⟩ | ⟨rfl, rfl, rfl, rfl⟩ := h
    · obtain ⟨u, hrec, hstarts⟩ := fatalError_starts s 1 0 0
      exact ⟨u, _, hrec, rfl, hstarts⟩
    · obtain ⟨u, hrec, hstarts⟩ := fatalError_starts s 2 8 0
      exact ⟨u, _, hrec, rfl, hstarts⟩
    · rw [← hbmStack_eq]
      obtain ⟨u, hrec, hstarts⟩ := fatalError_starts s 3 5 (hbmStack (s.arg.a % 2 ^ 39))
      exact ⟨u, _, hrec, rfl, hstarts⟩

end Sys2Proof.Machine
end

section
/-! SUPPORT. The scratchpad of a form and the Prefect's accesses to it (R51, R54, R55, R347). -/

namespace Sys2Proof.Machine
-- One declaration after the other: in parallel, the threads' stacks pass the check's memory limit.
set_option Elab.async false
open Sys2Proof.Claims

/-! ## Form offsets (R54, R55) -/

theorem toNat_toInt_of_nonneg {o : W64} (h : 0 ≤ o.toInt) : o.toInt.toNat = o.toNat := by
  rw [BitVec.toInt_eq_toNat_cond] at *
  split at h <;> omega

/-- A range at an offset register lies in the form's scratchpad. -/
theorem winOk_iff (f : Form) (o : W64) (n : Nat) : winOk f o.toInt n = true ↔ 0 ≤ o.toInt ∧ o.toNat + n ≤ f.cores.length * f.winLen := by
  rw [winOk, Bool.and_eq_true, decide_eq_true_eq, decide_eq_true_eq]
  exact and_congr_right (fun h => by rw [toNat_toInt_of_nonneg h])

/-- The core of a form offset is one of the form's. -/
theorem winAt_mem {f : Form} {o c q : Nat} (h : winAt f o = some (c, q)) : c ∈ f.cores := by
  unfold winAt at h
  split at h
  · cases h
  · dsimp only at h
    split at h
    · next hc _ =>
      cases h
      exact List.mem_of_getElem? hc
    · cases h

/-- Without a SRAMCFG that waits, no access is held (R51). -/
theorem offHeld_none {s : State} {f : Form} (h : NoModeChange s f) (o : Nat) : offHeld s f o = false := by
  unfold offHeld
  split
  · rfl
  · next hw =>
    rw [segHeld, h _ (winAt_mem hw)]

/-! ## A Prefect that leaves an instruction -/

section
variable {s : State} {p : Pref} (h : PrefReady s p)
include h

theorem PrefReady.prefDone_id (u : State) : PrefBecomes u p (prefDone u p (fun q => q)) { p.team.pf with pc := p.team.pf.pc + 4 } :=
  ⟨_, prefDone_goes u p _, by rw [← h.st]⟩

/-- A register written, and past the instruction. -/
theorem PrefReady.sets {i : Instr} {d : SReg} {x : W64} {f : Prefect → Prefect} (hf : f p.team.pf = wrS p.team.pf d.toNat x)
    (he : exec i s = .next (prefDone s p f)) : PrefSets s p i d x := by
  refine ⟨{ wrS p.team.pf d.toNat x with pc := p.team.pf.pc + 4 }, ⟨_, he, _, prefDone_goes s p f, ?_⟩, rfl, fun k => tget_tset ..⟩
  dsimp only
  rw [hf, ← h.st]
  rfl

/-! ## Scratchpad accesses of the Prefect (R347) -/

variable {a d : SReg} {disp : W64} {n : Nat} {store : Bool}

theorem prefSpad_misaligned (hn : (rdS p.team.pf a.toNat + disp).toNat % n ≠ 0) :
    prefSpad a disp d n store s = .next (raisePref s p fcMisalign 0 0 (rdS p.team.pf a.toNat + disp)) := by
  rw [prefSpad, withPref_ready h]
  exact congrArg _ (if_pos hn)

variable {f : Form} (hf : findForm s p.team.fid = some f) {o : W64} (ho : rdS p.team.pf a.toNat + disp = o) (hn : o.toNat % n = 0)
include hf ho hn

theorem prefSpad_beyond (hw : o.toInt < 0 ∨ f.cores.length * f.winLen < o.toNat + n) :
    prefSpad a disp d n store s = .next (raisePref s p fcPagePerm 4 0 o) := by
  have hwin : winOk f o.toInt n = false := by
    rw [Bool.eq_false_iff, Ne, winOk_iff]
    omega
  rw [prefSpad, withPref_ready h]
  simp only [ho, hn, hf, hwin, ne_eq, not_true_eq_false, if_false, Bool.not_false, if_true]

variable (hheld : NoModeChange s f) (hw : 0 ≤ o.toInt ∧ o.toNat + n ≤ f.cores.length * f.winLen)
include hheld hw

theorem prefSpad_store : prefSpad a disp d n true s =
    .next (prefDone (spadWrite s f o.toNat (bytesLE n (rdS p.team.pf d.toNat).toNat)) p (fun q => q)) := by
  rw [prefSpad, withPref_ready h]
  simp only [ho, hn, hf, (winOk_iff f o n).mpr hw, offHeld_none hheld, ne_eq, not_true_eq_false, if_false, Bool.not_true, Bool.false_eq_true, if_true]

theorem prefSpad_load : prefSpad a disp d n false s =
    .next (prefDone s p (fun q => wrS q d.toNat (BitVec.ofNat 64 (natLE (spadRead s f o.toNat n))))) := by
  rw [prefSpad, withPref_ready h]
  simp only [ho, hn, hf, (winOk_iff f o n).mpr hw, offHeld_none hheld, ne_eq, not_true_eq_false, if_false, Bool.not_true, Bool.false_eq_true]

end

/-- The instructions of `sAccesses` that go to the scratchpad are accesses of the Prefect to it. -/
theorem sAccesses_spad {A} (hA : A ∈ sAccesses) (hs : A.2.2.2 = true) (d a : SReg) (i : BitVec 10) (s : State) :
    exec (A.1 d a i) s = prefSpad a (dispBytes i A.2.1) d A.2.1 A.2.2.1 s := by
  simp only [sAccesses, List.mem_cons, List.not_mem_nil, or_false] at hA
  rw [← sdisp_eq]
  obtain rfl | rfl | rfl | rfl | rfl | rfl | rfl | rfl := hA
  · cases hs
  · cases hs
  · cases hs
  · cases hs
  all_goals rfl

/-- Settles O27, by the cases of the offset: off its size, outside the windows, inside. -/
theorem prefectScratchpad : Obligations.PrefectScratchpad := by
  intro s p f h hf hheld A hA hs d a i n o
  rw [sAccesses_spad hA hs]
  refine ⟨prefSpad_beyond h hf rfl, prefSpad_misaligned h, fun hn h0 hw => ⟨fun hl => ?_, fun hl => ?_⟩⟩
  · exact h.sets rfl ((sAccesses_spad hA hs d a i s).trans (hl ▸ prefSpad_load h hf rfl hn hheld ⟨h0, hw⟩))
  · rw [hl]
    exact ⟨_, prefSpad_store h hf rfl hn hheld ⟨h0, hw⟩, h.prefDone_id _⟩

end Sys2Proof.Machine
end

section
/-! SUPPORT. LDS and STS: lanes that read and write the form's scratchpad (R55, R385, R390). -/

namespace Sys2Proof.Machine
-- One declaration after the other: in parallel, the threads' stacks pass the check's memory limit.
set_option Elab.async false
open Sys2Proof.Claims

/-! ## Writes of the scratchpad change SRAM words alone -/

/-- No walk of these clusters is an operation's of number `id`. -/
def NoWalkOf (id : Nat) (cs : Tbl Cluster) : Prop := ∀ c ∈ cs, ∀ w ∈ c.2.walks, w.kind = 1 → w.op ≠ id

theorem tget_mem_or_default {α : Type} (d : α) (k : Nat) (t : Tbl α) : tget d k t = d ∨ (k, tget d k t) ∈ t := by
  induction t with
  | nil => exact .inl rfl
  | cons e r ih =>
    obtain ⟨j, v⟩ := e
    by_cases h : j = k
    · exact .inr (by simp [tget, h])
    · simp only [tget, h, if_false]
      exact ih.imp id (List.mem_cons_of_mem _)

theorem mem_tset {α : Type} [DecidableEq α] {d : α} {k : Nat} {v : α} {t : Tbl α} {e : Nat × α} (h : e ∈ tset d k v t) : e = (k, v) ∨ e ∈ t := by
  unfold tset at h
  split at h
  · exact .inr (List.mem_of_mem_filter h)
  · exact mem_tput h

/-- Two machines differ at most in words of SRAM. -/
structure SramOnly (s t : State) : Prop where
  frame : t = { s with clusters := t.clusters }
  cluster : ∀ k, ∃ m, clusterOf t k = { clusterOf s k with sram := m }
  walks : ∀ id, NoWalkOf id s.clusters → NoWalkOf id t.clusters

theorem SramOnly.refl (s : State) : SramOnly s s := ⟨rfl, fun _ => ⟨_, rfl⟩, fun _ h => h⟩

theorem SramOnly.trans {s t u : State} (h : SramOnly s t) (k : SramOnly t u) : SramOnly s u := by
  refine ⟨k.frame.trans (by rw [h.frame]), fun c => ?_, fun id hw => k.walks id (h.walks id hw)⟩
  obtain ⟨m, hm⟩ := h.cluster c
  obtain ⟨m', hm'⟩ := k.cluster c
  exact ⟨m', by rw [hm', hm]⟩

theorem clusterOf_updCluster (s : State) (c k : Nat) (f : Cluster → Cluster) :
    clusterOf (updCluster s c f) k = if k = c then f (clusterOf s c) else clusterOf s k := by
  rw [clusterOf, updCluster, tget_tset]
  rfl

theorem updCluster_sramOnly {s : State} {c : Nat} {f : Cluster → Cluster} (hf : ∃ m, f (clusterOf s c) = { clusterOf s c with sram := m }) :
    SramOnly s (updCluster s c f) := by
  obtain ⟨m, hm⟩ := hf
  refine ⟨rfl, fun k => ?_, fun id hw e he w hew => ?_⟩
  · rw [clusterOf_updCluster]
    split
    · next h => exact ⟨m, h ▸ hm⟩
    · exact ⟨_, rfl⟩
  · rcases mem_tset he with rfl | he
    · have hew : w ∈ (clusterOf s c).walks := by simpa [hm] using hew
      rcases tget_mem_or_default {} c s.clusters with hd | hmem
      · rw [clusterOf, hd] at hew
        cases hew
      · exact hw _ hmem w hew
    · exact hw e he w hew

theorem spadSet_sram (c : Cluster) (m : W64) (g q : Nat) (b : Byte) : ∃ r, spadSet c m g q b = { c with sram := r } := by
  unfold spadSet
  split
  · exact ⟨_, rfl⟩
  · exact ⟨_, rfl⟩

theorem spadWrite_sramOnly (f : Form) (b : List Byte) (s : State) (o : Nat) : SramOnly s (spadWrite s f o b) := by
  induction b generalizing s o with
  | nil => exact .refl s
  | cons x r ih =>
    rw [spadWrite]
    refine SramOnly.trans ?_ (ih ..)
    split
    · exact .refl s
    · exact updCluster_sramOnly (spadSet_sram ..)

/-- Operations in flight do not matter to what is written. -/
theorem spadWrite_inFlight (f : Form) (b : List Byte) (s : State) (o : Nat) (l : List MemOp) (n : Nat) :
    spadWrite { s with memops := l, nextId := n } f o b = { spadWrite s f o b with memops := l, nextId := n } := by
  induction b generalizing s o with
  | nil => rfl
  | cons x r ih =>
    rw [spadWrite, spadWrite]
    match winAt f o with
    | none => exact ih s (o + 1)
    | some (c, q) => exact ih (updCluster s (clusterOfCore c) (fun cl => spadSet cl (segModes s (clusterOfCore c) (c % 4)) (c % 4) q x)) (o + 1)

theorem SramOnly.noModeChange {s t : State} {f : Form} (h : SramOnly s t) (hm : NoModeChange s f) : NoModeChange t f := by
  intro c hc
  obtain ⟨m, hcl⟩ := h.cluster (clusterOfCore c)
  have hteam (tid : Nat) : findTeam t tid = findTeam s tid := by rw [h.frame]; rfl
  simp only [cfgWaits, hcl, hteam]
  exact hm c hc

/-! ## The loop over the lanes of an operation -/

/-- A lane is found among those of other numbers. -/
theorem lane_append_cons {o : MemOp} {A B : List MLane} {l : MLane} (hA : ∀ x ∈ A, x.gl ≠ l.gl) :
    ({ o with lanes := A ++ l :: B } : MemOp).lane l.gl = some l := by
  have hn : A.find? (fun x => x.gl == l.gl) = none := List.find?_eq_none.mpr (fun x hx => by simpa using hA x hx)
  simp [MemOp.lane, hn]

/-- One lane of the operation issued last is changed by `g`, among lanes of other numbers. -/
theorem updLane_middle {s : State} {L : List MemOp} {o : MemOp} {A B : List MLane} {l : MLane} {g : MLane → MLane}
    (hs : s.memops = L ++ [{ o with lanes := A ++ l :: B }]) (hf : ∀ p ∈ L, p.id ≠ o.id) (hA : ∀ x ∈ A, x.gl ≠ l.gl) (hB : ∀ x ∈ B, x.gl ≠ l.gl) :
    updLane s o.id l.gl g = { s with memops := L ++ [{ o with lanes := A ++ g l :: B }] } := by
  have hmap {X : List MLane} (hX : ∀ x ∈ X, x.gl ≠ l.gl) : X.map (fun x => if x.gl = l.gl then g x else x) = X :=
    (List.map_congr_left (fun x hx => if_neg (hX x hx))).trans (List.map_id X)
  rw [updLane, updOp_last hs hf]
  simp only [List.map_append, List.map_cons, if_true, hmap hA, hmap hB]

/-- The machine `w` with the operation issued last in flight, its lanes being `ls`. -/
def issued (s w : State) (o : MemOp) (ls : List MLane) : State :=
  { w with memops := s.memops ++ [{ o with lanes := ls }], nextId := s.nextId + 1 }

section
variable {s : State} {o : MemOp} {R : State → Prop} {eff : State → MLane → State} {fin : MLane → MLane} (hfresh : ∀ p ∈ s.memops, p.id ≠ o.id)
  (hgl : ∀ l, (fin l).gl = l.gl) (heff : ∀ w l, R w → R (eff w l))
  (hstep : ∀ w ls l, R w → l ∈ o.lanes → ({ o with lanes := ls } : MemOp).lane l.gl = some l →
    ∃ g, g l = fin l ∧ stepLane o.id (issued s w o ls) l.gl = updLane (issued s (eff w l) o ls) o.id l.gl g)
include hfresh hgl heff hstep

/-- Lanes that each have an effect on the machine and are then as `fin` leaves them, one after the other. -/
theorem stepLanes_effects {w : State} (hw : R w) (A B : List MLane) (hmem : ∀ l ∈ B, l ∈ o.lanes) (hnd : ((A ++ B).map MLane.gl).Nodup) :
    (B.map MLane.gl).foldl (stepLane o.id) (issued s w o (A.map fin ++ B)) = issued s (B.foldl eff w) o ((A ++ B).map fin) := by
  induction B generalizing w A with
  | nil => simp
  | cons l B ih =>
    have hnd' := hnd
    simp only [List.map_append, List.map_cons, List.nodup_append, List.nodup_cons, List.mem_map, List.mem_cons, forall_exists_index, and_imp] at hnd'
    obtain ⟨-, ⟨hB, -⟩, hA⟩ := hnd'
    have hA : ∀ x ∈ A.map fin, x.gl ≠ l.gl := List.forall_mem_map.mpr (fun x hx => hgl x ▸ hA x.gl x hx rfl l.gl (.inl rfl))
    have hB : ∀ x ∈ B, x.gl ≠ l.gl := fun x hx he => hB ⟨x, hx, he⟩
    obtain ⟨g, hg, he⟩ := hstep w _ l hw (hmem l List.mem_cons_self) (lane_append_cons hA)
    have hgoal := ih (heff w l hw) (A ++ [l]) (fun x hx => hmem x (List.mem_cons_of_mem _ hx)) (by simpa using hnd)
    rw [List.map_cons, List.foldl_cons, List.foldl_cons, he, updLane_middle rfl hfresh hA hB, hg]
    simpa [issued] using hgoal

/-- An operation whose lanes all go at once has had their effects when it is settled. -/
theorem startOp_effects (hs : R s) (hk : o.kind ≠ .sttr) (hnd : (o.lanes.map MLane.gl).Nodup) :
    startOp s o = settleOp (issued s (o.lanes.foldl eff s) o (o.lanes.map fin)) o.id := by
  have hloop := stepLanes_effects hfresh hgl heff hstep hs [] o.lanes (fun _ h => h) hnd
  rw [startOp, advanceOp, findOp_last rfl hfresh]
  simp only [hk, if_false]
  exact congrArg (settleOp · o.id) hloop

end

/-! ## One lane of LDS or STS (R55, R390) -/

section
variable {u : State} {o : MemOp} {l : MLane} {t : Team} {f : Form} {n : Nat} (ht : findTeam u o.tid = some t) (hf : findForm u t.fid = some f)
  (hheld : NoModeChange u f) (hw : 0 ≤ l.va.toInt ∧ l.va.toNat + n ≤ f.cores.length * f.winLen)
include ht hf hheld hw

theorem spadLane_sts (hk : o.kind = .sts n) : spadLane u o l = setLaneSt (spadWrite u f l.va.toNat (l.src.take n)) o.id l.gl .done := by
  unfold spadLane
  simp only [ht, hf, hk, MKind.bytes, (winOk_iff f l.va n).mpr hw, offHeld_none hheld, Bool.not_true, Bool.false_eq_true, if_false,
    toNat_toInt_of_nonneg hw.1]

theorem spadLane_lds {sgn : Bool} (hk : o.kind = .lds n sgn) :
    spadLane u o l = updLane u o.id l.gl (fun x => { x with st := .done, data := spadRead u f l.va.toNat n }) := by
  unfold spadLane
  simp only [ht, hf, hk, MKind.bytes, (winOk_iff f l.va n).mpr hw, offHeld_none hheld, Bool.not_true, Bool.false_eq_true, if_false,
    toNat_toInt_of_nonneg hw.1]

end

/-- A lane of LDS or STS that has not gone is taken to the scratchpad. -/
theorem stepLane_spad {u : State} {o : MemOp} {l : MLane} {n : Nat} (ho : findOp u o.id = some o) (hl : o.lane l.gl = some l) (ht : l.st = .todo)
    (hk : o.kind = .sts n ∨ ∃ sgn, o.kind = .lds n sgn) : stepLane o.id u l.gl = spadLane u o l := by
  unfold stepLane
  obtain hk | ⟨sgn, hk⟩ := hk
  · simp only [ho, hl, ht, hk, ne_eq, not_true_eq_false, if_false]
  · simp only [ho, hl, ht, hk, ne_eq, not_true_eq_false, if_false]

/-! ## Completion -/

theorem final_of_done {o : MemOp} (h : ∀ l ∈ o.lanes, l.st = .done) : o.final = true := List.all_eq_true.mpr (fun l hl => by rw [h l hl]; rfl)

theorem faults_of_done {o : MemOp} (h : ∀ l ∈ o.lanes, l.st = .done) : o.lanes.filter (fun l => l.flt.isSome) = [] :=
  List.filter_eq_nil_iff.mpr (fun l hl => by simp [MLane.flt, h l hl])

/-- A load whose lanes are done waits for its return. -/
theorem settleOp_loaded {u : State} {o : MemOp} (ho : findOp u o.id = some o) (hfin : ∀ l ∈ o.lanes, l.st = .done)
    (hout : teamOut u o.tid = false) (hpf : o.pf = false) (hd : o.dests ≠ []) : settleOp u o.id = u := by
  simp only [settleOp, ho, final_of_done hfin, hout, hpf, List.isEmpty_eq_false_iff.mpr hd, Bool.not_true, Bool.or_self, Bool.false_eq_true, if_false]

/-- Dropping the walks of an operation that has none. -/
theorem dropWalks_none {id : Nat} {cs : Tbl Cluster} (h : NoWalkOf id cs) :
    cs.map (fun p => (p.1, { p.2 with walks := p.2.walks.filter (fun w => !(w.kind == 1 && w.op == id)) })) = cs := by
  refine (List.map_congr_left (fun p hp => ?_)).trans (List.map_id cs)
  have hwalks : p.2.walks.filter (fun w => !(w.kind == 1 && w.op == id)) = p.2.walks :=
    List.filter_eq_self.mpr (fun w hw => by simpa [imp_iff_not_or] using h p hp w hw)
  rw [hwalks]
  rfl

theorem endBlocking_none {s : State} {o : MemOp} (h : ∀ t ∈ s.teams, ∀ e ∈ t.gambit, e.blockOp ≠ o.id) : endBlocking s o = s := by
  unfold endBlocking
  split
  · rfl
  · next t ht =>
    have hn : t.gambit.find? (fun e => e.blockOp == o.id) = none :=
      List.find?_eq_none.mpr (fun e he => by simpa using h t (List.mem_of_find?_eq_some ht) e he)
    rw [hn]

theorem logFaults_none {s : State} {o : MemOp} (h : ∀ l ∈ o.lanes, l.st = .done) : logFaults s o = s := by
  simp only [logFaults, faults_of_done h, sortOn, groupFaults, List.foldl_nil]

theorem writeDone_none {s : State} {o : MemOp} (h : o.dests = []) : writeDone s o = s := by
  simp only [writeDone, h, List.isEmpty_nil, Bool.not_true, Bool.false_eq_true, and_false, if_false]
  exact List.foldl_fixed' (fun _ => rfl) _

/-- An operation that writes no register, whose lanes are done and for which nothing waits, leaves the machine. -/
theorem settleOp_stored {u : State} {L : List MemOp} {o : MemOp} {n : Nat} (hu : u.memops = L ++ [o]) (hf : ∀ p ∈ L, p.id ≠ o.id)
    (hfin : ∀ l ∈ o.lanes, l.st = .done) (hk : o.kind = .sts n) (hout : teamOut u o.tid = false) (hpf : o.pf = false) (hd : o.dests = [])
    (hr : o.replayOf = none) (hw : NoWalkOf o.id u.clusters) (hg : ∀ t ∈ u.teams, ∀ e ∈ t.gambit, e.blockOp ≠ o.id) :
    settleOp u o.id = { u with memops := L } := by
  have ho := findOp_last hu hf
  have hL : u.memops.filter (fun p => p.id != o.id) = L := by
    have hkeep : L.filter (fun p => p.id != o.id) = L := List.filter_eq_self.mpr (fun p hp => by simpa using hf p hp)
    simp [hu, hkeep]
  have hc : couple o = o := by rw [couple, hk]
  have hend : endBlocking { u with memops := L } o = { u with memops := L } := endBlocking_none hg
  simp only [settleOp, completeOp, ho, final_of_done hfin, hout, hpf, hd, hr, hc, hL, writeDone_none hd, logFaults_none hfin, Bool.not_true, Bool.or_self,
    Bool.false_eq_true, if_false, List.isEmpty_nil, if_true, hend, dropWalks_none hw]

/-! ## Operations on the scratchpad that nothing holds -/

/-- An operation about to start, each of whose lanes accesses n bytes inside the scratchpad of the form. -/
structure SpadOp (s : State) (o : MemOp) (f : Form) (n : Nat) : Prop where
  fresh : ∀ p ∈ s.memops, p.id ≠ o.id
  form : ∃ t, findTeam s o.tid = some t ∧ findForm s t.fid = some f
  held : NoModeChange s f
  out : teamOut s o.tid = false
  gang : o.pf = false
  nodup : (o.lanes.map MLane.gl).Nodup
  todo : ∀ l ∈ o.lanes, l.st = .todo
  inside : ∀ l ∈ o.lanes, 0 ≤ l.va.toInt ∧ l.va.toNat + n ≤ f.cores.length * f.winLen

section
variable {s : State} {o : MemOp} {f : Form} {n : Nat} (h : SpadOp s o f n)
include h

theorem SpadOp.stepLane_eq {w : State} {ls : List MLane} {l : MLane} (hl : l ∈ o.lanes)
    (hlane : ({ o with lanes := ls } : MemOp).lane l.gl = some l) (hk : o.kind = .sts n ∨ ∃ sgn, o.kind = .lds n sgn) :
    stepLane o.id (issued s w o ls) l.gl = spadLane (issued s w o ls) { o with lanes := ls } l :=
  stepLane_spad (o := { o with lanes := ls }) (findOp_last rfl h.fresh) hlane (h.todo l hl) hk

theorem SpadOp.form_issued {w : State} (hw : SramOnly s w) (ls : List MLane) :
    ∃ t, findTeam (issued s w o ls) o.tid = some t ∧ findForm (issued s w o ls) t.fid = some f := by
  obtain ⟨t, ht, hf⟩ := h.form
  refine ⟨t, ?_, ?_⟩
  · rw [hw.frame]; exact ht
  · rw [hw.frame]; exact hf

theorem SpadOp.startOp_sts (hk : o.kind = .sts n) (hd : o.dests = []) (hr : o.replayOf = none) (hwalk : NoWalkOf o.id s.clusters)
    (hg : ∀ t ∈ s.teams, ∀ e ∈ t.gambit, e.blockOp ≠ o.id) :
    startOp s o = { o.lanes.foldl (fun w l => spadWrite w f l.va.toNat (l.src.take n)) s with nextId := s.nextId + 1 } := by
  have hsram (w : State) (l : MLane) (hw : SramOnly s w) : SramOnly s (spadWrite w f l.va.toNat (l.src.take n)) :=
    hw.trans (spadWrite_sramOnly ..)
  have hrun := startOp_effects (R := SramOnly s) (fin := fun l => { l with st := .done }) h.fresh (fun _ => rfl) hsram (by
    intro w ls l hw hl hlane
    obtain ⟨t, ht, hf⟩ := h.form_issued hw ls
    refine ⟨fun l => { l with st := .done }, rfl, ?_⟩
    rw [h.stepLane_eq hl hlane (.inl hk), spadLane_sts (o := { o with lanes := ls }) ht hf (hw.noModeChange h.held) (h.inside l hl) hk]
    exact congrArg (setLaneSt · o.id l.gl .done) (spadWrite_inFlight ..)) (.refl s) (by rw [hk]; exact nofun) h.nodup
  rw [hrun]
  have hw : SramOnly s (o.lanes.foldl (fun w l => spadWrite w f l.va.toNat (l.src.take n)) s) :=
    List.foldlRecOn o.lanes _ (.refl s) (fun w hw l _ => hsram w l hw)
  generalize o.lanes.foldl (fun w l => spadWrite w f l.va.toNat (l.src.take n)) s = w at hw
  have hdone : ∀ l ∈ o.lanes.map (fun l => { l with st := LaneSt.done }), l.st = .done := List.forall_mem_map.mpr (fun _ _ => rfl)
  have hout : teamOut (issued s w o (o.lanes.map (fun l => { l with st := .done }))) o.tid = false := by
    rw [hw.frame]
    exact h.out
  have hblock : ∀ t ∈ w.teams, ∀ e ∈ t.gambit, e.blockOp ≠ o.id := by
    rw [hw.frame]
    exact hg
  refine (settleOp_stored (o := { o with lanes := o.lanes.map (fun l => { l with st := .done }) }) rfl h.fresh hdone hk hout h.gang hd hr
    (hw.walks _ hwalk) hblock).trans ?_
  rw [hw.frame]
  rfl

theorem SpadOp.startOp_lds {sgn : Bool} (hk : o.kind = .lds n sgn) (hd : o.dests ≠ []) :
    startOp s o = issued s s o (o.lanes.map (fun l => { l with st := .done, data := spadRead s f l.va.toNat n })) := by
  have hrun := startOp_effects (R := (· = s)) (eff := fun w _ => w) (fin := fun l => { l with st := .done, data := spadRead s f l.va.toNat n }) h.fresh
    (fun _ => rfl) (fun _ _ hw => hw) (by
    rintro w ls l rfl hl hlane
    obtain ⟨t, ht, hf⟩ := h.form_issued (.refl w) ls
    refine ⟨fun x => { x with st := .done, data := spadRead w f l.va.toNat n }, rfl, ?_⟩
    rw [h.stepLane_eq hl hlane (.inr ⟨sgn, hk⟩), spadLane_lds (o := { o with lanes := ls }) ht hf h.held (h.inside l hl) hk]
    rfl) rfl (by rw [hk]; exact nofun) h.nodup
  rw [hrun, List.foldl_fixed' (fun _ => rfl)]
  have hdone : ∀ l ∈ o.lanes.map (fun l => { l with st := LaneSt.done, data := spadRead s f l.va.toNat n }), l.st = .done :=
    List.forall_mem_map.mpr (fun _ _ => rfl)
  exact settleOp_loaded (o := { o with lanes := o.lanes.map _ }) (findOp_last rfl h.fresh) hdone h.out h.gang hd

end

/-! ## Issue (R243, R385, R390) -/

theorem theGang_team {s : State} {tid lead : Nat} {g : Gang} (h : theGang s tid lead = some g) : findTeam s tid = some g.team := by
  unfold theGang at h
  split at h
  · cases h
  · next t ht =>
    split at h
    · cases h
    · split at h
      · cases h
      · cases h
        exact ht

section
variable {s : State} {g : Gang} (h : GangReady s g)
include h

theorem lanesOf_nodup : ((lanesOf g).map (fun q => gangLane q.1 q.2.2)).Nodup := by
  have hnd := activeLanes_nodup h.nums 1
  rw [activeLanes_ready h] at hnd
  exact List.Nodup.map_on (fun _ hp _ hq he => gangLane_inj h hp hq he) hnd.of_map

/-- A memory instruction whose lanes are aligned issues. -/
theorem memInstr_starts {sp : MSpec} {k : MKind} (he : sp.enc = true) (hok : sp.ok g.team.nregs g.mode = true) (hk : kindOf sp.instr g.mode = some k)
    (hal : markAlign k ((lanesOf g).map (sp.lane g)) = (lanesOf g).map (sp.lane g)) :
    memInstr sp s = .next (finish (startOp s (mkOp s g sp ((lanesOf g).map (sp.lane g)))) g sp.wait none (fun _ sl => sl)) := by
  rw [memInstr, withGang_ready h, memRun]
  simp only [h.notAhead, he, hok, hk, gangEntries_ready h, prelude_ready h, activeLanes_ready h, meetsEntry, hal, Option.isSome_some, Option.getD_some,
    Bool.and_self, Bool.not_true, Bool.false_eq_true, if_false, List.length_nil, List.any_nil, show ¬ 4 ≤ 0 by decide]

end

/-! ### The operands of LDS and STS (Table 13.2) -/

section
variable {x : MOps} {m : W64} {n N : Nat} (hn : accessSize x.z m = some n) (i : Instr) (load : Bool) (act : GAct)
include hn

theorem vmSpec_ok_iff : (vmSpec i x.w x.d x.a x.z x.i false load act).ok N m = true ↔ SpadLegal N m x n := by
  have hregs : (groupRegs x.d.toNat (regCount (vmBytes x.z m))).all (fun r => decide (r < N)) = true ↔ ∀ y ∈ groupRegs x.d.toNat (regsFor n), y < N := by
    rw [vmRegs_eq hn]
    simp only [List.all_eq_true, decide_eq_true_eq]
  rw [SpadLegal, groupOk_iff, ← hregs, ← vmAligned_iff hn]
  cases load <;> simp [MSpec.ok, vmSpec, MSpec.addrRegs, hn] <;> tauto

end

section
variable {s : State} {g : Gang} (h : GangReady s g) {x : MOps} {n : Nat} (hn : accessSize x.z g.mode = some n) (i : Instr) (load : Bool) (act : GAct)
  {q : Nat × Slice × Nat} (hq : q ∈ lanesOf g)
include h hn hq

/-- The machine's lane of LDS or STS. -/
theorem vmSpec_lane : ((vmSpec i x.w x.d x.a x.z x.i false load act).lane g q).gl = gangLane q.1 q.2.2 ∧
    ((vmSpec i x.w x.d x.a x.z x.i false load act).lane g q).va = spadOff x n q ∧
    ((vmSpec i x.w x.d x.a x.z x.i false load act).lane g q).src = (if load then [] else dataOf q.2.1 (x.d, regsFor n) q.2.2) ∧
    ((vmSpec i x.w x.d x.a x.z x.i false load act).lane g q).st = .todo := by
  refine ⟨rfl, ?_, ?_, rfl⟩
  · simp only [MSpec.lane, vmSpec, Bool.false_eq_true, if_false, readV_ready h hq, vmBytes_eq hn, spadOff]
  · cases load
    · simp only [MSpec.lane, vmSpec, Bool.false_eq_true, if_false, vmRegs_eq hn, regBytes_ready h hq (x.d, regsFor n)]
      rfl
    · rfl

end

/-- No size of access makes the operands legal, so the machine's checks fail. -/
theorem vmSpec_illegal {x : MOps} {m : W64} {N : Nat} (hbad : ∀ n, ¬ SpadLegal N m x n) (i : Instr) (load : Bool) (act : GAct)
    (hk : ∃ k, kindOf i m = (sizeAccess x.z.toNat (modeEtype m)).map k) :
    ((vmSpec i x.w x.d x.a x.z x.i false load act).enc && ((vmSpec i x.w x.d x.a x.z x.i false load act).ok N m &&
      (kindOf (vmSpec i x.w x.d x.a x.z x.i false load act).instr m).isSome)) = false := by
  match hn : accessSize x.z m with
  | none =>
    obtain ⟨k, hk⟩ := hk
    have hnone : kindOf (vmSpec i x.w x.d x.a x.z x.i false load act).instr m = none := by
      rw [accessSize_eq, Option.map_eq_none_iff] at hn
      exact hk.trans (by rw [hn]; rfl)
    simp [hnone]
  | some n =>
    have hok : (vmSpec i x.w x.d x.a x.z x.i false load act).ok N m = false :=
      Bool.eq_false_iff.mpr (fun ho => hbad n ((vmSpec_ok_iff hn i load act).mp ho))
    simp [hok]

theorem markAlign_spad {k : MKind} {n : Nat} (hk : k = .sts n ∨ ∃ sgn, k = .lds n sgn) {ls : List MLane} (h : ∀ l ∈ ls, l.va.toNat % n = 0) :
    markAlign k ls = ls := by
  have hmap : markAlign k ls = ls.map (fun l => match misaligned k l with | none => l | some va => { l with st := .fault fcMisalign 0 0 va }) := by
    obtain rfl | ⟨sgn, rfl⟩ := hk <;> rfl
  have hnone : ∀ l ∈ ls, misaligned k l = none := by
    obtain rfl | ⟨sgn, rfl⟩ := hk <;> exact fun l hl => if_neg (not_not.mpr (h l hl))
  rw [hmap]
  exact (List.map_congr_left (g := id) (fun l hl => by rw [hnone l hl]; rfl)).trans (List.map_id ls)

section
variable {s : State} {g : Gang} {f : Form} (h : GangReady s g) (hfresh : Fresh s) (hform : findForm s g.team.fid = some f) (hheld : NoModeChange s f)
  (hout : teamOut s g.team.tid = false) {x : MOps} {n : Nat} (hlegal : SpadLegal g.team.nregs g.mode x n)
  (hw : ∀ q ∈ lanesOf g, (spadOff x n q).toNat % n = 0 ∧ 0 ≤ (spadOff x n q).toInt ∧ (spadOff x n q).toNat + n ≤ f.cores.length * f.winLen)
  {i : Instr} {load : Bool} {act : GAct} {sp : MSpec} (hsp : vmSpec i x.w x.d x.a x.z x.i false load act = sp)
include h hlegal hw hsp

theorem vmSpec_starts {k : MKind} (hkind : kindOf i g.mode = some k) (hk : k = .sts n ∨ ∃ sgn, k = .lds n sgn) :
    memInstr sp s = .next (finish (startOp s (mkOp s g sp ((lanesOf g).map (sp.lane g)))) g sp.wait none (fun _ sl => sl)) := by
  subst hsp
  refine memInstr_starts h rfl ((vmSpec_ok_iff hlegal.1 i load act).mpr hlegal) hkind (markAlign_spad hk (List.forall_mem_map.mpr (fun q hq => ?_)))
  rw [(vmSpec_lane h hlegal.1 i load act hq).2.1]
  exact (hw q hq).1

include hfresh hform hheld hout

theorem vmSpec_spadOp : SpadOp s (mkOp s g sp ((lanesOf g).map (sp.lane g))) f n where
  fresh := hfresh.1
  form := ⟨g.team, theGang_team h.here, hform⟩
  held := hheld
  out := hout
  gang := rfl
  nodup := by
    have hgl : ((lanesOf g).map (sp.lane g)).map MLane.gl = (lanesOf g).map (fun q => gangLane q.1 q.2.2) := List.map_map ..
    exact hgl ▸ lanesOf_nodup h
  todo := List.forall_mem_map.mpr (fun _ _ => rfl)
  inside := List.forall_mem_map.mpr (fun q hq => by
    rw [← hsp, (vmSpec_lane h hlegal.1 i load act hq).2.1]
    exact (hw q hq).2)

end

section
variable {s : State} {g : Gang} {f : Form} (h : GangReady s g) (hfresh : Fresh s) (hform : findForm s g.team.fid = some f) (hheld : NoModeChange s f)
  (hout : teamOut s g.team.tid = false) {x : MOps} {n : Nat} (hlegal : SpadLegal g.team.nregs g.mode x n)
  (hw : ∀ q ∈ lanesOf g, (spadOff x n q).toNat % n = 0 ∧ 0 ≤ (spadOff x n q).toInt ∧ (spadOff x n q).toNat + n ≤ f.cores.length * f.winLen)
include h hfresh hform hheld hout hlegal hw

theorem sts_writes : ∃ t, exec (.sts x.w x.d x.a x.z x.i) s = .next t ∧
    GangGoes { (lanesOf g).foldl (fun s q => spadWrite s f (spadOff x n q).toNat ((dataOf q.2.1 (x.d, regsFor n) q.2.2).take n)) s with
      nextId := s.nextId + 1 } g t (fun _ sl sl' => OnlyPc sl sl') := by
  obtain ⟨sgn, hs⟩ := sizeAccess_some hlegal.1
  have hkind : kindOf (.sts x.w x.d x.a x.z x.i) g.mode = some (.sts n) := congrArg (Option.map _) hs
  have hlane {q} (hq : q ∈ lanesOf g) := vmSpec_lane h hlegal.1 (.sts x.w x.d x.a x.z x.i) false .dropped hq
  have hexec : exec (.sts x.w x.d x.a x.z x.i) s = memInstr (vmSpec (.sts x.w x.d x.a x.z x.i) x.w x.d x.a x.z x.i false false .dropped) s := rfl
  generalize hsp : vmSpec (.sts x.w x.d x.a x.z x.i) x.w x.d x.a x.z x.i false false .dropped = sp at hexec hlane
  have hop := vmSpec_spadOp h hfresh hform hheld hout hlegal hw hsp
  have hrun := hop.startOp_sts (by rw [MemOp.kind, mkOp, ← hsp]; exact congrArg (Option.getD · _) hkind) (by rw [mkOp, ← hsp]; rfl) rfl hfresh.2.1 hfresh.2.2
  have hfold : ((lanesOf g).map (sp.lane g)).foldl (fun w l => spadWrite w f l.va.toNat (l.src.take n)) s =
      (lanesOf g).foldl (fun s q => spadWrite s f (spadOff x n q).toNat ((dataOf q.2.1 (x.d, regsFor n) q.2.2).take n)) s := by
    rw [List.foldl_map]
    refine List.foldl_ext _ _ _ (fun w q hq => ?_)
    rw [(hlane hq).2.1, (hlane hq).2.2.1]
    rfl
  refine ⟨_, hexec.trans (vmSpec_starts h hlegal hw hsp hkind (.inl rfl)), ?_⟩
  rw [hrun, ← hfold]
  exact (finish_goes h.notAhead ..).onlyPc h

theorem lds_reads : ∃ t o, exec (.lds x.w x.d x.a x.z x.i) s = .next t ∧
    GangGoes { s with memops := s.memops ++ [o], nextId := s.nextId + 1 } g t (fun _ sl sl' => OnlyPc sl sl') ∧
    OpOf s g (.lds x.w x.d x.a x.z x.i) o ∧ o.dests = (List.range (regsFor n)).map (fun j => x.d.toNat + j) ∧
    o.lanes.map (fun l => (l.gl, l.st, l.data)) =
      (lanesOf g).map (fun q => (4 * (q.1 % 8) + q.2.2, .done, spadRead s f (spadOff x n q).toNat n)) := by
  obtain ⟨sgn, hs⟩ := sizeAccess_some hlegal.1
  have hkind : kindOf (.lds x.w x.d x.a x.z x.i) g.mode = some (.lds n sgn) := congrArg (Option.map _) hs
  have hlane {q} (hq : q ∈ lanesOf g) := vmSpec_lane h hlegal.1 (.lds x.w x.d x.a x.z x.i) true .loads hq
  have hexec : exec (.lds x.w x.d x.a x.z x.i) s = memInstr (vmSpec (.lds x.w x.d x.a x.z x.i) x.w x.d x.a x.z x.i false true .loads) s := rfl
  generalize hsp : vmSpec (.lds x.w x.d x.a x.z x.i) x.w x.d x.a x.z x.i false true .loads = sp at hexec hlane
  have hop := vmSpec_spadOp h hfresh hform hheld hout hlegal hw hsp
  have hdests : sp.dests g.mode = (List.range (regsFor n)).map (fun j => x.d.toNat + j) := by
    rw [← hsp, ← vmRegs_eq hlegal.1]
    rfl
  have hne : sp.dests g.mode ≠ [] := by
    rw [hdests, regsFor]
    simp
  have hrun := hop.startOp_lds (by rw [MemOp.kind, mkOp, ← hsp]; exact congrArg (Option.getD · _) hkind) hne
  have hstart := hexec.trans (vmSpec_starts h hlegal hw hsp hkind (.inr ⟨sgn, rfl⟩))
  rw [hrun] at hstart
  refine ⟨_, _, hstart, (finish_goes h.notAhead ..).onlyPc h, ?_, hdests, ?_⟩
  · exact ⟨rfl, by rw [← hsp]; rfl, rfl, rfl, rfl, rfl, rfl⟩
  · simp only [mkOp, List.map_map]
    refine List.map_congr_left (fun q hq => ?_)
    simp only [Function.comp, (hlane hq).1, (hlane hq).2.1, gangLane]

end

/-- Settles O31: the lanes go one after the other at issue, by induction over them. -/
theorem scratchpadLanes : Obligations.ScratchpadLanes := by
  intro s g f h hfresh hform hheld hout x
  refine ⟨fun n hlegal hw => ⟨lds_reads h hfresh hform hheld hout hlegal hw, sts_writes h hfresh hform hheld hout hlegal hw⟩, fun hbad => ⟨?_, ?_⟩⟩
  · exact memInstr_illegal h (vmSpec_illegal hbad _ true .loads ⟨_, rfl⟩)
  · exact memInstr_illegal h (vmSpec_illegal hbad _ false .dropped ⟨_, rfl⟩)

end Sys2Proof.Machine
end

section
/-! SUPPORT. Segment FIFOs: the ring of a FIFO, and the runs of FPUSH and FPOP (R50, R51, R59, R400). -/

namespace Sys2Proof.Machine
-- One declaration after the other: in parallel, the threads' stacks pass the check's memory limit.
set_option Elab.async false
open Sys2Proof.Claims

/-! ## The ring of a FIFO in the banks of its cluster -/

/-- COUNT, head and tail of FIFO n agree. -/
def RingOk (c : Cluster) (bs : List Nat) (n : Nat) : Prop :=
  let f : Fifo := tget {} n c.fifos
  f.count ≤ 2048 * bs.length ∧ f.head < 2048 * bs.length ∧ f.tail = (f.head + f.count) % (2048 * bs.length)

/-- The word that FIFO n holds i places behind its head. -/
def ringWord (c : Cluster) (bs : List Nat) (n i : Nat) : W32 :=
  tget 0#32 (fifoKey bs n (((tget {} n c.fifos : Fifo).head + i) % (2048 * bs.length))) c.sram

/-- The words of FIFO n in the order in which they are removed. -/
def ringWords (c : Cluster) (bs : List Nat) (n : Nat) : List W32 :=
  (List.range (tget {} n c.fifos : Fifo).count).map (ringWord c bs n)

theorem ringWords_length (c : Cluster) (bs : List Nat) (n : Nat) : (ringWords c bs n).length = (tget {} n c.fifos : Fifo).count := by
  rw [ringWords, List.length_map, List.length_range]

/-- Two clusters differ at most in the ring of FIFO n. -/
structure RingOnly (c c' : Cluster) (bs : List Nat) (n : Nat) : Prop where
  frame : c' = { c with sram := c'.sram, fifos := c'.fifos }
  fifos : ∀ j, j ≠ n → tget {} j c'.fifos = tget {} j c.fifos
  sram : ∀ k, (∀ e, k ≠ fifoKey bs n e) → tget 0#32 k c'.sram = tget 0#32 k c.sram

theorem RingOnly.refl (c : Cluster) (bs : List Nat) (n : Nat) : RingOnly c c bs n := ⟨rfl, fun _ _ => rfl, fun _ _ => rfl⟩

theorem RingOnly.trans {a b c : Cluster} {bs : List Nat} {n : Nat} (h : RingOnly a b bs n) (k : RingOnly b c bs n) : RingOnly a c bs n where
  frame := k.frame.trans (by rw [h.frame])
  fifos j hj := (k.fifos j hj).trans (h.fifos j hj)
  sram e he := (k.sram e he).trans (h.sram e he)

/-- The ring's places lie in different words. -/
theorem fifoKey_inj {bs : List Nat} (hnd : bs.Nodup) {n i j : Nat} (hi : i < 2048 * bs.length) (hj : j < 2048 * bs.length)
    (h : fifoKey bs n i = fifoKey bs n j) : i = j := by
  have hpos : 0 < bs.length := by omega
  have hrow {e : Nat} (he : e < 2048 * bs.length) : e / bs.length < 2048 := Nat.div_lt_of_lt_mul (Nat.mul_comm _ _ ▸ he)
  have hbank (e : Nat) : bs.getD (e % bs.length) 0 = bs[e % bs.length]'(Nat.mod_lt _ hpos) := List.getD_eq_getElem ..
  have hword {a b x y : Nat} (hx : x < 2048) (hy : y < 2048) (he : 2048 * (32 * n + a) + x = 2048 * (32 * n + b) + y) : a = b ∧ x = y := by omega
  simp only [fifoKey, sramKey, hbank, Nat.mod_eq_of_lt (hrow hi), Nat.mod_eq_of_lt (hrow hj)] at h
  obtain ⟨hb, hdiv⟩ := hword (hrow hi) (hrow hj) h
  have hmod : i % bs.length = j % bs.length := hnd.getElem_inj_iff.mp hb
  rw [← Nat.div_add_mod i bs.length, ← Nat.div_add_mod j bs.length, hmod, hdiv]

theorem ring_place_ne {cap h i j : Nat} (hij : i < j) (hj : j < cap) : (h + i) % cap ≠ (h + j) % cap := by
  intro he
  have hmod : i % cap = j % cap := Nat.ModEq.add_left_cancel' h he
  rw [Nat.mod_eq_of_lt hj, Nat.mod_eq_of_lt (hij.trans hj)] at hmod
  omega

/-! ### One word appended or removed -/

/-- A cluster with one word appended to FIFO n. -/
def pushOne (c : Cluster) (bs : List Nat) (n : Nat) (x : W32) : Cluster :=
  let f : Fifo := tget {} n c.fifos
  { c with sram := tset 0#32 (fifoKey bs n f.tail) x c.sram,
           fifos := tset {} n { count := f.count + 1, head := f.head, tail := (f.tail + 1) % (2048 * bs.length) } c.fifos }

theorem fifoPush_cons (c : Cluster) (bs : List Nat) (n : Nat) (x : W32) (r : List W32) :
    fifoPush c bs n (x :: r) = fifoPush (pushOne c bs n x) bs n r := rfl

theorem pushOne_fifo (c : Cluster) (bs : List Nat) (n : Nat) (x : W32) : (tget {} n (pushOne c bs n x).fifos : Fifo) =
    { count := (tget {} n c.fifos : Fifo).count + 1, head := (tget {} n c.fifos : Fifo).head,
      tail := ((tget {} n c.fifos : Fifo).tail + 1) % (2048 * bs.length) } := by
  rw [pushOne, tget_tset_same]

theorem pushOne_only (c : Cluster) (bs : List Nat) (n : Nat) (x : W32) : RingOnly c (pushOne c bs n x) bs n where
  frame := rfl
  fifos j hj := by rw [pushOne, tget_tset_other _ _ _ _ _ hj]
  sram k hk := by rw [pushOne, tget_tset_other _ _ _ _ _ (hk _)]

/-- A cluster with one word removed from FIFO n. -/
def popOne (c : Cluster) (bs : List Nat) (n : Nat) : Cluster :=
  let f : Fifo := tget {} n c.fifos
  { c with fifos := tset {} n { count := f.count - 1, head := (f.head + 1) % (2048 * bs.length), tail := f.tail } c.fifos }

theorem popOne_fifo (c : Cluster) (bs : List Nat) (n : Nat) : (tget {} n (popOne c bs n).fifos : Fifo) =
    { count := (tget {} n c.fifos : Fifo).count - 1, head := ((tget {} n c.fifos : Fifo).head + 1) % (2048 * bs.length),
      tail := (tget {} n c.fifos : Fifo).tail } := by
  rw [popOne, tget_tset_same]

theorem popOne_only (c : Cluster) (bs : List Nat) (n : Nat) : RingOnly c (popOne c bs n) bs n where
  frame := rfl
  fifos j hj := by rw [popOne, tget_tset_other _ _ _ _ _ hj]
  sram _ _ := rfl

section
variable {c : Cluster} {bs : List Nat} {n : Nat} (hok : RingOk c bs n)
include hok

theorem pushOne_ok (hroom : (tget {} n c.fifos : Fifo).count < 2048 * bs.length) (x : W32) : RingOk (pushOne c bs n x) bs n := by
  obtain ⟨-, hhead, htail⟩ := hok
  refine ⟨?_, ?_, ?_⟩ <;> rw [pushOne_fifo]
  · exact hroom
  · exact hhead
  · simp only [htail, Nat.mod_add_mod, Nat.add_assoc]

theorem pushOne_words (hnd : bs.Nodup) (hroom : (tget {} n c.fifos : Fifo).count < 2048 * bs.length) (x : W32) :
    ringWords (pushOne c bs n x) bs n = ringWords c bs n ++ [x] := by
  obtain ⟨-, hhead, htail⟩ := hok
  have hpos : 0 < 2048 * bs.length := by omega
  have hword (i : Nat) : ringWord (pushOne c bs n x) bs n i =
      if fifoKey bs n (((tget {} n c.fifos : Fifo).head + i) % (2048 * bs.length)) = fifoKey bs n (tget {} n c.fifos : Fifo).tail then x
      else ringWord c bs n i := by
    rw [ringWord, pushOne_fifo, pushOne, tget_tset]
    rfl
  rw [ringWords, pushOne_fifo, List.range_succ, List.map_append, List.map_singleton, hword, if_pos (by rw [htail])]
  congr 1
  refine List.map_congr_left (fun i hi => ?_)
  rw [hword, if_neg (fun he => ?_)]
  rw [htail] at he
  exact ring_place_ne (List.mem_range.mp hi) hroom (fifoKey_inj hnd (Nat.mod_lt _ hpos) (Nat.mod_lt _ hpos) he)

theorem popOne_ok (hsome : 0 < (tget {} n c.fifos : Fifo).count) : RingOk (popOne c bs n) bs n := by
  obtain ⟨hcount, hhead, htail⟩ := hok
  refine ⟨?_, ?_, ?_⟩ <;> rw [popOne_fifo]
  · exact (Nat.sub_le ..).trans hcount
  · exact Nat.mod_lt _ (by omega)
  · simp only [htail, Nat.mod_add_mod]
    congr 1
    omega

theorem popOne_words (hsome : 0 < (tget {} n c.fifos : Fifo).count) :
    ringWords c bs n = tget 0#32 (fifoKey bs n (tget {} n c.fifos : Fifo).head) c.sram :: ringWords (popOne c bs n) bs n := by
  obtain ⟨-, hhead, -⟩ := hok
  obtain ⟨m, hm⟩ : ∃ m, (tget {} n c.fifos : Fifo).count = m + 1 := ⟨_, (Nat.sub_add_cancel hsome).symm⟩
  have hnext (i : Nat) : ringWord (popOne c bs n) bs n i = ringWord c bs n (i + 1) := by
    rw [ringWord, ringWord, popOne_fifo, Nat.mod_add_mod, Nat.add_right_comm, Nat.add_assoc, popOne]
  rw [ringWords, ringWords, popOne_fifo, hm, List.range_succ_eq_map, List.map_cons, List.map_map, Nat.add_sub_cancel]
  congr 1
  · rw [ringWord, Nat.add_zero, Nat.mod_eq_of_lt hhead]
  · exact List.map_congr_left (fun i _ => (hnext i).symm)

end

/-! ### Runs -/

/-- Words appended to a ring with room for them. -/
theorem fifoPush_ring {bs : List Nat} (hnd : bs.Nodup) (n : Nat) (ws : List W32) {c : Cluster} (hok : RingOk c bs n)
    (hroom : (ringWords c bs n).length + ws.length ≤ 2048 * bs.length) :
    RingOk (fifoPush c bs n ws) bs n ∧ ringWords (fifoPush c bs n ws) bs n = ringWords c bs n ++ ws ∧ RingOnly c (fifoPush c bs n ws) bs n := by
  induction ws generalizing c with
  | nil => exact ⟨hok, (List.append_nil _).symm, .refl ..⟩
  | cons x r ih =>
    rw [List.length_cons] at hroom
    have hone : (tget {} n c.fifos : Fifo).count < 2048 * bs.length := by
      rw [ringWords_length] at hroom
      omega
    have hwords := pushOne_words hok hnd hone x
    obtain ⟨hok', hwords', honly⟩ := ih (pushOne_ok hok hone x) (by rw [hwords, List.length_append, List.length_singleton]; omega)
    rw [fifoPush_cons]
    exact ⟨hok', by rw [hwords', hwords, List.append_assoc]; rfl, (pushOne_only c bs n x).trans honly⟩

/-- Words removed from a ring that holds them. -/
theorem fifoPop_ring (bs : List Nat) (n k : Nat) {c : Cluster} (hok : RingOk c bs n) (hk : k ≤ (ringWords c bs n).length) :
    (fifoPop c bs n k).1 = (ringWords c bs n).take k ∧ RingOk (fifoPop c bs n k).2 bs n ∧
      ringWords (fifoPop c bs n k).2 bs n = (ringWords c bs n).drop k ∧ RingOnly c (fifoPop c bs n k).2 bs n := by
  induction k generalizing c with
  | zero => exact ⟨rfl, hok, rfl, .refl ..⟩
  | succ k ih =>
    have hwords := popOne_words hok (by rw [ringWords_length] at hk; omega)
    obtain ⟨htake, hok', hdrop, honly⟩ := ih (popOne_ok hok (by rw [ringWords_length] at hk; omega)) (by
      rw [hwords, List.length_cons] at hk
      omega)
    rw [hwords]
    exact ⟨congrArg (List.cons _) htake, hok', hdrop, (popOne_only c bs n).trans honly⟩

/-! ## The machine with a FIFO served -/

/-- Nobody waits at FIFO n of a cluster, and the cluster is changed by F. -/
def fifoServed (s : State) (cl n : Nat) (F : Cluster → Cluster) : State := updCluster (setFifoQ s cl n []) cl F

/-- A cluster with nobody waiting at FIFO n. -/
def noWaits (c : Cluster) (n : Nat) : Cluster := { c with fifoQ := tset [] n [] c.fifoQ }

theorem clusterOf_fifoServed (s : State) (cl n k : Nat) (F : Cluster → Cluster) :
    clusterOf (fifoServed s cl n F) k = if k = cl then F (noWaits (clusterOf s cl) n) else clusterOf s k := by
  simp only [fifoServed, setFifoQ, clusterOf_updCluster, if_true, noWaits]
  split <;> rfl

section
variable {s : State} {cl n : Nat} {F : Cluster → Cluster}
  (hF : RingOnly (noWaits (clusterOf s cl) n) (F (noWaits (clusterOf s cl) n)) (fifoBanks s cl n) n)
include hF

theorem fifoServed_only : FifoOnly s (fifoServed s cl n F) cl n := by
  refine ⟨_, rfl, fun k hk => ?_, ?_⟩
  · rw [clusterOf_fifoServed, if_neg hk]
  · rw [clusterOf_fifoServed, if_pos rfl]
    refine ⟨⟨_, _, _, hF.frame⟩, fun j hj => ⟨hF.fifos j hj, ?_⟩, hF.sram⟩
    rw [hF.frame, noWaits, tget_tset_other _ _ _ _ _ hj]

theorem fifoServed_banks : fifoBanks (fifoServed s cl n F) cl n = fifoBanks s cl n := by
  rw [fifoBanks, segModes, clusterOf_fifoServed, if_pos rfl, hF.frame]
  rfl

theorem fifoServed_ok (hok : RingOk (F (noWaits (clusterOf s cl) n)) (fifoBanks s cl n) n) : FifoOk (fifoServed s cl n F) cl n := by
  have h : RingOk (clusterOf (fifoServed s cl n F) cl) (fifoBanks (fifoServed s cl n F) cl n) n := by
    rwa [fifoServed_banks hF, clusterOf_fifoServed, if_pos rfl]
  exact h

theorem fifoServed_words : fifoWords (fifoServed s cl n F) cl n = ringWords (F (noWaits (clusterOf s cl) n)) (fifoBanks s cl n) n := by
  have h : fifoWords (fifoServed s cl n F) cl n = ringWords (clusterOf (fifoServed s cl n F) cl) (fifoBanks (fifoServed s cl n F) cl n) n := rfl
  rw [h, fifoServed_banks hF, clusterOf_fifoServed, if_pos rfl]

end

theorem fifoBanks_nodup (s : State) (cl n : Nat) : (fifoBanks s cl n).Nodup := List.nodup_range.filter _

/-- A run of words appended to a FIFO that has room for them. -/
theorem fifoServed_push {s : State} {cl n : Nat} (ws : List W32) (hok : FifoOk s cl n)
    (hroom : (fifoWords s cl n).length + ws.length ≤ fifoCap s cl n) :
    let u := fifoServed s cl n (fun c => fifoPush c (fifoBanks s cl n) n ws)
    FifoOnly s u cl n ∧ FifoOk u cl n ∧ fifoWords u cl n = fifoWords s cl n ++ ws := by
  obtain ⟨hok', hwords, honly⟩ := fifoPush_ring (c := noWaits (clusterOf s cl) n) (fifoBanks_nodup s cl n) n ws hok hroom
  exact ⟨fifoServed_only honly, fifoServed_ok honly hok', (fifoServed_words honly).trans hwords⟩

/-- A run of words removed from a FIFO that holds them. -/
theorem fifoServed_pop {s : State} {cl n k : Nat} (hok : FifoOk s cl n) (hk : k ≤ (fifoWords s cl n).length) :
    let u := fifoServed s cl n (fun c => (fifoPop c (fifoBanks s cl n) n k).2)
    FifoOnly s u cl n ∧ FifoOk u cl n ∧ fifoWords u cl n = (fifoWords s cl n).drop k := by
  obtain ⟨-, hok', hwords, honly⟩ := fifoPop_ring (c := noWaits (clusterOf s cl) n) (fifoBanks s cl n) n k hok hk
  exact ⟨fifoServed_only honly, fifoServed_ok honly hok', (fifoServed_words honly).trans hwords⟩

/-! ## A gang at a FIFO (R50, R51, R59) -/

section
variable {s : State} {g : Gang} (h : GangReady s g)
include h

/-- The FIFO that the active lanes name. -/
theorem fifoOf_names {f : Form} {a n : Nat} (hform : findForm s g.team.fid = some f) (hexcl : f.excl = true) (hact : lanesOf g ≠ []) (hn : n < 4)
    (hbanks : fifoBanks s (clusterOfCore g.team.core) n ≠ []) (hnames : ∀ q ∈ lanesOf g, (rdV q.2.1 a q.2.2).toNat = n) :
    fifoOf s g a = some (some n) := by
  have hnums : (lanesOf g).map (fun q => (readV q.2.1 a q.2.2 (q.2.1.count + 1)).toNat) = (lanesOf g).map (fun _ => n) :=
    List.map_congr_left (fun q hq => by rw [readV_ready h hq, hnames q hq])
  obtain ⟨q, r, hqr⟩ := List.exists_cons_of_ne_nil hact
  unfold fifoOf
  simp only [hform, hexcl, activeLanes_ready h, hnums]
  simp [hqr, hn, hbanks]

/-- A FIFO use without an exclusive cluster, or whose lanes name no FIFO that has a bank. -/
theorem fifoOf_illegal {f : Form} {a : Nat} (hform : findForm s g.team.fid = some f) (hact : lanesOf g ≠ [])
    (hout : ∀ n, (g.team.tid, g.lead) ∉ fifoWaits s (clusterOfCore g.team.core) n)
    (hbad : f.excl = false ∨ ∀ n, ¬ (n < 4 ∧ fifoBanks s (clusterOfCore g.team.core) n ≠ [] ∧ ∀ q ∈ lanesOf g, (rdV q.2.1 a q.2.2).toNat = n)) :
    fifoOf s g a = none := by
  have hnums : (lanesOf g).map (fun q => (readV q.2.1 a q.2.2 (q.2.1.count + 1)).toNat) = (lanesOf g).map (fun q => (rdV q.2.1 a q.2.2).toNat) :=
    List.map_congr_left (fun q hq => by rw [readV_ready h hq])
  obtain ⟨q, r, hqr⟩ := List.exists_cons_of_ne_nil hact
  obtain hexcl | hbad := hbad
  · simp [fifoOf, hform, hexcl]
  · have hno := hbad (rdV q.2.1 a q.2.2).toNat
    rw [hqr] at hno
    unfold fifoOf
    simp only [hform, activeLanes_ready h, hnums]
    simp only [hqr, List.map_cons]
    split
    · rfl
    · refine if_neg (fun hc => hno ?_)
      simp only [List.all_map, Bool.and_eq_true, Bool.or_eq_true, List.all_eq_true, Function.comp, beq_iff_eq, decide_eq_true_eq, Bool.not_eq_true',
        List.isEmpty_eq_false_iff, List.contains_iff_mem, hout, or_false] at hc
      obtain ⟨⟨hr, hlt⟩, hb⟩ := hc
      exact ⟨hlt, hb, List.forall_mem_cons.mpr ⟨rfl, hr⟩⟩

omit h in
theorem fifoTurn_iff {n : Nat} (hout : (g.team.tid, g.lead) ∉ fifoWaits s (clusterOfCore g.team.core) n) :
    fifoTurn s g n = true ↔ fifoWaits s (clusterOfCore g.team.core) n = [] ∧ segHeld s (clusterOfCore g.team.core) n = false := by
  unfold fifoTurn
  match hw : fifoWaits s (clusterOfCore g.team.core) n with
  | [] => simp [hw]
  | w :: r =>
    have hne : w ≠ (g.team.tid, g.lead) := fun he => hout (by rw [hw, he]; exact List.mem_cons_self)
    simp [hw, hne]

omit h in
theorem fifoLeave_eq {n : Nat} (hw : fifoWaits s (clusterOfCore g.team.core) n = []) :
    fifoLeave s g n = setFifoQ s (clusterOfCore g.team.core) n [] := by
  simp only [fifoLeave, hw, List.filter_nil]

omit h in
/-- A gang takes the last place among those that wait at a FIFO. -/
theorem fifoWait_waits {i : Instr} {n : Nat} (hout : (g.team.tid, g.lead) ∉ fifoWaits s (clusterOfCore g.team.core) n)
    (he : exec i s = .next (fifoWait s g n)) : WaitsFifo s g (clusterOfCore g.team.core) n i := by
  have hq : fifoWait s g n =
      stall (setFifoQ s (clusterOfCore g.team.core) n (fifoWaits s (clusterOfCore g.team.core) n ++ [(g.team.tid, g.lead)])) g .barrier := by
    rw [fifoWait, if_neg (by simpa using hout)]
  refine ⟨_, _, tset [] n (fifoWaits s (clusterOfCore g.team.core) n ++ [(g.team.tid, g.lead)]) (clusterOf s (clusterOfCore g.team.core)).fifoQ,
    he.trans (congrArg _ hq), ⟨fun _ _ sl => { sl with st := .barrier }, rfl, fun _ _ _ => rfl⟩, fun k => ?_, fun j => tget_tset ..⟩
  exact tget_tset ..

end

/-! ## The words that FPOP writes -/

/-- The write of one lane's word to slice m, if the lane is of it. -/
def popLane (d m : Nat) (sl : Slice) (x : (Nat × Slice × Nat) × W32) : Slice := if x.1.1 = m then wrV sl d x.1.2.2 x.2 else sl

/-- The writes of an FPOP to slice m. -/
def popInto (d m : Nat) (L : List ((Nat × Slice × Nat) × W32)) (sl : Slice) : Slice := L.foldl (popLane d m) sl

theorem wrV_sameButV (sl : Slice) (r l : Nat) (x : W32) : SameButV sl (wrV sl r l x) := ⟨_, _, _, rfl⟩

theorem popInto_sameButV (d m : Nat) (L : List ((Nat × Slice × Nat) × W32)) (sl : Slice) : SameButV sl (popInto d m L sl) :=
  List.foldlRecOn L _ (.refl sl) (fun b hb x _ => hb.trans (by
    unfold popLane
    split
    · exact wrV_sameButV ..
    · exact .refl b))

theorem popInto_other {d m r l : Nat} {L : List ((Nat × Slice × Nat) × W32)} (hL : ∀ x ∈ L, x.1.2.2 < 4) (hl : l < 4)
    (hno : r ≠ d ∨ ∀ x ∈ L, x.1.1 = m → x.1.2.2 ≠ l) (sl : Slice) : rdV (popInto d m L sl) r l = rdV sl r l := by
  induction L generalizing sl with
  | nil => rfl
  | cons x L ih =>
    have hx := hL x List.mem_cons_self
    refine (ih (fun y hy => hL y (List.mem_cons_of_mem _ hy)) (hno.imp_right (fun hno y hy => hno y (List.mem_cons_of_mem _ hy))) _).trans ?_
    unfold popLane
    split
    · next hm =>
      rw [rdV_wrV _ _ _ _ _ _ hx hl, if_neg]
      rintro ⟨hr, hlane⟩
      exact hno.elim (fun hd => hd hr) (fun hno => hno x List.mem_cons_self hm hlane.symm)
    · rfl

theorem popInto_lane {d m : Nat} {L : List ((Nat × Slice × Nat) × W32)} (hL : ∀ x ∈ L, x.1.2.2 < 4) (hnd : (L.map (fun x => (x.1.1, x.1.2.2))).Nodup)
    {x : (Nat × Slice × Nat) × W32} (hx : x ∈ L) (hm : x.1.1 = m) (sl : Slice) : rdV (popInto d m L sl) d x.1.2.2 = x.2 := by
  induction L generalizing sl with
  | nil => cases hx
  | cons y L ih =>
    rw [List.map_cons, List.nodup_cons] at hnd
    have hL' : ∀ z ∈ L, z.1.2.2 < 4 := fun z hz => hL z (List.mem_cons_of_mem _ hz)
    obtain rfl | hx := List.mem_cons.mp hx
    · have hno : ∀ z ∈ L, z.1.1 = m → z.1.2.2 ≠ x.1.2.2 := fun z hz hzm hl => hnd.1 (List.mem_map.mpr ⟨z, hz, by rw [hzm, hl, hm]⟩)
      have hlt := hL x List.mem_cons_self
      refine (popInto_other hL' hlt (.inr hno) _).trans ?_
      rw [popLane, if_pos hm, rdV_wrV _ _ _ _ _ _ hlt hlt, if_pos ⟨rfl, rfl⟩]
    · exact ih hL' hnd.2 hx _

section
variable {s : State} {g : Gang} (h : GangReady s g)
include h

theorem lanesOf_places : ((lanesOf g).map (fun q => (q.1, q.2.2))).Nodup := activeLanes_ready h 1 ▸ activeLanes_nodup h.nums 1

/-- An active lane of a slice is active in it. -/
theorem activeIn_lanesOf {q : Nat × Slice × Nat} (hq : q ∈ lanesOf g) {p : Nat × Slice} (hp : p ∈ g.sl) (hn : q.1 = p.1) :
    activeIn p.2 q.2.2 = true := by
  rw [← activeLanes_ready h 1] at hq
  obtain ⟨hmem, -, hact⟩ := activeLanes_mem.mp hq
  have hsl : (q.1, q.2.1) = p := List.inj_on_of_nodup_map (f := Prod.fst) h.nums hmem hp hn
  rw [laneActive_ready h hmem, show q.2.1 = p.2 from congrArg Prod.snd hsl] at hact
  exact hact

/-- The slices of an FPOP that removed the first words of `ws`. -/
theorem popInto_goes {u : State} {d : Nat} {ws : List W32} (hk : (lanesOf g).length ≤ ws.length) :
    GangGoes u g (finish u g 1 none (fun m sl => popInto d m ((lanesOf g).zip (ws.take (lanesOf g).length)) sl)) (fun m sl sl' =>
      LanesTouched [d] sl sl' ∧ ∀ j q, (lanesOf g)[j]? = some q → q.1 = m → rdV sl' d q.2.2 = ws.getD j 0) := by
  have hlen : (lanesOf g).length ≤ (ws.take (lanesOf g).length).length := by rw [List.length_take]; omega
  have hfst : ((lanesOf g).zip (ws.take (lanesOf g).length)).map Prod.fst = lanesOf g := List.map_fst_zip hlen
  have hmem {x} (hx : x ∈ (lanesOf g).zip (ws.take (lanesOf g).length)) : x.1 ∈ lanesOf g := by
    rw [← hfst]
    exact List.mem_map_of_mem hx
  have hlt : ∀ x ∈ (lanesOf g).zip (ws.take (lanesOf g).length), x.1.2.2 < 4 := fun x hx => (mem_lanesOf h (hmem hx)).2
  have hnd : (((lanesOf g).zip (ws.take (lanesOf g).length)).map (fun x => (x.1.1, x.1.2.2))).Nodup := by
    have hplaces := lanesOf_places h
    rw [← hfst, List.map_map] at hplaces
    exact hplaces
  refine (finish_goes h.notAhead ..).mono (fun p hp sl' hsl => ?_)
  obtain ⟨c, rfl⟩ := hsl
  refine ⟨⟨onlyV_advance _ _ (h.slices p hp).1 (popInto_sameButV ..), fun r l hl hrl => ?_⟩, fun j q hj hq => ?_⟩
  · rw [rdV_advance]
    refine popInto_other hlt hl (hrl.imp (fun hr he => hr (he ▸ List.mem_singleton_self d)) (fun hoff x hx hm he => ?_)) _
    have hon := activeIn_lanesOf h (hmem hx) hp hm
    rw [he, hoff] at hon
    cases hon
  · obtain ⟨hjlt, hjq⟩ := List.getElem?_eq_some_iff.mp hj
    have hw : (ws.take (lanesOf g).length)[j]? = some (ws.getD j 0) := by
      rw [List.getElem?_take_of_lt hjlt, List.getElem?_eq_getElem (by omega), List.getD_eq_getElem]
    have hx : (q, ws.getD j 0) ∈ (lanesOf g).zip (ws.take (lanesOf g).length) := by
      refine List.mem_of_getElem? (i := j) ?_
      rw [List.getElem?_zip_eq_some]
      exact ⟨hj, hw⟩
    rw [rdV_advance]
    exact popInto_lane hlt hnd hx hq _

/-! ## FPUSH and FPOP (R400) -/

omit h in
/-- Going on, or waiting when it is not the gang's turn or there are too few places or words. -/
theorem ite_waits {α : Type} (turn : Bool) (m k : Nat) (wait go : α) :
    (if (!turn || decide (k < m)) = true then wait else go) = if turn = true ∧ m ≤ k then go else wait := by
  cases turn
  · simp
  · by_cases hm : m ≤ k
    · simp [hm]
    · simp [hm, not_le.mp hm]

/-- FPUSH of a cohort that nothing holds, by what its register names. -/
theorem fpush_ready {a b : VReg} (ha : a.toNat < g.team.nregs) (hb : b.toNat < g.team.nregs) : exec (.fpush a b) s = .next (
    match fifoOf s g a.toNat with
    | none => illegalGang s g
    | some none => finish s g 1 none (fun _ sl => sl)
    | some (some n) =>
      if fifoTurn s g n = true ∧ (fifoWords s (clusterOfCore g.team.core) n).length + (lanesOf g).length ≤ fifoCap s (clusterOfCore g.team.core) n then
        finish (updCluster (fifoLeave s g n) (clusterOfCore g.team.core) (fun c => fifoPush c (fifoBanks s (clusterOfCore g.team.core) n) n
          ((lanesOf g).map (fun q => rdV q.2.1 b.toNat q.2.2)))) g 1 none (fun _ sl => sl)
      else fifoWait s g n) := by
  have hexec : exec (.fpush a b) s = execFpush a b s := rfl
  have hws : (lanesOf g).map (fun q => readV q.2.1 b.toNat q.2.2 (q.2.1.count + 2)) = (lanesOf g).map (fun q => rdV q.2.1 b.toNat q.2.2) :=
    List.map_congr_left (fun q hq => readV_ready h hq ..)
  rw [hexec, execFpush, withGang_ready h]
  simp only [h.notAhead, ha, hb, gangEntries_ready h, prelude_ready h, activeLanes_ready h, hws, decide_true, Bool.and_self, Bool.not_true,
    Bool.false_eq_true, if_false, List.length_nil, List.isEmpty_nil, show ¬ 4 ≤ 0 by decide]
  congr 1
  match fifoOf s g a.toNat with
  | none => rfl
  | some none => rfl
  | some (some n) =>
    have hcount : (fifoWords s (clusterOfCore g.team.core) n).length = (tget {} n (clusterOf s (clusterOfCore g.team.core)).fifos : Fifo).count :=
      ringWords_length ..
    simp only [hcount, fifoCap, ← ite_waits, List.length_map]

/-- FPOP of a cohort that nothing holds, by what its register names. -/
theorem fpop_ready {a d : VReg} (ha : a.toNat < g.team.nregs) (hd : d.toNat < g.team.nregs) : exec (.fpop d a) s = .next (
    match fifoOf s g a.toNat with
    | none => illegalGang s g
    | some none => finish s g 1 none (fun _ sl => sl)
    | some (some n) =>
      if fifoTurn s g n = true ∧ (lanesOf g).length ≤ (fifoWords s (clusterOfCore g.team.core) n).length then
        let r := fifoPop (clusterOf (fifoLeave s g n) (clusterOfCore g.team.core)) (fifoBanks s (clusterOfCore g.team.core) n) n (lanesOf g).length
        finish (updCluster (fifoLeave s g n) (clusterOfCore g.team.core) (fun _ => r.2)) g 1 none (fun m sl =>
          popInto d.toNat m ((lanesOf g).zip r.1) sl)
      else fifoWait s g n) := by
  have hexec : exec (.fpop d a) s = execFpop d a s := rfl
  rw [hexec, execFpop, withGang_ready h]
  simp only [h.notAhead, ha, hd, gangEntries_ready h, prelude_ready h, activeLanes_ready h, decide_true, Bool.and_self, Bool.not_true,
    Bool.false_eq_true, if_false, List.isEmpty_nil]
  congr 1
  match fifoOf s g a.toNat with
  | none => rfl
  | some none => rfl
  | some (some n) =>
    have hcount : (fifoWords s (clusterOfCore g.team.core) n).length = (tget {} n (clusterOf s (clusterOfCore g.team.core)).fifos : Fifo).count :=
      ringWords_length ..
    simp only [hcount, ← ite_waits]
    rfl

/-! ### A FIFO that the lanes name -/

section
variable {a : VReg} {n : Nat} (hok : FifoOk s (clusterOfCore g.team.core) n) (hof : fifoOf s g a.toNat = some (some n)) (ha : a.toNat < g.team.nregs)
  (hw : fifoWaits s (clusterOfCore g.team.core) n = []) (hturn : fifoTurn s g n = true)
include hok hof ha hw hturn

theorem fpush_goes {b : VReg} (hb : b.toNat < g.team.nregs)
    (hroom : (fifoWords s (clusterOfCore g.team.core) n).length + (lanesOf g).length ≤ fifoCap s (clusterOfCore g.team.core) n) :
    ∃ t u, exec (.fpush a b) s = .next t ∧ FifoOnly s u (clusterOfCore g.team.core) n ∧ FifoOk u (clusterOfCore g.team.core) n ∧
      fifoWords u (clusterOfCore g.team.core) n =
        fifoWords s (clusterOfCore g.team.core) n ++ (lanesOf g).map (fun q => rdV q.2.1 b.toNat q.2.2) ∧
      GangGoes u g t (fun _ sl sl' => OnlyPc sl sl') := by
  have he := fpush_ready h ha hb
  simp only [hof, if_pos (And.intro hturn hroom), fifoLeave_eq hw] at he
  obtain ⟨honly, hok', hwords⟩ := fifoServed_push ((lanesOf g).map (fun q => rdV q.2.1 b.toNat q.2.2)) hok (by rwa [List.length_map])
  exact ⟨_, _, he, honly, hok', hwords, (finish_goes h.notAhead ..).onlyPc h⟩

theorem fpop_goes {d : VReg} (hd : d.toNat < g.team.nregs) (hk : (lanesOf g).length ≤ (fifoWords s (clusterOfCore g.team.core) n).length) :
    ∃ t u, exec (.fpop d a) s = .next t ∧ FifoOnly s u (clusterOfCore g.team.core) n ∧ FifoOk u (clusterOfCore g.team.core) n ∧
      fifoWords u (clusterOfCore g.team.core) n = (fifoWords s (clusterOfCore g.team.core) n).drop (lanesOf g).length ∧
      GangGoes u g t (fun m sl sl' => LanesTouched [d.toNat] sl sl' ∧
        ∀ j q, (lanesOf g)[j]? = some q → q.1 = m → rdV sl' d.toNat q.2.2 = (fifoWords s (clusterOfCore g.team.core) n).getD j 0) := by
  have he := fpop_ready h ha hd
  have hclean : clusterOf (setFifoQ s (clusterOfCore g.team.core) n []) (clusterOfCore g.team.core) =
      noWaits (clusterOf s (clusterOfCore g.team.core)) n := by rw [setFifoQ, clusterOf_updCluster, if_pos rfl, noWaits]
  have hserve : updCluster (setFifoQ s (clusterOfCore g.team.core) n []) (clusterOfCore g.team.core) (fun _ =>
      (fifoPop (clusterOf (setFifoQ s (clusterOfCore g.team.core) n []) (clusterOfCore g.team.core)) (fifoBanks s (clusterOfCore g.team.core) n) n
        (lanesOf g).length).2) =
      fifoServed s (clusterOfCore g.team.core) n (fun c => (fifoPop c (fifoBanks s (clusterOfCore g.team.core) n) n (lanesOf g).length).2) := rfl
  have htake : (fifoPop (clusterOf (setFifoQ s (clusterOfCore g.team.core) n []) (clusterOfCore g.team.core))
      (fifoBanks s (clusterOfCore g.team.core) n) n (lanesOf g).length).1 = (fifoWords s (clusterOfCore g.team.core) n).take (lanesOf g).length :=
    hclean ▸ (fifoPop_ring (c := noWaits (clusterOf s (clusterOfCore g.team.core)) n) _ n _ hok hk).1
  simp only [hof, if_pos (And.intro hturn hk), fifoLeave_eq hw, hserve, htake] at he
  obtain ⟨honly, hok', hwords⟩ := fifoServed_pop hok hk
  exact ⟨_, _, he, honly, hok', hwords, popInto_goes h hk⟩

end

end

/-- Settles O32: a run is an induction over its words, each moving the ring by one place. -/
theorem fifoRuns : Obligations.FifoRuns := by
  intro s g f a b d h hform cl act names ha hb hd hact hout
  refine ⟨fun hexcl n ⟨hn, hbanks, hnames⟩ hok => ?_, fun hbad => ?_⟩
  · have hof : fifoOf s g a.toNat = some (some n) := fifoOf_names h hform hexcl hact hn hbanks hnames
    have hturn := fifoTurn_iff (hout n)
    refine ⟨fun hfree hroom => fpush_goes h hok hof ha hfree.1 (hturn.mpr hfree) hb hroom, fun hno => fifoWait_waits (hout n) ?_,
      fun hfree hk => fpop_goes h hok hof ha hfree.1 (hturn.mpr hfree) hd hk, fun hno => fifoWait_waits (hout n) ?_⟩
    · rw [fpush_ready h ha hb, hof]
      exact congrArg _ (if_neg (fun hgo => hno.elim (· (hturn.mp hgo.1)) (not_lt.mpr hgo.2)))
    · rw [fpop_ready h ha hd, hof]
      exact congrArg _ (if_neg (fun hgo => hno.elim (· (hturn.mp hgo.1)) (not_lt.mpr hgo.2)))
  · have hof : fifoOf s g a.toNat = none := fifoOf_illegal h hform hact hout hbad
    rw [fpush_ready h ha hb, fpop_ready h ha hd, hof]
    exact ⟨rfl, rfl⟩

end Sys2Proof.Machine
end

section
/-! SUPPORT. What a matrix command checks, and its post (R438, R440, R444, R447, R448, R450, R451). -/

namespace Sys2Proof.Machine
-- One declaration after the other: in parallel, the threads' stacks pass the check's memory limit.
set_option Elab.async false
open Sys2Proof.Claims

/-! ## Checks (R440) -/

theorem firstErr_eq_none {l : List PostErr} : firstErr l = none ↔ ∀ e ∈ l, e = none := by
  induction l with
  | nil => simp [firstErr]
  | cons e r ih =>
    cases e with
    | none => simp [firstErr, ih]
    | some e => simp [firstErr]

theorem mem_of_firstErr {l : List PostErr} {e : Nat × Nat × W64} (h : firstErr l = some e) : some e ∈ l := by
  induction l with
  | nil => cases h
  | cons x r ih =>
    cases x with
    | none => exact List.mem_cons_of_mem _ (ih h)
    | some y => exact h ▸ List.mem_cons_self

theorem errIll_eq_none {c : Bool} : errIll c = none ↔ c = false := by cases c <;> simp [errIll, errIf]
theorem errAlign_eq_none {o k : Nat} : errAlign o k = none ↔ o % k = 0 := by simp [errAlign, errIf]
theorem errRange_eq_none {f : Form} {o n : Nat} : errRange f o n = none ↔ inForm f o n := by simp [errRange, errIf, winOk, inForm]
theorem ite_none_eq_none {α : Type} {c : Prop} [Decidable c] {e : Option α} : (if c then e else none) = none ↔ (c → e = none) := by
  by_cases h : c <;> simp [h]

/-- An error is one that a command turned away at post reports. -/
def AtPost (x : PostErr) : Prop :=
  ∀ e, x = some e → (e.1 = fcIllegal ∧ e.2.1 = 0) ∨ (e.1 = fcMisalign ∧ e.2.1 = 0) ∨ (e.1 = fcPagePerm ∧ e.2.1 = 4)

theorem AtPost.none : AtPost none := fun _ h => nomatch h
theorem AtPost.ill (c : Bool) : AtPost (errIll c) := by
  cases c
  · exact .none
  · rintro e ⟨rfl⟩
    exact .inl ⟨rfl, rfl⟩
theorem AtPost.align (o k : Nat) : AtPost (errAlign o k) := by
  rw [errAlign, errIf]
  split
  · rintro e ⟨rfl⟩
    exact .inr (.inl ⟨rfl, rfl⟩)
  · exact .none
theorem AtPost.range (f : Form) (o n : Nat) : AtPost (errRange f o n) := by
  rw [errRange, errIf]
  split
  · rintro e ⟨rfl⟩
    exact .inr (.inr ⟨rfl, rfl⟩)
  · exact .none
theorem AtPost.ite {c : Prop} [Decidable c] {x : PostErr} (h : AtPost x) : AtPost (if c then x else Option.none) := by
  split
  · exact h
  · exact .none
theorem AtPost.first {l : List PostErr} (h : ∀ x ∈ l, AtPost x) : AtPost (firstErr l) := fun e he => h _ (mem_of_firstErr he) e rfl

/-- The checks of a descriptor's fields. -/
def pdFields (f : Form) (d : List Byte) (a : Option Nat) : List PostErr :=
  [errIll (natAt d 22 1 / 128 != 0 || natAt d 23 1 / 16 != 0 || natAt d 24 8 != 0 || !([2, 3, 4, 6].contains (pdAf d)) ||
     !([2, 3, 4, 6].contains (pdBf d) || pdBf d == 5)),
   errIll ((pdFlag d 2 || pdFlag d 3) && (pdAf d == 6 || pdBf d == 6)),
   errIll (pdAstr d % 16 != 0 || decide (pdAstr d < pdArow d) || pdBstr d % 16 != 0 || decide (pdBstr d < pdBrow d)),
   errAlign (pdB d) 64,
   if pdFlag d 3 then errAlign (pdBs d) 4 else none,
   if pdFlag d 2 then errAlign (pdAs d) 4 else none,
   if pdBf d = 5 then errAlign (pdCb d) 32 else none,
   a.elim none (fun x => errAlign x 16),
   errRange f (pdB d) (pdBstr d * (pdK d - 1) + pdBrow d),
   if pdFlag d 3 then errRange f (pdBs d) 512 else none,
   if pdFlag d 2 then errRange f (pdAs d) (4 * pdM d) else none,
   if pdBf d = 5 then errRange f (pdCb d) 32 else none,
   a.elim none (fun x => errRange f x (pdAstr d * (pdM d - 1) + pdArow d))]

theorem pdCheck_eq (s : State) (f : Form) (o : Nat) (a : Option Nat) :
    pdCheck s f o a = (firstErr [errAlign o 32, errRange f o 32]).or (firstErr (pdFields f (spadRead s f o 32) a)) := by
  unfold pdCheck pdFields
  cases firstErr [errAlign o 32, errRange f o 32] <;> cases a <;> rfl

theorem pdCheck_atPost (s : State) (f : Form) (o : Nat) (a : Option Nat) : AtPost (pdCheck s f o a) := by
  rw [pdCheck_eq]
  have hhead : AtPost (firstErr [errAlign o 32, errRange f o 32]) := .first (by
    simp only [List.forall_mem_cons, List.not_mem_nil, false_imp_iff, implies_true, and_true]
    exact ⟨.align _ _, .range _ _ _⟩)
  have hfields : AtPost (firstErr (pdFields f (spadRead s f o 32) a)) := .first (by
    have helim {g : Nat → PostErr} (hg : ∀ x, AtPost (g x)) : AtPost (a.elim none g) := by cases a; exacts [.none, hg _]
    simp only [pdFields, List.forall_mem_cons, List.not_mem_nil, false_imp_iff, implies_true, and_true]
    exact ⟨.ill _, .ill _, .ill _, .align _ _, .ite (.align _ _), .ite (.align _ _), .ite (.align _ _), helim (fun _ => .align _ _), .range _ _ _, .ite (.range _ _ _),
      .ite (.range _ _ _), .ite (.range _ _ _), helim (fun _ => .range _ _ _)⟩)
  generalize firstErr [errAlign o 32, errRange f o 32] = x at hhead
  cases x
  · exact hfields
  · exact hhead

/-- The checks of a descriptor are the limits of R444, R447 and R448. -/
theorem pdCheck_eq_none {s : State} {f : Form} {o : Nat} {a : Option Nat} : pdCheck s f o a = none ↔ PassOk s f o a := by
  have hA : ∀ g : Nat → PostErr, a.elim none g = none ↔ ∀ x, a = some x → g x = none := by intro g; cases a <;> simp
  simp only [pdCheck_eq, PassOk, Option.or_eq_none_iff, firstErr_eq_none, pdFields, List.forall_mem_cons, List.not_mem_nil, false_imp_iff, implies_true, and_true,
    errIll_eq_none, errAlign_eq_none, errRange_eq_none, ite_none_eq_none, hA, and_assoc]
  generalize spadRead s f o 32 = d
  have hfields : (natAt d 22 1 / 128 != 0 || natAt d 23 1 / 16 != 0 || natAt d 24 8 != 0 || !([2, 3, 4, 6].contains (pdAf d)) ||
      !([2, 3, 4, 6].contains (pdBf d) || pdBf d == 5)) = false ↔
      natAt d 22 1 < 128 ∧ natAt d 23 1 < 16 ∧ natAt d 24 8 = 0 ∧ pdAf d ∈ [2, 3, 4, 6] ∧ pdBf d ∈ [2, 3, 4, 6, 5] := by
    have hB : ([2, 3, 4, 6].contains (pdBf d) || pdBf d == 5) = true ↔ pdBf d ∈ [2, 3, 4, 6, 5] := by simp [or_assoc]
    simp only [Bool.or_eq_false_iff, Bool.not_eq_false', hB, List.contains_iff_mem, bne_eq_false_iff_eq, Nat.div_eq_zero_iff_lt (show 0 < 128 by decide),
      Nat.div_eq_zero_iff_lt (show 0 < 16 by decide), and_assoc]
  have hscaled : ((pdFlag d 2 || pdFlag d 3) && (pdAf d == 6 || pdBf d == 6)) = false ↔
      (pdFlag d 2 = true ∨ pdFlag d 3 = true → pdAf d ≠ 6 ∧ pdBf d ≠ 6) := by
    cases pdFlag d 2 <;> cases pdFlag d 3 <;> simp
  have hstrides : (pdAstr d % 16 != 0 || decide (pdAstr d < pdArow d) || pdBstr d % 16 != 0 || decide (pdBstr d < pdBrow d)) = false ↔
      pdAstr d % 16 = 0 ∧ pdArow d ≤ pdAstr d ∧ pdBstr d % 16 = 0 ∧ pdBrow d ≤ pdBstr d := by
    simp [and_assoc]
  rw [hfields, hscaled, hstrides]
  constructor
  · rintro ⟨ho, hin, ⟨h22, h23, h24, haf, hbf⟩, hsc, ⟨has, har, hbs, hbr⟩, hb, hbsA, hasA, hcbA, haA, hbR, hbsR, hasR, hcbR, haR⟩
    exact ⟨ho, hin, h22, h23, h24, haf, hbf, hsc, has, har, hbs, hbr, hb, hbR, fun h => ⟨hbsA h, hbsR h⟩, fun h => ⟨hasA h, hasR h⟩,
      fun h => ⟨hcbA h, hcbR h⟩, fun x h => ⟨haA x h, haR x h⟩⟩
  · rintro ⟨ho, hin, h22, h23, h24, haf, hbf, hsc, has, har, hbs, hbr, hb, hbR, hbsx, hasx, hcbx, hax⟩
    exact ⟨ho, hin, ⟨h22, h23, h24, haf, hbf⟩, hsc, ⟨has, har, hbs, hbr⟩, hb, fun h => (hbsx h).1, fun h => (hasx h).1, fun h => (hcbx h).1,
      fun x h => (hax x h).1, hbR, fun h => (hbsx h).2, fun h => (hasx h).2, fun h => (hcbx h).2, fun x h => (hax x h).2⟩

/-- The checks of an epilogue word and its destination. -/
def epChecks (s : State) (cl ten : Nat) (dst : Nat) (w : W64) : List PostErr :=
  [errIll (w >>> 40 != 0 || bit 23 w || bit 15 w || !([0, 1, 2, 3, 4, 9].contains (epFmt w))),
   errIll (epStride w % 16 != 0 || decide (epStride w < 16 * epWidth w)),
   errIll (bit 8 w && !barOk s cl (epBc w) ten),
   errAlign dst 16]

theorem epChecks_atPost (s : State) (cl ten dst : Nat) (w : W64) : AtPost (firstErr (epChecks s cl ten dst w)) := .first (by
  simp only [epChecks, List.forall_mem_cons, List.not_mem_nil, false_imp_iff, implies_true, and_true]
  exact ⟨.ill _, .ill _, .ill _, .align _ _⟩)

theorem barOk_iff (s : State) (cl k ten : Nat) : barOk s cl k ten = true ↔ BarFree s cl k ten := by
  rw [barOk, BarFree]
  cases (barOf s cl k).owner <;> simp

/-- The checks of an epilogue are the limits of R450. -/
theorem epChecks_eq_none {s : State} {p : Pref} {dst w : W64} :
    firstErr (epChecks s (clusterOfCore p.team.core) p.grid.tenant dst.toNat w) = none ↔ EpiOk s p dst w := by
  have hword : (w >>> 40 != 0 || bit 23 w || bit 15 w || !([0, 1, 2, 3, 4, 9].contains (epFmt w))) = false ↔
      w >>> 40 = 0 ∧ bit 23 w = false ∧ bit 15 w = false ∧ epFmt w ∈ [0, 1, 2, 3, 4, 9] := by
    simp only [Bool.or_eq_false_iff, Bool.not_eq_false', List.contains_iff_mem, bne_eq_false_iff_eq, and_assoc]
  have hstride : (epStride w % 16 != 0 || decide (epStride w < 16 * epWidth w)) = false ↔ epStride w % 16 = 0 ∧ 16 * epWidth w ≤ epStride w := by simp
  have hbar : (bit 8 w && !barOk s (clusterOfCore p.team.core) (epBc w) p.grid.tenant) = false ↔
      (bit 8 w = true → BarFree s (clusterOfCore p.team.core) (epBc w) p.grid.tenant) := by
    rw [← barOk_iff]
    cases bit 8 w <;> simp
  simp only [firstErr_eq_none, epChecks, List.forall_mem_cons, List.not_mem_nil, false_imp_iff, implies_true, and_true, errIll_eq_none, errAlign_eq_none,
    hword, hstride, hbar, EpiOk, and_assoc]

/-! ## The machine with the earlier wish withdrawn -/

theorem clusterOf_updMx (s : State) (c k : Nat) (f : Matrix → Matrix) :
    clusterOf (updMx s c f) k = if k = c then { clusterOf s c with mx := f (clusterOf s c).mx } else clusterOf s k := by
  rw [updMx, clusterOf_updCluster]

theorem mxOf_updMx (s : State) (c k : Nat) (f : Matrix → Matrix) : mxOf (updMx s c f) k = if k = c then f (mxOf s c) else mxOf s k := by
  rw [mxOf, clusterOf_updMx]
  split <;> rfl

section
variable (s : State) (p : Pref)

/-- Only the wishes of one engine differ. -/
theorem clusterOf_asked (k : Nat) : ∃ w, clusterOf (asked s p) k = { clusterOf s k with mx := { (clusterOf s k).mx with wants := w } } := by
  rw [asked, clusterOf_updMx]
  split
  · next h => exact ⟨_, by rw [h]⟩
  · exact ⟨_, rfl⟩

theorem asked_mx (k : Nat) : (mxOf (asked s p) k).resv = (mxOf s k).resv ∧ (mxOf (asked s p) k).slots = (mxOf s k).slots ∧
    (mxOf (asked s p) k).own = (mxOf s k).own := by
  obtain ⟨w, hw⟩ := clusterOf_asked s p k
  simp only [mxOf, hw, and_self]

theorem asked_spadRead (f : Form) (o n : Nat) : spadRead (asked s p) f o n = spadRead s f o n := by
  have hget (k : Nat) (m : W64) (g q : Nat) : spadGet (clusterOf (asked s p) k) m g q = spadGet (clusterOf s k) m g q := by
    obtain ⟨w, hw⟩ := clusterOf_asked s p k
    simp only [spadGet, hw]
  have hmode (k g : Nat) : segModes (asked s p) k g = segModes s k g := by
    obtain ⟨w, hw⟩ := clusterOf_asked s p k
    simp only [segModes, hw]
  simp only [spadRead, hget, hmode]

theorem asked_barOf (k b : Nat) : barOf (asked s p) k b = barOf s k b := by
  obtain ⟨w, hw⟩ := clusterOf_asked s p k
  simp only [barOf, hw]

theorem asked_cfgWaits (k : Nat) : cfgWaits (asked s p) k = cfgWaits s k := by
  obtain ⟨w, hw⟩ := clusterOf_asked s p k
  simp only [cfgWaits, hw]
  rfl

theorem asked_freeSlots (k : Nat) : freeSlots (asked s p) k = freeSlots s k := by
  have hown (j : Nat) : ownOf (asked s p) k j = ownOf s k j := by rw [ownOf, (asked_mx s p k).2.2, ownOf]
  simp only [freeSlots, hown]
  rfl

variable {s p}

theorem asked_passOk {f : Form} {o : Nat} {a : Option Nat} : PassOk (asked s p) f o a ↔ PassOk s f o a := by
  simp only [PassOk, asked_spadRead]

theorem asked_epiOk {dst w : W64} : EpiOk (asked s p) p dst w ↔ EpiOk s p dst w := by
  simp only [EpiOk, BarFree, asked_barOf]

end

/-! ## Posting (R440) -/

/-- The command of a Prefect with operands in registers a and b. -/
def cmdOf (p : Pref) (f : Form) (a b : SReg) : MxCmd :=
  ⟨p, f, clusterOfCore p.team.core, p.grid.tenant, rdS p.team.pf a.toNat, rdS p.team.pf b.toNat, false⟩

section
variable {s : State} {p : Pref} {f : Form} (h : PrefReady s p) (hform : findForm s p.team.fid = some f) {i : Instr} {a b : SReg}
  {chk : State → MxCmd → MxChk} (hexec : exec i s = mxPost i a b chk s)
include h hform hexec

theorem mxPost_fault {u : State} {c x l : Nat} {va : W64} (hchk : chk (asked s p) (cmdOf p f a b) = .fault u c x l va) :
    exec i s = .next (raisePref u p c x l va) := by
  rw [hexec, mxPost, withPref_ready h]
  unfold asked cmdOf at hchk
  simp only [hform, hchk]

theorem mxPost_retires {u : State} (hchk : chk (asked s p) (cmdOf p f a b) = .retire u) :
    ∃ t, exec i s = .next t ∧ PrefBecomes u p t { p.team.pf with pc := p.team.pf.pc + 4 } := by
  refine ⟨prefDone u p (fun q => q), ?_, h.prefDone_id u⟩
  rw [hexec, mxPost, withPref_ready h]
  unfold asked cmdOf at hchk
  simp only [hform, hchk]

theorem mxPost_posts {pas : List TlbEntry} {desc : List Byte} {units : Nat} {act : State → State} {u : State} (hu : act (asked s p) = u)
    (hchk : chk (asked s p) (cmdOf p f a b) = .ok (asked s p) pas desc units act) :
    Posts s (asked s p) p i (rdS p.team.pf a.toNat) (rdS p.team.pf b.toNat) units pas desc u := by
  have hfid : f.fid = p.team.fid := by simpa using List.find?_some hform
  have hroom : (8 ≤ (mxOf (asked s p) (clusterOfCore p.team.core)).resv.length || !(cfgWaits (asked s p) (clusterOfCore p.team.core)).isEmpty) = true ↔
      ¬ MxRoom s p := by
    rw [(asked_mx s p _).1, asked_cfgWaits, MxRoom, Bool.or_eq_true, decide_eq_true_eq, Bool.not_eq_true', List.isEmpty_eq_false_iff, not_and_or, not_lt]
  have hv : updMx s (clusterOfCore p.team.core) (fun m => { m with wants := m.wants.filter (fun w => w.1 != p.team.tid) }) = asked s p := rfl
  rw [Posts, hexec, mxPost, withPref_ready h]
  generalize asked s p = v at *
  unfold cmdOf at hchk
  simp only [hform, hv, hchk, hu, hfid, newId]
  refine ⟨fun hr => ⟨_, congrArg _ (if_neg (fun hfull => hroom.mp hfull hr)), h.prefDone_id _⟩,
    fun hr => ⟨prefStall v p .barrier, congrArg _ (if_pos (hroom.mpr hr)), fun q => { q with st := .barrier }, rfl, rfl⟩⟩

end

/-! ## Names (R438) -/

theorem onName_ordinary {s : State} {p : Pref} {f : Form} {a b : SReg} {n : Nat} (hn : tfind n f.slateNames = none) (k : Bool → MxChk) :
    onName s (cmdOf p f a b) n k = k false := by
  simp only [onName, cmdOf, hn]

/-- A name of a slate that is on the engine, or whose SLPIN is posted. -/
theorem onName_slate {s : State} {p : Pref} {f : Form} {a b : SReg} {n : Nat} {x : Slate} (hx : SlateName s p f n x) (hh : Here p x) (k : Bool → MxChk) :
    onName (asked s p) (cmdOf p f a b) n k = k true := by
  obtain ⟨id, hid, hslate⟩ := hx
  have hfind : findSlate (asked s p) p.grid.tenant id = some x := hslate
  have hcorrupt : x.state ≠ 3 := by
    obtain h0 | ⟨h1, -⟩ := hh <;> omega
  have hhere : ¬ (x.state = 2 ∨ x.state = 1 ∧ x.cluster ≠ clusterOfCore p.team.core) := by
    obtain h0 | ⟨h1, hc⟩ := hh
    · omega
    · rintro (h2 | ⟨-, hne⟩)
      · omega
      · exact hne hc
  simp only [onName, cmdOf, hid, withSlate, hfind, hcorrupt, hhere, Bool.false_eq_true, if_false]

section
variable {s : State} {p : Pref} {f : Form} (hform : findForm s p.team.fid = some f)
include hform

theorem findForm_fid : findForm (asked s p) f.fid = some f := by
  have hfid : f.fid = p.team.fid := by simpa using List.find?_some hform
  rw [hfid]
  exact hform

/-- A name that is bound, or a slate's, stays as it is. -/
theorem bindAct_old {a b : SReg} {n : Nat} (hn : BoundName f n ∨ ∃ x, SlateName s p f n x) : bindAct (cmdOf p f a b) n (asked s p) = asked s p := by
  have hfind := findForm_fid hform
  obtain ⟨hslate, k, hk⟩ | ⟨x, id, hid, -⟩ := hn
  · have hbind : bindName (asked s p) (clusterOfCore p.team.core) f.fid p.grid.gid p.grid.tenant n = some (k, asked s p) := by
      simp only [bindName, nameSlot, hfind, Option.bind_some, hk]
    simp only [bindAct, cmdOf, nameSlate, hfind, Option.bind_some, hslate, hbind]
  · simp only [bindAct, cmdOf, nameSlate, hfind, Option.bind_some, hid]

end

/-! ### The slot of a name that is not bound -/

theorem insertOn_ne_nil {α : Type} (key : α → Nat) (x : α) (l : List α) : insertOn key x l ≠ [] := by
  cases l with
  | nil => exact List.cons_ne_nil _ _
  | cons y r =>
    rw [insertOn]
    split <;> exact List.cons_ne_nil _ _

theorem sortOn_eq_nil {α : Type} {key : α → Nat} {l : List α} (h : sortOn key l = []) : l = [] := by
  cases l with
  | nil => rfl
  | cons x l => exact absurd h (insertOn_ne_nil _ _ _)

theorem sortOn_head {α : Type} {key : α → Nat} {l r : List α} {k : α} (h : sortOn key l = k :: r) : k ∈ l ∧ ∀ j ∈ l, key k ≤ key j := by
  induction l generalizing k r with
  | nil => cases h
  | cons x l ih =>
    rw [sortOn] at h
    match hs : sortOn key l with
    | [] =>
      rw [hs] at h
      cases h
      rw [sortOn_eq_nil hs]
      exact ⟨List.mem_cons_self, List.forall_mem_singleton.mpr le_rfl⟩
    | y :: t =>
      obtain ⟨hy, hmin⟩ := ih hs
      rw [hs, insertOn] at h
      split at h
      · next hxy =>
        cases h
        exact ⟨List.mem_cons_self, List.forall_mem_cons.mpr ⟨le_rfl, fun j hj => hxy.trans (hmin j hj)⟩⟩
      · next hxy =>
        cases h
        exact ⟨List.mem_cons_of_mem _ hy, List.forall_mem_cons.mpr ⟨by omega, hmin⟩⟩

theorem freeSlots_head {s : State} {cl k : Nat} {r : List Nat} (h : freeSlots s cl = k :: r) : k ∈ freeSlots s cl ∧ ∀ j ∈ freeSlots s cl, k ≤ j := by
  have hsorted : (freeSlots s cl).Pairwise (· < ·) := List.pairwise_lt_range.filter _
  rw [h] at hsorted ⊢
  exact ⟨List.mem_cons_self, List.forall_mem_cons.mpr ⟨le_rfl, fun j hj => (List.rel_of_pairwise_cons hsorted hj).le⟩⟩

theorem findForm_updForm {s : State} {fid : Nat} {f : Form} (hf : findForm s fid = some f) {g : Form → Form} (hg : ∀ x, (g x).fid = x.fid) :
    findForm (updForm s fid g) fid = some (g f) := by
  have hfid : f.fid = fid := by simpa using List.find?_some hf
  have hsame : ((fun x : Form => x.fid == fid) ∘ fun x => if x.fid = fid then g x else x) = fun x => x.fid == fid := by
    funext x
    dsimp only [Function.comp]
    split
    · rw [hg]
    · rfl
  unfold findForm at hf
  rw [findForm, updForm, List.find?_map, hsame, hf, Option.map_some, if_pos hfid]

/-- Slot k emptied and BOUND to a form, and name n of the form bound to it, over `v`. -/
def boundOver (v : State) (cl fid n k : Nat) (o : OwnEntry) : State :=
  updForm (setOwn (setSlot v cl k []) cl k o) fid (fun f => { f with names := tput n k f.names })

theorem slotOf_boundOver (v : State) (cl fid n k : Nat) (o : OwnEntry) (j : Nat) :
    slotOf (boundOver v cl fid n k o) cl j = if j = k then [] else slotOf v cl j := by
  have hmx : (mxOf (boundOver v cl fid n k o) cl).slots = tset [] k [] (mxOf v cl).slots := by
    have hform : mxOf (boundOver v cl fid n k o) cl = mxOf (setOwn (setSlot v cl k []) cl k o) cl := rfl
    rw [hform, setOwn, mxOf_updMx, if_pos rfl, setSlot, mxOf_updMx, if_pos rfl]
  rw [slotOf, hmx, tget_tset, slotOf]

theorem ownOf_boundOver (v : State) (cl fid n k : Nat) (o : OwnEntry) (j : Nat) :
    ownOf (boundOver v cl fid n k o) cl j = if j = k then o else ownOf v cl j := by
  have hmx : (mxOf (boundOver v cl fid n k o) cl).own = tset {} k o (mxOf v cl).own := by
    have hform : mxOf (boundOver v cl fid n k o) cl = mxOf (setOwn (setSlot v cl k []) cl k o) cl := rfl
    rw [hform, setOwn, mxOf_updMx, if_pos rfl, setSlot, mxOf_updMx, if_pos rfl]
  rw [ownOf, hmx, tget_tset, ownOf]

/-- The slots and forms of the machine that a binding starts from. -/
theorem binds_boundOver {s v : State} {p : Pref} {f f' : Form} {n k : Nat} {o : OwnEntry}
    (ho : o = { state := 1, tenant := p.grid.tenant, fid := some p.team.fid, gid := p.grid.gid })
    (hk : k ∈ f.reserved ∧ (∀ j ∈ f.reserved, k ≤ j) ∨ f.reserved = [] ∧ k ∈ freeSlots s (clusterOfCore p.team.core) ∧
      ∀ j ∈ freeSlots s (clusterOfCore p.team.core), k ≤ j)
    (hslots : (mxOf v (clusterOfCore p.team.core)).slots = (mxOf s (clusterOfCore p.team.core)).slots)
    (hown : (mxOf v (clusterOfCore p.team.core)).own = (mxOf s (clusterOfCore p.team.core)).own)
    (hform : findForm v p.team.fid = some f') (hf' : f' = { f with reserved := (sortOn (fun x => x) f.reserved).drop 1 }) :
    Binds s p f n (boundOver v (clusterOfCore p.team.core) p.team.fid n k o) := by
  subst ho hf'
  refine ⟨k, hk, fun i j => ?_, ?_, fun j hj => ⟨?_, ?_⟩, ?_⟩
  · rw [slotOf_boundOver, if_pos rfl]
    rfl
  · rw [ownOf_boundOver, if_pos rfl]
  · rw [slotOf_boundOver, if_neg hj, slotOf, hslots, slotOf]
  · rw [ownOf_boundOver, if_neg hj, ownOf, hown, ownOf]
  · exact findForm_updForm (s := setOwn (setSlot v (clusterOfCore p.team.core) k []) _ k _) hform (fun _ => rfl)

/-- A name that is not bound is, as the command is posted. -/
theorem bindAct_free {s : State} {p : Pref} {f : Form} (hform : findForm s p.team.fid = some f) {a b : SReg} {n : Nat} (hn : FreeName f n)
    (hslot : f.reserved ≠ [] ∨ freeSlots s (clusterOfCore p.team.core) ≠ []) : Binds s p f n (bindAct (cmdOf p f a b) n (asked s p)) := by
  obtain ⟨hslate, hname⟩ := hn
  have hfid : f.fid = p.team.fid := by simpa using List.find?_some hform
  have hfind : findForm (asked s p) p.team.fid = some f := hform
  obtain ⟨-, hslots, hown⟩ := asked_mx s p (clusterOfCore p.team.core)
  have hact {k : Nat} {v : State} (htake : takeSlot (asked s p) (clusterOfCore p.team.core) p.team.fid = some (k, setSlot v (clusterOfCore p.team.core) k [])) :
      bindAct (cmdOf p f a b) n (asked s p) = boundOver v (clusterOfCore p.team.core) p.team.fid n k
        { state := 1, tenant := p.grid.tenant, fid := some p.team.fid, gid := p.grid.gid } := by
    simp only [bindAct, cmdOf, nameSlate, bindName, nameSlot, hfid, hfind, Option.bind_some, hslate, hname, htake, boundOver]
  match hr : sortOn (fun x => x) f.reserved with
  | k :: r =>
    have htake : takeSlot (asked s p) (clusterOfCore p.team.core) p.team.fid =
        some (k, setSlot (updForm (asked s p) p.team.fid (fun f => { f with reserved := r })) (clusterOfCore p.team.core) k []) := by
      simp only [takeSlot, hfind, hr]
    rw [hact htake]
    refine binds_boundOver rfl (.inl (sortOn_head hr)) hslots hown (findForm_updForm hfind (fun _ => rfl)) ?_
    rw [hr, List.drop_one, List.tail_cons]
  | [] =>
    have hnone : f.reserved = [] := sortOn_eq_nil hr
    obtain ⟨k, r, hfree⟩ := List.exists_cons_of_ne_nil (hslot.resolve_left (fun hne => hne hnone))
    have htake : takeSlot (asked s p) (clusterOfCore p.team.core) p.team.fid = some (k, setSlot (asked s p) (clusterOfCore p.team.core) k []) := by
      simp only [takeSlot, hfind, hr, asked_freeSlots, hfree]
    rw [hact htake]
    refine binds_boundOver rfl (.inr ⟨hnone, freeSlots_head hfree⟩) hslots hown hfind ?_
    rw [hr, List.drop_nil, ← hnone]

/-! ## The barrier of an epilogue (R410, R450) -/

/-- Posting takes the barrier that the word names if no tenant owns it. -/
theorem barClaim_taken {s : State} {cl k ten : Nat} (hfree : BarFree s cl k ten) :
    BarBecomes s (barClaim s cl k ten) cl k { barOf s cl k with owner := some ten } := by
  rw [barClaim]
  obtain hnone | hmine := hfree
  · rw [if_pos (by rw [hnone]; rfl)]
    have hcluster (c : Nat) := clusterOf_updCluster s cl c
    refine ⟨_, rfl, fun c hc => ?_, ?_, fun j => ?_⟩
    · rw [updBar, hcluster, if_neg hc]
    · rw [updBar, hcluster, if_pos rfl]
      exact ⟨_, rfl⟩
    · rw [updBar, barOf, hcluster, if_pos rfl, tget_tset]
      rfl
  · rw [if_neg (by rw [hmine]; exact Bool.false_ne_true)]
    refine ⟨_, rfl, fun _ _ => rfl, ⟨_, rfl⟩, fun j => ?_⟩
    split
    · next hj =>
      subst hj
      rw [← hmine]
    · rfl

/-! ## What the checks of a command come to -/

section
variable {s : State} {p : Pref} {f : Form}

theorem mldbCheck_eq (a : SReg) : mldbCheck (asked s p) (cmdOf p f a 0) = orErr (asked s p) (pdCheck (asked s p) f (rdS p.team.pf a.toNat).toNat none)
    (.ok (asked s p) [] (spadRead s f (rdS p.team.pf a.toNat).toNat 32) 1 (fun s => s)) := by
  rw [← asked_spadRead s p]
  rfl

theorem mmaCheck_eq (n : BitVec 5) (a b : SReg) : mmaCheck n.toNat (asked s p) (cmdOf p f a b) =
    orErr (asked s p) (pdCheck (asked s p) f (rdS p.team.pf a.toNat).toNat (some (rdS p.team.pf b.toNat).toNat))
      (onName (asked s p) (cmdOf p f a b) n.toNat
        (fun _ => .ok (asked s p) [] (spadRead s f (rdS p.team.pf a.toNat).toNat 32) 1 (bindAct (cmdOf p f a b) n.toNat))) := by
  rw [← asked_spadRead s p]
  rfl

theorem mmaCheck_ok {n : BitVec 5} {a b : SReg} (hok : PassOk s f (rdS p.team.pf a.toNat).toNat (some (rdS p.team.pf b.toNat).toNat)) :
    mmaCheck n.toNat (asked s p) (cmdOf p f a b) = onName (asked s p) (cmdOf p f a b) n.toNat
      (fun _ => .ok (asked s p) [] (spadRead s f (rdS p.team.pf a.toNat).toNat 32) 1 (bindAct (cmdOf p f a b) n.toNat)) := by
  rw [mmaCheck_eq, pdCheck_eq_none.mpr (asked_passOk.mpr hok), orErr]

/-- What posting an epilogue to form memory does first. -/
def epAct (c : MxCmd) (n : Nat) (s : State) : State :=
  if bit 8 c.sb then barClaim (bindAct c n s) c.cl (epBc c.sb) c.ten else bindAct c n s

theorem mepiCheck_eq (n : BitVec 5) (a b : SReg) : ∃ k : Bool → MxChk, mepiCheck n.toNat (asked s p) (cmdOf p f a b) =
    orErr (asked s p) (firstErr (epChecks (asked s p) (clusterOfCore p.team.core) p.grid.tenant (rdS p.team.pf a.toNat).toNat (rdS p.team.pf b.toNat)))
      (onName (asked s p) (cmdOf p f a b) n.toNat k) ∧
    (∀ pinned, (pinned && bit 7 (rdS p.team.pf b.toNat)) = true → k pinned = .fault (asked s p) fcIllegal 0 0 0) ∧
    ∀ pinned, (pinned && bit 7 (rdS p.team.pf b.toNat)) = false → bit 4 (rdS p.team.pf b.toNat) = true →
      inForm f (rdS p.team.pf a.toNat).toNat (epSpan (rdS p.team.pf b.toNat)) →
      k pinned = .ok (asked s p) [] [] 1 (epAct (cmdOf p f a b) n.toNat) := by
  refine ⟨_, rfl, fun pinned hp => if_pos hp, fun pinned hp h4 hin => ?_⟩
  have hrange : errRange (cmdOf p f a b).f (cmdOf p f a b).sa.toNat (epSpan (cmdOf p f a b).sb) = none := errRange_eq_none.mpr hin
  refine (if_neg (ne_true_of_eq_false hp)).trans ((if_pos h4).trans ?_)
  rw [hrange]
  rfl

end

/-! ## The commands -/

section
variable {s : State} {p : Pref} {f : Form} (h : PrefReady s p) (hform : findForm s p.team.fid = some f)
include h hform

/-- A command with a check that fails. -/
theorem refused_of_check {i : Instr} {a b : SReg} {chk : State → MxCmd → MxChk} (hexec : exec i s = mxPost i a b chk s) {e : PostErr} {k : MxChk}
    (hchk : chk (asked s p) (cmdOf p f a b) = orErr (asked s p) e k) (hkind : AtPost e) (he : e ≠ none) : Refused s p i := by
  match e, he with
  | some (c, x, va), _ => exact ⟨c, x, va, hkind _ rfl, mxPost_fault h hform hexec hchk⟩

/-- A command that faults ILLEGAL. -/
theorem refused_illegal {i : Instr} {a b : SReg} {chk : State → MxCmd → MxChk} (hexec : exec i s = mxPost i a b chk s)
    (hchk : chk (asked s p) (cmdOf p f a b) = .fault (asked s p) fcIllegal 0 0 0) : Refused s p i :=
  ⟨_, _, _, .inl ⟨rfl, rfl⟩, mxPost_fault h hform hexec hchk⟩

/-! ### MLDB -/

theorem mldb_posts {k : BitVec 1} {a : SReg} (hok : PassOk s f (rdS p.team.pf a.toNat).toNat none) :
    Posts s (asked s p) p (.mldb k a) (rdS p.team.pf a.toNat) (rdS p.team.pf 0) 1 [] (spadRead s f (rdS p.team.pf a.toNat).toNat 32) (asked s p) := by
  refine mxPost_posts (chk := mldbCheck) (b := 0) (act := fun s => s) h hform rfl rfl ?_
  rw [mldbCheck_eq, pdCheck_eq_none.mpr (asked_passOk.mpr hok), orErr]

theorem mldb_refused {k : BitVec 1} {a : SReg} (hbad : ¬ PassOk s f (rdS p.team.pf a.toNat).toNat none) : Refused s p (.mldb k a) :=
  refused_of_check (chk := mldbCheck) (b := 0) h hform rfl (mldbCheck_eq a) (pdCheck_atPost _ _ _ _)
    (fun hn => hbad (asked_passOk.mp (pdCheck_eq_none.mp hn)))

/-! ### Commands that may bind their name -/

/-- A command whose other checks hold, on a name that is bound or a slate's that is here. -/
theorem named_posts {i : Instr} {a b : SReg} {n : Nat} {desc : List Byte} {chk : State → MxCmd → MxChk} (hexec : exec i s = mxPost i a b chk s)
    (hchk : chk (asked s p) (cmdOf p f a b) =
      onName (asked s p) (cmdOf p f a b) n (fun _ => .ok (asked s p) [] desc 1 (bindAct (cmdOf p f a b) n)))
    (hold : BoundName f n ∨ ∃ x, SlateName s p f n x ∧ Here p x) :
    Posts s (asked s p) p i (rdS p.team.pf a.toNat) (rdS p.team.pf b.toNat) 1 [] desc (asked s p) := by
  refine mxPost_posts h hform hexec (bindAct_old hform (a := a) (b := b) (hold.imp_right (fun ⟨x, hx, _⟩ => ⟨x, hx⟩))) (hchk.trans ?_)
  obtain hbound | ⟨x, hx, hh⟩ := hold
  · exact onName_ordinary hbound.1 _
  · exact onName_slate hx hh _

/-- The same on a name that is not bound. -/
theorem named_binds {i : Instr} {a b : SReg} {n : Nat} {desc : List Byte} {chk : State → MxCmd → MxChk} (hexec : exec i s = mxPost i a b chk s)
    (hchk : chk (asked s p) (cmdOf p f a b) =
      onName (asked s p) (cmdOf p f a b) n (fun _ => .ok (asked s p) [] desc 1 (bindAct (cmdOf p f a b) n)))
    (hfree : FreeName f n) (hslot : f.reserved ≠ [] ∨ freeSlots s (clusterOfCore p.team.core) ≠ []) (hroom : MxRoom s p) :
    ∃ t u, exec i s = .next t ∧ Binds s p f n u ∧ CmdPosted u p i (rdS p.team.pf a.toNat) (rdS p.team.pf b.toNat) 1 [] desc t := by
  obtain ⟨t, he, hp⟩ := (mxPost_posts h hform hexec rfl (hchk.trans (onName_ordinary hfree.1 _))).1 hroom
  exact ⟨t, _, he, bindAct_free hform hfree hslot, hp⟩

theorem mma_refused {n : BitVec 5} {a b : SReg} (hbad : ¬ PassOk s f (rdS p.team.pf a.toNat).toNat (some (rdS p.team.pf b.toNat).toNat)) :
    Refused s p (.mma n a b) :=
  refused_of_check (chk := mmaCheck n.toNat) h hform rfl (mmaCheck_eq n a b) (pdCheck_atPost _ _ _ _)
    (fun hn => hbad (asked_passOk.mp (pdCheck_eq_none.mp hn)))

/-! ### MEPI -/

theorem mepi_refused {n : BitVec 5} {a b : SReg} (hbad : ¬ EpiOk s p (rdS p.team.pf a.toNat) (rdS p.team.pf b.toNat)) : Refused s p (.mepi n a b) := by
  obtain ⟨k, hchk, -, -⟩ := mepiCheck_eq n a b
  exact refused_of_check (chk := mepiCheck n.toNat) h hform rfl hchk (epChecks_atPost _ _ _ _ _) (fun hn => hbad (asked_epiOk.mp (epChecks_eq_none.mp hn)))

section
variable {n : BitVec 5} {a b : SReg} (hok : EpiOk s p (rdS p.team.pf a.toNat) (rdS p.team.pf b.toNat))
include hok

/-- An epilogue that may not read a slate's name. -/
theorem mepi_slate_refused (h7 : bit 7 (rdS p.team.pf b.toNat) = true) {x : Slate} (hx : SlateName s p f n.toNat x) (hh : Here p x) :
    Refused s p (.mepi n a b) := by
  obtain ⟨k, hchk, hill, -⟩ := mepiCheck_eq n a b
  rw [epChecks_eq_none.mpr (asked_epiOk.mpr hok), orErr, onName_slate hx hh, hill true h7] at hchk
  exact refused_illegal (chk := mepiCheck n.toNat) h hform rfl hchk

theorem mepi_posts (h4 : bit 4 (rdS p.team.pf b.toNat) = true) (hin : inForm f (rdS p.team.pf a.toNat).toNat (epSpan (rdS p.team.pf b.toNat)))
    (hold : BoundName f n.toNat ∨ bit 7 (rdS p.team.pf b.toNat) = false ∧ ∃ x, SlateName s p f n.toNat x ∧ Here p x) :
    ∃ u, BarTaken (asked s p) u p (bit 8 (rdS p.team.pf b.toNat)) (epBc (rdS p.team.pf b.toNat)) ∧
      Posts s (asked s p) p (.mepi n a b) (rdS p.team.pf a.toNat) (rdS p.team.pf b.toNat) 1 [] [] u := by
  obtain ⟨k, hchk, -, hk⟩ := mepiCheck_eq n a b
  have hname : onName (asked s p) (cmdOf p f a b) n.toNat k = .ok (asked s p) [] [] 1 (epAct (cmdOf p f a b) n.toNat) := by
    obtain hbound | ⟨h7, x, hx, hh⟩ := hold
    · rw [onName_ordinary hbound.1, hk false rfl h4 hin]
    · rw [onName_slate hx hh, hk true h7 h4 hin]
  have hbind := bindAct_old hform (a := a) (b := b) (n := n.toNat) (hold.imp_right (fun ⟨_, x, hx, _⟩ => ⟨x, hx⟩))
  rw [epChecks_eq_none.mpr (asked_epiOk.mpr hok), orErr, hname] at hchk
  refine ⟨_, ?_, mxPost_posts (chk := mepiCheck n.toNat) h hform rfl rfl hchk⟩
  obtain ⟨-, -, -, -, -, -, hfree, -⟩ := asked_epiOk.mpr hok
  rw [epAct, hbind, BarTaken]
  split
  · next h8 =>
    rw [if_pos (show bit 8 (cmdOf p f a b).sb = true from h8)]
    exact barClaim_taken (hfree h8)
  · next h8 => exact if_neg h8

end

/-! ### MREL -/

theorem mrel_posts {n : BitVec 5} (hb : BoundName f n.toNat) :
    Posts s (asked s p) p (.mrel n) (rdS p.team.pf 0) (rdS p.team.pf 0) 1 [] [] (asked s p) := by
  obtain ⟨hslate, k, hk⟩ := hb
  refine mxPost_posts (chk := mrelCheck n.toNat) (a := 0) (b := 0) (act := fun s => s) h hform rfl rfl ?_
  simp only [mrelCheck, cmdOf, hslate, hk, Option.isSome_none, Option.isNone_some, Bool.false_eq_true, if_false]

theorem mrel_retires {n : BitVec 5} (hf : FreeName f n.toNat) :
    ∃ t, exec (.mrel n) s = .next t ∧ PrefBecomes (asked s p) p t { p.team.pf with pc := p.team.pf.pc + 4 } := by
  obtain ⟨hslate, hname⟩ := hf
  refine mxPost_retires (chk := mrelCheck n.toNat) (a := 0) (b := 0) h hform rfl ?_
  simp only [mrelCheck, cmdOf, hslate, hname, Option.isSome_none, Option.isNone_none, Bool.false_eq_true, if_false, if_true]

theorem mrel_slate_refused {n : BitVec 5} {x : Slate} (hx : SlateName s p f n.toNat x) : Refused s p (.mrel n) := by
  obtain ⟨id, hid, -⟩ := hx
  refine refused_illegal (chk := mrelCheck n.toNat) (a := 0) (b := 0) h hform rfl ?_
  simp only [mrelCheck, cmdOf, hid, Option.isSome_some, if_true]

end

/-- Settles O38: each command is its checks, its name and its post. -/
theorem matrixPosts : Obligations.MatrixPosts := by
  intro s p f k n a b h hform sa sb s1 s0 old new
  refine ⟨mldb_posts h hform, mldb_refused h hform, fun hok => ⟨?mma_old, ?mma_new⟩, mma_refused h hform,
    fun hok h4 hin => ⟨mepi_posts h hform hok h4 hin, fun h7 ⟨x, hx, hh⟩ => mepi_slate_refused h hform hok h7 hx hh⟩, mepi_refused h hform,
    ?mzero_old, ?mzero_new, mrel_posts h hform, mrel_retires h hform, fun ⟨x, hx⟩ => mrel_slate_refused h hform hx⟩
  case mma_old => exact named_posts (chk := mmaCheck n.toNat) h hform rfl (mmaCheck_ok hok)
  case mma_new => exact named_binds (chk := mmaCheck n.toNat) h hform rfl (mmaCheck_ok hok)
  case mzero_old => exact named_posts (chk := mzeroCheck n.toNat) (a := 0) (b := 0) h hform rfl rfl
  case mzero_new => exact named_binds (chk := mzeroCheck n.toNat) (a := 0) (b := 0) h hform rfl rfl

end Sys2Proof.Machine
end

section
/-! SUPPORT. Transfers of an engine inside form SRAM: one unit of one read and one write (R93, R421, R422, R425, R433;
log entries 42 and 43). -/

namespace Sys2Proof.Machine
-- One declaration after the other: in parallel, the threads' stacks pass the check's memory limit.
set_option Elab.async false
open Sys2Proof.Claims

/-! ## An operation among those in flight -/

/-- The machine u differs from s at most in its operations, and operation `id` stands there as o. -/
structure OpStands (s u : State) (id : Nat) (o : EngOp) : Prop where
  frame : u = { s with ops := u.ops }
  op : findEop u id = some o

theorem findEop_id {s : State} {id : Nat} {o : EngOp} (h : findEop s id = some o) : o.id = id := by
  simpa using List.find?_some h

theorem findEop_updEop {s : State} {id : Nat} {o : EngOp} {g : EngOp → EngOp} (h : findEop s id = some o) (hg : ∀ x, (g x).id = x.id) :
    findEop (updEop s id g) id = some (g o) := by
  have hkey : ((fun x : EngOp => x.id == id) ∘ fun x => if x.id = id then g x else x) = fun x => x.id == id := by
    funext x
    by_cases hx : x.id = id <;> simp [hx, hg]
  rw [findEop, updEop, List.find?_map, hkey]
  rw [findEop] at h
  simp [h, show o.id = id from findEop_id h]

theorem OpStands.changed {s u : State} {id : Nat} {o : EngOp} {g : EngOp → EngOp} (h : OpStands s u id o) (hg : ∀ x, (g x).id = x.id) :
    OpStands s (updEop u id g) id (g o) :=
  ⟨by rw [updEop, h.frame], findEop_updEop h.op hg⟩

/-- The operations in flight do not matter to what is written. -/
theorem spadWrite_ops (f : Form) (b : List Byte) (s : State) (a : Nat) (l : List EngOp) :
    spadWrite { s with ops := l } f a b = { spadWrite s f a b with ops := l } := by
  induction b generalizing s a with
  | nil => rfl
  | cons x r ih =>
    rw [spadWrite, spadWrite]
    match winAt f a with
    | none => exact ih s (a + 1)
    | some (c, q) => exact ih (updCluster s (clusterOfCore c) (fun cl => spadSet cl (segModes s (clusterOfCore c) (c % 4)) (c % 4) q x)) (a + 1)

theorem OpStands.written {s u : State} {id : Nat} {o : EngOp} (h : OpStands s u id o) (f : Form) (a : Nat) (b : List Byte) :
    OpStands (spadWrite s f a b) (spadWrite u f a b) id o := by
  obtain ⟨hframe, hop⟩ := h
  have hw : spadWrite u f a b = { spadWrite s f a b with ops := u.ops } := by rw [← spadWrite_ops, ← hframe]
  rw [hw]
  exact ⟨rfl, hop⟩

theorem length_spadRead (s : State) (f : Form) (a n : Nat) : (spadRead s f a n).length = n := by simp [spadRead]

/-! ## Accesses inside the form's windows (R421) -/

/-- A range of form offsets lies in the form's scratchpad, as a machine address that is not negative names it. -/
def InWindows (f : Form) (a n : Nat) : Prop := a + n ≤ f.cores.length * f.winLen ∧ a + n ≤ 2 ^ 62

theorem InWindows.winOk {f : Form} {a : W64} {n : Nat} (h : InWindows f a.toNat n) : winOk f a.toInt n = true := by
  obtain ⟨hwin, htop⟩ := h
  refine (winOk_iff f a n).mpr ⟨?_, hwin⟩
  rw [BitVec.toInt_eq_toNat_cond]
  split <;> omega

/-- An offset in the windows is the number that its word holds. -/
theorem InWindows.toNat_ofNat {f : Form} {a n : Nat} (h : InWindows f a n) : (BitVec.ofNat 64 a).toNat = a := by
  have htop := h.2
  rw [BitVec.toNat_ofNat]
  omega

section
variable {s u : State} {id : Nat} {o : EngOp} {f : Form} (h : OpStands s u id o) (hf : findForm s o.fid = some f) (hout : f.out = false)
include h hf hout

theorem OpStands.engForm_eq : engForm u o = some f := by
  have hform : findForm u o.fid = some f := by rw [h.frame]; exact hf
  simp [engForm, hform, hout]

theorem OpStands.formBytes_inside {a : W64} {n : Nat} (hin : InWindows f a.toNat n) : formBytes u o a n = .ok u (spadRead s f a.toNat n) := by
  have hread : spadRead u f a.toNat n = spadRead s f a.toNat n := by rw [h.frame]; rfl
  simp [formBytes, h.engForm_eq hf hout, hin.winOk, hread]

theorem OpStands.engWrite_inside {a : W64} {b : List Byte} (hin : InWindows f a.toNat b.length) :
    engWrite u o true a b = .ok (spadWrite u f a.toNat b) [] := by
  simp [engWrite, h.engForm_eq hf hout, hin.winOk]

theorem OpStands.engWritable_inside {a : W64} {n : Nat} (hin : InWindows f a.toNat n) (k : Nat) : engWritable k u o true a n = .ok u [] := by
  cases k with
  | zero => rfl
  | succ k => simp [engWritable, h.engForm_eq hf hout, hin.winOk]

/-! ## One unit: its read, its write (R422, R425) -/

theorem OpStands.gatherUnit_inside {a : W64} {n : Nat} (hin : InWindows f a.toNat n) (hn : 0 < n) (hheld : o.held = []) (hasked : o.asked = false) :
    ∃ v, gatherUnit [(true, a, n)] id (n + 1) u = .done v ∧ OpStands s v id { o with held := spadRead s f a.toNat n } := by
  obtain ⟨m, rfl⟩ : ∃ m, n = m + 1 := ⟨n - 1, by omega⟩
  have hfirst : nextRead [(true, a, m + 1)] o.held.length = some (true, a, m + 1) := by simp [nextRead, hheld]
  have hread : engRead u o true a (m + 1) = .ok u (spadRead s f a.toNat (m + 1)) := h.formBytes_inside hf hout hin
  have hnext := h.changed (g := fun x => { x with held := x.held ++ spadRead s f a.toNat (m + 1) }) (fun _ => rfl)
  have hlast : nextRead [(true, a, m + 1)] (o.held ++ spadRead s f a.toNat (m + 1)).length = none := by
    simp [nextRead, hheld, length_spadRead]
  refine ⟨_, ?_, by simpa only [hheld, List.nil_append] using hnext⟩
  rw [gatherUnit, h.op]
  simp only [hfirst, hasked, Bool.false_eq_true, if_false, hread]
  rw [gatherUnit, hnext.op]
  simp only [hlast]

theorem OpStands.writeUnit_inside {a : W64} {d : List Byte} (hin : InWindows f a.toNat d.length) (hd : d ≠ []) (hwrote : o.wrote = 0)
    (hasked : o.asked = false) :
    ∃ v, writeUnit true a d id (d.length + 1) u = .done v ∧ OpStands (spadWrite s f a.toNat d) v id { o with wrote := d.length } := by
  obtain ⟨m, hm⟩ : ∃ m, d.length = m + 1 := ⟨d.length - 1, by have := List.length_pos_of_ne_nil hd; omega⟩
  have hput := h.engWrite_inside hf hout hin
  have hnext := (h.written f a.toNat d).changed (g := fun x => { x with wrote := x.wrote + d.length }) (fun _ => rfl)
  refine ⟨_, ?_, by simpa only [hwrote, Nat.zero_add] using hnext⟩
  rw [writeUnit, h.op]
  simp only [hwrote, List.drop_zero, List.isEmpty_eq_false_iff.mpr hd, hasked, Bool.false_eq_true, if_false, if_true,
    BitVec.add_zero, List.take_length, hput]
  rw [hm, writeUnit, ← hm, hnext.op]
  simp [hwrote]

/-- A unit that moves n bytes inside the windows: they are read as the unit begins. -/
theorem OpStands.runUnit_inside {a b : W64} {n : Nat} (hsrc : InWindows f a.toNat n) (hdst : InWindows f b.toNat n) (hn : 0 < n) (hheld : o.held = [])
    (hwrote : o.wrote = 0) (hasked : o.asked = false) :
    ∃ v, runUnit u id ⟨[(true, a, n)], fun x => x, true, b⟩ = .done v ∧
      OpStands (spadWrite s f b.toNat (spadRead s f a.toNat n)) v id { o with held := spadRead s f a.toNat n, wrote := n } := by
  have hlen := length_spadRead s f a.toNat n
  obtain ⟨v, hgather, hv⟩ := h.gatherUnit_inside hf hout hsrc hn hheld hasked
  obtain ⟨w, hwrite, hw⟩ := hv.writeUnit_inside hf hout (a := b) (d := spadRead s f a.toNat n) (by rwa [hlen])
    (List.ne_nil_of_length_pos (by omega)) hwrote hasked
  have hcheck := hv.engWritable_inside hf hout (a := b) (n := (spadRead s f a.toNat n).length) (by rwa [hlen])
  refine ⟨w, ?_, by rwa [hlen] at hw⟩
  simp only [runUnit, List.map_cons, List.map_nil, List.foldl_cons, List.foldl_nil, Nat.zero_add, hgather, hv.op]
  rw [if_pos (by simp [hwrote, hasked])]
  simp only [hcheck, hwrite]

end

/-! ## Before the transfer of an entry inside form SRAM (R93, R433) -/

/-- An entry of COPY, GATHER or SCATTER whose source and destination lie in form SRAM. -/
structure InsideEntry (o : EngOp) : Prop where
  ty : o.ty ∈ [1, 3, 4]
  src : enSrcSp o.entry = true
  dst : enDstSp o.entry = true

theorem insideEntry_of_justStarted {s : State} {o : EngOp} {f : Form} {ty : Nat} (h : JustStarted s o ty f) (hty : ty ∈ [1, 3, 4]) : InsideEntry o := by
  obtain ⟨-, rfl, -, -, -, -, -, -, -, -, -, -, hspaces, -⟩ := h
  refine ⟨hty, ?_, ?_⟩
  · rw [enSrcSp, beq_iff_eq]; omega
  · rw [enDstSp, beq_iff_eq]; omega

/-- An operation whose transfer begins, with nothing to lock. -/
def EngOp.locked (o : EngOp) : EngOp := { o with phase := 1, ranges := some [] }

theorem InsideEntry.locked {o : EngOp} (h : InsideEntry o) : InsideEntry o.locked := ⟨h.ty, h.src, h.dst⟩

section
variable {s : State} {id : Nat} {o : EngOp} (h : findEop s id = some o) (hin : InsideEntry o)
include h hin

theorem prepareOp_inside : prepareOp s id = .done s := by
  have hty := hin.ty
  simp only [List.mem_cons, List.not_mem_nil, or_false] at hty
  simp only [prepareOp, h]
  rw [if_neg (by omega), if_neg (by omega)]

omit h in
theorem lockRanges_inside : lockRanges s o = [] := by
  obtain ⟨hty, hsrc, hdst⟩ := hin
  simp only [List.mem_cons, List.not_mem_nil, or_false] at hty
  obtain hty | hty | hty := hty <;> simp [lockRanges, hty, hsrc, hdst]

/-- No range of memory is found, so none is to be locked. -/
theorem findRanges_inside (hranges : o.ranges = none) : findRanges s o [] = updEop s id (fun x => { x with ranges := some [] }) := by
  simp [findRanges, lockRanges_inside hin, sortOn, addRanges, hranges, framesIn, distinct, findEop_id h]

theorem lockOp_inside (hphase : o.phase = 0) (hranges : o.ranges = none) :
    ∃ v, lockOp s id = .done v ∧ OpStands s v id o.locked := by
  have hfound : OpStands s (updEop s id (fun x => { x with ranges := some [] })) id { o with ranges := some [] } :=
    OpStands.changed ⟨rfl, h⟩ (fun _ => rfl)
  have hty := hin.ty
  simp only [List.mem_cons, List.not_mem_nil, or_false] at hty
  have hown : ¬ (enGroup o.ty = true ∨ o.ty = 5) := by
    simp only [enGroup, decide_eq_true_eq]
    omega
  refine ⟨_, ?_, hfound.changed (g := fun x => { x with phase := 1 }) (fun _ => rfl)⟩
  simp only [lockOp, h]
  rw [if_neg (by omega), if_neg (by omega)]
  simp only [Bool.or_eq_true, decide_eq_true_eq, hown, if_false, hranges, findRanges_inside h hin hranges, hfound.op, Option.bind_some,
    Option.getD_some, takeLocks]

end

/-! ## The units of COPY, GATHER and SCATTER (R422, R425) -/

/-- A COPY within one 128-byte line of its destination is one unit. -/
theorem units_copy {o : EngOp} (hty : o.ty = 1) (hn : 1 ≤ enW3 o.entry) (hline : enW2 o.entry % 128 + enW3 o.entry ≤ 128) : o.units = 1 := by
  simp only [EngOp.units, hty, pieces]
  omega

theorem oneUnit_copy {o : EngOp} (hty : o.ty = 1) (hin : InsideEntry o) (hunit : o.unit = 0) (hline : enW2 o.entry % 128 + enW3 o.entry ≤ 128)
    (u : State) : oneUnit u o =
      runUnit u o.id ⟨[(true, BitVec.ofNat 64 (enW1 o.entry), enW3 o.entry)], fun x => x, true, BitVec.ofNat 64 (enW2 o.entry)⟩ := by
  have hpiece : pieceAt (enW2 o.entry) (enW3 o.entry) 0 = (0, enW3 o.entry) := by
    simp only [pieceAt, if_true, Prod.mk.injEq, true_and]
    omega
  simp [oneUnit, hty, enColl, unitOf, hunit, hpiece, hin.src, hin.dst]

section
variable {s u : State} {id : Nat} {o : EngOp} {f : Form} (h : OpStands s u id o) (hf : findForm s o.fid = some f) (hout : f.out = false)
  (hin : InsideEntry o) (hunit : o.unit = 0) (hindex : InWindows f (enW2 o.entry) 4)
include h hf hout hunit hindex

/-- Element 0's index is the word at the index array's place. -/
theorem OpStands.indexAt_zero : indexAt u o o.unit = .ok u (spadRead s f (enW2 o.entry) 4) := by
  have hword := hindex.toNat_ofNat
  have hbytes := h.formBytes_inside hf hout (a := BitVec.ofNat 64 (enW2 o.entry)) (n := 4) (by rwa [hword])
  rw [hword] at hbytes
  simpa [indexAt, hunit] using hbytes

include hin

theorem OpStands.oneUnit_gather (hty : o.ty = 3) : oneUnit u o =
    runUnit u o.id ⟨[(true, BitVec.ofNat 64 (enW1 o.entry + natLE (spadRead s f (enW2 o.entry) 4) * enEl o.entry), enEl o.entry)], fun x => x, true,
      BitVec.ofNat 64 (enW3 o.entry)⟩ := by
  rw [oneUnit, h.indexAt_zero hf hout hunit hindex]
  simp [hty, enColl, unitOf, hunit, hin.src, hin.dst, BitVec.ofNat_add]

theorem OpStands.oneUnit_scatter (hty : o.ty = 4) (hadd : entryFlag o.entry 4 = false) : oneUnit u o =
    runUnit u o.id ⟨[(true, BitVec.ofNat 64 (enW1 o.entry), enEl o.entry)], fun x => x, true,
      BitVec.ofNat 64 (enW3 o.entry + natLE (spadRead s f (enW2 o.entry) 4) * enEl o.entry)⟩ := by
  rw [oneUnit, h.indexAt_zero hf hout hunit hindex]
  simp [hty, enColl, unitOf, hunit, hin.src, hin.dst, hadd, BitVec.ofNat_add]

end

/-! ## An operation of one unit, from its start to the end of its transfer (R421, R433) -/

/-- A loop of units whose one unit ends its transfer. -/
theorem unitLoop_one {s u w : State} {id : Nat} {o o' : EngOp} {f : Form} (h : findEop s id = some o) (hf : findForm s o.fid = some f)
    (haway : f.away = false) (hty : o.ty ≠ 2) (hunits : o.units = 1) (hunit : o.unit = 0) (hone : oneUnit s o = .done u) (hu : OpStands w u id o')
    (hunits' : o'.units = 1) (hunit' : o'.unit = 0) :
    ∃ v, unitLoop id 2 s = .done v ∧ OpStands w v id { o' with unit := 1, held := [], wrote := 0, mstat := [] } := by
  have hwalk : walkAhead id 65 s = s := by
    rw [walkAhead, h]
    exact if_pos (.inl hty)
  have hnext := hu.changed (g := fun x => { x with unit := x.unit + 1, held := [], wrote := 0, mstat := [] }) (fun _ => rfl)
  rw [hunit', Nat.zero_add] at hnext
  refine ⟨_, ?_, hnext⟩
  rw [unitLoop, h]
  simp only [hf, haway, hwalk, h, Option.getD_some, hone, Bool.and_false, Bool.false_eq_true, if_false]
  rw [if_neg (by omega), unitLoop, hnext.op]
  exact if_pos (Nat.le_of_eq hunits')

/-- Where source and destination of a COPY do not overlap, no byte is undefined (R422). -/
theorem scrambleOverlap_apart (s : State) {o : EngOp}
    (hapart : o.ty = 1 → enW1 o.entry + enW3 o.entry ≤ enW2 o.entry ∨ enW2 o.entry + enW3 o.entry ≤ enW1 o.entry) : scrambleOverlap s o = s := by
  refine if_neg fun hover => ?_
  obtain ⟨hcopy, -, hlo, hhi⟩ := hover
  have := hapart hcopy
  omega

/-- An operation other than a collective whose steps all end is complete. -/
theorem runOp_ended {s v w x : State} {id : Nat} {o p q : EngOp} (h : findEop s id = some o) (hbegin : o.phase < 2 ∧ o.newAtCfg s = false)
    (hprepare : prepareOp s id = .done v) (hlock : lockOp v id = .done w) (hq : findEop w id = some q)
    (hloop : unitLoop id (q.units + 1) w = .done x) (hp : findEop x id = some p) (hgroup : enGroup p.ty = false) :
    runOp s id = updEop (scrambleOverlap x p) id (fun y => { y with phase := 2 }) := by
  obtain ⟨hphase, hcfg⟩ := hbegin
  have hbegin : (decide (2 ≤ o.phase) || o.newAtCfg s) = false := by simp [hphase, hcfg]
  rw [runOp, h]
  simp only [hbegin, hprepare, hlock, hq, hloop, hp, hgroup, Bool.false_and, Bool.false_eq_true, if_false]

/-- The transfer of an entry inside form SRAM that has just started and has one unit, which moves n bytes from a to b. -/
theorem runOp_moved {s : State} {o : EngOp} {ty n a b : Nat} {f : Form} (h : JustStarted s o ty f) (hty : ty ∈ [1, 3, 4]) (hunits : o.units = 1)
    (hn : 0 < n) (hsrc : InWindows f a n) (hdst : InWindows f b n)
    (hone : ∀ u, OpStands s u o.id o.locked →
      oneUnit u o.locked = runUnit u o.id ⟨[(true, BitVec.ofNat 64 a, n)], fun x => x, true, BitVec.ofNat 64 b⟩)
    (hapart : ty = 1 → enW1 o.entry + enW3 o.entry ≤ enW2 o.entry ∨ enW2 o.entry + enW3 o.entry ≤ enW1 o.entry) :
    Moved s o f a b n := by
  have hin := insideEntry_of_justStarted h hty
  obtain ⟨hop, hety, hphase, hunit, hranges, hheld, hwrote, hasked, hmstat, hf, haway, hout, -, hcfg⟩ := h
  subst hety
  have hty2 : o.ty ≠ 2 := fun h2 => by rw [show natAt o.entry 0 1 = 2 from h2] at hty; simp at hty
  obtain ⟨v, hlock, hv⟩ := lockOp_inside hop hin hphase hranges
  obtain ⟨w, hrun, hw⟩ := hv.runUnit_inside hf hout (by rwa [hsrc.toNat_ofNat]) (by rwa [hdst.toNat_ofNat]) hn hheld hwrote hasked
  have hfv : findForm v o.fid = some f := by rw [hv.frame]; exact hf
  rw [hsrc.toNat_ofNat, hdst.toNat_ofNat] at hw
  obtain ⟨x, hloop, hx⟩ := unitLoop_one hv.op hfv haway hty2 hunits hunit ((hone v hv).trans hrun) hw hunits hunit
  have hend := hx.changed (g := fun y => { y with phase := 2 }) (fun _ => rfl)
  have hbegin : o.phase < 2 ∧ o.newAtCfg s = false := by simp [hphase, EngOp.newAtCfg, hcfg]
  have hgroup : enGroup o.ty = false := by
    simp only [List.mem_cons, List.not_mem_nil, or_false] at hty
    exact decide_eq_false (by rw [EngOp.ty, enType]; omega)
  have hfuel : o.locked.units = 1 := hunits
  have hrunOp := runOp_ended hop hbegin (prepareOp_inside hop hin) hlock hv.op (by rw [hfuel]; exact hloop) hx.op hgroup
  rw [scrambleOverlap_apart x (o := { o.locked with unit := 1, held := [], wrote := 0, mstat := [] }) hapart] at hrunOp
  rw [Moved, hrunOp, hend.op, hend.frame]
  refine ⟨rfl, ?_⟩
  simp only [EngOp.locked, hheld, hwrote, hmstat]

/-! ## The transfers that move their bytes as one unit -/

section
variable {s : State} {o : EngOp} {f : Form}

theorem copy_moved (h : JustStarted s o 1 f) (hn : 1 ≤ enW3 o.entry) (hline : enW2 o.entry % 128 + enW3 o.entry ≤ 128)
    (hsrc : InWindows f (enW1 o.entry) (enW3 o.entry)) (hdst : InWindows f (enW2 o.entry) (enW3 o.entry))
    (hapart : enW1 o.entry + enW3 o.entry ≤ enW2 o.entry ∨ enW2 o.entry + enW3 o.entry ≤ enW1 o.entry) :
    Moved s o f (enW1 o.entry) (enW2 o.entry) (enW3 o.entry) := by
  have hin := insideEntry_of_justStarted h (by decide)
  obtain ⟨-, hty, -, hunit, -⟩ := id h
  exact runOp_moved h (by decide) (units_copy hty hn hline) hn hsrc hdst (fun u _ => oneUnit_copy (o := o.locked) hty hin.locked hunit hline u) (fun _ => hapart)

variable (hcount : enB67 o.entry = 1) (hindex : InWindows f (enW2 o.entry) 4)
include hcount hindex

theorem gather_moved (h : JustStarted s o 3 f)
    (hsrc : InWindows f (enW1 o.entry + natLE (spadRead s f (enW2 o.entry) 4) * enEl o.entry) (enEl o.entry))
    (hdst : InWindows f (enW3 o.entry) (enEl o.entry)) :
    Moved s o f (enW1 o.entry + natLE (spadRead s f (enW2 o.entry) 4) * enEl o.entry) (enW3 o.entry) (enEl o.entry) := by
  have hin := insideEntry_of_justStarted h (by decide)
  obtain ⟨-, hty, -, hunit, -, -, -, -, -, hf, -, hout, -⟩ := id h
  have hunits : o.units = 1 := by simp only [EngOp.units, EngOp.ty, enType, hty, hcount]
  exact runOp_moved h (by decide) hunits (Nat.two_pow_pos _) hsrc hdst
    (fun u hu => hu.oneUnit_gather hf hout hin.locked hunit hindex hty) (fun h1 => absurd h1 (by decide))

theorem scatter_moved (h : JustStarted s o 4 f) (hadd : entryFlag o.entry 4 = false) (hsrc : InWindows f (enW1 o.entry) (enEl o.entry))
    (hdst : InWindows f (enW3 o.entry + natLE (spadRead s f (enW2 o.entry) 4) * enEl o.entry) (enEl o.entry)) :
    Moved s o f (enW1 o.entry) (enW3 o.entry + natLE (spadRead s f (enW2 o.entry) 4) * enEl o.entry) (enEl o.entry) := by
  have hin := insideEntry_of_justStarted h (by decide)
  obtain ⟨-, hty, -, hunit, -, -, -, -, -, hf, -, hout, -⟩ := id h
  have hunits : o.units = 1 := by simp only [EngOp.units, EngOp.ty, enType, hty, hcount]
  exact runOp_moved h (by decide) hunits (Nat.two_pow_pos _) hsrc hdst
    (fun u hu => hu.oneUnit_scatter hf hout hin.locked hunit hindex hty hadd) (fun h1 => absurd h1 (by decide))

end

end Sys2Proof.Machine
end

section
/-! SUPPORT. A check-out that fails: its pieces, its fault and the record of it (R86, R241, R242, R433). -/

namespace Sys2Proof.Machine
-- One declaration after the other: in parallel, the threads' stacks pass the check's memory limit.
set_option Elab.async false
open Sys2Proof.Claims

/-! ## Records on their way to a tenant's fault ring (R241, R242) -/

theorem tenantOf_updTenant (s : State) (t k : Nat) (f : Tenant → Tenant) :
    tenantOf (updTenant s t f) k = if k = t then f (tenantOf s t) else tenantOf s k :=
  tget_tset ..

/-- Two machines differ at most in memory, in what tenants hold, and in the SEQ of waiting faults; every waiting fault of the tenant is kept. -/
structure Pumped (ten : Nat) (s t : State) : Prop where
  frame : t = { s with mem := t.mem, tenants := t.tenants, cores := t.cores, outLog := t.outLog }
  faults : ∀ w ∈ (tenantOf s ten).faults, ∃ x ∈ (tenantOf t ten).faults, x.id = w.id ∧ x.code = w.code ∧ x.cause = w.cause

theorem Pumped.refl (ten : Nat) (s : State) : Pumped ten s s := ⟨rfl, fun w hw => ⟨w, hw, rfl, rfl, rfl⟩⟩

theorem Pumped.trans {ten : Nat} {s t u : State} (h : Pumped ten s t) (k : Pumped ten t u) : Pumped ten s u := by
  refine ⟨k.frame.trans (by rw [h.frame]), fun w hw => ?_⟩
  obtain ⟨x, hx, hid, hcode, hcause⟩ := h.faults w hw
  obtain ⟨y, hy, hid', hcode', hcause'⟩ := k.faults x hx
  exact ⟨y, hy, hid'.trans hid, hcode'.trans hcode, hcause'.trans hcause⟩

theorem updTenant_pumped {ten : Nat} {s : State} {f : Tenant → Tenant} (hf : (f (tenantOf s ten)).faults = (tenantOf s ten).faults) :
    Pumped ten s (updTenant s ten f) := by
  refine ⟨rfl, fun w hw => ⟨w, ?_, rfl, rfl, rfl⟩⟩
  rwa [tenantOf_updTenant, if_pos rfl, hf]

theorem takeSeq_pumped (ten : Nat) (s : State) (r : RingRec) : Pumped ten s (takeSeq s ten r).2 := by
  refine ⟨rfl, fun w hw => ?_⟩
  have hfaults : (tenantOf (takeSeq s ten r).2 ten).faults =
      (tenantOf s ten).faults.map (fun f => if f.id = r.fault then { f with seq := (tenantOf s ten).seq } else f) := by
    simp only [takeSeq, tenantOf, updTenant, tget_tset_same]
  rw [hfaults]
  refine ⟨_, List.mem_map_of_mem hw, ?_⟩
  split <;> exact ⟨rfl, rfl, rfl⟩

theorem ringWrite_pumped (ten : Nat) (l : List (List Byte)) (s : State) : Pumped ten s (ringWrite s ten l) := by
  induction l generalizing s with
  | nil => exact .refl ten s
  | cons m r ih =>
    rw [ringWrite]
    split
    · exact .refl ten s
    · refine Pumped.trans ?_ (ih _)
      exact ⟨rfl, fun w hw => ⟨w, hw, rfl, rfl, rfl⟩⟩

theorem pumpRing_pumped (ten n : Nat) (s : State) : Pumped ten s (pumpRing n s ten) := by
  induction n generalizing s with
  | zero => exact .refl ten s
  | succ n ih =>
    have hmove (f g : Tenant → Tenant) (r : RingRec) (hf : ∀ t, (f t).faults = t.faults) (hg : ∀ t, (g t).faults = t.faults) :
        Pumped ten s (pumpRing n (updTenant (takeSeq (updTenant s ten f) ten r).2 ten g) ten) :=
      (updTenant_pumped (hf _)).trans ((takeSeq_pumped ..).trans ((updTenant_pumped (hg _)).trans (ih _)))
    rw [pumpRing]
    dsimp only
    split
    · split
      · exact (updTenant_pumped rfl).trans ((ringWrite_pumped ..).trans (ih _))
      · split
        · exact .refl ten s
        · split
          · exact hmove _ _ _ (fun _ => rfl) (fun _ => rfl)
          · exact .refl ten s
    · split
      · exact .refl ten s
      · exact hmove _ _ _ (fun _ => rfl) (fun _ => rfl)

theorem emit_pumped (ten : Nat) (s : State) (r : FRec) (fault : Nat) : Pumped ten s (emit s ten r fault) :=
  (updTenant_pumped rfl).trans (pumpRing_pumped ..)

/-! ## A check-out that faults (R86, R433) -/

theorem mem_dropCk (s : State) (P : CkEntry → Bool) (x : CkEntry) : x ∈ (dropCk s P).ck ↔ x ∈ s.ck ∧ P x = false := by
  simp [dropCk]

/-- An operation that a fault of this number has stopped. -/
def EngOp.stopped (o : EngOp) (id : Nat) : EngOp :=
  { o with phase := 3, stop := some id, held := [], asked := false, walked := 0, heldFaults := [] }

/-- A check-out without its pieces, to be registered from the start. -/
def EngOp.released (o : EngOp) : EngOp := { o with ranges := none, waits := none, unit := 0, held := [], wrote := 0, asked := false }

section
variable {s : State} {o : EngOp} (hq : o.queue = none) (code cause level : Nat) (va : W64)
include hq

/-- But for the record on its way, an operation of a chain is stopped and its fault waits. -/
theorem engFault_pumped (ms : List Nat) : ∃ u, Pumped o.tenant u (engFault s o code cause level va ms) ∧
    u.ops = s.ops.map (fun x => if x.id = o.id then x.stopped s.nextId else x) ∧ u.ck = s.ck ∧
    (tenantOf u o.tenant).faults = (tenantOf s o.tenant).faults ++ [⟨s.nextId, 0, code, cause, o.gid, .op o.id⟩] := by
  refine ⟨addWait (stopChain (updEop (newId s).2 o.id (fun x => x.stopped s.nextId)) o.eng o.chain s.nextId) o.tenant
    ⟨s.nextId, 0, code, cause, o.gid, .op o.id⟩, ?_, rfl, rfl, ?_⟩
  · rw [engFault, hq]
    exact emit_pumped ..
  · rw [addWait, tenantOf_updTenant, if_pos rfl]
    rfl

theorem ckFail_releases (honly : ∀ x ∈ s.ops, x.id = o.id → x = o) :
    (ckFail s o code cause level va).ops = s.ops.map (fun x => if x.id = o.id then o.released.stopped s.nextId else x) ∧
    (∀ x, x ∈ (ckFail s o code cause level va).ck ↔ x ∈ s.ck ∧ x.op ≠ o.id) ∧
    ∃ r ∈ (tenantOf (ckFail s o code cause level va) o.tenant).faults, r.id = s.nextId ∧ r.code = code ∧ r.cause = cause := by
  obtain ⟨u, hu, hops, hck, hfaults⟩ := engFault_pumped (s := updEop (dropCk s (fun e => e.op == o.id)) o.id EngOp.released) (o := o.released) hq
    code cause level va []
  have hfail : ckFail s o code cause level va =
      engFault (updEop (dropCk s (fun e => e.op == o.id)) o.id EngOp.released) o.released code cause level va [] := rfl
  rw [hfail]
  refine ⟨?ops, fun x => ?ck, ?fault⟩
  case ops =>
    rw [hu.frame]
    refine hops.trans ((List.map_map ..).trans (List.map_congr_left fun x hx => ?_))
    by_cases hxo : x.id = o.id
    · simp [honly x hx hxo, EngOp.released, dropCk, updEop]
    · simp [hxo, EngOp.released]
  case ck =>
    rw [hu.frame]
    show x ∈ u.ck ↔ _
    rw [hck, updEop, mem_dropCk]
    simp
  case fault =>
    exact hu.faults _ (hfaults ▸ List.mem_append_right _ (List.mem_singleton.mpr rfl))

end
end Sys2Proof.Machine
end

section
/-! SUPPORT. The completion of an operation: its locks, its chain's mark and its signal (R126, R222, R410, R411, R432). -/

namespace Sys2Proof.Machine
-- One declaration after the other: in parallel, the threads' stacks pass the check's memory limit.
set_option Elab.async false
open Sys2Proof.Claims

/-! ## Signals set tags and clear none (R411, R432) -/

theorem coreOf_updCore (s : State) (c k : Nat) (f : Core → Core) : coreOf (updCore s c f) k = if k = c then f (coreOf s c) else coreOf s k :=
  tget_tset ..

theorem engineOf_updEngine (s : State) (e k : Nat) (f : Engine → Engine) :
    engineOf (updEngine s e f) k = if k = e then f (engineOf s e) else engineOf s k :=
  tget_tset ..

/-- A signal touches saved images, tags, barriers and the race detector's numbers; a tag that is set stays set. -/
structure Signals (s t : State) : Prop where
  frame : t = { s with mem := t.mem, resvs := t.resvs, cores := t.cores, clusters := t.clusters, tenants := t.tenants }
  tags : ∀ c b, (coreOf s c).tags.getLsbD b = true → (coreOf t c).tags.getLsbD b = true

theorem Signals.refl (s : State) : Signals s s := ⟨rfl, fun _ _ h => h⟩

theorem Signals.trans {s t u : State} (h : Signals s t) (k : Signals t u) : Signals s u :=
  ⟨k.frame.trans (by rw [h.frame]), fun c b hb => k.tags c b (h.tags c b hb)⟩

theorem poolWrite_signals (us : List Nat) (s : State) (b : List Byte) : Signals s (poolWrite s us b) := by
  induction us generalizing s b with
  | nil => exact .refl s
  | cons u r ih =>
    rw [poolWrite]
    split
    · exact .refl s
    · refine Signals.trans ?_ (ih _ _)
      exact ⟨rfl, fun _ _ h => h⟩

theorem tagSet_signals (s : State) (core bit tid : Nat) : Signals s (tagSet s core bit tid) := by
  rw [tagSet]
  split
  · exact poolWrite_signals ..
  · refine ⟨rfl, fun c b h => ?_⟩
    rw [coreOf_updCore]
    split
    · next hc =>
      subst hc
      simp [h]
    · exact h

/-- A signal to a team that is not out sets its tag in TAGS. -/
theorem tagSet_sets {s : State} {tid : Nat} (himage : imageOfTeam s tid = none) (core : Nat) {bit : Nat} (hbit : bit < 64) :
    (coreOf (tagSet s core bit tid) core).tags.getLsbD bit = true := by
  rw [tagSet, himage]
  simp only [coreOf_updCore, if_true, BitVec.getLsbD_or, BitVec.getLsbD_ofNat, Nat.testBit_two_pow_self, hbit, decide_true, Bool.and_true, Bool.or_true]

theorem updBar_signals (s : State) (cl k : Nat) (f : BcBar → BcBar) : Signals s (updBar s cl k f) := ⟨rfl, fun _ _ h => h⟩

theorem barFire_signals (s : State) (cl k : Nat) : Signals s (barFire s cl k) := by
  rw [barFire]
  split
  · exact .refl s
  · split
    · exact (updBar_signals ..).trans (tagSet_signals ..)
    · exact .refl s

theorem barClaim_signals (s : State) (cl k ten : Nat) : Signals s (barClaim s cl k ten) := by
  rw [barClaim]
  split
  · exact updBar_signals ..
  · exact .refl s

theorem barAdd_signals (s : State) (cl k n ten : Nat) : Signals s ((barAdd s cl k n ten).getD s) := by
  rw [barAdd]
  split
  · exact .refl s
  · exact (barClaim_signals ..).trans ((updBar_signals ..).trans (barFire_signals ..))

theorem detRelease_signals (s : State) (ten n scope : Nat) : Signals s (detRelease s ten n scope) := ⟨rfl, fun _ _ h => h⟩

section
variable (s : State) (ten core tid : Nat) (det : Option Nat) (e : List Byte) (n : Nat)

/-- What follows an entry's tag: its count, and the release for the race detector. -/
def signalRest : State :=
  let s := if entryFlag e 2 && !enColl (enType e) then (barAdd s (clusterOfCore core) (natAt e 3 1 % 64) n ten).getD s else s
  match det with
  | some d => if enScope e = 0 || !(entryFlag e 1 || (entryFlag e 2 && !enColl (enType e))) then s else detRelease s ten d (enScope e)
  | none => s

theorem signalEntryDone_eq : signalEntryDone s ten core tid det e n =
    signalRest (if entryFlag e 1 then tagSet s core (natAt e 2 1 % 64) tid else s) ten core det e n := rfl

theorem signalRest_signals : Signals s (signalRest s ten core det e n) := by
  have hcount : Signals s (if entryFlag e 2 && !enColl (enType e) then (barAdd s (clusterOfCore core) (natAt e 3 1 % 64) n ten).getD s else s) := by
    split
    · exact barAdd_signals ..
    · exact .refl s
  cases det with
  | none => exact hcount
  | some d =>
    unfold signalRest
    dsimp only
    split
    · exact hcount
    · exact hcount.trans (detRelease_signals ..)

theorem signalEntryDone_signals : Signals s (signalEntryDone s ten core tid det e n) := by
  rw [signalEntryDone_eq]
  split
  · exact (tagSet_signals ..).trans (signalRest_signals ..)
  · exact signalRest_signals ..

theorem signalEntryDone_sets (htag : entryFlag e 1 = true) (himage : imageOfTeam s tid = none) :
    (coreOf (signalEntryDone s ten core tid det e n) core).tags.getLsbD (natAt e 2 1 % 64) = true := by
  rw [signalEntryDone_eq, if_pos htag]
  exact (signalRest_signals ..).tags _ _ (tagSet_sets himage core (Nat.mod_lt _ (by decide)))

end

/-! ## Names given back -/

theorem freeTags_frame (s : State) (core ten : Nat) : freeTags s core ten = { s with cores := (freeTags s core ten).cores } := by
  rw [freeTags]
  split <;> rfl

/-- Tags stay while a team of the tenant is on the core (R409). -/
theorem freeTags_kept {s : State} {core ten : Nat} (h : ∃ m ∈ s.teams, m.core = core ∧ tenantOfGrid s m.gid = some ten) : freeTags s core ten = s := by
  obtain ⟨m, hm, hcore, hten⟩ := h
  refine if_pos ?_
  rw [Bool.or_eq_true, List.any_eq_true]
  exact .inl ⟨m, hm, by simp [hcore, hten]⟩

theorem freeBars_frame (s : State) (cl ten : Nat) : freeBars s cl ten = { s with clusters := (freeBars s cl ten).clusters } := by
  rw [freeBars]
  split <;> rfl

/-! ## An operation leaves (R126, R432) -/

/-- An operation's number is struck off the chain that it is of. -/
def unmarked (s : State) (o : EngOp) : State :=
  updEngine s o.eng (fun e => { e with chains := e.chains.map (fun c =>
    if c.id = o.chain then { c with open_ := c.open_.filter (fun x => x != o.id) } else c) })

theorem unmarked_open {s : State} {o : EngOp} {c : Chain} (hc : c ∈ (engineOf (retireChain (unmarked s o) o.eng o.chain) o.eng).chains)
    (hid : c.id = o.chain) : o.id ∉ c.open_ := by
  rw [retireChain, engineOf_updEngine, if_pos rfl, unmarked, engineOf_updEngine, if_pos rfl] at hc
  obtain ⟨d, -, rfl⟩ := List.mem_map.mp (List.mem_of_mem_filter hc)
  by_cases hd : d.id = o.chain
  · simp [hd]
  · rw [if_neg hd] at hid
    exact absurd hid hd

/-- The machine without an operation and its registrations of these kinds, as it signals. -/
def withoutOp (s : State) (o : EngOp) : State :=
  dropCk { s with ops := s.ops.filter (fun x => x.id != o.id) } (fun e => e.op == o.id && e.mode == 3)

/-- The machine from which the operation leaves: a CKIN first ends its check-out (R90). -/
def checkedIn (s : State) (o : EngOp) : State :=
  if o.ty = 11 then dropCk s (fun e => ((ckMatch s o).map CkEntry.op).contains e.op) else s

theorem checkedIn_frame (s : State) (o : EngOp) : checkedIn s o = { s with ck := (checkedIn s o).ck, twins := (checkedIn s o).twins } := by
  rw [checkedIn]
  split <;> rfl

/-- The machine with its signal given. -/
def signalled (s : State) (o : EngOp) : State :=
  signalEntryDone (withoutOp (checkedIn s o) o) o.tenant o.core o.tid o.det o.entry o.total

theorem finishOp_eq (s : State) (o : EngOp) : finishOp s o true =
    freeBars (freeTags (retireChain (unmarked (signalled s o) o) o.eng o.chain) o.core o.tenant) o.cluster o.tenant := by
  rw [finishOp]
  simp only [Bool.and_true, decide_eq_true_eq, if_true]
  rfl

theorem signalled_signals (s : State) (o : EngOp) : Signals (withoutOp (checkedIn s o) o) (signalled s o) := signalEntryDone_signals ..

section
variable (s : State) (o : EngOp)

theorem signalled_frame : (signalled s o).teams = s.teams ∧ (signalled s o).grids = s.grids := by
  rw [(signalled_signals s o).frame, withoutOp, checkedIn_frame]
  exact ⟨rfl, rfl⟩

theorem finishOp_frame : (finishOp s o true).ops = (signalled s o).ops ∧ (finishOp s o true).ck = (signalled s o).ck ∧
    (finishOp s o true).engines = (retireChain (unmarked (signalled s o) o) o.eng o.chain).engines := by
  refine ⟨?_, ?_, ?_⟩
  · rw [finishOp_eq, freeBars_frame, freeTags_frame]; rfl
  · rw [finishOp_eq, freeBars_frame, freeTags_frame]; rfl
  · rw [finishOp_eq, freeBars_frame, freeTags_frame]

theorem mem_ops_finishOp (x : EngOp) : x ∈ (finishOp s o true).ops ↔ x ∈ s.ops ∧ x.id ≠ o.id := by
  obtain ⟨hops, -, -⟩ := finishOp_frame s o
  rw [hops, (signalled_signals s o).frame]
  show x ∈ (checkedIn s o).ops.filter (fun x => x.id != o.id) ↔ _
  rw [checkedIn_frame, List.mem_filter, bne_iff_ne]

/-- Its locks are released; an operation other than a CKIN releases nothing else. -/
theorem mem_ck_finishOp (hty : o.ty ≠ 11) (x : CkEntry) : x ∈ (finishOp s o true).ck ↔ x ∈ s.ck ∧ ¬ (x.op = o.id ∧ x.mode = 3) := by
  obtain ⟨-, hck, -⟩ := finishOp_frame s o
  have hin : checkedIn s o = s := if_neg (by simp [hty])
  rw [hck, (signalled_signals s o).frame, hin]
  show x ∈ (withoutOp s o).ck ↔ _
  rw [withoutOp, mem_dropCk]
  simp

theorem open_finishOp {c : Chain} (hc : c ∈ (engineOf (finishOp s o true) o.eng).chains) (hid : c.id = o.chain) : o.id ∉ c.open_ := by
  obtain ⟨-, -, hengines⟩ := finishOp_frame s o
  rw [engineOf, hengines] at hc
  exact unmarked_open hc hid

/-- The tag of its entry is set, where its team is here and a team of its tenant is on its core (R409, R411). -/
theorem tag_finishOp (htag : entryFlag o.entry 1 = true) (himage : imageOfTeam s o.tid = none)
    (hteam : ∃ m ∈ s.teams, m.core = o.core ∧ tenantOfGrid s m.gid = some o.tenant) :
    (coreOf (finishOp s o true) o.core).tags.getLsbD (natAt o.entry 2 1 % 64) = true := by
  obtain ⟨hteams, hgrids⟩ := signalled_frame s o
  have hkept := freeTags_kept (s := retireChain (unmarked (signalled s o) o) o.eng o.chain) (core := o.core) (ten := o.tenant) (by
    show ∃ m ∈ (signalled s o).teams, m.core = o.core ∧ ((signalled s o).grids.find? (fun g => g.gid == m.gid)).map Grid.tenant = some o.tenant
    rw [hteams, hgrids]
    exact hteam)
  have hcores : (finishOp s o true).cores = (signalled s o).cores := by
    rw [finishOp_eq, freeBars_frame, hkept]
    rfl
  have hhere : imageOfTeam (withoutOp (checkedIn s o) o) o.tid = none := by
    rw [withoutOp, dropCk, checkedIn_frame]
    exact himage
  rw [coreOf, hcores]
  exact signalEntryDone_sets _ _ _ _ _ _ _ htag hhere

end
end Sys2Proof.Machine
end

section
/-! SUPPORT. Engine operations that go on, time out and end: rows ENGINE_LOCK_GRANT, CKOUT_GRANT, CKOUT_TIMEOUT and
ENGINE_OPERATION_COMPLETE (R85, R86, R93, R126, R222, R432). -/

namespace Sys2Proof.Machine
-- One declaration after the other: in parallel, the threads' stacks pass the check's memory limit.
set_option Elab.async false
open Sys2Proof.Claims

/-! ## The operation that an event names -/

theorem find?_only {l : List EngOp} {o : EngOp} {P : EngOp → Bool} {Q : Prop} [Decidable Q] (ho : o ∈ l)
    (honly : ∀ x ∈ l, x.id = o.id → x = o) (hP : ∀ x, P x = true → x.id = o.id) (hQ : P o = true ↔ Q) :
    l.find? P = if Q then some o else none := by
  split
  · next hq =>
    obtain ⟨x, hx⟩ := Option.isSome_iff_exists.mp (List.find?_isSome.mpr ⟨o, ho, hQ.mpr hq⟩)
    rw [hx, honly x (List.mem_of_find?_eq_some hx) (hP x (List.find?_some hx))]
  · next hq =>
    refine List.find?_eq_none.mpr fun x hx hPx => hq (hQ.mp ?_)
    rwa [honly x hx (hP x hPx)] at hPx

/-- A check-out that is not granted yet. -/
abbrev WaitsCkout (o : EngOp) : Prop := natAt o.entry 0 1 = 10 ∧ o.phase = 0

/-- A check-out that has waited WAITMAX microseconds, where there is such a limit (R85). -/
abbrev Overdue (s : State) (o : EngOp) : Prop :=
  WaitsCkout o ∧ o.ranges ≠ none ∧ ((tsysGet s o.tenant 0x02A).extractLsb' 0 16).toNat ≠ 0 ∧
    o.since + 1000 * ((tsysGet s o.tenant 0x02A).extractLsb' 0 16).toNat ≤ s.clock.time.toNat / 64

/-- A queue's copy leaves, with its registrations (R222). -/
def queueCopyGone (s : State) (o : EngOp) : State :=
  dropCk { s with ops := s.ops.filter (fun x => x.id != o.id) } (fun e => e.op == o.id)

theorem opEvent_idle {s : State} {i : Instr} (hi : i ∈ [Instr.engineLockGrant, .ckoutGrant, .ckoutTimeout, .engineOperationComplete])
    (hops : s.ops = []) : exec i s = .next s := by
  simp only [List.mem_cons, List.not_mem_nil, or_false] at hi
  obtain rfl | rfl | rfl | rfl := hi
  · simp only [exec, execEngineLockGrant, hops, List.find?_nil]
  · simp only [exec, execCkoutGrant, hops, List.find?_nil]
  · simp only [exec, execCkoutTimeout, hops, List.find?_nil]
  · simp only [exec, execEngineOperationComplete, hops, List.find?_nil]

section
variable {s : State} {o : EngOp} (ho : o ∈ s.ops) (honly : ∀ x ∈ s.ops, x.id = o.id → x = o) (harg : s.arg.a = o.id) (hid : o.id ≠ 0)
include ho honly harg hid

theorem engineLockGrant_eq : exec .engineLockGrant s = .next (if o.phase ≤ 1 ∧ ¬ WaitsCkout o then runOp s o.id else s) := by
  have hfind : s.ops.find? (fun x => decide (x.phase ≤ 1) && (s.arg.a == 0 || x.id == s.arg.a) && !(x.ty == 10 && x.phase == 0)) =
      if o.phase ≤ 1 ∧ ¬ WaitsCkout o then some o else none :=
    find?_only ho honly (fun x hx => by simp_all) (by simp [harg, EngOp.ty, enType, imp_iff_not_or])
  rw [exec, execEngineLockGrant, hfind]
  by_cases hgo : o.phase ≤ 1 ∧ ¬ WaitsCkout o
  · simp only [if_pos hgo]
  · simp only [if_neg hgo]

theorem ckoutGrant_eq : exec .ckoutGrant s = .next (if WaitsCkout o then runOp s o.id else s) := by
  have hfind : s.ops.find? (fun x => x.phase == 0 && x.ty == 10 && (s.arg.a == 0 || x.id == s.arg.a)) = if WaitsCkout o then some o else none :=
    find?_only ho honly (fun x hx => by simp_all) (by simp [harg, WaitsCkout, EngOp.ty, enType, and_comm])
  rw [exec, execCkoutGrant, hfind]
  by_cases hgo : WaitsCkout o
  · simp only [if_pos hgo]
  · simp only [if_neg hgo]

theorem ckoutTimeout_eq : exec .ckoutTimeout s =
    .next (if Overdue s o then ckFail s o fcCkout 1 0 (BitVec.ofNat 64 (enW1 o.entry)) else s) := by
  have hmax : bits 15 0 (tsysGet s o.tenant srCkoutCtl) = ((tsysGet s o.tenant 0x02A).extractLsb' 0 16).toNat :=
    bits_eq_toNat_extractLsb' 0 16 _ (by decide)
  have hfind : s.ops.find? (fun x => x.phase == 0 && x.ty == 10 && x.ranges.isSome && (s.arg.a == 0 || x.id == s.arg.a) &&
      (let m := bits 15 0 (tsysGet s x.tenant srCkoutCtl); m != 0 && decide (x.since + m * 1000 ≤ nsOf s))) = if Overdue s o then some o else none := by
    refine find?_only ho honly (fun x hx => by simp_all) ?_
    simp only [hmax, harg, nsOf, Overdue, WaitsCkout, EngOp.ty, enType, Nat.mul_comm]
    simp [and_assoc, and_comm, and_left_comm, Option.isSome_iff_ne_none]
  rw [exec, execCkoutTimeout, hfind]
  by_cases hgo : Overdue s o
  · simp only [if_pos hgo]
  · simp only [if_neg hgo]

theorem find?_complete : s.ops.find? (fun x => x.phase == 2 && (s.arg.a == 0 || x.id == s.arg.a)) = if o.phase = 2 then some o else none :=
  find?_only ho honly (fun x hx => by simp_all) (by simp [harg])

theorem engineOperationComplete_early (hphase : o.phase ≠ 2) : exec .engineOperationComplete s = .next s := by
  rw [exec, execEngineOperationComplete, find?_complete ho honly harg hid, if_neg hphase]

variable (hphase : o.phase = 2)
include hphase

theorem engineOperationComplete_chain (hq : o.queue = none) : exec .engineOperationComplete s = .next (finishOp s o true) := by
  rw [exec, execEngineOperationComplete, find?_complete ho honly harg hid, if_pos hphase]
  simp only [hq]

theorem engineOperationComplete_queue {q : Nat} {n : BitVec 32} (hq : o.queue = some (q, n)) (hevent : natAt o.tensor 32 8 = 0) :
    exec .engineOperationComplete s = .next (entryDone (queueCopyGone s o) q n) := by
  rw [exec, execEngineOperationComplete, find?_complete ho honly harg hid, if_pos hphase]
  simp only [hq, hevent, if_true, queueCopyGone]

end

/-- Settles O53: transfers of one unit by their types, then each event's equation for the operation that it names. -/
theorem engineOperations : Obligations.EngineOperations := by
  intro s o f inside w
  refine ⟨fun h hn hline hsrc hdst hapart => copy_moved h hn hline hsrc hdst hapart,
    fun hcount _ hindex => ⟨fun h hsrc hdst => gather_moved hcount hindex h hsrc hdst, fun h hadd hsrc hdst =>
      scatter_moved hcount hindex h (by simpa [entryFlag] using hadd) hsrc hdst⟩,
    fun i hi hops => opEvent_idle hi hops, fun ho honly harg hid => ?events⟩
  case events =>
    intro ckout
    refine ⟨fun hphase hck => ?grant, fun hover => ?granted, fun hck => ?ckout, fun hck => ?idle,
      ⟨fun hlate => ?inTime, fun hlate hq => ?late⟩, engineOperationComplete_early ho honly harg hid, fun hphase hq => ?complete,
      fun q n hphase hq hevent => ?queue⟩
    case grant => exact (engineLockGrant_eq ho honly harg hid).trans (by rw [if_pos ⟨hphase, hck⟩])
    case granted => exact (engineLockGrant_eq ho honly harg hid).trans (by rw [if_neg (fun hgo => hover.elim (fun hend => by omega) hgo.2)])
    case ckout => exact (ckoutGrant_eq ho honly harg hid).trans (by rw [if_pos hck])
    case idle => exact (ckoutGrant_eq ho honly harg hid).trans (by rw [if_neg hck])
    case inTime => exact (ckoutTimeout_eq ho honly harg hid).trans (by rw [if_neg hlate])
    case late => exact ⟨_, (ckoutTimeout_eq ho honly harg hid).trans (by rw [if_pos hlate]), ckFail_releases hq _ _ _ _ honly⟩
    case complete =>
      exact ⟨_, engineOperationComplete_chain ho honly harg hid hphase hq, mem_ops_finishOp s o, mem_ck_finishOp s o,
        fun k c hc hcid hk => open_finishOp s o (hk ▸ hc) hcid, fun htag himage hteam _ => tag_finishOp s o (by simpa [entryFlag] using htag) himage hteam⟩
    case queue =>
      refine ⟨_, engineOperationComplete_queue ho honly harg hid hphase hq hevent, fun x => ?_, fun x => ?_, rfl⟩
      · simp [queueCopyGone, dropCk]
      · simp [queueCopyGone, mem_dropCk]

end Sys2Proof.Machine
end

section
/-! SUPPORT. Fences with nothing of their predecessors open (R112, R114, R403, R404; log entry 35). -/

namespace Sys2Proof.Machine
-- One declaration after the other: in parallel, the threads' stacks pass the check's memory limit.
set_option Elab.async false
open Sys2Proof.Claims

/-! ## The operands of a fence (R403) -/

/-- The sets are not empty and the scope is one of team, form, house, pkg and pod. -/
theorem fenceArg_ok_iff (p q : BitVec 4) (c : BitVec 3) :
    (FenceArg.mk p.toNat c.toNat q.toNat).ok = true ↔ p ≠ 0 ∧ q ≠ 0 ∧ 1 ≤ c.toNat ∧ c.toNat ≤ 5 := by
  simp [FenceArg.ok, BitVec.toNat_eq, and_assoc]

theorem fenceArg_has_zero (q : BitVec 4) : FenceArg.has q.toNat 0 = q.getLsbD 0 := by
  rw [FenceArg.has, BitVec.getLsbD, Nat.testBit_eq_decide_div_mod_eq]
  rfl

/-! ## What a fence finds -/

/-- A tenant without a line in a cluster's cache has nothing to write back or to drop there (R62). -/
theorem ccClean_none {s : State} {cl ten : Nat} (h : ∀ x ∈ (clusterOf s cl).cc, x.tenant ≠ ten) (drop : Bool) : ccClean s cl ten drop = s := by
  have hmine : (clusterOf s cl).cc.filter (fun x => x.tenant == ten) = [] := List.filter_eq_nil_iff.mpr (fun x hx => by simpa using h x hx)
  rw [ccClean, hmine]
  rfl

theorem backsPending_none {s : State} (h : s.l2q = []) (cl ten mark : Nat) : backsPending s cl ten mark = false := by
  rw [backsPending, h]
  rfl

/-- Nothing of a fence's predecessors is open: no access of the thread, no operation that has not registered its ranges and
no chain of the team; a Prefect's events and matrix commands neither. -/
theorem fenceWaits_none {s : State} {b : FenceBy} (hmem : ∀ o ∈ s.memops, o.tid ≠ b.tid) (hops : ∀ o ∈ s.ops, o.phase ≠ 0)
    (hchains : ∀ e ∈ s.engines, ∀ c ∈ e.2.chains, c.tid ≠ b.tid)
    (hpf : b.pf = true → (∀ t ∈ s.fab.tags, t.2.use = none) ∧ (clusterOf s b.cluster).mx.resv = [] ∧ (clusterOf s b.cluster).mx.io = [])
    (p : Nat) : fenceWaits s b p = false := by
  have haccess : s.memops.any (fun o => o.tid == b.tid && o.pf == b.pf && (b.pf || o.slices.any (fun n => b.slices.contains n)) &&
      ((FenceArg.has p 0 && o.kind.isR) || (FenceArg.has p 1 && o.kind.isW))) = false :=
    List.any_eq_false.mpr (fun o ho => by simp [hmem o ho])
  have hop : s.ops.any (fun o => o.phase == 0 && (engineOf s o.eng).chains.any (fun c => c.id == o.chain && c.tid == b.tid)) = false :=
    List.any_eq_false.mpr (fun o ho => by simp [hops o ho])
  have hchain : s.engines.any (fun e => e.2.chains.any (fun c => c.tid == b.tid && chainUnread c)) = false :=
    List.any_eq_false.mpr (fun e he hany => by
      obtain ⟨c, hc, hboth⟩ := List.any_eq_true.mp hany
      exact hchains e he c hc (beq_iff_eq.mp (Bool.and_eq_true_iff.mp hboth).1))
  unfold fenceWaits
  simp only [Bool.or_eq_false_iff]
  refine ⟨⟨⟨haccess, ?events⟩, by rw [hop, hchain, Bool.or_self, Bool.and_false]⟩, ?matrix⟩
  case events =>
    cases hb : b.pf with
    | false => rw [Bool.and_false, Bool.false_and]
    | true =>
      refine Bool.and_eq_false_iff.mpr (.inr (List.any_eq_false.mpr (fun t ht => ?_)))
      rw [(hpf hb).1 t ht]
      exact Bool.false_ne_true
  case matrix =>
    cases hb : b.pf with
    | false => rw [Bool.and_false, Bool.false_and]
    | true =>
      obtain ⟨-, hresv, hio⟩ := hpf hb
      rw [hresv, hio, List.any_nil, List.any_nil, Bool.or_self, Bool.and_false]

/-- A fence wider than its form looks for the tenant's lines in the cluster's cache and at read sides that drop remote data
(R114, Table 4.2); a narrower one does not. -/
def FenceLight (s : State) (cl ten : Nat) (q : BitVec 4) (c : BitVec 3) : Prop :=
  c.toNat ≤ 2 ∨ ((∀ x ∈ (clusterOf s cl).cc, x.tenant ≠ ten) ∧ s.l2q = [] ∧ (c.toNat = 3 ∨ q.getLsbD 0 = false))

/-- A fence that waits for nothing and finds nothing to write back or to drop completes at once. -/
theorem fenceStep_light {s : State} {b : FenceBy} {p : Nat} {q : BitVec 4} {c : BitVec 3} (hwaits : fenceWaits s b p = false)
    (hlight : FenceLight s b.cluster b.tenant q c) : fenceStep s b ⟨p, c.toNat, q.toNat⟩ = (true, 0, s) := by
  unfold fenceStep
  rw [hwaits]
  obtain hnarrow | ⟨hcc, hq, hread⟩ := hlight
  · have h3 : ¬ 3 ≤ c.toNat := by omega
    have h4 : ¬ 4 ≤ c.toNat := by omega
    simp [h3, h4]
  · have hdrop : (decide (4 ≤ c.toNat) && FenceArg.has q.toNat 0) = false := by
      rw [fenceArg_has_zero, Bool.and_eq_false_iff]
      exact hread.imp (fun h => by simp [h]) id
    simp [ccClean_none hcc, backsPending_none hq, hdrop]

/-! ## FENCE and SFENCE -/

/-- FENCE of a cohort that nothing holds: the step of the fence, and past it with its releases where it is complete. -/
theorem fence_completes {s : State} {g : Gang} (h : GangReady s g) {p q : BitVec 4} {c : BitVec 3}
    (hok : (FenceArg.mk p.toNat c.toNat q.toNat).ok = true) (hops : ∀ o ∈ s.ops, o.phase ≠ 0)
    (hchains : ∀ e ∈ s.engines, ∀ x ∈ e.2.chains, x.tid ≠ g.team.tid) (hlight : FenceLight s (clusterOfCore g.team.core) g.grid.tenant q c)
    (hdet : g.team.det = none) : SlicesGo s g (.fence p q c) (fun _ sl sl' => OnlyPc { sl with waitOp := 0 } sl') := by
  have hexec : exec (.fence p q c) s = execFence p q c s := rfl
  have hstep (mark : Nat) : fenceStep s ⟨g.team.tid, false, g.nums, g.grid.tenant, clusterOfCore g.team.core, mark⟩ ⟨p.toNat, c.toNat, q.toNat⟩ =
      (true, 0, s) := fenceStep_light (fenceWaits_none h.memops hops hchains (fun hb => absurd hb Bool.false_ne_true) _) hlight
  refine ⟨finish s g 1 none (fun _ sl => { sl with waitOp := 0 }), ?_, ?_⟩
  · rw [hexec, execFence, endingBut, withGang_ready h]
    simp only [h.notAhead, hok, gangEntries_ready h, hstep, hdet, List.filter_nil, List.isEmpty_nil, Bool.not_true, Bool.false_eq_true, if_false]
  · refine (finish_goes h.notAhead ..).mono (fun x hx sl' hsl => ?_)
    obtain ⟨k, rfl⟩ := hsl
    simp [OnlyPc, sameTurn, advance, (h.slices x hx).1]

theorem fence_illegal {s : State} {g : Gang} (h : GangReady s g) {p q : BitVec 4} {c : BitVec 3}
    (hok : (FenceArg.mk p.toNat c.toNat q.toNat).ok = false) : exec (.fence p q c) s = .next (illegalGang s g) := by
  have hexec : exec (.fence p q c) s = execFence p q c s := rfl
  rw [hexec, execFence, endingBut, withGang_ready h]
  simp only [h.notAhead, hok, Bool.not_false, Bool.false_eq_true, if_false, if_true]

/-- SFENCE of a Prefect that nothing holds. -/
theorem sfence_completes {s : State} {x : Pref} (h : PrefReady s x) {p q : BitVec 4} {c : BitVec 3}
    (hok : (FenceArg.mk p.toNat c.toNat q.toNat).ok = true) (hops : ∀ o ∈ s.ops, o.phase ≠ 0)
    (hchains : ∀ e ∈ s.engines, ∀ y ∈ e.2.chains, y.tid ≠ x.team.tid) (hlight : FenceLight s (clusterOfCore x.team.core) x.grid.tenant q c)
    (htags : ∀ t ∈ s.fab.tags, t.2.use = none) (hresv : (clusterOf s (clusterOfCore x.team.core)).mx.resv = [])
    (hio : (clusterOf s (clusterOfCore x.team.core)).mx.io = []) :
    PrefExec s x (.sfence c p q) { x.team.pf with pc := x.team.pf.pc + 4, waitOp := 0 } := by
  have hexec : exec (.sfence c p q) s = execSfence c p q s := rfl
  have hstep (mark : Nat) : fenceStep s ⟨x.team.tid, true, [], x.grid.tenant, clusterOfCore x.team.core, mark⟩ ⟨p.toNat, c.toNat, q.toNat⟩ =
      (true, 0, s) := fenceStep_light (fenceWaits_none h.memops hops hchains (fun _ => ⟨htags, hresv, hio⟩) _) hlight
  refine ⟨prefDone s x (fun q => { q with waitOp := 0 }), ?_, _, prefDone_goes s x _, by rw [← h.st]⟩
  rw [hexec, execSfence, withPref_ready h]
  simp only [hok, hstep, Bool.not_true, Bool.false_eq_true, if_false, if_true]

theorem sfence_illegal {s : State} {x : Pref} (h : PrefReady s x) {p q : BitVec 4} {c : BitVec 3}
    (hok : (FenceArg.mk p.toNat c.toNat q.toNat).ok = false) : exec (.sfence c p q) s = .next (illegalPref s x) := by
  have hexec : exec (.sfence c p q) s = execSfence c p q s := rfl
  rw [hexec, execSfence, withPref_ready h]
  simp only [hok, Bool.not_false, if_true]

/-- Settles O23: the fence's step finds nothing that it waits for and nothing to write back or to drop. -/
theorem fencesComplete : Obligations.FencesComplete := by
  refine ⟨fun s g p q c h => ⟨fun hgood hidle hlight hdet => ?_, fun hbad => ?_⟩, fun s x p q c h => ⟨fun hgood hidle hlight htags hresv hio => ?_, fun hbad => ?_⟩⟩
  · exact fence_completes h ((fenceArg_ok_iff p q c).mpr hgood) hidle.1 hidle.2 hlight hdet
  · exact fence_illegal h (Bool.eq_false_iff.mpr (mt (fenceArg_ok_iff p q c).mp hbad))
  · exact sfence_completes h ((fenceArg_ok_iff p q c).mpr hgood) hidle.1 hidle.2 hlight htags hresv hio
  · exact sfence_illegal h (Bool.eq_false_iff.mpr (mt (fenceArg_ok_iff p q c).mp hbad))

end Sys2Proof.Machine
end

section
/-! SUPPORT. Byte-counting barriers: what claims, additions and arms make of one, and the instructions that name one (R128, R410,
R411, R415 to R417; log entry 19). -/

namespace Sys2Proof.Machine
-- One declaration after the other: in parallel, the threads' stacks pass the check's memory limit.
set_option Elab.async false
open Sys2Proof.Claims

/-! ## A cohort of which some slices pass and others wait (R415, Table 6.9) -/

/-- A slice of the cohort is among those that satisfy a test exactly if it satisfies it. -/
theorem mem_passing {s : State} {g : Gang} (h : GangReady s g) {P : Nat × Slice → Bool} {p : Nat × Slice} (hp : p ∈ g.sl) :
    p.1 ∈ (g.sl.filter P).map Prod.fst ↔ P p = true := by
  refine ⟨fun hmem => ?_, fun hP => List.mem_map_of_mem (List.mem_filter.mpr ⟨hp, hP⟩)⟩
  obtain ⟨q, hq, hqp⟩ := List.mem_map.mp hmem
  obtain ⟨hqsl, hPq⟩ := List.mem_filter.mp hq
  rwa [List.inj_on_of_nodup_map (f := Prod.fst) h.nums hqsl hp hqp] at hPq

/-- Slices of a cohort changed and their cohorts formed again: a change of each slice, but for its cohort's name. -/
theorem updTeam_regroup (s : State) (g : Gang) (F : Nat → Slice → Slice) : ∃ cc : Team → Slice → Nat,
    updTeam s g.team.tid (fun t => regroup (t.mapSlices g.nums F) g.nums) = { s with teams := s.teams.map (fun u =>
      if u.tid = g.team.tid then u.mapSlices g.nums (fun n sl => { F n sl with cohort := cc u (F n sl) }) else u) } := by
  choose cc hcc using fun u : Team => regroup_eq (u.mapSlices g.nums F) g.nums
  exact ⟨cc, by simp only [updTeam, hcc, mapSlices_mapSlices]⟩

/-- A slice among those that pass is changed by `f` and passes; another waits. -/
def passOrWait (go : List Nat) (f : Nat → Slice → Slice) (n : Nat) (sl : Slice) : Slice :=
  if go.contains n then advance 1 (f n sl) else { sl with st := .barrier }

theorem passOrWait_passes {go : List Nat} {n : Nat} (hn : n ∈ go) (f : Nat → Slice → Slice) (sl : Slice) :
    passOrWait go f n sl = advance 1 (f n sl) := if_pos (List.contains_iff_mem.mpr hn)

theorem passOrWait_waits {go : List Nat} {n : Nat} (hn : n ∉ go) (f : Nat → Slice → Slice) (sl : Slice) :
    passOrWait go f n sl = { sl with st := .barrier } := if_neg (mt List.contains_iff_mem.mp hn)

section
variable (s : State) (g : Gang) (f : Nat → Slice → Slice)

theorem splitGo_eq (go : List Nat) : splitGo s g go f =
    if go.isEmpty then updTeam s g.team.tid (fun t => regroup (t.mapSlices g.nums (passOrWait go f)) g.nums)
    else latchStep (updTeam s g.team.tid (fun t => regroup (t.mapSlices g.nums (passOrWait go f)) g.nums)) g none := rfl

/-- Some slices pass, each changed by `f`, and the others wait. -/
theorem splitGo_goes {go : List Nat} (hgo : go ≠ []) : GangGoes s g (splitGo s g go f) (fun n sl sl' =>
    (n ∈ go → ∃ c, sl' = { advance 1 (f n sl) with cohort := c }) ∧ (n ∉ go → Waits sl sl')) := by
  obtain ⟨cc, hcc⟩ := updTeam_regroup s g (passOrWait go f)
  rw [splitGo_eq, if_neg (by rwa [List.isEmpty_iff]), hcc]
  obtain ⟨c, hc, hsame⟩ := latchStep_eq { s with teams := s.teams.map (fun u => if u.tid = g.team.tid then
    u.mapSlices g.nums (fun n sl => { passOrWait go f n sl with cohort := cc u (passOrWait go f n sl) }) else u) } g none
  refine ⟨fun u n sl => { passOrWait go f n sl with cohort := cc u (passOrWait go f n sl) }, c, hc, hsame, fun u p _ => ⟨fun hin => ?_, fun hout => ?_⟩⟩
  · exact ⟨_, by simp only [passOrWait_passes hin]; rfl⟩
  · simp only [passOrWait_waits hout]
    rfl

/-- No slice passes: all wait. -/
theorem splitGo_none : CohortGoes s g (splitGo s g [] f) (fun _ sl sl' => Waits sl sl') := by
  obtain ⟨cc, hcc⟩ := updTeam_regroup s g (passOrWait [] f)
  rw [splitGo_eq, List.isEmpty_nil, if_pos rfl, hcc]
  exact ⟨fun u n sl => { passOrWait [] f n sl with cohort := cc u (passOrWait [] f n sl) }, rfl,
    fun u p _ => by simp only [passOrWait_waits List.not_mem_nil]; rfl⟩

end

theorem theGang_sl_ne_nil {s : State} {tid lead : Nat} {g : Gang} (h : theGang s tid lead = some g) : g.sl ≠ [] := by
  unfold theGang at h
  split at h
  · cases h
  split at h
  · cases h
  split at h
  · cases h
  · next hne =>
    cases h
    exact hne

/-- Every slice passes and nothing else of it changes. -/
theorem splitGo_all {s : State} {g : Gang} (h : GangReady s g) (u : State) :
    GangGoes u g (splitGo u g g.nums (fun _ sl => sl)) (fun _ sl sl' => OnlyPc sl sl') := by
  have hnums : g.nums ≠ [] := mt List.map_eq_nil_iff.mp (theGang_sl_ne_nil h.here)
  refine (splitGo_goes u g _ hnums).mono (fun p hp sl' hsl => ?_)
  obtain ⟨c, rfl⟩ := hsl.1 (List.mem_map_of_mem hp)
  simp [OnlyPc, sameTurn, advance, (h.slices p hp).1]

/-! ## One barrier of a cluster (R410, R411) -/

theorem reached_iff (n x : W32) : reached n x = true ↔ (n - x).toNat < 2 ^ 31 := decide_eq_true_iff

section
variable {s u v : State} {cl k ten : Nat} {b c : BcBar}

theorem updBar_becomes (s : State) (cl k : Nat) (f : BcBar → BcBar) : BarBecomes s (updBar s cl k f) cl k (f (barOf s cl k)) := by
  have hcluster (c : Nat) := clusterOf_updCluster s cl c
  refine ⟨_, rfl, fun c hc => ?_, ?_, fun j => ?_⟩
  · rw [updBar, hcluster, if_neg hc]
  · rw [updBar, hcluster, if_pos rfl]
    exact ⟨_, rfl⟩
  · rw [updBar, barOf, hcluster, if_pos rfl, tget_tset]
    rfl

theorem barBecomes_trans (h : BarBecomes s u cl k b) (h' : BarBecomes u v cl k c) : BarBecomes s v cl k c := by
  obtain ⟨_, rfl, hother, ⟨bc, hbc⟩, hbar⟩ := h
  obtain ⟨cs, rfl, hother', ⟨bc', hbc'⟩, hbar'⟩ := h'
  refine ⟨cs, rfl, fun j hj => (hother' j hj).trans (hother j hj), ⟨bc', by rw [hbc', hbc]⟩, fun j => ?_⟩
  rw [hbar', hbar]
  split <;> rfl

theorem barOf_of_becomes (h : BarBecomes s u cl k b) : barOf u cl k = b := by
  obtain ⟨-, -, -, -, hbar⟩ := h
  rw [hbar, if_pos rfl]

/-- A barrier that becomes `b` and is changed after that. -/
theorem barBecomes_changed (h : BarBecomes s u cl k b) (f : BcBar → BcBar) : BarBecomes s (updBar u cl k f) cl k (f b) :=
  barOf_of_becomes h ▸ barBecomes_trans h (updBar_becomes u cl k f)

theorem teamIn_of_barBecomes {tid : Nat} (h : BarBecomes s u cl k b) (hin : TeamIn s tid) : TeamIn u tid := by
  obtain ⟨_, rfl, -⟩ := h
  exact hin

theorem tagOwner_of_barBecomes (h : BarBecomes s u cl k b) (core bit : Nat) : tagOwner u core bit = tagOwner s core bit := by
  obtain ⟨_, rfl, -⟩ := h
  rfl

theorem barOk_foreign (h : ¬ BarFree s cl k ten) : barOk s cl k ten = false := Bool.eq_false_iff.mpr (mt (barOk_iff s cl k ten).mp h)

/-- An arm fires where the count has reached its target. -/
theorem barFire_armed {x : BcArm} (hx : (barOf s cl k).arm = some x) : barFire s cl k =
    if reached (barOf s cl k).count x.target then tagSet (updBar s cl k (fun b => { b with arm := none })) x.core x.tag x.tid else s := by
  rw [barFire, hx]

/-- An addition to a barrier that the tenant may name: it becomes the tenant's, counts, and its arm is looked at. -/
theorem barAdd_counts (hfree : BarFree s cl k ten) (n : Nat) : ∃ u, barAdd s cl k n ten = some (barFire u cl k) ∧
    BarBecomes s u cl k { barOf s cl k with owner := some ten, count := (barOf s cl k).count + BitVec.ofNat 32 n } := by
  refine ⟨_, ?_, barBecomes_changed (barClaim_taken hfree) (fun b => { b with count := b.count + BitVec.ofNat 32 n })⟩
  rw [barAdd, (barOk_iff s cl k ten).mpr hfree]
  rfl

/-- An addition to a barrier without an arm. -/
theorem barAdd_unarmed (hfree : BarFree s cl k ten) (harm : (barOf s cl k).arm = none) (n : Nat) : ∃ u, barAdd s cl k n ten = some u ∧
    BarBecomes s u cl k { barOf s cl k with owner := some ten, count := (barOf s cl k).count + BitVec.ofNat 32 n } := by
  obtain ⟨u, hadd, hu⟩ := barAdd_counts hfree n
  have hquiet : barFire u cl k = u := by
    rw [barFire, barOf_of_becomes hu]
    simp only [harm]
  exact ⟨u, hadd.trans (by rw [hquiet]), hu⟩

end

/-! ## Tags that arms take and set (R409, R411, R417) -/

/-- An operation of a team that is not out sets its tag in TAGS. -/
theorem tagSet_tagSet {s : State} {tid : Nat} (hin : TeamIn s tid) (core bit : Nat) : TagSet s (tagSet s core bit tid) core bit tid := by
  have hset : tagSet s core bit tid = updCore s core (fun c => { c with
      tags := c.tags ||| BitVec.ofNat 64 (2 ^ bit), tagTeam := c.tagTeam.filter (fun p => p.1 != bit) ++ [(bit, tid)] }) := by
    rw [tagSet, show imageOfTeam s tid = none from hin]
  rw [hset]
  refine ⟨_, rfl, fun k hk => by rw [coreOf_updCore, if_neg hk], _, by rw [coreOf_updCore, if_pos rfl], ?_⟩
  exact List.mem_append_right _ (List.mem_singleton_self _)

/-- Owners are found at the front first: a bit that has none takes the one that is added. -/
theorem find_owner_append (l : List (Nat × Nat)) (bit ten b : Nat) (hnone : l.find? (fun p => p.1 == bit) = none) :
    (l ++ [(bit, ten)]).find? (fun p => p.1 == b) = if b = bit then some (bit, ten) else l.find? (fun p => p.1 == b) := by
  rw [List.find?_append]
  by_cases hb : b = bit
  · subst hb
    simp [hnone]
  · simp [hb, Ne.symm hb]

/-- A bit that no other tenant owns becomes the tenant's. -/
theorem tagClaim_taken {s : State} {core ten bit : Nat} (hmine : ∀ o, tagOwner s core bit = some o → o = ten) :
    TagTaken s (tagClaim s core ten bit) core ten bit := by
  rw [tagClaim]
  cases howner : tagOwner s core bit with
  | some o =>
    obtain rfl := hmine o howner
    exact ⟨_, rfl, fun _ _ => rfl, ⟨_, rfl⟩, howner, fun _ _ => rfl⟩
  | none =>
    have hnone : (coreOf s core).tagOwner.find? (fun p => p.1 == bit) = none := Option.map_eq_none_iff.mp howner
    have hafter (b : Nat) : tagOwner (updCore s core (fun c => { c with tagOwner := c.tagOwner ++ [(bit, ten)] })) core b =
        if b = bit then some ten else tagOwner s core b := by
      rw [tagOwner, coreOf_updCore, if_pos rfl, find_owner_append _ _ _ _ hnone]
      split <;> rfl
    exact ⟨_, rfl, fun k hk => by rw [coreOf_updCore, if_neg hk], ⟨_, by rw [coreOf_updCore, if_pos rfl]⟩, by rw [hafter, if_pos rfl],
      fun b hb => by rw [hafter, if_neg hb]⟩

/-- Owners of tags and barriers do not touch each other. -/
theorem updBar_tagClaim (s : State) (core ten bit cl k : Nat) (f : BcBar → BcBar) :
    updBar (tagClaim s core ten bit) cl k f = tagClaim (updBar s cl k f) core ten bit := by
  have howner : tagOwner (updBar s cl k f) core bit = tagOwner s core bit := rfl
  rw [tagClaim, tagClaim, howner]
  cases tagOwner s core bit <;> rfl

theorem barOf_tagClaim (s : State) (core ten bit cl k : Nat) : barOf (tagClaim s core ten bit) cl k = barOf s cl k := by
  rw [tagClaim]
  cases tagOwner s core bit <;> rfl

theorem teamIn_of_tagTaken {s u : State} {core ten bit tid : Nat} (h : TagTaken s u core ten bit) (hin : TeamIn s tid) : TeamIn u tid := by
  obtain ⟨_, rfl, -⟩ := h
  exact hin

theorem tagOk_iff (s : State) (core ten bit : Nat) : tagOk s core ten bit = true ↔ ∀ o, tagOwner s core bit = some o → o = ten := by
  rw [tagOk]
  cases tagOwner s core bit <;> simp

/-! ## BCWAIT and BCADD (R415) -/

section
variable {s : State} {g : Gang} (h : GangReady s g) {cl ten : Nat} (hcl : clusterOfCore g.team.core = cl) (hten : g.grid.tenant = ten)
  {a d : GReg} {k : BitVec 6}
include h hcl hten

theorem bc_foreign (hforeign : ¬ BarFree s cl k.toNat ten) :
    exec (.bcwait d a k) s = .next (illegalGang s g) ∧ exec (.bcadd a k) s = .next (illegalGang s g) := by
  subst hcl hten
  have hwait : exec (.bcwait d a k) s = execBcwait d a k s := rfl
  have hadd : exec (.bcadd a k) s = execBcadd a k s := rfl
  rw [hwait, hadd, execBcwait, execBcadd, ending_ready h _ _ rfl, ending_ready h _ _ rfl]
  simp only [barOk_foreign hforeign, Bool.not_false, if_true, and_self]

variable (hfree : BarFree s cl k.toNat ten)
include hfree

/-- BCWAIT: the slices whose target COUNT has reached go on with it. -/
theorem bcwait_ready : exec (.bcwait d a k) s = .next (splitGo (barClaim s cl k.toNat ten) g
    ((g.sl.filter (fun p => reached (barOf s cl k.toNat).count ((rdG p.2 a.toNat).setWidth 32))).map Prod.fst)
    (fun _ sl => wrG sl d.toNat ((barOf s cl k.toNat).count.setWidth 64))) := by
  subst hcl hten
  have hexec : exec (.bcwait d a k) s = execBcwait d a k s := rfl
  rw [hexec, execBcwait, ending_ready h _ _ rfl]
  simp only [(barOk_iff _ _ _ _).mpr hfree, barOf_of_becomes (barClaim_taken hfree), Bool.not_true, Bool.false_eq_true, if_false]

omit hcl hten hfree in
theorem bcwait_goes (u : State) (hsome : ∃ p ∈ g.sl, reached (barOf s cl k.toNat).count ((rdG p.2 a.toNat).setWidth 32) = true) :
    GangGoes u g (splitGo u g ((g.sl.filter (fun p => reached (barOf s cl k.toNat).count ((rdG p.2 a.toNat).setWidth 32))).map Prod.fst)
      (fun _ sl => wrG sl d.toNat ((barOf s cl k.toNat).count.setWidth 64))) (fun _ sl sl' =>
        (reached (barOf s cl k.toNat).count ((rdG sl a.toNat).setWidth 32) = true → GSet d.toNat ((barOf s cl k.toNat).count.setWidth 64) sl sl') ∧
        (¬ reached (barOf s cl k.toNat).count ((rdG sl a.toNat).setWidth 32) = true → Waits sl sl')) := by
  obtain ⟨q, hq, hhit⟩ := hsome
  refine (splitGo_goes u g _ (List.ne_nil_of_mem ((mem_passing h hq).mpr hhit))).mono (fun p hp sl' hsl => ⟨fun hpass => ?_, fun hwait => ?_⟩)
  · obtain ⟨c, rfl⟩ := hsl.1 ((mem_passing h hp).mpr hpass)
    exact ⟨by simp [OnlyG, sameTurn, advance, wrG, (h.slices p hp).1], fun r => tget_tset ..⟩
  · exact hsl.2 (mt (mem_passing h hp).mp hwait)

/-- BCADD: one addition for each slice. -/
theorem bcadd_ready : exec (.bcadd a k) s = .next (splitGo (g.sl.foldl (fun s p =>
    (barAdd s cl k.toNat ((rdG p.2 a.toNat).toNat % 2 ^ 32) ten).getD s) s) g g.nums (fun _ sl => sl)) := by
  subst hcl hten
  have hexec : exec (.bcadd a k) s = execBcadd a k s := rfl
  rw [hexec, execBcadd, ending_ready h _ _ rfl]
  simp only [(barOk_iff _ _ _ _).mpr hfree, Bool.not_true, Bool.false_eq_true, if_false]

end

/-- The low word of a register, as an addition takes it. -/
theorem ofNat_low_word (x : W64) : BitVec.ofNat 32 (x.toNat % 2 ^ 32) = x.setWidth 32 := by
  apply BitVec.eq_of_toNat_eq
  simp

/-- Additions to a barrier of the tenant that has no arm add up. -/
theorem barAdds_count {cl k ten : Nat} (val : Nat × Slice → W64) (l : List (Nat × Slice)) {s : State} (hmine : (barOf s cl k).owner = some ten)
    (harm : (barOf s cl k).arm = none) : BarBecomes s (l.foldl (fun s p => (barAdd s cl k ((val p).toNat % 2 ^ 32) ten).getD s) s) cl k
      { barOf s cl k with count := (barOf s cl k).count + (l.map (fun p => (val p).setWidth 32)).sum } := by
  induction l generalizing s with
  | nil =>
    refine ⟨_, rfl, fun _ _ => rfl, ⟨_, rfl⟩, fun j => ?_⟩
    split
    · next hj => simp [hj]
    · rfl
  | cons p r ih =>
    obtain ⟨u, hadd, hu⟩ := barAdd_unarmed (.inr hmine) harm ((val p).toNat % 2 ^ 32)
    rw [List.foldl_cons, hadd, Option.getD_some]
    have hrest := barBecomes_trans hu (ih (by rw [barOf_of_becomes hu]) (by rw [barOf_of_becomes hu]; exact harm))
    rw [barOf_of_becomes hu] at hrest
    simp only [ofNat_low_word] at hrest
    rw [List.map_cons, List.sum_cons, ← BitVec.add_assoc]
    simp only [hmine]
    exact hrest

section
variable {s : State} {g : Gang} (h : GangReady s g) {cl ten : Nat} (hcl : clusterOfCore g.team.core = cl) (hten : g.grid.tenant = ten)
  {a : GReg} {k : BitVec 6} (hfree : BarFree s cl k.toNat ten)
include h hcl hten hfree

theorem bcadd_unarmed (harm : (barOf s cl k.toNat).arm = none) : ∃ t u, exec (.bcadd a k) s = .next t ∧
    BarBecomes s u cl k.toNat { barOf s cl k.toNat with
      owner := some ten, count := (barOf s cl k.toNat).count + (g.sl.map (fun p => (rdG p.2 a.toNat).setWidth 32)).sum } ∧
    GangGoes u g t (fun _ sl sl' => OnlyPc sl sl') := by
  refine ⟨_, _, bcadd_ready h hcl hten hfree, ?_, splitGo_all h _⟩
  obtain ⟨p, r, hpr⟩ := List.exists_cons_of_ne_nil (theGang_sl_ne_nil h.here)
  obtain ⟨u, hadd, hu⟩ := barAdd_unarmed hfree harm ((rdG p.2 a.toNat).toNat % 2 ^ 32)
  have hrest := barBecomes_trans hu (barAdds_count (cl := cl) (k := k.toNat) (ten := ten) (fun q => rdG q.2 a.toNat) r
    (by rw [barOf_of_becomes hu]) (by rw [barOf_of_becomes hu]; exact harm))
  rw [barOf_of_becomes hu] at hrest
  simp only [ofNat_low_word] at hrest
  rw [hpr, List.foldl_cons, hadd, Option.getD_some, List.map_cons, List.sum_cons, ← BitVec.add_assoc]
  exact hrest

variable {p : Nat × Slice} {x : BcArm} (hone : g.sl = [p]) (harm : (barOf s cl k.toNat).arm = some x)
include hone harm

/-- An addition of one slice to an armed barrier: the arm is looked at once it has counted. -/
theorem bcadd_armed : ∃ u, exec (.bcadd a k) s = .next (splitGo (if reached ((barOf s cl k.toNat).count + (rdG p.2 a.toNat).setWidth 32) x.target then
      tagSet (updBar u cl k.toNat (fun b => { b with arm := none })) x.core x.tag x.tid else u) g g.nums (fun _ sl => sl)) ∧
    BarBecomes s u cl k.toNat { count := (barOf s cl k.toNat).count + (rdG p.2 a.toNat).setWidth 32, arm := some x, owner := some ten } := by
  obtain ⟨u, hadd, hu⟩ := barAdd_counts hfree ((rdG p.2 a.toNat).toNat % 2 ^ 32)
  have he := bcadd_ready h hcl hten hfree (a := a)
  simp only [ofNat_low_word, harm] at hu
  rw [hone, List.foldl_cons, List.foldl_nil, hadd, Option.getD_some, barFire_armed (by rw [barOf_of_becomes hu]), barOf_of_becomes hu] at he
  exact ⟨u, he, hu⟩

theorem bcadd_fires (hin : TeamIn s x.tid) (hhit : reached ((barOf s cl k.toNat).count + (rdG p.2 a.toNat).setWidth 32) x.target = true) :
    ∃ t u v, exec (.bcadd a k) s = .next t ∧
      BarBecomes s u cl k.toNat { count := (barOf s cl k.toNat).count + (rdG p.2 a.toNat).setWidth 32, arm := none, owner := some ten } ∧
      TagSet u v x.core x.tag x.tid ∧ GangGoes v g t (fun _ sl sl' => OnlyPc sl sl') := by
  obtain ⟨u, he, hu⟩ := bcadd_armed h hcl hten hfree hone harm (a := a)
  rw [if_pos hhit] at he
  have hfired := barBecomes_changed hu (fun b => { b with arm := none })
  exact ⟨_, _, _, he, hfired, tagSet_tagSet (teamIn_of_barBecomes hfired hin) _ _, splitGo_all h _⟩

theorem bcadd_stays (hmiss : ¬ reached ((barOf s cl k.toNat).count + (rdG p.2 a.toNat).setWidth 32) x.target = true) :
    ∃ t u, exec (.bcadd a k) s = .next t ∧
      BarBecomes s u cl k.toNat { count := (barOf s cl k.toNat).count + (rdG p.2 a.toNat).setWidth 32, arm := some x, owner := some ten } ∧
      GangGoes u g t (fun _ sl sl' => OnlyPc sl sl') := by
  obtain ⟨u, he, hu⟩ := bcadd_armed h hcl hten hfree hone harm (a := a)
  rw [if_neg hmiss] at he
  exact ⟨_, _, he, hu, splitGo_all h _⟩

end

/-! ## SBCWAIT and SBCARM (R416, R417) -/

section
variable {s : State} {p : Pref} (h : PrefReady s p) {cl ten : Nat} (hcl : clusterOfCore p.team.core = cl) (hten : p.grid.tenant = ten)
  {a d v : SReg} {k : BitVec 6}
include h

/-- A register written by a Prefect that leaves its instruction. -/
theorem PrefReady.prefDone_set (u : State) (d : SReg) (x : W64) : ∃ q, PrefBecomes u p (prefDone u p (fun q => wrS q d.toNat x)) q ∧
    { q with s := p.team.pf.s } = { p.team.pf with pc := p.team.pf.pc + 4 } ∧ ∀ r, rdS q r = if r = d.toNat then x else rdS p.team.pf r := by
  refine ⟨{ wrS p.team.pf d.toNat x with pc := p.team.pf.pc + 4 }, ⟨_, prefDone_goes u p _, ?_⟩, rfl, fun r => tget_tset ..⟩
  rw [← h.st]
  rfl

include hcl hten

theorem sbc_foreign (hforeign : ¬ BarFree s cl k.toNat ten) :
    exec (.sbcwait d a k) s = .next (illegalPref s p) ∧ exec (.sbcarm k a v) s = .next (illegalPref s p) := by
  subst hcl hten
  have hwait : exec (.sbcwait d a k) s = execSbcwait d a k s := rfl
  have harm : exec (.sbcarm k a v) s = execSbcarm k a v s := rfl
  rw [hwait, harm, execSbcwait, execSbcarm, withPref_ready h, withPref_ready h]
  simp only [barOk_foreign hforeign, Bool.not_false, or_true, if_true, and_self]

omit hcl hten in
theorem sbcArming_beyond (hw : 128 ≤ (rdS p.team.pf v.toNat).toNat) : exec (.sbcarm k a v) s = .next (illegalPref s p) := by
  have hexec : exec (.sbcarm k a v) s = execSbcarm k a v s := rfl
  have hhigh : rdS p.team.pf v.toNat >>> 7 ≠ 0 := by
    rw [Ne, BitVec.toNat_eq, BitVec.toNat_ushiftRight, Nat.shiftRight_eq_div_pow]
    show ¬ (rdS p.team.pf v.toNat).toNat / 2 ^ 7 = 0
    omega
  rw [hexec, execSbcarm, withPref_ready h]
  exact congrArg _ (if_pos (.inl hhigh))

variable (hfree : BarFree s cl k.toNat ten)
include hfree

theorem sbcwait_ready : exec (.sbcwait d a k) s = .next (if reached (barOf s cl k.toNat).count ((rdS p.team.pf a.toNat).setWidth 32) then
    prefDone (barClaim s cl k.toNat ten) p (fun q => wrS q d.toNat ((barOf s cl k.toNat).count.setWidth 64))
    else prefStall (barClaim s cl k.toNat ten) p .barrier) := by
  subst hcl hten
  have hexec : exec (.sbcwait d a k) s = execSbcwait d a k s := rfl
  rw [hexec, execSbcwait, withPref_ready h]
  simp only [(barOk_iff _ _ _ _).mpr hfree, barOf_of_becomes (barClaim_taken hfree), Bool.not_true, Bool.false_eq_true, if_false]

/-- SBCARM with a word below 128: bit 6 disarms, and otherwise the low bits name the tag. -/
theorem sbcArming_ready (hw : (rdS p.team.pf v.toNat).toNat < 128) : exec (.sbcarm k a v) s = .next (
    if 64 ≤ (rdS p.team.pf v.toNat).toNat then
      prefDone (updBar (barClaim s cl k.toNat ten) cl k.toNat (fun x => { x with arm := none })) p (fun q => q)
    else if tagOk s p.team.core ten ((rdS p.team.pf v.toNat).toNat % 64) = false then illegalPref s p
    else prefDone (barFire (updBar (tagClaim (barClaim s cl k.toNat ten) p.team.core ten ((rdS p.team.pf v.toNat).toNat % 64)) cl k.toNat (fun x =>
      { x with arm := some ⟨(rdS p.team.pf a.toNat).setWidth 32, (rdS p.team.pf v.toNat).toNat % 64, p.team.core, p.team.tid⟩ })) cl k.toNat) p
        (fun q => q)) := by
  subst hcl hten
  have hexec : exec (.sbcarm k a v) s = execSbcarm k a v s := rfl
  have hlow : rdS p.team.pf v.toNat >>> 7 = 0 := by
    rw [BitVec.toNat_eq, BitVec.toNat_ushiftRight, Nat.shiftRight_eq_div_pow]
    show (rdS p.team.pf v.toNat).toNat / 2 ^ 7 = 0
    omega
  have hoff : (rdS p.team.pf v.toNat).getLsbD 6 = decide (64 ≤ (rdS p.team.pf v.toNat).toNat) := by
    rw [BitVec.getLsbD, Nat.testBit_eq_decide_div_mod_eq]
    exact decide_eq_decide.mpr (by omega)
  rw [hexec, execSbcarm, withPref_ready h]
  simp only [hlow, hoff, (barOk_iff _ _ _ _).mpr hfree, ne_eq, not_true_eq_false, Bool.not_true, Bool.false_eq_true, or_self, if_false]
  by_cases h64 : 64 ≤ (rdS p.team.pf v.toNat).toNat
  · simp [h64]
  · cases tagOk s p.team.core p.grid.tenant ((rdS p.team.pf v.toNat).toNat % 64) <;> simp [h64]

theorem sbcArming_disarms (hw : (rdS p.team.pf v.toNat).toNat < 128) (hoff : 64 ≤ (rdS p.team.pf v.toNat).toNat) :
    ∃ t u, exec (.sbcarm k a v) s = .next t ∧ BarBecomes s u cl k.toNat { barOf s cl k.toNat with owner := some ten, arm := none } ∧
      PrefBecomes u p t { p.team.pf with pc := p.team.pf.pc + 4 } := by
  have he := sbcArming_ready h hcl hten hfree hw (a := a)
  rw [if_pos hoff] at he
  exact ⟨_, _, he, barBecomes_changed (barClaim_taken hfree) (fun x => { x with arm := none }), h.prefDone_id _⟩

variable (hw : (rdS p.team.pf v.toNat).toNat < 64)
include hw

theorem sbcArming_tag_foreign (hforeign : ∃ o, tagOwner s p.team.core ((rdS p.team.pf v.toNat).toNat % 64) = some o ∧ o ≠ ten) :
    exec (.sbcarm k a v) s = .next (illegalPref s p) := by
  obtain ⟨o, ho, hne⟩ := hforeign
  have hbad : tagOk s p.team.core ten ((rdS p.team.pf v.toNat).toNat % 64) = false :=
    Bool.eq_false_iff.mpr (mt (tagOk_iff _ _ _ _).mp (fun hall => hne (hall o ho)))
  rw [sbcArming_ready h hcl hten hfree (by omega), if_neg (by omega), if_pos hbad]

variable (hmine : ∀ o, tagOwner s p.team.core ((rdS p.team.pf v.toNat).toNat % 64) = some o → o = ten)
include hmine

/-- SBCARM with a tag: the barrier and the tag become the tenant's, the arm is set, and it fires at once where COUNT has reached
its target. -/
theorem sbcArming_arms : ∃ u u', exec (.sbcarm k a v) s = .next (prefDone (
      if reached (barOf s cl k.toNat).count ((rdS p.team.pf a.toNat).setWidth 32) then
        tagSet (updBar u' cl k.toNat (fun b => { b with arm := none })) p.team.core ((rdS p.team.pf v.toNat).toNat % 64) p.team.tid
      else u') p (fun q => q)) ∧
    BarBecomes s u cl k.toNat { barOf s cl k.toNat with owner := some ten, arm := some ⟨(rdS p.team.pf a.toNat).setWidth 32,
      (rdS p.team.pf v.toNat).toNat % 64, p.team.core, p.team.tid⟩ } ∧
    u' = tagClaim u p.team.core ten ((rdS p.team.pf v.toNat).toNat % 64) := by
  have hok : ¬ tagOk s p.team.core ten ((rdS p.team.pf v.toNat).toNat % 64) = false := by
    rw [(tagOk_iff _ _ _ _).mpr hmine]
    exact Bool.true_eq_false.mp
  have hu := barBecomes_changed (barClaim_taken hfree) (fun x => { x with arm := some ⟨(rdS p.team.pf a.toNat).setWidth 32,
    (rdS p.team.pf v.toNat).toNat % 64, p.team.core, p.team.tid⟩ })
  refine ⟨_, _, ?_, hu, rfl⟩
  rw [sbcArming_ready h hcl hten hfree (by omega), if_neg (by omega), if_neg hok, updBar_tagClaim,
    barFire_armed (by rw [barOf_tagClaim, barOf_of_becomes hu]), barOf_tagClaim, barOf_of_becomes hu]

theorem sbcArming_fires (hin : TeamIn s p.team.tid) (hhit : reached (barOf s cl k.toNat).count ((rdS p.team.pf a.toNat).setWidth 32) = true) :
    ∃ t u u' u'', exec (.sbcarm k a v) s = .next t ∧ BarBecomes s u cl k.toNat { barOf s cl k.toNat with owner := some ten, arm := none } ∧
      TagTaken u u' p.team.core ten ((rdS p.team.pf v.toNat).toNat % 64) ∧
      TagSet u' u'' p.team.core ((rdS p.team.pf v.toNat).toNat % 64) p.team.tid ∧ PrefBecomes u'' p t { p.team.pf with pc := p.team.pf.pc + 4 } := by
  obtain ⟨u, _, he, hu, rfl⟩ := sbcArming_arms h hcl hten hfree hw hmine (a := a)
  have hfired := barBecomes_changed hu (fun b => { b with arm := none })
  have htaken := tagClaim_taken (s := updBar u cl k.toNat (fun b => { b with arm := none })) (core := p.team.core) (ten := ten)
    (bit := (rdS p.team.pf v.toNat).toNat % 64) (by rw [tagOwner_of_barBecomes hfired]; exact hmine)
  rw [if_pos hhit, updBar_tagClaim] at he
  exact ⟨_, _, _, _, he, hfired, htaken, tagSet_tagSet (teamIn_of_tagTaken htaken (teamIn_of_barBecomes hfired hin)) _ _, h.prefDone_id _⟩

theorem sbcArming_waits (hmiss : ¬ reached (barOf s cl k.toNat).count ((rdS p.team.pf a.toNat).setWidth 32) = true) :
    ∃ t u u', exec (.sbcarm k a v) s = .next t ∧ BarBecomes s u cl k.toNat { barOf s cl k.toNat with
        owner := some ten, arm := some ⟨(rdS p.team.pf a.toNat).setWidth 32, (rdS p.team.pf v.toNat).toNat % 64, p.team.core, p.team.tid⟩ } ∧
      TagTaken u u' p.team.core ten ((rdS p.team.pf v.toNat).toNat % 64) ∧ PrefBecomes u' p t { p.team.pf with pc := p.team.pf.pc + 4 } := by
  obtain ⟨u, _, he, hu, rfl⟩ := sbcArming_arms h hcl hten hfree hw hmine (a := a)
  rw [if_neg hmiss] at he
  exact ⟨_, _, _, he, hu, tagClaim_taken (by rw [tagOwner_of_barBecomes hu]; exact hmine), h.prefDone_id _⟩

end

/-- Settles O37: what each instruction makes of its barrier and of the arm's tag, and then of its issuer. -/
theorem byteCounts : Obligations.ByteCounts := by
  refine ⟨fun s g d a k h => ⟨fun hfree => ⟨⟨_, _, bcwait_ready h rfl rfl hfree, barClaim_taken hfree, fun hsome => ?pass, fun hnone => ?wait⟩,
    bcadd_unarmed h rfl rfl hfree, fun p x hone harm hin => ⟨fun hhit => ?fires, fun hmiss => ?stays⟩⟩, bc_foreign h rfl rfl⟩,
    fun s p d a v k h => ⟨fun hfree => ⟨⟨_, _, sbcwait_ready h rfl rfl hfree, barClaim_taken hfree, fun hhit => ?go, fun hmiss => ?halt⟩,
      fun hoff hw => sbcArming_disarms h rfl rfl hfree hw hoff,
      fun hw hmine hin => ⟨fun hhit => sbcArming_fires h rfl rfl hfree hw hmine hin ((reached_iff _ _).mpr hhit),
        fun hmiss => sbcArming_waits h rfl rfl hfree hw hmine (mt (reached_iff _ _).mp hmiss)⟩,
      fun hw => sbcArming_tag_foreign h rfl rfl hfree hw⟩, sbcArming_beyond h, sbc_foreign h rfl rfl⟩⟩
  case pass =>
    simp only [← reached_iff] at hsome ⊢
    exact bcwait_goes h _ hsome
  case wait =>
    have hgo : (g.sl.filter (fun p => reached (barOf s (clusterOfCore g.team.core) k.toNat).count ((rdG p.2 a.toNat).setWidth 32))) = [] :=
      List.filter_eq_nil_iff.mpr (fun p hp => mt (reached_iff _ _).mp (hnone p hp))
    rw [hgo]
    exact splitGo_none ..
  case fires => exact bcadd_fires h rfl rfl hfree hone harm hin ((reached_iff _ _).mpr hhit)
  case stays => exact bcadd_stays h rfl rfl hfree hone harm (mt (reached_iff _ _).mp hmiss)
  case go =>
    rw [if_pos ((reached_iff _ _).mpr hhit)]
    exact h.prefDone_set ..
  case halt =>
    rw [if_neg (mt (reached_iff _ _).mp hmiss)]
    exact ⟨fun q => { q with st := .barrier }, rfl, rfl⟩

end Sys2Proof.Machine
end

section
/-! SUPPORT. Packets that a device sends, forwards and admits (R147, R148, R152 to R154, R156, R157, R159, R352). -/

namespace Sys2Proof.Machine
-- One declaration after the other: in parallel, the threads' stacks pass the check's memory limit.
set_option Elab.async false
open Sys2Proof.Claims

/-! ## Packets sent (R148, R157) -/

theorem sendMin_eq_sent (s : State) (p : Packet) : sendMin s p = sent s p := by
  rw [sendMin, sent]
  cases minPort s p.dst p.pa <;> rfl

theorem respond_eq_sent (s : State) (p : Packet) (st : Nat) (d : List Byte) : respond s p st d = sent s (answer s p st d) := sendMin_eq_sent ..

/-- Each row of a packet takes it under the row's code. -/
theorem exec_packetRow {i : Instr} {c : Nat} (h : (i, c) ∈ packetRows) (s : State) : exec i s = .next (arrive s { came s with code := c }) := by
  simp only [packetRows, List.mem_cons, List.not_mem_nil, or_false, Prod.mk.injEq] at h
  rcases h with ⟨rfl, rfl⟩ | ⟨rfl, rfl⟩ | ⟨rfl, rfl⟩ | ⟨rfl, rfl⟩ | ⟨rfl, rfl⟩ | ⟨rfl, rfl⟩ | ⟨rfl, rfl⟩ | ⟨rfl, rfl⟩ | ⟨rfl, rfl⟩ | ⟨rfl, rfl⟩ |
    ⟨rfl, rfl⟩ | ⟨rfl, rfl⟩ | ⟨rfl, rfl⟩
  all_goals rfl

/-! ## Packets for another device (R147, R152, R156) -/

section
variable {s : State} {p : Packet}

theorem arrive_routed (hdst : p.dst ≠ ownDev s) (hport : minPort s p.dst p.pa ≠ none) : arrive s p = sent s p := by
  rw [arrive, if_pos hdst, forward, if_neg (by rwa [Option.isNone_iff_eq_none]), sendMin_eq_sent]

theorem arrive_noRoute (hdst : p.dst ≠ ownDev s) (hport : minPort s p.dst p.pa = none) : arrive s p = noRoute s p := by
  rw [arrive, if_pos hdst, forward, if_pos (Option.isNone_iff_eq_none.mpr hport)]

theorem noRoute_lost (h : p.code = 8 ∨ p.code = 18 ∨ p.code = 19) : noRoute s p = s := if_pos h

theorem noRoute_unreachable (hsrc : p.src ≠ ownDev s) (h : p.code ∉ [1, 8, 18, 19]) : noRoute s p = sent s (answer s p 3 []) := by
  simp only [List.mem_cons, List.not_mem_nil, or_false, not_or] at h
  obtain ⟨h1, h8, h18, h19⟩ := h
  rw [noRoute, if_neg (by simp [h8, h18, h19]), if_neg hsrc, if_neg h1, respond_eq_sent]

/-- An ordered store is answered for each of its members. -/
theorem noRoute_ordered {rank tag gen : Nat} (hsrc : p.src ≠ ownDev s) (hcode : p.code = 1) (htags : p.tags = [(rank, tag, gen)]) :
    noRoute s p = sent s (answer s { p with rank, tag, gen } 3 []) := by
  rw [noRoute, if_neg (by simp [hcode]), if_neg hsrc, if_pos hcode, htags, List.foldl_cons, List.foldl_nil, respond_eq_sent]

end

/-! ## Packets at their target -/

section
variable {s : State} (hown : (came s).dst = ownDev s)
include hown

theorem mcw_own : exec .mcw s = .next (copyIn s { came s with code := 0 }) := congrArg Host.Outcome.next (if_neg (not_not.mpr hown))
theorem mco_own : exec .mco s = .next (copyIn s { came s with code := 1 }) := congrArg Host.Outcome.next (if_neg (not_not.mpr hown))
theorem rdn_own : exec .rdn s = .next (rdnIn s { came s with code := 2 }) := congrArg Host.Outcome.next (if_neg (not_not.mpr hown))
theorem llq_own : exec .llq s = .next (llqIn s { came s with code := 3 }) := congrArg Host.Outcome.next (if_neg (not_not.mpr hown))
theorem scq_own : exec .scq s = .next (scqIn s { came s with code := 4 }) := congrArg Host.Outcome.next (if_neg (not_not.mpr hown))
theorem ctb_own : exec .ctb s = .next (ctbIn s { came s with code := 5 }) := congrArg Host.Outcome.next (if_neg (not_not.mpr hown))
theorem crs_own : exec .crs s = .next (deliveryIn s { came s with code := 6 }) := congrArg Host.Outcome.next (if_neg (not_not.mpr hown))
theorem spk_own : exec .spk s = .next (deliveryIn s { came s with code := 7 }) := congrArg Host.Outcome.next (if_neg (not_not.mpr hown))
theorem readRequest_own : exec .ualinkReadRequest s = .next (readIn s { came s with code := 16 }) := congrArg Host.Outcome.next (if_neg (not_not.mpr hown))
theorem writeRequest_own : exec .ualinkWriteRequest s = .next (writeIn s { came s with code := 17 }) := congrArg Host.Outcome.next (if_neg (not_not.mpr hown))
theorem podResponse_own : exec .podResponse s = .next (responseIn s { came s with code := 18 }) := congrArg Host.Outcome.next (if_neg (not_not.mpr hown))

end

/-! ## Admission (R154) -/

/-- The rights that each kind of request needs of a range, as bits of its register. -/
def Need.bits : Need → List Nat
  | .rd => [1]
  | .w => [2]
  | .all => [1, 2, 3]

/-- Range i names a frame in a domain, as the device tests it. -/
def namesFrame (s : State) (d pa i : Nat) : Bool :=
  bit 0 (sysGet s (srExportA + i)) && d != 0 && bits 63 48 (sysGet s (srExportB + i)) == d &&
    decide (bits 38 16 (sysGet s (srExportA + i)) ≤ pa / 2 ^ 16) && decide (pa / 2 ^ 16 ≤ bits 38 16 (sysGet s (srExportB + i)))

theorem namesFrame_iff (s : State) (d pa i : Nat) : namesFrame s d pa i = true ↔ Names s d pa i := by
  have hA : bits 38 16 (sysGet s (srExportA + i)) = ((sysGet s (0x180 + i)).extractLsb' 16 23).toNat := bits_eq_toNat_extractLsb' 16 23 _ (by decide)
  have hB : bits 38 16 (sysGet s (srExportB + i)) = ((sysGet s (0x1C0 + i)).extractLsb' 16 23).toNat := bits_eq_toNat_extractLsb' 16 23 _ (by decide)
  have hD : bits 63 48 (sysGet s (srExportB + i)) = ((sysGet s (0x1C0 + i)).extractLsb' 48 16).toNat := bits_eq_toNat_extractLsb' 48 16 _ (by decide)
  simp only [namesFrame, hA, hB, hD, Bool.and_eq_true, bne_iff_ne, beq_iff_eq, decide_eq_true_eq, and_assoc]
  rfl

/-- The rights of a range, as the device tests them. -/
def grants (a : W64) : Need → Bool
  | .rd => bit 1 a
  | .w => bit 2 a
  | .all => bit 1 a && bit 2 a && bit 3 a

theorem grants_iff (a : W64) (need : Need) : grants a need = true ↔ ∀ r ∈ need.bits, a.getLsbD r = true := by
  cases need <;> simp [grants, Need.bits, bit, and_assoc]

theorem admission_eq (s : State) (d pa : Nat) (need : Need) : admission s d pa need =
    ((List.range 64).find? (namesFrame s d pa)).bind (fun i =>
      if grants (sysGet s (srExportA + i)) need && !reservedFrame s pa 1 then some (Machine.bits 15 10 (sysGet s (srExportA + i))) else none) := by
  have hhit : admission s d pa need = match (List.range 64).find? (namesFrame s d pa) with
    | none => none
    | some i => if grants (sysGet s (srExportA + i)) need && !reservedFrame s pa 1 then some (Machine.bits 15 10 (sysGet s (srExportA + i))) else none := by
    cases need <;> rfl
  rw [hhit]
  cases (List.range 64).find? (namesFrame s d pa) <;> rfl

/-- The device admits exactly what the first range that names the frame lets in. -/
theorem admission_eq_some_iff (s : State) (p : Packet) (need : Need) (ten : Nat) :
    admission s p.domain p.pa need = some ten ↔ Admits s p need.bits ten := by
  have htenant (i : Nat) : Machine.bits 15 10 (sysGet s (srExportA + i)) = ((sysGet s (0x180 + i)).extractLsb' 10 6).toNat :=
    bits_eq_toNat_extractLsb' 10 6 _ (by decide)
  rw [admission_eq, Option.bind_eq_some_iff]
  refine exists_congr (fun i => ?_)
  rw [List.find?_range_eq_some, namesFrame_iff, List.mem_range, htenant, Option.ite_none_right_eq_some, Bool.and_eq_true, grants_iff, Bool.not_eq_true',
    Option.some.injEq]
  have hfirst : (∀ j < i, (!namesFrame s p.domain p.pa j) = true) ↔ ∀ j < i, ¬ Names s p.domain p.pa j := by
    simp only [Bool.not_eq_true', Bool.eq_false_iff, ne_eq, namesFrame_iff]
  rw [hfirst]
  constructor
  · rintro ⟨⟨hnames, hlt, hmin⟩, ⟨hrights, hfree⟩, rfl⟩
    exact ⟨hlt, hnames, hmin, hrights, hfree, rfl⟩
  · rintro ⟨hlt, hnames, hmin, hrights, hfree, rfl⟩
    exact ⟨⟨hnames, hlt, hmin⟩, ⟨hrights, hfree⟩, rfl⟩

theorem admission_none {s : State} {p : Packet} {need : Need} (h : ∀ ten, ¬ Admits s p need.bits ten) : admission s p.domain p.pa need = none :=
  Option.eq_none_iff_forall_ne_some.mpr (fun ten => mt (admission_eq_some_iff s p need ten).mp (h ten))

section
variable {s : State} {p : Packet} {need : Need} (k : Nat → State)

theorem admitted_admits {ten : Nat} (h : Admits s p need.bits ten) : admitted s p need k = k ten := by
  rw [admitted, (admission_eq_some_iff s p need ten).mpr h]

theorem admitted_refused (h : ∀ ten, ¬ Admits s p need.bits ten) : admitted s p need k = sent s (answer s p 1 []) := by
  rw [admitted, admission_none h, respond_eq_sent]

end

/-! ## Requests that queue at their home slice (R152, R154, R159) -/

theorem podReq_eq_queued (s : State) {p : Packet} (hcode : p.code < 18) (ten : Nat) (k : L2Kind) : podReq s p ten k = queued s p ten k := by
  have hdie : 64 * homeDie p.pa / 64 = homeDie p.pa := Nat.mul_div_cancel_left _ (by decide)
  have hchecked : (!((p.code == 16 || p.code == 17) && p.op == 1)) = decide (p.op ≠ 1 ∨ p.code < 16) := by
    rw [Bool.eq_iff_iff]
    simp only [Bool.not_eq_true', Bool.and_eq_false_iff, Bool.or_eq_false_iff, beq_eq_false_iff_ne, decide_eq_true_eq]
    omega
  rw [podReq, queued, postReq, mkReq]
  dsimp only
  rw [hdie, hchecked]

theorem cellsAt_eq_zipIdx (pa : Nat) (b : List Byte) : cellsAt pa b = b.zipIdx.map (fun x => (pa + x.2, x.1)) := by
  refine List.ext_getElem (by simp [cellsAt]) (fun i h1 h2 => ?_)
  have hi : i < b.length := by simpa [cellsAt] using h1
  simp [cellsAt, hi]

/-- The requests of Table 5.9 that queue at their home slice, with the rights that they need. -/
def requestRows (p : Packet) : List (Instr × Nat × List Nat × L2Kind) :=
  [(.ualinkReadRequest, 16, [1], .read p.n), (.ualinkWriteRequest, 17, [2], .write ((p.data.take p.n).zipIdx.map (fun x => (p.pa + x.2, x.1)))),
    (.llq, 3, [1, 2, 3], .ll (2 ^ 64 * (p.src + 1) + p.lane) p.n), (.scq, 4, [1, 2, 3], .sc (2 ^ 64 * (p.src + 1) + p.lane) (p.data.take p.n))] ++
    (if 32 ≤ p.op then [] else [(.rdn, 2, [1, 2, 3], .atom p.op p.n p.data false)])

theorem exec_requestRow {s : State} (hown : (came s).dst = ownDev s) {i : Instr} {c : Nat} {rights : List Nat} {k : L2Kind}
    (h : (i, c, rights, k) ∈ requestRows (came s)) : ∃ need : Need, rights = need.bits ∧ c < 18 ∧
      exec i s = .next (admitted s { came s with code := c } need (fun ten => podReq s { came s with code := c } ten k)) := by
  simp only [requestRows, List.mem_append, List.mem_cons, List.not_mem_nil, or_false, Prod.mk.injEq, List.mem_ite_nil_left] at h
  rcases h with (⟨rfl, rfl, rfl, rfl⟩ | ⟨rfl, rfl, rfl, rfl⟩ | ⟨rfl, rfl, rfl, rfl⟩ | ⟨rfl, rfl, rfl, rfl⟩) | ⟨hop, rfl, rfl, rfl, rfl⟩
  · exact ⟨.rd, rfl, by decide, readRequest_own hown⟩
  · refine ⟨.w, rfl, by decide, ?_⟩
    rw [← cellsAt_eq_zipIdx]
    exact writeRequest_own hown
  · exact ⟨.all, rfl, by decide, llq_own hown⟩
  · exact ⟨.all, rfl, by decide, scq_own hown⟩
  · exact ⟨.all, rfl, by decide, (rdn_own hown).trans (congrArg _ (if_neg hop))⟩

theorem request_queues {s : State} (hown : (came s).dst = ownDev s) {i : Instr} {c : Nat} {rights : List Nat} {k : L2Kind}
    (h : (i, c, rights, k) ∈ requestRows (came s)) {ten : Nat} (hadm : Admits s (came s) rights ten) :
    Does i s (queued s { came s with code := c } ten k) := by
  obtain ⟨need, rfl, hc, he⟩ := exec_requestRow hown h
  exact he.trans (congrArg _ ((admitted_admits (p := { came s with code := c }) _ hadm).trans (podReq_eq_queued s hc ten k)))

theorem request_refused {s : State} (hown : (came s).dst = ownDev s) {i : Instr} {c : Nat} {rights : List Nat} {k : L2Kind}
    (h : (i, c, rights, k) ∈ requestRows (came s)) (hadm : ∀ ten, ¬ Admits s (came s) rights ten) :
    Does i s (sent s (answer s { came s with code := c } 1 [])) := by
  obtain ⟨need, rfl, -, he⟩ := exec_requestRow hown h
  exact he.trans (congrArg _ (admitted_refused (p := { came s with code := c }) _ hadm))

end Sys2Proof.Machine
end

section
/-! SUPPORT. Stores that the fabric makes at this device, event operations and multicast copies (R128, R154, R159, R163 to R166, R352; log
entries 27, 119 and 121). -/

namespace Sys2Proof.Machine
-- One declaration after the other: in parallel, the threads' stacks pass the check's memory limit.
set_option Elab.async false
open Sys2Proof.Claims

/-! ## What a store at its home slices changes (R64, R132, R253) -/

/-- Home slices' lines are tags of the L2 alone. -/
theorem l2HomeLine_l2 (s : State) (line : Nat) (sec : BitVec 4) (tenant cls : Nat) (write : Bool) :
    ∃ l, l2HomeLine s line sec tenant cls write = { s with l2 := l } := by
  unfold l2HomeLine
  extract_lets sl
  match l2Find s sl line false true 0 with
  | some x => exact ⟨_, rfl⟩
  | none =>
    dsimp only
    split
    · exact ⟨s.l2, rfl⟩
    · unfold l2Fill
      extract_lets ls u cand free way
      clear_value cand free
      match way with
      | none => exact ⟨_, rfl⟩
      | some w => exact ⟨_, rfl⟩

theorem l2Home_l2 (s : State) (pa n tenant cls : Nat) (write : Bool) : ∃ l, l2Home s pa n tenant cls write = { s with l2 := l } := by
  rw [l2Home]
  generalize linesOf pa n = lines
  induction lines generalizing s with
  | nil => exact ⟨s.l2, rfl⟩
  | cons a lines ih =>
    obtain ⟨l, hl⟩ := l2HomeLine_l2 s a (sectorsOf a pa n) tenant cls write
    obtain ⟨l', hl'⟩ := ih { s with l2 := l }
    exact ⟨l', by rw [List.foldl_cons, hl, hl']⟩

theorem performStore_frame (s : State) (pa : Nat) (b : List Byte) (tenant cls : Nat) : ∃ l, performStore s pa b tenant cls = { s with
    mem := msetAll s.mem pa b, resvs := s.resvs.filter (fun r => !overlaps pa b.length (32 * r.sector) 32), l2 := l
    poison := s.poison.filter (fun p => !(decide (pa ≤ 32 * p) && decide (32 * p + 32 ≤ pa + b.length))) } :=
  l2Home_l2 (unpoison (homeStore s pa b) pa b.length) ..

/-- Requests that are counted change the token buckets alone (R71). -/
theorem spends_buckets (ten : Nat) (lines : List Nat) (s : State) : ∃ b, lines.foldl (fun s a => spend s (homeSlice a) ten) s = { s with buckets := b } := by
  induction lines generalizing s with
  | nil => exact ⟨s.buckets, rfl⟩
  | cons a lines ih =>
    obtain ⟨b, hb⟩ := ih (spend s (homeSlice a) ten)
    exact ⟨b, by rw [List.foldl_cons, hb]; rfl⟩

/-- A store of the device's own fabric side. -/
theorem devStore_stored (s : State) (ten a : Nat) (b : List Byte) : StoredAt s (devStore s ten a b) a b := by
  obtain ⟨k, hk⟩ := spends_buckets ten (linesOf a b.length) s
  obtain ⟨l, hl⟩ := performStore_frame { s with buckets := k } a b ten 0
  rw [devStore, hk, hl]
  refine ⟨fun r => ?_, fun r => ?_, rfl⟩
  · show r ∈ s.resvs.filter _ ↔ _
    rw [List.mem_filter, Bool.not_eq_true', ← Bool.not_eq_true, overlaps_iff]
    simp only [show 0 < 32 by decide, true_and]
  · show r ∈ s.poison.filter _ ↔ _
    rw [List.mem_filter, Bool.not_eq_true', ← Bool.not_eq_true, Bool.and_eq_true, decide_eq_true_eq, decide_eq_true_eq]

/-- What StoredAt says of a machine does not depend on the packets that the fabric holds. -/
theorem storedAt_fab {s t : State} {a : Nat} {b : List Byte} (h : StoredAt s t a b) (F : Fabric) : StoredAt { s with fab := F } { t with fab := F } a b := by
  obtain ⟨hresvs, hpoison, hframe⟩ := h
  exact ⟨hresvs, hpoison, congrArg (fun x : State => { x with fab := F }) hframe⟩

/-! ## Event operations (R352) -/

/-- The parts that an event operation's drop of read-side copies leaves as they were. -/
def SameOutsideCaches (s u : State) : Prop := u.mem = s.mem ∧ u.queues = s.queues ∧ u.teams = s.teams ∧ u.fab = s.fab ∧ u.sys = s.sys

theorem remoteDrop_keeps {x s : State} (h : SameOutsideCaches x s) (pa : Nat) : SameOutsideCaches x (remoteDrop s pa) := by
  generalize hf : remoteDrop = f
  delta remoteDrop at hf
  subst hf
  beta_reduce
  extract_lets die sl u
  have hu : SameOutsideCaches x u := h
  clear_value u
  split
  · exact hu
  · split
    · exact hu
    · split <;> exact hu

/-- A queue whose WAIT entry names the sector reads it again. -/
def rechecked (pa : Nat) (q : Queue) : Queue :=
  { q with recheck := q.recheck || (match q.waitPa with | some a => a / 32 == pa / 32 | none => false) }

/-- A map of each value that keeps the default maps what every key reads. -/
theorem tget_map {α : Type} (d : α) (f : α → α) (hd : f d = d) (k : Nat) (t : Tbl α) :
    tget d k (t.map (fun p => (p.1, f p.2))) = f (tget d k t) := by
  rw [tget_eq_tfind, tget_eq_tfind, tfind_map (fun _ => f)]
  cases tfind k t with
  | none => exact hd.symm
  | some x => rfl

/-- Each queue is rechecked as an event operation writes the sector of its WAIT entry. -/
theorem recheck_queues (pa : Nat) (l : Tbl Queue) : l.map (fun p => match p.2.waitPa with
    | some w => if w / 32 = pa / 32 then (p.1, { p.2 with recheck := true }) else p
    | none => p) = l.map (fun p => (p.1, rechecked pa p.2)) := by
  refine List.map_congr_left (fun p _ => ?_)
  obtain ⟨k, q⟩ := p
  unfold rechecked
  cases hw : q.waitPa with
  | none =>
    simp only [Bool.or_false]
    rw [← hw]
  | some w =>
    by_cases hs : w / 32 = pa / 32
    · simp only [hs, if_true, beq_self_eq_true, Bool.or_true]
      rw [← hw]
    · simp only [hs, if_false, beq_eq_false_iff_ne.mpr hs, Bool.or_false]
      rw [← hw]

/-- What an event operation leaves of the machine. -/
def EventStores (s u : State) (pa : Nat) (v : W64) : Prop :=
  u.mem = msetAll s.mem pa (bytesLE 8 v.toNat) ∧ (∀ q, queueOf u q = rechecked pa (queueOf s q)) ∧ u.teams = s.teams ∧ u.fab = s.fab ∧ u.sys = s.sys

/-- The store of an event operation, made where the queues are rechecked. -/
theorem eventStore_stores {s u : State} (hu : SameOutsideCaches s u) (pa ten : Nat) (v : W64) :
    EventStores s (performStore (spend { u with queues := u.queues.map (fun p => (p.1, rechecked pa p.2)) } (homeSlice pa) ten) pa (bytesLE 8 v.toNat) ten 3)
      pa v := by
  obtain ⟨hmem, hqueues, hteams, hfab, hsys⟩ := hu
  obtain ⟨l, hl⟩ := performStore_frame (spend { u with queues := u.queues.map (fun p => (p.1, rechecked pa p.2)) } (homeSlice pa) ten) pa
    (bytesLE 8 v.toNat) ten 3
  rw [hl]
  refine ⟨congrArg (msetAll · pa (bytesLE 8 v.toNat)) hmem, fun q => ?_, hteams, hfab, hsys⟩
  show tget ({} : Queue) q (u.queues.map (fun p => (p.1, rechecked pa p.2))) = _
  rw [hqueues]
  exact tget_map {} (rechecked pa) rfl q s.queues

/-- An event operation, over what an atomic one drops first: the caches' state stays opaque to the proofs about it. -/
def eventBy (drop : State → Nat → State) (s : State) (pa ten : Nat) (add : Bool) (v : W64) : State :=
  let x := mem64 s pa
  let s := if add then drop s pa else s
  let s := { s with queues := s.queues.map (fun p => match p.2.waitPa with
    | some w => if w / 32 = pa / 32 then (p.1, { p.2 with recheck := true }) else p
    | none => p) }
  performStore (spend s (homeSlice pa) ten) pa (bytesLE 8 (if add then x + v else v).toNat) ten 3

theorem eventOp_eq_eventBy : eventOp = eventBy remoteDrop := rfl

theorem eventBy_stores {drop : State → Nat → State} (hdrop : ∀ s pa, SameOutsideCaches s (drop s pa)) (s : State) (pa ten : Nat) (add : Bool) (v : W64) :
    EventStores s (eventBy drop s pa ten add v) pa (if add then mem64 s pa + v else v) := by
  have hu : SameOutsideCaches s (if add then drop s pa else s) := by
    split
    · exact hdrop s pa
    · exact ⟨rfl, rfl, rfl, rfl, rfl⟩
  unfold eventBy
  extract_lets x u w
  have hw : w = { u with queues := u.queues.map (fun p => (p.1, rechecked pa p.2)) } := congrArg (fun q => { u with queues := q }) (recheck_queues pa u.queues)
  rw [hw]
  exact eventStore_stores hu pa ten _

theorem eventOp_stores (s : State) (pa ten : Nat) (add : Bool) (v : W64) :
    EventStores s (eventOp s pa ten add v) pa (if add then mem64 s pa + v else v) := by
  rw [eventOp_eq_eventBy]
  exact eventBy_stores (fun _ pa => remoteDrop_keeps ⟨rfl, rfl, rfl, rfl, rfl⟩ pa) s pa ten add v

end Sys2Proof.Machine
end

section
/-! SUPPORT. Event operations and multicast copies that arrive at this device (R94, R128, R164, R165, R352; log entries 27, 119 and
121). -/

namespace Sys2Proof.Machine
-- One declaration after the other: in parallel, the threads' stacks pass the check's memory limit.
set_option Elab.async false
open Sys2Proof.Claims

/-! ## Event operations of other devices (R94, R352) -/

/-- What an event operation needs of the range that admits it: one that adds also reads. -/
def eventNeed (op : Nat) : Need := if op % 2 == 1 then .all else .w

theorem eventNeed_bits (op : Nat) : (eventNeed op).bits = if op % 2 = 0 then [2] else [1, 2, 3] := by
  rcases Nat.mod_two_eq_zero_or_one op with h | h <;> simp [eventNeed, h, Need.bits]

section
variable {s : State} (hown : (came s).dst = ownDev s) (hop : 32 ≤ (came s).op)
include hown hop

theorem exec_eventOp : exec .rdn s = .next (admitted s { came s with code := 2 } (eventNeed (came s).op) (fun ten =>
    if 34 ≤ (came s).op && lockBlocks s (came s).pa 8 true then respond s { came s with code := 2 } 4 []
    else respond (eventOp s (came s).pa ten ((came s).op % 2 == 1) (BitVec.ofNat 64 (natAt (came s).data 0 8))) { came s with code := 2 } 0 [])) :=
  (rdn_own hown).trans (congrArg _ (if_pos hop))

theorem eventOp_refused (hadm : ∀ ten, ¬ Admits s (came s) (eventNeed (came s).op).bits ten) :
    Does .rdn s (sent s (answer s { came s with code := 2 } 1 [])) :=
  (exec_eventOp hown hop).trans (congrArg _ (admitted_refused (p := { came s with code := 2 }) _ hadm))

section
variable {ten : Nat} (hadm : Admits s (came s) (eventNeed (came s).op).bits ten)
include hadm

theorem eventOp_locked (hprefect : 34 ≤ (came s).op) (hlock : lockBlocks s (came s).pa 8 true = true) :
    Does .rdn s (sent s (answer s { came s with code := 2 } 4 [])) := by
  refine (exec_eventOp hown hop).trans (congrArg _ ((admitted_admits (p := { came s with code := 2 }) _ hadm).trans ?_))
  rw [if_pos (by simp [hprefect, hlock]), respond_eq_sent]

theorem eventOp_performed (hfree : ¬ (34 ≤ (came s).op ∧ lockBlocks s (came s).pa 8 true = true)) :
    let v := BitVec.ofNat 64 (natAt (came s).data 0 8)
    ∃ w, Does .rdn s (sent w (answer s { came s with code := 2 } 0 [])) ∧
      EventStores s w (came s).pa (if (came s).op % 2 = 1 then mem64 s (came s).pa + v else v) := by
  intro v
  have hw := eventOp_stores s (came s).pa ten ((came s).op % 2 == 1) v
  refine ⟨eventOp s (came s).pa ten ((came s).op % 2 == 1) v, ?_, by simpa only [beq_iff_eq] using hw⟩
  obtain ⟨-, -, -, -, hsys⟩ := hw
  refine (exec_eventOp hown hop).trans (congrArg _ ((admitted_admits (p := { came s with code := 2 }) _ hadm).trans ?_))
  have hdev : ownDev (eventOp s (came s).pa ten ((came s).op % 2 == 1) v) = ownDev s := by rw [ownDev, ownDev, sysGet_congr hsys]
  rw [if_neg (by simpa [Bool.and_eq_true] using hfree), respond_eq_sent, answer, hdev]
  rfl

end
end

end Sys2Proof.Machine
end

section
/-! SUPPORT. Multicast copies that arrive at this device: their turn, and what performing one does (R94, R128, R163 to R166; log
entries 27, 119 and 121). -/

namespace Sys2Proof.Machine
-- One declaration after the other: in parallel, the threads' stacks pass the check's memory limit.
set_option Elab.async false
open Sys2Proof.Claims

/-! ## The copies held, and the numbers expected -/

/-- The state with these copies held and these sequence numbers expected (R164). -/
def withTurns (H : List Packet) (S : Tbl Nat) (s : State) : State := { s with fab := { s.fab with held := H, seqFrom := S } }

/-- The state as copy p joins the copies held. -/
def holding (s : State) (p : Packet) : State := { s with fab := { s.fab with held := s.fab.held ++ [p] } }

/-- The state as a copy's turn has passed: its source's next number is expected. -/
def turnPassed (s : State) (src : Nat) : State :=
  { s with fab := { s.fab with seqFrom := tset 0 src (tget 0 src s.fab.seqFrom + 1) s.fab.seqFrom } }

/-- Copy p is the one expected of its source, and nothing that is held follows it. -/
def TakesTurn (s : State) (p : Packet) : Prop :=
  p.seq = tget 0 p.src s.fab.seqFrom ∧
    ∀ h ∈ s.fab.held, h.src = p.src → h.seq ≠ tget 0 p.src s.fab.seqFrom ∧ h.seq ≠ tget 0 p.src s.fab.seqFrom + 1

section
variable (H : List Packet) (S : Tbl Nat) (s : State)

theorem setHints_withTurns : setHints (withTurns H S s) = withTurns H S (setHints s) := by
  rw [setHints, setHints, apply_ite (withTurns H S)]
  rfl

theorem joins_withTurns (p : Packet) : joins (withTurns H S s) p = withTurns H S (joins s p) :=
  setHints_withTurns H S { s with fab := { s.fab with outbox := markHeads (nsOf s) (s.fab.outbox ++ [p]) [] } }

theorem sent_withTurns (p : Packet) : sent (withTurns H S s) p = withTurns H S (sent s p) := by
  have hport : minPort (withTurns H S s) p.dst p.pa = minPort s p.dst p.pa := rfl
  rw [sent, sent, hport]
  cases minPort s p.dst p.pa with
  | none => rfl
  | some k => exact joins_withTurns ..

theorem updBar_withTurns (cl k : Nat) (f : BcBar → BcBar) : updBar (withTurns H S s) cl k f = withTurns H S (updBar s cl k f) := rfl

theorem barClaim_withTurns (cl k ten : Nat) : barClaim (withTurns H S s) cl k ten = withTurns H S (barClaim s cl k ten) := by
  rw [barClaim, barClaim, apply_ite (withTurns H S)]
  rfl

theorem poolWrite_withTurns (us : List Nat) (b : List Byte) : poolWrite (withTurns H S s) us b = withTurns H S (poolWrite s us b) := by
  induction us generalizing s b with
  | nil => rfl
  | cons u us ih =>
    rw [poolWrite, poolWrite, apply_ite (withTurns H S), ← ih]
    rfl

theorem poolRead_withTurns (us : List Nat) (n : Nat) : poolRead (withTurns H S s) us n = poolRead s us n := by
  induction us generalizing n with
  | nil => rfl
  | cons u us ih =>
    rw [poolRead, poolRead, ih]
    rfl

theorem tagSet_withTurns (core bit tid : Nat) : tagSet (withTurns H S s) core bit tid = withTurns H S (tagSet s core bit tid) := by
  have himage : imageOfTeam (withTurns H S s) tid = imageOfTeam s tid := rfl
  rw [tagSet, tagSet, himage]
  cases imageOfTeam s tid with
  | none => rfl
  | some us =>
    dsimp only
    rw [imageEdit, imageEdit, poolRead_withTurns, poolWrite_withTurns]
    rfl

theorem barFire_withTurns (cl k : Nat) : barFire (withTurns H S s) cl k = withTurns H S (barFire s cl k) := by
  have hbar : barOf (withTurns H S s) cl k = barOf s cl k := rfl
  rw [barFire, barFire, hbar]
  cases (barOf s cl k).arm with
  | none => rfl
  | some a =>
    dsimp only
    rw [apply_ite (withTurns H S), updBar_withTurns, tagSet_withTurns]

theorem barAdd_withTurns (cl k n ten : Nat) : barAdd (withTurns H S s) cl k n ten = (barAdd s cl k n ten).map (withTurns H S) := by
  have hok : barOk (withTurns H S s) cl k ten = barOk s cl k ten := rfl
  rw [barAdd, barAdd, hok, apply_ite (Option.map (withTurns H S)), barClaim_withTurns]
  dsimp only
  rw [updBar_withTurns, barFire_withTurns]
  rfl

end

/-! ## A copy's turn (R164) -/

section
variable {s : State} {p : Packet}

/-- Of the copies held behind one another, the first of a source with a number is p, where none held before it has it. -/
theorem find_holding {n : Nat} (h : ∀ x ∈ s.fab.held, x.src = p.src → x.seq ≠ n) :
    (holding s p).fab.held.find? (fun x => x.src == p.src && x.seq == n) = if p.seq = n then some p else none := by
  have hnone : s.fab.held.find? (fun x => x.src == p.src && x.seq == n) = none := by
    rw [List.find?_eq_none]
    intro x hx hmatch
    rw [Bool.and_eq_true, beq_iff_eq, beq_iff_eq] at hmatch
    exact h x hx hmatch.1 hmatch.2
  show (s.fab.held ++ [p]).find? _ = _
  rw [List.find?_append, hnone, Option.none_or]
  by_cases hp : p.seq = n <;> simp [hp]

/-- A copy before whose turn others are missing is held. -/
theorem copyIn_early (h : ∀ x ∈ s.fab.held, x.src = p.src → x.seq ≠ tget 0 p.src s.fab.seqFrom) (hseq : p.seq ≠ tget 0 p.src s.fab.seqFrom) :
    copyIn s p = holding s p := by
  show copyNext (s.fab.held ++ [p]).length (holding s p) p.src = _
  rw [List.length_append, List.length_singleton, copyNext]
  dsimp only
  rw [show (holding s p).fab.seqFrom = s.fab.seqFrom from rfl, find_holding h, if_neg hseq]

section
variable (hturn : TakesTurn s p)
include hturn

/-- A copy that has to wait in its turn is held. -/
theorem copyIn_waits (hdo : copyDo (holding s p) p = none) : copyIn s p = holding s p := by
  obtain ⟨hseq, hheld⟩ := hturn
  show copyNext (s.fab.held ++ [p]).length (holding s p) p.src = _
  rw [List.length_append, List.length_singleton, copyNext]
  dsimp only
  rw [show (holding s p).fab.seqFrom = s.fab.seqFrom from rfl, find_holding (fun x hx hsrc => (hheld x hx hsrc).1), if_pos hseq]
  dsimp only
  rw [hdo]

theorem copyIn_performed {t : State} (hdo : copyDo (holding s p) p = some t) (hhold : t.fab.held = s.fab.held ++ [p])
    (hfrom : t.fab.seqFrom = s.fab.seqFrom) :
    copyIn s p = withTurns s.fab.held (tset 0 p.src (tget 0 p.src s.fab.seqFrom + 1) s.fab.seqFrom) t := by
  obtain ⟨hseq, hheld⟩ := hturn
  have herase : t.fab.held.erase p = s.fab.held := by
    rw [hhold, List.erase_append_right _ (fun hp => (hheld p hp rfl).1 hseq)]
    simp
  show copyNext (s.fab.held ++ [p]).length (holding s p) p.src = _
  rw [List.length_append, List.length_singleton, copyNext]
  dsimp only
  rw [show (holding s p).fab.seqFrom = s.fab.seqFrom from rfl, find_holding (fun x hx hsrc => (hheld x hx hsrc).1), if_pos hseq]
  dsimp only
  rw [hdo]
  dsimp only
  rw [herase, hfrom]
  cases s.fab.held.length with
  | zero => rfl
  | succ k =>
    have hnext : s.fab.held.find? (fun x => x.src == p.src && x.seq == tget 0 p.src s.fab.seqFrom + 1) = none := by
      rw [List.find?_eq_none]
      intro x hx hmatch
      rw [Bool.and_eq_true, beq_iff_eq, beq_iff_eq] at hmatch
      exact (hheld x hx hmatch.1).2 hmatch.2
    rw [copyNext]
    dsimp only
    rw [tget_tset_same, hnext]
    rfl

theorem copyIn_sent {w : State} {a : Packet} (hdo : copyDo (holding s p) p = some (sent w a)) (hhold : w.fab.held = s.fab.held ++ [p])
    (hfrom : w.fab.seqFrom = s.fab.seqFrom) :
    copyIn s p = sent (withTurns s.fab.held (tset 0 p.src (tget 0 p.src s.fab.seqFrom + 1) s.fab.seqFrom) w) a := by
  have hsent : sent w a = withTurns w.fab.held w.fab.seqFrom (sent w a) := sent_withTurns w.fab.held w.fab.seqFrom w a
  rw [sent_withTurns]
  exact copyIn_performed hturn hdo ((congrArg (fun x => x.fab.held) hsent).trans hhold) ((congrArg (fun x => x.fab.seqFrom) hsent).trans hfrom)

/-- A copy that ends with an answer. -/
theorem copyIn_answered {w : State} {a : Packet} (hdo : copyDo (holding s p) p = some (sent w a)) (hfab : w.fab = (holding s p).fab) :
    copyIn s p = sent (withTurns s.fab.held (tset 0 p.src (tget 0 p.src s.fab.seqFrom + 1) s.fab.seqFrom) w) a :=
  copyIn_sent hturn hdo (by rw [hfab]; rfl) (by rw [hfab]; rfl)

end
end

end Sys2Proof.Machine
end

section
/-! SUPPORT. Multicast copies and ordered stores that arrive at this device, case by case (R94, R128, R164 to R166; log entries 27, 119
and 121). -/

namespace Sys2Proof.Machine
-- One declaration after the other: in parallel, the threads' stacks pass the check's memory limit.
set_option Elab.async false
open Sys2Proof.Claims

theorem answer_congr {s t : State} (h : t.sys = s.sys) (p : Packet) (st : Nat) (d : List Byte) : answer t p st d = answer s p st d := by
  rw [answer, answer, ownDev, ownDev, sysGet_congr h]

/-- A store or a count of the fabric's side touches neither the fabric nor the system registers. -/
theorem storedAt_keeps {s t : State} {a : Nat} {b : List Byte} (h : StoredAt s t a b) : t.fab = s.fab ∧ t.sys = s.sys := by
  obtain ⟨-, -, hframe⟩ := h
  rw [hframe]
  exact ⟨rfl, rfl⟩

theorem barAdd_keeps {s t : State} {cl k n ten : Nat} (h : barAdd s cl k n ten = some t) : t.fab = s.fab ∧ t.sys = s.sys := by
  have hframe := (barAdd_signals s cl k n ten).frame
  rw [h, Option.getD_some] at hframe
  rw [hframe]
  exact ⟨rfl, rfl⟩

theorem counts_keeps {s t : State} {lane n ten : Nat} (h : Counts s t lane n ten) : t.fab = s.fab ∧ t.sys = s.sys := by
  rw [Counts] at h
  split at h
  · exact h ▸ ⟨rfl, rfl⟩
  · exact barAdd_keeps h

theorem recvCount_counts {s t : State} {lane n ten : Nat} (h : Counts s t lane n ten) : recvCount s lane n ten = (true, t) := by
  rw [Counts] at h
  rw [recvCount]
  split at h
  · next hnone => rw [if_pos hnone, h]
  · next hsome => rw [if_neg hsome, h]

theorem recvCount_other {s : State} {lane n ten : Nat} (hbar : lane / 2 ^ 14 % 2 = 1)
    (h : barAdd s (lane % 64 + 64 * (lane / 64 % 2)) (lane / 2 ^ 8 % 64) n ten = none) : recvCount s lane n ten = (false, s) := by
  rw [recvCount, if_neg (by rw [hbar]; decide), h]

/-- A count made where the copies held are others is the same count. -/
theorem counts_withTurns {s w : State} {H : List Packet} {S : Tbl Nat} {lane n ten : Nat} (h : Counts (withTurns H S s) w lane n ten) :
    ∃ t, Counts s t lane n ten ∧ w = withTurns H S t := by
  rw [Counts] at h
  split at h
  · next hnone => exact ⟨s, by rw [Counts, if_pos hnone], h⟩
  · next hsome =>
    rw [barAdd_withTurns, Option.map_eq_some_iff] at h
    obtain ⟨t, ht, hw⟩ := h
    exact ⟨t, by rwa [Counts, if_neg hsome], hw.symm⟩

section
variable {s : State} {p : Packet}

/-- The next state as a copy's turn passes and the copies held are as before it came. -/
abbrev passed (s : State) (p : Packet) (t : State) : State :=
  withTurns s.fab.held (tset 0 p.src (tget 0 p.src s.fab.seqFrom + 1) s.fab.seqFrom) t

theorem copyLocked_false {pa : Nat} (h : p.op = 1 ∨ lockBlocks s pa p.data.length true = false) : copyLocked (holding s p) p pa = false := by
  have hlock : copyLocked (holding s p) p pa = (p.op != 1 && lockBlocks s pa p.data.length true) := rfl
  rw [hlock, Bool.and_eq_false_iff, bne_eq_false_iff_eq]
  exact h

theorem copyLocked_true {pa : Nat} (hop : p.op ≠ 1) (h : lockBlocks s pa p.data.length true = true) : copyLocked (holding s p) p pa = true := by
  have hlock : copyLocked (holding s p) p pa = (p.op != 1 && lockBlocks s pa p.data.length true) := rfl
  rw [hlock, h, Bool.and_true, bne_iff_ne]
  exact hop

/-! ## A copy performed at its member (R128, R154, R164) -/

section
variable {pa : Nat} (horigin : p.origin ≠ ownDev s + 1)
include horigin

theorem copyStore_refused (hadm : ∀ ten, ¬ Admits s { p with pa } [2] ten) : copyStore (holding s p) p pa = (1, holding s p) := by
  have hnone : copyTenant (holding s p) p pa = none := (if_neg horigin).trans (admission_none (p := { p with pa }) (need := .w) hadm)
  rw [copyStore, hnone]

theorem copyStore_admitted {ten : Nat} (hadm : Admits s { p with pa } [2] ten) : copyStore (holding s p) p pa =
    (if (recvCount (devStore (holding s p) ten pa p.data) p.lane p.data.length ten).1 then 0 else 1,
      (recvCount (devStore (holding s p) ten pa p.data) p.lane p.data.length ten).2) := by
  have hsome : copyTenant (holding s p) p pa = some ten := (if_neg horigin).trans ((admission_eq_some_iff s { p with pa } .w ten).mpr hadm)
  rw [copyStore, hsome]

end

/-- The copy's bytes at this device, its turn passed. -/
def copied (s : State) (p : Packet) (ten pa : Nat) : State := passed s p (devStore (holding s p) ten pa p.data)

theorem copied_stored (s : State) (p : Packet) (ten pa : Nat) : StoredAt (turnPassed s p.src) (copied s p ten pa) pa p.data := by
  have hfab : (devStore (holding s p) ten pa p.data).fab = (holding s p).fab := (storedAt_keeps (devStore_stored ..)).1
  have h := storedAt_fab (devStore_stored (holding s p) ten pa p.data) (turnPassed s p.src).fab
  rwa [show ({ devStore (holding s p) ten pa p.data with fab := (turnPassed s p.src).fab } : State) = copied s p ten pa by
    rw [copied, passed, withTurns, hfab]; rfl] at h

section
variable (hcode : p.code = 0)
include hcode

theorem copyDo_mcw (hfree : p.op = 1 ∨ lockBlocks s p.pa p.data.length true = false) : copyDo (holding s p) p =
    some (sent (copyStore (holding s p) p p.pa).2 (answer (copyStore (holding s p) p p.pa).2 p (copyStore (holding s p) p p.pa).1 [])) := by
  rw [copyDo, if_neg (by rw [hcode]; decide), if_neg (by rw [copyLocked_false hfree]; decide), ← respond_eq_sent]

section
variable (hturn : TakesTurn s p)
include hturn

theorem mcw_locked (hop : p.op ≠ 1) (hlock : lockBlocks s p.pa p.data.length true = true) : copyIn s p = holding s p :=
  copyIn_waits hturn (by rw [copyDo, if_neg (by rw [hcode]; decide), if_pos (copyLocked_true hop hlock)])

section
variable (hfree : p.op = 1 ∨ lockBlocks s p.pa p.data.length true = false) (horigin : p.origin ≠ ownDev s + 1)
include hfree horigin

theorem mcw_refused (hadm : ∀ ten, ¬ Admits s p [2] ten) : copyIn s p = sent (turnPassed s p.src) (answer s p 1 []) := by
  have hdo := copyDo_mcw hcode hfree
  rw [copyStore_refused horigin hadm] at hdo
  exact copyIn_answered (w := holding s p) (a := answer s p 1 []) hturn hdo rfl

variable {ten : Nat} (hadm : Admits s p [2] ten)
include hadm

theorem mcw_counted {w : State} (hcount : Counts (copied s p ten p.pa) w p.lane p.data.length ten) : copyIn s p = sent w (answer s p 0 []) := by
  obtain ⟨t, ht, rfl⟩ := counts_withTurns hcount
  obtain ⟨hsfab, hssys⟩ := storedAt_keeps (devStore_stored (holding s p) ten p.pa p.data)
  obtain ⟨hcfab, hcsys⟩ := counts_keeps ht
  have hdo := copyDo_mcw hcode hfree
  rw [copyStore_admitted horigin hadm, recvCount_counts ht] at hdo
  dsimp only at hdo
  rw [if_pos rfl, answer_congr (hcsys.trans hssys)] at hdo
  exact copyIn_answered hturn hdo (hcfab.trans hsfab)

theorem mcw_otherBarrier (hbar : p.lane / 2 ^ 14 % 2 = 1)
    (hnone : barAdd (copied s p ten p.pa) (p.lane % 64 + 64 * (p.lane / 64 % 2)) (p.lane / 2 ^ 8 % 64) p.data.length ten = none) :
    copyIn s p = sent (copied s p ten p.pa) (answer s p 1 []) := by
  obtain ⟨hsfab, hssys⟩ := storedAt_keeps (devStore_stored (holding s p) ten p.pa p.data)
  rw [copied, barAdd_withTurns, Option.map_eq_none_iff] at hnone
  have hdo := copyDo_mcw hcode hfree
  rw [copyStore_admitted horigin hadm, recvCount_other hbar hnone] at hdo
  dsimp only at hdo
  rw [if_neg Bool.false_ne_true, answer_congr hssys] at hdo
  exact copyIn_answered hturn hdo hsfab

end
end

end
end

/-! ## Ordered stores at their root (R165) -/

/-- The copy that the root of an ordered store makes for member m. -/
def relayCopy (s : State) (p : Packet) (m : Nat × Nat) (rank tag gen : Nat) : Packet :=
  { p with code := 0, src := ownDev s, dst := m.1, tag, gen, rank, pa := m.2 + p.pa, origin := p.src + 1, tags := [], via := 0, input := 33, headAt := none, blocked := false }

/-- The state as the root's copy q for its member has left, under the member's next number. -/
def relayed (s : State) (q : Packet) : State :=
  { s with fab := { s.fab with relays := s.fab.relays ++ [q], seqTo := tset 0 q.dst (q.seq + 1) s.fab.seqTo } }

/-- A root's copy under the next number of its member, at a port. -/
def numbered (s : State) (r : Packet) (k : Nat) : Packet := { r with seq := tget 0 r.dst s.fab.seqTo, port := k }

theorem joins_relayQ (s : State) (p : Packet) : (joins s p).fab.relayQ = s.fab.relayQ := by
  rw [joins, setQueues, setHints]
  split <;> rfl

theorem relayPump_empty {s : State} {dev : Nat} (h : ∀ q ∈ s.fab.relayQ, q.dst ≠ dev) (n : Nat) : relayPump n s dev = s := by
  cases n with
  | zero => rfl
  | succ n =>
    have hnone : s.fab.relayQ.find? (fun q => q.dst == dev) = none := List.find?_eq_none.mpr (fun q hq => by rw [beq_iff_eq]; exact h q hq)
    rw [relayPump, hnone]

/-- A root's copy joins those that wait for their member. -/
def queuing (s : State) (r : Packet) : State := { s with fab := { s.fab with relayQ := s.fab.relayQ ++ [r] } }

theorem relayPump_step {t : State} {r : Packet} {k : Nat} (hfind : t.fab.relayQ.find? (fun q => q.dst == r.dst) = some r)
    (hroom : podWindow t r.dst < 64) (hport : minPort t r.dst r.pa = some k) (n : Nat) :
    relayPump (n + 1) t r.dst =
      relayPump n (joins (relayed { t with fab := { t.fab with relayQ := t.fab.relayQ.erase r } } (numbered t r k)) (numbered t r k)) r.dst := by
  rw [relayPump, hfind]
  dsimp only
  rw [if_neg (Nat.not_le.mpr hroom), hport]
  rfl

/-- The only copy that waits for its member is sent where the member takes one more. -/
theorem relayPump_last {s : State} {r : Packet} {k : Nat} (hport : minPort s r.dst r.pa = some k) (hnone : ∀ q ∈ s.fab.relayQ, q.dst ≠ r.dst)
    (hroom : podWindow s r.dst < 64) (n : Nat) :
    relayPump (n + 1) (queuing s r) r.dst = sent (relayed s (numbered s r k)) (numbered s r k) := by
  have hfind : (queuing s r).fab.relayQ.find? (fun q => q.dst == r.dst) = some r := by
    show (s.fab.relayQ ++ [r]).find? _ = _
    rw [List.find?_append, List.find?_eq_none.mpr (fun q hq => by rw [beq_iff_eq]; exact hnone q hq)]
    simp
  have herase : (queuing s r).fab.relayQ.erase r = s.fab.relayQ := by
    show (s.fab.relayQ ++ [r]).erase r = _
    rw [List.erase_append_right _ (fun hr => hnone r hr rfl)]
    simp
  have hsame : minPort (relayed s (numbered s r k)) (numbered s r k).dst (numbered s r k).pa = some k := hport
  have hsent : sent (relayed s (numbered s r k)) (numbered s r k) = joins (relayed s (numbered s r k)) (numbered s r k) := by
    rw [sent, hsame]
    rfl
  rw [relayPump_step hfind (show podWindow (queuing s r) r.dst < 64 from hroom) (show minPort (queuing s r) r.dst r.pa = some k from hport) n, herase, hsent]
  exact relayPump_empty (s := joins (relayed s (numbered s r k)) (numbered s r k))
    (fun q hq => hnone q (joins_relayQ (relayed s (numbered s r k)) (numbered s r k) ▸ hq)) n

section
variable (hturn : TakesTurn s p) (hcode : p.code = 1)
include hcode

theorem copyDo_mco : copyDo (holding s p) p = mcoServe (holding s p) p := by rw [copyDo, if_pos hcode]

theorem mcoServe_noGroup {rank tag gen : Nat} (htags : p.tags = [(rank, tag, gen)]) (hgroup : groupAny s p.group = none) :
    copyDo (holding s p) p = some (sent (holding s p) (answer s { p with rank, tag, gen, origin := 0 } 1 [])) := by
  have hnone : groupAny (holding s p) p.group = none := hgroup
  rw [copyDo_mco hcode, mcoServe, hnone]
  dsimp only
  rw [htags, List.foldl_cons, List.foldl_nil, respond_eq_sent]
  rfl

theorem mcoServe_group {rank tag gen : Nat} (htags : p.tags = [(rank, tag, gen)]) {g : Group} (hgroup : groupAny s p.group = some g) {m : Nat × Nat}
    (hm : g.members.getD rank (0, 0) = m) :
    copyDo (holding s p) p = if m.1 = ownDev s ∧ copyLocked (holding s p) p (m.2 + p.pa) = true then none else
      some (if m.1 = ownDev s then
          sent (copyStore (holding s p) p (m.2 + p.pa)).2 (answer (copyStore (holding s p) p (m.2 + p.pa)).2 { p with rank, tag, gen, origin := 0 }
            (copyStore (holding s p) p (m.2 + p.pa)).1 [])
        else if (minPort s m.1 (m.2 + p.pa)).isNone then sent (holding s p) (answer s { p with rank, tag, gen, origin := 0 } 3 [])
        else relayPump 64 (queuing (holding s p) (relayCopy s p m rank tag gen)) m.1) := by
  subst hm
  have hsome : groupAny (holding s p) p.group = some g := hgroup
  rw [copyDo_mco hcode, mcoServe, hsome]
  dsimp only
  rw [rootServe, htags, List.foldl_cons, List.foldl_nil, List.any_cons, List.any_nil, Bool.or_false]
  dsimp only
  simp only [respond_eq_sent, Bool.and_eq_true, beq_iff_eq]
  rfl

include hturn

theorem mco_noTags (htags : p.tags = []) : copyIn s p = turnPassed s p.src := by
  have hdo : copyDo (holding s p) p = some (holding s p) := by
    rw [copyDo_mco hcode, mcoServe]
    cases groupAny (holding s p) p.group with
    | none => simp only [htags, List.foldl_nil]
    | some g => simp only [htags, rootServe, List.foldl_nil, List.any_nil, Bool.false_eq_true, if_false]
  exact copyIn_performed (t := holding s p) hturn hdo rfl rfl

section
variable {rank tag gen : Nat} (htags : p.tags = [(rank, tag, gen)])
include htags

theorem mco_noGroup (hgroup : groupAny s p.group = none) :
    copyIn s p = sent (turnPassed s p.src) (answer s { p with rank, tag, gen, origin := 0 } 1 []) :=
  copyIn_answered (w := holding s p) hturn (mcoServe_noGroup hcode htags hgroup) rfl

section
variable {g : Group} (hgroup : groupAny s p.group = some g) {m : Nat × Nat} (hm : g.members.getD rank (0, 0) = m)
include hgroup hm

theorem mco_unreachable (hother : m.1 ≠ ownDev s) (hport : minPort s m.1 (m.2 + p.pa) = none) :
    copyIn s p = sent (turnPassed s p.src) (answer s { p with rank, tag, gen, origin := 0 } 3 []) := by
  have hdo := mcoServe_group hcode htags hgroup hm
  rw [if_neg (fun h => hother h.1), if_neg hother, if_pos (Option.isNone_iff_eq_none.mpr hport)] at hdo
  exact copyIn_answered (w := holding s p) hturn hdo rfl

section
variable (hself : m.1 = ownDev s)
include hself

theorem mco_locked (hop : p.op ≠ 1) (hlock : lockBlocks s (m.2 + p.pa) p.data.length true = true) : copyIn s p = holding s p := by
  have hdo := mcoServe_group hcode htags hgroup hm
  rw [if_pos ⟨hself, copyLocked_true hop hlock⟩] at hdo
  exact copyIn_waits hturn hdo

variable (hfree : p.op = 1 ∨ lockBlocks s (m.2 + p.pa) p.data.length true = false) (horigin : p.origin ≠ ownDev s + 1)
include hfree horigin

theorem mco_refused (hadm : ∀ ten, ¬ Admits s { p with pa := m.2 + p.pa } [2] ten) :
    copyIn s p = sent (turnPassed s p.src) (answer s { p with rank, tag, gen, origin := 0 } 1 []) := by
  have hdo := mcoServe_group hcode htags hgroup hm
  rw [if_neg (by rw [copyLocked_false hfree]; simp), if_pos hself, copyStore_refused horigin hadm] at hdo
  exact copyIn_answered (w := holding s p) (a := answer s { p with rank, tag, gen, origin := 0 } 1 []) hturn hdo rfl

theorem mco_stored {ten : Nat} (hadm : Admits s { p with pa := m.2 + p.pa } [2] ten) (hbar : p.lane / 2 ^ 14 % 2 = 0) :
    copyIn s p = sent (copied s p ten (m.2 + p.pa)) (answer s { p with rank, tag, gen, origin := 0 } 0 []) := by
  obtain ⟨hsfab, hssys⟩ := storedAt_keeps (devStore_stored (holding s p) ten (m.2 + p.pa) p.data)
  have hcount : Counts (devStore (holding s p) ten (m.2 + p.pa) p.data) (devStore (holding s p) ten (m.2 + p.pa) p.data) p.lane p.data.length ten := by
    rw [Counts, if_pos hbar]
  have hdo := mcoServe_group hcode htags hgroup hm
  rw [if_neg (by rw [copyLocked_false hfree]; simp), if_pos hself, copyStore_admitted horigin hadm, recvCount_counts hcount] at hdo
  dsimp only at hdo
  rw [if_pos rfl, answer_congr hssys] at hdo
  exact copyIn_answered hturn hdo hsfab

end

theorem mco_relayed (hother : m.1 ≠ ownDev s) {k : Nat} (hport : minPort s m.1 (m.2 + p.pa) = some k) (hnone : ∀ q ∈ s.fab.relayQ, q.dst ≠ m.1)
    (hroom : podWindow s m.1 < 64) :
    copyIn s p = sent (relayed (turnPassed s p.src) (numbered s (relayCopy s p m rank tag gen) k)) (numbered s (relayCopy s p m rank tag gen) k) := by
  have hdo := mcoServe_group hcode htags hgroup hm
  rw [if_neg (fun h => hother h.1), if_neg hother, if_neg (by rw [hport]; simp)] at hdo
  have hpump := relayPump_last (s := holding s p) (r := relayCopy s p m rank tag gen) hport hnone hroom 63
  exact copyIn_sent (w := relayed (holding s p) (numbered s (relayCopy s p m rank tag gen) k)) hturn (hdo.trans (congrArg some hpump)) rfl rfl

end
end
end

end Sys2Proof.Machine
end

section
/-! SUPPORT. Packets of a collective that arrive at this device (R154, R166 to R169, R428; log entry 119). -/

namespace Sys2Proof.Machine
-- One declaration after the other: in parallel, the threads' stacks pass the check's memory limit.
set_option Elab.async false
open Sys2Proof.Claims

/-- Bytes of the contributions and deliveries that the reduction unit of a block holds (R167). -/
def unitLoad (s : State) (block : Nat) : Nat :=
  ((s.fab.nodes.filter (fun n => n.block % 8 == block % 8)).map (fun n => 4 * n.data.length)).sum +
    ((s.fab.pendingDel.filter (fun q => q.index % 8 == block % 8)).map (fun q => q.data.length)).sum

theorem unitRoom_iff (s : State) (block n : Nat) : unitRoom s block n = true ↔ unitLoad s block + n ≤ 2 ^ 18 := decide_eq_true_iff

/-- A packet waits at this device for room in its unit (R167). -/
def stalling (s : State) (p : Packet) : State :=
  { s with fab := { s.fab with stalled := s.fab.stalled ++ [{ p with headAt := some (s.clock.time.toNat / 64), blocked := false }] } }

/-- A unit holds a contribution (R168). -/
def contributed (s : State) (p : Packet) : State :=
  { s with fab := { s.fab with nodes := s.fab.nodes ++ [{ group := p.group, seq := p.seq, block := p.index, node := p.rank, width := p.n, data := (List.range (p.data.length / 4)).map (fun i => BitVec.ofNat 32 (natAt p.data (4 * i) 4)) }] } }

/-- A unit holds a delivery until its entry has started (R428). -/
def deferred (s : State) (p : Packet) : State := { s with fab := { s.fab with pendingDel := s.fab.pendingDel ++ [p] } }

/-- A sparse packet is buffered (R169). -/
def buffered (s : State) (p : Packet) : State := { s with fab := { s.fab with sparse := s.fab.sparse ++ [p] } }

/-- A packet sent leaves the engines' operations as they are. -/
theorem sent_ops (s : State) (p : Packet) : (sent s p).ops = s.ops := by
  rw [sent]
  cases minPort s p.dst p.pa with
  | none => rfl
  | some k =>
    dsimp only
    rw [joins, setQueues, setHints]
    split <;> rfl

section
variable {s : State} {p : Packet}

section
variable (hvia : p.via = 0)
include hvia

theorem needsRoom_iff : (decide (p.via = 0) && !unitRoom s p.index p.data.length) = true ↔ ¬ unitLoad s p.index + p.data.length ≤ 2 ^ 18 := by
  rw [hvia, decide_eq_true rfl, Bool.true_and, Bool.not_eq_true', ← Bool.not_eq_true, unitRoom_iff]

/-! ## Contributions (R167, R168) -/

theorem ctbIn_stalls (hfull : ¬ unitLoad s p.index + p.data.length ≤ 2 ^ 18) : ctbIn s p = stalling s p := by
  rw [ctbIn, if_pos ((needsRoom_iff hvia).mpr hfull)]
  rfl

section
variable (hroom : unitLoad s p.index + p.data.length ≤ 2 ^ 18)
include hroom

theorem ctbIn_taken : ctbIn s p = match collOp s p.group p.seq with
    | none => sent (contributed s p) (answer s p 0 [])
    | some o => runOp (sent (contributed s p) (answer s p 0 [])) o.id := by
  have hcoll : collOp (sent (contributed s p) (answer s p 0 [])) p.group p.seq = collOp s p.group p.seq := congrArg (List.find? _) (sent_ops ..)
  rw [← hcoll, ctbIn, if_neg (mt (needsRoom_iff hvia).mp (not_not.mpr hroom))]
  dsimp only
  rw [respond_eq_sent]
  rfl

theorem ctbIn_held (hnone : collOp s p.group p.seq = none) : ctbIn s p = sent (contributed s p) (answer s p 0 []) := by
  rw [ctbIn_taken hvia hroom, hnone]

theorem ctbIn_runs {o : EngOp} (hop : collOp s p.group p.seq = some o) : ctbIn s p = runOp (sent (contributed s p) (answer s p 0 [])) o.id := by
  rw [ctbIn_taken hvia hroom, hop]

end

/-! ## Deliveries (R154, R166, R169, R428) -/

omit hvia in
/-- A delivery's place in the own window: its block, and with a gather its rank's part. -/
theorem deliveryOffset_eq (o : EngOp) (p : Packet) :
    (if o.ty = 8 then p.rank * o.glen + 4096 * p.index else 4096 * p.index) = (if o.ty = 8 then p.rank * o.glen else 0) + 4096 * p.index := by
  split <;> omega

theorem deliveryIn_stalls (hnone : collOp s p.group p.seq = none) (hfull : ¬ unitLoad s p.index + p.data.length ≤ 2 ^ 18) : deliveryIn s p = stalling s p := by
  rw [deliveryIn, hnone]
  exact if_pos ((needsRoom_iff hvia).mpr hfull)

theorem deliveryIn_defers (hnone : collOp s p.group p.seq = none) (hroom : unitLoad s p.index + p.data.length ≤ 2 ^ 18) :
    deliveryIn s p = deferred s p := by
  rw [deliveryIn, hnone]
  exact if_neg (mt (needsRoom_iff hvia).mp (not_not.mpr hroom))

end

section
variable {o : EngOp} (hop : collOp s p.group p.seq = some o)
include hop

theorem deliveryIn_placed {st : Nat} {t : State} (hplace : placeDelivery s o p true = (st, t)) (hsys : t.sys = s.sys) :
    deliveryIn s p = runOp (sent t (answer s p st [])) o.id := by
  rw [deliveryIn, hop]
  dsimp only
  rw [hplace]
  dsimp only
  rw [respond_eq_sent, answer_congr hsys]

section
variable (hcode : p.code = 6) {a : Nat} (hwin : ownWindow s o ((if o.ty = 8 then p.rank * o.glen else 0) + 4096 * p.index) = some a)
include hcode hwin

omit hop in
theorem placeDelivery_refused (hadm : admission s p.domain a .w = none) : placeDelivery s o p true = (1, s) := by
  rw [placeDelivery, if_neg (by rw [hcode]; simp), if_neg (by rw [hcode]; decide)]
  simp only [deliveryOffset_eq, hwin, if_true, hadm]

omit hop in
/-- A delivery that is let in and counts into no barrier is stored and counted by its entry. -/
theorem placeDelivery_stored {ten : Nat} (hadm : admission s p.domain a .w = some ten) (hbar : o.recv / 2 ^ 14 % 2 = 0) : placeDelivery s o p true =
    (0, updEop (devStore s ten a p.data) o.id (fun x => { x with delivered := x.delivered + 1 })) := by
  have hcount : recvCount (devStore s ten a p.data) o.recv p.data.length ten = (true, devStore s ten a p.data) :=
    recvCount_counts (by rw [Counts, if_pos hbar])
  rw [placeDelivery, if_neg (by rw [hcode]; simp), if_neg (by rw [hcode]; decide)]
  simp only [deliveryOffset_eq, hwin, if_true, hadm, hcount]

theorem crs_refused (hadm : ∀ ten, ¬ Admits s { p with pa := a } [2] ten) : deliveryIn s p = runOp (sent s (answer s p 1 [])) o.id :=
  deliveryIn_placed hop (placeDelivery_refused hcode hwin (admission_none (p := { p with pa := a }) (need := .w) hadm)) rfl

theorem crs_stored {ten : Nat} (hadm : Admits s { p with pa := a } [2] ten) (hbar : o.recv / 2 ^ 14 % 2 = 0) :
    deliveryIn s p =
      runOp (sent (updEop (devStore s ten a p.data) o.id (fun x => { x with delivered := x.delivered + 1 })) (answer s p 0 [])) o.id :=
  deliveryIn_placed hop (placeDelivery_stored hcode hwin ((admission_eq_some_iff s { p with pa := a } .w ten).mpr hadm) hbar)
    (storedAt_keeps (devStore_stored s ten a p.data)).2

end

section
variable (hcode : p.code = 7) {a : Nat} (hwin : ownWindow s o (o.elBytes * p.index) = some a)
include hcode hwin

theorem spk_refused (hadm : ∀ ten, ¬ Admits s { p with pa := a } [2] ten) : deliveryIn s p = runOp (sent s (answer s p 1 [])) o.id := by
  have hplace : placeDelivery s o p true = (1, s) := by
    rw [placeDelivery, hwin]
    dsimp only
    rw [if_pos (by simp [hcode, admission_none (p := { p with pa := a }) (need := .w) hadm])]
  exact deliveryIn_placed hop hplace rfl

theorem spk_buffered {ten : Nat} (hadm : Admits s { p with pa := a } [2] ten)
    (hfew : ((s.fab.sparse ++ [p]).filter (fun x => x.group == p.group && x.seq == p.seq && x.rank == o.delivered / sparseCount o)).length < sparseCount o) :
    deliveryIn s p = runOp (sent (buffered s p) (answer s p 0 [])) o.id := by
  have hsparse : sparseAdd 1024 (buffered s p) p.group p.seq = buffered s p := by
    have hcoll : collOp (buffered s p) p.group p.seq = some o := hop
    rw [sparseAdd, hcoll]
    dsimp only
    rw [if_neg (show sparseCount o ≠ 0 by omega)]
    exact if_pos (Or.inr hfew)
  have hplace : placeDelivery s o p true = (0, buffered s p) := by
    rw [placeDelivery, hwin]
    dsimp only
    rw [if_neg (by simp [(admission_eq_some_iff s { p with pa := a } .w ten).mpr hadm]), if_pos hcode]
    exact congrArg (Prod.mk 0) hsparse
  exact deliveryIn_placed hop hplace rfl

end
end
end

end Sys2Proof.Machine
end

section
/-! SUPPORT. Requests of this device that end: their responses, the responses that come too late, and their timeouts (R152, R156, R157,
R166, R175). -/

namespace Sys2Proof.Machine
-- One declaration after the other: in parallel, the threads' stacks pass the check's memory limit.
set_option Elab.async false
open Sys2Proof.Claims

/-! ## A count of SYS.FAB_CNT (R175) -/

/-- Writing a field of a word: bit i of the result. -/
theorem withBits_field_getLsbD (hi lo x : Nat) (v : W64) {i : Nat} (h : i < 64) :
    (withBits hi lo x v).getLsbD i = if lo ≤ i ∧ i - lo < hi - lo + 1 then x.testBit (i - lo) else v.getLsbD i := by
  simp only [withBits, BitVec.getLsbD_or, BitVec.getLsbD_and, BitVec.getLsbD_not, BitVec.getLsbD_ofNat, Nat.testBit_shiftLeft, Nat.testBit_two_pow_sub_one,
    h, decide_true, Bool.true_and]
  by_cases hlo : lo ≤ i <;> by_cases hwidth : i - lo < hi - lo + 1 <;> simp [hlo, hwidth]

theorem withBits_field_same (lo x : Nat) (v : W64) (hlo : lo + 12 ≤ 64) (hx : x < 2 ^ 12) :
    ((withBits (lo + 11) lo x v).extractLsb' lo 12).toNat = x := by
  have hfield : (withBits (lo + 11) lo x v).extractLsb' lo 12 = BitVec.ofNat 12 x := by
    apply BitVec.eq_of_getLsbD_eq
    intro i hi
    rw [BitVec.getLsbD_extractLsb', withBits_field_getLsbD _ _ _ _ (by omega), if_pos (by omega), BitVec.getLsbD_ofNat, Nat.add_sub_cancel_left]
  rw [hfield, BitVec.toNat_ofNat, Nat.mod_eq_of_lt hx]

theorem fabCount_counted (s : State) {lo : Nat} (hlo : lo + 12 ≤ 64) : Counted s (fabCount s lo) lo := by
  have hcount : bits (lo + 11) lo (sysGet s 0x03F) = ((sysGet s 0x03F).extractLsb' lo 12).toNat := bits_eq_toNat_extractLsb' lo 12 _ (by decide)
  have hword : sysGet (fabCount s lo) 0x03F =
      withBits (lo + 11) lo (min (((sysGet s 0x03F).extractLsb' lo 12).toNat + 1) 0xFFF) (sysGet s 0x03F) := by
    rw [← hcount]
    exact (sysGet_sysSet ..).trans (if_pos rfl)
  refine ⟨?_, fun n hn hout => ?_, fun n hn => ?_, rfl⟩
  · rw [hword, withBits_field_same lo _ _ hlo (by omega)]
  · rw [hword, withBits_field_getLsbD _ _ _ _ hn, if_neg (by omega)]
  · exact (sysGet_sysSet ..).trans (if_neg (by rintro rfl; exact hn rfl))

/-! ## How a request ends (R152, R156, R166) -/

/-- The fault of a status. -/
def endCode (st : Nat) : Nat := match st with | 1 => fcPagePerm | 2 => fcFabricTimeout | 3 => fcFabricTimeout | 4 => fcRangeLock | _ => fcPoison
def endCause (st : Nat) : Nat := match st with | 1 => 5 | 3 => 1 | _ => 0

theorem statusFault_eq : (st : Nat) → statusFault st = (endCode st, endCause st)
  | 0 | 1 | 2 | 3 | 4 | _ + 5 => rfl

theorem pktLevel_endCode (p : Packet) : (st : Nat) → pktLevel p (endCode st) = if st = 1 then p.level else 0
  | 0 | 1 | 2 | 3 | 4 | _ + 5 => rfl

/-- The record of an event operation that failed names the address space and queue of its grid, where that still runs (R352). -/
theorem eventFailed_emits (u : State) (gid ten : Nat) (teamId pc : W64) (word : W32) (va : W64) (p : Packet) (st : Nat) :
    ∃ asid q, (∀ g, findGrid u gid = some g → asid = g.asid ∧ q = g.queue) ∧ eventFailed u gid ten teamId pc word va p st = emit u ten
      { code := endCode st, cause := endCause st, level := if st = 1 then p.level else 0, issuer := 1, pc, va, asid, teamId, queue := q, word } 0 := by
  rw [eventFailed, statusFault_eq, ← pktLevel_endCode]
  cases findGrid u gid with
  | none => exact ⟨0, 0, fun g hg => (nomatch hg), rfl⟩
  | some g =>
    refine ⟨g.asid, g.queue, fun x hx => ?_, rfl⟩
    obtain rfl := Option.some.inj hx
    exact ⟨rfl, rfl⟩

/-- A request that ends does what its use says. -/
theorem podDone_ends (u : State) {T : ReqTag} {use : TagUse} (huse : T.use = some use) (st : Nat) (d : List Byte) :
    Ends u T st d (podDone u use T.gid T.pkt st d) := by
  obtain ⟨gen, id, use', dev, sentAt, timeout, gid, pkt⟩ := T
  obtain rfl : use' = some use := huse
  unfold podDone
  rw [statusFault_eq]
  cases use with
  | lane op gl m =>
    cases m with
    | none => exact rfl
    | some m => exact rfl
  | event ten x teamId pc word va =>
    by_cases hst : st = 0
    · subst hst
      exact rfl
    · obtain ⟨asid, q, hgrid, hemit⟩ := eventFailed_emits u gid ten teamId pc word va pkt st
      have hends : Ends u ⟨gen, id, some (.event ten x teamId pc word va), dev, sentAt, timeout, gid, pkt⟩ st d (eventFailed u gid ten teamId pc word va pkt st) :=
        (if_neg hst).mpr ⟨asid, q, hgrid, hemit⟩
      simpa only [if_neg hst] using hends
  | engine op m va => exact rfl
  | queue q n =>
    show if pkt.code = 16 then _ else if st = 0 then _ else _
    by_cases hread : pkt.code = 16
    · simp only [if_pos hread]
    · by_cases hst : st = 0
      · simp only [if_neg hread, if_pos hst]
      · simp only [if_neg hread, if_neg hst]
  | grid gid' =>
    refine ⟨fun hnone => ?_, fun g hg => ?_⟩
    · simp only [hnone]
    · simp only [hg]
  | matrix cl io =>
    dsimp only
    rw [pktLevel_endCode]
    exact rfl
  | fetch g pc =>
    dsimp only
    rw [pktLevel_endCode]
    exact rfl
  | zero base => exact rfl

/-- A tag whose request ends is free, and what waits for the request goes on. -/
theorem endTag_ends {s : State} {key : Nat} {T : ReqTag} (hT : tget {} key s.fab.tags = T) (huse : T.use ≠ none) (late : Bool) (st : Nat) (d : List Byte) :
    ∃ x u, endTag s key late st d = relayPump 64 x T.dev ∧ Freed s u key late ∧ Ends u T st d x := by
  obtain ⟨use, huse⟩ := Option.ne_none_iff_exists'.mp huse
  refine ⟨podDone (freeTagAt s key late) use T.gid T.pkt st d, freeTagAt s key late, ?_, rfl, podDone_ends _ huse st d⟩
  rw [endTag, hT, huse]

/-! ## Responses and timeouts (R156, R157) -/

section
variable {s : State} {p : Packet} (horigin : p.origin = 0)
include horigin

/-- A response whose request has ended is counted and dropped. -/
theorem responseIn_late (h : (tget {} (4096 * p.die + p.tag) s.fab.tags : ReqTag).use = none ∨
    (tget {} (4096 * p.die + p.tag) s.fab.tags : ReqTag).gen ≠ p.gen) : responseIn s p = fabCount s 48 := by
  rw [responseIn, if_neg (not_not.mpr horigin)]
  exact if_pos (by simpa using h)

theorem responseIn_ends (huse : (tget {} (4096 * p.die + p.tag) s.fab.tags : ReqTag).use ≠ none)
    (hgen : (tget {} (4096 * p.die + p.tag) s.fab.tags : ReqTag).gen = p.gen) :
    responseIn s p = endTag s (4096 * p.die + p.tag) false p.status p.data := by
  rw [responseIn, if_neg (not_not.mpr horigin)]
  exact if_neg (by simp [huse, hgen])

end

/-- The request of a tag has run out of time, and the event is for its tag or for any. -/
def Expired (s : State) (x : Nat × ReqTag) : Prop :=
  x.2.use ≠ none ∧ (∃ c, x.2.sentAt = some c ∧ c + x.2.timeout ≤ s.clock.time.toNat / 64) ∧ (s.arg.a = 0 ∨ x.1 + 1 = s.arg.a)

/-- The same as the device tests it. -/
def expired (s : State) (t : Nat × ReqTag) : Bool := t.2.use.isSome && (s.arg.a == 0 || t.1 + 1 == s.arg.a) &&
  (match t.2.sentAt with | some c => decide (c + t.2.timeout ≤ nsOf s) | none => false)

theorem expired_iff (s : State) (x : Nat × ReqTag) : expired s x = true ↔ Expired s x := by
  have htime : (match x.2.sentAt with | some c => decide (c + x.2.timeout ≤ nsOf s) | none => false) = true ↔
      ∃ c, x.2.sentAt = some c ∧ c + x.2.timeout ≤ s.clock.time.toNat / 64 := by
    cases x.2.sentAt with
    | none => simp
    | some c =>
      rw [decide_eq_true_iff]
      simp [nsOf]
  rw [expired, Bool.and_eq_true, Bool.and_eq_true, htime, Bool.or_eq_true, beq_iff_eq, beq_iff_eq, Option.isSome_iff_ne_none, Expired]
  tauto

theorem exec_fabricTimeout (s : State) : exec .fabricTimeout s = .next (match s.fab.tags.find? (expired s) with
    | none => s
    | some t => endTag s t.1 true 2 []) := rfl

theorem fabricTimeout_none {s : State} (h : ∀ x ∈ s.fab.tags, ¬ Expired s x) : Does .fabricTimeout s s := by
  have hnone : s.fab.tags.find? (expired s) = none := List.find?_eq_none.mpr (fun x hx => mt (expired_iff s x).mp (h x hx))
  rw [Does, exec_fabricTimeout, hnone]

theorem fabricTimeout_ends {s : State} {l r : Tbl ReqTag} {key : Nat} {T : ReqTag} (htags : s.fab.tags = l ++ (key, T) :: r)
    (hfirst : ∀ x ∈ l, ¬ Expired s x) (hlate : Expired s (key, T)) : Does .fabricTimeout s (endTag s key true 2 []) := by
  have hsome : s.fab.tags.find? (expired s) = some (key, T) := by
    rw [htags, List.find?_append, List.find?_eq_none.mpr (fun x hx => mt (expired_iff s x).mp (hfirst x hx)), Option.none_or,
      List.find?_cons_of_pos ((expired_iff s (key, T)).mpr hlate)]
  rw [Does, exec_fabricTimeout, hsome]

end Sys2Proof.Machine
end

section
/-! Packets at this device (R128, R147, R148, R152 to R154, R156, R157, R159, R164 to R166, R168, R169, R352; log entries 27, 119 and
121). -/

namespace Sys2Proof.Machine
-- One declaration after the other: in parallel, the threads' stacks pass the check's memory limit.
set_option Elab.async false
open Sys2Proof.Claims

section
variable {s : State}

/-! ## Packets for another device -/

section
variable {i : Instr} {c : Nat} (hrow : (i, c) ∈ packetRows) (hother : (came s).dst ≠ ownDev s)
include hrow hother

theorem packet_routed (hport : minPort s (came s).dst (came s).pa ≠ none) : Does i s (sent s { came s with code := c }) :=
  (exec_packetRow hrow s).trans (congrArg _ (arrive_routed (p := { came s with code := c }) hother hport))

variable (hport : minPort s (came s).dst (came s).pa = none)
include hport

theorem packet_noRoute : Does i s (noRoute s { came s with code := c }) :=
  (exec_packetRow hrow s).trans (congrArg _ (arrive_noRoute (p := { came s with code := c }) hother hport))

theorem packet_lost (hc : c = 8 ∨ c = 18 ∨ c = 19) : Does i s s :=
  (packet_noRoute hrow hother hport).trans (congrArg _ (noRoute_lost (p := { came s with code := c }) hc))

theorem packet_unreachable (hsrc : (came s).src ≠ ownDev s) (hc : c ∉ [1, 8, 18, 19]) :
    Does i s (sent s (answer s { came s with code := c } 3 [])) :=
  (packet_noRoute hrow hother hport).trans (congrArg _ (noRoute_unreachable (p := { came s with code := c }) hsrc hc))

theorem packet_orderedUnreachable {rank tag gen : Nat} (hsrc : (came s).src ≠ ownDev s) (hc : c = 1) (htags : (came s).tags = [(rank, tag, gen)]) :
    Does i s (sent s (answer s { came s with code := 1, rank, tag, gen } 3 [])) := by
  subst hc
  exact (packet_noRoute hrow hother hport).trans (congrArg _ (noRoute_ordered (p := { came s with code := 1 }) hsrc rfl htags))

end

/-! ## Copies at this device -/

section
variable (hown : (came s).dst = ownDev s)
include hown

theorem copy_early {i : Instr} {c : Nat} (hrow : (i, c) ∈ [(Instr.mcw, 0), (.mco, 1)])
    (hheld : ∀ x ∈ s.fab.held, x.src = (came s).src → x.seq ≠ tget 0 (came s).src s.fab.seqFrom)
    (hseq : (came s).seq ≠ tget 0 (came s).src s.fab.seqFrom) : Does i s (holding s { came s with code := c }) := by
  have hcopy : exec i s = .next (copyIn s { came s with code := c }) := by
    simp only [List.mem_cons, List.not_mem_nil, or_false, Prod.mk.injEq] at hrow
    obtain ⟨rfl, rfl⟩ | ⟨rfl, rfl⟩ := hrow
    · exact mcw_own hown
    · exact mco_own hown
  exact hcopy.trans (congrArg _ (copyIn_early (p := { came s with code := c }) hheld hseq))

theorem does_mcw {t : State} (h : copyIn s { came s with code := 0 } = t) : Does .mcw s t := (mcw_own hown).trans (congrArg _ h)
theorem does_mco {t : State} (h : copyIn s { came s with code := 1 } = t) : Does .mco s t := (mco_own hown).trans (congrArg _ h)

end

/-! ## Collectives at this device -/

theorem delivery_exec (hown : (came s).dst = ownDev s) {i : Instr} {c : Nat} (hrow : (i, c) ∈ [(Instr.crs, 6), (.spk, 7)]) :
    exec i s = .next (deliveryIn s { came s with code := c }) := by
  simp only [List.mem_cons, List.not_mem_nil, or_false, Prod.mk.injEq] at hrow
  obtain ⟨rfl, rfl⟩ | ⟨rfl, rfl⟩ := hrow
  · exact crs_own hown
  · exact spk_own hown

theorem locked_of_not_free {op pa n : Nat} (h : ¬ (op = 1 ∨ lockBlocks s pa n true = false)) : op ≠ 1 ∧ lockBlocks s pa n true = true := by
  rwa [not_or, Bool.not_eq_false] at h

end

/-- Settles O50, a packet of each kind in turn: `arrive` routes it or hands it to its kind's handler, and each handler's cases are lemmas of
their own. -/
theorem podPackets : Obligations.PodPackets := by
  unfold Obligations.PodPackets
  intro s p own as
  refine ⟨?routed, ?requests, ?events, ?copies, ?contributions, ?deliveries, ?responses, ?timeouts⟩
  case routed =>
    exact fun i c hrow hother => ⟨packet_routed hrow hother, packet_lost hrow hother, packet_unreachable hrow hother,
      fun _ _ _ hport hsrc hc htags => packet_orderedUnreachable hrow hother hport hsrc hc htags⟩
  case requests => exact fun hown i c rights k hrow => ⟨fun _ => request_queues hown hrow, request_refused hown hrow⟩
  case events =>
    intro hown hop rights v locked
    have hrights : rights = (eventNeed p.op).bits := (eventNeed_bits p.op).symm
    clear_value rights
    subst hrights
    refine ⟨eventOp_refused hown hop, fun ten hadm hlocked => eventOp_locked hown hop hadm hlocked.1 hlocked.2, fun ten hadm hfree => ?_⟩
    obtain ⟨w, hdoes, hmem, hqueues, hteams, hfab, -⟩ := eventOp_performed hown hop hadm hfree
    exact ⟨w, hdoes, hmem, hqueues, hteams, hfab⟩
  case copies =>
    intro hown n u next free
    refine ⟨fun i c hrow hheld hseq => copy_early hown hrow hheld hseq, fun hturn hop hlock => does_mcw hown (mcw_locked (p := as 0) rfl hturn hop hlock),
      fun hturn hfree horigin hadm => does_mcw hown (mcw_refused (p := as 0) rfl hturn hfree horigin hadm), fun hturn hfree horigin ten hadm => ?stored,
      fun hturn htags => does_mco hown (mco_noTags (p := as 1) hturn rfl htags), fun hturn rank tag gen htags => ?ordered⟩
    case stored =>
      exact ⟨copied s (as 0) ten p.pa, copied_stored s (as 0) ten p.pa,
        fun w hcount => does_mcw hown (mcw_counted (p := as 0) rfl hturn hfree horigin hadm hcount),
        fun hbar hnone => does_mcw hown (mcw_otherBarrier (p := as 0) rfl hturn hfree horigin hadm hbar hnone)⟩
    case ordered =>
      refine ⟨fun hgroup => does_mco hown (mco_noGroup (p := as 1) hturn rfl htags hgroup), fun g hgroup => ?_⟩
      intro m pa
      refine ⟨fun hself hbusy => ?_, ?_, ?_, ?_, ?_⟩
      · obtain ⟨hop, hlock⟩ := locked_of_not_free hbusy
        exact does_mco hown (mco_locked (p := as 1) hturn rfl htags hgroup rfl hself hop hlock)
      · exact fun hself hfree horigin hadm => does_mco hown (mco_refused (p := as 1) hturn rfl htags hgroup rfl hself hfree horigin hadm)
      · exact fun hself hfree horigin hbar ten hadm => ⟨copied s (as 1) ten pa, copied_stored s (as 1) ten pa,
          does_mco hown (mco_stored (p := as 1) hturn rfl htags hgroup rfl hself hfree horigin hadm hbar)⟩
      · exact fun hother hport => does_mco hown (mco_unreachable (p := as 1) hturn rfl htags hgroup rfl hother hport)
      · exact fun k hother hport hnone hroom => does_mco hown (mco_relayed (p := as 1) hturn rfl htags hgroup rfl hother hport hnone hroom)
  case contributions =>
    intro hown u
    exact ⟨fun hfull => (ctb_own hown).trans (congrArg _ (ctbIn_stalls (p := as 5) rfl hfull)),
      fun hroom => ⟨fun hnone => (ctb_own hown).trans (congrArg _ (ctbIn_held (p := as 5) rfl hroom hnone)),
        fun o hop => (ctb_own hown).trans (congrArg _ (ctbIn_runs (p := as 5) rfl hroom hop))⟩⟩
  case deliveries =>
    refine fun hown => ⟨fun hnone i c hrow => ⟨fun hfull => ?_, fun hroom => ?_⟩, fun o hop => ⟨fun a hwin => ⟨fun hadm => ?_, fun ten hadm hbar => ?_⟩,
      fun a hwin => ⟨fun hadm => ?_, fun ten hadm => ?_⟩⟩⟩
    · exact (delivery_exec hown hrow).trans (congrArg _ (deliveryIn_stalls (p := as c) rfl hnone hfull))
    · exact (delivery_exec hown hrow).trans (congrArg _ (deliveryIn_defers (p := as c) rfl hnone hroom))
    · exact (crs_own hown).trans (congrArg _ (crs_refused (p := as 6) hop rfl hwin hadm))
    · exact ⟨devStore s ten a p.data, devStore_stored s ten a p.data, (crs_own hown).trans (congrArg _ (crs_stored (p := as 6) hop rfl hwin hadm hbar))⟩
    · exact (spk_own hown).trans (congrArg _ (spk_refused (p := as 7) hop rfl hwin hadm))
    · exact fun hfew => (spk_own hown).trans (congrArg _ (spk_buffered (p := as 7) hop rfl hwin hadm hfew))
  case responses =>
    intro hown horigin key T
    refine ⟨fun hlate => ⟨fabCount s 48, ?_, fabCount_counted s (by decide)⟩, fun huse hgen => ?_⟩
    · exact (podResponse_own hown).trans (congrArg _ (responseIn_late (p := as 18) horigin hlate))
    · obtain ⟨x, u, hend, hfreed, hends⟩ := endTag_ends (s := s) (key := key) rfl huse false p.status p.data
      exact ⟨x, u, (podResponse_own hown).trans (congrArg _ ((responseIn_ends (p := as 18) horigin huse hgen).trans hend)), hfreed, hends⟩
  case timeouts =>
    intro late
    refine ⟨fabricTimeout_none, fun l key T r htags hfirst hlate hT => ?_⟩
    obtain ⟨x, u, hend, hfreed, hends⟩ := endTag_ends hT hlate.1 true 2 []
    exact ⟨x, u, (fabricTimeout_ends htags hfirst hlate).trans (congrArg _ hend), hfreed, hends⟩

end Sys2Proof.Machine
end

section
/-! What reset leaves in the system registers (Table 10.12, R143, R174; O60). -/

namespace Sys2Proof.Machine

/-- The register tables state the values that the model's registers read before any write. -/
theorem sysReset_resetTable : ∀ e ∈ Claims.resetTable, sysReset (e.1 % 4096) = BitVec.ofNat 64 e.2 ∧ sysReset e.1 = BitVec.ofNat 64 e.2 := by decide

/-- A tenant's ways register starts with every way (R174). -/
theorem sysReset_ways {n : Nat} (hlo : 0x100 ≤ n) (hhi : n < 0x140) : sysReset n = BitVec.ofNat 64 (0xFFFFFF * 2 ^ 40) := by
  have hn : ∀ k < 0x100, n ≠ k := fun k hk => by omega
  simp only [sysReset, srDevnum, srGambitCtl, srPtCtl, srRdcCtl, srCkoutCtl, srPreemptCtl, srPlaceD0, srPlaceD1, srSchedCtl, srSramDefault, srFabCtl, srSlateCtl,
    srTenantL, hn, Nat.reduceLT, if_false]
  exact if_pos ⟨hlo, by omega⟩

/-- Every register that no table names is 0 before any write. -/
theorem sysReset_other {n : Nat} (hn : n ∉ Claims.resetTable.map Prod.fst) (hrange : n < 0x100 ∨ 0x140 ≤ n) : sysReset n = 0 := by
  simp only [Claims.resetTable, List.map_cons, List.map_nil, List.mem_cons, List.not_mem_nil, or_false, not_or] at hn
  simp only [sysReset, srDevnum, srGambitCtl, srPtCtl, srRdcCtl, srCkoutCtl, srPreemptCtl, srPlaceD0, srPlaceD1, srSchedCtl, srSramDefault, srFabCtl, srSlateCtl,
    srTenantL, hn, if_false]
  exact if_neg (by omega)

theorem sysGet_reset (n : Nat) : sysGet State.reset n = sysReset (n % 4096) := rfl
theorem tsysGet_reset (t n : Nat) : tsysGet State.reset t n = sysReset n := rfl

/-- Settles O60: the registers by their reset values, the rest as the empty machine has it. -/
theorem resetValues : Obligations.ResetValues := by
  refine ⟨fun n v hrow => ?table, fun n hlo hhi => ?ways, fun n hlt hn hrange => ?others,
    fun _ => rfl, fun _ => rfl, rfl, rfl, rfl, rfl, rfl, fun _ => rfl, rfl, rfl, reset_wf, fun _ => rfl⟩
  case table =>
    obtain ⟨hsys, htenant⟩ := sysReset_resetTable (n, v) hrow
    exact ⟨hsys, fun _ => htenant⟩
  case ways => rw [sysGet_reset, Nat.mod_eq_of_lt (by omega), sysReset_ways hlo hhi]
  case others =>
    have hzero := sysReset_other hn hrange
    exact ⟨by rw [sysGet_reset, Nat.mod_eq_of_lt hlt, hzero], fun _ => hzero⟩

end Sys2Proof.Machine
end

section
/-! PACKET_BLOCKED and the register that BLOCK stands in (R171, Tables 5.12 and 10.12; O51). -/

namespace Sys2Proof.Machine

/-- Five microseconds after reset, with a packet of this device at the head of its queue since time 0: the reset BLOCK of SYS.FAB_CTL, 20 µs, has not passed, and
bits 47:32 of SYS.SRAM_DEFAULT are 0, which would mean 1 µs. -/
def fiveMicrosecondsAtHead : State :=
  { State.reset with clock := { time := 64 * 5000 }, fab := { outbox := [{ headAt := some 0 }] } }

/-- The model waits for BLOCK of SYS.FAB_CTL, so the packet is not yet blocked. -/
theorem markBlocked_fiveMicrosecondsAtHead : (markBlocked fiveMicrosecondsAtHead).fab.outbox.map Packet.blocked = [false] := by decide

/-- The claim's marking waits for bits 47:32 of register 0x03D, so the packet is blocked. -/
theorem marked_fiveMicrosecondsAtHead : (Claims.marked fiveMicrosecondsAtHead).fab.outbox.map Packet.blocked = [true] := by
  have hpassed : ∃ c, some 0 = some c ∧ c + max 1 ((sysGet fiveMicrosecondsAtHead 0x03D).extractLsb' 32 16).toNat * 1000 ≤ fiveMicrosecondsAtHead.clock.time.toNat / 64 :=
    ⟨0, rfl, by decide⟩
  exact congrArg (fun q : Packet => [q.blocked]) (if_pos ⟨rfl, hpassed⟩)

/-- Refutes O51: its clause on PACKET_BLOCKED reads BLOCK from register 0x03D, SYS.SRAM_DEFAULT, where R171 and Table 5.12 have SYS.FAB_CTL, 0x03E, as the model does. -/
theorem not_hallPassLinksAndTime : ¬ Obligations.HallPassLinksAndTime := by
  unfold Obligations.HallPassLinksAndTime
  intro h
  obtain ⟨-, -, -, -, -, -, -, hblocked, -⟩ := h fiveMicrosecondsAtHead
  have hmark : markBlocked fiveMicrosecondsAtHead = Claims.marked fiveMicrosecondsAtHead := Host.Outcome.next.inj hblocked
  have hsame := markBlocked_fiveMicrosecondsAtHead
  rw [hmark, marked_fiveMicrosecondsAtHead] at hsame
  exact absurd hsame (by decide)

end Sys2Proof.Machine
end
